-- ==== Sys2Proof/Word.lean ====
section
/-!
DEFINITION. The word types of the module and their plainest helpers: registers are 32 bits (R10), bytes and
little-endian multi-byte values (R8), vector lanes are 64 per register (Inside an Array).
-/

namespace Sys2Proof

/-- A register's 32 bits (R10). -/
abbrev Word := BitVec 32

/-- One byte of memory. -/
abbrev Byte := BitVec 8

/-- A 64-bit counter, map or timestamp (R11). -/
abbrev DWord := BitVec 64

/-- Arrays are numbered 0 to 63 and never renumbered (R24, R25). -/
abbrev ArrayNum := Fin 64

/-- Partitions are numbered 0 to 7 (R331). -/
abbrev PartNum := Fin 8

/-- Mailbox pairs are numbered 0 to 15 (R39). -/
abbrev PairNum := Fin 16

/-- Link port 0, and port 1 when the link is bifurcated (R43). -/
abbrev Port := Fin 2

end Sys2Proof
end

