-- ==== Sys2Proof/Syntax.lean ====
section
/-!
DEFINITION. The commands of the block: one constructor of `Instr` per row of spec/opcode_table.json, with its
operands. Rows are steps of the module, each whole and indivisible (95_what_each_step_holds.md). The table gives its
rows no bits, so the operands are the model's own typed data: which array, pair, command, session or partition the step
belongs to, and what the step receives from outside the module (a written value, a sensor reading, the host's stores).
-/

namespace Sys2Proof

/-- What the host (or a peer) has stored in its own memory by the time a step reads it: pairs of PCIe address and
byte. The key is port × 2^64 + address (assumption log). -/
abbrev HostStores := List Host.Cell

/-- Spindle's two halves (R352). -/
inductive Half where
  | a
  | b
  deriving DecidableEq, Repr

/-- Who makes a register access: the host through BAR2 of a port, a peer module through that BAR2, Spindle's active
half, or a block on its own account (R133, R361). -/
inductive Requester where
  | host (port : Port)
  | peer (port : Port)
  | spindle
  | reel
  | hawkmoth
  deriving DecidableEq, Repr

/-- Where Lomlet commands come from (R321): a mailbox pair, or one of the two management sessions (R399). -/
inductive Source where
  | pair (k : PairNum)
  | mgmt (session : Fin 2)
  deriving DecidableEq, Repr

/-- One command of a source, by its number in that source's count (R324, R332). -/
structure CmdRef where
  src : Source
  num : Word
  deriving DecidableEq, Repr

/-- How a get through a window ends on the link (R123, R136): every line returned, or an error completion after some
lines. -/
inductive LinkResult where
  | ok
  | error (linesReturned : Nat)
  deriving DecidableEq, Repr

/-- What the patrol scrub is passing over (R161). -/
inductive PatrolTarget where
  | vault (n : ArrayNum)
  | tier
  deriving DecidableEq, Repr

/-- One slice of the logits that a model's last kernels leave in spools (R247, R341): tokens `first` to
`first + count - 1` of slot s lie from spool offset `offset + s × slotStride` of `array`. -/
structure LogitSlice where
  array : ArrayNum
  offset : Nat
  first : Nat
  count : Nat
  slotStride : Nat
  deriving DecidableEq, Repr

/-- What a model image places on one array (R210, R341). -/
structure ImageArray where
  array : ArrayNum
  kvBase : Nat
  frameBytes : Nat
  fbBase : Nat
  fbFrameBytes : Nat
  kernels : List (Nat × List Byte)
  regions : List (Nat × Nat)
  deriving DecidableEq, Repr

/-- The placement data of a model image (R341). The image's byte format is the toolchain's and is not given, so the
step carries what the image at the command's address says. -/
structure ModelImage where
  usableMap : DWord
  arrays : List ImageArray
  vocab : Nat
  logitsFp32 : Bool
  slices : List LogitSlice
  deriving DecidableEq, Repr

/-- A temperature sensor's conversion (R423, R424). -/
inductive SensorRead where
  | value (tenths : Int)
  | opened
  | shorted
  deriving DecidableEq, Repr

/-- A profile that a stream names, or that an encoder's headers name (R270). AV1's seq_profile 0 is `main`. -/
inductive Profile where
  | main
  | main10
  | other
  deriving DecidableEq, Repr

/-- A decoder tool that Hawkmoth does not support (R270). -/
inductive VideoTool where
  | rangeExtension
  | screenContent
  | multiLayer
  | threeD
  | largeScaleTile
  deriving DecidableEq, Repr

/-- A coding tool that the encoder does not use (R270). -/
inductive EncTool where
  | tiles
  | wavefronts
  | scalingLists
  | tmvp
  | loopRestoration
  | superres
  | filmGrain
  | tileColumns
  deriving DecidableEq, Repr

/-- One coded frame of a decode unit (R285): whether it is a key picture, the buffer that a show_existing_frame shows, the
buffers kept for reference after it, film grain, the crop rectangle, and the size of its CTUs or superblocks. -/
structure FrameHead where
  key : Bool
  showExisting : Option Nat
  refs : List Nat
  grain : Bool
  crop : DWord
  ctu : Nat
  deriving DecidableEq, Repr

/-- What the header firmware reads in a decode unit under the HEVC or AV1 standard (R285, R289): whether its parameter
sets or sequence header parse, what they name (level in tenths, width, height, sample format, tools, the buffers they
need), the unit's frames in coding order, and the output order of the pictures still waiting when it ends the stream. -/
structure PicHeader where
  parses : Bool
  profile : Profile
  level : Nat
  mono : Bool
  chroma420 : Bool
  depth : Nat
  width : Nat
  height : Nat
  dpb : Nat
  tools : List VideoTool
  frames : List FrameHead
  flush : List Nat
  deriving DecidableEq, Repr

/-- Where an encoder's vector comes from (R271, R293): its search, from the best integer vector, in luma samples; or HEVC's merge
or AMVP. -/
inductive VectorFrom where
  | search (ix iy : Int)
  | merge
  | amvp
  deriving DecidableEq, Repr

/-- A vector of a prediction block (R293): its reference's distance, and its components in quarter samples. -/
structure PredVector where
  t : Int
  mvx : Int
  mvy : Int
  deriving DecidableEq, Repr

/-- A prediction block (R293, R301): its place and size in luma samples, whether it is intra, the distance t of the
reference R301 names, that reference's vector in quarter samples, where the vector comes from, the vector of a second reference
where it has one, and whether it has a residual. -/
structure PredBlock where
  x : Nat
  y : Nat
  w : Nat
  h : Nat
  intra : Bool
  t : Int
  mvx : Int
  mvy : Int
  source : VectorFrom
  second : Option PredVector
  coded : Bool
  deriving DecidableEq, Repr

/-- A slice or tile of a decoded picture (R288): its CTUs or superblocks in coding order, by their number in raster order,
and the position in it of the first one with an error or a missing reference. -/
structure SlicePart where
  units : List Nat
  errorAt : Option Nat
  deriving DecidableEq, Repr

/-- What a pipe reports when a picture ends (R273, R282, R285, R286, R288, R298, R301): its slices or tiles, its coded
bits and those of each CTU row, the buffers kept for reference, whether it will be output, the buffers whose output falls
due, in output order, the decoded or reconstructed samples (luma, and Cb and Cr interleaved, row by row), the prediction
blocks, the absolute luma residual of every sample, and for a decode the pool buffers that its prediction read and how many bytes
of the tier it read for that. -/
structure PicResult where
  slices : List SlicePart
  bits : Nat
  rowBits : List Nat
  refs : List Nat
  shown : Bool
  due : List Nat
  luma : List Nat
  chroma : List Nat
  blocks : List PredBlock
  residual : List Nat
  read : List Nat
  readBytes : Nat
  deriving DecidableEq, Repr

/-- What an encoder's parameter set or sequence header names (R270, R271): profile, High tier, level in tenths, CTU or
superblock size, the smallest and largest CU, whether deblocking, SAO, CDEF, merge and AMVP are on, and the tools it turns on of
those R270 rules out. -/
structure CodedHead where
  profile : Profile
  high : Bool
  level : Nat
  ctu : Nat
  minCu : Nat
  maxCu : Nat
  deblocking : Bool
  sao : Bool
  cdef : Bool
  mergeOn : Bool
  amvp : Bool
  tools : List EncTool
  deriving DecidableEq, Repr

/-- A unit of the bitstream that an encoder writes, with its bytes (R295). -/
inductive PacketUnit where
  | vps (bytes : List Byte)
  | sps (head : CodedHead) (bytes : List Byte)
  | pps (bytes : List Byte)
  | slice (bytes : List Byte)
  | temporalDelimiter (bytes : List Byte)
  | sequenceHeader (head : CodedHead) (bytes : List Byte)
  | frameHeader (bytes : List Byte)
  | tileGroup (bytes : List Byte)
  deriving DecidableEq, Repr

/-- A source of bursts at a shared port (R305): an array's remote operations, BAR4 accesses to a partition's granules, the
reel's copies for a partition, the sampler's ring writes for the request of a sequence index, a video session's rings,
pipes, motion windows and bitstream, and the platform's own sources. -/
inductive ShtSource where
  | remote (n : ArrayNum)
  | bar4 (p : PartNum)
  | reelCopy (p : PartNum)
  | sampler (i : Fin 16384)
  | videoRings (session : Fin 48)
  | videoPipe (session : Fin 48)
  | motionWindow (session : Fin 48)
  | bitstream (session : Fin 48)
  | spindle
  | cocoon
  | reelPlatform
  | completions
  | eventRecords
  | hostReads
  | headerProcessors
  /-- The Hawkmoth memory port as a whole: what instance 3 has granted. -/
  | hawkmothPort
  deriving DecidableEq, Repr

/-- A write a Spindle half makes through a gated stage (R361). -/
inductive GateOp where
  | completion (c : CmdRef) (status : Nat) (result : List Byte)
  | pageMap (index : Fin 262144) (entry : Word)
  | seqTable (index : Fin 16384) (w : Fin 8) (value : Word)
  | freePool (p : PartNum) (frames : List Nat)
  | arrayOff (n : ArrayNum)
  | arrayGate (n : ArrayNum)
  | arrayRelease (n : ArrayNum)
  | cap (watts : Nat)
  | mode (fast isolated : Bool)
  | shtShadow (inst : Fin 4) (req : Fin 10) (weight ceiling hold : Nat)
  | shtCommit (instances : BitVec 4)
  | knotSignal (n : ArrayNum) (value : Word)
  | knotSet (n : ArrayNum) (i : Fin 2048) (value : Word)
  | ledger
  | snapshot
  | eventRecord (recipient : Fin 17)
  deriving DecidableEq, Repr

/-- How one array's moult test ends (R453). -/
inductive TestEnd where
  | passed
  | failed
  | aborted
  deriving DecidableEq, Repr

/-- An IDE sub-stream (R514). -/
inductive SubStream where
  | posted
  | nonPosted
  | completion
  deriving DecidableEq, Repr

/-- What a source moves through a shared port: the device address and the number of bytes (R306). -/
structure Transfer where
  addr : Nat
  bytes : Nat
  deriving DecidableEq, Repr

/-- An uncorrectable failure of R494 by its code, and for code 5 whether twin control's claim registers failed rather than
Cocoon's key store. -/
structure FatalFailure where
  code : Fin 6
  twin : Bool
  deriving DecidableEq, Repr

/-- What an array's hardware counts in an estimator interval (R408): activation rows taken by the grid, by operand pair; bytes
staged; spool line accesses; row-unit and transform-unit operations; remote lines sent and received. -/
structure Activity where
  rows : List Nat
  staged : Nat
  spoolLines : Nat
  rowOps : Nat
  transformOps : Nat
  remoteLines : Nat
  deriving DecidableEq, Repr

/-- What the management port's network gives it (R515). -/
structure MgmtNet where
  ipv4 : Option (BitVec 32)
  prefix6 : Option (BitVec 64)
  vlan : Option (BitVec 12)
  deriving DecidableEq, Repr

/-- The management port gains its link (R515): whether the pair's polarity was reversed, and what its network gives it. -/
structure MgmtLink where
  reversed : Bool
  net : MgmtNet
  deriving DecidableEq, Repr

/-- TLS versions. -/
inductive TlsVersion where
  | tls12
  | tls13
  deriving DecidableEq, Repr

/-- TLS cipher suites. -/
inductive TlsSuite where
  | aes256GcmSha384
  | other
  deriving DecidableEq, Repr

/-- Key-exchange groups. -/
inductive TlsGroup where
  | secp384r1
  | other
  deriving DecidableEq, Repr

/-- Signature schemes. -/
inductive TlsScheme where
  | ecdsaSecp384r1Sha384
  | other
  deriving DecidableEq, Repr

/-- A handshake on the management port as both ends would settle it (R399, R515): the TCP port and VLAN tag of the connection,
version, suite, group, scheme, whether it rests on a PSK or a resumed session, whether 0-RTT data came with it, and whether the
client's chain ends at Gosait's integrator root. -/
structure TlsHello where
  tcpPort : Nat
  vlan : Option (BitVec 12)
  version : TlsVersion
  suite : TlsSuite
  group : TlsGroup
  scheme : TlsScheme
  psk : Bool
  resumed : Bool
  earlyData : Bool
  integratorRoot : Bool
  deriving DecidableEq, Repr

/-- Whether the digests of the two firmware components of stage 10 are right, each on its own (R348, R349). -/
structure SerdesDigests where
  pcie : Bool
  mgmt : Bool
  deriving DecidableEq, Repr

/-- A vendor-defined SPDM request (R392): the standard's and the vendor's identifiers and the payload. A request whose code is
none of those of R513 comes with its code in this form as well. -/
structure VendorRequest where
  /-- The SPDM request code; 0xFE for VENDOR_DEFINED_REQUEST. -/
  code : Byte
  standard : BitVec 16
  vendor : BitVec 16
  payload : List Byte
  deriving DecidableEq, Repr

/-- What Gosait's final test gives a module (R375, R385, R468): the seed, the digests of the imago authority's two keys, and
the two certificate chains. -/
structure Identity where
  seed : BitVec 256
  ecdsaKey : List Byte
  hssKey : List Byte
  deviceChain : List Byte
  mgmtChain : List Byte
  deriving DecidableEq, Repr

/-- The module's commands: one constructor per row of spec/opcode_table.json. -/
inductive Instr where
  -- Array control (R95)
  | nop (n : ArrayNum)
  | kend (n : ArrayNum)
  | jump (n : ArrayNum)
  | loop (n : ArrayNum)
  | setc (n : ArrayNum)
  | seta (n : ArrayNum)
  | adda (n : ArrayNum)
  | fence (n : ArrayNum)
  | kwait (n : ArrayNum)
  | kwaitSatisfied (n : ArrayNum)
  | knotTimeout (n : ArrayNum)
  -- Staging and matrix passes (R85, R96, R97)
  | stg (n : ArrayNum)
  | stagingDone (n : ArrayNum)
  | mma (n : ArrayNum)
  | accumulatorLanding (n : ArrayNum)
  -- Row unit (R98)
  | add (n : ArrayNum)
  | sub (n : ArrayNum)
  | mul (n : ArrayNum)
  | fma (n : ArrayNum)
  | max (n : ArrayNum)
  | min (n : ArrayNum)
  | abs (n : ArrayNum)
  | neg (n : ArrayNum)
  | compareLt (n : ArrayNum)
  | compareLe (n : ArrayNum)
  | compareEq (n : ArrayNum)
  | select (n : ArrayNum)
  | exp2 (n : ArrayNum)
  | log2 (n : ArrayNum)
  | recip (n : ArrayNum)
  | rsqrt (n : ArrayNum)
  | reduceSum (n : ArrayNum)
  | reduceMax (n : ArrayNum)
  -- Conversion and moves (R100, R101)
  | cvt (n : ArrayNum)
  | load (n : ArrayNum)
  | accrd (n : ArrayNum)
  -- Remote memory operations (R114)
  | put (n : ArrayNum)
  | get (n : ArrayNum)
  | putWithKnotSignal (n : ArrayNum)
  | atomicAdd (n : ArrayNum)
  | rmoComplete (n : ArrayNum) (hw : HostStores) (link : LinkResult)
  | completionTimeout (n : ArrayNum) (hw : HostStores) (linesReturned : Nat)
  -- Row statistics (R193 to R196)
  | rsInit (n : ArrayNum)
  | rsMax (n : ArrayNum)
  | rsSum (n : ArrayNum)
  | rsFinal (n : ArrayNum)
  | rsLoad (n : ArrayNum)
  | rsStore (n : ArrayNum)
  | pstage (n : ArrayNum)
  | pclose (n : ArrayNum)
  -- Convolution transform unit (R214)
  | wxin (n : ArrayNum)
  | wxout (n : ArrayNum)
  | pool (n : ArrayNum)
  | argmax (n : ArrayNum)
  -- Kernels and knots (R107, R109, R130)
  | arrayFault (n : ArrayNum)
  | kernelEnd (n : ArrayNum)
  | arrKernelGo (by_ : Requester) (n : ArrayNum) (v : Word)
  | restageDone (n : ArrayNum)
  | kntSignal (by_ : Requester) (n : ArrayNum) (v : Word)
  | kntValueWrite (by_ : Requester) (n : ArrayNum) (i : Fin 2048) (v : Word) (sameCycle : List (BitVec 16))
  -- Vault and tier (R158, R159, R161)
  | vltClearGo (by_ : Requester) (n : ArrayNum) (v : Word)
  | vaultClearStart (n : ArrayNum)
  | vaultClearDone (n : ArrayNum)
  | tierClearGo (by_ : Requester) (v : Word)
  | tierClearStart (entropyOk : Bool)
  | tierClearDone
  | patrolScrubPass (t : PatrolTarget)
  -- The reel (R180 to R190)
  | reelPStepGo (by_ : Requester) (p : PartNum) (v : Word)
  | reelStepComplete (p : PartNum)
  | sequenceUpdateApply (p : PartNum)
  | parkExpiry (p : PartNum)
  | evictionCopyDone (p : PartNum)
  | copyBackDone (p : PartNum)
  -- Shuttle arbiter (R307 to R313)
  | shtCommit (by_ : Requester) (v : Word)
  | burstRequest (inst : Fin 4) (source : ShtSource) (transfer : Transfer)
  | arbitration (inst : Fin 4)
  | holdLimitCut (inst : Fin 4) (delivered : Nat)
  | windowBoundary
  -- Mailbox pairs, registers and apertures (R324 to R330, R11, R12, R42)
  | spnMbDoorbell (port : Port) (k : PairNum) (v : Word) (ide : Option (Fin 4))
  | commandSlotWrite (port : Port) (k : PairNum) (offset : Fin 2048) (data : List Byte) (ide : Option (Fin 4))
  | spnMbEnable (port : Port) (k : PairNum) (v : Word)
  | spnMbCmpConsumed (port : Port) (k : PairNum) (v : Word)
  | spnMbEvtConsumed (port : Port) (k : PairNum) (v : Word)
  | registerWrite (by_ : Requester) (bar0 : Bool) (offset : Nat) (size : Nat) (v : Word)
  | reg64LatchedRead (by_ : Requester) (bar0 : Bool) (offset : Nat) (size : Nat)
  | bar4Read (port : Port) (offset : Nat) (len : Nat)
  | bar4Write (port : Port) (offset : Nat) (data : List Byte)
  | commandTake (src : Source)
  | commandStart
  | completionWrite (src : Source)
  -- Device commands (R339)
  | devNop (c : CmdRef)
  | devInfo (c : CmdRef)
  | devTime (c : CmdRef)
  | devDrain (c : CmdRef)
  | drained
  | devResume (c : CmdRef)
  -- Partition commands (R340)
  | partCreate (c : CmdRef) (entropyOk : Bool)
  | partDestroy (c : CmdRef)
  | partBind (c : CmdRef)
  | partUnbind (c : CmdRef)
  | partShares (c : CmdRef)
  | partQuery (c : CmdRef)
  -- Models and memory (R341)
  | memTierAssign (c : CmdRef)
  | memTierRelease (c : CmdRef)
  | memAperture (c : CmdRef)
  | memWindow (c : CmdRef)
  | modelPlace (c : CmdRef) (image : ModelImage)
  | modelUnload (c : CmdRef)
  | kernelRun (c : CmdRef)
  | knotSet (c : CmdRef)
  -- Serving (R239)
  | reqSubmit (c : CmdRef) (hw : HostStores)
  | reqCancel (c : CmdRef)
  | convRelease (c : CmdRef)
  | reqQuery (c : CmdRef)
  | serveConfig (c : CmdRef)
  | stepPost (p : PartNum) (hw : HostStores)
  | sampleJob (p : PartNum)
  | stalledRingReread (i : Fin 16384) (hw : HostStores)
  | endRecordWrite (i : Fin 16384) (hw : HostStores)
  | ttlExpiry (i : Fin 16384)
  | vaultHoldExpiry (i : Fin 16384)
  | loadingTimeout (i : Fin 16384)
  -- Video (R274)
  | vidOpen (c : CmdRef) (hw : HostStores)
  | vidClose (c : CmdRef)
  | vidReconfig (c : CmdRef)
  | vidQuery (c : CmdRef)
  | ringPoll (session : Fin 48) (hw : HostStores)
  | pictureStart (pipe : Fin 4) (header : PicHeader)
  | pictureDone (pipe : Fin 4) (result : PicResult)
  | decodeOutput (session : Fin 48)
  | packetEmission (session : Fin 48) (units : List PacketUnit)
  | statsWrite (session : Fin 48) (picture : Nat)
  -- Power and thermal commands (R343)
  | pwrCap (c : CmdRef)
  | pwrMode (c : CmdRef)
  | pwrShare (c : CmdRef)
  | thmWarm (c : CmdRef)
  | pwrQuery (c : CmdRef)
  -- Test commands (R459, R521)
  | mltRun (c : CmdRef)
  | mltQuery (c : CmdRef)
  | prbsStart (c : CmdRef)
  | prbsStop (c : CmdRef)
  -- Security commands (R389 to R402)
  | secAttest (c : CmdRef)
  | treeComputationDone
  | secSession (c : CmdRef)
  | secImport (c : CmdRef) (hw : HostStores)
  | importChunk (c : CmdRef) (hw : HostStores)
  | secIde (c : CmdRef)
  | secLifecycle (c : CmdRef)
  | secTenantChange (c : CmdRef)
  -- Update (R470 to R479)
  | updPiece (c : CmdRef)
  | pieceProgram
  | updStatus (c : CmdRef)
  | updActivate (c : CmdRef)
  | updDiscard (c : CmdRef)
  | savingCopyDone
  | writingCopyDone
  | activationPause (digestsOk : BitVec 8)
  | healthConfirmed
  | trialDeadline
  | pauseTimeout
  | revertCopyDone
  -- Twin (R353 to R372)
  | twnSwap (c : CmdRef)
  | twnRestore (c : CmdRef)
  | twnPeriod (c : CmdRef)
  | twnQuery (c : CmdRef)
  | heartbeatTimeout
  | internalFatalError
  | finalSnapshotComplete
  | periodicSwapDue
  | incomingPowerGood
  | codeVerified (digestOk : Bool)
  | ledgerRestore
  | reconciliation
  | gapEnd
  | startingDeadline
  | outgoingHalfReturn
  | gatedWrite (half : Half) (claim : Word) (g : GateOp)
  | powerDownRetry (half : Half) (reportsOff : Bool)
  | ledgerWrite
  | snapshot
  | moduleStop
  | fatalEscalation (failure : FatalFailure)
  -- Event records (R490 to R492)
  | eventRecordWrite (recipient : Fin 17)
  | recordAbandon (recipient : Fin 17)
  | handlingIntervalEnd (seq : Word)
  -- Power manager (R408 to R435)
  | powerEstimate (arrays : List Activity) (platform : Nat)
  | estimateTrim (measured : Nat) (trimmed : List Nat)
  | pacingSlot
  | powerGateDrainDone (n : ArrayNum)
  | releaseFromPowerGate (n : ArrayNum)
  | gateHoldExpiry (n : ArrayNum)
  | rotation
  | throttlePeriod (n : ArrayNum)
  | dutyOffEnd (n : ArrayNum)
  | sensorConversion (readings : List SensorRead)
  | tripRelease (n : ArrayNum)
  | sensorDiverge (n : ArrayNum)
  | flowReading (microamps : Nat)
  | flowRecovery
  | inletReading (ohms : Nat)
  | pmWatchdog
  | warmingLoadStart (n : ArrayNum)
  | frequencyRelock (n : ArrayNum)
  | ageingReplan (n : ArrayNum) (speeds : List (Nat × Nat))
  | replanForcedApply (n : ArrayNum)
  -- The connector (R500 to R504)
  | voltageGood (decivolts : Int)
  | mateDetectMade
  | mateDetectBreak
  | inputFail (decivolts : Int)
  | holdUpExhausted
  | restartHoldoffEnd
  | reversedInput (decivolts : Int)
  -- The start (R439)
  | start
  | holdUpCharged
  | cocoonKeyDerivation (entropyOk : Bool)
  | pupaLoaderBoot (runningOk fallbackOk : Bool)
  | identityCheck (tray manifold : Option (List Byte)) (digestOk : Bool)
  | identityRecheck (tray manifold : Option (List Byte))
  | vaultPhyCheck (digestOk first second : Bool) (bondFail retryFail : DWord)
  | startVaultClear
  | tierTraining (digestOk first second : Bool)
  | startTierClear
  | serdesCheck (digests : SerdesDigests) (laneFail retryFail : BitVec 16) (mgmtFirst mgmtSecond strap : Bool)
  | samplerHawkmothLoad (samplerOk hawkmothOk : Bool)
  | moultBatch
  | arrayTestEnd (n : ArrayNum) (result : TestEnd)
  | lomletReady
  -- Links (R509)
  | linkUp (port : Port) (width speed : Nat)
  | linkDown (port : Port)
  | perst (port : Port)
  | d3hot (port : Port)
  -- SPDM and IDE_KM (R513, R514)
  | getVersion (port : Port)
  | getCapabilities (port : Port)
  | negotiateAlgorithms (port : Port)
  | getDigests (port : Port)
  | getCertificate (port : Port) (slot offset len : Nat)
  | challenge (port : Port) (nonce : List Byte)
  | getMeasurements (port : Port) (nonce : List Byte)
  | keyExchange (port : Port) (id : Word) (transcript : List Byte)
  | finish (port : Port) (session : Word) (transcript : List Byte) (verifies : Bool)
  | heartbeat (port : Port) (session : Word)
  | spdmHeartbeatMiss (session : Word)
  | keyUpdate (port : Port) (session : Word)
  | endSession (port : Port) (session : Word)
  | vendorDefinedRequest (port : Port) (session : Word) (request : VendorRequest)
  | query (port : Port) (session : Word)
  | keyProg (port : Port) (session : Word) (stream : Fin 4) (keySet : Fin 2) (sub : SubStream) (masked : List Byte)
  | kSetGo (port : Port) (session : Word) (stream : Fin 4) (keySet : Fin 2)
  | kSetStop (port : Port) (session : Word) (stream : Fin 4) (keySet : Fin 2)
  | ideIntegrityFail (port : Port) (stream : Fin 4)
  -- Management port (R399, R515 to R517)
  | managementSessionOpen (chainAnchor : Option (Fin 4)) (hello : TlsHello)
  | managementSessionClose (session : Fin 2)
  | tlsSessionExpiry (session : Fin 2)
  | tlsKeyUpdate (session : Fin 2)
  | anchorFrame (session : Fin 2) (body : List Byte)
  | crashRead (session : Fin 2) (body : List Byte)
  -- Later rows of the table
  | activeHalfHeartbeat
  | halfChecksDone (half : Half) (digestOk ledgerReadOk : Bool)
  | provisioning (identity : Identity)
  | commandFrame (session : Fin 2) (frameType : Nat) (reserved : BitVec 16) (body : List Byte)
  | managementLinkUp (link : MgmtLink)
  | managementLinkDown
  | returnToD0 (port : Port)
  | lossComparatorTrip
  deriving DecidableEq, Repr

end Sys2Proof
end

