-- ==== Sys2Proof/WellFormed.lean ====
section
/-!
DEFINITION. Well-formed commands: operands of the sizes that the bus, the protocol or the hardware beside the module can
deliver. The meanings are total and do not rest on it; it says which terms stand for something that can happen.
-/

namespace Sys2Proof

/-- Keys of the host's memory: a port and a 64-bit PCIe address. -/
def hostOk (hw : HostStores) : Bool := hw.all fun c => decide (c.1 < 2 ^ 65)

/-- Access sizes of a register access: 1, 2, 4 or 8 bytes (R10). -/
def sizeOk (n : Nat) : Bool := [1, 2, 4, 8].contains n

/-- An access lies in its BAR: 64 KiB of BAR0 or 256 MiB of BAR2 (R39). -/
def offsetOk (bar0 : Bool) (offset size : Nat) : Bool := decide (offset + size ≤ if bar0 then 0x10000 else 0x10000000)

/-- Requesters of an arbiter instance (R304). -/
def requesters (inst : Fin 4) : Nat := if inst.val = 0 then 10 else 9

/-- Staged arbiter fields fit their registers (R320). -/
def gateOk : GateOp → Bool
  | .completion _ status _ => decide (status < 256)
  | .pageMap _ _ => true
  | .seqTable _ _ _ => true
  | .freePool _ frames => frames.all fun f => decide (f < 262144)
  | .arrayOff _ => true
  | .arrayGate _ => true
  | .arrayRelease _ => true
  | .cap watts => decide (watts < 65536)
  | .mode _ _ => true
  | .shtShadow i r w c h =>
    decide (r.val < requesters i) && decide (w < 65536) && decide (c < 65536) && decide (h < 4096)
  | .shtCommit _ => true
  | .knotSignal _ _ => true
  | .knotSet _ _ _ => true
  | .ledger => true
  | .snapshot => true
  | .eventRecord _ => true

/-- An identity record has 32 bytes (R445). -/
def recordOk : Option (List Byte) → Bool
  | none => true
  | some bs => bs.length == 32

/-- Whether a command is well formed. -/
def Instr.wellFormed : Instr → Bool
  | .nop _ => true
  | .kend _ => true
  | .jump _ => true
  | .loop _ => true
  | .setc _ => true
  | .seta _ => true
  | .adda _ => true
  | .fence _ => true
  | .kwait _ => true
  | .kwaitSatisfied _ => true
  | .knotTimeout _ => true
  | .stg _ => true
  | .stagingDone _ => true
  | .mma _ => true
  | .accumulatorLanding _ => true
  | .add _ => true
  | .sub _ => true
  | .mul _ => true
  | .fma _ => true
  | .max _ => true
  | .min _ => true
  | .abs _ => true
  | .neg _ => true
  | .compareLt _ => true
  | .compareLe _ => true
  | .compareEq _ => true
  | .select _ => true
  | .exp2 _ => true
  | .log2 _ => true
  | .recip _ => true
  | .rsqrt _ => true
  | .reduceSum _ => true
  | .reduceMax _ => true
  | .cvt _ => true
  | .load _ => true
  | .accrd _ => true
  | .put _ => true
  | .get _ => true
  | .putWithKnotSignal _ => true
  | .atomicAdd _ => true
  | .rmoComplete _ a1 _ => hostOk a1
  | .completionTimeout _ a1 _ => hostOk a1
  | .rsInit _ => true
  | .rsMax _ => true
  | .rsSum _ => true
  | .rsFinal _ => true
  | .rsLoad _ => true
  | .rsStore _ => true
  | .pstage _ => true
  | .pclose _ => true
  | .wxin _ => true
  | .wxout _ => true
  | .pool _ => true
  | .argmax _ => true
  | .arrayFault _ => true
  | .kernelEnd _ => true
  | .arrKernelGo _ _ _ => true
  | .restageDone _ => true
  | .kntSignal _ _ _ => true
  | .kntValueWrite _ _ _ _ a4 => a4.all fun k => decide (1 ≤ k.toNat)
  | .vltClearGo _ _ _ => true
  | .vaultClearStart _ => true
  | .vaultClearDone _ => true
  | .tierClearGo _ _ => true
  | .tierClearStart _ => true
  | .tierClearDone => true
  | .patrolScrubPass _ => true
  | .reelPStepGo _ _ _ => true
  | .reelStepComplete _ => true
  | .sequenceUpdateApply _ => true
  | .parkExpiry _ => true
  | .evictionCopyDone _ => true
  | .copyBackDone _ => true
  | .shtCommit _ _ => true
  | .burstRequest _ a1 a2 => a1 != .hawkmothPort && decide (1 ≤ a2.bytes) && decide (a2.addr + a2.bytes ≤ 2 ^ 48)
  | .arbitration _ => true
  | .holdLimitCut _ _ => true
  | .windowBoundary => true
  | .spnMbDoorbell _ _ _ _ => true
  | .commandSlotWrite _ _ a2 a3 _ => !a3.isEmpty && decide (a2.val + a3.length ≤ 2048)
  | .spnMbEnable _ _ _ => true
  | .spnMbCmpConsumed _ _ _ => true
  | .spnMbEvtConsumed _ _ _ => true
  | .registerWrite _ a1 a2 a3 _ => sizeOk a3 && offsetOk a1 a2 a3
  | .reg64LatchedRead _ a1 a2 a3 => sizeOk a3 && offsetOk a1 a2 a3
  | .bar4Read _ _ a2 => decide (1 ≤ a2) && decide (a2 ≤ 4096)
  | .bar4Write _ _ a2 => decide (1 ≤ a2.length) && decide (a2.length ≤ 512)
  | .commandTake _ => true
  | .commandStart => true
  | .completionWrite _ => true
  | .devNop _ => true
  | .devInfo _ => true
  | .devTime _ => true
  | .devDrain _ => true
  | .drained => true
  | .devResume _ => true
  | .partCreate _ _ => true
  | .partDestroy _ => true
  | .partBind _ => true
  | .partUnbind _ => true
  | .partShares _ => true
  | .partQuery _ => true
  | .memTierAssign _ => true
  | .memTierRelease _ => true
  | .memAperture _ => true
  | .memWindow _ => true
  | .modelPlace _ _ => true
  | .modelUnload _ => true
  | .kernelRun _ => true
  | .knotSet _ => true
  | .reqSubmit _ a1 => hostOk a1
  | .reqCancel _ => true
  | .convRelease _ => true
  | .reqQuery _ => true
  | .serveConfig _ => true
  | .stepPost _ a1 => hostOk a1
  | .sampleJob _ => true
  | .stalledRingReread _ a1 => hostOk a1
  | .endRecordWrite _ a1 => hostOk a1
  | .ttlExpiry _ => true
  | .vaultHoldExpiry _ => true
  | .loadingTimeout _ => true
  | .vidOpen _ a1 => hostOk a1
  | .vidClose _ => true
  | .vidReconfig _ => true
  | .vidQuery _ => true
  | .ringPoll _ a1 => hostOk a1
  | .pictureStart _ _ => true
  | .pictureDone _ _ => true
  | .decodeOutput _ => true
  | .packetEmission _ _ => true
  | .statsWrite _ _ => true
  | .pwrCap _ => true
  | .pwrMode _ => true
  | .pwrShare _ => true
  | .thmWarm _ => true
  | .pwrQuery _ => true
  | .mltRun _ => true
  | .mltQuery _ => true
  | .prbsStart _ => true
  | .prbsStop _ => true
  | .secAttest _ => true
  | .treeComputationDone => true
  | .secSession _ => true
  | .secImport _ a1 => hostOk a1
  | .importChunk _ a1 => hostOk a1
  | .secIde _ => true
  | .secLifecycle _ => true
  | .secTenantChange _ => true
  | .updPiece _ => true
  | .pieceProgram => true
  | .updStatus _ => true
  | .updActivate _ => true
  | .updDiscard _ => true
  | .savingCopyDone => true
  | .writingCopyDone => true
  | .activationPause _ => true
  | .healthConfirmed => true
  | .trialDeadline => true
  | .pauseTimeout => true
  | .revertCopyDone => true
  | .twnSwap _ => true
  | .twnRestore _ => true
  | .twnPeriod _ => true
  | .twnQuery _ => true
  | .heartbeatTimeout => true
  | .internalFatalError => true
  | .finalSnapshotComplete => true
  | .periodicSwapDue => true
  | .incomingPowerGood => true
  | .codeVerified _ => true
  | .ledgerRestore => true
  | .reconciliation => true
  | .gapEnd => true
  | .startingDeadline => true
  | .outgoingHalfReturn => true
  | .gatedWrite _ _ a2 => gateOk a2
  | .powerDownRetry _ _ => true
  | .ledgerWrite => true
  | .snapshot => true
  | .moduleStop => true
  | .fatalEscalation _ => true
  | .eventRecordWrite _ => true
  | .recordAbandon _ => true
  | .handlingIntervalEnd _ => true
  | .powerEstimate a0 _ => a0.length == 64
  | .estimateTrim _ a1 => a1.length == 64
  | .pacingSlot => true
  | .powerGateDrainDone _ => true
  | .releaseFromPowerGate _ => true
  | .gateHoldExpiry _ => true
  | .rotation => true
  | .throttlePeriod _ => true
  | .dutyOffEnd _ => true
  | .sensorConversion a0 => a0.length == 144
  | .tripRelease _ => true
  | .sensorDiverge _ => true
  | .flowReading _ => true
  | .flowRecovery => true
  | .inletReading _ => true
  | .pmWatchdog => true
  | .warmingLoadStart _ => true
  | .frequencyRelock _ => true
  | .ageingReplan _ _ => true
  | .replanForcedApply _ => true
  | .voltageGood _ => true
  | .mateDetectMade => true
  | .mateDetectBreak => true
  | .inputFail _ => true
  | .holdUpExhausted => true
  | .restartHoldoffEnd => true
  | .reversedInput _ => true
  | .start => true
  | .holdUpCharged => true
  | .cocoonKeyDerivation _ => true
  | .pupaLoaderBoot _ _ => true
  | .identityCheck a0 a1 _ => recordOk a0 && recordOk a1
  | .identityRecheck a0 a1 => recordOk a0 && recordOk a1
  | .vaultPhyCheck _ _ _ _ _ => true
  | .startVaultClear => true
  | .tierTraining _ _ _ => true
  | .startTierClear => true
  | .serdesCheck _ _ _ _ _ _ => true
  | .samplerHawkmothLoad _ _ => true
  | .moultBatch => true
  | .arrayTestEnd _ _ => true
  | .lomletReady => true
  | .linkUp _ a1 a2 => [1, 2, 4, 8, 16].contains a1 && decide (1 ≤ a2) && decide (a2 ≤ 5)
  | .linkDown _ => true
  | .perst _ => true
  | .d3hot _ => true
  | .getVersion _ => true
  | .getCapabilities _ => true
  | .negotiateAlgorithms _ => true
  | .getDigests _ => true
  | .getCertificate _ _ _ _ => true
  | .challenge _ a1 => a1.length == 32
  | .getMeasurements _ a1 => a1.length == 32
  | .keyExchange _ _ _ => true
  | .finish _ _ _ _ => true
  | .heartbeat _ _ => true
  | .spdmHeartbeatMiss _ => true
  | .keyUpdate _ _ => true
  | .endSession _ _ => true
  | .vendorDefinedRequest _ _ _ => true
  | .query _ _ => true
  | .keyProg _ _ _ _ _ a5 => a5.length == 32
  | .kSetGo _ _ _ _ => true
  | .kSetStop _ _ _ _ => true
  | .ideIntegrityFail _ _ => true
  | .managementSessionOpen _ _ => true
  | .managementSessionClose _ => true
  | .tlsSessionExpiry _ => true
  | .tlsKeyUpdate _ => true
  | .anchorFrame _ _ => true
  | .crashRead _ _ => true
  | .activeHalfHeartbeat => true
  | .halfChecksDone _ _ _ => true
  | .provisioning _ => true
  | .commandFrame _ _ _ _ => true
  | .managementLinkUp _ => true
  | .managementLinkDown => true
  | .returnToD0 _ => true
  | .lossComparatorTrip => true

end Sys2Proof
end

