-- ==== Sys2Proof/Decode.lean ====
section
/-!
DEFINITION. Commands spelled by words. No row of spec/opcode_table.json has bits: a command reaches the module as an
access, a protocol message or an event, never as a word, so no word spells one.
-/

namespace Sys2Proof

/-- The command that a word of the table's bits spells: none, since the table gives no row any bits.
(DESIGN CHOICE, log entry 2.) -/
def decodeTableWord (_nbits _w : Nat) : Option Instr := none

end Sys2Proof
end

