-- ==== Sys2Proof/Config.lean ====
section
/-!
DEFINITION. What the spec leaves open, as constants without a body: nothing in Lean can evaluate one or prove a value
of it, so a statement about the machine holds whatever they are. Each is named in the assumption log.
-/

namespace Sys2Proof.Config

/-- exp2's result where R71 states only its accuracy. (DESIGN CHOICE, log entry 20.) -/
opaque exp2Raw : Word → Word
/-- log2's result where R71 states only its accuracy. (DESIGN CHOICE, log entry 20.) -/
opaque log2Raw : Word → Word
/-- recip's result where R71 states only its accuracy. (DESIGN CHOICE, log entry 20.) -/
opaque recipRaw : Word → Word
/-- rsqrt's result where R71 states only its accuracy. (DESIGN CHOICE, log entry 20.) -/
opaque rsqrtRaw : Word → Word
/-- The 16 random bits of stochastic rounding: seed, step number, linear position (R68 gives the indices, not the
generator). (DESIGN CHOICE, log entry 43.) -/
opaque srBits : Word → Word → Word → BitVec 16
/-- How many NaN the bytes of a put hold (R63): the put names no element format. (DESIGN CHOICE, log entry 19.) -/
opaque nanInPut : List Byte → Nat
/-- Output of Cocoon's AES-256 CTR_DRBG (R384, R404): its personalisation, and the n-th request since the module was built,
under which its entropy stands. (DESIGN CHOICE, log entry 44.) -/
opaque drbg : List Byte → Nat → List Byte
/-- The label of each of Cocoon's four derivations (R384 gives each one its own and states none): 0 identity key, 1 HSS
key, 2 management TLS key, 3 personalisation of the random generator. (DESIGN CHOICE, log entry 44.) -/
opaque seedLabel : Fin 4 → List Byte
/-- The length of each derived secret in bytes, which R384 does not state. (DESIGN CHOICE, log entry 44.) -/
opaque seedLength : Fin 4 → Nat
/-- SHA-384 (R349, R387). (DESIGN CHOICE, log entry 44.) -/
opaque sha384 : List Byte → List Byte
/-- HKDF-SHA-384 extract: salt, input (R391). (DESIGN CHOICE, log entry 44.) -/
opaque hkdfExtract : List Byte → List Byte → List Byte
/-- HKDF-SHA-384 expand: key, information, length (R391). (DESIGN CHOICE, log entry 44.) -/
opaque hkdfExpand : List Byte → List Byte → Nat → List Byte
/-- ECDSA P-384 signature of a digest under a private key: r then s (R387). (DESIGN CHOICE, log entry 44.) -/
opaque ecdsa : List Byte → List Byte → List Byte
/-- The public key of a P-384 private key, in uncompressed form, 97 bytes (R385). (DESIGN CHOICE, log entry 44.) -/
opaque ecdsaPublic : List Byte → List Byte
/-- Whether an ECDSA P-384 signature verifies: the SHA-384 digest of the signer's public key, the message, the signature.
(DESIGN CHOICE, log entry 44.) -/
opaque ecdsaVerify : List Byte → List Byte → List Byte → Bool
/-- The HSS signature of a message with an index, under the HSS key (R386). (DESIGN CHOICE, log entry 44.) -/
opaque hss : List Byte → Nat → List Byte → List Byte
/-- Whether an HSS signature verifies: the SHA-384 digest of the signer's public key, the message, the signature.
(DESIGN CHOICE, log entry 44.) -/
opaque hssVerify : List Byte → List Byte → List Byte → Bool
/-- The digests of the ECDSA and HSS keys of Gosait's life-cycle authority (R376). (DESIGN CHOICE, log entry 58.) -/
opaque lifeAuthority : List Byte × List Byte
/-- The digests of the imago authority's keys in a module not provisioned within the model's run (R468).
(DESIGN CHOICE, log entry 44.) -/
opaque imagoAuthority : List Byte × List Byte
/-- A session's export master secret: its transcript (R391). (DESIGN CHOICE, log entry 44.) -/
opaque exportSecret : List Byte → List Byte
/-- ML-KEM-1024 encapsulation: the encapsulation key and the randomness; the ciphertext and the shared secret (R391).
(DESIGN CHOICE, log entry 44.) -/
opaque kemEncaps : List Byte → List Byte → List Byte × List Byte
/-- The FIPS 203 input check of an encapsulation key (R392). (DESIGN CHOICE, log entry 44.) -/
opaque kemKeyOk : List Byte → Bool
/-- AES-256-GCM decryption: key, nonce, additional data, ciphertext with tag; none when the tag fails (R397).
(DESIGN CHOICE, log entry 44.) -/
opaque gcmOpen : List Byte → List Byte → List Byte → List Byte → Option (List Byte)
/-- AES-XTS-256 encryption of a 64-byte line: data key then tweak key, the 16-byte tweak, the plaintext (R152).
(DESIGN CHOICE, log entry 66.) -/
opaque xtsEncrypt : List Byte → List Byte → List Byte → List Byte
/-- AES-XTS-256 decryption of a 64-byte line (R152). (DESIGN CHOICE, log entry 66.) -/
opaque xtsDecrypt : List Byte → List Byte → List Byte → List Byte
/-- The SECDED bits over 32 stored bytes and the written bit (R151). (DESIGN CHOICE, log entry 66.) -/
opaque secded : List Byte → Bool → BitVec 10
/-- The 11-bit hash of t[37:6] in addr_check (R151): the line number t >> 6. (DESIGN CHOICE, log entry 66.) -/
opaque addrHash : Nat → BitVec 11
/-- The lowest level of a standard, in tenths, that fits a session (R270; the levels' limits are the standards'): whether
it is AV1, width, height, pictures per 1,000 s. (DESIGN CHOICE, log entry 42.) -/
opaque lowestLevel : Bool → Nat → Nat → Nat → Nat
/-- The bf16 code of a vector whose reference lies at distance 0 (R301 divides by the distance).
(DESIGN CHOICE, log entry 42.) -/
opaque mvAtZeroDistance : Int → BitVec 16
/-- The device chain that a module not provisioned within the model's run holds in flash (R385).
(DESIGN CHOICE, log entry 44.) -/
opaque deviceChain : List Byte
/-- Such a module's management chain (R385). (DESIGN CHOICE, log entry 44.) -/
opaque mgmtChain : List Byte
/-- The module's PCI vendor ID (R392), which no rule states. (DESIGN CHOICE, log entry 5.) -/
opaque pciVendor : BitVec 16
/-- The module's serial number (R3, R339). (DESIGN CHOICE, log entry 5.) -/
opaque serial : DWord
/-- The body of an SPDM response that the SPDM specification lays out: its code and its inputs (R513).
(PRESUMED, log entry 21.) -/
opaque spdmBody : Nat → List Byte → List Byte

/-- The version that an imago's manifest gives a component of R348, and Spindle's code as 7: the manifest's bytes, the
component (R467 does not lay the manifest out). (DESIGN CHOICE, log entry 72.) -/
opaque componentVersion : List Byte → Nat → Word
/-- An array's fused thermal resistance at a coolant flow in mL/min, in thousandths of a kelvin per watt (R424, R532).
(DESIGN CHOICE, log entry 5.) -/
opaque thermalResistance : Nat → Nat → Nat
/-- The estimator's weight of one unit of an activity, in microwatts over an interval: the array's voltage in mV, and the
activity's number (R408, R434: calibrated for each module at Gosait's final test). (DESIGN CHOICE, log entry 49.) -/
opaque estWeight : Nat → Nat → Nat
/-- An array's static term in microwatts: the array, its voltage in mV and its hot spot's temperature in 0.1 °C (R408).
(DESIGN CHOICE, log entry 49.) -/
opaque staticTerm : Nat → Nat → Int → Nat
/-- The MAC address that an identity seed gives the management port (R515). (DESIGN CHOICE, log entry 59.) -/
opaque macAddress : BitVec 256 → BitVec 48
/-- The interface identifier of an IPv6 address that SLAAC forms from a MAC address (R515).
(DESIGN CHOICE, log entry 59.) -/
opaque interfaceId : BitVec 48 → BitVec 64

/-- A byte that the spec leaves open, for the n-th draw. (DESIGN CHOICE, log entries 9, 38.) -/
opaque freeByte : Nat → Byte
/-- A word that the spec leaves open, for the n-th draw. (DESIGN CHOICE, log entries 9, 57.) -/
opaque freeWord : Nat → Word

/-- Where the copy of Spindle's code lies in platform tier granules, and how long it is (R366).
(DESIGN CHOICE, log entry 35.) -/
opaque codePlace : Nat
/-- The length of that copy. (DESIGN CHOICE, log entry 35.) -/
opaque codeLength : Nat
/-- Spindle's code in an imago's pieces (R366, R439; R467 does not lay the image out). (DESIGN CHOICE, log entry 72.) -/
opaque spindleCode : List (List Byte) → List Byte
/-- Where a model keeps its length table, in units of 64 bytes: its image digest (R181 leaves it to the model).
(DESIGN CHOICE, log entry 37.) -/
opaque tableOffset : List Byte → Nat
/-- The knot that a model's length table raises: its image digest (R181). (DESIGN CHOICE, log entry 37.) -/
opaque stepKnot : List Byte → Nat

end Sys2Proof.Config
end

