-- ==== Sys2Proof/Machine/Float.lean ====
section
/-!
DEFINITION. The arithmetic of 02_number_formats.md: the element formats (R46), rounding (R65, R67), NaN (R62) and the
row unit's operations (R71 to R74). Every finite value is held exactly as ± m × 2^e; a result is rounded once.
-/

namespace Sys2Proof.Machine

/-- What an encoding stands for: a NaN, an infinity, or the exact finite value (−1)^neg × m × 2^e (R46). -/
inductive FVal where
  | nan
  | inf (neg : Bool)
  | fin (neg : Bool) (m : Nat) (e : Int)
  deriving DecidableEq, Repr

/-- How a floating format marks its special values (R46). -/
inductive Specials where
  /-- Exponent all ones: mantissa zero is an infinity, the rest are NaN. -/
  | ieee
  /-- Exponent and mantissa all ones mark NaN; there is no infinity. -/
  | nanOnly
  /-- Every encoding is finite. -/
  | none
  deriving DecidableEq, Repr

/-- A floating format of R46. The largest finite value is maxM × 2^maxE. -/
structure FFmt where
  mbits : Nat
  ebits : Nat
  bias : Int
  specials : Specials
  maxM : Nat
  maxE : Int
  deriving DecidableEq, Repr

/-- fp32 (R46). -/
def fmtF32 : FFmt := ⟨23, 8, 127, .ieee, 0xFFFFFF, 104⟩
/-- bf16 (R46). -/
def fmtBf16 : FFmt := ⟨7, 8, 127, .ieee, 0xFF, 120⟩
/-- fp8 E4M3 (R46). -/
def fmtE4m3 : FFmt := ⟨3, 4, 7, .nanOnly, 14, 5⟩
/-- fp8 E5M2 (R46). -/
def fmtE5m2 : FFmt := ⟨2, 5, 15, .ieee, 7, 13⟩
/-- fp4 E2M1 (R46). -/
def fmtE2m1 : FFmt := ⟨1, 2, 1, .none, 3, 1⟩

/-- The canonical NaN a format writes (R62). -/
def FFmt.canonNaN (f : FFmt) : Nat :=
  match f.specials with
  | .ieee => ((2 ^ f.ebits - 1) * 2 ^ f.mbits) + 2 ^ (f.mbits - 1)
  | .nanOnly => 2 ^ (f.ebits + f.mbits) - 1
  | .none => 0

/-- The sign bit's weight in an encoding of the format. -/
def FFmt.signBit (f : FFmt) : Nat := 2 ^ (f.ebits + f.mbits)

/-- The encoding of an infinity (R46). -/
def FFmt.infBits (f : FFmt) (neg : Bool) : Nat :=
  (if neg then f.signBit else 0) + (2 ^ f.ebits - 1) * 2 ^ f.mbits

/-- The encoding of the largest finite value (R46). -/
def FFmt.maxBits (f : FFmt) (neg : Bool) : Nat :=
  (if neg then f.signBit else 0) +
    match f.specials with
    | .ieee => (2 ^ f.ebits - 1) * 2 ^ f.mbits - 1
    | .nanOnly => 2 ^ (f.ebits + f.mbits) - 2
    | .none => 2 ^ (f.ebits + f.mbits) - 1

/-- The value of an encoding (R46, R47: subnormal values are honoured). -/
def FFmt.decode (f : FFmt) (bits : Nat) : FVal :=
  let ma := bits % 2 ^ f.mbits
  let ex := bits / 2 ^ f.mbits % 2 ^ f.ebits
  let neg := bits / f.signBit % 2 == 1
  let ones := ex == 2 ^ f.ebits - 1
  let finite : FVal :=
    if ex == 0 then .fin neg ma (1 - f.bias - f.mbits)
    else .fin neg (2 ^ f.mbits + ma) (ex - f.bias - f.mbits)
  match f.specials with
  | .ieee => if ones then (if ma == 0 then .inf neg else .nan) else finite
  | .nanOnly => if ones && ma == 2 ^ f.mbits - 1 then .nan else finite
  | .none => finite

/-- The rounding modes (R67); `up` is rounding a magnitude upwards, as scales are (R69, R70). -/
inductive Rnd where
  | rne
  | rtz
  | up
  | sr (bits : Nat)
  deriving DecidableEq, Repr

/-- n / d rounded to an integer (R67). The stochastic mode compares the discarded fraction as a 16-bit value with 16
random bits; a fraction of more than 16 bits is cut off after the sixteenth. (DESIGN CHOICE, log entry 43.) -/
def Rnd.quot (mode : Rnd) (n d : Nat) : Nat :=
  let q := n / d
  let r := n % d
  match mode with
  | .rne => if d < 2 * r ∨ (2 * r = d ∧ q % 2 = 1) then q + 1 else q
  | .rtz => q
  | .up => if r = 0 then q else q + 1
  | .sr b => if b < r * 65536 / d then q + 1 else q

/-- The floor of log2 (n / d), for positive n and d. -/
def ratLog2 (n d : Nat) : Int :=
  let k : Int := (Nat.log2 n : Int) - Nat.log2 d
  if 0 ≤ k then (if n < d * 2 ^ k.toNat then k - 1 else k)
  else (if n * 2 ^ (-k).toNat < d then k - 1 else k)

/-- n / d × 2^e as a quotient of integers. -/
def scaleRat (n d : Nat) (e : Int) : Nat × Nat :=
  if 0 ≤ e then (n * 2 ^ e.toNat, d) else (n, d * 2 ^ (-e).toNat)

/-- A magnitude after rounding with unbounded exponent range above (R65): r × 2^q. -/
structure Rounded where
  r : Nat
  q : Int
  deriving DecidableEq, Repr

/-- Rounds the positive magnitude n / d × 2^e into the format's precision, subnormal range included (R47, R65). -/
def FFmt.roundMag (f : FFmt) (mode : Rnd) (n d : Nat) (e : Int) : Rounded :=
  let top := ratLog2 n d + e
  let q := max top (1 - f.bias) - f.mbits
  let nd := scaleRat n d (e - q)
  ⟨mode.quot nd.1 nd.2, q⟩

/-- Whether a rounded magnitude exceeds the largest finite value (R65). -/
def FFmt.overflows (f : FFmt) (x : Rounded) : Bool :=
  if x.q ≤ f.maxE then f.maxM * 2 ^ (f.maxE - x.q).toNat < x.r
  else f.maxM < x.r * 2 ^ (x.q - f.maxE).toNat

/-- The encoding of a rounded magnitude that does not overflow. -/
def FFmt.pack (f : FFmt) (neg : Bool) (x : Rounded) : Nat :=
  let full := 2 ^ (f.mbits + 1)
  let r := if full ≤ x.r then x.r / 2 else x.r
  let q := if full ≤ x.r then x.q + 1 else x.q
  let ex := if r < 2 ^ f.mbits then 0 else (q + f.mbits + f.bias).toNat
  (if neg then f.signBit else 0) + ex * 2 ^ f.mbits + r % 2 ^ f.mbits

/-- A signed zero's encoding. -/
def FFmt.zeroBits (f : FFmt) (neg : Bool) : Nat := if neg then f.signBit else 0

/-- A result and whether it overflowed to an infinity (R60, R74). -/
structure FRes where
  bits : Word
  overflow : Bool := false
  deriving DecidableEq, Repr

/-- The canonical fp32 NaN (R62). -/
def f32NaN : Word := 0x7FC00000#32

/-- An fp32 infinity. -/
def f32Inf (neg : Bool) : Word := if neg then 0xFF800000#32 else 0x7F800000#32

/-- The value of an fp32 encoding. -/
def f32 (w : Word) : FVal := fmtF32.decode w.toNat

/-- The magnitude n / d × 2^e with its sign as fp32, rounded once to nearest-even; a result beyond the largest finite
value is an infinity and says so (R60, R74). -/
def f32OfRat (neg : Bool) (n d : Nat) (e : Int) : FRes :=
  if n = 0 then ⟨BitVec.ofNat 32 (fmtF32.zeroBits neg), false⟩
  else
    let x := fmtF32.roundMag .rne n d e
    if fmtF32.overflows x then ⟨f32Inf neg, true⟩ else ⟨BitVec.ofNat 32 (fmtF32.pack neg x), false⟩

/-- An exact signed value m × 2^e as fp32, rounded once; exact zero takes the sign `zneg`. -/
def f32OfInt (m : Int) (e : Int) (zneg : Bool := false) : FRes :=
  if m = 0 then f32OfRat zneg 0 1 0 else f32OfRat (m < 0) m.natAbs 1 e

/-- A value as fp32, rounded once to nearest-even (R62). -/
def f32OfVal : FVal → FRes
  | .nan => ⟨f32NaN, false⟩
  | .inf neg => ⟨f32Inf neg, false⟩
  | .fin neg m e => f32OfRat neg m 1 e

/-- The signed integer of a finite value's mantissa. -/
def sgn (neg : Bool) (m : Nat) : Int := if neg then -(m : Int) else m

/-- The exact sum of two finite values as mantissa and exponent. -/
def dySum (m1 : Int) (e1 : Int) (m2 : Int) (e2 : Int) : Int × Int :=
  let e := min e1 e2
  (m1 * 2 ^ (e1 - e).toNat + m2 * 2 ^ (e2 - e).toNat, e)

/-- The exact sum of two values: a NaN or an infinity pair of opposite sign gives NaN (R60, R62); a zero of two
negative zeros keeps its sign, any other exact zero is +0 (R58). -/
def FVal.add : FVal → FVal → FVal
  | .nan, _ => .nan
  | _, .nan => .nan
  | .inf a, .inf b => if a = b then .inf a else .nan
  | .inf a, .fin _ _ _ => .inf a
  | .fin _ _ _, .inf b => .inf b
  | .fin n1 m1 e1, .fin n2 m2 e2 =>
    let s := dySum (sgn n1 m1) e1 (sgn n2 m2) e2
    .fin (if s.1 = 0 then (n1 && n2 && m1 == 0 && m2 == 0) else decide (s.1 < 0)) s.1.natAbs s.2

/-- The exact product: zero times an infinity is NaN (R60). -/
def FVal.mul : FVal → FVal → FVal
  | .nan, _ => .nan
  | _, .nan => .nan
  | .inf a, .inf b => .inf (a != b)
  | .inf a, .fin n m _ => if m = 0 then .nan else .inf (a != n)
  | .fin n m _, .inf b => if m = 0 then .nan else .inf (n != b)
  | .fin n1 m1 e1, .fin n2 m2 e2 => .fin (n1 != n2) (m1 * m2) (e1 + e2)

/-- The sign flipped; NaN stays NaN. -/
def FVal.negate : FVal → FVal
  | .nan => .nan
  | .inf a => .inf (!a)
  | .fin n m e => .fin (!n) m e

/-- a < b of two values; false with a NaN (R71). -/
def FVal.lt : FVal → FVal → Bool
  | .nan, _ => false
  | _, .nan => false
  | .inf a, .inf b => a && !b
  | .inf a, .fin _ _ _ => a
  | .fin _ _ _, .inf b => !b
  | .fin n1 m1 e1, .fin n2 m2 e2 => decide ((dySum (sgn n1 m1) e1 (-(sgn n2 m2)) e2).1 < 0)

/-- a = b of two values, with −0 = +0; false with a NaN (R71). -/
def FVal.eqv : FVal → FVal → Bool
  | .nan, _ => false
  | _, .nan => false
  | .inf a, .inf b => a == b
  | .inf _, .fin _ _ _ => false
  | .fin _ _ _, .inf _ => false
  | .fin n1 m1 e1, .fin n2 m2 e2 => decide ((dySum (sgn n1 m1) e1 (-(sgn n2 m2)) e2).1 = 0)

/-- Whether an fp32 word is a NaN. -/
def f32IsNaN (w : Word) : Bool := f32 w == .nan

/-- add of R71. -/
def f32Add (a b : Word) : FRes := f32OfVal ((f32 a).add (f32 b))
/-- sub of R71. -/
def f32Sub (a b : Word) : FRes := f32OfVal ((f32 a).add (f32 b).negate)
/-- mul of R71. -/
def f32Mul (a b : Word) : FRes := f32OfVal ((f32 a).mul (f32 b))
/-- fma of R71: one rounding. -/
def f32Fma (a b c : Word) : FRes := f32OfVal (((f32 a).mul (f32 b)).add (f32 c))

/-- max of R71: NaN if either is NaN; max(−0, +0) = +0. -/
def f32Max (a b : Word) : FRes :=
  if f32IsNaN a || f32IsNaN b then ⟨f32NaN, false⟩
  else if (f32 a).eqv (f32 b) then ⟨if a.toNat < 0x80000000 then a else b, false⟩
  else if (f32 a).lt (f32 b) then ⟨b, false⟩ else ⟨a, false⟩

/-- min of R71: NaN if either is NaN; min(−0, +0) = −0. -/
def f32Min (a b : Word) : FRes :=
  if f32IsNaN a || f32IsNaN b then ⟨f32NaN, false⟩
  else if (f32 a).eqv (f32 b) then ⟨if a.toNat < 0x80000000 then b else a, false⟩
  else if (f32 a).lt (f32 b) then ⟨a, false⟩ else ⟨b, false⟩

/-- A NaN is written canonical and positive (R62). -/
def f32Canon (w : Word) : Word := if f32IsNaN w then f32NaN else w

/-- abs of R71: sign cleared, NaN included. -/
def f32Abs (a : Word) : FRes := ⟨a &&& 0x7FFFFFFF#32, false⟩
/-- neg of R71: sign flipped, NaN included. -/
def f32Neg (a : Word) : FRes := ⟨a ^^^ 0x80000000#32, false⟩

/-- The exact value 1. -/
def oneVal : FVal := .fin false 1 0

/-- k units in the last place of a finite fp32 word, negative where `neg` (R71). -/
def ulps (neg : Bool) (k : Nat) (w : Word) : FVal := .fin neg k ((max (w.toNat / 2 ^ 23 % 256) 1 : Nat) - 150 : Int)

/-- Whether the positive fp32 word w lies within k ulp, of itself, of a positive real x, given the exact tests `le r` (r ≤ x)
and `ge r` (x ≤ r) of a value r (R71); an infinity or a NaN is no such word. -/
def nearUlp (k : Nat) (le ge : FVal → Bool) (w : Word) : Bool :=
  decide (w.toNat < 0x7F800000) && (match (f32 w).add (ulps true k w) with
    | .fin true _ _ => true
    | r => le r) && ge ((f32 w).add (ulps false k w))

/-- The largest finite fp32 word that passes a test `le` of being at most some positive real: the exponent and mantissa
bits are tried from the top. -/
def wordFloor (le : FVal → Bool) : Word :=
  (List.range 31).foldl (fun acc i =>
    let t := acc ||| (1#32 <<< (30 - i))
    if t.toNat < 0x7F800000 ∧ le (f32 t) then t else acc) 0#32

/-- A positive result known to k ulp only (R71): the free word where it keeps the accuracy, else the floor.
(DESIGN CHOICE, log entry 20.) -/
def nearResult (k : Nat) (le ge : FVal → Bool) (raw : Word) : Word := if nearUlp k le ge raw then raw else wordFloor le

/-- A word with the sign bit n and the magnitude of w. -/
def withSign (n : Bool) (w : Word) : Word := if n then w ||| 0x80000000#32 else w &&& 0x7FFFFFFF#32

/-- Whether 2^x ≤ y for a finite x and a finite positive y, decided exactly: x is a whole number of 2^-j, and both sides are
raised to the power 2^j. An infinite y is above every such power. -/
def powLe (x y : FVal) : Bool :=
  match x, y with
  | .fin n m e, .fin _ my ey =>
    let j : Nat := 2 ^ (-e).toNat
    let d : Int := sgn n (m * 2 ^ e.toNat) - ey * j
    if 0 ≤ d then decide (2 ^ d.toNat ≤ my ^ j) else decide (0 < my ^ j)
  | _, _ => true

/-- Whether y ≤ 2^x for a finite x and a finite y, decided exactly. -/
def powGe (x y : FVal) : Bool :=
  match x, y with
  | .fin n m e, .fin _ my ey =>
    let j : Nat := 2 ^ (-e).toNat
    let d : Int := sgn n (m * 2 ^ e.toNat) - ey * j
    if 0 ≤ d then decide (my ^ j ≤ 2 ^ d.toNat) else decide (my = 0 ∨ my ^ j * 2 ^ (-d).toNat ≤ 1)
  | _, _ => false

/-- recip of R71 and R73: the special values exactly, and 1 of 1 as R201 needs it; an overflow to an infinity as R74 rounds it;
otherwise a free value within 1 ulp of 1 / a. (DESIGN CHOICE, log entry 20.) -/
def f32Recip (a : Word) : FRes :=
  match f32 a with
  | .nan => ⟨f32NaN, false⟩
  | .inf n => ⟨BitVec.ofNat 32 (fmtF32.zeroBits n), false⟩
  | .fin n 0 _ => ⟨f32Inf n, false⟩
  | .fin n m e =>
    let exact := f32OfRat n 1 m (-e)
    if exact.overflow then exact
    else if a = 0x3F800000#32 then ⟨a, false⟩
    else
      let v : FVal := .fin false m e
      ⟨withSign n (nearResult 1 (fun r => !(oneVal.lt (r.mul v))) (fun r => !((r.mul v).lt oneVal))
        (withSign false (Config.recipRaw a))), false⟩

/-- rsqrt of R71 and R73: special values exactly; otherwise a free value within 2 ulp of 1 / √a: r is compared with it by
r² × a against 1. (DESIGN CHOICE, log entry 20.) -/
def f32Rsqrt (a : Word) : FRes :=
  match f32 a with
  | .nan => ⟨f32NaN, false⟩
  | .inf true => ⟨f32NaN, false⟩
  | .inf false => ⟨0#32, false⟩
  | .fin n 0 _ => ⟨f32Inf n, false⟩
  | .fin true _ _ => ⟨f32NaN, false⟩
  | .fin false m e =>
    let v : FVal := .fin false m e
    ⟨nearResult 2 (fun r => !(oneVal.lt ((r.mul r).mul v))) (fun r => !(((r.mul r).mul v).lt oneVal))
      (Config.rsqrtRaw a), false⟩

/-- exp2 of R71, R73 and R74: special values exactly; +0 where 2^a lies below the smallest subnormal 2^-149; +∞ with the
overflow where it is 2^128 or more (below 128, no fp32 a gives more than the largest finite value); otherwise a
free finite value within 2 ulp of 2^a. (DESIGN CHOICE, log entry 20.) -/
def f32Exp2 (a : Word) : FRes :=
  match f32 a with
  | .nan => ⟨f32NaN, false⟩
  | .inf true => ⟨0#32, false⟩
  | .inf false => ⟨f32Inf false, false⟩
  | .fin _ 0 _ => ⟨0x3F800000#32, false⟩
  | .fin n m e =>
    let x : FVal := .fin n m e
    if x.lt (.fin true 149 0) then ⟨0#32, false⟩
    else if !(x.lt (.fin false 128 0)) then ⟨f32Inf false, true⟩
    else ⟨nearResult 2 (powGe x) (powLe x) (Config.exp2Raw a), false⟩

/-- The absolute error that log2 may have where its result is below 1 in magnitude (R71). -/
def log2Slack : FVal := .fin false 1 (-22)

/-- log2 of R71 and R73: special values exactly; otherwise a free value, within an absolute error of 2^-22 where log2 a is
below 1 in magnitude and within 2 ulp elsewhere: r is compared with log2 a by 2^r against a.
(DESIGN CHOICE, log entry 20.) -/
def f32Log2 (a : Word) : FRes :=
  match f32 a with
  | .nan => ⟨f32NaN, false⟩
  | .inf true => ⟨f32NaN, false⟩
  | .inf false => ⟨f32Inf false, false⟩
  | .fin _ 0 _ => ⟨f32Inf true, false⟩
  | .fin true _ _ => ⟨f32NaN, false⟩
  | .fin false m e =>
    let v : FVal := .fin false m e
    let raw := Config.log2Raw a
    let small := FVal.lt (.fin false 1 (-1)) v && v.lt (.fin false 2 0)
    let neg := v.lt oneVal
    -- r ≤ |log2 a| and |log2 a| ≤ r
    let le := fun r : FVal => if neg then powGe r.negate v else powLe r v
    let ge := fun r : FVal => if neg then powLe r.negate v else powGe r v
    let ok :=
      if small then
        decide (raw.toNat % 0x80000000 < 0x7F800000) && powLe ((f32 raw).add log2Slack.negate) v
          && powGe ((f32 raw).add log2Slack) v
      else decide ((0x80000000 ≤ raw.toNat) = (neg = true)) && nearUlp 2 le ge (withSign false raw)
    ⟨if ok then raw else withSign neg (wordFloor le), false⟩

/-- One level of the pairwise tree of R72. -/
def pairUp (f : Word → Word → FRes) : List Word → List Word × Bool
  | a :: b :: rest =>
    let r := f a b
    let t := pairUp f rest
    (r.bits :: t.1, r.overflow || t.2)
  | rest => (rest, false)

/-- The six levels of a 64-lane reduction (R72). -/
def reduceTree (f : Word → Word → FRes) (lanes : List Word) : FRes :=
  let r := (List.range 6).foldl (fun (acc : List Word × Bool) _ =>
    let t := pairUp f acc.1
    (t.1, acc.2 || t.2)) (lanes, false)
  ⟨r.1.headD 0#32, r.2⟩

/-! ### Element formats that CVT and MOV name (R99) -/

/-- A plain element's value as fp32 (R64: exact widening). Codes 0x0 to 0x6 of R99. -/
def widen (fmt : Nat) (bits : Nat) : Word :=
  match fmt with
  | 0 => f32Canon (BitVec.ofNat 32 bits)
  | 1 => (f32OfVal (fmtBf16.decode bits)).bits
  | 2 => (f32OfVal (fmtE4m3.decode bits)).bits
  | 3 => (f32OfVal (fmtE5m2.decode bits)).bits
  | 4 => (f32OfInt (BitVec.ofNat 8 bits).toInt 0).bits
  | 5 => (f32OfInt (BitVec.ofNat 4 bits).toInt 0).bits
  | _ => (f32OfVal (fmtE2m1.decode bits)).bits

/-- int32 to fp32, nearest-even always (R64). -/
def f32OfInt32 (w : Word) : Word := (f32OfInt w.toInt 0).bits

/-- What a conversion of one element leaves: its bits, whether it counts as a clamp or overflow (R66), whether it is a
NaN converted to an integer (R66), and whether a NaN is written (R63). -/
structure Conv where
  bits : Nat
  sat : Bool := false
  nanToInt : Bool := false
  nanOut : Bool := false
  deriving DecidableEq, Repr

/-- fp32 to a floating target (R64, R65). -/
def convFloat (f : FFmt) (sat : Bool) (mode : Rnd) (w : Word) : Conv :=
  match f32 w with
  | .nan => { bits := f.canonNaN, nanOut := true }
  | .inf n =>
    match f.specials with
    | .ieee => { bits := f.infBits n }
    | _ => if sat then { bits := f.maxBits n, sat := true } else { bits := f.canonNaN, sat := true, nanOut := true }
  | .fin n 0 _ => { bits := f.zeroBits n }
  | .fin n m e =>
    let x := f.roundMag mode m 1 e
    if f.overflows x then
      match mode with
      | .rtz => { bits := f.maxBits n, sat := true }
      | _ =>
        match f.specials with
        | .ieee =>
          if sat ∧ f.mbits = 2 then { bits := f.maxBits n, sat := true } else { bits := f.infBits n, sat := true }
        | _ =>
          if sat then { bits := f.maxBits n, sat := true }
          else { bits := f.canonNaN, sat := true, nanOut := true }
    else { bits := f.pack n x }

/-- The exact quotient n / d × 2^e with its sign, rounded to an integer and clamped to ± lim (R64, R69). -/
def intOfRat (lim : Nat) (mode : Rnd) (neg : Bool) (n d : Nat) (e : Int) : Int × Bool :=
  let nd := scaleRat n d e
  let q := mode.quot nd.1 nd.2
  if lim < q then (sgn neg lim, true) else (sgn neg q, false)

/-- fp32 to int8 or int4 (R64): clamp to ± lim; NaN gives 0. -/
def convInt (width lim : Nat) (mode : Rnd) (w : Word) : Conv :=
  match f32 w with
  | .nan => { bits := 0, nanToInt := true }
  | .inf n => { bits := (BitVec.ofInt width (sgn n lim)).toNat, sat := true }
  | .fin n m e =>
    let r := intOfRat lim mode n m 1 e
    { bits := (BitVec.ofInt width r.1).toNat, sat := r.2 }

/-- fp32 to a plain target of R99: 0x0 to 0x5. -/
def convPlain (fmt : Nat) (fp8Sat : Bool) (mode : Rnd) (w : Word) : Conv :=
  match fmt with
  | 0 => { bits := (f32Canon w).toNat, nanOut := f32IsNaN w }
  | 1 => convFloat fmtBf16 false mode w
  | 2 => convFloat fmtE4m3 fp8Sat mode w
  | 3 => convFloat fmtE5m2 fp8Sat mode w
  | 4 => convInt 8 127 mode w
  | _ => convInt 4 7 mode w

/-! ### Quantisation (R69, R70) -/

/-- The four scaled forms (R50). -/
inductive Form where
  | s4e
  | s4i
  | g8
  | g4
  deriving DecidableEq, Repr

/-- The scaled form of a format code of R99. -/
def Form.ofCode : Nat → Option Form
  | 7 => some .s4e
  | 8 => some .s4i
  | 9 => some .g8
  | 10 => some .g4
  | _ => none

/-- Whether the form's scale is an E8M0 byte (otherwise a bf16). -/
def Form.e8m0 : Form → Bool
  | .s4e | .s4i => true
  | _ => false

/-- The element limit of the form (R69). -/
def Form.limit : Form → Nat
  | .s4e => 6
  | .s4i => 7
  | .g8 => 127
  | .g4 => 7

/-- Bits of an element of the form (R50). -/
def Form.width : Form → Nat
  | .g8 => 8
  | _ => 4

/-- A skein's written scale and elements, with the events of R66. -/
structure Skein where
  scale : Nat
  elems : List Nat
  sat : Nat
  convNan : Bool
  nanOut : Nat
  deriving DecidableEq, Repr

/-- The magnitude of an fp32 word as a value. -/
def f32Mag (w : Word) : FVal := f32 (w &&& 0x7FFFFFFF#32)

/-- amax of R69 for a skein without NaN. -/
def amaxOf (xs : List Word) : FVal :=
  (xs.map f32Mag).foldl (fun a x => if a.lt x then x else a) (.fin false 0 0)

/-- The smallest k with m × 2^e ≤ lim × 2^k, for m > 0. -/
def scaleExp (lim m : Nat) (e : Int) : Int :=
  let k := ratLog2 m lim + e
  let nd := scaleRat m lim (e - k)
  if nd.1 ≤ nd.2 then k else k + 1

/-- An E8M0 field from an exponent, clamped to 2^-127 to 2^127 (R69). -/
def e8m0Of (k : Int) : Nat := (min (max k (-127)) 127 + 127).toNat

/-- A magnitude n / d × 2^e rounded away from zero to bf16; beyond the largest finite bf16 it is the infinity of its
sign (R69, R70). -/
def bf16Up (neg : Bool) (n d : Nat) (e : Int) : Nat :=
  if n = 0 then fmtBf16.zeroBits neg
  else
    let x := fmtBf16.roundMag .up n d e
    if fmtBf16.overflows x then fmtBf16.infBits neg else fmtBf16.pack neg x

/-- An element encoding of a form from its sign and magnitude in units of R46. -/
def Form.encodeInt (f : Form) (v : Int) : Nat := (BitVec.ofInt f.width v).toNat

/-- The element limit's encoding with a sign. -/
def Form.limitBits (f : Form) (neg : Bool) : Nat :=
  match f with
  | .s4e => (if neg then 8 else 0) + 7
  | _ => f.encodeInt (sgn neg f.limit)

/-- One element: the exact quotient by the written scale (m × 2^e over sm × 2^se), rounded once and clamped (R69). -/
def Form.element (f : Form) (mode : Rnd) (neg : Bool) (m : Nat) (e : Int) (sm : Nat) (se : Int) : Nat × Bool :=
  match f with
  | .s4e =>
    if m = 0 then (if neg then 8 else 0, false)
    else
      let x := fmtE2m1.roundMag mode m sm (e - se)
      if fmtE2m1.overflows x then (f.limitBits neg, true) else (fmtE2m1.pack neg x, false)
  | _ =>
    let r := intOfRat f.limit mode neg m sm (e - se)
    (f.encodeInt r.1, r.2)

/-- The scale a skein without NaN is written with (R69 computed, R70 supplied). None: the NaN-skein result. -/
def Form.scaleOf (f : Form) (supplied : Option Word) (xs : List Word) : Option Nat :=
  match supplied with
  | some v =>
    match f32 v with
    | .nan => none
    | .inf n => some (if f.e8m0 then 0xFE else fmtBf16.infBits n)
    | .fin n m e =>
      if f.e8m0 then some (if m = 0 then 0 else e8m0Of (scaleExp 1 m e))
      else some (bf16Up n m 1 e)
  | none =>
    match amaxOf xs with
    | .fin _ 0 _ => some (if f.e8m0 then 0x7F else 0x3F80)
    | .fin _ m e =>
      if f.e8m0 then some (e8m0Of (scaleExp f.limit m e)) else some (bf16Up false m f.limit e)
    | _ => some (if f.e8m0 then 0xFE else 0x7F80)

/-- The value of a written scale. -/
def Form.scaleVal (f : Form) (scale : Nat) : FVal :=
  if f.e8m0 then .fin false 1 ((scale : Int) - 127) else fmtBf16.decode scale

/-- One element of a skein whose written scale is `scale` (R69, R70). -/
def Form.elementOf (f : Form) (mode : Rnd) (scale : Nat) (x : Word) : Nat × Bool :=
  match f32 x, f.scaleVal scale with
  | .nan, _ => (0, false)
  | _, .nan => (0, false)
  | .inf n, .fin s _ _ => (f.limitBits (n != s), true)
  | .inf n, .inf s => (f.limitBits (n != s), true)
  | .fin _ _ _, .inf _ => (0, false)
  | .fin n m e, .fin s sm se =>
    if sm = 0 then (if m = 0 then (0, false) else (f.limitBits (n != s), true))
    else f.element mode (n != s) m e sm se

/-- Quantises one skein of 32 lanes (R69, R70): `modes` gives each lane's rounding. -/
def Form.quantise (f : Form) (supplied : Option Word) (modes : List Rnd) (xs : List Word) : Skein :=
  let nanSkein : Skein :=
    ⟨if f.e8m0 then 0xFF else 0x7FC0, xs.map fun _ => 0, 0, true, 1⟩
  if xs.any f32IsNaN then nanSkein
  else
    match f.scaleOf supplied xs with
    | none => nanSkein
    | some sc =>
      let zero := supplied.isNone && (amaxOf xs).eqv (.fin false 0 0)
      let r := if zero then xs.map (fun _ => (0, false)) else (List.zip modes xs).map fun p => f.elementOf p.1 sc p.2
      ⟨sc, r.map (·.1), (r.filter (·.2)).length, false, 0⟩

end Sys2Proof.Machine
end

