-- ==== Sys2Proof/Machine/RegTable.lean ====
section
/-!
DEFINITION. The register tables of the spec's chapters as data: each register's offset in its window (R38), its copies,
its fields with access class (R12) and reset value (R19), and a name for every field. A field marked FW reads 0 until
it is loaded; a field marked Fuse has the value the assumption log names.
-/

namespace Sys2Proof.Machine

/-- The access classes of R12. -/
inductive Access where
  | ro
  | rw
  | rws
  | rwl
  | w1c
  | wo
  deriving DecidableEq, Repr

/-- One field of a register: lowest bit, width, access class and reset value. -/
structure FieldDef where
  lo : Nat
  width : Nat
  access : Access
  reset : Nat
  deriving DecidableEq, Repr

/-- One row of a register table: copy i of outer block o lies at off + i × stride + o × 0x400. A wide register is 64
bits in two consecutive words (R11). -/
structure RegDef where
  name : String
  off : Nat
  count : Nat
  stride : Nat
  outer : Nat
  wide : Bool
  fields : List FieldDef
  deriving DecidableEq, Repr

/-- A field in the register store: the key of its register, its lowest bit and its width. -/
structure Fld where
  key : Nat
  lo : Nat
  width : Nat
  wide : Bool
  deriving DecidableEq, Repr

/-- The key of the register at an offset of a window (R38). -/
def regKey (window off : Nat) : Nat := window * 0x100000 + off

/-- The key of a register of mailbox pair k (R39, R330). -/
def pairKey (k off : Nat) : Nat := 0x10000000 + k * 0x1000 + off

/-- Register table array (R75 to R78, R110 to R113, R134, R163, R210, R212, R236), part 1. -/
def arrayRegs1 : List RegDef := [
  ⟨"ARR_STATUS", 0x0, 1, 0x4, 1, false,
    [⟨0, 1, .ro, 0⟩, ⟨1, 1, .w1c, 0⟩, ⟨2, 1, .w1c, 0⟩, ⟨3, 1, .w1c, 0⟩, ⟨4, 1, .ro, 0⟩, ⟨5, 1, .ro, 0⟩, ⟨6, 1, .ro, 0⟩, ⟨7, 1, .ro, 0⟩]⟩,
  ⟨"ARR_KERNEL_ENTRY", 0x10, 1, 0x4, 1, false,
    [⟨0, 23, .rwl, 0⟩]⟩,
  ⟨"ARR_KERNEL_STEP", 0x14, 1, 0x4, 1, false,
    [⟨0, 32, .rwl, 0⟩]⟩,
  ⟨"ARR_KERNEL_GO", 0x18, 1, 0x4, 1, false,
    [⟨0, 1, .wo, 0⟩]⟩,
  ⟨"ARR_PC", 0x1c, 1, 0x4, 1, false,
    [⟨0, 23, .ro, 0⟩]⟩,
  ⟨"ARR_FAULT_INFO", 0x20, 1, 0x4, 1, false,
    [⟨0, 8, .ro, 0⟩, ⟨8, 4, .ro, 0⟩]⟩,
  ⟨"ARR_FAULT_ADDR", 0x24, 1, 0x4, 1, true,
    [⟨0, 64, .ro, 0⟩]⟩,
  ⟨"ARR_BUSY_CYCLES", 0x40, 1, 0x4, 1, true,
    [⟨0, 64, .ro, 0⟩]⟩,
  ⟨"ARR_GRID_CYCLES", 0x48, 1, 0x4, 1, true,
    [⟨0, 64, .ro, 0⟩]⟩,
  ⟨"ARR_STALL_CYCLES", 0x50, 1, 0x4, 1, true,
    [⟨0, 64, .ro, 0⟩]⟩,
  ⟨"ARR_STAGE_BYTES", 0x58, 1, 0x4, 1, true,
    [⟨0, 64, .ro, 0⟩]⟩,
  ⟨"ARR_ARITH_CTL", 0x200, 1, 0x4, 1, false,
    [⟨0, 2, .rws, 0⟩, ⟨2, 1, .rws, 1⟩, ⟨3, 1, .rws, 1⟩, ⟨4, 1, .rws, 0⟩]⟩,
  ⟨"ARR_ARITH_STAT", 0x204, 1, 0x4, 1, false,
    [⟨0, 1, .w1c, 0⟩, ⟨1, 1, .w1c, 0⟩, ⟨2, 1, .w1c, 0⟩, ⟨3, 1, .w1c, 0⟩, ⟨4, 1, .w1c, 0⟩]⟩,
  ⟨"ARR_SR_SEED", 0x208, 1, 0x4, 1, false,
    [⟨0, 32, .rws, 0⟩]⟩]

/-- Register table array (R75 to R78, R110 to R113, R134, R163, R210, R212, R236), part 2. -/
def arrayRegs2 : List RegDef := [
  ⟨"ARR_NAN_COUNT", 0x20c, 1, 0x4, 1, false,
    [⟨0, 32, .ro, 0⟩]⟩,
  ⟨"ARR_SAT_COUNT", 0x210, 1, 0x4, 1, false,
    [⟨0, 32, .ro, 0⟩]⟩,
  ⟨"SPL_ECC_CORR", 0x1000, 1, 0x4, 1, false,
    [⟨0, 32, .ro, 0⟩]⟩,
  ⟨"SPL_ECC_UNCORR", 0x1004, 1, 0x4, 1, false,
    [⟨0, 32, .ro, 0⟩]⟩,
  ⟨"SPL_ECC_ADDR", 0x1008, 1, 0x4, 1, false,
    [⟨3, 20, .ro, 0⟩]⟩,
  ⟨"KNT_STATUS", 0x2000, 1, 0x4, 1, false,
    [⟨0, 1, .w1c, 0⟩]⟩,
  ⟨"KNT_RMO_ERR_COUNT", 0x2004, 1, 0x4, 1, false,
    [⟨0, 32, .ro, 0⟩]⟩,
  ⟨"KNT_RMO_ERR_ADDR", 0x2008, 1, 0x4, 1, true,
    [⟨0, 64, .ro, 0⟩]⟩,
  ⟨"KNT_SIGNAL", 0x2010, 1, 0x4, 1, false,
    [⟨0, 11, .wo, 0⟩, ⟨16, 16, .wo, 0⟩]⟩,
  ⟨"KNT_WAIT", 0x2014, 1, 0x4, 1, false,
    [⟨0, 11, .ro, 0⟩, ⟨31, 1, .ro, 0⟩]⟩,
  ⟨"KNT_WAIT_VALUE", 0x2018, 1, 0x4, 1, false,
    [⟨0, 32, .ro, 0⟩]⟩,
  ⟨"KNT_INFLIGHT", 0x201c, 1, 0x4, 1, false,
    [⟨0, 3, .ro, 0⟩]⟩,
  ⟨"KNT_VALUE", 0x4000, 2048, 0x4, 1, false,
    [⟨0, 32, .rwl, 0⟩]⟩,
  ⟨"VLT_STATUS", 0x8000, 1, 0x4, 1, false,
    [⟨0, 1, .ro, 0⟩, ⟨1, 1, .w1c, 0⟩, ⟨2, 1, .w1c, 0⟩, ⟨3, 1, .w1c, 0⟩, ⟨4, 1, .w1c, 0⟩, ⟨5, 1, .w1c, 0⟩]⟩]

/-- Register table array (R75 to R78, R110 to R113, R134, R163, R210, R212, R236), part 3. -/
def arrayRegs3 : List RegDef := [
  ⟨"VLT_ECC_CORR", 0x8004, 1, 0x4, 1, false,
    [⟨0, 32, .ro, 0⟩]⟩,
  ⟨"VLT_ECC_UNCORR", 0x8008, 1, 0x4, 1, false,
    [⟨0, 32, .ro, 0⟩]⟩,
  ⟨"VLT_ECC_ADDR", 0x800c, 1, 0x4, 1, false,
    [⟨3, 28, .ro, 0⟩]⟩,
  ⟨"VLT_PATROL_CTL", 0x8010, 1, 0x4, 1, false,
    [⟨0, 1, .rw, 1⟩, ⟨8, 8, .rw, 24⟩]⟩,
  ⟨"VLT_CLEAR_FIRST", 0x8014, 1, 0x4, 1, false,
    [⟨0, 9, .rwl, 0⟩]⟩,
  ⟨"VLT_CLEAR_COUNT", 0x8018, 1, 0x4, 1, false,
    [⟨0, 9, .rwl, 0⟩]⟩,
  ⟨"VLT_CLEAR_GO", 0x801c, 1, 0x4, 1, false,
    [⟨0, 1, .wo, 0⟩]⟩,
  ⟨"VLT_READ_BYTES", 0x8040, 1, 0x4, 1, true,
    [⟨0, 64, .ro, 0⟩]⟩,
  ⟨"VLT_WRITE_BYTES", 0x8048, 1, 0x4, 1, true,
    [⟨0, 64, .ro, 0⟩]⟩,
  ⟨"VLT_GRAN_TAG", 0x8100, 96, 0x4, 1, false,
    [⟨0, 32, .ro, 0⟩]⟩,
  ⟨"ATT_KV_BASE", 0xa000, 1, 0x4, 1, false,
    [⟨6, 25, .rwl, 0⟩]⟩,
  ⟨"ATT_FRAME_BYTES", 0xa004, 1, 0x4, 1, false,
    [⟨6, 15, .rwl, 0⟩]⟩,
  ⟨"ATT_FB_BASE", 0xa008, 1, 0x4, 1, false,
    [⟨6, 25, .rwl, 0⟩]⟩,
  ⟨"ATT_FB_FRAME_BYTES", 0xa00c, 1, 0x4, 1, false,
    [⟨6, 20, .rwl, 0⟩]⟩]

/-- Register table array (R75 to R78, R110 to R113, R134, R163, R210, R212, R236), part 4. -/
def arrayRegs4 : List RegDef := [
  ⟨"ATT_MASKED_ROWS", 0xa010, 1, 0x4, 1, false,
    [⟨0, 32, .ro, 0⟩]⟩,
  ⟨"ATT_STATUS", 0xa014, 1, 0x4, 1, false,
    [⟨0, 1, .w1c, 0⟩]⟩,
  ⟨"CNV_MAP_BASE", 0xc000, 8, 0x10, 1, false,
    [⟨6, 17, .rws, 0⟩]⟩,
  ⟨"CNV_MAP_STRIDE", 0xc004, 8, 0x10, 1, false,
    [⟨0, 10, .rws, 0⟩, ⟨12, 14, .rws, 0⟩]⟩,
  ⟨"CNV_MAP_SIZE", 0xc008, 8, 0x10, 1, false,
    [⟨0, 12, .rws, 0⟩, ⟨16, 12, .rws, 0⟩]⟩,
  ⟨"CNV_STATUS", 0xc100, 1, 0x4, 1, false,
    [⟨0, 1, .w1c, 0⟩, ⟨1, 1, .w1c, 0⟩, ⟨2, 1, .w1c, 0⟩]⟩,
  ⟨"CNV_WX_COARSE", 0xc104, 1, 0x4, 1, false,
    [⟨0, 32, .ro, 0⟩]⟩,
  ⟨"CNV_POOL_EMPTY", 0xc108, 1, 0x4, 1, false,
    [⟨0, 32, .ro, 0⟩]⟩,
  ⟨"CNV_ARGMAX_NAN", 0xc10c, 1, 0x4, 1, false,
    [⟨0, 32, .ro, 0⟩]⟩]

/-- Register table array (R75 to R78, R110 to R113, R134, R163, R210, R212, R236). -/
def arrayRegs : List RegDef := arrayRegs1 ++ arrayRegs2 ++ arrayRegs3 ++ arrayRegs4

/-- Register table reel (R208, R209), part 1. -/
def reelRegs1 : List RegDef := [
  ⟨"REEL_STATUS", 0x0, 1, 0x4, 1, false,
    [⟨0, 1, .ro, 0⟩, ⟨1, 1, .w1c, 0⟩, ⟨2, 1, .w1c, 0⟩]⟩,
  ⟨"REEL_ECC_CORR", 0x4, 1, 0x4, 1, false,
    [⟨0, 32, .ro, 0⟩]⟩,
  ⟨"REEL_ECC_UNCORR", 0x8, 1, 0x4, 1, false,
    [⟨0, 32, .ro, 0⟩]⟩,
  ⟨"REEL_MAP_INDEX", 0x10, 1, 0x4, 1, false,
    [⟨0, 18, .rw, 0⟩]⟩,
  ⟨"REEL_MAP_DATA", 0x14, 1, 0x4, 1, false,
    [⟨0, 32, .ro, 0⟩]⟩,
  ⟨"REEL_SEQ_INDEX", 0x18, 1, 0x4, 1, false,
    [⟨0, 14, .rw, 0⟩]⟩,
  ⟨"REEL_SEQ_DATA", 0x20, 8, 0x4, 1, false,
    [⟨0, 32, .ro, 0⟩]⟩,
  ⟨"REEL_P_CTL", 0x1000, 8, 0x80, 1, false,
    [⟨0, 1, .rwl, 0⟩, ⟨1, 1, .rwl, 0⟩, ⟨2, 1, .rwl, 0⟩]⟩,
  ⟨"REEL_P_FRAME_BASE", 0x1004, 8, 0x80, 1, false,
    [⟨0, 18, .rwl, 0⟩]⟩,
  ⟨"REEL_P_FRAME_COUNT", 0x1008, 8, 0x80, 1, false,
    [⟨0, 19, .rwl, 0⟩]⟩,
  ⟨"REEL_P_MAP_BASE", 0x100c, 8, 0x80, 1, false,
    [⟨0, 18, .rwl, 0⟩]⟩,
  ⟨"REEL_P_MAP_COUNT", 0x1010, 8, 0x80, 1, false,
    [⟨0, 19, .rwl, 0⟩]⟩,
  ⟨"REEL_P_SEQ_BASE", 0x1014, 8, 0x80, 1, false,
    [⟨0, 14, .rwl, 0⟩]⟩,
  ⟨"REEL_P_SEQ_COUNT", 0x1018, 8, 0x80, 1, false,
    [⟨0, 15, .rwl, 0⟩]⟩]

/-- Register table reel (R208, R209), part 2. -/
def reelRegs2 : List RegDef := [
  ⟨"REEL_P_TIER_SLOTS", 0x101c, 8, 0x80, 1, false,
    [⟨0, 19, .rwl, 0⟩]⟩,
  ⟨"REEL_P_FB_COUNT", 0x1020, 8, 0x80, 1, false,
    [⟨0, 16, .rwl, 0⟩]⟩,
  ⟨"REEL_P_PARK_TIMEOUT", 0x1024, 8, 0x80, 1, false,
    [⟨0, 32, .rw, 200000⟩]⟩,
  ⟨"REEL_P_FREE", 0x1028, 8, 0x80, 1, false,
    [⟨0, 19, .ro, 0⟩]⟩,
  ⟨"REEL_P_TIER_FREE", 0x102c, 8, 0x80, 1, false,
    [⟨0, 19, .ro, 0⟩]⟩,
  ⟨"REEL_P_PARKED", 0x1030, 8, 0x80, 1, false,
    [⟨0, 15, .ro, 0⟩]⟩,
  ⟨"REEL_P_EXHAUSTED", 0x1034, 8, 0x80, 1, false,
    [⟨0, 32, .ro, 0⟩]⟩,
  ⟨"REEL_P_STEP_ADDR", 0x1038, 8, 0x80, 1, true,
    [⟨6, 42, .rwl, 0⟩]⟩,
  ⟨"REEL_P_STEP_GO", 0x1040, 8, 0x80, 1, false,
    [⟨0, 1, .wo, 0⟩]⟩,
  ⟨"REEL_P_STEP_STAT", 0x1044, 8, 0x80, 1, false,
    [⟨0, 1, .ro, 0⟩, ⟨1, 1, .w1c, 0⟩, ⟨2, 1, .w1c, 0⟩, ⟨3, 1, .w1c, 0⟩]⟩,
  ⟨"REEL_P_STEP_NUM", 0x1048, 8, 0x80, 1, false,
    [⟨0, 32, .ro, 0⟩]⟩,
  ⟨"REEL_P_FB_FREE_MIN", 0x104c, 8, 0x80, 1, false,
    [⟨0, 16, .ro, 0⟩]⟩,
  ⟨"REEL_P_TIER_BASE", 0x1050, 8, 0x80, 1, true,
    [⟨6, 42, .rwl, 0⟩]⟩,
  ⟨"REEL_P_SLOT_BYTES", 0x1058, 8, 0x80, 1, false,
    [⟨6, 24, .rwl, 0⟩]⟩]

/-- Register table reel (R208, R209). -/
def reelRegs : List RegDef := reelRegs1 ++ reelRegs2

/-- Register table sampler (R269). -/
def samplerRegs : List RegDef := [
  ⟨"SMP_STATUS", 0x0, 1, 0x4, 1, false,
    [⟨0, 1, .ro, 0⟩, ⟨1, 1, .w1c, 0⟩, ⟨2, 1, .w1c, 0⟩, ⟨3, 1, .w1c, 0⟩]⟩,
  ⟨"SMP_UCODE_VER", 0x4, 1, 0x4, 1, false,
    [⟨0, 32, .ro, 0⟩]⟩,
  ⟨"SMP_SAMPLES", 0x8, 1, 0x4, 1, true,
    [⟨0, 64, .ro, 0⟩]⟩,
  ⟨"SMP_NAN_LOGITS", 0x10, 1, 0x4, 1, false,
    [⟨0, 32, .ro, 0⟩]⟩,
  ⟨"SMP_CANCEL_WON", 0x14, 1, 0x4, 1, false,
    [⟨0, 32, .ro, 0⟩]⟩,
  ⟨"SMP_CANCEL_LATE", 0x18, 1, 0x4, 1, false,
    [⟨0, 32, .ro, 0⟩]⟩,
  ⟨"SMP_STALL_P", 0x100, 8, 0x4, 1, false,
    [⟨0, 32, .ro, 0⟩]⟩]

/-- Register table hawkmoth (R297, R303), part 1. -/
def hawkmothRegs1 : List RegDef := [
  ⟨"HWK_STATUS", 0x0, 1, 0x4, 1, false,
    [⟨0, 1, .ro, 0⟩]⟩,
  ⟨"HWK_FW_VER", 0x4, 1, 0x4, 1, false,
    [⟨0, 32, .ro, 0⟩]⟩,
  ⟨"HWK_LOAD", 0x8, 1, 0x4, 1, false,
    [⟨0, 13, .ro, 0⟩, ⟨16, 13, .ro, 0⟩]⟩,
  ⟨"HWK_S_STAT", 0x100, 48, 0x4, 1, false,
    [⟨0, 3, .ro, 0⟩, ⟨3, 1, .w1c, 0⟩, ⟨4, 1, .w1c, 0⟩, ⟨5, 1, .w1c, 0⟩, ⟨6, 1, .w1c, 0⟩, ⟨16, 3, .ro, 0⟩]⟩,
  ⟨"HWK_S_PICS", 0x200, 48, 0x4, 1, false,
    [⟨0, 32, .ro, 0⟩]⟩,
  ⟨"HWK_S_CONCEAL", 0x300, 48, 0x4, 1, false,
    [⟨0, 32, .ro, 0⟩]⟩,
  ⟨"HWK_RC_CTL", 0x1000, 16, 0x40, 1, false,
    [⟨0, 2, .rws, 0⟩, ⟨2, 1, .rws, 1⟩, ⟨8, 8, .rws, 64⟩, ⟨16, 8, .rws, 0⟩]⟩,
  ⟨"HWK_RC_TARGET", 0x1004, 16, 0x40, 1, false,
    [⟨0, 32, .rws, 0⟩]⟩,
  ⟨"HWK_RC_MAX", 0x1008, 16, 0x40, 1, false,
    [⟨0, 32, .rws, 0⟩]⟩,
  ⟨"HWK_RC_VBV", 0x100c, 16, 0x40, 1, false,
    [⟨0, 24, .rws, 0⟩, ⟨24, 7, .rws, 50⟩]⟩,
  ⟨"HWK_RC_QP", 0x1010, 16, 0x40, 1, false,
    [⟨0, 8, .rws, 0⟩, ⟨8, 8, .rws, 51⟩, ⟨16, 8, .rws, 30⟩, ⟨24, 8, .rws, 32⟩]⟩,
  ⟨"HWK_RC_FULL", 0x1014, 16, 0x40, 1, false,
    [⟨0, 32, .ro, 0⟩]⟩,
  ⟨"HWK_RC_LAST", 0x1018, 16, 0x40, 1, false,
    [⟨0, 32, .ro, 0⟩]⟩,
  ⟨"HWK_RC_LASTQP", 0x101c, 16, 0x40, 1, false,
    [⟨0, 8, .ro, 0⟩, ⟨8, 8, .ro, 0⟩, ⟨16, 8, .ro, 0⟩]⟩]

/-- Register table hawkmoth (R297, R303), part 2. -/
def hawkmothRegs2 : List RegDef := [
  ⟨"HWK_RC_FLAGS", 0x1020, 16, 0x40, 1, false,
    [⟨0, 1, .w1c, 0⟩, ⟨1, 1, .w1c, 0⟩]⟩]

/-- Register table hawkmoth (R297, R303). -/
def hawkmothRegs : List RegDef := hawkmothRegs1 ++ hawkmothRegs2

/-- Register table shuttle (R320). -/
def shuttleRegs : List RegDef := [
  ⟨"SHT_COMMIT", 0x0, 1, 0x4, 1, false,
    [⟨0, 4, .wo, 0⟩]⟩,
  ⟨"SHT_WINDOW", 0x8, 1, 0x4, 1, true,
    [⟨0, 64, .ro, 0⟩]⟩,
  ⟨"SHT_I_STAT", 0x1000, 1, 0x400, 4, false,
    [⟨0, 1, .ro, 0⟩, ⟨1, 1, .w1c, 0⟩, ⟨2, 1, .w1c, 0⟩, ⟨3, 1, .ro, 0⟩, ⟨4, 1, .ro, 0⟩]⟩,
  ⟨"SHT_WEIGHT", 0x1100, 10, 0x20, 4, false,
    [⟨0, 16, .rws, 0⟩, ⟨16, 16, .rws, 0⟩]⟩,
  ⟨"SHT_HOLD", 0x1104, 10, 0x20, 4, false,
    [⟨0, 12, .rws, 256⟩]⟩,
  ⟨"SHT_CREDIT", 0x1108, 10, 0x20, 4, false,
    [⟨0, 16, .ro, 0⟩, ⟨16, 1, .ro, 0⟩, ⟨17, 1, .ro, 0⟩]⟩,
  ⟨"SHT_BEATS", 0x110c, 10, 0x20, 4, true,
    [⟨0, 64, .ro, 0⟩]⟩,
  ⟨"SHT_CUTS", 0x1114, 10, 0x20, 4, false,
    [⟨0, 32, .ro, 0⟩]⟩,
  ⟨"SHT_STARVED", 0x1118, 10, 0x20, 4, false,
    [⟨0, 32, .ro, 0⟩]⟩]

/-- Register table tier (R164, R523), part 1. -/
def tierRegs1 : List RegDef := [
  ⟨"TIER_STATUS", 0x0, 1, 0x4, 1, false,
    [⟨0, 1, .ro, 0⟩, ⟨1, 1, .ro, 0⟩, ⟨2, 1, .w1c, 0⟩, ⟨3, 1, .w1c, 0⟩, ⟨4, 1, .w1c, 0⟩, ⟨5, 1, .w1c, 0⟩, ⟨6, 1, .w1c, 0⟩]⟩,
  ⟨"TIER_ECC_CORR", 0x4, 1, 0x4, 1, false,
    [⟨0, 32, .ro, 0⟩]⟩,
  ⟨"TIER_ECC_UNCORR", 0x8, 1, 0x4, 1, false,
    [⟨0, 32, .ro, 0⟩]⟩,
  ⟨"TIER_ECC_ADDR", 0xc, 1, 0x4, 1, true,
    [⟨5, 33, .ro, 0⟩]⟩,
  ⟨"TIER_PATROL_CTL", 0x14, 1, 0x4, 1, false,
    [⟨0, 1, .rw, 1⟩, ⟨8, 8, .rw, 24⟩]⟩,
  ⟨"TIER_CLEAR_FIRST", 0x18, 1, 0x4, 1, false,
    [⟨0, 16, .rwl, 0⟩]⟩,
  ⟨"TIER_CLEAR_COUNT", 0x1c, 1, 0x4, 1, false,
    [⟨0, 17, .rwl, 0⟩, ⟨17, 1, .rwl, 0⟩, ⟨18, 4, .rwl, 0⟩]⟩,
  ⟨"TIER_CLEAR_GO", 0x20, 1, 0x4, 1, false,
    [⟨0, 1, .wo, 0⟩]⟩,
  ⟨"TIER_KEY_STAT", 0x24, 1, 0x4, 1, false,
    [⟨0, 9, .ro, 0⟩]⟩,
  ⟨"TIER_READ_BYTES", 0x40, 1, 0x4, 1, true,
    [⟨0, 64, .ro, 0⟩]⟩,
  ⟨"TIER_WRITE_BYTES", 0x48, 1, 0x4, 1, true,
    [⟨0, 64, .ro, 0⟩]⟩,
  ⟨"TIER_LINK_ECC", 0x100, 16, 0x4, 1, false,
    [⟨0, 32, .ro, 0⟩]⟩,
  ⟨"TIER_PRBS_STAT", 0x200, 1, 0x4, 1, false,
    [⟨0, 1, .ro, 0⟩, ⟨16, 16, .ro, 0⟩]⟩,
  ⟨"TIER_PRBS_BITS", 0x208, 1, 0x4, 1, true,
    [⟨0, 64, .ro, 0⟩]⟩]

/-- Register table tier (R164, R523), part 2. -/
def tierRegs2 : List RegDef := [
  ⟨"TIER_PRBS_ERR", 0x240, 16, 0x4, 1, false,
    [⟨0, 32, .ro, 0⟩]⟩,
  ⟨"TIER_PRBS_MAP", 0x280, 16, 0x4, 1, false,
    [⟨0, 32, .ro, 0⟩]⟩,
  ⟨"TIER_GRAN_TAG", 0x10000, 16384, 0x4, 1, false,
    [⟨0, 32, .ro, 0⟩]⟩]

/-- Register table tier (R164, R523). -/
def tierRegs : List RegDef := tierRegs1 ++ tierRegs2

/-- Register table spindle (R351). -/
def spindleRegs : List RegDef := [
  ⟨"SPN_STATUS", 0x0, 1, 0x4, 1, false,
    [⟨0, 1, .ro, 0⟩, ⟨1, 1, .ro, 0⟩, ⟨2, 1, .ro, 0⟩, ⟨3, 1, .ro, 0⟩, ⟨4, 1, .ro, 0⟩]⟩,
  ⟨"SPN_FW_VER", 0x4, 1, 0x4, 1, false,
    [⟨0, 32, .ro, 0⟩]⟩,
  ⟨"SPN_LOAD_STAT", 0x8, 1, 0x4, 1, false,
    [⟨0, 7, .ro, 0⟩]⟩,
  ⟨"SPN_LOAD_VER", 0x10, 7, 0x4, 1, false,
    [⟨0, 32, .ro, 0⟩]⟩,
  ⟨"SPN_PAIR_BIND", 0x40, 2, 0x4, 1, false,
    [⟨0, 32, .ro, 0⟩]⟩,
  ⟨"SPN_CMDS", 0x48, 1, 0x4, 1, true,
    [⟨0, 64, .ro, 0⟩]⟩,
  ⟨"SPN_CMD_FAIL", 0x50, 1, 0x4, 1, false,
    [⟨0, 32, .ro, 0⟩]⟩]

/-- Register table twin (R373). -/
def twinRegs : List RegDef := [
  ⟨"TWN_STATUS", 0x0, 1, 0x4, 1, false,
    [⟨0, 1, .ro, 0⟩, ⟨1, 3, .ro, 0⟩, ⟨4, 3, .ro, 0⟩, ⟨7, 1, .ro, 0⟩, ⟨8, 1, .w1c, 0⟩, ⟨9, 1, .w1c, 0⟩, ⟨10, 1, .w1c, 0⟩, ⟨11, 1, .w1c, 0⟩, ⟨12, 1, .w1c, 0⟩]⟩,
  ⟨"TWN_CLAIM_A", 0x4, 1, 0x4, 1, false,
    [⟨0, 32, .ro, 0⟩]⟩,
  ⟨"TWN_CLAIM_B", 0x8, 1, 0x4, 1, false,
    [⟨0, 32, .ro, 0⟩]⟩,
  ⟨"TWN_GATE_CLAIM", 0xc, 1, 0x4, 1, false,
    [⟨0, 32, .ro, 0⟩]⟩,
  ⟨"TWN_SWITCHES", 0x10, 1, 0x4, 1, false,
    [⟨0, 32, .ro, 0⟩]⟩,
  ⟨"TWN_LAST_GAP", 0x14, 1, 0x4, 1, false,
    [⟨0, 32, .ro, 0⟩]⟩,
  ⟨"TWN_LAST_CAUSE", 0x18, 1, 0x4, 1, false,
    [⟨0, 3, .ro, 0⟩]⟩,
  ⟨"TWN_PERIOD", 0x1c, 1, 0x4, 1, false,
    [⟨0, 14, .ro, 0⟩]⟩,
  ⟨"TWN_NEXT_SWAP", 0x20, 1, 0x4, 1, true,
    [⟨0, 64, .ro, 0⟩]⟩,
  ⟨"TWN_LEDGER", 0x28, 1, 0x4, 1, false,
    [⟨0, 6, .ro, 0⟩, ⟨8, 6, .ro, 0⟩]⟩,
  ⟨"TWN_LEDGER_SEQ", 0x2c, 1, 0x4, 1, true,
    [⟨0, 64, .ro, 0⟩]⟩,
  ⟨"TWN_REJECT", 0x40, 5, 0x4, 1, false,
    [⟨0, 32, .ro, 0⟩]⟩,
  ⟨"TWN_REJECT_LEDGER", 0x54, 1, 0x4, 1, false,
    [⟨0, 32, .ro, 0⟩]⟩,
  ⟨"TWN_QUAR", 0x60, 1, 0x4, 1, false,
    [⟨0, 3, .ro, 0⟩, ⟨8, 3, .ro, 0⟩]⟩]

/-- Register table cocoon (R407). -/
def cocoonRegs : List RegDef := [
  ⟨"COC_STATUS", 0x0, 1, 0x4, 1, false,
    [⟨0, 1, .ro, 0⟩, ⟨1, 1, .ro, 0⟩, ⟨2, 1, .ro, 0⟩, ⟨3, 1, .ro, 0⟩, ⟨4, 1, .w1c, 0⟩, ⟨5, 1, .w1c, 0⟩, ⟨6, 1, .w1c, 0⟩]⟩,
  ⟨"COC_LIFECYCLE", 0x4, 1, 0x4, 1, false,
    [⟨0, 2, .ro, 1⟩, ⟨8, 8, .ro, 0⟩]⟩,
  ⟨"COC_LMS_NEXT", 0x8, 1, 0x4, 1, false,
    [⟨0, 30, .ro, 0⟩]⟩,
  ⟨"COC_LMS_RESERVED", 0xc, 1, 0x4, 1, false,
    [⟨0, 31, .ro, 0⟩]⟩,
  ⟨"COC_LMS_REMAIN", 0x10, 1, 0x4, 1, false,
    [⟨0, 31, .ro, 0⟩]⟩,
  ⟨"COC_FINGERPRINT", 0x14, 1, 0x4, 1, false,
    [⟨0, 32, .ro, 0⟩]⟩,
  ⟨"COC_SEAL", 0x18, 1, 0x4, 1, false,
    [⟨0, 8, .ro, 0⟩, ⟨8, 8, .ro, 0⟩, ⟨16, 8, .ro, 0⟩]⟩,
  ⟨"COC_SESSIONS", 0x1c, 1, 0x4, 1, false,
    [⟨0, 5, .ro, 0⟩]⟩,
  ⟨"COC_IMPORT_BYTES", 0x20, 1, 0x4, 1, true,
    [⟨0, 64, .ro, 0⟩]⟩,
  ⟨"COC_IMPORT_FAIL", 0x28, 1, 0x4, 1, false,
    [⟨0, 32, .ro, 0⟩]⟩,
  ⟨"COC_REPORTS", 0x2c, 1, 0x4, 1, false,
    [⟨0, 32, .ro, 0⟩]⟩,
  ⟨"COC_NS_DROP", 0x30, 1, 0x4, 1, false,
    [⟨0, 32, .ro, 0⟩]⟩]

/-- Register table power (R437, R523). -/
def powerRegs : List RegDef := [
  ⟨"PWR_STATUS", 0x0, 1, 0x4, 1, false,
    [⟨0, 1, .ro, 0⟩, ⟨1, 1, .ro, 0⟩, ⟨2, 1, .w1c, 0⟩, ⟨3, 1, .ro, 0⟩, ⟨4, 1, .ro, 0⟩, ⟨5, 1, .ro, 0⟩, ⟨6, 1, .w1c, 0⟩, ⟨7, 1, .ro, 0⟩, ⟨8, 1, .w1c, 0⟩, ⟨9, 1, .ro, 0⟩, ⟨10, 1, .ro, 0⟩]⟩,
  ⟨"PWR_CAP", 0x4, 1, 0x4, 1, false,
    [⟨0, 9, .ro, 0⟩, ⟨16, 9, .ro, 0⟩]⟩,
  ⟨"PWR_CAUSE", 0x8, 1, 0x4, 1, false,
    [⟨0, 1, .ro, 0⟩, ⟨1, 1, .ro, 0⟩, ⟨2, 1, .ro, 0⟩, ⟨3, 1, .ro, 0⟩]⟩,
  ⟨"PWR_EST", 0xc, 1, 0x4, 1, false,
    [⟨0, 16, .ro, 0⟩, ⟨16, 16, .ro, 0⟩]⟩,
  ⟨"PWR_OFF_MAP", 0x10, 1, 0x4, 1, true,
    [⟨0, 64, .ro, 0⟩]⟩,
  ⟨"PWR_GATED_MAP", 0x18, 1, 0x4, 1, true,
    [⟨0, 64, .ro, 0⟩]⟩,
  ⟨"PWR_CTL", 0x20, 1, 0x4, 1, false,
    [⟨0, 8, .rw, 10⟩, ⟨8, 8, .rw, 2⟩]⟩,
  ⟨"PWR_REPLAN", 0x24, 1, 0x4, 1, false,
    [⟨0, 16, .ro, 0⟩]⟩,
  ⟨"PWR_INPUT", 0x30, 1, 0x4, 1, false,
    [⟨0, 10, .ro, 0⟩, ⟨10, 1, .ro, 0⟩, ⟨11, 1, .ro, 0⟩, ⟨12, 1, .ro, 0⟩]⟩,
  ⟨"PWR_SHARE", 0x100, 8, 0x4, 1, false,
    [⟨0, 9, .ro, 0⟩, ⟨16, 10, .ro, 0⟩]⟩,
  ⟨"PWR_A_EST", 0x1000, 64, 0x10, 1, false,
    [⟨0, 16, .ro, 0⟩]⟩,
  ⟨"PWR_A_VF", 0x1004, 64, 0x10, 1, false,
    [⟨0, 10, .ro, 500⟩, ⟨10, 8, .ro, 200⟩, ⟨18, 8, .ro, 200⟩]⟩,
  ⟨"PWR_A_AGE", 0x1008, 64, 0x10, 1, false,
    [⟨0, 8, .ro, 50⟩, ⟨8, 1, .w1c, 0⟩]⟩,
  ⟨"PWR_A_DUTY", 0x100c, 64, 0x10, 1, false,
    [⟨0, 5, .ro, 0⟩, ⟨5, 1, .ro, 0⟩, ⟨6, 1, .ro, 0⟩]⟩]

/-- Register table thermal (R438). -/
def thermalRegs : List RegDef := [
  ⟨"THM_STATUS", 0x0, 1, 0x4, 1, false,
    [⟨0, 1, .ro, 0⟩, ⟨1, 1, .w1c, 0⟩, ⟨2, 1, .w1c, 0⟩, ⟨3, 1, .w1c, 0⟩, ⟨4, 1, .ro, 0⟩, ⟨5, 1, .ro, 0⟩]⟩,
  ⟨"THM_FLOOR", 0x4, 1, 0x4, 1, false,
    [⟨0, 8, .ro, 0⟩]⟩,
  ⟨"THM_INLET", 0x8, 1, 0x4, 1, false,
    [⟨0, 16, .ro, 0⟩, ⟨16, 16, .ro, 0⟩]⟩,
  ⟨"THM_TRIPS", 0xc, 1, 0x4, 1, false,
    [⟨0, 32, .ro, 0⟩]⟩,
  ⟨"THM_SENSOR", 0x100, 144, 0x4, 1, false,
    [⟨0, 16, .ro, 0⟩, ⟨16, 2, .ro, 0⟩]⟩,
  ⟨"THM_HOT", 0x400, 64, 0x4, 1, false,
    [⟨0, 16, .ro, 0⟩, ⟨16, 1, .ro, 0⟩, ⟨17, 1, .ro, 0⟩]⟩]

/-- Register table moult (R463). -/
def moultRegs : List RegDef := [
  ⟨"MLT_STATUS", 0x0, 1, 0x4, 1, false,
    [⟨0, 1, .ro, 0⟩, ⟨1, 1, .ro, 0⟩, ⟨2, 1, .w1c, 0⟩, ⟨3, 1, .w1c, 0⟩, ⟨4, 3, .ro, 0⟩]⟩,
  ⟨"MLT_UNUSABLE", 0x8, 1, 0x4, 1, true,
    [⟨0, 64, .ro, 0⟩]⟩,
  ⟨"MLT_CONDEMNED", 0x10, 1, 0x4, 1, true,
    [⟨0, 64, .ro, 0⟩]⟩,
  ⟨"MLT_LAST_FAIL", 0x18, 1, 0x4, 1, true,
    [⟨0, 64, .ro, 0⟩]⟩,
  ⟨"MLT_LAST_ANALOG", 0x20, 1, 0x4, 1, false,
    [⟨0, 4, .ro, 0⟩, ⟨4, 4, .ro, 0⟩]⟩,
  ⟨"MLT_BOOT_TICKS", 0x24, 1, 0x4, 1, false,
    [⟨0, 32, .ro, 0⟩]⟩,
  ⟨"MLT_RUNS", 0x28, 1, 0x4, 1, false,
    [⟨0, 32, .ro, 0⟩]⟩,
  ⟨"MLT_A_RESULT", 0x100, 64, 0x4, 1, false,
    [⟨0, 3, .ro, 0⟩, ⟨3, 1, .ro, 0⟩]⟩]

/-- Register table update (R481). -/
def updateRegs : List RegDef := [
  ⟨"UPD_STATUS", 0x0, 1, 0x4, 1, false,
    [⟨0, 3, .ro, 0⟩, ⟨3, 1, .w1c, 0⟩, ⟨4, 1, .w1c, 0⟩]⟩,
  ⟨"UPD_HELD", 0x4, 1, 0x4, 1, false,
    [⟨0, 14, .ro, 0⟩]⟩,
  ⟨"UPD_STAGED_P", 0x8, 1, 0x4, 1, false,
    [⟨0, 14, .ro, 0⟩]⟩,
  ⟨"UPD_RUN_VER", 0xc, 1, 0x4, 1, false,
    [⟨0, 32, .ro, 0⟩]⟩,
  ⟨"UPD_FB_VER", 0x10, 1, 0x4, 1, false,
    [⟨0, 32, .ro, 0⟩]⟩,
  ⟨"UPD_STAGED_VER", 0x14, 1, 0x4, 1, false,
    [⟨0, 32, .ro, 0⟩]⟩,
  ⟨"UPD_SEC", 0x18, 1, 0x4, 1, false,
    [⟨0, 6, .ro, 0⟩, ⟨8, 6, .ro, 0⟩, ⟨16, 6, .ro, 0⟩]⟩,
  ⟨"UPD_DEADLINE", 0x20, 1, 0x4, 1, true,
    [⟨0, 64, .ro, 0⟩]⟩,
  ⟨"UPD_ACTIVATIONS", 0x28, 1, 0x4, 1, false,
    [⟨0, 32, .ro, 0⟩]⟩,
  ⟨"UPD_FALLBACKS", 0x2c, 1, 0x4, 1, false,
    [⟨0, 32, .ro, 0⟩]⟩]

/-- Register table errors (R496). -/
def errorsRegs : List RegDef := [
  ⟨"ERR_STATUS", 0x0, 1, 0x4, 1, false,
    [⟨0, 1, .ro, 0⟩, ⟨1, 1, .w1c, 0⟩, ⟨2, 1, .w1c, 0⟩, ⟨3, 1, .ro, 0⟩]⟩,
  ⟨"ERR_TIME", 0x8, 1, 0x4, 1, true,
    [⟨0, 64, .ro, 0⟩]⟩,
  ⟨"ERR_SEQ", 0x10, 1, 0x4, 1, false,
    [⟨0, 32, .ro, 0⟩]⟩,
  ⟨"ERR_RAISED", 0x14, 1, 0x4, 1, false,
    [⟨0, 32, .ro, 0⟩]⟩,
  ⟨"ERR_MERGED", 0x18, 1, 0x4, 1, false,
    [⟨0, 32, .ro, 0⟩]⟩,
  ⟨"ERR_DROP", 0x1c, 1, 0x4, 1, false,
    [⟨0, 32, .ro, 0⟩]⟩,
  ⟨"ERR_LAST_FATAL", 0x20, 1, 0x4, 1, false,
    [⟨0, 3, .ro, 0⟩]⟩,
  ⟨"ERR_FABRIC_CORR", 0x24, 1, 0x4, 1, false,
    [⟨0, 32, .ro, 0⟩]⟩,
  ⟨"ERR_FABRIC_UNCORR", 0x28, 1, 0x4, 1, false,
    [⟨0, 32, .ro, 0⟩]⟩,
  ⟨"ERR_LOST", 0x100, 17, 0x4, 1, false,
    [⟨0, 32, .ro, 0⟩]⟩,
  ⟨"ERR_P_CORR", 0x200, 8, 0x8, 1, false,
    [⟨0, 32, .ro, 0⟩]⟩,
  ⟨"ERR_P_UNCORR", 0x204, 8, 0x8, 1, false,
    [⟨0, 32, .ro, 0⟩]⟩]

/-- Register table pcie (R119, R523). -/
def pcieRegs : List RegDef := [
  ⟨"PCI_LINK", 0x0, 2, 0x4, 1, false,
    [⟨0, 1, .ro, 0⟩, ⟨1, 5, .ro, 0⟩, ⟨6, 3, .ro, 0⟩, ⟨9, 1, .ro, 0⟩, ⟨10, 1, .ro, 0⟩, ⟨11, 1, .w1c, 0⟩]⟩,
  ⟨"PCI_LANE_OK", 0x8, 1, 0x4, 1, false,
    [⟨0, 16, .ro, 0⟩]⟩,
  ⟨"PCI_PRBS_STAT", 0xc, 1, 0x4, 1, false,
    [⟨0, 1, .ro, 0⟩, ⟨16, 16, .ro, 0⟩]⟩,
  ⟨"PCI_PRBS_BITS", 0x10, 1, 0x4, 1, true,
    [⟨0, 64, .ro, 0⟩]⟩,
  ⟨"PCI_PRBS_ERR", 0x100, 16, 0x4, 1, false,
    [⟨0, 32, .ro, 0⟩]⟩,
  ⟨"PCI_WIN_CTL", 0x1000, 16, 0x20, 1, false,
    [⟨0, 2, .rwl, 0⟩, ⟨2, 1, .rwl, 0⟩, ⟨4, 3, .rwl, 0⟩]⟩,
  ⟨"PCI_WIN_BASE", 0x1004, 16, 0x20, 1, true,
    [⟨12, 52, .rwl, 0⟩]⟩,
  ⟨"PCI_WIN_SIG", 0x100c, 16, 0x20, 1, true,
    [⟨28, 36, .rwl, 0⟩]⟩,
  ⟨"PCI_WIN_STAT", 0x1014, 16, 0x20, 1, false,
    [⟨0, 1, .w1c, 0⟩, ⟨1, 1, .w1c, 0⟩, ⟨2, 1, .w1c, 0⟩]⟩]

/-- Register table mgmt (R523). -/
def mgmtRegs : List RegDef := [
  ⟨"MGT_STATUS", 0x0, 1, 0x4, 1, false,
    [⟨0, 1, .ro, 0⟩, ⟨1, 1, .ro, 0⟩, ⟨2, 2, .ro, 0⟩, ⟨4, 1, .ro, 0⟩, ⟨5, 1, .ro, 0⟩]⟩,
  ⟨"MGT_PRBS_BITS", 0x8, 1, 0x4, 1, true,
    [⟨0, 64, .ro, 0⟩]⟩,
  ⟨"MGT_PRBS_ERR", 0x10, 1, 0x4, 1, false,
    [⟨0, 32, .ro, 0⟩]⟩,
  ⟨"MGT_BAD_FRAMES", 0x14, 1, 0x4, 1, false,
    [⟨0, 32, .ro, 0⟩]⟩]

/-- Register table identity (R464). -/
def identityRegs : List RegDef := [
  ⟨"IDM_STATUS", 0x0, 1, 0x4, 1, false,
    [⟨0, 1, .ro, 0⟩, ⟨1, 1, .ro, 0⟩, ⟨2, 1, .ro, 0⟩, ⟨3, 1, .w1c, 0⟩, ⟨4, 4, .ro, 0⟩]⟩,
  ⟨"IDM_OWN", 0x4, 1, 0x4, 1, false,
    [⟨0, 8, .ro, 33⟩, ⟨8, 8, .ro, 5⟩]⟩,
  ⟨"IDM_TRAY", 0x8, 1, 0x4, 1, false,
    [⟨0, 8, .ro, 0⟩, ⟨8, 8, .ro, 0⟩, ⟨16, 16, .ro, 0⟩]⟩,
  ⟨"IDM_MANIFOLD", 0xc, 1, 0x4, 1, false,
    [⟨0, 8, .ro, 0⟩]⟩,
  ⟨"IDM_CHECKS", 0x10, 1, 0x4, 1, false,
    [⟨0, 32, .ro, 0⟩]⟩]

/-- Register table pair (R330). -/
def pairRegs : List RegDef := [
  ⟨"SPN_MB_CTL", 0x800, 1, 0x4, 1, false,
    [⟨0, 1, .rwl, 0⟩, ⟨1, 1, .rw, 0⟩, ⟨2, 1, .rw, 0⟩]⟩,
  ⟨"SPN_MB_STATUS", 0x804, 1, 0x4, 1, false,
    [⟨0, 1, .ro, 0⟩, ⟨1, 1, .w1c, 0⟩, ⟨2, 1, .w1c, 0⟩, ⟨3, 1, .w1c, 0⟩, ⟨4, 3, .ro, 0⟩, ⟨7, 1, .ro, 0⟩]⟩,
  ⟨"SPN_MB_DOORBELL", 0x808, 1, 0x4, 1, false,
    [⟨0, 32, .wo, 0⟩]⟩,
  ⟨"SPN_MB_RUNG", 0x80c, 1, 0x4, 1, false,
    [⟨0, 32, .ro, 0⟩]⟩,
  ⟨"SPN_MB_TAKEN", 0x810, 1, 0x4, 1, false,
    [⟨0, 32, .ro, 0⟩]⟩,
  ⟨"SPN_MB_DONE", 0x814, 1, 0x4, 1, false,
    [⟨0, 32, .ro, 0⟩]⟩,
  ⟨"SPN_MB_CMP_BASE", 0x818, 1, 0x4, 1, true,
    [⟨12, 52, .rwl, 0⟩]⟩,
  ⟨"SPN_MB_CMP_SIZE", 0x820, 1, 0x4, 1, false,
    [⟨0, 4, .rwl, 6⟩]⟩,
  ⟨"SPN_MB_EVT_BASE", 0x824, 1, 0x4, 1, true,
    [⟨12, 52, .rwl, 0⟩]⟩,
  ⟨"SPN_MB_EVT_SIZE", 0x82c, 1, 0x4, 1, false,
    [⟨0, 4, .rwl, 6⟩]⟩,
  ⟨"SPN_MB_LINE_BASE", 0x830, 1, 0x4, 1, true,
    [⟨6, 58, .rwl, 0⟩]⟩,
  ⟨"SPN_MB_CMP_CONSUMED", 0x838, 1, 0x4, 1, false,
    [⟨0, 32, .rw, 0⟩]⟩,
  ⟨"SPN_MB_EVT_CONSUMED", 0x83c, 1, 0x4, 1, false,
    [⟨0, 32, .rw, 0⟩]⟩]

/-- The table of a register window (R38); an unassigned window has none. -/
def windowRegs (b : Nat) : List RegDef :=
  if b < 64 then arrayRegs
  else match b with
  | 0x40 => reelRegs
  | 0x41 => samplerRegs
  | 0x42 => hawkmothRegs
  | 0x43 => shuttleRegs
  | 0x44 => tierRegs
  | 0x45 => spindleRegs
  | 0x46 => twinRegs
  | 0x47 => cocoonRegs
  | 0x48 => powerRegs
  | 0x49 => thermalRegs
  | 0x4a => moultRegs
  | 0x4b => updateRegs
  | 0x4c => errorsRegs
  | 0x4d => pcieRegs
  | 0x4e => mgmtRegs
  | 0x4f => identityRegs
  | _ => []

/-! ### Field names -/

namespace F

/-- ARR_STATUS.busy -/
def arrStatusBusy (n : Nat) : Fld := ⟨regKey n (0x0), 0, 1, false⟩
/-- ARR_STATUS.fault -/
def arrStatusFault (n : Nat) : Fld := ⟨regKey n (0x0), 1, 1, false⟩
/-- ARR_STATUS.cfg_write_busy -/
def arrStatusCfgWriteBusy (n : Nat) : Fld := ⟨regKey n (0x0), 2, 1, false⟩
/-- ARR_STATUS.go_dropped -/
def arrStatusGoDropped (n : Nat) : Fld := ⟨regKey n (0x0), 3, 1, false⟩
/-- ARR_STATUS.clock_stopped -/
def arrStatusClockStopped (n : Nat) : Fld := ⟨regKey n (0x0), 4, 1, false⟩
/-- ARR_STATUS.power_gated -/
def arrStatusPowerGated (n : Nat) : Fld := ⟨regKey n (0x0), 5, 1, false⟩
/-- ARR_STATUS.restaging -/
def arrStatusRestaging (n : Nat) : Fld := ⟨regKey n (0x0), 6, 1, false⟩
/-- ARR_STATUS.unusable -/
def arrStatusUnusable (n : Nat) : Fld := ⟨regKey n (0x0), 7, 1, false⟩
/-- ARR_KERNEL_ENTRY.entry -/
def arrKernelEntryEntry (n : Nat) : Fld := ⟨regKey n (0x10), 0, 23, false⟩
/-- ARR_KERNEL_STEP.step -/
def arrKernelStepStep (n : Nat) : Fld := ⟨regKey n (0x14), 0, 32, false⟩
/-- ARR_KERNEL_GO.go -/
def arrKernelGoGo (n : Nat) : Fld := ⟨regKey n (0x18), 0, 1, false⟩
/-- ARR_PC.pc -/
def arrPcPc (n : Nat) : Fld := ⟨regKey n (0x1c), 0, 23, false⟩
/-- ARR_FAULT_INFO.code -/
def arrFaultInfoCode (n : Nat) : Fld := ⟨regKey n (0x20), 0, 8, false⟩
/-- ARR_FAULT_INFO.class -/
def arrFaultInfoClass (n : Nat) : Fld := ⟨regKey n (0x20), 8, 4, false⟩
/-- ARR_FAULT_ADDR.addr -/
def arrFaultAddrAddr (n : Nat) : Fld := ⟨regKey n (0x24), 0, 64, true⟩
/-- ARR_BUSY_CYCLES.busy_cycles -/
def arrBusyCyclesBusyCycles (n : Nat) : Fld := ⟨regKey n (0x40), 0, 64, true⟩
/-- ARR_GRID_CYCLES.grid_cycles -/
def arrGridCyclesGridCycles (n : Nat) : Fld := ⟨regKey n (0x48), 0, 64, true⟩
/-- ARR_STALL_CYCLES.stall_cycles -/
def arrStallCyclesStallCycles (n : Nat) : Fld := ⟨regKey n (0x50), 0, 64, true⟩
/-- ARR_STAGE_BYTES.stage_bytes -/
def arrStageBytesStageBytes (n : Nat) : Fld := ⟨regKey n (0x58), 0, 64, true⟩
/-- ARR_ARITH_CTL.round_mode -/
def arrArithCtlRoundMode (n : Nat) : Fld := ⟨regKey n (0x200), 0, 2, false⟩
/-- ARR_ARITH_CTL.fp8_sat -/
def arrArithCtlFp8Sat (n : Nat) : Fld := ⟨regKey n (0x200), 2, 1, false⟩
/-- ARR_ARITH_CTL.int_acc_sat -/
def arrArithCtlIntAccSat (n : Nat) : Fld := ⟨regKey n (0x200), 3, 1, false⟩
/-- ARR_ARITH_CTL.nan_report -/
def arrArithCtlNanReport (n : Nat) : Fld := ⟨regKey n (0x200), 4, 1, false⟩
/-- ARR_ARITH_STAT.nan_out -/
def arrArithStatNanOut (n : Nat) : Fld := ⟨regKey n (0x204), 0, 1, false⟩
/-- ARR_ARITH_STAT.int_sat -/
def arrArithStatIntSat (n : Nat) : Fld := ⟨regKey n (0x204), 1, 1, false⟩
/-- ARR_ARITH_STAT.conv_sat -/
def arrArithStatConvSat (n : Nat) : Fld := ⟨regKey n (0x204), 2, 1, false⟩
/-- ARR_ARITH_STAT.fp32_overflow -/
def arrArithStatFp32Overflow (n : Nat) : Fld := ⟨regKey n (0x204), 3, 1, false⟩
/-- ARR_ARITH_STAT.conv_nan -/
def arrArithStatConvNan (n : Nat) : Fld := ⟨regKey n (0x204), 4, 1, false⟩
/-- ARR_SR_SEED.seed -/
def arrSrSeedSeed (n : Nat) : Fld := ⟨regKey n (0x208), 0, 32, false⟩
/-- ARR_NAN_COUNT.nan_count -/
def arrNanCountNanCount (n : Nat) : Fld := ⟨regKey n (0x20c), 0, 32, false⟩
/-- ARR_SAT_COUNT.sat_count -/
def arrSatCountSatCount (n : Nat) : Fld := ⟨regKey n (0x210), 0, 32, false⟩
/-- SPL_ECC_CORR.corrected -/
def splEccCorrCorrected (n : Nat) : Fld := ⟨regKey n (0x1000), 0, 32, false⟩
/-- SPL_ECC_UNCORR.uncorrected -/
def splEccUncorrUncorrected (n : Nat) : Fld := ⟨regKey n (0x1004), 0, 32, false⟩
/-- SPL_ECC_ADDR.word -/
def splEccAddrWord (n : Nat) : Fld := ⟨regKey n (0x1008), 3, 20, false⟩
/-- KNT_STATUS.rmo_error -/
def kntStatusRmoError (n : Nat) : Fld := ⟨regKey n (0x2000), 0, 1, false⟩
/-- KNT_RMO_ERR_COUNT.errors -/
def kntRmoErrCountErrors (n : Nat) : Fld := ⟨regKey n (0x2004), 0, 32, false⟩
/-- KNT_RMO_ERR_ADDR.addr -/
def kntRmoErrAddrAddr (n : Nat) : Fld := ⟨regKey n (0x2008), 0, 64, true⟩
/-- KNT_SIGNAL.knot -/
def kntSignalKnot (n : Nat) : Fld := ⟨regKey n (0x2010), 0, 11, false⟩
/-- KNT_SIGNAL.increment -/
def kntSignalIncrement (n : Nat) : Fld := ⟨regKey n (0x2010), 16, 16, false⟩
/-- KNT_WAIT.knot -/
def kntWaitKnot (n : Nat) : Fld := ⟨regKey n (0x2014), 0, 11, false⟩
/-- KNT_WAIT.waiting -/
def kntWaitWaiting (n : Nat) : Fld := ⟨regKey n (0x2014), 31, 1, false⟩
/-- KNT_WAIT_VALUE.value -/
def kntWaitValueValue (n : Nat) : Fld := ⟨regKey n (0x2018), 0, 32, false⟩
/-- KNT_INFLIGHT.ops -/
def kntInflightOps (n : Nat) : Fld := ⟨regKey n (0x201c), 0, 3, false⟩
/-- KNT_VALUE.value -/
def kntValueValue (n j : Nat) : Fld := ⟨regKey n (0x4000 + 0x4 * j), 0, 32, false⟩
/-- VLT_STATUS.clearing -/
def vltStatusClearing (n : Nat) : Fld := ⟨regKey n (0x8000), 0, 1, false⟩
/-- VLT_STATUS.clear_done -/
def vltStatusClearDone (n : Nat) : Fld := ⟨regKey n (0x8000), 1, 1, false⟩
/-- VLT_STATUS.cfg_write_busy -/
def vltStatusCfgWriteBusy (n : Nat) : Fld := ⟨regKey n (0x8000), 2, 1, false⟩
/-- VLT_STATUS.patrol_late -/
def vltStatusPatrolLate (n : Nat) : Fld := ⟨regKey n (0x8000), 3, 1, false⟩
/-- VLT_STATUS.ue_seen -/
def vltStatusUeSeen (n : Nat) : Fld := ⟨regKey n (0x8000), 4, 1, false⟩
/-- VLT_STATUS.clear_rejected -/
def vltStatusClearRejected (n : Nat) : Fld := ⟨regKey n (0x8000), 5, 1, false⟩
/-- VLT_ECC_CORR.corrected -/
def vltEccCorrCorrected (n : Nat) : Fld := ⟨regKey n (0x8004), 0, 32, false⟩
/-- VLT_ECC_UNCORR.uncorrected -/
def vltEccUncorrUncorrected (n : Nat) : Fld := ⟨regKey n (0x8008), 0, 32, false⟩
/-- VLT_ECC_ADDR.word -/
def vltEccAddrWord (n : Nat) : Fld := ⟨regKey n (0x800c), 3, 28, false⟩
/-- VLT_PATROL_CTL.enable -/
def vltPatrolCtlEnable (n : Nat) : Fld := ⟨regKey n (0x8010), 0, 1, false⟩
/-- VLT_PATROL_CTL.period_h -/
def vltPatrolCtlPeriodH (n : Nat) : Fld := ⟨regKey n (0x8010), 8, 8, false⟩
/-- VLT_CLEAR_FIRST.first -/
def vltClearFirstFirst (n : Nat) : Fld := ⟨regKey n (0x8014), 0, 9, false⟩
/-- VLT_CLEAR_COUNT.count -/
def vltClearCountCount (n : Nat) : Fld := ⟨regKey n (0x8018), 0, 9, false⟩
/-- VLT_CLEAR_GO.go -/
def vltClearGoGo (n : Nat) : Fld := ⟨regKey n (0x801c), 0, 1, false⟩
/-- VLT_READ_BYTES.read_bytes -/
def vltReadBytesReadBytes (n : Nat) : Fld := ⟨regKey n (0x8040), 0, 64, true⟩
/-- VLT_WRITE_BYTES.write_bytes -/
def vltWriteBytesWriteBytes (n : Nat) : Fld := ⟨regKey n (0x8048), 0, 64, true⟩
/-- VLT_GRAN_TAG.tag -/
def vltGranTagTag (n j : Nat) : Fld := ⟨regKey n (0x8100 + 0x4 * j), 0, 32, false⟩
/-- ATT_KV_BASE.kv_base -/
def attKvBaseKvBase (n : Nat) : Fld := ⟨regKey n (0xa000), 6, 25, false⟩
/-- ATT_FRAME_BYTES.frame_bytes -/
def attFrameBytesFrameBytes (n : Nat) : Fld := ⟨regKey n (0xa004), 6, 15, false⟩
/-- ATT_FB_BASE.fb_base -/
def attFbBaseFbBase (n : Nat) : Fld := ⟨regKey n (0xa008), 6, 25, false⟩
/-- ATT_FB_FRAME_BYTES.fb_frame_bytes -/
def attFbFrameBytesFbFrameBytes (n : Nat) : Fld := ⟨regKey n (0xa00c), 6, 20, false⟩
/-- ATT_MASKED_ROWS.rows -/
def attMaskedRowsRows (n : Nat) : Fld := ⟨regKey n (0xa010), 0, 32, false⟩
/-- ATT_STATUS.rs_nan -/
def attStatusRsNan (n : Nat) : Fld := ⟨regKey n (0xa014), 0, 1, false⟩
/-- CNV_MAP_BASE.base -/
def cnvMapBaseBase (n j : Nat) : Fld := ⟨regKey n (0xc000 + 0x10 * j), 6, 17, false⟩
/-- CNV_MAP_STRIDE.px_stride -/
def cnvMapStridePxStride (n j : Nat) : Fld := ⟨regKey n (0xc004 + 0x10 * j), 0, 10, false⟩
/-- CNV_MAP_STRIDE.ln_stride -/
def cnvMapStrideLnStride (n j : Nat) : Fld := ⟨regKey n (0xc004 + 0x10 * j), 12, 14, false⟩
/-- CNV_MAP_SIZE.height -/
def cnvMapSizeHeight (n j : Nat) : Fld := ⟨regKey n (0xc008 + 0x10 * j), 0, 12, false⟩
/-- CNV_MAP_SIZE.width -/
def cnvMapSizeWidth (n j : Nat) : Fld := ⟨regKey n (0xc008 + 0x10 * j), 16, 12, false⟩
/-- CNV_STATUS.wx_coarse -/
def cnvStatusWxCoarse (n : Nat) : Fld := ⟨regKey n (0xc100), 0, 1, false⟩
/-- CNV_STATUS.pool_empty -/
def cnvStatusPoolEmpty (n : Nat) : Fld := ⟨regKey n (0xc100), 1, 1, false⟩
/-- CNV_STATUS.argmax_nan -/
def cnvStatusArgmaxNan (n : Nat) : Fld := ⟨regKey n (0xc100), 2, 1, false⟩
/-- CNV_WX_COARSE.skeins -/
def cnvWxCoarseSkeins (n : Nat) : Fld := ⟨regKey n (0xc104), 0, 32, false⟩
/-- CNV_POOL_EMPTY.windows -/
def cnvPoolEmptyWindows (n : Nat) : Fld := ⟨regKey n (0xc108), 0, 32, false⟩
/-- CNV_ARGMAX_NAN.pixels -/
def cnvArgmaxNanPixels (n : Nat) : Fld := ⟨regKey n (0xc10c), 0, 32, false⟩
/-- REEL_STATUS.ready -/
def reelStatusReady : Fld := ⟨regKey 0x40 (0x0), 0, 1, false⟩
/-- REEL_STATUS.cfg_write_busy -/
def reelStatusCfgWriteBusy : Fld := ⟨regKey 0x40 (0x0), 1, 1, false⟩
/-- REEL_STATUS.map_ue -/
def reelStatusMapUe : Fld := ⟨regKey 0x40 (0x0), 2, 1, false⟩
/-- REEL_ECC_CORR.corrected -/
def reelEccCorrCorrected : Fld := ⟨regKey 0x40 (0x4), 0, 32, false⟩
/-- REEL_ECC_UNCORR.uncorrected -/
def reelEccUncorrUncorrected : Fld := ⟨regKey 0x40 (0x8), 0, 32, false⟩
/-- REEL_MAP_INDEX.index -/
def reelMapIndexIndex : Fld := ⟨regKey 0x40 (0x10), 0, 18, false⟩
/-- REEL_MAP_DATA.entry -/
def reelMapDataEntry : Fld := ⟨regKey 0x40 (0x14), 0, 32, false⟩
/-- REEL_SEQ_INDEX.index -/
def reelSeqIndexIndex : Fld := ⟨regKey 0x40 (0x18), 0, 14, false⟩
/-- REEL_SEQ_DATA.word -/
def reelSeqDataWord (j : Nat) : Fld := ⟨regKey 0x40 (0x20 + 0x4 * j), 0, 32, false⟩
/-- REEL_P_CTL.enable -/
def reelPCtlEnable (j : Nat) : Fld := ⟨regKey 0x40 (0x1000 + 0x80 * j), 0, 1, false⟩
/-- REEL_P_CTL.fallback_en -/
def reelPCtlFallbackEn (j : Nat) : Fld := ⟨regKey 0x40 (0x1000 + 0x80 * j), 1, 1, false⟩
/-- REEL_P_CTL.kv_int4 -/
def reelPCtlKvInt4 (j : Nat) : Fld := ⟨regKey 0x40 (0x1000 + 0x80 * j), 2, 1, false⟩
/-- REEL_P_FRAME_BASE.base -/
def reelPFrameBaseBase (j : Nat) : Fld := ⟨regKey 0x40 (0x1004 + 0x80 * j), 0, 18, false⟩
/-- REEL_P_FRAME_COUNT.count -/
def reelPFrameCountCount (j : Nat) : Fld := ⟨regKey 0x40 (0x1008 + 0x80 * j), 0, 19, false⟩
/-- REEL_P_MAP_BASE.base -/
def reelPMapBaseBase (j : Nat) : Fld := ⟨regKey 0x40 (0x100c + 0x80 * j), 0, 18, false⟩
/-- REEL_P_MAP_COUNT.count -/
def reelPMapCountCount (j : Nat) : Fld := ⟨regKey 0x40 (0x1010 + 0x80 * j), 0, 19, false⟩
/-- REEL_P_SEQ_BASE.base -/
def reelPSeqBaseBase (j : Nat) : Fld := ⟨regKey 0x40 (0x1014 + 0x80 * j), 0, 14, false⟩
/-- REEL_P_SEQ_COUNT.count -/
def reelPSeqCountCount (j : Nat) : Fld := ⟨regKey 0x40 (0x1018 + 0x80 * j), 0, 15, false⟩
/-- REEL_P_TIER_SLOTS.count -/
def reelPTierSlotsCount (j : Nat) : Fld := ⟨regKey 0x40 (0x101c + 0x80 * j), 0, 19, false⟩
/-- REEL_P_FB_COUNT.count -/
def reelPFbCountCount (j : Nat) : Fld := ⟨regKey 0x40 (0x1020 + 0x80 * j), 0, 16, false⟩
/-- REEL_P_PARK_TIMEOUT.ticks -/
def reelPParkTimeoutTicks (j : Nat) : Fld := ⟨regKey 0x40 (0x1024 + 0x80 * j), 0, 32, false⟩
/-- REEL_P_FREE.free -/
def reelPFreeFree (j : Nat) : Fld := ⟨regKey 0x40 (0x1028 + 0x80 * j), 0, 19, false⟩
/-- REEL_P_TIER_FREE.free -/
def reelPTierFreeFree (j : Nat) : Fld := ⟨regKey 0x40 (0x102c + 0x80 * j), 0, 19, false⟩
/-- REEL_P_PARKED.parked -/
def reelPParkedParked (j : Nat) : Fld := ⟨regKey 0x40 (0x1030 + 0x80 * j), 0, 15, false⟩
/-- REEL_P_EXHAUSTED.count -/
def reelPExhaustedCount (j : Nat) : Fld := ⟨regKey 0x40 (0x1034 + 0x80 * j), 0, 32, false⟩
/-- REEL_P_STEP_ADDR.addr -/
def reelPStepAddrAddr (j : Nat) : Fld := ⟨regKey 0x40 (0x1038 + 0x80 * j), 6, 42, true⟩
/-- REEL_P_STEP_GO.go -/
def reelPStepGoGo (j : Nat) : Fld := ⟨regKey 0x40 (0x1040 + 0x80 * j), 0, 1, false⟩
/-- REEL_P_STEP_STAT.running -/
def reelPStepStatRunning (j : Nat) : Fld := ⟨regKey 0x40 (0x1044 + 0x80 * j), 0, 1, false⟩
/-- REEL_P_STEP_STAT.done -/
def reelPStepStatDone (j : Nat) : Fld := ⟨regKey 0x40 (0x1044 + 0x80 * j), 1, 1, false⟩
/-- REEL_P_STEP_STAT.rejected -/
def reelPStepStatRejected (j : Nat) : Fld := ⟨regKey 0x40 (0x1044 + 0x80 * j), 2, 1, false⟩
/-- REEL_P_STEP_STAT.dropped -/
def reelPStepStatDropped (j : Nat) : Fld := ⟨regKey 0x40 (0x1044 + 0x80 * j), 3, 1, false⟩
/-- REEL_P_STEP_NUM.step -/
def reelPStepNumStep (j : Nat) : Fld := ⟨regKey 0x40 (0x1048 + 0x80 * j), 0, 32, false⟩
/-- REEL_P_FB_FREE_MIN.free -/
def reelPFbFreeMinFree (j : Nat) : Fld := ⟨regKey 0x40 (0x104c + 0x80 * j), 0, 16, false⟩
/-- REEL_P_TIER_BASE.base -/
def reelPTierBaseBase (j : Nat) : Fld := ⟨regKey 0x40 (0x1050 + 0x80 * j), 6, 42, true⟩
/-- REEL_P_SLOT_BYTES.bytes -/
def reelPSlotBytesBytes (j : Nat) : Fld := ⟨regKey 0x40 (0x1058 + 0x80 * j), 6, 24, false⟩
/-- SMP_STATUS.ready -/
def smpStatusReady : Fld := ⟨regKey 0x41 (0x0), 0, 1, false⟩
/-- SMP_STATUS.nan_seen -/
def smpStatusNanSeen : Fld := ⟨regKey 0x41 (0x0), 1, 1, false⟩
/-- SMP_STATUS.no_finite -/
def smpStatusNoFinite : Fld := ⟨regKey 0x41 (0x0), 2, 1, false⟩
/-- SMP_STATUS.ring_fault -/
def smpStatusRingFault : Fld := ⟨regKey 0x41 (0x0), 3, 1, false⟩
/-- SMP_UCODE_VER.version -/
def smpUcodeVerVersion : Fld := ⟨regKey 0x41 (0x4), 0, 32, false⟩
/-- SMP_SAMPLES.samples -/
def smpSamplesSamples : Fld := ⟨regKey 0x41 (0x8), 0, 64, true⟩
/-- SMP_NAN_LOGITS.logits -/
def smpNanLogitsLogits : Fld := ⟨regKey 0x41 (0x10), 0, 32, false⟩
/-- SMP_CANCEL_WON.cancels -/
def smpCancelWonCancels : Fld := ⟨regKey 0x41 (0x14), 0, 32, false⟩
/-- SMP_CANCEL_LATE.cancels -/
def smpCancelLateCancels : Fld := ⟨regKey 0x41 (0x18), 0, 32, false⟩
/-- SMP_STALL_P.stalls -/
def smpStallPStalls (j : Nat) : Fld := ⟨regKey 0x41 (0x100 + 0x4 * j), 0, 32, false⟩
/-- HWK_STATUS.ready -/
def hwkStatusReady : Fld := ⟨regKey 0x42 (0x0), 0, 1, false⟩
/-- HWK_FW_VER.version -/
def hwkFwVerVersion : Fld := ⟨regKey 0x42 (0x4), 0, 32, false⟩
/-- HWK_LOAD.dec -/
def hwkLoadDec : Fld := ⟨regKey 0x42 (0x8), 0, 13, false⟩
/-- HWK_LOAD.enc -/
def hwkLoadEnc : Fld := ⟨regKey 0x42 (0x8), 16, 13, false⟩
/-- HWK_S_STAT.state -/
def hwkSStatState (j : Nat) : Fld := ⟨regKey 0x42 (0x100 + 0x4 * j), 0, 3, false⟩
/-- HWK_S_STAT.pool_wait -/
def hwkSStatPoolWait (j : Nat) : Fld := ⟨regKey 0x42 (0x100 + 0x4 * j), 3, 1, false⟩
/-- HWK_S_STAT.ring_wait -/
def hwkSStatRingWait (j : Nat) : Fld := ⟨regKey 0x42 (0x100 + 0x4 * j), 4, 1, false⟩
/-- HWK_S_STAT.stats_skip -/
def hwkSStatStatsSkip (j : Nat) : Fld := ⟨regKey 0x42 (0x100 + 0x4 * j), 5, 1, false⟩
/-- HWK_S_STAT.stream_error -/
def hwkSStatStreamError (j : Nat) : Fld := ⟨regKey 0x42 (0x100 + 0x4 * j), 6, 1, false⟩
/-- HWK_S_STAT.partition -/
def hwkSStatPartition (j : Nat) : Fld := ⟨regKey 0x42 (0x100 + 0x4 * j), 16, 3, false⟩
/-- HWK_S_PICS.pictures -/
def hwkSPicsPictures (j : Nat) : Fld := ⟨regKey 0x42 (0x200 + 0x4 * j), 0, 32, false⟩
/-- HWK_S_CONCEAL.units -/
def hwkSConcealUnits (j : Nat) : Fld := ⟨regKey 0x42 (0x300 + 0x4 * j), 0, 32, false⟩
/-- HWK_RC_CTL.mode -/
def hwkRcCtlMode (j : Nat) : Fld := ⟨regKey 0x42 (0x1000 + 0x40 * j), 0, 2, false⟩
/-- HWK_RC_CTL.row_adapt -/
def hwkRcCtlRowAdapt (j : Nat) : Fld := ⟨regKey 0x42 (0x1000 + 0x40 * j), 2, 1, false⟩
/-- HWK_RC_CTL.i_weight -/
def hwkRcCtlIWeight (j : Nat) : Fld := ⟨regKey 0x42 (0x1000 + 0x40 * j), 8, 8, false⟩
/-- HWK_RC_CTL.k -/
def hwkRcCtlK (j : Nat) : Fld := ⟨regKey 0x42 (0x1000 + 0x40 * j), 16, 8, false⟩
/-- HWK_RC_TARGET.target_kbps -/
def hwkRcTargetTargetKbps (j : Nat) : Fld := ⟨regKey 0x42 (0x1004 + 0x40 * j), 0, 32, false⟩
/-- HWK_RC_MAX.max_kbps -/
def hwkRcMaxMaxKbps (j : Nat) : Fld := ⟨regKey 0x42 (0x1008 + 0x40 * j), 0, 32, false⟩
/-- HWK_RC_VBV.vbv_kbit -/
def hwkRcVbvVbvKbit (j : Nat) : Fld := ⟨regKey 0x42 (0x100c + 0x40 * j), 0, 24, false⟩
/-- HWK_RC_VBV.init_pct -/
def hwkRcVbvInitPct (j : Nat) : Fld := ⟨regKey 0x42 (0x100c + 0x40 * j), 24, 7, false⟩
/-- HWK_RC_QP.qp_min -/
def hwkRcQpQpMin (j : Nat) : Fld := ⟨regKey 0x42 (0x1010 + 0x40 * j), 0, 8, false⟩
/-- HWK_RC_QP.qp_max -/
def hwkRcQpQpMax (j : Nat) : Fld := ⟨regKey 0x42 (0x1010 + 0x40 * j), 8, 8, false⟩
/-- HWK_RC_QP.qp_i -/
def hwkRcQpQpI (j : Nat) : Fld := ⟨regKey 0x42 (0x1010 + 0x40 * j), 16, 8, false⟩
/-- HWK_RC_QP.qp_p -/
def hwkRcQpQpP (j : Nat) : Fld := ⟨regKey 0x42 (0x1010 + 0x40 * j), 24, 8, false⟩
/-- HWK_RC_FULL.fullness -/
def hwkRcFullFullness (j : Nat) : Fld := ⟨regKey 0x42 (0x1014 + 0x40 * j), 0, 32, false⟩
/-- HWK_RC_LAST.bits -/
def hwkRcLastBits (j : Nat) : Fld := ⟨regKey 0x42 (0x1018 + 0x40 * j), 0, 32, false⟩
/-- HWK_RC_LASTQP.base -/
def hwkRcLastqpBase (j : Nat) : Fld := ⟨regKey 0x42 (0x101c + 0x40 * j), 0, 8, false⟩
/-- HWK_RC_LASTQP.row_min -/
def hwkRcLastqpRowMin (j : Nat) : Fld := ⟨regKey 0x42 (0x101c + 0x40 * j), 8, 8, false⟩
/-- HWK_RC_LASTQP.row_max -/
def hwkRcLastqpRowMax (j : Nat) : Fld := ⟨regKey 0x42 (0x101c + 0x40 * j), 16, 8, false⟩
/-- HWK_RC_FLAGS.vbv_overflow -/
def hwkRcFlagsVbvOverflow (j : Nat) : Fld := ⟨regKey 0x42 (0x1020 + 0x40 * j), 0, 1, false⟩
/-- HWK_RC_FLAGS.rc_refused -/
def hwkRcFlagsRcRefused (j : Nat) : Fld := ⟨regKey 0x42 (0x1020 + 0x40 * j), 1, 1, false⟩
/-- SHT_COMMIT.instances -/
def shtCommitInstances : Fld := ⟨regKey 0x43 (0x0), 0, 4, false⟩
/-- SHT_WINDOW.windows -/
def shtWindowWindows : Fld := ⟨regKey 0x43 (0x8), 0, 64, true⟩
/-- SHT_I_STAT.commit_pending -/
def shtIStatCommitPending (i : Nat) : Fld := ⟨regKey 0x43 (0x1000 + 0x400 * i), 0, 1, false⟩
/-- SHT_I_STAT.commit_refused -/
def shtIStatCommitRefused (i : Nat) : Fld := ⟨regKey 0x43 (0x1000 + 0x400 * i), 1, 1, false⟩
/-- SHT_I_STAT.hold_cut -/
def shtIStatHoldCut (i : Nat) : Fld := ⟨regKey 0x43 (0x1000 + 0x400 * i), 2, 1, false⟩
/-- SHT_I_STAT.oversubscribed -/
def shtIStatOversubscribed (i : Nat) : Fld := ⟨regKey 0x43 (0x1000 + 0x400 * i), 3, 1, false⟩
/-- SHT_I_STAT.active -/
def shtIStatActive (i : Nat) : Fld := ⟨regKey 0x43 (0x1000 + 0x400 * i), 4, 1, false⟩
/-- SHT_WEIGHT.weight -/
def shtWeightWeight (i j : Nat) : Fld := ⟨regKey 0x43 (0x1100 + 0x400 * i + 0x20 * j), 0, 16, false⟩
/-- SHT_WEIGHT.ceiling -/
def shtWeightCeiling (i j : Nat) : Fld := ⟨regKey 0x43 (0x1100 + 0x400 * i + 0x20 * j), 16, 16, false⟩
/-- SHT_HOLD.hold_limit -/
def shtHoldHoldLimit (i j : Nat) : Fld := ⟨regKey 0x43 (0x1104 + 0x400 * i + 0x20 * j), 0, 12, false⟩
/-- SHT_CREDIT.credit -/
def shtCreditCredit (i j : Nat) : Fld := ⟨regKey 0x43 (0x1108 + 0x400 * i + 0x20 * j), 0, 16, false⟩
/-- SHT_CREDIT.pending -/
def shtCreditPending (i j : Nat) : Fld := ⟨regKey 0x43 (0x1108 + 0x400 * i + 0x20 * j), 16, 1, false⟩
/-- SHT_CREDIT.owner -/
def shtCreditOwner (i j : Nat) : Fld := ⟨regKey 0x43 (0x1108 + 0x400 * i + 0x20 * j), 17, 1, false⟩
/-- SHT_BEATS.beats -/
def shtBeatsBeats (i j : Nat) : Fld := ⟨regKey 0x43 (0x110c + 0x400 * i + 0x20 * j), 0, 64, true⟩
/-- SHT_CUTS.cuts -/
def shtCutsCuts (i j : Nat) : Fld := ⟨regKey 0x43 (0x1114 + 0x400 * i + 0x20 * j), 0, 32, false⟩
/-- SHT_STARVED.windows -/
def shtStarvedWindows (i j : Nat) : Fld := ⟨regKey 0x43 (0x1118 + 0x400 * i + 0x20 * j), 0, 32, false⟩
/-- TIER_STATUS.ready -/
def tierStatusReady : Fld := ⟨regKey 0x44 (0x0), 0, 1, false⟩
/-- TIER_STATUS.clearing -/
def tierStatusClearing : Fld := ⟨regKey 0x44 (0x0), 1, 1, false⟩
/-- TIER_STATUS.clear_done -/
def tierStatusClearDone : Fld := ⟨regKey 0x44 (0x0), 2, 1, false⟩
/-- TIER_STATUS.cfg_write_busy -/
def tierStatusCfgWriteBusy : Fld := ⟨regKey 0x44 (0x0), 3, 1, false⟩
/-- TIER_STATUS.patrol_late -/
def tierStatusPatrolLate : Fld := ⟨regKey 0x44 (0x0), 4, 1, false⟩
/-- TIER_STATUS.clear_rejected -/
def tierStatusClearRejected : Fld := ⟨regKey 0x44 (0x0), 5, 1, false⟩
/-- TIER_STATUS.ue_seen -/
def tierStatusUeSeen : Fld := ⟨regKey 0x44 (0x0), 6, 1, false⟩
/-- TIER_ECC_CORR.corrected -/
def tierEccCorrCorrected : Fld := ⟨regKey 0x44 (0x4), 0, 32, false⟩
/-- TIER_ECC_UNCORR.uncorrected -/
def tierEccUncorrUncorrected : Fld := ⟨regKey 0x44 (0x8), 0, 32, false⟩
/-- TIER_ECC_ADDR.half_line -/
def tierEccAddrHalfLine : Fld := ⟨regKey 0x44 (0xc), 5, 33, true⟩
/-- TIER_PATROL_CTL.enable -/
def tierPatrolCtlEnable : Fld := ⟨regKey 0x44 (0x14), 0, 1, false⟩
/-- TIER_PATROL_CTL.period_h -/
def tierPatrolCtlPeriodH : Fld := ⟨regKey 0x44 (0x14), 8, 8, false⟩
/-- TIER_CLEAR_FIRST.first -/
def tierClearFirstFirst : Fld := ⟨regKey 0x44 (0x18), 0, 16, false⟩
/-- TIER_CLEAR_COUNT.count -/
def tierClearCountCount : Fld := ⟨regKey 0x44 (0x1c), 0, 17, false⟩
/-- TIER_CLEAR_COUNT.rekey -/
def tierClearCountRekey : Fld := ⟨regKey 0x44 (0x1c), 17, 1, false⟩
/-- TIER_CLEAR_COUNT.slot -/
def tierClearCountSlot : Fld := ⟨regKey 0x44 (0x1c), 18, 4, false⟩
/-- TIER_CLEAR_GO.go -/
def tierClearGoGo : Fld := ⟨regKey 0x44 (0x20), 0, 1, false⟩
/-- TIER_KEY_STAT.loaded -/
def tierKeyStatLoaded : Fld := ⟨regKey 0x44 (0x24), 0, 9, false⟩
/-- TIER_READ_BYTES.read_bytes -/
def tierReadBytesReadBytes : Fld := ⟨regKey 0x44 (0x40), 0, 64, true⟩
/-- TIER_WRITE_BYTES.write_bytes -/
def tierWriteBytesWriteBytes : Fld := ⟨regKey 0x44 (0x48), 0, 64, true⟩
/-- TIER_LINK_ECC.corrected -/
def tierLinkEccCorrected (j : Nat) : Fld := ⟨regKey 0x44 (0x100 + 0x4 * j), 0, 32, false⟩
/-- TIER_PRBS_STAT.running -/
def tierPrbsStatRunning : Fld := ⟨regKey 0x44 (0x200), 0, 1, false⟩
/-- TIER_PRBS_STAT.sync -/
def tierPrbsStatSync : Fld := ⟨regKey 0x44 (0x200), 16, 16, false⟩
/-- TIER_PRBS_BITS.bits -/
def tierPrbsBitsBits : Fld := ⟨regKey 0x44 (0x208), 0, 64, true⟩
/-- TIER_PRBS_ERR.errors -/
def tierPrbsErrErrors (j : Nat) : Fld := ⟨regKey 0x44 (0x240 + 0x4 * j), 0, 32, false⟩
/-- TIER_PRBS_MAP.lanes -/
def tierPrbsMapLanes (j : Nat) : Fld := ⟨regKey 0x44 (0x280 + 0x4 * j), 0, 32, false⟩
/-- TIER_GRAN_TAG.tag -/
def tierGranTagTag (j : Nat) : Fld := ⟨regKey 0x44 (0x10000 + 0x4 * j), 0, 32, false⟩
/-- SPN_STATUS.lomlet_ready -/
def spnStatusLomletReady : Fld := ⟨regKey 0x45 (0x0), 0, 1, false⟩
/-- SPN_STATUS.half -/
def spnStatusHalf : Fld := ⟨regKey 0x45 (0x0), 1, 1, false⟩
/-- SPN_STATUS.draining -/
def spnStatusDraining : Fld := ⟨regKey 0x45 (0x0), 2, 1, false⟩
/-- SPN_STATUS.drained -/
def spnStatusDrained : Fld := ⟨regKey 0x45 (0x0), 3, 1, false⟩
/-- SPN_STATUS.load_fail -/
def spnStatusLoadFail : Fld := ⟨regKey 0x45 (0x0), 4, 1, false⟩
/-- SPN_FW_VER.version -/
def spnFwVerVersion : Fld := ⟨regKey 0x45 (0x4), 0, 32, false⟩
/-- SPN_LOAD_STAT.loaded -/
def spnLoadStatLoaded : Fld := ⟨regKey 0x45 (0x8), 0, 7, false⟩
/-- SPN_LOAD_VER.version -/
def spnLoadVerVersion (j : Nat) : Fld := ⟨regKey 0x45 (0x10 + 0x4 * j), 0, 32, false⟩
/-- SPN_PAIR_BIND.pair -/
def spnPairBindPair (j : Nat) : Fld := ⟨regKey 0x45 (0x40 + 0x4 * j), 0, 32, false⟩
/-- SPN_CMDS.commands -/
def spnCmdsCommands : Fld := ⟨regKey 0x45 (0x48), 0, 64, true⟩
/-- SPN_CMD_FAIL.failed -/
def spnCmdFailFailed : Fld := ⟨regKey 0x45 (0x50), 0, 32, false⟩
/-- TWN_STATUS.active_half -/
def twnStatusActiveHalf : Fld := ⟨regKey 0x46 (0x0), 0, 1, false⟩
/-- TWN_STATUS.state_a -/
def twnStatusStateA : Fld := ⟨regKey 0x46 (0x0), 1, 3, false⟩
/-- TWN_STATUS.state_b -/
def twnStatusStateB : Fld := ⟨regKey 0x46 (0x0), 4, 3, false⟩
/-- TWN_STATUS.gap -/
def twnStatusGap : Fld := ⟨regKey 0x46 (0x0), 7, 1, false⟩
/-- TWN_STATUS.switched -/
def twnStatusSwitched : Fld := ⟨regKey 0x46 (0x0), 8, 1, false⟩
/-- TWN_STATUS.claim_rejected -/
def twnStatusClaimRejected : Fld := ⟨regKey 0x46 (0x0), 9, 1, false⟩
/-- TWN_STATUS.power_stuck -/
def twnStatusPowerStuck : Fld := ⟨regKey 0x46 (0x0), 10, 1, false⟩
/-- TWN_STATUS.swap_skipped -/
def twnStatusSwapSkipped : Fld := ⟨regKey 0x46 (0x0), 11, 1, false⟩
/-- TWN_STATUS.swap_failed -/
def twnStatusSwapFailed : Fld := ⟨regKey 0x46 (0x0), 12, 1, false⟩
/-- TWN_CLAIM_A.claim -/
def twnClaimAClaim : Fld := ⟨regKey 0x46 (0x4), 0, 32, false⟩
/-- TWN_CLAIM_B.claim -/
def twnClaimBClaim : Fld := ⟨regKey 0x46 (0x8), 0, 32, false⟩
/-- TWN_GATE_CLAIM.claim -/
def twnGateClaimClaim : Fld := ⟨regKey 0x46 (0xc), 0, 32, false⟩
/-- TWN_SWITCHES.count -/
def twnSwitchesCount : Fld := ⟨regKey 0x46 (0x10), 0, 32, false⟩
/-- TWN_LAST_GAP.cycles -/
def twnLastGapCycles : Fld := ⟨regKey 0x46 (0x14), 0, 32, false⟩
/-- TWN_LAST_CAUSE.cause -/
def twnLastCauseCause : Fld := ⟨regKey 0x46 (0x18), 0, 3, false⟩
/-- TWN_PERIOD.hours -/
def twnPeriodHours : Fld := ⟨regKey 0x46 (0x1c), 0, 14, false⟩
/-- TWN_NEXT_SWAP.timestamp -/
def twnNextSwapTimestamp : Fld := ⟨regKey 0x46 (0x20), 0, 64, true⟩
/-- TWN_LEDGER.copy0 -/
def twnLedgerCopy0 : Fld := ⟨regKey 0x46 (0x28), 0, 6, false⟩
/-- TWN_LEDGER.copy1 -/
def twnLedgerCopy1 : Fld := ⟨regKey 0x46 (0x28), 8, 6, false⟩
/-- TWN_LEDGER_SEQ.sequence -/
def twnLedgerSeqSequence : Fld := ⟨regKey 0x46 (0x2c), 0, 64, true⟩
/-- TWN_REJECT.rejected -/
def twnRejectRejected (j : Nat) : Fld := ⟨regKey 0x46 (0x40 + 0x4 * j), 0, 32, false⟩
/-- TWN_REJECT_LEDGER.rejected -/
def twnRejectLedgerRejected : Fld := ⟨regKey 0x46 (0x54), 0, 32, false⟩
/-- TWN_QUAR.cause_a -/
def twnQuarCauseA : Fld := ⟨regKey 0x46 (0x60), 0, 3, false⟩
/-- TWN_QUAR.cause_b -/
def twnQuarCauseB : Fld := ⟨regKey 0x46 (0x60), 8, 3, false⟩
/-- COC_STATUS.ready -/
def cocStatusReady : Fld := ⟨regKey 0x47 (0x0), 0, 1, false⟩
/-- COC_STATUS.lms_low -/
def cocStatusLmsLow : Fld := ⟨regKey 0x47 (0x0), 1, 1, false⟩
/-- COC_STATUS.lms_exhausted -/
def cocStatusLmsExhausted : Fld := ⟨regKey 0x47 (0x0), 2, 1, false⟩
/-- COC_STATUS.tree_pending -/
def cocStatusTreePending : Fld := ⟨regKey 0x47 (0x0), 3, 1, false⟩
/-- COC_STATUS.import_fail -/
def cocStatusImportFail : Fld := ⟨regKey 0x47 (0x0), 4, 1, false⟩
/-- COC_STATUS.lc_fail -/
def cocStatusLcFail : Fld := ⟨regKey 0x47 (0x0), 5, 1, false⟩
/-- COC_STATUS.entropy_fail -/
def cocStatusEntropyFail : Fld := ⟨regKey 0x47 (0x0), 6, 1, false⟩
/-- COC_LIFECYCLE.state -/
def cocLifecycleState : Fld := ⟨regKey 0x47 (0x4), 0, 2, false⟩
/-- COC_LIFECYCLE.fuses -/
def cocLifecycleFuses : Fld := ⟨regKey 0x47 (0x4), 8, 8, false⟩
/-- COC_LMS_NEXT.next -/
def cocLmsNextNext : Fld := ⟨regKey 0x47 (0x8), 0, 30, false⟩
/-- COC_LMS_RESERVED.reserved_end -/
def cocLmsReservedReservedEnd : Fld := ⟨regKey 0x47 (0xc), 0, 31, false⟩
/-- COC_LMS_REMAIN.remain -/
def cocLmsRemainRemain : Fld := ⟨regKey 0x47 (0x10), 0, 31, false⟩
/-- COC_FINGERPRINT.fingerprint -/
def cocFingerprintFingerprint : Fld := ⟨regKey 0x47 (0x14), 0, 32, false⟩
/-- COC_SEAL.sealed -/
def cocSealSealed : Fld := ⟨regKey 0x47 (0x18), 0, 8, false⟩
/-- COC_SEAL.bound -/
def cocSealBound : Fld := ⟨regKey 0x47 (0x18), 8, 8, false⟩
/-- COC_SEAL.ide -/
def cocSealIde : Fld := ⟨regKey 0x47 (0x18), 16, 8, false⟩
/-- COC_SESSIONS.sessions -/
def cocSessionsSessions : Fld := ⟨regKey 0x47 (0x1c), 0, 5, false⟩
/-- COC_IMPORT_BYTES.bytes -/
def cocImportBytesBytes : Fld := ⟨regKey 0x47 (0x20), 0, 64, true⟩
/-- COC_IMPORT_FAIL.failed -/
def cocImportFailFailed : Fld := ⟨regKey 0x47 (0x28), 0, 32, false⟩
/-- COC_REPORTS.reports -/
def cocReportsReports : Fld := ⟨regKey 0x47 (0x2c), 0, 32, false⟩
/-- COC_NS_DROP.denied -/
def cocNsDropDenied : Fld := ⟨regKey 0x47 (0x30), 0, 32, false⟩
/-- PWR_STATUS.ready -/
def pwrStatusReady : Fld := ⟨regKey 0x48 (0x0), 0, 1, false⟩
/-- PWR_STATUS.settling -/
def pwrStatusSettling : Fld := ⟨regKey 0x48 (0x0), 1, 1, false⟩
/-- PWR_STATUS.settled -/
def pwrStatusSettled : Fld := ⟨regKey 0x48 (0x0), 2, 1, false⟩
/-- PWR_STATUS.hw_cap -/
def pwrStatusHwCap : Fld := ⟨regKey 0x48 (0x0), 3, 1, false⟩
/-- PWR_STATUS.flow_low -/
def pwrStatusFlowLow : Fld := ⟨regKey 0x48 (0x0), 4, 1, false⟩
/-- PWR_STATUS.flow_short -/
def pwrStatusFlowShort : Fld := ⟨regKey 0x48 (0x0), 5, 1, false⟩
/-- PWR_STATUS.flow_loss -/
def pwrStatusFlowLoss : Fld := ⟨regKey 0x48 (0x0), 6, 1, false⟩
/-- PWR_STATUS.flow_fault -/
def pwrStatusFlowFault : Fld := ⟨regKey 0x48 (0x0), 7, 1, false⟩
/-- PWR_STATUS.pm_watchdog -/
def pwrStatusPmWatchdog : Fld := ⟨regKey 0x48 (0x0), 8, 1, false⟩
/-- PWR_STATUS.isolated -/
def pwrStatusIsolated : Fld := ⟨regKey 0x48 (0x0), 9, 1, false⟩
/-- PWR_STATUS.opportunistic -/
def pwrStatusOpportunistic : Fld := ⟨regKey 0x48 (0x0), 10, 1, false⟩
/-- PWR_CAP.host_cap -/
def pwrCapHostCap : Fld := ⟨regKey 0x48 (0x4), 0, 9, false⟩
/-- PWR_CAP.eff_cap -/
def pwrCapEffCap : Fld := ⟨regKey 0x48 (0x4), 16, 9, false⟩
/-- PWR_CAUSE.host -/
def pwrCauseHost : Fld := ⟨regKey 0x48 (0x8), 0, 1, false⟩
/-- PWR_CAUSE.flow -/
def pwrCauseFlow : Fld := ⟨regKey 0x48 (0x8), 1, 1, false⟩
/-- PWR_CAUSE.board -/
def pwrCauseBoard : Fld := ⟨regKey 0x48 (0x8), 2, 1, false⟩
/-- PWR_CAUSE.hardware -/
def pwrCauseHardware : Fld := ⟨regKey 0x48 (0x8), 3, 1, false⟩
/-- PWR_EST.module -/
def pwrEstModule : Fld := ⟨regKey 0x48 (0xc), 0, 16, false⟩
/-- PWR_EST.platform -/
def pwrEstPlatform : Fld := ⟨regKey 0x48 (0xc), 16, 16, false⟩
/-- PWR_OFF_MAP.off -/
def pwrOffMapOff : Fld := ⟨regKey 0x48 (0x10), 0, 64, true⟩
/-- PWR_GATED_MAP.gated -/
def pwrGatedMapGated : Fld := ⟨regKey 0x48 (0x18), 0, 64, true⟩
/-- PWR_CTL.rot_ms -/
def pwrCtlRotMs : Fld := ⟨regKey 0x48 (0x20), 0, 8, false⟩
/-- PWR_CTL.gate_ms -/
def pwrCtlGateMs : Fld := ⟨regKey 0x48 (0x20), 8, 8, false⟩
/-- PWR_REPLAN.hours -/
def pwrReplanHours : Fld := ⟨regKey 0x48 (0x24), 0, 16, false⟩
/-- PWR_INPUT.volts -/
def pwrInputVolts : Fld := ⟨regKey 0x48 (0x30), 0, 10, false⟩
/-- PWR_INPUT.good -/
def pwrInputGood : Fld := ⟨regKey 0x48 (0x30), 10, 1, false⟩
/-- PWR_INPUT.mated -/
def pwrInputMated : Fld := ⟨regKey 0x48 (0x30), 11, 1, false⟩
/-- PWR_INPUT.holdup_ready -/
def pwrInputHoldupReady : Fld := ⟨regKey 0x48 (0x30), 12, 1, false⟩
/-- PWR_SHARE.share -/
def pwrShareShare (j : Nat) : Fld := ⟨regKey 0x48 (0x100 + 0x4 * j), 0, 9, false⟩
/-- PWR_SHARE.applied -/
def pwrShareApplied (j : Nat) : Fld := ⟨regKey 0x48 (0x100 + 0x4 * j), 16, 10, false⟩
/-- PWR_A_EST.est -/
def pwrAEstEst (j : Nat) : Fld := ⟨regKey 0x48 (0x1000 + 0x10 * j), 0, 16, false⟩
/-- PWR_A_VF.vdd_mv -/
def pwrAVfVddMv (j : Nat) : Fld := ⟨regKey 0x48 (0x1004 + 0x10 * j), 0, 10, false⟩
/-- PWR_A_VF.f_max -/
def pwrAVfFMax (j : Nat) : Fld := ⟨regKey 0x48 (0x1004 + 0x10 * j), 10, 8, false⟩
/-- PWR_A_VF.f_run -/
def pwrAVfFRun (j : Nat) : Fld := ⟨regKey 0x48 (0x1004 + 0x10 * j), 18, 8, false⟩
/-- PWR_A_AGE.margin_mv -/
def pwrAAgeMarginMv (j : Nat) : Fld := ⟨regKey 0x48 (0x1008 + 0x10 * j), 0, 8, false⟩
/-- PWR_A_AGE.margin_low -/
def pwrAAgeMarginLow (j : Nat) : Fld := ⟨regKey 0x48 (0x1008 + 0x10 * j), 8, 1, false⟩
/-- PWR_A_DUTY.d -/
def pwrADutyD (j : Nat) : Fld := ⟨regKey 0x48 (0x100c + 0x10 * j), 0, 5, false⟩
/-- PWR_A_DUTY.throttled -/
def pwrADutyThrottled (j : Nat) : Fld := ⟨regKey 0x48 (0x100c + 0x10 * j), 5, 1, false⟩
/-- PWR_A_DUTY.tripped -/
def pwrADutyTripped (j : Nat) : Fld := ⟨regKey 0x48 (0x100c + 0x10 * j), 6, 1, false⟩
/-- THM_STATUS.ready -/
def thmStatusReady : Fld := ⟨regKey 0x49 (0x0), 0, 1, false⟩
/-- THM_STATUS.diverge -/
def thmStatusDiverge : Fld := ⟨regKey 0x49 (0x0), 1, 1, false⟩
/-- THM_STATUS.implausible -/
def thmStatusImplausible : Fld := ⟨regKey 0x49 (0x0), 2, 1, false⟩
/-- THM_STATUS.trip -/
def thmStatusTrip : Fld := ⟨regKey 0x49 (0x0), 3, 1, false⟩
/-- THM_STATUS.warming -/
def thmStatusWarming : Fld := ⟨regKey 0x49 (0x0), 4, 1, false⟩
/-- THM_STATUS.warm_en -/
def thmStatusWarmEn : Fld := ⟨regKey 0x49 (0x0), 5, 1, false⟩
/-- THM_FLOOR.floor -/
def thmFloorFloor : Fld := ⟨regKey 0x49 (0x4), 0, 8, false⟩
/-- THM_INLET.inlet -/
def thmInletInlet : Fld := ⟨regKey 0x49 (0x8), 0, 16, false⟩
/-- THM_INLET.flow -/
def thmInletFlow : Fld := ⟨regKey 0x49 (0x8), 16, 16, false⟩
/-- THM_TRIPS.trips -/
def thmTripsTrips : Fld := ⟨regKey 0x49 (0xc), 0, 32, false⟩
/-- THM_SENSOR.reading -/
def thmSensorReading (j : Nat) : Fld := ⟨regKey 0x49 (0x100 + 0x4 * j), 0, 16, false⟩
/-- THM_SENSOR.state -/
def thmSensorState (j : Nat) : Fld := ⟨regKey 0x49 (0x100 + 0x4 * j), 16, 2, false⟩
/-- THM_HOT.used -/
def thmHotUsed (j : Nat) : Fld := ⟨regKey 0x49 (0x400 + 0x4 * j), 0, 16, false⟩
/-- THM_HOT.diverge -/
def thmHotDiverge (j : Nat) : Fld := ⟨regKey 0x49 (0x400 + 0x4 * j), 16, 1, false⟩
/-- THM_HOT.model -/
def thmHotModel (j : Nat) : Fld := ⟨regKey 0x49 (0x400 + 0x4 * j), 17, 1, false⟩
/-- MLT_STATUS.running -/
def mltStatusRunning : Fld := ⟨regKey 0x4a (0x0), 0, 1, false⟩
/-- MLT_STATUS.start_done -/
def mltStatusStartDone : Fld := ⟨regKey 0x4a (0x0), 1, 1, false⟩
/-- MLT_STATUS.intermittent -/
def mltStatusIntermittent : Fld := ⟨regKey 0x4a (0x0), 2, 1, false⟩
/-- MLT_STATUS.map_rebuilt -/
def mltStatusMapRebuilt : Fld := ⟨regKey 0x4a (0x0), 3, 1, false⟩
/-- MLT_STATUS.held -/
def mltStatusHeld : Fld := ⟨regKey 0x4a (0x0), 4, 3, false⟩
/-- MLT_UNUSABLE.unusable -/
def mltUnusableUnusable : Fld := ⟨regKey 0x4a (0x8), 0, 64, true⟩
/-- MLT_CONDEMNED.condemned -/
def mltCondemnedCondemned : Fld := ⟨regKey 0x4a (0x10), 0, 64, true⟩
/-- MLT_LAST_FAIL.failed -/
def mltLastFailFailed : Fld := ⟨regKey 0x4a (0x18), 0, 64, true⟩
/-- MLT_LAST_ANALOG.failed -/
def mltLastAnalogFailed : Fld := ⟨regKey 0x4a (0x20), 0, 4, false⟩
/-- MLT_LAST_ANALOG.retried -/
def mltLastAnalogRetried : Fld := ⟨regKey 0x4a (0x20), 4, 4, false⟩
/-- MLT_BOOT_TICKS.ticks -/
def mltBootTicksTicks : Fld := ⟨regKey 0x4a (0x24), 0, 32, false⟩
/-- MLT_RUNS.runs -/
def mltRunsRuns : Fld := ⟨regKey 0x4a (0x28), 0, 32, false⟩
/-- MLT_A_RESULT.result -/
def mltAResultResult (j : Nat) : Fld := ⟨regKey 0x4a (0x100 + 0x4 * j), 0, 3, false⟩
/-- MLT_A_RESULT.retested -/
def mltAResultRetested (j : Nat) : Fld := ⟨regKey 0x4a (0x100 + 0x4 * j), 3, 1, false⟩
/-- UPD_STATUS.state -/
def updStatusState : Fld := ⟨regKey 0x4b (0x0), 0, 3, false⟩
/-- UPD_STATUS.fell_back -/
def updStatusFellBack : Fld := ⟨regKey 0x4b (0x0), 3, 1, false⟩
/-- UPD_STATUS.piece_rejected -/
def updStatusPieceRejected : Fld := ⟨regKey 0x4b (0x0), 4, 1, false⟩
/-- UPD_HELD.held -/
def updHeldHeld : Fld := ⟨regKey 0x4b (0x4), 0, 14, false⟩
/-- UPD_STAGED_P.pieces -/
def updStagedPPieces : Fld := ⟨regKey 0x4b (0x8), 0, 14, false⟩
/-- UPD_RUN_VER.version -/
def updRunVerVersion : Fld := ⟨regKey 0x4b (0xc), 0, 32, false⟩
/-- UPD_FB_VER.version -/
def updFbVerVersion : Fld := ⟨regKey 0x4b (0x10), 0, 32, false⟩
/-- UPD_STAGED_VER.version -/
def updStagedVerVersion : Fld := ⟨regKey 0x4b (0x14), 0, 32, false⟩
/-- UPD_SEC.sec_min -/
def updSecSecMin : Fld := ⟨regKey 0x4b (0x18), 0, 6, false⟩
/-- UPD_SEC.sec_run -/
def updSecSecRun : Fld := ⟨regKey 0x4b (0x18), 8, 6, false⟩
/-- UPD_SEC.sec_fb -/
def updSecSecFb : Fld := ⟨regKey 0x4b (0x18), 16, 6, false⟩
/-- UPD_DEADLINE.timestamp -/
def updDeadlineTimestamp : Fld := ⟨regKey 0x4b (0x20), 0, 64, true⟩
/-- UPD_ACTIVATIONS.count -/
def updActivationsCount : Fld := ⟨regKey 0x4b (0x28), 0, 32, false⟩
/-- UPD_FALLBACKS.count -/
def updFallbacksCount : Fld := ⟨regKey 0x4b (0x2c), 0, 32, false⟩
/-- ERR_STATUS.ready -/
def errStatusReady : Fld := ⟨regKey 0x4c (0x0), 0, 1, false⟩
/-- ERR_STATUS.dropped -/
def errStatusDropped : Fld := ⟨regKey 0x4c (0x0), 1, 1, false⟩
/-- ERR_STATUS.abandoned -/
def errStatusAbandoned : Fld := ⟨regKey 0x4c (0x0), 2, 1, false⟩
/-- ERR_STATUS.escalating -/
def errStatusEscalating : Fld := ⟨regKey 0x4c (0x0), 3, 1, false⟩
/-- ERR_TIME.timestamp -/
def errTimeTimestamp : Fld := ⟨regKey 0x4c (0x8), 0, 64, true⟩
/-- ERR_SEQ.seq -/
def errSeqSeq : Fld := ⟨regKey 0x4c (0x10), 0, 32, false⟩
/-- ERR_RAISED.records -/
def errRaisedRecords : Fld := ⟨regKey 0x4c (0x14), 0, 32, false⟩
/-- ERR_MERGED.occurrences -/
def errMergedOccurrences : Fld := ⟨regKey 0x4c (0x18), 0, 32, false⟩
/-- ERR_DROP.records -/
def errDropRecords : Fld := ⟨regKey 0x4c (0x1c), 0, 32, false⟩
/-- ERR_LAST_FATAL.code -/
def errLastFatalCode : Fld := ⟨regKey 0x4c (0x20), 0, 3, false⟩
/-- ERR_FABRIC_CORR.corrected -/
def errFabricCorrCorrected : Fld := ⟨regKey 0x4c (0x24), 0, 32, false⟩
/-- ERR_FABRIC_UNCORR.uncorrected -/
def errFabricUncorrUncorrected : Fld := ⟨regKey 0x4c (0x28), 0, 32, false⟩
/-- ERR_LOST.records -/
def errLostRecords (j : Nat) : Fld := ⟨regKey 0x4c (0x100 + 0x4 * j), 0, 32, false⟩
/-- ERR_P_CORR.corrected -/
def errPCorrCorrected (j : Nat) : Fld := ⟨regKey 0x4c (0x200 + 0x8 * j), 0, 32, false⟩
/-- ERR_P_UNCORR.uncorrected -/
def errPUncorrUncorrected (j : Nat) : Fld := ⟨regKey 0x4c (0x204 + 0x8 * j), 0, 32, false⟩
/-- PCI_LINK.up -/
def pciLinkUp (j : Nat) : Fld := ⟨regKey 0x4d (0x0 + 0x4 * j), 0, 1, false⟩
/-- PCI_LINK.width -/
def pciLinkWidth (j : Nat) : Fld := ⟨regKey 0x4d (0x0 + 0x4 * j), 1, 5, false⟩
/-- PCI_LINK.speed -/
def pciLinkSpeed (j : Nat) : Fld := ⟨regKey 0x4d (0x0 + 0x4 * j), 6, 3, false⟩
/-- PCI_LINK.bifurcated -/
def pciLinkBifurcated (j : Nat) : Fld := ⟨regKey 0x4d (0x0 + 0x4 * j), 9, 1, false⟩
/-- PCI_LINK.d3hot -/
def pciLinkD3hot (j : Nat) : Fld := ⟨regKey 0x4d (0x0 + 0x4 * j), 10, 1, false⟩
/-- PCI_LINK.link_down -/
def pciLinkLinkDown (j : Nat) : Fld := ⟨regKey 0x4d (0x0 + 0x4 * j), 11, 1, false⟩
/-- PCI_LANE_OK.lanes -/
def pciLaneOkLanes : Fld := ⟨regKey 0x4d (0x8), 0, 16, false⟩
/-- PCI_PRBS_STAT.running -/
def pciPrbsStatRunning : Fld := ⟨regKey 0x4d (0xc), 0, 1, false⟩
/-- PCI_PRBS_STAT.sync -/
def pciPrbsStatSync : Fld := ⟨regKey 0x4d (0xc), 16, 16, false⟩
/-- PCI_PRBS_BITS.bits -/
def pciPrbsBitsBits : Fld := ⟨regKey 0x4d (0x10), 0, 64, true⟩
/-- PCI_PRBS_ERR.errors -/
def pciPrbsErrErrors (j : Nat) : Fld := ⟨regKey 0x4d (0x100 + 0x4 * j), 0, 32, false⟩
/-- PCI_WIN_CTL.kind -/
def pciWinCtlKind (j : Nat) : Fld := ⟨regKey 0x4d (0x1000 + 0x20 * j), 0, 2, false⟩
/-- PCI_WIN_CTL.port -/
def pciWinCtlPort (j : Nat) : Fld := ⟨regKey 0x4d (0x1000 + 0x20 * j), 2, 1, false⟩
/-- PCI_WIN_CTL.partition -/
def pciWinCtlPartition (j : Nat) : Fld := ⟨regKey 0x4d (0x1000 + 0x20 * j), 4, 3, false⟩
/-- PCI_WIN_BASE.base -/
def pciWinBaseBase (j : Nat) : Fld := ⟨regKey 0x4d (0x1004 + 0x20 * j), 12, 52, true⟩
/-- PCI_WIN_SIG.sig_base -/
def pciWinSigSigBase (j : Nat) : Fld := ⟨regKey 0x4d (0x100c + 0x20 * j), 28, 36, true⟩
/-- PCI_WIN_STAT.read_error -/
def pciWinStatReadError (j : Nat) : Fld := ⟨regKey 0x4d (0x1014 + 0x20 * j), 0, 1, false⟩
/-- PCI_WIN_STAT.dropped -/
def pciWinStatDropped (j : Nat) : Fld := ⟨regKey 0x4d (0x1014 + 0x20 * j), 1, 1, false⟩
/-- PCI_WIN_STAT.cfg_write_busy -/
def pciWinStatCfgWriteBusy (j : Nat) : Fld := ⟨regKey 0x4d (0x1014 + 0x20 * j), 2, 1, false⟩
/-- MGT_STATUS.link_up -/
def mgtStatusLinkUp : Fld := ⟨regKey 0x4e (0x0), 0, 1, false⟩
/-- MGT_STATUS.polarity -/
def mgtStatusPolarity : Fld := ⟨regKey 0x4e (0x0), 1, 1, false⟩
/-- MGT_STATUS.sessions -/
def mgtStatusSessions : Fld := ⟨regKey 0x4e (0x0), 2, 2, false⟩
/-- MGT_STATUS.prbs_running -/
def mgtStatusPrbsRunning : Fld := ⟨regKey 0x4e (0x0), 4, 1, false⟩
/-- MGT_STATUS.prbs_sync -/
def mgtStatusPrbsSync : Fld := ⟨regKey 0x4e (0x0), 5, 1, false⟩
/-- MGT_PRBS_BITS.bits -/
def mgtPrbsBitsBits : Fld := ⟨regKey 0x4e (0x8), 0, 64, true⟩
/-- MGT_PRBS_ERR.errors -/
def mgtPrbsErrErrors : Fld := ⟨regKey 0x4e (0x10), 0, 32, false⟩
/-- MGT_BAD_FRAMES.frames -/
def mgtBadFramesFrames : Fld := ⟨regKey 0x4e (0x14), 0, 32, false⟩
/-- IDM_STATUS.tray_ok -/
def idmStatusTrayOk : Fld := ⟨regKey 0x4f (0x0), 0, 1, false⟩
/-- IDM_STATUS.manifold_ok -/
def idmStatusManifoldOk : Fld := ⟨regKey 0x4f (0x0), 1, 1, false⟩
/-- IDM_STATUS.mismatch -/
def idmStatusMismatch : Fld := ⟨regKey 0x4f (0x0), 2, 1, false⟩
/-- IDM_STATUS.read_fault -/
def idmStatusReadFault : Fld := ⟨regKey 0x4f (0x0), 3, 1, false⟩
/-- IDM_STATUS.cause -/
def idmStatusCause : Fld := ⟨regKey 0x4f (0x0), 4, 4, false⟩
/-- IDM_OWN.loop_type -/
def idmOwnLoopType : Fld := ⟨regKey 0x4f (0x4), 0, 8, false⟩
/-- IDM_OWN.slot_kind -/
def idmOwnSlotKind : Fld := ⟨regKey 0x4f (0x4), 8, 8, false⟩
/-- IDM_TRAY.loop_type -/
def idmTrayLoopType : Fld := ⟨regKey 0x4f (0x8), 0, 8, false⟩
/-- IDM_TRAY.slot_kind -/
def idmTraySlotKind : Fld := ⟨regKey 0x4f (0x8), 8, 8, false⟩
/-- IDM_TRAY.slot -/
def idmTraySlot : Fld := ⟨regKey 0x4f (0x8), 16, 16, false⟩
/-- IDM_MANIFOLD.loop_type -/
def idmManifoldLoopType : Fld := ⟨regKey 0x4f (0xc), 0, 8, false⟩
/-- IDM_CHECKS.checks -/
def idmChecksChecks : Fld := ⟨regKey 0x4f (0x10), 0, 32, false⟩
/-- SPN_MB_CTL.enable -/
def spnMbCtlEnable (k : Nat) : Fld := ⟨pairKey k (0x800), 0, 1, false⟩
/-- SPN_MB_CTL.irq_cmp -/
def spnMbCtlIrqCmp (k : Nat) : Fld := ⟨pairKey k (0x800), 1, 1, false⟩
/-- SPN_MB_CTL.irq_evt -/
def spnMbCtlIrqEvt (k : Nat) : Fld := ⟨pairKey k (0x800), 2, 1, false⟩
/-- SPN_MB_STATUS.ready -/
def spnMbStatusReady (k : Nat) : Fld := ⟨pairKey k (0x804), 0, 1, false⟩
/-- SPN_MB_STATUS.cfg_write_busy -/
def spnMbStatusCfgWriteBusy (k : Nat) : Fld := ⟨pairKey k (0x804), 1, 1, false⟩
/-- SPN_MB_STATUS.doorbell_bad -/
def spnMbStatusDoorbellBad (k : Nat) : Fld := ⟨pairKey k (0x804), 2, 1, false⟩
/-- SPN_MB_STATUS.ring_bad -/
def spnMbStatusRingBad (k : Nat) : Fld := ⟨pairKey k (0x804), 3, 1, false⟩
/-- SPN_MB_STATUS.partition -/
def spnMbStatusPartition (k : Nat) : Fld := ⟨pairKey k (0x804), 4, 3, false⟩
/-- SPN_MB_STATUS.bound -/
def spnMbStatusBound (k : Nat) : Fld := ⟨pairKey k (0x804), 7, 1, false⟩
/-- SPN_MB_DOORBELL.produced -/
def spnMbDoorbellProduced (k : Nat) : Fld := ⟨pairKey k (0x808), 0, 32, false⟩
/-- SPN_MB_RUNG.rung -/
def spnMbRungRung (k : Nat) : Fld := ⟨pairKey k (0x80c), 0, 32, false⟩
/-- SPN_MB_TAKEN.taken -/
def spnMbTakenTaken (k : Nat) : Fld := ⟨pairKey k (0x810), 0, 32, false⟩
/-- SPN_MB_DONE.done -/
def spnMbDoneDone (k : Nat) : Fld := ⟨pairKey k (0x814), 0, 32, false⟩
/-- SPN_MB_CMP_BASE.cmp_base -/
def spnMbCmpBaseCmpBase (k : Nat) : Fld := ⟨pairKey k (0x818), 12, 52, true⟩
/-- SPN_MB_CMP_SIZE.cmp_log2 -/
def spnMbCmpSizeCmpLog2 (k : Nat) : Fld := ⟨pairKey k (0x820), 0, 4, false⟩
/-- SPN_MB_EVT_BASE.evt_base -/
def spnMbEvtBaseEvtBase (k : Nat) : Fld := ⟨pairKey k (0x824), 12, 52, true⟩
/-- SPN_MB_EVT_SIZE.evt_log2 -/
def spnMbEvtSizeEvtLog2 (k : Nat) : Fld := ⟨pairKey k (0x82c), 0, 4, false⟩
/-- SPN_MB_LINE_BASE.line_base -/
def spnMbLineBaseLineBase (k : Nat) : Fld := ⟨pairKey k (0x830), 6, 58, true⟩
/-- SPN_MB_CMP_CONSUMED.cmp_consumed -/
def spnMbCmpConsumedCmpConsumed (k : Nat) : Fld := ⟨pairKey k (0x838), 0, 32, false⟩
/-- SPN_MB_EVT_CONSUMED.evt_consumed -/
def spnMbEvtConsumedEvtConsumed (k : Nat) : Fld := ⟨pairKey k (0x83c), 0, 32, false⟩

end F

end Sys2Proof.Machine
end

