-- ==== Sys2Proof/Machine/State.lean ====
section
/-!
DEFINITION. The state of the module: everything the spec gives it, as plain data. Registers are held in `regs`, one
word per register under its window and offset (R10, R38), unlisted registers reading their table's Reset value; the
other structures hold what the spec names beside its registers.
-/

namespace Sys2Proof.Machine

/-- A sparse table: pairs of key and value, keys strictly rising, no value equal to what an unlisted key reads as. -/
abbrev SMap (α : Type) := List (Nat × α)

/-! ### Arrays (03_array_execution.md) -/

/-- The format an accumulator row carries (R82); `unwritten` until a pass of the kernel overwrites it. -/
inductive AccTag where
  | unwritten
  | int32
  | fp32
  deriving DecidableEq, Repr

/-- One page block that a pstage gathers into a plane (R194): K or V, int8 or int4, the vault offsets of the pages'
frame units, the head dimension d and the K half. -/
structure PageBlock where
  isV : Bool
  int4 : Bool
  units : List Nat
  d : Nat
  khalf : Bool
  deriving DecidableEq, Repr

/-- Where a staged plane's bytes come from (R89, R96, R194). -/
inductive PlaneSrc where
  | vault (offset : Nat)
  | spool (offset : Nat)
  | pages (block : PageBlock)
  deriving DecidableEq, Repr

/-- A staging instruction in the stager's queue (R85, R96, R194): the planes first, first + 1, … of one bank and their
sources. -/
structure StgOp where
  pc : Nat
  cls : Nat
  pair : Fin 11
  bank : Fin 2
  first : Nat
  srcs : List PlaneSrc
  deriving DecidableEq, Repr

/-- A matrix pass whose rows have not all landed (R81, R97). `rows` are the activation rows and their scale rows as
read when the pass issued; `plane` is the plane's image as it stood then. (DESIGN CHOICE, log entry 15.) -/
structure MmaOp where
  pc : Nat
  pair : Fin 11
  actE5 : Bool
  wtE5 : Bool
  bank : Fin 2
  planeNo : Nat
  half : Fin 2
  base : Nat
  total : Nat
  rows : List (List Byte × List Byte)
  plane : List Byte
  accumulate : Bool
  intSat : Bool
  /-- Array cycles in which the grid has taken its rows (R81, R86, R87). -/
  fed : Nat
  deriving DecidableEq, Repr

/-- The units whose instructions take array cycles of their own: the row unit, the mover and the convolution transform unit
(R94, R191, R214). -/
inductive UnitName where
  | row
  | mover
  | aux
  deriving DecidableEq, Repr

/-- An issued instruction of the row unit, the mover or the transform unit that has not completed (R104, R105): the array
cycles for which it still occupies its unit, those after which its last result is then written (R191, R215), the vector
registers and lane masks it reads and writes, and the accumulator half it reads. (DESIGN CHOICE, log entry 15.) -/
structure UnitOp where
  unit : UnitName
  left : Nat
  tail : Nat
  readsV : BitVec 32
  writesV : BitVec 32
  readsM : BitVec 4
  writesM : BitVec 4
  half : Option Nat
  deriving DecidableEq, Repr

/-- Which remote memory operation (R114). -/
inductive RmoKind where
  | put
  | get
  | putSignal
  | atomicAdd
  deriving DecidableEq, Repr

/-- What an unfenced earlier operation of the same array still writes when a later one issues (R124, R125): its target
range, and for an atomic add its addends and their format. -/
structure Overlap where
  dst : Nat
  len : Nat
  add : List Byte
  fp : Bool
  deriving DecidableEq, Repr

/-- An issued remote operation (R102, R115, R116) and, when it failed at issue, the cause row of R135. `early` are its
source bytes as they stood at its issue and `under` the writes of the operations then in flight, both empty where none
was (R125). -/
structure RmoOp where
  pc : Nat
  kind : RmoKind
  fp : Bool
  loc : Nat
  remote : Nat
  lines : Nat
  knot : Nat
  failed : Option Nat
  early : List Byte
  under : List Overlap
  /-- The counter when it issued, which is when a cause seen at issue was detected (R482). -/
  issuedAt : DWord
  deriving DecidableEq, Repr

/-- A kwait held at issue (R131, R132): its knot, its value, its timeout, the array cycles counted, and whether a cycle
has reached the timeout with the condition false. -/
structure Kwait where
  knot : Nat
  value : Word
  timeout : Word
  counted : Nat
  expired : Bool
  deriving DecidableEq, Repr

/-- A detected fault waiting to be recorded (R109): code, class, the faulting instruction's offset and the address. -/
structure PendFault where
  code : Nat
  cls : Nat
  pc : Nat
  addr : Nat
  deriving DecidableEq, Repr

/-- A vault clear (R158): none, held or running, with its first granule and count, and whether the cleared granules
are kept for their owner (R156). -/
inductive VClear where
  | none
  | held (first count : Nat)
  | running (first count : Nat)
  deriving DecidableEq, Repr

/-- Whether an array's compute section is on (R33, R410). `draining` is the drain that precedes a power-gate. -/
inductive Power where
  | running
  | clockStopped
  | draining
  | gated
  deriving DecidableEq, Repr

/-- Where a moult test stands on an array (R451). -/
inductive TestPhase where
  | none
  | running
  deriving DecidableEq, Repr

/-- One array: its kernel's architectural state (R93), its stores and queues, its knots and its activity. -/
structure ArrayState where
  /-- A kernel was accepted and has neither ended nor faulted (R107). -/
  kernel : Bool
  /-- Its first instruction has issued (R108). -/
  committed : Bool
  /-- Its end has issued (R95). -/
  ending : Bool
  /-- A fault detected and not yet recorded (R109), and the counter when it was detected (R482). -/
  pend : Option PendFault
  pendAt : DWord
  /-- Offset of the next instruction to issue (ARR_PC). -/
  pc : Nat
  /-- Address registers, loop counters, vector registers and lane masks (R93). -/
  areg : Vector Word 8
  creg : Vector (BitVec 16) 4
  /-- Vector registers: lane l of register r under 64 r + l. -/
  vreg : SMap Word
  mreg : Vector DWord 4
  /-- Accumulators: column c of row r of half h under (128 h + r) × 256 + c. -/
  acc : SMap Word
  /-- Formats of accumulator rows, under 128 h + r. -/
  accTag : SMap AccTag
  /-- int32 accumulators that have clamped in their chain (R56), keyed as acc. -/
  accClamp : SMap Bool
  /-- Each bank's pair (R88). -/
  bankPair : Vector (Option (Fin 11)) 2
  /-- Valid planes with the source of their last staging, plane p of bank b under 64 b + p (R88, R89). -/
  planes : SMap (Option PlaneSrc)
  /-- Cell weight buffers: byte o of bank b under b × 0x18_0000 + o. -/
  wbuf : SMap Byte
  stgQ : List StgOp
  mmaQ : List MmaOp
  rmoQ : List RmoOp
  /-- Instructions of the row unit, the mover and the transform unit, in issue order (R104, R105). -/
  unitQ : List UnitOp
  kwait : Option Kwait
  /-- Restaging after a power-gate (R89). -/
  restaging : Bool
  /-- 2,048 knots (R129). -/
  knots : SMap Word
  /-- A NaN of this kernel has been reported (R63). -/
  nanReported : Bool
  power : Power
  /-- The power manager, the hardware cap or a trip holds the array off, since when (R410 to R412). -/
  offSince : DWord
  clear : VClear
  /-- A partition scrub runs on the array (R107). -/
  scrubbing : Bool
  test : TestPhase
  /-- Granule tags of the vault (R154), under the granule number. -/
  vtags : SMap Byte
  /-- Fractions of an array cycle carried from one timestamp tick to the next, in hundredths. -/
  cycleFrac : Nat
  /-- Ticks for which the compute clock still stands for a re-lock or a forced re-plan (R421, R434). -/
  clockHold : Nat
  /-- A warming load runs (R432). -/
  warming : Bool
  /-- Row statistics (R191): m of row r under r, l under 128 + r, corr under 256 + r. -/
  rstat : SMap Word
  deriving DecidableEq, Repr

/-- An array after power-on (R89, R90, R93, R133). (DESIGN CHOICE, log entry 62.) -/
def ArrayState.reset : ArrayState where
  kernel := false
  committed := false
  ending := false
  pend := none
  pendAt := 0
  pc := 0
  areg := Vector.replicate 8 0
  creg := Vector.replicate 4 0
  vreg := []
  mreg := Vector.replicate 4 0xFFFFFFFFFFFFFFFF
  acc := []
  accTag := []
  accClamp := []
  bankPair := Vector.replicate 2 none
  planes := []
  wbuf := []
  stgQ := []
  mmaQ := []
  rmoQ := []
  unitQ := []
  kwait := none
  restaging := false
  knots := []
  nanReported := false
  power := .running
  offSince := 0
  clear := .none
  scrubbing := false
  test := .none
  vtags := []
  cycleFrac := 0
  clockHold := 0
  warming := false
  rstat := []

/-! ### Events (17_errors_and_events.md) -/

/-- An event record's content (R483). The recipient's copy is written from it with its own lost count and redaction. -/
structure EventRec where
  source : Nat
  cls : Nat
  severity : Nat
  part : Option PartNum
  status : Nat
  count : Nat
  time : DWord
  last : DWord
  affected : BitVec 8
  followUp : Bool
  held : Bool
  seq : Word
  addr : Option Nat
  inst : Nat
  detail : List Byte
  deriving DecidableEq, Repr

/-- A record under handling (R490 to R492): the recipients still owed it, whether any has received it, when its last
recipient was done, and the follow-up that gathers further occurrences. -/
structure EventEntry where
  body : EventRec
  todo : List (Fin 17)
  written : Bool
  doneAt : Option DWord
  followUp : Option EventRec
  deriving DecidableEq, Repr

/-- The error collector (R490 to R492): records under handling, each recipient's lost count, and for each recipient
the record next due to it and since when. -/
structure Events where
  entries : List EventEntry
  lost : SMap Nat
  due : SMap (Option (Word × DWord))
  deriving DecidableEq, Repr

/-! ### Vault and tier, partitions and windows -/

/-- A queued tier clear (R159): what TIER_CLEAR_GO captured. -/
structure TierClear where
  first : Nat
  count : Nat
  rekey : Bool
  slot : Nat
  started : Bool
  deriving DecidableEq, Repr

/-- A data line of the tier that holds something (R151, R152): the key under which it was encrypted when it was last
written, and its stored check word. -/
structure TierLine where
  key : List Byte
  check : Word
  deriving DecidableEq, Repr

/-- A BAR4 aperture (R41): closed, or open for a partition on a device base and a length. -/
inductive Aperture where
  | closed
  | opened (part : PartNum) (base len : Nat)
  deriving DecidableEq, Repr

/-- What leaves the module on a link or the management port. (DESIGN CHOICE, log entry 10.) -/
inductive OutMsg where
  /-- An MSI-X message of a port: its vector, and the address and data its table entry holds (R329, R512). -/
  | msix (port : Port) (vector addr : Nat) (data : Word)
  /-- The 4-byte signal write of a put through a peer window (R121). -/
  | peerSignal (port : Port) (addr : Nat) (value : Word)
  /-- A management frame: session, frame type and body (R516). -/
  | mgmtFrame (session : Fin 2) (type : Nat) (body : List Byte)
  /-- An SPDM or IDE_KM response through the DOE mailbox (R513, R514). -/
  | spdm (port : Port) (body : List Byte)
  /-- The chain presented in a TLS handshake (R385, R399). -/
  | tlsChain (session : Fin 2) (chain : List Byte)
  deriving DecidableEq, Repr

/-- What MODEL_PLACE recorded of a placed model (R341, R387): its arrays, vocabulary, logit layout and the SHA-384 of
its image. -/
structure Model where
  arrays : DWord
  vocab : Nat
  logitsFp32 : Bool
  slices : List LogitSlice
  kernels : List (ArrayNum × Nat × Nat)
  digest : List Byte
  deriving DecidableEq, Repr

/-- A partition (R331, R344): whether it exists, whether it is being destroyed or changes tenant, its groups, whether a
fallback is allowed and its model. -/
structure Part where
  live : Bool
  destroying : Bool
  scrubbing : Bool
  groups : BitVec 8
  model : Option Model
  /-- Tier granules taken for tier slots at creation: first and count (R345). -/
  slotGran : Nat × Nat
  /-- Tier clears that a destroy or tenant change has still to queue: first, count and rekey (R159, R346, R402). -/
  todo : List (Nat × Nat × Bool)
  /-- Arrays that a destroy has given up and whose clears still run (R346). -/
  leaving : DWord
  deriving DecidableEq, Repr

/-- No partition. (DESIGN CHOICE, log entry 62.) -/
def Part.none : Part where
  live := false
  destroying := false
  scrubbing := false
  groups := 0
  model := Option.none
  slotGran := (0, 0)
  todo := []
  leaving := 0
/-! ### Commands and completions (11_spindle_and_lomlet.md) -/

/-- What a command of class L still waits for after its row has run (R335). -/
inductive Wait where
  | none
  /-- KERNEL_RUN: the named arrays, and those whose kernels ended by a fault (R341). -/
  | kernels (mask faulted : DWord)
  /-- MEM_TIER_RELEASE: the clear of these granules (R341). -/
  | tierClear (first count : Nat)
  /-- DEV_DRAIN (R342). -/
  | drain
  /-- PART_DESTROY or SEC_TENANT_CHANGE: the partition's scrub and clears (R346, R402). -/
  | scrub (p : PartNum)
  /-- MLT_RUN (R459). -/
  | moult
  /-- SEC_IMPORT: how many plaintext bytes have been written (R397). -/
  | importing (offset : Nat)
  /-- TWN_SWAP: the switch-over (R364). -/
  | swap
  /-- TWN_RESTORE: the half's checks (R370). -/
  | restore (half : Half)
  /-- UPD_ACTIVATE: the activation (R473). -/
  | activate
  /-- SEC_LIFECYCLE: the partitions' destruction before the module enters this state (R375). -/
  | lifecycle (target : Nat)
  deriving DecidableEq, Repr

/-- Where a taken command stands (R326, R334, R357). -/
inductive Phase where
  /-- Its taken entry is not yet visible. -/
  | entering
  | waiting
  | started
  | running
  /-- Its done entry is not yet visible. -/
  | leaving
  /-- Its completion is with the completion writer. -/
  | queued
  deriving DecidableEq, Repr

/-- A completion's own fields (R332). -/
structure Completion where
  status : Nat
  result : List Byte
  time : DWord
  held : Bool
  deriving DecidableEq, Repr

/-- A taken command: its number, its 64 bytes, what followed it in a management frame, the IDE stream it arrived on, and
where it stands. -/
structure Cmd where
  ref : CmdRef
  bytes : List Byte
  extra : List Byte
  ide : Option (Fin 4)
  /-- Its management session has closed, so its completion is discarded (R517). -/
  orphan : Bool
  phase : Phase
  wait : Wait
  comp : Option Completion
  /-- The counter when Spindle took the command, and when it started it (R262, R339). -/
  taken : DWord
  started : DWord
  deriving DecidableEq, Repr

/-- Command slots and what arrived beside the bytes: byte o of pair k's slots under 2048 k + o; the IDE stream on
which that byte arrived under the same number, and of the doorbell that announced slot j under 0x8000 + 32 k + j (R381). -/
structure Slots where
  bytes : SMap Byte
  ide : SMap (Option (Fin 4))
  deriving DecidableEq, Repr

/-- Commands, completions and counts of Spindle. -/
structure Spindle where
  slots : Slots
  /-- Taken and not completed, in the order of taking (R334). -/
  cmds : List Cmd
  /-- The completion writer's queue, in the order completions were made (R328). -/
  writer : List CmdRef
  /-- Produced counts of completion and event rings, under the pair's number (R327). -/
  cmpProduced : SMap Word
  evtProduced : SMap Word
  /-- The last consistent consumed counts (R328): of pair k's completion ring under k, of its event ring under 16 + k. -/
  consumed : SMap Word
  /-- Management commands received and not taken (R516, R517): session, command and data. -/
  mgmtQ : List (Fin 2 × List Byte × List Byte)
  /-- The management channel's own count of commands (R332). -/
  mgmtTaken : Word
  /-- The source served last, 0 to 15 pairs, 16 the management channel (R326). -/
  served : Nat
  /-- MSI-X: the table words written, under their offset in the PCIe window, and pending bits of port b and vector v under
  32 b + v (R512). -/
  msixTable : SMap Word
  msixPending : SMap Bool
  deriving DecidableEq, Repr

/-! ### Cocoon (13_security.md) and the management port (18_module_interfaces.md) -/

/-- An SPDM session (R391 to R395): its identifier, port, transcript through FINISH and what the hybrid step derived. -/
structure Spdm where
  id : Word
  port : Port
  finished : Bool
  transcript : List Byte
  prk : Option (List Byte)
  kImport : List Byte
  binding : List Byte
  part : Option PartNum
  /-- The next import's sequence number (R397). -/
  importSeq : Nat
  lastHeard : DWord
  keyUpdates : Nat
  deriving DecidableEq, Repr

/-- An IDE stream of a port (R395, R396, R514): the session that programmed it, its partition, its programmed keys, the
key set in use and whether it is Insecure. -/
structure IdeStream where
  session : Option Word
  part : Option PartNum
  keys : List (Fin 2 × SubStream × List Byte)
  active : Option (Fin 2)
  insecure : Bool
  deriving DecidableEq, Repr

/-- A TLS session of the management port (R399, R400): when it opened, the anchor slot that authenticated it (none for
Gosait's integrator root) and its key updates. -/
structure Tls where
  opened : DWord
  anchor : Option (Fin 4)
  /-- The anchor that authenticated it has been removed or replaced since. -/
  stale : Bool
  keyUpdates : Nat
  deriving DecidableEq, Repr

/-- An import under way (R397, R398). -/
structure Import where
  ref : CmdRef
  part : PartNum
  session : Word
  source : Nat
  dest : Nat
  len : Nat
  header : List Byte
  done : Nat
  deriving DecidableEq, Repr

/-- What Cocoon derives from the identity seed at each start (R384): the ECDSA identity key, the HSS key, the management
TLS key and the personalisation of its random generator. -/
structure Secrets where
  identity : List Byte
  hss : List Byte
  tls : List Byte
  personal : List Byte
  deriving DecidableEq, Repr

/-- Cocoon's own state (R384 to R398). -/
structure Cocoon where
  sessions : List Spdm
  /-- Stream s of port b under 4 b + s. -/
  streams : Vector IdeStream 8
  /-- Tier key slots 0 to 8 (R153). -/
  keys : SMap (List Byte)
  /-- Numbers drawn from the random generator (R404). -/
  draws : Nat
  /-- When each partition, and the platform as 8, last signed a report (R389). -/
  lastReport : SMap (Option DWord)
  /-- The lower HSS tree in use, once built (R442), and whether the next one is computed (R390). -/
  tree : Option Nat
  treeReady : Bool
  lowRaised : Bool
  exhaustedRaised : Bool
  imports : List Import
  tls : Vector (Option Tls) 2
  /-- What Cocoon derived from the seed at this start (R384); zeroised at a removal or a module stop (R404). -/
  secrets : Option Secrets
  deriving DecidableEq, Repr

/-- Whether the derived secrets stand. -/
def Cocoon.derived (c : Cocoon) : Bool := c.secrets.isSome

/-! ### Flash and fuses (R465, R374) -/

/-- An imago in flash: its pieces, version and security_version (R467). -/
structure Imago where
  pieces : List (List Byte)
  version : Word
  security : Nat
  deriving DecidableEq, Repr

/-- An HSS record (R390): its reserved end and the CRC-32C that protects it. -/
structure HssRecord where
  reserved : Nat
  crc : Word
  deriving DecidableEq, Repr

/-- One of two alternating flash records (R454, R474): its place in the order of writes, its value, and the CRC-32C over both.
(DESIGN CHOICE, log entry 54.) -/
structure FlashRec where
  order : Nat
  value : Nat
  crc : Word
  deriving DecidableEq, Repr

/-- Two alternating flash records. (DESIGN CHOICE, log entry 54.) -/
abbrev FlashPair := Vector FlashRec 2

/-- A quarantine record (R354): cause, timestamp, and its place in the order of quarantines. (DEDUCED, log entry 48.) -/
structure Quar where
  cause : Nat
  time : DWord
  order : Nat
  deriving DecidableEq, Repr

/-- What survives the loss of 54 V (R465, R374). (DESIGN CHOICE, log entry 6.) -/
structure Flash where
  running : Imago
  fallback : Imago
  /-- Pieces programmed into staging (R471). -/
  staging : List (List Byte)
  /-- The two copies of the activation record: its state, coded as UPD_STATUS (R474). -/
  records : FlashPair
  /-- The two HSS records (R390). -/
  hss : Vector HssRecord 2
  /-- The fused digests of the imago authority's ECDSA and HSS keys (R468). -/
  authority : List Byte × List Byte
  /-- The device chain and the management chain (R385). -/
  deviceChain : List Byte
  mgmtChain : List Byte
  quar : Vector (Option Quar) 2
  quarCount : Nat
  /-- The two records of the unusable map (R454). -/
  maps : FlashPair
  /-- Arrays condemned and not yet marked (R456). -/
  condemned : DWord
  anchors : Vector (Option (List Byte)) 4
  /-- Crash records, under their slot, and the slot to program next (R507). -/
  crash : SMap (List Byte)
  crashNext : Nat
  /-- Powered time since the last re-plan, up to the last start, in timestamp ticks (R434). -/
  agedTicks : Nat
  /-- The module fell back, and no discard or new piece 0 has followed (R478). -/
  fellBack : Bool
  hostCap : Nat
  warm : Bool
  floor : Nat
  /-- The identity seed (R384); erased in Terminated. The other fused and held values are registers that a restart keeps:
  COC_LIFECYCLE, UPD_SEC, PWR_A_VF, PWR_A_AGE, IDM_OWN. -/
  seed : Option (BitVec 256)
  deriving DecidableEq, Repr


/-! ### The reel (06_attention_and_kv_pages.md) -/

/-- A slot entry of a step descriptor (R182). -/
structure StepSlot where
  seq : Nat
  q : Nat
  mode : Nat
  window : Nat
  bitmap : Nat
  deriving DecidableEq, Repr

/-- An accepted step descriptor (R181). -/
structure StepDesc where
  step : Word
  training : Bool
  slots : List StepSlot
  table : Nat
  knot : Nat
  arrays : DWord
  deriving DecidableEq, Repr

/-- Spindle's updates of a sequence table entry, which take effect between steps (R179). -/
inductive SeqUpdate where
  /-- A new sequence of cap map entries from a base (R178). -/
  | setup (i mapBase cap : Nat) (fallback : Bool)
  | activate (i : Nat)
  | pause (i : Nat)
  | release (i : Nat)
  /-- The pages of a request in Ending return, its sequence index kept (R259). -/
  | drop (i : Nat)
  /-- A word written through the claim gate's port (R179, R361). -/
  | mapWrite (e : Nat) (w : Word)
  | seqWrite (i w : Nat) (v : Word)
  deriving DecidableEq, Repr

/-- A running copy of a sequence's pages to tier slots, or back from them: the slots or frames it uses, in page order
(R188, R263). -/
structure PageCopy where
  part : PartNum
  seq : Nat
  toTier : Bool
  places : List Nat
  deriving DecidableEq, Repr

/-- The reel's tables, pools and work. -/
structure Reel where
  /-- Page map entries (R174). -/
  map : SMap Word
  /-- Word w of sequence table entry i under 8 i + w (R175). -/
  seqs : SMap Word
  /-- Uncorrectable words (R173): map entry e under e, sequence word k under 0x4_0000 + k, partition p's vault frame pool
  under 0x8_0000 + p, its tier slot pool under 0x8_0010 + p, array n's fallback pool under 0x8_0020 + n. -/
  bad : List Nat
  /-- Words with a single-bit error (R173), numbered alike. -/
  ce : List Nat
  /-- Vault frame pools and tier slot pools, next to be taken first (R177). -/
  frames : Vector (List Nat) 8
  slots : Vector (List Nat) 8
  /-- Fallback pools: array n's under n. -/
  fb : SMap (List Nat)
  steps : Vector (Option StepDesc) 8
  updates : List (PartNum × SeqUpdate)
  copies : List PageCopy
  deriving DecidableEq, Repr

/-! ### Serving (08_serving.md) -/

/-- Where a request stands (R243). -/
inductive ReqPhase where
  | queued
  | loading
  | prefill
  | decode
  | parked (decoding : Bool)
  | stalled
  | ending (code : Nat)
  | ended
  deriving DecidableEq, Repr

/-- A request descriptor's fields (R240). -/
structure ReqDesc where
  flags : Nat
  handle : Nat
  promptAddr : Nat
  promptTokens : Nat
  maxNew : Nat
  convMax : Nat
  ttlMs : Nat
  holdMs : Nat
  ringAddr : Nat
  ringBytes : Nat
  ctlAddr : Nat
  seedLo : Word
  seedHi : Word
  temperature : Word
  topP : Word
  topK : Nat
  window : Nat
  repetition : Word
  frequency : Word
  stop : List Nat
  deriving DecidableEq, Repr

/-- A request: its descriptor, its place in the order of admission, and its counts (R243, R255, R258). -/
structure Request where
  desc : ReqDesc
  phase : ReqPhase
  admitted : Nat
  /-- q of its slot in the step it is in, or when it parked (R245). -/
  q : Nat
  /-- It is in a posted step that has not finished with it. -/
  inStep : Bool
  /-- This step samples it (R246). -/
  sampled : Bool
  /-- Prompt tokens not yet in a step that took them (R245). -/
  left : Nat
  generated : Nat
  produced : Nat
  consumed : Nat
  /-- The last consumed count read was inconsistent (R258). -/
  ringBad : Bool
  /-- A cancel reached the request table entry first (R265), by this command. -/
  cancel : Bool
  loadSince : Option DWord
  /-- The code with which the request has ended (R256, R338). -/
  code : Nat
  deriving DecidableEq, Repr

/-- The conversation of a sequence index (R237, R238, R260 to R263). -/
structure Convo where
  part : PartNum
  serial : Nat
  live : Bool
  /-- The serial of the last conversation that expired here (R262). -/
  expired : Option Nat
  maxTokens : Nat
  fallback : Bool
  /-- Its tokens, prompt tokens marked (R248). -/
  tokens : List (Nat × Bool)
  keep : Bool
  deadline : Option DWord
  holdUntil : Option DWord
  request : Option Request
  deriving DecidableEq, Repr

/-- No conversation. (DESIGN CHOICE, log entry 62.) -/
def Convo.none : Convo where
  part := 0
  serial := 0
  live := false
  expired := Option.none
  maxTokens := 0
  fallback := false
  tokens := []
  keep := false
  deadline := Option.none
  holdUntil := Option.none
  request := Option.none

/-- A partition's posted step (R246): its number, its sequences in slot order, and whether its table is written. -/
structure Posted where
  step : Word
  seqs : List Nat
  written : Bool
  deriving DecidableEq, Repr

/-- Serving state beside the reel. -/
structure Serving where
  convs : SMap Convo
  posted : Vector (Option Posted) 8
  admissions : Nat
  maxSlots : Vector Nat 8
  chunk : Vector Nat 8
  stepTokens : Vector Nat 8
  /-- Entries of the sampler's request table that hold an uncorrectable and a correctable error, by sequence index (R265, R486).
  The environment makes them. (DESIGN CHOICE, log entry 39.) -/
  badEntries : List Nat
  ceEntries : List Nat
  deriving DecidableEq, Repr

/-! ### Hawkmoth (09_hawkmoth_video.md) -/

/-- A pool buffer's marks (R282). -/
structure Marks where
  src : Bool
  ref : Bool
  wait : Bool
  held : Nat
  deriving DecidableEq, Repr

/-- A decoded picture whose output is due and waits for an entry (R286), or an end record. -/
structure OutPic where
  buffer : Nat
  flags : Nat
  pts : DWord
  crop : DWord
  concealed : Nat
  isEnd : Bool
  /-- A show_existing_frame keeps no wait mark (R282). -/
  shown : Bool
  /-- The first output of this picture: it yields the picture's statistics (R300). -/
  first : Bool
  /-- The lines of its statistics tensor (R300, R301). -/
  tensor : List Byte
  deriving DecidableEq, Repr

/-- A picture that a pool buffer holds, with what its output entries and its statistics hold, and whether its output has
fallen due. -/
structure DecPic where
  buffer : Nat
  pts : DWord
  key : Bool
  corrupt : Bool
  grain : Bool
  crop : DWord
  concealed : Nat
  out : Bool
  tensor : List Byte
  deriving DecidableEq, Repr

/-- A decode unit, as far as its chunks are read (R284): the first chunk's pts, whether it holds an access or temporal
unit, its eos and discontinuity flags, whether some chunk could not be read, and, once its headers are parsed, the frames
not yet taken and the output order of the pictures still waiting (R285). -/
structure VidUnit where
  pts : DWord
  picture : Bool
  eos : Bool
  disc : Bool
  bad : Bool
  frames : List FrameHead
  /-- How many of its frames have been taken. -/
  done : Nat
  flush : List Nat
  width : Nat
  height : Nat
  deriving DecidableEq, Repr

/-- The picture a session has in a pipe (R273). -/
structure InPipe where
  pipe : Fin 4
  buffer : Option Nat
  recon : Option Nat
  pts : DWord
  key : Bool
  grain : Bool
  crop : DWord
  eos : Bool
  /-- The output order of the pictures still waiting when the picture ends its stream (R285). -/
  flush : List Nat
  /-- The picture's size and the size of its CTUs or superblocks. -/
  width : Nat
  height : Nat
  ctu : Nat
  qp : Nat
  budget : Nat
  packets : Nat
  lastPacket : Bool
  /-- Encode: the input number (R296), and what is left of the picture's reservation in the bitstream area (R294). -/
  number : Nat
  resv : Nat
  deriving DecidableEq, Repr

/-- Rate-control memory of an encode session (R298): fullness, and the last QP and bits of key and other pictures, and
the row complexities of the last picture of each. -/
structure RateCtl where
  fullness : Int
  lastQp : Nat × Nat
  lastBits : Option Nat × Option Nat
  rowCx : List Nat × List Nat
  deriving DecidableEq, Repr

/-- A video session (R274 to R296). -/
structure Session where
  part : PartNum
  desc : List Byte
  cost : Nat
  inSeen : Nat
  inDone : Nat
  outMade : Nat
  outSeen : Nat
  statsSeen : Nat
  statsMade : Nat
  /-- Encode: input entries read and not finished with. -/
  entries : List (List Byte)
  /-- Decode: the unit whose chunks are arriving, the units that have arrived, and the unit whose frames are being taken
  (R284, R285). -/
  gather : Option VidUnit
  units : List VidUnit
  unit : Option VidUnit
  /-- The last count read was inconsistent (R280). -/
  badCount : Bool
  /-- How many units have been parsed (R283). -/
  unitsDone : Nat
  /-- The next pictures that are ready, under their keys, and when each became ready, the next one first (R273). -/
  ready : List (Nat × DWord)
  marks : List Marks
  /-- The pictures that pool buffers hold. -/
  decoded : List DecPic
  /-- The buffer of the picture decoded most recently (R288). -/
  latest : Option Nat
  due : List OutPic
  /-- Output entries written and not consumed: their index, the buffer they hold and the bitstream bytes they occupy. -/
  unconsumed : List (Nat × Option Nat × Nat)
  pictures : Nat
  /-- Pictures coded so far, and since the last key picture. -/
  coded : Nat
  sinceKey : Option Nat
  /-- A stream error marks pictures corrupt until a key picture (R288). -/
  corrupt : Bool
  /-- A decode session discards input up to its next key picture after an activation pause (R475). -/
  skip : Bool
  inPipe : Option InPipe
  bsHead : Nat
  bsUsed : Nat
  rc : RateCtl
  /-- Statistics of pictures not yet written: picture number, key, corrupt, pts, tensor (R300). -/
  stats : List (Nat × Bool × Bool × DWord × List Byte)
  closing : Option CmdRef
  closeAll : Bool
  deriving DecidableEq, Repr

/-! ### Twin halves (12_twin_halves.md) -/

/-- One change of Spindle's saved state (R357): a command taken, with its 64 bytes; a step of a command, with what it then
waits for; a command done, with its completion; a change of the request of a sequence index, with its conversation's state,
ring counts, deadlines and step limits (R268); a transition of an activation whose command has completed, with the record's
new state (R474). -/
inductive LedgerEntry where
  | taken (ref : CmdRef) (bytes : List Byte)
  | step (ref : CmdRef) (wait : Wait)
  | done (ref : CmdRef) (comp : Completion)
  | request (i : Nat) (conv : Convo) (limits : Nat × Nat × Nat)
  | activation (record : Nat)
  deriving DecidableEq, Repr

/-- Spindle's saved state (R356): partitions with their bindings, requests and conversations with their deadlines and step
limits, video sessions, the tier's granules as they have been given out, and the fields of savedFields.
(DESIGN CHOICE, log entry 46.) -/
structure Saved where
  parts : Vector Part 8
  srv : Serving
  vid : Vector (Option Session) 48
  tags : SMap Byte
  vals : List Nat
  deriving DecidableEq, Repr

/-- A journal entry in both copies (R356): its place i, its sequence number, the claim of the half that wrote it, what it
records, and the saved state that the change it records has left. (DESIGN CHOICE, log entry 46.) -/
structure LedgerRec where
  index : Nat
  seq : Nat
  claim : Nat
  entry : LedgerEntry
  saved : Saved
  deriving DecidableEq, Repr

/-- A snapshot in both copies (R356): its sequence number, that of the last journal entry that it includes, the writer's claim,
the outstanding commands, the pairs' taken and done counts, and Spindle's saved state. (DESIGN CHOICE, log entry 46.) -/
structure Snap where
  seq : Nat
  upTo : Nat
  claim : Nat
  cmds : List Cmd
  counts : List (Nat × Nat)
  saved : Saved
  deriving DecidableEq, Repr

/-- The ledger (R355 to R358): entries not yet visible in both copies, with the claim of the half that writes them and the
saved state that each records; the journal, oldest first, and how many entries have been written; entries since the last snapshot and when that was; the two
snapshot areas. (DESIGN CHOICE, log entry 46.) -/
structure Ledger where
  pending : List (Nat × LedgerEntry × Saved)
  journal : List LedgerRec
  count : Nat
  since : Nat
  snapTime : DWord
  snaps : Vector (Option Snap) 2
  placed : Bool
  deriving DecidableEq, Repr

/-- How far a switch-over has come (R366). -/
inductive GapPhase where
  | none
  | powering
  | powerGood
  | verified
  | restored
  | reconciled
  deriving DecidableEq, Repr

/-- Twin control beside its registers: the last heartbeat, the gap, and the halves' power. -/
structure Twin where
  heartbeat : DWord
  gapStart : DWord
  phase : GapPhase
  planned : Bool
  incoming : Half
  /-- A planned swap accepted and waiting for the final snapshot: its cause (R364). -/
  swap : Option Nat
  /-- The moment from which the swap period counts (R369). -/
  swapBase : DWord
  /-- Power of A and B, and a power-down requested and not reported off, since when (R364). -/
  powered : Vector Bool 2
  powerDown : Vector (Option DWord) 2
  /-- Whether A and B have stopped issuing after a rejection (R362). -/
  stopped : Vector Bool 2
  /-- What the incoming half has restored of the outstanding commands' entries (R358, R367). -/
  restored : List LedgerEntry
  ledger : Ledger
  deriving DecidableEq, Repr

/-! ### The shuttle arbiter (10_shuttle_arbiter.md) -/

/-- A burst: the address of its first line and its beats (R306). -/
structure Burst where
  addr : Nat
  beats : Nat
  deriving DecidableEq, Repr

/-- A requester of an instance (R306 to R312): its counter, its sources with bursts pending in the order in which they are
served, and whether it was pending at every arbitration of this window and granted no beat (R319). -/
structure ShtReq where
  credit : Nat
  queue : List (ShtSource × List Burst)
  missed : Bool
  deriving DecidableEq, Repr

/-- The current grant (R308, R312): requester, source, burst, credit deducted, and the hold count, the port's beat slots
since the first slot of the grant. -/
structure Grant where
  req : Fin 10
  source : ShtSource
  burst : Burst
  deducted : Nat
  slots : Nat
  deriving DecidableEq, Repr

/-- One arbiter instance. -/
structure ShtInst where
  reqs : Vector ShtReq 10
  owner : Option Grant
  /-- The requester that sits out the next arbitration (R312). -/
  sitOut : Option (Fin 10)
  armed : Bool
  arbitrated : Bool
  deriving DecidableEq, Repr

/-! ### Power and heat (14_power_thermal_ageing.md) -/

/-- Coolant flow states (R429). -/
inductive FlowState where
  | normal
  | low
  | short
  | loss
  deriving DecidableEq, Repr

/-- A re-plan waiting to be applied (R434). -/
structure Replan where
  vdd : Nat
  fMax : Nat
  due : DWord
  deriving DecidableEq, Repr

/-- The power manager beside its registers. -/
structure PowerMgr where
  flow : FlowState
  /-- Since when the flow has been at the level that leaves its state (R429). -/
  flowOkSince : Option DWord
  /-- When a reading was last at or above 0.3 L/min. -/
  flowHigh : Option DWord
  lossCap : Bool
  watchdog : Bool
  /-- Board sensors 140 to 143 at or above their limit and not yet 5 °C below it (R414). -/
  boardHot : BitVec 4
  inletOk : Bool
  /-- The arrays' estimates and the platform's of the last 100 ms, in 0.01 W (R409, R424). -/
  history : List (DWord × List Nat)
  trims : SMap Int
  /-- Power manager's last running estimate of each array (R414). -/
  lastRun : SMap Nat
  lastSlot : Option DWord
  /-- Arrays held off by a cap, by throttling and by a trip (R412, R426, R428). -/
  capOff : DWord
  dutyOff : DWord
  tripOff : DWord
  capSince : SMap (Option DWord)
  /-- Since when d has been 16, and when the off part of a period began (R426). -/
  fullSince : SMap (Option DWord)
  dutySince : SMap (Option DWord)
  /-- Since when a tripped array's used temperature has stayed at or below 95 °C, and a sensor of it has been plausible
  (R428). -/
  coolSince : SMap (Option DWord)
  plausSince : SMap (Option DWord)
  /-- Arrays tripped because neither sensor is plausible, and arrays tripped by their own sensors. -/
  blind : DWord
  ownTrip : DWord
  /-- Power-gated arrays whose release has been decided (R410, R411). -/
  releasing : DWord
  /-- A rotation's swap (R412): 0 none, 1 an array has yet to come off, 2 one has yet to be released. -/
  swapStep : Nat
  /-- Partitions whose share PWR_SHARE has set (R419). -/
  shareGiven : BitVec 8
  /-- Arrays that this round of re-planning has reached (R434). -/
  replanned : DWord
  /-- Die sensors 128 to 139 that have tripped and not come back to 95 °C. -/
  dieHot : BitVec 12
  /-- When such a trip began to stop the groups in turn (R428). -/
  dieStop : Option DWord
  /-- R425: since when a hot spot's readings differ by more than 6 °C, or have not, and whether it may be raised. -/
  diffSince : SMap (Option DWord)
  sameSince : SMap (Option DWord)
  diverged : DWord
  /-- Sensors whose implausible reading has been reported (R424). -/
  reported : SMap Bool
  rotAt : DWord
  /-- Arrays off for power at any time in the current millisecond (R427). -/
  offSeen : DWord
  /-- Arrays that have not reached the frequency of the current mode (R421). -/
  freqWait : DWord
  isolatedNext : Option Bool
  replans : SMap (Option Replan)
  replanAt : DWord
  deriving DecidableEq, Repr

/-! ### Start, moult, update and connector (15, 16, 18) -/

/-- The module's supply (R501, R503, R504). (DESIGN CHOICE, log entry 65.) -/
inductive Supply where
  | off
  | on
  | removing
  | holdoff
  deriving DecidableEq, Repr

/-- A moult run (R452, R453): whether it is the start's or a command's, the arrays still to test in this pass, the batch
under test, which pass it is, the arrays queued for the retest batches, and results so far. -/
structure Moult where
  running : Bool
  ref : Option CmdRef
  raw : Bool
  todo : List ArrayNum
  batch : List ArrayNum
  pass : Nat
  retest : List ArrayNum
  failedOnce : DWord
  abortedOnce : DWord
  failed : DWord
  /-- Analogue parts still to check, those that failed, and those that passed on retry, bits as in MLT_RUN. -/
  analog : Nat
  analogFail : Nat
  analogRetry : Nat
  deriving DecidableEq, Repr

/-- An update in progress (R471 to R477). -/
structure Update where
  /-- Versions in the standby banks of components 1 to 4, which their PHYs' next training takes up (R475). -/
  banks : SMap Word
  /-- Pieces accepted and not yet programmed. -/
  queued : List (List Byte)
  ref : Option CmdRef
  /-- The host had drained the module before the activation did (R475). -/
  hostDrained : Bool
  draining : Bool
  pauseAt : Option DWord
  /-- Ports that were up at the pause's start. -/
  ports : BitVec 2
  tlsSince : Bool
  fatalSince : Bool
  standbyOk : Bool
  keepStaging : Bool
  deriving DecidableEq, Repr

/-- The connector, the start and the support around them. -/
structure Board where
  supply : Supply
  mated : Bool
  good : Bool
  since : DWord
  /-- Stages 1 to 13 of the start that are done (R439): bit k for stage k. -/
  stages : BitVec 14
  /-- The LPDDR PHY's microcode is loaded, which lets stage 10 begin. -/
  lpddrLoaded : Bool
  /-- The LPDDR PHY failed its check in this start (R449): stages 8 and 9 are skipped. -/
  lpddrFailed : Bool
  /-- The memory sections of the usable arrays are powered (R439 stage 6, R440, R458). -/
  sections : Bool
  started : Bool
  /-- Both imago areas failed, and the module stays unstarted (R480). -/
  dead : Bool
  identityAt : DWord
  stopCode : Nat
  /-- Arrays marked unusable in this start (R444). -/
  marked : DWord
  /-- The management PHY passed its check (R449). -/
  mgmtOk : Bool
  /-- Ports whose SerDes check is owed before they train again (R450). -/
  recheck : BitVec 2
  /-- The hold-up runs out after a removal; the ports' transmitters are off. -/
  fenced : Bool
  /-- The cause of the crash record that the removal under way has begun; 0 for none (R495, R503, R506). -/
  crashCause : Nat
  /-- What the management port's network gave it while its link is up (R515): an IPv4 address from DHCP, an IPv6 prefix from
  SLAAC, and the 802.1Q VLAN tag that it accepts. -/
  net : MgmtNet
  /-- The bit-error test that runs: what it tests and its lanes (R521). -/
  prbs : Option (Fin 3 × Nat)
  moult : Moult
  update : Update
  /-- The 63 most recent event records raised, oldest first (R507). -/
  recent : List EventRec
  /-- Twin control stops the module (R372). -/
  stopping : Bool
  deriving DecidableEq, Repr

/-! ### The whole module -/

/-- The module. -/
structure State where
  /-- Commands waiting, first in first out. -/
  pending : List Instr
  /-- The timestamp counter, 100 MHz (R482). -/
  time : DWord
  /-- Registers, under window × 0x10_0000 + offset, shadow copies at + 0x8_0000 (R13); the pair registers of BAR0 under
  0x1000_0000 + their offset. An unlisted register reads its Reset value. -/
  regs : SMap Word
  /-- Read and write latches of 64-bit registers, under the low word's key (R11). -/
  latchR : SMap (Option Word)
  latchW : SMap (Option Word)
  /-- Vaults, tier and spools, under the 48-bit device address (R35); the tier's bytes as they were when written, before
  the encryption of R152. -/
  mem : List Host.Cell
  /-- Written lines of the tier, under t >> 6; a line not listed is a cleared line, whose check word reads all zeros
  (R151). -/
  tline : SMap (Option TierLine)
  /-- Tier lines whose next transfer needs a correction by link ECC (R150). -/
  linkErr : List Nat
  /-- Corrected fabric and ring errors that have occurred and are not yet counted (R486, R496). The environment makes them.
(DESIGN CHOICE, log entry 36.) -/
  fabricErr : Nat
  /-- The host's and peers' own memory behind each port, under port × 2^64 + PCIe address. -/
  pcieMem : List Host.Cell
  /-- Words with an uncorrectable error, and words with a correctable one: 8-byte words of spools and vaults, 32-byte
  half-lines of the tier, by device address (R92, R144, R151). -/
  ue : List Nat
  ce : List Nat
  arrays : Vector ArrayState 64
  /-- Granule tags of the tier (R154). -/
  tierTags : SMap Byte
  tierClears : List TierClear
  /-- BAR4 apertures, aperture a of port b under 16 b + a (R41, R43). -/
  apertures : SMap Aperture
  events : Events
  /-- What the module has sent. -/
  out : List OutMsg
  /-- Bytes the last read answered. -/
  rdata : List Byte
  /-- How many free values have been drawn (the model's own). -/
  free : Nat
  parts : Vector Part 8
  spn : Spindle
  twn : Twin
  coc : Cocoon
  flash : Flash
  /-- When each patrol began its pass: vault n under n, the tier under 64 (R161). -/
  patrolAt : SMap DWord
  reel : Reel
  srv : Serving
  /-- Hawkmoth's sessions 0 to 47. -/
  vid : Vector (Option Session) 48
  sht : Vector ShtInst 4
  pm : PowerMgr
  board : Board
  deriving DecidableEq, Repr

/-- Why a step stops the model. -/
inductive Fault where
  /-- Raised by the connector's rows when a voltage beyond ± 60 V is put on the 54 V input: outside the absolute
  maximum ratings (R524) the spec gives no behaviour. Safe: the model stops where the hardware may do anything. -/
  | absoluteMaximumExceeded
  deriving DecidableEq, Repr

/-- Why a command has no meaning here. -/
inductive Refusal where
  /-- Raised by Dispatch for a row without a meaning. Safe: nothing is claimed of it. -/
  | notModelled (mnemonic : String)
  deriving DecidableEq, Repr

/-- The module right after power-on. (DESIGN CHOICE, log entries 6, 62, 65.) -/
def State.reset : State where
  pending := []
  time := 0
  regs := []
  latchR := []
  latchW := []
  mem := []
  tline := []
  linkErr := []
  fabricErr := 0
  pcieMem := []
  ue := []
  ce := []
  arrays := Vector.replicate 64 ArrayState.reset
  tierTags := []
  tierClears := []
  apertures := []
  events := { entries := [], lost := [], due := [] }
  out := []
  rdata := []
  free := 0
  parts := Vector.replicate 8 Part.none
  spn := {
    slots := { bytes := [], ide := [] }
    cmds := []
    writer := []
    cmpProduced := []
    evtProduced := []
    consumed := []
    mgmtQ := []
    mgmtTaken := 0
    served := 16
    msixTable := []
    msixPending := []
  }
  twn := {
    heartbeat := 0
    gapStart := 0
    phase := .none
    planned := false
    incoming := .a
    swap := none
    swapBase := 0
    powered := Vector.replicate 2 false
    powerDown := Vector.replicate 2 none
    stopped := Vector.replicate 2 false
    restored := []
    ledger := {
      pending := [], journal := [], count := 0, since := 0, snapTime := 0, snaps := Vector.replicate 2 none
      placed := false }
  }
  coc := {
    sessions := []
    streams := Vector.replicate 8 { session := none, part := none, keys := [], active := none, insecure := false }
    keys := []
    draws := 0
    lastReport := []
    tree := none
    treeReady := false
    lowRaised := false
    exhaustedRaised := false
    imports := []
    tls := Vector.replicate 2 none
    secrets := none
  }
  flash := {
    running := { pieces := [], version := 0, security := 0 }
    fallback := { pieces := [], version := 0, security := 0 }
    staging := []
    records := Vector.replicate 2 { order := 0, value := 0, crc := 0x2B60B55D }
    hss := Vector.replicate 2 { reserved := 0, crc := 0x48674BC7 }
    authority := Config.imagoAuthority
    deviceChain := Config.deviceChain
    mgmtChain := Config.mgmtChain
    quar := Vector.replicate 2 none
    quarCount := 0
    maps := Vector.replicate 2 { order := 0, value := 0, crc := 0x2B60B55D }
    condemned := 0
    anchors := Vector.replicate 4 none
    crash := []
    crashNext := 0
    agedTicks := 0
    fellBack := false
    hostCap := 420
    warm := false
    floor := 45
    seed := some 0
  }
  patrolAt := []
  reel := {
    map := []
    seqs := []
    bad := []
    ce := []
    frames := Vector.replicate 8 []
    slots := Vector.replicate 8 []
    fb := []
    steps := Vector.replicate 8 none
    updates := []
    copies := []
  }
  srv := {
    convs := []
    posted := Vector.replicate 8 none
    admissions := 0
    maxSlots := Vector.replicate 8 256
    chunk := Vector.replicate 8 512
    stepTokens := Vector.replicate 8 2048
    badEntries := []
    ceEntries := []
  }
  vid := Vector.replicate 48 none
  sht := Vector.replicate 4 {
    reqs := Vector.replicate 10 { credit := 0, queue := [], missed := true }
    owner := none
    sitOut := none
    armed := false
    arbitrated := false
  }
  pm := {
    flow := .normal
    flowOkSince := none
    flowHigh := none
    lossCap := false
    watchdog := false
    boardHot := 0
    inletOk := true
    history := []
    trims := []
    lastRun := []
    lastSlot := none
    capOff := 0
    dutyOff := 0
    tripOff := 0
    capSince := []
    fullSince := []
    dutySince := []
    coolSince := []
    plausSince := []
    blind := 0
    ownTrip := 0
    releasing := 0
    swapStep := 0
    shareGiven := 0
    replanned := 0
    dieHot := 0
    dieStop := none
    diffSince := []
    sameSince := []
    diverged := 0
    reported := []
    rotAt := 0
    offSeen := 0
    freqWait := 0
    isolatedNext := none
    replans := []
    replanAt := 0
  }
  board := {
    supply := .off
    mated := false
    good := false
    since := 0
    stages := 0
    lpddrLoaded := false
    lpddrFailed := false
    sections := false
    started := false
    dead := false
    identityAt := 0
    stopCode := 0
    marked := 0
    mgmtOk := false
    recheck := 0
    fenced := false
    crashCause := 0
    net := { ipv4 := none, prefix6 := none, vlan := none }
    prbs := none
    moult := {
      running := false
      ref := none
      raw := false
      todo := []
      batch := []
      pass := 0
      retest := []
      failedOnce := 0
      abortedOnce := 0
      failed := 0
      analog := 0
      analogFail := 0
      analogRetry := 0
    }
    update := {
      banks := []
      queued := []
      ref := none
      hostDrained := false
      draining := false
      pauseAt := none
      ports := 0
      tlsSince := false
      fatalSince := false
      standbyOk := false
      keepStaging := false
    }
    recent := []
    stopping := false
  }

end Sys2Proof.Machine
end

