-- ==== Sys2Proof/Machine/Ops.lean ====
section
/-!
DEFINITION. The named operations over the state: sparse tables, registers and their fields, memory with its error
words, the granule tags and access rules (R35, R117, R154, R155, R378, R379), and event records (R483 to R492).
-/

namespace Sys2Proof.Machine

/-! ### Sparse tables -/

/-- The value under a key; `d` where the table lists none. (DESIGN CHOICE, log entry 7.) -/
def SMap.look {α : Type} (d : α) : SMap α → Nat → α
  | [], _ => d
  | (k, v) :: t, x => if x = k then v else SMap.look d t x

/-- A table with a key and its value put before the first greater key. -/
def SMap.insert {α : Type} (x : Nat) (v : α) : SMap α → SMap α
  | [] => [(x, v)]
  | (k, w) :: t => if x < k then (x, v) :: (k, w) :: t else (k, w) :: SMap.insert x v t

/-- Sets the value under a key and keeps the canonical form: a value equal to `d` is not listed. -/
def SMap.put {α : Type} [DecidableEq α] (d : α) (m : SMap α) (x : Nat) (v : α) : SMap α :=
  let rest := m.filter fun p => p.1 != x
  if v = d then rest else SMap.insert x v rest

/-- Drops every key from lo to hi - 1. -/
def SMap.wipe {α : Type} (m : SMap α) (lo hi : Nat) : SMap α :=
  m.filter fun p => decide (p.1 < lo) || decide (hi ≤ p.1)

/-- Sets consecutive keys from a on. -/
def SMap.putAll {α : Type} [DecidableEq α] (d : α) (m : SMap α) (a : Nat) : List α → SMap α
  | [] => m
  | v :: t => SMap.putAll d (SMap.put d m a v) (a + 1) t

/-- The n values from key a on. -/
def SMap.slice {α : Type} (d : α) (m : SMap α) (a n : Nat) : List α :=
  (List.range n).map fun i => SMap.look d m (a + i)

/-! ### Bits and bytes (R8: little-endian) -/

/-- Bits lo to lo + w - 1 of a number. -/
def bitsAt (v lo w : Nat) : Nat := v / 2 ^ lo % 2 ^ w

/-- A number with bits lo to lo + w - 1 replaced. -/
def withBits (v lo w x : Nat) : Nat :=
  v - bitsAt v lo w * 2 ^ lo + x % 2 ^ w * 2 ^ lo

/-- The little-endian number of a byte list (R8). -/
def leNat : List Byte → Nat
  | [] => 0
  | b :: t => b.toNat + 256 * leNat t

/-- The n low bytes of a number, little-endian (R8). -/
def leBytes : Nat → Nat → List Byte
  | 0, _ => []
  | n + 1, v => BitVec.ofNat 8 v :: leBytes n (v / 256)

/-- n bytes of a list from an offset, zeros past its end. -/
def bytesAt (bs : List Byte) (off n : Nat) : List Byte :=
  let t := (bs.drop off).take n
  t ++ List.replicate (n - t.length) 0

/-- The little-endian field of n bytes at an offset of a byte list. -/
def fieldAt (bs : List Byte) (off n : Nat) : Nat := leNat (bytesAt bs off n)

/-- One byte's bits of CRC-32C, least significant first. -/
def crc32cBits : Nat → Word → Word
  | 0, c => c
  | k + 1, c => crc32cBits k (if c.getLsbD 0 then (c >>> 1) ^^^ 0x82F63B78#32 else c >>> 1)

/-- CRC-32C (R356, R390). -/
def crc32c (bs : List Byte) : Word :=
  bs.foldl (fun (c : Word) (b : Byte) => crc32cBits 8 (c ^^^ b.zeroExtend 32)) 0xFFFFFFFF#32 ^^^ 0xFFFFFFFF#32

/-- The CRC-32C of an alternating flash record's fields. (DESIGN CHOICE, log entry 54.) -/
def flashCrc (order value : Nat) : Word := crc32c (leBytes 4 order ++ leBytes 8 value)

/-- Whether an alternating flash record is valid. -/
def FlashRec.valid (r : FlashRec) : Bool := r.crc == flashCrc r.order r.value

/-- Which of two alternating records is the newer valid one; none when both are invalid (R454, R474). -/
def newestRec (p : FlashPair) : Option (Fin 2) :=
  match p[0].valid, p[1].valid with
  | true, true => some (if p[0].order < p[1].order then 1 else 0)
  | true, false => some 0
  | false, true => some 1
  | false, false => none

/-- What two alternating records hold. -/
def pairValue (p : FlashPair) : Option Nat := (newestRec p).map fun i => p[i.val].value

/-- Writes a value over the record that is not the newer valid one: the two alternate. -/
def writeAlt (p : FlashPair) (value : Nat) : FlashPair :=
  let i : Fin 2 := if newestRec p = some 0 then 1 else 0
  let order := ((newestRec p).map fun k => p[k.val].order + 1).getD 0
  p.set i.val { order := order, value := value, crc := flashCrc order value }

/-- The unusable map that flash holds (R454). -/
def Flash.unusable (f : Flash) : Option DWord := (pairValue f.maps).map fun v => BitVec.ofNat 64 v

/-- Writes the unusable map (R454). -/
def Flash.writeMap (f : Flash) (map : DWord) : Flash := { f with maps := writeAlt f.maps map.toNat }

/-- The activation record's state (R474); with neither copy valid it counts as Idle. (DEDUCED, log entry 47.) -/
def Flash.record (f : Flash) : Nat := (pairValue f.records).getD 0

/-- What Cocoon's random generator gives next, under this start's personalisation (R384, R404). (DESIGN CHOICE, log entry
44.) -/
def State.nextDraw (s : State) : List Byte := Config.drbg ((s.coc.secrets.map (·.personal)).getD []) s.coc.draws

/-- ceil (a / b). -/
def ceilDiv (a b : Nat) : Nat := (a + b - 1) / b

/-! ### Registers -/

/-- Whether an offset of a window belongs to a register, and then its row, its copy and whether it is the high word. -/
def RegDef.match? (r : RegDef) (off : Nat) : Option (Nat × Bool) :=
  if off < r.off then none
  else
    let o := (off - r.off) / 0x400
    let d0 := off - r.off
    let d := if 1 < r.outer then d0 % 0x400 else d0
    if 1 < r.outer ∧ r.outer ≤ o then none
    else
      let i := d / r.stride
      let e := d % r.stride
      if r.wide then
        if r.count = 1 then (if d = 0 then some (0, false) else if d = 4 then some (0, true) else none)
        else if i < r.count ∧ e = 0 then some (i, false)
        else if i < r.count ∧ e = 4 then some (i, true) else none
      else if i < r.count ∧ e = 0 then some (i, false) else none

/-- A register found at an offset: its row, its copy index and whether the offset is its high word. -/
structure RegHit where
  row : RegDef
  index : Nat
  high : Bool
  deriving DecidableEq, Repr

/-- The first row that holds an offset. -/
def findReg : List RegDef → Nat → Option RegHit
  | [], _ => none
  | r :: t, off =>
    match r.match? off with
    | some (i, h) => some ⟨r, i, h⟩
    | none => findReg t off

/-- A register row's value at reset: 64 bits for a wide row (R19). (DESIGN CHOICE, log entry 5.) -/
def RegDef.resetVal (r : RegDef) : Nat := (r.fields.map fun f => f.reset * 2 ^ f.lo).sum

/-- The register that a key of the store names, for active copies (below 0x8_0000 of a window, or a pair's page). -/
def hitOf (key : Nat) : Option RegHit :=
  if 0x10000000 ≤ key then findReg pairRegs ((key - 0x10000000) % 0x1000)
  else findReg (windowRegs (key / 0x100000)) (key % 0x80000)

/-- The Reset value of the register word under a key; a shadow copy starts equal to its active copy's staged fields.
(DESIGN CHOICE, log entry 5.) -/
def regReset (key : Nat) : Word :=
  match hitOf key with
  | none => 0
  | some h =>
    let v := if key < 0x10000000 ∧ key % 0x100000 ≥ 0x80000 then
        ((h.row.fields.filter fun f => f.access == .rws).map fun f => f.reset * 2 ^ f.lo).sum
      else h.row.resetVal
    BitVec.ofNat 32 (if h.high then v / 2 ^ 32 else v)

/-- The word stored under a register key. -/
def State.reg (s : State) (key : Nat) : Word := SMap.look (regReset key) s.regs key

/-- Stores a register word. -/
def State.setReg (s : State) (key : Nat) (v : Word) : State :=
  { s with regs := SMap.put (regReset key) s.regs key v }

/-- The 64 bits of a wide register (R11). -/
def State.reg64 (s : State) (key : Nat) : Nat := (s.reg key).toNat + 2 ^ 32 * (s.reg (key + 4)).toNat

/-- Stores the 64 bits of a wide register. -/
def State.setReg64 (s : State) (key v : Nat) : State :=
  (s.setReg key (BitVec.ofNat 32 v)).setReg (key + 4) (BitVec.ofNat 32 (v / 2 ^ 32))

/-- A field's value. -/
def State.get (s : State) (f : Fld) : Nat :=
  bitsAt (if f.wide then s.reg64 f.key else (s.reg f.key).toNat) f.lo f.width

/-- Sets a field, the register's other bits kept. -/
def State.set (s : State) (f : Fld) (v : Nat) : State :=
  if f.wide then s.setReg64 f.key (withBits (s.reg64 f.key) f.lo f.width v)
  else s.setReg f.key (BitVec.ofNat 32 (withBits (s.reg f.key).toNat f.lo f.width v))

/-- Whether a one-bit field is 1. -/
def State.flag (s : State) (f : Fld) : Bool := s.get f != 0

/-- Adds to a counter that stops at its largest value. -/
def State.addTo (s : State) (f : Fld) (n : Nat) : State := s.set f (min (s.get f + n) (2 ^ f.width - 1))

/-- Counts one. -/
def State.bump (s : State) (f : Fld) : State := s.addTo f 1

/-- Sets a status bit. -/
def State.raiseBit (s : State) (f : Fld) : State := s.set f 1

/-- Sets or clears bit n of a map field. -/
def State.setBit (s : State) (f : Fld) (n : Nat) (b : Bool) : State :=
  s.set f (withBits (s.get f) n 1 (if b then 1 else 0))

/-- Bit n of a map field. -/
def State.bit (s : State) (f : Fld) (n : Nat) : Bool := bitsAt (s.get f) n 1 == 1

/-! ### Arrays and partitions -/

/-- Changes one array. -/
def State.modArr (s : State) (n : ArrayNum) (f : ArrayState → ArrayState) : State :=
  { s with arrays := s.arrays.set n.val (f s.arrays[n.val]) }

/-- One array. -/
def State.arr (s : State) (n : ArrayNum) : ArrayState := s.arrays[n.val]

/-- Changes one partition. -/
def State.modPart (s : State) (p : PartNum) (f : Part → Part) : State :=
  { s with parts := s.parts.set p.val (f s.parts[p.val]) }

/-- One partition. -/
def State.part (s : State) (p : PartNum) : Part := s.parts[p.val]

/-- All arrays, partitions and pairs, in increasing number. -/
def allArrays : List ArrayNum := List.finRange 64
/-- All partitions. -/
def allParts : List PartNum := List.finRange 8
/-- All mailbox pairs. -/
def allPairs : List PairNum := List.finRange 16

/-- Whether moult has marked the array unusable (R25, MLT_UNUSABLE). -/
def State.usable (s : State) (n : ArrayNum) : Bool := !s.bit F.mltUnusableUnusable n

/-- Whether the array's memory section has power: it is usable, and stage 6 has powered the sections (R439, R440, R455, R458). -/
def State.powered (s : State) (n : ArrayNum) : Bool := s.usable n && s.board.sections

/-- Whether the array belongs to the partition's groups (R24, R28). -/
def State.inPart (s : State) (p : PartNum) (n : ArrayNum) : Bool :=
  (s.part p).live && (s.part p).groups.getLsbD (n.val / 8)

/-- The array's partition. -/
def State.partOf (s : State) (n : ArrayNum) : Option PartNum := allParts.find? fun p => s.inPart p n

/-- The usable arrays of a partition, in increasing number. -/
def State.arraysOf (s : State) (p : PartNum) : List ArrayNum :=
  allArrays.filter fun n => s.inPart p n && s.usable n

/-- Whether the partition is sealed (R380). -/
def State.isSealed (s : State) (p : PartNum) : Bool := s.bit F.cocSealSealed p

/-- Whether the array is busy (R107): a kernel, a restaging, a scrub, a moult test, or a held or running clear. -/
def State.busy (s : State) (n : ArrayNum) : Bool :=
  let a := s.arr n
  a.kernel || a.restaging || a.scrubbing || a.test != .none || a.clear != .none

/-- Whether the array is off for power (R410). -/
def State.offForPower (s : State) (n : ArrayNum) : Bool := (s.arr n).power != .running

/-! ### The device address map (R35) -/

/-- Where a device address lies. -/
inductive Region where
  | vault (n : ArrayNum) (off : Nat)
  | spool (n : ArrayNum) (off : Nat)
  | tier (t : Nat)
  | window (w : Fin 16) (off : Nat)
  | register (off : Nat)
  | reserved
  deriving DecidableEq, Repr

/-- Device address of array n's vault (R35). -/
def vaultBase (n : ArrayNum) : Nat := n.val * 0x60000000
/-- Device address of array n's spool slot (R35). -/
def spoolBase (n : ArrayNum) : Nat := 0x8000000000 + n.val * 0x1000000
/-- Device address of the tier (R35). -/
def tierBase : Nat := 0x2000000000
/-- Bytes of a vault, of a spool and of the tier (R22, R90, R146). -/
def vaultSize : Nat := 0x60000000
/-- Bytes of a spool (R90). -/
def spoolSize : Nat := 0x800000
/-- Bytes of the tier (R146). -/
def tierSize : Nat := 0x4000000000

/-- The region of a device address (R35). -/
def regionOf (a : Nat) : Region :=
  if h : a / 0x60000000 < 64 then .vault ⟨a / 0x60000000, h⟩ (a % 0x60000000)
  else if 0x2000000000 ≤ a ∧ a < 0x6000000000 then .tier (a - 0x2000000000)
  else if 0x8000000000 ≤ a ∧ a < 0x8040000000 then
    if h : (a - 0x8000000000) / 0x1000000 < 64 then
      if (a - 0x8000000000) % 0x1000000 < 0x800000 then
        .spool ⟨(a - 0x8000000000) / 0x1000000, h⟩ ((a - 0x8000000000) % 0x1000000)
      else .reserved
    else .reserved
  else if 0xC000000000 ≤ a ∧ a < 0xD000000000 then
    if h : (a - 0xC000000000) / 0x100000000 < 16 then
      .window ⟨(a - 0xC000000000) / 0x100000000, h⟩ ((a - 0xC000000000) % 0x100000000)
    else .reserved
  else if 0xF000000000 ≤ a ∧ a < 0xF100000000 then .register (a - 0xF000000000)
  else .reserved

/-- Whether two addresses lie in one region (R116). -/
def sameRegion (a b : Nat) : Bool :=
  match regionOf a, regionOf b with
  | .vault n _, .vault m _ => n == m
  | .spool n _, .spool m _ => n == m
  | .tier _, .tier _ => true
  | .window v _, .window w _ => v == w
  | .register _, .register _ => true
  | _, _ => false

/-- Where a vault offset lies in the DRAM (R141). -/
structure VaultPlace where
  byte : Nat
  layer : Nat
  bank : Nat
  chunk : Nat
  row : Nat
  deriving DecidableEq, Repr

/-- The decoding of a vault offset (R141). -/
def vaultPlace (off : Nat) : VaultPlace where
  byte := bitsAt off 0 8
  layer := bitsAt off 8 2 + 1
  bank := bitsAt off 10 4
  chunk := bitsAt off 14 2
  row := bitsAt off 16 15

/-- Where a tier address lies: its channel and its position within the channel (R147). -/
structure TierPlace where
  channel : Nat
  position : Nat
  deriving DecidableEq, Repr

/-- The place of tier address t (R147): bits [11:8] XOR bits [15:12] choose the channel, and t without bits [11:8] is the
position. -/
def tierPlace (t : Nat) : TierPlace where
  channel := bitsAt t 8 4 ^^^ bitsAt t 12 4
  position := t / 4096 * 256 + t % 256

/-! ### Granule tags (R154) -/

/-- The tag of a vault granule of array n (R154). -/
def State.vtag (s : State) (n : ArrayNum) (g : Nat) : Byte := SMap.look 0 (s.arr n).vtags g
/-- The tag of a tier granule (R154). -/
def State.ttag (s : State) (g : Nat) : Byte := SMap.look 0 s.tierTags g

/-- Sets a vault granule's tag. -/
def State.setVtag (s : State) (n : ArrayNum) (g : Nat) (t : Byte) : State :=
  s.modArr n fun a => { a with vtags := SMap.put 0 a.vtags g t }
/-- Sets a tier granule's tag. -/
def State.setTtag (s : State) (g : Nat) (t : Byte) : State :=
  { s with tierTags := SMap.put 0 s.tierTags g t }

/-- The partition a tag names. -/
def tagPart (t : Byte) : PartNum := ⟨t.toNat % 8, Nat.mod_lt _ (by decide)⟩
/-- owned of a tag. -/
def tagOwned (t : Byte) : Bool := t.getLsbD 3
/-- secure of a tag. -/
def tagSecure (t : Byte) : Bool := t.getLsbD 4
/-- platform of a tag. -/
def tagPlatform (t : Byte) : Bool := t.getLsbD 5
/-- clearing of a tag. -/
def tagClearing (t : Byte) : Bool := t.getLsbD 6
/-- A tag with owned and platform both 0 marks a free granule (R154). -/
def tagFree (t : Byte) : Bool := t == 0
/-- The tag of a granule owned by p, secure when p is sealed (R380). -/
def ownedTag (p : PartNum) (sec : Bool) : Byte := BitVec.ofNat 8 (p.val + 8 + if sec then 16 else 0)
/-- The tag of a platform granule. -/
def platformTag : Byte := 0x20#8

/-! ### The tier's lines: encryption and check words (R151 to R153) -/

/-- Whether a device address lies in the tier. -/
def inTier (a : Nat) : Bool := decide (tierBase ≤ a) && decide (a < tierBase + tierSize)

/-- The lines of the tier that a range touches, as t >> 6. -/
def tierLines (a n : Nat) : List Nat :=
  let lo := max a tierBase - tierBase
  let hi := min (a + n) (tierBase + tierSize) - tierBase
  if 0 < n ∧ a < tierBase + tierSize ∧ tierBase < a + n then
    (List.range ((hi - 1) / 64 + 1 - lo / 64)).map fun i => lo / 64 + i
  else []

/-- The device address of a tier line. -/
def lineBase (l : Nat) : Nat := tierBase + 64 * l

/-- The key slot that serves a tier line (R153): the slot of the partition, or of the platform, that its granule's tag
names; a free granule has none. (DESIGN CHOICE, log entry 66.) -/
def State.keySlot (s : State) (l : Nat) : Option Nat :=
  let t := s.ttag (l / 0x10000)
  if tagOwned t then some (tagPart t).val else if tagPlatform t then some 8 else none

/-- The key that serves a tier line now: a 256-bit data key and a 256-bit tweak key, empty where no slot holds one. -/
def State.lineKey (s : State) (l : Nat) : List Byte :=
  match s.keySlot l with
  | some k => SMap.look [] s.coc.keys k
  | none => []

/-- The 64 bytes of a tier line as they were when written. -/
def State.plainLine (s : State) (l : Nat) : List Byte := SMap.slice 0 s.mem (lineBase l) 64

/-- A line as the DRAM holds it (R152): AES-XTS-256 over the 64-byte line, its tweak t >> 6 as a 128-bit little-endian
number. -/
def cipherLine (key : List Byte) (l : Nat) (plain : List Byte) : List Byte := Config.xtsEncrypt key (leBytes 16 l) plain

/-- The check word of a written line, over the line as stored (R151): check0, check1, written = 1, addr_check. -/
def checkWord (l : Nat) (stored : List Byte) : Word :=
  BitVec.ofNat 32 ((Config.secded (stored.take 32) true).toNat + 2 ^ 10 * (Config.secded (stored.drop 32) true).toNat
    + 2 ^ 20 + 2 ^ 21 * (Config.addrHash l).toNat)

/-- The fields of a check word (R151). -/
def check0 (w : Word) : Nat := bitsAt w.toNat 0 10
/-- SECDED over bytes 32 to 63. -/
def check1 (w : Word) : Nat := bitsAt w.toNat 10 10
/-- 1 on every ordinary write. -/
def checkWritten (w : Word) : Bool := bitsAt w.toNat 20 1 == 1
/-- The hash of the line's address. -/
def addrCheck (w : Word) : Nat := bitsAt w.toNat 21 11

/-- Whether a line holds bytes that were encrypted under another key than the one that serves it now. -/
def State.foreignLine (s : State) (l : Nat) : Bool :=
  match SMap.look none s.tline l with
  | some x => x.key != s.lineKey l
  | none => false

/-- What the tier engine reads from a line that was encrypted under another key: the stored line decrypted with the key
that serves it now (R153, R159). -/
def State.foreignBytes (s : State) (l : Nat) : List Byte :=
  match SMap.look none s.tline l with
  | some x => Config.xtsDecrypt (s.lineKey l) (leBytes 16 l) (cipherLine x.key l (s.plainLine l))
  | none => []

/-! ### Memory and its error words (R92, R144, R145, R151) -/

/-- One byte of device memory: a tier line is decrypted with the key that serves it, and an unlisted address reads 0 (R90,
R152, R160; assumption log). (DESIGN CHOICE, log entries 7, 66.) -/
def State.byte (s : State) (a : Nat) : Byte :=
  if inTier a && s.foreignLine ((a - tierBase) / 64) then (s.foreignBytes ((a - tierBase) / 64)).getD (a % 64) 0
  else SMap.look 0 s.mem a

/-- n bytes of device memory. -/
def State.load (s : State) (a n : Nat) : List Byte := (List.range n).map fun i => s.byte (a + i)

/-- The protected unit that holds an address: 64 bytes in the tier, 8 elsewhere (R92, R145). -/
def protUnit (a : Nat) : Nat := if tierBase ≤ a ∧ a < tierBase + tierSize then 64 else 8

/-- The bytes one error word covers: a half-line of the tier, a 64-bit word elsewhere. -/
def errUnit (a : Nat) : Nat := if tierBase ≤ a ∧ a < tierBase + tierSize then 32 else 8

/-- Whether an error word lies in a range in part. -/
def wordMeets (a n w : Nat) : Bool := decide (w < a + n) && decide (a < w + errUnit w)

/-- The tier lines of a range whose stored check word belongs to another address (R151): each counts as an uncorrectable
half-line, its first (assumption log). (DESIGN CHOICE, log entry 66.) -/
def State.misplaced (s : State) (a n : Nat) : List Nat :=
  (s.tline.filter fun e => inTier (lineBase e.1) && decide (lineBase e.1 < a + n) && decide (a < lineBase e.1 + 64) &&
    match e.2 with
    | some x => checkWritten x.check && addrCheck x.check != (Config.addrHash e.1).toNat
    | none => false).map fun e => lineBase e.1

/-- The uncorrectable words that a range touches. -/
def State.badWords (s : State) (a n : Nat) : List Nat := s.ue.filter (wordMeets a n) ++ s.misplaced a n

/-- Whether the byte at an address is covered by an uncorrectable word, or lies in a line whose check word belongs to another
address (R151). -/
def State.spoiled (s : State) (x : Nat) : Bool :=
  s.ue.any (fun w => decide (w ≤ x) && decide (x < w + errUnit w)) || !(s.misplaced x 1).isEmpty

/-- The first uncorrectable word that a range touches. -/
def State.badIn (s : State) (a n : Nat) : Option Nat := (s.badWords a n).head?

/-- The first address of the protected unit that holds an address. -/
def unitOf8 (w : Nat) : Nat := w / protUnit w * protUnit w

/-- Whether a write of n bytes at a covers the protected unit of w. -/
def coversUnit (a n w : Nat) : Bool := decide (a ≤ unitOf8 w) && decide (unitOf8 w + protUnit w ≤ a + n)

/-- Whether a write of n bytes at a touches the protected unit of w without covering it, and so has to merge (R92, R145,
R149). -/
def mergesUnit (a n w : Nat) : Bool :=
  decide (0 < n) && decide (unitOf8 w < a + n) && decide (a < unitOf8 w + protUnit w) && !coversUnit a n w

/-- Whether the write of n bytes at a may change the byte at x: its protected unit lies wholly in the write or holds no
uncorrectable word (R92, R145). -/
def State.storable (s : State) (a n x : Nat) : Bool :=
  coversUnit a n x || (s.badIn (unitOf8 x) (protUnit x)).isNone

/-- A line's bytes are held as the key that serves it shows them, before it is written in part. -/
def State.openLine (s : State) (l : Nat) : State :=
  if s.foreignLine l then
    { s with mem := SMap.putAll 0 s.mem (lineBase l) ((List.range 64).map fun i => (s.foreignBytes l).getD i 0) }
  else s

/-- A written line takes the key that serves it and its check word (R151 to R153). -/
def State.sealLine (s : State) (l : Nat) : State :=
  let x : TierLine := { key := s.lineKey l, check := checkWord l (cipherLine (s.lineKey l) l (s.plainLine l)) }
  { s with tline := SMap.put none s.tline l (some x) }

/-- Opens the lines of a list. -/
def State.openLines (s : State) (ls : List Nat) : State := ls.foldl (fun t l => t.openLine l) s

/-- Seals the lines of a list. -/
def State.sealLines (s : State) (ls : List Nat) : State := ls.foldl (fun t l => t.sealLine l) s

/-- The tier lines that a store of n bytes at a changes. -/
def State.storeLines (s : State) (a n : Nat) : List Nat := (tierLines a n).filter fun l => s.storable a n (lineBase l)

/-- Puts bytes where they may be stored: a unit written whole becomes good, a partial write into an uncorrectable unit is
dropped, and one into a correctable unit writes the corrected word back (R92, R144, R145). -/
def State.putBytes (s : State) (a : Nat) (bs : List Byte) : State :=
  let n := bs.length
  let cells := (List.zipIdx bs).filter fun c => s.storable a n (a + c.2)
  let gone := fun w : Nat => coversUnit a n w || (mergesUnit a n w && (s.badIn (unitOf8 w) (protUnit w)).isNone)
  { s with
    mem := cells.foldl (fun m c => SMap.put 0 m (a + c.2) c.1) s.mem
    ue := s.ue.filter (fun w => !coversUnit a n w)
    ce := s.ce.filter (fun w => !gone w) }

/-- Stores bytes (R92, R144, R145). Written tier lines are encrypted anew (R152, R153). -/
def State.store (s : State) (a : Nat) (bs : List Byte) : State :=
  let ls := s.storeLines a bs.length
  ((s.openLines ls).putBytes a bs).sealLines ls

/-- The lines at the ends of a range that it covers only in part. -/
def tierEnds (a n : Nat) : List Nat :=
  let l := tierLines a n
  ((l.head?.toList ++ l.getLast?.toList).dedup).filter fun l => !(decide (a ≤ lineBase l) && decide (lineBase l + 64 ≤ a + n))

/-- Clears a range: zeros, every word good, every tier line that it covers a cleared line. -/
def State.clearBytes (s : State) (a n : Nat) : State :=
  let outside := fun w : Nat => decide (w < a) || decide (a + n ≤ w)
  { s with
    mem := SMap.wipe s.mem a (a + n)
    tline := s.tline.filter (fun e => !(decide (a ≤ lineBase e.1) && decide (lineBase e.1 + 64 ≤ a + n)))
    ue := s.ue.filter outside, ce := s.ce.filter outside }

/-- Stores zeros over a range and makes every word of it good; the tier lines it covers are cleared lines (R151, R158, R159,
R160). -/
def State.wipe (s : State) (a n : Nat) : State := ((s.openLines (tierEnds a n)).clearBytes a n).sealLines (tierEnds a n)

/-! ### Host and peer memory -/

/-- The key of a PCIe address behind a port. -/
def pcieKey (port : Port) (addr : Nat) : Nat := port.val * 2 ^ 64 + addr % 2 ^ 64

/-- What the host stored before the step (the command's operand). (DESIGN CHOICE, log entry 8.) -/
def State.hostStores (s : State) (hw : HostStores) : State :=
  { s with pcieMem := hw.foldl (fun m c => SMap.put 0 m c.1 c.2) s.pcieMem }

/-- Reads n bytes behind a port. (DESIGN CHOICE, log entry 8.) -/
def State.pcieLoad (s : State) (port : Port) (addr n : Nat) : List Byte :=
  SMap.slice 0 s.pcieMem (pcieKey port addr) n

/-- Posts a memory write behind a port. (DESIGN CHOICE, log entry 8.) -/
def State.pcieStore (s : State) (port : Port) (addr : Nat) (bs : List Byte) : State :=
  { s with pcieMem := SMap.putAll 0 s.pcieMem (pcieKey port addr) bs }

/-- Sends a message. (DESIGN CHOICE, log entry 10.) -/
def State.send (s : State) (m : OutMsg) : State := { s with out := s.out ++ [m] }

/-! ### Granules (R154 to R156, R378, R379) -/

/-- The tag of the granule that holds a device address of a vault or the tier, as an access meets it; none elsewhere, and none
in an unusable array's vault, whose addresses are reserved (R25, R37). -/
def State.tagAt (s : State) (a : Nat) : Option Byte :=
  match regionOf a with
  | .vault n off => if s.usable n then some (s.vtag n (off / 0x400000)) else none
  | .tier t => some (s.ttag (t / 0x400000))
  | _ => none

/-- Whether a partition's own requester (an array, the reel, the sampler, Hawkmoth while acting for it) may touch a
granule (R117, R155, R379). -/
def State.tagAllows (s : State) (p : PartNum) (t : Byte) : Bool :=
  tagOwned t && !tagClearing t && !tagPlatform t && tagPart t == p && (!tagSecure t || s.isSealed p)

/-- Whether the non-secure world may touch a granule of p through BAR4 (R42, R379). -/
def tagAllowsHost (p : PartNum) (t : Byte) : Bool :=
  tagOwned t && !tagClearing t && !tagPlatform t && tagPart t == p && !tagSecure t

/-- The granule bases that a range touches. -/
def granulesOf (a n : Nat) : List Nat :=
  (List.range ((a + n - 1) / 0x400000 + 1 - a / 0x400000)).map fun i => (a / 0x400000 + i) * 0x400000

/-- The first granule of a range that a partition's requester is denied (R117). -/
def State.deniedIn (s : State) (p : PartNum) (a n : Nat) : Option Nat :=
  (granulesOf a n).find? fun g =>
    match s.tagAt (max g a) with
    | some t => !s.tagAllows p t
    | none => true

/-! ### Event records (R483 to R492) -/

/-- An occurrence a block reports. -/
structure Ev where
  source : Nat
  cls : Nat
  severity : Nat
  part : Option PartNum := none
  status : Nat := 0
  affected : BitVec 8 := 0
  addr : Option Nat := none
  inst : Nat := 0
  detail : List Byte := []
  deriving DecidableEq, Repr

/-- Whether a mailbox pair is enabled. -/
def State.pairEnabled (s : State) (k : PairNum) : Bool := s.flag (F.spnMbCtlEnable k)

/-- The partition a pair is bound to (R347). -/
def State.pairPart (s : State) (k : PairNum) : Option PartNum :=
  if s.flag (F.spnMbStatusBound k) then some ⟨s.get (F.spnMbStatusPartition k) % 8, Nat.mod_lt _ (by decide)⟩
  else none

/-- The recipients of a record (R337, R489): pairs by number, 16 for the management channel. -/
def State.recipients (s : State) (r : EventRec) : List (Fin 17) :=
  ((allPairs.filter fun k => s.pairEnabled k &&
    match s.pairPart k with
    | none => true
    | some p => r.part == some p || (r.part.isNone && r.affected.getLsbD p)).map fun k => ⟨k.val, by omega⟩) ++ [16]

/-- The record next due to each recipient, and since when (R492). -/
def State.refreshDue (s : State) : State :=
  let due := (List.finRange 17).foldl (fun (m : SMap (Option (Word × DWord))) r =>
    let head := (s.events.entries.filter fun e => e.todo.contains r).foldl
      (fun (b : Option Word) e =>
        match b with
        | none => some e.body.seq
        | some q => if e.body.seq.toNat < q.toNat then some e.body.seq else b) none
    match head with
    | none => SMap.put none m r.val none
    | some q =>
      match SMap.look none m r.val with
      | some (q', t) => if q' = q then m else SMap.put none m r.val (some (q, s.time))
      | none => SMap.put none m r.val (some (q, s.time))) s.events.due
  { s with events := { s.events with due := due } }

/-- A recipient loses a record (R490, R492). -/
def State.loseFor (s : State) (rs : List (Fin 17)) : State :=
  rs.foldl (fun (s : State) (r : Fin 17) =>
    let s := s.bump (F.errLostRecords r.val)
    { s with events := { s.events with
        lost := SMap.put 0 s.events.lost r.val (min (SMap.look 0 s.events.lost r.val + 1) 0xFFFF) } }) s

/-- Whether an entry still holds its place in its source's queue (R490). -/
def EventEntry.queued (e : EventEntry) : Bool := !e.todo.isEmpty

/-- Whether an occurrence belongs to a record under handling (R491). -/
def EventEntry.takes (e : EventEntry) (ev : Ev) : Bool :=
  e.body.source == ev.source && e.body.cls == ev.cls && e.body.inst == ev.inst && e.body.part == ev.part

/-- A further occurrence in a record under handling (R491). (DEDUCED, log entry 36.) -/
def EventEntry.merge (e : EventEntry) (now : DWord) (fresh : EventRec) : EventEntry :=
  if e.written then
    match e.followUp with
    | none => { e with followUp := some { fresh with followUp := true } }
    | some f => { e with followUp := some { f with count := min (f.count + 1) 0xFFFF, last := now } }
  else { e with body := { e.body with count := min (e.body.count + 1) 0xFFFF, last := now } }

/-- Gives a record its seq and a queue entry, or drops and counts it (R490); the 63 latest are kept for a crash record
(R507), to which a stop or a removal under way adds only fatal ones while there is room (R495), and a FATAL one is noted for the health
of a new imago (R476). (DEDUCED, log entries 36, 64.) -/
def State.enqueue (s : State) (r : EventRec) : State :=
  let seq := if s.get F.errRaisedRecords = 0 then 0#32 else BitVec.ofNat 32 (s.get F.errSeqSeq + 1)
  let r := { r with seq := seq }
  let s := (s.set F.errSeqSeq seq.toNat).bump F.errRaisedRecords
  let s : State := { s with board := { s.board with
    recent :=
      if s.board.stopping || s.board.supply == .removing then (if r.severity = 4 ∧ s.board.recent.length < 63 then s.board.recent ++ [r] else s.board.recent)
      else (s.board.recent ++ [r]).drop (s.board.recent.length - 62)
    update := { s.board.update with fatalSince := s.board.update.fatalSince || r.status == 0x1F } } }
  let rs := s.recipients r
  let held := (s.events.entries.filter fun e => e.body.source == r.source && e.queued).length
  if held < 31 ∨ (r.severity = 4) then
    ({ s with events := { s.events with
        entries := s.events.entries ++
          [{ body := r, todo := rs, written := false, doneAt := none, followUp := none }] } } : State).refreshDue
  else (s.bump F.errDropRecords |>.raiseBit F.errStatusDropped).loseFor rs

/-- Reports an occurrence detected at a cycle (R482, R490, R491): merged into the record under handling, or a record of its
own. -/
def State.reportAt (s : State) (at_ : DWord) (ev : Ev) : State :=
  let fresh : EventRec := {
    source := ev.source, cls := ev.cls, severity := ev.severity, part := ev.part, status := ev.status, count := 1,
    time := at_, last := at_, affected := ev.affected, followUp := false, held := false, seq := 0,
    addr := ev.addr, inst := ev.inst, detail := ev.detail }
  if ev.severity < 4 ∧ s.events.entries.any (fun e => e.takes ev) then
    let entries := s.events.entries.map fun e => if e.takes ev then e.merge at_ fresh else e
    ({ s with events := { s.events with entries := entries } } : State).bump F.errMergedOccurrences
  else s.enqueue fresh

/-- Reports an occurrence detected now (R482). -/
def State.report (s : State) (ev : Ev) : State := s.reportAt s.time ev

/-- The seq of the record under handling from a source, of a class and a partition (R491, R493). -/
def State.recordSeq (s : State) (source cls : Nat) (p : Option PartNum) : Option Word :=
  (s.events.entries.filter fun e => e.body.source == source && e.body.cls == cls && e.body.part == p).getLast?.map fun e =>
    e.body.seq

/-- The bit of a partition. -/
def partBit (p : PartNum) : BitVec 8 := BitVec.ofNat 8 (2 ^ p.val)

/-- The affected bits of a record that names an optional partition (R488). -/
def affectedBy (p : Option PartNum) : BitVec 8 :=
  match p with
  | some q => partBit q
  | none => 0

/-- Every existing partition's bit (R488). -/
def State.allPartBits (s : State) : BitVec 8 :=
  allParts.foldl (fun m p => if (s.part p).live then m ||| partBit p else m) 0

/-- An access error detected at a cycle (R37, R482, R487): instance (array, or 0xFFFF for the host), cause row, path, window or
aperture. (DESIGN CHOICE, log entry 24.) -/
def State.accessErrorAt (s : State) (at_ : DWord) (source inst cause path win : Nat) (p : Option PartNum)
    (addr : Option Nat) : State :=
  s.reportAt at_ { source := source, cls := 0x01, severity := 3, part := p, affected := affectedBy p, addr := addr,
                   inst := inst, detail := [BitVec.ofNat 8 cause, BitVec.ofNat 8 path, BitVec.ofNat 8 win] }

/-- An access error detected now. (DESIGN CHOICE, log entry 24.) -/
def State.accessError (s : State) (source inst cause path win : Nat) (p : Option PartNum) (addr : Option Nat) : State :=
  s.accessErrorAt s.time source inst cause path win p addr

/-- The partition that a granule's tag names as its owner (R154). -/
def tagOwner (t : Byte) : Option PartNum := if tagOwned t then some (tagPart t) else none

/-- The owner of the granule that holds a device address of a vault or the tier (R154). -/
def State.granuleOwner (s : State) (a : Nat) : Option PartNum :=
  match regionOf a with
  | .vault n off => tagOwner (s.vtag n (off / 0x400000))
  | .tier t => tagOwner (s.ttag (t / 0x400000))
  | _ => none

/-- The partition that owns the memory at a device address (R488). -/
def State.ownerAt (s : State) (a : Nat) : Option PartNum :=
  match regionOf a with
  | .spool n _ => s.partOf n
  | _ => s.granuleOwner a

/-- Whether a word lies in a platform granule of the tier (R154, R487). -/
def State.platformWord (s : State) (w : Nat) : Bool :=
  match regionOf w with
  | .tier t => tagPlatform (s.ttag (t / 0x400000))
  | _ => false

/-- Counts an ECC word read (R92, R144, R151) in its memory's counter and, in a granule of a partition, in the partition's
(R496). -/
def State.countEcc (s : State) (w : Nat) (bad : Bool) : State :=
  let s := match s.granuleOwner w with
    | some p => s.bump (if bad then F.errPUncorrUncorrected p else F.errPCorrCorrected p)
    | none => s
  match regionOf w with
  | .spool n off =>
    if bad then (s.bump (F.splEccUncorrUncorrected n)).set (F.splEccAddrWord n) (off / 8)
    else s.bump (F.splEccCorrCorrected n)
  | .vault n off =>
    if bad then ((s.bump (F.vltEccUncorrUncorrected n)).set (F.vltEccAddrWord n) (off / 8)).raiseBit (F.vltStatusUeSeen n)
    else s.bump (F.vltEccCorrCorrected n)
  | .tier t =>
    if bad then ((s.bump F.tierEccUncorrUncorrected).set F.tierEccAddrHalfLine (t / 32)).raiseBit F.tierStatusUeSeen
    else s.bump F.tierEccCorrCorrected
  | _ => s

/-- Memory code of R487 and the layer, channel or half-line detail of an error word. -/
def State.eccDetail (s : State) (w reader : Nat) : Nat × List Byte :=
  match regionOf w with
  | .spool n _ => (n.val, [0, BitVec.ofNat 8 reader, 0])
  | .vault n off => (n.val, [1, BitVec.ofNat 8 reader, BitVec.ofNat 8 (vaultPlace off).layer])
  | .tier t =>
    ((tierPlace t).channel, [if s.platformWord w then 5 else 2, BitVec.ofNat 8 reader, BitVec.ofNat 8 (t / 32 % 2)])
  | _ => (0xFFFF, [0, BitVec.ofNat 8 reader, 0])

/-- The source code of the block that holds an address (R484). -/
def eccSource (w : Nat) : Nat :=
  match regionOf w with
  | .spool n _ => n.val
  | .vault n _ => n.val
  | _ => 0x044

/-- Reports an error word met by a reader (R145: the rows' numbers), corrected or uncorrectable (R486). A platform word's fault
may have reached every partition's work (R488). -/
def State.eccReport (s : State) (w reader : Nat) (bad : Bool) : State :=
  let p := s.ownerAt w
  let d := s.eccDetail w reader
  (s.countEcc w bad).report {
    source := eccSource w, cls := (if bad then 0x04 else 0x03), severity := (if bad then 3 else 1), part := p
    affected := (if s.platformWord w then s.allPartBits else affectedBy p), addr := (some w), inst := d.1, detail := d.2 }

/-- Counts and reports the corrections that a read of a range makes (R92, R144, R151). -/
def State.correct (s : State) (a n reader : Nat) : State :=
  (s.ce.filter (wordMeets a n)).foldl (fun s w => s.eccReport w reader false) s

/-- The link ECC of a tier transfer (R150): a corrected line counts on its channel. (DESIGN CHOICE, log entry 66.) -/
def State.linkCheck (s : State) (a n : Nat) : State :=
  let hit := fun l : Nat => decide (lineBase l < a + n) && decide (a < lineBase l + 64)
  { (s.linkErr.filter hit).foldl (fun (s : State) l => s.bump (F.tierLinkEccCorrected (tierPlace (64 * l)).channel)) s with
    linkErr := s.linkErr.filter fun l => !hit l }

/-- Counts bytes that a vault or the tier served (R163, R164). -/
def State.countRead (s : State) (a n : Nat) : State :=
  match regionOf a with
  | .vault v _ => s.addTo (F.vltReadBytesReadBytes v) n
  | .tier _ => (s.linkCheck a n).addTo F.tierReadBytesReadBytes n
  | _ => s

/-- Counts bytes written to a vault or the tier (R163, R164). -/
def State.countWrite (s : State) (a n : Nat) : State :=
  match regionOf a with
  | .vault v _ => s.addTo (F.vltWriteBytesWriteBytes v) n
  | .tier _ => (s.linkCheck a n).addTo F.tierWriteBytesWriteBytes n
  | _ => s

/-- The reads that a write's merges make (R92, R144, R145): corrections and uncorrectable words are counted and reported
under the reader's code. -/
def State.mergeReads (s : State) (a n reader : Nat) : State :=
  let good := (s.ce.filter (mergesUnit a n)).filter fun w => (s.badIn (unitOf8 w) (protUnit w)).isNone
  let bad := (s.badWords (unitOf8 a) (unitOf8 (a + n - 1) + protUnit (a + n - 1) - unitOf8 a)).filter (mergesUnit a n)
  let s := good.foldl (fun s w => s.eccReport w reader false) s
  bad.foldl (fun s w => s.eccReport w reader true) s

/-- The protected units at the ends of a write that it covers only in part. -/
def mergeEnds (a n : Nat) : List Nat := ([unitOf8 a, unitOf8 (a + n - 1)].dedup).filter (mergesUnit a n)

/-- Counts the bytes that a write's merges read: 64 for each line of the tier, 8 for each word of a vault (R149, R163,
R164). -/
def State.countMerge (s : State) (a n : Nat) : State :=
  match regionOf a with
  | .vault v _ => s.addTo (F.vltReadBytesReadBytes v) (8 * (mergeEnds a n).length)
  | .tier _ => s.addTo F.tierReadBytesReadBytes (64 * (mergeEnds a n).length)
  | _ => s

/-- A write by a requester, reader code 4 for its merges (R144, R145). -/
def State.write (s : State) (a : Nat) (bs : List Byte) : State :=
  (((s.mergeReads a bs.length 4).countMerge a bs.length).countWrite a bs.length).store a bs

/-- CFG_WRITE_BUSY (R15, R484): the dropped RWL write's event record. -/
def State.cfgWriteBusy (s : State) (source inst : Nat) (p : Option PartNum) : State :=
  s.report { source := source, cls := 0x06, severity := 2, part := p, affected := affectedBy p, status := 0x14,
             inst := inst }

end Sys2Proof.Machine
end

