-- ==== Sys2Proof/Machine/Operands.lean ====
section
/-!
DEFINITION. The 128-bit array instruction word (R94 to R103, R192, R214, R225, R228, R231, R234), its operand forms and
the addresses they form (R93), and the pair table of R80. Bits that no field of an op names must be 0 (assumption log).
-/

namespace Sys2Proof.Machine

/-- How the cells read an operand (R54, R80). -/
inductive Elem where
  | int8
  | int4
  | g8
  | g4
  | fp8
  | s4e
  | s4i
  | bf16
  deriving DecidableEq, Repr

/-- One row of the pair table (R80). -/
structure PairInfo where
  act : Elem
  wt : Elem
  acc : AccTag
  k : Nat
  elemBytes : Nat
  scaleBytes : Nat
  planes : Nat
  cycles : Nat
  actBytes : Nat
  actScale : Nat
  deriving DecidableEq, Repr

/-- The pair table (R80). -/
def pairInfo : Fin 11 → PairInfo
  | 0 => ⟨.int8, .int8, .int32, 192, 49152, 0, 32, 1, 192, 0⟩
  | 1 => ⟨.int8, .int4, .int32, 192, 24576, 0, 64, 1, 192, 0⟩
  | 2 => ⟨.int4, .int4, .int32, 384, 49152, 0, 32, 1, 192, 0⟩
  | 3 => ⟨.g8, .g8, .fp32, 192, 49152, 3072, 30, 1, 192, 12⟩
  | 4 => ⟨.g4, .g4, .fp32, 384, 49152, 6144, 28, 1, 192, 24⟩
  | 5 => ⟨.g8, .g4, .fp32, 192, 24576, 3072, 56, 1, 192, 12⟩
  | 6 => ⟨.fp8, .fp8, .fp32, 192, 49152, 0, 32, 1, 192, 0⟩
  | 7 => ⟨.fp8, .s4e, .fp32, 192, 24576, 1536, 60, 1, 192, 0⟩
  | 8 => ⟨.s4e, .s4e, .fp32, 384, 49152, 3072, 30, 1, 192, 12⟩
  | 9 => ⟨.s4i, .s4i, .fp32, 384, 49152, 3072, 30, 1, 192, 12⟩
  | 10 => ⟨.bf16, .bf16, .fp32, 192, 98304, 0, 16, 4, 384, 0⟩

/-- Bytes of one plane image of a pair (R83). -/
def PairInfo.planeBytes (p : PairInfo) : Nat := p.elemBytes + p.scaleBytes

/-- A ROW instruction's operands (R98). -/
structure RowOps where
  vd : Nat
  va : Nat
  vb : Nat
  vc : Nat
  mask : Nat
  masked : Bool
  bImm : Bool
  imm : Word
  deriving DecidableEq, Repr

/-- The ROW operations (R98), in op order. -/
inductive RowKind where
  | add | sub | mul | fma | max | min | abs | neg | cmpLt | cmpLe | cmpEq | select | exp2 | log2 | recip | rsqrt
  | reduceSum | reduceMax
  deriving DecidableEq, Repr

/-- The operations by op field (R98). -/
def rowKinds : List RowKind :=
  [.add, .sub, .mul, .fma, .max, .min, .abs, .neg, .cmpLt, .cmpLe, .cmpEq, .select, .exp2, .log2, .recip, .rsqrt,
   .reduceSum, .reduceMax]

/-- Where a plane's bytes are staged from: STG fields (R96). -/
structure StgOps where
  fromSpool : Bool
  reg : Nat
  offset : Nat
  pair : Nat
  bank : Nat
  first : Nat
  count : Nat
  deriving DecidableEq, Repr

/-- MMA fields (R97). -/
structure MmaOps where
  pair : Nat
  actE5 : Bool
  wtE5 : Bool
  bank : Nat
  plane : Nat
  half : Nat
  base : Nat
  rows : Nat
  accumulate : Bool
  actReg : Nat
  actOff : Nat
  actStride : Nat
  sclReg : Nat
  sclOff : Nat
  sclStride : Nat
  deriving DecidableEq, Repr

/-- CVT fields (R100). -/
structure CvtOps where
  fmt : Nat
  rnd : Nat
  vs : Nat
  n : Nat
  supplied : Bool
  vsc : Nat
  elReg : Nat
  elOff : Nat
  scReg : Nat
  scOff : Nat
  posReg : Nat
  deriving DecidableEq, Repr

/-- RMO fields (R102). -/
structure RmoOps where
  kind : RmoKind
  fmt : Nat
  locReg : Nat
  remReg : Nat
  locOff : Nat
  knot : Nat
  remote : Nat
  lines : Nat
  deriving DecidableEq, Repr

/-- pstage fields (R192, R194). -/
structure PstageOps where
  isV : Bool
  int4 : Bool
  bank : Nat
  plane : Nat
  pages : Nat
  listReg : Nat
  listOff : Nat
  fallback : Bool
  d : Nat
  khalf : Bool
  unitOff : Nat
  deriving DecidableEq, Repr

/-- pclose fields (R192, R196). -/
structure PcloseOps where
  int4 : Bool
  srcReg : Nat
  srcOff : Nat
  dstReg : Nat
  dstOff : Nat
  d : Nat
  deriving DecidableEq, Repr

/-- wxin fields (R225). -/
structure WxinOps where
  fmt : Nat
  map : Nat
  orgReg : Nat
  cgrp : Nat
  dstReg : Nat
  dstOff : Nat
  posStride : Nat
  scReg : Nat
  scOff : Nat
  scStride : Nat
  deriving DecidableEq, Repr

/-- wxout fields (R228). -/
structure WxoutOps where
  f4 : Bool
  half : Nat
  row : Nat
  posRows : Nat
  g : Nat
  vd : Nat
  deriving DecidableEq, Repr

/-- pool fields (R231). -/
structure PoolOps where
  average : Bool
  avgPad : Bool
  fmt : Nat
  src : Nat
  dst : Nat
  orgReg : Nat
  cgrp : Nat
  kh : Nat
  kw : Nat
  sh : Nat
  sw : Nat
  padT : Nat
  padL : Nat
  count : Nat
  deriving DecidableEq, Repr

/-- argmax fields (R234). -/
structure ArgmaxOps where
  fmt : Nat
  src : Nat
  dst : Nat
  orgReg : Nat
  channels : Nat
  wide : Bool
  count : Nat
  deriving DecidableEq, Repr

/-- Bytes of an element of a map format: 0 int8, 1 and 2 fp8, 3 bf16 (R211, R225). -/
def mapElem (fmt : Nat) : Nat := if fmt = 3 then 2 else 1

/-- A decoded array instruction; `illegal` carries the fault code of R109. -/
inductive Insn where
  | nop
  | kend
  | jump (imm : Nat)
  | loop (d imm : Nat)
  | setc (d imm : Nat)
  | seta (d imm : Nat)
  | adda (d imm : Nat)
  | fence (mask : Nat)
  | kwait (knot : Nat) (value timeout : Word)
  | stg (o : StgOps)
  | mma (o : MmaOps)
  | row (k : RowKind) (o : RowOps)
  | cvt (o : CvtOps)
  | load (vd fmt reg off : Nat)
  | accrd (vd half row g n : Nat)
  | rmo (o : RmoOps)
  | rsInit (row count : Nat)
  | rsMax (vd va row : Nat)
  | rsSum (va row : Nat)
  | rsFinal (vd row : Nat)
  | rsLoad (va row : Nat)
  | rsStore (vd row : Nat)
  | pstage (o : PstageOps)
  | pclose (o : PcloseOps)
  | wxin (o : WxinOps)
  | wxout (o : WxoutOps)
  | pool (o : PoolOps)
  | argmax (o : ArgmaxOps)
  | illegal (code : Nat)
  deriving DecidableEq, Repr

/-- ILLEGAL_INSN and ILLEGAL_PAIR of R109. -/
def illegalInsn : Insn := .illegal 1

/-- Whether every bit outside the named fields (low bit, width) and the class and op fields is 0 (R94). -/
def onlyFields (w : Nat) (fs : List (Nat × Nat)) : Bool :=
  (fs.foldl (fun v f => withBits v f.1 f.2 0) (withBits w 0 10 0)) == 0

/-- A legal instruction when only its fields are set. (DEDUCED, log entry 12.) -/
def checked (w : Nat) (fs : List (Nat × Nat)) (ok : Bool) (i : Insn) : Insn :=
  if onlyFields w fs && ok then i else illegalInsn

/-- CTL (R95). -/
def decodeCtl (w op : Nat) : Insn :=
  let b := bitsAt w
  let imm := b 32 32
  match op with
  | 0 => checked w [] true .nop
  | 1 => checked w [] true .kend
  | 2 => checked w [(32, 32)] true (.jump imm)
  | 3 => checked w [(16, 2), (32, 32)] true (.loop (b 16 2) imm)
  | 4 => checked w [(16, 2), (32, 32)] (b 48 16 == 0) (.setc (b 16 2) imm)
  | 5 => checked w [(16, 3), (32, 32)] (b 16 3 != 0) (.seta (b 16 3) imm)
  | 6 => checked w [(16, 3), (32, 32)] (b 16 3 != 0) (.adda (b 16 3) imm)
  | 7 => checked w [(16, 6)] (b 16 6 != 0) (.fence (b 16 6))
  | 8 => checked w [(16, 11), (32, 32), (64, 32)] true
      (.kwait (b 16 11) (BitVec.ofNat 32 imm) (BitVec.ofNat 32 (b 64 32)))
  | _ => illegalInsn

/-- STG (R96). (DESIGN CHOICE, log entry 69.) -/
def decodeStg (w op : Nat) : Insn :=
  let b := bitsAt w
  if op != 0 || !onlyFields w [(16, 4), (32, 50)] || b 75 7 == 0 then illegalInsn
  else if 10 < b 64 4 then .illegal 2
  else .stg ⟨b 16 1 == 1, b 17 3, b 32 32, b 64 4, b 68 1, b 69 6, b 75 7⟩

/-- Whether a pair has activation scales, so that MMA's scale fields are used (R80, R97). -/
def usesScales (pair : Nat) : Bool := pair == 3 || pair == 4 || pair == 5 || pair == 8 || pair == 9

/-- MMA (R97). (DESIGN CHOICE, log entry 69.) -/
def decodeMma (w op : Nat) : Insn :=
  let b := bitsAt w
  if op != 0 || !onlyFields w [(16, 103)] || b 72 10 == 0 then illegalInsn
  else if 10 < b 16 4 then .illegal 2
  else if usesScales (b 16 4) && b 109 10 == 0 then illegalInsn
  else .mma ⟨b 16 4, b 20 1 == 1, b 21 1 == 1, b 22 1, b 23 6, b 29 1, b 30 7, b 37 7 + 1, b 44 1 == 1, b 45 3, b 48 24,
    b 72 10, b 82 3, b 85 24, b 109 10⟩

/-- ROW (R98). -/
def decodeRow (w op : Nat) : Insn :=
  let b := bitsAt w
  match rowKinds[op]? with
  | some k => checked w [(16, 56)] true
      (.row k ⟨b 16 5, b 21 5, b 26 5, b 31 5, b 36 2, b 38 1 == 1, b 39 1 == 1, BitVec.ofNat 32 (b 40 32)⟩)
  | none => illegalInsn

/-- CVT (R99, R100). -/
def decodeCvt (w op : Nat) : Insn :=
  let b := bitsAt w
  checked w [(16, 76)] (op == 0 && decide (b 16 4 ≤ 10) && b 16 4 != 6 && decide (b 22 5 + b 27 2 ≤ 31))
    (.cvt ⟨b 16 4, b 20 2, b 22 5, b 27 2 + 1, b 29 1 == 1, b 30 5, b 35 3, b 38 24, b 62 3, b 65 24, b 89 3⟩)

/-- MOV (R99, R101). -/
def decodeMov (w op : Nat) : Insn :=
  let b := bitsAt w
  match op with
  | 0 => checked w [(16, 36)] (decide (b 21 4 ≤ 6)) (.load (b 16 5) (b 21 4) (b 25 3) (b 28 24))
  | 1 => checked w [(16, 17)] (decide (b 29 2 + (b 31 2 + 1) ≤ 4) && decide (b 16 5 + b 31 2 ≤ 31))
      (.accrd (b 16 5) (b 21 1) (b 22 7) (b 29 2) (b 31 2 + 1))
  | _ => illegalInsn

/-- RMO (R102). -/
def decodeRmo (w op : Nat) : Insn :=
  let b := bitsAt w
  let o := fun k : RmoKind => Insn.rmo ⟨k, b 16 2, b 18 3, b 21 3, b 24 24, b 48 17, b 65 48, b 113 15 + 1⟩
  match op with
  | 0 => checked w [(16, 112)] true (o .put)
  | 1 => checked w [(16, 112)] true (o .get)
  | 2 => checked w [(16, 112)] true (o .putSignal)
  | 3 => checked w [(16, 112)] (decide (b 16 2 ≤ 1)) (o .atomicAdd)
  | _ => illegalInsn

/-- AUX unit 0, the row-statistics unit (R192). -/
def decodeRs (w op : Nat) : Insn :=
  let b := bitsAt w
  let u := (16, 4)
  match op with
  | 0 => checked w [u, (30, 7), (37, 7)] (decide (b 30 7 + b 37 7 + 1 ≤ 128)) (.rsInit (b 30 7) (b 37 7 + 1))
  | 1 => checked w [u, (20, 17)] (decide (b 20 5 ≤ 30)) (.rsMax (b 20 5) (b 25 5) (b 30 7))
  | 2 => checked w [u, (25, 12)] true (.rsSum (b 25 5) (b 30 7))
  | 3 => checked w [u, (20, 5), (30, 7)] (decide (b 20 5 ≤ 30)) (.rsFinal (b 20 5) (b 30 7))
  | 4 => checked w [u, (25, 12)] true (.rsLoad (b 25 5) (b 30 7))
  | 5 => checked w [u, (20, 5), (30, 7)] true (.rsStore (b 20 5) (b 30 7))
  | 6 => checked w [u, (20, 69)]
      (decide (b 29 3 ≤ 5) && b 60 4 != 0 && decide (b 60 4 ≤ 8) &&
        !(b 20 1 == 0 && b 64 1 == 1 && decide (b 60 4 * 32 ≤ 192)))
      (.pstage ⟨b 20 1 == 1, b 21 1 == 1, b 22 1, b 23 6, b 29 3 + 1, b 32 3, b 35 24, b 59 1 == 1, b 60 4 * 32,
        b 64 1 == 1, b 65 24⟩)
  | 7 => checked w [u, (20, 59)] (b 75 4 != 0 && decide (b 75 4 ≤ 8))
      (.pclose ⟨b 20 1 == 1, b 21 3, b 24 24, b 48 3, b 51 24, b 75 4 * 32⟩)
  | _ => illegalInsn

/-- AUX unit 1, the convolution transform unit (R214, R225, R228, R231, R234). -/
def decodeWx (w op : Nat) : Insn :=
  let b := bitsAt w
  match op with
  | 0 => checked w [(16, 92)] (b 61 10 != 0 && (b 20 2 != 0 || b 98 10 != 0))
      (.wxin ⟨b 20 2, b 22 3, b 25 3, b 28 6, b 34 3, b 37 24, b 61 10, b 71 3, b 74 24, b 98 10⟩)
  | 1 => checked w [(16, 27)]
      (b 29 7 != 0 && decide (b 38 5 + (if b 20 1 == 1 then 16 else 4) ≤ 32))
      (.wxout ⟨b 20 1 == 1, b 21 1, b 22 7, b 29 7, b 36 2, b 38 5⟩)
  | 2 => checked w [(16, 47)] (decide (b 51 3 < b 39 3 + 1) && decide (b 54 3 < b 42 3 + 1))
      (.pool ⟨b 20 1 == 1, b 21 1 == 1, b 22 2, b 24 3, b 27 3, b 30 3, b 33 6, b 39 3 + 1, b 42 3 + 1, b 45 3 + 1,
        b 48 3 + 1, b 51 3, b 54 3, b 57 6 + 1⟩)
  | 3 => checked w [(16, 34)] (b 43 1 == 1 || decide (b 31 12 + 1 ≤ 255))
      (.argmax ⟨b 20 2, b 22 3, b 25 3, b 28 3, b 31 12 + 1, b 43 1 == 1, b 44 6 + 1⟩)
  | _ => illegalInsn

/-- Decodes a 128-bit instruction word (R94). (DESIGN CHOICE, log entry 4; DEDUCED, log entry 12.) -/
def decodeInsn (w : Nat) : Insn :=
  let op := bitsAt w 4 6
  if bitsAt w 10 6 != 0 then illegalInsn
  else match bitsAt w 0 4 with
    | 0 => decodeCtl w op
    | 1 => decodeStg w op
    | 2 => decodeMma w op
    | 3 => decodeRow w op
    | 4 => decodeCvt w op
    | 5 => decodeMov w op
    | 6 => decodeRmo w op
    | 7 =>
      match bitsAt w 16 4 with
      | 0 => decodeRs w op
      | 1 => decodeWx w op
      | _ => illegalInsn
    | _ => illegalInsn

/-- An array's address register; a0 always reads 0 (R93). (DEDUCED, log entry 14.) -/
def ArrayState.a (s : ArrayState) (r : Nat) : Nat :=
  if r % 8 = 0 then 0 else (s.areg[r % 8]'(Nat.mod_lt _ (by decide))).toNat

/-- Writes an address register; a0 keeps reading 0 (R93). -/
def ArrayState.setA (s : ArrayState) (r v : Nat) : ArrayState :=
  if r % 8 = 0 then s else { s with areg := s.areg.set (r % 8) (BitVec.ofNat 32 v) (Nat.mod_lt _ (by decide)) }

/-- A loop counter (R93). -/
def ArrayState.c (s : ArrayState) (r : Nat) : Nat := (s.creg[r % 4]'(Nat.mod_lt _ (by decide))).toNat

/-- Writes a loop counter. -/
def ArrayState.setC (s : ArrayState) (r v : Nat) : ArrayState :=
  { s with creg := s.creg.set (r % 4) (BitVec.ofNat 16 v) (Nat.mod_lt _ (by decide)) }

/-- Lane l of vector register r (R93). -/
def ArrayState.lane (s : ArrayState) (r l : Nat) : Word := SMap.look 0 s.vreg (64 * (r % 32) + l)

/-- The 64 lanes of a vector register. -/
def ArrayState.v (s : ArrayState) (r : Nat) : List Word := (List.range 64).map fun l => s.lane r l

/-- Writes the 64 lanes of a vector register. -/
def ArrayState.setV (s : ArrayState) (r : Nat) (xs : List Word) : ArrayState :=
  { s with vreg := SMap.putAll 0 s.vreg (64 * (r % 32)) (xs.take 64) }

/-- A lane mask (R93). -/
def ArrayState.m (s : ArrayState) (r : Nat) : DWord := s.mreg[r % 4]'(Nat.mod_lt _ (by decide))

/-- Writes a lane mask. -/
def ArrayState.setM (s : ArrayState) (r : Nat) (v : DWord) : ArrayState :=
  { s with mreg := s.mreg.set (r % 4) v (Nat.mod_lt _ (by decide)) }

/-- The word fetched at a spool offset of array n (R94: bits [63:0] in the lower eight bytes). -/
def State.fetch (s : State) (n : ArrayNum) (pc : Nat) : Nat := leNat (s.load (spoolBase n + pc) 16)

/-- Whether a spool range is wholly inside the spool and aligned (R93). (DEDUCED, log entry 14.) -/
def spoolOk (a align len : Nat) : Bool := a % align == 0 && decide (a + len ≤ spoolSize)

end Sys2Proof.Machine
end

