-- ==== Sys2Proof/Machine/Flags.lean ====
section
/-!
DEFINITION. The sticky flags and counters of an array's arithmetic (R56, R60, R63, R66, R74, R76, R78) and the rounding
mode in force (R64, R67, R68, R75).
-/

namespace Sys2Proof.Machine

/-- fp32_overflow (R60, R74). (DEDUCED, log entry 22.) -/
def State.noteOverflow (s : State) (n : ArrayNum) (b : Bool) : State :=
  if b then s.raiseBit (F.arrArithStatFp32Overflow n) else s

/-- k clamps or overflows of conversions (R66). -/
def State.noteConvSat (s : State) (n : ArrayNum) (k : Nat) : State :=
  if k = 0 then s else (s.raiseBit (F.arrArithStatConvSat n)).addTo (F.arrSatCountSatCount n) k

/-- conv_nan (R66). -/
def State.noteConvNan (s : State) (n : ArrayNum) (b : Bool) : State :=
  if b then s.raiseBit (F.arrArithStatConvNan n) else s

/-- k int32 accumulators clamp for the first time in their chains (R56). -/
def State.noteIntSat (s : State) (n : ArrayNum) (any : Bool) (k : Nat) : State :=
  let s := if any then s.raiseBit (F.arrArithStatIntSat n) else s
  if k = 0 then s else s.addTo (F.arrSatCountSatCount n) k

/-- k NaN are written or sent (R63): counted, nan_out set, and the first of a kernel reported when nan_report is 1. -/
def State.noteNan (s : State) (n : ArrayNum) (k : Nat) : State :=
  if k = 0 then s
  else
    let s := (s.raiseBit (F.arrArithStatNanOut n)).addTo (F.arrNanCountNanCount n) k
    if s.flag (F.arrArithCtlNanReport n) && !(s.arr n).nanReported then
      let p := s.partOf n
      (s.modArr n fun a => { a with nanReported := true }).report
        { source := n.val, cls := 0x05, severity := 0, part := p, affected := affectedBy p }
    else s

/-- The rounding mode of a conversion's rounding field (R64, R75, R100): 0 is round_mode, whose value 3 acts as 0. The
linear position indexes the stochastic generator (R68). (DESIGN CHOICE, log entry 43.) -/
def State.rounding (s : State) (n : ArrayNum) (rnd pos : Nat) : Rnd :=
  let m := if rnd = 0 then s.get (F.arrArithCtlRoundMode n) else rnd - 1
  match m with
  | 1 => .rtz
  | 2 => .sr (Config.srBits (s.reg (regKey n 0x208)) (s.reg (regKey n 0x14)) (BitVec.ofNat 32 pos)).toNat
  | _ => .rne

/-- fp8_sat in force (R75). -/
def State.fp8Sat (s : State) (n : ArrayNum) : Bool := s.flag (F.arrArithCtlFp8Sat n)

end Sys2Proof.Machine
end

