-- ==== Sys2Proof/Machine/Issue.lean ====
section
/-!
DEFINITION. Issue (R104 to R109, R547): when an array may issue, what its next instruction waits for, the commit point
at a kernel's first issue, and detecting a fault.
-/

namespace Sys2Proof.Machine

/-- Fault codes (R109). -/
def faultSpoolRange : Nat := 5
/-- VAULT_RANGE. -/
def faultVaultRange : Nat := 6
/-- ACC_RANGE. -/
def faultAccRange : Nat := 7
/-- DATA_UNCORRECTABLE. -/
def faultData : Nat := 8

/-- What an instruction's issue comes to. -/
inductive IssueOut where
  /-- It issues; the next instruction follows it. -/
  | done (s : State)
  /-- A jump or a taken loop: the next instruction is at the offset. -/
  | goto (s : State) (pc : Nat)
  /-- It faults with a code and an offending address; what the state already shows stays. -/
  | fault (s : State) (code addr : Nat)

/-- Whether the array's issue stage may act: a kernel runs that has not ended or faulted, no kwait is held, and the
compute section is on, its clock runs and it is restaged (R89, R107, R109, R131, R410, R421). -/
def State.canIssue (s : State) (n : ArrayNum) : Bool :=
  let a := s.arr n
  a.kernel && !a.ending && a.pend.isNone && a.kwait.isNone && a.power == .running && a.clockHold == 0 && !a.restaging
    && s.usable n

/-- Whether units of the array make progress: not while clock-stopped or power-gated, nor while the clock stands for a re-lock or
a re-plan (R410, R421, R434). -/
def State.unitsRun (s : State) (n : ArrayNum) : Bool :=
  (s.arr n).clockHold == 0 && ((s.arr n).power == .running || (s.arr n).power == .draining)

/-- Rows of a pass that the grid has taken: as many as its array cycles in the grid allow, and every row that has landed
(R80, R81). -/
def MmaOp.rowsFed (m : MmaOp) : Nat := max (m.fed / (pairInfo m.pair).cycles) (m.total - m.rows.length)

/-- Whether a pass has fed its last row into the grid (R87). -/
def MmaOp.allFed (m : MmaOp) : Bool := decide (m.total ≤ m.rowsFed)

/-- Planes that a staging of a bank touches overlap a pass not yet fed (R87). -/
def passOnPlanes (a : ArrayState) (bank first count : Nat) : Bool :=
  a.mmaQ.any fun m => !m.allFed && m.bank.val == bank && decide (first ≤ m.planeNo) && decide (m.planeNo < first + count)

/-- Array cycles pass by in the grid: they go to the oldest pass that still feeds rows, and what it leaves to the next
(R81). (DESIGN CHOICE, log entry 15.) -/
def feedPasses : Nat → List MmaOp → List MmaOp
  | _, [] => []
  | 0, q => q
  | c + 1, m :: rest =>
    let need := m.total * (pairInfo m.pair).cycles - max m.fed ((m.total - m.rows.length) * (pairInfo m.pair).cycles)
    if c + 1 ≤ need then { m with fed := m.fed + (c + 1) } :: rest
    else { m with fed := m.fed + need } :: feedPasses (c + 1 - need) rest

/-- Array cycles in which the grid has taken rows of the passes of a queue (R112). -/
def fedCycles (q : List MmaOp) : Nat := (q.map (·.fed)).sum

/-- A staging instruction's waits (R85, R87, R88, R105): a full queue; passes on its planes; on a change of the bank's
pair, passes on any plane of the bank. -/
def stagerWaits (a : ArrayState) (pair bank first count : Nat) : Bool :=
  decide (4 ≤ a.stgQ.length) ||
    (if ((a.bankPair[bank % 2]'(Nat.mod_lt _ (by decide))).map (·.val)).getD pair = pair
      then passOnPlanes a bank first count
      else passOnPlanes a bank 0 64)

/-! ### The row unit, the mover and the transform unit (R104, R105) -/

/-- The set of n numbers from r on. -/
def regSet (w r n : Nat) : BitVec w := (List.range n).foldl (fun m j => m ||| BitVec.ofNat w (2 ^ (r + j))) 0

/-- Array cycles of a ROW operation: 64 lanes at the lane results per cycle of R71. -/
def RowKind.cycles : RowKind → Nat
  | .exp2 => 2
  | .log2 => 2
  | .recip => 2
  | .rsqrt => 2
  | _ => 1

/-- The vector registers that a ROW operation reads (R98). -/
def RowOps.reads (o : RowOps) (k : RowKind) : BitVec 32 :=
  let a := regSet 32 o.va 1
  let b := if o.bImm then 0 else regSet 32 o.vb 1
  match k with
  | .abs => a
  | .neg => a
  | .exp2 => a
  | .log2 => a
  | .recip => a
  | .rsqrt => a
  | .reduceSum => a
  | .reduceMax => a
  | .fma => a ||| b ||| regSet 32 o.vc 1
  | _ => a ||| b

/-- Whether a ROW operation is a compare, which writes a mask and no register (R98). -/
def RowKind.isCompare : RowKind → Bool
  | .cmpLt => true
  | .cmpLe => true
  | .cmpEq => true
  | _ => false

/-- A ROW instruction in its unit (R71, R98, R104, R105). -/
def RowOps.work (o : RowOps) (k : RowKind) : UnitOp where
  unit := .row
  left := k.cycles
  tail := 0
  readsV := o.reads k
  writesV := if k.isCompare then 0 else regSet 32 o.vd 1
  readsM := if o.masked ∨ k = .select then regSet 4 o.mask 1 else 0
  writesM := if k.isCompare then regSet 4 o.mask 1 else 0
  half := none

/-- An op of the row-statistics unit, which counts as a ROW instruction and completes 4 array cycles after it issues (R191):
the registers it reads and writes and the masks it writes. -/
def statWork (readsV writesV : BitVec 32) (writesM : BitVec 4) : UnitOp where
  unit := .row
  left := 1
  tail := 3
  readsV := readsV
  writesV := writesV
  readsM := 0
  writesM := writesM
  half := none

/-- An instruction that reads and writes the spool alone, with its unit, its cycles and what follows them. -/
def spoolWork (unit : UnitName) (left tail : Nat) : UnitOp where
  unit := unit
  left := left
  tail := tail
  readsV := 0
  writesV := 0
  readsM := 0
  writesM := 0
  half := none

/-- Elements that the transform unit takes in an array cycle, r of R215: 8 for int8 and fp8, 4 for bf16. -/
def wxRate (fmt : Nat) : Nat := if fmt = 3 then 4 else 8

/-- What an instruction of the row unit, the mover or the transform unit is while it runs: the cycles of R71, R100, R101, R191,
R196 and R215, the registers and masks it reads and writes and its accumulator half; none for every other instruction.
(DESIGN CHOICE, log entry 15.) -/
def unitWork : Insn → Option UnitOp
  | .row k o => some (o.work k)
  | .cvt o => some { spoolWork .row o.n 0 with
      readsV := regSet 32 o.vs o.n ||| (if o.supplied then regSet 32 o.vsc 1 else 0) }
  | .load vd _ _ _ => some { spoolWork .mover 1 0 with writesV := regSet 32 vd 1 }
  | .accrd vd half _ _ n => some { spoolWork .mover n 0 with writesV := regSet 32 vd n, half := some half }
  | .rsInit _ _ => some (statWork 0 0 0)
  | .rsMax vd va _ => some (statWork (regSet 32 va 1) (regSet 32 vd 2) 0)
  | .rsSum va _ => some (statWork (regSet 32 va 1) 0 0)
  | .rsFinal vd _ => some (statWork 0 (regSet 32 vd 2) (regSet 4 3 1))
  | .rsLoad va _ => some (statWork (regSet 32 va 1) 0 0)
  | .rsStore vd _ => some (statWork 0 (regSet 32 vd 1) 0)
  | .pclose o => some (spoolWork .row (o.d + 16) 0)
  | .wxin o => some (spoolWork .aux (ceilDiv (if o.fmt = 0 then 16 else 36) (wxRate o.fmt)) 12)
  | .wxout o => some { spoolWork .aux (ceilDiv (if o.f4 then 36 else 16) 4) 8 with
      writesV := regSet 32 o.vd (if o.f4 then 16 else 4), half := some o.half }
  | .pool o => some (spoolWork .aux (o.count * ceilDiv (o.kh * o.kw) (wxRate o.fmt)) 10)
  | .argmax o => some (spoolWork .aux (o.count * ceilDiv (o.channels * mapElem o.fmt) 256) 10)
  | _ => none

/-- An array with an instruction in its unit's queue (R104). -/
def ArrayState.enter (i : Insn) (a : ArrayState) : ArrayState :=
  match unitWork i with
  | some o => { a with unitQ := a.unitQ ++ [o] }
  | none => a

/-- One array cycle of the units: in each, the oldest instruction that still occupies it goes on; an instruction that no longer
does writes its last result when its tail has passed, in issue order (R104, R191, R215). `taken` are the units whose cycle an
earlier instruction has, `open_` those with an earlier instruction not completed. -/
def unitCycle (taken open_ : List UnitName) : List UnitOp → List UnitOp
  | [] => []
  | o :: t =>
    if 0 < o.left then
      if taken.contains o.unit then o :: unitCycle taken (o.unit :: open_) t
      else if o.left = 1 ∧ o.tail = 0 ∧ open_.contains o.unit = false then unitCycle (o.unit :: taken) open_ t
      else { o with left := o.left - 1 } :: unitCycle (o.unit :: taken) (o.unit :: open_) t
    else if o.tail ≤ 1 ∧ open_.contains o.unit = false then unitCycle taken open_ t
    else { o with tail := o.tail - 1 } :: unitCycle taken (o.unit :: open_) t

/-- Array cycles pass by in the units. -/
def unitCycles : Nat → List UnitOp → List UnitOp
  | 0, q => q
  | c + 1, q => unitCycles c (unitCycle [] [] q)

/-- Whether a unit's queue holds four instructions that still occupy it (R104). (DESIGN CHOICE, log entry 15.) -/
def unitFull (a : ArrayState) (u : UnitName) : Bool :=
  decide (4 ≤ (a.unitQ.filter fun o => o.unit == u && decide (0 < o.left)).length)

/-- Whether a unit has an instruction that has not completed (R95). -/
def unitBusy (a : ArrayState) (u : UnitName) : Bool := a.unitQ.any fun o => o.unit == u

/-- Whether an instruction must wait for a vector register or a mask (R105): an earlier one still writes a register that it
reads or writes, or still reads one that it writes. -/
def regsWait (a : ArrayState) (o : UnitOp) : Bool :=
  a.unitQ.any fun q =>
    (q.writesV &&& (o.readsV ||| o.writesV)) != 0 || (q.readsV &&& o.writesV) != 0
      || (q.writesM &&& (o.readsM ||| o.writesM)) != 0 || (q.readsM &&& o.writesM) != 0

/-- Whether an instruction of the row unit, the mover or the transform unit waits for its unit's queue, for its registers, or,
where it reads an accumulator half, for the passes into that half (R105, R214). -/
def unitWaits (a : ArrayState) (o : UnitOp) : Bool :=
  unitFull a o.unit || regsWait a o || (match o.half with
    | some h => a.mmaQ.any fun m => m.half.val == h
    | none => false)

/-- The interlocks of R105, with R87 and R95: whether an instruction waits at issue. -/
def interlock (a : ArrayState) : Insn → Bool
  | .stg o => stagerWaits a o.pair o.bank o.first o.count
  | .pstage o => stagerWaits a (if o.int4 then 5 else 3) o.bank o.plane 1
  | .mma o => decide (4 ≤ a.mmaQ.length) || (a.stgQ.any fun q => q.bank.val == o.bank)
      || a.unitQ.any fun q => q.half == some o.half
  | .rmo _ => decide (4 ≤ a.rmoQ.length)
  | .fence mask =>
    (bitsAt mask 0 1 == 1 && !a.mmaQ.isEmpty) || (bitsAt mask 1 1 == 1 && !a.stgQ.isEmpty)
      || (bitsAt mask 2 1 == 1 && unitBusy a .row) || (bitsAt mask 3 1 == 1 && unitBusy a .mover)
      || (bitsAt mask 4 1 == 1 && !a.rmoQ.isEmpty) || (bitsAt mask 5 1 == 1 && unitBusy a .aux)
  | i =>
    match unitWork i with
    | some o => unitWaits a o
    | none => false

/-- The register rows of an array's window that hold staged fields (R12). -/
def stagedRegs (rs : List RegDef) : List RegDef := rs.filter fun r => r.fields.any fun f => f.access == .rws

/-- Applies every staged field of one register (R14). -/
def State.applyStaged (s : State) (key : Nat) (r : RegDef) : State :=
  r.fields.foldl (fun s f =>
    if f.access == .rws then
      s.set ⟨key, f.lo, f.width, false⟩ (s.get ⟨key + 0x80000, f.lo, f.width, false⟩)
    else s) s

/-- The array's commit point: every RWS field of its window applies (R108). -/
def State.commitArray (s : State) (n : ArrayNum) : State :=
  (stagedRegs arrayRegs).foldl (fun s r =>
    (List.range r.count).foldl (fun s i => s.applyStaged (regKey n (r.off + i * r.stride)) r) s) s

/-- The first issue of a kernel is the commit point (R108). -/
def State.commitIfFirst (s : State) (n : ArrayNum) : State :=
  if (s.arr n).committed then s
  else (s.commitArray n).modArr n fun a => { a with committed := true }

/-- Detects a fault: the array stops issuing, and the fault is recorded once its issued instructions have completed
(R109). -/
def State.detect (s : State) (n : ArrayNum) (f : PendFault) : State :=
  s.modArr n fun a => if a.pend.isSome then a else { a with pend := some f, pendAt := s.time }

/-- The last place an instruction is fetched from (R547). -/
def lastFetch : Nat := 0x7FFFF0

/-- Moves past an issued instruction; one at the last place that does not jump or end faults (R547). -/
def State.advance (s : State) (n : ArrayNum) : State :=
  let pc := (s.arr n).pc
  if pc = lastFetch then s.detect n ⟨faultSpoolRange, 0, lastFetch, 0x800000⟩
  else s.modArr n fun a => { a with pc := pc + 16 }

/-- Issues a word fetched at the array's place: an illegal word faults; one whose row this is not, or that waits, has no
effect; any other issues, does what its row says and enters its unit's queue (R94, R104, R105, R108, R109). -/
def State.issueWord (s : State) (n : ArrayNum) (word : Nat) (row : Insn → Option (State → IssueOut)) : State :=
  match decodeInsn word with
  | .illegal code => s.detect n ⟨code, word % 16, (s.arr n).pc, 0⟩
  | i =>
    match row i with
    | none => s
    | some run =>
      if interlock (s.arr n) i then s
      else
        match run (s.commitIfFirst n) with
        | .done t => (t.modArr n (ArrayState.enter i)).advance n
        | .goto t pc' => t.modArr n fun a => { a with pc := pc' }
        | .fault t code addr => t.detect n ⟨code, word % 16, (s.arr n).pc, addr⟩

/-- One array's issue row: `row` says what the row's instruction does and answers none for every other instruction.
A bad fetch or an illegal word faults whichever row is given; a row that is not the next instruction's, or that waits,
has no effect. (DESIGN CHOICE, log entries 4, 69.) -/
def State.issue (s : State) (n : ArrayNum) (row : Insn → Option (State → IssueOut)) : State :=
  if !s.canIssue n then s
  else
    let pc := (s.arr n).pc
    if pc % 16 ≠ 0 ∨ lastFetch < pc then s.detect n ⟨faultSpoolRange, 0, pc, pc⟩
    else
      match s.badIn (spoolBase n + pc) 16 with
      | some w => (s.eccReport w 6 true).detect n ⟨faultData, 0, pc, w - spoolBase n⟩
      | none =>
        let s := s.correct (spoolBase n + pc) 16 6
        s.issueWord n (s.fetch n pc) row

/-- A spool read by one of the array's own units (R92): the bytes, or the fault of an uncorrectable word, reported with
reader code 6. -/
def State.unitRead (s : State) (n : ArrayNum) (off len : Nat) : State × Except Nat (List Byte) :=
  match s.badIn (spoolBase n + off) len with
  | some w => (s.eccReport w 6 true, .error (w - spoolBase n))
  | none => (s.correct (spoolBase n + off) len 6, .ok (s.load (spoolBase n + off) len))

/-- The first uncorrectable word that a spool write would have to merge into (R92); a write of no bytes merges into none. -/
def State.mergeBad (s : State) (a n : Nat) : Option Nat := s.ue.find? fun w => mergesUnit a n w

/-- A spool write by one of the array's own units: its merges read their words, counted and reported with reader code 6, and
a merge into an uncorrectable word is dropped and faults the kernel (R92). -/
def State.unitWrite (s : State) (n : ArrayNum) (off : Nat) (bs : List Byte) : State × Option Nat :=
  let a := spoolBase n + off
  ((s.mergeReads a bs.length 6).store a bs, (s.mergeBad a bs.length).map fun w => w - spoolBase n)

end Sys2Proof.Machine
end

