-- ==== Sys2Proof/Machine/ArrayControl.lean ====
section
/-!
DEFINITION. The CTL instructions (R95, R131, R132, R547).
-/

namespace Sys2Proof.Machine

/-- A knot's value (R129). -/
def State.knot (s : State) (n : ArrayNum) (i : Nat) : Word := SMap.look 0 (s.arr n).knots (i % 2048)

/-- Sets a knot. -/
def State.setKnot (s : State) (n : ArrayNum) (i : Nat) (v : Word) : State :=
  s.modArr n fun a => { a with knots := SMap.put 0 a.knots (i % 2048) v }

/-- Whether a knot has reached a value in wrapping order (R131). -/
def reached (knot v : Word) : Bool := decide ((knot - v).toNat < 2 ^ 31)

/-- A jump's target, or the fault of a bad one (R547). -/
def State.jumpTo (s : State) (imm : Nat) : IssueOut :=
  if imm % 16 = 0 ∧ imm ≤ lastFetch then .goto s imm else .fault s faultSpoolRange imm

/-- nop: none (R95). -/
def execNop (n : ArrayNum) (s : State) : Host.Outcome State Fault Refusal :=
  .next (s.issue n fun i => match i with
    | .nop => some fun s => .done s
    | _ => none)

/-- end: the kernel ends once every issued instruction has completed (R95). (DEDUCED, log entry 13.) -/
def execEnd (n : ArrayNum) (s : State) : Host.Outcome State Fault Refusal :=
  .next (s.issue n fun i => match i with
    | .kend => some fun s => .goto (s.modArr n fun a => { a with ending := true }) (s.arr n).pc
    | _ => none)

/-- jump: next instruction at spool offset imm (R95, R547). -/
def execJump (n : ArrayNum) (s : State) : Host.Outcome State Fault Refusal :=
  .next (s.issue n fun i => match i with
    | .jump imm => some fun s => s.jumpTo imm
    | _ => none)

/-- loop: if c[d] is not 0, count it down and jump; otherwise fall through (R95, R547). A taken loop whose target is bad
faults at the loop with the counter as it was (assumption log). (DEDUCED, log entry 13.) -/
def execLoop (n : ArrayNum) (s : State) : Host.Outcome State Fault Refusal :=
  .next (s.issue n fun i => match i with
    | .loop d imm => some fun s =>
      let c := (s.arr n).c d
      if c = 0 then .done s
      else match s.jumpTo imm with
        | .goto t pc => .goto (t.modArr n fun a => a.setC d (c - 1)) pc
        | o => o
    | _ => none)

/-- setc: c[d] ← imm[15:0] (R95). -/
def execSetc (n : ArrayNum) (s : State) : Host.Outcome State Fault Refusal :=
  .next (s.issue n fun i => match i with
    | .setc d imm => some fun s => .done (s.modArr n fun a => a.setC d imm)
    | _ => none)

/-- seta: a[d] ← imm (R95). -/
def execSeta (n : ArrayNum) (s : State) : Host.Outcome State Fault Refusal :=
  .next (s.issue n fun i => match i with
    | .seta d imm => some fun s => .done (s.modArr n fun a => a.setA d imm)
    | _ => none)

/-- adda: a[d] ← a[d] + imm, modulo 2^32 (R95). -/
def execAdda (n : ArrayNum) (s : State) : Host.Outcome State Fault Refusal :=
  .next (s.issue n fun i => match i with
    | .adda d imm => some fun s => .done (s.modArr n fun a => a.setA d (a.a d + imm))
    | _ => none)

/-- fence: waits until every earlier instruction of each named unit has completed (R95, R105). -/
def execFence (n : ArrayNum) (s : State) : Host.Outcome State Fault Refusal :=
  .next (s.issue n fun i => match i with
    | .fence _ => some fun s => .done s
    | _ => none)

/-- kwait reaches issue: satisfied at once, or held (R131, R132). -/
def execKwait (n : ArrayNum) (s : State) : Host.Outcome State Fault Refusal :=
  .next (s.issue n fun i => match i with
    | .kwait k v t => some fun s =>
      if reached (s.knot n k) v then .done s
      else .goto (s.modArr n fun a => { a with kwait := some ⟨k, v, t, 0, false⟩ }) (s.arr n).pc
    | _ => none)

/-- A held kwait whose knot has reached its value completes (R131); a condition true in the cycle of the timeout satisfies
it, and a later one does not (R132). -/
def execKwaitSatisfied (n : ArrayNum) (s : State) : Host.Outcome State Fault Refusal :=
  .next (match (s.arr n).kwait with
    | some w =>
      if reached (s.knot n w.knot) w.value ∧ w.expired = false ∧ (s.arr n).power = .running ∧ (s.arr n).clockHold = 0
          ∧ (s.arr n).restaging = false then
        (s.modArr n fun a => { a with kwait := none }).advance n
      else s
    | none => s)

/-- A held kwait whose count reaches its timeout with its condition false faults KNOT_TIMEOUT with the knot's 17-bit number
(R132); an increment that comes after that cycle changes nothing. -/
def execKnotTimeout (n : ArrayNum) (s : State) : Host.Outcome State Fault Refusal :=
  .next (match (s.arr n).kwait with
    | some w =>
      if w.timeout ≠ 0 ∧ w.timeout.toNat ≤ w.counted ∧ (w.expired ∨ reached (s.knot n w.knot) w.value = false) then
        (s.modArr n fun a => { a with kwait := none }).detect n ⟨9, 0, (s.arr n).pc, n.val * 2048 + w.knot⟩
      else s
    | none => s)

end Sys2Proof.Machine
end

