-- ==== Sys2Proof/Machine/Commands.lean ====
section
/-!
DEFINITION. Commands of Spindle as they are carried through the module: reading their fields (R331), making a completion
(R332, R334, R357), and the commands that wait for arrays or clears (R335, R341).
-/

namespace Sys2Proof.Machine

/-! ### Status codes (R338) -/

/-- OK. -/
def stOk : Nat := 0x00
/-- BUSY. -/
def stBusy : Nat := 0x01
/-- DENIED. -/
def stDenied : Nat := 0x02
/-- BAD_ARGUMENT. -/
def stBad : Nat := 0x03
/-- NOT_IN_LIFECYCLE. -/
def stLifecycle : Nat := 0x04
/-- SIG_INVALID. -/
def stSig : Nat := 0x05
/-- INSUFFICIENT_KV. -/
def stKv : Nat := 0x08
/-- PAGE_EXHAUSTED. -/
def stPages : Nat := 0x09
/-- TTL_EXPIRED. -/
def stTtl : Nat := 0x0A
/-- COMPLETED. -/
def stCompleted : Nat := 0x0B
/-- CANCELLED. -/
def stCancelled : Nat := 0x0C
/-- CANCEL_LATE. -/
def stLate : Nat := 0x0D
/-- CAP_SETTLING. -/
def stSettling : Nat := 0x12
/-- CAP_BELOW_FLOOR. -/
def stFloor : Nat := 0x13
/-- CFG_WRITE_BUSY. -/
def stCfgBusy : Nat := 0x14
/-- CLAIM_REJECTED. -/
def stClaim : Nat := 0x15
/-- SENSOR_DIVERGE. -/
def stDiverge : Nat := 0x16
/-- ARRAY_UNUSABLE. -/
def stUnusable : Nat := 0x17
/-- LMS_LOW. -/
def stLmsLow : Nat := 0x18
/-- LMS_EXHAUSTED. -/
def stLmsOut : Nat := 0x19
/-- IDENTITY_MISMATCH. -/
def stIdentity : Nat := 0x1A
/-- HEALTH_UNCONFIRMED. -/
def stHealth : Nat := 0x1B
/-- FATAL. -/
def stFatal : Nat := 0x1F

/-! ### Spindle's halves (R352, R360) -/

/-- A half's index. -/
def halfIx : Half → Fin 2
  | .a => 0
  | .b => 1

/-- The other half. -/
def otherHalf : Half → Half
  | .a => .b
  | .b => .a

/-- A half's state code (R352). -/
def State.halfState (s : State) (h : Half) : Nat :=
  match h with
  | .a => s.get F.twnStatusStateA
  | .b => s.get F.twnStatusStateB

/-- A half's claim. -/
def State.claim (s : State) (h : Half) : Nat :=
  match h with
  | .a => s.get F.twnClaimAClaim
  | .b => s.get F.twnClaimBClaim

/-- The active half of TWN_STATUS. -/
def State.activeHalf (s : State) : Half := if s.flag F.twnStatusActiveHalf then .b else .a

/-- The half on whose behalf an access by Spindle is made: the active one, or in a gap the incoming half once it holds the
gate claim and the outgoing half before. (DESIGN CHOICE, log entry 35.) -/
def State.spindleHalf (s : State) : Half :=
  if s.flag F.twnStatusGap && (s.twn.phase == .verified || s.twn.phase == .restored || s.twn.phase == .reconciled) then
    s.twn.incoming
  else s.activeHalf

/-! ### Fields of a command (R331) -/

/-- The opcode. -/
def Cmd.op (c : Cmd) : Nat := fieldAt c.bytes 0 2
/-- The partition byte. -/
def Cmd.partByte (c : Cmd) : Nat := fieldAt c.bytes 4 1
/-- The named partition. -/
def Cmd.part? (c : Cmd) : Option PartNum := allParts[c.partByte]?
/-- The flags byte. -/
def Cmd.flags (c : Cmd) : Nat := fieldAt c.bytes 5 1
/-- ordered (R334). (DEDUCED, log entry 30.) -/
def Cmd.ordered (c : Cmd) : Bool := c.flags % 2 == 1 || c.op / 256 == 9
/-- An argument of n bytes. -/
def Cmd.arg (c : Cmd) (off n : Nat) : Nat := fieldAt c.bytes off n

/-- Whether two commands have one source: a pair, or the management channel (R334). -/
def sameSource : Source → Source → Bool
  | .pair a, .pair b => a == b
  | .mgmt _, .mgmt _ => true
  | _, _ => false

/-- The commands that change no saved state and write only a taken entry (R357): those of R357, the queries, KERNEL_RUN,
KNOT_SET and the PRBS commands. (DESIGN CHOICE, log entry 35.) -/
def unsaved (op : Nat) : Bool :=
  op == 0x0101 || op == 0x0102 || op == 0x0103 || op == 0x0206 || op == 0x0307 || op == 0x0308 || op == 0x0404
    || op == 0x0504 || op == 0x0605 || op == 0x0702 || op == 0x0703 || op == 0x0704 || op == 0x0902 || op == 0x0A04

/-- An outstanding command. -/
def State.cmd (s : State) (c : CmdRef) : Option Cmd := s.spn.cmds.find? fun m => m.ref == c

/-- Changes an outstanding command. -/
def State.modCmd (s : State) (c : CmdRef) (f : Cmd → Cmd) : State :=
  { s with spn := { s.spn with cmds := s.spn.cmds.map fun m => if m.ref = c then f m else m } }

/-- The port that pair k answers through (R43, R329). -/
def State.pairPort (s : State) (k : PairNum) : Port :=
  if s.flag (F.pciLinkBifurcated 0) && decide (8 ≤ k.val) then 1 else 0

/-- The partition a command's source is bound to. -/
def State.sourcePart (s : State) (src : Source) : Option PartNum :=
  match src with
  | .pair k => s.pairPart k
  | .mgmt _ => none

/-! ### Completions -/

/-- How many requesters an arbiter instance has (R304). -/
def shtCount (i : Fin 4) : Nat := if i.val = 0 then 10 else 9

/-- The key of a requester's weight word. -/
def shtWeightKey (i : Fin 4) (r : Nat) : Nat := regKey 0x43 (0x1100 + 0x400 * i.val + 0x20 * r)

/-- A whole register word as a field. -/
def wordFld (key : Nat) : Fld := ⟨key, 0, 32, false⟩

/-- The register fields that Spindle's saved state names (R356, R433): the pairs' bindings, the arbiter's shadows, caps, shares
and modes, the twin period and the warming setting. (DESIGN CHOICE, log entry 46.) -/
def savedFields : List Fld :=
  (allPairs.flatMap fun (k : PairNum) => [F.spnMbStatusBound k, F.spnMbStatusPartition k])
    ++ ((List.finRange 4).flatMap fun (i : Fin 4) => (List.range (shtCount i)).flatMap fun r =>
      [wordFld (shtWeightKey i r + 0x80000), wordFld (shtWeightKey i r + 4 + 0x80000)])
    ++ [F.pwrCapHostCap, F.pwrStatusIsolated, F.pwrStatusOpportunistic, F.twnPeriodHours, F.thmStatusWarmEn, F.thmFloorFloor]
    ++ allParts.map fun (p : PartNum) => F.pwrShareShare p

/-- Spindle's saved state as it stands (R356). -/
def State.saved (s : State) : Saved where
  parts := s.parts
  srv := s.srv
  vid := s.vid
  tags := s.tierTags
  vals := savedFields.map s.get

/-- Adds a write to the ledger (R357), by the half that holds the gate claim, with the saved state that it records; a module
without a ledger writes none (R458). -/
def State.ledger (s : State) (e : LedgerEntry) : State :=
  if s.twn.ledger.placed then
    { s with twn := { s.twn with ledger := { s.twn.ledger with
      pending := s.twn.ledger.pending ++ [(s.get F.twnGateClaimClaim, e, s.saved)] } } }
  else s

/-- Whether a status says that the command's effects took place (R338). -/
def tookPlace (status : Nat) : Bool := status == stOk || status == stSettling || status == stFloor || status == stLmsLow

/-- Completes a command with a status and a result (R332, R334). One that changed saved state owes its done entry to the
ledger, and then its completion goes to the completion writer; one that changes none, or that a check ended at once, owes none
(R357). -/
def State.complete (s : State) (c : CmdRef) (status : Nat) (result : List Byte := []) : State :=
  match s.cmd c with
  | none => s
  | some m =>
    let comp : Completion := {
      status := status, result := bytesAt result 0 40, time := s.time, held := false }
    if unsaved m.op ∨ s.twn.ledger.placed = false ∨ (m.phase = .started ∧ tookPlace status = false) then
      let s := s.modCmd c fun m => { m with phase := .queued, wait := .none, comp := some comp }
      { s with spn := { s.spn with writer := s.spn.writer ++ [c] } }
    else
      (s.modCmd c fun m => { m with phase := .leaving, wait := .none, comp := some comp }).ledger (.done c comp)

/-- A command of class L goes on after its row: what it waits for, with a step entry where it changes saved state (R335,
R357). -/
def State.park (s : State) (c : CmdRef) (w : Wait) : State :=
  let t := s.modCmd c fun m => { m with phase := .running, wait := w }
  if (s.cmd c).any (fun m => unsaved m.op) then t else t.ledger (.step c w)

/-- Whether no half acts on Spindle's commands and deadlines: in a switch-over gap until one has reconciled (R365, R366), where
the half is quarantined (R352), and once a removal has begun (R503). -/
def State.gapHolds (s : State) : Bool :=
  (s.flag F.twnStatusGap && s.twn.phase != .reconciled) || s.halfState s.spindleHalf == 4 || s.board.supply == .removing

/-- Whether Spindle's active half starts commands and acts on events: it is ready, or it has reconciled what the ledger
holds (R366, R367). -/
def State.startsCommands (s : State) : Bool := s.flag F.spnStatusLomletReady || s.twn.phase == .reconciled

/-- Runs a row on a command that has been started and has this opcode; any other command is left alone, and in a gap no
row runs until a half has reconciled (R365). (DESIGN CHOICE, log entry 3.) -/
def State.runCmd (s : State) (c : CmdRef) (op : Nat) (f : Cmd → State → State) : State :=
  match s.cmd c with
  | some m => if m.phase = .started ∧ m.op = op ∧ s.gapHolds = false then f m s else s
  | none => s

/-- A command that names a partition. -/
def State.runPart (s : State) (c : CmdRef) (op : Nat) (f : Cmd → PartNum → State → State) : State :=
  s.runCmd c op fun m s =>
    match m.part? with
    | some p => f m p s
    | none => s.complete c stBad

/-! ### Commands that wait -/

/-- The arrays of a mask whose kernels still run. -/
def State.kernelsOf (s : State) (mask : DWord) : DWord :=
  allArrays.foldl (fun (m : DWord) (n : ArrayNum) => if mask.getLsbD n && (s.arr n).kernel then m ||| BitVec.ofNat 64 (2 ^ n.val) else m) 0

/-- Completes every KERNEL_RUN whose kernels have all ended (R341). (DESIGN CHOICE, log entry 31.) -/
def State.settleKernels (s : State) : State :=
  s.spn.cmds.foldl (fun s m =>
    match m.wait with
    | .kernels mask faulted =>
      if s.kernelsOf mask = 0 then s.complete m.ref stOk (leBytes 8 faulted.toNat) else s
    | _ => s) s

/-- Marks an array's fault in every KERNEL_RUN that waits for it (R341). -/
def State.noteFaulted (s : State) (n : ArrayNum) : State :=
  { s with spn := { s.spn with cmds := s.spn.cmds.map fun m =>
      match m.wait with
      | .kernels mask faulted =>
        if mask.getLsbD n then { m with wait := .kernels mask (faulted ||| BitVec.ofNat 64 (2 ^ n.val)) } else m
      | _ => m } }

/-- Whether a tier clear, queued or still to queue, holds one of the granules. -/
def State.tierClearing (s : State) (first count : Nat) : Bool :=
  (s.tierClears.any fun c => decide (c.first < first + count) && decide (first < c.first + c.count)) ||
    s.parts.toList.any fun (p : Part) => p.todo.any fun x => decide (x.1 < first + count) && decide (first < x.1 + x.2.1)

/-- Completes every MEM_TIER_RELEASE whose clear is done (R341). (DESIGN CHOICE, log entry 31.) -/
def State.settleReleases (s : State) : State :=
  s.spn.cmds.foldl (fun s m =>
    match m.wait with
    | .tierClear first count => if s.tierClearing first count then s else s.complete m.ref stOk
    | _ => s) s

end Sys2Proof.Machine
end

