-- ==== Sys2Proof/Machine/Claims.lean ====
section
/-!
DEFINITION. Spindle's halves and their claims (R352 to R354, R360), the gates' rejections (R361, R362), and the half that
an access by Spindle stands for.
-/

namespace Sys2Proof.Machine

/-- Sets a half's state. -/
def State.setHalfState (s : State) (h : Half) (v : Nat) : State :=
  match h with
  | .a => s.set F.twnStatusStateA v
  | .b => s.set F.twnStatusStateB v

/-- Sets a half's claim. -/
def State.setClaim (s : State) (h : Half) (v : Nat) : State :=
  match h with
  | .a => s.set F.twnClaimAClaim v
  | .b => s.set F.twnClaimBClaim v

/-- The claim that a half about to start takes (R360); the gate claim is the highest issued. -/
def State.newClaim (s : State) (h : Half) : Nat :=
  let g := s.get F.twnGateClaimClaim
  (g - g % 2 + 2 + (halfIx h).val) % 2 ^ 32

/-- A report of class TWIN (R486, R487): cause, claim, gate claim and gap. -/
def State.twinEvent (s : State) (h : Half) (severity status cause claim gap : Nat) : State :=
  s.report {
    source := 0x046, cls := 0x0C, severity := severity, status := status, inst := (halfIx h).val
    affected := (if severity = 0 then s.allPartBits else 0)
    detail := [BitVec.ofNat 8 cause] ++ leBytes 4 claim ++ leBytes 4 (s.get F.twnGateClaimClaim) ++ leBytes 4 gap }

/-- A half's power-down is requested (R364). -/
def State.powerDownHalf (s : State) (h : Half) : State :=
  { s with twn := { s.twn with powerDown := s.twn.powerDown.set (halfIx h).val (some s.time) } }

/-- A half is powered up. -/
def State.powerUpHalf (s : State) (h : Half) : State :=
  { s with twn := { s.twn with
    powered := s.twn.powered.set (halfIx h).val true
    powerDown := s.twn.powerDown.set (halfIx h).val none
    stopped := s.twn.stopped.set (halfIx h).val false } }

/-- A half is quarantined: its record in flash, its cause, its power-down (R353, R354); an earlier quarantine keeps its
cause, and a power-down under way its time (R362, R364). (DEDUCED, log entry 48.) -/
def State.quarantine (s : State) (h : Half) (cause : Nat) : State :=
  let s := if s.halfState h = 4 then s else
    let s := { s with flash := { s.flash with
      quar := s.flash.quar.set (halfIx h).val (some { cause := cause, time := s.time, order := s.flash.quarCount })
      quarCount := s.flash.quarCount + 1 } }
    match h with
    | .a => s.set F.twnQuarCauseA cause
    | .b => s.set F.twnQuarCauseB cause
  let s := s.setHalfState h 4
  if (s.twn.powerDown[(halfIx h).val]).isSome then s else s.powerDownHalf h

/-- Twin control begins a module stop with an escalation code (R372); one under way is left alone (R495). -/
def State.stopModule (s : State) (code : Nat) : State :=
  if s.board.stopping then s
  else
    let s := { s with board := { s.board with stopping := true, stopCode := code, since := s.time } }
    s.set F.spnStatusLomletReady 0

/-! ### Rejections (R361, R362) -/

/-- A rejected write at gate g, the ledger port being 5 (R361, R362): it is counted, and a half that believes itself active
or stepping down, or that a trigger has quarantined, hands in one CLAIM_REJECTED record and issues nothing more.
(DESIGN CHOICE, log entry 35.) -/
def State.gateReject (s : State) (h : Half) (claim g : Nat) : State :=
  let s := if g = 5 then s.bump F.twnRejectLedgerRejected else s.bump (F.twnRejectRejected g)
  let st := s.halfState h
  if st = 2 ∨ st = 3 ∨ st = 4 then
    let cause := if st = 4 then (match h with
      | .a => s.get F.twnQuarCauseA
      | .b => s.get F.twnQuarCauseB) else 7
    let s := (s.quarantine h 7).raiseBit F.twnStatusClaimRejected
    let s : State := { s with twn := { s.twn with stopped := s.twn.stopped.set (halfIx h).val true } }
    s.twinEvent h 2 stClaim cause claim 0
  else s

/-- What a gate does with a write of a half that carries the half's own claim (R352, R361, R362): a half without power, one
that has stopped issuing and a quarantined one with the gate claim write nothing; the gate claim passes, a lower one is
rejected. (DESIGN CHOICE, log entry 35.) -/
def State.gated (s : State) (h : Half) (g : Nat) (accept : State → State) : State :=
  let claim := s.claim h
  let gate := s.get F.twnGateClaimClaim
  if s.twn.powered[(halfIx h).val] = false ∨ s.twn.stopped[(halfIx h).val] = true then s
  else if claim = gate then (if s.halfState h = 4 then s else accept s)
  else if claim < gate then s.gateReject h claim g
  else s

/-- Whether an offset of the shuttle arbiter's window is that of SHT_WEIGHT or SHT_HOLD, whose writes go to the shadow (R12,
R320). -/
def shadowedSht (off : Nat) : Bool :=
  (List.finRange 4).any fun (i : Fin 4) => (List.range (shtCount i)).any fun r =>
    let a := 0x1100 + 0x400 * i.val + 0x20 * r
    off == a || off == a + 4

/-- The gated stage that a register write crosses when Spindle makes it (R361): the arbiter's shadow weights and commit,
KNT_SIGNAL and KNT_VALUE. -/
def gateOfWrite (b off : Nat) : Option Nat :=
  if b = 0x43 then (if off = 0 ∨ 0x80000 ≤ off ∨ shadowedSht off then some 3 else none)
  else if b < 64 then (if off = 0x2010 ∨ (0x4000 ≤ off ∧ off < 0x6000) then some 4 else none)
  else none

end Sys2Proof.Machine
end

