-- ==== Sys2Proof/Machine/Grid.lean ====
section
/-!
DEFINITION. Weight staging and matrix passes (R80 to R89, R96, R97, R194, R195) with the accumulation of R56 to R60.
-/

namespace Sys2Proof.Machine

/-! ### Plane images -/

/-- Element i of a 4-bit plane (R48). -/
def nibbleAt (bs : List Byte) (i : Nat) : Nat := (bs.getD (i / 2) 0).toNat / (if i % 2 = 0 then 1 else 16) % 16

/-- Element index of weight (k, n) in a plane image (R83). -/
def tileIndex (kTotal k n : Nat) : Nat :=
  let kc := kTotal / 48
  (k / kc * 64 + n / 4) * 4 * kc + n % 4 * kc + k % kc

/-- The byte a page block puts at element byte or scale byte i of its plane (R168, R194). Pages are given as their frame
unit's bytes. -/
def pagePlane (b : PageBlock) (pages : List (List Byte)) : List Byte :=
  let elBits := if b.int4 then 4 else 8
  let elem := fun (page : List Byte) (base i : Nat) =>
    if b.int4 then nibbleAt (page.drop base) i else (page.getD (base + i) 0).toNat
  let vBase := if b.int4 then 8 * b.d else 16 * b.d
  let scBase := 2 * vBase
  let at_ := fun e : Nat =>
    let t := e / 16
    let n := t % 64 * 4 + e % 16 / 4
    let k := t / 64 * 4 + e % 4
    if b.isV then
      match pages[k / 32]? with
      | some page =>
        let j := k % 32
        if j < 16 ∧ n < b.d then elem page vBase (j / 4 * 4 * b.d + n / 4 * 16 + n % 4 * 4 + j % 4) else 0
      | none => 0
    else
      match pages[n / 32]? with
      | some page =>
        let j := n % 32
        let ch := k + if b.khalf then 192 else 0
        if j < 16 ∧ ch < b.d then elem page 0 (ch / 4 * 64 + j / 4 * 16 + j % 4 * 4 + ch % 4) else 0
      | none => 0
  let scale := fun i : Nat =>
    let n := i / 6
    let sk := i % 6
    if b.isV then
      match pages[sk]? with
      | some page => if n < b.d then fieldAt page (scBase + 16 + 2 * (n / 32)) 2 else 0x3F80
      | none => 0x3F80
    else
      match pages[n / 32]? with
      | some page =>
        let g := sk + if b.khalf then 6 else 0
        if n % 32 < 16 ∧ 32 * g < b.d then fieldAt page (scBase + 2 * g) 2 else 0x3F80
      | none => 0x3F80
  let els := if elBits = 8 then (List.range 49152).map fun e => BitVec.ofNat 8 (at_ e)
    else (List.range 24576).map fun i => BitVec.ofNat 8 (at_ (2 * i) + 16 * at_ (2 * i + 1))
  els ++ (List.range 1536).flatMap fun i => leBytes 2 (scale i)

/-- Bytes of one frame unit: 32d + 64 or 16d + 64 (R167). -/
def unitBytes (int4 : Bool) (d : Nat) : Nat := (if int4 then 16 * d else 32 * d) + 64

/-- The parts of a page's frame unit that a pstage reads, as offset and length (R167, R168, R194, R195): its K elements of the
chosen half or its V elements, and the whole scale line. -/
def PageBlock.parts (b : PageBlock) : List (Nat × Nat) :=
  let el := if b.int4 then 8 * b.d else 16 * b.d
  if b.isV then [(el, el), (2 * el, 64)]
  else
    let per := if b.int4 then 8 else 16
    let lo := if b.khalf then 192 else 0
    let cnt := if b.khalf then b.d - 192 else min b.d 192
    [(per * lo, per * cnt), (2 * el, 64)]

/-- The bytes of vault or spool that a plane's source reads: device address and length pieces (R83, R194). -/
def PlaneSrc.pieces (n : ArrayNum) (pair : Fin 11) : PlaneSrc → List (Nat × Nat)
  | .vault o => [(vaultBase n + o, (pairInfo pair).planeBytes)]
  | .spool o => [(spoolBase n + o, (pairInfo pair).planeBytes)]
  | .pages b => b.units.flatMap fun u => b.parts.map fun p => (vaultBase n + u + p.1, p.2)

/-- The plane image that a source gives (R83, R194). -/
def State.planeImage (s : State) (n : ArrayNum) (pair : Fin 11) : PlaneSrc → List Byte
  | .vault o => s.load (vaultBase n + o) (pairInfo pair).planeBytes
  | .spool o => s.load (spoolBase n + o) (pairInfo pair).planeBytes
  | .pages b => pagePlane b (b.units.map fun u => s.load (vaultBase n + u) (unitBytes b.int4 b.d))

/-- The bytes that staging a plane counts (R85, R195). -/
def PlaneSrc.counted (pair : Fin 11) : PlaneSrc → Nat
  | .pages b =>
    let e := b.units.length * (if b.int4 then 8 * b.d else 16 * b.d)
    (if b.khalf then e / 2 else e) + 64 * b.units.length
  | _ => (pairInfo pair).planeBytes

/-- A device address as the vault or spool offset that a fault shows (R109). -/
def localOffset (a : Nat) : Nat :=
  match regionOf a with
  | .vault _ o => o
  | .spool _ o => o
  | _ => a

/-- Copies one plane into a bank: the new state, or the uncorrectable word met (R85, R145 row 0). -/
def State.stagePlane (s : State) (n : ArrayNum) (pair : Fin 11) (bank : Fin 2) (plane : Nat) (src : PlaneSrc) :
    State × Option Nat :=
  let ps := src.pieces n pair
  match ps.findSome? fun p => s.badIn p.1 p.2 with
  | some w => (s.eccReport w 0 true, some w)
  | none =>
    let s := ps.foldl (fun s p => (s.correct p.1 p.2 0).countRead p.1 (src.counted pair / ps.length)) s
    let img := s.planeImage n pair src
    let s := s.addTo (F.arrStageBytesStageBytes n) (src.counted pair)
    (s.modArr n fun a => { a with
        wbuf := SMap.putAll 0 a.wbuf (bank.val * 0x180000 + plane * (pairInfo pair).planeBytes) img
        planes := SMap.put none a.planes (bank.val * 64 + plane) (some src) }, none)

/-- The planes of a staging in order, stopping at an uncorrectable word. -/
def State.stagePlanes (s : State) (n : ArrayNum) (pair : Fin 11) (bank : Fin 2) : Nat → List PlaneSrc → State × Option Nat
  | _, [] => (s, none)
  | p, src :: rest =>
    match s.stagePlane n pair bank p src with
    | (t, none) => t.stagePlanes n pair bank (p + 1) rest
    | r => r

/-- Puts a staging instruction into the stager's queue: a change of the bank's pair first invalidates the bank, and the
planes it writes are invalid until it completes (R87, R88). (DEDUCED, log entry 17.) -/
def State.enqueueStg (s : State) (n : ArrayNum) (op : StgOp) : State :=
  s.modArr n fun a =>
    let keep := a.bankPair[op.bank.val] = some op.pair
    let base := op.bank.val * 64
    let planes := if keep then SMap.wipe a.planes (base + op.first) (base + op.first + op.srcs.length)
      else SMap.wipe a.planes base (base + 64)
    { a with bankPair := a.bankPair.set op.bank.val (some op.pair), planes := planes, stgQ := a.stgQ ++ [op] }

/-- A pair code that decoding has checked. -/
def pairOf (c : Nat) : Fin 11 := ⟨c % 11, Nat.mod_lt _ (by decide)⟩

/-- A bank or accumulator half from its bit. -/
def half2 (c : Nat) : Fin 2 := ⟨c % 2, Nat.mod_lt _ (by decide)⟩

/-- The first byte of a vault range of array n that the stager is denied (R155, R379): a granule its partition does not
own, or the whole range for an array of no partition. -/
def State.stagerDenied (s : State) (n : ArrayNum) (off len : Nat) : Option Nat :=
  match s.partOf n with
  | none => some off
  | some p => (s.deniedIn p (vaultBase n + off) len).map fun g => max off (g - vaultBase n)

/-- stg: checks its planes and its source, and joins the stager's queue (R88, R96, R155).
(DESIGN CHOICE, log entry 69.) -/
def execStg (n : ArrayNum) (s : State) : Host.Outcome State Fault Refusal :=
  .next (s.issue n fun i => match i with
    | .stg o => some fun s =>
      let pair := pairOf o.pair
      let p := pairInfo pair
      let a := s.arr n
      let addr := a.a o.reg + o.offset
      let len := o.count * p.planeBytes
      let op := fun mk : Nat → PlaneSrc => StgOp.mk a.pc 1 pair (half2 o.bank) o.first
        ((List.range o.count).map fun j => mk (addr + j * p.planeBytes))
      if p.planes < o.first + o.count then .fault s 4 0
      else if o.fromSpool then
        if spoolOk addr 64 len then .done (s.enqueueStg n (op .spool)) else .fault s faultSpoolRange addr
      else if addr % 64 ≠ 0 ∨ vaultSize < addr + len then .fault s faultVaultRange addr
      else match s.stagerDenied n addr len with
        | some d => .fault s faultVaultRange d
        | none => .done (s.enqueueStg n (op .vault))
    | _ => none)

/-- The stager completes its oldest instruction; an uncorrectable word faults the kernel (R85, R145).
(DESIGN CHOICE, log entry 3; DEDUCED, log entry 17.) -/
def execStagingDone (n : ArrayNum) (s : State) : Host.Outcome State Fault Refusal :=
  .next (match (s.arr n).stgQ with
    | [] => s
    | op :: rest =>
      if !s.unitsRun n || (s.arr n).restaging then s
      else
        let r := (s.modArr n fun a => { a with stgQ := rest }).stagePlanes n op.pair op.bank op.first op.srcs
        match r.2 with
        | none => r.1
        | some w => r.1.detect n ⟨faultData, op.cls, op.pc, localOffset w⟩)

/-! ### Matrix passes -/

/-- The key of an accumulator row. -/
def accRow (half row : Nat) : Nat := half * 128 + row

/-- A row of the pass read by the grid feed (R84, R92): its bytes, or the fault of a bad place or an uncorrectable word. -/
def State.passRow (s : State) (n : ArrayNum) (off align len : Nat) : State × Except (Nat × Nat) (List Byte) :=
  if !spoolOk off align len then (s, .error (faultSpoolRange, off))
  else match s.unitRead n off len with
    | (t, .error w) => (t, .error (faultData, w))
    | (t, .ok bs) => (t, .ok bs)

/-- The activation rows and scale rows of a pass (R84, R92, R97). (DESIGN CHOICE, log entry 16.) -/
def State.passRows (s : State) (n : ArrayNum) (o : MmaOps) (p : PairInfo) :
    Nat → Nat → State × Except (Nat × Nat) (List (List Byte × List Byte))
  | 0, _ => (s, .ok [])
  | m + 1, i =>
    let a := s.arr n
    match s.passRow n (a.a o.actReg + o.actOff + i * o.actStride * 64) 64 p.actBytes with
    | (t, .error e) => (t, .error e)
    | (t, .ok row) =>
      let scl : State × Except (Nat × Nat) (List Byte) :=
        if p.actScale = 0 then (t, .ok [])
        else t.passRow n (a.a o.sclReg + o.sclOff + i * o.sclStride * 32) 32 p.actScale
      match scl with
      | (u, .error e) => (u, .error e)
      | (u, .ok sc) =>
        match State.passRows u n o p m (i + 1) with
        | (v, .error e) => (v, .error e)
        | (v, .ok rest) => (v, .ok ((row, sc) :: rest))

/-- Whether a pass may target its accumulator rows (R82, R97). -/
def passAccOk (a : ArrayState) (o : MmaOps) (tag : AccTag) : Bool :=
  decide (o.base + o.rows ≤ 128) &&
    (!o.accumulate || (List.range o.rows).all fun i => SMap.look .unwritten a.accTag (accRow o.half (o.base + i)) == tag)

/-- The int32 clamp flags are keyed like the accumulators. -/
def accKey (half row col : Nat) : Nat := (half * 128 + row) * 256 + col

/-- mma: checks the plane, the accumulator rows and the activation addresses, and enters the grid's queue (R82, R84,
R88, R97). The activation rows and the plane are those at its issue (assumption log).
(DESIGN CHOICE, log entries 15, 16, 69.) -/
def execMma (n : ArrayNum) (s : State) : Host.Outcome State Fault Refusal :=
  .next (s.issue n fun i => match i with
    | .mma o => some fun s =>
      let pair := pairOf o.pair
      let p := pairInfo pair
      let a := s.arr n
      let valid := a.bankPair[(half2 o.bank).val] = some pair ∧ (SMap.look none a.planes (o.bank * 64 + o.plane)).isSome
      if ¬ valid then .fault s 3 0
      else if !passAccOk a o p.acc then .fault s faultAccRange 0
      else match s.passRows n o p o.rows 0 with
        | (t, .error (code, addr)) => .fault t code addr
        | (t, .ok rows) =>
          let plane := SMap.slice 0 a.wbuf ((half2 o.bank).val * 0x180000 + o.plane * p.planeBytes) p.planeBytes
          let op : MmaOp := {
            pc := a.pc, pair := pair, actE5 := o.actE5, wtE5 := o.wtE5, bank := half2 o.bank, planeNo := o.plane,
            half := half2 o.half, base := o.base, total := o.rows, rows := rows, plane := plane,
            accumulate := o.accumulate, intSat := s.flag (F.arrArithCtlIntAccSat n), fed := 0 }
          .done (t.modArr n fun a => { a with
            mmaQ := a.mmaQ ++ [op]
            accTag := (List.range o.rows).foldl
              (fun t i => SMap.put .unwritten t (accRow o.half (o.base + i)) p.acc) a.accTag })
    | _ => none)

/-- An accumulator as a pass goes on: its word, whether it is clamped for good (R56), and an overflow (R60). -/
structure AccVal where
  word : Word
  clamped : Bool
  overflow : Bool
  deriving DecidableEq, Repr

/-- One integer addition (R56): clamped accumulators keep their limit; with int_acc_sat 0 it wraps. -/
def addInt (sat : Bool) (acc : AccVal) (v : Int) : AccVal :=
  if acc.clamped then acc
  else
    let x := acc.word.toInt + v
    if sat ∧ 2 ^ 31 ≤ x then { acc with word := 0x7FFFFFFF#32, clamped := true }
    else if sat ∧ x < -(2 ^ 31) then { acc with word := 0x80000000#32, clamped := true }
    else { acc with word := BitVec.ofInt 32 x }

/-- One floating addition, rounded once to nearest-even (R58, R60). -/
def addFloat (acc : AccVal) (v : FVal) : AccVal :=
  let r := f32OfVal ((f32 acc.word).add v)
  { acc with word := r.bits, overflow := acc.overflow || r.overflow }

/-- Signed element of a byte list: 8 or 4 bits wide. -/
def intElem (wide : Bool) (bs : List Byte) (i : Nat) : Int :=
  if wide then (bs.getD i 0).toInt else (BitVec.ofNat 4 (nibbleAt bs i)).toInt

/-- Twice the value of an E2M1 element (R46). -/
def e2m1Twice (code : Nat) : Int :=
  match fmtE2m1.decode code with
  | .fin neg m e => sgn neg (m * 2 ^ (e + 1).toNat)
  | _ => 0

/-- The value of an fp8 element (R46). -/
def fp8Val (e5 : Bool) (b : Byte) : FVal := (if e5 then fmtE5m2 else fmtE4m3).decode b.toNat

/-- A bf16 scale or element at index i of a byte list. -/
def bf16At (bs : List Byte) (i : Nat) : Word := (f32OfVal (fmtBf16.decode (fieldAt bs (2 * i) 2))).bits

/-- The exact value scaled by a power of two, NaN kept. -/
def FVal.scale2 (k : Int) : FVal → FVal
  | .fin n m e => .fin n m (e + k)
  | v => v

/-- The sum of products of one skein of 32 for an output column: integers (G8, G4, S4I) or E2M1 in quarters (S4E). -/
def skeinInt (aWide wWide : Bool) (kTotal : Nat) (row plane : List Byte) (sk n : Nat) : Int :=
  ((List.range 32).map fun j =>
    intElem aWide row (32 * sk + j) * intElem wWide plane (tileIndex kTotal (32 * sk + j) n)).sum

/-- The E2M1 × E2M1 skein sum in units of 0.25 (R59). -/
def skeinE2m1 (kTotal : Nat) (row plane : List Byte) (sk n : Nat) : Int :=
  ((List.range 32).map fun j =>
    e2m1Twice (nibbleAt row (32 * sk + j)) * e2m1Twice (nibbleAt plane (tileIndex kTotal (32 * sk + j) n))).sum

/-- The group-scaled skein step (R57). (DEDUCED, log entry 22.) -/
def addGroup (acc : AccVal) (dot : Int) (sa sb : Word) : AccVal :=
  let sc := f32Mul sa sb
  let pr := f32Mul (f32OfInt dot 0).bits sc.bits
  let r := f32Add acc.word pr.bits
  { acc with word := r.bits, overflow := acc.overflow || sc.overflow || pr.overflow || r.overflow }

/-- A block-scaled skein's sum × 2^k, rounded once, added with one further rounding (R59, R53).
(DEDUCED, log entry 22.) -/
def addBlock (acc : AccVal) (sum : FVal) (nanScale : Bool) (k : Int) : AccVal :=
  let pr := f32OfVal (if nanScale then .nan else sum.scale2 k)
  let r := f32Add acc.word pr.bits
  { acc with word := r.bits, overflow := acc.overflow || pr.overflow || r.overflow }

/-- One activation row through one output column of a plane (R56 to R60, R81: increasing k). -/
def passColumn (op : MmaOp) (row scl : List Byte) (acc : AccVal) (n : Nat) : AccVal :=
  let p := pairInfo op.pair
  let sb := fun sk : Nat => fieldAt op.plane (p.elemBytes + n * (p.k / 32) + sk) 1
  let sb16 := fun sk : Nat => bf16At (op.plane.drop p.elemBytes) (n * (p.k / 32) + sk)
  let skeins := List.range (p.k / 32)
  let ks := List.range p.k
  match p.act, p.wt with
  | .int8, .int8 => ks.foldl (fun a k => addInt op.intSat a
      (intElem true row k * intElem true op.plane (tileIndex p.k k n))) acc
  | .int8, _ => ks.foldl (fun a k => addInt op.intSat a
      (intElem true row k * intElem false op.plane (tileIndex p.k k n))) acc
  | .int4, _ => ks.foldl (fun a k => addInt op.intSat a
      (intElem false row k * intElem false op.plane (tileIndex p.k k n))) acc
  | .g8, w => skeins.foldl (fun a sk => addGroup a (skeinInt true (w == .g8) p.k row op.plane sk n)
      (bf16At scl sk) (sb16 sk)) acc
  | .g4, _ => skeins.foldl (fun a sk => addGroup a (skeinInt false false p.k row op.plane sk n)
      (bf16At scl sk) (sb16 sk)) acc
  | .fp8, .s4e => skeins.foldl (fun a sk =>
      let sum := (List.range 32).foldl (fun t j => t.add
        ((fp8Val op.actE5 (row.getD (32 * sk + j) 0)).mul
          (fmtE2m1.decode (nibbleAt op.plane (tileIndex p.k (32 * sk + j) n))))) (FVal.fin false 0 0)
      addBlock a sum (sb sk == 0xFF) ((sb sk : Int) - 127)) acc
  | .fp8, _ => ks.foldl (fun a k => addFloat a
      ((fp8Val op.actE5 (row.getD k 0)).mul (fp8Val op.wtE5 (op.plane.getD (tileIndex p.k k n) 0)))) acc
  | .s4e, _ => skeins.foldl (fun a sk =>
      let q := skeinE2m1 p.k row op.plane sk n
      let ea := (scl.getD sk 0).toNat
      addBlock a (.fin (decide (q < 0)) q.natAbs (-2)) (ea == 0xFF || sb sk == 0xFF) ((ea : Int) + sb sk - 254)) acc
  | .s4i, _ => skeins.foldl (fun a sk =>
      let q := skeinInt false false p.k row op.plane sk n
      let ea := (scl.getD sk 0).toNat
      addBlock a (.fin (decide (q < 0)) q.natAbs 0) (ea == 0xFF || sb sk == 0xFF) ((ea : Int) + sb sk - 254)) acc
  | .bf16, _ => ks.foldl (fun a k => addFloat a
      ((fmtBf16.decode (fieldAt row (2 * k) 2)).mul
        (fmtBf16.decode (fieldAt op.plane (2 * tileIndex p.k k n) 2)))) acc

/-- The accumulators of a row before a pass adds to them (R82): a pass in overwrite mode starts from +0. -/
def accBefore (a : ArrayState) (op : MmaOp) (row n : Nat) : AccVal :=
  if op.accumulate then
    let k := accKey op.half.val row n
    ⟨SMap.look 0 a.acc k, SMap.look false a.accClamp k, false⟩
  else ⟨0, false, false⟩

/-- The next row of the oldest pass lands (R81, R82): its 256 accumulators take their sums, clamps and overflows are
counted, and a pass whose last row has landed leaves the grid. A row that has landed has been fed: grid cycles that no tick has
counted for it are counted now (R112). (DESIGN CHOICE, log entry 15.) -/
def execAccumulatorLanding (n : ArrayNum) (s : State) : Host.Outcome State Fault Refusal :=
  .next (match (s.arr n).mmaQ with
    | [] => s
    | op :: rest =>
      if !s.unitsRun n then s
      else match op.rows with
        | [] => s.modArr n fun a => { a with mmaQ := rest }
        | (row, scl) :: more =>
          let a := s.arr n
          let r := op.base + (op.total - op.rows.length)
          let before := (List.range 256).map fun c => accBefore a op r c
          let after := (List.zipIdx before).map fun b => passColumn op row scl b.1 b.2
          let newly := ((List.zip before after).filter fun p => p.2.clamped && !p.1.clamped).length
          let k0 := accKey op.half.val r 0
          let fed := (op.total - more.length) * (pairInfo op.pair).cycles
          let s := s.modArr n fun a => { a with
            acc := SMap.putAll 0 a.acc k0 (after.map (·.word))
            accClamp := SMap.putAll false a.accClamp k0 (after.map (·.clamped))
            mmaQ := if more.isEmpty then rest else { op with rows := more, fed := max op.fed fed } :: rest }
          ((s.addTo (F.arrGridCyclesGridCycles n) (fed - op.fed)).noteIntSat n (decide (0 < newly)) newly).noteOverflow n
            (after.any (·.overflow)))

end Sys2Proof.Machine
end

