-- ==== Sys2Proof/Machine/Convert.lean ====
section
/-!
DEFINITION. Conversion and moves: CVT (R100, with R64 to R70) and the MOV instructions (R101).
-/

namespace Sys2Proof.Machine

/-- Packs elements of a width into bytes (R48). -/
def packElems (width : Nat) (es : List Nat) : List Byte :=
  match width with
  | 4 => (List.range ((es.length + 1) / 2)).map fun i =>
      BitVec.ofNat 8 (es.getD (2 * i) 0 % 16 + 16 * (es.getD (2 * i + 1) 0 % 16))
  | 8 => es.map (BitVec.ofNat 8)
  | w => es.flatMap (leBytes (w / 8))

/-- Bits of an element of a format code (R99). -/
def fmtWidth : Nat → Nat
  | 0 => 32
  | 1 => 16
  | 2 => 8
  | 3 => 8
  | 4 => 8
  | 9 => 8
  | _ => 4

/-- What a conversion leaves: element bytes, scale bytes, and the events of R63 and R66. -/
structure Converted where
  elems : List Byte
  scales : List Byte
  sat : Nat
  nan : Bool
  nanOut : Nat
  deriving DecidableEq, Repr

/-- Converts lanes to a plain format (R64). -/
def convertPlain (fmt : Nat) (sat : Bool) (lanes : List (Rnd × Word)) : Converted :=
  let rs := lanes.map fun p => convPlain fmt sat p.1 p.2
  { elems := packElems (fmtWidth fmt) (rs.map (·.bits)), scales := [],
    sat := (rs.filter (·.sat)).length, nan := rs.any (·.nanToInt), nanOut := (rs.filter (·.nanOut)).length }

/-- Quantises lanes skein by skein (R69, R70). `supplied` gives skein j's scale. -/
def convertScaled (f : Form) (supplied : Nat → Option Word) (lanes : List (Rnd × Word)) : Converted :=
  let sk := (List.range (lanes.length / 32)).map fun j =>
    let l := (lanes.drop (32 * j)).take 32
    f.quantise (supplied j) (l.map (·.1)) (l.map (·.2))
  { elems := packElems f.width (sk.flatMap (·.elems)),
    scales := sk.flatMap fun q => leBytes (if f.e8m0 then 1 else 2) q.scale,
    sat := (sk.map (·.sat)).sum, nan := sk.any (·.convNan), nanOut := (sk.map (·.nanOut)).sum }

/-- The lanes a CVT converts, each with its rounding (R67, R68, R100). -/
def State.cvtLanes (s : State) (n : ArrayNum) (o : CvtOps) : List (Rnd × Word) :=
  let a := s.arr n
  (List.range (64 * o.n)).map fun j =>
    (s.rounding n o.rnd (a.a o.posReg + j), a.lane (o.vs + j / 64) (j % 64))

/-- The conversion a CVT asks for. -/
def State.cvtResult (s : State) (n : ArrayNum) (o : CvtOps) : Converted :=
  match Form.ofCode o.fmt with
  | some f => convertScaled f (fun j => if o.supplied then some ((s.arr n).lane o.vsc j) else none) (s.cvtLanes n o)
  | none => convertPlain o.fmt (s.fp8Sat n) (s.cvtLanes n o)

/-- cvt: converts n registers and writes the elements, and for a scaled form the scale plane (R100). -/
def execCvt (n : ArrayNum) (s : State) : Host.Outcome State Fault Refusal :=
  .next (s.issue n fun i => match i with
    | .cvt o => some fun s =>
      let a := s.arr n
      let r := s.cvtResult n o
      let el := a.a o.elReg + o.elOff
      let sc := a.a o.scReg + o.scOff
      if !spoolOk el 8 r.elems.length then .fault s faultSpoolRange el
      else if !r.scales.isEmpty && !spoolOk sc 2 r.scales.length then .fault s faultSpoolRange sc
      else
        let w1 := s.unitWrite n el r.elems
        let w2 := w1.1.unitWrite n sc r.scales
        let s := ((w2.1.noteConvSat n r.sat).noteConvNan n r.nan).noteNan n r.nanOut
        match w1.2, w2.2 with
        | some w, _ => .fault s faultData w
        | none, some w => .fault s faultData w
        | none, none => .done s
    | _ => none)

/-- load: 64 elements from the spool into vd, widened to fp32 (R64, R101). -/
def execLoad (n : ArrayNum) (s : State) : Host.Outcome State Fault Refusal :=
  .next (s.issue n fun i => match i with
    | .load vd fmt reg off => some fun s =>
      let w := fmtWidth fmt
      let addr := (s.arr n).a reg + off
      let len := 8 * w
      if !spoolOk addr 8 len then .fault s faultSpoolRange addr
      else
        match s.unitRead n addr len with
        | (t, .error word) => .fault t faultData word
        | (t, .ok bs) =>
          let el := fun j : Nat => if w = 4 then nibbleAt bs j else fieldAt bs (w / 8 * j) (w / 8)
          .done (t.modArr n fun a => a.setV vd ((List.range 64).map fun j => widen fmt (el j)))
    | _ => none)

/-- accrd: accumulator columns into vector registers; int32 rows convert to fp32 (R64, R82, R101). -/
def execAccrd (n : ArrayNum) (s : State) : Host.Outcome State Fault Refusal :=
  .next (s.issue n fun i => match i with
    | .accrd vd half row g cnt => some fun s =>
      let a := s.arr n
      match SMap.look .unwritten a.accTag (accRow half row) with
      | .unwritten => .fault s faultAccRange 0
      | tag =>
        let val := fun c : Nat =>
          let w := SMap.look 0 a.acc (accKey half row c)
          if tag = .int32 then f32OfInt32 w else w
        .done (s.modArr n fun a => (List.range cnt).foldl
          (fun a j => a.setV (vd + j) ((List.range 64).map fun l => val (64 * (g + j) + l))) a)
    | _ => none)

end Sys2Proof.Machine
end

