-- ==== Sys2Proof/Machine/Remote.lean ====
section
/-!
DEFINITION. Remote memory operations (R114 to R127, R135, R136): their issue, their completion and their failures.
-/

namespace Sys2Proof.Machine

/-- The kinds of a window (R119). -/
def State.windowKind (s : State) (w : Fin 16) : Nat := s.get (F.pciWinCtlKind w)

/-- The port that carries a window's traffic (R119). -/
def State.windowPort (s : State) (w : Fin 16) : Port := if s.flag (F.pciWinCtlPort w) then 1 else 0

/-- Whether a stream that covers a partition's windows on a port is Insecure, so that nothing travels on it (R396, R514).
(PRESUMED, log entry 45.) -/
def State.streamBad (s : State) (port : Port) (p : PartNum) : Bool :=
  (s.coc.streams.toList.drop (4 * port.val)).take 4 |>.any fun t => t.part == some p && t.insecure

/-- Whether a window may be used by a partition's arrays (R119, R135): open, its port present and up, its partition
field the partition's, and the stream that its transfers travel on not Insecure (R396, R514). Port 1 is present only on a
bifurcated link. -/
def State.windowOpen (s : State) (w : Fin 16) (p : PartNum) : Bool :=
  (s.windowKind w == 1 || s.windowKind w == 2) && s.flag (F.pciLinkUp (s.windowPort w))
    && s.get (F.pciWinCtlPartition w) == p.val && !s.streamBad (s.windowPort w) p

/-- Whether the knot that an operation signals is allowed (R121, R129): through a peer window it is the peer's, and a closed
window carries no signal. A knot of an unusable array is refused like one outside the partition.
(DESIGN CHOICE, log entry 74.) -/
def State.knotAllowed (s : State) (p : PartNum) (o : RmoKind) (remote knot : Nat) : Bool :=
  match o with
  | .putSignal =>
    let onDie := match regionOf remote with
      | .window w _ => s.windowKind w == 1
      | _ => true
    !onDie || (match allArrays[knot / 2048]? with
      | some m => s.inPart p m && s.usable m
      | none => false)
  | _ => true

/-- Why an operation fails at issue, as the row of R135; none when it may go (R116, R117, R129, R135). A window of another
partition is the window row's case. (DEDUCED, log entry 32; DESIGN CHOICE, log entry 74.) -/
def State.rmoCause (s : State) (n : ArrayNum) (k : RmoKind) (remote len knot : Nat) : Option Nat :=
  let reg := regionOf remote
  let dead := match reg with
    | .reserved => true
    | .register _ => true
    | .vault m _ => !s.usable m
    | .spool m _ => !s.usable m
    | _ => false
  if dead then some 0
  else match s.partOf n with
    | none => some 1
    | some p =>
      let denied := match reg with
        | .spool m _ => !s.inPart p m
        | .vault m _ => !s.inPart p m || (sameRegion remote (remote + len - 1) && (s.deniedIn p remote len).isSome)
        | .tier _ => sameRegion remote (remote + len - 1) && (s.deniedIn p remote len).isSome
        | _ => false
      if denied || !s.knotAllowed p k remote knot then some 1
      else if remote % 64 ≠ 0 ∨ sameRegion remote (remote + len - 1) = false then some 2
      else match reg with
        | .window w _ =>
          if !s.windowOpen w p then some 3 else if k = .atomicAdd then some 4 else none
        | _ => none

/-- The device address that an operation writes: its target, or the local spool for a get (R114). -/
def RmoOp.dst (n : ArrayNum) (op : RmoOp) : Nat := if op.kind = .get then spoolBase n + op.loc else op.remote

/-- The device address that an operation reads its lines from: the local spool, or the target of a get (R114). -/
def RmoOp.src (n : ArrayNum) (op : RmoOp) : Nat := if op.kind = .get then op.remote else spoolBase n + op.loc

/-- The device or PCIe bytes that a get reads. -/
def State.remoteLoad (s : State) (a n : Nat) : List Byte :=
  match regionOf a with
  | .window w o => s.pcieLoad (s.windowPort w) (s.get (F.pciWinBaseBase w) * 4096 + o) n
  | _ => s.load a n

/-- What an operation in flight may still write after a later one has (R124). -/
def State.overlapOf (s : State) (n : ArrayNum) (op : RmoOp) : Option Overlap :=
  if op.failed.isSome then none
  else some {
    dst := op.dst n, len := 64 * op.lines, fp := op.fp
    add := if op.kind = .atomicAdd then s.load (spoolBase n + op.loc) (64 * op.lines) else [] }

/-- Issues one remote operation: a bad local range faults; any other error is kept with the operation, which fails when
it completes (R115, R116, R135, R136). -/
def State.issueRmo (s : State) (n : ArrayNum) (o : RmoOps) : IssueOut :=
  let a := s.arr n
  let loc := a.a o.locReg + o.locOff
  let len := 64 * o.lines
  if !spoolOk loc 64 len then .fault s faultSpoolRange loc
  else
    let remote := (o.remote + a.a o.remReg) % 2 ^ 48
    let early := if a.rmoQ.isEmpty then [] else s.remoteLoad (if o.kind = .get then remote else spoolBase n + loc) len
    let op : RmoOp := {
      pc := a.pc, kind := o.kind, fp := o.fmt == 1, loc := loc, remote := remote, lines := o.lines, knot := o.knot,
      failed := s.rmoCause n o.kind remote len o.knot, early := early
      under := a.rmoQ.filterMap fun q => s.overlapOf n q
      issuedAt := s.time }
    .done (s.modArr n fun a => { a with rmoQ := a.rmoQ ++ [op] })

/-- An RMO row of one kind. -/
def State.issueRmoKind (s : State) (n : ArrayNum) (k : RmoKind) : State :=
  s.issue n fun i => match i with
    | .rmo o => if o.kind = k then some fun s => s.issueRmo n o else none
    | _ => none

/-- put: local spool to target (R114). -/
def execPut (n : ArrayNum) (s : State) : Host.Outcome State Fault Refusal := .next (s.issueRmoKind n .put)

/-- get: target to local spool (R114). -/
def execGet (n : ArrayNum) (s : State) : Host.Outcome State Fault Refusal := .next (s.issueRmoKind n .get)

/-- put with knot signal: put, then one knot increment (R114, R126). -/
def execPutWithKnotSignal (n : ArrayNum) (s : State) : Host.Outcome State Fault Refusal :=
  .next (s.issueRmoKind n .putSignal)

/-- atomic add: local elements added into the target's (R114, R118). -/
def execAtomicAdd (n : ArrayNum) (s : State) : Host.Outcome State Fault Refusal := .next (s.issueRmoKind n .atomicAdd)

/-- Adds to a knot modulo 2^32 (R130). -/
def State.incKnot (s : State) (n : ArrayNum) (i : Nat) (by_ : Nat) : State :=
  s.setKnot n i (s.knot n i + BitVec.ofNat 32 by_)

/-- Adds to the knot of a 17-bit number (R129). -/
def State.incKnot17 (s : State) (k : Nat) : State :=
  match allArrays[k / 2048]? with
  | some m => s.incKnot m (k % 2048) 1
  | none => s

/-- The status of a failed operation (R136): rmo_error, the count, the address, the window's bit; and, but for an
uncorrectable word, which has its own record (R493), an access error, detected at its issue but for a failure on the link (R135,
R482). -/
def State.rmoFailed (s : State) (n : ArrayNum) (op : RmoOp) (cause : Option Nat) : State :=
  let s := ((s.raiseBit (F.kntStatusRmoError n)).bump (F.kntRmoErrCountErrors n)).set (F.kntRmoErrAddrAddr n) op.remote
  let win := match regionOf op.remote with
    | .window w _ => some w
    | _ => none
  let s := match win, cause with
    | some w, some 3 => s.raiseBit (F.pciWinStatDropped w)
    | some w, some 5 => s.raiseBit (F.pciWinStatReadError w)
    | _, _ => s
  match cause with
  | some c => s.accessErrorAt (if op.failed.isSome then op.issuedAt else s.time) n.val n.val (c + 1) 0
      ((win.map (·.val)).getD 0) (s.partOf n) (some op.remote)
  | none => s

/-- A put's data reaches its target (R120, R123). -/
def State.remoteStore (s : State) (a : Nat) (bs : List Byte) : State :=
  match regionOf a with
  | .window w o => s.pcieStore (s.windowPort w) (s.get (F.pciWinBaseBase w) * 4096 + o) bs
  | _ => (s.store a bs).countWrite a bs.length

/-- Elements of 32 bits. -/
def words32 (bs : List Byte) : List Word :=
  (List.range (bs.length / 4)).map fun i => BitVec.ofNat 32 (fieldAt bs (4 * i) 4)

/-- The sums of an atomic add (R118). -/
def atomicSums (fp : Bool) (target loc : List Byte) : List Byte :=
  (List.zipWith (fun t l => if fp then (f32Add t l).bits else t + l) (words32 target) (words32 loc)).flatMap
    fun w => leBytes 4 w.toNat

/-- The knot rises, or the signal write leaves for the peer (R121, R126). -/
def State.signalKnot (s : State) (op : RmoOp) : State :=
  match regionOf op.remote with
  | .window w _ =>
    if s.windowKind w = 2 then
      s.send (.peerSignal (s.windowPort w)
        (s.get (F.pciWinSigSigBase w) * 2 ^ 28 + op.knot / 2048 * 0x100000 + 0x2010)
        (BitVec.ofNat 32 (2 ^ 16 + op.knot % 2048)))
    else s.incKnot17 op.knot
  | _ => s.incKnot17 op.knot

/-- One of several byte strings that a line may hold, where the spec leaves open which (R124, R125): a free value chooses
unless all are equal. (DESIGN CHOICE, log entry 67.) -/
def State.choose (s : State) (opts : List (List Byte)) : State × List Byte :=
  match opts.dedup with
  | [] => (s, [])
  | [x] => (s, x)
  | l => ({ s with free := s.free + 1 }, l.getD ((Config.freeWord s.free).toNat % l.length) [])

/-- Line i of a byte string. -/
def lineOf (bs : List Byte) (i : Nat) : List Byte := (bs.drop (64 * i)).take 64

/-- Whether a line at a device address lies in an overlap. -/
def Overlap.has (v : Overlap) (a : Nat) : Bool := decide (v.dst ≤ a) && decide (a + 64 ≤ v.dst + v.len)

/-- A line at a device address as a later operation in the queue leaves it, given what it held (R124, R125): the operation's own
line, or the sum that an atomic add makes; unchanged where the operation does not write the line. -/
def State.afterLater (s : State) (n : ArrayNum) (a : Nat) (line : List Byte) (op : RmoOp) : List Byte :=
  let off := a - op.dst n
  if op.failed.isSome ∨ a < op.dst n ∨ op.dst n + 64 * op.lines < a + 64 then line
  else
    let own := s.remoteLoad (op.src n + off) 64
    if op.kind = .atomicAdd then atomicSums op.fp line own else own

/-- Every place at which an element can be put into a list. -/
def insertions {α : Type} (x : α) : List α → List (List α)
  | [] => [[x]]
  | y :: t => (x :: y :: t) :: (insertions x t).map (y :: ·)

/-- Every order of every choice of a list's elements. -/
def arrangements {α : Type} : List α → List (List α)
  | [] => [[]]
  | x :: t => arrangements t ++ (arrangements t).flatMap (insertions x)

/-- The source lines of an operation that has been in flight with others (R124, R125): as they stand at its completion or as they
stood at its issue, and with what later operations of the queue may already have written, in any order.
(DESIGN CHOICE, log entry 67.) -/
def State.sourceLines (s : State) (n : ArrayNum) (op : RmoOp) (now : List Byte) : State × List Byte :=
  let later := (s.arr n).rmoQ
  if op.early.isEmpty && later.isEmpty then (s, now)
  else (List.range (now.length / 64)).foldl (fun (acc : State × List Byte) i =>
    let early := if op.early.isEmpty then [] else [lineOf op.early i]
    let opts := ([lineOf now i] ++ early).flatMap fun l =>
      (arrangements later).map fun o => o.foldl (fun x q => s.afterLater n (op.src n + 64 * i) x q) l
    let r := acc.1.choose opts
    (r.1, acc.2 ++ r.2)) (s, [])

/-- What the target's lines hold once an operation and the ones in flight at its issue have written (R124, R125): its own
line, or, where an earlier operation wrote that line, that operation's, or an earlier atomic add's sum on top of it.
`old` are the target's bytes, `new` the operation's. (DESIGN CHOICE, log entry 67.) -/
def State.targetLines (s : State) (n : ArrayNum) (op : RmoOp) (old new : List Byte) : State × List Byte :=
  if op.under.isEmpty then (s, new)
  else (List.range (new.length / 64)).foldl (fun (acc : State × List Byte) i =>
    let a := op.dst n + 64 * i
    let other := (op.under.filter fun v => v.has a).filterMap fun v =>
      if v.add.isEmpty then some (lineOf old i)
      else if op.kind = .atomicAdd then none
      else some (atomicSums v.fp (lineOf new i) ((v.add.drop (a - v.dst)).take 64))
    let r := acc.1.choose (lineOf new i :: other)
    (r.1, acc.2 ++ r.2)) (s, [])

/-- A put's local bytes leave the array: an uncorrectable local word faults the kernel and nothing is sent (R92;
assumption log); NaN among them are counted (R63). (DESIGN CHOICE, log entry 19.) -/
def State.sendLocal (s : State) (n : ArrayNum) (op : RmoOp) (nans : List Byte → Nat) :
    State × Option (List Byte) :=
  match s.unitRead n op.loc (64 * op.lines) with
  | (t, .error w) => (t.detect n ⟨faultData, 6, op.pc, w⟩, none)
  | (t, .ok now) =>
    let r := t.sourceLines n op now
    (r.1.noteNan n (nans r.2), some r.2)

/-- How many NaN an atomic add sends (R63): known for fp32 elements only. -/
def nanWords (fp : Bool) (bs : List Byte) : Nat := if fp then ((words32 bs).filter f32IsNaN).length else 0

/-- A get's result in the local spool: `good` lines from its first on as read, zeros beyond them (R123, R136). Its bytes have no
element format, and NaN among them are not counted (R63). (DESIGN CHOICE, log entries 19, 74.) -/
def State.getStore (s : State) (n : ArrayNum) (op : RmoOp) (good : Nat) : State :=
  let r := s.sourceLines n op (s.remoteLoad op.remote (64 * good))
  let new := r.2 ++ List.replicate (64 * (op.lines - good)) 0
  let w := (r.1.countRead op.remote (64 * good)).targetLines n op (s.load (spoolBase n + op.loc) (64 * op.lines)) new
  w.1.store (spoolBase n + op.loc) w.2

/-- A put's lines reach their target. -/
def State.putLines (s : State) (n : ArrayNum) (op : RmoOp) (bs : List Byte) : State :=
  let w := s.targetLines n op (s.remoteLoad op.remote (64 * op.lines)) bs
  w.1.remoteStore op.remote w.2

/-- Whether an operation through a window finds its port down, or its stream Insecure, when it completes (R140, R509, R514). -/
def State.linkLost (s : State) (op : RmoOp) : Bool :=
  match regionOf op.remote with
  | .window w _ => !s.flag (F.pciLinkUp (s.windowPort w))
    || (allParts[s.get (F.pciWinCtlPartition w)]?).any fun p => s.streamBad (s.windowPort w) p
  | _ => false

/-- The effect of the oldest remote operation at its completion point (R123): `got` says how many lines a get through a
window returned before an error or timeout. Where the window's port has gone down since its issue, a put is dropped and a get
fails on the link (R135, R140). (DEDUCED, log entry 32; DESIGN CHOICE, log entry 74.) -/
def State.completeRmo (s : State) (n : ArrayNum) (op : RmoOp) (got : Option Nat) : State :=
  let len := 64 * op.lines
  let onLink : Bool := match regionOf op.remote with
    | .window _ _ => true
    | _ => false
  let peer : Bool := match regionOf op.remote with
    | .window w _ => s.windowKind w == 2
    | _ => false
  let lost := s.linkLost op
  match op.failed with
  | some c =>
    let s := match op.kind with
      | .get => s.store (spoolBase n + op.loc) (List.replicate len 0)
      | _ => s
    s.rmoFailed n op (some c)
  | none =>
    match op.kind with
    | .put =>
      match s.sendLocal n op Config.nanInPut with
      | (t, none) => t
      | (t, some bs) => if lost then t.rmoFailed n op (some 3) else t.putLines n op bs
    | .putSignal =>
      match s.sendLocal n op Config.nanInPut with
      | (t, none) => t
      | (t, some bs) =>
        if lost then t.rmoFailed n op (some 3)
        else
        let t := t.putLines n op bs
        if onLink && !peer && got.isSome then t.rmoFailed n op (some 5) else t.signalKnot op
    | .get =>
      if onLink then
        match got with
        | some k => (s.getStore n op (min k op.lines)).rmoFailed n op (some 5)
        | none => if lost then (s.getStore n op 0).rmoFailed n op (some 5) else s.getStore n op op.lines
      else
        match s.badIn op.remote len with
        | some w =>
          (((s.eccReport w 1 true).linkCheck op.remote len).store (spoolBase n + op.loc) (List.replicate len 0)).rmoFailed n op none
        | none => (s.correct op.remote len 1).getStore n op op.lines
    | .atomicAdd =>
      match s.sendLocal n op (nanWords op.fp) with
      | (t, none) => t
      | (t, some bs) =>
        match t.badIn op.remote len with
        | some w => ((t.eccReport w 2 true).linkCheck op.remote len).rmoFailed n op none
        | none =>
          let t := (t.correct op.remote len 2).countRead op.remote len
          let old := t.load op.remote len
          let w := t.targetLines n op old (atomicSums op.fp old bs)
          (w.1.store op.remote w.2).countWrite op.remote len

/-- Takes the oldest remote operation off the queue and completes it (R124: in issue order). -/
def State.retireRmo (s : State) (n : ArrayNum) (got : Option Nat) : State :=
  match (s.arr n).rmoQ with
  | [] => s
  | op :: rest => (s.modArr n fun a => { a with rmoQ := rest }).completeRmo n op got

/-- The oldest remote operation completes (R123); `link` is what a read through a window met. -/
def execRmoComplete (n : ArrayNum) (hw : HostStores) (link : LinkResult) (s : State) :
    Host.Outcome State Fault Refusal :=
  .next (if s.unitsRun n then
    (s.hostStores hw).retireRmo n (match link with
      | .ok => none
      | .error k => some k)
  else s)

/-- Whether the oldest operation waits for a read completion on a link (R120, R121): a get through a window, or a put
with knot signal through a host window. -/
def State.awaitsLink (s : State) (n : ArrayNum) : Bool :=
  match (s.arr n).rmoQ with
  | [] => false
  | op :: _ =>
    match regionOf op.remote with
    | .window w _ => op.failed.isNone && (op.kind == .get || (op.kind == .putSignal && s.windowKind w == 1))
    | _ => false

/-- A read through a window reaches the completion timeout after some lines (R135, R136, R510). -/
def execCompletionTimeout (n : ArrayNum) (hw : HostStores) (linesReturned : Nat) (s : State) :
    Host.Outcome State Fault Refusal :=
  .next (if s.unitsRun n && s.awaitsLink n then (s.hostStores hw).retireRmo n (some linesReturned) else s)

end Sys2Proof.Machine
end

