-- ==== Sys2Proof/Machine/RowStats.lean ====
section
/-!
DEFINITION. The row-statistics unit (R191 to R196): running maximum and sum, page staging and page closing.
-/

namespace Sys2Proof.Machine

/-- m of a row; −∞ at kernel start (R191). -/
def ArrayState.rsM (a : ArrayState) (r : Nat) : Word := SMap.look 0xFF800000#32 a.rstat r
/-- l of a row. -/
def ArrayState.rsL (a : ArrayState) (r : Nat) : Word := SMap.look 0 a.rstat (128 + r)
/-- corr of a row. -/
def ArrayState.rsCorr (a : ArrayState) (r : Nat) : Word := SMap.look 0 a.rstat (256 + r)

/-- Sets a row's statistics. -/
def ArrayState.setRs (a : ArrayState) (r : Nat) (m l corr : Word) : ArrayState :=
  { a with rstat := SMap.put 0 (SMap.put 0 (SMap.put 0xFF800000#32 a.rstat r m) (128 + r) l) (256 + r) corr }

/-- One value in all 64 lanes. -/
def splat (w : Word) : List Word := List.replicate 64 w

/-- rs_init (R193). -/
def execRsInit (n : ArrayNum) (s : State) : Host.Outcome State Fault Refusal :=
  .next (s.issue n fun i => match i with
    | .rsInit row cnt => some fun s => .done (s.modArr n fun a =>
        (List.range cnt).foldl (fun a j => a.setRs (row + j) 0xFF800000#32 0 0) a)
    | _ => none)

/-- rs_max (R193): m′ ← max(m, b); corr ← 0 if m = −∞, else exp2(m − m′). -/
def execRsMax (n : ArrayNum) (s : State) : Host.Outcome State Fault Refusal :=
  .next (s.issue n fun i => match i with
    | .rsMax vd va row => some fun s =>
      let a := s.arr n
      let m := a.rsM row
      let m' := (f32Max m (a.lane va 0)).bits
      let diff := f32Sub m m'
      let e := f32Exp2 diff.bits
      let first := m == 0xFF800000#32
      let corr := if first then 0#32 else e.bits
      let vm := if m' = 0xFF800000#32 then 0#32 else m'
      let t := s.modArr n fun a => ((a.setRs row m' (a.rsL row) corr).setV vd (splat vm)).setV (vd + 1) (splat corr)
      .done (t.noteOverflow n (!first && (diff.overflow || e.overflow)))
    | _ => none)

/-- rs_sum (R193): l ← fma(l, corr, lane 0 of va). -/
def execRsSum (n : ArrayNum) (s : State) : Host.Outcome State Fault Refusal :=
  .next (s.issue n fun i => match i with
    | .rsSum va row => some fun s =>
      let a := s.arr n
      let l := f32Fma (a.rsL row) (a.rsCorr row) (a.lane va 0)
      .done ((s.modArr n fun a => a.setRs row (a.rsM row) l.bits (a.rsCorr row)).noteOverflow n l.overflow)
    | _ => none)

/-- rs_final (R193, R202): the NaN rule first, with its NUMERIC record (R486); a masked row; otherwise recip(l) and (m + log2 l) × ln 2. -/
def execRsFinal (n : ArrayNum) (s : State) : Host.Outcome State Fault Refusal :=
  .next (s.issue n fun i => match i with
    | .rsFinal vd row => some fun s =>
      let a := s.arr n
      let m := a.rsM row
      let l := a.rsL row
      let put := fun (s : State) (x y : Word) (mask : DWord) =>
        s.modArr n fun a => ((a.setV vd (splat x)).setV (vd + 1) (splat y)).setM 3 mask
      if f32IsNaN m || f32IsNaN l then
        let p := s.partOf n
        .done (((put s f32NaN f32NaN 0xFFFFFFFFFFFFFFFF#64).raiseBit (F.attStatusRsNan n)).report
          { source := n.val, cls := 0x05, severity := 0, part := p, affected := affectedBy p })
      else if (f32 l).eqv (.fin false 0 0) then
        .done ((put s 0 0xFF800000#32 0).bump (F.attMaskedRowsRows n))
      else
        let r := f32Recip l
        let g := f32Log2 l
        let t := f32Add m g.bits
        let u := f32Mul t.bits 0x3F317218#32
        .done ((put s r.bits u.bits 0xFFFFFFFFFFFFFFFF#64).noteOverflow n
          (r.overflow || g.overflow || t.overflow || u.overflow))
    | _ => none)

/-- rs_load (R193). -/
def execRsLoad (n : ArrayNum) (s : State) : Host.Outcome State Fault Refusal :=
  .next (s.issue n fun i => match i with
    | .rsLoad va row => some fun s =>
      .done (s.modArr n fun a => a.setRs row (a.lane va 0) (a.lane va 1) 0)
    | _ => none)

/-- rs_store (R193). -/
def execRsStore (n : ArrayNum) (s : State) : Host.Outcome State Fault Refusal :=
  .next (s.issue n fun i => match i with
    | .rsStore vd row => some fun s =>
      .done (s.modArr n fun a => a.setV vd (a.rsM row :: a.rsL row :: List.replicate 62 0))
    | _ => none)

/-- The frame units that a pstage reads, or the first vault offset it is denied (R155, R194). -/
def State.pageUnits (s : State) (n : ArrayNum) (o : PstageOps) (list : List Byte) : Except Nat (List Nat) :=
  let base := if o.fallback then s.get (F.attFbBaseFbBase n) * 64 else s.get (F.attKvBaseKvBase n) * 64
  let fb := if o.fallback then s.get (F.attFbFrameBytesFbFrameBytes n) * 64
    else s.get (F.attFrameBytesFrameBytes n) * 64
  let len := unitBytes o.int4 o.d
  let us := (List.range o.pages).map fun i => base + fieldAt list (4 * i) 4 % 2 ^ 18 * fb + o.unitOff
  match us.findSome? fun u =>
      if fb = 0 ∨ vaultSize < u + len ∨ u % 64 ≠ 0 then some u else s.stagerDenied n u len with
  | some off => .error off
  | none => .ok us

/-- pstage: gathers a page block's plane into the stager's queue (R88, R191, R194). (DESIGN CHOICE, log entry 16.) -/
def execPstage (n : ArrayNum) (s : State) : Host.Outcome State Fault Refusal :=
  .next (s.issue n fun i => match i with
    | .pstage o => some fun s =>
      let a := s.arr n
      let pair : Fin 11 := if o.int4 then 5 else 3
      let addr := a.a o.listReg + o.listOff
      if (pairInfo pair).planes ≤ o.plane then .fault s 4 0
      else if !spoolOk addr 4 (4 * o.pages) then .fault s faultSpoolRange addr
      else
        match s.unitRead n addr (4 * o.pages) with
        | (t, .error w) => .fault t faultData w
        | (t, .ok list) =>
          match t.pageUnits n o list with
          | .error off => .fault t faultVaultRange off
          | .ok us => .done (t.enqueueStg n
              ⟨a.pc, 7, pair, half2 o.bank, o.plane, [.pages ⟨o.isV, o.int4, us, o.d, o.khalf⟩]⟩)
    | _ => none)

/-- One group of an open page, quantised as one skein of 512 values with nearest-even (R69, R170). -/
def closeGroup (int4 : Bool) (vals : List Word) : Skein :=
  (if int4 then Form.g4 else Form.g8).quantise none (vals.map fun _ => Rnd.rne) vals

/-- The frame unit that closes an open page of head dimension d (R167, R168, R170, R196), with the events of R66. -/
def closePage (int4 : Bool) (d : Nat) (page : List Byte) : Converted :=
  let val := fun (v : Bool) (j k : Nat) => bf16At (page.drop (if v then 32 * d else 0)) (j * d + k)
  let group := fun (v : Bool) (g : Nat) =>
    closeGroup int4 ((List.range 512).map fun e => val v (e / 32) (32 * g + e % 32))
  let ks := (List.range (d / 32)).map (group false)
  let vs := (List.range (d / 32)).map (group true)
  let elem := fun (gs : List Skein) (j k : Nat) =>
    ((gs[k / 32]?).map fun sk => sk.elems.getD (j * 32 + k % 32) 0).getD 0
  let kAt := fun e : Nat => elem ks (e / 16 % 4 * 4 + e / 4 % 4) (e / 64 * 4 + e % 4)
  let vAt := fun e : Nat => elem vs (e / (4 * d) * 4 + e % 4) (e % (4 * d) / 16 * 4 + e / 4 % 4)
  let els := (List.range (16 * d)).map kAt ++ (List.range (16 * d)).map vAt
  let line := fun gs : List Skein =>
    let bs := gs.flatMap fun sk => leBytes 2 sk.scale
    bs ++ List.replicate (16 - bs.length) 0
  let all := ks ++ vs
  { elems := packElems (if int4 then 4 else 8) els ++ line ks ++ line vs ++ List.replicate 32 0
    scales := [], sat := (all.map (·.sat)).sum, nan := all.any (·.convNan), nanOut := (all.map (·.nanOut)).sum }

/-- pclose: writes the frame unit of one unit's open page (R166, R170, R196). -/
def execPclose (n : ArrayNum) (s : State) : Host.Outcome State Fault Refusal :=
  .next (s.issue n fun i => match i with
    | .pclose o => some fun s =>
      let a := s.arr n
      let src := a.a o.srcReg + o.srcOff
      let dst := a.a o.dstReg + o.dstOff
      if !spoolOk src 64 (64 * o.d) then .fault s faultSpoolRange src
      else if !spoolOk dst 64 (unitBytes o.int4 o.d) then .fault s faultSpoolRange dst
      else
        match s.unitRead n src (64 * o.d) with
        | (t, .error w) => .fault t faultData w
        | (t, .ok page) =>
          let r := closePage o.int4 o.d page
          let w := t.unitWrite n dst r.elems
          let t := ((w.1.noteConvSat n r.sat).noteConvNan n r.nan).noteNan n r.nanOut
          match w.2 with
          | some x => .fault t faultData x
          | none => .done t
    | _ => none)

end Sys2Proof.Machine
end

