-- ==== Sys2Proof/Machine/Kernels.lean ====
section
/-!
DEFINITION. A kernel's start and end, and an array's fault (R107 to R111), knots raised and set by registers (R130,
R133, R134).
-/

namespace Sys2Proof.Machine

/-- The array's kernel state as a go leaves it (R93, R107, R191). -/
def ArrayState.startKernel (a : ArrayState) (entry : Nat) : ArrayState :=
  { a with
    kernel := true, committed := false, ending := false, pend := none, pc := entry
    areg := Vector.replicate 8 0, creg := Vector.replicate 4 0, vreg := []
    mreg := Vector.replicate 4 0xFFFFFFFFFFFFFFFF, accTag := [], accClamp := [], rstat := []
    nanReported := false, warming := false, kwait := none }

/-- A go (R107): accepted, or dropped with go_dropped while the array is busy, faulted or unusable, or without power in its
memory section (R440, R458). -/
def State.kernelGo (s : State) (n : ArrayNum) : State :=
  if s.busy n || s.flag (F.arrStatusFault n) || !s.powered n then s.raiseBit (F.arrStatusGoDropped n)
  else s.modArr n fun a => a.startKernel (s.get (F.arrKernelEntryEntry n))

/-- Whether every issued instruction of the array has completed (R95, R109). -/
def ArrayState.quiet (a : ArrayState) : Bool := a.stgQ.isEmpty && a.mmaQ.isEmpty && a.rmoQ.isEmpty && a.unitQ.isEmpty

/-- An array stops as on a fault, without recording one (R346): it issues nothing more. -/
def State.haltArray (s : State) (n : ArrayNum) : State :=
  s.modArr n fun a => { a with kernel := false, ending := false, pend := none, kwait := none }

/-- Records a fault (R109); its event record carries the cycle in which the fault was detected (R482). -/
def State.recordFault (s : State) (n : ArrayNum) (f : PendFault) : State :=
  let p := s.partOf n
  let at_ := (s.arr n).pendAt
  let s := ((((s.modArr n fun a => { a with kernel := false, ending := false, pend := none, pc := f.pc, kwait := none }).set
    (F.arrFaultInfoCode n) f.code).set (F.arrFaultInfoClass n) f.cls).set (F.arrFaultAddrAddr n) (f.addr % 2 ^ 48)).raiseBit
    (F.arrStatusFault n)
  s.reportAt at_ {
    source := n.val, cls := 0x02, severity := 3, part := p, affected := affectedBy p, inst := n.val
    detail := [BitVec.ofNat 8 f.code, BitVec.ofNat 8 f.cls] ++ leBytes 3 f.pc }

/-- An increment of a knot by a register write (R134). -/
def State.kntSignal (s : State) (n : ArrayNum) (v : Word) : State :=
  s.incKnot n (bitsAt v.toNat 0 11) (bitsAt v.toNat 16 16)

/-- A write of KNT_VALUE_i: dropped while the array is busy (R133, R134). -/
def State.writeKnot (s : State) (n : ArrayNum) (i : Nat) (v : Word) : State :=
  if s.busy n then (s.raiseBit (F.arrStatusCfgWriteBusy n)).cfgWriteBusy n.val 0 (s.partOf n)
  else s.setKnot n i v

end Sys2Proof.Machine
end

