-- ==== Sys2Proof/Machine/Clears.lean ====
section
/-!
DEFINITION. The clear engines of vaults and tier and the patrol scrub (R156, R158 to R161), and the tier's key slots
(R153, R404).
-/

namespace Sys2Proof.Machine

/-- A clear request for a vault (R158): held until the array has no other work, or rejected. (DEDUCED, log entry 32.) -/
def State.vaultClear (s : State) (n : ArrayNum) (first count : Nat) : State :=
  if (s.arr n).clear ≠ .none ∨ count = 0 ∨ 384 < first + count then s.raiseBit (F.vltStatusClearRejected n)
  else s.modArr n fun a => { a with clear := .held first count }

/-- A tag once its clear is done: free, or owned by the partition that keeps it (R156). -/
def clearedTag (t : Byte) : Byte := if tagClearing t then t &&& 0xBF#8 else t

/-- Whether the array has work under which no vault clear runs: a kernel, a restaging, a scrub or a moult test (R158). -/
def ArrayState.otherWork (a : ArrayState) : Bool := a.kernel || a.restaging || a.scrubbing || a.test != .none

/-- Whether an access to a range that was accepted at its issue has still to complete: a queued remote operation that reads
or writes it (R117, R156). (DEDUCED, log entry 32.) -/
def State.accessPending (s : State) (a n : Nat) : Bool :=
  allArrays.any fun (k : ArrayNum) => (s.arr k).rmoQ.any fun (o : RmoOp) =>
    o.failed.isNone && [o.src k, o.dst k].any fun x => decide (x < a + n) && decide (a < x + 64 * o.lines)

/-- The vault clear begins when the array has no kernel, restaging, scrub or moult test (R158) and every access to its
granules already accepted has completed (R156). -/
def State.vaultClearBegin (s : State) (n : ArrayNum) : State :=
  let a := s.arr n
  match a.clear with
  | .held first count =>
    if a.otherWork || s.accessPending (vaultBase n + first * 0x400000) (count * 0x400000) then s
    else s.modArr n fun a => { a with clear := .running first count }
  | _ => s

/-- The vault clear ends: zeros with valid check bits, tags moved on, clear_done (R156, R160). A clear does not run, and so
does not end, under a restaging or a scrub that began meanwhile (R158). -/
def State.vaultClearEnd (s : State) (n : ArrayNum) : State :=
  match (s.arr n).clear with
  | .running first count =>
    if (s.arr n).otherWork then s
    else
    let s := s.wipe (vaultBase n + first * 0x400000) (count * 0x400000)
    let s := (List.range count).foldl (fun s i => s.setVtag n (first + i) (clearedTag (s.vtag n (first + i)))) s
    (s.modArr n fun a => { a with clear := .none }).raiseBit (F.vltStatusClearDone n)
  | _ => s

/-- A key for a tier key slot, drawn from Cocoon's generator (R404). -/
def State.loadKey (s : State) (slot : Nat) : State :=
  ({ s with coc := { s.coc with
      keys := SMap.put [] s.coc.keys slot s.nextDraw
      draws := s.coc.draws + 1 } } : State).setBit F.tierKeyStatLoaded slot true

/-- Destroys the keys of a slot (R153, R404). -/
def State.dropKey (s : State) (slot : Nat) : State :=
  ({ s with coc := { s.coc with keys := SMap.put [] s.coc.keys slot [] } } : State).setBit F.tierKeyStatLoaded slot false

/-- Queues a tier clear, or rejects it (R159). (DEDUCED, log entry 32.) -/
def State.tierClear (s : State) (first count : Nat) (rekey : Bool) (slot : Nat) : State :=
  if count = 0 ∨ 65536 < first + count ∨ 8 < slot ∨ 16 ≤ s.tierClears.length then s.raiseBit F.tierStatusClearRejected
  else { s with tierClears := s.tierClears ++ [{ first := first, count := count, rekey := rekey, slot := slot, started := false }] }

/-- Whether the oldest queued clear may start: it has not, and every access to its granules already accepted has completed
(R156, R159). -/
def State.tierClearReady (s : State) : Bool :=
  match s.tierClears with
  | [] => false
  | c :: _ => !c.started && !s.accessPending (tierBase + c.first * 0x400000) (c.count * 0x400000)

/-- The oldest queued clear starts: a rekey destroys the slot's keys and loads new ones first (R159). -/
def State.tierClearBegin (s : State) : State :=
  match s.tierClears with
  | [] => s
  | c :: t =>
    if !s.tierClearReady then s
    else
      let s := { s with tierClears := { c with started := true } :: t }
      if c.rekey then (s.dropKey c.slot).loadKey c.slot else s

/-- The running tier clear ends (R156, R159, R160). -/
def State.tierClearEnd (s : State) : State :=
  match s.tierClears with
  | [] => s
  | c :: t =>
    if !c.started then s
    else
      let s := ({ s with tierClears := t } : State).wipe (tierBase + c.first * 0x400000) (c.count * 0x400000)
      let s := (List.range c.count).foldl (fun s i => s.setTtag (c.first + i) (clearedTag (s.ttag (c.first + i)))) s
      s.raiseBit F.tierStatusClearDone

/-- A patrol's pass begins now: vault n's under n, the tier's under 64. (DESIGN CHOICE, log entry 70.) -/
def State.patrolStart (s : State) (k : Nat) : State := { s with patrolAt := SMap.put 0 s.patrolAt k s.time }

/-- One pass of the patrol over a range: corrected words are counted, reported and their lines written back, uncorrectable ones
reported and left (R161). Its reads use the tier's link as any transfer does (R150), and its write-backs count as bytes written
(R163, R164). -/
def State.patrol (s : State) (a n : Nat) : State :=
  let fixed := s.ce.filter (wordMeets a n)
  let s' := fixed.foldl (fun s w => s.eccReport w 7 false) (s.linkCheck a n)
  let s' := (s.badWords a n).foldl (fun s w => s.eccReport w 7 true) s'
  let s' := ((fixed.map fun w => w / 64 * 64).dedup).foldl (fun s l => s.countWrite l 64) s'
  { s' with ce := s'.ce.filter fun w => !wordMeets a n w }

/-- The patrol completes a pass over one vault or the tier (R161); it does nothing while it is off. -/
def execPatrolScrubPass (t : PatrolTarget) (s : State) : Host.Outcome State Fault Refusal :=
  .next (match t with
    | .vault n =>
      if s.flag (F.vltPatrolCtlEnable n) && s.usable n then
        (s.patrol (vaultBase n) vaultSize).patrolStart n.val else s
    | .tier =>
      if s.flag F.tierPatrolCtlEnable && s.flag F.tierStatusReady then
        (s.patrol tierBase tierSize).patrolStart 64 else s)

/-- Hours of a patrol period in timestamp ticks; 0 acts as 24 (R161). -/
def patrolTicks (h : Nat) : Nat := (if h = 0 then 24 else h) * 360000000000

/-- patrol_late of every patrol whose pass has outlasted its period (R161): the patrols that run, of usable arrays' vaults
and of the trained tier. (DESIGN CHOICE, log entry 70.) -/
def State.patrolLate (s : State) : State :=
  let s := allArrays.foldl (fun s n =>
    if s.flag (F.vltPatrolCtlEnable n) && s.usable n && decide (patrolTicks (s.get (F.vltPatrolCtlPeriodH n)) <
        (s.time - SMap.look 0 s.patrolAt n.val).toNat) then s.raiseBit (F.vltStatusPatrolLate n) else s) s
  if s.flag F.tierPatrolCtlEnable && s.flag F.tierStatusReady && decide (patrolTicks (s.get F.tierPatrolCtlPeriodH) <
      (s.time - SMap.look 0 s.patrolAt 64).toNat) then s.raiseBit F.tierStatusPatrolLate else s

end Sys2Proof.Machine
end

