-- ==== Sys2Proof/Machine/Ports.lean ====
section
/-!
DEFINITION. Accesses that Spindle, the sampler and Hawkmoth make by device address, to host windows and to the tier
(R240, R257, R276, R280).
-/

namespace Sys2Proof.Machine

/-- Whether a range lies in a host window of kind 1 for the partition (R241, R389). -/
def State.inHostWindow (s : State) (p : PartNum) (a n : Nat) : Bool :=
  match regionOf a with
  | .window w off => s.windowKind w == 1 && s.get (F.pciWinCtlPartition w) == p.val && decide (off + n ≤ 0x100000000)
  | _ => false

/-- Whether a range lies in tier granules that the partition may use (R276, R378). -/
def State.inOwnTier (s : State) (p : PartNum) (a n : Nat) : Bool :=
  match regionOf a with
  | .tier t => decide (t + n ≤ tierSize) && (s.deniedIn p a n).isNone
  | _ => false

/-- The port and PCIe address behind a window address (R120). -/
def State.windowTarget (s : State) (a : Nat) : Option (Port × Nat) :=
  match regionOf a with
  | .window w off => some (s.windowPort w, s.get (F.pciWinBaseBase w) * 4096 + off)
  | _ => none

/-- Reads by a block. A window whose port is down answers bytes the spec does not state (assumption log).
(DESIGN CHOICE, log entry 38.) -/
def State.blockRead (s : State) (a n : Nat) : List Byte :=
  match s.windowTarget a with
  | some (port, addr) =>
    if s.flag (F.pciLinkUp port) then s.pcieLoad port addr n else (List.range n).map fun i => Config.freeByte (s.free + i)
  | none => s.load a n

/-- Writes by a block; a write to a port that is down is dropped (R140), and its merges read as reader 4 (R145). -/
def State.blockWrite (s : State) (a : Nat) (bs : List Byte) : State :=
  match s.windowTarget a with
  | some (port, addr) => if s.flag (F.pciLinkUp port) then s.pcieStore port addr bs else s
  | none => s.write a bs

/-- Whether a block's read of a tier or spool range meets an uncorrectable word; corrections are counted and reported
(R145, reader 5). -/
def State.blockScan (s : State) (a n : Nat) : State × Bool :=
  match s.windowTarget a with
  | some _ => (s, false)
  | none =>
    match s.badIn a n with
    | some w => ((s.eccReport w 5 true).linkCheck a n, true)
    | none => ((s.correct a n 5).countRead a n, false)

/-- A block's read of device memory that goes on past an uncorrectable word: the words are reported (R145) and the
bytes they cover are free values (assumption log). (DESIGN CHOICE, log entry 38.) -/
def State.readThrough (s : State) (a n : Nat) : State × List Byte :=
  let s := s.correct a n 5
  let bad := s.badWords a n
  let bs := (List.range n).map fun i => if s.spoiled (a + i) then Config.freeByte (s.free + i) else s.byte (a + i)
  let s := bad.foldl (fun s w => s.eccReport w 5 true) s
  (({ s with free := s.free + n } : State).countRead a n, bs)

end Sys2Proof.Machine
end

