-- ==== Sys2Proof/Machine/Cocoon.lean ====
section
/-!
DEFINITION. Cocoon (R380 to R398): sealing, SPDM sessions and their hybrid step, IDE streams, attestation reports and
encrypted imports.
-/

namespace Sys2Proof.Machine

/-- The bytes of an ASCII label. -/
def ascii (t : String) : List Byte := t.toList.map fun x => BitVec.ofNat 8 x.toNat

/-! ### Life cycle (R374, R377) -/

/-- The life-cycle state code. -/
def State.lifecycle (s : State) : Nat := s.get F.cocLifecycleState
/-- Whether the module is in Production. -/
def State.inProduction (s : State) : Bool := s.lifecycle == 1

/-! ### Sessions (R391 to R394) -/

/-- An SPDM session. -/
def State.spdmSession (s : State) (id : Word) : Option Spdm := s.coc.sessions.find? fun t => t.id == id

/-- An SPDM session held on a port. -/
def State.spdmOn (s : State) (port : Port) (id : Word) : Option Spdm :=
  s.coc.sessions.find? fun t => t.id == id && t.port == port

/-- Changes a session. -/
def State.modSpdm (s : State) (id : Word) (f : Spdm → Spdm) : State :=
  { s with coc := { s.coc with sessions := s.coc.sessions.map fun t => if t.id = id then f t else t } }

/-- COC_SESSIONS follows the sessions held. -/
def State.countSessions (s : State) : State := s.set F.cocSessionsSessions s.coc.sessions.length

/-- The session bound to a partition. -/
def State.boundSession (s : State) (p : PartNum) : Option Spdm := s.coc.sessions.find? fun t => t.part == some p

/-- Whether a partition holds a live session: bound, and no stream of it Insecure (R381, R514). -/
def State.sessionLive (s : State) (p : PartNum) : Bool :=
  (s.boundSession p).isSome && !(s.coc.streams.toList.any fun t => t.part == some p && t.insecure)

/-- Whether a sealed partition's session has ended (R381). -/
def State.sessionEnded (s : State) (p : PartNum) : Bool := s.isSealed p && !s.sessionLive p

/-- A report of class SECURITY (R486). -/
def State.securityEvent (s : State) (p : Option PartNum) (status severity : Nat) : State :=
  s.report { source := 0x047, cls := 0x0D, severity := severity, part := p, affected := affectedBy p, status := status }

/-- Whether Cocoon may write an import of a partition at a device address: in a secure granule that the partition owns (R155,
R398). (DESIGN CHOICE, log entry 46.) -/
def State.importMay (s : State) (p : PartNum) (a : Nat) : Bool :=
  match s.tagAt a with
  | some t => s.tagAllows p t && tagSecure t
  | none => false

/-- Fills what an import has written with zeros (R398), but for granules that have left the partition meanwhile (R155, R156).
(DESIGN CHOICE, log entry 46.) -/
def State.importZero (s : State) (m : Import) : State :=
  (granulesOf m.dest m.done).foldl (fun s g =>
    let a := max g m.dest
    let n := min (g + 0x400000) (m.dest + m.done) - a
    if n = 0 ∨ s.importMay m.part a = false then s else s.write a (List.replicate n 0)) s

/-- An import ends other than OK: its destination is filled with zeros and it completes (R398). -/
def State.importStop (s : State) (m : Import) (status : Nat) : State :=
  let s := { s with coc := { s.coc with imports := s.coc.imports.filter fun (x : Import) => x.ref != m.ref } }
  let s := s.importZero m
  let s := (s.raiseBit F.cocStatusImportFail).bump F.cocImportFailFailed
  (s.securityEvent (some m.part) status 3).complete m.ref status

/-- A session ends (R394): its secrets and the IDE keys of its partition are zeroised, and a running import stops. -/
def State.endSpdm (s : State) (id : Word) : State :=
  match s.spdmSession id with
  | none => s
  | some t =>
    let s := { s with coc := { s.coc with
      sessions := s.coc.sessions.filter fun (x : Spdm) => x.id != id
      streams := s.coc.streams.map fun (x : IdeStream) =>
        if x.session = some id ∨ (t.part.isSome ∧ x.part = t.part) then { x with session := none, keys := [], active := none }
        else x } }
    let s := s.countSessions
    let s := match t.part with
      | some p => s.setBit F.cocSealBound p false
      | none => s
    (s.coc.imports.filter fun (m : Import) => m.session == id).foldl (fun s m => s.importStop m stDenied) s

/-- Sessions of a port end with its link (R394). -/
def State.endPortSessions (s : State) (port : Port) : State :=
  (s.coc.sessions.filter fun t => t.port == port).foldl (fun s t => s.endSpdm t.id) s

/-- Every session secret, IDE key, TLS key and tier key is zeroised (R404). -/
def State.zeroise (s : State) : State :=
  let s := s.coc.sessions.foldl (fun s t => s.endSpdm t.id) s
  let s := (List.range 9).foldl (fun s k => s.dropKey k) s
  { s with coc := { s.coc with
    streams := s.coc.streams.map fun (x : IdeStream) => { x with keys := [], active := none }
    tls := s.coc.tls.map fun _ => none
    secrets := none } }

/-- A partition is sealed (R380): its granules become secure, its apertures close and COC_SEAL's bit is set. -/
def State.seal (s : State) (p : PartNum) : State :=
  let mark := fun t : Byte => if tagOwned t ∧ tagPart t = p then t ||| 0x10#8 else t
  let s : State := { s with
    arrays := s.arrays.map fun (a : ArrayState) => { a with vtags := a.vtags.map fun (x : Nat × Byte) => (x.1, mark x.2) }
    tierTags := s.tierTags.map fun (x : Nat × Byte) => (x.1, mark x.2)
    apertures := s.apertures.filter fun (x : Nat × Aperture) =>
      match x.2 with
      | .opened q _ _ => q != p
      | .closed => true }
  s.setBit F.cocSealSealed p true

/-! ### SPDM (R385, R386, R391, R392, R513) -/

/-- An SPDM response: its request's code and what it is computed from (the SPDM specification lays its body out).
(PRESUMED, log entry 21.) -/
def State.spdmReply (s : State) (port : Port) (code : Nat) (inputs : List Byte) : State :=
  s.send (.spdm port (Config.spdmBody code inputs))

/-- An SPDM error response. (PRESUMED, log entry 21.) -/
def State.spdmError (s : State) (port : Port) (code : Nat) : State := s.spdmReply port 0x7F [BitVec.ofNat 8 code]

/-- SPDM error InvalidRequest. -/
def errInvalid : Nat := 0x01
/-- SPDM error Busy. -/
def errBusy : Nat := 0x03
/-- SPDM error UnsupportedRequest. -/
def errUnsupported : Nat := 0x07
/-- SPDM error DecryptError. -/
def errDecrypt : Nat := 0x06

/-- Whether the mailbox is reachable: the link is up and Cocoon accepts requests. -/
def State.doeReady (s : State) (port : Port) : Bool := s.flag (F.pciLinkUp port) && s.flag F.cocStatusReady

/-- A request on the mailbox (R377): outside Production every request is answered UnsupportedRequest. -/
def State.doe (s : State) (port : Port) (f : State → State) : State :=
  if !s.doeReady port then s else if !s.inProduction then s.spdmError port errUnsupported else f s

/-- A request within a session of the port. -/
def State.doeSession (s : State) (port : Port) (id : Word) (f : Spdm → State → State) : State :=
  s.doe port fun s =>
    match s.spdmOn port id with
    | some t => if t.finished then f t s else s.spdmError port errInvalid
    | none => s.spdmError port errInvalid

/-- The next output of Cocoon's random generator (R404). (DESIGN CHOICE, log entry 44.) -/
def State.draw (s : State) : State × List Byte :=
  ({ s with coc := { s.coc with draws := s.coc.draws + 1 } }, s.nextDraw)

/-- An ECDSA signature with the identity key (R384). -/
def State.sign (s : State) (digest : List Byte) : List Byte :=
  match s.coc.secrets with
  | some k => Config.ecdsa k.identity digest
  | none => []

/-- GET_VERSION (R513). -/
def execGetVersion (port : Port) (s : State) : Host.Outcome State Fault Refusal :=
  .next (s.doe port fun s => s.spdmReply port 0x84 [])

/-- The capabilities advertised (R513): CERT, CHAL, MEAS with signature, ENCRYPT, MAC, KEY_EX, HBEAT and KEY_UPD, at the places of
SPDM 1.2's flags; MUT_AUTH, PSK and CHUNK are not among them. (PRESUMED, log entry 21.) -/
def spdmCaps : Nat := 2 ^ 1 + 2 ^ 2 + 2 * 2 ^ 3 + 2 ^ 6 + 2 ^ 7 + 2 ^ 9 + 2 ^ 13 + 2 ^ 14

/-- HeartbeatPeriod in seconds (R513). -/
def heartbeatPeriod : Nat := 60

/-- GET_CAPABILITIES (R513). -/
def execGetCapabilities (port : Port) (s : State) : Host.Outcome State Fault Refusal :=
  .next (s.doe port fun s => s.spdmReply port 0xE1 (leBytes 4 spdmCaps))

/-- NEGOTIATE_ALGORITHMS: P-384, SHA-384, secp384r1 and AES-256-GCM (R391, R513). -/
def execNegotiateAlgorithms (port : Port) (s : State) : Host.Outcome State Fault Refusal :=
  .next (s.doe port fun s => s.spdmReply port 0xE3 [])

/-- GET_DIGESTS: the digest of slot 0's chain (R513). -/
def execGetDigests (port : Port) (s : State) : Host.Outcome State Fault Refusal :=
  .next (s.doe port fun s => s.spdmReply port 0x81 (Config.sha384 s.flash.deviceChain))

/-- GET_CERTIFICATE: part of the device chain, from slot 0 only (R385, R513). -/
def execGetCertificate (port : Port) (slot offset len : Nat) (s : State) : Host.Outcome State Fault Refusal :=
  .next (s.doe port fun s =>
    if slot ≠ 0 then s.spdmError port errInvalid
    else s.spdmReply port 0x82 ((s.flash.deviceChain.drop offset).take len))

/-- CHALLENGE: an ECDSA signature, no HSS index (R386). -/
def execChallenge (port : Port) (nonce : List Byte) (s : State) : Host.Outcome State Fault Refusal :=
  .next (s.doe port fun s =>
    let r := s.draw
    let t := Config.sha384 (nonce ++ r.2)
    r.1.spdmReply port 0x83 (t ++ s.sign t))

/-- The imago in service: the fallback while the activation record is Reverting (R474, R480). -/
def State.inService (s : State) : Imago := if s.flash.record = 4 then s.flash.fallback else s.flash.running

/-- An imago's head: its first two pieces (R467). -/
def headOf (pieces : List (List Byte)) : List Byte := (pieces.take 2).flatten

/-- The manifest in a head (R467). -/
def manifestOf (head : List Byte) : List Byte := bytesAt head 5748 (min 2444 (fieldAt head 120 4))

/-- The digest of the running imago's manifest (R387). -/
def State.manifestDigest (s : State) : List Byte := Config.sha384 (manifestOf (headOf s.inService.pieces))

/-- GET_MEASUREMENTS: signed measurements, an ECDSA signature and no HSS index (R386). -/
def execGetMeasurements (port : Port) (nonce : List Byte) (s : State) : Host.Outcome State Fault Refusal :=
  .next (s.doe port fun s =>
    let r := s.draw
    let t := Config.sha384 (s.manifestDigest ++ nonce ++ r.2)
    r.1.spdmReply port 0xE0 (s.manifestDigest ++ t ++ s.sign t))

/-- KEY_EXCHANGE: a new session, whose answer gives the HeartbeatPeriod, or Busy beyond 16 (R391). The identifier is the one the exchange forms; one in use forms
no session. -/
def execKeyExchange (port : Port) (id : Word) (transcript : List Byte) (s : State) : Host.Outcome State Fault Refusal :=
  .next (s.doe port fun s =>
    if 16 ≤ s.coc.sessions.length then s.spdmError port errBusy
    else if (s.spdmSession id).isSome then s
    else
      let t : Spdm := {
        id := id, port := port, finished := false, transcript := transcript, prk := none, kImport := [], binding := []
        part := none, importSeq := 1, lastHeard := s.time, keyUpdates := 0 }
      let s := s.draw.1
      let s := { s with coc := { s.coc with sessions := s.coc.sessions ++ [t] } }
      s.countSessions.spdmReply port 0xE4 (leBytes 4 id.toNat ++ leBytes 1 heartbeatPeriod ++ transcript))

/-- FINISH completes a session's handshake, or ends the session when its check fails (R391). -/
def execFinish (port : Port) (session : Word) (transcript : List Byte) (verifies : Bool) (s : State) :
    Host.Outcome State Fault Refusal :=
  .next (s.doe port fun s =>
    match s.spdmOn port session with
    | none => s.spdmError port errInvalid
    | some t =>
      if t.finished then s.spdmError port errInvalid
      else if verifies then
        (s.modSpdm session fun t => { t with finished := true, transcript := transcript, lastHeard := s.time }).spdmReply port
          0xE5 (leBytes 4 session.toNat)
      else (s.endSpdm session).spdmError port errDecrypt)

/-- HEARTBEAT keeps a session alive (R513). -/
def execHeartbeat (port : Port) (session : Word) (s : State) : Host.Outcome State Fault Refusal :=
  .next (s.doeSession port session fun _ s =>
    (s.modSpdm session fun t => { t with lastHeard := s.time }).spdmReply port 0xE8 (leBytes 4 session.toNat))

/-- Ticks after which a heartbeat is missed: twice the 60 s period, as SPDM 1.2 counts it (R513; assumption log).
(PRESUMED, log entry 21.) -/
def spdmLimit : Nat := 2 * heartbeatPeriod * 100000000

/-- A missed heartbeat ends the session (R394). -/
def execSpdmHeartbeatMiss (session : Word) (s : State) : Host.Outcome State Fault Refusal :=
  .next (match s.spdmSession session with
  | some t => if spdmLimit ≤ (s.time - t.lastHeard).toNat then s.endSpdm session else s
  | none => s)

/-- KEY_UPDATE (R513). -/
def execKeyUpdate (port : Port) (session : Word) (s : State) : Host.Outcome State Fault Refusal :=
  .next (s.doeSession port session fun _ s =>
    (s.modSpdm session fun t => { t with keyUpdates := t.keyUpdates + 1 }).spdmReply port 0xE9 (leBytes 4 session.toNat))

/-- END_SESSION (R394). -/
def execEndSession (port : Port) (session : Word) (s : State) : Host.Outcome State Fault Refusal :=
  .next (s.doeSession port session fun _ s =>
    (s.spdmReply port 0xEC (leBytes 4 session.toNat)).endSpdm session)

/-- A vendor-defined message: version 1.2, its code, the standard and vendor identifiers and its payload (R392; SPDM lays it
out). (PRESUMED, log entry 21.) -/
def vendorMessage (code : Nat) (standard vendor : BitVec 16) (payload : List Byte) : List Byte :=
  leBytes 1 0x12 ++ leBytes 1 code ++ leBytes 2 0 ++ leBytes 2 standard.toNat ++ leBytes 1 2 ++ leBytes 2 vendor.toNat
    ++ leBytes 2 payload.length ++ payload

/-- The PCI-SIG's number among SPDM's standards (R392). (PRESUMED, log entry 21.) -/
def pciSig : BitVec 16 := 3

/-- The hybrid step (R391, R392). A request of another code, and a vendor-defined request under other identifiers, is none of
R513's list and is answered UnsupportedRequest. (PRESUMED, log entry 21.) -/
def execVendorDefinedRequest (port : Port) (session : Word) (request : VendorRequest) (s : State) :
    Host.Outcome State Fault Refusal :=
  .next (s.doe port fun s =>
    if request.code ≠ 0xFE#8 ∨ request.standard ≠ pciSig ∨ request.vendor ≠ Config.pciVendor then s.spdmError port errUnsupported
    else
      match s.spdmOn port session with
      | none => s.spdmError port errInvalid
      | some t =>
        let key := request.payload.drop 4
        if !t.finished || t.prk.isSome || request.payload.take 4 != [1, 0, 0, 0] || key.length != 1568 || !Config.kemKeyOk key then
          (s.endSpdm session).spdmError port errInvalid
        else
          let r := s.draw
          let k := Config.kemEncaps key r.2
          let answer := vendorMessage 0x7E request.standard request.vendor ([2, 0, 0, 0] ++ k.1)
          let th := Config.sha384 (t.transcript ++ vendorMessage 0xFE request.standard request.vendor request.payload ++ answer)
          let prk := Config.hkdfExtract (Config.exportSecret t.transcript) k.2
          (r.1.modSpdm session fun t => { t with
            prk := some prk
            kImport := Config.hkdfExpand prk (ascii "MNX8 import" ++ th) 32
            binding := Config.hkdfExpand prk (ascii "MNX8 report" ++ th) 48 }).send (.spdm port answer))

/-! ### IDE streams (R395, R396, R514) -/

/-- The index of stream k of a port. -/
def streamIx (port : Port) (k : Fin 4) : Fin 8 := ⟨4 * port.val + k.val, by omega⟩

/-- A stream. -/
def State.stream (s : State) (port : Port) (k : Fin 4) : IdeStream := s.coc.streams[(streamIx port k).val]

/-- Changes a stream. -/
def State.modStream (s : State) (port : Port) (k : Fin 4) (f : IdeStream → IdeStream) : State :=
  { s with coc := { s.coc with streams := s.coc.streams.set (streamIx port k).val (f (s.stream port k)) } }

/-- The code of a sub-stream in a key's label (assumption log). (PRESUMED, log entry 45.) -/
def subCode : SubStream → Nat
  | .posted => 0
  | .nonPosted => 1
  | .completion => 2

/-- Two byte lists XORed. -/
def xorBytes (a b : List Byte) : List Byte := List.zipWith (· ^^^ ·) a b

/-- What a stream's address association covers on its port (R396, R514): the pairs bound to its partition, bit k, and the windows
of that partition, bit w. (PRESUMED, log entry 45.) -/
def State.streamCovers (s : State) (port : Port) (v : IdeStream) : Nat × Nat :=
  match v.part with
  | none => (0, 0)
  | some p =>
    (((allPairs.filter fun (k : PairNum) => s.pairPort k == port && s.pairPart k == some p).map fun (k : PairNum) => 2 ^ k.val).sum,
      ((List.finRange 16).filter fun (w : Fin 16) => s.windowKind w != 0 && s.windowPort w == port
        && s.get (F.pciWinCtlPartition w) == p.val).map (fun (w : Fin 16) => 2 ^ w.val) |>.sum)

/-- What QUERY tells of a stream (R514): its three sub-streams, its two key sets and PCRC, which every stream has; the key set in
use, whether it is Insecure, how many keys it holds, and what it covers. (PRESUMED, log entry 45.) -/
def State.streamInfo (s : State) (port : Port) (k : Fin 4) : List Byte :=
  let v := s.stream port k
  let c := s.streamCovers port v
  leBytes 1 k.val ++ leBytes 1 3 ++ leBytes 1 2 ++ leBytes 1 1 ++ leBytes 1 ((v.active.map fun a => a.val + 1).getD 0)
    ++ leBytes 1 (if v.insecure then 1 else 0) ++ leBytes 1 v.keys.length ++ leBytes 2 c.1 ++ leBytes 2 c.2

/-- IDE_KM QUERY: what the port's four streams are and how they stand (R514). (PRESUMED, log entry 45.) -/
def execQuery (port : Port) (session : Word) (s : State) : Host.Outcome State Fault Refusal :=
  .next (s.doeSession port session fun _ s =>
    s.spdmReply port 0x100 ((List.finRange 4).flatMap fun k => s.streamInfo port k))

/-- KEY_PROG loads an unmasked key, within a bound session after the hybrid step (R395). (PRESUMED, log entry 45.) -/
def execKeyProg (port : Port) (session : Word) (stream : Fin 4) (keySet : Fin 2) (sub : SubStream) (masked : List Byte)
    (s : State) : Host.Outcome State Fault Refusal :=
  .next (s.doeSession port session fun t s =>
    let v := s.stream port stream
    match t.prk with
    | none => s.spdmError port errInvalid
    | some prk =>
      if t.part.isNone || masked.length != 32 || (v.session.isSome && v.session != some session)
        || (v.part.isSome && v.part != t.part) then s.spdmError port errInvalid
      else
        let mask := Config.hkdfExpand prk
          (ascii "MNX8 ide" ++ leBytes 1 stream.val ++ leBytes 1 keySet.val ++ leBytes 1 (subCode sub)) 32
        let key := xorBytes masked mask
        (s.modStream port stream fun v => { v with
          session := some session
          keys := (v.keys.filter fun k => !(k.1 == keySet && k.2.1 == sub)) ++ [(keySet, sub, key)] }).spdmReply port 0x101
            (leBytes 1 stream.val))

/-- K_SET_GO activates a key set whose three keys are programmed, without unbinding the stream (R396).
(PRESUMED, log entry 45.) -/
def execKSetGo (port : Port) (session : Word) (stream : Fin 4) (keySet : Fin 2) (s : State) :
    Host.Outcome State Fault Refusal :=
  .next (s.doeSession port session fun _ s =>
    let v := s.stream port stream
    let full := [SubStream.posted, .nonPosted, .completion].all fun b => v.keys.any fun k => k.1 == keySet && k.2.1 == b
    if v.session != some session || !full then s.spdmError port errInvalid
    else (s.modStream port stream fun v => { v with active := some keySet }).spdmReply port 0x102 (leBytes 1 stream.val))

/-- K_SET_STOP stops a key set (R514). (PRESUMED, log entry 45.) -/
def execKSetStop (port : Port) (session : Word) (stream : Fin 4) (keySet : Fin 2) (s : State) :
    Host.Outcome State Fault Refusal :=
  .next (s.doeSession port session fun _ s =>
    let v := s.stream port stream
    if v.session != some session then s.spdmError port errInvalid
    else
      (s.modStream port stream fun v => { v with active := if v.active = some keySet then none else v.active }).spdmReply port
        0x103 (leBytes 1 stream.val))

/-- A stream's integrity check fails: it goes Insecure (R514). -/
def execIdeIntegrityFail (port : Port) (stream : Fin 4) (s : State) : Host.Outcome State Fault Refusal :=
  .next (if (s.stream port stream).active.isNone then s
  else s.modStream port stream fun v => { v with insecure := true, active := none })

/-! ### SEC_SESSION, SEC_IDE (R393, R396) -/

/-- SEC_SESSION binds a session and seals the partition (R380, R393). -/
def execSecSession (c : CmdRef) (s : State) : Host.Outcome State Fault Refusal :=
  .next (s.runPart c 0x0802 fun m p s =>
    if !s.inProduction then s.complete c stLifecycle
    else
      let id := BitVec.ofNat 32 (m.arg 8 4)
      match s.spdmSession id with
      | none => s.complete c stBad
      | some t =>
        if t.prk.isNone || (t.part.isSome && t.part != some p) || s.isSealed p then s.complete c stDenied
        else
          (((s.seal p).modSpdm id fun t => { t with part := some p }).setBit F.cocSealBound p true).complete c stOk)

/-- SEC_IDE binds a stream to a sealed partition (R396). -/
def execSecIde (c : CmdRef) (s : State) : Host.Outcome State Fault Refusal :=
  .next (s.runPart c 0x0804 fun m p s =>
    if !s.inProduction then s.complete c stLifecycle
    else
      match (List.finRange 4)[m.arg 8 1]?, (List.finRange 2)[m.arg 9 1]? with
      | some k, some port =>
        let v := s.stream port k
        let own := v.session.isSome && v.session == (s.boundSession p).map (·.id) && !v.keys.isEmpty
        if !s.isSealed p || !own || (v.part.isSome && v.part != some p) then s.complete c stDenied
        else ((s.modStream port k fun v => { v with part := some p }).setBit F.cocSealIde p true).complete c stOk
      | _, _ => s.complete c stDenied)

/-! ### Attestation (R386 to R390, R442) -/

/-- Whether an HSS record's CRC-32C holds (R390). -/
def HssRecord.valid (r : HssRecord) : Bool := r.crc == crc32c (leBytes 4 r.reserved)

/-- The higher valid reserved end (R390); with no valid record no index may be used, so that none is used twice.
(DESIGN CHOICE, log entry 44.) -/
def Flash.hssEnd (f : Flash) : Nat :=
  match f.hss[0].valid, f.hss[1].valid with
  | true, true => max f.hss[0].reserved f.hss[1].reserved
  | true, false => f.hss[0].reserved
  | false, true => f.hss[1].reserved
  | false, false => 2 ^ 30

/-- A new reserved end goes into the record that does not hold the higher valid one: the two alternate (R390). -/
def Flash.hssWrite (f : Flash) (reserved : Nat) : Flash :=
  let keep0 := f.hss[0].valid && (!f.hss[1].valid || decide (f.hss[1].reserved ≤ f.hss[0].reserved))
  let i : Fin 2 := if keep0 then 1 else 0
  { f with hss := f.hss.set i.val { reserved := reserved, crc := crc32c (leBytes 4 reserved) } }

/-- lms_low and lms_exhausted for a next index, and the LMS_LOW record once (R390, R407). -/
def State.lmsLevel (s : State) (next : Nat) : State :=
  let low := decide (2 ^ 30 - next < 2 ^ 20)
  let s := if low then s.set F.cocStatusLmsLow 1 else s
  let s := if 2 ^ 30 ≤ next then s.set F.cocStatusLmsExhausted 1 else s
  if low && !s.coc.lowRaised then
    ({ s with coc := { s.coc with lowRaised := true } } : State).securityEvent none stLmsLow 2
  else s

/-- Uses the next HSS index; a new reserved end is written to flash first when it is needed (R390). -/
def State.hssTake (s : State) : State × Nat :=
  let q := s.get F.cocLmsNextNext
  let s := if s.get F.cocLmsReservedReservedEnd ≤ q then
      { s.set F.cocLmsReservedReservedEnd (s.get F.cocLmsReservedReservedEnd + 1024) with
        flash := s.flash.hssWrite (s.get F.cocLmsReservedReservedEnd + 1024) }
    else s
  let s := (s.set F.cocLmsNextNext (q + 1)).set F.cocLmsRemainRemain (2 ^ 30 - (q + 1))
  let s : State := if s.coc.tree = some (q / 2 ^ 15) then s
    else { s with coc := { s.coc with tree := some (q / 2 ^ 15), treeReady := false } }
  let s := if (decide (2 ^ 14 ≤ (q + 1) % 2 ^ 15) && !s.coc.treeReady) = true then s.set F.cocStatusTreePending 1 else s
  (s.lmsLevel (q + 1), q)

/-- Whether the tree that holds the next index is built (R390, R442). -/
def State.treeUsable (s : State) : Bool :=
  let n := s.get F.cocLmsNextNext / 2 ^ 15
  match s.coc.tree with
  | none => false
  | some k => k == n || (k + 1 == n && s.coc.treeReady)

/-- The partition record that a report digests (R387), its items in the order given there. -/
def State.partRecord (s : State) (p : PartNum) : List Byte :=
  let usable := allArrays.foldl (fun (m : Nat) (n : ArrayNum) => if s.usable n then m + 2 ^ n.val else m) 0
  leBytes 1 (s.part p).groups.toNat ++ leBytes 8 usable
    ++ leBytes 4 (s.get (F.reelPMapBaseBase p)) ++ leBytes 4 (s.get (F.reelPMapCountCount p))
    ++ leBytes 4 (s.get (F.reelPSeqBaseBase p)) ++ leBytes 4 (s.get (F.reelPSeqCountCount p))
    ++ leBytes 4 (s.get (F.reelPFrameBaseBase p)) ++ leBytes 4 (s.get (F.reelPFrameCountCount p))
    ++ leBytes 4 (s.get (F.reelPTierBaseBase p)) ++ leBytes 4 (s.get (F.reelPTierSlotsCount p))
    ++ leBytes 4 (s.get (F.reelPSlotBytesBytes p)) ++ leBytes 2 (s.get (F.reelPFbCountCount p))
    ++ leBytes 4 (s.reg (F.reelPCtlEnable p).key).toNat
    ++ ((List.finRange 4).map fun i => leBytes 2 (s.get (F.shtWeightWeight i p)) ++ leBytes 2 (s.get (F.shtWeightCeiling i p))).flatten
    ++ leBytes 1 (s.get F.pwrStatusIsolated) ++ leBytes 2 (s.get (F.pwrShareShare p))

/-- Bytes 0 to 255 of a report (R387). -/
def State.reportBody (s : State) (p : Option PartNum) (q : Nat) (nonce : List Byte) : List Byte :=
  let flags := match p with
    | some p => (if s.isSealed p then 1 else 0) + (if (s.boundSession p).isSome then 2 else 0)
        + (if s.bit F.cocSealIde p then 4 else 0)
    | none => 0
  leBytes 2 1 ++ leBytes 1 s.lifecycle ++ leBytes 1 ((p.map (·.val)).getD 0xFF) ++ leBytes 4 q ++ leBytes 8 s.time.toNat
    ++ leBytes 8 Config.serial.toNat ++ leBytes 8 flags ++ bytesAt nonce 0 32 ++ bytesAt s.manifestDigest 0 48
    ++ bytesAt ((p.bind fun p => (s.part p).model.map (·.digest)).getD []) 0 48
    ++ (match p with
      | some p => bytesAt (Config.sha384 (s.partRecord p)) 0 48
      | none => List.replicate 48 0)
    ++ bytesAt ((p.bind fun p => (s.boundSession p).map (·.binding)).getD []) 0 48

/-- A signed report (R387, R388). -/
def State.signedReport (s : State) (p : Option PartNum) (q : Nat) (nonce : List Byte) : List Byte :=
  let body := s.reportBody p q nonce
  match s.coc.secrets with
  | some k => body ++ bytesAt (Config.ecdsa k.identity (Config.sha384 body)) 0 96 ++ bytesAt (Config.hss k.hss q body) 0 5396
  | none => bytesAt body 0 5748

/-- SEC_ATTEST (R389, R390). -/
def execSecAttest (c : CmdRef) (s : State) : Host.Outcome State Fault Refusal :=
  .next (s.runCmd c 0x0801 fun m s =>
    let p := m.part?
    let addr := m.arg 40 8
    let who := (p.map (·.val)).getD 8
    let recent := match SMap.look none s.coc.lastReport who with
      | some t => decide ((s.time - t).toNat < 10000000)
      | none => false
    let placed := addr % 64 == 0 && (match p with
      | some p => s.inHostWindow p addr 5748
      | none => true)
    if !s.inProduction then s.complete c stLifecycle
    else if !placed then s.complete c stDenied
    else if recent || (decide (s.get F.cocLmsNextNext < 2 ^ 30) && !s.flag F.cocStatusLmsExhausted && !s.treeUsable) then
      s.complete c stBusy
    else if s.flag F.cocStatusLmsExhausted then
      let s := if s.coc.exhaustedRaised then s
        else ({ s with coc := { s.coc with exhaustedRaised := true } } : State).securityEvent none stLmsOut 3
      s.complete c stLmsOut
    else
      let r := s.hssTake
      let s := r.1
      let bs := s.signedReport p r.2 (bytesAt m.bytes 8 32)
      let s := match p, m.ref.src with
        | some _, _ => s.blockWrite addr bs
        | none, .pair k => s.pcieStore (s.pairPort k) addr bs
        | none, .mgmt _ => s
      let s := { s with coc := { s.coc with lastReport := SMap.put none s.coc.lastReport who (some s.time) } }
      (s.bump F.cocReportsReports).complete c (if s.flag F.cocStatusLmsLow then stLmsLow else stOk))

/-- The pending tree is computed (R390, R442). -/
def execTreeComputationDone (s : State) : Host.Outcome State Fault Refusal :=
  .next (if !s.flag F.cocStatusTreePending then s
  else
    let s := match s.coc.tree with
      | none => { s with coc := { s.coc with tree := some (s.get F.cocLmsNextNext / 2 ^ 15) } }
      | some _ => { s with coc := { s.coc with treeReady := true } }
    let again := decide (2 ^ 14 ≤ s.get F.cocLmsNextNext % 2 ^ 15) && !s.coc.treeReady
    s.set F.cocStatusTreePending (if again then 1 else 0))

/-! ### Encrypted import (R397, R398) -/

/-- Whether a range lies in a partition's secure granules and in one vault or the tier (R398). -/
def State.importDest (s : State) (p : PartNum) (a n : Nat) : Bool :=
  a % 64 == 0 && decide (0 < n) && sameRegion a (a + n - 1)
    && (granulesOf a n).all fun g => s.importMay p (max g a)

/-- Whether an import's source lies where its partition may read (R398). -/
def State.importSrc (s : State) (p : PartNum) (a n : Nat) : Bool := s.inHostWindow p a n || s.inOwnTier p a n

/-- The blob's length for a plaintext length (R397). -/
def blobLen (len : Nat) : Nat := 64 + len + 16 * ceilDiv len 0x100000

/-- A check of an import that fails (R398). -/
def State.importRefuse (s : State) (c : CmdRef) (p : PartNum) (status : Nat) : State :=
  let s := s.bump F.cocImportFailFailed
  let s := if status = stLifecycle then s else (s.raiseBit F.cocStatusImportFail).securityEvent (some p) status 3
  s.complete c status

/-- Reads an import's source: the host's memory or the partition's tier. -/
def State.importRead (s : State) (p : PartNum) (a n : Nat) : State × List Byte :=
  if s.inHostWindow p a n then (s, s.blockRead a n) else s.readThrough a n

/-- SEC_IMPORT's checks and its start (R398). (DESIGN CHOICE, log entry 46.) -/
def execSecImport (c : CmdRef) (hw : HostStores) (s : State) : Host.Outcome State Fault Refusal :=
  .next ((s.hostStores hw).runPart c 0x0803 fun m p s =>
    let src := m.arg 8 8
    let dst := m.arg 16 8
    let len := m.arg 24 8
    if !s.inProduction then s.importRefuse c p stLifecycle
    else
      match s.boundSession p with
      | none => s.importRefuse c p stDenied
      | some t =>
        let n := max 64 len
        if !s.sessionLive p || !s.importSrc p src n || !s.importDest p dst 64 then
          s.importRefuse c p stDenied
        else
          let r := s.importRead p src 64
          let s := r.1
          let h := r.2
          let l := fieldAt h 8 8
          if !s.importDest p dst (max 1 l) && decide (l ≤ 4294967232) then s.importRefuse c p stDenied
          else if fieldAt h 0 2 ≠ 1 ∨ fieldAt h 2 2 ≠ 0 ∨ (h.drop 28).any (· != 0) ∨ l % 64 ≠ 0 ∨ l < 64 ∨ 4294967232 < l
              ∨ len ≠ blobLen l ∨ fieldAt h 4 4 ≠ t.importSeq then s.importRefuse c p stSig
          else
            (({ s with coc := { s.coc with imports := s.coc.imports ++ [{
              ref := c, part := p, session := t.id, source := src, dest := dst, len := l, header := h, done := 0 }] } } :
                State).park c (.importing 0)))

/-- The nonce of chunk i: nonce_base XOR i as a big-endian number (R397). -/
def chunkNonce (base : List Byte) (i : Nat) : List Byte := xorBytes base (leBytes 12 i).reverse

/-- One chunk of an import: its tag is verified before its plaintext is written (R398). Each chunk's accesses are checked again:
where the source or the destination has left the partition meanwhile, the import ends DENIED (R155, R156).
(DESIGN CHOICE, log entry 46.) -/
def execImportChunk (c : CmdRef) (hw : HostStores) (s : State) : Host.Outcome State Fault Refusal :=
  .next (let s := s.hostStores hw
    match s.coc.imports.find? (fun m => m.ref == c) with
    | none => s
    | some m =>
      match s.spdmSession m.session with
      | none => s.importStop m stDenied
      | some t =>
        let i := m.done / 0x100000
        let n := min 0x100000 (m.len - m.done)
        let from_ := m.source + 64 + i * (0x100000 + 16)
        if !s.importSrc m.part from_ (n + 16) || !s.importDest m.part (m.dest + m.done) n then s.importStop m stDenied
        else
        let r := s.importRead m.part from_ (n + 16)
        let s := r.1
        match Config.gcmOpen t.kImport (chunkNonce (bytesAt m.header 16 12) i) (m.header ++ leBytes 8 m.dest ++ leBytes 4 i) r.2 with
        | none => s.importStop m stSig
        | some pt =>
          let s := s.write (m.dest + m.done) (bytesAt pt 0 n)
          if m.done + n < m.len then
            let s : State := { s with coc := { s.coc with
              imports := s.coc.imports.map fun (x : Import) => if x.ref = c then { x with done := m.done + n } else x } }
            s.park c (.importing (m.done + n))
          else
            let s : State := { s with coc := { s.coc with imports := s.coc.imports.filter fun (x : Import) => x.ref != c } }
            let s := s.modSpdm m.session fun t => { t with importSeq := t.importSeq + 1 }
            (s.addTo F.cocImportBytesBytes m.len).complete c stOk)

end Sys2Proof.Machine
end

