-- ==== Sys2Proof/Machine/Reel.lean ====
section
/-!
DEFINITION. The reel: page map, sequence table, pools, steps, length tables and page copies (R173 to R190, R205).
-/

namespace Sys2Proof.Machine

/-! ### Tables and pools (R174 to R177) -/

/-- Spool, vault or tier address with the partition's reel registers at hand: chain order of the partition's usable
arrays (R29, R205). -/
def State.chain (s : State) (p : PartNum) : List ArrayNum :=
  let g := (s.part p).groups
  let first := ((List.range 8).find? fun k => g.getLsbD k && !g.getLsbD ((k + 7) % 8)).getD 0
  ((List.range 64).map fun i => (⟨(8 * first + i) % 64, Nat.mod_lt _ (by decide)⟩ : ArrayNum)).filter fun n =>
    s.inPart p n && s.usable n

/-- A page map entry. -/
def State.mapEntry (s : State) (e : Nat) : Word := SMap.look 0 s.reel.map e
/-- Whether a numbered word of the reel is error-free once written. -/
def Reel.good (r : Reel) (k : Nat) : Reel := { r with bad := r.bad.filter (· != k), ce := r.ce.filter (· != k) }
/-- Sets a page map entry, whose word is good from then on (R173). -/
def State.setMapEntry (s : State) (e : Nat) (w : Word) : State :=
  { s with reel := { s.reel.good e with map := SMap.put 0 s.reel.map e w } }
/-- frame and where of a map entry (R174). -/
def entryOf (frame kind : Nat) : Word := BitVec.ofNat 32 (frame % 0x80000 + kind * 0x80000)
/-- The frame, slot or fallback index of an entry. -/
def entryFrame (w : Word) : Nat := bitsAt w.toNat 0 19
/-- Where an entry's page lies. -/
def entryWhere (w : Word) : Nat := bitsAt w.toNat 19 2

/-- Word w of a sequence table entry. -/
def State.seqWord (s : State) (i w : Nat) : Word := SMap.look 0 s.reel.seqs (8 * i + w)
/-- Sets a word of a sequence table entry, good from then on (R173). -/
def State.setSeqWord (s : State) (i w : Nat) (v : Word) : State :=
  { s with reel := { s.reel.good (0x40000 + 8 * i + w) with seqs := SMap.put 0 s.reel.seqs (8 * i + w) v } }
/-- Sets bits of a word of an entry. -/
def State.setSeqBits (s : State) (i w lo width v : Nat) : State :=
  s.setSeqWord i w (BitVec.ofNat 32 (withBits (s.seqWord i w).toNat lo width v))

/-- state of a sequence (R175): 0 free, 1 active, 2 parked, 3 paused. -/
def State.seqState (s : State) (i : Nat) : Nat := bitsAt (s.seqWord i 0).toNat 0 2
/-- fallback of a sequence. -/
def State.seqFallback (s : State) (i : Nat) : Bool := bitsAt (s.seqWord i 0).toNat 2 1 == 1
/-- in_tier of a sequence. -/
def State.seqInTier (s : State) (i : Nat) : Bool := bitsAt (s.seqWord i 0).toNat 3 1 == 1
/-- partition of a sequence. -/
def State.seqPart (s : State) (i : Nat) : Nat := bitsAt (s.seqWord i 0).toNat 4 3
/-- length of a sequence. -/
def State.seqLen (s : State) (i : Nat) : Nat := bitsAt (s.seqWord i 0).toNat 8 21
/-- map_base of a sequence. -/
def State.seqMap (s : State) (i : Nat) : Nat := bitsAt (s.seqWord i 1).toNat 0 18
/-- map_cap of a sequence. -/
def State.seqCap (s : State) (i : Nat) : Nat := bitsAt (s.seqWord i 2).toNat 0 17
/-- Pages that hold a length. -/
def pagesOf (len : Nat) : Nat := ceilDiv len 16

/-- The sequence indices of a partition (R176). -/
def State.seqRange (s : State) (p : PartNum) : List Nat :=
  (List.range (s.get (F.reelPSeqCountCount p))).map fun i => s.get (F.reelPSeqBaseBase p) + i

/-- Whether the partition's sequence range holds an index. -/
def State.seqIn (s : State) (p : PartNum) (i : Nat) : Bool :=
  decide (s.get (F.reelPSeqBaseBase p) ≤ i) && decide (i < s.get (F.reelPSeqBaseBase p) + s.get (F.reelPSeqCountCount p))

/-- The vault frame pool. -/
def State.framePool (s : State) (p : PartNum) : List Nat := s.reel.frames[p.val]
/-- Sets the vault frame pool. -/
def State.setFrames (s : State) (p : PartNum) (l : List Nat) : State :=
  { s with reel := { s.reel with frames := s.reel.frames.set p.val l } }
/-- The tier slot pool. -/
def State.slotPool (s : State) (p : PartNum) : List Nat := s.reel.slots[p.val]
/-- Sets the tier slot pool. -/
def State.setSlots (s : State) (p : PartNum) (l : List Nat) : State :=
  { s with reel := { s.reel with slots := s.reel.slots.set p.val l } }
/-- An array's fallback pool. -/
def State.fbPool (s : State) (n : ArrayNum) : List Nat := SMap.look [] s.reel.fb n.val
/-- Sets an array's fallback pool. -/
def State.setFb (s : State) (n : ArrayNum) (l : List Nat) : State :=
  { s with reel := { s.reel with fb := SMap.put [] s.reel.fb n.val l } }

/-- The home of a fallback page (R205). -/
def State.homeOf (s : State) (p : PartNum) (page : Nat) : Option ArrayNum :=
  let ring := s.chain p
  if ring.isEmpty then none else ring[page % ring.length]?

/-- A partition's pools as at its creation (R177). -/
def State.fillPools (s : State) (p : PartNum) : State :=
  let base := s.get (F.reelPFrameBaseBase p)
  let s := s.setFrames p ((List.range (s.get (F.reelPFrameCountCount p))).map fun i => base + i)
  let s := s.setSlots p (List.range (s.get (F.reelPTierSlotsCount p)))
  let fbn := if s.flag (F.reelPCtlFallbackEn p) then s.get (F.reelPFbCountCount p) else 0
  (s.arraysOf p).foldl (fun s n => s.setFb n (List.range fbn)) s

/-- Gives one page's place back to its pool. -/
def State.freePage (s : State) (p : PartNum) (page e : Nat) : State :=
  let w := s.mapEntry e
  let s := s.setMapEntry e 0
  if entryWhere w = 1 then s.setFrames p (entryFrame w :: s.framePool p)
  else if entryWhere w = 2 then s.setSlots p (entryFrame w :: s.slotPool p)
  else if entryWhere w = 3 then
    match s.homeOf p page with
    | some n => s.setFb n (entryFrame w :: s.fbPool n)
    | none => s
  else s

/-- A sequence's pages return in increasing page order, so the highest page's frame is taken next (R177). -/
def State.freePages (s : State) (p : PartNum) (i : Nat) : State :=
  let base := s.seqMap i
  (List.range (pagesOf (s.seqLen i))).foldl (fun s pg => s.freePage p pg (base + pg)) s

/-- Places return to a pool in increasing page order, the last on top (R177). -/
def poolBack (places pool : List Nat) : List Nat := places.reverse ++ pool

/-- Frames and slots of a sequence return while its index stays (R259). -/
def State.dropPages (s : State) (p : PartNum) (i : Nat) : State :=
  ((s.freePages p i).setSeqBits i 0 8 21 0).setSeqBits i 0 3 1 0

/-- Releases a sequence. -/
def State.freeSeq (s : State) (p : PartNum) (i : Nat) : State :=
  let s := s.freePages p i
  (List.range 8).foldl (fun s w => s.setSeqWord i w 0) s

/-! ### Page copies (R188, R263) -/

/-- Drops a copy that has finished. -/
def State.dropCopy (s : State) (c : PageCopy) : State :=
  { s with reel := { s.reel with copies := s.reel.copies.filter fun d => d != c } }

/-- The running copies of a sequence whose pages return end, and give their places back (R177). -/
def State.cancelCopies (s : State) (i : Nat) : State :=
  s.reel.copies.foldl (fun s c =>
    if c.seq = i then
      (if c.toTier then s.setSlots c.part (poolBack c.places (s.slotPool c.part))
        else s.setFrames c.part (poolBack c.places (s.framePool c.part))).dropCopy c
    else s) s

/-! ### Spindle's updates (R178, R179) -/

/-- Applies one update. -/
def State.seqApply (s : State) (p : PartNum) : SeqUpdate → State
  | .setup i mapBase cap fb =>
    let s := (List.range cap).foldl (fun s k => s.setMapEntry (mapBase + k) 0) s
    let s := s.setSeqWord i 0 (BitVec.ofNat 32 (1 + (if fb then 4 else 0) + p.val * 16))
    ((s.setSeqWord i 1 (BitVec.ofNat 32 mapBase)).setSeqWord i 2 (BitVec.ofNat 32 cap)).setSeqWord i 4 0
  | .activate i => s.setSeqBits i 0 0 2 1
  | .pause i => s.setSeqBits i 0 0 2 3
  | .release i => (s.cancelCopies i).freeSeq p i
  | .drop i => (s.cancelCopies i).dropPages p i
  | .mapWrite e w => s.setMapEntry e w
  | .seqWrite i w v => s.setSeqWord i w v

/-- Applies the waiting updates of a partition once no step runs (R179). -/
def State.seqFlush (s : State) (p : PartNum) : State :=
  if (s.reel.steps[p.val]).isSome then s
  else
    let mine := s.reel.updates.filter fun u => u.1 == p
    let s := { s with reel := { s.reel with updates := s.reel.updates.filter fun u => u.1 != p } }
    mine.foldl (fun s u => s.seqApply p u.2) s

/-- An update takes effect at once between steps, after those that waited, and waits while a step runs (R179). -/
def State.seqUpdate (s : State) (p : PartNum) (u : SeqUpdate) : State :=
  if (s.reel.steps[p.val]).isSome then { s with reel := { s.reel with updates := s.reel.updates ++ [(p, u)] } }
  else (s.seqFlush p).seqApply p u

/-! ### Error words of the reel (R173) -/

/-- Counts and reports an error word of the reel's tables or pools (R173, R486): memory 3, reader 5.
(DESIGN CHOICE, log entry 71.) -/
def State.reelEcc (s : State) (p : PartNum) (bad : Bool) : State :=
  (if bad then (s.bump F.reelEccUncorrUncorrected).raiseBit F.reelStatusMapUe else s.bump F.reelEccCorrCorrected).report {
    source := 0x040, cls := (if bad then 0x04 else 0x03), severity := (if bad then 3 else 1), part := some p
    affected := partBit p, inst := 0xFFFF, detail := [3, 5, 0] }

/-- The reel reads words of its tables or pools for a partition: error words are counted and reported, and the answer tells
whether one is uncorrectable (R173). -/
def State.reelScan (s : State) (p : PartNum) (hit : Nat → Bool) : State × Bool :=
  let bad := s.reel.bad.filter hit
  (bad.foldl (fun s _ => s.reelEcc p true) ((s.reel.ce.filter hit).foldl (fun s _ => s.reelEcc p false) s), !bad.isEmpty)

/-- The words of a sequence's table entry and map entries (R173). -/
def State.seqWords (s : State) (i w : Nat) : Bool :=
  (decide (0x40000 + 8 * i ≤ w) && decide (w < 0x40000 + 8 * i + 8)) ||
    (decide (s.seqMap i ≤ w) && decide (w < s.seqMap i + s.seqCap i))

/-- Whether an uncorrectable word lies in a sequence's table entry or map entries (R173). -/
def State.seqBad (s : State) (i : Nat) : Bool := s.reel.bad.any fun w => s.seqWords i w

/-- The words of a partition's pools (R173, R177): those of a vault sequence, or of the fallback. -/
def State.poolWords (s : State) (p : PartNum) (fallback : Bool) (w : Nat) : Bool :=
  if fallback then (s.arraysOf p).any fun n => w == 0x80020 + n.val
  else w == 0x80000 + p.val

/-- Spindle rebuilds a partition's pools from the page map (R173): every place of the partition that no entry of its map and
no running copy holds is free. -/
def State.rebuildPools (s : State) (p : PartNum) : State :=
  let entries := (List.range (s.get (F.reelPMapCountCount p))).map fun k => s.mapEntry (s.get (F.reelPMapBaseBase p) + k)
  let used := fun kind => (entries.filter fun w => entryWhere w == kind).map entryFrame
  let copying := fun b => ((s.reel.copies.filter fun c => c.part == p && c.toTier == b).map (·.places)).flatten
  let base := s.get (F.reelPFrameBaseBase p)
  let free := fun (l taken : List Nat) => l.filter fun x => !taken.contains x
  let fbUsed := fun n : ArrayNum => ((s.seqRange p).filter fun i => s.seqFallback i).foldl (fun acc i =>
    acc ++ ((List.range (pagesOf (s.seqLen i))).filter fun pg => s.homeOf p pg == some n).map fun pg =>
      entryFrame (s.mapEntry (s.seqMap i + pg))) []
  let fbn := if s.flag (F.reelPCtlFallbackEn p) then s.get (F.reelPFbCountCount p) else 0
  let t := s.setFrames p (free ((List.range (s.get (F.reelPFrameCountCount p))).map fun i => base + i) (used 1 ++ copying false))
  let t := t.setSlots p (free (List.range (s.get (F.reelPTierSlotsCount p))) (used 2 ++ copying true))
  let t := (s.arraysOf p).foldl (fun t n => t.setFb n (free (List.range fbn) (fbUsed n))) t
  let mine := fun w => s.poolWords p true w || s.poolWords p false w || w == 0x80010 + p.val
  { t with reel := { t.reel with bad := t.reel.bad.filter fun w => !mine w, ce := t.reel.ce.filter fun w => !mine w } }

/-! ### What the reel may touch (R37, R155, R162, R382) -/

/-- Why a range is closed to the reel, as the cause of R487: 1 reserved addresses, registers, windows and unusable arrays; 2 a
granule or spool that is not the partition's, or with `spindle` set, when the reel fetches for Spindle, not the platform's
either. (DESIGN CHOICE, log entry 71.) -/
def State.reelCause (s : State) (p : PartNum) (spindle : Bool) (a n : Nat) : Option Nat :=
  let dead := fun x => match regionOf x with
    | .vault k _ => !s.usable k
    | .spool k _ => !s.usable k
    | .tier _ => false
    | _ => true
  let ours := fun g => match s.tagAt (max g a) with
    | some t => s.tagAllows p t || (spindle && tagPlatform t && !tagClearing t)
    | none => false
  if dead a || dead (a + n - 1) || !sameRegion a (a + n - 1) then some 1
  else match regionOf a with
    | .spool k _ => if s.inPart p k then none else some 2
    | _ => if (granulesOf a n).all ours then none else some 2

/-- The access error of the reel (R37, R487). R487 names no path for the reel's accesses: the record's path and window stay 0.
(DESIGN CHOICE, log entry 71.) -/
def State.reelDenied (s : State) (p : PartNum) (cause a : Nat) : State :=
  s.accessError 0x040 0xFFFF cause 0 0 (some p) (some a)

/-! ### Step descriptors (R180 to R182) -/

/-- A slot entry's fields. -/
def slotOf (bs : List Byte) : StepSlot :=
  { seq := fieldAt bs 0 2 % 0x4000, q := fieldAt bs 2 2, mode := fieldAt bs 4 1 % 4, window := fieldAt bs 8 4,
    bitmap := fieldAt bs 12 4 }

/-- Whether a slot entry keeps R182's limits. -/
def slotOk (bs : List Byte) : Bool :=
  let t := slotOf bs
  decide (fieldAt bs 0 2 < 0x4000) && decide (1 ≤ t.q) && decide (t.q ≤ 8192) && decide (fieldAt bs 4 1 < 4)
    && fieldAt bs 5 3 == 0 && (t.mode != 1 || (decide (1 ≤ t.window) && decide (t.window ≤ 1048576)))
    && (decide (t.mode < 2) || t.bitmap % 64 == 0)

/-- No sequence is named twice (R182). -/
def noTwice : List Nat → Bool
  | [] => true
  | x :: t => !t.contains x && noTwice t

/-- Bytes of the length table if every slot in range is live (R182, R184). -/
def State.tableBytes (s : State) (p : PartNum) (slots : List StepSlot) : Nat :=
  64 + 32 * slots.length + 4 * (slots.map fun t => if s.seqIn p t.seq then pagesOf (s.seqLen t.seq + t.q) else 0).sum

/-- A step descriptor read and checked (R181, R182); none when it is rejected. -/
def State.readDesc (s : State) (p : PartNum) (a : Nat) : Option StepDesc :=
  let h := s.load a 64
  let n := fieldAt h 6 2
  let raw := (List.range n).map fun i => s.load (a + 64 + 16 * i) 16
  let slots := raw.map slotOf
  let arrays := BitVec.ofNat 64 (fieldAt h 16 8)
  let ok := fieldAt h 4 1 == p.val && decide (fieldAt h 5 1 < 2) && decide (1 ≤ n) && decide (n ≤ 1024)
    && fieldAt h 8 3 % 64 == 0 && fieldAt h 11 1 == 0 && decide (fieldAt h 12 2 < 2048) && fieldAt h 14 2 == 0
    && (allArrays.all fun m => !arrays.getLsbD m || s.inPart p m) && (h.drop 24).all (· == 0)
    && raw.all slotOk && decide ((slots.map (·.q)).sum ≤ 8192) && noTwice (slots.map (·.seq))
    && decide (s.tableBytes p slots ≤ 0x200000)
  if ok then some {
    step := BitVec.ofNat 32 (fieldAt h 0 4), training := fieldAt h 5 1 == 1, slots := slots
    table := fieldAt h 8 3, knot := fieldAt h 12 2, arrays := arrays }
  else none

/-- A go of a partition's step (R180): dropped while one runs, rejected when its descriptor breaks a limit (R182), when
the partition's reel is not enabled, when a word of it is uncorrectable, or when it does not lie in memory that the reel may
read for Spindle, from where zeros are read (R37, R155, R162). (DESIGN CHOICE, log entry 71.) -/
def State.stepGo (s : State) (p : PartNum) : State :=
  if (s.reel.steps[p.val]).isSome then s.raiseBit (F.reelPStepStatDropped p)
  else
    let s := s.seqFlush p
    let a := s.get (F.reelPStepAddrAddr p) * 64
    let len := 64 + 16 * fieldAt (s.load a 64) 6 2
    match s.reelCause p true a len with
    | some c => (s.reelDenied p c a).raiseBit (F.reelPStepStatRejected p)
    | none =>
      match s.badIn a len with
      | some w => (s.eccReport w 5 true).raiseBit (F.reelPStepStatRejected p)
      | none =>
        let s := (s.correct a len 5).countRead a len
        match (if s.flag (F.reelPCtlEnable p) && s.flag F.reelStatusReady then s.readDesc p a else none) with
        | none => s.raiseBit (F.reelPStepStatRejected p)
        | some d =>
          (({ s with reel := { s.reel with steps := s.reel.steps.set p.val (some d) } } : State).set
            (F.reelPStepStatRunning p) 1)

/-! ### Taking frames (R183, R185, R186, R205) -/

/-- Takes places for the pages first, first + 1, …; none unless every one can be had (R185). -/
def State.takePages (s : State) (p : PartNum) (i first : Nat) : Nat → Option State
  | 0 => some s
  | k + 1 =>
    let e := s.seqMap i + first
    if s.seqFallback i then
      match s.homeOf p first with
      | none => none
      | some n =>
        match s.fbPool n with
        | [] => none
        | f :: t => ((s.setFb n t).setMapEntry e (entryOf f 3)).takePages p i (first + 1) k
    else
      match s.framePool p with
      | [] => none
      | f :: t => ((s.setFrames p t).setMapEntry e (entryOf f 1)).takePages p i (first + 1) k

/-- One slot of a step: its status and the sequence table's change (R173, R185, R186). The words of its entry, its map
entries and, where it needs frames, its pool are read. -/
def State.runSlot (s : State) (p : PartNum) (d : StepDesc) (t : StepSlot) : State × Nat :=
  if !s.seqIn p t.seq then (s, 3)
  else
    let scan := s.reelScan p (s.seqWords t.seq)
    let s := scan.1
    if scan.2 then (s, 4)
    else if (s.seqState t.seq ≠ 1 ∧ s.seqState t.seq ≠ 2) ∨ s.seqInTier t.seq then (s, 3)
    else
      let len := s.seqLen t.seq
      if s.seqCap t.seq < pagesOf (len + t.q) then (s, 2)
      else
        let k := pagesOf (len + t.q) - pagesOf len
        let pool := if k = 0 then (s, false) else s.reelScan p (s.poolWords p (s.seqFallback t.seq))
        let s := pool.1
        if pool.2 then (s, 4)
        else
          match s.takePages p t.seq (pagesOf len) k with
          | some s' =>
            (((s'.setSeqBits t.seq 0 8 21 (len + t.q)).setSeqBits t.seq 0 0 2 1).setSeqWord t.seq 3 d.step, 0)
          | none =>
            let s' := if s.seqState t.seq = 2 then s else s.setSeqWord t.seq 4 (s.time.setWidth 32)
            (s'.setSeqBits t.seq 0 0 2 2, 1)

/-- The slots of a step in order, with their statuses and each slot's length before (R183). -/
def State.runSlots (s : State) (p : PartNum) (d : StepDesc) : List StepSlot → State × List (StepSlot × Nat × Nat)
  | [] => (s, [])
  | t :: rest =>
    let pos0 := s.seqLen t.seq
    let r := s.runSlot p d t
    let r' := r.1.runSlots p d rest
    (r'.1, (t, r.2, pos0) :: r'.2)

/-- Frame-list entries of a live slot (R184). -/
def State.frameList (s : State) (p : PartNum) (i len : Nat) : List Byte :=
  ((List.range (pagesOf len)).map fun pg =>
    let w := s.mapEntry (s.seqMap i + pg)
    leBytes 4 ((if s.seqFallback i then entryFrame w else entryFrame w - s.get (F.reelPFrameBaseBase p)) % 0x40000)).flatten

/-- The length table of a step (R184). -/
def State.lengthTable (s : State) (p : PartNum) (d : StepDesc) (rs : List (StepSlot × Nat × Nat)) : List Byte :=
  let live := rs.filter fun r => r.2.1 == 0
  let lists := rs.map fun r => if r.2.1 = 0 then s.frameList p r.1.seq (r.2.2 + r.1.q) else []
  let total := (lists.map List.length).sum / 4
  let header := leBytes 4 d.step.toNat ++ leBytes 2 rs.length ++ leBytes 2 live.length ++ leBytes 4 total
    ++ List.replicate 52 0
  let recs := (List.zipIdx rs).map fun x =>
    let r := x.1
    let before := ((lists.take x.2).map List.length).sum / 4
    let ok := r.2.1 == 0
    leBytes 2 r.1.seq ++ leBytes 1 r.2.1
      ++ leBytes 1 (r.1.mode + (if s.seqFallback r.1.seq then 4 else 0) + (if d.training then 8 else 0))
      ++ leBytes 4 r.2.2 ++ leBytes 2 (if ok then r.1.q else 0) ++ leBytes 2 0 ++ leBytes 4 before
      ++ leBytes 4 (if ok then pagesOf (r.2.2 + r.1.q) else 0) ++ leBytes 4 (r.1.seq - s.get (F.reelPSeqBaseBase p))
      ++ leBytes 4 r.1.window ++ leBytes 4 r.1.bitmap
  header ++ recs.flatten ++ lists.flatten

/-- Writes the length table into one array's spool and raises its knot (R183). An unusable array's spool and bytes past a
spool are reserved addresses (R37); the record of such a write names the array as its instance. (DESIGN CHOICE, log
entry 71.) -/
def State.putTable (s : State) (d : StepDesc) (table : List Byte) (n : ArrayNum) : State :=
  let error := fun (s : State) a => s.accessError 0x040 n.val 1 0 0 (s.partOf n) (some a)
  if !s.usable n then error s (spoolBase n + d.table)
  else
    let room := spoolSize - d.table
    let s := s.write (spoolBase n + d.table) (table.take room)
    let s := if table.length ≤ room then s else error s (spoolBase n + spoolSize)
    s.incKnot n d.knot 1

/-- The step finishes (R183): frames, statuses, length tables, knots, done and REEL_P_STEP_NUM; and the slots with their
statuses. -/
def State.stepFinish (s : State) (p : PartNum) : State × List (StepSlot × Nat × Nat) :=
  match s.reel.steps[p.val] with
  | none => (s, [])
  | some d =>
    let r := s.runSlots p d d.slots
    let table := r.1.lengthTable p d r.2
    let s := (allArrays.filter fun (n : ArrayNum) => d.arrays.getLsbD n).foldl (fun (s : State) (n : ArrayNum) => s.putTable d table n) r.1
    let s := { s with reel := { s.reel with steps := s.reel.steps.set p.val none } }
    (((s.set (F.reelPStepStatRunning p) 0).raiseBit (F.reelPStepStatDone p)).set (F.reelPStepNumStep p) d.step.toNat, r.2)

/-! ### Page copies (R188, R263) -/

/-- Where array n keeps a vault frame, and its bytes (R167, R210). -/
def State.framePart (s : State) (p : PartNum) (n : ArrayNum) (frame : Nat) : Nat × Nat :=
  let bytes := s.get (F.attFrameBytesFrameBytes n) * 64
  (vaultBase n + s.get (F.attKvBaseKvBase n) * 64 + (frame - s.get (F.reelPFrameBaseBase p)) * bytes, bytes)

/-- The parts of a frame and of a tier slot, array by array in increasing number: vault address, slot address, bytes
(R188). -/
def State.copyParts (s : State) (p : PartNum) (frame slot : Nat) : List (Nat × Nat × Nat) :=
  let base := s.get (F.reelPTierBaseBase p) * 64 + slot * (s.get (F.reelPSlotBytesBytes p) * 64)
  ((s.arraysOf p).foldl (fun (acc : Nat × List (Nat × Nat × Nat)) n =>
    let f := s.framePart p n frame
    (acc.1 + f.2, acc.2 ++ [(f.1, acc.1, f.2)])) (base, [])).2

/-- A byte the spec leaves open. -/
def State.freeBytes (s : State) (n : Nat) : List Byte := (List.range n).map fun i => Config.freeByte (s.free + i)

/-- Copies bytes between vault and tier for a partition (R188, R263, R382): a range that is closed to it reads zeros and takes
no write, with an access error (R37, R155); a word that cannot be read is reported, and its bytes arrive as free values
(R145; assumption log). (DESIGN CHOICE, log entry 38.) -/
def State.copyBytes (s : State) (p : PartNum) (src dst n : Nat) : State :=
  let r : State × List Byte := match s.reelCause p false src n with
    | some c => (s.reelDenied p c src, List.replicate n 0)
    | none => s.readThrough src n
  match r.1.reelCause p false dst n with
  | some c => r.1.reelDenied p c dst
  | none => r.1.write dst r.2

/-- Starts the move of a sequence's vault frames to tier slots (R187, R188, R261); none when the tier pool is short. -/
def State.evictStart (s : State) (p : PartNum) (i : Nat) : Option State :=
  let pages := pagesOf (s.seqLen i)
  let pool := s.slotPool p
  if pool.length < pages then none
  else some { s.setSlots p (pool.drop pages) with
    reel := { (s.setSlots p (pool.drop pages)).reel with
      copies := s.reel.copies ++ [{ part := p, seq := i, toTier := true, places := pool.take pages }] } }

/-- Whether a copy of the sequence runs. -/
def State.copying (s : State) (i : Nat) : Bool := s.reel.copies.any fun c => c.seq == i

/-- The oldest running copy of a partition in one direction. -/
def State.nextCopy (s : State) (p : PartNum) (toTier : Bool) : Option PageCopy :=
  s.reel.copies.find? fun c => c.part == p && c.toTier == toTier

/-- An eviction's copy is visible: map entries name tier slots, in_tier is set, the frames return (R188); and whether a word of the
sequence was uncorrectable, where nothing moves and the slots return (R173). (DESIGN CHOICE, log entry 71.) -/
def State.evictEnd (s : State) (c : PageCopy) : State × Bool :=
  let scan := s.reelScan c.part (s.seqWords c.seq)
  let s := scan.1.dropCopy c
  if scan.2 then (s.setSlots c.part (poolBack c.places (s.slotPool c.part)), true)
  else
    let s := (List.zipIdx c.places).foldl (fun s x =>
      let e := s.seqMap c.seq + x.2
      let f := entryFrame (s.mapEntry e)
      let s := (s.copyParts c.part f x.1).foldl (fun s m => s.copyBytes c.part m.1 m.2.1 m.2.2) s
      (s.setMapEntry e (entryOf x.1 2)).setFrames c.part (f :: s.framePool c.part)) s
    (s.setSeqBits c.seq 0 3 1 1, false)

/-- A copy back is visible: map entries name vault frames, in_tier clears, the slots return (R263); and whether a word of the
sequence was uncorrectable, where nothing moves and the frames return (R173). (DESIGN CHOICE, log entry 71.) -/
def State.copyBackEnd (s : State) (c : PageCopy) : State × Bool :=
  let scan := s.reelScan c.part (s.seqWords c.seq)
  let s := scan.1.dropCopy c
  if scan.2 then (s.setFrames c.part (poolBack c.places (s.framePool c.part)), true)
  else
    let s := (List.zipIdx c.places).foldl (fun s x =>
      let e := s.seqMap c.seq + x.2
      let slot := entryFrame (s.mapEntry e)
      let s := (s.copyParts c.part x.1 slot).foldl (fun s m => s.copyBytes c.part m.2.1 m.1 m.2.2) s
      (s.setMapEntry e (entryOf x.1 1)).setSlots c.part (slot :: s.slotPool c.part)) s
    (s.setSeqBits c.seq 0 3 1 0, false)

/-- Sequences of a partition in a state. -/
def State.seqsIn (s : State) (p : PartNum) (st : Nat) : List Nat := (s.seqRange p).filter fun i => s.seqState i == st

/-- The smallest of a list under a measure, the first of equals. -/
def minBy {α : Type} (f : α → Nat) : List α → Option α
  | [] => none
  | x :: t =>
    match minBy f t with
    | none => some x
    | some y => if f x ≤ f y then some x else some y

/-- Whether an update names a sequence. -/
def SeqUpdate.names (i : Nat) : SeqUpdate → Bool
  | .setup j _ _ _ => i == j
  | .activate j => i == j
  | .pause j => i == j
  | .release j => i == j
  | .drop j => i == j
  | .mapWrite _ _ => false
  | .seqWrite j _ _ => i == j

/-- Whether an update of a sequence waits for a step (R179). -/
def State.updateWaits (s : State) (i : Nat) : Bool := s.reel.updates.any fun u => u.2.names i

/-- The paused sequence to evict first: the oldest last_step in wrapping order, among those whose pages are in the vault
and fit the tier pool (R187). One that Spindle has already continued or released, its update waiting for a step, is paused no
more. -/
def State.evictable (s : State) (p : PartNum) (except_ : Nat) : Option Nat :=
  let now := s.get (F.reelPStepNumStep p)
  minBy (fun i => 2 ^ 32 - 1 - (BitVec.ofNat 32 now - s.seqWord i 3).toNat)
    ((s.seqsIn p 3).filter fun i => !s.seqInTier i && !s.copying i && !s.seqFallback i && !s.updateWaits i && i != except_
      && decide (pagesOf (s.seqLen i) ≤ (s.slotPool p).length) && decide (0 < s.seqLen i))

end Sys2Proof.Machine
end

