-- ==== Sys2Proof/Machine/Serving.lean ====
section
/-!
DEFINITION. Conversations and requests (R237 to R246, R255 to R268): submission, states, cancel, rings, pause, expiry and
return from the tier.
-/

namespace Sys2Proof.Machine

/-! ### Conversations and requests -/

/-- The conversation of a sequence index. -/
def State.conv (s : State) (i : Nat) : Convo := SMap.look Convo.none s.srv.convs i

/-- Changes a conversation. -/
def State.modConv (s : State) (i : Nat) (f : Convo → Convo) : State :=
  { s with srv := { s.srv with convs := SMap.put Convo.none s.srv.convs i (f (s.conv i)) } }

/-- Changes a conversation's request. -/
def State.modReq (s : State) (i : Nat) (f : Request → Request) : State :=
  s.modConv i fun v => { v with request := v.request.map f }

/-- The request of a sequence index that has not ended. -/
def State.request (s : State) (i : Nat) : Option Request :=
  match (s.conv i).request with
  | some r => if r.phase = .ended then none else some r
  | none => none

/-- The ledger entry of a request's change: its conversation with ring counts and deadlines, and the step limits of its
partition (R268, R357). -/
def State.noteRequest (s : State) (i : Nat) : State :=
  let p := (s.conv i).part
  s.ledger (.request i (s.conv i) (s.srv.maxSlots[p.val], s.srv.chunk[p.val], s.srv.stepTokens[p.val]))

/-- A change of a request's state, with its ledger entry (R268, R357). -/
def State.setPhase (s : State) (i : Nat) (ph : ReqPhase) : State :=
  (s.modReq i fun r => { r with phase := ph }).noteRequest i

/-- The handle of a conversation (R237). -/
def handleOf (i serial : Nat) : Nat := i % 0x4000 + (serial % 0x10000) * 0x4000

/-- The conversation a handle names: its serial must be current, and the conversation of the partition and not released
(R237). -/
def State.byHandle (s : State) (p : PartNum) (h : Nat) : Option Nat :=
  let i := h % 0x4000
  let v := s.conv i
  if h < 2 ^ 30 ∧ v.live ∧ v.part = p ∧ v.serial = h / 0x4000 then some i else none

/-- The conversation that a handle names or last named, released or not: its serial is still the index's (R237, R266, R267). -/
def State.byName (s : State) (p : PartNum) (h : Nat) : Option Nat :=
  let i := h % 0x4000
  let v := s.conv i
  if h < 2 ^ 30 ∧ v.maxTokens ≠ 0 ∧ v.part = p ∧ v.serial = h / 0x4000 then some i else none

/-- Whether a handle names a conversation that has expired, for a command read at a moment (R262). -/
def State.handleExpired (s : State) (h : Nat) (read : DWord) : Bool :=
  let v := s.conv (h % 0x4000)
  decide (h < 2 ^ 30) && (v.expired == some (h / 0x4000) ||
    (v.live && v.serial == h / 0x4000 && v.deadline.any fun d => decide (d.toNat ≤ read.toNat)))

/-- A SERVE record (R486, R487): instance the sequence index, detail the handle and end code, with an ECC record's seq
where one word caused it (R493). Spindle raises it, or the sampler where no logit is finite (R250, R484). -/
def State.serveEvent (s : State) (i status severity code : Nat) (ecc : Option Word := none) (source : Nat := 0x045) : State :=
  let v := s.conv i
  s.report {
    source := source, cls := 0x08, severity := severity, part := some v.part, affected := partBit v.part
    status := status, inst := i
    detail := leBytes 4 (handleOf i v.serial) ++ leBytes 1 code ++
      (match ecc with
        | some q => leBytes 4 q.toNat
        | none => []) }

/-- Fields of a request descriptor (R240). -/
def readReqDesc (bs : List Byte) : ReqDesc :=
  let w := fun off : Nat => BitVec.ofNat 32 (fieldAt bs off 4)
  { flags := fieldAt bs 0 4, handle := fieldAt bs 4 4, promptAddr := fieldAt bs 8 8, promptTokens := fieldAt bs 16 4
    maxNew := fieldAt bs 20 4, convMax := fieldAt bs 24 4, ttlMs := fieldAt bs 28 4, holdMs := fieldAt bs 32 4
    ringAddr := fieldAt bs 36 8, ringBytes := fieldAt bs 44 4, ctlAddr := fieldAt bs 48 8, seedLo := w 56, seedHi := w 60
    temperature := w 64, topP := w 68, topK := fieldAt bs 72 2, window := fieldAt bs 74 2, repetition := w 76
    frequency := w 80, stop := (List.range 4).map fun k => fieldAt bs (84 + 4 * k) 4 }

/-- continue of a descriptor. -/
def ReqDesc.cont (d : ReqDesc) : Bool := bitsAt d.flags 0 1 == 1
/-- keep of a descriptor. -/
def ReqDesc.keep (d : ReqDesc) : Bool := bitsAt d.flags 1 1 == 1
/-- fallback of a descriptor. -/
def ReqDesc.fallback (d : ReqDesc) : Bool := bitsAt d.flags 2 1 == 1
/-- penalise_prompt of a descriptor. -/
def ReqDesc.penalise (d : ReqDesc) : Bool := bitsAt d.flags 3 1 == 1
/-- Records of the ring (R255). -/
def ReqDesc.records (d : ReqDesc) : Nat := d.ringBytes / 8

/-- fp32 x with lo ≤ x ≤ hi. (DEDUCED, log entry 41.) -/
def f32Within (x lo hi : Word) : Bool := !((f32 x).lt (f32 lo)) && !((f32 hi).lt (f32 x)) && !f32IsNaN x

/-- Whether a size is a power of two from 4,096 to 1,048,576. -/
def ringSizeOk (n : Nat) : Bool := (List.range 9).any fun k => n == 4096 * 2 ^ k

/-- The range checks of R240 and R241, check 2. (DEDUCED, log entry 41.) -/
def State.reqDescOk (s : State) (p : PartNum) (addr : Nat) (bs : List Byte) (prompt : List Nat) : Bool :=
  let d := readReqDesc bs
  let vocab := ((s.part p).model.map (·.vocab)).getD 0
  addr % 64 == 0 && decide (d.flags < 16) && (d.cont || d.handle == 0) && d.promptAddr % 4 == 0
    && (d.cont || decide (1 ≤ d.promptTokens)) && decide (1 ≤ d.maxNew) && decide (d.maxNew ≤ 1048576)
    && (d.cont || (decide (d.convMax ≤ if d.fallback then 1048576 else 131072)
      && decide (d.promptTokens + d.maxNew ≤ d.convMax)
      && (!d.fallback || s.flag (F.reelPCtlFallbackEn p))))
    && (!d.keep || d.ttlMs != 0) && decide (d.holdMs ≤ 60000) && d.ringAddr % 4096 == 0 && ringSizeOk d.ringBytes
    && d.ctlAddr % 64 == 0
    && ((f32 d.temperature).eqv (f32 0) || f32Within d.temperature 0x3C23D70A#32 0x42C80000#32)
    && (f32 0).lt (f32 d.topP) && f32Within d.topP 0 0x3F800000#32 && decide (d.topK ≤ 1024) && decide (d.window ≤ 4096)
    && f32Within d.repetition 0x3F800000#32 0x41200000#32 && f32Within d.frequency 0 0x41200000#32
    && (bs.drop 100).all (· == 0) && prompt.all fun t => decide (t < vocab)

/-- Map entries that a partition's sequences hold, those of set-ups that still wait included (R178, R179). -/
def State.mapHeld (s : State) (p : PartNum) : List (Nat × Nat) :=
  (((s.seqRange p).filter fun i => s.seqState i != 0).map fun i => (s.seqMap i, s.seqCap i)) ++
    s.reel.updates.filterMap fun u =>
      match u.2 with
      | .setup _ base cap _ => if u.1 = p then some (base, cap) else none
      | _ => none

/-- The lowest run of `need` free map entries of a partition (R178). -/
def State.mapRun (s : State) (p : PartNum) (need : Nat) : Option Nat :=
  let base := s.get (F.reelPMapBaseBase p)
  let count := s.get (F.reelPMapCountCount p)
  let held := s.mapHeld p
  (List.range (count + 1 - need)).findSome? fun k =>
    if held.all (fun h => decide (h.1 + h.2 ≤ base + k) || decide (base + k + need ≤ h.1)) then some (base + k) else none

/-- The lowest free sequence index of a partition (R178, R241): free in the table, and no conversation's. -/
def State.freeIndex (s : State) (p : PartNum) : Option Nat :=
  (s.seqRange p).find? fun i => s.seqState i == 0 && !(s.conv i).live

/-- Requests of a partition that wait for their first step (R241, check 8). -/
def State.waitingRequests (s : State) (p : PartNum) : Nat :=
  ((s.seqRange p).filter fun i => (s.conv i).live &&
    (match s.request i with
      | some r => r.phase == .queued || r.phase == .loading
      | none => false)).length

/-- A new request as admitted, with its prompt still to prefill (R243, R245). -/
def newRequest (d : ReqDesc) (phase : ReqPhase) (admitted : Nat) (loadSince : Option DWord) : Request :=
  { desc := d, phase := phase, admitted := admitted, q := 0, inStep := false, sampled := false, left := d.promptTokens
    generated := 0, produced := 0, consumed := 0, ringBad := false, cancel := false, loadSince := loadSince, code := 0 }

/-- Frames for a conversation in Loading, as one allocation, and the copy back (R263). -/
def State.loadStart (s : State) (p : PartNum) (i : Nat) : State :=
  let pages := pagesOf (s.seqLen i)
  let pool := s.framePool p
  let loading := (s.request i).any fun r => r.phase == .loading
  if loading ∧ s.seqInTier i = true ∧ s.copying i = false ∧ pages ≤ pool.length then
    let s := s.setFrames p (pool.drop pages)
    { s with reel := { s.reel with copies := s.reel.copies ++ [{ part := p, seq := i, toTier := false, places := pool.take pages }] } }
  else s

/-- Tries every Loading request of a partition again, in order of admission, when frames return (R263). -/
def State.loadRetry (s : State) (p : PartNum) : State :=
  let waiting := (s.seqRange p).filter fun i =>
    match s.request i with
    | some r => r.phase == .loading
    | none => false
  waiting.foldl (fun s i => s.loadStart p i) s

/-! ### Ends -/

/-- Deadlines wait while a switch-over gap or an activation pause runs (R268, R475). -/
def State.deadlinesHeld (s : State) : Bool := s.gapHolds || s.board.update.pauseAt.isSome

/-- Whether a paused conversation's hold is over and its frames are still to move to the tier (R261). -/
def State.holdDue (s : State) (i : Nat) : Bool :=
  let v := s.conv i
  !s.deadlinesHeld && v.live && (s.request i).isNone && s.seqState i == 3 && !s.seqInTier i && !s.copying i && !s.seqFallback i
    && v.holdUntil.any fun d => decide (d.toNat ≤ s.time.toNat)

/-- Moves a paused conversation's frames to tier slots once its hold is over, unless the tier pool is short (R261). -/
def State.holdMove (s : State) (i : Nat) : State := if s.holdDue i then (s.evictStart (s.conv i).part i).getD s else s

/-- What waits for places takes them: requests in Loading (R263), and moves to the tier (R261). -/
def State.poolsGive (s : State) (p : PartNum) : State :=
  ((s.loadRetry p).seqRange p).foldl (fun s i => s.holdMove i) (s.loadRetry p)

/-- A request enters Ending with a code, its pages on their way back unless its conversation will be kept (R243, R259); what waits
for places has not yet been tried. A request already in Ending takes code 6 only. -/
def State.enterEnding (s : State) (i code : Nat) (ecc : Option Word) (source : Nat) : State :=
  match s.request i with
  | none => s
  | some r =>
    let was := match r.phase with
      | .ending c => some c
      | _ => none
    if was.isSome ∧ (code ≠ 6 ∨ was = some 6) then s
    else
      let p := (s.conv i).part
      let keeps := fun c => r.desc.keep && decide (c ≤ 4)
      let s := (s.modReq i fun r => { r with inStep := false, sampled := false }).setPhase i (.ending code)
      let s := if keeps code || was.any (fun c => !keeps c) then s else s.seqUpdate p (.drop i)
      if code = 5 then s.serveEvent i stPages 3 5
      else if code = 6 then s.serveEvent i stFatal 3 6 ecc source
      else s

/-- Requests of a partition that have not ended. -/
def State.openRequests (s : State) (p : PartNum) : List Nat := (s.seqRange p).filter fun i => (s.request i).isSome

/-- An uncorrectable word of a partition's pool has been read: every request of the partition ends FATAL, and Spindle rebuilds
the pool before it accepts a step (R173). -/
def State.poolFail (s : State) (p : PartNum) : State :=
  let ecc := s.recordSeq 0x040 0x04 (some p)
  (((s.openRequests p).foldl (fun s i => s.enterEnding i 6 ecc 0x045) s).rebuildPools p).poolsGive p

/-- Places are taken outside a step: the words of the vault pool, of the tier pool or of both are read first (R173). -/
def State.poolCheck (s : State) (p : PartNum) (vault tier : Bool) : State :=
  let r := s.reelScan p fun w => (vault && s.poolWords p false w) || (tier && w == 0x80010 + p.val)
  if r.2 then r.1.poolFail p else r.1

/-- What waits for places is tried again when frames or slots return (R261, R263): the pools that it takes from are read. -/
def State.poolsRetry (s : State) (p : PartNum) : State :=
  let loads := (s.seqRange p).any fun i => (s.request i).any (fun r => r.phase == .loading) && s.seqInTier i && !s.copying i
  let moves := (s.seqRange p).any fun i => s.holdDue i
  (s.poolCheck p loads moves).poolsGive p

/-- A paused conversation's hold is over: the tier pool is read and its frames move, unless the pool is short (R173, R261). -/
def State.holdStart (s : State) (i : Nat) : State :=
  if s.holdDue i then (s.poolCheck (s.conv i).part false true).holdMove i else s

/-- Applies the updates that waited for a step (R179), and tries again what waits for the places they return. -/
def State.flushUpdates (s : State) (p : PartNum) : State :=
  if (s.reel.steps[p.val]).isSome || !(s.reel.updates.any fun u => u.1 == p) then s else (s.seqFlush p).poolsRetry p

/-- An update of a sequence by Spindle: those that waited for a step take effect first, and what waits for the places they return
is tried again (R179, R261). -/
def State.update (s : State) (p : PartNum) (u : SeqUpdate) : State := (s.flushUpdates p).seqUpdate p u

/-- A conversation is released: pages, tier slots and sequence index return (R238, R243, R264), with its ledger entry (R357). The
serial and what its last request ended with stay until the index names a new conversation (R262, R267, R338). -/
def State.releaseConv (s : State) (i : Nat) : State :=
  let p := (s.conv i).part
  let s := (s.modConv i fun v => { v with
    live := false, request := v.request.map fun r => { r with phase := .ended }, deadline := none, holdUntil := none, tokens := [] }
      ).noteRequest i
  (s.update p (.release i)).poolsRetry p

/-- A request has ended: its conversation is paused in the vault or released (R243, R260), and the entry that records its state
holds the new deadlines (R268). Prompt tokens that no step took are not part of a conversation that is kept.
(DESIGN CHOICE, log entry 39.) -/
def State.requestEnded (s : State) (i code : Nat) : State :=
  let v := s.conv i
  match v.request with
  | none => s
  | some r =>
    let s := s.modReq i fun r => { r with code := code }
    if r.desc.keep ∧ 1 ≤ code ∧ code ≤ 4 then
      let s := s.modConv i fun v => { v with
        keep := true
        tokens := v.tokens.take (v.tokens.length - r.left)
        deadline := some (s.time + BitVec.ofNat 64 (r.desc.ttlMs * 100000))
        holdUntil := some (s.time + BitVec.ofNat 64 (r.desc.holdMs * 100000)) }
      ((s.setPhase i .ended).update v.part (.pause i)).holdStart i
    else (s.setPhase i .ended).releaseConv i

/-- A request enters Ending with a code (R243, R259), and what waits for the places that return is tried again. -/
def State.endRequest (s : State) (i code : Nat) (ecc : Option Word := none) (source : Nat := 0x045) : State :=
  (s.enterEnding i code ecc source).poolsRetry (s.conv i).part

/-- Whether a ring has a free record (R258): records written or owed have not reached consumed + N. -/
def Request.ringFree (r : Request) : Bool :=
  !r.ringBad && decide (r.produced + (if r.inStep && r.sampled then 1 else 0) < r.consumed + r.desc.records)

/-- Reads a ring's consumed count; one that is inconsistent holds the ring full (R258). -/
def State.readConsumed (s : State) (i : Nat) : State :=
  match s.request i with
  | none => s
  | some r =>
    let n := fieldAt (s.blockRead (r.desc.ctlAddr + 32) 8) 0 8
    if n ≤ r.produced ∧ r.produced - n ≤ r.desc.records then
      s.modReq i fun r => { r with consumed := n, ringBad := false }
    else
      let p := (s.conv i).part
      let s := (s.modReq i fun r => { r with ringBad := true }).raiseBit F.smpStatusRingFault
      if r.ringBad then s
      else s.report { source := 0x041, cls := 0x06, severity := 2, part := some p, affected := partBit p }

/-- A token record and then the new produced count (R255 to R257). -/
def State.writeRecord (s : State) (i token last code logprob pos : Nat) : State :=
  match s.request i with
  | none => s
  | some r =>
    let rec8 := leBytes 8 (token % 0x40000 + last * 0x40000 + code * 0x80000 + logprob % 0x10000 * 2 ^ 32
      + pos % 0x10000 * 2 ^ 48)
    let s := s.blockWrite (r.desc.ringAddr + 8 * (r.produced % r.desc.records)) rec8
    let s := s.blockWrite r.desc.ctlAddr (leBytes 8 (r.produced + 1))
    s.modReq i fun r => { r with produced := r.produced + 1 }

/-- Writes the end record if the ring has a free record (R259). -/
def State.writeEnd (s : State) (i : Nat) : State :=
  match s.request i with
  | some r =>
    match r.phase with
    | .ending code =>
      if r.ringFree then
        (s.writeRecord i 0x3FFFF 1 code 0 (s.conv i).tokens.length).requestEnded i code
      else s
    | _ => s
  | none => s

/-- Ends a request for good: its end record is written if its ring, read again, has room (R346).
(DEDUCED, log entry 33.) -/
def State.forceEnd (s : State) (i : Nat) : State :=
  let s := (s.endRequest i 4).readConsumed i
  let s := (s.writeEnd i).modReq i fun r => { r with code := match r.phase with
    | .ending c => c
    | _ => r.code }
  s.releaseConv i

/-! ### Composing steps (R244 to R246) -/

/-- What a batch is made of so far: slots (sequence, q, sampled), tokens, and whether filling has stopped. -/
structure Batch where
  slots : List (Nat × Nat × Bool)
  tokens : Nat
  full : Bool
  deriving DecidableEq, Repr

/-- Adds a slot unless a limit would be exceeded, which stops filling (R245). -/
def Batch.add (b : Batch) (maxSlots maxTokens i q : Nat) (sampled : Bool) : Batch :=
  if b.full then b
  else if maxSlots ≤ b.slots.length ∨ maxTokens < b.tokens + q then { b with full := true }
  else { b with slots := b.slots ++ [(i, q, sampled)], tokens := b.tokens + q }

/-- Insertion of an index by a key, after equals. -/
def insertBy (f : Nat → Nat) (x : Nat) : List Nat → List Nat
  | [] => [x]
  | y :: t => if f x < f y then x :: y :: t else y :: insertBy f x t

/-- Sequence indices in increasing order of a key. -/
def sortBy (f : Nat → Nat) (l : List Nat) : List Nat := l.foldl (fun acc x => insertBy f x acc) []

/-- The sequences of a partition whose request is in a phase. -/
def State.inPhase (s : State) (p : PartNum) (f : ReqPhase → Bool) : List Nat :=
  (s.seqRange p).filter fun i =>
    match s.request i with
    | some r => f r.phase
    | none => false

/-- How far in the past a 32-bit moment lies. -/
def age (now then_ : Word) : Nat := (now - then_).toNat

/-- The batch of the partition's next step (R245). -/
def State.compose (s : State) (p : PartNum) : Batch :=
  let ms := s.srv.maxSlots[p.val]
  let mt := s.srv.stepTokens[p.val]
  let chunk := s.srv.chunk[p.val]
  let now := s.time.setWidth 32
  let num := BitVec.ofNat 32 (s.get (F.reelPStepNumStep p))
  let parked := sortBy (fun i => 2 ^ 32 - age now (s.seqWord i 4)) (s.inPhase p fun ph =>
    match ph with
    | .parked _ => true
    | _ => false)
  let decode := sortBy (fun i => 2 ^ 32 - age num (s.seqWord i 3)) (s.inPhase p fun ph => ph == .decode)
  let adm := fun i => ((s.request i).map (·.admitted)).getD 0
  let prefill := sortBy adm (s.inPhase p fun ph => ph == .prefill)
  let queued := sortBy adm (s.inPhase p fun ph => ph == .queued)
  let b : Batch := { slots := [], tokens := 0, full := false }
  let b := parked.foldl (fun (b : Batch) i =>
    match s.request i with
    | some r => b.add ms mt i r.q (r.phase == .parked true || r.q == r.left)
    | none => b) b
  let b := decode.foldl (fun (b : Batch) i =>
    match s.request i with
    | some r => if r.ringFree && decide (s.seqLen i < (s.conv i).maxTokens) then b.add ms mt i 1 true else b
    | none => b) b
  (prefill ++ queued).foldl (fun (b : Batch) i =>
    match s.request i with
    | some r =>
      let q := if r.left = 0 then 1 else min r.left (min chunk (mt - b.tokens))
      let last := decide (r.left ≤ q)
      if q = 0 then { b with full := true }
      else if (last && !r.ringFree) || decide ((s.conv i).maxTokens < s.seqLen i + q) then b
      else b.add ms mt i q last
    | none => b) b

/-- Where Spindle writes a partition's step descriptors in platform tier memory (R162; assumption log).
(DESIGN CHOICE, log entry 37.) -/
def stepDescAddr (p : PartNum) : Nat := tierBase + 0xFF00 * 0x400000 + p.val * 0x10000

/-- Spool offset of a model's length table: the spec leaves it to the model image (assumption log).
(DESIGN CHOICE, log entry 37.) -/
def State.tableOffset (s : State) (p : PartNum) : Nat :=
  Config.tableOffset (((s.part p).model.map (·.digest)).getD []) % 0x18000 * 64

/-- Knot that a model's length table raises (assumption log). (DESIGN CHOICE, log entry 37.) -/
def State.stepKnot (s : State) (p : PartNum) : Nat :=
  Config.stepKnot (((s.part p).model.map (·.digest)).getD []) % 2048

/-- A step descriptor's bytes (R181, R182): causal slots, since the spec leaves the mask of served steps to the model.
(DESIGN CHOICE, log entry 37.) -/
def State.descBytes (s : State) (p : PartNum) (step : Nat) (b : Batch) : List Byte :=
  let arrays := ((s.part p).model.map (·.arrays)).getD 0
  leBytes 4 step ++ leBytes 1 p.val ++ leBytes 1 0 ++ leBytes 2 b.slots.length ++ leBytes 3 (s.tableOffset p) ++ leBytes 1 0
    ++ leBytes 2 (s.stepKnot p) ++ leBytes 2 0 ++ leBytes 8 arrays.toNat ++ List.replicate 40 0
    ++ (b.slots.map fun x => leBytes 2 x.1 ++ leBytes 2 x.2.1 ++ leBytes 12 0).flatten

/-- Spindle may act on requests: it is active, not in a gap, and not draining (R268, R342). -/
def State.serving (s : State) : Bool :=
  s.flag F.spnStatusLomletReady && !s.flag F.twnStatusGap && !s.flag F.spnStatusDraining && !s.flag F.spnStatusDrained

/-- Requests in Decode with a full ring stall (R258). -/
def State.stallFull (s : State) (p : PartNum) : State :=
  (s.inPhase p fun ph => ph == .decode).foldl (fun s i =>
    match s.request i with
    | some r => if r.ringFree then s else s.setPhase i .stalled
    | none => s) s

/-- Stalled requests whose consumed count shows a free record go on (R243). -/
def State.unstall (s : State) (i : Nat) : State :=
  match s.request i with
  | some r => if r.phase = .stalled ∧ r.ringFree then s.setPhase i .decode else s
  | none => s

/-- Marks the slots of a posted step (R243). -/
def State.enterStep (s : State) (x : Nat × Nat × Bool) : State :=
  match s.request x.1 with
  | none => s
  | some r =>
    let ph : ReqPhase := match r.phase with
      | .queued => if r.left = 0 then .decode else .prefill
      | ph => ph
    let s := s.modReq x.1 fun r => { r with q := x.2.1, inStep := true, sampled := x.2.2 }
    if ph = r.phase then s else s.setPhase x.1 ph

/-- Spindle posts the partition's next step (R243 to R246): consumed counts are read, full rings stall, the batch is
chosen, its descriptor is written to platform tier memory and the reel's go is written. A sealed partition whose session has ended
starts no new work (R394). -/
def State.postStep (s : State) (p : PartNum) : State :=
  if !s.serving || (s.srv.posted[p.val]).isSome || (s.part p).model.isNone || !(s.part p).live || (s.part p).destroying
    || s.sessionEnded p || (s.reel.steps[p.val]).isSome then s
  else
    let s := s.flushUpdates p
    let rings := s.inPhase p fun ph => ph == .decode || ph == .stalled || ph == .prefill || ph == .queued
    let s := rings.foldl (fun s i => s.readConsumed i) s
    let s := (s.inPhase p fun ph => ph == .stalled).foldl (fun s i => s.unstall i) s
    let s := s.stallFull p
    let b := s.compose p
    if b.slots.isEmpty then s
    else
      let s := if (s.inPhase p fun ph => ph == .stalled).isEmpty then s else s.bump (F.smpStallPStalls p)
      let step := (s.get (F.reelPStepNumStep p) + 1) % 2 ^ 32
      let bs := s.descBytes p step b
      let s := s.write (stepDescAddr p) bs
      let s := b.slots.foldl (fun s x => s.enterStep x) s
      let s := s.stepGo p
      let t : Posted := { step := BitVec.ofNat 32 step, seqs := b.slots.map (·.1), written := false }
      { s with srv := { s.srv with posted := s.srv.posted.set p.val (some t) } }

/-- A step has finished with a sequence: a cancel that it delayed takes effect (R266). -/
def State.leaveStep (s : State) (i : Nat) : State :=
  match s.request i with
  | none => s
  | some r =>
    let s := s.modReq i fun r => { r with inStep := false, sampled := false, cancel := false }
    if r.cancel then s.endRequest i 4 else s

/-- A slot's status as the request sees it (R185, R243). (DESIGN CHOICE, log entry 39.) -/
def State.slotResult (s : State) (x : StepSlot × Nat × Nat) : State :=
  let i := x.1.seq
  match s.request i with
  | none => s
  | some r =>
    if !r.inStep then s
    else if x.2.1 = 0 then
      let s := s.modReq i fun r => { r with left := r.left - r.q }
      let s := match r.phase with
        | .parked true => s.setPhase i .decode
        | .parked false => s.setPhase i .prefill
        | _ => s
      if r.sampled then s else s.leaveStep i
    else if x.2.1 = 1 then
      let s := match r.phase with
        | .parked _ => s
        | ph => s.setPhase i (.parked (ph == ReqPhase.decode))
      s.leaveStep i
    else if x.2.1 = 2 then s.endRequest i 3
    else if x.2.1 = 4 then s.endRequest i 6 (s.recordSeq 0x040 0x04 (some (s.conv i).part))
    else s.leaveStep i

/-- The posted step is over once its table is written and no slot of it is left to sample (R246).
(DESIGN CHOICE, log entry 39.) -/
def State.closeStep (s : State) (p : PartNum) : State :=
  match s.srv.posted[p.val] with
  | none => s
  | some t =>
    let open_ := t.seqs.any fun i =>
      match s.request i with
      | some r => r.inStep
      | none => false
    if t.written && !open_ then { s with srv := { s.srv with posted := s.srv.posted.set p.val none } } else s

/-! ### Rows -/

/-- Spindle posts a partition's step (R243 to R246). -/
def execStepPost (p : PartNum) (hw : HostStores) (s : State) : Host.Outcome State Fault Refusal :=
  .next ((s.hostStores hw).postStep p)

/-- The partition's step go (R180 to R182). -/
def State.reelGoWrite (s : State) (p : PartNum) (v : Word) : State := if v.getLsbD 0 then (s.flushUpdates p).stepGo p else s

/-- The reel finishes the step: statuses, frames, length tables, knots (R183 to R186); and what each slot's status makes
of its request (R243). (DESIGN CHOICE, log entry 39.) -/
def execReelStepComplete (p : PartNum) (s : State) : Host.Outcome State Fault Refusal :=
  .next (if (s.reel.steps[p.val]).isNone then s
  else
    let r := s.stepFinish p
    let pool := r.2.any fun x => x.2.1 == 4 && !s.seqBad x.1.seq
    let s := r.2.foldl (fun s x => s.slotResult x) r.1
    let s := if pool then s.poolFail p else s
    let t := (s.srv.posted[p.val]).map fun (t : Posted) => { t with written := true }
    ({ s with srv := { s.srv with posted := s.srv.posted.set p.val t } } : State).closeStep p)

/-- Updates that waited for the step's table are applied before the next step begins (R179). -/
def execSequenceUpdateApply (p : PartNum) (s : State) : Host.Outcome State Fault Refusal :=
  .next (s.flushUpdates p)

/-- A partition's sequences whose requests are parked and whose park_stamp has expired (R187). -/
def State.expiredParked (s : State) (p : PartNum) : List Nat :=
  (s.seqsIn p 2).filter fun i =>
    decide (s.get (F.reelPParkTimeoutTicks p) ≤ age (s.time.setWidth 32) (s.seqWord i 4)) &&
      (match (s.request i).map Request.phase with
        | some (ReqPhase.parked _) => true
        | _ => false)

/-- Frames one parked sequence needs for the q it had when it parked. -/
def State.framesNeeded (s : State) (i : Nat) : Nat :=
  let q := ((s.request i).map (·.q)).getD 1
  pagesOf (s.seqLen i + q) - pagesOf (s.seqLen i)

/-- Whether a parked sequence's own need is more than its pool holds: the vault frames, or for a fallback sequence the frames
of a page's home (R189, R205). -/
def State.short (s : State) (p : PartNum) (i : Nat) : Bool :=
  let n := s.framesNeeded i
  if s.seqFallback i then
    let homes := (List.range n).map fun k => s.homeOf p (pagesOf (s.seqLen i) + k)
    homes.any fun h =>
      match h with
      | none => true
      | some a => decide ((s.fbPool a).length < homes.count (some a))
  else decide ((s.framePool p).length < n)

/-- How many vault frames a sequence holds (R174). -/
def State.vaultPages (s : State) (i : Nat) : Nat :=
  ((List.range (pagesOf (s.seqLen i))).filter fun pg => entryWhere (s.mapEntry (s.seqMap i + pg)) == 1).length

/-- Frames that running evictions and waiting updates will return: the vault frames of what is evicted or dropped, and those that a
dropped copy back has taken. -/
def State.framesComing (s : State) (p : PartNum) : Nat :=
  let dropped := (s.reel.updates.filterMap fun u =>
    match u.2 with
    | .drop i => if u.1 = p then some i else none
    | .release i => if u.1 = p then some i else none
    | _ => none).dedup
  (((s.reel.copies.filter fun c => c.part == p && c.toTier && !dropped.contains c.seq).map fun c => c.places.length).sum
    + ((s.reel.copies.filter fun c => c.part == p && !c.toTier && dropped.contains c.seq).map fun c => c.places.length).sum)
    + (dropped.map fun i => s.vaultPages i).sum

/-- Evicts paused sequences until the frames asked for are free or on their way, or none can be evicted (R187). -/
def State.evictFor (s : State) (p : PartNum) (need except_ : Nat) : Nat → State
  | 0 => s
  | k + 1 =>
    if need ≤ (s.framePool p).length + s.framesComing p then s
    else
      match s.evictable p except_ with
      | none => s
      | some i =>
        match s.evictStart p i with
        | some t => t.evictFor p need except_ k
        | none => s

/-- The reel finds an expired parked sequence, and Spindle evicts paused sequences while the expired parked sequences of the
vault pool need more frames than are free; once nothing more can be evicted or is on its way, the oldest parked request whose
own need is still short ends PAGE_EXHAUSTED (R187, R189). In a gap the event is held until the incoming half has restored, and no
request ends so before the gap is over (R190). -/
def execParkExpiry (p : PartNum) (s : State) : Host.Outcome State Fault Refusal :=
  .next (if s.deadlinesHeld || !s.startsCommands then s
  else if (s.expiredParked p).isEmpty then s
  else
    let s := s.poolCheck p true true
    let parked := s.expiredParked p
    let need := ((parked.filter fun i => !s.seqFallback i).map fun i => s.framesNeeded i).sum
    let s := s.evictFor p need 0x10000 16384
    if 0 < s.framesComing p || s.flag F.twnStatusGap then s
    else
      match minBy (fun i => 2 ^ 32 - age (s.time.setWidth 32) (s.seqWord i 4)) (parked.filter fun i => s.short p i) with
      | some i => (s.endRequest i 5).bump (F.reelPExhaustedCount p)
      | none => s)

/-- An eviction's copy is visible in the tier, and its frames return (R188). With an uncorrectable word of the sequence, a request
that has continued its conversation meanwhile ends FATAL (R173). -/
def execEvictionCopyDone (p : PartNum) (s : State) : Host.Outcome State Fault Refusal :=
  .next (match s.nextCopy p true with
  | some k =>
    let r := s.evictEnd k
    let s := if r.2 then r.1.endRequest k.seq 6 (r.1.recordSeq 0x040 0x04 (some p)) else r.1
    s.poolsRetry p
  | none => s)

/-- The copy of a continued conversation's pages is visible in the vault: a request that still loads queues (R243, R263); with
an uncorrectable word of the sequence it ends FATAL (R173). -/
def execCopyBackDone (p : PartNum) (s : State) : Host.Outcome State Fault Refusal :=
  .next (match s.nextCopy p false with
  | some k =>
    let r := s.copyBackEnd k
    let s := r.1
    let s := match (s.request k.seq).map Request.phase with
      | some ph =>
        if r.2 then s.endRequest k.seq 6 (s.recordSeq 0x040 0x04 (some p))
        else if ph == ReqPhase.loading then
          ((s.update p (.activate k.seq)).modReq k.seq fun r => { r with loadSince := none }).setPhase k.seq .queued
        else s
      | none => s
    s.poolsRetry p
  | none => s)

/-- Spindle re-reads the consumed count of a Stalled request (R258). -/
def execStalledRingReread (i : Fin 16384) (hw : HostStores) (s : State) : Host.Outcome State Fault Refusal :=
  .next (let s := s.hostStores hw
    match s.request i with
    | some r => if r.phase = .stalled ∧ s.serving then (s.readConsumed i).unstall i else s
    | none => s)

/-- The end record of a request in Ending is written once its ring has a free record (R259). -/
def execEndRecordWrite (i : Fin 16384) (hw : HostStores) (s : State) : Host.Outcome State Fault Refusal :=
  .next (let s := s.hostStores hw
    match s.request i with
    | some r =>
      match r.phase with
      | .ending _ => if s.deadlinesHeld then s else (s.readConsumed i).writeEnd i
      | _ => s
    | none => s)

/-- Whether a command that Spindle read before a moment has still to run and may act on a conversation (R262): a CONV_RELEASE that
names it, or a REQ_SUBMIT of its partition, whose descriptor Spindle reads when it runs.
(DESIGN CHOICE, log entry 39.) -/
def State.readInTime (s : State) (i : Nat) (d : DWord) : Bool :=
  let v := s.conv i
  s.spn.cmds.any fun m => m.part? == some v.part && m.comp.isNone && decide (m.taken.toNat < d.toNat) &&
    ((m.op == 0x0403 && m.arg 8 4 == handleOf i v.serial) || m.op == 0x0401)

/-- A paused conversation's deadline has passed: it is released and reported, unless a command read before the deadline still
acts on it (R262). -/
def execTtlExpiry (i : Fin 16384) (s : State) : Host.Outcome State Fault Refusal :=
  .next (let v := s.conv i
    if s.deadlinesHeld || !v.live || (s.request i).isSome then s
    else
      match v.deadline with
      | none => s
      | some d =>
        if decide (s.time.toNat < d.toNat) || s.readInTime i d then s
        else ((s.serveEvent i stTtl 0 0).releaseConv i).modConv i fun v => { v with expired := some v.serial })

/-- A paused conversation's vault hold is over: its frames move to tier slots, unless the pool is short (R261). -/
def execVaultHoldExpiry (i : Fin 16384) (s : State) : Host.Outcome State Fault Refusal :=
  .next (s.holdStart i.val)

/-- A request in Loading has waited REEL_P_PARK_TIMEOUT for frames: paused conversations other than its own are evicted,
and if frames are still short it ends with code 5 (R263). -/
def execLoadingTimeout (i : Fin 16384) (s : State) : Host.Outcome State Fault Refusal :=
  .next (match s.request i with
  | none => s
  | some r =>
    let p := (s.conv i).part
    match r.loadSince with
    | none => s
    | some t =>
      if s.deadlinesHeld || r.phase != .loading || s.copying i
        || decide ((s.time - t).toNat < s.get (F.reelPParkTimeoutTicks p)) then s
      else
        let s := s.poolCheck p true true
        let need := pagesOf (s.seqLen i)
        let s := s.evictFor p need i 16384
        if need ≤ (s.framePool p).length then s.loadStart p i
        else if decide (0 < s.framesComing p) || s.flag F.twnStatusGap then s
        else s.endRequest i 5)

/-! ### Commands (R239) -/

/-- The status of a submission whose command was read at a moment (R241, R262). A partition whose reel is not enabled accepts
no set-up (R209). (DESIGN CHOICE, log entry 71.) -/
def State.submitCheck (s : State) (p : PartNum) (read : DWord) (addr : Nat) (bs : List Byte) (prompt : List Nat) : Nat :=
  let d := readReqDesc bs
  let i := d.handle % 0x4000
  if !s.inHostWindow p addr 128 || (d.promptTokens != 0 && !s.inHostWindow p d.promptAddr (4 * d.promptTokens))
    || !s.inHostWindow p d.ringAddr (max d.ringBytes 1) || !s.inHostWindow p d.ctlAddr 64 then stDenied
  else if !s.reqDescOk p addr bs prompt then stBad
  else if d.cont then
    if s.handleExpired d.handle read then stTtl
    else if (s.byHandle p d.handle).isNone then stBad
    else if (s.request i).isSome then stBusy
    else if (s.conv i).maxTokens < s.seqLen i + d.promptTokens + d.maxNew then stBad
    else stOk
  else
    let cap := pagesOf d.convMax
    let a := (s.chain p).length
    let tooBig := if d.fallback then a == 0 || decide (s.get (F.reelPFbCountCount p) < ceilDiv cap a)
      else decide (s.get (F.reelPFrameCountCount p) < cap)
    if tooBig || decide (s.get (F.reelPMapCountCount p) < cap) then stKv
    else if (s.freeIndex p).isNone || !s.flag (F.reelPCtlEnable p) || decide (1024 ≤ s.waitingRequests p)
      || (s.mapRun p cap).isNone then stBusy
    else stOk

/-- An accepted submission of a new conversation (R178, R243). -/
def State.submitNew (s : State) (p : PartNum) (d : ReqDesc) (prompt : List Nat) : State × Nat :=
  match s.freeIndex p, s.mapRun p (pagesOf d.convMax) with
  | some i, some base =>
    let serial := ((s.conv i).serial + 1) % 0x10000
    let n := s.srv.admissions
    let s := { s with srv := { s.srv with admissions := n + 1 } }
    let s := s.modConv i fun _ => {
      part := p, serial := serial, live := true, expired := none, maxTokens := d.convMax, fallback := d.fallback
      tokens := prompt.map fun t => (t, true), keep := d.keep, deadline := none, holdUntil := none
      request := some (newRequest d .queued n none) }
    let s := s.update p (.setup i base (pagesOf d.convMax) d.fallback)
    ((s.blockWrite d.ctlAddr (leBytes 8 0)).noteRequest i, handleOf i serial)
  | _, _ => (s, 0)

/-- An accepted submission that continues a conversation (R243, R263). -/
def State.submitContinue (s : State) (p : PartNum) (d : ReqDesc) (prompt : List Nat) : State × Nat :=
  let i := d.handle % 0x4000
  let tier := s.seqInTier i || s.copying i
  let n := s.srv.admissions
  let s := { s with srv := { s.srv with admissions := n + 1 } }
  let s := s.modConv i fun v => { v with
    tokens := v.tokens ++ prompt.map (fun t => (t, true)), keep := d.keep, deadline := none, holdUntil := none
    request := some (newRequest d (if tier then .loading else .queued) n (if tier then some s.time else none)) }
  let s := s.blockWrite d.ctlAddr (leBytes 8 0)
  let s := if tier then (s.poolCheck p true false).loadStart p i else s.update p (.activate i)
  (s.noteRequest i, d.handle)

/-- REQ_SUBMIT (R239 to R242). -/
def execReqSubmit (c : CmdRef) (hw : HostStores) (s : State) : Host.Outcome State Fault Refusal :=
  .next ((s.hostStores hw).runPart c 0x0401 fun m p s =>
    let addr := m.arg 8 8
    let bs := if s.inHostWindow p addr 128 then s.blockRead addr 128 else List.replicate 128 0
    let d := readReqDesc bs
    let n := d.promptTokens
    let prompt := if s.inHostWindow p d.promptAddr (4 * n) then
        let raw := s.blockRead d.promptAddr (4 * n)
        (List.range n).map fun k => fieldAt raw (4 * k) 4
      else []
    let st := s.submitCheck p m.taken addr bs prompt
    if st ≠ stOk then s.complete c st
    else
      let r := if d.cont then s.submitContinue p d prompt else s.submitNew p d prompt
      r.1.complete c stOk (leBytes 4 r.2))

/-- REQ_CANCEL (R265 to R267). A conversation whose request has ended, released or not, is answered CANCEL_LATE while the
handle's serial is current. -/
def execReqCancel (c : CmdRef) (s : State) : Host.Outcome State Fault Refusal :=
  .next (s.runPart c 0x0402 fun m p s =>
    match s.byName p (m.arg 8 4) with
    | none => s.complete c stBad
    | some i =>
      match s.request i with
      | none => (s.bump F.smpCancelLateCancels).complete c stLate
      | some r =>
        match r.phase with
        | .ending _ => s.complete c stOk
        | _ =>
          if r.inStep then (s.modReq i fun r => { r with cancel := true }).complete c stOk
          else (s.endRequest i 4).complete c stOk)

/-- CONV_RELEASE (R262, R264). -/
def execConvRelease (c : CmdRef) (s : State) : Host.Outcome State Fault Refusal :=
  .next (s.runPart c 0x0403 fun m p s =>
    let h := m.arg 8 4
    if s.handleExpired h m.taken then s.complete c stTtl
    else
      match s.byHandle p h with
      | none => s.complete c stBad
      | some i =>
        if (s.request i).isSome then s.complete c stBusy
        else (s.releaseConv i).complete c stOk)

/-- The status of a request's end (R256, R338): 1 to 3 COMPLETED, 4 CANCELLED, 5 PAGE_EXHAUSTED, 6 FATAL. -/
def endStatus (code : Nat) : Nat :=
  if code ≤ 3 then stCompleted else if code = 4 then stCancelled else if code = 5 then stPages else stFatal

/-- A request's state as REQ_QUERY codes it: the order of R243's states, and the status of the end of an ended request
(R338; assumption log). (DESIGN CHOICE, log entry 39.) -/
def reqStateCode : Option Request → Nat
  | none => 8
  | some r =>
    match r.phase with
    | .queued => 0
    | .loading => 1
    | .prefill => 2
    | .decode => 3
    | .parked _ => 4
    | .stalled => 5
    | .ending _ => 6
    | .ended => endStatus r.code

/-- REQ_QUERY (R239): request state, length and tokens written, an end-only record being none.
(DESIGN CHOICE, log entry 39.) -/
def execReqQuery (c : CmdRef) (s : State) : Host.Outcome State Fault Refusal :=
  .next (s.runPart c 0x0404 fun m p s =>
    match s.byName p (m.arg 8 4) with
    | none => s.complete c stBad
    | some i =>
      let r := (s.conv i).request
      s.complete c stOk (leBytes 1 (reqStateCode r) ++ leBytes 4 (s.seqLen i) ++ leBytes 4 ((r.map (·.generated)).getD 0)))

/-- SERVE_CONFIG (R244). -/
def execServeConfig (c : CmdRef) (s : State) : Host.Outcome State Fault Refusal :=
  .next (s.runPart c 0x0405 fun m p s =>
    let ms := m.arg 8 2
    let ch := m.arg 10 2
    let st := m.arg 12 2
    if (s.seqRange p).any (fun i => (s.conv i).live && (s.request i).isSome) then s.complete c stBusy
    else if ms = 0 ∨ 1024 < ms ∨ ch < 16 ∨ 8192 < ch ∨ ch % 16 ≠ 0 ∨ st = 0 ∨ 8192 < st then s.complete c stBad
    else
      ({ s with srv := { s.srv with
          maxSlots := s.srv.maxSlots.set p.val ms
          chunk := s.srv.chunk.set p.val ch
          stepTokens := s.srv.stepTokens.set p.val st } } : State).complete c stOk)

end Sys2Proof.Machine
end

