-- ==== Sys2Proof/Machine/Shuttle.lean ====
section
/-!
DEFINITION. The shuttle arbiter (R304 to R320): credits, arbitration, grants, the hold limit and the commit of staged
weights. A grant's beats count as granted once, delivered beats only when the grant is cut.
-/

namespace Sys2Proof.Machine

/-- Whether an instance is in use (R304). -/
def State.shtActive (s : State) (i : Fin 4) : Bool := s.flag (F.shtIStatActive i)

/-- Lanes that carry a PCIe instance: the negotiated width, or the port's own before it trains (R304, R511). -/
def State.shtWidth (s : State) (port : Nat) : Nat :=
  let w := s.get (F.pciLinkWidth port)
  if w ≠ 0 then w else if s.flag (F.pciLinkBifurcated 0) then 8 else 16

/-- G of an instance (R304, R511). -/
def State.shtG (s : State) (i : Fin 4) : Nat :=
  match i.val with
  | 0 => 32760
  | 1 => 500 * s.shtWidth 0
  | 2 => 500 * s.shtWidth 1
  | _ => 4096

/-- The least weight of requester 8 (R314). -/
def shtFloor (i : Fin 4) : Nat := if i.val = 0 then 256 else if i.val = 3 then 64 else 128

/-- The cap of a requester: its ceiling, or its weight when the ceiling is below it (R307). -/
def State.shtCap (s : State) (i : Fin 4) (r : Nat) : Nat :=
  max (s.get (F.shtWeightCeiling i r)) (s.get (F.shtWeightWeight i r))

/-- Changes one instance. -/
def State.modSht (s : State) (i : Fin 4) (f : ShtInst → ShtInst) : State :=
  { s with sht := s.sht.set i.val (f s.sht[i.val]) }

/-- Changes one requester. -/
def ShtInst.mod (t : ShtInst) (r : Fin 10) (f : ShtReq → ShtReq) : ShtInst :=
  { t with reqs := t.reqs.set r.val (f t.reqs[r.val]) }

/-- A requester's SHT_CREDIT word shows its counter, whether a burst waits and whether it holds the grant (R320). -/
def ShtInst.creditWord (t : ShtInst) (r : Fin 10) : Word :=
  BitVec.ofNat 32 (t.reqs[r.val].credit % 65536 + (if t.reqs[r.val].queue.isEmpty then 0 else 65536)
    + (if t.owner.any (fun g => g.req == r) then 131072 else 0))

/-! ### Requesters, bursts and their sources (R305, R306) -/

/-- A partition's requester. -/
def partReq (p : PartNum) : Fin 10 := ⟨p.val, by omega⟩

/-- The requester that a source's traffic counts for at an instance, if it crosses that port (R305). -/
def State.shtRequester (s : State) (i : Fin 4) (src : ShtSource) : Option (Fin 10) :=
  let video := fun (k : Fin 48) => (s.vid[k.val]).map fun v => partReq v.part
  match i.val, src with
  | 0, .remote n => (s.partOf n).map partReq
  | 0, .bar4 p => some (partReq p)
  | 0, .reelCopy p => some (partReq p)
  | 0, .spindle => some 8
  | 0, .cocoon => some 8
  | 0, .reelPlatform => some 8
  | 0, .hawkmothPort => some 9
  | 1, .remote n => (s.partOf n).map partReq
  | 2, .remote n => (s.partOf n).map partReq
  | 1, .sampler k => (allParts.find? fun p => s.seqIn p k.val).map partReq
  | 2, .sampler k => (allParts.find? fun p => s.seqIn p k.val).map partReq
  | 1, .videoRings k => video k
  | 2, .videoRings k => video k
  | 1, .completions => some 8
  | 2, .completions => some 8
  | 1, .eventRecords => some 8
  | 2, .eventRecords => some 8
  | 1, .hostReads => some 8
  | 2, .hostReads => some 8
  | 3, .videoPipe k => video k
  | 3, .motionWindow k => video k
  | 3, .bitstream k => video k
  | 3, .headerProcessors => some 8
  | _, _ => none

/-- A transfer of n bytes at an address, cut into bursts: one beat for each line it touches, and no burst across a 4 KiB
boundary, so none above 64 beats (R306). (DESIGN CHOICE, log entry 34.) -/
def cutBursts (addr n : Nat) : List Burst :=
  if n = 0 then []
  else
    let first := addr / 64
    let last := (addr + n - 1) / 64
    (List.range (last / 64 - first / 64 + 1)).map fun k =>
      let lo := max first (64 * (first / 64 + k))
      { addr := 64 * lo, beats := min last (64 * (first / 64 + k) + 63) - lo + 1 }

/-- A source's bursts wait behind its own; a source with none pending comes after the others (R306). -/
def ShtReq.push (q : ShtReq) (src : ShtSource) (bs : List Burst) : ShtReq :=
  if bs.isEmpty then q
  else if q.queue.any fun x => x.1 == src then
    { q with queue := q.queue.map fun (x : ShtSource × List Burst) => if x.1 = src then (x.1, x.2 ++ bs) else x }
  else { q with queue := q.queue ++ [(src, bs)] }

/-- The burst that the requester's turn gives next, and its queue after it: one burst of each source in turn (R306). -/
def ShtReq.next (q : ShtReq) : Option (ShtSource × Burst × ShtReq) :=
  match q.queue with
  | (src, b :: rest) :: t => some (src, b, { q with queue := if rest.isEmpty then t else t ++ [(src, rest)] })
  | _ => none

/-- What a cut leaves of a burst goes to the head of the requester's queue (R312). -/
def ShtReq.putBack (q : ShtReq) (src : ShtSource) (b : Burst) : ShtReq :=
  let own := (q.queue.filter fun x => x.1 == src).flatMap (·.2)
  { q with queue := (src, b :: own) :: q.queue.filter fun x => x.1 != src }

/-- A burst that the Hawkmoth port has carried reaches the tier's own port, as requester 9's, where it is for the tier
(R304, R305). (DESIGN CHOICE, log entry 34.) -/
def State.shtForward (s : State) (i : Fin 4) (b : Burst) : State :=
  match regionOf b.addr with
  | .tier _ =>
    if i.val = 3 ∧ b.beats ≠ 0 ∧ s.shtActive 0 then s.modSht 0 fun t => t.mod 9 fun q => q.push .hawkmothPort [b] else s
  | _ => s

/-- Beat slots of an instance in one timestamp tick of four fabric cycles (R312). (DESIGN CHOICE, log entry 34.) -/
def State.shtSlots (s : State) (i : Fin 4) : Nat :=
  match i.val with
  | 0 => 84
  | 1 => if s.shtWidth 0 = 16 then 8 else 4
  | _ => 4

/-- The hold limit of a requester; below 64 acts as 64 (R320). -/
def State.shtLimit (s : State) (i : Fin 4) (r : Nat) : Nat := max 64 (s.get (F.shtHoldHoldLimit i r))

/-- A tick on the arbiter: every hold count counts the slots of its port (R312). (DESIGN CHOICE, log entry 1.) -/
def State.tickSht (s : State) : State :=
  (List.finRange 4).foldl (fun s i => s.modSht i fun t => { t with
    owner := t.owner.map fun (g : Grant) => { g with slots := g.slots + s.shtSlots i } }) s

/-- Writes a requester's staged fields in the shadow (R315, R316). -/
def State.shtStage (s : State) (i : Fin 4) (r weight ceiling hold : Nat) : State :=
  let s := s.setReg (shtWeightKey i r + 0x80000) (BitVec.ofNat 32 (weight % 65536 + 65536 * (ceiling % 65536)))
  s.setReg (shtWeightKey i r + 4 + 0x80000) (BitVec.ofNat 32 (hold % 4096))

/-- Writes a requester's staged weight and ceiling, its hold limit's shadow kept. -/
def State.shtStageWeight (s : State) (i : Fin 4) (r weight ceiling : Nat) : State :=
  s.setReg (shtWeightKey i r + 0x80000) (BitVec.ofNat 32 (weight % 65536 + 65536 * (ceiling % 65536)))

/-- A commit write arms instances (R313); an instance not in use has nothing to commit. -/
def State.shtArm (s : State) (mask : Nat) : State :=
  (List.finRange 4).foldl (fun s i =>
    if bitsAt mask i.val 1 = 1 ∧ s.shtActive i then
      (s.modSht i fun t => { t with armed := true }).set (F.shtIStatCommitPending i) 1
    else s) s

/-- Applies the staged fields of an instance (R313). -/
def State.shtApply (s : State) (i : Fin 4) : State :=
  (List.range (shtCount i)).foldl (fun s r =>
    (s.setReg (shtWeightKey i r) (s.reg (shtWeightKey i r + 0x80000))).setReg (shtWeightKey i r + 4)
      (s.reg (shtWeightKey i r + 4 + 0x80000))) s

/-- Sum of the caps of an instance (R317). -/
def State.shtCaps (s : State) (i : Fin 4) : Nat := ((List.range (shtCount i)).map fun r => s.shtCap i r).sum

/-- Whether an instance is oversubscribed (R317). -/
def State.shtOver (s : State) (i : Fin 4) : Bool := decide (s.shtG i < s.shtCaps i + 64 * shtCount i)

/-- An armed commit at a window boundary: refused when requester 8 would fall below its minimum, applied otherwise
(R313, R314). -/
def State.shtBoundaryCommit (s : State) (i : Fin 4) : State :=
  if s.sht[i.val].armed = false then s
  else
    let s := (s.modSht i fun t => { t with armed := false }).set (F.shtIStatCommitPending i) 0
    if bitsAt (s.reg (shtWeightKey i 8 + 0x80000)).toNat 0 16 < shtFloor i then s.raiseBit (F.shtIStatCommitRefused i)
    else s.shtApply i

/-- One window boundary of an instance: the commit, the refill, and the starvation counts (R307, R313, R319).
(DESIGN CHOICE, log entry 34.) -/
def State.shtBoundary (s : State) (i : Fin 4) : State :=
  if !s.shtActive i then s
  else
    let t := s.sht[i.val]
    let s := (List.finRange 10).foldl (fun s (r : Fin 10) =>
      if t.arbitrated && t.reqs[r.val].missed && decide (r.val < shtCount i) then s.bump (F.shtStarvedWindows i r) else s) s
    let s := s.shtBoundaryCommit i
    s.modSht i fun t => { (List.finRange 10).foldl (fun t r => t.mod r fun q =>
      { q with credit := min (min q.credit (s.shtCap i r) + s.get (F.shtWeightWeight i r)) (s.shtCap i r), missed := true }) t with
      arbitrated := false }

/-- The pending requester with the highest counter, the lowest index of equals, the one sitting out left aside (R309,
R312). -/
def ShtInst.winner (t : ShtInst) : Option (Fin 10) :=
  (List.finRange 10).foldl (fun (best : Option (Fin 10)) r =>
    if t.reqs[r.val].queue.isEmpty ∨ t.sitOut = some r then best
    else match best with
      | none => some r
      | some b => if t.reqs[b.val].credit < t.reqs[r.val].credit then some r else some b) none

/-- SHT_COMMIT (R313). -/
def State.shtCommitWrite (s : State) (v : Word) : State := s.shtArm (v.toNat % 16)

/-- A source's transfer reaches an instance: its bursts wait for their requester (R305, R306, R310).
(DESIGN CHOICE, log entry 34.) -/
def execBurstRequest (inst : Fin 4) (source : ShtSource) (transfer : Transfer) (s : State) : Host.Outcome State Fault Refusal :=
  .next (match s.shtRequester inst source with
  | some r =>
    if s.shtActive inst && decide (source ≠ .hawkmothPort) then
      s.modSht inst fun t => t.mod r fun q => q.push source (cutBursts transfer.addr transfer.bytes)
    else s
  | none => s)

/-- An arbitration at a burst boundary (R308 to R311): the current burst is over, the winner's burst is granted and its
beats leave its counter. (DESIGN CHOICE, log entry 34.) -/
def execArbitration (inst : Fin 4) (s : State) : Host.Outcome State Fault Refusal :=
  .next (if !s.shtActive inst then s
  else
    let t := s.sht[inst.val]
    let s := match t.owner with
      | some g => s.shtForward inst g.burst
      | none => s
    let t := { (List.finRange 10).foldl (fun t r => t.mod r fun q => if q.queue.isEmpty then { q with missed := false } else q) t with
      arbitrated := true, owner := none }
    match t.winner with
    | none => s.modSht inst fun _ => { t with sitOut := none }
    | some r =>
      match t.reqs[r.val].next with
      | none => s
      | some (src, b, q) =>
        let d := min b.beats q.credit
        let t := { t.mod r fun _ => { q with credit := q.credit - d, missed := false } with
          sitOut := none, owner := some { req := r, source := src, burst := b, deducted := d, slots := 0 } }
        (s.modSht inst fun _ => t).addTo (F.shtBeatsBeats inst r) b.beats)

/-- The hold count reaches the owner's hold_limit with beats undelivered (R312); the count is known to a tick, and a cut
before the limit can be reached in the tick under way does not happen. (DESIGN CHOICE, log entry 34.) -/
def execHoldLimitCut (inst : Fin 4) (delivered : Nat) (s : State) : Host.Outcome State Fault Refusal :=
  .next (match s.sht[inst.val].owner with
  | none => s
  | some g =>
    if g.burst.beats ≤ delivered ∨ s.shtActive inst = false ∨ g.slots + s.shtSlots inst < s.shtLimit inst g.req then s
    else
      let cap := s.shtCap inst g.req
      let left := g.burst.beats - delivered
      let s := s.shtForward inst { g.burst with beats := delivered }
      let s := s.modSht inst fun t => { t.mod g.req fun q =>
          { q.putBack g.source { addr := g.burst.addr + 64 * delivered, beats := left } with
            credit := max q.credit (min (q.credit + (g.deducted - delivered)) cap) } with
        owner := none, sitOut := some g.req }
      let s := s.set (F.shtBeatsBeats inst g.req) (s.get (F.shtBeatsBeats inst g.req) - left)
      let s := (s.raiseBit (F.shtIStatHoldCut inst)).bump (F.shtCutsCuts inst g.req)
      s.report {
        source := 0x043, cls := 0x07, severity := 2, inst := g.req.val, detail := [BitVec.ofNat 8 inst.val]
        affected := if h : g.req.val < 8 then partBit ⟨g.req.val, h⟩ else s.allPartBits })

/-- A window boundary, common to all instances, while the arbiter runs (R307, R313, R319).
(DESIGN CHOICE, log entry 34.) -/
def execWindowBoundary (s : State) : Host.Outcome State Fault Refusal :=
  .next (if s.board.supply = .on then
    (List.finRange 4).foldl (fun s i => s.shtBoundary i) (s.bump F.shtWindowWindows) else s)

end Sys2Proof.Machine
end

