-- ==== Sys2Proof/Machine/Video.lean ====
section
/-!
DEFINITION. Hawkmoth (R270 to R302): sessions and their rings, the frame pool's marks, pictures in pipes, rate control,
packets and statistics. Pipes 0 and 1 decode, pipes 2 and 3 encode.
-/

namespace Sys2Proof.Machine

/-! ### Session descriptors (R275, R281, R294, R300) -/

/-- A field of a session descriptor. -/
def Session.fld (v : Session) (off n : Nat) : Nat := fieldAt v.desc off n
/-- kind: 0 decode, 1 encode, 2 statistics-only encode. -/
def Session.kind (v : Session) : Nat := v.fld 0 1
/-- Whether a session decodes. -/
def Session.decodes (v : Session) : Bool := v.kind == 0
/-- Whether the codec is AV1. -/
def Session.av1 (v : Session) : Bool := v.fld 1 1 == 1
/-- Bytes of a sample. -/
def Session.sampleBytes (v : Session) : Nat := if v.fld 2 1 = 10 then 2 else 1
/-- stats_en. -/
def Session.statsEn (v : Session) : Bool := bitsAt (v.fld 3 1) 0 1 == 1
/-- stats_policy: 1 skips. -/
def Session.statsSkips (v : Session) : Bool := bitsAt (v.fld 3 1) 1 1 == 1
/-- width. -/
def Session.width (v : Session) : Nat := v.fld 4 2
/-- height. -/
def Session.height (v : Session) : Nat := v.fld 6 2
/-- fps_milli. -/
def Session.fps (v : Session) : Nat := v.fld 8 4
/-- pool_count. -/
def Session.poolCount (v : Session) : Nat := v.fld 12 2
/-- refs. -/
def Session.refs (v : Session) : Nat := v.fld 14 2
/-- pool_base. -/
def Session.poolBase (v : Session) : Nat := v.fld 16 8
/-- in_ring. -/
def Session.inRing (v : Session) : Nat := v.fld 24 8
/-- Entries of the input ring. -/
def Session.inSize (v : Session) : Nat := v.fld 32 4 / 32
/-- Entries of the output ring. -/
def Session.outSize (v : Session) : Nat := v.fld 36 4 / 32
/-- out_ring. -/
def Session.outRing (v : Session) : Nat := v.fld 40 8
/-- ctl_addr. -/
def Session.ctl (v : Session) : Nat := v.fld 48 8
/-- bs_addr. -/
def Session.bsAddr (v : Session) : Nat := v.fld 56 8
/-- bs_bytes. -/
def Session.bsBytes (v : Session) : Nat := v.fld 64 4
/-- stats_array. -/
def Session.statsArray (v : Session) : Nat := v.fld 68 2
/-- stats_offset. -/
def Session.statsOffset (v : Session) : Nat := v.fld 72 4
/-- stats_buffers. -/
def Session.statsBuffers (v : Session) : Nat := v.fld 76 1

/-- n rounded up to a multiple of k. -/
def ceilTo (k n : Nat) : Nat := ceilDiv n k * k

/-- buffer_bytes (R281). -/
def Session.bufferBytes (v : Session) : Nat :=
  let pitch := ceilTo 256 (v.width * v.sampleBytes)
  let ph := ceilTo 64 v.height
  ceilTo 4096 (pitch * ph + pitch * ph / 2 + ceilDiv v.width 16 * ceilDiv v.height 16 * 16)

/-- The reserve of R294: width × height × 3/2 × e, in whole bytes. -/
def Session.reserve (v : Session) : Nat := ceilDiv (v.width * v.height * 3 * v.sampleBytes) 2

/-- Blocks across and down, and the line stride of a statistics tensor (R300). -/
def Session.statsGeom (v : Session) : Nat × Nat × Nat :=
  let bw := ceilDiv v.width 16
  (bw, ceilDiv v.height 16, ceilTo 64 (bw * 8))

/-- Bytes of a statistics buffer (R300). -/
def Session.statsSize (v : Session) : Nat := 64 + v.statsGeom.2.1 * v.statsGeom.2.2

/-- CTU rows of a picture, and packets of its slices or tile rows (R271). -/
def Session.sliceCount (v : Session) : Nat := if v.fld 77 1 = 0 then 1 else ceilDiv (ceilDiv v.height 64) (v.fld 77 1)

/-- A session's cost in thousandths of a sample per second (R272). -/
def Session.costOf (v : Session) : Nat := ceilTo 8 v.width * ceilTo 8 v.height * v.fps

/-! ### Rate control words (R297, R299) -/

/-- The key of word w of encode session e's rate-control registers. -/
def rcKey (e w : Nat) : Nat := regKey 0x42 (0x1000 + 0x40 * e + 4 * w)

/-- The RWS bits of the five words. -/
def rcMask (w : Nat) : Word :=
  match w with
  | 0 => 0x00FFFF07#32
  | 3 => 0x7FFFFFFF#32
  | _ => 0xFFFFFFFF#32

/-- The rules of R299 on a set of five words. -/
def rcOk (ws : List Word) : Bool :=
  let w := fun k : Nat => (ws[k]?.getD 0).toNat
  let mode := bitsAt (w 0) 0 2 % 3
  let lo := bitsAt (w 4) 0 8
  let hi := bitsAt (w 4) 8 8
  let qi := bitsAt (w 4) 16 8
  let qp := bitsAt (w 4) 24 8
  decide (lo ≤ hi) && decide (lo ≤ qi) && decide (qi ≤ hi) && decide (lo ≤ qp) && decide (qp ≤ hi)
    && (mode == 0 || (w 1 != 0 && bitsAt (w 3) 0 24 != 0)) && (mode != 2 || decide (w 1 ≤ w 2))

/-- The shadow set of an encode session. -/
def State.rcShadow (s : State) (e : Nat) : List Word := (List.range 5).map fun w => s.reg (rcKey e w + 0x80000) &&& rcMask w

/-- The commit point of an encode session (R297, R299). -/
def State.rcCommit (s : State) (e : Nat) : State :=
  let ws := s.rcShadow e
  if rcOk ws then (List.zipIdx ws).foldl (fun s x => s.setReg (rcKey e x.2) x.1) s
  else s.raiseBit (F.hwkRcFlagsRcRefused e)

/-! ### Sessions -/

/-- An open session. -/
def State.ses (s : State) (i : Fin 48) : Option Session := s.vid[i.val]
/-- Replaces a session. -/
def State.setSes (s : State) (i : Fin 48) (v : Option Session) : State := { s with vid := s.vid.set i.val v }
/-- Changes an open session. -/
def State.modSes (s : State) (i : Fin 48) (f : Session → Session) : State := s.setSes i ((s.ses i).map f)

/-- Whether a session is closing. -/
def Session.isClosing (v : Session) : Bool := v.closing.isSome || v.closeAll

/-- Whether a range may hold a session's rings and data (R276). -/
def State.vidPlace (s : State) (p : PartNum) (a n : Nat) : Bool := s.inHostWindow p a n || s.inOwnTier p a n

/-- Why a place is closed to a session, as the cause of R487: 1 reserved addresses, registers and unusable arrays, 4 a window, 2 a
granule or spool. -/
def State.vidCause (s : State) (a : Nat) : Nat :=
  match regionOf a with
  | .vault n _ => if s.usable n then 2 else 1
  | .spool n _ => if s.usable n then 2 else 1
  | .tier _ => 2
  | .window _ _ => 4
  | _ => 1

/-- A session's access to a place that is no longer its partition's: zeros or no effect, and an access error (R37, R155). R487 names
no path for Hawkmoth's accesses: the record's path and window stay 0. (DESIGN CHOICE, log entry 71.) -/
def State.vidDenied (s : State) (p : PartNum) (a : Nat) : State :=
  s.accessError 0x042 0xFFFF (s.vidCause (a % 2 ^ 48)) 0 0 (some p) (some (a % 2 ^ 48))

/-- Reads for a session. -/
def State.vidRead (s : State) (p : PartNum) (a n : Nat) : State × List Byte :=
  if !s.vidPlace p a n then (s.vidDenied p a, List.replicate n 0)
  else
    match s.windowTarget a with
    | some _ => (s, s.blockRead a n)
    | none => s.readThrough a n

/-- A pipe's reads of a range of the pool for a picture: corrections and uncorrectable words are counted and reported (R144,
R145). -/
def State.vidScan (s : State) (p : PartNum) (a n : Nat) : State :=
  if !s.inOwnTier p a n then s.vidDenied p a
  else
    let t := (s.correct a n 5).linkCheck a n
    (s.badWords a n).foldl (fun t w => t.eccReport w 5 true) t

/-- Writes for a session. -/
def State.vidWrite (s : State) (p : PartNum) (a : Nat) (bs : List Byte) : State :=
  if s.vidPlace p a bs.length then s.blockWrite a bs else s.vidDenied p a

/-- A session's VIDEO record (R486, R487). -/
def State.vidEvent (s : State) (i : Fin 48) (severity : Nat) : State :=
  match s.ses i with
  | none => s
  | some v => s.report {
      source := 0x042, cls := 0x09, severity := severity, part := some v.part, affected := partBit v.part, inst := i.val
      detail := leBytes 4 v.pictures }

/-- Changes one buffer's marks. -/
def Session.mark (v : Session) (b : Nat) (f : Marks → Marks) : Session := { v with marks := v.marks.modify b f }

/-- Whether a buffer exists and is free (R282): all four marks are clear, no pipe decodes into it, and no output that has
fallen due shows it. -/
def Session.bufFree (v : Session) (b : Nat) : Bool :=
  match v.marks[b]? with
  | some m => !m.src && !m.ref && !m.wait && m.held == 0 && !(v.inPipe.any fun t => t.buffer == some b)
      && !(v.due.any fun o => !o.isEnd && o.buffer == b)
  | none => false

/-- The free buffers, lowest first. -/
def Session.freeBufs (v : Session) : List Nat := (List.range v.poolCount).filter fun b => v.bufFree b
/-- The lowest free buffer. -/
def Session.freeBuf (v : Session) : Option Nat := v.freeBufs.head?

/-- Output entries that may still be written (R286, R294). -/
def Session.outFree (v : Session) : Nat := v.outSize - (v.outMade - v.outSeen)

/-- Whether waiting statistics hold the session up (R302). -/
def Session.statsBlock (v : Session) : Bool :=
  !v.stats.isEmpty && !v.statsSkips && decide (v.statsSeen + v.statsBuffers ≤ v.statsMade)

/-- The decode pictures that have arrived and not started, in order: whether each needs a buffer of its own (R282, R283).
A unit whose headers are not parsed yet counts as one picture. -/
def Session.arrived (v : Session) : List Bool :=
  (match v.unit with
  | some u => u.frames.map fun f => f.showExisting.isNone
  | none => []) ++ v.units.map fun u => u.picture

/-- The encode entries that have arrived and not started. -/
def Session.queued (v : Session) : List (List Byte) := if v.inPipe.isSome then v.entries.drop 1 else v.entries

/-- Output entries and bitstream bytes that the picture in a pipe still holds (R294). -/
def Session.held (v : Session) : Nat × Nat :=
  match v.inPipe with
  | some t => (t.packets, t.resv)
  | none => (0, 0)

/-- Encode pictures for which the output ring and the bitstream area have room (R294). -/
def Session.outRoom (v : Session) : Nat :=
  min ((v.outFree - v.held.1) / (v.sliceCount + 1)) ((v.bsBytes - (v.bsUsed + v.held.2)) / max 1 v.reserve)

/-- What a session that has a picture waits for: 0 nothing, 1 a buffer, 2 a ring or the bitstream area, 3 statistics. -/
def Session.waits (v : Session) : Nat :=
  if v.badCount || decide (v.outFree < v.due.length) then 2
  else if v.statsBlock then 3
  else if v.decodes then (if v.freeBuf.isNone && v.arrived.head?.getD false then 1 else 0)
  else if v.kind = 1 then (if v.outRoom = 0 then 2 else if v.freeBuf.isNone then 1 else 0)
  else 0

/-- How many pictures of a list fit n free buffers. -/
def fitting : List Bool → Nat → Nat
  | [], _ => 0
  | false :: t, n => fitting t n + 1
  | true :: _, 0 => 0
  | true :: t, n + 1 => fitting t n + 1

/-- Whether a picture has arrived. -/
def Session.hasPicture (v : Session) : Bool := if v.decodes then !v.arrived.isEmpty else !v.queued.isEmpty

/-- The keys of the pictures that have arrived and not started, in order: units and their frames by number, encode entries by
theirs. -/
def Session.pictureKeys (v : Session) : List Nat :=
  if v.decodes then
    (match v.unit with
    | some u => (List.range u.frames.length).map fun k => (v.unitsDone - 1) * 2 ^ 32 + u.done + k
    | none => []) ++ (List.range v.units.length).map fun k => (v.unitsDone + k) * 2 ^ 32
  else (List.range v.queued.length).map fun k => v.inDone + (if v.inPipe.isSome then 1 else 0) + k

/-- How many of the next pictures are ready (R273). -/
def Session.readyCount (v : Session) : Nat :=
  if v.waits ≠ 0 then 0
  else if v.decodes then fitting v.arrived v.freeBufs.length
  else if v.kind = 1 then min v.queued.length (min v.outRoom v.freeBufs.length)
  else v.queued.length

/-- Renews a session's readiness, its waiting flags and its state field (R273, R283, R303). -/
def State.vidRefresh (s : State) (i : Fin 48) : State :=
  match s.ses i with
  | none => s
  | some v =>
    if v.isClosing then s
    else
      let w := if v.hasPicture || !v.due.isEmpty || v.badCount then v.waits else 0
      let ready := (v.pictureKeys.take v.readyCount).map fun k =>
        (k, ((v.ready.find? fun x => x.1 == k).map (·.2)).getD s.time)
      let s := s.modSes i fun v => { v with ready := ready }
      let s := if w = 1 then s.raiseBit (F.hwkSStatPoolWait i) else if w = 2 then s.raiseBit (F.hwkSStatRingWait i) else s
      if s.get (F.hwkSStatState i) = 4 then s else s.set (F.hwkSStatState i) (if w = 0 then 1 else 2)

/-- in_consumed advances by n entries and is written (R279, R284, R292). -/
def State.vidConsume (s : State) (i : Fin 48) (n : Nat) : State :=
  match s.ses i with
  | none => s
  | some v =>
    if n = 0 then s
    else
      (s.modSes i fun v => { v with inDone := v.inDone + n, entries := v.entries.drop n }).vidWrite v.part (v.ctl + 8)
        (leBytes 8 (v.inDone + n))

/-- Entries that end unencoded (R291) are passed. -/
def State.vidSkipBad (s : State) (i : Fin 48) : State :=
  match s.ses i with
  | none => s
  | some v => if v.decodes then s else s.vidConsume i (v.entries.takeWhile fun e => e.isEmpty).length

/-- A decode entry's chunk is read, and its entry is passed; the entry that ends the unit completes it (R284). -/
def State.vidChunk (s : State) (i : Fin 48) (v : Session) (e : List Byte) : State :=
  let a := fieldAt e 0 8
  let n := fieldAt e 8 4
  let flags := fieldAt e 12 4
  let fresh : VidUnit := {
    pts := BitVec.ofNat 64 (fieldAt e 16 8), picture := false, eos := false, disc := false, bad := false, frames := []
    done := 0, flush := [], width := 0, height := 0 }
  let u := v.gather.getD fresh
  let u : VidUnit := { u with
    picture := bitsAt flags 0 1 == 1
    eos := bitsAt flags 1 1 == 1
    disc := u.disc || bitsAt flags 2 1 == 1
    bad := u.bad || !s.vidPlace v.part a n }
  let ends := u.picture || u.eos
  (((s.vidRead v.part a n).1.modSes i fun v => { v with
    gather := if ends then none else some u
    units := if ends then v.units ++ [u] else v.units })).vidConsume i 1

/-- Takes a new input entry in: a decode entry's chunk is read; an encode entry marks its source buffer, or ends
unencoded (R282, R284, R291). -/
def State.vidAccept (s : State) (i : Fin 48) (e : List Byte) : State :=
  match s.ses i with
  | none => s
  | some v =>
    if v.decodes then s.vidChunk i v e
    else
      let b := fieldAt e 0 2
      if v.bufFree b then
        s.modSes i fun v => { v.mark b fun m => { m with src := true } with entries := v.entries ++ [e] }
      else
        ((s.modSes i fun v => { v with entries := v.entries ++ [[]] }).raiseBit (F.hwkSStatStreamError i)).vidEvent i 2

/-- Releases what consumed output entries name (R287, R294). -/
def Session.release (v : Session) (upTo : Nat) : Session :=
  let done := v.unconsumed.filter fun u => decide (u.1 < upTo)
  let v := done.foldl (fun (v : Session) u =>
    match u.2.1 with
    | some b => v.mark b fun m => { m with held := m.held - 1 }
    | none => v) v
  { v with
    unconsumed := v.unconsumed.filter fun u => decide (upTo ≤ u.1)
    bsUsed := v.bsUsed - (done.map fun u => u.2.2).sum
    outSeen := upTo }

/-- Hawkmoth reads a session's counts and its new input entries (R280). -/
def State.vidPoll (s : State) (i : Fin 48) : State :=
  match s.ses i with
  | none => s
  | some v =>
    if v.isClosing then s
    else
      let r := s.vidRead v.part v.ctl 40
      let inP := fieldAt r.2 0 8
      let outC := fieldAt r.2 24 8
      let stC := fieldAt r.2 32 8
      let s := r.1
      if inP < v.inSeen ∨ v.inDone + v.inSize < inP ∨ outC < v.outSeen ∨ v.outMade < outC ∨ stC < v.statsSeen
          ∨ v.statsMade < stC then
        let s := (s.modSes i fun v => { v with badCount := true }).raiseBit (F.hwkSStatRingWait i)
        let s := if v.badCount then s
          else s.report { source := 0x042, cls := 0x06, severity := 2, part := some v.part, affected := partBit v.part }
        s.vidRefresh i
      else
        let s := s.modSes i fun v => { v.release outC with badCount := false, inSeen := inP, statsSeen := stC }
        let s := (List.range (inP - v.inSeen)).foldl (fun s k =>
          let r := s.vidRead v.part (v.inRing + 32 * ((v.inSeen + k) % v.inSize)) 32
          r.1.vidAccept i r.2) s
        (s.vidSkipBad i).vidRefresh i

/-! ### Output (R286, R287, R294 to R296) -/

/-- An entry goes to the output ring, and out_produced after it (R280). -/
def State.vidEmit (s : State) (i : Fin 48) (e : List Byte) (b : Option Nat) (bytes : Nat) : State :=
  match s.ses i with
  | none => s
  | some v =>
    let s := s.vidWrite v.part (v.outRing + 32 * (v.outMade % v.outSize)) e
    let s := s.vidWrite v.part (v.ctl + 16) (leBytes 8 (v.outMade + 1))
    s.modSes i fun v => { v with outMade := v.outMade + 1, unconsumed := v.unconsumed ++ [(v.outMade, b, bytes)] }

/-- The end record's entry: its end flag; the spec states none of the fields that describe a picture (assumption log).
(DESIGN CHOICE, log entry 42.) -/
def State.endEntry (s : State) (decodes : Bool) : State × List Byte :=
  let f := (List.range 32).map fun k => Config.freeByte (s.free + k)
  let e := if decodes then bytesAt f 0 2 ++ [8, 0] ++ bytesAt f 4 24 ++ List.replicate 4 0
    else bytesAt f 0 12 ++ [16, 0, 0, 0] ++ bytesAt f 16 10 ++ List.replicate 6 0
  ({ s with free := s.free + 32 }, e)

/-- Writes the session's first due output if an entry is free (R286, R287). -/
def State.vidOutput (s : State) (i : Fin 48) : State :=
  match s.ses i with
  | none => s
  | some v =>
    match v.due with
    | [] => s
    | o :: rest =>
      if v.outFree = 0 then s.raiseBit (F.hwkSStatRingWait i)
      else if o.isEnd then
        let r := s.endEntry v.decodes
        (r.1.modSes i fun v => { v with due := rest }).vidEmit i r.2 none 0
      else
        let e := leBytes 2 o.buffer ++ leBytes 1 o.flags ++ [0] ++ leBytes 4 v.pictures ++ leBytes 8 o.pts.toNat
          ++ leBytes 8 o.crop.toNat ++ leBytes 4 o.concealed ++ leBytes 4 0
        let s := s.modSes i fun v => { v.mark o.buffer fun m => { m with
            wait := if o.shown then m.wait else false
            held := m.held + 1 } with
          due := rest
          pictures := v.pictures + 1
          stats := if v.statsEn && o.first then
              v.stats ++ [(v.pictures, bitsAt o.flags 0 1 == 1, bitsAt o.flags 1 1 == 1, o.pts, o.tensor)]
            else v.stats }
        (s.vidEmit i e (some o.buffer) 0).bump (F.hwkSPicsPictures i)

/-- Writes due outputs as long as entries are free. -/
def State.vidDrain (s : State) (i : Fin 48) : Nat → State
  | 0 => s
  | k + 1 =>
    match s.ses i with
    | some v => if v.due.isEmpty || v.outFree == 0 then s else (s.vidOutput i).vidDrain i k
    | none => s

/-- The admitted cost of a direction, and HWK_LOAD (R272, R303). -/
def State.vidLoad (s : State) (decode : Bool) : Nat :=
  ((List.finRange 48).map fun (k : Fin 48) =>
    match s.ses k with
    | some v => if v.decodes = decode then v.cost else 0
    | none => 0).sum

/-- HWK_LOAD follows the open sessions. -/
def State.vidLoads (s : State) : State :=
  (s.set F.hwkLoadDec (s.vidLoad true / 1000000000)).set F.hwkLoadEnc (s.vidLoad false / 1000000000)

/-- A close ends: marks, number and cost are freed and the command completes (R277). -/
def State.vidFree (s : State) (i : Fin 48) : State :=
  match s.ses i with
  | none => s
  | some v =>
    let s := ((s.setSes i none).vidLoads.set (F.hwkSStatState i) 0).set (F.hwkSStatPartition i) 0
    match v.closing with
    | some m => s.complete m stOk
    | none => s

/-- A close begins: input whose picture has not started is discarded (R277). A VID_CLOSE that waits completes when the
session is free, whatever else closes it. -/
def State.vidCloseStart (s : State) (i : Fin 48) (c : Option CmdRef) : State :=
  match s.ses i with
  | none => s
  | some v =>
    let s := (s.modSes i fun v => { v with
      closing := v.closing.orElse fun _ => c
      closeAll := v.closeAll || c.isNone
      entries := []
      gather := none
      units := []
      unit := none
      ready := [] }).set (F.hwkSStatState i) 3
    if v.inPipe.isNone then s.vidFree i else s

/-- Sessions of a partition. -/
def State.vidOf (s : State) (p : PartNum) : List (Fin 48) :=
  (List.finRange 48).filter fun k => (s.ses k).any fun v => v.part == p

/-! ### VID commands (R274 to R277, R297) -/

/-- The session a command names, if it is the partition's. -/
def State.vidNamed (s : State) (p : PartNum) (n : Nat) : Option (Fin 48) :=
  if h : n < 48 then (if (s.ses ⟨n, h⟩).any (fun v => v.part == p) then some ⟨n, h⟩ else none) else none

/-- A session as its descriptor opens it. -/
def newSession (p : PartNum) (bs : List Byte) : Session :=
  let v : Session := {
    part := p, desc := bs, cost := 0, inSeen := 0, inDone := 0, outMade := 0, outSeen := 0, statsSeen := 0, statsMade := 0
    entries := [], gather := none, units := [], unit := none, badCount := false, unitsDone := 0, ready := [], marks := [], decoded := []
    latest := none, due := [], unconsumed := []
    pictures := 0, coded := 0, sinceKey := none, corrupt := false, skip := false, inPipe := none, bsHead := 0, bsUsed := 0
    rc := { fullness := 0, lastQp := (0, 0), lastBits := (none, none), rowCx := ([], []) }
    stats := [], closing := none, closeAll := false }
  let w3 := v.fld 92 4
  let w4 := v.fld 96 4
  { v with
    cost := v.costOf
    marks := List.replicate v.poolCount { src := false, ref := false, wait := false, held := 0 }
    rc := { v.rc with
      fullness := Int.ofNat (bitsAt w3 0 24 * 1000 * bitsAt w3 24 7 / 100)
      lastQp := (bitsAt w4 16 8, bitsAt w4 24 8) } }

/-- Check 1 of R276. -/
def State.vidPlaced (s : State) (p : PartNum) (addr : Nat) (v : Session) : Bool :=
  s.vidPlace p addr 128 && s.vidPlace p v.inRing (max 32 (v.inSize * 32)) && s.vidPlace p v.outRing (max 32 (v.outSize * 32))
    && s.vidPlace p v.ctl 64 && (v.kind != 1 || s.vidPlace p v.bsAddr (max 1 v.bsBytes))
    && s.inOwnTier p v.poolBase (max 1 (v.poolCount * v.bufferBytes))
    && (!v.statsEn || (allArrays.any fun (n : ArrayNum) => n.val == v.statsArray && s.inPart p n))

/-- The range checks of R275 and R276, check 2. -/
def vidDescOk (addr : Nat) (v : Session) : Bool :=
  addr % 64 == 0 && decide (v.kind < 3) && decide (v.fld 1 1 < 2) && (v.fld 2 1 == 8 || (v.fld 2 1 == 10 && v.kind != 2))
    && decide (v.fld 3 1 < 4) && decide (64 ≤ v.width) && decide (v.width ≤ 4096) && decide (64 ≤ v.height)
    && decide (v.height ≤ 4096) && decide (v.width * v.height ≤ 8912896) && decide (1000 ≤ v.fps) && decide (v.fps ≤ 240000)
    && decide (4 ≤ v.poolCount) && decide (v.poolCount ≤ 32) && (!(v.decodes && v.av1) || decide (10 ≤ v.poolCount))
    && (if v.decodes then v.refs == 0 && v.fld 77 1 == 0 && v.fld 78 2 == 0 else v.refs == 1 || v.refs == 2)
    && v.poolBase % 4096 == 0 && v.inRing % 4096 == 0 && v.outRing % 4096 == 0 && v.ctl % 64 == 0
    && ringSizeOk' (v.fld 32 4) && ringSizeOk' (v.fld 36 4)
    && (if v.kind = 1 then v.bsAddr % 4096 == 0 && v.bsBytes % 4096 == 0 && decide (2 * v.reserve ≤ v.bsBytes)
        && decide (v.bsBytes ≤ 0x10000000) else v.bsAddr == 0 && v.bsBytes == 0)
    && decide (v.fld 77 1 ≤ 64)
    && decide (v.statsArray < 64) && decide (v.fld 70 2 < 2048) && v.statsOffset % 64 == 0
    && decide (1 ≤ v.statsBuffers) && decide (v.statsBuffers ≤ 8)
    && (!v.statsEn || decide (v.statsOffset + v.statsBuffers * v.statsSize ≤ 0x800000))
    && rcOk ((List.range 5).map fun k => BitVec.ofNat 32 (v.fld (80 + 4 * k) 4) &&& rcMask k)
    && (v.desc.drop 100).all (· == 0)
where
  /-- A ring size: a power of two from 4,096 to 1,048,576. -/
  ringSizeOk' (n : Nat) : Bool := (List.range 9).any fun k => n == 4096 * 2 ^ k

/-- A free session number of a direction. -/
def State.vidNumber (s : State) (decode : Bool) : Option (Fin 48) :=
  (List.finRange 48).find? fun k => (decide (k.val < 32) == decode) && (s.ses k).isNone

/-- Opens a session: registers, counters and, for an encoder, its rate-control words (R274, R297, R303). k of HWK_RC_CTL is the
firmware's, 6 for HEVC and 24 for AV1 (R297), whatever the descriptor's word holds there (R275): no codec is known before a session
opens, so it is loaded here. (DESIGN CHOICE, log entry 42.) -/
def State.vidOpenAt (s : State) (i : Fin 48) (v : Session) : State :=
  let s := (s.setSes i (some v)).vidLoads
  let s := ((s.set (F.hwkSStatState i) 1).set (F.hwkSStatPartition i) v.part.val)
  let s := (s.set (F.hwkSPicsPictures i) 0).set (F.hwkSConcealUnits i) 0
  if v.decodes then s
  else
    let e := i.val - 32
    let s := (List.range 5).foldl (fun s k =>
      let w := BitVec.ofNat 32 (v.fld (80 + 4 * k) 4) &&& rcMask k
      let w := if k = 0 then BitVec.ofNat 32 (withBits w.toNat 16 8 (if v.av1 then 24 else 6)) else w
      (s.setReg (rcKey e k) w).setReg (rcKey e k + 0x80000) w) s
    s.set (F.hwkRcFullFullness e) v.rc.fullness.toNat

/-- VID_OPEN (R274 to R276, R299). -/
def execVidOpen (c : CmdRef) (hw : HostStores) (s : State) : Host.Outcome State Fault Refusal :=
  .next ((s.hostStores hw).runPart c 0x0501 fun m p s =>
    let addr := m.arg 8 8
    if !s.vidPlace p addr 128 then s.complete c stDenied
    else
      let r := s.vidRead p addr 128
      let s := r.1
      let v := newSession p r.2
      if !s.vidPlaced p addr v then s.complete c stDenied
      else if !vidDescOk addr v then s.complete c stBad
      else
        match s.vidNumber v.decodes with
        | none => s.complete c stBusy
        | some i =>
          if !s.flag F.hwkStatusReady ∨ (if v.decodes then 4000000000000 else 2000000000000) < s.vidLoad v.decodes + v.cost then
            s.complete c stBusy
          else (s.vidOpenAt i v).complete c stOk (leBytes 1 i.val))

/-- VID_CLOSE (R277); one that a new active half runs again finds the close it began (R367). -/
def execVidClose (c : CmdRef) (s : State) : Host.Outcome State Fault Refusal :=
  .next (s.runPart c 0x0502 fun m p s =>
    match s.vidNamed p (m.arg 8 1) with
    | none => s.complete c stBad
    | some i =>
      if (s.ses i).any (fun v => v.closing == some c) then s.park c .none
      else if (s.ses i).any (fun v => v.isClosing) then s.complete c stBad
      else (s.park c .none).vidCloseStart i (some c))

/-- VID_RECONFIG: the shadow words of an encode session (R297). -/
def execVidReconfig (c : CmdRef) (s : State) : Host.Outcome State Fault Refusal :=
  .next (s.runPart c 0x0503 fun m p s =>
    match s.vidNamed p (m.arg 8 1) with
    | none => s.complete c stBad
    | some i =>
      if i.val < 32 then s.complete c stBad
      else
        ((List.range 5).foldl (fun s k =>
          s.setReg (rcKey (i.val - 32) k + 0x80000) (BitVec.ofNat 32 (m.arg (12 + 4 * k) 4) &&& rcMask k)) s).complete c stOk)

/-- VID_QUERY (R274). -/
def execVidQuery (c : CmdRef) (s : State) : Host.Outcome State Fault Refusal :=
  .next (s.runPart c 0x0504 fun m p s =>
    match s.vidNamed p (m.arg 8 1) with
    | none => s.complete c stBad
    | some i =>
      s.complete c stOk (leBytes 4 (s.reg (regKey 0x42 (0x100 + 4 * i.val))).toNat
        ++ leBytes 4 (s.reg (regKey 0x42 (0x200 + 4 * i.val))).toNat
        ++ leBytes 4 (s.reg (regKey 0x42 (0x300 + 4 * i.val))).toNat))

/-! ### Statistics of a picture (R300, R301) -/

/-- n / d as bf16, rounded to nearest-even. -/
def bf16Ratio (neg : Bool) (n d : Nat) : Nat :=
  if n = 0 then 0
  else
    let x := fmtBf16.roundMag .rne n d 0
    if fmtBf16.overflows x then fmtBf16.infBits neg else fmtBf16.pack neg x

/-- A vector component over 4 × t, in bf16 (R301). -/
def mvCode (mv t : Int) : Nat :=
  if t = 0 then (Config.mvAtZeroDistance mv).toNat else bf16Ratio (decide (mv * t < 0)) mv.natAbs (4 * t.natAbs)

/-- Whether a prediction block covers a luma sample. -/
def blockCovers (b : PredBlock) (x y : Nat) : Bool :=
  decide (b.x ≤ x) && decide (x < b.x + b.w) && decide (b.y ≤ y) && decide (y < b.y + b.h)

/-- The CTUs or superblocks that a picture's errors conceal: from the first error of each slice or tile to its end
(R288). -/
def concealedOf (res : PicResult) : List Nat :=
  res.slices.flatMap fun p => match p.errorAt with
    | some k => p.units.drop k
    | none => []

/-- The CTU or superblock that holds a luma sample, in raster order. -/
def InPipe.unitAt (t : InPipe) (x y : Nat) : Nat := y / max 1 t.ctu * ceilDiv t.width (max 1 t.ctu) + x / max 1 t.ctu

/-- The complexity of block (bx, by) in bf16: the mean absolute residual over its samples inside the picture, a quarter
of it at 10 bits (R300, R301). -/
def Session.complexity (v : Session) (t : InPipe) (res : PicResult) (bx by' : Nat) : Nat :=
  let xs := (List.range 16).filterMap fun k => if 16 * bx + k < t.width then some (16 * bx + k) else none
  let ys := (List.range 16).filterMap fun k => if 16 * by' + k < t.height then some (16 * by' + k) else none
  let sum := (ys.map fun y => (xs.map fun x => res.residual[y * t.width + x]?.getD 0).sum).sum
  bf16Ratio false sum (ys.length * xs.length * (if v.sampleBytes = 2 then 4 else 1))

/-- The four channels of block (bx, by): mv_x, mv_y, complexity and class (R300, R301). A block outside the picture, or
one that no prediction block covers, carries no data. (DESIGN CHOICE, log entry 42.) -/
def Session.channels (v : Session) (t : InPipe) (res : PicResult) (bx by' : Nat) : List Nat :=
  let x := min (16 * bx + 8) (t.width - 1)
  let y := min (16 * by' + 8) (t.height - 1)
  if t.width ≤ 16 * bx ∨ t.height ≤ 16 * by' ∨ (concealedOf res).contains (t.unitAt x y) then [0, 0, 0, 0x4040]
  else
    match res.blocks.find? fun b => blockCovers b x y with
    | none => [0, 0, 0, 0x4040]
    | some b =>
      if b.intra then [0, 0, v.complexity t res bx by', 0x4000]
      else [mvCode b.mvx b.t, mvCode b.mvy b.t, v.complexity t res bx by', if b.coded then 0 else 0x3F80]

/-- The lines of a statistics tensor (R300). The bytes of a line after its last block are not stated, and are free.
(DESIGN CHOICE, log entry 42.) -/
def Session.tensor (v : Session) (t : InPipe) (res : PicResult) (draw : Nat) : List Byte :=
  let g := v.statsGeom
  (List.range g.2.1).flatMap fun by' =>
    ((List.range g.1).flatMap fun bx => (v.channels t res bx by').flatMap (leBytes 2))
      ++ (List.range (g.2.2 - 8 * g.1)).map fun k => Config.freeByte (draw + by' * g.2.2 + k)

/-- A bf16 magnitude in units of 2^−20; a complexity is a multiple of it. -/
def bf16Units (c : Nat) : Nat :=
  let e := c / 128 % 256
  if e = 0 then 0 else (128 + c % 128) * 2 ^ e / 2 ^ 114

/-- c of R298: the sums of channel 2 over the blocks of each CTU row (R301). -/
def Session.rowSums (v : Session) (t : InPipe) (res : PicResult) : List Nat :=
  let g := v.statsGeom
  (List.range (ceilDiv g.2.1 4)).map fun j =>
    ((List.range 4).map fun k =>
      if 4 * j + k < g.2.1 then ((List.range g.1).map fun bx => bf16Units ((v.channels t res bx (4 * j + k))[2]?.getD 0)).sum
      else 0).sum

/-! ### Motion search (R293) -/

/-- The ranges h and v of the search window, in luma samples. -/
def Session.searchRange (v : Session) : Nat × Nat := if v.width ≤ 2048 then (128, 64) else (64, 32)

/-- Whether a block's prediction, with the interpolation filter's margin where the vector has a fraction, lies inside the
window of its CTU. The margin is three samples before and four after. (PRESUMED, log entry 73.) -/
def Session.inWindow (v : Session) (b : PredBlock) : Bool :=
  fits b.x b.w b.mvx v.searchRange.1 && fits b.y b.h b.mvy v.searchRange.2
where
  /-- One axis. -/
  fits (pos size : Nat) (mv : Int) (range : Nat) : Bool :=
    let home : Int := Int.ofNat (pos / 64 * 64)
    let first := Int.ofNat pos + mv / 4 - (if mv % 4 = 0 then 0 else 3)
    let past := Int.ofNat (pos + size) + mv / 4 + (if mv % 4 = 0 then 0 else 4)
    decide (home - Int.ofNat range ≤ first) && decide (past ≤ home + 64 + Int.ofNat range)

/-- Whether a block may be one of the encoder's (R271): inside one 64 × 64 CTU or superblock, and under HEVC a prediction block of a
CU of 8 × 8 to 64 × 64: the CU's sides or a quarter, a half or three quarters of them. (PRESUMED, log entry 73.) -/
def Session.blockOk (v : Session) (b : PredBlock) : Bool :=
  let inside := fun n => decide (0 < b.w) && decide (0 < b.h) && decide (b.x % n + b.w ≤ n) && decide (b.y % n + b.h ≤ n)
  let part := fun n k => k == n || 2 * k == n || 4 * k == n || 4 * k == 3 * n
  if v.av1 then inside 64 else [8, 16, 32, 64].any fun n => inside n && part n b.w && part n b.h

/-- Whether a searched vector comes from its best integer vector by a half-sample and then a quarter-sample step, and that integer
vector lies inside the window (R293). HEVC only has merge and AMVP (R271). -/
def Session.refined (v : Session) (b : PredBlock) : Bool :=
  match b.source with
  | .search ix iy =>
    decide ((b.mvx - 4 * ix).natAbs ≤ 3) && decide ((b.mvy - 4 * iy).natAbs ≤ 3)
      && v.inWindow { b with mvx := 4 * ix, mvy := 4 * iy }
  | _ => !v.av1

/-- Whether a reference is one that the session has: one or two pictures back (R271). -/
def Session.refOk (v : Session) (t : Int) : Bool := decide (1 ≤ t) && decide (t ≤ Int.ofNat (min v.refs v.decoded.length))

/-- Whether an encoder may have chosen a picture's prediction blocks: blocks of its coding structure, only intra ones in a key
picture, otherwise references one or two pictures back as the session has them, and every vector inside the window, a second
reference's too, which HEVC's P pictures do not have (R271, R293). (PRESUMED, log entry 73.) -/
def Session.choiceOk (v : Session) (t : InPipe) (res : PicResult) : Bool :=
  res.blocks.all fun b =>
    v.blockOk b && (b.intra || (!t.key && v.refOk b.t && v.inWindow b && v.refined b &&
      b.second.all fun u => v.av1 && v.refOk u.t && v.inWindow { b with mvx := u.mvx, mvy := u.mvy }))

/-- A luma sample of a pool buffer (R281). -/
def State.lumaAt (s : State) (v : Session) (b x y : Nat) : Nat :=
  let e := v.sampleBytes
  let a := v.poolBase + b * v.bufferBytes + y * ceilTo 256 (v.width * e) + x * e
  if e = 1 then (s.byte a).toNat else fieldAt (s.load a 2) 0 2 / 64

/-- A luma sample of the search window: beyond the picture, the edge-extended one (R293). -/
def State.windowSample (s : State) (v : Session) (b : Nat) (x y : Int) : Nat :=
  s.lumaAt v b (max 0 (min x (v.width - 1))).toNat (max 0 (min y (v.height - 1))).toNat

/-- Whether a picture's residual is the source minus the prediction where the window's samples alone give it: in blocks of one
reference and a vector without a fraction (R293, R301), as long as the buffers read without an error.
(DESIGN CHOICE, log entry 42.) -/
def State.residualOk (s : State) (v : Session) (t : InPipe) (res : PicResult) : Bool :=
  let src := t.buffer.getD 0
  let clean := fun b => (s.badIn (v.poolBase + b * v.bufferBytes) v.bufferBytes).isNone
  res.blocks.all fun b =>
    if b.intra || b.second.isSome || b.mvx % 4 != 0 || b.mvy % 4 != 0 then true
    else
      match v.decoded[v.decoded.length - b.t.toNat]? with
      | none => true
      | some d =>
        !clean src || !clean d.buffer || (List.range b.h).all fun j => (List.range b.w).all fun k =>
          let x := b.x + k
          let y := b.y + j
          decide (t.width ≤ x) || decide (t.height ≤ y) ||
            (res.residual[y * t.width + x]?.getD 0) ==
              ((s.lumaAt v src x y : Int) - s.windowSample v d.buffer (x + b.mvx / 4) (y + b.mvy / 4)).natAbs

/-- Bytes that the search cache fetches for a picture: for each CTU row the whole window and then one 64-column strip a
step, luma and chroma, per reference (R293). -/
def Session.searchBytes (v : Session) (t : InPipe) : Nat :=
  let r := v.searchRange
  let strips := (2 * r.1 + 64) / 64 + ceilDiv v.width 64 - 1
  if t.key then 0
  else ceilDiv v.height 64 * strips * (96 * (2 * r.2 + 64) * v.sampleBytes) * min v.refs v.decoded.length

/-! ### Rate control (R298) -/

/-- rnd of R298: to the nearest integer, ties away from zero, of n / d. -/
def rndDiv (n : Int) (d : Nat) : Int :=
  let q := (2 * n.natAbs + d) / (2 * d)
  if n < 0 then -(q : Int) else q

/-- clamp of R298. -/
def clampInt (x lo hi : Int) : Int := min (max x lo) hi

/-- clamp (rnd (k × lg (n / d))) to ±lim. A ratio of zero gives −lim; a divisor that is not positive leaves the step open,
and it is a free value within the limits (assumption log). (DESIGN CHOICE, log entry 42.) -/
def qpStep (k n : Nat) (d : Int) (lim : Nat) (draw : Nat) : Int :=
  if d ≤ 0 then Int.ofNat ((Config.freeWord draw).toNat % (2 * lim + 1)) - lim
  else if n = 0 then -(lim : Int)
  else clampInt (rndDiv (k * ratLog2 (n ^ 16) (d.toNat ^ 16)) 16) (-(lim : Int)) lim

/-- What rate control needs of a session's registers: mode, k, target, ceiling, v, qp limits. -/
structure RcView where
  mode : Nat
  rowAdapt : Bool
  iWeight : Nat
  k : Nat
  target : Nat
  ceiling : Nat
  v : Int
  lo : Nat
  hi : Nat
  qpI : Nat
  qpP : Nat
  deriving DecidableEq, Repr

/-- The active rate-control words of encode session e. -/
def State.rcView (s : State) (e : Nat) : RcView where
  mode := s.get (F.hwkRcCtlMode e) % 3
  rowAdapt := s.flag (F.hwkRcCtlRowAdapt e)
  iWeight := s.get (F.hwkRcCtlIWeight e)
  k := s.get (F.hwkRcCtlK e)
  target := s.get (F.hwkRcTargetTargetKbps e)
  ceiling := s.get (F.hwkRcMaxMaxKbps e)
  v := Int.ofNat (s.get (F.hwkRcVbvVbvKbit e) * 1000)
  lo := s.get (F.hwkRcQpQpMin e)
  hi := s.get (F.hwkRcQpQpMax e)
  qpI := s.get (F.hwkRcQpQpI e)
  qpP := s.get (F.hwkRcQpQpP e)

/-- r of R298, in whole bits. -/
def RcView.share (r : RcView) (fps : Nat) : Nat := r.target * 1000000 / fps

/-- b of R298, in whole bits. -/
def RcView.budget (r : RcView) (fps : Nat) (f : Int) (key : Bool) : Int :=
  let x := r.share fps
  let iw := if key then r.iWeight else 16
  let b := (Int.ofNat (x * iw) + 2 * (r.v - 2 * f)) / 16
  let b := if r.mode = 2 then min b (Int.ofNat (r.ceiling * 1000000 * iw / (fps * 16))) else b
  clampInt b (Int.ofNat (x / 4)) (r.v - f)

/-- The base QP of a picture and its budget (R298). -/
def RcView.base (r : RcView) (v : Session) (key : Bool) (draw : Nat) : Int × Int :=
  if r.mode = 0 then (Int.ofNat (if key then r.qpI else r.qpP), 0)
  else
    let b := r.budget v.fps v.rc.fullness key
    let last := if key then v.rc.lastQp.1 else v.rc.lastQp.2
    let bits := if key then v.rc.lastBits.1 else v.rc.lastBits.2
    let step := match bits with
      | none => 0
      | some n => qpStep r.k n b 4 draw
    (clampInt (Int.ofNat last + step) (Int.ofNat r.lo) (Int.ofNat r.hi), b)

/-- The row QPs of a picture (R298): its base first, then after each row but the last. -/
def RcView.rows (r : RcView) (b : Int) (cx : List Nat) (draw : Nat) (qp : Int) (spent done : Nat) : List Nat → List Int
  | [] => [qp]
  | bits :: t =>
    if t.isEmpty then [qp]
    else
      let sum := (cx.take (done + 1)).sum
      let all := cx.sum
      let n := spent + bits
      let next := clampInt (qp + qpStep r.k (n * all) (b * sum) 2 (draw + done)) (Int.ofNat r.lo) (Int.ofNat r.hi)
      qp :: r.rows b cx draw next n (done + 1) t

/-- After a picture: registers, fullness and memory (R298). -/
def State.rcAfter (s : State) (i : Fin 48) (t : InPipe) (res : PicResult) : State :=
  match s.ses i with
  | none => s
  | some v =>
    let e := i.val - 32
    let r := s.rcView e
    let s := s.set (F.hwkRcLastBits e) res.bits
    let cx := if t.key then v.rc.rowCx.1 else v.rc.rowCx.2
    let cx := if cx.length = res.rowBits.length then cx else List.replicate res.rowBits.length 1
    let rows := if r.mode ≠ 0 ∧ r.rowAdapt then r.rows (Int.ofNat t.budget) cx s.free (Int.ofNat t.qp) 0 0 res.rowBits
      else [Int.ofNat t.qp]
    let lo := (rows.foldl min (Int.ofNat t.qp)).toNat
    let hi := (rows.foldl max (Int.ofNat t.qp)).toNat
    let s := { s with free := s.free + res.rowBits.length }
    let s := ((s.set (F.hwkRcLastqpBase e) t.qp).set (F.hwkRcLastqpRowMin e) lo).set (F.hwkRcLastqpRowMax e) hi
    let s := s.modSes i fun v => { v with rc := { v.rc with
      rowCx := if t.key then (v.rowSums t res, v.rc.rowCx.2) else (v.rc.rowCx.1, v.rowSums t res) } }
    if r.mode = 0 then s
    else
      let f := max 0 (v.rc.fullness + Int.ofNat res.bits - Int.ofNat (r.share v.fps))
      let s := s.modSes i fun v => { v with rc := { v.rc with
        fullness := f
        lastQp := if t.key then (t.qp, v.rc.lastQp.2) else (v.rc.lastQp.1, t.qp)
        lastBits := if t.key then (some res.bits, v.rc.lastBits.2) else (v.rc.lastBits.1, some res.bits) } }
      let s := s.set (F.hwkRcFullFullness e) (min f.toNat 0xFFFFFFFF)
      if r.v < f then s.raiseBit (F.hwkRcFlagsVbvOverflow e) else s

/-! ### Pictures (R273, R282 to R294) -/

/-- The session that has a picture in a pipe. -/
def State.inPipeOf (s : State) (pipe : Fin 4) : Option (Fin 48) :=
  (List.finRange 48).find? fun k => (s.ses k).any fun v => v.inPipe.any fun t => t.pipe == pipe

/-- The ready session that a pipe takes: the one ready first, the lowest number of equals; a session has one picture in a
pipe (R273). -/
def State.nextReady (s : State) (decode : Bool) : Option (Fin 48) :=
  (List.finRange 48).foldl (fun (best : Option (Fin 48)) k =>
    match s.ses k with
    | some v =>
      if v.decodes ≠ decode ∨ v.inPipe.isSome = true then best
      else
        match v.ready with
        | [] => best
        | t :: _ =>
          match best with
          | none => some k
          | some b => if (((s.ses b).bind (·.ready.head?)).map (·.2.toNat)).getD 0 ≤ t.2.toNat then best else some k
    | none => best) none

/-- An output made due from a decoded picture. -/
def outOf (d : DecPic) (shown : Bool) : OutPic :=
  { buffer := d.buffer, pts := d.pts, crop := d.crop, concealed := d.concealed, isEnd := false, shown := shown
    flags := (if d.key then 1 else 0) + (if d.corrupt then 2 else 0) + (if d.grain then 4 else 0)
    first := !d.out, tensor := d.tensor }

/-- The end marker. (DESIGN CHOICE, log entry 42.) -/
def outEnd : OutPic :=
  { buffer := 0, flags := 8, pts := 0, crop := 0, concealed := 0, isEnd := true, shown := true, first := false, tensor := [] }

/-- A buffer's picture falls due for output (R286). -/
def Session.dueOne (v : Session) (d : DecPic) (shown : Bool) : Session :=
  { v with
    due := v.due ++ [outOf d shown]
    decoded := v.decoded.map fun (x : DecPic) => if x.buffer = d.buffer then { x with out := true } else x }

/-- Decoded pictures that are not due yet fall due, in a given order. -/
def Session.fallDue (v : Session) (bs : List Nat) : Session :=
  bs.foldl (fun (v : Session) b =>
    match v.decoded.find? (fun d => d.buffer == b && !d.out) with
    | none => v
    | some d => v.dueOne d false) v

/-- Buffers of decoded pictures that still wait for their output, in a given order first (R285). -/
def Session.stillWaiting (v : Session) (order : List Nat) : List Nat :=
  let all := (v.decoded.filter fun d => !d.out && (v.marks[d.buffer]?).any fun m => m.wait).map (·.buffer)
  (order.filter fun b => all.contains b) ++ all.filter fun b => !order.contains b

/-- An eos flushes every waiting picture and then writes an end record (R285). -/
def Session.flush (v : Session) (order : List Nat) : Session :=
  let v := v.fallDue (v.stillWaiting order)
  { v with due := v.due ++ [outEnd] }

/-- Sets the reference marks: the buffers in a list are kept, the others are not (R282). -/
def Session.setRefs (v : Session) (bs : List Nat) : Session :=
  { v with marks := (List.zipIdx v.marks).map fun (m : Marks × Nat) => { m.1 with ref := bs.contains m.2 } }

/-- The session's error state begins (R289). -/
def State.vidError (s : State) (i : Fin 48) : State :=
  ((s.set (F.hwkSStatState i) 4).raiseBit (F.hwkSStatStreamError i)).vidEvent i 3

/-- Whether a stream's parameter sets or sequence header are supported by R270, lie within the session's declared size,
and need no more buffers than R283 allows. A stream of another depth than the session's is not.
(DESIGN CHOICE, log entry 42.) -/
def Session.streamOk (v : Session) (h : PicHeader) : Bool :=
  h.parses && (h.profile == .main || (!v.av1 && h.profile == .main10)) && decide (h.level ≤ 51)
    && (if h.mono then v.av1 else h.chroma420) && h.depth == v.fld 2 1 && (v.av1 || h.profile != .main || h.depth == 8)
    && decide (64 ≤ h.width) && decide (h.width ≤ v.width) && decide (64 ≤ h.height) && decide (h.height ≤ v.height)
    && decide (h.width * h.height ≤ 8912896) && h.tools.isEmpty && decide (h.dpb ≤ v.poolCount - 1)

/-- The header firmware parses the next unit that has arrived (R283, R285, R289, R475). A discontinuity drops every
reference mark first; an eos with no picture flushes. -/
def State.unitParse (s : State) (i : Fin 48) (h : PicHeader) : State :=
  match s.ses i with
  | none => s
  | some v =>
    match v.units with
    | [] => s
    | u :: rest =>
      let s := s.modSes i fun v => { (if u.disc then v.setRefs [] else v) with
        units := rest, unitsDone := v.unitsDone + 1 }
      let flushed := fun s : State => if u.eos then s.modSes i fun v => v.flush h.flush else s
      let erring := s.get (F.hwkSStatState i) == 4
      let key := h.frames.head?.any fun f => f.key
      if !u.picture then flushed s
      else if u.bad || !v.streamOk h then flushed (if erring then s else s.vidError i)
      else if (erring || v.skip) && !key then flushed s
      else
        let s := if erring then s.set (F.hwkSStatState i) 1 else s
        if h.frames.isEmpty then flushed s
        else
          s.modSes i fun v => { v with
            skip := false
            unit := some { u with frames := h.frames, flush := h.flush, width := h.width, height := h.height } }

/-- The next frame of the parsed unit: a show_existing_frame shows its buffer again, any other takes the pipe and a free
buffer. The unit's last frame ends it (R282, R285, R286). -/
def State.frameStart (s : State) (pipe : Fin 4) (i : Fin 48) : State :=
  match s.ses i with
  | none => s
  | some v =>
    match v.unit with
    | none => s
    | some u =>
      match u.frames with
      | [] => s
      | f :: rest =>
        let next := if rest.isEmpty then none else some { u with frames := rest, done := u.done + 1 }
        let ends := rest.isEmpty && u.eos
        match f.showExisting with
        | some b =>
          match v.decoded.find? (fun d => d.buffer == b) with
          | some d => s.modSes i fun v =>
              let v := { (v.dueOne { d with pts := u.pts } true).setRefs f.refs with unit := next }
              if ends then v.flush u.flush else v
          | none => (s.vidError i).modSes i fun v =>
              let v := { v with unit := none }
              if u.eos then v.flush u.flush else v
        | none =>
          match v.freeBuf with
          | none => s
          | some b =>
            s.modSes i fun v => { v with
              unit := next
              decoded := v.decoded.filter fun x => x.buffer != b
              inPipe := some {
                pipe := pipe, buffer := some b, recon := none, pts := u.pts, key := f.key, grain := f.grain, crop := f.crop
                eos := ends, flush := u.flush, width := u.width, height := u.height, ctu := f.ctu, qp := 0, budget := 0
                packets := 0, lastPacket := false, number := 0, resv := 0 } }

/-- A decode picture begins: its unit's headers are parsed first if no frame of a unit is left (R273, R283 to R289). -/
def State.decodeStart (s : State) (pipe : Fin 4) (i : Fin 48) (v : Session) (h : PicHeader) : State :=
  ((if v.unit.isSome then s else s.unitParse i h).frameStart pipe i).vidRefresh i

/-- An encode picture begins (R292 to R299). -/
def State.encodeStart (s : State) (pipe : Fin 4) (i : Fin 48) (v : Session) (e : List Byte) : State :=
  let n := i.val - 32
  let s := s.rcCommit n
  let flags := fieldAt e 4 4
  let intra := v.fld 78 2
  let key := v.coded == 0 || bitsAt flags 0 1 == 1 || (intra != 0 && decide (intra ≤ v.sinceKey.getD 0))
  let q := (s.rcView n).base v key s.free
  let s := { s with free := s.free + 1 }
  let recon := if v.kind = 1 then v.freeBuf else none
  let header := v.av1 || key
  let packets := if v.kind = 1 then v.sliceCount + (if header then 1 else 0) else 0
  let s := s.modSes i fun v =>
    let v := match recon with
      | some b => v.mark b fun m => { m with ref := true }
      | none => v
    { v with inPipe := some {
        pipe := pipe, buffer := some (fieldAt e 0 2), recon := recon, pts := BitVec.ofNat 64 (fieldAt e 16 8), key := key
        grain := false, crop := 0, eos := bitsAt flags 1 1 == 1, flush := [], width := v.width, height := v.height, ctu := 64
        qp := q.1.toNat, budget := q.2.toNat, packets := packets, lastPacket := false, number := v.inDone
        resv := if v.kind = 1 then v.reserve else 0 } }
  s.vidRefresh i

/-- A session that a pipe takes. -/
def State.pictureTake (s : State) (pipe : Fin 4) (i : Fin 48) (h : PicHeader) : State :=
  let s := s.vidPoll i
  match s.ses i with
  | none => s
  | some v =>
    if v.ready.isEmpty then s
    else if v.decodes then s.decodeStart pipe i v h
    else
      match v.entries with
      | e :: _ => s.encodeStart pipe i v e
      | [] => s

/-- A free pipe takes the oldest ready picture (R273, R342). (DESIGN CHOICE, log entry 42.) -/
def execPictureStart (pipe : Fin 4) (header : PicHeader) (s : State) : Host.Outcome State Fault Refusal :=
  .next (let decode := decide (pipe.val < 2)
    let first : Fin 4 := if decode then 0 else 2
    if !s.flag F.hwkStatusReady || s.flag F.spnStatusDraining || s.flag F.spnStatusDrained || (s.inPipeOf pipe).isSome
      || (pipe != first && (s.inPipeOf first).isNone) then s
    else
      match s.nextReady decode with
      | none => s
      | some i => s.pictureTake pipe i header)

/-- The bytes of a picture in a pool buffer (R281): luma, interleaved chroma, and the motion side area, whose layout is
internal. `conceal` gives the byte that stands for a concealed sample's; what lies beyond the picture, and the side area,
are undefined and free. (DESIGN CHOICE, log entry 42.) -/
def Session.image (v : Session) (t : InPipe) (res : PicResult) (old : Nat → Byte) (draw : Nat) : List Byte :=
  let e := v.sampleBytes
  let pitch := ceilTo 256 (v.width * e)
  let luma := pitch * ceilTo 64 v.height
  let cw := 2 * ceilDiv t.width 2
  let code := fun (smp k : Nat) => if e = 1 then BitVec.ofNat 8 smp else BitVec.ofNat 8 (smp % 1024 * 64 / 256 ^ k)
  let lost := concealedOf res
  (List.range v.bufferBytes).map fun a =>
    let free := Config.freeByte (draw + a)
    let put := fun (o : Option Nat) (x y k : Nat) =>
      if lost.contains (t.unitAt x y) then old a
      else match o with
        | some smp => code smp k
        | none => free
    if a < luma then
      let y := a / pitch
      let x := a % pitch / e
      if x < t.width ∧ y < t.height then put res.luma[y * t.width + x]? x y (a % e) else free
    else if a < luma + luma / 2 then
      let y := (a - luma) / pitch
      let x := (a - luma) % pitch / e
      if x < cw ∧ y < ceilDiv t.height 2 then put res.chroma[y * cw + x]? (x / 2 * 2) (2 * y) ((a - luma) % e) else free
    else free

/-- What stands for concealed samples: the co-located area of the picture the session decoded most recently, or mid-grey,
128 at 8 bits and 512 at 10 (R288). -/
def State.concealment (s : State) (v : Session) (lost : List Nat) : State × (Nat → Byte) :=
  match lost, v.latest with
  | [], _ => (s, fun _ => 0)
  | _, some b =>
    let r := s.vidRead v.part (v.poolBase + b * v.bufferBytes) v.bufferBytes
    (r.1, fun a => r.2[a]?.getD 0)
  | _, none => (s, fun a => if v.sampleBytes = 1 ∨ a % 2 = 1 then 0x80 else 0)

/-- A pipe writes its picture into a pool buffer (R281, R288, R292). -/
def State.vidImage (s : State) (v : Session) (b : Nat) (t : InPipe) (res : PicResult) : State :=
  let a := v.poolBase + b * v.bufferBytes
  let r := s.concealment v (concealedOf res)
  let s : State := { r.1 with free := r.1.free + v.bufferBytes }
  if s.inOwnTier v.part a v.bufferBytes then s.blockWrite a (v.image t res r.2 r.1.free) else s.vidDenied v.part a

/-- The luma and chroma of a pool buffer are read for a picture (R145, R281). -/
def State.bufferScan (s : State) (v : Session) (b : Nat) : State :=
  let luma := ceilTo 256 (v.width * v.sampleBytes) * ceilTo 64 v.height
  s.vidScan v.part (v.poolBase + b * v.bufferBytes) (luma + luma / 2)

/-- A decode picture ends (R273, R282, R286, R288): the references that its prediction read have been read. -/
def State.decodeDone (s : State) (i : Fin 48) (v : Session) (t : InPipe) (res : PicResult) : State :=
  let b := t.buffer.getD 0
  let lost := (concealedOf res).length
  let read := (res.read.filter fun k => (v.marks[k]?).any fun m => m.ref).dedup
  let s := read.foldl (fun s k => s.bufferScan v k) s
  let s := if read.isEmpty then s else s.addTo F.tierReadBytesReadBytes res.readBytes
  let s := s.vidImage v b t res
  let s := if lost = 0 then s
    else ((s.raiseBit (F.hwkSStatStreamError i)).addTo (F.hwkSConcealUnits i) lost).vidEvent i 2
  let corrupt := decide (0 < lost) || (v.corrupt && !t.key)
  let d : DecPic := {
    buffer := b, pts := t.pts, key := t.key, corrupt := corrupt, grain := t.grain, crop := t.crop, concealed := lost
    out := false, tensor := if v.statsEn then v.tensor t res s.free else [] }
  let s := { s with free := s.free + v.statsSize }
  s.modSes i fun (v : Session) =>
    let v : Session := { v.setRefs res.refs with
      inPipe := none
      corrupt := corrupt
      latest := some b
      decoded := (v.decoded.filter fun (x : DecPic) => x.buffer != b) ++ [d] }
    let v := v.mark b fun m => { m with wait := res.shown }
    let v := v.fallDue res.due
    if t.eos then v.flush t.flush else v

/-- Keeps the last pictures for reference and drops the rest (R271, R282, R292). -/
def Session.keepRefs (v : Session) (key : Bool) (d : DecPic) : Session :=
  let all : List DecPic := (if key then [] else v.decoded) ++ [d]
  let kept := all.drop (all.length - v.refs)
  { v.setRefs (kept.map (·.buffer)) with decoded := kept }

/-- An encode picture ends (R273, R292, R293, R298): the source and the search windows have been read, in_consumed passes
its entry. -/
def State.encodeDone (s : State) (i : Fin 48) (v : Session) (t : InPipe) (res : PicResult) : State :=
  let src := t.buffer.getD 0
  let refs := if t.key then [] else (v.decoded.drop (v.decoded.length - v.refs)).map (·.buffer)
  let s := (src :: refs).foldl (fun s b => s.bufferScan v b) s
  let s := s.addTo F.tierReadBytesReadBytes (v.reserve + v.searchBytes t)
  let s := match t.recon with
    | some b => s.vidImage v b t res
    | none => s
  let d : DecPic := {
    buffer := t.recon.getD src, pts := t.pts, key := t.key, corrupt := false, grain := false, crop := 0, concealed := 0
    out := true, tensor := [] }
  let x := (t.number, t.key, false, t.pts, if v.statsEn then v.tensor t res s.free else [])
  let s := { s with free := s.free + v.statsSize }
  let s := s.modSes i fun v =>
    let v := v.mark src fun m => { m with src := false }
    let v := v.keepRefs t.key d
    { v with
      inPipe := none
      coded := v.coded + 1
      pictures := v.pictures + 1
      sinceKey := some (if t.key then 1 else v.sinceKey.getD 0 + 1)
      stats := if v.statsEn then v.stats ++ [x] else v.stats
      due := if t.eos then v.due ++ [outEnd] else v.due }
  let s := s.rcAfter i t res
  let s := s.bump (F.hwkSPicsPictures i)
  let s := s.vidConsume i 1
  if v.isClosing then s else s.vidSkipBad i

/-- A pipe finishes its picture (R273). An encode picture ends once its last packet is written, and a report whose blocks or vectors
R271 and R293 do not let the encoder choose, or whose residual is not source minus prediction, ends nothing.
(DESIGN CHOICE, log entry 42.) -/
def execPictureDone (pipe : Fin 4) (result : PicResult) (s : State) : Host.Outcome State Fault Refusal :=
  .next (match s.inPipeOf pipe with
  | none => s
  | some i =>
    match s.ses i with
    | none => s
    | some v =>
      match v.inPipe with
      | none => s
      | some t =>
        if t.packets ≠ 0 ∨ (!v.decodes && !(v.choiceOk t result && s.residualOk v t result)) then s
        else
          let s := if v.decodes then s.decodeDone i v t result else s.encodeDone i v t result
          if v.isClosing then (s.vidDrain i 64).vidFree i else s.vidRefresh i)

/-- A due output is written once an output entry is free (R285, R286). -/
def execDecodeOutput (session : Fin 48) (s : State) : Host.Outcome State Fault Refusal :=
  .next ((s.vidOutput session).vidRefresh session)

/-- Hawkmoth reads a waiting session's counts (R280). -/
def execRingPoll (session : Fin 48) (hw : HostStores) (s : State) : Host.Outcome State Fault Refusal :=
  .next ((s.hostStores hw).vidPoll session)

/-- A unit's bytes. -/
def packetBytes : PacketUnit → List Byte
  | .vps b => b
  | .sps _ b => b
  | .pps b => b
  | .slice b => b
  | .temporalDelimiter b => b
  | .sequenceHeader _ b => b
  | .frameHeader b => b
  | .tileGroup b => b

/-- Whether a parameter set or sequence header names what R270 and R271 give the encoder: the profile of the session's
depth, Main tier, the lowest level that fits, 64 × 64 CTUs or superblocks, deblocking, with HEVC CUs of 8 × 8 to 64 × 64, merge,
AMVP and SAO, with AV1 CDEF, and none of the tools it does not use. -/
def Session.headOk (v : Session) (h : CodedHead) : Bool :=
  h.profile == (if v.sampleBytes = 2 ∧ ¬ v.av1 then .main10 else .main) && !h.high
    && h.level == min 51 (Config.lowestLevel v.av1 v.width v.height v.fps) && h.ctu == 64 && h.tools.isEmpty
    && h.deblocking && h.sao == !v.av1 && h.cdef == v.av1
    && (v.av1 || (h.minCu == 8 && h.maxCu == 64 && h.mergeOn && h.amvp))

/-- Whether the header packet comes first for a picture (R295). -/
def Session.hasHeader (v : Session) (t : InPipe) : Bool := v.av1 || t.key

/-- The packets of a picture. -/
def Session.packetTotal (v : Session) (t : InPipe) : Nat := v.sliceCount + (if v.hasHeader t then 1 else 0)

/-- Whether a packet is the one that comes next (R295): VPS, SPS and PPS on an HEVC key picture, and then its slices; the
temporal delimiter, the sequence header on a key frame and the frame header of AV1, and then its tile groups. -/
def Session.packetOk (v : Session) (t : InPipe) (us : List PacketUnit) : Bool :=
  let header := v.hasHeader t && t.packets == v.packetTotal t
  us.all (fun u => !(packetBytes u).isEmpty) &&
  match v.av1, header, us with
  | false, true, [.vps _, .sps h _, .pps _] => v.headOk h
  | false, false, [.slice _] => true
  | true, true, [.temporalDelimiter _, .sequenceHeader h _, .frameHeader _] => t.key && v.headOk h
  | true, true, [.temporalDelimiter _, .frameHeader _] => !t.key
  | true, false, [.tileGroup _] => true
  | _, _, _ => false

/-- Where a packet of n bytes goes in the bitstream area, and the gap that counts as used (R294). -/
def Session.packetPlace (v : Session) (n : Nat) : Nat × Nat :=
  if v.bsHead + n ≤ v.bsBytes then (v.bsHead, 0) else (0, v.bsBytes - v.bsHead)

/-- A packet's output entry (R296). -/
def Session.packetEntry (v : Session) (t : InPipe) (off n : Nat) : List Byte :=
  let first := t.packets == v.packetTotal t
  leBytes 4 off ++ leBytes 4 n ++ leBytes 4 t.number
    ++ leBytes 1 ((if v.hasHeader t && first then 1 else 0) + (if first then 2 else 0) + (if t.packets = 1 then 4 else 0)
      + (if t.key then 8 else 0))
    ++ leBytes 3 0 ++ leBytes 8 t.pts.toNat ++ leBytes 2 t.qp ++ leBytes 6 0

/-- A packet has left the pipe with so many bytes of the area; the picture's last one returns what is left of its
reservation (R294). -/
def InPipe.emitted (t : InPipe) (n : Nat) : InPipe :=
  { t with packets := t.packets - 1, lastPacket := t.packets == 1, resv := if t.packets = 1 then 0 else t.resv - n }

/-- A packet is written to the bitstream area, and its output entry (R294 to R296). A closing session discards what finds
no room (R277). -/
def execPacketEmission (session : Fin 48) (units : List PacketUnit) (s : State) : Host.Outcome State Fault Refusal :=
  .next (match s.ses session with
  | none => s
  | some v =>
    match v.inPipe with
    | none => s
    | some t =>
      let data := units.flatMap packetBytes
      let at' := v.packetPlace data.length
      let used := at'.2 + data.length
      if t.packets = 0 ∨ !v.packetOk t units then s
      else if v.outFree = 0 ∨ v.bsBytes < v.bsUsed + used then
        if v.isClosing then s.modSes session fun v => { v with inPipe := some (t.emitted 0) } else s
      else
        let s := s.vidWrite v.part (v.bsAddr + at'.1) data
        let s := s.vidEmit session (v.packetEntry t at'.1 data.length) none used
        s.modSes session fun v => { v with
          bsHead := at'.1 + data.length
          bsUsed := v.bsUsed + used
          inPipe := some (t.emitted used) })

/-! ### Statistics (R300 to R302) -/

/-- A statistics buffer's header (R300). -/
def statsHeader (v : Session) (x : Nat × Bool × Bool × DWord × List Byte) : List Byte :=
  let g := v.statsGeom
  leBytes 4 x.1 ++ leBytes 2 g.1 ++ leBytes 2 g.2.1 ++ leBytes 4 g.2.2
    ++ leBytes 1 ((if x.2.1 then 1 else 0) + (if x.2.2.1 then 2 else 0)) ++ leBytes 3 0 ++ leBytes 8 x.2.2.2.1.toNat
    ++ List.replicate 40 0

/-- The statistics of a picture of a session, the one whose turn it is, are written, header last, or skipped, or wait (R300
to R302). -/
def execStatsWrite (session : Fin 48) (picture : Nat) (s : State) : Host.Outcome State Fault Refusal :=
  .next (match s.ses session with
  | none => s
  | some v =>
    match v.stats with
    | [] => s
    | x :: rest =>
      if x.1 ≠ picture then s
      else if v.statsMade < v.statsSeen + v.statsBuffers then
        let q := v.statsMade % v.statsBuffers
        let s := s.modSes session fun v => { v with stats := rest, statsMade := v.statsMade + 1 }
        match allArrays[v.statsArray]? with
        | none => s.vidRefresh session
        | some n =>
          let a := spoolBase n + v.statsOffset + q * v.statsSize
          if s.inPart v.part n && s.usable n then
            let s := (s.write (a + 64) x.2.2.2.2).write a (statsHeader v x)
            (s.incKnot n (v.fld 70 2) 1).vidRefresh session
          else (s.accessError 0x042 n.val 1 0 0 (some v.part) (some a)).vidRefresh session
      else if v.statsSkips then
        ((s.modSes session fun v => { v with stats := rest }).raiseBit (F.hwkSStatStatsSkip session)).vidRefresh session
      else s)

end Sys2Proof.Machine
end

