-- ==== Sys2Proof/Machine/Tenancy.lean ====
section
/-!
DEFINITION. Partitions from creation to their end: granule runs, the partition scrub of PART_DESTROY and
SEC_TENANT_CHANGE (R344 to R347, R402 to R404), unusable and condemned arrays (R454 to R456), and the commands that wait
for arrays, clears and scrubs.
-/

namespace Sys2Proof.Machine

/-! ### Runs of free numbers and granules (R345) -/

/-- The lowest run of n numbers below a limit that no taken range (base, count) touches. -/
def freeRun (taken : List (Nat × Nat)) (limit n : Nat) : Option Nat :=
  let starts := 0 :: taken.map fun t => t.1 + t.2
  let ok := starts.filter fun b => decide (b + n ≤ limit) &&
    taken.all fun t => decide (b + n ≤ t.1) || decide (t.1 + t.2 ≤ b) || n == 0 || t.2 == 0
  ok.foldl (fun (m : Option Nat) b =>
    match m with
    | none => some b
    | some x => some (min x b)) none

/-- Tier granules that a partition may get (R162). -/
def tierGranules : Nat := 0xFF00

/-- The lowest free run of n tier granules. -/
def State.tierRun (s : State) (n : Nat) : Option Nat := freeRun (s.tierTags.map fun x => (x.1, 1)) tierGranules n

/-- Assigns tier granules to a partition (R156, R380). -/
def State.giveTier (s : State) (p : PartNum) (first count : Nat) : State :=
  (List.range count).foldl (fun s i => s.setTtag (first + i) (ownedTag p (s.isSealed p))) s

/-- Whether a tier granule is a partition's own and not in clearing. -/
def State.ownsTier (s : State) (p : PartNum) (g : Nat) : Bool :=
  let t := s.ttag g
  tagOwned t && tagPart t == p && !tagClearing t

/-- The runs of tier granules that a partition owns. -/
def State.tierRuns (s : State) (p : PartNum) : List (Nat × Nat) :=
  (s.tierTags.filter fun x => tagOwned x.2 && tagPart x.2 == p).foldr (fun x acc =>
    match acc with
    | (f, n) :: t => if x.1 + 1 = f then (x.1, n + 1) :: t else (x.1, 1) :: acc
    | [] => [(x.1, 1)]) []

/-! ### Unusable and condemned arrays (R454 to R456) -/

/-- A HEALTH record (R486). (DEDUCED, log entry 64.) -/
def State.healthEvent (s : State) (source status severity : Nat) : State :=
  s.report { source := source, cls := 0x0E, severity := severity, status := status }

/-- A HEALTH record about an array (R488); where a rule has it name the array, its instance is the array's number (R453), else 0
(R487). (DEDUCED, log entry 64.) -/
def State.arrayHealth (s : State) (source status : Nat) (n : ArrayNum) (inst : Nat := 0) : State :=
  let p := s.partOf n
  s.report { source := source, cls := 0x0E, severity := 2, part := p, affected := affectedBy p, status := status, inst := inst }

/-- The unusable map as it stands goes to flash, which needs no condemned mark of its arrays any more (R454, R456). -/
def State.flashMap (s : State) : State :=
  let map := BitVec.ofNat 64 (s.get F.mltUnusableUnusable)
  { s with flash := { s.flash.writeMap map with condemned := s.flash.condemned &&& ~~~map } }

/-- Marks an array unusable: its register, its result, its power off, its place in a moult run, and the record (R454, R455). Once
the start has written the map, the flash follows at once; before, stage 13 writes it (R439, R443). -/
def State.markUnusable (s : State) (n : ArrayNum) : State :=
  let s := (s.setBit F.mltUnusableUnusable n true).setBit F.mltCondemnedCondemned n false
  let s := if s.board.stages.getLsbD 13 then s.flashMap else s
  let s := s.set (F.mltAResultResult n) 4
  let out := fun (l : List ArrayNum) => l.filter fun (m : ArrayNum) => m != n
  let s : State := { s with board := { s.board with
    marked := s.board.marked ||| BitVec.ofNat 64 (2 ^ n.val)
    moult := { s.board.moult with
      todo := out s.board.moult.todo, batch := out s.board.moult.batch, retest := out s.board.moult.retest } } }
  let s := s.modArr n fun a => { ArrayState.reset with vtags := a.vtags }
  s.arrayHealth 0x04A stUnusable n

/-- An array found unusable in service is marked at once, or condemned while it belongs to a partition (R456).
(DEDUCED, log entry 48.) -/
def State.condemn (s : State) (n : ArrayNum) : State :=
  match s.partOf n with
  | none => s.markUnusable n
  | some _ =>
    if s.bit F.mltCondemnedCondemned n then s
    else
      (({ s with flash := { s.flash with condemned := s.flash.condemned ||| BitVec.ofNat 64 (2 ^ n.val) } } : State).setBit
        F.mltCondemnedCondemned n true).arrayHealth 0x04A stUnusable n

/-! ### The partition scrub (R346, R402, R403) -/

/-- A partition's pairs. -/
def State.pairsOf (s : State) (p : PartNum) : List PairNum := allPairs.filter fun k => s.pairPart k == some p

/-- Unbinds a pair. -/
def State.unbind (s : State) (k : PairNum) : State := (s.set (F.spnMbStatusBound k) 0).set (F.spnMbStatusPartition k) 0

/-- Closes a partition's apertures and windows (R346). -/
def State.closeDoors (s : State) (p : PartNum) : State :=
  let s := { s with apertures := s.apertures.filter fun (x : Nat × Aperture) =>
    match x.2 with
    | .opened q _ _ => q != p
    | .closed => true }
  (List.finRange 16).foldl (fun s w =>
    if s.get (F.pciWinCtlKind w) ≠ 0 ∧ s.get (F.pciWinCtlPartition w) = p.val then s.set (F.pciWinCtlKind w) 0 else s) s

/-- Commits a partition's weights, one per instance in use (R313, R316). -/
def State.commitWeights (s : State) (p : PartNum) (w : Fin 4 → Nat) : State :=
  ((List.finRange 4).foldl (fun s i => if s.shtActive i then s.shtStageWeight i p (w i) 0 else s) s).shtArm 15

/-- The default weight of a partition in an instance, for its number of groups (R316). -/
def State.defaultWeight (s : State) (i : Fin 4) (groups : Nat) : Nat :=
  groups * (match i.val with
    | 0 => 3375
    | 3 => 424
    | _ => if s.flag (F.pciLinkBifurcated 0) then 396 else 864)

/-- How many groups a group set holds. -/
def groupCount (g : BitVec 8) : Nat := ((List.range 8).filter fun k => g.getLsbD k).length

/-- The scrub takes hold of the partition's arrays. One whose vault clear is held or running is taken once that clear is
done, since no clear runs under a scrub (R158). -/
def State.scrubHold (s : State) (p : PartNum) : State :=
  (s.arraysOf p).foldl (fun s n => if (s.arr n).clear = .none then s.modArr n fun a => { a with scrubbing := true } else s) s

/-- Destroy, steps 1 to 4 (R346): requests end, conversations are released, sessions close, arrays stop. -/
def State.scrubStart (s : State) (p : PartNum) : State :=
  let s := s.modPart p fun t => { t with destroying := true, scrubbing := false }
  let live := (s.seqRange p).filter fun i => (s.conv i).live
  let s := live.foldl (fun s i => if (s.request i).isSome then s.forceEnd i else s.releaseConv i) s
  let s := (s.vidOf p).foldl (fun s i => s.vidCloseStart i none) s
  let s := (s.arraysOf p).foldl (fun s n => s.haltArray n) s
  (s.scrubHold p).settleKernels

/-- Whether the partition's arrays, pipes, steps and copies are quiet, and no earlier command of it runs (R346). -/
def State.partQuiet (s : State) (p : PartNum) (c : CmdRef) : Bool :=
  ((s.arraysOf p).all fun n => (s.arr n).quiet && (s.arr n).clear == .none) && (s.vidOf p).isEmpty && (s.reel.steps[p.val]).isNone
    && !(s.reel.copies.any fun x => x.part == p)
    && !(s.spn.cmds.any fun m => m.ref != c && m.part? == some p && m.wait != .none)

/-- Zeros an array's spool, cell weight buffers, accumulators, row-unit and row-statistics state, knots and counters (R402,
step 3; R451). -/
def State.zeroArray (s : State) (n : ArrayNum) : State :=
  let s := s.wipe (spoolBase n) spoolSize
  let s := s.modArr n fun a => { a with
    wbuf := [], planes := [], bankPair := Vector.replicate 2 none, acc := [], accTag := [], accClamp := [], vreg := []
    areg := Vector.replicate 8 0, creg := Vector.replicate 4 0, mreg := Vector.replicate 4 0xFFFFFFFFFFFFFFFF
    rstat := [], knots := [], restaging := false, scrubbing := false }
  let counters : List Fld := [
    F.arrBusyCyclesBusyCycles n, F.arrGridCyclesGridCycles n, F.arrStallCyclesStallCycles n, F.arrStageBytesStageBytes n,
    F.arrNanCountNanCount n, F.arrSatCountSatCount n, F.splEccCorrCorrected n, F.splEccUncorrUncorrected n,
    F.kntRmoErrCountErrors n, F.attMaskedRowsRows n, F.cnvWxCoarseSkeins n, F.cnvPoolEmptyWindows n,
    F.cnvArgmaxNanPixels n]
  counters.foldl (fun s f => s.set f 0) s

/-- Clears an array for its next tenant: its stores and counters, and its CNV_ descriptors (R402, step 3). -/
def State.scrubArray (s : State) (n : ArrayNum) : State :=
  let s := s.zeroArray n
  (List.range 8).foldl (fun s j => [0, 4, 8].foldl (fun (s : State) (o : Nat) =>
    (s.setReg (regKey n (0xC000 + 0x10 * j + o)) 0).setReg (regKey n (0xC000 + 0x10 * j + o) + 0x80000) 0) s) s

/-- An owned granule's tag as its clear begins: kept for the owner, or on its way to free (R156). R154 and R156 do not say which
bits stay: the owner's where it keeps the granule, none on a release. (DESIGN CHOICE, log entry 24.) -/
def clearingTag (keep : Bool) (p : PartNum) : Byte := if keep then ownedTag p false ||| 0x40#8 else 0x40#8

/-- The vault granules of an array that a partition owns: first and count, from the lowest to the highest. -/
def State.vaultRun (s : State) (p : PartNum) (n : ArrayNum) : Nat × Nat :=
  let own := (List.range 384).filter fun g => tagOwned (s.vtag n g) && tagPart (s.vtag n g) == p
  match own with
  | [] => (0, 0)
  | g :: _ => (g, own.length)

/-- Moves the partition's granules to Clearing and asks for their clears; the first tier clear rekeys slot p (R156, R158,
R159, R402). -/
def State.clearPart (s : State) (p : PartNum) (keep : Bool) : State :=
  let s := (s.arraysOf p).foldl (fun s n =>
    let r := s.vaultRun p n
    let s := (List.range r.2).foldl (fun s i => s.setVtag n (r.1 + i) (clearingTag keep p)) s
    if r.2 = 0 then s else s.vaultClear n r.1 r.2) s
  let runs := s.tierRuns p
  let s := runs.foldl (fun s r => (List.range r.2).foldl (fun s i => s.setTtag (r.1 + i) (clearingTag keep p)) s) s
  let s := if runs.isEmpty then (s.dropKey p).loadKey p else s
  s.modPart p fun t => { t with todo := t.todo ++ (List.zipIdx runs).map fun (r : (Nat × Nat) × Nat) => (r.1.1, r.1.2, r.2 == 0) }

/-- The partition's reel registers return to their Reset values. -/
def State.dropReel (s : State) (p : PartNum) : State :=
  let s := (List.range 23).foldl (fun s k =>
    s.setReg (regKey 0x40 (0x1000 + 0x80 * p.val + 4 * k)) (regReset (regKey 0x40 (0x1000 + 0x80 * p.val + 4 * k)))) s
  let s := (s.setFrames p []).setSlots p []
  { s with srv := { s.srv with
    maxSlots := s.srv.maxSlots.set p.val 256
    chunk := s.srv.chunk.set p.val 512
    stepTokens := s.srv.stepTokens.set p.val 2048 } }

/-- The arrays whose clears belong to the partition's scrub: its own, and those that its destroy has given up (R346). -/
def State.scrubArrays (s : State) (p : PartNum) : List ArrayNum :=
  s.arraysOf p ++ allArrays.filter fun (n : ArrayNum) => (s.part p).leaving.getLsbD n.val

/-- Step 6 of R346 frees the reel ranges and the groups; their arrays' clears still run. -/
def State.giveUp (s : State) (p : PartNum) : State :=
  let ns := s.arraysOf p
  ((ns.foldl (fun s n => s.setFb n []) s).dropReel p).modPart p fun t => { t with
    groups := 0
    leaving := ns.foldl (fun (m : DWord) n => m ||| BitVec.ofNat 64 (2 ^ n.val)) 0 }

/-- The scrub once the partition is quiet: step 5 of R346, steps 2 and 3 of R402, the clears' start, and for a destroy
step 6 of R346. -/
def State.scrubClear (s : State) (p : PartNum) (keep : Bool) : State :=
  let s := (s.seqFlush p).closeDoors p
  let s := (s.pairsOf p).foldl (fun s k => s.unbind k) s
  let s := if keep then s else s.commitWeights p fun _ => 0
  let s := match s.boundSession p with
    | some t => s.endSpdm t.id
    | none => s
  let streams := s.coc.streams.map fun (x : IdeStream) =>
    if x.part = some p then { x with session := none, part := none, keys := [], active := none, insecure := false } else x
  let s := { s with coc := { s.coc with streams := streams } }
  let s := s.setBit F.cocSealIde p false
  let s := (s.arraysOf p).foldl (fun s n => s.scrubArray n) s
  let s := (s.seqRange p).foldl (fun s i => s.modConv i fun v => { Convo.none with serial := v.serial, expired := v.expired }) s
  let s := s.fillPools p
  let s := { s with srv := { s.srv with posted := s.srv.posted.set p.val none } }
  let s := s.modPart p fun t => { t with model := none, scrubbing := true }
  let s := s.clearPart p keep
  if keep then s else s.giveUp p

/-- Whether every clear of the partition is done. -/
def State.partClean (s : State) (p : PartNum) : Bool :=
  ((s.scrubArrays p).all fun n => (s.arr n).clear == .none) && (s.part p).todo.isEmpty
    && !(s.tierClears.any fun c => c.slot == p.val)

/-- Condemned arrays of a partition are marked when it releases them (R456). (DEDUCED, log entry 48.) -/
def State.markCondemned (s : State) (ns : List ArrayNum) : State :=
  ns.foldl (fun (s : State) (n : ArrayNum) => if s.bit F.mltCondemnedCondemned n then s.markUnusable n else s) s

/-- A tenant change ends (R402, step 6). (DEDUCED, log entry 33.) -/
def State.changeEnd (s : State) (p : PartNum) : State :=
  let ns := s.arraysOf p
  let s := (s.setBit F.cocSealSealed p false).modPart p fun t => { t with destroying := false, scrubbing := false }
  s.markCondemned ns

/-- A destroy ends (R346, R403): the key slot and the power share are freed. (DEDUCED, log entry 33.) -/
def State.destroyEnd (s : State) (p : PartNum) : State :=
  let ns := s.scrubArrays p
  let s := (s.dropKey p).setBit F.cocSealSealed p false
  let s := (s.set (F.pwrShareShare p) 0).modPart p fun _ => Part.none
  s.markCondemned ns

/-- The entropy source fails its health test: no key, and a FATAL record (R404). (DEDUCED, log entry 33.) -/
def State.entropyFail (s : State) : State := (s.raiseBit F.cocStatusEntropyFail).securityEvent none stFatal 3

/-- The status of an ended scrub: FATAL for a tenant change whose slot got no key (R404). (DEDUCED, log entry 33.) -/
def State.scrubStatus (s : State) (p : PartNum) (keep : Bool) : Nat :=
  if keep && !s.bit F.tierKeyStatLoaded p.val then stFatal else stOk

/-- Moves a partition's scrub on as far as it can go, for a command and the wait it keeps; whether the scrub ended.
(DEDUCED, log entry 33.) -/
def State.scrubMove (s : State) (p : PartNum) (keep : Bool) (c : CmdRef) (w : Wait) : State × Bool :=
  let s := if (s.part p).scrubbing then s else s.scrubHold p
  if s.gapHolds then (s, false)
  else
    let s := if !(s.part p).scrubbing && s.partQuiet p c then (s.scrubClear p keep).park c w else s
    if (s.part p).scrubbing && s.partClean p then (if keep then s.changeEnd p else s.destroyEnd p, true) else (s, false)

/-- Moves one command that scrubs partitions on: PART_DESTROY, SEC_TENANT_CHANGE, or SEC_LIFECYCLE, which destroys every
partition that no other command is scrubbing (R375). (DEDUCED, log entry 33.) -/
def State.scrubStep (s : State) (m : Cmd) : State :=
  match m.wait with
  | .scrub p =>
    let keep := m.op == 0x0806
    let r := s.scrubMove p keep m.ref m.wait
    if r.2 then r.1.complete m.ref (r.1.scrubStatus p keep) else r.1
  | .lifecycle _ =>
    allParts.foldl (fun s p =>
      if !(s.part p).live || s.spn.cmds.any (fun x => x.wait == .scrub p) then s
      else ((if (s.part p).destroying then s else s.scrubStart p).scrubMove p false m.ref m.wait).1) s
  | _ => s

/-- Queues the tier clears that are still owed while the engine has room (R159); with no half active none is requested (R403).
(DEDUCED, log entry 33.) -/
def State.feedClears (s : State) : State :=
  if s.gapHolds then s
  else allParts.foldl (fun s p =>
    (s.part p).todo.foldl (fun s x =>
      if s.tierClears.length < 16 ∧ (s.part p).todo.head? = some x then
        (s.tierClear x.1 x.2.1 x.2.2 p.val).modPart p fun t => { t with todo := t.todo.drop 1 }
      else s) s) s

/-- Moves on what waits for arrays, clears and scrubs (R341, R346, R402). (DESIGN CHOICE, log entry 31.) -/
def State.settle (s : State) : State :=
  let s := s.settleKernels.feedClears.settleReleases
  s.spn.cmds.foldl (fun s m => s.scrubStep m) s

/-! ### PART commands (R340, R344 to R347) -/

/-- Whether a group set is one run in ring order (R28). -/
def groupsOk (g : BitVec 8) : Bool :=
  g != 0 && ((List.range 8).filter fun k => g.getLsbD k && !g.getLsbD ((k + 7) % 8)).length ≤ 1

/-- The arrays of a group set. -/
def arraysIn (g : BitVec 8) : List ArrayNum := allArrays.filter fun (n : ArrayNum) => g.getLsbD (n.val / 8)

/-- PART_CREATE's arguments (R344). -/
structure CreateArgs where
  groups : BitVec 8
  flags : Nat
  seqs : Nat
  maps : Nat
  frames : Nat
  slots : Nat
  fb : Nat
  weights : List Nat
  slotBytes : Nat
  deriving DecidableEq, Repr

/-- Reads PART_CREATE's arguments. -/
def createArgs (m : Cmd) : CreateArgs where
  groups := BitVec.ofNat 8 (m.arg 8 1)
  flags := m.arg 9 1
  seqs := m.arg 10 2
  maps := m.arg 12 4
  frames := m.arg 16 4
  slots := m.arg 20 4
  fb := m.arg 24 2
  weights := (List.range 4).map fun k => m.arg (28 + 2 * k) 2
  slotBytes := m.arg 36 4

/-- Field ranges of R344. -/
def CreateArgs.ok (a : CreateArgs) : Bool :=
  decide (a.flags < 8) && decide (a.seqs ≤ 16384) && decide (a.maps ≤ 262144) && decide (a.frames ≤ 262144)
    && decide (a.slots ≤ 524287) && (bitsAt a.flags 0 1 == 1 || a.fb == 0)
    && (if a.slots = 0 then a.slotBytes == 0 else a.slotBytes % 64 == 0 && a.slotBytes != 0 && decide (a.slotBytes < 2 ^ 30))

/-- The range of each existing partition in one of the reel's spaces. -/
def State.rangesOf (s : State) (base count : Nat → Fld) : List (Nat × Nat) :=
  (allParts.filter fun p => (s.part p).live).map fun p => (s.get (base p), s.get (count p))

/-- The status of a PART_CREATE after R333 (R345). -/
def State.createCheck (s : State) (p : PartNum) (a : CreateArgs) : Nat :=
  let held := s.get F.mltStatusHeld != 0
  let other := allParts.any fun q => (s.part q).live && ((s.part q).groups &&& a.groups) != 0
  let moving := (arraysIn a.groups).any fun n => s.busy n || !(s.arr n).quiet
  let n := ceilDiv (a.slots * a.slotBytes) 0x400000
  if (s.part p).live then stBusy
  else if !groupsOk a.groups || !a.ok then stBad
  else if other || moving then stBusy
  else if held || (arraysIn a.groups).all (fun n => !s.usable n) then stUnusable
  else if (freeRun (s.rangesOf (fun q => F.reelPMapBaseBase q) fun q => F.reelPMapCountCount q) 262144 a.maps).isNone
      || (freeRun (s.rangesOf (fun q => F.reelPSeqBaseBase q) fun q => F.reelPSeqCountCount q) 16384 a.seqs).isNone
      || (freeRun (s.rangesOf (fun q => F.reelPFrameBaseBase q) fun q => F.reelPFrameCountCount q) 262144 a.frames).isNone
      || (n != 0 && (s.tierRun n).isNone) then stKv
  else stOk

/-- Creates a partition (R345, R404) and answers its result. -/
def State.createPart (s : State) (p : PartNum) (a : CreateArgs) : State × List Byte :=
  let n := ceilDiv (a.slots * a.slotBytes) 0x400000
  let mapBase := (freeRun (s.rangesOf (fun q => F.reelPMapBaseBase q) fun q => F.reelPMapCountCount q) 262144 a.maps).getD 0
  let seqBase := (freeRun (s.rangesOf (fun q => F.reelPSeqBaseBase q) fun q => F.reelPSeqCountCount q) 16384 a.seqs).getD 0
  let frameBase := (freeRun (s.rangesOf (fun q => F.reelPFrameBaseBase q) fun q => F.reelPFrameCountCount q) 262144
    a.frames).getD 0
  let first := if n = 0 then 0 else (s.tierRun n).getD 0
  let s := s.modPart p fun _ => { Part.none with live := true, groups := a.groups, slotGran := (first, n) }
  let s := s.giveTier p first n
  let s := (s.arraysOf p).foldl (fun s m => (List.range 384).foldl (fun s g =>
    if tagFree (s.vtag m g) then s.setVtag m g (ownedTag p false) else s) s) s
  let tierAddr := if n = 0 then 0 else tierBase + first * 0x400000
  let s := s.loadKey p
  let s := ((s.set (F.reelPFrameBaseBase p) frameBase).set (F.reelPFrameCountCount p) a.frames).set (F.reelPMapBaseBase p) mapBase
  let s := ((s.set (F.reelPMapCountCount p) a.maps).set (F.reelPSeqBaseBase p) seqBase).set (F.reelPSeqCountCount p) a.seqs
  let s := ((s.set (F.reelPTierSlotsCount p) a.slots).set (F.reelPFbCountCount p) a.fb).set (F.reelPTierBaseBase p) (tierAddr / 64)
  let s := (s.set (F.reelPSlotBytesBytes p) (a.slotBytes / 64)).set (F.reelPStepAddrAddr p) (stepDescAddr p / 64)
  let s := (s.set (F.reelPCtlFallbackEn p) (bitsAt a.flags 0 1)).set (F.reelPCtlKvInt4 p) (bitsAt a.flags 1 1)
  let s := (s.set (F.reelPCtlEnable p) 1).fillPools p
  let s := (s.set (F.errPCorrCorrected p) 0).set (F.errPUncorrUncorrected p) 0
  let s := s.set (F.pwrShareShare p) (345 * groupCount a.groups / 8)
  let s : State := { s with pm := { s.pm with shareGiven := s.pm.shareGiven &&& ~~~(partBit p) } }
  let s := s.commitWeights p fun i =>
    if bitsAt a.flags 2 1 = 1 then (a.weights[i.val]?).getD 0 else s.defaultWeight i (groupCount a.groups)
  (s, leBytes 4 mapBase ++ leBytes 4 frameBase ++ leBytes 8 tierAddr ++ leBytes 2 seqBase ++ leBytes 2 0 ++ leBytes 4 n)

/-- PART_CREATE (R344, R345). -/
def execPartCreate (c : CmdRef) (entropyOk : Bool) (s : State) : Host.Outcome State Fault Refusal :=
  .next (s.runPart c 0x0201 fun m p s =>
    let a := createArgs m
    let st := s.createCheck p a
    if st ≠ stOk then s.complete c st
    else if !entropyOk then s.entropyFail.complete c stFatal
    else
      let r := s.createPart p a
      r.1.complete c stOk r.2)

/-- PART_DESTROY (R346, R403). (DEDUCED, log entry 33.) -/
def execPartDestroy (c : CmdRef) (s : State) : Host.Outcome State Fault Refusal :=
  .next (s.runPart c 0x0202 fun _ p s => ((s.scrubStart p).park c (.scrub p)).settle)

/-- SEC_TENANT_CHANGE (R402). (DEDUCED, log entry 33.) -/
def execSecTenantChange (c : CmdRef) (s : State) : Host.Outcome State Fault Refusal :=
  .next (s.runPart c 0x0806 fun _ p s => ((s.scrubStart p).park c (.scrub p)).settle)

/-- Whether a pair holds an outstanding command. -/
def State.pairHolds (s : State) (k : PairNum) : Bool := s.spn.cmds.any fun m => m.ref.src == .pair k

/-- PART_BIND (R347). -/
def execPartBind (c : CmdRef) (s : State) : Host.Outcome State Fault Refusal :=
  .next (s.runPart c 0x0203 fun m p s =>
    match allPairs[m.arg 8 1]? with
    | none => s.complete c stBad
    | some k =>
      if k.val = 0 ∨ k.val = 8 then s.complete c stBad
      else if s.pairEnabled k || s.pairHolds k || (s.pairPart k).isSome then s.complete c stBusy
      else ((s.set (F.spnMbStatusBound k) 1).set (F.spnMbStatusPartition k) p.val).complete c stOk)

/-- PART_UNBIND (R347). -/
def execPartUnbind (c : CmdRef) (s : State) : Host.Outcome State Fault Refusal :=
  .next (s.runPart c 0x0204 fun m p s =>
    match allPairs[m.arg 8 1]? with
    | none => s.complete c stBad
    | some k =>
      if s.pairPart k ≠ some p then s.complete c stBad
      else if s.pairEnabled k || s.pairHolds k then s.complete c stBusy
      else (s.unbind k).complete c stOk)

/-- PART_SHARES: the partition's weights and ceilings, committed at once (R313, R317, R340). The result tells which
instances the new values oversubscribe. -/
def execPartShares (c : CmdRef) (s : State) : Host.Outcome State Fault Refusal :=
  .next (s.runPart c 0x0205 fun m p s =>
    let s := (List.finRange 4).foldl (fun s (i : Fin 4) =>
      if s.shtActive i then s.shtStageWeight i p (m.arg (8 + 4 * i.val) 2) (m.arg (10 + 4 * i.val) 2) else s) s
    let s := s.shtArm 15
    let full := (List.finRange 4).foldl (fun (n : Nat) (i : Fin 4) =>
      let caps := ((List.range (shtCount i)).map fun r =>
        let w := (s.reg (shtWeightKey i r + 0x80000)).toNat
        max (bitsAt w 0 16) (bitsAt w 16 16)).sum
      if s.shtActive i && decide (s.shtG i < caps + 64 * shtCount i) then n + 2 ^ i.val else n) 0
    s.complete c stOk (leBytes 1 full))

/-- The bit map of a list of arrays. -/
def mapOf (ns : List ArrayNum) : Nat := ns.foldl (fun m n => m + 2 ^ n.val) 0

/-- PART_QUERY (R340). -/
def execPartQuery (c : CmdRef) (s : State) : Host.Outcome State Fault Refusal :=
  .next (s.runPart c 0x0206 fun _ p s =>
    let reqs := ((s.seqRange p).filter fun i => (s.request i).isSome).length
    let seqs := ((s.seqRange p).filter fun i => s.seqState i != 0).length
    s.complete c stOk (leBytes 1 (s.part p).groups.toNat ++ leBytes 1 ((s.reg (F.reelPCtlEnable p).key).toNat % 8)
      ++ leBytes 8 (mapOf (s.arraysOf p)) ++ leBytes 2 reqs ++ leBytes 2 seqs ++ leBytes 1 (s.vidOf p).length))

end Sys2Proof.Machine
end

