-- ==== Sys2Proof/Machine/Memory.lean ====
section
/-!
DEFINITION. The models-and-memory commands (R41, R119, R341), the rows that end kernels, faults, restaging and clears
(R89, R107 to R109, R156, R158, R159), and BAR4 (R42).
-/

namespace Sys2Proof.Machine

/-! ### Tier granules (R341) -/

/-- MEM_TIER_ASSIGN. -/
def execMemTierAssign (c : CmdRef) (s : State) : Host.Outcome State Fault Refusal :=
  .next (s.runPart c 0x0301 fun m p s =>
    let n := m.arg 8 4
    if n = 0 ∨ 65536 < n then s.complete c stBad
    else
      match s.tierRun n with
      | none => s.complete c stBusy
      | some first => (s.giveTier p first n).complete c stOk (leBytes 4 first))

/-- Whether granules first to first + count - 1 hold tier slots or the pool of an open session of a partition. -/
def State.granulesHeld (s : State) (p : PartNum) (first count : Nat) : Bool :=
  let t := (s.part p).slotGran
  (decide (t.1 < first + count) && decide (first < t.1 + t.2)) ||
    (s.vidOf p).any fun i => (s.ses i).any fun v =>
      let a := (v.poolBase - tierBase) / 0x400000
      let b := (v.poolBase - tierBase + v.poolCount * v.bufferBytes - 1) / 0x400000
      decide (a < first + count) && decide (first ≤ b)

/-- MEM_TIER_RELEASE: it completes when its clear is done. -/
def execMemTierRelease (c : CmdRef) (s : State) : Host.Outcome State Fault Refusal :=
  .next (s.runPart c 0x0302 fun m p s =>
    let first := m.arg 8 4
    let n := m.arg 12 4
    if n = 0 ∨ 65536 < first + n then s.complete c stBad
    else if !((List.range n).all fun i => s.ownsTier p (first + i)) || s.granulesHeld p first n then s.complete c stBad
    else
      let s := (List.range n).foldl (fun s i => s.setTtag (first + i) (clearingTag false p)) s
      let s := s.modPart p fun t => { t with todo := t.todo ++ [(first, n, false)] }
      (s.park c (.tierClear first n)).feedClears)

/-! ### Apertures and windows (R41, R119, R341) -/

/-- Whether a link port exists (R43). -/
def State.portOk (s : State) (n : Nat) : Bool := n == 0 || (n == 1 && s.flag (F.pciLinkBifurcated 0))

/-- Whether an aperture's range keeps R41. -/
def apertureOk (base len : Nat) : Bool :=
  base % 0x400000 == 0 && len % 0x400000 == 0 && decide (0 < len) && decide (len ≤ 0x100000000)
    && (decide (base + len ≤ 0x1800000000) || (decide (0x2000000000 ≤ base) && decide (base + len ≤ 0x6000000000)))

/-- Whether every granule of a range is owned by a partition. -/
def State.ownsAll (s : State) (p : PartNum) (a n : Nat) : Bool :=
  (granulesOf a n).all fun g =>
    match s.tagAt g with
    | some t => tagOwned t && tagPart t == p && !tagClearing t
    | none => false

/-- An aperture of a port. -/
def State.aperture (s : State) (port a : Nat) : Aperture := SMap.look .closed s.apertures (16 * port + a)

/-- MEM_APERTURE. -/
def execMemAperture (c : CmdRef) (s : State) : Host.Outcome State Fault Refusal :=
  .next (s.runPart c 0x0303 fun m p s =>
    let a := m.arg 8 1
    let port := m.arg 10 1
    let base := m.arg 16 8
    let len := m.arg 24 8
    let others := match s.aperture port a with
      | .opened q _ _ => q != p
      | .closed => false
    if 16 ≤ a ∨ 1 < m.arg 9 1 ∨ s.portOk port = false then s.complete c stBad
    else if m.arg 9 1 = 0 then
      if others then s.complete c stDenied
      else ({ s with apertures := SMap.put .closed s.apertures (16 * port + a) .closed } : State).complete c stOk
    else if !apertureOk base len then s.complete c stBad
    else if !s.ownsAll p base len || others then s.complete c stDenied
    else
      ({ s with apertures := SMap.put .closed s.apertures (16 * port + a) (.opened p base len) } : State).complete c stOk)

/-- Whether an issued operation names a window (R119). -/
def State.windowBusy (s : State) (w : Nat) : Bool :=
  allArrays.any fun (n : ArrayNum) => (s.arr n).rmoQ.any fun (o : RmoOp) =>
    match regionOf o.remote with
    | .window v _ => v.val == w
    | _ => false

/-- MEM_WINDOW. -/
def execMemWindow (c : CmdRef) (s : State) : Host.Outcome State Fault Refusal :=
  .next (s.runPart c 0x0304 fun m p s =>
    let w := m.arg 8 1
    let kind := m.arg 9 1
    let port := m.arg 10 1
    let base := m.arg 16 8
    let sig := m.arg 24 8
    if 16 ≤ w ∨ 3 < kind ∨ s.portOk port = false ∨ base % 4096 ≠ 0 ∨ sig % 0x10000000 ≠ 0 then s.complete c stBad
    else if (s.get (F.pciWinCtlKind w) = 1 ∨ s.get (F.pciWinCtlKind w) = 2) ∧ s.get (F.pciWinCtlPartition w) ≠ p.val then
      s.complete c stDenied
    else if s.windowBusy w then s.complete c stBusy
    else
      let s := ((s.set (F.pciWinCtlKind w) kind).set (F.pciWinCtlPort w) port).set (F.pciWinCtlPartition w) p.val
      ((s.set (F.pciWinBaseBase w) (base / 4096)).set (F.pciWinSigSigBase w) (sig / 0x10000000)).complete c stOk)

/-! ### Models (R210, R341, R382) -/

/-- Whether two ranges meet. -/
def meet (a b : Nat × Nat) : Bool := decide (a.1 < b.1 + b.2) && decide (b.1 < a.1 + a.2)

/-- Whether an array's frame regions fit in its vault beside the image's own regions (R341). -/
def State.kvFits (s : State) (p : PartNum) (x : ImageArray) : Bool :=
  let kv := (x.kvBase, s.get (F.reelPFrameCountCount p) * x.frameBytes)
  let fb := (x.fbBase, if s.flag (F.reelPCtlFallbackEn p) then s.get (F.reelPFbCountCount p) * x.fbFrameBytes else 0)
  let last := ((List.range 384).filter fun g => tagOwned (s.vtag x.array g) && tagPart (s.vtag x.array g) == p).length * 0x400000
  decide (kv.1 + kv.2 ≤ last) && decide (fb.1 + fb.2 ≤ last) && !meet kv fb && !(x.regions.any fun r => meet r kv || meet r fb)

/-- Whether an image's own numbers keep their fields' ranges (R210, R247, R341), and on a sealed partition every region that
it names lies in the partition's secure granules (R382). -/
def State.imageOk (s : State) (p : PartNum) (i : ModelImage) : Bool :=
  decide (2 ≤ i.vocab) && decide (i.vocab ≤ 262143)
    && (i.slices.all fun x => s.inPart p x.array && decide (x.first + x.count ≤ i.vocab))
    && (i.arrays.all fun x => s.inPart p x.array
      && x.kvBase % 64 == 0 && decide (x.kvBase < 2 ^ 31) && x.frameBytes % 64 == 0 && decide (x.frameBytes < 2 ^ 21)
      && x.fbBase % 64 == 0 && decide (x.fbBase < 2 ^ 31) && x.fbFrameBytes % 64 == 0 && decide (x.fbFrameBytes < 2 ^ 26)
      && (x.kernels.all fun k => decide (k.1 + k.2.length ≤ spoolSize))
      && (x.regions.all fun r => decide (r.1 + r.2 ≤ vaultSize)
        && (!s.isSealed p || r.2 == 0 || s.ownsAll p (vaultBase x.array + r.1) r.2)))

/-- Loads one array of an image: attention registers and kernels (R210, R341). -/
def State.placeArray (s : State) (x : ImageArray) : State :=
  let n := x.array
  let s := (s.set (F.attKvBaseKvBase n) (x.kvBase / 64)).set (F.attFrameBytesFrameBytes n) (x.frameBytes / 64)
  let s := (s.set (F.attFbBaseFbBase n) (x.fbBase / 64)).set (F.attFbFrameBytesFbFrameBytes n) (x.fbFrameBytes / 64)
  x.kernels.foldl (fun s k => s.store (spoolBase n + k.1) k.2) s

/-- The image's bytes, read where the command says. -/
def State.imageRead (s : State) (a n : Nat) : State × List Byte :=
  match s.windowTarget a with
  | some _ => (s, s.blockRead a n)
  | none => s.readThrough a n

/-- MODEL_PLACE (R341, R381, R382). -/
def execModelPlace (c : CmdRef) (image : ModelImage) (s : State) : Host.Outcome State Fault Refusal :=
  .next (s.runPart c 0x0305 fun m p s =>
    let a := m.arg 8 8
    let n := m.arg 16 4
    let mine := s.ownsAll p a (max 1 n)
    let usable := mapOf (s.arraysOf p)
    let needsBad := (image.arrays.any fun x => !s.usable x.array) ||
      allArrays.any fun (k : ArrayNum) => image.usableMap.getLsbD k && s.inPart p k && !s.usable k
    if s.isSealed p && !mine then s.complete c stDenied
    else if n = 0 ∨ (mine = false ∧ s.inHostWindow p a n = false) then s.complete c stBad
    else if needsBad then s.complete c stUnusable
    else if image.usableMap.toNat ≠ usable ∨ s.imageOk p image = false then s.complete c stBad
    else if !(image.arrays.all fun x => s.kvFits p x) then s.complete c stKv
    else if (s.arraysOf p).any fun k => s.busy k then s.complete c stBusy
    else
      let r := s.imageRead a n
      let s := image.arrays.foldl (fun s x => s.placeArray x) r.1
      let arrays := mapOf (image.arrays.map (·.array)).dedup
      let model : Model := {
        arrays := BitVec.ofNat 64 arrays, vocab := image.vocab, logitsFp32 := image.logitsFp32, slices := image.slices
        kernels := (image.arrays.map fun x => x.kernels.map fun k => (x.array, k.1, k.2.length)).flatten
        digest := Config.sha384 r.2 }
      (s.modPart p fun t => { t with model := some model }).complete c stOk (leBytes 8 arrays))

/-- MODEL_UNLOAD. -/
def execModelUnload (c : CmdRef) (s : State) : Host.Outcome State Fault Refusal :=
  .next (s.runPart c 0x0306 fun _ p s =>
    if ((s.seqRange p).any fun i => (s.request i).isSome) || ((s.arraysOf p).any fun n => (s.arr n).kernel) then
      s.complete c stBusy
    else (s.modPart p fun t => { t with model := none }).complete c stOk)

/-- KERNEL_RUN: entry, step and go in each named array (R107, R111, R341). -/
def execKernelRun (c : CmdRef) (s : State) : Host.Outcome State Fault Refusal :=
  .next (s.runPart c 0x0307 fun m p s =>
    let mask := BitVec.ofNat 64 (m.arg 8 8)
    let entry := m.arg 16 4
    let ns := allArrays.filter fun (n : ArrayNum) => mask.getLsbD n
    if mask = 0 ∨ entry % 16 ≠ 0 ∨ 0x7FFFF0 < entry then s.complete c stBad
    else if ns.any fun n => !s.inPart p n then s.complete c stDenied
    else if ns.any fun n => !s.usable n then s.complete c stUnusable
    else if ns.any fun n => s.busy n || s.flag (F.arrStatusFault n) then s.complete c stBusy
    else
      let s := ns.foldl (fun s n =>
        ((s.set (F.arrKernelEntryEntry n) entry).set (F.arrKernelStepStep n) (m.arg 20 4)).kernelGo n) s
      s.park c (.kernels mask 0))

/-- KNOT_SET (R133, R341). -/
def execKnotSet (c : CmdRef) (s : State) : Host.Outcome State Fault Refusal :=
  .next (s.runPart c 0x0308 fun m p s =>
    let k := m.arg 8 4
    match allArrays[k / 2048]? with
    | none => s.complete c stBad
    | some n =>
      if !s.inPart p n then s.complete c stDenied
      else if !s.usable n then s.complete c stUnusable
      else if s.busy n then s.complete c stBusy
      else (s.setKnot n (k % 2048) (BitVec.ofNat 32 (m.arg 12 4))).complete c stOk)

/-! ### Kernels end (R89, R107 to R109) -/

/-- A fault is recorded once every instruction issued before it has completed (R109). (DEDUCED, log entry 32.) -/
def execArrayFault (n : ArrayNum) (s : State) : Host.Outcome State Fault Refusal :=
  .next (let a := s.arr n
    match a.pend with
    | some f => if a.quiet then ((s.recordFault n f).noteFaulted n).settle else s
    | none => s)

/-- A kernel ends once its `end` has issued and everything before it has completed (R95, R107).
(DEDUCED, log entry 32.) -/
def execKernelEnd (n : ArrayNum) (s : State) : Host.Outcome State Fault Refusal :=
  .next (let a := s.arr n
    if a.ending && a.quiet && s.unitsRun n then
      (s.modArr n fun a => { a with kernel := false, ending := false }).settle
    else s)

/-- The vault range of a plane's source that the stager is denied, if any. -/
def State.sourceDenied (s : State) (n : ArrayNum) (pair : Fin 11) : PlaneSrc → Option Nat
  | .vault o => s.stagerDenied n o (pairInfo pair).planeBytes
  | .spool _ => none
  | .pages b => b.units.findSome? fun u => s.stagerDenied n u (unitBytes b.int4 b.d)

/-- One valid plane is staged again (R89): on an uncorrectable word or a denied granule it is left invalid, and the
kernel, where one runs, faults. -/
def State.restagePlane (s : State) (n : ArrayNum) (bank : Fin 2) (plane : Nat) (pair : Fin 11) (src : PlaneSrc) : State :=
  let drop := fun s : State => s.modArr n fun a => { a with planes := SMap.put none a.planes (bank.val * 64 + plane) none }
  let fault := fun (s : State) code addr =>
    if (s.arr n).kernel then s.detect n ⟨code, 1, (s.arr n).pc, addr⟩ else s
  match s.sourceDenied n pair src with
  | some off =>
    let s := drop s
    if (s.arr n).kernel then fault s faultVaultRange off
    else s.accessError n.val n.val 2 1 0 (s.partOf n) (some (vaultBase n + off))
  | none =>
    match s.stagePlane n pair bank plane src with
    | (t, none) => t
    | (t, some w) => fault (drop t) faultData (localOffset w)

/-- Restaging after a power-gate completes (R89). (DESIGN CHOICE, log entry 69.) -/
def execRestageDone (n : ArrayNum) (s : State) : Host.Outcome State Fault Refusal :=
  .next (let a := s.arr n
    if !a.restaging || a.power != .running then s
    else
      let s := (List.range 128).foldl (fun (s : State) k =>
        match SMap.look none a.planes k, a.bankPair[(half2 (k / 64)).val] with
        | some src, some pair => s.restagePlane n (half2 (k / 64)) (k % 64) pair src
        | _, _ => s) s
      s.modArr n fun a => { a with restaging := false })

/-! ### Clears (R156, R158 to R160) -/

/-- A held vault clear starts (R158). -/
def execVaultClearStart (n : ArrayNum) (s : State) : Host.Outcome State Fault Refusal :=
  .next (s.vaultClearBegin n)

/-- A vault clear is done (R156, R158, R402). -/
def execVaultClearDone (n : ArrayNum) (s : State) : Host.Outcome State Fault Refusal :=
  .next (match (s.arr n).clear with
  | .running _ _ => (s.vaultClearEnd n).settle
  | _ => s)

/-- The oldest queued tier clear starts (R159). A rekey with a failing entropy source destroys the old keys, loads none
and leaves its record (R404). (DEDUCED, log entry 33.) -/
def execTierClearStart (entropyOk : Bool) (s : State) : Host.Outcome State Fault Refusal :=
  .next (match s.tierClears with
    | c :: l =>
      if c.rekey && s.tierClearReady && !entropyOk then
        (({ s with tierClears := { c with started := true } :: l } : State).dropKey c.slot).entropyFail
      else s.tierClearBegin
    | [] => s)

/-- The running tier clear is done (R156, R159, R402). -/
def execTierClearDone (s : State) : Host.Outcome State Fault Refusal :=
  .next (match s.tierClears with
  | t :: _ => if t.started then s.tierClearEnd.settle else s
  | [] => s)

/-! ### BAR4 (R41, R42, R144, R145, R379) -/

/-- The piece of an access that one granule holds: offset in the access and length. R42 checks each granule that an access
touches; each piece is served, or refused with an error of its own. (DESIGN CHOICE, log entry 68.) -/
def piecesOf (a n : Nat) : List (Nat × Nat) :=
  (granulesOf a n).map fun g => (max g a - a, min (g + 0x400000) (a + n) - max g a)

/-- Where a BAR4 offset leads: the aperture's partition and the device address; none in a closed aperture or beyond an
aperture's length. -/
def State.bar4Target (s : State) (port : Port) (off : Nat) : Option (PartNum × Nat) :=
  match s.aperture port.val (off / 0x100000000) with
  | .closed => none
  | .opened p base len => if off % 0x100000000 < len then some (p, base + off % 0x100000000) else none

/-- Why the host may not touch a device address for a partition, as the cause of R487: 1 in an unusable array's vault (R37), 2
in a denied granule (R135); none where it may. -/
def State.bar4Cause (s : State) (p : PartNum) (a : Nat) : Option Nat :=
  let dead := match regionOf a with
    | .vault n _ => !s.usable n
    | _ => false
  if dead then some 1
  else match s.tagAt a with
    | some t => if tagAllowsHost p t then none else some 2
    | none => some 2

/-- The access error of a BAR4 access (R42, R487): the cause, 8 outside an open aperture, path 3, the aperture's number. -/
def State.bar4Error (s : State) (off cause : Nat) (p : Option PartNum) (addr : Option Nat) : State :=
  s.accessError 0x04D 0xFFFF cause 3 (off / 0x100000000 % 16) p addr

/-- Reads one granule's piece: lines with an uncorrectable word read zeros (R145). -/
def State.bar4Piece (s : State) (a n : Nat) : State × List Byte :=
  let s := s.correct a n 3
  let bad := s.badWords a n
  let line := fun x : Nat => x / 64
  let bs := (List.range n).map fun i => if bad.any (fun w => line w == line (a + i)) then 0#8 else s.byte (a + i)
  (((bad.foldl (fun s w => s.eccReport w 3 true) s) : State).countRead a n, bs)

/-- Whether BAR accesses of a port are decoded (R509). -/
def State.portLive (s : State) (port : Port) : Bool := s.flag (F.pciLinkUp port) && !s.flag (F.pciLinkD3hot port)

/-- BAR4 is 64 GiB: 16 apertures of 4 GiB (R41). -/
def bar4Size : Nat := 0x1000000000

/-- Whether an access of a port reaches its BAR4: the port decodes BARs and the access lies in the BAR (R41, R43).
(DESIGN CHOICE, log entry 68.) -/
def State.bar4Reached (s : State) (port : Port) (offset len : Nat) : Bool :=
  s.portLive port && decide (offset + len ≤ bar4Size)

/-- A host read through BAR4 (R42). (DESIGN CHOICE, log entry 68.) -/
def execBar4Read (port : Port) (offset : Nat) (len : Nat) (s : State) : Host.Outcome State Fault Refusal :=
  .next (if !s.bar4Reached port offset len then s
  else
    let r := (piecesOf offset len).foldl (fun (acc : State × List Byte) x =>
      let zeros := acc.2 ++ List.replicate x.2 0
      match acc.1.bar4Target port (offset + x.1), acc.1.bar4Target port (offset + x.1 + x.2 - 1) with
      | some (p, a), some _ =>
        match acc.1.bar4Cause p a with
        | none =>
          let q := acc.1.bar4Piece a x.2
          (q.1, acc.2 ++ q.2)
        | some c => (acc.1.bar4Error (offset + x.1) c (some p) (some a), zeros)
      | _, _ => (acc.1.bar4Error (offset + x.1) 8 none none, zeros)) (s, [])
    { r.1 with rdata := r.2 })

/-- A host write through BAR4 (R42). (DESIGN CHOICE, log entry 68.) -/
def execBar4Write (port : Port) (offset : Nat) (data : List Byte) (s : State) : Host.Outcome State Fault Refusal :=
  .next (if !s.bar4Reached port offset data.length then s
  else
    (piecesOf offset data.length).foldl (fun (s : State) x =>
      match s.bar4Target port (offset + x.1), s.bar4Target port (offset + x.1 + x.2 - 1) with
      | some (p, a), some _ =>
        match s.bar4Cause p a with
        | none => s.write a ((data.drop x.1).take x.2)
        | some c => s.bar4Error (offset + x.1) c (some p) (some a)
      | _, _ => s.bar4Error (offset + x.1) 8 none none) s)

end Sys2Proof.Machine
end

