-- ==== Sys2Proof/Machine/Mailbox.lean ====
section
/-!
DEFINITION. Mailbox pairs (R323 to R330): slots, doorbells, rings, interrupts (R512); the taking, checking and starting
of commands (R321, R322, R326, R333, R334, R377, R381) and the writing of completions (R327, R332).
-/

namespace Sys2Proof.Machine

/-! ### Pairs and their rings -/

/-- Whether a pair answers through a port (R43). -/
def State.pairOn (s : State) (port : Port) (k : PairNum) : Bool := s.portOk port.val && s.pairPort k == port

/-- A pair's counts. -/
def State.rung (s : State) (k : PairNum) : Word := s.reg (F.spnMbRungRung k).key
/-- Commands copied out of their slots. -/
def State.taken (s : State) (k : PairNum) : Word := s.reg (F.spnMbTakenTaken k).key

/-- Whether slot j of a pair holds a waiting command (R324). -/
def State.slotWaits (s : State) (k : PairNum) (j : Nat) : Bool :=
  decide ((j + 2 ^ 32 - (s.taken k).toNat) % 32 < (s.rung k - s.taken k).toNat)

/-- A report about a pair (R484). -/
def State.pairEvent (s : State) (k : PairNum) (status : Nat) : State :=
  let p := s.pairPart k
  s.report { source := 0x045, cls := 0x06, severity := 2, part := p, affected := affectedBy p, status := status, inst := k.val }

/-- An RWL or slot write dropped (R15, R324). -/
def State.pairBusyDrop (s : State) (k : PairNum) : State :=
  (s.raiseBit (F.spnMbStatusCfgWriteBusy k)).pairEvent k stCfgBusy

/-- Ring size exponent; values outside 6 to 12 act as 6 (R330). -/
def ringLog (n : Nat) : Nat := if 6 ≤ n ∧ n ≤ 12 then n else 6

/-- Entries of the completion ring (0) or event ring (1) of a pair. -/
def State.ringLen (s : State) (k : PairNum) (r : Fin 2) : Nat :=
  2 ^ ringLog (s.get (if r = 0 then F.spnMbCmpSizeCmpLog2 k else F.spnMbEvtSizeEvtLog2 k))

/-- A ring's produced count. -/
def State.produced (s : State) (k : PairNum) (r : Fin 2) : Word :=
  SMap.look 0 (if r = 0 then s.spn.cmpProduced else s.spn.evtProduced) k.val

/-- A ring's consumed count as the host last wrote it. -/
def State.consumedReg (s : State) (k : PairNum) (r : Fin 2) : Word :=
  s.reg (if r = 0 then (F.spnMbCmpConsumedCmpConsumed k).key else (F.spnMbEvtConsumedEvtConsumed k).key)

/-- The last consistent consumed count (R328). -/
def State.consumedGood (s : State) (k : PairNum) (r : Fin 2) : Word := SMap.look 0 s.spn.consumed (16 * r.val + k.val)

/-- Whether a ring has room (R328): its count is consistent and it is not full. A pair whose port is down writes nothing
(assumption log). (DESIGN CHOICE, log entry 28.) -/
def State.ringRoom (s : State) (k : PairNum) (r : Fin 2) : Bool :=
  s.pairEnabled k && s.consumedReg k r == s.consumedGood k r
    && decide ((s.produced k r - s.consumedGood k r).toNat < s.ringLen k r)
    && s.flag (F.pciLinkUp (s.pairPort k))

/-- A consumed count is written (R328): one that goes backwards or passes the produced count is inconsistent.
(DESIGN CHOICE, log entry 28.) -/
def State.writeConsumed (s : State) (k : PairNum) (r : Fin 2) (v : Word) : State :=
  let good := s.consumedGood k r
  let ok := decide ((v - good).toNat ≤ (s.produced k r - good).toNat)
  let s := s.setReg (if r = 0 then (F.spnMbCmpConsumedCmpConsumed k).key else (F.spnMbEvtConsumedEvtConsumed k).key) v
  if ok then { s with spn := { s.spn with consumed := SMap.put 0 s.spn.consumed (16 * r.val + k.val) v } }
  else (s.raiseBit (F.spnMbStatusRingBad k)).pairEvent k 0

/-! ### MSI-X (R329, R512) -/

/-- The offset of a port's MSI-X table in the PCIe window. -/
def msixBase (port : Port) : Nat := 0x2000 + 0x400 * port.val

/-- Vectors of a port's function. -/
def State.msixCount (s : State) (port : Port) : Nat := if port = 0 ∧ !s.flag (F.pciLinkBifurcated 0) then 32 else 16

/-- A word of an MSI-X table; the mask bits are 1 at reset. (PRESUMED, log entry 27.) -/
def State.msixWord (s : State) (off : Nat) : Word := SMap.look (if off % 16 = 12 then 1#32 else 0#32) s.spn.msixTable off

/-- Whether a vector is masked. (PRESUMED, log entry 27.) -/
def State.msixMasked (s : State) (port : Port) (v : Nat) : Bool := (s.msixWord (msixBase port + 16 * v + 12)).getLsbD 0

/-- Sets or clears a pending bit. -/
def State.msixPend (s : State) (port : Port) (v : Nat) (b : Bool) : State :=
  { s with spn := { s.spn with msixPending := SMap.put false s.spn.msixPending (32 * port.val + v) b } }

/-- Sends a vector's message, or sets its pending bit while it is masked. -/
def State.msix (s : State) (port : Port) (v : Nat) : State :=
  if s.msixMasked port v then s.msixPend port v true
  else
    let base := msixBase port + 16 * v
    s.send (.msix port v ((s.msixWord base).toNat + 2 ^ 32 * (s.msixWord (base + 4)).toNat) (s.msixWord (base + 8)))

/-- A write of a word of an MSI-X table; unmasking a pending vector sends it. (PRESUMED, log entry 27.) -/
def State.msixWrite (s : State) (port : Port) (off : Nat) (w : Word) : State :=
  let v := (off - msixBase port) / 16
  let w := if off % 16 = 12 then w &&& 1#32 else w
  let s := { s with spn := { s.spn with
    msixTable := SMap.put (if off % 16 = 12 then 1#32 else 0#32) s.spn.msixTable off w } }
  if SMap.look false s.spn.msixPending (32 * port.val + v) && !s.msixMasked port v then
    (s.msixPend port v false).msix port v
  else s

/-- A port's table and pending bits return to their reset (R509). -/
def State.msixReset (s : State) (port : Port) : State :=
  { s with spn := { s.spn with
    msixTable := SMap.wipe s.spn.msixTable (msixBase port) (msixBase port + 0x400)
    msixPending := SMap.wipe s.spn.msixPending (32 * port.val) (32 * port.val + 32) } }

/-! ### Writing to rings (R327, R329) -/

/-- Writes an entry to a pair's ring, then the new count to its control line, then sends its interrupt.
(DESIGN CHOICE, log entry 28.) -/
def State.ringWrite (s : State) (k : PairNum) (r : Fin 2) (entry : List Byte) : State :=
  let port := s.pairPort k
  let n := s.produced k r
  let base := 4096 * s.get (if r = 0 then F.spnMbCmpBaseCmpBase k else F.spnMbEvtBaseEvtBase k)
  let line := 64 * s.get (F.spnMbLineBaseLineBase k)
  let s := s.pcieStore port (base + 64 * (n.toNat % s.ringLen k r)) entry
  let s := s.pcieStore port (line + 8 * r.val) (leBytes 8 (n + 1).toNat)
  let s := { s with spn :=
    if r = 0 then { s.spn with cmpProduced := SMap.put 0 s.spn.cmpProduced k.val (n + 1) }
    else { s.spn with evtProduced := SMap.put 0 s.spn.evtProduced k.val (n + 1) } }
  if s.flag (if r = 0 then F.spnMbCtlIrqCmp k else F.spnMbCtlIrqEvt k) then
    s.msix port (2 * (if s.flag (F.pciLinkBifurcated 0) then k.val % 8 else k.val) + r.val)
  else s

/-- A completion's 64 bytes (R332). -/
def completionBytes (m : Cmd) (comp : Completion) : List Byte :=
  bytesAt m.bytes 0 5 ++ [BitVec.ofNat 8 comp.status] ++ leBytes 2 (m.ref.num.toNat % 65536)
    ++ leBytes 8 comp.time.toNat ++ [if comp.held then 1#8 else 0#8] ++ List.replicate 7 0#8 ++ comp.result

/-! ### Rows of the pair's page -/

/-- Records the IDE stream of a byte or a doorbell (R381). -/
def State.noteIde (s : State) (key : Nat) (ide : Option (Fin 4)) : State :=
  { s with spn := { s.spn with slots := { s.spn.slots with ide := SMap.put none s.spn.slots.ide key ide } } }

/-- One slot byte is written; a waiting command's slot keeps it out (R324). -/
def State.slotByte (s : State) (k : PairNum) (off : Nat) (b : Byte) (ide : Option (Fin 4)) : State :=
  if s.slotWaits k (off / 64) then s
  else
    let key := 2048 * k.val + off
    ({ s with spn := { s.spn with slots := { s.spn.slots with bytes := SMap.put 0 s.spn.slots.bytes key b } } } : State).noteIde
      key ide

/-- A write to the slots of a pair (R324): what falls in waiting commands' slots is dropped, once reported.
(DESIGN CHOICE, log entry 28.) -/
def State.writeSlots (s : State) (k : PairNum) (off : Nat) (data : List Byte) (ide : Option (Fin 4)) : State :=
  let cells := (List.zipIdx data).filter fun x => decide (off + x.2 < 2048)
  let hit := cells.any fun x => s.slotWaits k ((off + x.2) / 64)
  let s := cells.foldl (fun (s : State) (x : Byte × Nat) => s.slotByte k (off + x.2) x.1 ide) s
  if hit then s.pairBusyDrop k else s

/-- A doorbell write (R325). -/
def State.doorbell (s : State) (k : PairNum) (n : Word) (ide : Option (Fin 4)) : State :=
  let rung := s.rung k
  if s.pairEnabled k && decide ((n - rung).toNat ≤ 32) && decide ((n - s.taken k).toNat ≤ 32) then
    let s := (List.range (n - rung).toNat).foldl (fun (s : State) (i : Nat) =>
      s.noteIde (0x8000 + 32 * k.val + (rung.toNat + i) % 32) ide) s
    s.setReg (F.spnMbRungRung k).key n
  else (s.raiseBit (F.spnMbStatusDoorbellBad k)).pairEvent k 0

/-- Outstanding commands of a source (R326). -/
def State.outstanding (s : State) (src : Source) : Nat := (s.spn.cmds.filter fun m => sameSource m.ref.src src).length

/-- Whether a pair holds an outstanding command, which makes it busy (R330). -/
def State.pairBusy (s : State) (k : PairNum) : Bool := s.spn.cmds.any fun m => m.ref.src == .pair k

/-- A pair's counts return to 0 (R330). -/
def State.pairRestart (s : State) (k : PairNum) : State :=
  let keys := [(F.spnMbRungRung k).key, (F.spnMbTakenTaken k).key, (F.spnMbDoneDone k).key,
    (F.spnMbCmpConsumedCmpConsumed k).key, (F.spnMbEvtConsumedEvtConsumed k).key]
  let s := keys.foldl (fun (s : State) (x : Nat) => s.setReg x 0) s
  { s with spn := { s.spn with
    cmpProduced := SMap.put 0 s.spn.cmpProduced k.val 0
    evtProduced := SMap.put 0 s.spn.evtProduced k.val 0
    consumed := SMap.put 0 (SMap.put 0 s.spn.consumed k.val 0) (16 + k.val) 0 } }

/-- A write of SPN_MB_CTL (R330). -/
def State.writePairCtl (s : State) (k : PairNum) (v : Word) : State :=
  let s := (s.set (F.spnMbCtlIrqCmp k) (bitsAt v.toNat 1 1)).set (F.spnMbCtlIrqEvt k) (bitsAt v.toNat 2 1)
  if s.pairBusy k then s.pairBusyDrop k
  else if v.getLsbD 0 && !s.pairEnabled k then (s.pairRestart k).set (F.spnMbCtlEnable k) 1
  else s.set (F.spnMbCtlEnable k) (bitsAt v.toNat 0 1)

/-- Runs a BAR0 row when its port decodes accesses and the pair answers through it (R43, R509). -/
def State.onPair (s : State) (port : Port) (k : PairNum) (f : State → State) : State :=
  if s.portLive port && s.pairOn port k then f s else s

/-- SPN_MB_DOORBELL (R325). -/
def execSpnMbDoorbell (port : Port) (k : PairNum) (v : Word) (ide : Option (Fin 4)) (s : State) :
    Host.Outcome State Fault Refusal :=
  .next (s.onPair port k fun s => s.doorbell k v ide)

/-- A host write to command slots (R323, R324). -/
def execCommandSlotWrite (port : Port) (k : PairNum) (offset : Fin 2048) (data : List Byte) (ide : Option (Fin 4)) (s : State) :
    Host.Outcome State Fault Refusal :=
  .next (s.onPair port k fun s => s.writeSlots k offset.val data ide)

/-- SPN_MB_CTL (R330). -/
def execSpnMbEnable (port : Port) (k : PairNum) (v : Word) (s : State) : Host.Outcome State Fault Refusal :=
  .next (s.onPair port k fun s => s.writePairCtl k v)

/-- SPN_MB_CMP_CONSUMED (R328). -/
def execSpnMbCmpConsumed (port : Port) (k : PairNum) (v : Word) (s : State) : Host.Outcome State Fault Refusal :=
  .next (s.onPair port k fun s => s.writeConsumed k 0 v)

/-- SPN_MB_EVT_CONSUMED (R328). -/
def execSpnMbEvtConsumed (port : Port) (k : PairNum) (v : Word) (s : State) : Host.Outcome State Fault Refusal :=
  .next (s.onPair port k fun s => s.writeConsumed k 1 v)

/-! ### Taking commands (R321, R324, R326, R357) -/

/-- Whether Spindle takes commands: lomlet_ready, and no planned swap waits for its final snapshot (R326, R364). -/
def State.takesCommands (s : State) : Bool := s.flag F.spnStatusLomletReady && s.twn.swap.isNone

/-- The next command frame that may be taken: the first of a session with fewer than 32 outstanding commands (R326, R517). -/
def State.nextFrame (s : State) : Option (Fin 2 × List Byte × List Byte) :=
  s.spn.mgmtQ.find? fun q => decide ((s.spn.cmds.filter fun m => m.ref.src == .mgmt q.1 && !m.orphan).length < 32)

/-- Whether a source, 0 to 15 a pair and 16 the management channel, has a command that Spindle may take.
(DEDUCED, log entry 30.) -/
def State.canTake (s : State) (i : Nat) : Bool :=
  match allPairs[i]? with
  | some k =>
    s.pairEnabled k && s.taken k != s.rung k && decide (s.outstanding (.pair k) < 32)
      && !(s.spn.cmds.any fun m => m.ref.src == .pair k && m.phase == .entering)
  | none =>
    s.nextFrame.isSome && !(s.spn.cmds.any fun m => sameSource m.ref.src (.mgmt 0) && m.phase == .entering)

/-- The source served next (R326). -/
def State.nextSource (s : State) : Option Nat :=
  ((List.range 17).map fun i => (s.spn.served + 1 + i) % 17).find? fun i => s.canTake i

/-- The IDE stream on which all of a command's slot writes and its doorbell arrived (R381). -/
def State.slotIde (s : State) (k : PairNum) (j : Nat) : Option (Fin 4) :=
  let bell := SMap.look none s.spn.slots.ide (0x8000 + 32 * k.val + j)
  if (List.range 64).all fun o => SMap.look none s.spn.slots.ide (2048 * k.val + 64 * j + o) == bell then bell else none

/-- Takes a command: its bytes leave their slot or frame, and its taken entry is owed to the ledger; without a ledger it
counts as taken at once (R324, R357, R458). -/
def State.takeCmd (s : State) (i : Nat) (m : Cmd) : State :=
  let s := { s with spn := { s.spn with served := i } }
  let m := { m with taken := s.time }
  if s.twn.ledger.placed then
    ({ s with spn := { s.spn with cmds := s.spn.cmds ++ [{ m with phase := .entering }] } } : State).ledger (.taken m.ref m.bytes)
  else
    let s := { s with spn := { s.spn with cmds := s.spn.cmds ++ [m] } }
    match m.ref.src with
    | .pair k => s.setReg (F.spnMbTakenTaken k).key (m.ref.num + 1)
    | .mgmt _ => { s with spn := { s.spn with mgmtTaken := m.ref.num + 1 } }

/-- Spindle takes the next command of a source (R326). -/
def execCommandTake (src : Source) (s : State) : Host.Outcome State Fault Refusal :=
  .next (
    let mk := fun (num : Word) bytes extra ide => ({
      ref := ⟨src, num⟩, bytes := bytes, extra := extra, ide := ide, orphan := false, phase := .waiting
      wait := .none, comp := none, taken := 0, started := 0 } : Cmd)
    match src with
    | .pair k =>
      if s.takesCommands && s.nextSource == some k.val then
        let num := s.taken k
        let j := num.toNat % 32
        s.takeCmd k.val (mk num (SMap.slice 0 s.spn.slots.bytes (2048 * k.val + 64 * j) 64) [] (s.slotIde k j))
      else s
    | .mgmt _ =>
      match s.nextFrame with
      | some q =>
        if s.takesCommands && s.nextSource == some 16 && src == .mgmt q.1 then
          ({ s with spn := { s.spn with mgmtQ := s.spn.mgmtQ.erase q } } : State).takeCmd 16
            (mk s.spn.mgmtTaken q.2.1 q.2.2 none)
        else s
      | none => s)

/-! ### Checks (R322, R333, R377, R381) -/

/-- The opcodes of the command tables with how they name a partition (0 None, 1 p, 2 p or None) and the argument bytes
they use (R239, R274, R339 to R343). -/
def opTable : List (Nat × Nat × List (Nat × Nat)) := [
  (0x0101, 0, []), (0x0102, 0, []), (0x0103, 0, []), (0x0104, 0, []), (0x0105, 0, []),
  (0x0201, 1, [(8, 18), (28, 12)]), (0x0202, 1, []), (0x0203, 1, [(8, 1)]), (0x0204, 1, [(8, 1)]),
  (0x0205, 1, [(8, 16)]), (0x0206, 1, []),
  (0x0301, 1, [(8, 4)]), (0x0302, 1, [(8, 8)]), (0x0303, 1, [(8, 3), (16, 16)]), (0x0304, 1, [(8, 3), (16, 16)]),
  (0x0305, 1, [(8, 12)]), (0x0306, 1, []), (0x0307, 1, [(8, 16)]), (0x0308, 1, [(8, 8)]),
  (0x0401, 1, [(8, 8)]), (0x0402, 1, [(8, 4)]), (0x0403, 1, [(8, 4)]), (0x0404, 1, [(8, 4)]), (0x0405, 1, [(8, 6)]),
  (0x0501, 1, [(8, 8)]), (0x0502, 1, [(8, 1)]), (0x0503, 1, [(8, 1), (12, 20)]), (0x0504, 1, [(8, 1)])]

/-- The later families of the command tables (R343). -/
def opTable2 : List (Nat × Nat × List (Nat × Nat)) := [
  (0x0601, 0, [(8, 2)]), (0x0602, 0, [(8, 2)]), (0x0603, 1, [(8, 2)]), (0x0604, 0, [(8, 2)]), (0x0605, 2, []),
  (0x0701, 0, [(8, 10)]), (0x0702, 0, []), (0x0703, 0, [(8, 1), (12, 4)]), (0x0704, 0, [(8, 1)]),
  (0x0801, 2, [(8, 40)]), (0x0802, 1, [(8, 4)]), (0x0803, 1, [(8, 24)]), (0x0804, 1, [(8, 2)]), (0x0805, 0, [(8, 1)]),
  (0x0806, 1, []),
  (0x0901, 0, [(8, 4)]), (0x0902, 0, []), (0x0903, 0, []), (0x0904, 0, []),
  (0x0A01, 0, []), (0x0A02, 0, [(8, 1)]), (0x0A03, 0, [(8, 4)]), (0x0A04, 0, [])]

/-- An opcode's row. -/
def opRow (op : Nat) : Option (Nat × List (Nat × Nat)) := ((opTable ++ opTable2).find? fun r => r.1 == op).map (·.2)

/-- Whether a source accepts an opcode (R322); no source accepts an opcode of a family that the table lacks. -/
def sourceAccepts (tenant device : Bool) (op : Nat) : Bool :=
  let fam := op / 256
  if fam = 0 ∨ 0x0A < fam then false
  else if tenant then
    (fam == 1 && (op == 0x0101 || op == 0x0103)) || op == 0x0206 || fam == 3 || fam == 4 || fam == 5 || op == 0x0605
      || (decide (0x0801 ≤ op) && decide (op ≤ 0x0804))
  else if device then (decide (fam ≤ 7)) || op == 0x0801 || fam == 0x0A
  else fam == 1 || fam == 2 || fam == 6 || fam == 7 || op == 0x0805 || op == 0x0806 || fam == 9 || fam == 0x0A

/-- The partition that a command concerns: the one it names, or the pair's own for PWR_QUERY from a tenant pair (R436). -/
def State.concerns (s : State) (m : Cmd) : Option PartNum :=
  match m.part? with
  | some p => some p
  | none => if m.op = 0x0605 then s.sourcePart m.ref.src else none

/-- Check 1 of R333: the source rules of R322, and the anchor rule of R400. -/
def State.sourceDenied1 (s : State) (m : Cmd) : Bool :=
  let own := s.sourcePart m.ref.src
  let device := match m.ref.src with
    | .pair _ => own.isNone
    | .mgmt _ => false
  let root := match m.ref.src with
    | .mgmt x => (s.coc.tls[x.val]).any fun t => t.anchor.isNone
    | .pair _ => false
  !sourceAccepts own.isSome device m.op || (own.isSome && m.part?.isSome && m.part? != own) || (root && m.op != 0x0102)

/-- Whether a tenant pair's command did not arrive on the IDE stream bound to its sealed partition (R381). -/
def State.offStream (s : State) (m : Cmd) : Bool :=
  match m.ref.src, s.sourcePart m.ref.src with
  | .pair k, some p => s.isSealed p && s.bit F.cocSealIde p &&
    !(match m.ide with
      | some st => (s.stream (s.pairPort k) st).part == some p
      | none => false)
  | _, _ => false

/-- The other world rules of R381: whether a command on a sealed partition is denied. (DEDUCED, log entry 29.) -/
def State.worldDenied (s : State) (m : Cmd) : Bool :=
  let fam := m.op / 256
  let own := s.sourcePart m.ref.src
  let named := match s.concerns m with
    | some p => s.isSealed p &&
      ((m.op == 0x0303 && m.arg 9 1 == 1)
        || (own.isNone && decide (3 ≤ fam) && decide (fam ≤ 5) && m.op != 0x0404 && m.op != 0x0504)
        || (s.sessionEnded p && !(m.op == 0x0206 || m.op == 0x0404 || m.op == 0x0504 || m.op == 0x0605 || m.op == 0x0202
          || m.op == 0x0806)))
    | none => false
  s.offStream m || named

/-- The life-cycle rules of R377. (DEDUCED, log entry 29.) -/
def State.lifecycleDenied (s : State) (m : Cmd) : Bool :=
  (s.lifecycle == 3 && m.op != 0x0101 && m.op != 0x0102)
    || (s.lifecycle == 2 && decide (0x0801 ≤ m.op) && decide (m.op ≤ 0x0804))

/-- Check 2 of R333: opcode, partition byte, reserved bits and unused argument bytes. (DEDUCED, log entry 29.) -/
def State.malformed (s : State) (m : Cmd) : Bool :=
  match opRow m.op with
  | none => true
  | some (form, used) =>
    let noneOk := form == 0 || (m.op == 0x0605) || (m.op == 0x0801 && (s.sourcePart m.ref.src).isNone)
    let formOk := (decide (m.partByte < 8) && form != 0) || (m.partByte == 0xFF && noneOk)
    let isUsed := fun i => used.any fun u => decide (u.1 ≤ i) && decide (i < u.1 + u.2)
    let clean := (List.range 56).all fun i => isUsed (8 + i) || m.arg (8 + i) 1 == 0
    !formOk || decide (2 ≤ m.flags) || m.arg 6 2 != 0 || !clean || (m.op == 0x0201 && decide (8 ≤ m.arg 9 1))
      || (m.op == 0x0201 && bitsAt (m.arg 9 1) 2 1 == 0 && m.arg 28 8 != 0)
      || (m.op == 0x0602 && (decide (2 ≤ m.arg 8 1) || decide (2 ≤ m.arg 9 1)))
      || (m.op == 0x0701 && (decide (16 ≤ m.arg 16 1) || decide (2 ≤ m.arg 17 1)))

/-- The first check that a command fails (R333, with R377 and R381); none when it may run. (DEDUCED, log entry 29.) -/
def State.checkCmd (s : State) (m : Cmd) : Option Nat :=
  let fam := m.op / 256
  let p := s.concerns m
  if s.sourceDenied1 m || s.worldDenied m then some stDenied
  else if s.malformed m then some stBad
  else if s.lifecycleDenied m then some stLifecycle
  else if p.any fun p => (s.part p).destroying then some stBusy
  else if p.any (fun p => !(s.part p).live) && m.op != 0x0201 then some stBad
  else if (s.flag F.spnStatusDraining || s.flag F.spnStatusDrained) && decide (2 ≤ fam) && decide (fam ≤ 5) then some stBusy
  else none

/-- Whether an earlier command of the same source holds a command (R334): an ordered one waits for them all, and any
waits for an earlier ordered one. (DEDUCED, log entry 30.) -/
def heldBy (m : Cmd) : List Cmd → Bool
  | [] => false
  | x :: t => if x.ref = m.ref then false else (sameSource x.ref.src m.ref.src && (m.ordered || x.ordered)) || heldBy m t

/-- The command that Spindle starts next: the first waiting one that nothing holds, while none is being run (R334). -/
def State.nextStart (s : State) : Option Cmd :=
  if s.spn.cmds.any fun m => m.phase == .started then none
  else s.spn.cmds.find? fun m => m.phase == .waiting && !heldBy m s.spn.cmds

/-- Spindle starts a command (R333, R334): a failed check completes it, and a command off its stream counts in
COC_NS_DROP (R381, R407); otherwise its own row follows. -/
def execCommandStart (s : State) : Host.Outcome State Fault Refusal :=
  .next (if !s.startsCommands then s
    else match s.nextStart with
      | none => s
      | some m =>
        let s := if s.offStream m then s.bump F.cocNsDropDenied else s
        let s' := s.modCmd m.ref fun m => { m with phase := .started, started := s.time }
        match s.checkCmd m with
        | some st => s'.complete m.ref st
        | none => s')

/-! ### Writing completions (R327, R328, R332, R336) -/

/-- Forgets a command whose completion is written, and counts it (R330, R351). -/
def State.finishCmd (s : State) (m : Cmd) (status : Nat) : State :=
  let s := { s with spn := { s.spn with
    cmds := s.spn.cmds.filter fun (x : Cmd) => x.ref != m.ref
    writer := s.spn.writer.filter fun (x : CmdRef) => x != m.ref } }
  if m.orphan then s
  else
    let s := s.bump F.spnCmdsCommands
    if status = stOk ∨ status = stSettling ∨ status = stLmsLow then s else s.bump F.spnCmdFailFailed

/-- Whether the completion writer holds everything: a switch-over gap or an activation pause (R336, R365, R475). -/
def State.writerHeld (s : State) : Bool := s.flag F.twnStatusGap || s.board.update.pauseAt.isSome

/-- The completion writer writes the oldest completion of a source (R327, R328); a closed session's is discarded
(R517). -/
def execCompletionWrite (src : Source) (s : State) : Host.Outcome State Fault Refusal :=
  .next (if s.writerHeld || s.board.fenced then s
    else
      let mine := s.spn.writer.filterMap fun r => if r.src = src then s.cmd r else none
      match mine with
      | [] => s
      | m :: _ =>
        match m.comp with
        | none => s
        | some comp =>
          match src with
          | .pair k =>
            if s.ringRoom k 0 then
              let s := (s.ringWrite k 0 (completionBytes m comp))
              (s.setReg (F.spnMbDoneDone k).key (s.reg (F.spnMbDoneDone k).key + 1)).finishCmd m comp.status
            else s
          | .mgmt x =>
            if m.orphan then s.finishCmd m comp.status
            else (s.send (.mgmtFrame x 3 (completionBytes m comp))).finishCmd m comp.status)

end Sys2Proof.Machine
end

