-- ==== Sys2Proof/Machine/Registers.lean ====
section
/-!
DEFINITION. Register reads and writes (R10 to R18): the values that registers show, the access classes, the latches of
64-bit registers (R11), the block that is busy (R15), the world rules of R383, R497 and R512, and the rows of registers
that start something.
-/

namespace Sys2Proof.Machine

/-- One bit as a number. -/
def bitNum (b : Bool) : Nat := if b then 1 else 0

/-- A map of the arrays for which something holds. -/
def State.arrayMap (s : State) (f : ArrayState → Bool) : Nat :=
  (allArrays.map fun (n : ArrayNum) => if f (s.arr n) then 2 ^ n.val else 0).sum

/-- The index a register copy has in its row. -/
def copyOf (base stride off : Nat) : Nat := (off - base) / stride

/-! ### Values that follow the machine's state -/

/-- A stored word with some bits taken from the state. -/
def State.withLive (s : State) (key : Nat) (fs : List (Nat × Nat × Nat)) : Nat :=
  fs.foldl (fun v f => withBits v f.1 f.2.1 f.2.2) (s.reg key).toNat

/-- What an array's register shows when it is not just stored (R110, R111, R134, R163). clock_stopped reads 1 during a drain
before a power-gate as well, and during a re-lock (R421). (DESIGN CHOICE, log entry 74.) -/
def State.arrayLive (s : State) (n : ArrayNum) (off : Nat) : Option Nat :=
  let a := s.arr n
  if off = 0 then
    some (s.withLive (regKey n 0) [(0, 1, bitNum (s.busy n)), (4, 1, bitNum (a.power == .clockStopped || a.power == .draining || decide (0 < a.clockHold))),
      (5, 1, bitNum (a.power == .gated)), (6, 1, bitNum a.restaging), (7, 1, bitNum (!s.usable n))])
  else if off = 0x1C then some (a.pc % 2 ^ 23)
  else if off = 0x2014 then some ((a.kwait.map fun k => k.knot % 2048 + 2 ^ 31).getD 0)
  else if off = 0x2018 then some ((a.kwait.map fun k => k.value.toNat).getD 0)
  else if off = 0x201C then some (a.rmoQ.length % 8)
  else if 0x4000 ≤ off ∧ off < 0x6000 then some (s.knot n (copyOf 0x4000 4 off)).toNat
  else if off = 0x8000 then some (s.withLive (regKey n 0x8000) [(0, 1, bitNum (a.clear != .none))])
  else if 0x8100 ≤ off ∧ off < 0x8280 then
    some (leNat ((List.range 4).map fun i => s.vtag n (4 * copyOf 0x8100 4 off + i)))
  else none

/-- What a reel register shows when it is not just stored (R208, R209). -/
def State.reelLive (s : State) (off : Nat) : Option Nat :=
  if off = 0x14 then some (s.mapEntry (s.get F.reelMapIndexIndex)).toNat
  else if 0x20 ≤ off ∧ off < 0x40 then some (s.seqWord (s.get F.reelSeqIndexIndex) (copyOf 0x20 4 off)).toNat
  else
    match allParts[copyOf 0x1000 0x80 off]? with
    | none => none
    | some p =>
      if off < 0x1000 then none
      else if off % 0x80 = 0x28 then some (s.framePool p).length
      else if off % 0x80 = 0x2C then some (s.slotPool p).length
      else if off % 0x80 = 0x30 then some (s.seqsIn p 2).length
      else if off % 0x80 = 0x4C then
        some ((s.arraysOf p).foldl (fun (m : Option Nat) n =>
          some (min (m.getD (s.fbPool n).length) (s.fbPool n).length)) none |>.getD 0)
      else none

/-- What the shuttle's SHT_CREDIT registers show (R320); instances 1 to 3 have no requester 9. -/
def State.shuttleLive (s : State) (off : Nat) : Option Nat :=
  match (List.finRange 4)[copyOf 0x1000 0x400 off]? with
  | none => none
  | some i =>
    let d := off % 0x400
    if 0x1000 ≤ off ∧ d = 0 then
      some (s.withLive (regKey 0x43 off) [(3, 1, bitNum (s.shtActive i && s.shtOver i))])
    else
    match (List.finRange 10)[copyOf 0x100 0x20 d]? with
    | none => none
    | some r =>
      if off < 0x1000 ∨ d < 0x100 then none
      else if shtCount i ≤ r.val then some 0
      else if (d - 0x100) % 0x20 = 8 then some (s.sht[i.val].creditWord r).toNat
      else none

/-- Two mailbox pairs' bindings as SPN_PAIR_BIND shows them (R351). -/
def State.pairBinds (s : State) (j : Nat) : Nat :=
  ((List.range 8).map fun i =>
    match allPairs[8 * j + i]? with
    | some k => (match s.pairPart k with
      | some p => (p.val + 8) * 16 ^ i
      | none => 0)
    | none => 0).sum

/-- What a register of a window shows when it is not just stored. (DESIGN CHOICE, log entry 23.) -/
def State.liveValue (s : State) (b off : Nat) : Option Nat :=
  match allArrays[b]? with
  | some n => s.arrayLive n off
  | none =>
    if b = 0x40 then s.reelLive off
    else if b = 0x43 then s.shuttleLive off
    else if b = 0x44 then
      if off = 0 then some (s.withLive (regKey 0x44 0) [(1, 1, bitNum (!s.tierClears.isEmpty))])
      else if 0x10000 ≤ off ∧ off < 0x20000 then
        some (leNat ((List.range 4).map fun i => s.ttag (4 * copyOf 0x10000 4 off + i)))
      else none
    else if b = 0x45 ∧ (off = 0x40 ∨ off = 0x44) then some (s.pairBinds (copyOf 0x40 4 off))
    else if b = 0x48 ∧ off = 0x10 then some (s.arrayMap fun a => a.power != .running)
    else if b = 0x48 ∧ off = 0x18 then some (s.arrayMap fun a => a.power == .gated)
    else if b = 0x48 ∧ off = 0x24 ∧ s.flag F.pwrStatusReady then
      some (min 65535 ((s.flash.agedTicks + (s.time - s.pm.replanAt).toNat) / 360000000000))
    else if b = 0x49 ∧ off = 0 then
      some (s.withLive (regKey 0x49 0) [(4, 1, bitNum (allArrays.any fun (n : ArrayNum) => (s.arr n).warming))])
    else if b = 0x4C ∧ off = 8 then some s.time.toNat
    else none

/-- The value of a register: 64 bits for a wide one. Write-only fields are stored as 0. -/
def State.regValue (s : State) (b off : Nat) (wide : Bool) : Nat :=
  match s.liveValue b off with
  | some v => v
  | none => if wide then s.reg64 (regKey b off) else (s.reg (regKey b off)).toNat

/-! ### The block that is busy (R15, R119, R163, R164, R209, R210, R330) -/

/-- The partition of a reel offset. -/
def reelPart (off : Nat) : Option PartNum := if off < 0x1000 then none else allParts[copyOf 0x1000 0x80 off]?

/-- Whether a window's RWL fields at an offset are locked. (DESIGN CHOICE, log entry 25.) -/
def State.locked (s : State) (b off : Nat) : Bool :=
  match allArrays[b]? with
  | some n => if 0x8000 ≤ off ∧ off < 0xA000 then (s.arr n).clear != .none else s.busy n
  | none =>
    if b = 0x40 then
      (reelPart off).any fun p => (s.reel.steps[p.val]).isSome || (s.seqRange p).any fun i => s.seqState i != 0
    else if b = 0x44 then decide (16 ≤ s.tierClears.length)
    else if b = 0x4D then s.windowBusy (copyOf 0x1000 0x20 off)
    else false

/-- CFG_WRITE_BUSY of a window's block (R15): the status bit and the record. (DESIGN CHOICE, log entry 25.) -/
def State.lockedDrop (s : State) (b off : Nat) : State :=
  match allArrays[b]? with
  | some n =>
    (s.raiseBit (if 0x8000 ≤ off ∧ off < 0xA000 then F.vltStatusCfgWriteBusy n else F.arrStatusCfgWriteBusy n)).cfgWriteBusy
      b 0 (s.partOf n)
  | none =>
    if b = 0x40 then (s.raiseBit F.reelStatusCfgWriteBusy).cfgWriteBusy b 0 (reelPart off)
    else if b = 0x44 then (s.raiseBit F.tierStatusCfgWriteBusy).cfgWriteBusy b 0 none
    else
      let w := copyOf 0x1000 0x20 off
      (s.raiseBit (F.pciWinStatCfgWriteBusy w)).cfgWriteBusy b 0 allParts[s.get (F.pciWinCtlPartition w)]?

/-! ### Writing under the access classes (R11 to R18) -/

/-- One field's write; a staged field's goes to its shadow copy. -/
def State.writeField (s : State) (key : Nat) (lock : Bool) (f : FieldDef) (v : Nat) : State :=
  let x := bitsAt v f.lo f.width
  match f.access with
  | .rw => s.set ⟨key, f.lo, f.width, false⟩ x
  | .rws => s.set ⟨key + 0x80000, f.lo, f.width, false⟩ x
  | .rwl => if lock then s else s.set ⟨key, f.lo, f.width, false⟩ x
  | .w1c => s.setReg key (s.reg key &&& ~~~(BitVec.ofNat 32 (x * 2 ^ f.lo)))
  | .ro => s
  | .wo => s

/-- A write of one word of a 64-bit register (R11): the low word waits in the latch, the high word brings both in. -/
def State.writeWide (s : State) (key : Nat) (high : Bool) (f : FieldDef) (v : Word) : State :=
  if high then
    let low := (SMap.look none s.latchW key).getD (s.reg key)
    let s := { s with latchW := SMap.put none s.latchW key none }
    s.set ⟨key, f.lo, f.width, true⟩ (bitsAt (low.toNat + 2 ^ 32 * v.toNat) f.lo f.width)
  else { s with latchW := SMap.put none s.latchW key (some v) }

/-- Whether a register row holds a field of a class. -/
def RegDef.has (r : RegDef) (c : Access) : Bool := r.fields.any fun f => f.access == c

/-- A write to a register of a lower half, given whether its block is busy and what a dropped RWL write does; `may` says
which fields the requester may write. (DESIGN CHOICE, log entry 23.) -/
def State.writeHit (s : State) (key : Nat) (h : RegHit) (lock : Bool) (drop : State → State) (may : FieldDef → Bool) (v : Word) :
    State :=
  let fs := h.row.fields.filter may
  let t :=
    if h.row.wide then
      match fs with
      | f :: _ => if f.access = .rwl ∧ lock = false then s.writeWide key h.high f v else s
      | [] => s
    else fs.foldl (fun s f => s.writeField key lock f v.toNat) s
  if lock && fs.any (fun f => f.access == .rwl) then drop t else t

/-- A write to an upper half: only staged fields take it (R13). (DESIGN CHOICE, log entry 23.) -/
def State.writeShadow (s : State) (key : Nat) (h : RegHit) (may : FieldDef → Bool) (v : Word) : State :=
  (h.row.fields.filter fun f => f.access == .rws && may f).foldl (fun s f => s.writeField key false f v.toNat) s

/-! ### World rules (R383, R497) -/

/-- Whether a requester belongs to the non-secure world of R378. -/
def nonSecure : Requester → Bool
  | .host _ => true
  | .peer _ => true
  | _ => false

/-- Whether an array's window is closed to the non-secure world but for ARR_STATUS: it belongs to a sealed partition. -/
def State.arraySealed (s : State) (n : ArrayNum) : Bool := (s.partOf n).any fun p => s.isSealed p

/-- Which fields of a window the non-secure world may write at an offset (R383). (DESIGN CHOICE, log entry 26.) -/
def State.mayWrite (s : State) (b off : Nat) (f : FieldDef) : Bool :=
  match allArrays[b]? with
  | some n => !s.arraySealed n && !(off == 0x8014 || off == 0x8018 || off == 0x801C)
  | none =>
    f.access == .w1c || (b == 0x40 && (off == 0x10 || off == 0x18)) || (b == 0x44 && off == 0x14)

/-- Whether a non-secure write is denied in whole or in part: it sets bits that the rules keep from it, or it finds
nothing it may write (assumption log). (DESIGN CHOICE, log entry 26.) -/
def State.writeDenied (s : State) (b off : Nat) (h : RegHit) (v : Word) : Bool :=
  match allArrays[b]? with
  | some n => s.arraySealed n || off == 0x8014 || off == 0x8018 || off == 0x801C
  | none =>
    let ok := if 0x80000 ≤ off then [] else h.row.fields.filter fun f => s.mayWrite b off f
    let open_ := ok.foldl (fun (m : Nat) f => m + (2 ^ f.width - 1) * 2 ^ f.lo) 0
    ok.isEmpty || (v.toNat &&& (2 ^ 32 - 1 - open_)) != 0

/-- Whether a non-secure read is denied (R383, R497). (DESIGN CHOICE, log entry 26.) -/
def State.readDenied (s : State) (b off : Nat) : Bool :=
  match allArrays[b]? with
  | some n => s.arraySealed n && off != 0
  | none =>
    let sealedPart := fun p => (allParts[p]?).any fun p => s.isSealed p
    if b = 0x40 ∧ off = 0x14 then
      allParts.any fun p => s.isSealed p && decide (s.get (F.reelPMapBaseBase p) ≤ s.get F.reelMapIndexIndex)
        && decide (s.get F.reelMapIndexIndex < s.get (F.reelPMapBaseBase p) + s.get (F.reelPMapCountCount p))
    else if b = 0x40 ∧ 0x20 ≤ off ∧ off < 0x40 then
      allParts.any fun p => s.isSealed p && s.seqIn p (s.get F.reelSeqIndexIndex)
    else if b = 0x4C ∧ 0x200 ≤ off ∧ off < 0x240 then sealedPart (copyOf 0x200 8 off)
    else false

/-! ### Registers that start something -/

/-- ARR_KERNEL_GO (R107). -/
def State.goWrite (s : State) (n : ArrayNum) (v : Word) : State := if v.getLsbD 0 then s.kernelGo n else s

/-- VLT_CLEAR_GO (R158). -/
def State.vltGoWrite (s : State) (n : ArrayNum) (v : Word) : State :=
  if v.getLsbD 0 then s.vaultClear n (s.get (F.vltClearFirstFirst n)) (s.get (F.vltClearCountCount n)) else s

/-- TIER_CLEAR_GO (R159). -/
def State.tierGoWrite (s : State) (v : Word) : State :=
  if v.getLsbD 0 then
    s.tierClear (s.get F.tierClearFirstFirst) (s.get F.tierClearCountCount) (s.flag F.tierClearCountRekey)
      (s.get F.tierClearCountSlot)
  else s

/-- What a write to a window's register starts beside its stored fields. -/
def State.writeAction (s : State) (b off : Nat) (v : Word) : State :=
  match allArrays[b]? with
  | some n =>
    if off = 0x18 then s.goWrite n v
    else if off = 0x2010 then s.kntSignal n v
    else if off = 0x801C then s.vltGoWrite n v
    else s
  | none =>
    if b = 0x40 ∧ off % 0x80 = 0x40 then
      match reelPart off with
      | some p => s.reelGoWrite p v
      | none => s
    else if b = 0x44 ∧ off = 0x20 then s.tierGoWrite v
    else if b = 0x43 ∧ off = 0 then s.shtCommitWrite v
    else s

/-- A write of a reel enable from 0 to 1 sets the partition's pools to their state at creation (R177, R209).
(DESIGN CHOICE, log entry 23.) -/
def State.reelEnabled (s t : State) (b off : Nat) : State :=
  match (if b = 0x40 ∧ off % 0x80 = 0 then reelPart off else none) with
  | some p => if !s.flag (F.reelPCtlEnable p) && t.flag (F.reelPCtlEnable p) then t.fillPools p else t
  | none => t

/-- A write of a patrol's enable from 0 to 1 starts a pass (R161). (DESIGN CHOICE, log entry 70.) -/
def State.patrolEnabled (s t : State) (b off : Nat) : State :=
  if b = 0x44 ∧ off = 0x14 then
    (if !s.flag F.tierPatrolCtlEnable && t.flag F.tierPatrolCtlEnable then t.patrolStart 64 else t)
  else match allArrays[b]? with
    | some n =>
      if off = 0x8010 ∧ !s.flag (F.vltPatrolCtlEnable n) ∧ t.flag (F.vltPatrolCtlEnable n) then t.patrolStart b else t
    | none => t

/-! ### A requester's access through BAR2 or the register range (R10, R37, R38, R40) -/

/-- The block that reports a bad access to a window: its own, or the PCIe block where none is assigned (R484).
(DESIGN CHOICE, log entry 24.) -/
def accessSource (b : Nat) : Nat := if (windowRegs b).isEmpty then 0x04D else b

/-- An access error of a register access (R487): 7 a sub-word access, 1 a reserved address.
(DESIGN CHOICE, log entry 24.) -/
def State.regError (s : State) (b off cause : Nat) : State :=
  s.accessError (accessSource b) 0xFFFF cause 2 (b % 256) none (some (0xF000000000 + b * 0x100000 + off))

/-- Whether a window answers nothing: unassigned, or of an unusable array (R37, R38), or of one whose memory section has no power
(R440, R458). (DESIGN CHOICE, log entries 24, 54.) -/
def State.windowDead (s : State) (b : Nat) : Bool :=
  match allArrays[b]? with
  | some n => !s.powered n
  | none => (windowRegs b).isEmpty

/-- The MSI-X table or pending array of a port at an offset of the PCIe window (R512): the port, and whether it is the
table. -/
def State.msixAt (s : State) (b off : Nat) : Option (Port × Bool) :=
  let inside := fun (base : Nat) (port : Port) (len : Nat) =>
    decide (base + 0x400 * port.val ≤ off) && decide (off < base + 0x400 * port.val + len) && s.portOk port.val
  if b ≠ 0x4D then none
  else if inside 0x2000 0 (16 * s.msixCount 0) then some (0, true)
  else if inside 0x2000 1 (16 * s.msixCount 1) then some (1, true)
  else if inside 0x3000 0 8 then some (0, false)
  else if inside 0x3000 1 8 then some (1, false)
  else none

/-- A word of a port's pending bit array. -/
def State.msixPba (s : State) (port : Port) (off : Nat) : Nat :=
  ((List.range 32).map fun v =>
    if off % 8 = 0 ∧ SMap.look false s.spn.msixPending (32 * port.val + v) then 2 ^ v else 0).sum

/-- The offsets where instances 1 to 3 of the shuttle arbiter would have a requester 9 (R305).
(DESIGN CHOICE, log entry 23.) -/
def absentReg (b off : Nat) : Bool :=
  b == 0x43 && decide (0x1400 ≤ off) && decide (off < 0x2000) && decide (0x220 ≤ off % 0x400)

/-- Writes a register of a window. (DESIGN CHOICE, log entry 23.) -/
def State.writeWindow (s : State) (by_ : Requester) (b off : Nat) (v : Word) : State :=
  if s.windowDead b then (if b < 64 ∧ off = 0 then s else s.regError b off 1)
  else match s.msixAt b off with
    | some (port, table) => if table then s.msixWrite port off v else s
    | none =>
      match (if absentReg b (off % 0x80000) then none else findReg (windowRegs b) (off % 0x80000)) with
      | none =>
        if nonSecure by_ && (allArrays[b]?).all (fun n => s.arraySealed n) then s.bump F.cocNsDropDenied else s
      | some h =>
        let base := off % 0x80000 - (if h.high then 4 else 0)
        let ns := nonSecure by_
        let s := if ns && s.writeDenied b (if off < 0x80000 then base else off) h v then s.bump F.cocNsDropDenied else s
        let may := fun f => !ns || s.mayWrite b base f
        if 0x80000 ≤ off then s.writeShadow (regKey b base) h may v
        else if b < 64 ∧ 0x4000 ≤ off ∧ off < 0x6000 then
          (match allArrays[b]? with
          | some n => if ns && s.arraySealed n then s else s.writeKnot n (copyOf 0x4000 4 off) v
          | none => s)
        else
          let t := s.writeHit (regKey b base) h (s.locked b base) (fun t => t.lockedDrop b base) may v
          let t := s.patrolEnabled (s.reelEnabled t b base) b base
          if h.row.fields.any fun f => f.access == .wo && may f then t.writeAction b base v else t

/-- Reads a register of a window: the state after, and the word. (DESIGN CHOICE, log entry 23.) -/
def State.readWindow (s : State) (by_ : Requester) (b off : Nat) : State × Nat :=
  if s.windowDead b then (if b < 64 ∧ off = 0 then (s, 0x80) else (s.regError b off 1, 0))
  else match s.msixAt b off with
    | some (port, table) => (s, if table then (s.msixWord off).toNat else s.msixPba port off)
    | none =>
      match (if absentReg b (off % 0x80000) then none else findReg (windowRegs b) (off % 0x80000)) with
      | none => (s, 0)
      | some h =>
        let base := off % 0x80000 - (if h.high then 4 else 0)
        if nonSecure by_ && s.readDenied b base then (s.bump F.cocNsDropDenied, 0)
        else if 0x80000 ≤ off then
          (s, if h.row.has .rws then (s.reg (regKey b base + 0x80000)).toNat else 0)
        else if h.row.wide then
          let key := regKey b base
          let v := s.regValue b base true
          if h.high then
            ({ s with latchR := SMap.put none s.latchR key none },
              ((SMap.look none s.latchR key).map (·.toNat)).getD (v / 2 ^ 32 % 2 ^ 32))
          else ({ s with latchR := SMap.put none s.latchR key (some (BitVec.ofNat 32 (v / 2 ^ 32))) }, v % 2 ^ 32)
        else (s, s.regValue b base false)

/-- The port a requester's access arrives on. -/
def portOf : Requester → Option Port
  | .host p => some p
  | .peer p => some p
  | _ => none

/-! ### A pair's page (R323, R330) -/

/-- Whether a pair register's RWL fields are locked (R330): an outstanding command, or, for the ring registers, enable.
(DESIGN CHOICE, log entry 25.) -/
def State.pairLocked (s : State) (k : PairNum) (off : Nat) : Bool := s.pairBusy k || (off != 0x800 && s.pairEnabled k)

/-- Writes an aligned word of a pair's page. -/
def State.writePair (s : State) (k : PairNum) (o : Nat) (v : Word) : State :=
  if o = 0x800 then s.writePairCtl k v
  else if o = 0x808 then s.doorbell k v none
  else if o = 0x838 then s.writeConsumed k 0 v
  else if o = 0x83C then s.writeConsumed k 1 v
  else match findReg pairRegs o with
    | none => s
    | some h =>
      let base := o - (if h.high then 4 else 0)
      s.writeHit (pairKey k base) h (s.pairLocked k base) (fun t => t.pairBusyDrop k) (fun _ => true) v

/-- Reads an aligned word of a pair's page. -/
def State.readPair (s : State) (port : Port) (k : PairNum) (o : Nat) : State × Nat :=
  if o < 0x800 then (s, leNat (SMap.slice 0 s.spn.slots.bytes (2048 * k.val + o) 4))
  else if o = 0x804 then
    (s, withBits (s.reg (pairKey k 0x804)).toNat 0 1 (bitNum (s.flag F.spnStatusLomletReady && s.pairOn port k)))
  else match findReg pairRegs o with
    | none => (s, 0)
    | some h =>
      let base := o - (if h.high then 4 else 0)
      let key := pairKey k base
      if h.row.wide then
        if h.high then
          ({ s with latchR := SMap.put none s.latchR key none },
            (((SMap.look none s.latchR key).getD (s.reg (key + 4)))).toNat)
        else ({ s with latchR := SMap.put none s.latchR key (some (s.reg (key + 4))) }, (s.reg key).toNat)
      else (s, (s.reg key).toNat)

/-! ### The rows -/

/-- Whether an access reaches the module's registers: its port decodes BARs, and the offset lies in the BAR or, for the
module's own blocks, in the register range. -/
def State.reaches (s : State) (by_ : Requester) (bar0 : Bool) (off size : Nat) : Bool :=
  match portOf by_ with
  | some port => s.portLive port && decide (off + size ≤ if bar0 then 0x10000 else 0x10000000)
  | none => !bar0 && decide (off + size ≤ 0x100000000)

/-- A register write that has reached the registers (R10, R12, R40, R43). -/
def State.regWriteAt (s : State) (by_ : Requester) (bar0 : Bool) (off size : Nat) (v : Word) : State :=
  if !s.reaches by_ bar0 off size then s
  else if bar0 then
    match portOf by_, allPairs[off / 0x1000]? with
    | some port, some k =>
      if !s.pairOn port k then s
      else if off % 0x1000 < 0x800 then s.writeSlots k (off % 0x1000) (leBytes (min size 4) v.toNat) none
      else if size ≠ 4 ∨ off % 4 ≠ 0 then s.accessError 0x045 0xFFFF 7 2 k.val none none
      else s.writePair k (off % 0x1000) v
    | _, _ => s
  else if size ≠ 4 ∨ off % 4 ≠ 0 then s.regError (off / 0x100000) (off % 0x100000) 7
  else s.writeWindow by_ (off / 0x100000) (off % 0x100000) v

/-- A register write by its requester; one of Spindle's to a gated stage carries its half's claim (R361).
(DESIGN CHOICE, log entry 24.) -/
def State.regWrite (s : State) (by_ : Requester) (bar0 : Bool) (off size : Nat) (v : Word) : State :=
  match (if by_ = .spindle then gateOfWrite (off / 0x100000) (off % 0x100000) else none) with
  | some g => s.gated s.spindleHalf g fun s => s.regWriteAt by_ bar0 off size v
  | none => s.regWriteAt by_ bar0 off size v

/-- A register read by its requester (R10, R11, R40, R43). (DESIGN CHOICE, log entry 24.) -/
def State.regRead (s : State) (by_ : Requester) (bar0 : Bool) (off size : Nat) : State × Nat :=
  if !s.reaches by_ bar0 off size then (s, 0)
  else if bar0 then
    match portOf by_, allPairs[off / 0x1000]? with
    | some port, some k =>
      if !s.pairOn port k then (s, 0)
      else if off % 0x1000 < 0x800 then
        (s, leNat (SMap.slice 0 s.spn.slots.bytes (2048 * k.val + off % 0x1000) (min size (0x800 - off % 0x1000))))
      else if size ≠ 4 ∨ off % 4 ≠ 0 then (s.accessError 0x045 0xFFFF 7 2 k.val none none, 0)
      else s.readPair port k (off % 0x1000)
    | _, _ => (s, 0)
  else if size ≠ 4 ∨ off % 4 ≠ 0 then (s.regError (off / 0x100000) (off % 0x100000) 7, 0)
  else s.readWindow by_ (off / 0x100000) (off % 0x100000)

/-- REGISTER_WRITE (R10 to R18, R383). -/
def execRegisterWrite (by_ : Requester) (bar0 : Bool) (offset size : Nat) (v : Word) (s : State) :
    Host.Outcome State Fault Refusal :=
  .next (s.regWrite by_ bar0 offset size v)

/-- A register read (R10, R11); the bytes it answers are kept as the last read's. -/
def execReg64LatchedRead (by_ : Requester) (bar0 : Bool) (offset size : Nat) (s : State) :
    Host.Outcome State Fault Refusal :=
  .next (if !s.reaches by_ bar0 offset size then s
    else
      let r := s.regRead by_ bar0 offset size
      { r.1 with rdata := leBytes size r.2 })

/-- ARR_KERNEL_GO (R107). -/
def execArrKernelGo (by_ : Requester) (n : ArrayNum) (v : Word) (s : State) : Host.Outcome State Fault Refusal :=
  .next (s.regWrite by_ false (regKey n 0x18) 4 v)

/-- KNT_SIGNAL (R133, R134). -/
def execKntSignal (by_ : Requester) (n : ArrayNum) (v : Word) (s : State) : Host.Outcome State Fault Refusal :=
  .next (s.regWrite by_ false (regKey n 0x2010) 4 v)

/-- KNT_VALUE_i, with the increments that arrive in the same cycle (R130, R133). -/
def execKntValueWrite (by_ : Requester) (n : ArrayNum) (i : Fin 2048) (v : Word) (sameCycle : List (BitVec 16)) (s : State) :
    Host.Outcome State Fault Refusal :=
  .next ((sameCycle.foldl (fun s inc => s.incKnot n i.val inc.toNat)
    (s.regWrite by_ false (regKey n (0x4000 + 4 * i.val)) 4 v)))

/-- VLT_CLEAR_GO (R158, R383). -/
def execVltClearGo (by_ : Requester) (n : ArrayNum) (v : Word) (s : State) : Host.Outcome State Fault Refusal :=
  .next (s.regWrite by_ false (regKey n 0x801C) 4 v)

/-- TIER_CLEAR_GO (R159, R383). -/
def execTierClearGo (by_ : Requester) (v : Word) (s : State) : Host.Outcome State Fault Refusal :=
  .next (s.regWrite by_ false (regKey 0x44 0x20) 4 v)

/-- REEL_P_STEP_GO (R180 to R182, R383). -/
def execReelPStepGo (by_ : Requester) (p : PartNum) (v : Word) (s : State) : Host.Outcome State Fault Refusal :=
  .next (s.regWrite by_ false (regKey 0x40 (0x1040 + 0x80 * p.val)) 4 v)

/-- SHT_COMMIT (R313, R383). -/
def execShtCommit (by_ : Requester) (v : Word) (s : State) : Host.Outcome State Fault Refusal :=
  .next (s.regWrite by_ false (regKey 0x43 0) 4 v)

end Sys2Proof.Machine
end

