-- ==== Sys2Proof/Machine/Events.lean ====
section
/-!
DEFINITION. Event records on their way to recipients (R483, R489 to R492), and fatal escalation (R494, R495).
-/

namespace Sys2Proof.Machine

/-! ### The bytes of a record (R483, R489) -/

/-- A record's 64 bytes as a recipient gets them. -/
def recordBytes (r : EventRec) (redacted : Bool) (lost : Nat) : List Byte :=
  let addr := if redacted then none else r.addr
  let flags := bitNum addr.isSome + 2 * bitNum redacted + 4 * bitNum r.followUp + 8 * bitNum r.held
  leBytes 2 r.source ++ [BitVec.ofNat 8 r.cls, BitVec.ofNat 8 r.severity,
    BitVec.ofNat 8 ((r.part.map (·.val)).getD 0xFF), BitVec.ofNat 8 r.status] ++ leBytes 2 r.count
    ++ leBytes 8 r.time.toNat ++ [BitVec.ofNat 8 r.affected.toNat, BitVec.ofNat 8 flags] ++ leBytes 2 lost
    ++ leBytes 4 r.seq.toNat ++ leBytes 8 (addr.getD 0) ++ leBytes 8 r.last.toNat
    ++ leBytes 2 (if redacted then 0 else r.inst) ++ (if redacted then List.replicate 22 0 else bytesAt r.detail 0 22)

/-- Whether a recipient gets a record redacted (R489): a tenant pair, a platform event; an unbound pair and the
management channel, a record of a sealed partition. -/
def State.redacts (s : State) (r : Fin 17) (e : EventRec) : Bool :=
  let bound := (allPairs[r.val]?).any fun k => (s.pairPart k).isSome
  if bound then e.part.isNone else e.part.any fun p => s.isSealed p

/-! ### Crash records (R507) -/

/-- The 4 KiB of a crash record: its cause, the escalation code and the timestamp of the trigger.
(DEDUCED, log entry 64.) -/
def State.crashBytes (s : State) (cause code : Nat) (at_ : DWord) : List Byte :=
  let head := leBytes 4 0x52434B4D ++ leBytes 1 cause ++ leBytes 1 code ++ leBytes 2 s.board.recent.length
    ++ leBytes 8 at_.toNat ++ leBytes 4 (s.get F.errSeqSeq) ++ leBytes 1 (s.get F.twnStatusActiveHalf)
    ++ leBytes 1 s.flash.record ++ leBytes 2 0 ++ leBytes 4 (s.get F.twnGateClaimClaim)
    ++ leBytes 4 s.flash.running.version.toNat
  bytesAt head 0 64 ++ bytesAt (s.board.recent.map fun (r : EventRec) => recordBytes r false 0).flatten 0 4032

/-- Programs a crash record into the next of the 64 slots. (DEDUCED, log entry 64.) -/
def State.writeCrash (s : State) (cause code : Nat) (at_ : DWord) : State :=
  { s with flash := { s.flash with
    crash := SMap.put [] s.flash.crash s.flash.crashNext (s.crashBytes cause code at_)
    crashNext := (s.flash.crashNext + 1) % 64 } }

/-- A fatal error during a removal joins the crash record that the removal has begun (R495). (DEDUCED, log entry 64.) -/
def State.joinCrash (s : State) : State :=
  if s.board.crashCause = 0 then s
  else { s with flash := { s.flash with
    crash := SMap.put [] s.flash.crash ((s.flash.crashNext + 63) % 64) (s.crashBytes s.board.crashCause 0 s.board.since) } }

/-! ### Delivery -/

/-- A recipient is done with the record of a seq; its handling interval starts with its last recipient (R491). -/
def State.recipientDone (s : State) (r : Fin 17) (seq : Word) (written : Bool) : State :=
  let entries := s.events.entries.map fun (e : EventEntry) =>
    if e.body.seq = seq then
      let todo := e.todo.filter fun x => x != r
      { e with
        todo := todo
        written := e.written || written
        doneAt := if todo.isEmpty then some s.time else none }
    else e
  ({ s with events := { s.events with entries := entries } } : State).refreshDue

/-- The record next due to a recipient, and since when. -/
def State.dueTo (s : State) (r : Fin 17) : Option (EventEntry × DWord) :=
  match SMap.look none s.events.due r.val with
  | none => none
  | some (q, t) => (s.events.entries.find? fun e => e.body.seq == q).map fun e => (e, t)

/-- The management sessions that a record due since a time goes to (R492): those open then, or else those open now.
(DEDUCED, log entry 36.) -/
def State.mgmtTargets (s : State) (since : DWord) : List (Fin 2) :=
  let isOpen := (List.finRange 2).filter fun (x : Fin 2) => (s.coc.tls[x.val]).isSome
  let early := isOpen.filter fun (x : Fin 2) => (s.coc.tls[x.val]).any fun t => decide (t.opened.toNat ≤ since.toNat)
  if early.isEmpty then isOpen else early

/-- Whether a recipient can take a record (R328, R492); no management session can while its link is down. -/
def State.canDeliver (s : State) (r : Fin 17) (e : EventEntry) (since : DWord) : Bool :=
  (s.recipients e.body).contains r &&
    match allPairs[r.val]? with
    | some k => s.ringRoom k 1
    | none => !(s.mgmtTargets since).isEmpty && s.flag F.mgtStatusLinkUp

/-- Whether the collector delivers: it is ready, and neither a gap nor a pause nor a fence holds records (R492, R496). -/
def State.delivers (s : State) : Bool := s.flag F.errStatusReady && !s.writerHeld && !s.board.fenced

/-- The completion writer writes the record next due to a recipient (R489, R492). -/
def State.recordWrite (s : State) (recipient : Fin 17) : State :=
  match s.dueTo recipient with
  | none => s
  | some (e, since) =>
    if s.delivers && s.canDeliver recipient e since then
      let bs := recordBytes e.body (s.redacts recipient e.body) (SMap.look 0 s.events.lost recipient.val)
      let s := { s with events := { s.events with lost := SMap.put 0 s.events.lost recipient.val 0 } }
      let s := match allPairs[recipient.val]? with
        | some k => s.ringWrite k 1 bs
        | none => (s.mgmtTargets since).foldl (fun (s : State) (x : Fin 2) => s.send (.mgmtFrame x 4 bs)) s
      s.recipientDone recipient e.body.seq true
    else s

/-- The record next due to a recipient is written to it (R489, R492) by the half that acts, through gate 0 (R361). -/
def execEventRecordWrite (recipient : Fin 17) (s : State) : Host.Outcome State Fault Refusal :=
  .next (s.gated s.spindleHalf 0 fun s => s.recordWrite recipient)

/-- A recipient whose ring has stayed full for 100 ms abandons the record (R492). (DEDUCED, log entry 36.) -/
def execRecordAbandon (recipient : Fin 17) (s : State) : Host.Outcome State Fault Refusal :=
  .next (match s.dueTo recipient with
    | none => s
    | some (e, since) =>
      if s.delivers && !s.canDeliver recipient e since && decide (10000000 ≤ (s.time - since).toNat) then
        ((s.loseFor [recipient]).raiseBit F.errStatusAbandoned).recipientDone recipient e.body.seq false
      else s)

/-- Handling ends 10 ms after the last recipient; a follow-up is then raised (R491). -/
def execHandlingIntervalEnd (seq : Word) (s : State) : Host.Outcome State Fault Refusal :=
  .next (match s.events.entries.find? fun e => e.body.seq == seq with
    | none => s
    | some e =>
      match e.doneAt with
      | none => s
      | some t =>
        if 1000000 ≤ (s.time - t).toNat then
          let s := { s with events := { s.events with
            entries := s.events.entries.filter fun (x : EventEntry) => x.body.seq != seq } }
          match e.followUp with
          | some f => s.enqueue f
          | none => s
        else s)

/-- Records held since a moment are marked held, and the wait for each recipient does not count that time (R492).
(DEDUCED, log entry 36.) -/
def State.releaseHeld (s : State) (start : DWord) : State :=
  let late := fun (t : DWord) => if t.toNat < start.toNat then t + (s.time - start) else s.time
  { s with events := { s.events with
    entries := s.events.entries.map fun (e : EventEntry) =>
      if e.todo.isEmpty then e else { e with body := { e.body with held := true } }
    due := s.events.due.map fun (x : Nat × Option (Word × DWord)) => (x.1, x.2.map fun d => (d.1, late d.2)) } }

/-- Completions not yet written are marked held (R336). -/
def State.holdCompletions (s : State) : State :=
  { s with spn := { s.spn with cmds := s.spn.cmds.map fun (m : Cmd) =>
    { m with comp := m.comp.map fun (x : Completion) => { x with held := true } } } }

/-! ### Module stop and switch-over (R353, R360, R363, R372) -/

/-- Whether a trigger finds a standby (R363): the other half is cold, no gap runs, and the module has a ledger (R458). -/
def State.standby (s : State) : Bool :=
  s.halfState (otherHalf s.activeHalf) == 0 && !s.flag F.twnStatusGap && s.twn.ledger.placed

/-- A switch-over begins (R353, R360, R363, R364): the gate claim rises, the incoming half is powered, and the outgoing
half is quarantined or steps down. -/
def State.switchOver (s : State) (cause : Nat) (planned : Bool) : State :=
  let out := s.activeHalf
  let inc := otherHalf out
  let s := s.set F.twnGateClaimClaim (s.newClaim inc)
  let s := if planned then s.setHalfState out 3 else s.quarantine out cause
  let s := (s.setHalfState inc 1).powerUpHalf inc
  let s := ((s.set F.twnStatusGap 1).set F.twnLastCauseCause cause).set F.spnStatusLomletReady 0
  { s with twn := { s.twn with
    gapStart := s.time, phase := .powering, planned := planned, incoming := inc, swap := none, restored := [] } }

/-- An unplanned trigger (R353, R363): a switch-over; with no standby the active half is quarantined and the module
stops (R372). -/
def State.unplanned (s : State) (cause code : Nat) : State :=
  if s.standby then s.switchOver cause false
  else
    let h := s.activeHalf
    (if s.halfState h = 2 ∧ s.flag F.twnStatusGap = false then s.quarantine h cause else s).stopModule code

/-- Whether a module stop or a removal is under way (R495). -/
def State.ending (s : State) : Bool := s.board.stopping || s.board.supply == .removing

/-- The record of a fatal error (R494): its source, class and memory. -/
def State.fatalEvent (s : State) (code : Nat) (ev : Ev) : State :=
  let s := s.report { ev with severity := 4, status := stFatal }
  (s.set F.errLastFatalCode code).set F.errStatusEscalating 1

/-- A fatal error escalates (R494, R495): codes 1 and 2 to a switch-over, the others to a module stop; while a stop or a
removal is under way it only leaves its record, which joins the crash record. -/
def State.escalate (s : State) (code : Nat) (ev : Ev) : State :=
  if s.ending then (s.report { ev with severity := 4, status := stFatal }).joinCrash
  else
    let s := s.fatalEvent code ev
    if code = 1 ∨ code = 2 then s.unplanned 5 code else s.stopModule code

/-- Where each code of R494 comes from: source, class, partitions affected and ECC memory; code 5 comes from Cocoon's key
store or from twin control's claim registers. (DEDUCED, log entry 36.) -/
def State.fatalEv (s : State) (code : Nat) (twin : Bool := false) : Ev :=
  match code with
  | 1 => { source := 0x044, cls := 0x04, severity := 4, affected := s.allPartBits, inst := 0xFFFF, detail := [5, 5] }
  | 2 => { source := 0x04D, cls := 0x04, severity := 4, affected := s.allPartBits, inst := 0xFFFF, detail := [7] }
  | 3 => { source := 0x048, cls := 0x0A, severity := 4, affected := s.allPartBits }
  | 4 => { source := 0x050, cls := 0x10, severity := 4, affected := s.allPartBits }
  | _ =>
    if twin then { source := 0x046, cls := 0x04, severity := 4, inst := 0xFFFF }
    else { source := 0x047, cls := 0x04, severity := 4, inst := 0xFFFF, detail := [6] }

/-- An uncorrectable failure of R494 (codes 1 to 5) is detected; a fabric one counts in ERR_FABRIC_UNCORR. -/
def execFatalEscalation (failure : FatalFailure) (s : State) : Host.Outcome State Fault Refusal :=
  .next (if failure.code = 0 then s
    else
      let s := if failure.code = 4 then s.bump F.errFabricUncorrUncorrected else s
      s.escalate failure.code.val (s.fatalEv failure.code.val failure.twin))

/-- The fabric and ring's corrected errors are counted and reported (R486, R488, R496).
(DESIGN CHOICE, log entry 1; DEDUCED, log entry 36.) -/
def State.tickFabric (s : State) : State :=
  let s' := (List.range s.fabricErr).foldl (fun (s : State) _ =>
    (s.bump F.errFabricCorrCorrected).report { source := 0x050, cls := 0x10, severity := 1, affected := s.allPartBits }) s
  { s' with fabricErr := 0 }

end Sys2Proof.Machine
end

