-- ==== Sys2Proof/Machine/Twin.lean ====
section
/-!
DEFINITION. Twin halves (R352 to R371): the ledger, claims and gates, switch-overs from their trigger to the end of the
gap, periodic swaps and the twin commands.
-/

namespace Sys2Proof.Machine

/-! ### The ledger (R355 to R359) -/

/-- Timestamp ticks of an hour. -/
def hourTicks : Nat := 360000000000

/-- Whether the ledger port accepts writes of the half that acts (R352, R359): it is active, or starting with the gate claim. -/
def State.ledgerOpen (s : State) : Bool :=
  let h := s.spindleHalf
  s.twn.ledger.placed && (s.halfState h == 2 || (s.halfState h == 1 && s.claim h == s.get F.twnGateClaimClaim))

/-- The two ledger copies: array and granule (R355). -/
def State.ledgerCopies (s : State) : List (ArrayNum × Nat) :=
  let a := s.get F.twnLedgerCopy0
  let b := s.get F.twnLedgerCopy1
  [(a, 383), (b, if a = b then 382 else 383)].filterMap fun (x : Nat × Nat) => (allArrays[x.1]?).map fun n => (n, x.2)

/-- The address of an offset of a ledger copy. -/
def ledgerAddr (c : ArrayNum × Nat) (off : Nat) : Nat := vaultBase c.1 + c.2 * 0x400000 + off

/-- Writes the same bytes to both copies (R356). -/
def State.ledgerStore (s : State) (off : Nat) (bs : List Byte) : State :=
  s.ledgerCopies.foldl (fun s c => s.write (ledgerAddr c off) bs) s

/-- What a ledger write of n bytes looks like in a copy: sequence number, claim, content, CRC-32C (R356). The spec does not
lay the bytes out; the place of these fields and the content's bytes are open. (DESIGN CHOICE, log entry 46.) -/
def ledgerBytes (seq claim n draw : Nat) : List Byte :=
  let body := leBytes 8 seq ++ leBytes 4 claim ++ (List.range (n - 16)).map fun k => Config.freeByte (draw + k)
  body ++ leBytes 4 (crc32c body).toNat

/-- Where journal entry i lies in a copy (R356). -/
def journalOff (i : Nat) : Nat := 0x300000 + 64 * (i % 16384)

/-- What becomes visible with a ledger entry (R324, R357). -/
def State.ledgerDone (s : State) (e : LedgerEntry) : State :=
  match e with
  | .taken r _ =>
    let s := s.modCmd r fun m => if m.phase = .entering then { m with phase := .waiting } else m
    match r.src with
    | .pair k => s.setReg (F.spnMbTakenTaken k).key (r.num + 1)
    | .mgmt _ => { s with spn := { s.spn with mgmtTaken := r.num + 1 } }
  | .done r _ =>
    match s.cmd r with
    | some m =>
      if m.phase = .leaving then
        let s := s.modCmd r fun m => { m with phase := .queued }
        { s with spn := { s.spn with writer := s.spn.writer ++ [r] } }
      else s
    | none => s
  | .step _ _ => s
  | .request _ _ _ => s
  | .activation _ => s

/-- An entry becomes visible in both copies (R356, R357): it takes the next place of the journal and the next sequence
number. (DESIGN CHOICE, log entry 46.) -/
def State.journalWrite (s : State) (claim : Nat) (e : LedgerEntry) (saved : Saved) : State :=
  let l := s.twn.ledger
  let seq := s.get F.twnLedgerSeqSequence + 1
  let r : LedgerRec := { index := l.count, seq := seq, claim := claim, entry := e, saved := saved }
  let bytes := ledgerBytes seq claim 64 s.free
  let s : State := { s with
    free := s.free + 48
    twn := { s.twn with ledger := { l with
      journal := (l.journal.filter fun (x : LedgerRec) => decide (l.count < x.index + 16384)) ++ [r]
      count := l.count + 1
      since := l.since + 1 } } }
  ((s.ledgerStore (journalOff r.index) bytes).set F.twnLedgerSeqSequence seq).ledgerDone e

/-- The half that a claim belongs to (R360). -/
def halfOf (claim : Nat) : Half := if claim % 2 = 0 then .a else .b

/-- The oldest ledger entry under way reaches both copies, if it carries the gate claim and the port is open (R357, R359).
One with a lower claim is rejected, or gone with a half that issues nothing more (R361, R362). -/
def execLedgerWrite (s : State) : Host.Outcome State Fault Refusal :=
  .next (match s.twn.ledger.pending with
    | [] => s
    | (claim, e, saved) :: rest =>
      let t := { s with twn := { s.twn with ledger := { s.twn.ledger with pending := rest } } }
      if s.twn.ledger.placed = false then s
      else if claim < s.get F.twnGateClaimClaim then
        let h := halfOf claim
        if s.twn.powered[(halfIx h).val] && !s.twn.stopped[(halfIx h).val] then t.gateReject h claim 5 else t
      else if s.ledgerOpen then t.journalWrite claim e saved
      else s)

/-- The pairs' taken and done counts, which a snapshot holds (R356). -/
def State.pairCounts (s : State) : List (Nat × Nat) :=
  allPairs.map fun (k : PairNum) => (s.get (F.spnMbTakenTaken k), s.get (F.spnMbDoneDone k))

/-- The older snapshot area (R357). -/
def Ledger.older (l : Ledger) : Fin 2 :=
  match l.snaps[0], l.snaps[1] with
  | none, _ => 0
  | some _, none => 1
  | some a, some b => if a.seq ≤ b.seq then 0 else 1

/-- Writes a snapshot of Spindle's saved state into the older area of both copies (R356, R357). The entries still under way then
record what it holds. -/
def State.writeSnapshot (s : State) : State :=
  let l := s.twn.ledger
  let seq := s.get F.twnLedgerSeqSequence + 1
  let claim := s.get F.twnGateClaimClaim
  let snap : Snap := {
    seq := seq, upTo := (l.journal.getLast?.map (·.seq)).getD 0, claim := claim, cmds := s.spn.cmds, counts := s.pairCounts
    saved := s.saved }
  let bytes := ledgerBytes seq claim 0x180000 s.free
  let s : State := { s with
    free := s.free + 0x180000
    twn := { s.twn with ledger := { l with
      since := 0, snapTime := s.time, snaps := l.snaps.set l.older.val (some snap)
      pending := l.pending.map fun e => (e.1, e.2.1, snap.saved) } } }
  (s.ledgerStore (0x180000 * l.older.val) bytes).set F.twnLedgerSeqSequence seq

/-- A snapshot, every 10 ms or when the journal holds 12,288 entries since the last one (R357), written by the half that acts
through the ledger port, which rejects one without the gate claim (R352, R359, R361). -/
def execSnapshot (s : State) : Host.Outcome State Fault Refusal :=
  .next (if s.twn.ledger.placed && !s.flag F.twnStatusGap
      && (decide (1000000 ≤ (s.time - s.twn.ledger.snapTime).toNat) || decide (12288 ≤ s.twn.ledger.since))
    then s.gated s.spindleHalf 5 (fun s => if s.ledgerOpen then s.writeSnapshot else s) else s)

/-! ### Restoring (R358) -/

/-- Whether a copy holds a part of the ledger validly (R356, R358): no uncorrectable word in it, its CRC-32C matches, and it
carries the sequence number and the claim with which it was written. (DESIGN CHOICE, log entry 46.) -/
def State.copyHolds (s : State) (c : ArrayNum × Nat) (off n seq claim : Nat) : Bool :=
  let a := ledgerAddr c off
  let bs := s.load a n
  (s.badIn a n).isNone && fieldAt bs 0 8 == seq % 2 ^ 64 && fieldAt bs 8 4 == claim % 2 ^ 32
    && fieldAt bs (n - 4) 4 == (crc32c (bs.take (n - 4))).toNat

/-- Whether either copy holds a part of the ledger validly (R358). -/
def State.ledgerReads (s : State) (off n seq claim : Nat) : Bool := s.ledgerCopies.any fun c => s.copyHolds c off n seq claim

/-- The snapshot of an area, where it is valid in either copy (R358). -/
def State.snapAt (s : State) (k : Fin 2) : Option Snap :=
  (s.twn.ledger.snaps[k.val]).filter fun x => s.ledgerReads (0x180000 * k.val) 0x180000 x.seq x.claim

/-- The newest snapshot that is valid in either copy (R358). -/
def State.newestSnap (s : State) : Option Snap :=
  match s.snapAt 0, s.snapAt 1 with
  | some a, some b => if a.seq ≤ b.seq then some b else some a
  | some a, none => some a
  | none, b => b

/-- Whether a ledger can be restored (R358). (DESIGN CHOICE, log entry 46.) -/
def State.ledgerValid (s : State) : Bool := s.twn.ledger.placed && s.newestSnap.isSome

/-- The journal entries after a snapshot, in sequence order (R358). -/
def State.journalAfter (s : State) (x : Snap) : List LedgerRec :=
  s.twn.ledger.journal.filter fun (r : LedgerRec) => decide (x.upTo < r.seq)

/-- The journal entries applied after a snapshot: those before the first that neither copy holds validly (R358). -/
def State.appliedAfter (s : State) (x : Snap) : List LedgerRec :=
  (s.journalAfter x).takeWhile fun r => s.ledgerReads (journalOff r.index) 64 r.seq r.claim

/-- The entries that a snapshot of some commands stands for, as they stood. -/
def entriesOf (cmds : List Cmd) : List LedgerEntry :=
  cmds.flatMap fun (m : Cmd) =>
    (if m.phase = .entering then [] else [.taken m.ref m.bytes])
      ++ (if m.phase = .running then [.step m.ref m.wait] else [])
      ++ (match m.phase, m.comp with
        | .queued, some comp => [.done m.ref comp]
        | .leaving, some comp => [.done m.ref comp]
        | _, _ => [])

/-- What a half can restore: the newest valid snapshot's entries and those after it; without a placed ledger nothing is
written and nothing lost (R358, R458); none when no valid snapshot remains. (DESIGN CHOICE, log entry 35.) -/
def State.restorable (s : State) : Option (List LedgerEntry) :=
  if s.twn.ledger.placed then s.newestSnap.map fun x => entriesOf x.cmds ++ (s.appliedAfter x).map (·.entry)
  else some (entriesOf s.spn.cmds)

/-- The uncorrectable words of both copies are reported, and corrections counted (R144, R358). -/
def State.ledgerScan (s : State) : State :=
  s.ledgerCopies.foldl (fun s c =>
    let t := s.correct (ledgerAddr c 0) 0x400000 5
    (s.badWords (ledgerAddr c 0) 0x400000).foldl (fun t w => t.eccReport w 5 true) t) s

/-- The saved state that a restore gives: that of the last entry applied, or the snapshot's (R358). None where no entry is lost:
every change of saved state has its entry, so it stands as it is. (DESIGN CHOICE, log entry 35.) -/
def State.lostImage (s : State) : Option Saved :=
  if s.twn.ledger.placed then
    s.newestSnap.bind fun x =>
      let es := s.appliedAfter x
      let lost := s.twn.ledger.pending.any (fun e => e.1 != s.get F.twnGateClaimClaim) || decide (es.length < (s.journalAfter x).length)
      if lost then some ((es.getLast?.map (·.saved)).getD x.saved) else none
  else none

/-- Whether a conversation stands as it is when the ledger gives another image of it: it is the same conversation with the same
request, whose progress the sampler's request table keeps (R265), and no command whose entry is lost has released it.
(DESIGN CHOICE, log entry 35.) -/
def convStands (old now : Convo) : Bool :=
  old.part == now.part && old.serial == now.serial && (old.request.map (·.admitted)) == (now.request.map (·.admitted))
    && (old.live == now.live || old.request.any (fun r => r.phase != .ended))

/-- One conversation as the ledger gives it: what a lost entry had made of it, and of its sequence, is taken back (R358).
(DESIGN CHOICE, log entry 35.) -/
def State.restoreConv (s : State) (x : Saved) (i : Nat) : State :=
  let old := SMap.look Convo.none x.srv.convs i
  if convStands old (s.conv i) then s
  else
    let p := (s.conv i).part
    let t := s.modConv i fun _ => old
    if !old.live then t.seqUpdate p (.release i)
    else if (t.request i).isNone && s.seqState i != 0 then t.seqUpdate p (.pause i)
    else t

/-- A tier granule that a lost entry had given to a partition goes back through a clear (R156, R358).
(DESIGN CHOICE, log entry 35.) -/
def State.takeBack (s : State) (x : Saved) (g : Nat) : State :=
  match tagOwner (s.ttag g) with
  | some p =>
    if SMap.look 0 x.tags g = 0 ∧ tagClearing (s.ttag g) = false then
      (s.setTtag g (clearingTag false p)).modPart p fun t => { t with todo := t.todo ++ [(g, 1, false)] }
    else s
  | none => s

/-- Takes saved state back to an image (R358): partitions but for the clears still owed, conversations and step limits, video
sessions, granules, and the saved fields. (DESIGN CHOICE, log entry 35.) -/
def State.restoreTo (s : State) (x : Saved) : State :=
  let t := (s.srv.convs ++ x.srv.convs).foldl (fun (t : State) e => t.restoreConv x e.1) s
  let vid := Vector.ofFn fun (i : Fin 48) =>
    match x.vid[i.val], t.vid[i.val] with
    | some a, some b => if a.part = b.part then some b else some a
    | v, _ => v
  let t : State := { t with
    parts := Vector.ofFn fun (p : Fin 8) => { x.parts[p.val] with todo := t.parts[p.val].todo }
    srv := { t.srv with maxSlots := x.srv.maxSlots, chunk := x.srv.chunk, stepTokens := x.srv.stepTokens }
    vid := vid }
  let t := s.tierTags.foldl (fun (t : State) e => t.takeBack x e.1) t
  (savedFields.zip x.vals).foldl (fun (t : State) f => t.set f.1 f.2) t

/-- A half restores the ledger (R358): both copies are read and their bad words reported, the outstanding commands' entries are
kept, and where entries are lost saved state goes back to what the ledger holds; none when no valid snapshot remains. -/
def State.restoreLedger (s : State) : Option State :=
  s.restorable.map fun es =>
    let t := s.ledgerScan
    let t := match s.lostImage with
      | some x => t.restoreTo x
      | none => t
    { t with twn := { t.twn with restored := es } }

/-! ### Triggers (R363, R364) -/

/-- Whether the active half serves, so that its heartbeat and its errors count. -/
def State.halfServes (s : State) : Bool := s.halfState s.activeHalf == 2 && !s.flag F.twnStatusGap && !s.ending

/-- A heartbeat of the active half (R363). -/
def execActiveHalfHeartbeat (s : State) : Host.Outcome State Fault Refusal :=
  .next (if s.halfServes then { s with twn := { s.twn with heartbeat := s.time } } else s)

/-- No heartbeat for 2 ms: cause 1 (R363). -/
def execHeartbeatTimeout (s : State) : Host.Outcome State Fault Refusal :=
  .next (if s.halfServes && decide (200000 ≤ (s.time - s.twn.heartbeat).toNat) then s.unplanned 1 0 else s)

/-- The active half, or a half in a gap, reports an internal fatal error: cause 2 (R363). -/
def execInternalFatalError (s : State) : Host.Outcome State Fault Refusal :=
  .next (if s.ending then s
    else if s.halfServes || s.flag F.twnStatusGap then s.unplanned 2 0 else s)

/-- The commands that keep a planned swap waiting (R369). -/
def swapBlockers : List Nat := [0x0201, 0x0202, 0x0805, 0x0806, 0x0903]

/-- Whether such a command runs. -/
def State.swapBlocked (s : State) : Bool :=
  s.spn.cmds.any fun m => swapBlockers.contains m.op && (m.phase == .running || m.phase == .started)

/-- The swap falls due one period after a moment; 0 while periodic swaps are off (R369). -/
def State.scheduleSwap (s : State) (base : DWord) : State :=
  let h := s.get F.twnPeriodHours
  ({ s with twn := { s.twn with swapBase := base } } : State).set F.twnNextSwapTimestamp
    (if h = 0 then 0 else (base.toNat + h * hourTicks) % 2 ^ 64)

/-- TWN_SWAP (R364, R369). -/
def execTwnSwap (c : CmdRef) (s : State) : Host.Outcome State Fault Refusal :=
  .next (s.runCmd c 0x0A01 fun _ s =>
    let others := s.spn.cmds.any fun m => m.ref != c && swapBlockers.contains m.op && m.phase == .running
    if others || !s.standby || s.twn.swap.isSome then s.complete c stBusy
    else ({ s with twn := { s.twn with swap := some 3 } } : State).park c .swap)

/-- The periodic swap falls due (R363, R369): it waits for the commands that block it, and is skipped without a standby or
in a gap. -/
def execPeriodicSwapDue (s : State) : Host.Outcome State Fault Refusal :=
  .next (let due := s.get F.twnNextSwapTimestamp
    if due = 0 ∨ s.time.toNat < due ∨ (s.halfServes = false ∧ (s.flag F.twnStatusGap = false ∨ s.ending)) ∨ s.twn.swap.isSome
        ∨ s.swapBlocked then s
    else if !s.standby then (s.raiseBit F.twnStatusSwapSkipped).scheduleSwap s.time
    else { s with twn := { s.twn with swap := some 4 } })

/-- Completes the TWN_SWAP that waits for its switch-over (R364). -/
def State.finishSwap (s : State) (status : Nat) : State :=
  s.spn.cmds.foldl (fun (s : State) (m : Cmd) => if m.wait = .swap then s.complete m.ref status else s) s

/-- The final snapshot is complete in both copies: the planned trigger (R363, R364). -/
def execFinalSnapshotComplete (s : State) : Host.Outcome State Fault Refusal :=
  .next (match s.twn.swap with
    | none => s
    | some cause =>
      if !s.twn.ledger.pending.isEmpty || s.flag F.twnStatusGap || s.ending then s
      else
        let s := s.writeSnapshot
        if s.standby then s.switchOver cause true
        else
          let s : State := { s with twn := { s.twn with swap := none } }
          if cause = 4 then (s.raiseBit F.twnStatusSwapSkipped).scheduleSwap s.time else s.finishSwap stBusy)

/-! ### The gap (R353, R366 to R368) -/

/-- Moves the switch-over on. -/
def State.setPhaseTwn (s : State) (p : GapPhase) : State := { s with twn := { s.twn with phase := p } }

/-- The starting half fails (R353): it is quarantined with cause 6; a planned swap leaves the outgoing half to return, an
unplanned one stops the module (R372). (DESIGN CHOICE, log entry 35.) -/
def State.incomingFails (s : State) : State :=
  let inc := s.twn.incoming
  let s := ((s.quarantine inc 6).raiseBit F.twnStatusSwapFailed).setPhaseTwn .none
  if s.twn.planned && s.halfState (otherHalf inc) == 3 then s else s.stopModule 0

/-- The incoming half's power is good and it boots (R366). -/
def execIncomingPowerGood (s : State) : Host.Outcome State Fault Refusal :=
  .next (if s.twn.phase = .powering then s.setPhaseTwn .powerGood else s)

/-- Where the copy of Spindle's code lies (R366). -/
def codeAddr : Nat := tierBase + 0xFF00 * 0x400000 + Config.codePlace

/-- The code of Spindle in the imago in service, as its copy holds it (R366, R439). -/
def State.spindleCode (s : State) : List Byte := bytesAt (Config.spindleCode s.inService.pieces) 0 Config.codeLength

/-- Whether the copy of Spindle's code in platform tier granules reads without an uncorrectable word and has the SHA-384 digest of
the running imago's code (R366). (DESIGN CHOICE, log entry 35.) -/
def State.codeGood (s : State) : Bool :=
  (s.badIn codeAddr Config.codeLength).isNone && Config.sha384 (s.load codeAddr Config.codeLength) == Config.sha384 s.spindleCode

/-- Reads the copy of Spindle's code for a half that checks it: its bad words are reported (R144, R366). -/
def State.codeScan (s : State) : State :=
  let t := (s.correct codeAddr Config.codeLength 5).countRead codeAddr Config.codeLength
  (s.badWords codeAddr Config.codeLength).foldl (fun t w => t.eccReport w 5 true) t

/-- The incoming half boots from the code in platform tier granules: its digest is right and it presents its claim, or it
differs, or the half does not come through the check (R353, R366). (DESIGN CHOICE, log entry 35.) -/
def execCodeVerified (digestOk : Bool) (s : State) : Host.Outcome State Fault Refusal :=
  .next (if s.twn.phase = .powerGood then
      (if digestOk && s.codeGood then
        (s.codeScan.setClaim s.twn.incoming (s.get F.twnGateClaimClaim)).setPhaseTwn .verified
      else s.codeScan.incomingFails)
    else s)

/-- The ledger is restored: the newest valid snapshot and the entries after it decide what the incoming half knows; or no
valid snapshot remains (R353, R358, R366). -/
def execLedgerRestore (s : State) : Host.Outcome State Fault Refusal :=
  .next (if s.twn.phase = .verified then
      match (if s.twn.ledger.placed then s.restoreLedger else none) with
      | some t => t.setPhaseTwn .restored
      | none => s.ledgerScan.incomingFails
    else s)

/-- Whether the restored ledger holds a command's taken entry (R367). -/
def State.heldTaken (s : State) (r : CmdRef) : Bool :=
  s.twn.restored.any fun e => match e with
    | .taken x _ => x == r
    | _ => false

/-- What the last step entry of a command that the restored ledger holds says it waits for (R367). -/
def State.heldStep (s : State) (r : CmdRef) : Option Wait :=
  (s.twn.restored.filterMap fun e => match e with
    | .step x w => if x = r then some w else none
    | _ => none).getLast?

/-- The completion of a command's done entry that the restored ledger holds (R367). -/
def State.heldDone (s : State) (r : CmdRef) : Option Completion :=
  s.twn.restored.findSome? fun e => match e with
    | .done x comp => if x = r then some comp else none
    | _ => none

/-- The commands whose work another unit carries on and ends, whatever half is active: MLT_RUN (moult controller), SEC_IMPORT and
SEC_LIFECYCLE (Cocoon), UPD_ACTIVATE (update). (DESIGN CHOICE, log entry 35.) -/
def carriedElsewhere (op : Nat) : Bool := op == 0x0701 || op == 0x0803 || op == 0x0805 || op == 0x0903

/-- Whether a management session is open. -/
def State.tlsOpen (s : State) (x : Fin 2) : Bool := (s.coc.tls[x.val]).isSome

/-- What the restored ledger decides of one outstanding command (R367). A completion that the writer holds stands. A command
whose done entry the ledger holds has its completion written from it. One with a taken and a step entry goes on after its
last step; one with a taken entry only runs from its start, and finds the saved state without its effects; one with no entry is
back in its slot or frame, unless its management session has closed (R517). What another unit carries on or has ended stands.
(DESIGN CHOICE, log entry 35.) -/
def State.reconcileCmd (s : State) (m : Cmd) : State :=
  if m.phase = .queued then s
  else
    match s.heldDone m.ref with
    | some comp =>
      let s := s.modCmd m.ref fun m => { m with phase := .queued, wait := .none, comp := some comp }
      { s with spn := { s.spn with writer := s.spn.writer ++ [m.ref] } }
    | none =>
      if !s.heldTaken m.ref then
        let s := { s with spn := { s.spn with cmds := s.spn.cmds.filter fun (x : Cmd) => x.ref != m.ref } }
        match m.ref.src with
        | .pair k =>
          if (s.taken k - m.ref.num).toNat ≤ 32 then s.setReg (F.spnMbTakenTaken k).key m.ref.num else s
        | .mgmt x =>
          if m.orphan || !s.tlsOpen x then s
          else { s with spn := { s.spn with mgmtQ := (x, m.bytes, m.extra) :: s.spn.mgmtQ } }
      else if carriedElsewhere m.op && m.phase = .running then s
      else
        match (if carriedElsewhere m.op && m.phase = .leaving then m.comp else none) with
        | some comp => s.ledger (.done m.ref comp)
        | none =>
          match s.heldStep m.ref with
          | some w => s.modCmd m.ref fun m => { m with phase := .running, wait := w, comp := none }
          | none => s.modCmd m.ref fun m => { m with phase := .waiting, wait := .none, comp := none }

/-- Reconciliation (R366, R367): the entries of commands that never became visible are gone, and the restored ledger
decides every outstanding command, the newest first, so that what goes back to a source keeps its order. -/
def State.reconcile (s : State) : State :=
  let gate := s.get F.twnGateClaimClaim
  let keeps := fun (x : Nat × LedgerEntry × Saved) => x.1 == gate && (match x.2.1 with
    | .request _ _ _ => true
    | .activation _ => true
    | _ => false)
  let s : State := { s with twn := { s.twn with ledger := { s.twn.ledger with
    pending := s.twn.ledger.pending.filter keeps } } }
  s.spn.cmds.reverse.foldl (fun (s : State) (m : Cmd) => s.reconcileCmd m) s

/-- The incoming half reconciles what it has restored (R366, R367). -/
def execReconciliation (s : State) : Host.Outcome State Fault Refusal :=
  .next (if s.twn.phase = .restored then s.reconcile.setPhaseTwn .reconciled else s)

/-- Spindle cycles of the gap; eight to a timestamp tick (R9). (DESIGN CHOICE, log entry 35.) -/
def State.gapCycles (s : State) : Nat := min (8 * (s.time - s.twn.gapStart).toNat) 0xFFFFFFFF

/-- A gap ends with lomlet_ready (R336, R366, R368): the half's state, the gap's length, the held completions and
records, and the next periodic swap. -/
def State.closeGap (s : State) (h : Half) : State :=
  let s := s.finishSwap stOk
  let start := s.twn.gapStart
  let s := (s.setHalfState h 2).set F.twnStatusActiveHalf (halfIx h).val
  let s := ((s.set F.spnStatusHalf (halfIx h).val).set F.twnLastGapCycles s.gapCycles).set F.twnStatusGap 0
  let s := ((s.set F.spnStatusLomletReady 1).set F.errStatusEscalating 0).setPhaseTwn .none
  let s : State := { s with twn := { s.twn with heartbeat := s.time, planned := false } }
  ((s.holdCompletions.releaseHeld start).scheduleSwap s.time)

/-- The new active half sets lomlet_ready, which ends the gap (R353, R354, R366). -/
def execGapEnd (s : State) : Host.Outcome State Fault Refusal :=
  .next (if s.twn.phase = .reconciled then
      let inc := s.twn.incoming
      let out := otherHalf inc
      let cause := s.get F.twnLastCauseCause
      let s := if s.halfState out = 3 then
          (s.setHalfState out (if (s.flash.quar[(halfIx out).val]).isSome then 4 else 0)).powerDownHalf out
        else s
      let s := ((s.closeGap inc).raiseBit F.twnStatusSwitched).bump F.twnSwitchesCount
      s.twinEvent inc 0 stOk cause (s.claim out) (s.get F.twnLastGapCycles)
    else s)

/-- The deadline of a starting half (R353, R365, R368). -/
def execStartingDeadline (s : State) : Host.Outcome State Fault Refusal :=
  .next (if s.twn.phase ≠ .none ∧ (if s.twn.planned then 5950000 else 6000000) ≤ (s.time - s.twn.gapStart).toNat then
      s.incomingFails
    else s)

/-- After a failed planned swap the outgoing half returns to Active (R368): with a new claim, it applies the entries written since
its final snapshot and decides the outstanding commands by them, as a restoring half does; then lomlet_ready, a snapshot and the
record. -/
def execOutgoingHalfReturn (s : State) : Host.Outcome State Fault Refusal :=
  .next (let inc := s.twn.incoming
    let out := otherHalf inc
    if s.flag F.twnStatusGap && s.twn.planned && s.twn.phase == .none && s.halfState out == 3 && !s.ending then
      let g := s.newClaim out
      let cause := s.get F.twnLastCauseCause
      let s := (s.set F.twnGateClaimClaim g).setClaim out g
      let s := (s.restoreLedger.getD s).reconcile
      let s := (s.closeGap out).writeSnapshot
      s.twinEvent inc 2 stOk cause g (s.get F.twnLastGapCycles)
    else s)

/-! ### Arrays' power, and a half's power-down (R364, R410) -/

/-- Clock-stops an array (R410). -/
def State.clockStop (s : State) (n : ArrayNum) : State :=
  s.modArr n fun a => if a.power = .running then { a with power := .clockStopped, offSince := s.time, warming := false } else a

/-- Releases an array (R89, R410): from a clock-stop issue resumes; from a power-gate its valid planes are staged again
first. -/
def State.release (s : State) (n : ArrayNum) : State :=
  s.modArr n fun a =>
    match a.power with
    | .clockStopped => { a with power := .running }
    | .draining => { a with power := .running }
    | .gated => { a with power := .running, restaging := a.planes.any fun (x : Nat × Option PlaneSrc) => x.2.isSome }
    | .running => a

/-- A half that was told to power down reports off, or is stuck and told again after 1 ms (R364).
(DESIGN CHOICE, log entry 35.) -/
def execPowerDownRetry (half : Half) (reportsOff : Bool) (s : State) : Host.Outcome State Fault Refusal :=
  .next (match s.twn.powerDown[(halfIx half).val] with
    | none => s
    | some t =>
      if reportsOff then
        { s with twn := { s.twn with
          powered := s.twn.powered.set (halfIx half).val false
          powerDown := s.twn.powerDown.set (halfIx half).val none } }
      else if 100000 ≤ (s.time - t).toNat then
        ((s.raiseBit F.twnStatusPowerStuck).powerDownHalf half).twinEvent half 2 stOk (s.get F.twnLastCauseCause)
          (s.claim half) 0
      else s)

/-! ### Commands (R369 to R371) -/

/-- TWN_RESTORE (R354, R370). -/
def execTwnRestore (c : CmdRef) (s : State) : Host.Outcome State Fault Refusal :=
  .next (s.runCmd c 0x0A02 fun m s =>
    let h := if m.arg 8 1 = 0 then Half.a else Half.b
    if 1 < m.arg 8 1 ∨ s.halfState h ≠ 4 then s.complete c stBad
    else if s.flag F.twnStatusGap then s.complete c stBusy
    else (s.powerUpHalf h).park c (.restore h))

/-- A quarantined half's checks end (R370). -/
def State.restoreEnd (s : State) (h : Half) (ok : Bool) : State :=
  let waits := s.spn.cmds.filter fun (m : Cmd) => m.wait == .restore h
  if waits.isEmpty then s
  else
    let s := s.powerDownHalf h
    let s := if ok then
        let s : State := { s with flash := { s.flash with quar := s.flash.quar.set (halfIx h).val none } }
        let s := match h with
          | .a => s.set F.twnQuarCauseA 0
          | .b => s.set F.twnQuarCauseB 0
        s.setHalfState h 0
      else s
    waits.foldl (fun (s : State) (m : Cmd) => s.complete m.ref (if ok then stOk else stFatal)) s

/-- TWN_PERIOD (R369). -/
def execTwnPeriod (c : CmdRef) (s : State) : Host.Outcome State Fault Refusal :=
  .next (s.runCmd c 0x0A03 fun m s =>
    if 8760 < m.arg 8 4 then s.complete c stBad
    else ((s.set F.twnPeriodHours (m.arg 8 4)).scheduleSwap s.twn.swapBase).complete c stOk)

/-- TWN_QUERY (R371). -/
def execTwnQuery (c : CmdRef) (s : State) : Host.Outcome State Fault Refusal :=
  .next (s.runCmd c 0x0A04 fun _ s => s.complete c stOk (
    [BitVec.ofNat 8 (s.get F.twnStatusActiveHalf), BitVec.ofNat 8 (s.get F.twnStatusStateA),
      BitVec.ofNat 8 (s.get F.twnStatusStateB)]
    ++ leBytes 4 (s.claim .a) ++ leBytes 4 (s.claim .b) ++ leBytes 4 (s.get F.twnGateClaimClaim)
    ++ [BitVec.ofNat 8 (s.get F.twnQuarCauseA), BitVec.ofNat 8 (s.get F.twnQuarCauseB)]
    ++ leBytes 4 (s.get F.twnSwitchesCount) ++ leBytes 4 (s.get F.twnLastGapCycles)
    ++ leBytes 8 (s.get F.twnNextSwapTimestamp)))

end Sys2Proof.Machine
end

