-- ==== Sys2Proof/Machine/Device.lean ====
section
/-!
DEFINITION. Device commands (R339) and draining (R342).
-/

namespace Sys2Proof.Machine

/-- DEV_NOP. -/
def execDevNop (c : CmdRef) (s : State) : Host.Outcome State Fault Refusal :=
  .next (s.runCmd c 0x0101 fun _ s => s.complete c stOk)

/-- The usable-array map that DEV_INFO reports (R339). -/
def State.usableMap (s : State) : Nat := mapOf (allArrays.filter fun (n : ArrayNum) => s.usable n)

/-- The partitions in use, bit p for partition p. -/
def State.partsInUse (s : State) : Nat := s.allPartBits.toNat

/-- DEV_INFO. -/
def execDevInfo (c : CmdRef) (s : State) : Host.Outcome State Fault Refusal :=
  .next (s.runCmd c 0x0102 fun _ s => s.complete c stOk (
    leBytes 8 s.usableMap ++ leBytes 1 s.partsInUse ++ leBytes 1 (s.get F.twnStatusActiveHalf) ++ leBytes 1 s.lifecycle
      ++ leBytes 1 0 ++ leBytes 4 (s.get F.spnFwVerVersion) ++ leBytes 8 Config.serial.toNat))

/-- DEV_TIME: the counter when the command started (R339). (DEDUCED, log entry 63.) -/
def execDevTime (c : CmdRef) (s : State) : Host.Outcome State Fault Refusal :=
  .next (s.runCmd c 0x0103 fun m s => s.complete c stOk (leBytes 8 m.started.toNat))

/-- The module starts draining. -/
def State.startDrain (s : State) : State := (s.set F.spnStatusDraining 1).set F.spnStatusDrained 0

/-- DEV_DRAIN (R342). (DEDUCED, log entry 63.) -/
def execDevDrain (c : CmdRef) (s : State) : Host.Outcome State Fault Refusal :=
  .next (s.runCmd c 0x0104 fun _ s => (s.startDrain).park c .drain)

/-- Whether a completion is held and not yet written: one that carries held, or in a gap any that waits for its writer (R336).
One of a closed session is never written. -/
def State.heldLeft (s : State) : Bool :=
  s.spn.cmds.any fun m => match m.comp with
    | some x => (x.held || s.flag F.twnStatusGap) && !m.orphan
    | none => false

/-- Whether a draining module is drained: arrays idle, no step, no picture in a pipe, no held completion (R342). -/
def State.drainDone (s : State) : Bool :=
  (allArrays.all fun (n : ArrayNum) => !s.busy n)
    && (allParts.all fun (p : PartNum) => (s.reel.steps[p.val]).isNone)
    && !(s.vid.toList.any fun v => match v with
      | some x => x.inPipe.isSome
      | none => false)
    && !s.heldLeft

/-- Completes every DEV_DRAIN that waits. (DEDUCED, log entry 63.) -/
def State.finishDrain (s : State) : State :=
  s.spn.cmds.foldl (fun (s : State) (m : Cmd) => if m.wait = .drain then s.complete m.ref stOk else s) s

/-- DEV_RESUME ends draining or drained; a DEV_DRAIN that still waits completes. (DEDUCED, log entry 63.) -/
def execDevResume (c : CmdRef) (s : State) : Host.Outcome State Fault Refusal :=
  .next (s.runCmd c 0x0105 fun _ s =>
    (((s.set F.spnStatusDraining 0).set F.spnStatusDrained 0).finishDrain).complete c stOk)

end Sys2Proof.Machine
end

