-- ==== Sys2Proof/Machine/Power.lean ====
section
/-!
DEFINITION. The power manager (R408 to R422, R436): estimates, the effective cap and settling, shares, the choice and
pacing of arrays turned off and released, power-gating, rotation, and the power commands. Estimates are in 0.01 W.
-/

namespace Sys2Proof.Machine

/-! ### Small operations -/

/-- Changes the power manager. -/
def State.modPm (s : State) (f : PowerMgr → PowerMgr) : State := { s with pm := f s.pm }

/-- An array map with one array's bit set or cleared. -/
def withArr (m : DWord) (n : ArrayNum) (b : Bool) : DWord :=
  if b then m ||| BitVec.ofNat 64 (2 ^ n.val) else m &&& ~~~(BitVec.ofNat 64 (2 ^ n.val))

/-- A 16-bit two's complement number. -/
def signed16 (v : Nat) : Int := if v < 32768 then v else (v : Int) - 65536

/-- The 16 bits of a number in two's complement. -/
def bits16 (v : Int) : Nat := (v % 65536).toNat

/-- Whether the power manager's firmware runs (R437). -/
def State.pmReady (s : State) : Bool := s.flag F.pwrStatusReady

/-- The used temperature of an array's hot spot, in 0.1 °C (R424). -/
def State.usedTemp (s : State) (n : ArrayNum) : Int := signed16 (s.get (F.thmHotUsed n))

/-- A report of class POWER (R486). -/
def State.powerEvent (s : State) (severity status : Nat) (affected : BitVec 8) : State :=
  s.report { source := 0x048, cls := 0x0A, severity := severity, status := status, affected := affected }

/-! ### Estimates (R408) -/

/-- An array's estimate. -/
def State.arrEst (s : State) (n : ArrayNum) : Nat := s.get (F.pwrAEstEst n)

/-- The platform's estimate. -/
def State.platEst (s : State) : Nat := 10 * s.get F.pwrEstPlatform

/-- The module's estimate. -/
def State.moduleEst (s : State) : Nat := (allArrays.map fun n => s.arrEst n).sum + s.platEst

/-- A partition's estimate (R418). -/
def State.partEst (s : State) (p : PartNum) : Nat := ((s.arraysOf p).map fun n => s.arrEst n).sum

/-- What the platform reserve covers: the platform and the arrays of no partition (R418). -/
def State.reserveEst (s : State) : Nat :=
  s.platEst + ((allArrays.filter fun n => (s.partOf n).isNone).map fun n => s.arrEst n).sum

/-! ### The effective cap (R414) -/

/-- The flow cap: 120 W plus 1 W for each mL/min, in force in Short and Loss while the flow is below 0.3 L/min; an
implausible input suspends it (R414, R429, R430). -/
def State.flowCap (s : State) : Option Nat :=
  let v := s.get F.thmInletFlow
  let on := match s.pm.flow with
    | .short => decide (v < 300)
    | .loss => decide (v < 300)
    | .normal => false
    | .low => false
  if on && !s.flag F.pwrStatusFlowFault then some (12000 + 100 * v) else none

/-- The sources of caps in force, in the order of PWR_CAUSE: host, flow, board, hardware. -/
def State.caps (s : State) : List (Option Nat) :=
  [some (100 * s.get F.pwrCapHostCap), s.flowCap, if s.pm.boardHot = 0 then none else some 12000,
    if s.pm.lossCap || s.pm.watchdog then some 12000 else none]

/-- The effective cap. -/
def State.effCap (s : State) : Nat :=
  (s.caps.filterMap id).foldl min (100 * s.get F.pwrCapHostCap)

/-! ### Shares (R418, R419) -/

/-- A partition's share S_p, in eighths of a watt: the last one given, or 345 W × groups / 8.
(DEDUCED, log entry 50.) -/
def State.share8 (s : State) (p : PartNum) : Nat :=
  if !(s.part p).live then 0
  else if s.pm.shareGiven.getLsbD p then 8 * s.get (F.pwrShareShare p) else 345 * groupCount (s.part p).groups

/-- The sum of all shares. -/
def State.shareSum8 (s : State) : Nat := (allParts.map fun p => s.share8 p).sum

/-- The applied share A_p in 0.01 W, as a numerator and a denominator. -/
def State.applied (s : State) (p : PartNum) : Nat × Nat :=
  let sum := s.shareSum8
  let room := s.effCap - 7500
  if 100 * sum ≤ 8 * room then (100 * s.share8 p, 8) else (s.share8 p * room, sum)

/-- PWR_CAP, PWR_CAUSE, hw_cap and the applied shares follow the caps in force. -/
def State.refreshCap (s : State) : State :=
  let e := s.effCap
  let s := s.set F.pwrCapEffCap (e / 100)
  let s := (List.zip [F.pwrCauseHost, F.pwrCauseFlow, F.pwrCauseBoard, F.pwrCauseHardware] s.caps).foldl
    (fun (s : State) x => s.set x.1 (bitNum (x.2 == some e))) s
  let s := s.set F.pwrStatusHwCap (bitNum (s.pm.lossCap || s.pm.watchdog))
  allParts.foldl (fun (s : State) (p : PartNum) => s.set (F.pwrShareApplied p) ((s.applied p).1 / (100 * (s.applied p).2))) s

/-- A cap starts settling when the estimate exceeds it (R416); only a cap that fell by itself leaves a record. -/
def State.beginSettle (s : State) (rec_ : Bool) : State :=
  if s.effCap < s.moduleEst ∧ s.flag F.pwrStatusSettling = false then
    let s := s.set F.pwrStatusSettling 1
    if rec_ then s.powerEvent 0 stSettling s.allPartBits else s
  else s

/-- Changes what the flow cap, the board-sensor cap and the hardware cap rest on (R414, R416). -/
def State.changeCaps (s : State) (f : State → State) : State :=
  let before := s.effCap
  let s := (f s).refreshCap
  if s.effCap < before then s.beginSettle true else s

/-! ### The warm floor (R432) -/

/-- Whether an idle array may run a warming load, its temperature left aside. (DEDUCED, log entry 50.) -/
def State.mayWarm (s : State) (n : ArrayNum) : Bool :=
  s.flag F.thmStatusWarmEn && s.usable n && !s.busy n && (s.arr n).power == .running && s.pm.capOff == 0
    && (if s.flag F.pwrStatusIsolated then
        (match s.partOf n with
        | some p => decide (100 * (s.applied p).2 * s.partEst p ≤ 97 * (s.applied p).1)
        | none => decide (100 * s.reserveEst ≤ 97 * 7500))
      else decide (100 * s.moduleEst ≤ 97 * s.effCap))

/-- Warming loads stop where their conditions end: at the floor plus 3 °C, or when the array may not warm. -/
def State.stopWarming (s : State) : State :=
  allArrays.foldl (fun (s : State) n =>
    if (s.arr n).warming && (!s.mayWarm n || decide ((10 * s.get F.thmFloorFloor + 30 : Nat) ≤ s.usedTemp n)) then
      s.modArr n fun a => { a with warming := false }
    else s) s

/-! ### POWER_ESTIMATE, ESTIMATE_TRIM (R408, R409, R416, R421) -/

/-- The last n ticks of estimates. (DESIGN CHOICE, log entry 49.) -/
def State.recentEst (s : State) (n : Nat) : List (List Nat) :=
  (s.pm.history.filter fun x => decide ((s.time - x.1).toNat < n)).map (·.2)

/-- The average of one entry over estimates. (DESIGN CHOICE, log entry 49.) -/
def avgAt (h : List (List Nat)) (i : Nat) : Nat := (h.map fun x => (x[i]?).getD 0).sum / max 1 h.length

/-- A settling ends at the first estimate at or below the cap (R416). -/
def State.endSettle (s : State) : State :=
  if s.flag F.pwrStatusSettling && decide (s.moduleEst ≤ s.effCap) then
    (s.set F.pwrStatusSettling 0).raiseBit F.pwrStatusSettled
  else s

/-- The activity counts of R408 in the order of their weights: rows by operand pair, eleven of them, then the others. -/
def actCounts (a : Activity) : List Nat :=
  ((List.range 11).map fun k => (a.rows[k]?).getD 0) ++ [a.staged, a.spoolLines, a.rowOps, a.transformOps, a.remoteLines]

/-- The weighted sum of an array's activity at its voltage, in microwatts (R408, R434). -/
def weighted (vdd : Nat) (a : Activity) : Nat := ((List.zipIdx (actCounts a)).map fun x => Config.estWeight vdd x.2 * x.1).sum

/-- An array's untrimmed estimate in 0.01 W (R408): the weighted sum of its activity plus the static term of its voltage and its
hot spot's temperature. (DESIGN CHOICE, log entry 49.) -/
def State.rawEst (s : State) (n : ArrayNum) (a : Option Activity) : Nat :=
  let vdd := s.get (F.pwrAVfVddMv n)
  ((a.map (weighted vdd)).getD 0 + Config.staticTerm n.val vdd (s.usedTemp n)) / 10000

/-- The estimates of one 2 µs interval: each array's from the activity that its hardware counted, trimmed under R409, and the
platform's in 0.1 W. (DESIGN CHOICE, log entry 49.) -/
def State.estimate (s : State) (acts : List Activity) (platform : Nat) : State :=
  let est := fun (n : ArrayNum) => min 65535 (((s.rawEst n acts[n.val]? : Nat) : Int) + SMap.look 0 s.pm.trims n.val).toNat
  let es := allArrays.map est
  let s := allArrays.foldl (fun (s : State) (n : ArrayNum) => s.set (F.pwrAEstEst n) (est n)) s
  let s := s.set F.pwrEstPlatform (min platform 65535)
  let s := s.set F.pwrEstModule (min 65535 (s.moduleEst / 10))
  s.modPm fun m => { m with
    lastRun := allArrays.foldl (fun (x : SMap Nat) n =>
      if (s.arr n).power == .running then SMap.put 0 x n.val (s.arrEst n) else x) m.lastRun
    history := (m.history.filter fun x => decide ((s.time - x.1).toNat < 10000000)) ++ [(s.time, es ++ [s.platEst])] }

/-- POWER_ESTIMATE (R408): the power mode that PWR_MODE chose applies now (R421), and settling may end (R416).
(DESIGN CHOICE, log entry 49.) -/
def execPowerEstimate (arrays : List Activity) (platform : Nat) (s : State) : Host.Outcome State Fault Refusal :=
  .next (if !s.board.stages.getLsbD 1 then s
    else
      let s := s.estimate arrays platform
      let s := match s.pm.isolatedNext with
        | some b => (s.set F.pwrStatusIsolated (bitNum b)).modPm fun m => { m with isolatedNext := none }
        | none => s
      s.refreshCap.endSettle.stopWarming)

/-- ESTIMATE_TRIM (R409): the arrays' averages over the last 100 ms become the trimmed ones, provided that they put the
module's average between the measured power and 3% of the cap above it. (DESIGN CHOICE, log entry 49.) -/
def execEstimateTrim (measured : Nat) (trimmed : List Nat) (s : State) : Host.Outcome State Fault Refusal :=
  .next (let h := s.recentEst 10000000
    let len := h.length
    let total := len * trimmed.sum + (h.map fun x => (x[64]?).getD 0).sum
    if s.pmReady && decide (0 < len) && trimmed.length == 64 && decide (measured * len ≤ total)
        && decide (100 * total ≤ len * (100 * measured + 3 * s.effCap)) then
      s.modPm fun m => { m with
        trims := allArrays.foldl (fun (t : SMap Int) n =>
          SMap.put 0 t n.val (SMap.look 0 t n.val + ((trimmed[n.val]?).getD 0 : Nat) - (avgAt h n.val : Nat))) m.trims }
    else s)

/-! ### Choosing arrays (R413, R418) -/

/-- Whether an array is held off by throttling or by a trip. -/
def State.heatHeld (s : State) (n : ArrayNum) : Bool := s.pm.dutyOff.getLsbD n || s.pm.tripOff.getLsbD n

/-- Running arrays that may be taken off for a cap: arrays under test never are (R452). -/
def State.capCands (s : State) : List ArrayNum :=
  allArrays.filter fun n => s.usable n && (s.arr n).power == .running && (s.arr n).test == .none && !s.heatHeld n

/-- The hottest of some arrays, the highest number of equals. -/
def State.hottest (s : State) (ns : List ArrayNum) : Option ArrayNum :=
  ns.foldl (fun (b : Option ArrayNum) n =>
    match b with
    | none => some n
    | some x => if s.usedTemp x ≤ s.usedTemp n then some n else some x) none

/-- How many of a partition's usable arrays are off for power, and how many it has. -/
def State.offShare (s : State) (p : PartNum) : Nat × Nat :=
  (((s.arraysOf p).filter fun n => s.offForPower n).length, (s.arraysOf p).length)

/-- The array to take off among some partitions: from those with the smallest fraction off, the hottest (R413 item 2). -/
def State.pickIn (s : State) (cands : List ArrayNum) (ps : List PartNum) : Option ArrayNum :=
  let ps := ps.filter fun p => cands.any fun n => s.inPart p n
  let least := ps.filter fun p => ps.all fun q =>
    decide ((s.offShare p).1 * (s.offShare q).2 ≤ (s.offShare q).1 * (s.offShare p).2)
  s.hottest (cands.filter fun n => least.any fun p => s.inPart p n)

/-- The array to take off in shared mode (R413 items 1 and 2). -/
def State.pickShared (s : State) (cands : List ArrayNum) : Option ArrayNum :=
  match s.hottest (cands.filter fun n => (s.partOf n).isNone) with
  | some n => some n
  | none => s.pickIn cands allParts

/-- Partitions over their applied share (R418). -/
def State.overParts (s : State) : List PartNum :=
  allParts.filter fun p => (s.part p).live && decide ((s.applied p).1 < s.partEst p * (s.applied p).2)

/-- Arrays that only a cap holds off, and the one of them that has been off longest. -/
def State.capHeld (s : State) : List ArrayNum :=
  allArrays.filter fun n => s.pm.capOff.getLsbD n && !s.heatHeld n

/-- The array off longest, the lowest number of equals (R413). -/
def State.offLongest (s : State) (ns : List ArrayNum) : Option ArrayNum :=
  ns.foldl (fun (b : Option ArrayNum) n =>
    match b with
    | none => some n
    | some x => if (s.arr n).offSince.toNat < (s.arr x).offSince.toNat then some n else some x) none

/-- The next array that a cap takes off, if one must come off (R413, R414, R418, R431); while a rotation's swap has one to
take off, the next in order, in isolated mode from the pool of the array off longest. (DEDUCED, log entry 50.) -/
def State.capPick (s : State) : Option ArrayNum :=
  let cands := s.capCands
  if !s.pmReady then
    if (s.pm.lossCap || s.pm.watchdog) && decide (s.effCap < s.moduleEst) then cands.getLast? else none
  else if s.pm.swapStep = 1 then
    if s.flag F.pwrStatusIsolated then
      match s.offLongest s.capHeld with
      | some x => s.pickShared (cands.filter fun n => s.partOf n == s.partOf x)
      | none => none
    else s.pickShared cands
  else if s.flag F.pwrStatusIsolated then
    match s.pickIn cands s.overParts with
    | some n => some n
    | none => if 7500 < s.reserveEst then s.hottest (cands.filter fun n => (s.partOf n).isNone) else none
  else if s.effCap < s.moduleEst then s.pickShared cands
  else none

/-- Whether a capped array may be released (R414, R418). -/
def State.mayRelease (s : State) (n : ArrayNum) : Bool :=
  let last := SMap.look 0 s.pm.lastRun n.val
  if s.flag F.pwrStatusIsolated then
    match s.partOf n with
    | some p => decide (100 * (s.applied p).2 * (s.partEst p + last) ≤ 97 * (s.applied p).1)
    | none => decide (100 * (s.reserveEst + last) ≤ 97 * 7500)
  else decide (100 * (s.moduleEst + last) ≤ 97 * s.effCap)

/-- The capped arrays that are next to be released: the one off longest, in isolated mode of each pool. -/
def State.capRelease (s : State) : List ArrayNum :=
  let pools := if s.flag F.pwrStatusIsolated then
      (none :: allParts.map some).map fun q => s.capHeld.filter fun n => s.partOf n == q
    else [s.capHeld]
  (pools.filterMap fun ns => s.offLongest ns).filter fun n => s.mayRelease n

/-- The array to release (R413): one that nothing holds any more, the one that a rotation's swap gives back, or one that
the cap allows; none while a cap settles or without firmware (R417, R431). (DEDUCED, log entry 50.) -/
def State.releasePick (s : State) : Option ArrayNum :=
  if s.flag F.pwrStatusSettling || !s.pmReady then none
  else
    let free := allArrays.filter fun n => s.offForPower n && s.usable n && !s.pm.capOff.getLsbD n && !s.heatHeld n
      && !s.pm.releasing.getLsbD n
    let capped := if s.pm.swapStep = 2 then (s.offLongest s.capHeld).toList else s.capRelease
    s.offLongest (free ++ capped)

/-! ### PACING_SLOT (R410, R411) -/

/-- The lowest array that throttling or a trip has still to stop. -/
def State.heatPick (s : State) : Option ArrayNum :=
  allArrays.find? fun n => s.heatHeld n && s.usable n && (s.arr n).power == .running

/-- An array comes off for throttling; its off part starts here (R426). -/
def State.heatStop (s : State) (n : ArrayNum) : State :=
  (s.clockStop n).modPm fun m => { m with dutySince := SMap.put none m.dutySince n.val (some s.time) }

/-- An array comes off for a cap. -/
def State.capStop (s : State) (n : ArrayNum) : State :=
  (s.clockStop n).modPm fun m => { m with
    capOff := withArr m.capOff n true
    capSince := SMap.put none m.capSince n.val (some s.time)
    rotAt := if m.capOff = 0 then s.time else m.rotAt
    swapStep := if m.swapStep = 1 then 2 else m.swapStep }

/-- An array's release is decided: a clock-stopped one runs again, a power-gated one is on its way (R410). -/
def State.releaseArr (s : State) (n : ArrayNum) : State :=
  let gated := (s.arr n).power == .gated
  let s := s.modPm fun m => { m with
    capOff := withArr m.capOff n false
    capSince := SMap.put none m.capSince n.val none
    releasing := if gated then withArr m.releasing n true else m.releasing
    swapStep := if m.swapStep = 2 then 0 else m.swapStep }
  if gated then s else s.release n

/-- A rotation's swap is over when nothing is left to take off or to give back. (DEDUCED, log entry 50.) -/
def State.swapIdle (s : State) : State := s.modPm fun m => { m with swapStep := 0 }

/-- Whether a paced change may be made now: the last one lies at least 10 µs back (R411). -/
def State.slotOpen (s : State) : Bool :=
  match s.pm.lastSlot with
  | none => true
  | some t => decide (1000 ≤ (s.time - t).toNat)

/-- An array has changed between running and off: the slot is taken (R411). -/
def State.tookSlot (s : State) : State := s.modPm fun m => { m with lastSlot := some s.time }

/-- A decided release at a slot: an array that only leaves its clock-stop changes now, a power-gated one when its power is back
(R410, R411). -/
def State.releaseSlot (s : State) (n : ArrayNum) : State :=
  if (s.arr n).power == .gated then s.releaseArr n else (s.releaseArr n).tookSlot

/-- PACING_SLOT (R411): in each 10 µs at most one array changes; thermal stops first, then cap stops, then releases.
(DEDUCED, log entry 50.) -/
def execPacingSlot (s : State) : Host.Outcome State Fault Refusal :=
  .next (if !s.board.stages.getLsbD 1 || !s.slotOpen then s
    else
      match s.heatPick with
      | some n => (s.heatStop n).tookSlot
      | none =>
        match s.capPick with
        | some n => (s.capStop n).tookSlot
        | none =>
          let s := if s.pm.swapStep = 1 then s.swapIdle else s
          match s.releasePick with
          | some n => s.releaseSlot n
          | none => s)

/-! ### Power-gating and rotation (R410, R412) -/

/-- gate_ms in ticks; 0 acts as 2. -/
def State.gateTicks (s : State) : Nat := 100000 * (if s.get F.pwrCtlGateMs = 0 then 2 else s.get F.pwrCtlGateMs)

/-- Whether a moment kept in a table lies at least n ticks back. -/
def State.sinceAtLeast (s : State) (m : SMap (Option DWord)) (k n : Nat) : Bool :=
  match SMap.look none m k with
  | some t => decide (n ≤ (s.time - t).toNat)
  | none => false

/-- An array starts its drain before a power-gate (R410). -/
def State.startGate (s : State) (n : ArrayNum) : State :=
  s.modArr n fun a => match a.power with
    | .running => { a with power := .draining, offSince := s.time, warming := false }
    | .clockStopped => { a with power := .draining }
    | .draining => a
    | .gated => a

/-- Whether a hold of R412 calls for an array's power-gate: a cap, or throttling with d = 16, that has held it clock-stopped for
gate_ms. -/
def State.gateHeld (s : State) (n : ArrayNum) : Bool :=
  let cap := s.pm.capOff.getLsbD n && s.sinceAtLeast s.pm.capSince n.val s.gateTicks
  let full := s.pm.dutyOff.getLsbD n && s.get (F.pwrADutyD n) == 16 && s.sinceAtLeast s.pm.fullSince n.val s.gateTicks
  s.pmReady && (s.arr n).power == .clockStopped && (cap || full)

/-- GATE_HOLD_EXPIRY (R412). -/
def execGateHoldExpiry (n : ArrayNum) (s : State) : Host.Outcome State Fault Refusal :=
  .next (if s.gateHeld n then s.startGate n else s)

/-- POWER_GATE_DRAIN_DONE (R410): every issued instruction has completed; the compute section loses power, and with it
the cell weight buffers (R34). -/
def execPowerGateDrainDone (n : ArrayNum) (s : State) : Host.Outcome State Fault Refusal :=
  .next (if (s.arr n).power == .draining && (s.arr n).quiet then
      s.modArr n fun a => { a with power := .gated, wbuf := [] }
    else s)

/-- RELEASE_FROM_POWER_GATE (R89, R410): power and the retained state return, and restaging begins, in a slot of its own (R411);
none while a cap settles, nor under the watchdog's hardware cap (R413, R417). -/
def execReleaseFromPowerGate (n : ArrayNum) (s : State) : Host.Outcome State Fault Refusal :=
  .next (if s.pm.releasing.getLsbD n && s.slotOpen && s.pmReady && !s.flag F.pwrStatusSettling then
      let s := s.modPm fun m => { m with releasing := withArr m.releasing n false }
      if (s.arr n).power == .gated then (s.release n).tookSlot else s
    else s)

/-! ### The power sequencer's gated writes (R361, R410 to R413) -/

/-- An array clock-stop that Spindle asks for: a running array that no test holds, at a slot (R410, R411, R452).
(DEDUCED, log entry 50.) -/
def State.seqStop (s : State) (n : ArrayNum) : State :=
  if s.slotOpen && s.usable n && (s.arr n).power == .running && (s.arr n).test == .none then (s.clockStop n).tookSlot else s

/-- A power-gate that Spindle asks for, where one of the three holds of R412 calls for it: a hold of gate_ms, or a trip of the
array's own sensors. (DEDUCED, log entry 50.) -/
def State.seqGate (s : State) (n : ArrayNum) : State :=
  if s.gateHeld n || (s.pmReady && s.usable n && s.pm.ownTrip.getLsbD n) then s.startGate n else s

/-- A release that Spindle asks for, at a slot, of an array that nothing holds off any more, or only a cap that allows it; none
while a cap settles or without firmware (R413, R414, R417, R428). (DEDUCED, log entry 50.) -/
def State.seqRelease (s : State) (n : ArrayNum) : State :=
  if s.slotOpen && s.pmReady && !s.flag F.pwrStatusSettling && s.usable n && s.offForPower n && !s.heatHeld n
      && (!s.pm.capOff.getLsbD n || s.mayRelease n) then s.releaseSlot n
  else s

/-- ROTATION (R412): every rot_ms while a cap holds some of the running-capable arrays off. (DEDUCED, log entry 50.) -/
def execRotation (s : State) : Host.Outcome State Fault Refusal :=
  .next (let ms := s.get F.pwrCtlRotMs
    let k := (allArrays.filter fun n => s.pm.capOff.getLsbD n).length
    let capable := (allArrays.filter fun n => s.usable n && !s.heatHeld n).length
    if s.pmReady && ms != 0 && decide (0 < k) && decide (k < capable) && s.pm.swapStep == 0
        && decide (100000 * ms ≤ (s.time - s.pm.rotAt).toNat) then
      s.modPm fun m => { m with swapStep := 1, rotAt := s.time }
    else s)

/-! ### Commands (R415, R419, R421, R433, R436) -/

/-- The host's cap becomes a value of 120 to 420 W, and settles (R415). -/
def State.setHostCap (s : State) (watts : Nat) : State :=
  let cap := min 420 (max 120 watts)
  let s : State := { s.set F.pwrCapHostCap cap with flash := { s.flash with hostCap := cap } }
  s.refreshCap.beginSettle false

/-- PWR_CAP (R415). -/
def execPwrCap (c : CmdRef) (s : State) : Host.Outcome State Fault Refusal :=
  .next (s.runCmd c 0x0601 fun m s =>
    let v := m.arg 8 2
    let t := s.setHostCap v
    t.complete c (if v < 120 then stFloor else if t.effCap < t.moduleEst then stSettling else stOk))

/-- The power mode becomes opportunistic or not, and the next isolation is kept (R420, R421). -/
def State.setPowerMode (s : State) (fast isolated : Bool) : State :=
  let s := if fast == s.flag F.pwrStatusOpportunistic then s
    else (s.set F.pwrStatusOpportunistic (bitNum fast)).modPm fun x => { x with freqWait := BitVec.ofNat 64 s.usableMap }
  s.modPm fun x => { x with isolatedNext := some isolated }

/-- PWR_MODE (R420, R421). -/
def execPwrMode (c : CmdRef) (s : State) : Host.Outcome State Fault Refusal :=
  .next (s.runCmd c 0x0602 fun m s =>
    if allArrays.any fun n => s.pm.freqWait.getLsbD n && s.usable n then s.complete c stBusy
    else (s.setPowerMode (m.arg 8 1 == 1) (m.arg 9 1 == 1)).complete c stOk)

/-- The compute clock of an array stands for at least some ticks, which does not count as off for power (R421, R434). -/
def State.holdClock (s : State) (n : ArrayNum) (ticks : Nat) : State :=
  s.modArr n fun a => { a with clockHold := max a.clockHold ticks }

/-- FREQUENCY_RELOCK (R420, R421): an idle array's clock takes the frequency of the mode, and stands for the 20 µs of its
re-lock. (DEDUCED, log entry 50.) -/
def execFrequencyRelock (n : ArrayNum) (s : State) : Host.Outcome State Fault Refusal :=
  .next (if s.pm.freqWait.getLsbD n && !s.busy n then
      let f := if s.flag F.pwrStatusOpportunistic then min (s.get (F.pwrAVfFMax n)) 236 else 200
      ((s.set (F.pwrAVfFRun n) f).holdClock n 2000).modPm fun m => { m with freqWait := withArr m.freqWait n false }
    else s)

/-- PWR_SHARE (R419). -/
def execPwrShare (c : CmdRef) (s : State) : Host.Outcome State Fault Refusal :=
  .next (s.runPart c 0x0603 fun m p s =>
    let v := m.arg 8 2
    let rest := s.shareSum8 - s.share8 p
    if v < 2 * (s.arraysOf p).length ∨ 345 < v ∨ 8 * 345 < rest + 8 * v then s.complete c stBad
    else
      (((s.set (F.pwrShareShare p) v).modPm fun x => { x with shareGiven := x.shareGiven ||| partBit p }).refreshCap).complete
        c stOk)

/-- THM_WARM (R433). -/
def execThmWarm (c : CmdRef) (s : State) : Host.Outcome State Fault Refusal :=
  .next (s.runCmd c 0x0604 fun m s =>
    let t := m.arg 9 1
    if 1 < m.arg 8 1 ∨ t < 30 ∨ 75 < t then s.complete c stBad
    else
      let s : State := { s with flash := { s.flash with warm := m.arg 8 1 == 1, floor := t } }
      (((s.set F.thmStatusWarmEn (m.arg 8 1)).set F.thmFloorFloor t).stopWarming).complete c stOk)

/-- A map of the arrays whose throttled bit is set (R427), within some arrays. -/
def State.throttledMap (s : State) (ns : List ArrayNum) : Nat :=
  mapOf (ns.filter fun n => s.flag (F.pwrADutyThrottled n))

/-- The row of R436 for a partition. -/
def State.queryPart (s : State) (p : PartNum) : List Byte :=
  let a := if s.flag F.pwrStatusIsolated then (s.applied p).1 / (10 * (s.applied p).2) else 0
  leBytes 2 a ++ leBytes 2 (s.partEst p / 10) ++ leBytes 8 (s.throttledMap (s.arraysOf p))

/-- The row of R436 for the module. -/
def State.queryModule (s : State) : List Byte :=
  let off := s.arrayMap fun a => a.power != .running
  let hot := allArrays.foldl (fun (m : Option Int) n =>
    some (match m with
      | none => s.usedTemp n
      | some x => max x (s.usedTemp n))) none
  leBytes 2 (s.get F.pwrCapHostCap) ++ leBytes 2 (s.get F.pwrCapEffCap)
    ++ leBytes 1 (bitsAt (s.reg F.pwrCauseHost.key).toNat 0 4)
    ++ leBytes 1 (s.get F.pwrStatusOpportunistic + 2 * s.get F.pwrStatusIsolated)
    ++ leBytes 2 (s.get F.pwrEstModule) ++ leBytes 2 (s.get F.pwrEstPlatform) ++ leBytes 2 (s.get F.thmInletFlow)
    ++ leBytes 2 (s.get F.thmInletInlet) ++ leBytes 2 (bits16 (hot.getD 0))
    ++ leBytes 1 (allArrays.filter fun n => s.offForPower n).length
    ++ leBytes 1 (allArrays.filter fun n => s.get (F.pwrADutyD n) != 0).length
    ++ leBytes 8 off ++ leBytes 1 (s.get F.thmStatusWarmEn) ++ leBytes 1 (s.get F.thmFloorFloor)

/-- PWR_QUERY (R405, R436): a tenant pair gets its own partition's row. -/
def execPwrQuery (c : CmdRef) (s : State) : Host.Outcome State Fault Refusal :=
  .next (s.runCmd c 0x0605 fun m s =>
    match s.concerns m with
    | some p => s.complete c stOk (s.queryPart p)
    | none => s.complete c stOk s.queryModule)

end Sys2Proof.Machine
end

