-- ==== Sys2Proof/Machine/Thermal.lean ====
section
/-!
DEFINITION. Heat, coolant and ageing (R423 to R435, R519): sensors and used temperatures, trips, throttling, coolant
flow and its loss, the power manager's watchdog, warming loads and the ageing re-plan. Temperatures are in 0.1 °C.
-/

namespace Sys2Proof.Machine

/-! ### Sensors (R423, R424) -/

/-- A sensor's reading. -/
def State.reading (s : State) (i : Nat) : Int := signed16 (s.get (F.thmSensorReading i))

/-- Whether a sensor's last reading was plausible. -/
def State.plausible (s : State) (i : Nat) : Bool := s.get (F.thmSensorState i) == 0

/-- The inlet temperature that the model uses; the highest rated one when the input is open or shorted (R430).
(PRESUMED, log entry 52.) -/
def State.inlet (s : State) : Int := if s.pm.inletOk then signed16 (s.get F.thmInletInlet) else 450

/-- The state of a reading (R424): an open or shorted inlet input suspends the below-inlet check (R430). -/
def State.readState (s : State) (r : SensorRead) : Nat :=
  match r with
  | .opened => 1
  | .shorted => 2
  | .value t => if s.pm.inletOk ∧ t < s.inlet - 50 then 3 else 0

/-- The partition whose array a sensor belongs to, and the partitions that a record about the sensor affects (R488).
(DEDUCED, log entry 51.) -/
def State.sensorScope (s : State) (i : Nat) : Option PartNum × BitVec 8 :=
  match allArrays[i / 2]? with
  | some n => (s.partOf n, affectedBy (s.partOf n))
  | none => (none, if i < 140 then s.allPartBits else 0)

/-- A report of class THERMAL (R486, R487): the sensor, its reading and that of the other sensor of its hot spot. -/
def State.thermalEvent (s : State) (i status : Nat) : State :=
  let other := if i < 128 then (if i % 2 = 0 then i + 1 else i - 1) else i
  let p := s.sensorScope i
  s.report {
    source := 0x049, cls := 0x0B, severity := 2, part := p.1, affected := p.2, status := status, inst := i
    detail := leBytes 2 (s.get (F.thmSensorReading i)) ++ (if i < 128 then leBytes 2 (s.get (F.thmSensorReading other)) else []) }

/-- One sensor converts (R424): a reading that is open or shorted leaves the shown value, and the first of a run of
implausible readings is reported. (DEDUCED, log entry 51.) -/
def State.convert (s : State) (i : Nat) (r : SensorRead) : State :=
  let st := s.readState r
  let s := s.set (F.thmSensorState i) st
  let s := match r with
    | .value t => s.set (F.thmSensorReading i) (bits16 t)
    | .opened => s
    | .shorted => s
  let seen := SMap.look false s.pm.reported i
  let s := s.modPm fun m => { m with reported := SMap.put false m.reported i (st != 0) }
  if st ≠ 0 ∧ seen = false then (s.raiseBit F.thmStatusImplausible).thermalEvent i stOk else s

/-- An array's thermal resistance at a flow in mL/min, within the rated maxima (R532): 8.0 K/W at 1.0 L/min and above, 9.5 K/W
from 0.6 L/min on. (DESIGN CHOICE, log entry 5.) -/
def thermalAt (n flow : Nat) : Nat :=
  let r := Config.thermalResistance n flow
  if 1000 ≤ flow then min 8000 r else if 600 ≤ flow then min 9500 r else r

/-- The model of an array's hot spot (R424): the inlet plus its fused thermal resistance times its estimate averaged over
20 ms. (DEDUCED, log entry 51.) -/
def State.hotModel (s : State) (n : ArrayNum) : Int :=
  s.inlet + (thermalAt n.val (s.get F.thmInletFlow) * avgAt (s.recentEst 2000000) n.val / 10000 : Nat)

/-- Neither sensor of an array's hot spot is plausible. -/
def State.blindSpot (s : State) (n : ArrayNum) : Bool := !s.plausible (2 * n.val) && !s.plausible (2 * n.val + 1)

/-- The used temperature of an array's hot spot (R424), and whether the model enters it. -/
def State.hotSpot (s : State) (n : ArrayNum) : Int × Bool :=
  let a := 2 * n.val
  let b := 2 * n.val + 1
  match s.plausible a, s.plausible b with
  | true, true => (max (s.reading a) (s.reading b), false)
  | true, false => (max (s.reading a) (s.hotModel n), true)
  | false, true => (max (s.reading b) (s.hotModel n), true)
  | false, false => (1150, false)

/-- The used temperature is shown. -/
def State.showHot (s : State) (n : ArrayNum) : State :=
  let h := s.hotSpot n
  (s.set (F.thmHotUsed n) (bits16 h.1)).set (F.thmHotModel n) (bitNum h.2)

/-! ### Trips (R428) -/

/-- A trip is counted and reported. -/
def State.countTrip (s : State) (i : Nat) : State := ((s.raiseBit F.thmStatusTrip).bump F.thmTripsTrips).thermalEvent i stOk

/-- A trip clock-stops an array, unpaced; an unusable array's power domain is off already (R455). -/
def State.tripArray (s : State) (n : ArrayNum) : State :=
  ((if s.usable n then s.clockStop n else s).set (F.pwrADutyTripped n) 1).modPm fun m => { m with
    tripOff := withArr m.tripOff n true
    releasing := withArr m.releasing n false
    coolSince := SMap.put none m.coolSince n.val none }

/-- A trip of an array's own sensors: the power manager power-gates the array at once. (DEDUCED, log entry 51.) -/
def State.tripOwn (s : State) (n : ArrayNum) (blind : Bool) (i : Nat) : State :=
  let s := ((s.countTrip i).tripArray n).modPm fun m => { m with
    ownTrip := withArr m.ownTrip n true
    blind := if blind then withArr m.blind n true else m.blind
    plausSince := SMap.put none m.plausSince n.val none }
  if s.pmReady && s.usable n then s.startGate n else s

/-- The trip of one array, and the times that its release counts (R428). (DEDUCED, log entry 51.) -/
def State.checkTrip (s : State) (n : ArrayNum) : State :=
  let hot := [2 * n.val, 2 * n.val + 1].find? fun i => s.plausible i && decide (1150 ≤ s.reading i)
  let blind := s.blindSpot n
  if !s.pm.ownTrip.getLsbD n && (hot.isSome || (blind && s.pmReady)) then s.tripOwn n blind (hot.getD (2 * n.val))
  else if s.pm.tripOff.getLsbD n then
    let since := fun (m : SMap (Option DWord)) (ok : Bool) =>
      SMap.put none m n.val (if ok then some ((SMap.look none m n.val).getD s.time) else none)
    s.modPm fun m => { m with
      blind := if blind && m.ownTrip.getLsbD n then withArr m.blind n true else m.blind
      plausSince := since m.plausSince (!blind)
      coolSince := since m.coolSince (!blind && m.dieHot == 0 && decide (s.usedTemp n ≤ 950)) }
  else s

/-- The highest used temperature of any array (R425). -/
def State.highest (s : State) : Int :=
  allArrays.foldl (fun (m : Int) n => max m (s.usedTemp n)) (-32768)

/-- A removal stops an array's compute clock where it stands, in a drain too (R503). -/
def State.freeze (s : State) (n : ArrayNum) : State :=
  s.modArr n fun a => match a.power with
    | .running => { a with power := .clockStopped, offSince := s.time, warming := false }
    | .draining => { a with power := .clockStopped }
    | .clockStopped => a
    | .gated => a

/-- A die sensor's trip, or a removal, stops the groups G0 to G7 in turn, one every 2 µs (R428, R503).
(DESIGN CHOICE, log entry 1; DEDUCED, log entries 51, 55.) -/
def State.stopGroups (s : State) : State :=
  match s.pm.dieStop with
  | none => s
  | some t =>
    let d := (s.time - t).toNat
    if d % 200 ≠ 0 then s
    else
      let fenced := s.board.fenced
      let s := (allArrays.filter fun n => s.usable n && n.val / 8 == d / 200).foldl (fun (s : State) n =>
        if fenced then s.freeze n else s.tripArray n) s
      if 7 ≤ d / 200 then s.modPm fun m => { m with dieStop := none } else s

/-- A trip of a die sensor 128 to 139, which stops every array; it stands until the sensor, or the hottest array while
its reading is implausible, is back at 95 °C (R425, R428). (DEDUCED, log entry 51.) -/
def State.checkDie (s : State) (k : Fin 12) : State :=
  let i := 128 + k.val
  let bit := BitVec.ofNat 12 (2 ^ k.val)
  let t := if s.plausible i then s.reading i else s.highest
  if s.plausible i && decide (1150 ≤ t) && !s.pm.dieHot.getLsbD k then
    let s := (s.countTrip i).modPm fun m => { m with dieHot := m.dieHot ||| bit }
    if s.pm.dieStop.isSome then s else (s.modPm fun m => { m with dieStop := some s.time }).stopGroups
  else if t ≤ 950 then s.modPm fun m => { m with dieHot := m.dieHot &&& ~~~bit }
  else s

/-! ### Diverging sensors (R425) -/

/-- How long the two readings of a hot spot have differed by more than 6 °C, or have not. (DEDUCED, log entry 51.) -/
def State.trackDiff (s : State) (n : ArrayNum) : State :=
  let a := 2 * n.val
  let both := s.plausible a && s.plausible (a + 1)
  let far := both && decide (60 < (s.reading a - s.reading (a + 1)).natAbs)
  let since := fun (m : SMap (Option DWord)) (ok : Bool) =>
    SMap.put none m n.val (if ok then some ((SMap.look none m n.val).getD s.time) else none)
  let s := s.modPm fun m => { m with
    diffSince := since m.diffSince far
    sameSince := since m.sameSince (both && !far) }
  if s.pm.diverged.getLsbD n && s.sinceAtLeast s.pm.sameSince n.val 100000000 then
    (s.set (F.thmHotDiverge n) 0).modPm fun m => { m with diverged := withArr m.diverged n false }
  else s

/-- SENSOR_DIVERGE (R425). (DEDUCED, log entry 51.) -/
def execSensorDiverge (n : ArrayNum) (s : State) : Host.Outcome State Fault Refusal :=
  .next (if s.sinceAtLeast s.pm.diffSince n.val 100000001 && !s.pm.diverged.getLsbD n then
      (((s.set (F.thmHotDiverge n) 1).raiseBit F.thmStatusDiverge).modPm fun m => { m with
        diverged := withArr m.diverged n true }).thermalEvent (2 * n.val) stDiverge
    else s)

/-! ### The board-sensor cap (R414, R531) -/

/-- A board sensor's limit. -/
def boardLimit (k : Fin 4) : Int := if k.val < 2 then 1100 else 950

/-- A board sensor reaches its limit, or is 5 °C below it; an implausible reading changes nothing. -/
def State.checkBoard (s : State) (k : Fin 4) : State :=
  let i := 140 + k.val
  let bit := BitVec.ofNat 4 (2 ^ k.val)
  if !s.plausible i then s
  else if boardLimit k ≤ s.reading i then s.modPm fun m => { m with boardHot := m.boardHot ||| bit }
  else if s.reading i ≤ boardLimit k - 50 then s.modPm fun m => { m with boardHot := m.boardHot &&& ~~~bit }
  else s

/-- SENSOR_CONVERSION (R423 to R425, R428): each sensor converts, in the order of their numbers. -/
def execSensorConversion (readings : List SensorRead) (s : State) : Host.Outcome State Fault Refusal :=
  .next (if !s.board.stages.getLsbD 1 then s
    else
      let s := (List.zipIdx (readings.take 144)).foldl (fun (s : State) x => s.convert x.2 x.1) s
      let s := allArrays.foldl (fun (s : State) n => (s.showHot n).trackDiff n) s
      let s := (List.finRange 12).foldl (fun (s : State) k => s.checkDie k) s
      let s := allArrays.foldl (fun (s : State) n => s.checkTrip n) s
      (s.changeCaps fun s => (List.finRange 4).foldl (fun (s : State) k => s.checkBoard k) s).stopWarming)

/-- TRIP_RELEASE (R428): the array has stayed at or below 95 °C for 100 ms, and a sensor has been plausible for 1 s when
neither was; a paced slot then releases it. -/
def execTripRelease (n : ArrayNum) (s : State) : Host.Outcome State Fault Refusal :=
  .next (let cool := s.pm.dieHot == 0 && s.sinceAtLeast s.pm.coolSince n.val 10000000
    let seen := !s.pm.blind.getLsbD n || s.sinceAtLeast s.pm.plausSince n.val 100000000
    if s.pm.tripOff.getLsbD n && cool && seen then
      (s.set (F.pwrADutyTripped n) 0).modPm fun m => { m with
        tripOff := withArr m.tripOff n false, ownTrip := withArr m.ownTrip n false, blind := withArr m.blind n false }
    else s)

/-! ### Throttling (R426) -/

/-- The new off fraction for a used temperature. -/
def nextDuty (t : Int) (d : Nat) : Nat :=
  if 1050 ≤ t then 16 else if 1020 ≤ t then min 16 (d + 2) else if 980 ≤ t then d else d - 1

/-- THROTTLE_PERIOD: d is updated, and the array is off for d sixteenths of the period from its first pacing slot. -/
def execThrottlePeriod (n : ArrayNum) (s : State) : Host.Outcome State Fault Refusal :=
  .next (if !s.pmReady || !s.usable n then s
    else
      let d := nextDuty (s.usedTemp n) (s.get (F.pwrADutyD n))
      let off := s.offForPower n
      (s.set (F.pwrADutyD n) d).modPm fun m => { m with
        dutyOff := withArr m.dutyOff n (d != 0)
        releasing := if d = 0 then m.releasing else withArr m.releasing n false
        dutySince := SMap.put none m.dutySince n.val (if d != 0 && off then some s.time else none)
        fullSince := SMap.put none m.fullSince n.val
          (if d = 16 then some ((SMap.look none m.fullSince n.val).getD s.time) else none) })

/-- DUTY_OFF_END: the array's d × 125 µs are over, and a paced slot releases it; with d = 16 it stays off. -/
def execDutyOffEnd (n : ArrayNum) (s : State) : Host.Outcome State Fault Refusal :=
  .next (let d := s.get (F.pwrADutyD n)
    if s.pm.dutyOff.getLsbD n && decide (d < 16) && s.sinceAtLeast s.pm.dutySince n.val (12500 * d) then
      s.modPm fun m => { m with
        dutyOff := withArr m.dutyOff n false, dutySince := SMap.put none m.dutySince n.val none }
    else s)

/-! ### Coolant (R429, R430, R519) -/

/-- The coolant flow changes state. -/
def State.setFlow (s : State) (f : FlowState) : State :=
  let s := s.set F.pwrStatusFlowLow (match f with
    | .normal => 0
    | .low => 1
    | .short => 1
    | .loss => 1)
  let s := s.set F.pwrStatusFlowShort (match f with
    | .normal => 0
    | .low => 0
    | .short => 1
    | .loss => 1)
  s.modPm fun m => { m with flow := f, flowOkSince := none }

/-- Coolant loss: the hardware cap of 120 W is in force. -/
def State.flowLost (s : State) : State :=
  ((((s.setFlow .loss).raiseBit F.pwrStatusFlowLoss).modPm fun m => { m with lossCap := true }).powerEvent 2 stOk s.allPartBits)

/-- Whether a reading of the last 100 ms was at or above 0.3 L/min. -/
def State.flowWasHigh (s : State) : Bool :=
  match s.pm.flowHigh with
  | some t => decide ((s.time - t).toNat ≤ 10000000)
  | none => false

/-- The moment from which a recovery counts. -/
def State.flowOk (s : State) (ok : Bool) : State :=
  s.modPm fun m => { m with flowOkSince := if ok then some (m.flowOkSince.getD s.time) else none }

/-- The flow states of R429 for a reading x, in eighths of a mL/min; a fall from Normal may reach Short at once.
(PRESUMED, log entry 52.) -/
def State.flowStep (s : State) (x : Nat) : State :=
  let s := if s.pm.flow = .normal ∧ x < 4800 then (s.setFlow .low).powerEvent 2 stOk 0 else s
  match s.pm.flow with
  | .normal => s
  | .low => if x < 2400 then s.setFlow .short else s.flowOk (decide (5200 ≤ x))
  | .short => if 2800 ≤ x then s.setFlow .low else s
  | .loss => s.flowOk (decide (2400 ≤ x))

/-- FLOW_READING: the loop current in µA (R519). An open or shorted input suspends the flow cap and loss detection
(R430). -/
def execFlowReading (microamps : Nat) (s : State) : Host.Outcome State Fault Refusal :=
  .next (if !s.board.stages.getLsbD 1 then s
    else s.changeCaps fun s =>
      if microamps < 3000 ∨ 22000 < microamps then
        let s := s.modPm fun m => { m with flowOkSince := none }
        if s.flag F.pwrStatusFlowFault then s else (s.set F.pwrStatusFlowFault 1).powerEvent 2 stOk 0
      else
        let x := min (microamps - 4000) 16000
        let s := (s.set F.pwrStatusFlowFault 0).set F.thmInletFlow (x / 8)
        let s := if s.pm.flow ≠ .loss ∧ x < 400 ∧ s.flowWasHigh then s.flowLost else s.flowStep x
        if 2400 ≤ x then s.modPm fun m => { m with flowHigh := some s.time } else s)

/-- FLOW_RECOVERY: 1 s at or above 0.65 L/min leads from Low to Normal, and 1 s at or above 0.3 L/min lifts the hardware
cap, to Short below 0.35 L/min and to Low otherwise. -/
def execFlowRecovery (s : State) : Host.Outcome State Fault Refusal :=
  .next (match s.pm.flowOkSince with
    | none => s
    | some t =>
      if (s.time - t).toNat < 100000000 then s
      else match s.pm.flow with
        | .low => s.setFlow .normal
        | .loss => s.changeCaps fun s =>
          (s.setFlow (if s.get F.thmInletFlow < 350 then .short else .low)).modPm fun m => { m with lossCap := false }
        | .normal => s
        | .short => s)

/-- LOSS_COMPARATOR_TRIP (R519): the loop current falls below 4.4 mA. -/
def execLossComparatorTrip (s : State) : Host.Outcome State Fault Refusal :=
  .next (if s.board.stages.getLsbD 1 && !s.flag F.pwrStatusFlowFault && s.pm.flow != .loss && s.flowWasHigh then
      s.changeCaps fun s => s.flowLost
    else s)

/-- 10^16 times the resistance of a PT1000 at k tenths of a degree (R519: IEC 60751). (PRESUMED, log entry 52.) -/
def pt1000 (k : Int) : Int :=
  10000000000000000000 + 3908300000000000 * k - 57750000000 * k * k - (if k < 0 then 4183 * (k - 1000) * k * k * k else 0)

/-- The highest temperature whose resistance does not exceed a reading, found from the top bit of an offset down.
(PRESUMED, log entry 52.) -/
def rtdTemp (ohms : Nat) : Int :=
  (List.range 13).foldl (fun (t : Int) i =>
    let u := t + (2 : Int) ^ (12 - i)
    if pt1000 u ≤ (ohms : Int) * 10000000000000000 then u else t) (-1100)

/-- INLET_READING (R429, R430, R519). -/
def execInletReading (ohms : Nat) (s : State) : Host.Outcome State Fault Refusal :=
  .next (if !s.board.stages.getLsbD 1 then s
    else
      let ok := decide (600 ≤ ohms) && decide (ohms ≤ 2200)
      (s.set F.thmInletInlet (bits16 (if ok then rtdTemp ohms else 450))).modPm fun m => { m with inletOk := ok })

/-! ### The watchdog (R431) -/

/-- PM_WATCHDOG: the hardware cap stays until the next start, and a fatal record of code 3 escalates. A pause's reload
suspends the watchdog for 20 ms (R475). -/
def execPmWatchdog (s : State) : Host.Outcome State Fault Refusal :=
  .next (let reload := match s.board.update.pauseAt with
      | some t => decide ((s.time - t).toNat < 2000000)
      | none => false
    if !s.pmReady || reload then s
    else
      let s := s.changeCaps fun s =>
        ((s.raiseBit F.pwrStatusPmWatchdog).set F.pwrStatusReady 0).modPm fun m => { m with watchdog := true }
      s.escalate 3 (s.fatalEv 3))

/-! ### Warming (R432) -/

/-- WARMING_LOAD_START. -/
def execWarmingLoadStart (n : ArrayNum) (s : State) : Host.Outcome State Fault Refusal :=
  .next (if s.pmReady && s.mayWarm n && decide (s.usedTemp n < (10 * s.get F.thmFloorFloor : Nat)) then
      s.modArr n fun a => { a with warming := true }
    else s)

/-! ### Ageing (R434, R435) -/

/-- Powered time since the last re-plan, in ticks. (DEDUCED, log entry 53.) -/
def State.agedFor (s : State) : Nat := s.flash.agedTicks + (s.time - s.pm.replanAt).toNat

/-- The lowest voltage at which the measured speed, in kHz, reaches 200 MHz × 1.05: steps of 5 mV up to 550 mV.
(DEDUCED, log entry 53.) -/
def planVoltage (speeds : List (Nat × Nat)) : Option (Nat × Nat) :=
  (speeds.filter fun x => x.1 % 5 == 0 && decide (x.1 ≤ 550) && decide (210000 ≤ x.2)).foldl
    (fun (b : Option (Nat × Nat)) x =>
      match b with
      | none => some x
      | some y => if x.1 < y.1 then some x else b) none

/-- A re-plan's values are applied (R434): voltage, f_max, the clock, and the margin (R435). (DEDUCED, log entry 53.) -/
def State.applyPlan (s : State) (n : ArrayNum) : State :=
  match SMap.look none s.pm.replans n.val with
  | none => s
  | some r =>
    let before := s.get (F.pwrAAgeMarginMv n)
    let margin := 550 - r.vdd
    let s := (s.set (F.pwrAVfVddMv n) r.vdd).set (F.pwrAVfFMax n) r.fMax
    let s := if s.flag F.pwrStatusOpportunistic && !s.pm.freqWait.getLsbD n then
        s.set (F.pwrAVfFRun n) (min r.fMax 236) else s
    let s := (s.set (F.pwrAAgeMarginMv n) (min margin 255)).modPm fun m => { m with
      replans := SMap.put none m.replans n.val none }
    if margin < 10 ∧ 10 ≤ before then (s.raiseBit (F.pwrAAgeMarginLow n)).arrayHealth 0x048 stOk n else s

/-- The round of re-planning is over once every usable array has had its turn. -/
def State.endReplan (s : State) : State :=
  if allArrays.all fun n => !s.usable n || s.pm.replanned.getLsbD n then
    let s := s.modPm fun m => { m with replanAt := s.time, replanned := 0 }
    { s with flash := { s.flash with agedTicks := 0 } }
  else s

/-- AGEING_REPLAN (R434, R435): after 720 powered hours, with the speeds measured at each voltage (mV, kHz). -/
def execAgeingReplan (n : ArrayNum) (speeds : List (Nat × Nat)) (s : State) : Host.Outcome State Fault Refusal :=
  .next (if !s.pmReady || !s.usable n || s.pm.replanned.getLsbD n || decide (s.agedFor < 720 * hourTicks) then s
    else
      let s := s.modPm fun m => { m with replanned := withArr m.replanned n true }
      let s := match planVoltage speeds with
        | some v =>
          let s := s.modPm fun m => { m with
            replans := SMap.put none m.replans n.val (some { vdd := v.1, fMax := min 255 (v.2 * 20 / 21 / 1000), due := s.time }) }
          if s.busy n then s else s.applyPlan n
        | none => s.condemn n
      s.endReplan)

/-- REPLAN_FORCED_APPLY (R434): 24 h have passed without the array being idle; its compute clock stands for 100 µs while the
values are applied. (DEDUCED, log entry 53.) -/
def execReplanForcedApply (n : ArrayNum) (s : State) : Host.Outcome State Fault Refusal :=
  .next (match SMap.look none s.pm.replans n.val with
    | none => s
    | some r => if 24 * hourTicks ≤ (s.time - r.due).toNat then (s.applyPlan n).holdClock n 10000 else s)

/-- Re-plans are applied to the arrays that are idle (R434). (DEDUCED, log entry 53.) -/
def State.applyPlans (s : State) : State :=
  allArrays.foldl (fun (s : State) n => if s.busy n then s else s.applyPlan n) s

end Sys2Proof.Machine
end

