-- ==== Sys2Proof/Machine/Management.lean ====
section
/-!
DEFINITION. The management port (R399 to R401, R515 to R517): its link, TLS sessions, trust anchors and frames.
-/

namespace Sys2Proof.Machine

/-! ### The link (R449, R515, R520) -/

/-- A PHY's training takes up its standby bank (R475). -/
def State.takeBank (s : State) (c : Nat) : State :=
  let u := s.board.update
  if u.banks.any fun x => x.1 == c then
    { s.set (F.spnLoadVerVersion c) (SMap.look 0 u.banks c).toNat with
      board := { s.board with update := { u with banks := SMap.put 0 u.banks c 0 } } }
  else s

/-- What the port's network has given it (R515). -/
def State.setNet (s : State) (net : MgmtNet) : State := { s with board := { s.board with net := net } }

/-- The management port's MAC address, from the identity seed (R515). -/
def State.mac (s : State) : Option (BitVec 48) := s.flash.seed.map Config.macAddress

/-- The management port's IPv6 address: its network's prefix and the identifier that its MAC address gives (R515). -/
def State.ipv6 (s : State) : Option (BitVec 128) :=
  match s.board.net.prefix6, s.mac with
  | some x, some m => some (x ++ Config.interfaceId m)
  | _, _ => none

/-- MANAGEMENT_LINK_UP: the PHY gains its link, once its check has passed, and its network gives it addresses and a tag (R515). -/
def execManagementLinkUp (link : MgmtLink) (s : State) : Host.Outcome State Fault Refusal :=
  .next (if s.board.stages.getLsbD 10 && s.board.mgmtOk && !s.board.fenced then
      (((s.takeBank 4).set F.mgtStatusLinkUp 1).set F.mgtStatusPolarity (bitNum link.reversed)).setNet link.net
    else s)

/-- The management port loses its link, and what its network gave it. -/
def State.dropMgmt (s : State) : State :=
  ((s.set F.mgtStatusLinkUp 0).set F.mgtStatusPolarity 0).setNet { ipv4 := none, prefix6 := none, vlan := none }

/-- MANAGEMENT_LINK_DOWN. (DESIGN CHOICE, log entry 59.) -/
def execManagementLinkDown (s : State) : Host.Outcome State Fault Refusal := .next s.dropMgmt

/-! ### Sessions (R399, R400, R517) -/

/-- Sets a session and counts the open ones. -/
def State.setTls (s : State) (x : Fin 2) (t : Option Tls) : State :=
  let s : State := { s with coc := { s.coc with tls := s.coc.tls.set x.val t } }
  s.set F.mgtStatusSessions (s.coc.tls.toList.filter fun (u : Option Tls) => u.isSome).length

/-- A session. -/
def State.tlsSession (s : State) (x : Fin 2) : Option Tls := s.coc.tls[x.val]

/-- Whether an anchor is installed in a slot. -/
def State.anchor (s : State) (k : Fin 4) : Option (List Byte) := s.flash.anchors[k.val]

/-- Whether the anchor list is empty. -/
def State.noAnchor (s : State) : Bool := s.flash.anchors.toList.all fun (a : Option (List Byte)) => a.isNone

/-- The first free session slot. -/
def State.freeTls (s : State) : Option (Fin 2) := (List.finRange 2).find? fun x => (s.tlsSession x).isNone

/-- The TCP port that the management port listens on (R515). -/
def tlsPort : Nat := 5410

/-- Whether the management port completes a handshake (R399, R515): on its TCP port, untagged or under its VLAN tag, in TLS 1.3
with the one suite, group and scheme, and with no PSK, no resumption and no 0-RTT data. -/
def State.tlsAccepts (s : State) (h : TlsHello) : Bool :=
  h.tcpPort == tlsPort && (h.vlan.isNone || h.vlan == s.board.net.vlan) && h.version == .tls13
    && h.suite == .aes256GcmSha384 && h.group == .secp384r1 && h.scheme == .ecdsaSecp384r1Sha384
    && !h.psk && !h.resumed && !h.earlyData

/-- MANAGEMENT_SESSION_OPEN (R399, R400): a handshake of R399's settings completes for a client whose chain ends at an installed
anchor, or at Gosait's integrator root while no anchor is installed; a third session is not opened. The module presents its
management chain (R385) under its management key (R384). (DESIGN CHOICE, log entry 59.) -/
def execManagementSessionOpen (chainAnchor : Option (Fin 4)) (hello : TlsHello) (s : State) :
    Host.Outcome State Fault Refusal :=
  .next (let who : Option (Option (Fin 4)) := match chainAnchor with
      | some k => if (s.anchor k).isSome then some (some k) else none
      | none => if hello.integratorRoot && s.noAnchor then some none else none
    if s.flag F.mgtStatusLinkUp && s.flag F.cocStatusReady && s.coc.derived && s.tlsAccepts hello then
      match who, s.freeTls with
      | some a, some x =>
        let s := s.setTls x (some { opened := s.time, anchor := a, stale := false, keyUpdates := 0 })
        let s := s.send (.tlsChain x s.flash.mgmtChain)
        if s.board.update.pauseAt.isNone then
          { s with board := { s.board with update := { s.board.update with tlsSince := true } } }
        else s
      | _, _ => s
    else s)

/-- A session closes (R517): commands not taken are discarded, and completions of taken ones will be. -/
def State.closeTls (s : State) (x : Fin 2) : State :=
  if (s.tlsSession x).isNone then s
  else
    let s := s.setTls x none
    { s with spn := { s.spn with
      mgmtQ := s.spn.mgmtQ.filter fun (q : Fin 2 × List Byte × List Byte) => q.1 != x
      cmds := s.spn.cmds.map fun (m : Cmd) => if m.ref.src = .mgmt x then { m with orphan := true } else m } }

/-- Both sessions close. -/
def State.closeAllTls (s : State) : State := (s.closeTls 0).closeTls 1

/-- MANAGEMENT_SESSION_CLOSE (R517). -/
def execManagementSessionClose (session : Fin 2) (s : State) : Host.Outcome State Fault Refusal :=
  .next (s.closeTls session)

/-- TLS_SESSION_EXPIRY: 24 h after its handshake (R399). -/
def execTlsSessionExpiry (session : Fin 2) (s : State) : Host.Outcome State Fault Refusal :=
  .next (match s.tlsSession session with
    | some t => if 24 * hourTicks ≤ (s.time - t.opened).toNat then s.closeTls session else s
    | none => s)

/-- TLS_KEY_UPDATE (R399). -/
def execTlsKeyUpdate (session : Fin 2) (s : State) : Host.Outcome State Fault Refusal :=
  .next (match s.tlsSession session with
    | some t => s.setTls session (some { t with keyUpdates := t.keyUpdates + 1 })
    | none => s)

/-! ### Frames (R516) -/

/-- A bad frame closes the session and is counted. -/
def State.badFrame (s : State) (x : Fin 2) : State := (s.bump F.mgtBadFramesFrames).closeTls x

/-- The answer to an anchor frame: a completion with opcode 0 and the frame's tag. -/
def State.anchorAnswer (s : State) (x : Fin 2) (body : List Byte) (status : Nat) : State :=
  s.send (.mgmtFrame x 3 (leBytes 2 0 ++ bytesAt body 2 2 ++ [0xFF, BitVec.ofNat 8 status] ++ leBytes 2 0
    ++ leBytes 8 s.time.toNat ++ List.replicate 48 0))

/-- Puts a certificate into an anchor slot or empties it; sessions that the slot's earlier anchor authenticated no longer
rest on a current anchor. (DESIGN CHOICE, log entry 59.) -/
def State.setAnchor (s : State) (k : Fin 4) (a : Option (List Byte)) : State :=
  let age := fun (u : Tls) => if u.anchor = some k then { u with stale := true } else u
  let tls := s.coc.tls.map fun (t : Option Tls) => t.map age
  { s with flash := { s.flash with anchors := s.flash.anchors.set k.val a }, coc := { s.coc with tls := tls } }

/-- An anchor frame's operation on a slot (R400, R516): 1 installs into a free slot, 2 removes, 3 replaces; the last anchor
cannot be removed. -/
def State.anchorOp (s : State) (x : Fin 2) (op : Nat) (k : Fin 4) (body cert : List Byte) : State :=
  let held := (s.anchor k).isSome
  let count := (s.flash.anchors.toList.filter fun (a : Option (List Byte)) => a.isSome).length
  if op = 1 then
    if held then s.anchorAnswer x body stBad else (s.setAnchor k (some cert)).anchorAnswer x body stOk
  else if !held then s.anchorAnswer x body stBad
  else if op = 3 then (s.setAnchor k (some cert)).anchorAnswer x body stOk
  else if count = 1 then s.anchorAnswer x body stDenied
  else (s.setAnchor k none).anchorAnswer x body stOk

/-- Whether a session may change anchors: a current anchor authenticated it, or the list is empty and the frame installs
(R400). -/
def State.mayAnchor (s : State) (t : Tls) (op : Nat) : Bool :=
  match t.anchor with
  | some _ => !t.stale
  | none => s.noAnchor && op == 1

/-- An anchor frame. (DESIGN CHOICE, log entry 59.) -/
def State.anchorFrame (s : State) (x : Fin 2) (body : List Byte) : State :=
  match s.tlsSession x with
  | none => s
  | some t =>
    let op := fieldAt body 0 1
    let cert := body.drop 4
    let sized := if op = 2 then body.length == 4 else decide (4 < body.length) && decide (body.length ≤ 4100)
    if !sized then s.badFrame x
    else if op = 0 ∨ 3 < op then s.anchorAnswer x body stBad
    else if !s.mayAnchor t op then s.anchorAnswer x body stDenied
    else match (List.finRange 4)[fieldAt body 1 1]? with
      | none => s.anchorAnswer x body stBad
      | some k => s.anchorOp x op k body cert

/-- ANCHOR_FRAME (R400, R516). -/
def execAnchorFrame (session : Fin 2) (body : List Byte) (s : State) : Host.Outcome State Fault Refusal :=
  .next (s.anchorFrame session body)

/-- A crash read: the slot's record, or zeros; a session of the integrator root gets no answer (R400). -/
def State.crashFrame (s : State) (x : Fin 2) (body : List Byte) : State :=
  match s.tlsSession x with
  | none => s
  | some t =>
    if body.length ≠ 4 ∨ 63 < leNat body then s.badFrame x
    else if t.anchor.isNone then s
    else s.send (.mgmtFrame x 7 (bytesAt (SMap.look [] s.flash.crash (leNat body)) 0 4096))

/-- CRASH_READ (R516). -/
def execCrashRead (session : Fin 2) (body : List Byte) (s : State) : Host.Outcome State Fault Refusal :=
  .next (s.crashFrame session body)

/-- Whether a command frame has its type's length: 64 bytes, or with the data that UPD_PIECE or SEC_LIFECYCLE carries.
(DESIGN CHOICE, log entry 59.) -/
def commandSized (frameType : Nat) (body : List Byte) : Bool :=
  if frameType = 1 then body.length == 64
  else
    let op := fieldAt body 0 2
    (op == 0x0901 && body.length == 64 + 4096)
      || (op == 0x0805 && decide (64 ≤ body.length) && decide (body.length ≤ 64 + 8192))

/-- COMMAND_FRAME (R516): a command waits to be taken, or the session closes. (DESIGN CHOICE, log entry 59.) -/
def execCommandFrame (session : Fin 2) (frameType : Nat) (reserved : BitVec 16) (body : List Byte) (s : State) :
    Host.Outcome State Fault Refusal :=
  .next (if (s.tlsSession session).isNone then s
    else if reserved ≠ 0 then s.badFrame session
    else if frameType = 5 then s.anchorFrame session body
    else if frameType = 6 then s.crashFrame session body
    else if (frameType = 1 ∨ frameType = 2) ∧ commandSized frameType body then
      { s with spn := { s.spn with mgmtQ := s.spn.mgmtQ ++ [(session, body.take 64, body.drop 64)] } }
    else s.badFrame session)

end Sys2Proof.Machine
end

