-- ==== Sys2Proof/Machine/Board.lean ====
section
/-!
DEFINITION. The module at its connector (R500 to R507): 54 V and mate-detect, the removal sequence, the
module stop (R372) and the loss of power.
-/

namespace Sys2Proof.Machine

/-! ### Losing power (R374, R443, R505) -/

/-- Registers that fuses and held settings keep while the module is unpowered: life cycle, fingerprint, the fused minimum,
each array's voltage, frequency and margin, and the fused loop record; the input's state stays the connector's.
(DEDUCED, log entry 55.) -/
def keptFields : List Fld :=
  [F.cocLifecycleState, F.cocLifecycleFuses, F.cocFingerprintFingerprint, F.updSecSecMin, F.idmOwnLoopType, F.idmOwnSlotKind,
    F.pwrInputVolts, F.pwrInputGood, F.pwrInputMated]
    ++ (allArrays.map fun (n : ArrayNum) => [F.pwrAVfVddMv n, F.pwrAVfFMax n, F.pwrAAgeMarginMv n]).flatten

/-- The module without power: everything as after power-on, but flash, fuses, the connector and what lies outside the
module (R505). The powered time so far stays in flash (R434). (DEDUCED, log entry 55.) -/
def State.powerOff (s : State) (supply : Supply) : State :=
  let off := { State.reset with
    pending := s.pending
    time := s.time
    pcieMem := s.pcieMem
    out := s.out
    free := s.free
    coc := { State.reset.coc with draws := s.coc.draws }
    flash := { s.flash with agedTicks := s.agedFor }
    board := { State.reset.board with
      supply := supply, mated := s.board.mated, good := s.board.good, since := s.time, stopCode := s.board.stopCode } }
  keptFields.foldl (fun (t : State) (f : Fld) => t.set f (s.get f)) off

/-- The input's state, and its register (R500, R501). -/
def State.setInput (s : State) (good mated : Bool) : State :=
  let s : State := { s with board := { s.board with good := good, mated := mated } }
  (s.set F.pwrInputGood (bitNum good)).set F.pwrInputMated (bitNum mated)

/-- The input's voltage in 0.1 V; the register has ten bits and no sign. (DESIGN CHOICE, log entry 61.) -/
def State.setVolts (s : State) (decivolts : Int) : State := s.set F.pwrInputVolts (min 1023 decivolts.toNat)

/-! ### The removal sequence (R503 to R506) -/

/-- A link leaves L0 (R509, R523); its SerDes check is owed before it trains again (R450). -/
def State.dropLink (s : State) (port : Port) : State :=
  if s.flag (F.pciLinkUp port) then
    let s : State := { s with board := { s.board with recheck := s.board.recheck ||| BitVec.ofNat 2 (2 ^ port.val) } }
    (((s.set (F.pciLinkUp port) 0).set (F.pciLinkWidth port) 0).set (F.pciLinkSpeed port) 0).raiseBit (F.pciLinkLinkDown port)
  else s

/-- The arrays are clock-stopped, group after group, the links go to Detect, management sessions close, and Cocoon zeroises
its secrets (R372, R404, R503). (DEDUCED, log entry 55.) -/
def State.fence (s : State) : State :=
  let s := (((s.dropLink 0).dropLink 1).closeAllTls).zeroise
  let s : State := { s with board := { s.board with fenced := true } }
  let s := (s.modPm fun m => { m with dieStop := some s.time }).stopGroups
  (s.dropMgmt.set F.spnStatusLomletReady 0).set F.tierStatusReady 0

/-- The removal sequence: 1 a mate-detect break, 2 a failure of 54 V. Nothing that needs a stage goes on, and the crash
record is written once stage 1 is done (R506). (DEDUCED, log entry 55.) -/
def State.removal (s : State) (cause : Nat) : State :=
  if s.board.supply = .on then
    let begun := s.board.stages.getLsbD 1
    let s := if begun then s.writeCrash cause 0 s.time else s
    let s := s.fence
    { s with board := { s.board with
      supply := .removing, since := s.time, stages := 0, stopping := false, stopCode := 0
      crashCause := if begun then cause else 0 } }
  else s

/-- VOLTAGE_GOOD: above 44 V for 10 ms (R501); an input at or below that only shows (R523). Beyond 60 V no behaviour is assured (R524, R525).
(DEDUCED, log entry 55.) -/
def execVoltageGood (decivolts : Int) (s : State) : Host.Outcome State Fault Refusal :=
  if 600 < decivolts then .fault .absoluteMaximumExceeded
  else .next (if 440 < decivolts then (s.setVolts decivolts).setInput true s.board.mated else s.setVolts decivolts)

/-- MATE_DETECT_MADE (R500). -/
def execMateDetectMade (s : State) : Host.Outcome State Fault Refusal := .next (s.setInput s.board.good true)

/-- MATE_DETECT_BREAK (R500, R503). -/
def execMateDetectBreak (s : State) : Host.Outcome State Fault Refusal :=
  .next ((s.setInput s.board.good false).removal 1)

/-- INPUT_FAIL: below 40 V for 20 µs (R501, R503); a negative input fails as well (R502). An input at or above 40 V only shows
(R523). -/
def execInputFail (decivolts : Int) (s : State) : Host.Outcome State Fault Refusal :=
  if decivolts < -600 then .fault .absoluteMaximumExceeded
  else .next (if decivolts < 400 then ((s.setVolts decivolts).setInput false s.board.mated).removal 2
    else s.setVolts decivolts)

/-- REVERSED_INPUT: from 0 V down to −60 V the module draws at most 1 mA, and nothing starts (R502); a module that runs
loses its 54 V. -/
def execReversedInput (decivolts : Int) (s : State) : Host.Outcome State Fault Refusal :=
  if decivolts < -600 then .fault .absoluteMaximumExceeded
  else .next (if decivolts ≤ 0 then ((s.setVolts decivolts).setInput false s.board.mated).removal 2 else s)

/-- HOLD_UP_EXHAUSTED: nothing runs, and the module stays unpowered; 54 V and mate-detect count afresh (R503, R504).
(DEDUCED, log entry 55.) -/
def execHoldUpExhausted (s : State) : Host.Outcome State Fault Refusal :=
  .next (if s.board.supply = .removing then (s.powerOff .holdoff).setInput false false else s)

/-- RESTART_HOLDOFF_END: at least 500 ms unpowered (R504). -/
def execRestartHoldoffEnd (s : State) : Host.Outcome State Fault Refusal :=
  .next (if s.board.supply = .holdoff ∧ 50000000 ≤ (s.time - s.board.since).toNat then
      { s with board := { s.board with supply := .off } }
    else s)

/-! ### The module stop (R372, R494) -/

/-- MODULE_STOP: every array stops, PCIe is fenced, the secrets are zeroised, the crash record is written with the time of
its trigger, and the module restarts as from power-on. (DEDUCED, log entry 55.) -/
def execModuleStop (s : State) : Host.Outcome State Fault Refusal :=
  .next (if s.board.stopping ∧ s.board.supply = .on then
      ((s.writeCrash 3 s.board.stopCode s.board.since).fence).powerOff .off
    else s)

end Sys2Proof.Machine
end

