-- ==== Sys2Proof/Machine/Gates.lean ====
section
/-!
DEFINITION. The gated output stages of Spindle's halves (R359, R361): what each write does once its gate accepts it.
-/

namespace Sys2Proof.Machine

/-- The gated stage of a write; the ledger port is 5. -/
def gateOf : GateOp → Nat
  | .completion _ _ _ => 0
  | .pageMap _ _ => 1
  | .seqTable _ _ _ => 1
  | .freePool _ _ => 1
  | .arrayOff _ => 2
  | .arrayGate _ => 2
  | .arrayRelease _ => 2
  | .cap _ => 2
  | .mode _ _ => 2
  | .shtShadow _ _ _ _ _ => 3
  | .shtCommit _ => 3
  | .knotSignal _ _ => 4
  | .knotSet _ _ _ => 4
  | .ledger => 5
  | .snapshot => 5
  | .eventRecord _ => 0

/-- The partition whose reel update a table write waits for: the one whose range holds the index, or partition 0's place
in the order where none does (R179). -/
def State.tableOwner (s : State) (base count : PartNum → Nat) (i : Nat) : PartNum :=
  (allParts.find? fun p => decide (base p ≤ i) && decide (i < base p + count p)).getD 0

/-- What an accepted write does (R361). A write to the page map or the sequence table takes effect between steps (R179); a
completion is that of a command under way. -/
def State.gateAccept (s : State) (g : GateOp) : State :=
  match g with
  | .completion c status result =>
    match s.cmd c with
    | some m => if (m.phase = .started ∨ m.phase = .running) ∧ s.gapHolds = false then s.complete c status result else s
    | none => s
  | .pageMap i e =>
    s.seqUpdate (s.tableOwner (fun p => s.get (F.reelPMapBaseBase p)) (fun p => s.get (F.reelPMapCountCount p)) i.val)
      (.mapWrite i.val e)
  | .seqTable i w v =>
    s.seqUpdate (s.tableOwner (fun p => s.get (F.reelPSeqBaseBase p)) (fun p => s.get (F.reelPSeqCountCount p)) i.val)
      (.seqWrite i.val w.val v)
  | .freePool p frames => s.setFrames p frames
  | .arrayOff n => s.seqStop n
  | .arrayGate n => s.seqGate n
  | .arrayRelease n => s.seqRelease n
  | .cap watts => s.setHostCap watts
  | .mode fast isolated => s.setPowerMode fast isolated
  | .shtShadow i r w c h => if r.val < shtCount i then s.shtStage i r.val w c h else s
  | .shtCommit m => s.shtArm m.toNat
  | .knotSignal n v => s.kntSignal n v
  | .knotSet n i v => s.writeKnot n i.val v
  | .ledger =>
    match s.twn.ledger.pending with
    | (claim, e, saved) :: rest =>
      if s.ledgerOpen && claim == s.get F.twnGateClaimClaim then
        ({ s with twn := { s.twn with ledger := { s.twn.ledger with pending := rest } } } : State).journalWrite claim e saved
      else s
    | [] => s
  | .snapshot => if s.ledgerOpen then s.writeSnapshot else s
  | .eventRecord r => s.recordWrite r

/-- A write of a half reaches a gated stage (R352, R361). A half's writes carry its own claim; a write with another claim is
none of its. (DESIGN CHOICE, log entry 35.) -/
def execGatedWrite (half : Half) (claim : Word) (g : GateOp) (s : State) : Host.Outcome State Fault Refusal :=
  .next (if claim.toNat ≠ s.claim half then s else s.gated half (gateOf g) fun s => s.gateAccept g)

end Sys2Proof.Machine
end

