-- ==== Sys2Proof/Machine/Update.lean ====
section
/-!
DEFINITION. Imago update in the field (R465 to R481): pieces and staging, activation, the pause, health and fallback, and
the end of draining (R342), from which an activation's pause begins.
-/

namespace Sys2Proof.Machine

/-! ### Imagos (R467 to R469) -/

/-- P of a head. -/
def headCount (head : List Byte) : Nat := fieldAt head 16 4

/-- The imago that pieces make up. -/
def imagoOf (pieces : List (List Byte)) : Imago :=
  let h := headOf pieces
  { pieces := pieces, version := BitVec.ofNat 32 (fieldAt h 8 4), security := fieldAt h 12 4 }

/-- Whether both signatures of a head verify under the imago authority's keys, whose digests are fused (R468). -/
def Flash.headAuthentic (f : Flash) (head : List Byte) : Bool :=
  let msg := bytesAt head 0 256
  Config.ecdsaVerify f.authority.1 msg (bytesAt head 256 96) && Config.hssVerify f.authority.2 msg (bytesAt head 352 5396)

/-- The SHA-384 that body piece i must have: the head's for piece 2, else what the piece before it holds (R467, R469). -/
def expectedHash (pieces : List (List Byte)) (i : Nat) : List Byte :=
  if i = 2 then bytesAt (headOf pieces) 24 48 else bytesAt ((pieces[i - 1]?).getD []) 4048 48

/-- Whether a body piece is the one expected. -/
def pieceFits (pieces : List (List Byte)) (i : Nat) (piece : List Byte) : Bool :=
  Config.sha384 piece == expectedHash pieces i

/-- Whether piece 0's magic, format and reserved bytes are right (R467, R470). -/
def pieceZeroOk (piece : List Byte) : Bool :=
  fieldAt piece 0 4 == 0x4F474D49 && fieldAt piece 4 2 == 1 && fieldAt piece 6 2 == 0
    && (bytesAt piece 124 132).all fun b => b == 0

/-- Whether an imago's head passes both signatures and the digest of its manifest (R468, R480). -/
def Flash.headOk (f : Flash) (pieces : List (List Byte)) : Bool :=
  let h := headOf pieces
  f.headAuthentic h && Config.sha384 (manifestOf h) == bytesAt h 72 48

/-- Whether an imago, from its head through piece P − 1, passes every signature and hash (R468, R469, R473). -/
def Flash.chainOk (f : Flash) (pieces : List (List Byte)) : Bool :=
  f.headOk pieces
    && (List.range (headCount (headOf pieces) - 2)).all fun k => pieceFits pieces (k + 2) ((pieces[k + 2]?).getD [])

/-! ### What the registers show (R481) -/

/-- P of the staged imago: 0 before piece 1 is held. -/
def State.stagedCount (s : State) : Nat := if 2 ≤ s.flash.staging.length then headCount (headOf s.flash.staging) else 0

/-- The update registers follow flash. -/
def State.showUpd (s : State) : State :=
  let staged := if s.stagedCount = 0 then 0 else (imagoOf s.flash.staging).version.toNat
  let s := ((s.set F.updStatusState s.flash.record).set F.updHeldHeld s.flash.staging.length).set F.updStagedPPieces s.stagedCount
  let s := (s.set F.updRunVerVersion s.flash.running.version.toNat).set F.updFbVerVersion s.flash.fallback.version.toNat
  let s := (s.set F.updStagedVerVersion staged).set F.updSecSecRun s.flash.running.security
  s.set F.updSecSecFb s.flash.fallback.security

/-- Sets the activation record (R474); outside Trial the deadline reads 0. -/
def State.setRecord (s : State) (r : Nat) : State :=
  let s := ({ s with flash := { s.flash with records := writeAlt s.flash.records r } } : State).showUpd
  if r = 3 then s else s.set F.updDeadlineTimestamp 0

/-- Changes the update in progress. -/
def State.modUpd (s : State) (f : Update → Update) : State := { s with board := { s.board with update := f s.board.update } }

/-- Erases staging, with the pieces still to be programmed. -/
def State.eraseStaging (s : State) : State :=
  (({ s with flash := { s.flash with staging := [] } } : State).modUpd fun u => { u with queued := [] }).showUpd

/-- A record of class UPDATE (R486). -/
def State.updateEvent (s : State) (status : Nat) : State :=
  s.report { source := 0x04B, cls := 0x0F, severity := 2, status := status }

/-- A piece or an imago is refused: piece_rejected and its record. (DEDUCED, log entry 47.) -/
def State.rejectPiece (s : State) : State := (s.raiseBit F.updStatusPieceRejected).updateEvent stSig

/-- Whether the loader's part of an update runs: the module is on and its half was started (R474). -/
def State.updRuns (s : State) : Bool := s.board.supply == .on && s.board.stages.getLsbD 4

/-! ### Pieces (R470, R471) -/

/-- Pieces accepted: programmed or queued. -/
def State.piecesHeld (s : State) : List (List Byte) := s.flash.staging ++ s.board.update.queued

/-- Whether an activation is under way (R470). -/
def State.activating (s : State) : Bool := s.flash.record != 0 || s.board.update.ref.isSome

/-- A piece joins the queue; an accepted piece 0 ends the report of a fallback (R478). -/
def State.queuePiece (s : State) (i : Nat) (piece : List Byte) : State :=
  let s := s.modUpd fun u => { u with queued := u.queued ++ [piece] }
  if i = 0 then { s with flash := { s.flash with fellBack := false } } else s

/-- UPD_PIECE: the first matching row of R470. (DEDUCED, log entry 47.) -/
def execUpdPiece (c : CmdRef) (s : State) : Host.Outcome State Fault Refusal :=
  .next (s.runCmd c 0x0901 fun m s =>
    let held := s.piecesHeld
    let h := held.length
    let i := m.arg 8 4
    let piece := bytesAt m.extra 0 4096
    let head := headOf (held ++ [piece])
    if i < h then s.complete c (if held[i]? = some piece then stOk else stBad)
    else if h < i ∨ (2 ≤ h ∧ headCount (headOf held) ≤ i) then s.complete c stBad
    else if s.activating then s.complete c stBad
    else if i = 0 ∧ pieceZeroOk piece = false then s.complete c stBad
    else if i = 1 ∧ (s.flash.headAuthentic head = false ∨ fieldAt head 12 4 < s.get F.updSecSecMin) then
      s.eraseStaging.rejectPiece.complete c stSig
    else if 2 ≤ i ∧ pieceFits held i piece = false then s.rejectPiece.complete c stSig
    else (s.queuePiece i piece).complete c stOk)

/-- PIECE_PROGRAM: the oldest queued piece is programmed into staging (R471). -/
def execPieceProgram (s : State) : Host.Outcome State Fault Refusal :=
  .next (match s.board.update.queued with
    | [] => s
    | p :: rest =>
      (({ s with flash := { s.flash with staging := s.flash.staging ++ [p] } } : State).modUpd fun u =>
        { u with queued := rest }).showUpd)

/-- UPD_STATUS (R471, R478). -/
def execUpdStatus (c : CmdRef) (s : State) : Host.Outcome State Fault Refusal :=
  .next (s.runCmd c 0x0902 fun _ s =>
    let left := s.get F.updDeadlineTimestamp - s.time.toNat
    s.complete c (if s.flash.fellBack then stHealth else stOk) (
      leBytes 4 s.flash.staging.length ++ leBytes 4 s.stagedCount ++ leBytes 1 s.flash.record
        ++ leBytes 4 (s.get F.updRunVerVersion) ++ leBytes 4 (s.get F.updFbVerVersion)
        ++ leBytes 4 (s.get F.updStagedVerVersion) ++ leBytes 8 left))

/-- UPD_DISCARD (R471, R478). (DEDUCED, log entry 47.) -/
def execUpdDiscard (c : CmdRef) (s : State) : Host.Outcome State Fault Refusal :=
  .next (s.runCmd c 0x0904 fun _ s =>
    (({ s with flash := { s.flash with fellBack := false } } : State).eraseStaging).complete c stOk)

/-! ### Activation (R473, R474) -/

/-- UPD_ACTIVATE. -/
def execUpdActivate (c : CmdRef) (s : State) : Host.Outcome State Fault Refusal :=
  .next (s.runCmd c 0x0903 fun _ s =>
    let st := s.flash.staging
    if s.stagedCount = 0 ∨ st.length < s.stagedCount ∨ s.flash.record ≠ 0 then s.complete c stBad
    else if s.flash.chainOk st = false ∨ fieldAt (headOf st) 12 4 < s.get F.updSecSecMin then s.eraseStaging.complete c stSig
    else ((s.setRecord 1).modUpd fun u => { u with ref := some c, keepStaging := false }).park c .activate)

/-- A step entry of the activation in the ledger, at each transition (R474): its command's, or, once that has completed, the
record's. -/
def State.stepEntry (s : State) : State :=
  match s.board.update.ref with
  | some c => s.ledger (.step c .activate)
  | none => s.ledger (.activation s.flash.record)

/-- SAVING_COPY_DONE: the fallback area holds the running imago; the copy is skipped when its head, and so the manifest digest
in it, is already the running imago's (R474). -/
def execSavingCopyDone (s : State) : Host.Outcome State Fault Refusal :=
  .next (if s.updRuns && s.flash.record == 1 then
      let same := headOf s.flash.fallback.pieces == headOf s.flash.running.pieces
      (({ s with flash := { s.flash with fallback := if same then s.flash.fallback else s.flash.running } } : State).setRecord
        2).stepEntry
    else s)

/-- The drain that a pause needs begins (R342, R474); the host may have drained the module before. -/
def State.drainForPause (s : State) : State :=
  let byHost := s.flag F.spnStatusDraining || s.flag F.spnStatusDrained
  (s.startDrain).modUpd fun u => { u with hostDrained := byHost, draining := true }

/-- WRITING_COPY_DONE: the staged imago is the running one and goes on trial (R474). -/
def execWritingCopyDone (s : State) : Host.Outcome State Fault Refusal :=
  .next (if s.updRuns && s.flash.record == 2 then
      let s : State := { s with flash := { s.flash with running := imagoOf s.flash.staging } }
      ((s.setRecord 3).stepEntry).drainForPause
    else s)

/-! ### The pause (R475) -/

/-- A pause begins: the old half writes a snapshot and stops, and TLS sessions close. -/
def State.beginPause (s : State) : State :=
  let up := (if s.flag (F.pciLinkUp 0) then 1#2 else 0#2) ||| (if s.flag (F.pciLinkUp 1) then 2#2 else 0#2)
  let s := if s.twn.ledger.placed then s.writeSnapshot else s
  let s := (s.set F.spnStatusLomletReady 0).closeAllTls
  s.modUpd fun u => { u with
    draining := false, pauseAt := some s.time, ports := up, tlsSince := false, fatalSince := false, standbyOk := false }

/-- DRAINED (R342): the draining module is drained as well, DEV_DRAIN completes, and a waiting activation's pause begins
(R475). -/
def execDrained (s : State) : Host.Outcome State Fault Refusal :=
  .next (if s.flag F.spnStatusDraining && !s.flag F.spnStatusDrained && s.drainDone && !s.gapHolds then
      let s := (s.set F.spnStatusDrained 1).finishDrain
      if s.board.update.draining then s.beginPause else s
    else s)

/-- The versions of Spindle's code and of the components in the imago in service, as loaded (R348). -/
def State.showVersions (s : State) (c : Nat) : State :=
  let v := (Config.componentVersion (manifestOf (headOf s.inService.pieces)) c).toNat
  if c = 7 then s.set F.spnFwVerVersion v
  else
    let s := s.set (F.spnLoadVerVersion c) v
    if c = 5 then s.set F.smpUcodeVerVersion v else if c = 6 then s.set F.hwkFwVerVersion v else s

/-- A component is loaded and verified (R348), or its digest differs: load_fail and a FATAL record (R349). -/
def State.loadComponent (s : State) (c : Nat) (ok : Bool) : State :=
  if ok then (s.setBit F.spnLoadStatLoaded c true).showVersions c
  else ((s.setBit F.spnLoadStatLoaded c false).raiseBit F.spnStatusLoadFail).healthEvent 0x045 stFatal 3

/-- A component is loaded in a pause: components 1 to 4 go into their PHY's standby bank, which its next training takes up
(R475). -/
def State.reloadComponent (s : State) (c : Nat) (ok : Bool) : State :=
  if 1 ≤ c ∧ c ≤ 4 ∧ ok then
    let v := Config.componentVersion (manifestOf (headOf s.inService.pieces)) c
    (s.setBit F.spnLoadStatLoaded c true).modUpd fun u => { u with banks := SMap.put 0 u.banks c v }
  else s.loadComponent c ok

/-- The copy of the running imago's Spindle code in platform tier granules (R366, R439, R475). (DESIGN CHOICE, log entry
35.) -/
def State.copyCode (s : State) : State := s.store codeAddr s.spindleCode

/-- Video sessions after a pause: a decode session waits for its next key picture with no reference marks, an encode
session starts again with a key picture (R475). -/
def State.videoRestart (s : State) : State :=
  let again := fun (v : Session) =>
    if v.decodes then { v with skip := true, unit := none, marks := v.marks.map fun (m : Marks) => { m with ref := false } }
    else { v with coded := 0, sinceKey := none }
  { s with vid := s.vid.map fun (v : Option Session) => v.map again }

/-- The rest of the reserved HSS block is abandoned; the tree of the next index may have to be built first (R390, R475). -/
def State.hssSkip (s : State) : State :=
  let q := s.get F.cocLmsReservedReservedEnd
  let s := ((s.set F.cocLmsNextNext q).set F.cocLmsRemainRemain (2 ^ 30 - q)).lmsLevel q
  if s.treeUsable then s else s.set F.cocStatusTreePending 1

/-- The new Spindle restores the ledger, decides every outstanding command and sets lomlet_ready, which ends the pause
(R336, R366, R367, R475): held completions and records go out, and the module resumes unless the host had drained it. -/
def State.endPause (s : State) (start : DWord) : State :=
  let s := (s.restoreLedger.getD s).reconcile
  let s : State := { s with twn := { s.twn with heartbeat := s.time } }
  let s := ((s.set F.spnStatusLomletReady 1).set F.spnStatusDraining (bitNum s.board.update.hostDrained)).set
    F.spnStatusDrained (bitNum s.board.update.hostDrained)
  let s := s.modUpd fun u => { u with pauseAt := none, hostDrained := false }
  (s.holdCompletions).releaseHeld start

/-- The activation's command completes, written by the imago in service. -/
def State.finishActivate (s : State) (status : Nat) : State :=
  match s.board.update.ref with
  | some c => (s.modUpd fun u => { u with ref := none }).complete c status
  | none => s

/-- Reverting begins with a pause from the fallback area, at whose start TLS sessions close (R474, R475, R477).
(DEDUCED, log entry 47.) -/
def State.revertPause (s : State) : State :=
  (((s.setRecord 4).stepEntry).closeAllTls).modUpd fun u => { u with pauseAt := some s.time }

/-- ACTIVATION_PAUSE: the code of the imago in service is loaded; bit c of `digestsOk` says that component c's digest is
right, bit 7 that of Spindle's own code (R348, R349, R475). A mismatch in Trial leads to Reverting at once (R477), and without a valid ledger the new Spindle never sets lomlet_ready
(R358). (DEDUCED, log entry 47.) -/
def execActivationPause (digestsOk : BitVec 8) (s : State) : Host.Outcome State Fault Refusal :=
  .next (match s.board.update.pauseAt with
    | none => s
    | some start =>
      if !s.updRuns || decide (150000000 < (s.time - start).toNat) || s.restorable.isNone then s
      else
        let s := (List.range 7).foldl (fun (s : State) (c : Nat) => s.reloadComponent c (digestsOk.getLsbD c)) s
        if digestsOk ≠ 0xFF then s.revertPause
        else
          let trial := s.flash.record == 3
          let s := ((s.showVersions 7).copyCode.videoRestart.hssSkip).endPause start
          if trial then
            ((s.bump F.updActivationsCount).set F.updDeadlineTimestamp ((s.time.toNat + 30000000000) % 2 ^ 64)).finishActivate stOk
          else
            ({ s with flash := { s.flash with fellBack := true } } : State).finishActivate stHealth)

/-! ### Health and fallback (R476 to R479) -/

/-- Whether the standby half passes: its checks did, or it is quarantined (R476). (DEDUCED, log entry 47.) -/
def State.standbyFine (s : State) : Bool := s.board.update.standbyOk || s.halfState (otherHalf s.activeHalf) == 4

/-- Whether every port that was up at the pause's start is up. -/
def State.portsBack (s : State) : Bool :=
  (List.finRange 2).all fun (b : Fin 2) => !s.board.update.ports.getLsbD b.val || s.flag (F.pciLinkUp b)

/-- Whether the new imago's health is confirmed before its deadline (R476, R477). (DEDUCED, log entry 47.) -/
def State.healthy (s : State) : Bool :=
  s.updRuns && s.flash.record == 3 && s.board.update.pauseAt.isNone && !s.board.update.draining
    && s.get F.spnLoadStatLoaded == 0x7F && s.standbyFine && s.portsBack && s.board.update.tlsSince
    && !s.board.update.fatalSince && decide (s.time.toNat < s.get F.updDeadlineTimestamp)

/-- HEALTH_CONFIRMED: the record returns to Idle, staging is erased, and the fused minimum rises to the lower of the running
and fallback imagos' security_version (R476, R479). -/
def execHealthConfirmed (s : State) : Host.Outcome State Fault Refusal :=
  .next (if s.healthy then
      let low := min s.flash.running.security s.flash.fallback.security
      (((s.setRecord 0).stepEntry).eraseStaging).set F.updSecSecMin (max (s.get F.updSecSecMin) low)
    else s)

/-- TRIAL_DEADLINE: 300 s after lomlet_ready without confirmation (R477); the revert's pause follows a drain.
(DESIGN CHOICE, log entry 3.) -/
def execTrialDeadline (s : State) : Host.Outcome State Fault Refusal :=
  .next (if s.updRuns && s.flash.record == 3 && s.board.update.pauseAt.isNone && !s.board.update.draining
      && decide (s.get F.updDeadlineTimestamp ≤ s.time.toNat) then ((s.setRecord 4).stepEntry).drainForPause
    else s)

/-- PAUSE_TIMEOUT: no lomlet_ready within 1.5 s of the pause's start (R477); a revert's pause that fails so begins again. -/
def execPauseTimeout (s : State) : Host.Outcome State Fault Refusal :=
  .next (match s.board.update.pauseAt with
    | none => s
    | some start => if s.updRuns && decide (150000000 ≤ (s.time - start).toNat) then s.revertPause else s)

/-- REVERT_COPY_DONE: the fallback is copied over running (R474). (DEDUCED, log entry 47.) -/
def execRevertCopyDone (s : State) : Host.Outcome State Fault Refusal :=
  .next (if s.updRuns && s.flash.record == 4 && s.board.update.pauseAt.isNone && !s.board.update.draining then
      let keep := s.board.update.keepStaging
      let s : State := { s with flash := { s.flash with running := s.flash.fallback, fellBack := true } }
      let s := ((s.setRecord 0).stepEntry).modUpd fun u => { u with keepStaging := false }
      let s := if keep then s else s.eraseStaging
      ((s.raiseBit F.updStatusFellBack).bump F.updFallbacksCount).updateEvent stHealth
    else s)

/-- Whether a half's checks pass (R370): its code's digest is right, and it reads a valid ledger from the two copies, where the
module has one (R358, R458); the operands say whether the half itself comes through them.
(DESIGN CHOICE, log entry 35.) -/
def State.halfPasses (s : State) (digestOk ledgerReadOk : Bool) : Bool :=
  digestOk && s.codeGood && ledgerReadOk && (!s.twn.ledger.placed || s.ledgerValid)

/-- What a half's checks read is reported where it is bad (R144, R358, R370). -/
def State.checkScan (s : State) : State := if s.twn.ledger.placed then s.codeScan.ledgerScan else s.codeScan

/-- HALF_CHECKS_DONE: a half powered for its checks ends them, for a TWN_RESTORE (R370) or for the health of a new imago
(R476). -/
def execHalfChecksDone (half : Half) (digestOk ledgerReadOk : Bool) (s : State) : Host.Outcome State Fault Refusal :=
  .next (let ok := s.halfPasses digestOk ledgerReadOk
    if s.spn.cmds.any fun (m : Cmd) => m.wait == .restore half then s.checkScan.restoreEnd half ok
    else if s.updRuns && s.flash.record == 3 && s.board.update.pauseAt.isNone && half == otherHalf s.activeHalf
        && s.halfState half == 0 then s.checkScan.modUpd fun u => { u with standbyOk := ok }
    else s)

end Sys2Proof.Machine
end

