-- ==== Sys2Proof/Machine/Start.lean ====
section
/-!
DEFINITION. The start (R439 to R444): its stages, the choice of half and of imago area (R354, R480), identity (R445 to
R448), analogue checks (R449), held starts (R457, R458) and the end of a start.
-/

namespace Sys2Proof.Machine

/-! ### Stages and holds -/

/-- Whether stage k is done. -/
def State.stage (s : State) (k : Nat) : Bool := s.board.stages.getLsbD k

/-- Stage k is done. -/
def State.endStage (s : State) (k : Nat) : State :=
  { s with board := { s.board with stages := s.board.stages ||| BitVec.ofNat 14 (2 ^ k) } }

/-- The hold code of the start (R457). -/
def State.heldCode (s : State) : Nat := s.get F.mltStatusHeld

/-- The start is held for a cause; the first one stands. (DESIGN CHOICE, log entry 54.) -/
def State.hold (s : State) (code : Nat) : State := if s.heldCode = 0 then s.set F.mltStatusHeld code else s

/-- Changes the moult run. -/
def State.modMoult (s : State) (f : Moult → Moult) : State := { s with board := { s.board with moult := f s.board.moult } }

/-- An analogue part's check ended: failed, or passed only on retry (R449); bits as in MLT_RUN. -/
def State.analogPart (s : State) (bit : Nat) (failed retried : Bool) : State :=
  s.modMoult fun m => { m with
    analog := withBits m.analog bit 1 0
    analogFail := withBits m.analogFail bit 1 (bitNum failed)
    analogRetry := withBits m.analogRetry bit 1 (bitNum (retried && !failed)) }

/-- Whether an MLT_RUN waits for an analogue part's check (R460). -/
def State.analogAsked (s : State) (bit : Nat) : Bool :=
  s.board.moult.running && s.board.moult.ref.isSome && bitsAt s.board.moult.analog bit 1 == 1

/-! ### The end of a moult run (R453, R460) -/

/-- A run with nothing left to test ends: its results, and its MLT_RUN or stage 12. -/
def State.moultEnd (s : State) : State :=
  let m := s.board.moult
  if !m.running || !m.todo.isEmpty || !m.batch.isEmpty || !m.retest.isEmpty || m.analog != 0 then s
  else
    let s := s.modMoult fun m => { m with running := false, ref := none }
    let s := ((s.set F.mltStatusRunning 0).bump F.mltRunsRuns).set F.mltLastFailFailed m.failed.toNat
    match m.ref with
    | some c =>
      ((s.set F.mltLastAnalogFailed m.analogFail).set F.mltLastAnalogRetried m.analogRetry).complete c stOk
        (leBytes 8 m.failed.toNat ++ leBytes 1 m.analogFail)
    | none =>
      let s := (s.set F.mltStatusStartDone 1).endStage 12
      if allArrays.all fun (n : ArrayNum) => !s.usable n then s.hold 4 else s

/-! ### Stages 1 to 4 -/

/-- One derivation of HKDF-SHA-384 from the seed (R384). (DESIGN CHOICE, log entry 44.) -/
def derive (seed : BitVec 256) (k : Fin 4) : List Byte :=
  Config.hkdfExpand (Config.hkdfExtract [] (leBytes 32 seed.toNat)) (Config.seedLabel k) (Config.seedLength k)

/-- The four secrets of R384. -/
def secretsOf (seed : BitVec 256) : Secrets :=
  { identity := derive seed 0, hss := derive seed 1, tls := derive seed 2, personal := derive seed 3 }

/-- The fingerprint (R385): the first four bytes of SHA-384 over the identity public key, the first one highest as the card's
hexadecimal digits have it. (DESIGN CHOICE, log entry 44.) -/
def fingerprintOf (k : Secrets) : Nat := leNat ((Config.sha384 (Config.ecdsaPublic k.identity)).take 4).reverse

/-- COC_FINGERPRINT, read from the fused seed before any other block leaves reset (R385, R407). -/
def State.showFingerprint (s : State) : State :=
  match s.flash.seed with
  | some k => s.set F.cocFingerprintFingerprint (fingerprintOf (secretsOf k))
  | none => s

/-- START: 54 V is good and mate-detect made; the counter starts from 0, the fuses are sensed and stage 1 is done (R439, R501).
(DESIGN CHOICE, log entries 5, 65; DEDUCED, log entry 55.) -/
def execStart (s : State) : Host.Outcome State Fault Refusal :=
  .next (if s.board.supply = .off ∧ s.board.good ∧ s.board.mated then
      let s : State := { s with time := 0, board := { s.board with supply := .on } }
      let s := s.showFingerprint
      (((s.set F.reelStatusReady 1).set F.errStatusReady 1).set F.thmStatusReady 1).endStage 1
    else s)

/-- HOLD_UP_CHARGED: stage 2. -/
def execHoldUpCharged (s : State) : Host.Outcome State Fault Refusal :=
  .next (if s.stage 1 then (s.set F.pwrInputHoldupReady 1).endStage 2 else s)

/-- What Cocoon holds once it is ready: the derived secrets, in Return too, whose management port runs (R377, R384); the HSS counts at the higher valid reserved end (R390),
the trees still to be built (R442). -/
def State.cocoonReady (s : State) : State :=
  let secrets := if s.inProduction || s.lifecycle == 2 then s.flash.seed.map secretsOf else none
  let q := s.flash.hssEnd
  let low := decide (2 ^ 30 - q < 2 ^ 20)
  let s : State := { s with coc := { s.coc with secrets := secrets, lowRaised := low } }
  let s := ((s.set F.cocLmsNextNext q).set F.cocLmsReservedReservedEnd q).set F.cocLmsRemainRemain (2 ^ 30 - q)
  let s := (s.set F.cocStatusLmsLow (bitNum low)).set F.cocStatusLmsExhausted (bitNum (decide (2 ^ 30 ≤ q)))
  ((s.set F.cocStatusTreePending (bitNum (s.inProduction && secrets.isSome))).loadKey 8).set F.cocStatusReady 1

/-- COCOON_KEY_DERIVATION: stage 3; with a failing entropy source no key is generated (R404).
(DESIGN CHOICE, log entry 54.) -/
def execCocoonKeyDerivation (entropyOk : Bool) (s : State) : Host.Outcome State Fault Refusal :=
  .next (if s.stage 1 && !s.stage 3 then (if entropyOk then s.cocoonReady.endStage 3 else s.entropyFail) else s)

/-- The half that the pupa loader starts (R354). -/
def State.bootHalf (s : State) : Half :=
  match s.flash.quar[0], s.flash.quar[1] with
  | none, _ => .a
  | some _, none => .b
  | some a, some b => if a.order ≤ b.order then .a else .b

/-- The half starts as Active with claim 2 + its identity; the other stands cold, or quarantined (R352, R354, R360). -/
def State.startHalf (s : State) (h : Half) : State :=
  let cause := fun (q : Option Quar) => (q.map fun x => x.cause).getD 0
  let o := otherHalf h
  let s := (s.set F.twnQuarCauseA (cause s.flash.quar[0])).set F.twnQuarCauseB (cause s.flash.quar[1])
  let s := ((s.setHalfState h 2).setHalfState o (if (s.flash.quar[(halfIx o).val]).isSome then 4 else 0)).powerUpHalf h
  let s := (s.setClaim h (2 + (halfIx h).val)).set F.twnGateClaimClaim (2 + (halfIx h).val)
  ((s.set F.twnStatusActiveHalf (halfIx h).val).set F.spnStatusHalf (halfIx h).val).set F.twnPeriodHours 24

/-- What the area booted does to the activation record (R480). (DESIGN CHOICE, log entry 54.) -/
def State.bootRecord (s : State) (fallback : Bool) : State :=
  let r := s.flash.record
  if fallback then
    let s := (s.setRecord 4).modUpd fun u => { u with keepStaging := r == 2 }
    if r = 3 ∨ r = 4 then
      ({ s with flash := { s.flash with fellBack := true } } : State).raiseBit F.updStatusFellBack
    else s
  else s.setRecord 0

/-- PUPA_LOADER_BOOT: stage 4. The record names the area, its checks decide between it and the other, and with both
failing the module stays unstarted with a crash record (R480). An area passes with both signatures and the manifest digest right,
and, as the operands say, the digest of Spindle's code. (DESIGN CHOICE, log entries 54, 72.) -/
def execPupaLoaderBoot (runningOk fallbackOk : Bool) (s : State) : Host.Outcome State Fault Refusal :=
  .next (if s.stage 1 && !s.stage 4 && !s.board.dead then
      let runningOk := runningOk && s.flash.headOk s.flash.running.pieces
      let fallbackOk := fallbackOk && s.flash.headOk s.flash.fallback.pieces
      if !runningOk && !fallbackOk then
        let s := s.writeCrash 4 0 s.time
        { s with board := { s.board with dead := true } }
      else
        let fallback := if s.flash.record ≤ 1 then !runningOk else fallbackOk
        (((s.startHalf s.bootHalf).bootRecord fallback).showVersions 7).endStage 4
    else s)

/-! ### Stage 5: identity (R445 to R448) -/

/-- One step of CRC-16/CCITT-FALSE over a byte's bits. -/
def crc16Bits : Nat → BitVec 16 → BitVec 16
  | 0, c => c
  | k + 1, c => crc16Bits k (if c.getMsbD 0 then (c <<< 1) ^^^ 0x1021#16 else c <<< 1)

/-- CRC-16/CCITT-FALSE (R445). -/
def crc16 (bs : List Byte) : BitVec 16 :=
  bs.foldl (fun (c : BitVec 16) (b : Byte) => crc16Bits 8 (c ^^^ (b.zeroExtend 16 <<< 8))) 0xFFFF#16

/-- The read fault of a record, 0 for none: 1 unacknowledged, 2 CRC, 3 format or kind (R446, R464). -/
def identityFault (kind : Nat) (r : Option (List Byte)) : Nat :=
  match r with
  | none => 1
  | some bs =>
    if (crc16 (bytesAt bs 0 30)).toNat ≠ fieldAt bs 30 2 then 2
    else if fieldAt bs 0 2 ≠ 1 ∨ fieldAt bs 2 1 ≠ kind then 3 else 0

/-- Both memories are read and compared with the fused record (R446, R447); the answer says whether they match. -/
def State.compareIdentity (s : State) (tray manifold : Option (List Byte)) : State × Bool :=
  let ft := identityFault 1 tray
  let fm := identityFault 2 manifold
  let t := tray.getD []
  let m := manifold.getD []
  let own := s.get F.idmOwnLoopType
  let cause :=
    if ft ≠ 0 then ft
    else if fm ≠ 0 then 3 + fm
    else if fieldAt m 3 1 ≠ own ∨ fieldAt t 3 1 ≠ own then 7
    else if fieldAt t 4 1 ≠ s.get F.idmOwnSlotKind then 8 else 0
  let s := (s.set F.idmStatusTrayOk (bitNum (ft == 0))).set F.idmStatusManifoldOk (bitNum (fm == 0))
  let s := if ft ≠ 0 then s
    else ((s.set F.idmTrayLoopType (fieldAt t 3 1)).set F.idmTraySlotKind (fieldAt t 4 1)).set F.idmTraySlot (fieldAt t 5 2)
  let s := if fm ≠ 0 then s else s.set F.idmManifoldLoopType (fieldAt m 3 1)
  let s := if ft ≠ 0 ∨ fm ≠ 0 then s.raiseBit F.idmStatusReadFault else s
  (((s.set F.idmStatusCause cause).set F.idmStatusMismatch (bitNum (cause != 0))).bump F.idmChecksChecks, cause == 0)

/-- The unusable map is read, and arrays condemned before are marked (R454, R456). -/
def State.loadMap (s : State) : State :=
  let map := (s.flash.unusable.map fun (m : DWord) => m.toNat).getD 0
  let s := s.set F.mltUnusableUnusable map
  let s := allArrays.foldl (fun (s : State) (n : ArrayNum) => if s.usable n then s else s.set (F.mltAResultResult n) 4) s
  allArrays.foldl (fun (s : State) (n : ArrayNum) =>
    if s.flash.condemned.getLsbD n.val && s.usable n then s.markUnusable n else s) s

/-- The power manager starts with the settings held in flash (R415, R433), and power-gates the arrays that their own sensors
tripped before (R428). -/
def State.startPm (s : State) : State :=
  let s := ((s.set F.pwrCapHostCap s.flash.hostCap).set F.thmStatusWarmEn (bitNum s.flash.warm)).set F.thmFloorFloor s.flash.floor
  let s := (s.set F.pwrStatusReady 1).refreshCap
  allArrays.foldl (fun (s : State) (n : ArrayNum) => if s.pm.ownTrip.getLsbD n.val then s.startGate n else s) s

/-- IDENTITY_CHECK: stage 5. A mismatch leaves one record and holds the start (R448). -/
def execIdentityCheck (tray manifold : Option (List Byte)) (digestOk : Bool) (s : State) : Host.Outcome State Fault Refusal :=
  .next (if s.stage 4 && !s.stage 5 && !s.flag F.spnStatusLoadFail then
      let s := s.loadComponent 0 digestOk
      if !digestOk then s
      else
        let r := s.startPm.loadMap.compareIdentity tray manifold
        let s := r.1.endStage 5
        if r.2 then (if allArrays.all fun (n : ArrayNum) => !s.usable n then s.hold 4 else s)
        else
          let s : State := { s.hold 1 with board := { s.board with identityAt := s.time } }
          s.healthEvent 0x04F stIdentity 2
    else s)

/-- IDENTITY_RECHECK: in the identity hold, every 10 s; a match lets stage 6 and the later ones run (R448). -/
def execIdentityRecheck (tray manifold : Option (List Byte)) (s : State) : Host.Outcome State Fault Refusal :=
  .next (if s.stage 5 && s.heldCode == 1 && decide (1000000000 ≤ (s.time - s.board.identityAt).toNat) then
      let r := s.compareIdentity tray manifold
      let s : State := { r.1 with board := { r.1.board with identityAt := s.time } }
      if r.2 then
        let s : State := (s.set F.mltStatusHeld 0)
        let s : State := { s with board := { s.board with stages := s.board.stages &&& ~~~(0x2000#14) } }
        if allArrays.all fun (n : ArrayNum) => !s.usable n then s.hold 4 else s
      else s
    else s)

/-! ### Stages 6 and 7: vaults -/

/-- The arrays of a map, in increasing number. -/
def arraysOfMap (m : DWord) : List ArrayNum := allArrays.filter fun (n : ArrayNum) => m.getLsbD n.val

/-- The vault checks' results (R449): the common part, and the bonds of each usable array. A raw run changes no mark and no
result (R461). (DEDUCED, log entry 56.) -/
def State.vaultChecked (s : State) (first second : Bool) (bondFail retryFail : DWord) : State :=
  let bad := (arraysOfMap (bondFail &&& retryFail)).filter fun (n : ArrayNum) => s.usable n
  let again := !first || (bondFail &&& ~~~retryFail) != 0
  let s := s.analogPart 2 (!first && !second) again
  let s := if s.board.moult.running && s.board.moult.raw then s else bad.foldl (fun (s : State) (n : ArrayNum) => s.condemn n) s
  s.modMoult fun m => { m with failed := m.failed ||| (if m.ref.isSome then BitVec.ofNat 64 (mapOf bad) else 0) }

/-- Whether the arrays take part in the start: in a held start no array's memory section is powered (R458). -/
def State.arraysRun (s : State) : Bool := s.heldCode == 0

/-- VAULT_PHY_CHECK: stage 6, which powers the memory sections of the passing arrays unless the start is held (R440, R458), or the part of an MLT_RUN.
(DESIGN CHOICE, log entry 54.) -/
def execVaultPhyCheck (digestOk first second : Bool) (bondFail retryFail : DWord) (s : State) :
    Host.Outcome State Fault Refusal :=
  .next (if s.stage 5 && !s.stage 6 && s.heldCode != 1 && !s.flag F.spnStatusLoadFail then
      let s := s.loadComponent 1 digestOk
      if !digestOk then s
      else
        let s := s.vaultChecked first second bondFail retryFail
        let s := if !first && !second then s.hold 2
          else if allArrays.all fun (n : ArrayNum) => !s.usable n then s.hold 4 else s
        { s with board := { s.board with sections := s.arraysRun } }.endStage 6
    else if s.analogAsked 2 then ((s.takeBank 1).vaultChecked first second bondFail retryFail).moultEnd
    else s)

/-- The start is held once arrays are powered: they lose their power, and the start's moult ends with nothing tested (R458).
(DESIGN CHOICE, log entry 54.) -/
def State.holdArrays (s : State) (code : Nat) : State :=
  let s := allArrays.foldl (fun (s : State) (n : ArrayNum) =>
    s.modArr n fun a => { ArrayState.reset with vtags := a.vtags }) (s.hold code)
  let s : State := { s with board := { s.board with sections := false } }
  (s.modMoult fun m => { m with running := false, todo := [], batch := [], retest := [] }).set F.mltStatusRunning 0

/-- START_VAULT_CLEAR: stage 7 (R157, R158). -/
def execStartVaultClear (s : State) : Host.Outcome State Fault Refusal :=
  .next (if s.stage 6 && !s.stage 7 && s.arraysRun then
      (allArrays.foldl (fun (s : State) (n : ArrayNum) =>
        if s.usable n then
          ((s.wipe (vaultBase n) vaultSize).modArr n fun a => { a with vtags := [] }).raiseBit (F.vltStatusClearDone n)
        else s) s).endStage 7
    else s)

/-! ### Stages 8 and 9: the tier -/

/-- The LPDDR PHY's microcode is loaded (R348, R439 stage 8), which lets stage 10 begin. -/
def State.loadLpddr (s : State) (ok : Bool) : State :=
  if s.board.lpddrLoaded then s
  else
    let s := s.loadComponent 2 ok
    { s with board := { s.board with lpddrLoaded := ok } }

/-- TIER_TRAINING: stage 8, or the part of an MLT_RUN; a failing LPDDR PHY holds the start, and stages 8 and 9 are skipped (R449,
R457, R458). -/
def execTierTraining (digestOk first second : Bool) (s : State) : Host.Outcome State Fault Refusal :=
  .next (if s.stage 6 && !s.stage 8 && !s.board.lpddrFailed && !s.flag F.spnStatusLoadFail then
      let s := s.loadLpddr digestOk
      if !s.board.lpddrLoaded then s
      else
        let s := s.analogPart 1 (!first && !second) (!first)
        if first || second then ((s.set F.tierStatusReady 1).patrolStart 64).endStage 8
        else ({ s with board := { s.board with lpddrFailed := true } } : State).holdArrays 3
    else if s.analogAsked 1 then ((s.takeBank 2).analogPart 1 (!first && !second) (!first)).moultEnd
    else s)

/-- START_TIER_CLEAR: stage 9. Every granule is cleared, the top 1 GiB is the platform's, and Spindle's code is copied there
(R157, R162, R439). -/
def execStartTierClear (s : State) : Host.Outcome State Fault Refusal :=
  .next (if s.stage 8 && !s.stage 9 && s.bit F.tierKeyStatLoaded 8 then
      let tags : SMap Byte := (List.range 0x100).map fun k => (0xFF00 + k, platformTag)
      ((({ s.wipe tierBase tierSize with tierTags := tags } : State).copyCode).raiseBit F.tierStatusClearDone).endStage 9
    else s)

/-! ### Stages 10 and 11 -/

/-- The lanes of a port (R509). -/
def State.portLanes (s : State) (port : Port) : BitVec 16 :=
  if s.flag (F.pciLinkBifurcated 0) then (if port = 0 then 0x00FF else 0xFF00) else (if port = 0 then 0xFFFF else 0)

/-- The lanes that a SerDes check covers: those of ports that are down. -/
def State.lanesDown (s : State) : BitVec 16 :=
  (if s.flag (F.pciLinkUp 0) then 0 else s.portLanes 0) ||| (if s.flag (F.pciLinkUp 1) then 0 else s.portLanes 1)

/-- The SerDes check's result on some lanes (R449, R511): PCI_LANE_OK, the part's result, and a record that names the
failing lanes. (DEDUCED, log entry 64.) -/
def State.lanesChecked (s : State) (lanes laneFail retryFail : BitVec 16) : State :=
  let bad := laneFail &&& retryFail &&& lanes
  let ok := (BitVec.ofNat 16 (s.get F.pciLaneOkLanes) &&& ~~~lanes) ||| (lanes &&& ~~~bad)
  let s := (s.set F.pciLaneOkLanes ok.toNat).analogPart 0 (bad != 0) ((laneFail &&& ~~~retryFail &&& lanes) != 0)
  let s : State := { s with board := { s.board with recheck :=
    (if s.flag (F.pciLinkUp 0) then s.board.recheck &&& 1#2 else 0) ||| (if s.flag (F.pciLinkUp 1) then s.board.recheck &&& 2#2 else 0) } }
  if bad = 0 then s
  else s.report { source := 0x04D, cls := 0x0E, severity := 2, detail := leBytes 2 bad.toNat }

/-- The management PHY's check: it passed, or the port stays down, and goes down where it was up (R449). -/
def State.mgmtChecked (s : State) (first second : Bool) : State :=
  let s := s.analogPart 3 (!first && !second) (!first)
  let s : State := { s with board := { s.board with mgmtOk := first || second } }
  if first || second then s else s.dropMgmt

/-- SERDES_CHECK: stage 10 with the strap's sampling (R439, R440, R509), a part of an MLT_RUN, or the check before a port's
retraining (R450). Stage 10 waits for the LPDDR microcode alone, which stage 8 loads first: a check that comes before the tier is
trained finds it loaded. (DESIGN CHOICE, log entry 54; DEDUCED, log entry 60.) -/
def execSerdesCheck (digests : SerdesDigests) (laneFail retryFail : BitVec 16) (mgmtFirst mgmtSecond strap : Bool) (s : State) :
    Host.Outcome State Fault Refusal :=
  .next (if s.stage 2 && s.stage 5 && !s.stage 10 && (s.stage 6 || s.heldCode == 1)
      && !s.flag F.spnStatusLoadFail then
      let s := if s.stage 6 then s.loadLpddr true else s
      let s := (s.loadComponent 3 digests.pcie).loadComponent 4 digests.mgmt
      if !(digests.pcie && digests.mgmt) then s
      else
        let s := (s.set (F.pciLinkBifurcated 0) (bitNum strap)).set (F.pciLinkBifurcated 1) (bitNum strap)
        ((s.lanesChecked 0xFFFF laneFail retryFail).mgmtChecked mgmtFirst mgmtSecond).endStage 10
    else if s.analogAsked 0 || s.analogAsked 3 then
      let s := if s.analogAsked 0 then s.lanesChecked 0xFFFF laneFail retryFail else s
      (if s.analogAsked 3 then s.mgmtChecked mgmtFirst mgmtSecond else s).moultEnd
    else if s.stage 10 && s.board.recheck != 0 then
      let parts := s.board.moult
      (s.lanesChecked s.lanesDown laneFail retryFail).modMoult fun m => { m with
        analogFail := parts.analogFail, analogRetry := parts.analogRetry }
    else s)

/-- SAMPLER_HAWKMOTH_LOAD: stage 11 (R348, R349). -/
def execSamplerHawkmothLoad (samplerOk hawkmothOk : Bool) (s : State) : Host.Outcome State Fault Refusal :=
  .next (if s.stage 10 && !s.stage 11 && !s.flag F.spnStatusLoadFail then
      let s := (s.loadComponent 5 samplerOk).loadComponent 6 hawkmothOk
      let s := (s.set F.smpStatusReady (bitNum samplerOk)).set F.hwkStatusReady (bitNum hawkmothOk)
      if samplerOk && hawkmothOk then s.endStage 11 else s
    else s)

/-! ### Stage 13 -/

/-- The stages that a start needs before stage 13, for its hold and with the LPDDR PHY failed or not, whatever the first hold was
(R439, R458). (DESIGN CHOICE, log entry 54.) -/
def neededStages (held : Nat) (lpddrFailed : Bool) : List Nat :=
  let tier := if lpddrFailed then [] else [8, 9]
  match held with
  | 0 => [1, 2, 3, 4, 5, 6, 7, 8, 9, 10, 11, 12]
  | 1 => [1, 2, 3, 4, 5, 10, 11]
  | 3 => [1, 2, 3, 4, 5, 6, 10, 11]
  | _ => [1, 2, 3, 4, 5, 6] ++ tier ++ [10, 11]

/-- Where the ledger's copies go (R355): the array and granule of copy 0 and of copy 1. -/
def State.ledgerPlaces (s : State) : Option ((ArrayNum × Nat) × (ArrayNum × Nat)) :=
  let low := allArrays.filter fun (n : ArrayNum) => s.usable n && decide (n.val < 32)
  let high := allArrays.filter fun (n : ArrayNum) => s.usable n && decide (32 ≤ n.val)
  match low, high with
  | a :: _, b :: _ => some ((a, 383), (b, 383))
  | a :: b :: _, [] => some ((a, 383), (b, 383))
  | [], a :: b :: _ => some ((a, 383), (b, 383))
  | [a], [] => some ((a, 383), (a, 382))
  | [], [a] => some ((a, 383), (a, 382))
  | [], [] => none

/-- The ledger is placed; a held start has none (R355, R458). -/
def State.placeLedger (s : State) : State :=
  match s.ledgerPlaces with
  | some (a, b) =>
    let s := (s.setVtag a.1 a.2 platformTag).setVtag b.1 b.2 platformTag
    let s := (s.set F.twnLedgerCopy0 a.1.val).set F.twnLedgerCopy1 b.1.val
    { s with twn := { s.twn with ledger := { s.twn.ledger with placed := true, snapTime := s.time } } }
  | none => s

/-- The arbiter's default weights are loaded and committed (R316). -/
def State.shuttleDefaults (s : State) : State :=
  let two := s.flag (F.pciLinkBifurcated 0)
  let eight := fun (i : Fin 4) => match i.val with
    | 0 => 1024
    | 3 => 128
    | _ => if two then 256 else 512
  let s := (List.finRange 4).foldl (fun (s : State) (i : Fin 4) =>
    if i.val = 2 ∧ two = false then s
    else
      let s := s.set (F.shtIStatActive i) 1
      (List.range (shtCount i)).foldl (fun (s : State) (r : Nat) =>
        s.shtStage i r (if r = 8 then eight i else if r = 9 then 4096 else 0) 0 256) s) s
  s.shtArm 15

/-- The unusable map is written; one that no record held is rebuilt from the tests, and stays unwritten where the start's hold has
left them out (R454, R458). -/
def State.writeMap (s : State) : State :=
  if s.flash.unusable.isSome then s.flashMap
  else if s.stage 12 then (s.raiseBit F.mltStatusMapRebuilt).flashMap
  else s

/-- The start event record, with MLT_BOOT_TICKS in its time field (R444, R487). (DESIGN CHOICE, log entry 54.) -/
def State.startRecord (s : State) : State :=
  s.reportAt (BitVec.ofNat 64 (s.get F.mltBootTicksTicks)) {
    source := 0x045, cls := 0x0E, severity := 0
    detail := leBytes 1 (s.get F.twnStatusActiveHalf) ++ leBytes 8 s.usableMap ++ leBytes 8 s.board.marked.toNat
      ++ leBytes 1 (s.get F.mltLastAnalogFailed) ++ leBytes 1 s.heldCode ++ leBytes 1 s.board.stopCode }

/-- LOMLET_READY: stage 13. After a hold that cleared, lomlet_ready has stayed set and the arbiter keeps its weights
(R448). (DESIGN CHOICE, log entry 54.) -/
def execLomletReady (s : State) : Host.Outcome State Fault Refusal :=
  .next (if !s.stage 13 && !s.flag F.spnStatusLoadFail && (neededStages s.heldCode s.board.lpddrFailed).all fun k => s.stage k then
      let first := !s.board.started
      let m := s.board.moult
      let s := (s.set F.mltLastAnalogFailed m.analogFail).set F.mltLastAnalogRetried m.analogRetry
      let s := s.writeMap
      let s := if s.heldCode = 0 then s.placeLedger else s
      let s := if first then
          let s := s.shuttleDefaults
          let s := (s.set F.mltBootTicksTicks (s.time.toNat % 2 ^ 32)).set F.spnStatusLomletReady 1
          let s : State := { s with
            twn := { s.twn with heartbeat := s.time }, board := { s.board with started := true } }
          s.scheduleSwap s.time
        else s
      (s.startRecord).endStage 13
    else s)

end Sys2Proof.Machine
end

