-- ==== Sys2Proof/Machine/Test.lean ====
section
/-!
DEFINITION. Moult self-test (R451 to R462), bit-error tests (R521 to R523) and the life cycle (R374 to R376).
-/

namespace Sys2Proof.Machine

/-! ### Batches (R451 to R453) -/

/-- Whether the start's moult is due: stage 7 done, and stage 12 not. -/
def State.startMoult (s : State) : Bool := s.stage 7 && !s.stage 12 && s.arraysRun && !s.board.moult.running

/-- The start's run begins with every usable array; a command's run began with its MLT_RUN. -/
def State.moultBegin (s : State) : State :=
  if s.startMoult then
    (s.modMoult fun m => { m with
      running := true, raw := false, todo := allArrays.filter fun (n : ArrayNum) => s.usable n, pass := 0 }).set
        F.mltStatusRunning 1
  else s

/-- A finished pass hands its queue to the next retest batch (R453). -/
def State.nextPass (s : State) : State :=
  let m := s.board.moult
  if m.todo.isEmpty && m.batch.isEmpty && !m.retest.isEmpty then
    s.modMoult fun m => { m with todo := m.retest, retest := [], pass := m.pass + 1 }
  else s

/-- The arrays of the next batch (R452): in the first pass one column n mod 8, in a retest pass the queue, at most eight,
those that can be tested; outside a start only while the estimate with 6.0 W for each stays within 97% of the cap.
(DEDUCED, log entry 56.) -/
def State.nextBatch (s : State) : List ArrayNum :=
  let m := s.board.moult
  let fit := m.todo.filter fun (n : ArrayNum) => s.usable n && (s.arr n).power == .running && !s.busy n
  let col := fit.foldl (fun (c : Nat) (n : ArrayNum) => min c (n.val % 8)) 7
  let cands := if m.pass = 0 then fit.filter fun (n : ArrayNum) => n.val % 8 == col else fit
  let room := if m.ref.isNone then 8 else ((97 * s.effCap / 100) - s.moduleEst) / 600
  cands.take (min 8 room)

/-- MOULT_BATCH: a batch begins its tests; its arrays are busy (R451). In a gap no batch begins: the run goes on when a half has
reconciled (R460). (DEDUCED, log entry 56.) -/
def execMoultBatch (s : State) : Host.Outcome State Fault Refusal :=
  .next (let s := s.moultBegin
    if s.gapHolds || !s.board.moult.running || !s.board.moult.batch.isEmpty then s
    else
      let s := s.nextPass
      let batch := s.nextBatch
      let s := s.modMoult fun m => { m with batch := batch, todo := m.todo.filter fun (n : ArrayNum) => !batch.contains n }
      (batch.foldl (fun (s : State) (n : ArrayNum) =>
        s.modArr n fun a => { a with test := .running, warming := false }) s).moultEnd)

/-- An array leaves the run Passed, with what its state so far calls for. -/
def State.testPassed (s : State) (n : ArrayNum) : State :=
  let s := s.set (F.mltAResultResult n) 1
  if s.board.moult.failedOnce.getLsbD n.val then (s.raiseBit F.mltStatusIntermittent).arrayHealth 0x04A 0 n n.val else s

/-- A failed test: queued for a retest, or Unusable (R453, R454, R456). -/
def State.testFailed (s : State) (n : ArrayNum) : State :=
  if s.board.moult.failedOnce.getLsbD n.val then
    (s.modMoult fun m => { m with failed := withArr m.failed n true }).condemn n
  else
    (s.modMoult fun m => { m with failedOnce := withArr m.failedOnce n true, retest := m.retest ++ [n] }).set
      (F.mltAResultResult n) 2

/-- An aborted test: queued for the first retest batch, or Not tested (R453). -/
def State.testAborted (s : State) (n : ArrayNum) : State :=
  let m := s.board.moult
  let s := s.set (F.mltAResultResult n) 3
  if m.failedOnce.getLsbD n.val then (s.raiseBit F.mltStatusIntermittent).arrayHealth 0x04A 0 n
  else if m.abortedOnce.getLsbD n.val then s.arrayHealth 0x04A 0 n
  else s.modMoult fun m => { m with abortedOnce := withArr m.abortedOnce n true, retest := m.retest ++ [n] }

/-- An array's result in a run with stored patterns. (DEDUCED, log entry 56.) -/
def State.testResult (s : State) (n : ArrayNum) (r : TestEnd) : State :=
  let s := s.set (F.mltAResultRetested n) (bitNum (decide (0 < s.board.moult.pass)))
  match r with
  | .passed => s.testPassed n
  | .failed => s.testFailed n
  | .aborted => s.testAborted n

/-- A batch that is over leaves a step entry of its MLT_RUN (R460). -/
def State.batchEnd (s : State) : State :=
  let m := s.board.moult
  if !m.batch.isEmpty then s
  else
    match m.ref with
    | some c => (s.ledger (.step c .moult)).moultEnd
    | none => s.moultEnd

/-- ARRAY_TEST_END: every memory that the test touched reads 0, and the array's counters are 0 (R451); a trip aborts the
test (R452). A raw run changes no mark and no result (R461). (DEDUCED, log entry 56.) -/
def execArrayTestEnd (n : ArrayNum) (result : TestEnd) (s : State) : Host.Outcome State Fault Refusal :=
  .next (if (s.arr n).test = .running ∧ s.board.moult.batch.contains n then
      let r := if s.pm.tripOff.getLsbD n.val then .aborted else result
      let s := (s.zeroArray n).modArr n fun a => { a with test := .none }
      let s := s.modMoult fun m => { m with batch := m.batch.filter fun (x : ArrayNum) => x != n }
      let s := if s.board.moult.raw then
          s.modMoult fun m => { m with failed := withArr m.failed n (m.failed.getLsbD n.val || r == .failed) }
        else s.testResult n r
      s.batchEnd
    else s)

/-! ### MLT_RUN, MLT_QUERY (R459 to R462) -/

/-- Whether any partition exists. -/
def State.anyPart (s : State) : Bool := allParts.any fun (p : PartNum) => (s.part p).live

/-- Whether a command came from the management channel. -/
def Cmd.fromMgmt (m : Cmd) : Bool :=
  match m.ref.src with
  | .mgmt _ => true
  | .pair _ => false

/-- Whether an analogue part is in use (R459). -/
def State.analogBusy (s : State) (m : Cmd) (mask : Nat) : Bool :=
  let has := fun k => bitsAt mask k 1 == 1
  (has 0 && (s.flag (F.pciLinkUp 0) || s.flag (F.pciLinkUp 1)))
    || (has 3 && (m.fromMgmt || s.get F.mgtStatusSessions != 0))
    || ((has 1 || has 2) && (s.anyPart || !s.flag F.spnStatusDrained))

/-- MLT_RUN. (DEDUCED, log entry 56.) -/
def execMltRun (c : CmdRef) (s : State) : Host.Outcome State Fault Refusal :=
  .next (s.runCmd c 0x0701 fun m s =>
    let named := arraysOfMap (BitVec.ofNat 64 (m.arg 8 8))
    let parts := m.arg 16 1 % 16
    let raw := m.arg 17 1 == 1
    let taken := named.any fun (n : ArrayNum) => (s.partOf n).isSome || s.bit F.mltCondemnedCondemned n || s.heldCode != 0
    if raw && s.lifecycle != 0 && s.lifecycle != 2 then s.complete c stLifecycle
    else if s.board.moult.running || s.board.prbs.isSome || taken || s.analogBusy m parts then s.complete c stBusy
    else
      let dead := named.filter fun (n : ArrayNum) => !s.usable n
      let s := s.modMoult fun _ => {
        running := true, ref := some c, raw := raw, todo := named.filter fun (n : ArrayNum) => s.usable n, batch := []
        pass := 0, retest := [], failedOnce := 0, abortedOnce := 0, failed := BitVec.ofNat 64 (mapOf dead)
        analog := parts, analogFail := 0, analogRetry := 0 }
      ((s.set F.mltStatusRunning 1).park c .moult).moultEnd)

/-- MLT_QUERY (R462). -/
def execMltQuery (c : CmdRef) (s : State) : Host.Outcome State Fault Refusal :=
  .next (s.runCmd c 0x0702 fun _ s => s.complete c stOk (
    leBytes 8 (s.get F.mltUnusableUnusable) ++ leBytes 8 (s.get F.mltLastFailFailed) ++ leBytes 1 (s.get F.mltLastAnalogFailed)))

/-! ### Bit-error tests (R521 to R523) -/

/-- The status of a PRBS_START after R333. -/
def State.prbsCheck (s : State) (m : Cmd) (what mask : Nat) : Nat :=
  let port := fun (b : Port) => s.flag (F.pciLinkUp b) && (BitVec.ofNat 16 mask &&& s.portLanes b) != 0
  if 2 < what ∨ mask = 0 ∨ (if what = 2 then 1 < mask else 65535 < mask) then stBad
  else if s.board.moult.running ∨ s.board.prbs.isSome then stBusy
  else if what = 0 ∧ (port 0 ∨ port 1) then stBusy
  else if what = 1 ∧ (s.anyPart ∨ s.flag F.spnStatusDrained = false) then stBusy
  else if what = 2 ∧ (m.fromMgmt ∨ s.get F.mgtStatusSessions ≠ 0) then stBusy
  else stOk

/-- A test's counters are cleared and its running bit is set. -/
def State.prbsClear (s : State) (what : Fin 3) : State :=
  match what.val with
  | 0 =>
    let s := ((s.set F.pciPrbsStatRunning 1).set F.pciPrbsStatSync 0).set F.pciPrbsBitsBits 0
    (List.range 16).foldl (fun (s : State) (l : Nat) => s.set (F.pciPrbsErrErrors l) 0) s
  | 1 =>
    let s := ((s.set F.tierPrbsStatRunning 1).set F.tierPrbsStatSync 0).set F.tierPrbsBitsBits 0
    (List.range 16).foldl (fun (s : State) (l : Nat) =>
      (s.set (F.tierPrbsErrErrors l) 0).set (F.tierPrbsMapLanes l) 0) s
  | _ =>
    ((s.set F.mgtStatusPrbsRunning 1).set F.mgtStatusPrbsSync 0 |>.set F.mgtPrbsBitsBits 0).set F.mgtPrbsErrErrors 0

/-- PRBS_START (R521, R522). -/
def execPrbsStart (c : CmdRef) (s : State) : Host.Outcome State Fault Refusal :=
  .next (s.runCmd c 0x0703 fun m s =>
    let st := s.prbsCheck m (m.arg 8 1) (m.arg 12 4)
    match (List.finRange 3)[m.arg 8 1]? with
    | some what =>
      if st ≠ stOk then s.complete c st
      else
        let s := s.prbsClear what
        ({ s with board := { s.board with prbs := some (what, m.arg 12 4) } } : State).complete c stOk
    | none => s.complete c st)

/-- What a running test measures in one tick: free values, added on the named lanes only.
(DESIGN CHOICE, log entries 1, 57.) -/
def State.tickPrbs (s : State) : State :=
  match s.board.prbs with
  | none => s
  | some (what, mask) =>
    let w := fun (k : Nat) => (Config.freeWord (s.free + k)).toNat
    let sync := (BitVec.ofNat 16 (w 1) &&& BitVec.ofNat 16 mask).toNat
    let lanes := (List.range 16).filter fun (l : Nat) => bitsAt mask l 1 == 1
    let s := match what.val with
      | 0 =>
        let s := (s.set F.pciPrbsStatSync sync).addTo F.pciPrbsBitsBits (w 0)
        lanes.foldl (fun (s : State) (l : Nat) => s.addTo (F.pciPrbsErrErrors l) (w (2 + l))) s
      | 1 =>
        let s := (s.set F.tierPrbsStatSync sync).addTo F.tierPrbsBitsBits (w 0)
        lanes.foldl (fun (s : State) (l : Nat) =>
          let map := BitVec.ofNat 32 (s.get (F.tierPrbsMapLanes l)) ||| Config.freeWord (s.free + 18 + l)
          (s.addTo (F.tierPrbsErrErrors l) (w (2 + l))).set (F.tierPrbsMapLanes l) map.toNat) s
      | _ => ((s.set F.mgtStatusPrbsSync (sync % 2)).addTo F.mgtPrbsBitsBits (w 0)).addTo F.mgtPrbsErrErrors (w 2)
    { s with free := s.free + 34 }

/-- PRBS_STOP: the named test stops and its counters hold what it measured (R522). (DESIGN CHOICE, log entry 57.) -/
def execPrbsStop (c : CmdRef) (s : State) : Host.Outcome State Fault Refusal :=
  .next (s.runCmd c 0x0704 fun m s =>
    match s.board.prbs with
    | some (what, _) =>
      if what.val = m.arg 8 1 then
        let s := s.set (match what.val with
          | 0 => F.pciPrbsStatRunning
          | 1 => F.tierPrbsStatRunning
          | _ => F.mgtStatusPrbsRunning) 0
        ({ s with board := { s.board with prbs := none } } : State).complete c stOk
      else s.complete c stOk
    | none => s.complete c stOk)

/-! ### The life cycle (R374 to R376) -/

/-- What a life-cycle token covers: serial number, target state, fuses blown so far (R376; its layout is the model's).
(DESIGN CHOICE, log entry 58.) -/
def State.tokenMessage (s : State) (target : Nat) : List Byte :=
  leBytes 8 Config.serial.toNat ++ leBytes 1 target ++ leBytes 1 (s.get F.cocLifecycleFuses)

/-- Whether a token is valid: a P-384 ECDSA and an HSS signature of the life-cycle authority (R376).
(DESIGN CHOICE, log entry 58.) -/
def State.tokenOk (s : State) (target : Nat) (token : List Byte) : Bool :=
  Config.ecdsaVerify Config.lifeAuthority.1 (s.tokenMessage target) (bytesAt token 0 96)
    && Config.hssVerify Config.lifeAuthority.2 (s.tokenMessage target) (token.drop 96)

/-- A completion goes out at once: the module restarts before the writer could take it.
(DESIGN CHOICE, log entry 58.) -/
def State.answerNow (s : State) (c : CmdRef) (status : Nat) : State :=
  match s.cmd c with
  | none => s
  | some m =>
    let comp : Completion := { status := status, result := bytesAt [] 0 40, time := s.time, held := false }
    match m.ref.src with
    | .pair k => if s.ringRoom k 0 then s.ringWrite k 0 (completionBytes m comp) else s
    | .mgmt x => if m.orphan then s else s.send (.mgmtFrame x 3 (completionBytes m comp))

/-- The module enters Return or Terminated (R375): the command's completion, every key zeroised, the fuses blown, and a
restart as from power-on. Terminated erases the seed. (DESIGN CHOICE, log entry 58.) -/
def State.enterState (s : State) (c : CmdRef) (target : Nat) : State :=
  let s := (s.answerNow c stOk).fence
  let s := (s.set F.cocLifecycleState target).set F.cocLifecycleFuses (s.get F.cocLifecycleFuses + 1)
  let s : State := if target = 3 then { s with flash := { s.flash with seed := none } } else s
  let s : State := { s with board := { s.board with stopCode := 0 } }
  s.powerOff .off

/-- A SEC_LIFECYCLE whose token was valid goes on once every partition is destroyed. (DESIGN CHOICE, log entry 58.) -/
def State.lifecycleStep (s : State) : State :=
  match s.spn.cmds.find? fun (m : Cmd) => match m.wait with
    | .lifecycle _ => true
    | _ => false with
  | some m =>
    match m.wait with
    | .lifecycle target => if s.anyPart || s.gapHolds then s else s.enterState m.ref target
    | _ => s
  | none => s

/-- SEC_LIFECYCLE (R375, R376): Return from Production, Terminated from Production or Return. Every partition is destroyed
as by PART_DESTROY before the fuses are blown. (DESIGN CHOICE, log entry 58.) -/
def execSecLifecycle (c : CmdRef) (s : State) : Host.Outcome State Fault Refusal :=
  .next (s.runCmd c 0x0805 fun m s =>
    let target := m.arg 8 1
    let now := s.lifecycle
    if !((now == 1 && target == 2) || ((now == 1 || now == 2) && target == 3)) then s.complete c stLifecycle
    else if !s.tokenOk target m.extra then (s.raiseBit F.cocStatusLcFail).complete c stSig
    else (s.park c (.lifecycle target)).settle.lifecycleStep)

/-- PROVISIONING: Blank to Production at Gosait's final test (R375): the seed and the digests of the imago
authority's keys (R468) are fused, the certificate chains are written and the index record is 0. -/
def execProvisioning (identity : Identity) (s : State) : Host.Outcome State Fault Refusal :=
  .next (if s.lifecycle = 0 then
      let s : State := { s with flash := { s.flash with
        seed := some identity.seed, authority := (identity.ecdsaKey, identity.hssKey), deviceChain := identity.deviceChain
        mgmtChain := identity.mgmtChain
        hss := Vector.replicate 2 { reserved := 0, crc := crc32c (leBytes 4 0) } } }
      let s := s.set F.cocFingerprintFingerprint (fingerprintOf (secretsOf identity.seed))
      (s.set F.cocLifecycleState 1).set F.cocLifecycleFuses (s.get F.cocLifecycleFuses + 1)
    else s)

end Sys2Proof.Machine
end

