-- ==== Sys2Proof/Machine/Links.lean ====
section
/-!
DEFINITION. The link ports (R508 to R512): training, link-down, PERST# and D3hot.
-/

namespace Sys2Proof.Machine

/-- Whether n lanes from the lowest or the highest lane of a port all passed the SerDes check (R511).
(DEDUCED, log entry 60.) -/
def State.lanesForm (s : State) (port : Port) (n : Nat) : Bool :=
  let own := (List.range 16).filter fun (l : Nat) => (s.portLanes port).getLsbD l
  let ok := fun (l : Nat) => s.bit F.pciLaneOkLanes l
  decide (n ≤ own.length) && ((own.take n).all ok || (own.reverse.take n).all ok)

/-- The width that a port trains at: the widest supported one that its passing lanes form (R508, R511).
(DEDUCED, log entry 60.) -/
def State.widthOk (s : State) (port : Port) (width : Nat) : Bool :=
  ([16, 8, 4, 2, 1].find? fun n => s.lanesForm port n) == some width

/-- LINK_UP: a port enters L0, once its SerDes check is done (R440, R450, R509, R511). (DEDUCED, log entry 60.) -/
def execLinkUp (port : Port) (width speed : Nat) (s : State) : Host.Outcome State Fault Refusal :=
  .next (if s.stage 10 && s.portOk port.val && !s.flag (F.pciLinkUp port) && !s.board.fenced
      && !s.board.recheck.getLsbD port.val && s.widthOk port width && decide (1 ≤ speed) && decide (speed ≤ 5) then
      (((s.takeBank 3).set (F.pciLinkUp port) 1).set (F.pciLinkWidth port) width).set (F.pciLinkSpeed port) speed
    else s)

/-- A port's function returns to its reset: MSI-X table, DOE mailbox and SPDM sessions, D0 (R394, R509, R512). -/
def State.resetFunction (s : State) (port : Port) : State :=
  ((s.endPortSessions port).msixReset port).set (F.pciLinkD3hot port) 0

/-- LINK_DOWN: a port leaves L0 (R509). The module's own work goes on. -/
def execLinkDown (port : Port) (s : State) : Host.Outcome State Fault Refusal :=
  .next (if s.flag (F.pciLinkUp port) then (s.dropLink port).resetFunction port else s)

/-- PERST: a port's PERST# is asserted (R509). (DEDUCED, log entry 60.) -/
def execPerst (port : Port) (s : State) : Host.Outcome State Fault Refusal :=
  .next (if s.stage 10 && s.portOk port.val then (s.dropLink port).resetFunction port else s)

/-- D3HOT: the function decodes no BAR (R509). (DEDUCED, log entry 60.) -/
def execD3hot (port : Port) (s : State) : Host.Outcome State Fault Refusal :=
  .next (if s.flag (F.pciLinkUp port) then s.set (F.pciLinkD3hot port) 1 else s)

/-- RETURN_TO_D0: with No_Soft_Reset nothing is lost, and the function decodes its BARs again (R508, R509). -/
def execReturnToD0 (port : Port) (s : State) : Host.Outcome State Fault Refusal :=
  .next (if s.flag (F.pciLinkUp port) then s.set (F.pciLinkD3hot port) 0 else s)

end Sys2Proof.Machine
end

