-- ==== Sys2Proof/Machine/RowUnit.lean ====
section
/-!
DEFINITION. The row unit: ROW instructions (R98) with the arithmetic of R71 to R74.
-/

namespace Sys2Proof.Machine

/-- Operand b: a register, or imm in every lane (R98). -/
def ArrayState.operandB (a : ArrayState) (o : RowOps) : List Word :=
  if o.bImm then List.replicate 64 o.imm else a.v o.vb

/-- Whether a ROW op writes a lane: all lanes, or with the masked bit the lanes set in the mask (R98). -/
def ArrayState.writesLane (a : ArrayState) (o : RowOps) (l : Nat) : Bool := !o.masked || (a.m o.mask).getLsbD l

/-- Writes a ROW op's lanes to vd under the masked bit; overflow of a written lane sets fp32_overflow (R74, R98). -/
def State.writeRow (s : State) (n : ArrayNum) (o : RowOps) (res : List FRes) : State :=
  let a := s.arr n
  let lanes := (List.zipIdx res).map fun r => if a.writesLane o r.2 then r.1.bits else a.lane o.vd r.2
  let ovf := (List.zipIdx res).any fun r => a.writesLane o r.2 && r.1.overflow
  (s.modArr n fun a => a.setV o.vd lanes).noteOverflow n ovf

/-- An op of one operand, lane by lane. -/
def State.row1 (s : State) (n : ArrayNum) (o : RowOps) (f : Word → FRes) : State :=
  s.writeRow n o (((s.arr n).v o.va).map f)

/-- An op of two operands, lane by lane. -/
def State.row2 (s : State) (n : ArrayNum) (o : RowOps) (f : Word → Word → FRes) : State :=
  s.writeRow n o (List.zipWith f ((s.arr n).v o.va) ((s.arr n).operandB o))

/-- fma's three operands, lane by lane. -/
def State.row3 (s : State) (n : ArrayNum) (o : RowOps) (f : Word → Word → Word → FRes) : State :=
  let a := s.arr n
  s.writeRow n o (List.zipWith (fun (p : Word × Word) c => f p.1 p.2 c) (List.zip (a.v o.va) (a.operandB o)) (a.v o.vc))

/-- A compare writes the chosen mask; with the masked bit only the lanes set in it (R71, R98). -/
def State.rowCompare (s : State) (n : ArrayNum) (o : RowOps) (f : FVal → FVal → Bool) : State :=
  let a := s.arr n
  let rs := List.zipWith (fun x y => f (f32 x) (f32 y)) (a.v o.va) (a.operandB o)
  let m := (List.zipIdx rs).foldl (fun (m : DWord) r =>
    if a.writesLane o r.2 ∧ r.1 = true then m ||| (1#64 <<< r.2) else m) 0#64
  s.modArr n fun a => a.setM o.mask m

/-- A reduction's result goes to every lane of vd (R72, R98). -/
def State.rowReduce (s : State) (n : ArrayNum) (o : RowOps) (f : Word → Word → FRes) : State :=
  s.writeRow n o (List.replicate 64 (reduceTree f ((s.arr n).v o.va)))

/-- add: a + b (R71, R98). -/
def execAdd (n : ArrayNum) (s : State) : Host.Outcome State Fault Refusal :=
  .next (s.issue n fun i => match i with
    | .row .add o => some fun s => .done (s.row2 n o f32Add)
    | _ => none)

/-- sub: a − b (R71, R98). -/
def execSub (n : ArrayNum) (s : State) : Host.Outcome State Fault Refusal :=
  .next (s.issue n fun i => match i with
    | .row .sub o => some fun s => .done (s.row2 n o f32Sub)
    | _ => none)

/-- mul: a × b (R71, R98). -/
def execMul (n : ArrayNum) (s : State) : Host.Outcome State Fault Refusal :=
  .next (s.issue n fun i => match i with
    | .row .mul o => some fun s => .done (s.row2 n o f32Mul)
    | _ => none)

/-- fma: a × b + c with one rounding (R71, R98). -/
def execFma (n : ArrayNum) (s : State) : Host.Outcome State Fault Refusal :=
  .next (s.issue n fun i => match i with
    | .row .fma o => some fun s => .done (s.row3 n o f32Fma)
    | _ => none)

/-- max: the larger; NaN if either is NaN (R71, R98). -/
def execMax (n : ArrayNum) (s : State) : Host.Outcome State Fault Refusal :=
  .next (s.issue n fun i => match i with
    | .row .max o => some fun s => .done (s.row2 n o f32Max)
    | _ => none)

/-- min: the smaller; NaN if either is NaN (R71, R98). -/
def execMin (n : ArrayNum) (s : State) : Host.Outcome State Fault Refusal :=
  .next (s.issue n fun i => match i with
    | .row .min o => some fun s => .done (s.row2 n o f32Min)
    | _ => none)

/-- abs: sign cleared (R71, R98). -/
def execAbs (n : ArrayNum) (s : State) : Host.Outcome State Fault Refusal :=
  .next (s.issue n fun i => match i with
    | .row .abs o => some fun s => .done (s.row1 n o f32Abs)
    | _ => none)

/-- neg: sign flipped (R71, R98). -/
def execNeg (n : ArrayNum) (s : State) : Host.Outcome State Fault Refusal :=
  .next (s.issue n fun i => match i with
    | .row .neg o => some fun s => .done (s.row1 n o f32Neg)
    | _ => none)

/-- compare: mask of a < b (R71, R98). (DEDUCED, log entry 18.) -/
def execCompareLt (n : ArrayNum) (s : State) : Host.Outcome State Fault Refusal :=
  .next (s.issue n fun i => match i with
    | .row .cmpLt o => some fun s => .done (s.rowCompare n o FVal.lt)
    | _ => none)

/-- compare: mask of a ≤ b (R71, R98). -/
def execCompareLe (n : ArrayNum) (s : State) : Host.Outcome State Fault Refusal :=
  .next (s.issue n fun i => match i with
    | .row .cmpLe o => some fun s => .done (s.rowCompare n o (fun x y => x.lt y || x.eqv y))
    | _ => none)

/-- compare: mask of a = b (R71, R98). (DEDUCED, log entry 18.) -/
def execCompareEq (n : ArrayNum) (s : State) : Host.Outcome State Fault Refusal :=
  .next (s.issue n fun i => match i with
    | .row .cmpEq o => some fun s => .done (s.rowCompare n o FVal.eqv)
    | _ => none)

/-- select: a where the mask is set, else b (R71, R98). -/
def execSelect (n : ArrayNum) (s : State) : Host.Outcome State Fault Refusal :=
  .next (s.issue n fun i => match i with
    | .row .select o => some fun s => 
      let a := s.arr n
      let lanes := (List.zipIdx (List.zip (a.v o.va) (a.operandB o))).map fun p =>
        (⟨if (a.m o.mask).getLsbD p.2 then p.1.1 else p.1.2, false⟩ : FRes)
      .done (s.writeRow n o lanes)
    | _ => none)

/-- exp2: 2^a (R71, R98). -/
def execExp2 (n : ArrayNum) (s : State) : Host.Outcome State Fault Refusal :=
  .next (s.issue n fun i => match i with
    | .row .exp2 o => some fun s => .done (s.row1 n o f32Exp2)
    | _ => none)

/-- log2: log2 a (R71, R98). -/
def execLog2 (n : ArrayNum) (s : State) : Host.Outcome State Fault Refusal :=
  .next (s.issue n fun i => match i with
    | .row .log2 o => some fun s => .done (s.row1 n o f32Log2)
    | _ => none)

/-- recip: 1 / a (R71, R98). -/
def execRecip (n : ArrayNum) (s : State) : Host.Outcome State Fault Refusal :=
  .next (s.issue n fun i => match i with
    | .row .recip o => some fun s => .done (s.row1 n o f32Recip)
    | _ => none)

/-- rsqrt: 1 / √a (R71, R98). -/
def execRsqrt (n : ArrayNum) (s : State) : Host.Outcome State Fault Refusal :=
  .next (s.issue n fun i => match i with
    | .row .rsqrt o => some fun s => .done (s.row1 n o f32Rsqrt)
    | _ => none)

/-- reduceSum: the pairwise sum of 64 lanes, in every lane (R72) (R71, R98). -/
def execReduceSum (n : ArrayNum) (s : State) : Host.Outcome State Fault Refusal :=
  .next (s.issue n fun i => match i with
    | .row .reduceSum o => some fun s => .done (s.rowReduce n o f32Add)
    | _ => none)

/-- reduceMax: the maximum of 64 lanes, in every lane (R72) (R71, R98). -/
def execReduceMax (n : ArrayNum) (s : State) : Host.Outcome State Fault Refusal :=
  .next (s.issue n fun i => match i with
    | .row .reduceMax o => some fun s => .done (s.rowReduce n o f32Max)
    | _ => none)

end Sys2Proof.Machine
end

