-- ==== Sys2Proof/Machine/Sampler.lean ====
section
/-!
DEFINITION. The sampler (R246 to R257, R265, R266): logits, penalties, candidates, the seeded draw, and the commit of a
token.
-/

namespace Sys2Proof.Machine

/-! ### The generator (R252) -/

/-- One round of Philox-4x32 on a counter of four words, with its key. (PRESUMED, log entry 40.) -/
def philoxRound (x : Word × Word × Word × Word) (k : Word × Word) : Word × Word × Word × Word :=
  let p0 := 0xD2511F53 * x.1.toNat
  let p1 := 0xCD9E8D57 * x.2.2.1.toNat
  (BitVec.ofNat 32 (p1 / 2 ^ 32) ^^^ x.2.1 ^^^ k.1, BitVec.ofNat 32 p1,
    BitVec.ofNat 32 (p0 / 2 ^ 32) ^^^ x.2.2.2 ^^^ k.2, BitVec.ofNat 32 p0)

/-- n rounds, the key raised by the Weyl constants after each. (PRESUMED, log entry 40.) -/
def philox (x : Word × Word × Word × Word) (k : Word × Word) : Nat → Word × Word × Word × Word
  | 0 => x
  | n + 1 => philox (philoxRound x k) (k.1 + 0x9E3779B9#32, k.2 + 0xBB67AE85#32) n

/-- Output word 0 for a position (R252). The constants are those of Philox-4x32 as published (assumption log).
(PRESUMED, log entry 40.) -/
def drawWord (seedLo seedHi : Word) (pos : Nat) : Word := (philox (BitVec.ofNat 32 pos, 0, 0, 0) (seedLo, seedHi) 10).1

/-! ### Arithmetic (R248) -/

/-- Correctly rounded fp32 division. -/
def f32Div (a b : Word) : Word :=
  match f32 a, f32 b with
  | .nan, _ => f32NaN
  | _, .nan => f32NaN
  | .inf _, .inf _ => f32NaN
  | .inf x, .fin y _ _ => f32Inf (x != y)
  | .fin x _ _, .inf y => BitVec.ofNat 32 (fmtF32.zeroBits (x != y))
  | .fin x m e, .fin y n g =>
    if n = 0 then (if m = 0 then f32NaN else f32Inf (x != y)) else (f32OfRat (x != y) m n (e - g)).bits

/-- Whether fp32 x exceeds y. -/
def f32Gt (x y : Word) : Bool := (f32 y).lt (f32 x)

/-- c(v) of R248. -/
def tokenCount (tokens : List (Nat × Bool)) (window : Nat) (prompts : Bool) (v : Nat) : Nat :=
  ((tokens.drop (tokens.length - window)).filter fun t => t.1 == v && (prompts || !t.2)).length

/-- Stages 2 and 3 of R248 for one token. -/
def penalise (d : ReqDesc) (n : Nat) (x : Word) : Word :=
  if n = 0 then x
  else
    let y := if f32Gt x 0 then f32Div x d.repetition else (f32Mul x d.repetition).bits
    (f32Fma (f32Neg d.frequency).bits (f32OfInt n 0).bits y).bits

/-- Whether a candidate goes before another: the larger x, ties to the lower id (R248). -/
def candBefore (a b : Nat × Word) : Bool := f32Gt a.2 b.2 || (!f32Gt b.2 a.2 && decide (a.1 < b.1))

/-- Inserts a candidate in order. -/
def candInsert (x : Nat × Word) : List (Nat × Word) → List (Nat × Word)
  | [] => [x]
  | y :: t => if candBefore x y then x :: y :: t else y :: candInsert x t

/-- The k first candidates of a list of logits, −∞ left out (R248 to R250). -/
def topCandidates (k : Nat) (xs : List (Nat × Word)) : List (Nat × Word) :=
  xs.foldl (fun acc x => if x.2 = f32Inf true then acc else (candInsert x acc).take k) []

/-- Stage 7's weights (R248, R250). -/
def weightsOf (xs : List Word) : List Word :=
  match xs with
  | [] => []
  | m :: _ =>
    if m = f32Inf false then xs.map fun x => if x = f32Inf false then 0x3F800000#32 else 0
    else xs.map fun x => (f32Exp2 (f32Mul (f32Sub x m).bits 0x3FB8AA3B#32).bits).bits

/-- Running sums in list order, each addition rounded (R248). -/
def runningSums (acc : Word) : List Word → List Word
  | [] => []
  | w :: t =>
    let a := (f32Add acc w).bits
    a :: runningSums a t

/-- The index of the first element that a test accepts, or the last one. -/
def firstOrLast (f : Word → Bool) (xs : List Word) : Nat := (xs.findIdx? f).getD (xs.length - 1)

/-- What a sample gives: a token and its logprob as bf16, or no finite logit. -/
abbrev Sample := Option (Nat × Nat)

/-- bf16 of an fp32 word, nearest-even. -/
def bf16Of (x : Word) : Nat := (convFloat fmtBf16 false .rne x).bits

/-- Stages 2 to 10 of R248, with R250's special cases, on the logits that are not NaN. -/
def sample (d : ReqDesc) (tokens : List (Nat × Bool)) (pos : Nat) (logits : List (Nat × Word)) : Sample :=
  let xs := logits.map fun x => (x.1, penalise d (tokenCount tokens d.window d.penalise x.1) x.2)
  if (f32 d.temperature).eqv (f32 0) then
    match topCandidates 1 xs with
    | [] => none
    | x :: _ => some (x.1, 0)
  else
    let cands := topCandidates (if d.topK = 0 then 1024 else min d.topK 1024)
      (xs.map fun x => (x.1, f32Div x.2 d.temperature))
    if cands.isEmpty then none
    else
      let ws := weightsOf (cands.map (·.2))
      let sums := runningSums 0 ws
      let limit := (f32Mul d.topP (sums.getLast?.getD 0)).bits
      let keep := firstOrLast (fun r => !f32Gt limit r) sums + 1
      let kept := sums.take keep
      let s' := kept.getLast?.getD 0
      let r := drawWord d.seedLo d.seedHi pos
      let u := (f32OfInt (r.toNat / 256) (-24)).bits
      let at_ := (f32Mul u s').bits
      let i := firstOrLast (fun q => f32Gt q at_) kept
      let id := ((cands[i]?).map (·.1)).getD 0
      some (id, bf16Of (f32Mul (f32Log2 (f32Div (ws[i]?.getD 0) s')).bits 0x3F317218#32).bits)

/-! ### The job -/

/-- The sampler's read of a range for a partition: one that is closed to it reads zeros, with an access error (R37, R487).
(DESIGN CHOICE, log entry 71.) -/
def State.sampleRead (s : State) (p : PartNum) (a n : Nat) : State × List Byte :=
  match s.reelCause p false a n with
  | some c => (s.accessError 0x041 0xFFFF c 0 0 (some p) (some a), List.replicate n 0)
  | none => s.readThrough a n

/-- Bytes of one logit. -/
def Model.logitSize (m : Model) : Nat := if m.logitsFp32 then 4 else 2

/-- The logits that a slice's bytes spell, with their token ids, after a read that left a state. -/
def sliceLogits (sl : LogitSlice) (m : Model) (r : State × List Byte) : State × List (Nat × Word) :=
  (r.1, (List.range sl.count).map fun i =>
    (sl.first + i, widen (if m.logitsFp32 then 0 else 1) (fieldAt r.2 (i * m.logitSize) m.logitSize)))

/-- One slice of a slot's logits, read from its array's spool. -/
def State.readSlice (s : State) (p : PartNum) (m : Model) (slot : Nat) (sl : LogitSlice) : State × List (Nat × Word) :=
  sliceLogits sl m (s.sampleRead p (spoolBase sl.array + sl.offset + slot * sl.slotStride) (sl.count * m.logitSize))

/-- What a read gives, after what was read before it. -/
def joinReads {α : Type} (before : List α) (r : State × List α) : State × List α := (r.1, before ++ r.2)

/-- A slot's logits, read from the spools that hold its slices (R247). -/
def State.readLogits (s : State) (p : PartNum) (m : Model) (slot : Nat) : State × List (Nat × Word) :=
  m.slices.foldl (fun acc sl => joinReads acc.2 (acc.1.readSlice p m slot sl)) (s, [])

/-- Commits a token (R251, R255 to R257, R265): record, count, state and, for a final token, the request's end. -/
def State.commitToken (s : State) (i token logprob : Nat) : State :=
  match s.request i with
  | none => s
  | some r =>
    let pos := (s.conv i).tokens.length
    let stop := (r.desc.stop.filter fun t => t != 0xFFFFFFFF).contains token
    let final := stop || decide (r.desc.maxNew ≤ r.generated + 1)
    let code := if stop then 1 else if final then 2 else 0
    let s := s.writeRecord i token (if final then 1 else 0) code logprob pos
    let s := s.modConv i fun v => { v with tokens := v.tokens ++ [(token, false)] }
    let s := (s.modReq i fun r => { r with generated := r.generated + 1, inStep := false, sampled := false }).bump
      F.smpSamplesSamples
    if final then s.requestEnded i code
    else s.setPhase i .decode

/-- An error word of an entry of the sampler's request table is counted out and reported (R486, R487): memory 4, reader 5. It may
have reached the work of the entry's partition (R488). (DESIGN CHOICE, log entry 39.) -/
def State.entryEcc (s : State) (i : Nat) (bad : Bool) : State :=
  let s := if bad then s else { s with srv := { s.srv with ceEntries := s.srv.ceEntries.filter (· != i) } }
  s.report { source := 0x041, cls := (if bad then 0x04 else 0x03), severity := (if bad then 3 else 1)
             affected := partBit (s.conv i).part, inst := 0xFFFF, detail := [4, 5, 0] }

/-- One sample of a job: a cancel that reached the entry first discards the token (R266). An error of the request table's entry is
reported; where it is uncorrectable the request ends FATAL and the entry is written anew (R256, R486).
(DESIGN CHOICE, log entry 39.) -/
def State.sampleSlot (s : State) (p : PartNum) (m : Model) (slot i : Nat) : State :=
  match s.request i with
  | none => s
  | some r =>
    if !(r.inStep && r.sampled) then s
    else if s.srv.badEntries.contains i then
      let s := s.entryEcc i true
      let s : State := { s with srv := { s.srv with badEntries := s.srv.badEntries.filter (· != i) } }
      s.endRequest i 6 (s.recordSeq 0x041 0x04 none) 0x041
    else
      let s := if s.srv.ceEntries.contains i then s.entryEcc i false else s
      let l := s.readLogits p m slot
      let nans := (l.2.filter fun x => f32IsNaN x.2).length
      let s := if nans = 0 then l.1 else (l.1.addTo F.smpNanLogitsLogits nans).raiseBit F.smpStatusNanSeen
      if r.cancel then (s.bump F.smpCancelWonCancels).leaveStep i
      else
        match sample r.desc (s.conv i).tokens (s.conv i).tokens.length (l.2.filter fun x => !f32IsNaN x.2) with
        | none => (s.raiseBit F.smpStatusNoFinite).endRequest i 6 none 0x041
        | some x => s.commitToken i x.1 x.2

/-- The sampler's job for a partition's posted step, its samples in slot order (R246, R254).
(DESIGN CHOICE, log entry 39.) -/
def execSampleJob (p : PartNum) (s : State) : Host.Outcome State Fault Refusal :=
  .next (match s.srv.posted[p.val], (s.part p).model with
  | some t, some m =>
    if !t.written || !s.flag F.smpStatusReady then s
    else ((List.zipIdx t.seqs).foldl (fun s x => s.sampleSlot p m x.2 x.1) s).closeStep p
  | _, _ => s)

end Sys2Proof.Machine
end

