-- ==== Sys2Proof/Machine/Transform.lean ====
section
/-!
DEFINITION. The convolution transform unit (R211 to R235): Winograd input and output transforms, pooling and channel
argmax over feature maps in the spool.
-/

namespace Sys2Proof.Machine

/-- A map descriptor's active fields (R212): base in bytes, strides in 64-byte units, height and width. -/
structure MapDesc where
  base : Nat
  px : Nat
  ln : Nat
  h : Nat
  w : Nat
  deriving DecidableEq, Repr

/-- Map descriptor d of array n (R212). -/
def State.mapDesc (s : State) (n : ArrayNum) (d : Nat) : MapDesc :=
  ⟨s.get (F.cnvMapBaseBase n d) * 64, s.get (F.cnvMapStridePxStride n d), s.get (F.cnvMapStrideLnStride n d),
    s.get (F.cnvMapSizeHeight n d), s.get (F.cnvMapSizeWidth n d)⟩

/-- Whether a pixel is inside the map (R213). -/
def MapDesc.inside (m : MapDesc) (y x : Int) : Bool :=
  decide (0 ≤ y) && decide (y < m.h) && decide (0 ≤ x) && decide (x < m.w)

/-- The byte offset of pixel (y, x), channel byte c (R211). -/
def MapDesc.addr (m : MapDesc) (y x c : Nat) : Nat := m.base + y * m.ln * 64 + x * m.px * 64 + c

/-- Whether the descriptor serves channel bytes up to `len` of a pixel (R213). -/
def MapDesc.serves (m : MapDesc) (len : Nat) : Bool := m.px != 0 && decide (len ≤ m.px * 64)

/-- Reads `len` bytes from channel byte c of each listed pixel that lies inside the map, none for the others, in order;
or the first fault: code and offset (R92, R213). -/
def State.readPixels (s : State) (n : ArrayNum) (m : MapDesc) (c len : Nat) :
    List (Int × Int) → State × Except (Nat × Nat) (List (Option (List Byte)))
  | [] => (s, .ok [])
  | (y, x) :: rest =>
    if m.inside y x then
      let a := m.addr y.toNat x.toNat c
      if spoolSize < a + len then (s, .error (faultSpoolRange, a))
      else
        match s.unitRead n a len with
        | (t, .error w) => (t, .error (faultData, w))
        | (t, .ok bs) =>
          match t.readPixels n m c len rest with
          | (u, .ok more) => (u, .ok (some bs :: more))
          | r => r
    else
      match s.readPixels n m c len rest with
      | (u, .ok more) => (u, .ok (none :: more))
      | r => r

/-- Writes pieces in order; the last fault of a merge wins (R92). -/
def State.writePieces (s : State) (n : ArrayNum) (ps : List (Nat × List Byte)) : State × Option Nat :=
  ps.foldl (fun r p =>
    let w := r.1.unitWrite n p.1 p.2
    (w.1, r.2.or w.2)) (s, none)

/-! ### Winograd transforms -/

/-- Bᵀ of F(2×2,3×3) (R220). -/
def bt2 : List (List Int) := [[1, 0, -1, 0], [0, 1, 1, 0], [0, -1, 1, 0], [0, 1, 0, -1]]
/-- Aᵀ of F(2×2,3×3) (R220). -/
def at2 : List (List Int) := [[1, 1, 1, 0], [0, 1, -1, -1]]
/-- Bᵀ of F(4×4,3×3) (R221). -/
def bt4 : List (List Int) :=
  [[4, 0, -5, 0, 1, 0], [0, -4, -4, 1, 1, 0], [0, 4, -4, -1, 1, 0], [0, -2, -1, 2, 1, 0], [0, 2, -1, -2, 1, 0],
   [0, 4, 0, -5, 0, 1]]
/-- Aᵀ of F(4×4,3×3) (R221). -/
def at4 : List (List Int) := [[1, 1, 1, 1, 1, 0], [0, 1, -1, 2, -2, 0], [0, 1, 1, 4, 4, 0], [0, 1, -1, 8, -8, 1]]

/-- A sum of terms coefficient × value in increasing index, with a step of its own: of every term, a coefficient 0 among
them (R228). -/
def sumAll {α : Type} (zero : α) (mulBy : Int → α → α) (add : α → α → α) (cs : List Int) (xs : List α) : α :=
  match (List.zip cs xs).map fun p => mulBy p.1 p.2 with
  | [] => zero
  | t :: rest => rest.foldl add t

/-- The sum of the terms whose coefficient is not 0 (R222). -/
def sumTerms {α : Type} (zero : α) (mulBy : Int → α → α) (add : α → α → α) (cs : List Int) (xs : List α) : α :=
  let ts := (List.zip cs xs).filter fun p => p.1 != 0
  sumAll zero mulBy add (ts.map (·.1)) (ts.map (·.2))

/-- Column i of a matrix of rows. -/
def column {α : Type} (d : α) (m : List (List α)) (i : Nat) : List α := m.map fun r => r.getD i d

/-- Bᵀ d B along x, then along y (R222); row ξy, column ξx of the result. -/
def transform {α : Type} (zero : α) (mulBy : Int → α → α) (add : α → α → α) (mat : List (List Int))
    (d : List (List α)) : List (List α) :=
  let q := d.map fun row => mat.map fun cs => sumTerms zero mulBy add cs row
  mat.map fun cs => (List.range mat.length).map fun i => sumTerms zero mulBy add cs (column zero q i)

/-- A value rounded to bf16, nearest-even, subnormals kept (R222). -/
def bf16Round (v : FVal) : Nat :=
  match v with
  | .nan => fmtBf16.canonNaN
  | .inf n => fmtBf16.infBits n
  | .fin n 0 _ => fmtBf16.zeroBits n
  | .fin n m e =>
    let x := fmtBf16.roundMag .rne m 1 e
    if fmtBf16.overflows x then fmtBf16.infBits n else fmtBf16.pack n x

/-- One bf16 addition. -/
def bf16Add (x y : Nat) : Nat := bf16Round ((fmtBf16.decode x).add (fmtBf16.decode y))
/-- One bf16 multiplication by a coefficient. -/
def bf16MulBy (c : Int) (x : Nat) : Nat :=
  bf16Round ((FVal.fin (decide (c < 0)) c.natAbs 0).mul (fmtBf16.decode x))

/-- A map element widened to bf16 (R222). -/
def widenBf16 (fmt bits : Nat) : Nat :=
  match fmt with
  | 1 => bf16Round (fmtE4m3.decode bits)
  | 2 => bf16Round (fmtE5m2.decode bits)
  | _ => bits

/-- The smallest power of two s of at least 1 with amax / s ≤ 127 (R223). -/
def coarseScale (amax : Nat) : Nat :=
  if amax ≤ 127 then 1 else if amax ≤ 254 then 2 else if amax ≤ 508 then 4 else 8

/-- One position's skein in int8 mode: scaled elements and s (R223). -/
def int8Skein (vs : List Int) : List Nat × Nat :=
  let sc := coarseScale ((vs.map Int.natAbs).foldl max 0)
  (vs.map fun v => (BitVec.ofInt 8 (sgn (decide (v < 0)) (Rnd.rne.quot v.natAbs sc))).toNat, sc)

/-- The patch's pixels in row-major order from its top-left. -/
def patch (y0 x0 : Int) (h w : Nat) : List (Int × Int) :=
  (List.range h).flatMap fun i => (List.range w).map fun j => (y0 + (i : Int), x0 + (j : Int))

/-- Channel c of a patch's pixels as a matrix; pixels outside the map contribute +0. -/
def patchMatrix (fmt n c : Nat) (px : List (Option (List Byte))) : List (List Nat) :=
  (List.range n).map fun i => (List.range n).map fun j =>
    match px.getD (i * n + j) none with
    | some bs => fieldAt bs (c * mapElem fmt) (mapElem fmt)
    | none => 0

/-- wxin: transforms one patch, 64 channels, and writes its fragments and scales (R222 to R226). -/
def execWxin (n : ArrayNum) (s : State) : Host.Outcome State Fault Refusal :=
  .next (s.issue n fun i => match i with
    | .wxin o => some fun s =>
      let a := s.arr n
      let m := s.mapDesc n o.map
      let e := mapElem o.fmt
      let nn := if o.fmt = 0 then 4 else 6
      let org := a.a o.orgReg
      let y0 := (BitVec.ofNat 16 org).toInt
      let x0 := (BitVec.ofNat 16 (org / 65536)).toInt
      let el := a.a o.dstReg + o.dstOff
      let sc := a.a o.scReg + o.scOff
      let bad := (List.range (nn * nn)).findSome? fun p =>
        if !spoolOk (el + p * o.posStride * 64) 64 (64 * e) then some (el + p * o.posStride * 64)
        else if o.fmt = 0 ∧ spoolOk (sc + p * o.scStride * 32) 4 4 = false then some (sc + p * o.scStride * 32)
        else none
      if !m.serves ((64 * o.cgrp + 64) * e) then .fault s 1 0
      else match bad with
        | some off => .fault s faultSpoolRange off
        | none =>
          match s.readPixels n m (64 * o.cgrp * e) (64 * e) (patch y0 x0 nn nn) with
          | (t, .error (code, off)) => .fault t code off
          | (t, .ok px) =>
            if o.fmt = 0 then
              let vs := (List.range 64).map fun c => (transform 0 (· * ·) (· + ·) bt2
                ((patchMatrix 0 4 c px).map fun r => r.map fun b => (BitVec.ofNat 8 b).toInt)).flatten
              let sks := (List.range 16).map fun p =>
                let at_ := vs.map fun v => v.getD p 0
                (int8Skein (at_.take 32), int8Skein (at_.drop 32))
              let pieces := (List.zipIdx sks).flatMap fun k =>
                [(el + k.2 * o.posStride * 64, (k.1.1.1 ++ k.1.2.1).map (BitVec.ofNat 8)),
                 (sc + k.2 * o.scStride * 32,
                  leBytes 2 (bf16Round (.fin false k.1.1.2 0)) ++ leBytes 2 (bf16Round (.fin false k.1.2.2 0)))]
              let coarse := (sks.map fun k => (if k.1.2 = 1 then 0 else 1) + (if k.2.2 = 1 then 0 else 1)).sum
              let w := t.writePieces n pieces
              let t := if coarse = 0 then w.1
                else (w.1.raiseBit (F.cnvStatusWxCoarse n)).addTo (F.cnvWxCoarseSkeins n) coarse
              match w.2 with
              | some x => .fault t faultData x
              | none => .done t
            else
              let vs := (List.range 64).map fun c => (transform 0 bf16MulBy bf16Add bt4
                ((patchMatrix o.fmt 6 c px).map fun r => r.map (widenBf16 o.fmt))).flatten
              let conv := vs.map fun v => v.map fun b =>
                let w := (f32OfVal (fmtBf16.decode b)).bits
                convPlain (if o.fmt = 3 then 1 else o.fmt + 1) (t.fp8Sat n) .rne w
              let pieces := (List.range 36).map fun p =>
                (el + p * o.posStride * 64, conv.flatMap fun v => leBytes e (v.getD p { bits := 0 }).bits)
              let all := conv.flatten
              let w := t.writePieces n pieces
              let t := (w.1.noteConvSat n (all.filter (·.sat)).length).noteNan n (all.filter (·.nanOut)).length
              match w.2 with
              | some x => .fault t faultData x
              | none => .done t
    | _ => none)

/-- A coefficient times an fp32 value, exact for the coefficients of R228. -/
def f32MulBy (c : Int) (x : FRes) : FRes :=
  let r := f32Mul (f32OfInt c 0).bits x.bits
  ⟨r.bits, r.overflow || x.overflow⟩

/-- One fp32 addition, overflow carried. -/
def f32AddRes (x y : FRes) : FRes :=
  let r := f32Add x.bits y.bits
  ⟨r.bits, r.overflow || x.overflow || y.overflow⟩

/-- Y = Aᵀ M A, along ξx first, then along ξy (R228); row oy, column ox. -/
def outputTransform (mat : List (List Int)) (m : List (List FRes)) : List (List FRes) :=
  let p := m.map fun row => mat.map fun cs => sumAll ⟨0, false⟩ f32MulBy f32AddRes cs row
  mat.map fun cs => (List.range mat.length).map fun ox =>
    sumAll ⟨0, false⟩ f32MulBy f32AddRes cs (column ⟨0, false⟩ p ox)

/-- wxout: the output transform of one tile, 64 channels, into vector registers (R228). -/
def execWxout (n : ArrayNum) (s : State) : Host.Outcome State Fault Refusal :=
  .next (s.issue n fun i => match i with
    | .wxout o => some fun s =>
      let a := s.arr n
      let nn := if o.f4 then 6 else 4
      let mat := if o.f4 then at4 else at2
      let mm := mat.length
      let rows := (List.range (nn * nn)).map fun p => o.row + p * o.posRows
      let ok := rows.all fun r => decide (r ≤ 127) && SMap.look .unwritten a.accTag (accRow o.half r) == .fp32
      if !ok then .fault s faultAccRange 0
      else
        let tiles := (List.range 64).map fun l => (outputTransform mat ((List.range nn).map fun y =>
          (List.range nn).map fun x =>
            (⟨SMap.look 0 a.acc (accKey o.half (o.row + (y * nn + x) * o.posRows) (64 * o.g + l)), false⟩ : FRes))).flatten
        let t := s.modArr n fun a => (List.range (mm * mm)).foldl (fun a q =>
          a.setV (o.vd + q) (tiles.map fun v => (v.getD q ⟨0, false⟩).bits)) a
        .done (t.noteOverflow n (tiles.any fun v => v.any (·.overflow)))
    | _ => none)

/-! ### Pooling and argmax -/

/-- One pooled channel of a window's inside pixels (R232, R233); `div` is the divisor of an average. -/
def poolValue (average : Bool) (fmt div : Nat) (sat : Bool) (xs : List Nat) : Conv :=
  match xs with
  | [] => { bits := 0 }
  | x :: rest =>
    if fmt = 0 then
      let v := fun b : Nat => (BitVec.ofNat 8 b).toInt
      if average then
        let t := (xs.map v).sum
        { bits := (BitVec.ofInt 8 (sgn (decide (t < 0)) (Rnd.rne.quot t.natAbs div))).toNat }
      else { bits := (BitVec.ofInt 8 (rest.foldl (fun m b => max m (v b)) (v x))).toNat }
    else
      let code := if fmt = 3 then 1 else fmt + 1
      let v := fun b : Nat => widen code b
      if average then
        let t := rest.foldl (fun acc b => (f32Add acc (v b)).bits) (v x)
        let q := match f32 t with
          | .fin neg m e => (f32OfRat neg m div e).bits
          | _ => t
        convPlain code sat .rne q
      else
        let r := convPlain code sat .rne (rest.foldl (fun m b => (f32Max m (v b)).bits) (v x))
        -- the maximum of values of the format is one of them, an infinity of the format included
        { r with sat := false }

/-- Whether an average's fp32 sum overflows to an infinity (R60, R233). (DEDUCED, log entry 22.) -/
def poolOverflow (average : Bool) (fmt : Nat) (xs : List Nat) : Bool :=
  match xs with
  | [] => false
  | x :: rest =>
    let v := fun b : Nat => widen (if fmt = 3 then 1 else fmt + 1) b
    average && fmt != 0 && (rest.foldl (fun (acc : FRes) b => f32AddRes acc ⟨v b, false⟩) ⟨v x, false⟩).overflow

/-- pool: max or average pooling of up to 64 output pixels, 64 channels (R231 to R233). -/
def execPool (n : ArrayNum) (s : State) : Host.Outcome State Fault Refusal :=
  .next (s.issue n fun i => match i with
    | .pool o => some fun s =>
      let a := s.arr n
      let src := s.mapDesc n o.src
      let dst := s.mapDesc n o.dst
      let e := mapElem o.fmt
      let org := a.a o.orgReg
      let oy : Nat := org % 65536
      let ox : Nat := org / 65536
      let c := 64 * o.cgrp * e
      let outs := List.range o.count
      let badOut := outs.findSome? fun (j : Nat) =>
        if !dst.inside (oy : Nat) ((ox + j : Nat) : Int) then some (dst.addr oy (ox + j) c)
        else if spoolSize < dst.addr oy (ox + j) c + 64 * e then some (dst.addr oy (ox + j) c) else none
      if !src.serves (c + 64 * e) || !dst.serves (c + 64 * e) then .fault s 1 0
      else match badOut with
        | some off => .fault s faultSpoolRange off
        | none =>
          let window := fun j : Nat =>
            patch ((oy : Int) * o.sh - o.padT) (((ox + j : Nat) : Int) * o.sw - o.padL) o.kh o.kw
          match s.readPixels n src c (64 * e) (outs.flatMap window) with
          | (t, .error (code, off)) => .fault t code off
          | (t, .ok px) =>
            let res := outs.map fun j =>
              let ins := ((px.drop (j * (o.kh * o.kw))).take (o.kh * o.kw)).filterMap id
              let div := if o.avgPad then o.kh * o.kw else ins.length
              let vals := fun ch => ins.map fun bs => fieldAt bs (ch * e) e
              (ins.isEmpty, (List.range 64).map fun ch => poolValue o.average o.fmt div (t.fp8Sat n) (vals ch),
                (List.range 64).any fun ch => poolOverflow o.average o.fmt (vals ch))
            let w := t.writePieces n ((List.zipIdx res).map fun r =>
              (dst.addr oy (ox + r.2) c, r.1.2.1.flatMap fun v => leBytes e v.bits))
            let all := res.flatMap (·.2.1)
            let empty := (res.filter (·.1)).length
            let t := (w.1.noteConvSat n (all.filter (·.sat)).length).noteNan n (all.filter (·.nanOut)).length
            let t := t.noteOverflow n (res.any (·.2.2))
            let t := if empty = 0 then t
              else (t.raiseBit (F.cnvStatusPoolEmpty n)).addTo (F.cnvPoolEmptyWindows n) empty
            match w.2 with
            | some x => .fault t faultData x
            | none => .done t
    | _ => none)

/-- The index of the largest channel, ties to the lowest, NaN below every number; none when all are NaN (R235). -/
def argmaxOf (vals : List FVal) : Option Nat :=
  (List.zipIdx vals).foldl (fun (best : Option (Nat × FVal)) v =>
    match v.1, best with
    | .nan, b => b
    | x, none => some (v.2, x)
    | x, some (i, y) => if y.lt x then some (v.2, x) else some (i, y)) none |>.map (·.1)

/-- A map element's value. -/
def mapVal (fmt bits : Nat) : FVal :=
  match fmt with
  | 0 => let v := (BitVec.ofNat 8 bits).toInt; .fin (decide (v < 0)) v.natAbs 0
  | 1 => fmtE4m3.decode bits
  | 2 => fmtE5m2.decode bits
  | _ => fmtBf16.decode bits

/-- argmax: channel argmax of up to 64 pixels (R234, R235). -/
def execArgmax (n : ArrayNum) (s : State) : Host.Outcome State Fault Refusal :=
  .next (s.issue n fun i => match i with
    | .argmax o => some fun s =>
      let a := s.arr n
      let src := s.mapDesc n o.src
      let dst := s.mapDesc n o.dst
      let e := mapElem o.fmt
      let ow := if o.wide then 2 else 1
      let org := a.a o.orgReg
      let y := org % 65536
      let x := org / 65536
      let mask := dst.base + y * dst.ln * 64 + x * ow
      let pixels := (List.range o.count).map fun j => ((y : Int), ((x + j : Nat) : Int))
      if !src.serves (o.channels * e) || dst.px == 0 then .fault s 1 0
      else match pixels.find? fun p => !(src.inside p.1 p.2 && dst.inside p.1 p.2) with
        | some p => .fault s faultSpoolRange (src.addr p.1.toNat p.2.toNat 0)
        | none =>
          match ((List.range o.count).map fun j => mask + j * ow).find? fun off => decide (spoolSize < off + ow) with
          | some off => .fault s faultSpoolRange off
          | none =>
            match s.readPixels n src 0 (o.channels * e) pixels with
            | (t, .error (code, off)) => .fault t code off
            | (t, .ok px) =>
              let idx := px.map fun b => argmaxOf ((List.range o.channels).map fun ch =>
                mapVal o.fmt (fieldAt (b.getD []) (ch * e) e))
              let nans := (idx.filter (·.isNone)).length
              let w := t.unitWrite n mask (idx.flatMap fun v => leBytes ow (v.getD (256 ^ ow - 1)))
              let t := if nans = 0 then w.1
                else (w.1.raiseBit (F.cnvStatusArgmaxNan n)).addTo (F.cnvArgmaxNanPixels n) nans
              match w.2 with
              | some x => .fault t faultData x
              | none => .done t
    | _ => none)

end Sys2Proof.Machine
end

