-- ==== Sys2Proof/Machine/Dispatch.lean ====
section
/-!
DEFINITION. One arm per command: each calls its meaning.
-/

namespace Sys2Proof.Machine

/-- A command's effect on everything but the queue. -/
def exec (i : Instr) (s : State) : Host.Outcome State Fault Refusal :=
  match i with
  | .nop a => Sys2Proof.Machine.execNop a s
  | .kend a => Sys2Proof.Machine.execEnd a s
  | .jump a => Sys2Proof.Machine.execJump a s
  | .loop a => Sys2Proof.Machine.execLoop a s
  | .setc a => Sys2Proof.Machine.execSetc a s
  | .seta a => Sys2Proof.Machine.execSeta a s
  | .adda a => Sys2Proof.Machine.execAdda a s
  | .fence a => Sys2Proof.Machine.execFence a s
  | .kwait a => Sys2Proof.Machine.execKwait a s
  | .kwaitSatisfied a => Sys2Proof.Machine.execKwaitSatisfied a s
  | .knotTimeout a => Sys2Proof.Machine.execKnotTimeout a s
  | .stg a => Sys2Proof.Machine.execStg a s
  | .stagingDone a => Sys2Proof.Machine.execStagingDone a s
  | .mma a => Sys2Proof.Machine.execMma a s
  | .accumulatorLanding a => Sys2Proof.Machine.execAccumulatorLanding a s
  | .add a => Sys2Proof.Machine.execAdd a s
  | .sub a => Sys2Proof.Machine.execSub a s
  | .mul a => Sys2Proof.Machine.execMul a s
  | .fma a => Sys2Proof.Machine.execFma a s
  | .max a => Sys2Proof.Machine.execMax a s
  | .min a => Sys2Proof.Machine.execMin a s
  | .abs a => Sys2Proof.Machine.execAbs a s
  | .neg a => Sys2Proof.Machine.execNeg a s
  | .compareLt a => Sys2Proof.Machine.execCompareLt a s
  | .compareLe a => Sys2Proof.Machine.execCompareLe a s
  | .compareEq a => Sys2Proof.Machine.execCompareEq a s
  | .select a => Sys2Proof.Machine.execSelect a s
  | .exp2 a => Sys2Proof.Machine.execExp2 a s
  | .log2 a => Sys2Proof.Machine.execLog2 a s
  | .recip a => Sys2Proof.Machine.execRecip a s
  | .rsqrt a => Sys2Proof.Machine.execRsqrt a s
  | .reduceSum a => Sys2Proof.Machine.execReduceSum a s
  | .reduceMax a => Sys2Proof.Machine.execReduceMax a s
  | .cvt a => Sys2Proof.Machine.execCvt a s
  | .load a => Sys2Proof.Machine.execLoad a s
  | .accrd a => Sys2Proof.Machine.execAccrd a s
  | .put a => Sys2Proof.Machine.execPut a s
  | .get a => Sys2Proof.Machine.execGet a s
  | .putWithKnotSignal a => Sys2Proof.Machine.execPutWithKnotSignal a s
  | .atomicAdd a => Sys2Proof.Machine.execAtomicAdd a s
  | .rmoComplete a b c => Sys2Proof.Machine.execRmoComplete a b c s
  | .completionTimeout a b c => Sys2Proof.Machine.execCompletionTimeout a b c s
  | .rsInit a => Sys2Proof.Machine.execRsInit a s
  | .rsMax a => Sys2Proof.Machine.execRsMax a s
  | .rsSum a => Sys2Proof.Machine.execRsSum a s
  | .rsFinal a => Sys2Proof.Machine.execRsFinal a s
  | .rsLoad a => Sys2Proof.Machine.execRsLoad a s
  | .rsStore a => Sys2Proof.Machine.execRsStore a s
  | .pstage a => Sys2Proof.Machine.execPstage a s
  | .pclose a => Sys2Proof.Machine.execPclose a s
  | .wxin a => Sys2Proof.Machine.execWxin a s
  | .wxout a => Sys2Proof.Machine.execWxout a s
  | .pool a => Sys2Proof.Machine.execPool a s
  | .argmax a => Sys2Proof.Machine.execArgmax a s
  | .arrayFault a => Sys2Proof.Machine.execArrayFault a s
  | .kernelEnd a => Sys2Proof.Machine.execKernelEnd a s
  | .arrKernelGo a b c => Sys2Proof.Machine.execArrKernelGo a b c s
  | .restageDone a => Sys2Proof.Machine.execRestageDone a s
  | .kntSignal a b c => Sys2Proof.Machine.execKntSignal a b c s
  | .kntValueWrite a b c d e => Sys2Proof.Machine.execKntValueWrite a b c d e s
  | .vltClearGo a b c => Sys2Proof.Machine.execVltClearGo a b c s
  | .vaultClearStart a => Sys2Proof.Machine.execVaultClearStart a s
  | .vaultClearDone a => Sys2Proof.Machine.execVaultClearDone a s
  | .tierClearGo a b => Sys2Proof.Machine.execTierClearGo a b s
  | .tierClearStart entropyOk => Sys2Proof.Machine.execTierClearStart entropyOk s
  | .tierClearDone => Sys2Proof.Machine.execTierClearDone s
  | .patrolScrubPass a => Sys2Proof.Machine.execPatrolScrubPass a s
  | .reelPStepGo a b c => Sys2Proof.Machine.execReelPStepGo a b c s
  | .reelStepComplete a => Sys2Proof.Machine.execReelStepComplete a s
  | .sequenceUpdateApply a => Sys2Proof.Machine.execSequenceUpdateApply a s
  | .parkExpiry a => Sys2Proof.Machine.execParkExpiry a s
  | .evictionCopyDone a => Sys2Proof.Machine.execEvictionCopyDone a s
  | .copyBackDone a => Sys2Proof.Machine.execCopyBackDone a s
  | .shtCommit a b => Sys2Proof.Machine.execShtCommit a b s
  | .burstRequest a b c => Sys2Proof.Machine.execBurstRequest a b c s
  | .arbitration a => Sys2Proof.Machine.execArbitration a s
  | .holdLimitCut a b => Sys2Proof.Machine.execHoldLimitCut a b s
  | .windowBoundary => Sys2Proof.Machine.execWindowBoundary s
  | .spnMbDoorbell a b c d => Sys2Proof.Machine.execSpnMbDoorbell a b c d s
  | .commandSlotWrite a b c d e => Sys2Proof.Machine.execCommandSlotWrite a b c d e s
  | .spnMbEnable a b c => Sys2Proof.Machine.execSpnMbEnable a b c s
  | .spnMbCmpConsumed a b c => Sys2Proof.Machine.execSpnMbCmpConsumed a b c s
  | .spnMbEvtConsumed a b c => Sys2Proof.Machine.execSpnMbEvtConsumed a b c s
  | .registerWrite a b c d e => Sys2Proof.Machine.execRegisterWrite a b c d e s
  | .reg64LatchedRead a b c d => Sys2Proof.Machine.execReg64LatchedRead a b c d s
  | .bar4Read a b c => Sys2Proof.Machine.execBar4Read a b c s
  | .bar4Write a b c => Sys2Proof.Machine.execBar4Write a b c s
  | .commandTake a => Sys2Proof.Machine.execCommandTake a s
  | .commandStart => Sys2Proof.Machine.execCommandStart s
  | .completionWrite a => Sys2Proof.Machine.execCompletionWrite a s
  | .devNop a => Sys2Proof.Machine.execDevNop a s
  | .devInfo a => Sys2Proof.Machine.execDevInfo a s
  | .devTime a => Sys2Proof.Machine.execDevTime a s
  | .devDrain a => Sys2Proof.Machine.execDevDrain a s
  | .drained => Sys2Proof.Machine.execDrained s
  | .devResume a => Sys2Proof.Machine.execDevResume a s
  | .partCreate a b => Sys2Proof.Machine.execPartCreate a b s
  | .partDestroy a => Sys2Proof.Machine.execPartDestroy a s
  | .partBind a => Sys2Proof.Machine.execPartBind a s
  | .partUnbind a => Sys2Proof.Machine.execPartUnbind a s
  | .partShares a => Sys2Proof.Machine.execPartShares a s
  | .partQuery a => Sys2Proof.Machine.execPartQuery a s
  | .memTierAssign a => Sys2Proof.Machine.execMemTierAssign a s
  | .memTierRelease a => Sys2Proof.Machine.execMemTierRelease a s
  | .memAperture a => Sys2Proof.Machine.execMemAperture a s
  | .memWindow a => Sys2Proof.Machine.execMemWindow a s
  | .modelPlace a b => Sys2Proof.Machine.execModelPlace a b s
  | .modelUnload a => Sys2Proof.Machine.execModelUnload a s
  | .kernelRun a => Sys2Proof.Machine.execKernelRun a s
  | .knotSet a => Sys2Proof.Machine.execKnotSet a s
  | .reqSubmit a b => Sys2Proof.Machine.execReqSubmit a b s
  | .reqCancel a => Sys2Proof.Machine.execReqCancel a s
  | .convRelease a => Sys2Proof.Machine.execConvRelease a s
  | .reqQuery a => Sys2Proof.Machine.execReqQuery a s
  | .serveConfig a => Sys2Proof.Machine.execServeConfig a s
  | .stepPost a b => Sys2Proof.Machine.execStepPost a b s
  | .sampleJob a => Sys2Proof.Machine.execSampleJob a s
  | .stalledRingReread a b => Sys2Proof.Machine.execStalledRingReread a b s
  | .endRecordWrite a b => Sys2Proof.Machine.execEndRecordWrite a b s
  | .ttlExpiry a => Sys2Proof.Machine.execTtlExpiry a s
  | .vaultHoldExpiry a => Sys2Proof.Machine.execVaultHoldExpiry a s
  | .loadingTimeout a => Sys2Proof.Machine.execLoadingTimeout a s
  | .vidOpen a b => Sys2Proof.Machine.execVidOpen a b s
  | .vidClose a => Sys2Proof.Machine.execVidClose a s
  | .vidReconfig a => Sys2Proof.Machine.execVidReconfig a s
  | .vidQuery a => Sys2Proof.Machine.execVidQuery a s
  | .ringPoll a b => Sys2Proof.Machine.execRingPoll a b s
  | .pictureStart a b => Sys2Proof.Machine.execPictureStart a b s
  | .pictureDone a b => Sys2Proof.Machine.execPictureDone a b s
  | .decodeOutput a => Sys2Proof.Machine.execDecodeOutput a s
  | .packetEmission a b => Sys2Proof.Machine.execPacketEmission a b s
  | .statsWrite a b => Sys2Proof.Machine.execStatsWrite a b s
  | .pwrCap a => Sys2Proof.Machine.execPwrCap a s
  | .pwrMode a => Sys2Proof.Machine.execPwrMode a s
  | .pwrShare a => Sys2Proof.Machine.execPwrShare a s
  | .thmWarm a => Sys2Proof.Machine.execThmWarm a s
  | .pwrQuery a => Sys2Proof.Machine.execPwrQuery a s
  | .mltRun a => Sys2Proof.Machine.execMltRun a s
  | .mltQuery a => Sys2Proof.Machine.execMltQuery a s
  | .prbsStart a => Sys2Proof.Machine.execPrbsStart a s
  | .prbsStop a => Sys2Proof.Machine.execPrbsStop a s
  | .secAttest a => Sys2Proof.Machine.execSecAttest a s
  | .treeComputationDone => Sys2Proof.Machine.execTreeComputationDone s
  | .secSession a => Sys2Proof.Machine.execSecSession a s
  | .secImport a b => Sys2Proof.Machine.execSecImport a b s
  | .importChunk a b => Sys2Proof.Machine.execImportChunk a b s
  | .secIde a => Sys2Proof.Machine.execSecIde a s
  | .secLifecycle a => Sys2Proof.Machine.execSecLifecycle a s
  | .secTenantChange a => Sys2Proof.Machine.execSecTenantChange a s
  | .updPiece a => Sys2Proof.Machine.execUpdPiece a s
  | .pieceProgram => Sys2Proof.Machine.execPieceProgram s
  | .updStatus a => Sys2Proof.Machine.execUpdStatus a s
  | .updActivate a => Sys2Proof.Machine.execUpdActivate a s
  | .updDiscard a => Sys2Proof.Machine.execUpdDiscard a s
  | .savingCopyDone => Sys2Proof.Machine.execSavingCopyDone s
  | .writingCopyDone => Sys2Proof.Machine.execWritingCopyDone s
  | .activationPause a => Sys2Proof.Machine.execActivationPause a s
  | .healthConfirmed => Sys2Proof.Machine.execHealthConfirmed s
  | .trialDeadline => Sys2Proof.Machine.execTrialDeadline s
  | .pauseTimeout => Sys2Proof.Machine.execPauseTimeout s
  | .revertCopyDone => Sys2Proof.Machine.execRevertCopyDone s
  | .twnSwap a => Sys2Proof.Machine.execTwnSwap a s
  | .twnRestore a => Sys2Proof.Machine.execTwnRestore a s
  | .twnPeriod a => Sys2Proof.Machine.execTwnPeriod a s
  | .twnQuery a => Sys2Proof.Machine.execTwnQuery a s
  | .heartbeatTimeout => Sys2Proof.Machine.execHeartbeatTimeout s
  | .internalFatalError => Sys2Proof.Machine.execInternalFatalError s
  | .finalSnapshotComplete => Sys2Proof.Machine.execFinalSnapshotComplete s
  | .periodicSwapDue => Sys2Proof.Machine.execPeriodicSwapDue s
  | .incomingPowerGood => Sys2Proof.Machine.execIncomingPowerGood s
  | .codeVerified a => Sys2Proof.Machine.execCodeVerified a s
  | .ledgerRestore => Sys2Proof.Machine.execLedgerRestore s
  | .reconciliation => Sys2Proof.Machine.execReconciliation s
  | .gapEnd => Sys2Proof.Machine.execGapEnd s
  | .startingDeadline => Sys2Proof.Machine.execStartingDeadline s
  | .outgoingHalfReturn => Sys2Proof.Machine.execOutgoingHalfReturn s
  | .gatedWrite a b c => Sys2Proof.Machine.execGatedWrite a b c s
  | .powerDownRetry a b => Sys2Proof.Machine.execPowerDownRetry a b s
  | .ledgerWrite => Sys2Proof.Machine.execLedgerWrite s
  | .snapshot => Sys2Proof.Machine.execSnapshot s
  | .moduleStop => Sys2Proof.Machine.execModuleStop s
  | .fatalEscalation a => Sys2Proof.Machine.execFatalEscalation a s
  | .eventRecordWrite a => Sys2Proof.Machine.execEventRecordWrite a s
  | .recordAbandon a => Sys2Proof.Machine.execRecordAbandon a s
  | .handlingIntervalEnd a => Sys2Proof.Machine.execHandlingIntervalEnd a s
  | .powerEstimate a b => Sys2Proof.Machine.execPowerEstimate a b s
  | .estimateTrim a b => Sys2Proof.Machine.execEstimateTrim a b s
  | .pacingSlot => Sys2Proof.Machine.execPacingSlot s
  | .powerGateDrainDone a => Sys2Proof.Machine.execPowerGateDrainDone a s
  | .releaseFromPowerGate a => Sys2Proof.Machine.execReleaseFromPowerGate a s
  | .gateHoldExpiry a => Sys2Proof.Machine.execGateHoldExpiry a s
  | .rotation => Sys2Proof.Machine.execRotation s
  | .throttlePeriod a => Sys2Proof.Machine.execThrottlePeriod a s
  | .dutyOffEnd a => Sys2Proof.Machine.execDutyOffEnd a s
  | .sensorConversion a => Sys2Proof.Machine.execSensorConversion a s
  | .tripRelease a => Sys2Proof.Machine.execTripRelease a s
  | .sensorDiverge a => Sys2Proof.Machine.execSensorDiverge a s
  | .flowReading a => Sys2Proof.Machine.execFlowReading a s
  | .flowRecovery => Sys2Proof.Machine.execFlowRecovery s
  | .inletReading a => Sys2Proof.Machine.execInletReading a s
  | .pmWatchdog => Sys2Proof.Machine.execPmWatchdog s
  | .warmingLoadStart a => Sys2Proof.Machine.execWarmingLoadStart a s
  | .frequencyRelock a => Sys2Proof.Machine.execFrequencyRelock a s
  | .ageingReplan a b => Sys2Proof.Machine.execAgeingReplan a b s
  | .replanForcedApply a => Sys2Proof.Machine.execReplanForcedApply a s
  | .voltageGood a => Sys2Proof.Machine.execVoltageGood a s
  | .mateDetectMade => Sys2Proof.Machine.execMateDetectMade s
  | .mateDetectBreak => Sys2Proof.Machine.execMateDetectBreak s
  | .inputFail a => Sys2Proof.Machine.execInputFail a s
  | .holdUpExhausted => Sys2Proof.Machine.execHoldUpExhausted s
  | .restartHoldoffEnd => Sys2Proof.Machine.execRestartHoldoffEnd s
  | .reversedInput a => Sys2Proof.Machine.execReversedInput a s
  | .start => Sys2Proof.Machine.execStart s
  | .holdUpCharged => Sys2Proof.Machine.execHoldUpCharged s
  | .cocoonKeyDerivation a => Sys2Proof.Machine.execCocoonKeyDerivation a s
  | .pupaLoaderBoot a b => Sys2Proof.Machine.execPupaLoaderBoot a b s
  | .identityCheck a b c => Sys2Proof.Machine.execIdentityCheck a b c s
  | .identityRecheck a b => Sys2Proof.Machine.execIdentityRecheck a b s
  | .vaultPhyCheck a b c d e => Sys2Proof.Machine.execVaultPhyCheck a b c d e s
  | .startVaultClear => Sys2Proof.Machine.execStartVaultClear s
  | .tierTraining a b c => Sys2Proof.Machine.execTierTraining a b c s
  | .startTierClear => Sys2Proof.Machine.execStartTierClear s
  | .serdesCheck a b c d e f => Sys2Proof.Machine.execSerdesCheck a b c d e f s
  | .samplerHawkmothLoad a b => Sys2Proof.Machine.execSamplerHawkmothLoad a b s
  | .moultBatch => Sys2Proof.Machine.execMoultBatch s
  | .arrayTestEnd a b => Sys2Proof.Machine.execArrayTestEnd a b s
  | .lomletReady => Sys2Proof.Machine.execLomletReady s
  | .linkUp a b c => Sys2Proof.Machine.execLinkUp a b c s
  | .linkDown a => Sys2Proof.Machine.execLinkDown a s
  | .perst a => Sys2Proof.Machine.execPerst a s
  | .d3hot a => Sys2Proof.Machine.execD3hot a s
  | .getVersion a => Sys2Proof.Machine.execGetVersion a s
  | .getCapabilities a => Sys2Proof.Machine.execGetCapabilities a s
  | .negotiateAlgorithms a => Sys2Proof.Machine.execNegotiateAlgorithms a s
  | .getDigests a => Sys2Proof.Machine.execGetDigests a s
  | .getCertificate a b c d => Sys2Proof.Machine.execGetCertificate a b c d s
  | .challenge a b => Sys2Proof.Machine.execChallenge a b s
  | .getMeasurements a b => Sys2Proof.Machine.execGetMeasurements a b s
  | .keyExchange a b c => Sys2Proof.Machine.execKeyExchange a b c s
  | .finish a b c d => Sys2Proof.Machine.execFinish a b c d s
  | .heartbeat a b => Sys2Proof.Machine.execHeartbeat a b s
  | .spdmHeartbeatMiss a => Sys2Proof.Machine.execSpdmHeartbeatMiss a s
  | .keyUpdate a b => Sys2Proof.Machine.execKeyUpdate a b s
  | .endSession a b => Sys2Proof.Machine.execEndSession a b s
  | .vendorDefinedRequest a b c => Sys2Proof.Machine.execVendorDefinedRequest a b c s
  | .query a b => Sys2Proof.Machine.execQuery a b s
  | .keyProg a b c d e f => Sys2Proof.Machine.execKeyProg a b c d e f s
  | .kSetGo a b c d => Sys2Proof.Machine.execKSetGo a b c d s
  | .kSetStop a b c d => Sys2Proof.Machine.execKSetStop a b c d s
  | .ideIntegrityFail a b => Sys2Proof.Machine.execIdeIntegrityFail a b s
  | .managementSessionOpen a b => Sys2Proof.Machine.execManagementSessionOpen a b s
  | .managementSessionClose a => Sys2Proof.Machine.execManagementSessionClose a s
  | .tlsSessionExpiry a => Sys2Proof.Machine.execTlsSessionExpiry a s
  | .tlsKeyUpdate a => Sys2Proof.Machine.execTlsKeyUpdate a s
  | .anchorFrame a b => Sys2Proof.Machine.execAnchorFrame a b s
  | .crashRead a b => Sys2Proof.Machine.execCrashRead a b s
  | .activeHalfHeartbeat => Sys2Proof.Machine.execActiveHalfHeartbeat s
  | .halfChecksDone a b c => Sys2Proof.Machine.execHalfChecksDone a b c s
  | .provisioning a => Sys2Proof.Machine.execProvisioning a s
  | .commandFrame a b c d => Sys2Proof.Machine.execCommandFrame a b c d s
  | .managementLinkUp a => Sys2Proof.Machine.execManagementLinkUp a s
  | .managementLinkDown => Sys2Proof.Machine.execManagementLinkDown s
  | .returnToD0 a => Sys2Proof.Machine.execReturnToD0 a s
  | .lossComparatorTrip => Sys2Proof.Machine.execLossComparatorTrip s

end Sys2Proof.Machine
end

