-- ==== Sys2Proof/Machine/Tick.lean ====
section
/-!
DEFINITION. One 10 ns tick of the 100 MHz timestamp counter (R482), which is what a step does when no command waits:
array cycles are counted, throttled bits follow (R427), late patrols show (R161), due re-plans apply (R434), and what
waits for quiet arrays and clears goes on (assumption log).
-/

namespace Sys2Proof.Machine

/-- Whether an array's issue waits: a kwait is held, or an interlock holds its next instruction (R105, R131). -/
def State.issueWaits (s : State) (n : ArrayNum) : Bool :=
  let a := s.arr n
  a.kernel && !a.ending && a.pend.isNone && !a.restaging && a.power == .running && a.clockHold == 0
    && (a.kwait.isSome || (s.canIssue n && a.pc % 16 == 0 && decide (a.pc ≤ lastFetch)
      && interlock a (decodeInsn (s.fetch n a.pc))))

/-- Array cycles of one tick, with the carried hundredths: f MHz against 100 MHz. -/
def ArrayState.cycles (a : ArrayState) (f : Nat) : Nat × Nat := ((a.cycleFrac + f) / 100, (a.cycleFrac + f) % 100)

/-- A held kwait after some array cycles (R132): the count goes on, and reaching the timeout while the condition is false
decides it. -/
def Kwait.tick (k : Kwait) (c : Nat) (holds : Bool) : Kwait :=
  { k with counted := k.counted + c
           expired := k.expired || (k.timeout != 0 && decide (k.timeout.toNat ≤ k.counted + c) && !holds) }

/-- A tick on one array: its busy cycles are counted whenever busy is 1, with the compute section off too (R107, R112).
While its compute clock runs, waiting cycles are counted, the grid takes rows, which counts its cycles, the units go on and a
kwait's timeout counts on (R81, R104, R112, R132). -/
def State.tickArray (s : State) (n : ArrayNum) : State :=
  if s.usable n then
    let c := (s.arr n).cycles (s.get (F.pwrAVfFRun n))
    let s := if s.busy n then s.addTo (F.arrBusyCyclesBusyCycles n) c.1 else s
    let s := if s.issueWaits n then s.addTo (F.arrStallCyclesStallCycles n) c.1 else s
    let runs := (s.arr n).power == .running && (s.arr n).clockHold == 0
    let fed := if s.unitsRun n then feedPasses c.1 (s.arr n).mmaQ else (s.arr n).mmaQ
    let s := s.addTo (F.arrGridCyclesGridCycles n) (fedCycles fed - fedCycles (s.arr n).mmaQ)
    s.modArr n fun a => { a with
      cycleFrac := c.2
      clockHold := a.clockHold - 1
      mmaQ := fed
      unitQ := if s.unitsRun n then unitCycles c.1 a.unitQ else a.unitQ
      kwait := if runs then a.kwait.map fun (k : Kwait) => k.tick c.1 (reached (s.knot n k.knot) k.value) else a.kwait }
  else s

/-- Throttled bits (R405, R427): an array off for power at any time in the last whole millisecond. -/
def State.tickThrottled (s : State) : State :=
  let off := BitVec.ofNat 64 (mapOf (allArrays.filter fun (n : ArrayNum) => s.usable n && s.offForPower n))
  let seen := s.pm.offSeen ||| off
  if s.time.toNat % 100000 = 0 then
    (allArrays.foldl (fun (s : State) (n : ArrayNum) =>
      s.set (F.pwrADutyThrottled n) (bitNum (seen.getLsbD n.val))) s).modPm fun m => { m with offSeen := 0 }
  else s.modPm fun m => { m with offSeen := seen }

/-- One tick. In a removal the groups stop in turn (R503); without power only the time that the connector's hold-off counts
goes on (R504).
(DESIGN CHOICE, log entries 1, 31.) -/
def State.tick (s : State) : State :=
  let s : State := { s with time := s.time + 1 }
  if s.board.supply = .on then
    let s := allArrays.foldl (fun (s : State) (n : ArrayNum) => s.tickArray n) s
    s.stopGroups.tickFabric.tickPrbs.tickSht.tickThrottled.patrolLate.applyPlans.settle.lifecycleStep
  else if s.board.supply = .removing then s.stopGroups
  else s

end Sys2Proof.Machine
end

