-- ==== Sys2Proof/Safety.lean ====
section
/-!
DEFINITION. What statements about runs are said in: the canonical form of the sparse tables, of memory and of the
register file, and a safe outcome of a step.
-/

namespace Sys2Proof.Machine

/-- Keys strictly rising, every key at or above a bound. -/
def keysAbove {α : Type} : Nat → List (Nat × α) → Bool
  | _, [] => true
  | b, (k, _) :: t => decide (b ≤ k) && keysAbove (k + 1) t

/-- The canonical form of a sparse table whose unlisted keys read `d key`: keys strictly rising, and no value listed
that its key would read as anyway. -/
def SMap.canonBy {α : Type} [DecidableEq α] (d : Nat → α) (m : SMap α) : Bool :=
  keysAbove 0 m && m.all fun p => p.2 != d p.1

/-- The canonical form of a table whose unlisted keys all read `d`. -/
def SMap.wf {α : Type} [DecidableEq α] (d : α) (m : SMap α) : Bool := SMap.canonBy (fun _ => d) m

/-- The canonical form of device memory, whose unlisted addresses read 0. -/
def Memory.wf (m : List Host.Cell) : Bool := SMap.wf (0 : Byte) m

/-- The canonical form of the register file, whose unlisted words read their Reset values. -/
def Regs.wf (m : SMap Word) : Bool := SMap.canonBy regReset m

/-- The canonical form of the tier's written lines; a line not listed is a cleared line. -/
def Lines.wf (m : SMap (Option TierLine)) : Bool := SMap.wf none m

/-- Device memory, the memory behind the ports, the tier's written lines and the register file are each in their
canonical form. -/
def Stores.wf (mem pcie : List Host.Cell) (lines : SMap (Option TierLine)) (regs : SMap Word) : Prop :=
  Memory.wf mem = true ∧ Memory.wf pcie = true ∧ Lines.wf lines = true ∧ Regs.wf regs = true

/-- The state's four stores are in canonical form. -/
def State.canon (s : State) : Prop := Stores.wf s.mem s.pcieMem s.tline s.regs

/-- No word of memory is uncorrectable, and every written tier line belongs to its own address (R92, R144, R151). -/
def State.clean (s : State) : Prop := ∀ a k, s.badIn a k = none

/-! ### Array instructions -/

/-- Array n's next instruction is i and may issue now: the array may issue, its fetch is good, and no interlock holds
the instruction (R92, R104, R105, R107, R547). -/
def State.Issues (s : State) (n : ArrayNum) (i : Insn) : Prop :=
  s.canIssue n = true ∧ (s.arr n).pc % 16 = 0 ∧ (s.arr n).pc ≤ lastFetch
    ∧ s.badIn (spoolBase n + (s.arr n).pc) 16 = none ∧ decodeInsn (s.fetch n (s.arr n).pc) = i
    ∧ interlock (s.arr n) i = false

/-- The state an instruction of array n acts on: corrected words of its fetch are counted and reported, and a kernel's
first instruction has passed the commit point (R92, R108). -/
def State.atIssue (s : State) (n : ArrayNum) : State :=
  (s.correct (spoolBase n + (s.arr n).pc) 16 6).commitIfFirst n

/-- An array past the instruction it has issued at a cycle: the next one follows it, and past the last place there is none
(R547). -/
def ArrayState.past (now : DWord) (a : ArrayState) : ArrayState :=
  if a.pc = lastFetch then
    (if a.pend.isSome then a else { a with pend := some ⟨faultSpoolRange, 0, lastFetch, 0x800000⟩, pendAt := now })
  else { a with pc := a.pc + 16 }

/-- An array whose instruction i has issued at a cycle: it is in its unit's queue, and the next one follows it (R104, R547). -/
def ArrayState.issued (i : Insn) (now : DWord) (a : ArrayState) : ArrayState := (a.enter i).past now

/-- An array whose instruction of a class faults at a cycle with a code and an offending address (R109, R482). -/
def ArrayState.faulted (now : DWord) (code cls addr : Nat) (a : ArrayState) : ArrayState :=
  if a.pend.isSome then a else { a with pend := some ⟨code, cls, a.pc, addr⟩, pendAt := now }

/-- An outcome that goes on with array n as `a`, every other array as it was, and the registers, event records and board
of `u`; everything else is as in s. -/
def Changes (o : Host.Outcome State Fault Refusal) (s : State) (n : ArrayNum) (a : ArrayState) (u : State) : Prop :=
  ∃ t, o = .next t ∧ t.arr n = a ∧ (∀ m, m ≠ n → t.arr m = s.arr m)
    ∧ t = { s with arrays := t.arrays, regs := u.regs, events := u.events, board := u.board }

/-- A step that goes on. -/
def Goes (o : Host.Outcome State Fault Refusal) : Prop := ∃ t, o = .next t

/-- Whether a piece (spool offset and bytes) of array n's spool covers a device address. -/
def covers (n : ArrayNum) (p : Nat × List Byte) (x : Nat) : Bool :=
  decide (spoolBase n + p.1 ≤ x) && decide (x < spoolBase n + p.1 + p.2.length)

/-- An outcome that goes on with array n past its instruction i and the pieces written to its spool: no byte outside the
pieces changes, and a byte that only one piece covers reads as that piece says. Registers, event records and board are
those of v; everything else is as in s. -/
def Wrote (o : Host.Outcome State Fault Refusal) (s : State) (n : ArrayNum) (i : Insn) (ps : List (Nat × List Byte))
    (v : State) : Prop :=
  ∃ t, o = .next t ∧ t.arr n = (v.arr n).issued i s.time ∧ (∀ m, m ≠ n → t.arr m = s.arr m)
    ∧ t = { s with arrays := t.arrays, regs := v.regs, events := v.events, board := v.board, mem := t.mem }
    ∧ (∀ x, (∀ p ∈ ps, covers n p x = false) → t.byte x = s.byte x)
    ∧ (∀ l p r, ps = l ++ p :: r → ∀ x, covers n p x = true → (∀ q ∈ r, covers n q x = false) →
        t.byte x = p.2.getD (x - (spoolBase n + p.1)) 0)

/-- Which needs are met in turn from n places: one that does not fit takes none (R183, R185). -/
def metFrom : Nat → List Nat → List Bool
  | _, [] => []
  | n, k :: t => decide (k ≤ n) :: metFrom (if k ≤ n then n - k else n) t

/-! ### Registers and commands -/

/-- A requester's access to array n's window is decoded, the array's memory section has power, and the world rules let it write
there (R37, R383, R440, R509). -/
def State.mayAct (s : State) (q : Requester) (n : ArrayNum) : Prop :=
  (portOf q).all (fun p => s.portLive p) = true ∧ s.powered n = true ∧ (nonSecure q = true → s.arraySealed n = false)

/-- What a requester writes at a gate passes: Spindle's half, where it is Spindle, has power, has not stopped issuing, holds
the gate claim and is not quarantined (R352, R361, R362). -/
def State.passes (s : State) (q : Requester) : Prop :=
  q = .spindle →
    s.twn.powered[(halfIx s.spindleHalf).val] = true ∧ s.twn.stopped[(halfIx s.spindleHalf).val] = false
      ∧ s.claim s.spindleHalf = s.get F.twnGateClaimClaim ∧ s.halfState s.spindleHalf ≠ 4

/-- A write at an offset of a window crosses no gate, or passes it (R361). -/
def State.crosses (s : State) (q : Requester) (b off : Nat) : Prop := (gateOfWrite b off).isSome = true → s.passes q

/-- No command waits for arrays, clears or scrubs, and no partition owes a tier clear (R335, R341, R346). -/
def State.calm (s : State) : Prop :=
  (∀ m ∈ s.spn.cmds, m.wait = .none) ∧ ∀ p, (s.part p).todo = []

/-- A device address lies in neither copy of the ledger (R355). -/
def State.outsideLedger (s : State) (x : Nat) : Prop :=
  ∀ c ∈ s.ledgerCopies, x < ledgerAddr c 0 ∨ ledgerAddr c 0 + 0x400000 ≤ x

/-- No import in progress has written a device address (R398). -/
def State.outsideImports (s : State) (x : Nat) : Prop := ∀ m ∈ s.coc.imports, x < m.dest ∨ m.dest + m.done ≤ x

/-- Command c has been started and has this opcode, and no gap holds Spindle's commands (R333, R334, R365). -/
def State.Started (s : State) (c : CmdRef) (op : Nat) (m : Cmd) : Prop :=
  s.cmd c = some m ∧ m.phase = .started ∧ m.op = op ∧ s.gapHolds = false

/-- An outcome that goes on from the effects u: command c is completed with a status and a result (R332), every other
outstanding command stands as in u, and nothing else differs from u but the ledger's writes and the writer's queue. -/
def Completes (o : Host.Outcome State Fault Refusal) (u : State) (c : CmdRef) (status : Nat) (result : List Byte) : Prop :=
  ∃ t, o = .next t
    ∧ (t.cmd c).bind (·.comp) = some ⟨status, bytesAt result 0 40, u.time, false⟩
    ∧ (∀ d, d ≠ c → t.cmd d = u.cmd d)
    ∧ t = { u with
        spn := { u.spn with cmds := t.spn.cmds, writer := t.spn.writer }
        twn := { u.twn with ledger := { u.twn.ledger with pending := t.twn.ledger.pending } } }

/-- An outcome that goes on from the effects u: command c, of class L, runs on and waits (R335), every other outstanding
command stands as in u, and nothing else differs from u but the ledger's writes. -/
def Waits (o : Host.Outcome State Fault Refusal) (u : State) (c : CmdRef) (w : Wait) : Prop :=
  ∃ t, o = .next t
    ∧ (t.cmd c).map (fun m => (m.phase, m.wait)) = some (Phase.running, w)
    ∧ (∀ d, d ≠ c → t.cmd d = u.cmd d)
    ∧ t = { u with
        spn := { u.spn with cmds := t.spn.cmds }
        twn := { u.twn with ledger := { u.twn.ledger with pending := t.twn.ledger.pending } } }

end Sys2Proof.Machine
end

