-- ==== Sys2Proof/Certificates/Slice0/Obligations.lean ====
section
/-!
DEFINITION. The statements for the provers, in the rules of spec/ that they formalise or rest on.
-/

open Sys2Proof Sys2Proof.Machine

/-- O1. For every state and every command c, a step of the state whose queue is c followed by rest is exec of c on the
state whose queue is rest. (95_what_each_step_holds.md) -/
def Obligations.StepRunsFrontCommand : Prop :=
  ∀ (s : State) (c : Instr) (rest : List Instr),
    step { s with pending := c :: rest } = exec c { s with pending := rest }

/-- O2. With an empty queue a step answers the state after one tick of the timestamp counter. While the supply is neither
on nor being removed, that tick changes nothing but the time, which goes up by 1; while it is being removed, arrays of
the power groups that have left stop as well. The tick on an empty queue is the model's choice (log entry 1).
(95_what_each_step_holds.md) -/
def Obligations.StepOnEmptyQueueTicks : Prop :=
  (∀ s : State, s.pending = [] → step s = .next s.tick) ∧
  (∀ s : State, s.board.supply ≠ .on → s.board.supply ≠ .removing → s.tick = { s with time := s.time + 1 }) ∧
  (∀ s : State, s.board.supply = .removing → s.tick = ({ s with time := s.time + 1 } : State).stopGroups)

/-- O3. The reset state has an empty queue, an empty memory in canonical form with no error word, nothing behind the
ports, no supply, no session, no partition, no kernel on any array, and every register at its Reset value: an unlisted
register reads the Reset column of its table. Rests also on the model's readings in log entries 5, 6, 62, 65.
(15_startup_and_moult.md, 00_scope.md) -/
def Obligations.ResetIsUnpoweredAndCanonical : Prop :=
  State.reset.canon ∧ State.reset.pending = [] ∧ State.reset.board.supply = .off ∧ State.reset.time = 0
    ∧ (∀ n, State.reset.arr n = ArrayState.reset) ∧ (∀ p, (State.reset.part p).live = false)
    ∧ (∀ key, State.reset.reg key = regReset key) ∧ State.reset.coc.sessions = [] ∧ State.reset.spn.cmds = []
    ∧ State.reset.mem = [] ∧ State.reset.pcieMem = [] ∧ State.reset.tline = [] ∧ State.reset.ue = [] ∧ State.reset.ce = []

/-- O4. From every state whose device memory, port memory, table of written tier lines and register file are in canonical
form (keys strictly rising, nothing listed that an unlisted key reads as anyway), every step that answers a next state
leaves them in canonical form, whatever command it runs and on every tick. (01_stack_and_arrays.md, 00_scope.md,
95_what_each_step_holds.md) -/
def Obligations.EveryStepKeepsStoresCanonical : Prop :=
  ∀ s t : State, s.canon → step s = .next t → t.canon

/-- O5. Whatever command is at the front, a step that answers a next state leaves exactly the rest of the queue: no
command queues, drops or reorders commands. (95_what_each_step_holds.md) -/
def Obligations.QueueIsFirstInFirstOut : Prop :=
  ∀ (s t : State) (c : Instr) (rest : List Instr), s.pending = c :: rest → step s = .next t → t.pending = rest

/-- O6. After a store of bytes at a device address, a byte inside the range whose protected unit is either written whole
or holds no uncorrectable word reads the byte stored, and every other byte of memory reads as before; words of units
written whole are good afterwards. After a clear of a range its bytes read 0 and every other byte reads as before.
Rests also on the model's readings in log entry 7. (03_array_execution.md, 05_vaults_and_tier.md) -/
def Obligations.StoredBytesReadBack : Prop :=
  (∀ (s : State) (a : Nat) (bs : List Byte) (x : Nat),
    (s.store a bs).byte x =
      if a ≤ x ∧ x < a + bs.length ∧
          ((a ≤ x / protUnit x * protUnit x ∧ x / protUnit x * protUnit x + protUnit x ≤ a + bs.length)
            ∨ s.badIn (x / protUnit x * protUnit x) (protUnit x) = none)
        then bs.getD (x - a) 0 else s.byte x) ∧
  (∀ (s : State) (a : Nat) (bs : List Byte) (w : Nat), w ∈ (s.store a bs).ue ↔
    w ∈ s.ue ∧ ¬(a ≤ w / protUnit w * protUnit w ∧ w / protUnit w * protUnit w + protUnit w ≤ a + bs.length)) ∧
  (∀ (s : State) (a n x : Nat), (s.wipe a n).byte x = if a ≤ x ∧ x < a + n then 0 else s.byte x)

/-- O7. For every named field of every register: setting it makes it read the value set modulo 2 to its width, and a field
that shares no bit with it reads as before. Stated over every field that fits its register. (00_scope.md) -/
def Obligations.FieldsReadBackAndKeepApart : Prop :=
  ∀ (s : State) (f g : Fld) (v : Nat),
    f.lo + f.width ≤ (if f.wide then 64 else 32) → g.lo + g.width ≤ (if g.wide then 64 else 32) →
    (s.set f v).get f = v % 2 ^ f.width ∧
    ((f.key = g.key ∧ f.wide = g.wide ∧ (f.lo + f.width ≤ g.lo ∨ g.lo + g.width ≤ f.lo))
        ∨ (f.key ≠ g.key ∧ (f.wide = true → f.key + 4 ≠ g.key) ∧ (g.wide = true → g.key + 4 ≠ f.key)) →
      (s.set f v).get g = s.get g)

/-- O8. When array n issues a CTL instruction, exec of its row answers a next state in which nop and a satisfied fence
only move on; end marks the kernel as ending; jump goes to imm, or faults SPOOL_RANGE with imm when imm is no multiple
of 16 or above 0x7F_FFF0; loop falls through at count 0 and else counts down and jumps; setc and seta write their
register; adda adds modulo 2^32; kwait moves on when its knot has reached the value in wrapping order and is else
held. No other array and nothing but the array, counters and event records changes, and at the last place nothing
follows (R547). Rests also on the model's readings in log entries 4, 13, 15, 69. (R95, R547, R131, R104) -/
def Obligations.ControlInstructions : Prop :=
  ∀ (n : ArrayNum) (s : State),
    let a : ArrayState := { s.arr n with committed := true }
    let u := s.atIssue n
    let cls := s.fetch n (s.arr n).pc % 16
    (s.Issues n .nop → Changes (exec (.nop n) s) s n (a.past s.time) u) ∧
    (∀ mask, s.Issues n (.fence mask) → Changes (exec (.fence n) s) s n (a.past s.time) u) ∧
    (s.Issues n .kend → Changes (exec (.kend n) s) s n { a with ending := true } u) ∧
    (∀ imm, s.Issues n (.jump imm) → Changes (exec (.jump n) s) s n
      (if imm % 16 = 0 ∧ imm ≤ 0x7FFFF0 then { a with pc := imm } else a.faulted s.time 0x05 cls imm) u) ∧
    (∀ d imm, s.Issues n (.loop d imm) → Changes (exec (.loop n) s) s n
      (if a.c d = 0 then a.past s.time
        else if imm % 16 = 0 ∧ imm ≤ 0x7FFFF0 then { a.setC d (a.c d - 1) with pc := imm }
        else a.faulted s.time 0x05 cls imm) u) ∧
    (∀ d imm, s.Issues n (.setc d imm) → Changes (exec (.setc n) s) s n ((a.setC d imm).past s.time) u) ∧
    (∀ d imm, s.Issues n (.seta d imm) → Changes (exec (.seta n) s) s n ((a.setA d imm).past s.time) u) ∧
    (∀ d imm, s.Issues n (.adda d imm) → Changes (exec (.adda n) s) s n ((a.setA d (a.a d + imm)).past s.time) u) ∧
    (∀ k v t, s.Issues n (.kwait k v t) → Changes (exec (.kwait n) s) s n
      (if (s.knot n k - v).toNat < 2 ^ 31 then a.past s.time else { a with kwait := some ⟨k, v, t, 0, false⟩ }) u)

/-- O9. While array n holds a kwait that has not run out: kwaitSatisfied, with the knot at the value in wrapping order and
the array running, releases it and moves on, and the timeout does nothing while the condition is true (the condition
wins a tie). knotTimeout, with a timeout other than 0 counted out and the knot not there in that cycle, faults
KNOT_TIMEOUT at the kwait with the knot number of the array, whatever the knot has come to since; kwaitSatisfied then
changes nothing. Rests also on the model's readings in log entry 4. (R131, R132, R109) -/
def Obligations.HeldKwaitEnds : Prop :=
  ∀ (n : ArrayNum) (s : State) (w : Kwait), (s.arr n).kwait = some w →
    (w.expired = false → (s.knot n w.knot - w.value).toNat < 2 ^ 31 → (s.arr n).power = .running →
      (s.arr n).clockHold = 0 → (s.arr n).restaging = false → Changes (exec (.kwaitSatisfied n) s) s n (({ s.arr n with kwait := none } : ArrayState).past s.time) s) ∧
    (w.expired = true → exec (.kwaitSatisfied n) s = .next s) ∧
    (w.timeout ≠ 0 → w.timeout.toNat ≤ w.counted →
      (w.expired = true ∨ ¬ (s.knot n w.knot - w.value).toNat < 2 ^ 31) →
      Changes (exec (.knotTimeout n) s) s n
        (({ s.arr n with kwait := none } : ArrayState).faulted s.time 0x09 0 (n.val * 2048 + w.knot)) s) ∧
    (w.expired = false → (s.knot n w.knot - w.value).toNat < 2 ^ 31 → exec (.knotTimeout n) s = .next s)

/-- O10. While a running array holds a kwait with value v that has not run out, kwaitSatisfied releases it when (knot - v)
mod 2^32 is less than 2^31 and changes nothing otherwise; every knot keeps its value. Rests also on the model's
readings in log entry 4. (R131) -/
def Obligations.KwaitsReachInWrappingOrder : Prop :=
  ∀ (n : ArrayNum) (s : State) (w : Kwait), (s.arr n).kwait = some w → w.expired = false → (s.arr n).power = .running →
    (s.arr n).clockHold = 0 → (s.arr n).restaging = false →
    ((s.knot n w.knot - w.value).toNat < 2 ^ 31 → ∃ t, exec (.kwaitSatisfied n) s = .next t ∧ (t.arr n).kwait = none
      ∧ (t.arr n).pc = ((s.arr n).past s.time).pc ∧ ∀ m j, t.knot m j = s.knot m j) ∧
    (¬ (s.knot n w.knot - w.value).toNat < 2 ^ 31 → exec (.kwaitSatisfied n) s = .next s)

/-- O11. When array n issues add, sub, mul, fma, max, min, abs, neg, select, exp2, log2, recip or rsqrt, exec of its row
answers a next state in which each lane of vd that the masked bit chooses holds the result of its operands (b is the
register or imm in every lane), every other lane of vd and every other register of the array is as before,
fp32_overflow is set exactly when a written lane overflowed, and the next instruction follows. A compare makes each
bit of the named mask 1 exactly where the masked bit chooses the lane and the compare holds (NaN compares false, -0
equals +0), and changes no other register. reduceSum and reduceMax write the pairwise tree's result over all 64 lanes
of va to every chosen lane of vd. No other array, and nothing in memory, changes. The transcendental results are free
within the stated bounds (log entry 20). Rests also on the model's readings in log entries 4, 15, 18, 20. (R98, R71,
R72, R74, R58) -/
def Obligations.RowInstructions : Prop :=
  ∀ (n : ArrayNum) (s : State) (o : RowOps),
    let a : ArrayState := { s.arr n with committed := true }
    let b : Nat → Word := fun l => if o.bImm then o.imm else a.lane o.vb l
    let on : Nat → Bool := fun l => !o.masked || (a.m o.mask).getLsbD l
    let res : RowKind → (Nat → FRes) → Host.Outcome State Fault Refusal → Prop := fun k f out =>
      Changes out s n
        ((a.setV o.vd ((List.range 64).map fun l => if on l then (f l).bits else a.lane o.vd l)).issued (.row k o) s.time)
        (if (List.range 64).any (fun l => on l && (f l).overflow)
          then (s.atIssue n).raiseBit (F.arrArithStatFp32Overflow n) else s.atIssue n)
    let cmp : RowKind → (FVal → FVal → Bool) → Host.Outcome State Fault Refusal → Prop := fun k f out =>
      ∃ m : DWord, (∀ l, l < 64 → m.getLsbD l = (on l && f (f32 (a.lane o.va l)) (f32 (b l)))) ∧
        Changes out s n ((a.setM o.mask m).issued (.row k o) s.time) (s.atIssue n)
    let red : RowKind → (Word → Word → FRes) → Host.Outcome State Fault Refusal → Prop := fun k f out =>
      let r := reduceTree f ((List.range 64).map fun l => a.lane o.va l)
      Changes out s n
        ((a.setV o.vd ((List.range 64).map fun l => if on l then r.bits else a.lane o.vd l)).issued (.row k o) s.time)
        (if (List.range 64).any (fun l => on l && r.overflow)
          then (s.atIssue n).raiseBit (F.arrArithStatFp32Overflow n) else s.atIssue n)
    (s.Issues n (.row .add o) → res .add (fun l => f32Add (a.lane o.va l) (b l)) (exec (.add n) s)) ∧
    (s.Issues n (.row .sub o) → res .sub (fun l => f32Sub (a.lane o.va l) (b l)) (exec (.sub n) s)) ∧
    (s.Issues n (.row .mul o) → res .mul (fun l => f32Mul (a.lane o.va l) (b l)) (exec (.mul n) s)) ∧
    (s.Issues n (.row .fma o) → res .fma (fun l => f32Fma (a.lane o.va l) (b l) (a.lane o.vc l)) (exec (.fma n) s)) ∧
    (s.Issues n (.row .max o) → res .max (fun l => f32Max (a.lane o.va l) (b l)) (exec (.max n) s)) ∧
    (s.Issues n (.row .min o) → res .min (fun l => f32Min (a.lane o.va l) (b l)) (exec (.min n) s)) ∧
    (s.Issues n (.row .abs o) → res .abs (fun l => ⟨a.lane o.va l &&& 0x7FFFFFFF#32, false⟩) (exec (.abs n) s)) ∧
    (s.Issues n (.row .neg o) → res .neg (fun l => ⟨a.lane o.va l ^^^ 0x80000000#32, false⟩) (exec (.neg n) s)) ∧
    (s.Issues n (.row .select o) →
      res .select (fun l => ⟨if (a.m o.mask).getLsbD l then a.lane o.va l else b l, false⟩) (exec (.select n) s)) ∧
    (s.Issues n (.row .exp2 o) → res .exp2 (fun l => f32Exp2 (a.lane o.va l)) (exec (.exp2 n) s)) ∧
    (s.Issues n (.row .log2 o) → res .log2 (fun l => f32Log2 (a.lane o.va l)) (exec (.log2 n) s)) ∧
    (s.Issues n (.row .recip o) → res .recip (fun l => f32Recip (a.lane o.va l)) (exec (.recip n) s)) ∧
    (s.Issues n (.row .rsqrt o) → res .rsqrt (fun l => f32Rsqrt (a.lane o.va l)) (exec (.rsqrt n) s)) ∧
    (s.Issues n (.row .cmpLt o) → cmp .cmpLt FVal.lt (exec (.compareLt n) s)) ∧
    (s.Issues n (.row .cmpLe o) → cmp .cmpLe (fun x y => x.lt y || x.eqv y) (exec (.compareLe n) s)) ∧
    (s.Issues n (.row .cmpEq o) → cmp .cmpEq FVal.eqv (exec (.compareEq n) s)) ∧
    (s.Issues n (.row .reduceSum o) → red .reduceSum f32Add (exec (.reduceSum n) s)) ∧
    (s.Issues n (.row .reduceMax o) → red .reduceMax f32Max (exec (.reduceMax n) s))

/-- O12. When array n issues a stg whose planes exist and whose source is aligned, inside the spool or inside vault
granules its partition may stage from, exec answers a next state in which the instruction joins the stager's queue,
the planes it writes are invalid and a change of the bank's pair invalidates the bank. When it issues an mma on a
valid plane of the pair whose accumulator rows and activation rows are good, the pass joins the grid's queue, its
accumulator rows carry the pair's format, and corrected words of the rows read are counted and reported. A plane
number out of range faults PLANE_RANGE, an invalid plane faults PLANE_INVALID. Rests also on the model's readings in
log entries 4, 15, 16, 17, 69. (R85, R88, R96, R97, R82) -/
def Obligations.StagingAndPassesIssue : Prop :=
  ∀ (n : ArrayNum) (s : State),
    let a : ArrayState := { s.arr n with committed := true }
    let u := s.atIssue n
    let cls := s.fetch n (s.arr n).pc % 16
    (∀ o : StgOps, s.Issues n (.stg o) →
      let p := pairInfo (pairOf o.pair)
      let addr := a.a o.reg + o.offset
      let len := o.count * p.planeBytes
      let src : Nat → PlaneSrc := fun j =>
        if o.fromSpool then .spool (addr + j * p.planeBytes) else .vault (addr + j * p.planeBytes)
      let op : StgOp := ⟨a.pc, 1, pairOf o.pair, half2 o.bank, o.first, (List.range o.count).map src⟩
      let base := (half2 o.bank).val * 64
      let queued : ArrayState := { a with
        stgQ := a.stgQ ++ [op], bankPair := a.bankPair.set (half2 o.bank).val (some (pairOf o.pair))
        planes := if a.bankPair[(half2 o.bank).val] = some (pairOf o.pair)
          then SMap.wipe a.planes (base + o.first) (base + o.first + o.count) else SMap.wipe a.planes base (base + 64) }
      (o.first + o.count ≤ p.planes → o.fromSpool = true → addr % 64 = 0 → addr + len ≤ 0x800000 →
        Changes (exec (.stg n) s) s n (queued.past s.time) u) ∧
      (o.first + o.count ≤ p.planes → o.fromSpool = false → addr % 64 = 0 → addr + len ≤ 0x60000000 →
        u.stagerDenied n addr len = none → Changes (exec (.stg n) s) s n (queued.past s.time) u) ∧
      (p.planes < o.first + o.count → Changes (exec (.stg n) s) s n (a.faulted s.time 0x04 cls 0) u)) ∧
    (∀ o : MmaOps, s.Issues n (.mma o) →
      let pair := pairOf o.pair
      let p := pairInfo pair
      let valid := a.bankPair[(half2 o.bank).val] = some pair ∧
        (SMap.look none a.planes (o.bank * 64 + o.plane)).isSome = true
      (∀ rows v, valid → o.base + o.rows ≤ 128 →
        (o.accumulate = false ∨
          ∀ i, i < o.rows → SMap.look .unwritten a.accTag (o.half * 128 + (o.base + i)) = p.acc) →
        u.passRows n o p o.rows 0 = (v, .ok rows) →
        Changes (exec (.mma n) s) s n (({ a with
          mmaQ := a.mmaQ ++ [⟨a.pc, pair, o.actE5, o.wtE5, half2 o.bank, o.plane, half2 o.half, o.base, o.rows, rows,
            SMap.slice 0 a.wbuf ((half2 o.bank).val * 0x180000 + o.plane * p.planeBytes) p.planeBytes,
            o.accumulate, u.flag (F.arrArithCtlIntAccSat n), 0⟩]
          accTag := (List.range o.rows).foldl
            (fun t i => SMap.put .unwritten t (o.half * 128 + (o.base + i)) p.acc) a.accTag } : ArrayState).past s.time) v) ∧
      (¬ valid → Changes (exec (.mma n) s) s n (a.faulted s.time 0x03 cls 0) u))

/-- O13. When a running array has a pass with a row still to land, exec of accumulatorLanding answers a next state in
which each of the row's 256 accumulators holds its sum over the row and the plane (from its old value in accumulate
mode, from zero in overwrite mode), the pass keeps the rows that remain and leaves the grid after its last, the row
counts as taken by the grid, with the grid cycles of it that no tick has counted, and int_sat and fp32_overflow follow
the new clamps and overflows. Every other array and all of memory are unchanged. Rests also on the model's readings in
log entries 15, 22. (R81, R82, R56, R58) -/
def Obligations.AccumulatorLanding : Prop :=
  ∀ (n : ArrayNum) (s : State) (op : MmaOp) (rest : List MmaOp) (row scl : List Byte) (more : List (List Byte × List Byte)),
    (s.arr n).mmaQ = op :: rest → op.rows = (row, scl) :: more → s.unitsRun n = true →
    let a := s.arr n
    let r := op.base + (op.total - op.rows.length)
    let old : Nat → AccVal := fun c =>
      if op.accumulate then
        ⟨SMap.look 0 a.acc ((op.half.val * 128 + r) * 256 + c), SMap.look false a.accClamp ((op.half.val * 128 + r) * 256 + c), false⟩
      else ⟨0, false, false⟩
    let new : Nat → AccVal := fun c => passColumn op row scl (old c) c
    let clamps := ((List.range 256).filter fun c => (new c).clamped && !(old c).clamped).length
    let fed := (op.total - more.length) * (pairInfo op.pair).cycles
    let counted := (s.addTo (F.arrGridCyclesGridCycles n) (fed - op.fed)).noteIntSat n (decide (0 < clamps)) clamps
    Changes (exec (.accumulatorLanding n) s) s n
      { a with
        acc := SMap.putAll 0 a.acc ((op.half.val * 128 + r) * 256) ((List.range 256).map fun c => (new c).word)
        accClamp := SMap.putAll false a.accClamp ((op.half.val * 128 + r) * 256) ((List.range 256).map fun c => (new c).clamped)
        mmaQ := if more = [] then rest else { op with rows := more, fed := max op.fed fed } :: rest }
      (counted.noteOverflow n ((List.range 256).any fun c => (new c).overflow))

/-- O14. When a running array that does not restage has a staging instruction in the stager's queue and no word of its
sources is uncorrectable, exec of stagingDone answers a next state in which the instruction has left the queue, each
plane it names is valid with its source, and the bank's cell buffer holds the plane images at their places. Every
other array and all of memory are unchanged. Rests also on the model's readings in log entry 17. (R85, R87, R89, R145) -/
def Obligations.StagingDone : Prop :=
  ∀ (n : ArrayNum) (s : State) (op : StgOp) (rest : List StgOp),
    (s.arr n).stgQ = op :: rest → s.unitsRun n = true → (s.arr n).restaging = false →
    (∀ src ∈ op.srcs, ∀ p ∈ src.pieces n op.pair, s.badIn p.1 p.2 = none) →
    let a := s.arr n
    let size := (pairInfo op.pair).planeBytes
    ∃ t, exec (.stagingDone n) s = .next t
      ∧ t.arr n = { a with
          stgQ := rest
          planes := (op.srcs.zipIdx op.first).foldl
            (fun m c => SMap.put none m (op.bank.val * 64 + c.2) (some c.1)) a.planes
          wbuf := (op.srcs.zipIdx op.first).foldl
            (fun m c => SMap.putAll 0 m (op.bank.val * 0x180000 + c.2 * size) (s.planeImage n op.pair c.1)) a.wbuf }
      ∧ (∀ m, m ≠ n → t.arr m = s.arr m)
      ∧ t = { s with
          arrays := t.arrays, regs := t.regs, events := t.events, board := t.board, linkErr := t.linkErr }

/-- O15. When array n issues cvt with good element and scale places, exec answers a next state in which the spool bytes
there are the converted elements and scales and no other byte of memory changes; with a bad place it faults
SPOOL_RANGE and memory is unchanged. load with a good place that holds no uncorrectable word writes 64 elements of its
format, widened to fp32, into vd. accrd of a written accumulator row writes its columns, int32 rows converted to fp32,
into the registers it names, and of an unwritten row faults ACC_RANGE. Rests also on the model's readings in log
entries 4, 15, 43, 69. (R99, R100, R101, R82, R93) -/
def Obligations.ConversionsAndMoves : Prop :=
  ∀ (n : ArrayNum) (s : State), s.canon →
    let a : ArrayState := { s.arr n with committed := true }
    let u := s.atIssue n
    let cls := s.fetch n (s.arr n).pc % 16
    (∀ o : CvtOps, s.Issues n (.cvt o) →
      let r := u.cvtResult n o
      let el := a.a o.elReg + o.elOff
      let sc := a.a o.scReg + o.scOff
      (spoolOk el 8 r.elems.length = true → (r.scales = [] ∨ spoolOk sc 2 r.scales.length = true) → s.clean →
        ∃ t, exec (.cvt n) s = .next t ∧ (t.arr n).pc = (a.past s.time).pc
          ∧ (∀ x, t.byte x =
              if spoolBase n + sc ≤ x ∧ x < spoolBase n + sc + r.scales.length
                then r.scales.getD (x - (spoolBase n + sc)) 0
              else if spoolBase n + el ≤ x ∧ x < spoolBase n + el + r.elems.length
                then r.elems.getD (x - (spoolBase n + el)) 0
              else s.byte x)
          ∧ (∀ m, m ≠ n → t.arr m = s.arr m)) ∧
      (spoolOk el 8 r.elems.length = false → Changes (exec (.cvt n) s) s n (a.faulted s.time 0x05 cls el) u)) ∧
    (∀ vd fmt reg off, s.Issues n (.load vd fmt reg off) →
      let w := fmtWidth fmt
      let addr := a.a reg + off
      let bs := s.load (spoolBase n + addr) (8 * w)
      let el : Nat → Nat := fun j => if w = 4 then nibbleAt bs j else fieldAt bs (w / 8 * j) (w / 8)
      (spoolOk addr 8 (8 * w) = true → s.badIn (spoolBase n + addr) (8 * w) = none →
        Changes (exec (.load n) s) s n ((a.setV vd ((List.range 64).map fun j => widen fmt (el j))).issued (.load vd fmt reg off) s.time)
          (u.correct (spoolBase n + addr) (8 * w) 6)) ∧
      (spoolOk addr 8 (8 * w) = false → Changes (exec (.load n) s) s n (a.faulted s.time 0x05 cls addr) u)) ∧
    (∀ vd half row g cnt, s.Issues n (.accrd vd half row g cnt) →
      let tag := SMap.look .unwritten a.accTag (half * 128 + row)
      let col : Nat → Word := fun c =>
        let w := SMap.look 0 a.acc ((half * 128 + row) * 256 + c)
        if tag = .int32 then f32OfInt32 w else w
      (tag ≠ .unwritten → Changes (exec (.accrd n) s) s n
        (((List.range cnt).foldl (fun a j =>
          a.setV (vd + j) ((List.range 64).map fun l => col (64 * (g + j) + l))) a).issued (.accrd vd half row g cnt) s.time) u) ∧
      (tag = .unwritten → Changes (exec (.accrd n) s) s n (a.faulted s.time 0x07 cls 0) u))

/-- O16. When array n issues a remote operation whose local range is aligned and inside its spool, exec of its row answers
a next state in which the operation has joined the remote engine's queue with its formed addresses, its length of 1 to
32,768 lines, when it may not go the cause it will fail with, and what the operations still in flight leave open about
it (log entry 67); memory and every other array are unchanged. A bad local range faults SPOOL_RANGE. Rests also on the
model's readings in log entries 4, 14, 32, 67, 69. (R102, R114, R115, R116, R135) -/
def Obligations.RemoteOperationsIssue : Prop :=
  ∀ (n : ArrayNum) (s : State) (o : RmoOps), s.Issues n (.rmo o) →
    let a : ArrayState := { s.arr n with committed := true }
    let u := s.atIssue n
    let cls := s.fetch n (s.arr n).pc % 16
    let loc := a.a o.locReg + o.locOff
    let remote := (o.remote + a.a o.remReg) % 2 ^ 48
    let op : RmoOp := {
      pc := a.pc, kind := o.kind, fp := o.fmt == 1, loc := loc, remote := remote, lines := o.lines, knot := o.knot
      failed := u.rmoCause n o.kind remote (64 * o.lines) o.knot
      early := if a.rmoQ.isEmpty then []
        else u.remoteLoad (if o.kind = .get then remote else spoolBase n + loc) (64 * o.lines)
      under := a.rmoQ.filterMap fun q => u.overlapOf n q
      issuedAt := s.time }
    let row : Instr := match o.kind with
      | .put => .put n
      | .get => .get n
      | .putSignal => .putWithKnotSignal n
      | .atomicAdd => .atomicAdd n
    (loc % 64 = 0 ∧ loc + 64 * o.lines ≤ 0x800000 →
      Changes (exec row s) s n (({ a with rmoQ := a.rmoQ ++ [op] } : ArrayState).past s.time) u) ∧
    (¬ (loc % 64 = 0 ∧ loc + 64 * o.lines ≤ 0x800000) → Changes (exec row s) s n (a.faulted s.time 0x05 cls loc) u)

/-- O17. For the oldest remote operation of a running array: exec of rmoComplete answers a next state in which the
operation has left the queue and no byte of memory outside the lines it writes has changed. When no word is
uncorrectable and no other operation was in flight with it that could change its lines: a put to the module stores its
local bytes at the target; a put with knot signal to the module also adds 1 to the signalled knot; a get from the
module stores the target's bytes in the local spool; an atomic add stores the element sums at the target. A failed
operation raises rmo_error, and a failed get leaves zeros. A put through a window whose port has gone down raises
rmo_error and stores nothing. A get through a window whose read reaches its timeout stores what was returned and zeros
beyond it, and is an error (completionTimeout). What lines that other operations in flight touch hold is left open
within R124 and R125 (log entry 67). Rests also on the model's readings in log entries 19, 32, 38, 67, 74. (R114,
R118, R123, R124, R125, R126, R130, R136, R140) -/
def Obligations.RemoteOperationsComplete : Prop :=
  ∀ (n : ArrayNum) (s : State) (op : RmoOp) (rest : List RmoOp) (hw : HostStores),
    s.canon → s.unitsRun n = true → (s.arr n).rmoQ = op :: rest →
    let len := 64 * op.lines
    let src := s.load (spoolBase n + op.loc) len
    let inside : Nat → Nat → Bool := fun a x => decide (a ≤ x) && decide (x < a + len)
    let goes : Instr → (State → Prop) → Prop := fun c p => ∃ t, exec c s = .next t ∧ (t.arr n).rmoQ = rest ∧ p t
    let alone := op.early = [] ∧ op.under = [] ∧
      ∀ q ∈ rest, q.failed.isSome = true ∨ op.src n + len ≤ q.dst n ∨ q.dst n + 64 * q.lines ≤ op.src n
    (∀ link, goes (.rmoComplete n hw link) fun t => ∀ x, inside (op.dst n) x = false → t.byte x = s.byte x) ∧
    (s.clean → alone → op.failed = none → (∀ w off, regionOf op.remote ≠ .window w off) →
      (op.kind = .put → goes (.rmoComplete n hw .ok) fun t =>
        ∀ x, inside op.remote x = true → t.byte x = src.getD (x - op.remote) 0) ∧
      (op.kind = .putSignal → ∀ m : ArrayNum, m.val = op.knot / 2048 → goes (.rmoComplete n hw .ok) fun t =>
        (∀ x, inside op.remote x = true → t.byte x = src.getD (x - op.remote) 0) ∧
        (t.arr m).knots = SMap.put 0 (s.arr m).knots (op.knot % 2048) (s.knot m op.knot + 1)) ∧
      (op.kind = .get → goes (.rmoComplete n hw .ok) fun t =>
        ∀ x, inside (spoolBase n + op.loc) x = true →
          t.byte x = (s.load op.remote len).getD (x - (spoolBase n + op.loc)) 0) ∧
      (op.kind = .atomicAdd → goes (.rmoComplete n hw .ok) fun t =>
        ∀ x, inside op.remote x = true →
          t.byte x = (atomicSums op.fp (s.load op.remote len) src).getD (x - op.remote) 0)) ∧
    (s.clean → ∀ c, op.failed = some c → goes (.rmoComplete n hw .ok) fun t =>
      t.get (F.kntStatusRmoError n) = 1 ∧
      (∀ x, t.byte x = if op.kind = .get ∧ inside (spoolBase n + op.loc) x = true then 0 else s.byte x)) ∧
    (∀ w off, s.clean → op.failed = none → op.kind = .put ∨ op.kind = .putSignal → regionOf op.remote = .window w off →
      s.flag (F.pciLinkUp (s.windowPort w)) = false → ∀ link, goes (.rmoComplete n hw link) fun t =>
        t.get (F.kntStatusRmoError n) = 1 ∧ t.pcieMem = (s.hostStores hw).pcieMem ∧ ∀ x, t.byte x = s.byte x) ∧
    (∀ w off k, s.clean → alone → op.failed = none → op.kind = .get → regionOf op.remote = .window w off → k ≤ op.lines →
      let v := s.hostStores hw
      let got := v.pcieLoad (s.windowPort w) (s.get (F.pciWinBaseBase w) * 4096 + off) (64 * k)
      goes (.completionTimeout n hw k) fun t =>
        t.get (F.kntStatusRmoError n) = 1 ∧
        (∀ x, inside (spoolBase n + op.loc) x = true → t.byte x = got.getD (x - (spoolBase n + op.loc)) 0) ∧
        (∀ x, inside (spoolBase n + op.loc) x = false → t.byte x = s.byte x))

/-- O18. When array n issues a row-statistics instruction, exec of its row answers a next state: rs_init gives each row of
its range m = minus infinity, l = 0, corr = 0; rs_max takes the maximum into m, leaves 0 for corr of a first row and
exp2(m - m') else, and writes the new m (0 for minus infinity) and corr to vd and vd + 1; rs_sum folds lane 0 of va
into l with one rounding; rs_load and rs_store move m and l from and to lanes 0 and 1; rs_final of a row whose l is 0
writes 0 and minus infinity with mask 3 clear and counts a masked row, and of a row that holds NaN writes NaN, raises
rs_nan and reports it. No other array, and nothing in memory, changes. Rests also on the model's readings in log
entries 4, 15, 20. (R191, R192, R193, R202) -/
def Obligations.RowStatistics : Prop :=
  ∀ (n : ArrayNum) (s : State),
    let a : ArrayState := { s.arr n with committed := true }
    let u := s.atIssue n
    (∀ row cnt, s.Issues n (.rsInit row cnt) → Changes (exec (.rsInit n) s) s n
      (((List.range cnt).foldl (fun a j => a.setRs (row + j) 0xFF800000#32 0 0) a).issued (.rsInit row cnt) s.time) u) ∧
    (∀ vd va row, s.Issues n (.rsMax vd va row) →
      let m := a.rsM row
      let m' := (f32Max m (a.lane va 0)).bits
      let e := f32Exp2 (f32Sub m m').bits
      let corr := if m = 0xFF800000#32 then 0#32 else e.bits
      let flag := m ≠ 0xFF800000#32 ∧ ((f32Sub m m').overflow = true ∨ e.overflow = true)
      (flag → Changes (exec (.rsMax n) s) s n
        ((((a.setRs row m' (a.rsL row) corr).setV vd (List.replicate 64 (if m' = 0xFF800000#32 then 0#32 else m'))).setV
          (vd + 1) (List.replicate 64 corr)).issued (.rsMax vd va row) s.time) (u.raiseBit (F.arrArithStatFp32Overflow n))) ∧
      (¬ flag → Changes (exec (.rsMax n) s) s n
        ((((a.setRs row m' (a.rsL row) corr).setV vd (List.replicate 64 (if m' = 0xFF800000#32 then 0#32 else m'))).setV
          (vd + 1) (List.replicate 64 corr)).issued (.rsMax vd va row) s.time) u)) ∧
    (∀ va row, s.Issues n (.rsSum va row) →
      let l := f32Fma (a.rsL row) (a.rsCorr row) (a.lane va 0)
      Changes (exec (.rsSum n) s) s n ((a.setRs row (a.rsM row) l.bits (a.rsCorr row)).issued (.rsSum va row) s.time)
        (if l.overflow then u.raiseBit (F.arrArithStatFp32Overflow n) else u)) ∧
    (∀ vd row, s.Issues n (.rsFinal vd row) →
      let m := a.rsM row
      let l := a.rsL row
      let out : Word → Word → DWord → ArrayState := fun x y k =>
        (((a.setV vd (List.replicate 64 x)).setV (vd + 1) (List.replicate 64 y)).setM 3 k).issued (.rsFinal vd row) s.time
      (f32IsNaN m = true ∨ f32IsNaN l = true → Changes (exec (.rsFinal n) s) s n
        (out 0x7FC00000#32 0x7FC00000#32 0xFFFFFFFFFFFFFFFF#64) ((u.raiseBit (F.attStatusRsNan n)).report {
          source := n.val, cls := 0x05, severity := 0, part := s.partOf n, affected := affectedBy (s.partOf n) })) ∧
      (f32IsNaN m = false → f32IsNaN l = false → (f32 l).eqv (.fin false 0 0) = true → Changes (exec (.rsFinal n) s) s n
        (out 0 0xFF800000#32 0) (u.bump (F.attMaskedRowsRows n))) ∧
      (f32IsNaN m = false → f32IsNaN l = false → (f32 l).eqv (.fin false 0 0) = false →
        let g := f32Log2 l
        let t := f32Add m g.bits
        let w := f32Mul t.bits 0x3F317218#32
        Changes (exec (.rsFinal n) s) s n (out (f32Recip l).bits w.bits 0xFFFFFFFFFFFFFFFF#64)
          (if (f32Recip l).overflow || g.overflow || t.overflow || w.overflow
            then u.raiseBit (F.arrArithStatFp32Overflow n) else u))) ∧
    (∀ va row, s.Issues n (.rsLoad va row) → Changes (exec (.rsLoad n) s) s n
      ((a.setRs row (a.lane va 0) (a.lane va 1) 0).issued (.rsLoad va row) s.time) u) ∧
    (∀ vd row, s.Issues n (.rsStore vd row) → Changes (exec (.rsStore n) s) s n
      ((a.setV vd (a.rsM row :: a.rsL row :: List.replicate 62 0)).issued (.rsStore vd row) s.time) u)

/-- O19. When array n issues pstage on an existing plane with a good page list and frame units its partition may stage
from, exec answers a next state in which one staging of the block has joined the stager's queue for pair 3 (int8) or 5
(int4). When it issues pclose with good places and no uncorrectable word anywhere, the destination range holds the
closed page's frame unit and no other byte of memory changes. Frame bases and sizes that make a unit lie outside the
vault fault VAULT_RANGE. Rests also on the model's readings in log entries 4, 14, 15, 69. (R191, R192, R194, R196,
R170) -/
def Obligations.PagesStageAndClose : Prop :=
  ∀ (n : ArrayNum) (s : State), s.canon →
    let a : ArrayState := { s.arr n with committed := true }
    let u := s.atIssue n
    let cls := s.fetch n (s.arr n).pc % 16
    (∀ o : PstageOps, s.Issues n (.pstage o) →
      let pair : Fin 11 := if o.int4 then 5 else 3
      let addr := a.a o.listReg + o.listOff
      let v := u.correct (spoolBase n + addr) (4 * o.pages) 6
      let list := s.load (spoolBase n + addr) (4 * o.pages)
      (o.plane < (pairInfo pair).planes → spoolOk addr 4 (4 * o.pages) = true →
        s.badIn (spoolBase n + addr) (4 * o.pages) = none → ∀ us, v.pageUnits n o list = .ok us →
        ∃ t, exec (.pstage n) s = .next t
          ∧ (t.arr n).stgQ = a.stgQ ++ [⟨a.pc, 7, pair, half2 o.bank, o.plane, [.pages ⟨o.isV, o.int4, us, o.d, o.khalf⟩]⟩]
          ∧ (t.arr n).pc = (a.past s.time).pc ∧ t.mem = s.mem ∧ (∀ m, m ≠ n → t.arr m = s.arr m)) ∧
      (o.plane < (pairInfo pair).planes → spoolOk addr 4 (4 * o.pages) = true →
        s.badIn (spoolBase n + addr) (4 * o.pages) = none → ∀ off, v.pageUnits n o list = .error off →
        Changes (exec (.pstage n) s) s n (a.faulted s.time 0x06 cls off) v)) ∧
    (∀ o : PcloseOps, s.Issues n (.pclose o) →
      let src := a.a o.srcReg + o.srcOff
      let dst := a.a o.dstReg + o.dstOff
      let r := closePage o.int4 o.d (s.load (spoolBase n + src) (64 * o.d))
      (spoolOk src 64 (64 * o.d) = true → spoolOk dst 64 (unitBytes o.int4 o.d) = true → s.clean →
        ∃ t, exec (.pclose n) s = .next t ∧ (t.arr n).pc = (a.past s.time).pc ∧ (∀ m, m ≠ n → t.arr m = s.arr m)
          ∧ (∀ x, t.byte x =
              if spoolBase n + dst ≤ x ∧ x < spoolBase n + dst + r.elems.length
                then r.elems.getD (x - (spoolBase n + dst)) 0 else s.byte x)) ∧
      (spoolOk src 64 (64 * o.d) = false → Changes (exec (.pclose n) s) s n (a.faulted s.time 0x05 cls src) u))

/-- O20. When array n issues a transform-unit instruction on good maps, places and accumulator rows, and no memory word is
in error, exec of its row answers a next state. wxout writes its transformed tile to vector registers; wxin, pool and
argmax write exactly their pieces (skeins and scales, converted fragments, pooled lanes, or indices) to the spool,
every byte outside them is as before, and only the array's flags and counters change. A descriptor without a pixel
stride, or one that does not serve the channels, faults ILLEGAL_INSTRUCTION. Rests also on the model's readings in log
entries 4, 15, 16, 69. (R222, R223, R225, R226, R228, R231, R234) -/
def Obligations.TransformsAndPooling : Prop :=
  ∀ (n : ArrayNum) (s : State), s.clean → s.ce = [] →
    let u := s.atIssue n
    let a : ArrayState := { s.arr n with committed := true }
    let cls := s.fetch n (s.arr n).pc % 16
    let pixel : MapDesc → Nat → Nat → Int × Int → Option (List Byte) := fun m c len p =>
      if m.inside p.1 p.2 then some (s.load (spoolBase n + m.addr p.1.toNat p.2.toNat c) len) else none
    let readable : MapDesc → Nat → Nat → List (Int × Int) → Prop := fun m c len ps =>
      ∀ p ∈ ps, m.inside p.1 p.2 = true → m.addr p.1.toNat p.2.toNat c + len ≤ spoolSize
    (∀ o : WxinOps, s.Issues n (.wxin o) →
      let m := u.mapDesc n o.map
      let e := mapElem o.fmt
      let nn := if o.fmt = 0 then 4 else 6
      let el := a.a o.dstReg + o.dstOff
      let sc := a.a o.scReg + o.scOff
      let org := a.a o.orgReg
      let ps := patch (BitVec.ofNat 16 org).toInt (BitVec.ofNat 16 (org / 65536)).toInt nn nn
      let px := ps.map (pixel m (64 * o.cgrp * e) (64 * e))
      (m.serves ((64 * o.cgrp + 64) * e) = false → Changes (exec (.wxin n) s) s n (a.faulted s.time 1 cls 0) u) ∧
      (m.serves ((64 * o.cgrp + 64) * e) = true → readable m (64 * o.cgrp * e) (64 * e) ps →
        (∀ p < nn * nn, spoolOk (el + p * o.posStride * 64) 64 (64 * e) = true) →
        (o.fmt = 0 → (∀ p < 16, spoolOk (sc + p * o.scStride * 32) 4 4 = true) →
          let vs := (List.range 64).map fun c => (transform 0 (· * ·) (· + ·) bt2
            ((patchMatrix 0 4 c px).map fun r => r.map fun b => (BitVec.ofNat 8 b).toInt)).flatten
          let lo : Nat → List Nat × Nat := fun p => int8Skein ((vs.map fun v => v.getD p 0).take 32)
          let hi : Nat → List Nat × Nat := fun p => int8Skein ((vs.map fun v => v.getD p 0).drop 32)
          let coarse := ((List.range 16).map fun p =>
            (if (lo p).2 = 1 then 0 else 1) + (if (hi p).2 = 1 then 0 else 1)).sum
          Wrote (exec (.wxin n) s) s n (.wxin o)
            ((List.range 16).flatMap fun p =>
              [(el + p * o.posStride * 64, ((lo p).1 ++ (hi p).1).map (BitVec.ofNat 8)),
               (sc + p * o.scStride * 32, leBytes 2 (bf16Round (.fin false (lo p).2 0))
                  ++ leBytes 2 (bf16Round (.fin false (hi p).2 0)))])
            (if coarse = 0 then u
              else (u.raiseBit (F.cnvStatusWxCoarse n)).addTo (F.cnvWxCoarseSkeins n) coarse)) ∧
        (o.fmt ≠ 0 →
          let vs := (List.range 64).map fun c => (transform 0 bf16MulBy bf16Add bt4
            ((patchMatrix o.fmt 6 c px).map fun r => r.map (widenBf16 o.fmt))).flatten
          let conv := vs.map fun v => v.map fun b =>
            convPlain (if o.fmt = 3 then 1 else o.fmt + 1) (u.fp8Sat n) .rne (f32OfVal (fmtBf16.decode b)).bits
          Wrote (exec (.wxin n) s) s n (.wxin o)
            ((List.range 36).map fun p =>
              (el + p * o.posStride * 64, conv.flatMap fun v => leBytes e (v.getD p { bits := 0 }).bits))
            ((u.noteConvSat n (conv.flatten.filter (·.sat)).length).noteNan n (conv.flatten.filter (·.nanOut)).length)))) ∧
    (∀ o : WxoutOps, s.Issues n (.wxout o) →
      let nn := if o.f4 then 6 else 4
      let mat := if o.f4 then at4 else at2
      let good := ∀ p < nn * nn, o.row + p * o.posRows ≤ 127
        ∧ SMap.look .unwritten a.accTag (o.half * 128 + (o.row + p * o.posRows)) = .fp32
      let tile : Nat → List FRes := fun l => (outputTransform mat ((List.range nn).map fun y =>
        (List.range nn).map fun x => (⟨SMap.look 0 a.acc
          ((o.half * 128 + (o.row + (y * nn + x) * o.posRows)) * 256 + (64 * o.g + l)), false⟩ : FRes))).flatten
      (good → Changes (exec (.wxout n) s) s n
        (((List.range (mat.length * mat.length)).foldl (fun a q =>
          a.setV (o.vd + q) ((List.range 64).map fun l => ((tile l).getD q ⟨0, false⟩).bits)) a).issued (.wxout o) s.time)
        (u.noteOverflow n ((List.range 64).any fun l => (tile l).any (·.overflow)))) ∧
      (¬ good → Changes (exec (.wxout n) s) s n (a.faulted s.time 7 cls 0) u)) ∧
    (∀ o : PoolOps, s.Issues n (.pool o) →
      let src := u.mapDesc n o.src
      let dst := u.mapDesc n o.dst
      let e := mapElem o.fmt
      let c := 64 * o.cgrp * e
      let oy := a.a o.orgReg % 65536
      let ox := a.a o.orgReg / 65536
      let window : Nat → List (Int × Int) := fun j =>
        patch ((oy : Int) * o.sh - o.padT) (((ox + j : Nat) : Int) * o.sw - o.padL) o.kh o.kw
      ((src.serves (c + 64 * e) = false ∨ dst.serves (c + 64 * e) = false) →
        Changes (exec (.pool n) s) s n (a.faulted s.time 1 cls 0) u) ∧
      (src.serves (c + 64 * e) = true → dst.serves (c + 64 * e) = true →
      (∀ j < o.count, dst.inside oy ((ox + j : Nat) : Int) = true ∧ dst.addr oy (ox + j) c + 64 * e ≤ spoolSize) →
      readable src c (64 * e) ((List.range o.count).flatMap window) →
      let out : Nat → List Conv := fun j =>
        let ins := (window j).filterMap (pixel src c (64 * e))
        (List.range 64).map fun ch => poolValue o.average o.fmt (if o.avgPad then o.kh * o.kw else ins.length)
          (u.fp8Sat n) (ins.map fun bs => fieldAt bs (ch * e) e)
      let all := (List.range o.count).flatMap out
      let empty := ((List.range o.count).filter fun j => ((window j).filterMap (pixel src c (64 * e))).isEmpty).length
      let v := (u.noteConvSat n (all.filter (·.sat)).length).noteNan n (all.filter (·.nanOut)).length
      let v := v.noteOverflow n ((List.range o.count).any fun j => (List.range 64).any fun ch =>
        poolOverflow o.average o.fmt (((window j).filterMap (pixel src c (64 * e))).map fun bs => fieldAt bs (ch * e) e))
      Wrote (exec (.pool n) s) s n (.pool o)
        ((List.range o.count).map fun j => (dst.addr oy (ox + j) c, (out j).flatMap fun v => leBytes e v.bits))
        (if empty = 0 then v else (v.raiseBit (F.cnvStatusPoolEmpty n)).addTo (F.cnvPoolEmptyWindows n) empty))) ∧
    (∀ o : ArgmaxOps, s.Issues n (.argmax o) →
      let src := u.mapDesc n o.src
      let dst := u.mapDesc n o.dst
      let e := mapElem o.fmt
      let ow := if o.wide then 2 else 1
      let y := a.a o.orgReg % 65536
      let x := a.a o.orgReg / 65536
      let at_ := dst.base + y * dst.ln * 64 + x * ow
      let ps := (List.range o.count).map fun j => ((y : Int), ((x + j : Nat) : Int))
      ((src.serves (o.channels * e) = false ∨ dst.px = 0) →
        Changes (exec (.argmax n) s) s n (a.faulted s.time 1 cls 0) u) ∧
      (src.serves (o.channels * e) = true → dst.px ≠ 0 → at_ + o.count * ow ≤ spoolSize →
      (∀ p ∈ ps, src.inside p.1 p.2 = true ∧ dst.inside p.1 p.2 = true) → readable src 0 (o.channels * e) ps →
      let idx := ps.map fun p => argmaxOf ((List.range o.channels).map fun ch =>
        mapVal o.fmt (fieldAt ((pixel src 0 (o.channels * e) p).getD []) (ch * e) e))
      let nans := (idx.filter (·.isNone)).length
      Wrote (exec (.argmax n) s) s n (.argmax o) [(at_, idx.flatMap fun v => leBytes ow (v.getD (256 ^ ow - 1)))]
        (if nans = 0 then u else (u.raiseBit (F.cnvStatusArgmaxNan n)).addTo (F.cnvArgmaxNanPixels n) nans)))

/-- O21. A write of 1 to ARR_KERNEL_GO by a requester that may act there starts the array at ARR_KERNEL_ENTRY with its
kernel state as R93 gives it when the array is not busy and not faulted and its memory section has power, and else
only sets go_dropped. Once an array's end has issued and its queues are empty, kernelEnd ends the kernel. Once a fault
is detected and the queues are empty, arrayFault records code, class and address, sets fault, leaves ARR_PC at the
fault and reports it. restageDone of a running array whose planes' sources may be read keeps every plane valid and
ends the restaging. A KERNEL_RUN that waited for the array alone completes OK with its faulted map. Rests also on the
model's readings in log entries 31, 32. (R89, R93, R107, R109, R341) -/
def Obligations.KernelStartAndEnd : Prop :=
  ∀ (n : ArrayNum) (s : State),
    (∀ q v, s.mayAct q n → v.getLsbD 0 = true →
      (s.busy n = false → s.flag (F.arrStatusFault n) = false →
        Changes (exec (.arrKernelGo q n v) s) s n ((s.arr n).startKernel (s.get (F.arrKernelEntryEntry n))) s) ∧
      (s.busy n = true ∨ s.flag (F.arrStatusFault n) = true →
        Changes (exec (.arrKernelGo q n v) s) s n (s.arr n) (s.raiseBit (F.arrStatusGoDropped n)))) ∧
    ((s.arr n).ending = true → (s.arr n).quiet = true → s.unitsRun n = true → s.calm →
      Changes (exec (.kernelEnd n) s) s n { s.arr n with kernel := false, ending := false } s) ∧
    (∀ f, (s.arr n).pend = some f → (s.arr n).quiet = true → s.calm → s.canon →
      ∃ t, exec (.arrayFault n) s = .next t
        ∧ t.arr n = { s.arr n with kernel := false, ending := false, pend := none, pc := f.pc, kwait := none }
        ∧ (∀ m, m ≠ n → t.arr m = s.arr m)
        ∧ t = { s with arrays := t.arrays, regs := t.regs, events := t.events, board := t.board }
        ∧ t.get (F.arrFaultInfoCode n) = f.code % 256 ∧ t.get (F.arrFaultInfoClass n) = f.cls % 16
        ∧ t.get (F.arrFaultAddrAddr n) = f.addr % 2 ^ 48 ∧ t.flag (F.arrStatusFault n) = true
        ∧ ((s.events.entries.filter fun e => e.body.source == n.val && e.queued).length < 31 →
            ∃ e ∈ t.events.entries, e.body.source = n.val ∧ e.body.cls = 2 ∧ e.body.inst = n.val)) ∧
    ((s.arr n).restaging = true → (s.arr n).power = .running → s.clean →
      (∀ k src pair, k < 128 → SMap.look none (s.arr n).planes k = some src →
        (s.arr n).bankPair[(half2 (k / 64)).val] = some pair → s.sourceDenied n pair src = none) →
      ∃ t, exec (.restageDone n) s = .next t ∧ (t.arr n).restaging = false
        ∧ (∀ k, SMap.look none (t.arr n).planes k = SMap.look none (s.arr n).planes k)
        ∧ (t.arr n).pc = (s.arr n).pc ∧ (t.arr n).pend = (s.arr n).pend ∧ t.mem = s.mem
        ∧ (∀ m, m ≠ n → t.arr m = s.arr m)) ∧
    (∀ (m : Cmd) (faulted : DWord), s.spn.cmds = [m] → m.wait = .kernels (BitVec.ofNat 64 (2 ^ n.val)) faulted →
      (∀ p, (s.part p).todo = []) → (s.arr n).ending = true → (s.arr n).quiet = true → s.unitsRun n = true →
      Completes (exec (.kernelEnd n) s) (s.modArr n fun a => { a with kernel := false, ending := false }) m.ref stOk
        (leBytes 8 faulted.toNat))

/-- O22. A write of KNT_SIGNAL adds its increment to the named knot modulo 2^32, busy or not. A write of KNT_VALUE_i on an
array that is not busy sets the knot, and increments that arrive in the same cycle then add to the value written; on a
busy array the write is dropped with cfg_write_busy and only the increments count. Nothing else changes but the event
records. Both cross a gate when Spindle makes them: they take effect for a half that holds the gate claim, and a
KNT_SIGNAL of a half with a lower claim is rejected and nothing of it is written. (R129, R130, R133, R134, R361) -/
def Obligations.KnotsSignalledAndWritten : Prop :=
  ∀ (q : Requester) (n : ArrayNum) (s : State), s.mayAct q n →
    (∀ v : Word, q = .spindle → s.twn.powered[(halfIx s.spindleHalf).val] = true →
      s.twn.stopped[(halfIx s.spindleHalf).val] = false → s.claim s.spindleHalf < s.get F.twnGateClaimClaim →
      exec (.kntSignal q n v) s = .next (s.gateReject s.spindleHalf (s.claim s.spindleHalf) 4)) ∧
    (s.passes q → ∀ v : Word,
      let k := bitsAt v.toNat 0 11
      let w := s.knot n k + BitVec.ofNat 32 (bitsAt v.toNat 16 16)
      Changes (exec (.kntSignal q n v) s) s n { s.arr n with knots := SMap.put 0 (s.arr n).knots k w } s) ∧
    (s.passes q → ∀ (i : Fin 2048) (v : Word) (incs : List (BitVec 16)),
      let total : Word := incs.foldl (fun (x : Word) (i : BitVec 16) => x + BitVec.ofNat 32 i.toNat) 0
      (s.busy n = false →
        Changes (exec (.kntValueWrite q n i v incs) s) s n
          { s.arr n with knots := SMap.put 0 (s.arr n).knots i.val (v + total) } s) ∧
      (s.busy n = true →
        Changes (exec (.kntValueWrite q n i v incs) s) s n
          { s.arr n with knots := SMap.put 0 (s.arr n).knots i.val (s.knot n i.val + total) }
          ((s.raiseBit (F.arrStatusCfgWriteBusy n)).cfgWriteBusy n.val 0 (s.partOf n))))

/-- O23. VLT_CLEAR_GO by Spindle, the reel or Hawkmoth on an array that is not clearing, with 1 to 384 granules in range,
holds a clear of VLT_CLEAR_FIRST and VLT_CLEAR_COUNT; a bad range, or one while a clear is held or running, only sets
clear_rejected; a host or peer write is denied and counted in COC_NS_DROP. A held clear starts once no kernel,
restaging, scrub or moult test uses the array and every accepted access to its granules has completed. When it is done
the bytes of its granules read 0 and all others as before, its error words are gone, each cleared tag has left
Clearing, clear_done is 1 and the array holds no clear. Rests also on the model's readings in log entry 32. (R156,
R158, R160, R383) -/
def Obligations.VaultClears : Prop :=
  ∀ (n : ArrayNum) (s : State),
    (∀ q v, nonSecure q = false → s.powered n = true → v.getLsbD 0 = true →
      let first := s.get (F.vltClearFirstFirst n)
      let count := s.get (F.vltClearCountCount n)
      ((s.arr n).clear = .none → 0 < count → first + count ≤ 384 →
        Changes (exec (.vltClearGo q n v) s) s n { s.arr n with clear := .held first count } s) ∧
      ((s.arr n).clear ≠ .none ∨ count = 0 ∨ 384 < first + count →
        Changes (exec (.vltClearGo q n v) s) s n (s.arr n) (s.raiseBit (F.vltStatusClearRejected n)))) ∧
    (∀ q v, nonSecure q = true → (portOf q).all (fun p => s.portLive p) = true → s.powered n = true →
      Changes (exec (.vltClearGo q n v) s) s n (s.arr n) (s.bump F.cocNsDropDenied)) ∧
    (∀ first count, (s.arr n).clear = .held first count →
      (s.arr n).kernel = false → (s.arr n).restaging = false → (s.arr n).scrubbing = false → (s.arr n).test = .none →
      s.accessPending (vaultBase n + first * 0x400000) (count * 0x400000) = false →
      Changes (exec (.vaultClearStart n) s) s n { s.arr n with clear := .running first count } s) ∧
    (∀ first count, (s.arr n).clear = .running first count →
      (s.arr n).kernel = false → (s.arr n).restaging = false → (s.arr n).scrubbing = false → (s.arr n).test = .none → s.calm → s.canon →
      ∃ t, exec (.vaultClearDone n) s = .next t
        ∧ (∀ x, t.byte x = if vaultBase n + first * 0x400000 ≤ x ∧ x < vaultBase n + (first + count) * 0x400000 then 0
            else s.byte x)
        ∧ (∀ w, w ∈ t.ue ↔ w ∈ s.ue ∧ ¬ (vaultBase n + first * 0x400000 ≤ w ∧ w < vaultBase n + (first + count) * 0x400000))
        ∧ (∀ g, t.vtag n g = if first ≤ g ∧ g < first + count then clearedTag (s.vtag n g) else s.vtag n g)
        ∧ t.flag (F.vltStatusClearDone n) = true
        ∧ t.arr n = { s.arr n with clear := .none, vtags := (t.arr n).vtags }
        ∧ (∀ m, m ≠ n → t.arr m = s.arr m)
        ∧ t = { s with mem := t.mem, tline := t.tline, ue := t.ue, ce := t.ce, arrays := t.arrays, regs := t.regs })

/-- O24. TIER_CLEAR_GO by Spindle, the reel or Hawkmoth queues what its registers say while fewer than 16 are queued and
the range and slot exist, and else only sets clear_rejected. The oldest queued clear starts once every accepted access
to its granules has completed, and with rekey first loads a fresh key into its slot, or none when the entropy source
fails, which sets entropy_fail. When it is done its granules' bytes read 0 and all others as before, their tags have
left Clearing and clear_done is 1. A patrol pass of an enabled patrol leaves no corrected error word in its range,
leaves every uncorrectable one, changes no byte, and notes the pass's time; a patrol that is off does nothing. Rests
also on the model's readings in log entries 32, 33. (R153, R156, R159, R161, R404) -/
def Obligations.TierClearsAndPatrol : Prop :=
  ∀ s : State,
    (∀ q v, nonSecure q = false → v.getLsbD 0 = true →
      let first := s.get F.tierClearFirstFirst
      let count := s.get F.tierClearCountCount
      let slot := s.get F.tierClearCountSlot
      (s.tierClears.length < 16 → 0 < count → first + count ≤ 65536 → slot ≤ 8 →
        exec (.tierClearGo q v) s = .next { s with tierClears := s.tierClears ++ [{ first := first, count := count, rekey := s.flag F.tierClearCountRekey, slot := slot, started := false }] }) ∧
      (¬ (s.tierClears.length < 16 ∧ 0 < count ∧ first + count ≤ 65536 ∧ slot ≤ 8) →
        exec (.tierClearGo q v) s = .next (s.raiseBit F.tierStatusClearRejected))) ∧
    (∀ (c : TierClear) (l : List TierClear), s.tierClears = c :: l → c.started = false → s.canon →
      s.accessPending (tierBase + c.first * 0x400000) (c.count * 0x400000) = false →
      (∀ ok, c.rekey = false → exec (.tierClearStart ok) s = .next { s with tierClears := { c with started := true } :: l }) ∧
      (c.rekey = true → ∃ t, exec (.tierClearStart true) s = .next t
        ∧ t.tierClears = { c with started := true } :: l
        ∧ t.coc.draws = s.coc.draws + 1 ∧ (c.slot ≤ 8 → t.bit F.tierKeyStatLoaded c.slot = true)
        ∧ t = { s with tierClears := t.tierClears, coc := { s.coc with keys := t.coc.keys, draws := t.coc.draws }, regs := t.regs }) ∧
      (c.rekey = true → ∃ t, exec (.tierClearStart false) s = .next t
        ∧ t.tierClears = { c with started := true } :: l ∧ t.flag F.cocStatusEntropyFail = true
        ∧ t.coc.draws = s.coc.draws ∧ (c.slot ≤ 8 → t.bit F.tierKeyStatLoaded c.slot = false)
        ∧ t.mem = s.mem ∧ t.arrays = s.arrays)) ∧
    (∀ (c : TierClear) (l : List TierClear), s.tierClears = c :: l → c.started = true → s.calm → s.canon →
      ∃ t, exec .tierClearDone s = .next t ∧ t.tierClears = l ∧ t.flag F.tierStatusClearDone = true
        ∧ (∀ x, t.byte x = if tierBase + c.first * 0x400000 ≤ x ∧ x < tierBase + (c.first + c.count) * 0x400000 then 0
            else s.byte x)
        ∧ (∀ g, t.ttag g = if c.first ≤ g ∧ g < c.first + c.count then clearedTag (s.ttag g) else s.ttag g)
        ∧ t = { s with tierClears := l, mem := t.mem, tline := t.tline, ue := t.ue, ce := t.ce, tierTags := t.tierTags, regs := t.regs }) ∧
    (∀ pt : PatrolTarget,
      let on := match pt with
        | .vault n => s.flag (F.vltPatrolCtlEnable n) && s.usable n
        | .tier => s.flag F.tierPatrolCtlEnable && s.flag F.tierStatusReady
      let base := match pt with
        | .vault n => vaultBase n
        | .tier => tierBase
      let size := match pt with
        | .vault _ => vaultSize
        | .tier => tierSize
      (on = false → exec (.patrolScrubPass pt) s = .next s) ∧
      (on = true → ∃ t, exec (.patrolScrubPass pt) s = .next t
        ∧ t.ce = s.ce.filter (fun w => !wordMeets base size w) ∧ t.ue = s.ue ∧ t.mem = s.mem
        ∧ t = { s with
            ce := t.ce, regs := t.regs, events := t.events, board := t.board, linkErr := t.linkErr, patrolAt := t.patrolAt }))

/-- O25. For a write of a whole aligned word by one of the module's own blocks to a register without write-only fields in
a window's lower half: an RW field takes its bits, an RWL field takes them unless its block is busy, a W1C field
clears the bits written 1, an RO field stays, and an RWS field's active copy stays while its shadow copy takes the
bits. Without a dropped RWL field every other register word reads as before and nothing but registers changes (and the
time a patrol just enabled begins its pass). A write to the upper half changes only shadow copies of RWS fields. A
write of Spindle's that crosses a gate is stated for a half that the gate lets pass (R361). Rests also on the model's
readings in log entries 23, 25. (R12, R13, R16) -/
def Obligations.RegisterFieldsFollowTheirClasses : Prop :=
  ∀ (q : Requester) (b off : Nat) (v : Word) (h : RegHit) (s : State), s.canon → nonSecure q = false → b < 0x100 →
    off < 0x80000 → off % 4 = 0 → findReg (windowRegs b) off = some h → h.row.wide = false → s.windowDead b = false →
    s.msixAt b off = none → absentReg b off = false → ¬ (b < 64 ∧ 0x4000 ≤ off ∧ off < 0x6000) →
    (∀ f ∈ h.row.fields, f.access ≠ .wo) → ¬ (b = 0x40 ∧ off % 0x80 = 0) →
    let k := b * 0x100000 + off
    let lock := s.locked b off
    let old : FieldDef → Nat := fun f => bitsAt (s.reg k).toNat f.lo f.width
    let new : FieldDef → Nat := fun f => bitsAt v.toNat f.lo f.width
    (s.crosses q b off → ∃ t, exec (.registerWrite q false k 4 v) s = .next t ∧
      (lock = false ∨ (∀ f ∈ h.row.fields, f.access ≠ .rwl) →
        t = { s with regs := t.regs, patrolAt := t.patrolAt } ∧
        (∀ x, x ≠ k → x ≠ k + 0x80000 → t.reg x = s.reg x) ∧
        (∀ f ∈ h.row.fields,
          bitsAt (t.reg k).toNat f.lo f.width = (match f.access with
            | .rw | .rwl => new f
            | .w1c => old f &&& (2 ^ f.width - 1 - new f)
            | _ => old f) ∧
          (f.access = .rws → bitsAt (t.reg (k + 0x80000)).toNat f.lo f.width = new f)))) ∧
    (s.crosses q b (off + 0x80000) → ∃ t, exec (.registerWrite q false (k + 0x80000) 4 v) s = .next t ∧ t = { s with regs := t.regs } ∧
      (∀ x, x ≠ k + 0x80000 → t.reg x = s.reg x) ∧
      (∀ f ∈ h.row.fields, f.access = .rws → bitsAt (t.reg (k + 0x80000)).toNat f.lo f.width = new f))

/-- O26. A sub-word or unaligned access through BAR2 of a port that decodes it, or by the module's own blocks, changes
nothing but an access error's report (cause 7), and a read answers zeros. A write or read of a window without a block,
or of the window, but its ARR_STATUS, of an array that is unusable or has no power, is reported (cause 1), and the
read answers 0. An access through a port that does not decode accesses changes nothing. Rests also on the model's
readings in log entry 24. (R10, R37, R38, R509) -/
def Obligations.BadRegisterAccesses : Prop :=
  ∀ (q : Requester) (b off size : Nat) (v : Word) (s : State), b < 0x100 → off + size ≤ 0x100000 →
    let k := b * 0x100000 + off
    ((portOf q).all (fun p => s.portLive p) = true → (size ≠ 4 ∨ off % 4 ≠ 0) →
      (s.crosses q b off → exec (.registerWrite q false k size v) s = .next (s.regError b off 7)) ∧
      exec (.reg64LatchedRead q false k size) s = .next { s.regError b off 7 with rdata := leBytes size 0 }) ∧
    ((portOf q).all (fun p => s.portLive p) = true → size = 4 → off % 4 = 0 → s.windowDead b = true → ¬ (b < 64 ∧ off = 0) →
      (s.crosses q b off → exec (.registerWrite q false k 4 v) s = .next (s.regError b off 1)) ∧
      exec (.reg64LatchedRead q false k 4) s = .next { s.regError b off 1 with rdata := leBytes 4 0 }) ∧
    (∀ p, portOf q = some p → s.portLive p = false →
      exec (.registerWrite q false k size v) s = .next s ∧ exec (.reg64LatchedRead q false k size) s = .next s)

/-- O27. For a stored 64-bit register of a window: reading its low word answers the low word and fills the read latch with
the high word; reading its high word answers the latch, or the current high word when the latch is empty, and empties
the latch. Writing the low word of a writable field changes no register; writing the high word then brings both words
in and empties the write latch. Rests also on the model's readings in log entry 23. (R11) -/
def Obligations.LatchesKeepWideReadsWhole : Prop :=
  ∀ (q : Requester) (b off : Nat) (h : RegHit) (s : State), s.canon → nonSecure q = false → b < 0x100 → off + 4 < 0x80000 →
    off % 4 = 0 → findReg (windowRegs b) off = some h → h.row.wide = true → h.high = false → s.windowDead b = false →
    s.msixAt b off = none → s.msixAt b (off + 4) = none → absentReg b off = false → absentReg b (off + 4) = false →
    s.liveValue b off = none → findReg (windowRegs b) (off + 4) = some { h with high := true } →
    ¬ (b < 64 ∧ 0x4000 ≤ off ∧ off < 0x6000) → ¬ (b = 0x40 ∧ off % 0x80 = 0) →
    let k := b * 0x100000 + off
    exec (.reg64LatchedRead q false k 4) s = .next { s with latchR := SMap.put none s.latchR k (some (s.reg (k + 4))), rdata := leBytes 4 (s.reg k).toNat } ∧
    exec (.reg64LatchedRead q false (k + 4) 4) s = .next { s with
      latchR := SMap.put none s.latchR k none
      rdata := leBytes 4 ((SMap.look none s.latchR k).getD (s.reg (k + 4))).toNat } ∧
    (∀ f, h.row.fields = [f] → f.access = .rwl → s.locked b off = false →
      s.crosses q b off → s.crosses q b (off + 4) →
      (∀ v, exec (.registerWrite q false k 4 v) s = .next { s with latchW := SMap.put none s.latchW k (some v) }) ∧
      (∀ v, ∃ t, exec (.registerWrite q false (k + 4) 4 v) s = .next t
        ∧ bitsAt (t.reg64 k) f.lo f.width
            = bitsAt (((SMap.look none s.latchW k).getD (s.reg k)).toNat + 2 ^ 32 * v.toNat) f.lo f.width
        ∧ t = { s with regs := t.regs, latchW := SMap.put none s.latchW k none }))

/-- O28. A write of n to SPN_MB_DOORBELL of a pair that answers through the port sets rung to n when enable is 1 and n is
at most 32 past rung and past taken in wrapping order; one equal to rung then changes nothing. Any other doorbell
write changes no count: it sets doorbell_bad and raises an event record. (R325) -/
def Obligations.DoorbellRule : Prop :=
  ∀ (port : Port) (k : PairNum) (n : Word) (ide : Option (Fin 4)) (s : State), s.canon →
    s.portLive port = true → s.pairOn port k = true →
    let ok := s.pairEnabled k = true ∧ (n - s.rung k).toNat ≤ 32 ∧ (n - s.taken k).toNat ≤ 32
    (ok → ∃ t, exec (.spnMbDoorbell port k n ide) s = .next t ∧ t.rung k = n
      ∧ (∀ x, x ≠ (F.spnMbRungRung k).key → t.reg x = s.reg x)
      ∧ t = { s with regs := t.regs, spn := { s.spn with slots := { s.spn.slots with ide := t.spn.slots.ide } } }) ∧
    (ok → n = s.rung k → exec (.spnMbDoorbell port k n ide) s = .next s) ∧
    (¬ ok → ∃ t, exec (.spnMbDoorbell port k n ide) s = .next t ∧ t.rung k = s.rung k ∧ t.taken k = s.taken k
      ∧ t.flag (F.spnMbStatusDoorbellBad k) = true
      ∧ t = (s.raiseBit (F.spnMbStatusDoorbellBad k)).report
          { source := 0x045, cls := 0x06, severity := 2, part := s.pairPart k, affected := affectedBy (s.pairPart k), status := 0, inst := k.val })

/-- O29. A host write to a pair's slots stores its bytes but for those in waiting commands' slots, which stay and raise
CFG_WRITE_BUSY. A write of enable from 0 to 1 on a pair without an outstanding command sets rung, taken, done and both
produced and consumed counts to 0 and enable to 1; while a command is outstanding, enable stays and cfg_write_busy is
set. A consumed count between the last consistent one and the produced count becomes the consistent one; any other
sets ring_bad and leaves it. Rests also on the model's readings in log entries 25, 28. (R324, R328, R330) -/
def Obligations.PairRegistersAndSlots : Prop :=
  ∀ (port : Port) (k : PairNum) (s : State), s.canon → s.portLive port = true → s.pairOn port k = true →
    (∀ (off : Fin 2048) (data : List Byte) (ide : Option (Fin 4)),
      let waits : Nat → Bool := fun o => s.slotWaits k (o / 64)
      ∃ t, exec (.commandSlotWrite port k off data ide) s = .next t ∧
        (∀ x, (∀ i < data.length, off.val + i < 2048 → x ≠ 2048 * k.val + (off.val + i)) →
          SMap.look 0 t.spn.slots.bytes x = SMap.look 0 s.spn.slots.bytes x) ∧
        (∀ i < data.length, off.val + i < 2048 →
          SMap.look 0 t.spn.slots.bytes (2048 * k.val + (off.val + i)) =
            if waits (off.val + i) then SMap.look 0 s.spn.slots.bytes (2048 * k.val + (off.val + i)) else data.getD i 0) ∧
        ((∀ i < data.length, off.val + i < 2048 → waits (off.val + i) = false) →
          t = { s with spn := { s.spn with slots := t.spn.slots } }) ∧
        ((∃ i < data.length, off.val + i < 2048 ∧ waits (off.val + i) = true) →
          t.flag (F.spnMbStatusCfgWriteBusy k) = true)) ∧
    (∀ v : Word, v.getLsbD 0 = true → s.pairEnabled k = false → s.pairBusy k = false →
      ∃ t, exec (.spnMbEnable port k v) s = .next t ∧ t.pairEnabled k = true ∧ t.rung k = 0 ∧ t.taken k = 0
        ∧ t.reg (F.spnMbDoneDone k).key = 0 ∧ t.consumedReg k 0 = 0 ∧ t.consumedReg k 1 = 0
        ∧ t.produced k 0 = 0
        ∧ t.produced k 1 = 0
        ∧ t.get (F.spnMbCtlIrqCmp k) = bitsAt v.toNat 1 1 ∧ t.get (F.spnMbCtlIrqEvt k) = bitsAt v.toNat 2 1
        ∧ t = { s with regs := t.regs, spn := { s.spn with cmpProduced := t.spn.cmpProduced, evtProduced := t.spn.evtProduced, consumed := t.spn.consumed } }) ∧
    (∀ v : Word, s.pairBusy k = true → ∃ t, exec (.spnMbEnable port k v) s = .next t ∧ t.pairEnabled k = s.pairEnabled k
      ∧ t.flag (F.spnMbStatusCfgWriteBusy k) = true ∧ t.spn = s.spn) ∧
    (∀ (r : Fin 2) (v : Word),
      let row : Instr := if r = 0 then .spnMbCmpConsumed port k v else .spnMbEvtConsumed port k v
      let good := (v - s.consumedGood k r).toNat ≤ (s.produced k r - s.consumedGood k r).toNat
      ∃ t, exec row s = .next t ∧ t.consumedReg k r = v ∧
        (good → t.consumedGood k r = v ∧
          t = { s with regs := t.regs, spn := { s.spn with consumed := t.spn.consumed } }) ∧
        (¬ good → t.consumedGood k r = s.consumedGood k r ∧ t.flag (F.spnMbStatusRingBad k) = true ∧ t.spn = s.spn))

/-- O30. When Spindle takes commands and pair k is the source served next, commandTake of pair k adds one command to the
outstanding ones: number taken, with the 64 bytes of slot taken mod 32; without a ledger taken goes up by one at once,
with one the taken entry is owed first. The oldest frame of a management session with fewer than 32 outstanding
commands is taken in the same way. The taken entry carries the command's 64 bytes and is owed under the gate claim.
Slots, memory and arrays do not change. A take when Spindle takes none, or out of its source's turn, changes nothing.
Rests also on the model's readings in log entry 30. (R324, R326, R332, R357) -/
def Obligations.CommandsTakenInOrder : Prop :=
  ∀ s : State,
    (∀ k : PairNum, s.takesCommands = true → s.nextSource = some k.val →
      let j := (s.taken k).toNat % 32
      let m : Cmd := {
        ref := ⟨.pair k, s.taken k⟩, bytes := SMap.slice 0 s.spn.slots.bytes (2048 * k.val + 64 * j) 64, extra := []
        ide := s.slotIde k j, orphan := false, phase := .waiting, wait := .none, comp := none, taken := s.time, started := 0 }
      (s.twn.ledger.placed = true → exec (.commandTake (.pair k)) s = .next { s with
        spn := { s.spn with served := k.val, cmds := s.spn.cmds ++ [{ m with phase := .entering }] }
        twn := { s.twn with ledger := { s.twn.ledger with pending := s.twn.ledger.pending ++ [(s.get F.twnGateClaimClaim, .taken m.ref m.bytes, s.saved)] } } }) ∧
      (s.twn.ledger.placed = false → exec (.commandTake (.pair k)) s = .next
        (({ s with spn := { s.spn with served := k.val, cmds := s.spn.cmds ++ [m] } } : State).setReg
          (F.spnMbTakenTaken k).key (s.taken k + 1)))) ∧
    (∀ x bytes extra, s.takesCommands = true → s.nextSource = some 16 → s.nextFrame = some (x, bytes, extra) →
      let m : Cmd := {
        ref := ⟨.mgmt x, s.spn.mgmtTaken⟩, bytes := bytes, extra := extra, ide := none, orphan := false
        phase := .waiting, wait := .none, comp := none, taken := s.time, started := 0 }
      let q := s.spn.mgmtQ.erase (x, bytes, extra)
      (s.twn.ledger.placed = true → exec (.commandTake (.mgmt x)) s = .next { s with
        spn := { s.spn with mgmtQ := q, served := 16, cmds := s.spn.cmds ++ [{ m with phase := .entering }] }
        twn := { s.twn with ledger := { s.twn.ledger with
          pending := s.twn.ledger.pending ++ [(s.get F.twnGateClaimClaim, .taken m.ref m.bytes, s.saved)] } } }) ∧
      (s.twn.ledger.placed = false → exec (.commandTake (.mgmt x)) s = .next { s with
        spn := { s.spn with mgmtQ := q, served := 16, cmds := s.spn.cmds ++ [m], mgmtTaken := s.spn.mgmtTaken + 1 } })) ∧
    (∀ src, s.takesCommands = false → exec (.commandTake src) s = .next s) ∧
    (∀ k : PairNum, s.nextSource ≠ some k.val → exec (.commandTake (.pair k)) s = .next s) ∧
    (∀ x, (s.nextSource ≠ some 16 ∨ ∀ bytes extra, s.nextFrame ≠ some (x, bytes, extra)) →
      exec (.commandTake (.mgmt x)) s = .next s)

/-- O31. When Spindle starts commands and m is the next one, commandStart starts it, noting the time, if every check of
R333 passes, and its own row follows; if a check fails, m is completed with that check's status and an empty result,
with no other effect (a command off its sealed partition's stream is counted in COC_NS_DROP). While a command is
started, or when none may start, nothing changes. A command's row changes nothing, but for the host's own stores that
come with it, unless that command is started with that opcode and some half acts. Rests also on the model's readings
in log entries 29, 30. (R322, R333, R334, R377, R381) -/
def Obligations.CommandsStartOrFailTheirChecks : Prop :=
  ∀ s : State,
    (∀ m : Cmd, s.startsCommands = true → s.nextStart = some m → s.cmd m.ref = some m →
      let u := if s.offStream m then s.bump F.cocNsDropDenied else s
      (s.checkCmd m = none → exec .commandStart s = 
        .next (u.modCmd m.ref fun m => { m with phase := .started, started := s.time })) ∧
      (∀ st, s.checkCmd m = some st → Completes (exec .commandStart s) u m.ref st [])) ∧
    ((s.startsCommands = false ∨ s.nextStart = none) → exec .commandStart s = .next s) ∧
    ((∃ m ∈ s.spn.cmds, m.phase = .started) → exec .commandStart s = .next s) ∧
    (∀ (c : CmdRef) (ok : Bool) (image : ModelImage) (hw : HostStores),
      let idle : Nat → Prop := fun op => ∀ m, s.cmd c = some m → m.phase ≠ .started ∨ m.op ≠ op ∨ s.gapHolds = true
      (∀ x ∈ ([(0x0101, .devNop c), (0x0102, .devInfo c), (0x0103, .devTime c), (0x0104, .devDrain c), (0x0105, .devResume c),
        (0x0201, .partCreate c ok), (0x0202, .partDestroy c), (0x0203, .partBind c), (0x0204, .partUnbind c),
        (0x0205, .partShares c), (0x0206, .partQuery c), (0x0301, .memTierAssign c), (0x0302, .memTierRelease c),
        (0x0303, .memAperture c), (0x0304, .memWindow c), (0x0305, .modelPlace c image), (0x0306, .modelUnload c),
        (0x0307, .kernelRun c), (0x0308, .knotSet c), (0x0402, .reqCancel c), (0x0403, .convRelease c), (0x0404, .reqQuery c),
        (0x0405, .serveConfig c), (0x0502, .vidClose c), (0x0503, .vidReconfig c), (0x0504, .vidQuery c), (0x0601, .pwrCap c),
        (0x0602, .pwrMode c), (0x0603, .pwrShare c), (0x0604, .thmWarm c), (0x0605, .pwrQuery c), (0x0701, .mltRun c),
        (0x0702, .mltQuery c), (0x0703, .prbsStart c), (0x0704, .prbsStop c), (0x0801, .secAttest c), (0x0802, .secSession c),
        (0x0804, .secIde c), (0x0805, .secLifecycle c), (0x0806, .secTenantChange c), (0x0901, .updPiece c),
        (0x0902, .updStatus c), (0x0903, .updActivate c), (0x0904, .updDiscard c), (0x0A01, .twnSwap c), (0x0A02, .twnRestore c),
        (0x0A03, .twnPeriod c), (0x0A04, .twnQuery c)] : List (Nat × Instr)), idle x.1 → exec x.2 s = .next s) ∧
      (∀ x ∈ ([(0x0401, .reqSubmit c hw), (0x0501, .vidOpen c hw), (0x0803, .secImport c hw)] : List (Nat × Instr)),
        idle x.1 → exec x.2 s = .next (s.hostStores hw)))

/-- O32. While the writer is not held, completionWrite of pair k writes the oldest completion of that pair when its ring
has room: the entry at its place in the ring, then the new produced count to the control line; the done count goes up
by one, and the command is no longer outstanding. A management session's completion leaves as a frame of type 3 on
that session. While a gap, an activation pause or a removal holds the writer, or a ring has no room, nothing changes.
Rests also on the model's readings in log entry 28. (R327, R328, R332, R336, R516) -/
def Obligations.CompletionsWritten : Prop :=
  ∀ s : State, s.canon →
    ((s.writerHeld = true ∨ s.board.fenced = true) → ∀ src, exec (.completionWrite src) s = .next s) ∧
    (∀ (k : PairNum) (m : Cmd) (l : List Cmd) (comp : Completion), s.writerHeld = false → s.board.fenced = false →
      (s.spn.writer.filterMap fun r => if r.src = .pair k then s.cmd r else none) = m :: l → m.comp = some comp →
      (s.ringRoom k 0 = false → exec (.completionWrite (.pair k)) s = .next s) ∧
      (s.ringRoom k 0 = true → ∃ t, exec (.completionWrite (.pair k)) s = .next t
        ∧ t.cmd m.ref = none ∧ (∀ d, d ≠ m.ref → t.cmd d = s.cmd d)
        ∧ t.spn.writer = s.spn.writer.filter (fun x => x != m.ref)
        ∧ t.reg (F.spnMbDoneDone k).key = s.reg (F.spnMbDoneDone k).key + 1
        ∧ t.produced k 0 = s.produced k 0 + 1 ∧ t.produced k 1 = s.produced k 1
        ∧ t.pcieMem = ((s.pcieStore (s.pairPort k)
            (4096 * s.get (F.spnMbCmpBaseCmpBase k) + 64 * ((s.produced k 0).toNat % s.ringLen k 0))
            (completionBytes m comp)).pcieStore (s.pairPort k) (64 * s.get (F.spnMbLineBaseLineBase k))
            (leBytes 8 (s.produced k 0 + 1).toNat)).pcieMem
        ∧ t = { s with regs := t.regs, pcieMem := t.pcieMem, out := t.out, spn := t.spn })) ∧
    (∀ (x : Fin 2) (m : Cmd) (l : List Cmd) (comp : Completion), s.writerHeld = false → s.board.fenced = false →
      (s.spn.writer.filterMap fun r => if r.src = .mgmt x then s.cmd r else none) = m :: l → m.comp = some comp →
      m.orphan = false →
      ∃ t, exec (.completionWrite (.mgmt x)) s = .next t ∧ t.cmd m.ref = none ∧ (∀ d, d ≠ m.ref → t.cmd d = s.cmd d)
        ∧ t.out = s.out ++ [.mgmtFrame x 3 (completionBytes m comp)]
        ∧ t = { s with regs := t.regs, out := t.out, spn := t.spn })

/-- O33. A started DEV_NOP completes OK; DEV_INFO and DEV_TIME complete OK with the map, partitions, half, life cycle,
firmware version and serial, or the counter at the command's start; none of the three changes anything else. DEV_DRAIN
sets draining, clears drained and waits. Once every array is idle, no step and no picture runs and no completion is
held, and a half acts, drained sets drained, which with draining lasts until DEV_RESUME, and the waiting DEV_DRAIN
completes OK. DEV_RESUME clears both bits and completes OK. Rests also on the model's readings in log entries 31, 63.
(R335, R339, R342) -/
def Obligations.DeviceCommands : Prop :=
  ∀ (s : State) (c : CmdRef) (m : Cmd),
    (s.Started c 0x0101 m → Completes (exec (.devNop c) s) s c stOk []) ∧
    (s.Started c 0x0102 m → Completes (exec (.devInfo c) s) s c stOk
      (leBytes 8 (mapOf (allArrays.filter fun n => s.usable n)) ++ leBytes 1 s.allPartBits.toNat
        ++ leBytes 1 (s.get F.twnStatusActiveHalf) ++ leBytes 1 s.lifecycle ++ leBytes 1 0
        ++ leBytes 4 (s.get F.spnFwVerVersion) ++ leBytes 8 Config.serial.toNat)) ∧
    (s.Started c 0x0103 m → Completes (exec (.devTime c) s) s c stOk (leBytes 8 m.started.toNat)) ∧
    (s.Started c 0x0104 m → Waits (exec (.devDrain c) s) ((s.set F.spnStatusDraining 1).set F.spnStatusDrained 0) c .drain) ∧
    (s.Started c 0x0105 m → (∀ x ∈ s.spn.cmds, x.wait ≠ .drain) → Completes (exec (.devResume c) s)
      ((s.set F.spnStatusDraining 0).set F.spnStatusDrained 0) c stOk []) ∧
    (s.flag F.spnStatusDraining = true → s.flag F.spnStatusDrained = false → s.drainDone = true → s.gapHolds = false →
      s.board.update.draining = false →
      (∀ x ∈ s.spn.cmds, x.wait = .drain ↔ x.ref = c) → s.cmd c = some m →
      Completes (exec .drained s) (s.set F.spnStatusDrained 1) c stOk []) ∧
    ((s.drainDone = false ∨ s.gapHolds = true) → exec .drained s = .next s)

/-- O34. A started PART_CREATE whose arguments fail a check of R345 completes with that check's status and changes
nothing. When the checks pass and the entropy source is sound, it completes OK with the bases and the count of its
tier granules in its result: partition p lives with its groups and no model, every other partition is as before, its
map, sequence and frame ranges and its tier granules are the lowest free runs, the free vault granules of its usable
arrays and those tier granules carry its tag and no other tag changes, its reel is enabled and its tier key is drawn
fresh; memory and arrays' kernels do not change. When the entropy source fails, it completes FATAL with entropy_fail
set and no partition is created. Rests also on the model's readings in log entries 33, 44. (R344, R345, R404) -/
def Obligations.PartitionsAreCreated : Prop :=
  ∀ (s : State) (c : CmdRef) (m : Cmd) (p : PartNum), s.canon → s.Started c 0x0201 m → m.part? = some p →
    let a := createArgs m
    let ranges : (Nat → Fld) → (Nat → Fld) → List (Nat × Nat) := fun base count =>
      (allParts.filter fun q => (s.part q).live).map fun q => (s.get (base q), s.get (count q))
    (∀ ok, s.createCheck p a ≠ stOk → Completes (exec (.partCreate c ok) s) s c (s.createCheck p a) []) ∧
    (s.createCheck p a = stOk →
      let k := ceilDiv (a.slots * a.slotBytes) 0x400000
      let first := if k = 0 then 0 else (s.tierRun k).getD 0
      ∃ u, Completes (exec (.partCreate c true) s) u c stOk
          (leBytes 4 (u.get (F.reelPMapBaseBase p)) ++ leBytes 4 (u.get (F.reelPFrameBaseBase p))
            ++ leBytes 8 (if k = 0 then 0 else tierBase + first * 0x400000) ++ leBytes 2 (u.get (F.reelPSeqBaseBase p))
            ++ leBytes 2 0 ++ leBytes 4 k)
        ∧ (u.part p).live = true ∧ (u.part p).groups = a.groups ∧ (u.part p).model = none
        ∧ (∀ q, q ≠ p → u.part q = s.part q)
        ∧ some (u.get (F.reelPMapBaseBase p)) = freeRun (ranges (fun q => F.reelPMapBaseBase q) fun q => F.reelPMapCountCount q) 262144 a.maps
        ∧ u.get (F.reelPMapCountCount p) = a.maps
        ∧ some (u.get (F.reelPSeqBaseBase p)) = freeRun (ranges (fun q => F.reelPSeqBaseBase q) fun q => F.reelPSeqCountCount q) 16384 a.seqs
        ∧ u.get (F.reelPSeqCountCount p) = a.seqs
        ∧ some (u.get (F.reelPFrameBaseBase p)) = freeRun (ranges (fun q => F.reelPFrameBaseBase q) fun q => F.reelPFrameCountCount q) 262144 a.frames
        ∧ u.get (F.reelPFrameCountCount p) = a.frames
        ∧ u.flag (F.reelPCtlEnable p) = true
        ∧ (∀ g, u.ttag g =
            if first ≤ g ∧ g < first + k then ownedTag p (s.isSealed p) else s.ttag g)
        ∧ (∀ n g, u.vtag n g =
            if a.groups.getLsbD (n.val / 8) = true ∧ s.usable n = true ∧ g < 384 ∧ tagFree (s.vtag n g) = true
              then ownedTag p false else s.vtag n g)
        ∧ u.coc.draws = s.coc.draws + 1 ∧ u.bit F.tierKeyStatLoaded p = true
        ∧ u.mem = s.mem ∧ u.events = s.events ∧ (∀ n, (u.arr n).kernel = (s.arr n).kernel ∧ (u.arr n).pc = (s.arr n).pc)) ∧
    (s.createCheck p a = stOk → ∃ u, Completes (exec (.partCreate c false) s) u c stFatal []
      ∧ u.flag F.cocStatusEntropyFail = true ∧ u.parts = s.parts ∧ u.mem = s.mem ∧ u.arrays = s.arrays)

/-- O35. PART_BIND of a pair other than 0 and 8 that is disabled, unbound and without commands binds it to the partition;
pair 0 or 8 or a number above 15 is BAD_ARGUMENT, a pair in use is BUSY. PART_UNBIND undoes it. PART_SHARES stages
weight and ceiling of the partition's requester in every instance in use, arms their commits and answers which are
oversubscribed. PART_QUERY answers groups, control bits, usable arrays, requests, sequences and sessions, and changes
nothing. Nothing but the named registers and the arbiter's arming changes. (R313, R317, R340, R347) -/
def Obligations.PartitionsAreBoundAndShared : Prop :=
  ∀ (s : State) (c : CmdRef) (m : Cmd) (p : PartNum), m.part? = some p →
    (s.Started c 0x0203 m →
      (∀ k : PairNum, m.arg 8 1 = k.val → k.val ≠ 0 → k.val ≠ 8 → s.pairEnabled k = false → s.pairHolds k = false →
        s.pairPart k = none → Completes (exec (.partBind c) s)
          ((s.set (F.spnMbStatusBound k) 1).set (F.spnMbStatusPartition k) p.val) c stOk []) ∧
      (∀ k : PairNum, m.arg 8 1 = k.val → k.val ≠ 0 → k.val ≠ 8 →
        (s.pairEnabled k = true ∨ s.pairHolds k = true ∨ (s.pairPart k).isSome = true) →
        Completes (exec (.partBind c) s) s c stBusy []) ∧
      ((m.arg 8 1 = 0 ∨ m.arg 8 1 = 8 ∨ 16 ≤ m.arg 8 1) → Completes (exec (.partBind c) s) s c stBad [])) ∧
    (s.Started c 0x0204 m → ∀ k : PairNum, m.arg 8 1 = k.val →
      (s.pairPart k = some p → s.pairEnabled k = false → s.pairHolds k = false →
        Completes (exec (.partUnbind c) s)
          ((s.set (F.spnMbStatusBound k) 0).set (F.spnMbStatusPartition k) 0) c stOk []) ∧
      (s.pairPart k ≠ some p → Completes (exec (.partUnbind c) s) s c stBad []) ∧
      (s.pairPart k = some p → (s.pairEnabled k = true ∨ s.pairHolds k = true) →
        Completes (exec (.partUnbind c) s) s c stBusy [])) ∧
    (s.canon → s.Started c 0x0205 m → ∃ u, Completes (exec (.partShares c) s) u c stOk
        (leBytes 1 ((List.finRange 4).foldl (fun (k : Nat) (i : Fin 4) =>
          let caps := ((List.range (shtCount i)).map fun r =>
            let w := (u.reg (shtWeightKey i r + 0x80000)).toNat
            max (bitsAt w 0 16) (bitsAt w 16 16)).sum
          if u.shtActive i = true ∧ u.shtG i < caps + 64 * shtCount i then k + 2 ^ i.val else k) 0))
      ∧ (∀ i : Fin 4, s.shtActive i = true →
          u.reg (shtWeightKey i p + 0x80000) = BitVec.ofNat 32 (m.arg (8 + 4 * i.val) 2 + 65536 * m.arg (10 + 4 * i.val) 2)
          ∧ (u.sht[i.val]).armed = true)
      ∧ (∀ i : Fin 4, s.shtActive i = false → u.sht[i.val] = s.sht[i.val])
      ∧ u = { s with regs := u.regs, sht := u.sht }) ∧
    (s.Started c 0x0206 m → Completes (exec (.partQuery c) s) s c stOk
      (leBytes 1 (s.part p).groups.toNat ++ leBytes 1 ((s.reg (F.reelPCtlEnable p).key).toNat % 8)
        ++ leBytes 8 (mapOf (s.arraysOf p)) ++ leBytes 2 ((s.seqRange p).filter fun i => (s.request i).isSome).length
        ++ leBytes 2 ((s.seqRange p).filter fun i => s.seqState i != 0).length ++ leBytes 1 (s.vidOf p).length))

/-- O36. A started PART_DESTROY or SEC_TENANT_CHANGE on a partition of which an array still has issued work marks the
partition as going, stops every usable array of it without recording a fault, sets those without a vault clear
scrubbing and waits. When the partition's scrub has begun, nothing of it is left to clear but array n's vault and no
other command waits, the end of that clear completes the command, a tenant change whose key slot got no key FATAL (the
reading of log entry 33), and else OK: a destroyed partition is gone, with its key slot's keys; a changed one stays,
no longer going and no longer sealed. Rests also on the model's readings in log entries 31, 33. (R346, R402, R403,
R404) -/
def Obligations.PartitionsEndByScrub : Prop :=
  ∀ (s : State) (c : CmdRef) (m : Cmd) (p : PartNum), s.canon → m.part? = some p →
    (∀ row ∈ ([(0x0202, .partDestroy c), (0x0806, .secTenantChange c)] : List (Nat × Instr)), s.Started c row.1 m →
      (∀ x ∈ s.spn.cmds, x.wait = .none) → (∀ q, (s.part q).todo = []) → (s.seqRange p = []) → s.vidOf p = [] →
      (∃ n ∈ s.arraysOf p, (s.arr n).quiet = false) →
      ∃ t, exec row.2 s = .next t ∧ (t.part p).destroying = true ∧ (t.cmd c).map (·.wait) = some (.scrub p)
        ∧ (∀ n ∈ s.arraysOf p, (t.arr n).kernel = false ∧ (t.arr n).pend = none ∧ ((s.arr n).clear = .none → (t.arr n).scrubbing = true)
            ∧ (t.arr n).stgQ = (s.arr n).stgQ)
        ∧ (∀ n, n ∉ s.arraysOf p → t.arr n = s.arr n) ∧ t.mem = s.mem ∧ t.events = s.events) ∧
    (∀ (n : ArrayNum) (first count : Nat), s.spn.cmds = [m] → m.ref = c → m.wait = .scrub p → (s.part p).scrubbing = true →
      (∀ q, (s.part q).todo = []) → s.tierClears = [] → s.gapHolds = false → (s.arr n).clear = .running first count →
      (s.arr n).kernel = false → (s.arr n).restaging = false → (s.arr n).scrubbing = false → (s.arr n).test = .none →
      (∀ k ∈ s.scrubArrays p, k ≠ n → (s.arr k).clear = .none) → (∀ k, s.bit F.mltCondemnedCondemned k = false) →
      ∃ u, Completes (exec (.vaultClearDone n) s) u c
          (if m.op = 0x0806 ∧ s.bit F.tierKeyStatLoaded p = false then stFatal else stOk) [] ∧
        (m.op ≠ 0x0806 → (u.part p).live = false ∧ u.coc.keys = SMap.put [] s.coc.keys p.val []
          ∧ u.bit F.tierKeyStatLoaded p = false) ∧
        (m.op = 0x0806 → (u.part p).destroying = false ∧ (u.part p).scrubbing = false ∧ (u.part p).groups = (s.part p).groups) ∧
        u.isSealed p = false ∧ (∀ q, q ≠ p → u.part q = s.part q))

/-- O37. MEM_TIER_ASSIGN gives the lowest free run of tier granules to the partition and answers its first granule;
without one it is BUSY. MEM_TIER_RELEASE of owned granules that hold neither tier slots nor a session's pool moves
them to Clearing, queues their clear and waits for it. MEM_APERTURE opens an aperture only on a good range whose
granules the partition owns and that no other partition holds, and closes it on request. MEM_WINDOW sets a window's
kind, port, partition and bases when no operation names it; another partition's window is DENIED. Rests also on the
model's readings in log entry 31. (R41, R119, R156, R341) -/
def Obligations.TierGranulesAndDoors : Prop :=
  ∀ (s : State) (c : CmdRef) (m : Cmd) (p : PartNum), m.part? = some p →
    (s.Started c 0x0301 m →
      (∀ first, 0 < m.arg 8 4 → m.arg 8 4 ≤ 65536 → s.tierRun (m.arg 8 4) = some first →
        ∃ u, Completes (exec (.memTierAssign c) s) u c stOk (leBytes 4 first)
          ∧ (∀ g, u.ttag g = if first ≤ g ∧ g < first + m.arg 8 4 then ownedTag p (s.isSealed p) else s.ttag g)
          ∧ u = { s with tierTags := u.tierTags }) ∧
      (0 < m.arg 8 4 → m.arg 8 4 ≤ 65536 → s.tierRun (m.arg 8 4) = none →
        Completes (exec (.memTierAssign c) s) s c stBusy []) ∧
      ((m.arg 8 4 = 0 ∨ 65536 < m.arg 8 4) → Completes (exec (.memTierAssign c) s) s c stBad [])) ∧
    (s.Started c 0x0302 m →
      let first := m.arg 8 4
      let n := m.arg 12 4
      (0 < n → first + n ≤ 65536 → (∀ i < n, s.ownsTier p (first + i) = true) → s.granulesHeld p first n = false →
        (∀ q, (s.part q).todo = []) → s.tierClears.length < 16 →
        ∃ u, Waits (exec (.memTierRelease c) s) u c (.tierClear first n)
          ∧ (∀ g, u.ttag g = if first ≤ g ∧ g < first + n then 0x40#8 else s.ttag g)
          ∧ u.tierClears = s.tierClears ++ [{ first := first, count := n, rekey := false, slot := p.val, started := false }]
          ∧ u = { s with tierTags := u.tierTags, tierClears := u.tierClears }) ∧
      ((n = 0 ∨ 65536 < first + n ∨ (∃ i < n, s.ownsTier p (first + i) = false) ∨ s.granulesHeld p first n = true) →
        Completes (exec (.memTierRelease c) s) s c stBad [])) ∧
    (s.Started c 0x0303 m →
      let a := m.arg 8 1
      let port := m.arg 10 1
      let mine := ∀ q b l, s.aperture port a = .opened q b l → q = p
      a < 16 → s.portOk port = true →
      (m.arg 9 1 = 1 → apertureOk (m.arg 16 8) (m.arg 24 8) = true → s.ownsAll p (m.arg 16 8) (m.arg 24 8) = true → mine →
        Completes (exec (.memAperture c) s) { s with apertures := SMap.put .closed s.apertures (16 * port + a) (.opened p (m.arg 16 8) (m.arg 24 8)) } c stOk []) ∧
      (m.arg 9 1 = 1 → apertureOk (m.arg 16 8) (m.arg 24 8) = true → ¬ (s.ownsAll p (m.arg 16 8) (m.arg 24 8) = true ∧ mine) →
        Completes (exec (.memAperture c) s) s c stDenied []) ∧
      (m.arg 9 1 = 1 → apertureOk (m.arg 16 8) (m.arg 24 8) = false → Completes (exec (.memAperture c) s) s c stBad []) ∧
      (m.arg 9 1 = 0 → mine → Completes (exec (.memAperture c) s)
        { s with apertures := SMap.put .closed s.apertures (16 * port + a) .closed } c stOk [])) ∧
    (s.Started c 0x0304 m →
      let w := m.arg 8 1
      let others := (s.get (F.pciWinCtlKind w) = 1 ∨ s.get (F.pciWinCtlKind w) = 2) ∧ s.get (F.pciWinCtlPartition w) ≠ p.val
      w < 16 → m.arg 9 1 ≤ 3 → s.portOk (m.arg 10 1) = true → m.arg 16 8 % 4096 = 0 → m.arg 24 8 % 0x10000000 = 0 →
      (others → Completes (exec (.memWindow c) s) s c stDenied []) ∧
      (¬ others → s.windowBusy w = true → Completes (exec (.memWindow c) s) s c stBusy []) ∧
      (¬ others → s.windowBusy w = false → s.canon → ∃ u, Completes (exec (.memWindow c) s) u c stOk []
        ∧ u.get (F.pciWinCtlKind w) = m.arg 9 1 ∧ u.get (F.pciWinCtlPort w) = m.arg 10 1
        ∧ u.get (F.pciWinCtlPartition w) = p.val ∧ u.get (F.pciWinBaseBase w) = m.arg 16 8 / 4096
        ∧ u.get (F.pciWinSigSigBase w) = m.arg 24 8 / 0x10000000 ∧ u = { s with regs := u.regs }))

/-- O38. MODEL_PLACE of a good image on idle usable arrays, from memory the partition owns or, while it is not sealed, its
own host window, records the model with the image's digest, loads its kernels where it names them and changes no other
byte of memory; on an image that needs an unusable array it is ARRAY_UNUSABLE. MODEL_UNLOAD without requests and
kernels removes the model. KERNEL_RUN starts every named array at the entry with the step number and waits for them;
outside the partition it is DENIED, on a busy or faulted array BUSY. KNOT_SET sets a knot of an idle array of the
partition. Rests also on the model's readings in log entries 31, 44. (R107, R133, R341) -/
def Obligations.ModelsAndKernelsRun : Prop :=
  ∀ (s : State) (c : CmdRef) (m : Cmd) (p : PartNum), m.part? = some p → s.canon →
    (∀ image : ModelImage, s.Started c 0x0305 m →
      let a := m.arg 8 8
      let n := m.arg 16 4
      let needsBad := (∃ x ∈ image.arrays, s.usable x.array = false)
        ∨ ∃ k : ArrayNum, image.usableMap.getLsbD k = true ∧ s.inPart p k = true ∧ s.usable k = false
      0 < n → (s.ownsAll p a n = true ∨ (s.isSealed p = false ∧ s.inHostWindow p a n = true)) →
      (needsBad → Completes (exec (.modelPlace c image) s) s c stUnusable []) ∧
      (¬ needsBad → image.usableMap.toNat = mapOf (s.arraysOf p) → s.imageOk p image = true →
        (∀ x ∈ image.arrays, s.kvFits p x = true) → (∀ k ∈ s.arraysOf p, s.busy k = false) → s.clean →
        let ps := image.arrays.flatMap fun i => i.kernels.map fun k => (spoolBase i.array + k.1, k.2)
        ∃ u, Completes (exec (.modelPlace c image) s) u c stOk (leBytes 8 (mapOf (image.arrays.map (·.array)).dedup))
          ∧ (u.part p).model = some {
              arrays := BitVec.ofNat 64 (mapOf (image.arrays.map (·.array)).dedup), vocab := image.vocab
              logitsFp32 := image.logitsFp32, slices := image.slices
              kernels := (image.arrays.map fun x => x.kernels.map fun k => (x.array, k.1, k.2.length)).flatten
              digest := Config.sha384 (s.blockRead a n) }
          ∧ (∀ q, q ≠ p → u.part q = s.part q) ∧ u.arrays = s.arrays
          ∧ (∀ x, (∀ k ∈ ps, ¬ (k.1 ≤ x ∧ x < k.1 + k.2.length)) → u.byte x = s.byte x)
          ∧ (∀ l k r, ps = l ++ k :: r → ∀ x, k.1 ≤ x → x < k.1 + k.2.length →
              (∀ j ∈ r, ¬ (j.1 ≤ x ∧ x < j.1 + j.2.length)) → u.byte x = k.2.getD (x - k.1) 0))) ∧
    (s.Started c 0x0306 m →
      let idle := (∀ i ∈ s.seqRange p, s.request i = none) ∧ ∀ n ∈ s.arraysOf p, (s.arr n).kernel = false
      (idle → Completes (exec (.modelUnload c) s) (s.modPart p fun t => { t with model := none }) c stOk []) ∧
      (¬ idle → Completes (exec (.modelUnload c) s) s c stBusy [])) ∧
    (s.Started c 0x0307 m →
      let mask := BitVec.ofNat 64 (m.arg 8 8)
      let entry := m.arg 16 4
      let named : ArrayNum → Prop := fun n => mask.getLsbD n = true
      mask ≠ 0 → entry % 16 = 0 → entry ≤ 0x7FFFF0 →
      ((∃ n, named n ∧ s.inPart p n = false) → Completes (exec (.kernelRun c) s) s c stDenied []) ∧
      ((∀ n, named n → s.inPart p n = true ∧ s.powered n = true ∧ s.busy n = false ∧ s.flag (F.arrStatusFault n) = false) →
        ∃ u, Waits (exec (.kernelRun c) s) u c (.kernels mask 0)
          ∧ (∀ n, named n → u.arr n = (s.arr n).startKernel entry ∧ u.get (F.arrKernelStepStep n) = m.arg 20 4)
          ∧ (∀ n, ¬ named n → u.arr n = s.arr n) ∧ u = { s with arrays := u.arrays, regs := u.regs })) ∧
    (s.Started c 0x0308 m → ∀ n : ArrayNum, m.arg 8 4 / 2048 = n.val →
      (s.inPart p n = true → s.usable n = true → s.busy n = false → Completes (exec (.knotSet c) s)
        (s.modArr n fun a => { a with knots := SMap.put 0 a.knots (m.arg 8 4 % 2048) (BitVec.ofNat 32 (m.arg 12 4)) }) c stOk []) ∧
      (s.inPart p n = false → Completes (exec (.knotSet c) s) s c stDenied []) ∧
      (s.inPart p n = true → s.usable n = true → s.busy n = true → Completes (exec (.knotSet c) s) s c stBusy []))

/-- O39. Through an open aperture, an access inside one granule that the aperture's partition owns, neither secure nor in
Clearing, of a usable array's vault or the tier, reads the bytes of memory, or stores the data and changes no other
byte. Through a closed aperture or beyond an aperture's length (cause 8), on a granule that is denied (cause 2) or in
the vault of an unusable array (cause 1), a read answers zeros, a write changes no byte of memory, and the access
error is reported. A port that does not decode accesses, and an access beyond the 64 GiB of BAR4, changes nothing. An
access that touches several granules is judged granule by granule (the model's choice, log entry 68). Rests also on
the model's readings in log entry 24. (R37, R41, R42, R135, R379) -/
def Obligations.Bar4ReachesOwnedMemoryOnly : Prop :=
  ∀ (port : Port) (off : Nat) (s : State), s.canon →
    let i := off / 0x100000000
    let o := off % 0x100000000
    let inside : Nat → Prop := fun n => 0 < n ∧ off % 0x400000 + n ≤ 0x400000 ∧ off + n ≤ 0x1000000000
    let fails : Nat → Option PartNum → Option Nat → Prop := fun c p a =>
      let t := s.accessError 0x04D 0xFFFF c 3 (i % 16) p a
      (∀ n, inside n → (c = 8 → ∀ p b len, s.aperture port.val i = .opened p b len → len < o + n) →
        exec (.bar4Read port off n) s = .next { t with rdata := List.replicate n 0 }) ∧
      (∀ data, inside data.length → (c = 8 → ∀ p b len, s.aperture port.val i = .opened p b len → len < o + data.length) →
        exec (.bar4Write port off data) s = .next t)
    (s.portLive port = false ∨ 0x1000000000 ≤ off → ∀ n data, 0 < n → data ≠ [] →
      exec (.bar4Read port off n) s = .next s ∧ exec (.bar4Write port off data) s = .next s) ∧
    (s.portLive port = true →
      fails 8 none none ∧
      (∀ p b len, s.aperture port.val i = .opened p b len →
        let a := b + o
        (∀ k g, regionOf a = .vault k g → s.usable k = false → ∀ n, inside n → o + n ≤ len →
          exec (.bar4Read port off n) s =
            .next { s.accessError 0x04D 0xFFFF 1 3 (i % 16) (some p) (some a) with rdata := List.replicate n 0 } ∧
          ∀ data : List Byte, data.length = n →
            exec (.bar4Write port off data) s = .next (s.accessError 0x04D 0xFFFF 1 3 (i % 16) (some p) (some a))) ∧
        ((∀ k g, regionOf a = .vault k g → s.usable k = true) →
          (∀ t, s.tagAt a = some t → tagAllowsHost p t = false) → ∀ n, inside n → o + n ≤ len →
          exec (.bar4Read port off n) s =
            .next { s.accessError 0x04D 0xFFFF 2 3 (i % 16) (some p) (some a) with rdata := List.replicate n 0 } ∧
          ∀ data : List Byte, data.length = n →
            exec (.bar4Write port off data) s = .next (s.accessError 0x04D 0xFFFF 2 3 (i % 16) (some p) (some a))) ∧
        (∀ t, (∀ k g, regionOf a = .vault k g → s.usable k = true) → s.tagAt a = some t → tagOwned t = true →
          tagPart t = p → tagSecure t = false → tagClearing t = false → tagPlatform t = false → s.clean → s.ce = [] →
          (∀ n, inside n → o + n ≤ len → ∃ u, exec (.bar4Read port off n) s = .next u ∧ u.rdata = s.load a n
            ∧ u = { s with rdata := u.rdata, regs := u.regs, linkErr := u.linkErr }) ∧
          (∀ data, inside data.length → o + data.length ≤ len → ∃ u, exec (.bar4Write port off data) s = .next u
            ∧ (∀ x, u.byte x = if a ≤ x ∧ x < a + data.length then data.getD (x - a) 0 else s.byte x)
            ∧ u = { s with mem := u.mem, tline := u.tline, regs := u.regs, linkErr := u.linkErr }))))

/-- O40. A started UPD_PIECE with the next number, no activation under way and its checks passed joins the queue and
completes OK; a piece already held completes OK when it is the same and BAD_ARGUMENT when not; a number past the next
is BAD_ARGUMENT; piece 0 needs its magic and format, piece 1 the head's two signatures and a security version no lower
than the fused minimum (else staging is erased), a body piece the hash that its chain gives it; a failed one is
BAD_ARGUMENT (piece 0) or SIG_INVALID with piece_rejected and is not queued. pieceProgram moves the oldest queued
piece to staging. UPD_STATUS reports what is programmed, and HEALTH_UNCONFIRMED after a fallback. UPD_DISCARD empties
staging. Rests also on the model's readings in log entries 44, 47. (R467, R469, R470, R471, R478) -/
def Obligations.UpdatePieces : Prop :=
  ∀ (s : State) (c : CmdRef) (m : Cmd),
    let held := s.flash.staging ++ s.board.update.queued
    let h := held.length
    let i := m.arg 8 4
    let piece := bytesAt m.extra 0 4096
    (s.Started c 0x0901 m →
      (i < h → Completes (exec (.updPiece c) s) s c (if held[i]? = some piece then stOk else stBad) []) ∧
      (h < i → Completes (exec (.updPiece c) s) s c stBad []) ∧
      (i = h → s.activating = true → Completes (exec (.updPiece c) s) s c stBad []) ∧
      (i = 0 → h = 0 → s.activating = false → pieceZeroOk piece = true → Completes (exec (.updPiece c) s)
        { s with board := { s.board with update := { s.board.update with queued := [piece] ++ s.board.update.queued } }, flash := { s.flash with fellBack := false } } c stOk []) ∧
      (i = 0 → h = 0 → s.activating = false → pieceZeroOk piece = false → Completes (exec (.updPiece c) s) s c stBad []) ∧
      (i = 1 → h = 1 → s.activating = false →
        let head := headOf (held ++ [piece])
        (s.flash.headAuthentic head = true → s.get F.updSecSecMin ≤ fieldAt head 12 4 → Completes (exec (.updPiece c) s)
          { s with board := { s.board with update := { s.board.update with queued := s.board.update.queued ++ [piece] } } } c stOk []) ∧
        (s.flash.headAuthentic head = false ∨ fieldAt head 12 4 < s.get F.updSecSecMin →
          ∃ u, Completes (exec (.updPiece c) s) u c stSig [] ∧ (s.canon → u.flag F.updStatusPieceRejected = true)
            ∧ u.flash = { s.flash with staging := [] } ∧ u.board.update.queued = [])) ∧
      (i = h → 2 ≤ i → i < fieldAt (headOf held) 16 4 → s.activating = false →
        (Config.sha384 piece = expectedHash held i → Completes (exec (.updPiece c) s)
          { s with board := { s.board with update := { s.board.update with queued := s.board.update.queued ++ [piece] } } } c stOk []) ∧
        (Config.sha384 piece ≠ expectedHash held i → ∃ u, Completes (exec (.updPiece c) s) u c stSig []
          ∧ (s.canon → u.flag F.updStatusPieceRejected = true) ∧ u.flash = s.flash ∧ u.board.update.queued = s.board.update.queued))) ∧
    (∀ x rest, s.board.update.queued = x :: rest → ∃ t, exec .pieceProgram s = .next t
      ∧ t.flash = { s.flash with staging := s.flash.staging ++ [x] } ∧ t.board.update.queued = rest
      ∧ (s.canon → t.get F.updHeldHeld = (s.flash.staging.length + 1) % 2 ^ 14)
      ∧ t = { s with flash := t.flash, board := t.board, regs := t.regs }) ∧
    (s.Started c 0x0902 m → Completes (exec (.updStatus c) s) s c (if s.flash.fellBack then stHealth else stOk)
      (leBytes 4 s.flash.staging.length ++ leBytes 4 s.stagedCount ++ leBytes 1 s.flash.record
        ++ leBytes 4 (s.get F.updRunVerVersion) ++ leBytes 4 (s.get F.updFbVerVersion)
        ++ leBytes 4 (s.get F.updStagedVerVersion) ++ leBytes 8 (s.get F.updDeadlineTimestamp - s.time.toNat))) ∧
    (s.Started c 0x0904 m → ∃ u, Completes (exec (.updDiscard c) s) u c stOk []
      ∧ u.flash = { s.flash with staging := [], fellBack := false } ∧ u.board.update.queued = []
      ∧ u.mem = s.mem ∧ u.arrays = s.arrays)

/-- O41. A started UPD_ACTIVATE of a complete staged imago whose signatures, hashes and security version hold sets the
record to Saving and waits; a bad one erases staging with SIG_INVALID; an incomplete one is BAD_ARGUMENT. Saving's
copy makes the fallback the running imago (and is skipped where it is already), Writing's copy makes the running imago
the staged one and drains the module, the drained module's pause loads every component, and lomlet_ready ends it.
Health returns the record to Idle and raises the fused minimum. The trial's deadline and a pause of 1.5 s lead to
Reverting, whose copy restores the fallback with fell_back set. Rests also on the model's readings in log entries 44,
47. (R473, R474, R475, R476, R477, R479) -/
def Obligations.ActivationAndItsEnd : Prop :=
  ∀ (s : State) (c : CmdRef) (m : Cmd), s.canon →
    (s.Started c 0x0903 m →
      let st := s.flash.staging
      let whole := s.stagedCount ≠ 0 ∧ s.stagedCount ≤ st.length ∧ s.flash.record = 0
      let sound := s.flash.chainOk st = true ∧ s.get F.updSecSecMin ≤ fieldAt (headOf st) 12 4
      (¬ whole → Completes (exec (.updActivate c) s) s c stBad []) ∧
      (whole → ¬ sound → ∃ u, Completes (exec (.updActivate c) s) u c stSig [] ∧ u.flash = { s.flash with staging := [] }) ∧
      (whole → sound → ∃ u, Waits (exec (.updActivate c) s) u c .activate ∧ u.flash = { s.flash with records := u.flash.records }
        ∧ u.flash.record = 1 ∧ u.board.update.ref = some c ∧ u.get F.updStatusState = 1)) ∧
    (s.updRuns = true → s.flash.record = 1 → ∃ t, exec .savingCopyDone s = .next t
      ∧ t.flash.record = 2
      ∧ t.flash = { s.flash with
          fallback := if headOf s.flash.fallback.pieces = headOf s.flash.running.pieces then s.flash.fallback else s.flash.running
          records := t.flash.records } ∧ t.get F.updStatusState = 2 ∧ t.mem = s.mem) ∧
    (s.updRuns = true → s.flash.record = 2 → ∃ t, exec .writingCopyDone s = .next t
      ∧ t.flash.record = 3
      ∧ t.flash = { s.flash with running := imagoOf s.flash.staging, records := t.flash.records } ∧ t.flag F.spnStatusDraining = true
      ∧ t.board.update.draining = true ∧ t.mem = s.mem) ∧
    (s.flag F.spnStatusDraining = true → s.flag F.spnStatusDrained = false → s.drainDone = true → s.gapHolds = false →
      s.board.update.draining = true → ∃ t, exec .drained s = .next t ∧ t.board.update.pauseAt = some s.time
        ∧ t.board.update.draining = false ∧ t.flag F.spnStatusLomletReady = false ∧ t.flag F.spnStatusDrained = true) ∧
    (∀ start, s.board.update.pauseAt = some start → s.updRuns = true → (s.time - start).toNat ≤ 150000000 → s.flash.record = 3 →
      s.restorable.isSome = true →
      (∀ d : BitVec 8, d ≠ 0xFF → ∃ t, exec (.activationPause d) s = .next t ∧ t.flash.record = 4
        ∧ t.board.update.pauseAt = some s.time ∧ t.get F.updStatusState = 4) ∧
      (s.spn.cmds = [] → s.events.entries = [] → ∃ t, exec (.activationPause 0xFF) s = .next t
        ∧ t.flag F.spnStatusLomletReady = true ∧ t.board.update.pauseAt = none ∧ t.flash.record = 3
        ∧ t.get F.updDeadlineTimestamp = (s.time.toNat + 30000000000) % 2 ^ 64)) ∧
    (s.healthy = true → ∃ t, exec .healthConfirmed s = .next t ∧ t.flash.record = 0
      ∧ t.flash = { s.flash with records := t.flash.records, staging := [] }
      ∧ t.get F.updStatusState = 0 ∧ t.get F.updSecSecMin = max (s.get F.updSecSecMin)
          (min s.flash.running.security s.flash.fallback.security) % 2 ^ F.updSecSecMin.width) ∧
    (s.updRuns = true → s.flash.record = 3 → s.board.update.pauseAt = none → s.board.update.draining = false →
      s.get F.updDeadlineTimestamp ≤ s.time.toNat → ∃ t, exec .trialDeadline s = .next t
        ∧ t.flash.record = 4 ∧ t.flash = { s.flash with records := t.flash.records } ∧ t.flag F.spnStatusDraining = true) ∧
    (∀ start, s.board.update.pauseAt = some start → s.updRuns = true → 150000000 ≤ (s.time - start).toNat →
      ∃ t, exec .pauseTimeout s = .next t ∧ t.flash.record = 4
        ∧ t.flash = { s.flash with records := t.flash.records } ∧ t.board.update.pauseAt = some s.time) ∧
    (s.updRuns = true → s.flash.record = 4 → s.board.update.pauseAt = none → s.board.update.draining = false →
      s.board.update.keepStaging = false → ∃ t, exec .revertCopyDone s = .next t
        ∧ t.flash.record = 0
        ∧ t.flash = { s.flash with
            running := s.flash.fallback, fellBack := true, records := t.flash.records, staging := [] }
        ∧ t.flag F.updStatusFellBack = true)

/-- O42. While a half serves with a cold standby, no heartbeat for 2 ms (cause 1) or an internal fatal error (cause 2)
quarantines it and starts the other half; the gate claim rises, a gap begins, lomlet_ready is 0, and memory and arrays
stay. Without a standby the half is quarantined and the module stop begins. A planned swap, from TWN_SWAP (3) or from
the period (4), steps the half down once no ledger entry is under way and the final snapshot is written, which changes
only the ledger copies. A periodic swap without a standby, or in a gap, is skipped. TWN_SWAP, TWN_RESTORE, TWN_PERIOD
and TWN_QUERY, a heartbeat, and the end of a restored half's checks do as R363, R364 and R369 to R371 say: the half
passes only where the copy of Spindle's code reads with the running imago's digest and a placed ledger is valid. Rests
also on the model's readings in log entry 35. (R353, R360, R363, R364, R369, R370, R371, R372) -/
def Obligations.SwitchOversBegin : Prop :=
  ∀ (s : State), s.canon →
    let out := s.activeHalf
    let inc := otherHalf out
    let switched : Host.Outcome State Fault Refusal → Nat → Bool → Prop := fun o cause planned => ∃ t, o = .next t
      ∧ t.twn.phase = .powering ∧ t.twn.incoming = inc ∧ t.twn.planned = planned ∧ t.twn.gapStart = s.time
      ∧ t.twn.swap = none ∧ t.flag F.twnStatusGap = true ∧ t.flag F.spnStatusLomletReady = false
      ∧ t.get F.twnLastCauseCause = cause ∧ t.get F.twnGateClaimClaim = s.newClaim inc
      ∧ t.halfState inc = 1 ∧ t.halfState out = (if planned then 3 else 4) ∧ t.twn.powered[(halfIx inc).val] = true
      ∧ (planned = false → t.mem = s.mem) ∧ (∀ x, s.outsideLedger x → t.byte x = s.byte x)
      ∧ t.arrays = s.arrays ∧ t.spn = s.spn ∧ t.coc = s.coc ∧ t.reel = s.reel
    let stops : Host.Outcome State Fault Refusal → Prop := fun o => ∃ t, o = .next t ∧ t.board.stopping = true
      ∧ t.flag F.spnStatusLomletReady = false ∧ t.halfState out = 4
      ∧ t = { s with regs := t.regs, board := t.board, flash := t.flash, twn := t.twn }
    (s.halfServes = true →
      exec .activeHalfHeartbeat s = .next { s with twn := { s.twn with heartbeat := s.time } } ∧
      ((s.time - s.twn.heartbeat).toNat < 200000 → exec .heartbeatTimeout s = .next s) ∧
      (s.standby = true → switched (exec .internalFatalError s) 2 false ∧
        (200000 ≤ (s.time - s.twn.heartbeat).toNat → switched (exec .heartbeatTimeout s) 1 false)) ∧
      (s.standby = false → stops (exec .internalFatalError s) ∧
        (200000 ≤ (s.time - s.twn.heartbeat).toNat → stops (exec .heartbeatTimeout s)))) ∧
    (∀ cause, s.twn.swap = some cause → cause < 8 → s.twn.ledger.pending = [] → s.ending = false → s.standby = true →
      switched (exec .finalSnapshotComplete s) cause true) ∧
    (
      let due := s.get F.twnNextSwapTimestamp
      due ≠ 0 → due ≤ s.time.toNat → (s.halfServes = true ∨ (s.flag F.twnStatusGap = true ∧ s.ending = false)) → s.twn.swap = none → s.swapBlocked = false →
      (s.standby = true → exec .periodicSwapDue s = .next { s with twn := { s.twn with swap := some 4 } }) ∧
      (s.standby = false → ∃ t, exec .periodicSwapDue s = .next t ∧ t.flag F.twnStatusSwapSkipped = true
        ∧ t.twn.swapBase = s.time ∧ t = { s with regs := t.regs, twn := t.twn })) ∧
    (∀ (c : CmdRef) (m : Cmd),
      (s.Started c 0x0A01 m →
        let others := ∃ x ∈ s.spn.cmds, x.ref ≠ c ∧ x.op ∈ [0x0201, 0x0202, 0x0805, 0x0806, 0x0903] ∧ x.phase = .running
        (¬ others → s.standby = true → s.twn.swap = none →
          Waits (exec (.twnSwap c) s) { s with twn := { s.twn with swap := some 3 } } c .swap) ∧
        ((others ∨ s.standby = false ∨ s.twn.swap ≠ none) → Completes (exec (.twnSwap c) s) s c stBusy [])) ∧
      (s.Started c 0x0A02 m → ∀ h, m.arg 8 1 = (halfIx h).val →
        (s.halfState h = 4 → s.flag F.twnStatusGap = false →
          Waits (exec (.twnRestore c) s) (s.powerUpHalf h) c (.restore h)) ∧
        (s.halfState h = 4 → s.flag F.twnStatusGap = true → Completes (exec (.twnRestore c) s) s c stBusy []) ∧
        (s.halfState h ≠ 4 → Completes (exec (.twnRestore c) s) s c stBad [])) ∧
      (s.Started c 0x0A03 m →
        (8760 < m.arg 8 4 → Completes (exec (.twnPeriod c) s) s c stBad []) ∧
        (m.arg 8 4 ≤ 8760 → ∃ u, Completes (exec (.twnPeriod c) s) u c stOk [] ∧ u.get F.twnPeriodHours = m.arg 8 4
          ∧ u.get F.twnNextSwapTimestamp
              = (if m.arg 8 4 = 0 then 0 else (s.twn.swapBase.toNat + m.arg 8 4 * 360000000000) % 2 ^ 64)
          ∧ u = { s with regs := u.regs })) ∧
      (s.Started c 0x0A04 m → Completes (exec (.twnQuery c) s) s c stOk
        ([BitVec.ofNat 8 (s.get F.twnStatusActiveHalf), BitVec.ofNat 8 (s.get F.twnStatusStateA),
            BitVec.ofNat 8 (s.get F.twnStatusStateB)]
          ++ leBytes 4 (s.claim .a) ++ leBytes 4 (s.claim .b) ++ leBytes 4 (s.get F.twnGateClaimClaim)
          ++ [BitVec.ofNat 8 (s.get F.twnQuarCauseA), BitVec.ofNat 8 (s.get F.twnQuarCauseB)]
          ++ leBytes 4 (s.get F.twnSwitchesCount) ++ leBytes 4 (s.get F.twnLastGapCycles)
          ++ leBytes 8 (s.get F.twnNextSwapTimestamp))) ∧
      (∀ h codeOk ledgerOk, s.spn.cmds = [m] → m.ref = c → m.wait = .restore h →
        let ok := codeOk = true ∧ ledgerOk = true ∧ s.codeGood = true ∧ (s.twn.ledger.placed = true → s.ledgerValid = true)
        (ok → ∃ u, Completes (exec (.halfChecksDone h codeOk ledgerOk) s) u c stOk [] ∧ u.halfState h = 0
          ∧ u.flash.quar[(halfIx h).val] = none ∧ u.mem = s.mem ∧ u.arrays = s.arrays) ∧
        (¬ ok → ∃ u, Completes (exec (.halfChecksDone h codeOk ledgerOk) s) u c stFatal [] ∧ u.halfState h = s.halfState h
          ∧ u.flash = s.flash ∧ u.mem = s.mem ∧ u.arrays = s.arrays)))

/-- O43. While a switch-over runs, each of its rows moves it on by one phase: power good, code verified with the claim
presented, ledger restored from a valid snapshot (with entries lost, partitions and step limits are those of the last
one held), every outstanding command reconciled so that none is entering or being started and only done, request and
activation entries are under way. gapEnd then makes the incoming half active and serving, counts the switch, clears
gap and sets lomlet_ready. A code digest that differs, a copy of the code that is not the running imago's, no valid
snapshot, or the deadline quarantines the starting half with swap_failed; after a planned swap the outgoing half
returns to Active with a new claim and reconciles, else the module stops. Rests also on the model's readings in log
entries 35, 46. (R353, R358, R365, R366, R367, R368) -/
def Obligations.GapRunsToItsEnd : Prop :=
  ∀ (s : State), s.canon →
    let inc := s.twn.incoming
    let out := otherHalf inc
    let failed : Host.Outcome State Fault Refusal → Prop := fun o => ∃ t, o = .next t ∧ t.halfState inc = 4
      ∧ t.flag F.twnStatusSwapFailed = true ∧ t.twn.phase = .none ∧ t.mem = s.mem ∧ t.arrays = s.arrays
      ∧ t.board.stopping = (if s.twn.planned = true ∧ s.halfState out = 3 then s.board.stopping else true)
    (s.twn.phase = .powering → exec .incomingPowerGood s = .next { s with twn := { s.twn with phase := .powerGood } }) ∧
    (s.twn.phase = .powerGood →
      (s.codeGood = true → ∃ t, exec (.codeVerified true) s = .next t ∧ t.twn = { s.twn with phase := .verified }
        ∧ t.claim inc = s.get F.twnGateClaimClaim
        ∧ t = { s with regs := t.regs, events := t.events, board := t.board, linkErr := t.linkErr, twn := t.twn }) ∧
      (s.codeGood = false → failed (exec (.codeVerified true) s)) ∧ failed (exec (.codeVerified false) s)) ∧
    (s.twn.phase = .verified →
      (s.ledgerValid = true → ∃ t, exec .ledgerRestore s = .next t ∧ t.twn.phase = .restored
        ∧ t.twn.restored = s.restorable.getD [] ∧ t.mem = s.mem
        ∧ (s.lostImage = none → t.twn = { s.twn with phase := .restored, restored := s.restorable.getD [] }
          ∧ t = { s with regs := t.regs, events := t.events, board := t.board, twn := t.twn })
        ∧ (∀ x : Saved, s.lostImage = some x → t.srv.maxSlots = x.srv.maxSlots ∧ t.srv.chunk = x.srv.chunk
          ∧ t.srv.stepTokens = x.srv.stepTokens
          ∧ ∀ p : PartNum, { t.part p with todo := [] } = { x.parts[p.val] with todo := [] })) ∧
      (s.ledgerValid = false → failed (exec .ledgerRestore s))) ∧
    (s.twn.phase = .restored → ∃ t, exec .reconciliation s = .next t ∧ t.twn.phase = .reconciled
      ∧ (∀ m ∈ t.spn.cmds, m.phase ≠ .entering ∧ m.phase ≠ .started)
      ∧ (∀ x ∈ t.twn.ledger.pending, (∃ r c, x.2.1 = .done r c) ∨ (∃ i v l, x.2.1 = .request i v l) ∨ ∃ n, x.2.1 = .activation n)
      ∧ t = { s with regs := t.regs, spn := t.spn, twn := t.twn }) ∧
    (s.twn.phase = .reconciled → ∃ t, exec .gapEnd s = .next t ∧ t.twn.phase = .none ∧ t.twn.heartbeat = s.time
      ∧ t.flag F.twnStatusGap = false ∧ t.flag F.spnStatusLomletReady = true ∧ t.flag F.twnStatusSwitched = true
      ∧ t.get F.twnStatusActiveHalf = (halfIx inc).val ∧ t.halfState inc = 2
      ∧ (s.halfState out = 3 → t.halfState out = if (s.flash.quar[(halfIx out).val]).isSome then 4 else 0)
      ∧ (s.halfState out ≠ 3 → t.halfState out = s.halfState out)
      ∧ t.get F.twnLastGapCycles = min (8 * (s.time - s.twn.gapStart).toNat) 0xFFFFFFFF
      ∧ t.get F.twnSwitchesCount = min (s.get F.twnSwitchesCount + 1) 0xFFFFFFFF
      ∧ t.mem = s.mem ∧ t.arrays = s.arrays) ∧
    (s.twn.phase ≠ .none → (if s.twn.planned then 5950000 else 6000000) ≤ (s.time - s.twn.gapStart).toNat →
      failed (exec .startingDeadline s)) ∧
    (s.flag F.twnStatusGap = true → s.twn.planned = true → s.twn.phase = .none → s.halfState out = 3 → s.ending = false →
      ∃ t, exec .outgoingHalfReturn s = .next t ∧ t.halfState out = 2 ∧ t.claim out = s.newClaim out
        ∧ t.get F.twnGateClaimClaim = s.newClaim out ∧ t.flag F.twnStatusGap = false
        ∧ t.flag F.spnStatusLomletReady = true
        ∧ (∀ m ∈ t.spn.cmds, m.phase ≠ .entering ∧ m.phase ≠ .started)
        ∧ (s.twn.ledger.pending = [] → (∀ x, s.newestSnap = some x → s.appliedAfter x = s.journalAfter x) →
          (∀ x, s.outsideLedger x → t.byte x = s.byte x) ∧ t.arrays = s.arrays))

/-- O44. A write of a powered half that issues, with its own claim, reaches its block when that is the gate claim and the
half is not quarantined. With a lower claim it changes no memory, array, reel entry, ledger or arbiter state: it is
counted at its gate, and an active, stepping-down or quarantined half ends quarantined and issues no more. Any other
gated write has no effect. The oldest ledger entry under way, with the gate claim, becomes visible and changes only
the copies: a taken command waits, a done one's completion goes to the writer; with a lower claim it is gone. A due
snapshot of a half that passes its gate takes the next sequence number and holds the saved state, which the entries
under way then record. A stuck power-down is raised and asked again after 1 ms. Rests also on the model's readings in
log entries 35, 46. (R324, R357, R361, R362, R364) -/
def Obligations.GatesAndLedger : Prop :=
  ∀ (s : State), s.canon →
    (∀ (h : Half) (claim : Word) (g : GateOp),
      let writes := s.twn.powered[(halfIx h).val] = true ∧ s.twn.stopped[(halfIx h).val] = false ∧ claim.toNat = s.claim h
      (writes → claim.toNat = s.get F.twnGateClaimClaim → s.halfState h ≠ 4 →
        exec (.gatedWrite h claim g) s = .next (s.gateAccept g)) ∧
      (writes → claim.toNat < s.get F.twnGateClaimClaim → ∃ t, exec (.gatedWrite h claim g) s = .next t
          ∧ t.mem = s.mem ∧ t.arrays = s.arrays ∧ t.reel = s.reel ∧ t.sht = s.sht ∧ t.spn = s.spn
          ∧ t.twn.ledger = s.twn.ledger ∧ t.get F.twnLedgerSeqSequence = s.get F.twnLedgerSeqSequence
          ∧ (let f := if gateOf g = 5 then F.twnRejectLedgerRejected else F.twnRejectRejected (gateOf g)
             t.get f = min (s.get f + 1) (2 ^ f.width - 1))
          ∧ ((s.halfState h = 2 ∨ s.halfState h = 3 ∨ s.halfState h = 4) →
              t.halfState h = 4 ∧ t.flag F.twnStatusClaimRejected = true ∧ t.twn.stopped[(halfIx h).val] = true)
          ∧ ((s.halfState h = 0 ∨ s.halfState h = 1) → t.halfState h = s.halfState h ∧ t = { s with regs := t.regs })) ∧
      ((¬ writes ∨ s.get F.twnGateClaimClaim < claim.toNat ∨ (claim.toNat = s.get F.twnGateClaimClaim ∧ s.halfState h = 4)) →
        exec (.gatedWrite h claim g) s = .next s)) ∧
    (∀ (n : ArrayNum) (i : Fin 2048) (v : Word), s.usable n = true → s.busy n = false →
      s.gateAccept (.knotSet n i v) = s.modArr n fun a => { a with knots := SMap.put 0 a.knots i.val v }) ∧
    (∀ (h : Half) (t0 : DWord), s.twn.powerDown[(halfIx h).val] = some t0 →
      (∃ t, exec (.powerDownRetry h true) s = .next t ∧ t.twn.powered[(halfIx h).val] = false
        ∧ t.twn.powerDown[(halfIx h).val] = none ∧ t = { s with twn := t.twn }) ∧
      (100000 ≤ (s.time - t0).toNat → ∃ t, exec (.powerDownRetry h false) s = .next t
        ∧ t.flag F.twnStatusPowerStuck = true ∧ t.twn.powerDown[(halfIx h).val] = some s.time ∧ t.mem = s.mem)) ∧
    (∀ e v rest, s.twn.ledger.pending = (s.get F.twnGateClaimClaim, e, v) :: rest → s.ledgerOpen = true →
      ∃ t, exec .ledgerWrite s = .next t
      ∧ t.twn.ledger.pending = rest ∧ t.get F.twnLedgerSeqSequence = (s.get F.twnLedgerSeqSequence + 1) % 2 ^ 64
      ∧ t.twn.ledger.journal.getLast? = some {
          index := s.twn.ledger.count, seq := s.get F.twnLedgerSeqSequence + 1
          claim := s.get F.twnGateClaimClaim, entry := e, saved := v }
      ∧ (∀ (k : PairNum) num bytes, e = .taken ⟨.pair k, num⟩ bytes → t.taken k = num + 1
          ∧ (∀ m, s.cmd ⟨.pair k, num⟩ = some m → m.phase = .entering → (t.cmd ⟨.pair k, num⟩).map (·.phase) = some .waiting))
      ∧ (∀ r c m, e = .done r c → s.cmd r = some m → m.phase = .leaving → t.spn.writer = s.spn.writer ++ [r])
      ∧ (∀ x, s.outsideLedger x → t.byte x = s.byte x) ∧ t.arrays = s.arrays) ∧
    (∀ claim e v rest, s.twn.ledger.pending = (claim, e, v) :: rest → s.twn.ledger.placed = true →
      claim < s.get F.twnGateClaimClaim → ∃ t, exec .ledgerWrite s = .next t
        ∧ t.twn.ledger = { s.twn.ledger with pending := rest } ∧ t.mem = s.mem ∧ t.spn = s.spn ∧ t.arrays = s.arrays) ∧
    (s.twn.ledger.placed = true → s.flag F.twnStatusGap = false → s.passes .spindle → s.ledgerOpen = true →
      (1000000 ≤ (s.time - s.twn.ledger.snapTime).toNat ∨ 12288 ≤ s.twn.ledger.since) → ∃ t, exec .snapshot s = .next t
        ∧ t.twn = { s.twn with ledger := { s.twn.ledger with
            since := 0
            snapTime := s.time
            snaps := s.twn.ledger.snaps.set s.twn.ledger.older.val (some {
              seq := s.get F.twnLedgerSeqSequence + 1
              upTo := (s.twn.ledger.journal.getLast?.map (·.seq)).getD 0
              claim := s.get F.twnGateClaimClaim
              cmds := s.spn.cmds, counts := s.pairCounts, saved := s.saved })
            pending := s.twn.ledger.pending.map fun x => (x.1, x.2.1, s.saved) } }
        ∧ t.get F.twnLedgerSeqSequence = (s.get F.twnLedgerSeqSequence + 1) % 2 ^ 64
        ∧ (∀ x, s.outsideLedger x → t.byte x = s.byte x)
        ∧ t = { s with
            regs := t.regs, twn := t.twn, mem := t.mem, tline := t.tline, ue := t.ue, ce := t.ce, events := t.events
            board := t.board, linkErr := t.linkErr, free := t.free })

/-- O45. While the collector delivers and Spindle's half passes gate 0, the record next due to a pair is written to its
event ring with the pair's lost count, which returns to 0, and the pair is owed it no longer; the management channel
gets it, with its link up, as a frame of type 4. A recipient that cannot take its record for 100 ms loses it: its lost
count rises. 10 ms after the last recipient a record is forgotten and its follow-up raised. Fatal code 1 or 2 begins a
switch-over with cause 5 when a standby exists; codes 3 to 5 begin a module stop, which writes a crash record and
leaves the module unpowered. Rests also on the model's readings in log entries 36, 55, 64. (R489, R491, R492, R494,
R361, R372, R507) -/
def Obligations.RecordsReachTheirRecipients : Prop :=
  ∀ (s : State), s.canon →
    (∀ (r : Fin 17) e since, s.dueTo r = some (e, since) → s.passes .spindle →
      (s.delivers = true → s.canDeliver r e since = true → ∃ t, exec (.eventRecordWrite r) s = .next t
        ∧ (∀ x ∈ t.events.entries, x.body.seq = e.body.seq → r ∉ x.todo)
        ∧ SMap.look 0 t.events.lost r.val = 0
        ∧ (∀ k : PairNum, k.val = r.val → t.produced k 1 = s.produced k 1 + 1)
        ∧ (r.val = 16 → t.out = s.out ++ (s.mgmtTargets since).map fun x =>
            .mgmtFrame x 4 (recordBytes e.body (s.redacts r e.body) (SMap.look 0 s.events.lost r.val)))
        ∧ t.mem = s.mem ∧ t.arrays = s.arrays ∧ t.regs = s.regs) ∧
      (s.delivers = true → s.canDeliver r e since = false → 10000000 ≤ (s.time - since).toNat →
        ∃ t, exec (.recordAbandon r) s = .next t ∧ t.flag F.errStatusAbandoned = true
          ∧ t.get (F.errLostRecords r.val) = min (s.get (F.errLostRecords r.val) + 1) 0xFFFFFFFF
          ∧ (∀ x ∈ t.events.entries, x.body.seq = e.body.seq → r ∉ x.todo)
          ∧ t = { s with regs := t.regs, events := t.events }) ∧
      (s.delivers = false → exec (.eventRecordWrite r) s = .next s ∧ exec (.recordAbandon r) s = .next s)) ∧
    (∀ (q : Word) e t0, (s.events.entries.find? fun e => e.body.seq == q) = some e → e.doneAt = some t0 →
      (1000000 ≤ (s.time - t0).toNat → e.followUp = none → exec (.handlingIntervalEnd q) s = .next
        { s with events := { s.events with entries := s.events.entries.filter fun x => x.body.seq != q } }) ∧
      ((s.time - t0).toNat < 1000000 → exec (.handlingIntervalEnd q) s = .next s)) ∧
    (∀ (code : Fin 6) (twin : Bool), code ≠ 0 → s.ending = false → ∃ t, exec (.fatalEscalation ⟨code, twin⟩) s = .next t
      ∧ t.get F.errLastFatalCode = code.val ∧ t.flag F.spnStatusLomletReady = false
      ∧ ((code = 1 ∨ code = 2) → s.standby = true → t.twn.phase = .powering ∧ t.get F.twnLastCauseCause = 5)
      ∧ ((3 ≤ code.val ∨ s.standby = false) → t.board.stopping = true ∧ t.board.stopCode = code.val)
      ∧ t.mem = s.mem ∧ t.arrays = s.arrays) ∧
    (s.board.stopping = true → s.board.supply = .on → ∃ t, exec .moduleStop s = .next t ∧ t.board.supply = .off
      ∧ t.mem = [] ∧ t.coc.sessions = [] ∧ t.board.started = false ∧ t.flash.crashNext = (s.flash.crashNext + 1) % 64
      ∧ t.flash.running = s.flash.running ∧ t.pending = s.pending ∧ t.time = s.time)

/-- O46. A voltage shows in PWR_INPUT; only one above 44 V shows as input good, and one from 40 to 44 V changes nothing
else; mate-detect and a failing or reversed input show in their bits. A mate-detect break, or an input below 40 V, on
a running module begins the removal: a crash record when the start had charged the hold-up, arrays clock-stopped, the
first group at once, links down, sessions closed, no stage left done, and no command's row acting; memory changes only
where a stopped import had written. When the hold-up runs out nothing runs and memory is lost, flash stays; 500 ms
later the module may start again. Above 60 V or below -60 V the model stops with the fault absoluteMaximumExceeded
(R524, R525 assure no behaviour there). Rests also on the model's readings in log entries 55, 61. (R500, R501, R502,
R503, R504, R524, R525) -/
def Obligations.ConnectorAndRemoval : Prop :=
  ∀ (s : State) (v : Int), s.canon →
    (600 < v → exec (.voltageGood v) s = .fault .absoluteMaximumExceeded) ∧
    (v < -600 → exec (.inputFail v) s = .fault .absoluteMaximumExceeded
      ∧ exec (.reversedInput v) s = .fault .absoluteMaximumExceeded) ∧
    (v ≤ 440 → exec (.voltageGood v) s = .next (s.setVolts v)) ∧ (400 ≤ v → exec (.inputFail v) s = .next (s.setVolts v)) ∧
    (∀ u, exec (.voltageGood v) s = .next u ∨ exec (.inputFail v) s = .next u → 0 ≤ v → v ≤ 600 →
      u.get F.pwrInputVolts = v.toNat) ∧
    (440 < v → v ≤ 600 → ∃ t, exec (.voltageGood v) s = .next t ∧ t.board = { s.board with good := true }
      ∧ t.get F.pwrInputVolts = v.toNat ∧ t.flag F.pwrInputGood = true ∧ t = { s with regs := t.regs, board := t.board }) ∧
    (∃ t, exec .mateDetectMade s = .next t ∧ t.board = { s.board with mated := true } ∧ t.flag F.pwrInputMated = true
      ∧ t = { s with regs := t.regs, board := t.board }) ∧
    (
      let gone : Host.Outcome State Fault Refusal → Prop := fun o => ∃ t, o = .next t ∧ t.board.supply = .removing
        ∧ t.board.since = s.time ∧ t.board.stages = 0 ∧ t.board.fenced = true ∧ t.flag F.spnStatusLomletReady = false
        ∧ (∀ b : Port, t.flag (F.pciLinkUp b) = false) ∧ (∀ x : Fin 2, t.tlsSession x = none)
        ∧ (∀ n, s.usable n = true → n.val < 8 → (t.arr n).power ≠ .running) ∧ t.pm.dieStop = some s.time ∧ (∀ x, s.outsideImports x → t.byte x = s.byte x)
        ∧ t.flash.crashNext = (if s.board.stages.getLsbD 1 then (s.flash.crashNext + 1) % 64 else s.flash.crashNext)
      s.board.supply = .on →
        gone (exec .mateDetectBreak s) ∧ (-600 ≤ v → v < 400 → gone (exec (.inputFail v) s)) ∧
        (-600 ≤ v → v ≤ 0 → gone (exec (.reversedInput v) s))) ∧
    (s.board.supply ≠ .on → ∃ t, exec .mateDetectBreak s = .next t ∧ t.board = { s.board with mated := false }
      ∧ t = { s with regs := t.regs, board := t.board }) ∧
    (s.board.supply = .removing → ∀ c op f, s.runCmd c op f = s) ∧
    (s.board.supply = .removing → ∃ t, exec .holdUpExhausted s = .next t ∧ t.board.supply = .holdoff ∧ t.board.since = s.time
      ∧ t.board.good = false ∧ t.board.mated = false ∧ t.mem = [] ∧ t.arrays = State.reset.arrays
      ∧ t.flash.running = s.flash.running ∧ t.flash.crash = s.flash.crash
      ∧ t.get F.cocLifecycleState = s.get F.cocLifecycleState ∧ t.pending = s.pending ∧ t.time = s.time) ∧
    (s.board.supply = .holdoff → 50000000 ≤ (s.time - s.board.since).toNat →
      exec .restartHoldoffEnd s = .next { s with board := { s.board with supply := .off } }) ∧
    (s.board.supply = .holdoff → (s.time - s.board.since).toNat < 50000000 → exec .restartHoldoffEnd s = .next s)

/-- O47. The link comes up, with its polarity and what its network gives, only once its PHY has passed its check. With the
link up, Cocoon ready and its keys derived, a TLS 1.3 handshake on port 5410 with R399's suite, group and scheme, no
PSK, resumption or early data, whose chain ends at an installed anchor, or at Gosait's integrator root while no anchor
is installed, opens a free session; a third does not open. A session closes on request and after 24 h, with the
commands not yet taken. A good command frame waits to be taken; frames of types 5 and 6 are anchor and crash frames;
any other frame is counted and closes its session. A current anchor's session may install into a free slot, replace,
and remove, but not the last anchor; the root's may install the first; no other session changes an anchor. A crash
read of an anchor's session answers the slot's 4,096 bytes. Rests also on the model's readings in log entry 59. (R399,
R400, R515, R516, R517) -/
def Obligations.ManagementSessions : Prop :=
  ∀ (s : State), s.canon →
    (∀ link : MgmtLink, (s.board.stages.getLsbD 10 = true → s.board.mgmtOk = true → s.board.fenced = false →
        ∃ t, exec (.managementLinkUp link) s = .next t ∧ t.flag F.mgtStatusLinkUp = true
          ∧ t.flag F.mgtStatusPolarity = link.reversed ∧ t.board.net = link.net
          ∧ t = { s with regs := t.regs, board := t.board }) ∧
      (s.board.mgmtOk = false → exec (.managementLinkUp link) s = .next s)) ∧
    (∃ t, exec .managementLinkDown s = .next t ∧ t.flag F.mgtStatusLinkUp = false ∧ t.flag F.mgtStatusPolarity = false
      ∧ t.board.net = { ipv4 := none, prefix6 := none, vlan := none } ∧ t = { s with regs := t.regs, board := t.board }) ∧
    (∀ (k : Option (Fin 4)) (h : TlsHello), s.flag F.mgtStatusLinkUp = true → s.flag F.cocStatusReady = true →
      s.coc.derived = true →
      let settings := h.tcpPort = 5410 ∧ (h.vlan = none ∨ h.vlan = s.board.net.vlan) ∧ h.version = .tls13
        ∧ h.suite = .aes256GcmSha384 ∧ h.group = .secp384r1 ∧ h.scheme = .ecdsaSecp384r1Sha384
        ∧ h.psk = false ∧ h.resumed = false ∧ h.earlyData = false
      let admitted := settings ∧ ((∃ j, k = some j ∧ (s.anchor j).isSome = true)
        ∨ (k = none ∧ h.integratorRoot = true ∧ s.noAnchor = true))
      (admitted → ∀ x, s.freeTls = some x → ∃ t, exec (.managementSessionOpen k h) s = .next t
        ∧ t.tlsSession x = some { opened := s.time, anchor := k, stale := false, keyUpdates := 0 }
        ∧ (∀ y, y ≠ x → t.tlsSession y = s.tlsSession y) ∧ t.out = s.out ++ [.tlsChain x s.flash.mgmtChain]
        ∧ t = { s with coc := { s.coc with tls := t.coc.tls }, regs := t.regs, board := t.board, out := t.out }) ∧
      ((¬ admitted ∨ s.freeTls = none) → exec (.managementSessionOpen k h) s = .next s)) ∧
    (∀ x : Fin 2, s.tlsSession x = none → exec (.managementSessionClose x) s = .next s) ∧
    (∀ (x : Fin 2) (u : Tls), s.tlsSession x = some u →
      let closed : State → Prop := fun t => t.tlsSession x = none ∧ (∀ y, y ≠ x → t.tlsSession y = s.tlsSession y)
        ∧ (∀ q ∈ t.spn.mgmtQ, q.1 ≠ x)
        ∧ t = { s with coc := { s.coc with tls := t.coc.tls }, spn := t.spn, regs := t.regs }
      let bad : Host.Outcome State Fault Refusal → Prop := fun o => ∃ t, o = .next t ∧ closed t
        ∧ t.get F.mgtBadFramesFrames = min (s.get F.mgtBadFramesFrames + 1) (2 ^ F.mgtBadFramesFrames.width - 1)
      (∃ t, exec (.managementSessionClose x) s = .next t ∧ closed t) ∧
      (8640000000000 ≤ (s.time - u.opened).toNat →
        exec (.tlsSessionExpiry x) s = exec (.managementSessionClose x) s) ∧
      ((s.time - u.opened).toNat < 8640000000000 → exec (.tlsSessionExpiry x) s = .next s) ∧
      (∃ t, exec (.tlsKeyUpdate x) s = .next t ∧ t.tlsSession x = some { u with keyUpdates := u.keyUpdates + 1 }
        ∧ (∀ y, y ≠ x → t.tlsSession y = s.tlsSession y)
        ∧ t = { s with coc := { s.coc with tls := t.coc.tls }, regs := t.regs }) ∧
      (∀ (ty : Nat) (body : List Byte),
        let taken := (ty = 1 ∧ body.length = 64) ∨ (ty = 2 ∧ commandSized ty body = true)
        (taken → exec (.commandFrame x ty 0 body) s = .next { s with spn := { s.spn with
          mgmtQ := s.spn.mgmtQ ++ [(x, body.take 64, body.drop 64)] } }) ∧
        (ty ≠ 5 → ty ≠ 6 → ¬ taken → bad (exec (.commandFrame x ty 0 body) s)) ∧
        (∀ res : BitVec 16, res ≠ 0 → bad (exec (.commandFrame x ty res body) s))) ∧
      (∀ body, exec (.commandFrame x 5 0 body) s = exec (.anchorFrame x body) s
        ∧ exec (.commandFrame x 6 0 body) s = exec (.crashRead x body) s) ∧
      (∀ (k : Fin 4) (cert : List Byte), cert ≠ [] → cert.length ≤ 4096 →
        let current := u.anchor ≠ none ∧ u.stale = false
        let frame : Byte → List Byte → Host.Outcome State Fault Refusal := fun op more =>
          exec (.anchorFrame x ([op, BitVec.ofNat 8 k.val, 0, 0] ++ more)) s
        let leaves : Host.Outcome State Fault Refusal → Option (List Byte) → Prop := fun o v => ∃ t, o = .next t
          ∧ t.anchor k = v ∧ (∀ j, j ≠ k → t.anchor j = s.anchor j)
        ((current ∨ (u.anchor = none ∧ s.noAnchor = true)) → s.anchor k = none → leaves (frame 1 cert) (some cert)) ∧
        (current → s.anchor k ≠ none → leaves (frame 3 cert) (some cert)) ∧
        (current → s.anchor k ≠ none → (∃ j, j ≠ k ∧ s.anchor j ≠ none) → leaves (frame 2 []) none) ∧
        (current → s.anchor k ≠ none → (∀ j, j ≠ k → s.anchor j = none) → leaves (frame 2 []) (s.anchor k))) ∧
      (∀ (ty : Nat) (res : BitVec 16) (body : List Byte), (u.anchor ≠ none → u.stale = true) →
        (u.anchor = none → s.noAnchor = false ∨ fieldAt body 0 1 ≠ 1) →
        ∃ t, exec (.commandFrame x ty res body) s = .next t ∧ t.flash = s.flash) ∧
      (∀ body, body.length < 4 → bad (exec (.anchorFrame x body) s)) ∧
      (∀ body, body.length ≠ 4 → bad (exec (.crashRead x body) s)) ∧
      (∀ j : Fin 64, (u.anchor ≠ none → exec (.crashRead x (leBytes 4 j.val)) s = .next
          { s with out := s.out ++ [.mgmtFrame x 7 (bytesAt (SMap.look [] s.flash.crash j.val) 0 4096)] }) ∧
        (u.anchor = none → exec (.crashRead x (leBytes 4 j.val)) s = .next s)))

/-- O48. After the SerDes check a port that exists, is down and not fenced comes up at the widest width its passing lanes
form, with that width and speed shown. A port that goes down shows no width and speed, link_down set, its check owed
again, its SPDM sessions ended and its MSI-X table reset; PERST# does the same to a port. D3hot stops the decoding of
BARs and the return to D0 lets it go on, with nothing else changed. No array changes, and memory only where imports in
progress have written; an import whose session ends with the port has what it wrote, from its destination on, filled
with zeros. Rests also on the model's readings in log entry 60. (R450, R508, R509, R511, R512) -/
def Obligations.LinksTrainAndDrop : Prop :=
  ∀ (port : Port) (s : State), s.canon →
    (∀ width speed, s.stage 10 = true → s.portOk port.val = true → s.flag (F.pciLinkUp port) = false →
      s.board.fenced = false → s.board.recheck.getLsbD port.val = false → s.widthOk port width = true →
      1 ≤ speed → speed ≤ 5 → ∃ t, exec (.linkUp port width speed) s = .next t ∧ t.flag (F.pciLinkUp port) = true
        ∧ t.get (F.pciLinkWidth port) = width ∧ t.get (F.pciLinkSpeed port) = speed ∧ t = { s with regs := t.regs, board := t.board }) ∧
    (
      let dropped : Host.Outcome State Fault Refusal → Prop := fun o => ∃ t, o = .next t
        ∧ t.flag (F.pciLinkUp port) = false ∧ t.get (F.pciLinkWidth port) = 0 ∧ t.flag (F.pciLinkLinkDown port) = true
        ∧ t.flag (F.pciLinkD3hot port) = false ∧ t.board.recheck.getLsbD port.val = true
        ∧ (∀ x ∈ t.coc.sessions, x.port ≠ port) ∧ (∀ v, v < 32 → t.msixMasked port v = true)
        ∧ (s.coc.imports = [] → t.mem = s.mem ∧ t.spn.cmds = s.spn.cmds) ∧ t.arrays = s.arrays
        ∧ (∀ x, s.outsideImports x → t.byte x = s.byte x)
        ∧ (∀ m u, s.coc.imports = [m] → s.coc.sessions = [u] → u.id = m.session → u.port = port → m.dest % 64 = 0 →
            m.done % 64 = 0 → (∀ g ∈ granulesOf m.dest m.done, s.importMay m.part (max g m.dest) = true) →
            t.coc.imports = [] ∧ ∀ x, t.byte x = if m.dest ≤ x ∧ x < m.dest + m.done then 0 else s.byte x)
      s.flag (F.pciLinkUp port) = true →
        dropped (exec (.linkDown port) s) ∧ (s.stage 10 = true → s.portOk port.val = true → dropped (exec (.perst port) s))) ∧
    (s.flag (F.pciLinkUp port) = false → exec (.linkDown port) s = .next s) ∧
    (s.flag (F.pciLinkUp port) = true →
      (∃ t, exec (.d3hot port) s = .next t ∧ t.portLive port = false ∧ t = { s with regs := t.regs }) ∧
      (∃ t, exec (.returnToD0 port) s = .next t ∧ t.portLive port = true ∧ t = { s with regs := t.regs }))

/-- O49. With 54 V good and mate-detect made an unpowered module starts at time 0, with stage 1 done and the fingerprint
read from its seed. Each later row ends its stage: hold-up charged; Cocoon ready with its platform key; a half active
with claim 2 or 3 from an area whose head passes, or, with none, a dead module; identity compared, a mismatch holding
the start; vault PHYs, which powers the arrays' memory sections, a second failure holding it without; every usable
vault cleared; the tier trained, a second failure holding it and taking the arrays' power away; the tier cleared, with
the platform's top granules and the copy of Spindle's code; the SerDes checked, with the lanes that pass; sampler and
Hawkmoth loaded; and at the end lomlet_ready with the ledger placed and the unusable map in flash. A row whose digest
check fails ends no stage and sets load_fail. Rests also on the model's readings in log entries 35, 54, 72. (R439,
R354, R404, R447, R448, R449, R157, R162, R349, R355, R457, R458) -/
def Obligations.StartStages : Prop :=
  ∀ (s : State), s.canon →
    let frame : State → Prop := fun t => t.mem = s.mem ∧ t.pending = s.pending
    let refuses : Host.Outcome State Fault Refusal → Nat → Prop := fun o k => ∃ t, o = .next t ∧ t.stage k = false
      ∧ t.flag F.spnStatusLoadFail = true ∧ frame t
    (s.board.supply = .off → s.board.good = true → s.board.mated = true → ∃ t, exec .start s = .next t
      ∧ t.board.supply = .on ∧ t.stage 1 = true ∧ t.time = 0
      ∧ (∀ k, s.flash.seed = some k → t.get F.cocFingerprintFingerprint = fingerprintOf (secretsOf k) % 2 ^ 32) ∧ frame t) ∧
    (s.stage 1 = true → ∃ t, exec .holdUpCharged s = .next t ∧ t.stage 2 = true ∧ t.flag F.pwrInputHoldupReady = true ∧ frame t) ∧
    (s.stage 1 = true → s.stage 3 = false →
      (∃ t, exec (.cocoonKeyDerivation true) s = .next t ∧ t.stage 3 = true ∧ t.flag F.cocStatusReady = true
        ∧ t.bit F.tierKeyStatLoaded 8 = true ∧ t.coc.draws = s.coc.draws + 1
        ∧ t.coc.derived = ((s.inProduction || s.lifecycle == 2) && s.flash.seed.isSome) ∧ frame t) ∧
      (∃ t, exec (.cocoonKeyDerivation false) s = .next t ∧ t.stage 3 = false ∧ t.flag F.cocStatusEntropyFail = true
        ∧ t.coc = s.coc ∧ frame t)) ∧
    (s.stage 1 = true → s.stage 4 = false → s.board.dead = false →
      (∀ rb fb,
        let r := rb && s.flash.headOk s.flash.running.pieces
        let f := fb && s.flash.headOk s.flash.fallback.pieces
        let fallback := if s.flash.record ≤ 1 then !r else f
        ((r = true ∨ f = true) → ∃ t, exec (.pupaLoaderBoot rb fb) s = .next t ∧ t.stage 4 = true
          ∧ t.halfState s.bootHalf = 2 ∧ t.activeHalf = s.bootHalf ∧ t.claim s.bootHalf = 2 + (halfIx s.bootHalf).val
          ∧ t.get F.twnGateClaimClaim = 2 + (halfIx s.bootHalf).val ∧ t.flash.record = (if fallback = true then 4 else 0)
          ∧ t.flash = { s.flash with records := t.flash.records, fellBack := t.flash.fellBack } ∧ frame t) ∧
        (r = false → f = false → ∃ t, exec (.pupaLoaderBoot rb fb) s = .next t ∧ t.board.dead = true ∧ t.stage 4 = false
          ∧ t.flash.crashNext = (s.flash.crashNext + 1) % 64 ∧ frame t))) ∧
    (∀ tray manifold, s.stage 4 = true → s.stage 5 = false → s.flag F.spnStatusLoadFail = false →
      let matched := identityFault 1 (some tray) = 0 ∧ identityFault 2 (some manifold) = 0
        ∧ fieldAt manifold 3 1 = s.get F.idmOwnLoopType ∧ fieldAt tray 3 1 = s.get F.idmOwnLoopType
        ∧ fieldAt tray 4 1 = s.get F.idmOwnSlotKind
      (matched → ∃ t, exec (.identityCheck (some tray) (some manifold) true) s = .next t ∧ t.stage 5 = true
        ∧ t.flag F.idmStatusMismatch = false ∧ t.get F.idmStatusCause = 0 ∧ frame t) ∧
      (¬ matched → ∃ t, exec (.identityCheck (some tray) (some manifold) true) s = .next t ∧ t.stage 5 = true
        ∧ t.flag F.idmStatusMismatch = true ∧ t.heldCode = (if s.heldCode = 0 then 1 else s.heldCode) ∧ frame t) ∧
      refuses (exec (.identityCheck (some tray) (some manifold) false) s) 5) ∧
    (∀ tray manifold, s.stage 5 = true → s.heldCode = 1 → 1000000000 ≤ (s.time - s.board.identityAt).toNat →
      (s.compareIdentity tray manifold).2 = true → (∃ n, s.usable n = true) →
      ∃ t, exec (.identityRecheck tray manifold) s = .next t ∧ t.heldCode = 0 ∧ t.stage 13 = false ∧ t.stage 5 = true ∧ frame t) ∧
    (s.stage 5 = true → s.stage 6 = false → s.heldCode = 0 → s.flag F.spnStatusLoadFail = false → (∃ n, s.usable n = true) →
      (∀ first second, first = true ∨ second = true → ∃ t, exec (.vaultPhyCheck true first second 0 0) s = .next t
        ∧ t.stage 6 = true ∧ t.heldCode = 0 ∧ t.board.sections = true ∧ t.arrays = s.arrays ∧ frame t) ∧
      (∃ t, exec (.vaultPhyCheck true false false 0 0) s = .next t ∧ t.stage 6 = true ∧ t.heldCode = 2
        ∧ t.board.sections = false ∧ frame t) ∧
      (∀ first second, refuses (exec (.vaultPhyCheck false first second 0 0) s) 6)) ∧
    (s.stage 6 = true → s.stage 7 = false → s.heldCode = 0 → ∃ t, exec .startVaultClear s = .next t ∧ t.stage 7 = true
      ∧ (∀ n, s.usable n = true → (t.arr n).vtags = [] ∧ t.flag (F.vltStatusClearDone n) = true
          ∧ ∀ x, vaultBase n ≤ x → x < vaultBase n + vaultSize → t.byte x = 0)
      ∧ (∀ x, 0x1800000000 ≤ x → t.byte x = s.byte x)) ∧
    (s.stage 6 = true → s.stage 8 = false → s.board.lpddrLoaded = false → s.board.lpddrFailed = false →
      s.flag F.spnStatusLoadFail = false →
      (∀ first second, first = true ∨ second = true → ∃ t, exec (.tierTraining true first second) s = .next t
        ∧ t.stage 8 = true ∧ t.flag F.tierStatusReady = true ∧ t.heldCode = s.heldCode ∧ frame t) ∧
      (s.heldCode = 0 → ∃ t, exec (.tierTraining true false false) s = .next t ∧ t.stage 8 = false ∧ t.heldCode = 3
        ∧ t.board.lpddrFailed = true ∧ t.board.sections = false
        ∧ (∀ n, t.arr n = { ArrayState.reset with vtags := (s.arr n).vtags }) ∧ frame t) ∧
      (∀ first second, refuses (exec (.tierTraining false first second) s) 8)) ∧
    (s.stage 8 = true → s.stage 9 = false → s.bit F.tierKeyStatLoaded 8 = true → ∃ t, exec .startTierClear s = .next t
      ∧ t.stage 9 = true ∧ (∀ g, t.ttag g = if 0xFF00 ≤ g ∧ g < 0x10000 then platformTag else 0)
      ∧ (
        let code := tierBase + 0xFF00 * 0x400000 + Config.codePlace
        (∀ x, x < code ∨ code + Config.codeLength ≤ x →
          t.byte x = if tierBase ≤ x ∧ x < tierBase + tierSize then 0 else s.byte x) ∧
        (Config.codePlace + Config.codeLength ≤ 0x40000000 → ∀ i, i < Config.codeLength →
          t.byte (code + i) = (bytesAt (Config.spindleCode s.inService.pieces) 0 Config.codeLength).getD i 0))
      ∧ t.arrays = s.arrays) ∧
    (∀ (laneFail retryFail : BitVec 16) first second strap, s.stage 2 = true → s.stage 5 = true → s.stage 10 = false →
      (s.stage 6 = true ∨ s.heldCode = 1) → s.flag F.spnStatusLoadFail = false →
      (∃ t, exec (.serdesCheck ⟨true, true⟩ laneFail retryFail first second strap) s = .next t ∧ t.stage 10 = true
        ∧ t.get F.pciLaneOkLanes = (~~~(laneFail &&& retryFail)).toNat ∧ t.flag (F.pciLinkBifurcated 0) = strap
        ∧ t.board.mgmtOk = (first || second) ∧ frame t) ∧
      (∀ pcieOk mgmtOk, pcieOk = false ∨ mgmtOk = false →
        refuses (exec (.serdesCheck ⟨pcieOk, mgmtOk⟩ laneFail retryFail first second strap) s) 10)) ∧
    (s.stage 10 = true → s.stage 11 = false → s.flag F.spnStatusLoadFail = false →
      (∃ t, exec (.samplerHawkmothLoad true true) s = .next t ∧ t.stage 11 = true ∧ t.flag F.smpStatusReady = true
        ∧ t.flag F.hwkStatusReady = true ∧ frame t) ∧
      (∀ a b, a = false ∨ b = false → refuses (exec (.samplerHawkmothLoad a b) s) 11)) ∧
    (s.stage 13 = false → s.flag F.spnStatusLoadFail = false → s.heldCode = 0 → (∀ k ∈ List.range 13, 1 ≤ k → s.stage k = true) →
      s.board.started = false → (∃ n, s.usable n = true) → ∃ t, exec .lomletReady s = .next t ∧ t.stage 13 = true
        ∧ t.flag F.spnStatusLomletReady = true ∧ t.board.started = true ∧ t.twn.ledger.placed = true ∧ t.twn.heartbeat = s.time
        ∧ t.get F.mltBootTicksTicks = s.time.toNat % 2 ^ 32
        ∧ t.flash.unusable = some (BitVec.ofNat 64 (s.get F.mltUnusableUnusable)) ∧ frame t)

/-- O50. A started MLT_RUN of free usable arrays runs a moult and waits; while one runs, a bit-error test runs, or an
array it names is in a partition, it is BUSY. A batch puts at most eight usable arrays under test, and none begins
while a gap holds Spindle. The end of an array's test leaves its spool zero and no other byte of memory changed, ends
the test, and shows Passed or, at a first failure, queues a retest; a raw run shows no result. MLT_QUERY answers the
three maps. PRBS_START of idle lanes runs a bit-error test and PRBS_STOP ends it. Rests also on the model's readings
in log entries 56, 57. (R451, R452, R453, R459, R461, R462, R521, R522) -/
def Obligations.MoultAndBitErrorTests : Prop :=
  ∀ (s : State) (c : CmdRef) (m : Cmd), s.canon →
    (s.Started c 0x0701 m →
      let named := arraysOfMap (BitVec.ofNat 64 (m.arg 8 8))
      let taken := (∃ n ∈ named, (s.partOf n).isSome = true ∨ s.bit F.mltCondemnedCondemned n = true) ∨ (named ≠ [] ∧ s.heldCode ≠ 0)
      let barred := m.arg 17 1 = 1 ∧ s.lifecycle ≠ 0 ∧ s.lifecycle ≠ 2
      (barred → Completes (exec (.mltRun c) s) s c stLifecycle []) ∧
      (¬ barred → (s.board.moult.running = true ∨ s.board.prbs ≠ none ∨ taken ∨ s.analogBusy m (m.arg 16 1 % 16) = true) →
        Completes (exec (.mltRun c) s) s c stBusy []) ∧
      (¬ barred → s.board.moult.running = false → s.board.prbs = none → ¬ taken → s.analogBusy m (m.arg 16 1 % 16) = false →
        (∃ n ∈ named, s.usable n = true) → ∃ u, Waits (exec (.mltRun c) s) u c .moult
          ∧ u.board.moult.running = true ∧ u.board.moult.ref = some c ∧ u.board.moult.todo = named.filter (fun n => s.usable n)
          ∧ u.flag F.mltStatusRunning = true ∧ u = { s with board := u.board, regs := u.regs })) ∧
    (s.Started c 0x0702 m → Completes (exec (.mltQuery c) s) s c stOk
      (leBytes 8 (s.get F.mltUnusableUnusable) ++ leBytes 8 (s.get F.mltLastFailFailed) ++ leBytes 1 (s.get F.mltLastAnalogFailed))) ∧
    (s.board.moult.running = true → s.board.moult.batch = [] → s.board.moult.todo ≠ [] → s.nextBatch ≠ [] →
      s.gapHolds = false →
      ∃ t, exec .moultBatch s = .next t ∧ t.board.moult.batch = s.nextBatch ∧ s.nextBatch.length ≤ 8 ∧ (∀ n ∈ s.nextBatch, s.usable n = true)
        ∧ (∀ n ∈ s.nextBatch, t.arr n = { s.arr n with test := .running, warming := false })
        ∧ (∀ n, n ∉ s.nextBatch → t.arr n = s.arr n) ∧ t = { s with arrays := t.arrays, board := t.board }) ∧
    (∀ (n : ArrayNum) (r : TestEnd), (s.arr n).test = .running → n ∈ s.board.moult.batch → s.pm.tripOff.getLsbD n.val = false →
      ∃ t, exec (.arrayTestEnd n r) s = .next t ∧ (t.arr n).test = .none ∧ n ∉ t.board.moult.batch
        ∧ (∀ x, t.byte x = if spoolBase n ≤ x ∧ x < spoolBase n + spoolSize then 0 else s.byte x)
        ∧ (∀ k, k ≠ n → t.arr k = s.arr k)
        ∧ (s.board.moult.raw = false → r = .passed → t.get (F.mltAResultResult n) = 1)
        ∧ (s.board.moult.raw = false → r = .failed → s.board.moult.failedOnce.getLsbD n.val = false →
            t.get (F.mltAResultResult n) = 2 ∧ n ∈ t.board.moult.retest)
        ∧ (s.board.moult.raw = true → t.get (F.mltAResultResult n) = s.get (F.mltAResultResult n))) ∧
    (s.Started c 0x0703 m → ∀ what : Fin 3, m.arg 8 1 = what.val →
      (s.prbsCheck m what.val (m.arg 12 4) = stOk → ∃ u, Completes (exec (.prbsStart c) s) u c stOk []
        ∧ u.board.prbs = some (what, m.arg 12 4) ∧ u = { s with regs := u.regs, board := u.board }) ∧
      (s.prbsCheck m what.val (m.arg 12 4) ≠ stOk →
        Completes (exec (.prbsStart c) s) s c (s.prbsCheck m what.val (m.arg 12 4)) [])) ∧
    (s.Started c 0x0704 m → ∀ (what : Fin 3) mask, s.board.prbs = some (what, mask) → m.arg 8 1 = what.val →
      ∃ u, Completes (exec (.prbsStop c) s) u c stOk [] ∧ u.board.prbs = none ∧ u.mem = s.mem ∧ u.arrays = s.arrays
        ∧ (what = 0 → u.flag F.pciPrbsStatRunning = false) ∧ (what = 1 → u.flag F.tierPrbsStatRunning = false)
        ∧ (what = 2 → u.flag F.mgtStatusPrbsRunning = false)) ∧
    (s.Started c 0x0704 m → s.board.prbs = none → Completes (exec (.prbsStop c) s) s c stOk [])

/-- O51. PWR_CAP sets the host cap to the value limited to 120 to 420 W, holds it in flash, and answers CAP_BELOW_FLOOR
below 120, CAP_SETTLING while the estimate is above the effective cap, and OK otherwise. PWR_MODE sets the frequency
mode and notes the isolation that the next estimate applies; while an earlier mode change has not reached every usable
array it is BUSY. PWR_SHARE gives a partition its share within R419's limits, else BAD_ARGUMENT. THM_WARM sets warm
enable and floor of 30 to 75 degrees, in flash too. PWR_QUERY answers its row and changes nothing. Rests also on the
model's readings in log entry 50. (R415, R416, R419, R421, R433, R436) -/
def Obligations.PowerCommands : Prop :=
  ∀ (s : State) (c : CmdRef) (m : Cmd), s.canon →
    (s.Started c 0x0601 m →
      let v := m.arg 8 2
      let cap := min 420 (max 120 v)
      let w := ({ s.set F.pwrCapHostCap cap with flash := { s.flash with hostCap := cap } } : State).refreshCap
      ∃ u, Completes (exec (.pwrCap c) s) u c
          (if v < 120 then stFloor else if w.effCap < w.moduleEst then stSettling else stOk) []
        ∧ u.get F.pwrCapHostCap = cap ∧ u.flash = { s.flash with hostCap := cap } ∧ u.get F.pwrCapEffCap = w.effCap / 100
        ∧ u = { s with regs := u.regs, flash := u.flash }) ∧
    (s.Started c 0x0602 m →
      ((∃ n, s.pm.freqWait.getLsbD n.val = true ∧ s.usable n = true) → Completes (exec (.pwrMode c) s) s c stBusy []) ∧
      ((∀ n, s.usable n = true → s.pm.freqWait.getLsbD n.val = false) → ∃ u, Completes (exec (.pwrMode c) s) u c stOk []
        ∧ (u.flag F.pwrStatusOpportunistic = (m.arg 8 1 == 1))
        ∧ u.pm.isolatedNext = some (m.arg 9 1 == 1) ∧ u = { s with regs := u.regs, pm := u.pm })) ∧
    (s.Started c 0x0603 m → ∀ p : PartNum, m.part? = some p →
      let v := m.arg 8 2
      let bad := v < 2 * (s.arraysOf p).length ∨ 345 < v ∨ 8 * 345 < s.shareSum8 - s.share8 p + 8 * v
      (bad → Completes (exec (.pwrShare c) s) s c stBad []) ∧
      (¬ bad → ∃ u, Completes (exec (.pwrShare c) s) u c stOk [] ∧ u.get (F.pwrShareShare p) = v
        ∧ ((s.part p).live = true → u.share8 p = 8 * v) ∧ u = { s with regs := u.regs, pm := u.pm })) ∧
    (s.Started c 0x0604 m →
      ((1 < m.arg 8 1 ∨ m.arg 9 1 < 30 ∨ 75 < m.arg 9 1) → Completes (exec (.thmWarm c) s) s c stBad []) ∧
      (m.arg 8 1 ≤ 1 → 30 ≤ m.arg 9 1 → m.arg 9 1 ≤ 75 → ∃ u, Completes (exec (.thmWarm c) s) u c stOk []
        ∧ u.get F.thmStatusWarmEn = m.arg 8 1 ∧ u.get F.thmFloorFloor = m.arg 9 1
        ∧ u.flash = { s.flash with warm := (m.arg 8 1 == 1), floor := m.arg 9 1 }
        ∧ u = { s with regs := u.regs, flash := u.flash, arrays := u.arrays })) ∧
    (s.Started c 0x0605 m → Completes (exec (.pwrQuery c) s) s c stOk
      (match s.concerns m with
        | some p => s.queryPart p
        | none => s.queryModule))

/-- O52. POWER_ESTIMATE shows each array's weighted activity and static term with its trim, and ends a settling once the
estimate is at or below the cap. ESTIMATE_TRIM moves the trims by the difference to the averages, within R409's bounds
only. A pacing slot, at most one in 10 us, stops or releases at most one array: heat before caps before releases. A
clock-stopped array that a cap or full throttling holds for gate_ms drains, then loses power with its weight buffers,
and on release, at a slot and neither while settling nor without firmware, runs again with its valid planes staged
again; a half's gated array writes keep the same slots, holds and trips. A rotation starts a swap every rot_ms while a
cap holds some arrays off. An idle array takes its mode's frequency, its clock standing 20 us. Rests also on the
model's readings in log entries 35, 49, 50. (R34, R89, R408, R409, R410, R411, R412, R416, R420, R421) -/
def Obligations.EstimatesPacingAndRelease : Prop :=
  ∀ (s : State), s.canon → s.board.stages.getLsbD 1 = true →
    (∀ (acts : List Activity) (plat : Nat), ∃ t, exec (.powerEstimate acts plat) s = .next t
      ∧ (∀ n : ArrayNum,
          let vdd := s.get (F.pwrAVfVddMv n)
          let raw := ((acts[n.val]?).map (weighted vdd)).getD 0 + Config.staticTerm n.val vdd (s.usedTemp n)
          t.arrEst n = min 65535 (((raw / 10000 : Nat) : Int) + SMap.look 0 s.pm.trims n.val).toNat)
      ∧ t.get F.pwrEstPlatform = min plat 65535 ∧ t.get F.pwrEstModule = min 65535 (t.moduleEst / 10)
      ∧ (∀ b, s.pm.isolatedNext = some b → t.flag F.pwrStatusIsolated = b ∧ t.pm.isolatedNext = none)
      ∧ (s.flag F.pwrStatusSettling = true → t.flag F.pwrStatusSettling = decide (t.effCap < t.moduleEst))
      ∧ t.mem = s.mem ∧ t.pcieMem = s.pcieMem) ∧
    (∀ (measured : Nat) (trimmed : List Nat),
      let h := s.recentEst 10000000
      let total := h.length * trimmed.sum + (h.map fun x => (x[64]?).getD 0).sum
      let ok := s.pmReady = true ∧ h ≠ [] ∧ trimmed.length = 64 ∧ measured * h.length ≤ total
        ∧ 100 * total ≤ h.length * (100 * measured + 3 * s.effCap)
      (ok → ∃ t, exec (.estimateTrim measured trimmed) s = .next t ∧ t = { s with pm := { s.pm with trims := t.pm.trims } }
        ∧ ∀ n : ArrayNum, SMap.look 0 t.pm.trims n.val
            = SMap.look 0 s.pm.trims n.val + (((trimmed[n.val]?).getD 0 : Nat) : Int) - ((avgAt h n.val : Nat) : Int)) ∧
      (¬ ok → exec (.estimateTrim measured trimmed) s = .next s)) ∧
    (
      let ready := ∀ t0, s.pm.lastSlot = some t0 → 1000 ≤ (s.time - t0).toNat
      let one : ArrayNum → State → Prop := fun n t => (∀ k, k ≠ n → t.arr k = s.arr k) ∧ t.pm.lastSlot = some s.time
        ∧ t = { s with arrays := t.arrays, pm := t.pm }
      (¬ ready → exec .pacingSlot s = .next s) ∧
      (ready →
        (∀ n, s.heatPick = some n → ∃ t, exec .pacingSlot s = .next t ∧ one n t ∧ (t.arr n).power = .clockStopped
          ∧ t.pm.capOff = s.pm.capOff) ∧
        (∀ n, s.heatPick = none → s.capPick = some n → ∃ t, exec .pacingSlot s = .next t ∧ one n t
          ∧ (t.arr n).power = .clockStopped ∧ t.pm.capOff.getLsbD n.val = true) ∧
        (∀ n, s.heatPick = none → s.capPick = none → s.releasePick = some n → ∃ t, exec .pacingSlot s = .next t
          ∧ (∀ k, k ≠ n → t.arr k = s.arr k) ∧ t.pm.capOff.getLsbD n.val = false
          ∧ ((s.arr n).power = .gated → t.arr n = s.arr n ∧ t.pm.releasing.getLsbD n.val = true
            ∧ t.pm.lastSlot = s.pm.lastSlot)
          ∧ ((s.arr n).power ≠ .gated → t.arr n = { s.arr n with power := .running } ∧ t.pm.lastSlot = some s.time)
          ∧ t = { s with arrays := t.arrays, pm := t.pm }) ∧
        (s.heatPick = none → s.capPick = none → s.releasePick = none →
          exec .pacingSlot s = .next (if s.pm.swapStep = 1 then s.swapIdle else s)))) ∧
    (∀ n : ArrayNum,
      let held := (s.pm.capOff.getLsbD n.val = true ∧ s.sinceAtLeast s.pm.capSince n.val s.gateTicks = true)
        ∨ (s.pm.dutyOff.getLsbD n.val = true ∧ s.get (F.pwrADutyD n) = 16
          ∧ s.sinceAtLeast s.pm.fullSince n.val s.gateTicks = true)
      (s.pmReady = true → (s.arr n).power = .clockStopped → held →
        exec (.gateHoldExpiry n) s = .next (s.modArr n fun a => { a with power := .draining })) ∧
      ((s.pmReady = false ∨ (s.arr n).power ≠ .clockStopped ∨ ¬ held) → exec (.gateHoldExpiry n) s = .next s) ∧
      ((s.arr n).power = .draining → (s.arr n).quiet = true →
        exec (.powerGateDrainDone n) s = .next (s.modArr n fun a => { a with power := .gated, wbuf := [] })) ∧
      (
        let may := s.pm.releasing.getLsbD n.val = true ∧ (∀ t0, s.pm.lastSlot = some t0 → 1000 ≤ (s.time - t0).toNat)
          ∧ s.pmReady = true ∧ s.flag F.pwrStatusSettling = false
        (may → ∃ t, exec (.releaseFromPowerGate n) s = .next t
          ∧ t.pm.releasing.getLsbD n.val = false ∧ (∀ k, k ≠ n → t.arr k = s.arr k)
          ∧ ((s.arr n).power = .gated → t.pm.lastSlot = some s.time ∧
              t.arr n = { s.arr n with power := .running, restaging := (s.arr n).planes.any fun x => x.2.isSome })
          ∧ t = { s with arrays := t.arrays, pm := t.pm }) ∧
        (¬ may → exec (.releaseFromPowerGate n) s = .next s)) ∧
      ((∃ t0, s.pm.lastSlot = some t0 ∧ (s.time - t0).toNat < 1000) →
        s.gateAccept (.arrayOff n) = s ∧ s.gateAccept (.arrayRelease n) = s) ∧
      (¬ (s.pmReady = true ∧ (s.arr n).power = .clockStopped ∧ held) → s.pm.ownTrip.getLsbD n.val = false →
        s.gateAccept (.arrayGate n) = s) ∧
      ((s.pmReady = false ∨ s.flag F.pwrStatusSettling = true ∨ s.heatHeld n = true) → s.gateAccept (.arrayRelease n) = s) ∧
      (s.pm.freqWait.getLsbD n.val = true → s.busy n = false → ∃ t, exec (.frequencyRelock n) s = .next t
        ∧ t.get (F.pwrAVfFRun n)
            = (if s.flag F.pwrStatusOpportunistic = true then min (s.get (F.pwrAVfFMax n)) 236 else 200)
        ∧ t.pm.freqWait.getLsbD n.val = false ∧ (∀ k, k ≠ n → t.arr k = s.arr k)
        ∧ t.arr n = { s.arr n with clockHold := max (s.arr n).clockHold 2000 }
        ∧ t = { s with regs := t.regs, arrays := t.arrays, pm := t.pm }) ∧
      (s.busy n = true → exec (.frequencyRelock n) s = .next s)) ∧
    (
      let off := (allArrays.filter fun n => s.pm.capOff.getLsbD n.val).length
      s.pmReady = true → s.get F.pwrCtlRotMs ≠ 0 → 0 < off →
      off < (allArrays.filter fun n => s.usable n && !s.heatHeld n).length → s.pm.swapStep = 0 →
      100000 * s.get F.pwrCtlRotMs ≤ (s.time - s.pm.rotAt).toNat →
      exec .rotation s = .next { s with pm := { s.pm with swapStep := 1, rotAt := s.time } })

/-- O53. With every sensor plausible a conversion shows each reading and each array's higher one; an array at or above 115
degrees stops. A trip is released after 100 ms at or below 95 degrees. THROTTLE_PERIOD sets the off fraction by R426's
table, and DUTY_OFF_END ends the off part. A flow reading is scaled, moves the flow state by R429's table, and an open
or shorted input is a fault; coolant loss and a missed watchdog bring the hardware cap. A re-plan sets the voltage of
an idle array and waits for a busy one, and is forced after 24 h in a stop of the clock. An array's thermal resistance
keeps the rated maxima at 0.6 and 1.0 L/min. Rests also on the model's readings in log entries 5, 51, 52, 53. (R423,
R424, R425, R426, R428, R429, R430, R431, R432, R434, R519, R532) -/
def Obligations.HeatFlowAndAgeing : Prop :=
  ∀ (s : State), s.canon → s.board.stages.getLsbD 1 = true →
    (∀ (rs : List SensorRead) (v : Nat → Int),
      (∀ i, i < 144 → rs[i]? = some (.value (v i)) ∧ -32768 ≤ v i ∧ v i < 32768
        ∧ (s.pm.inletOk = true → s.inlet - 50 ≤ v i)) →
      ∃ t, exec (.sensorConversion rs) s = .next t ∧ t.mem = s.mem
        ∧ (∀ i, i < 144 → t.reading i = v i ∧ t.plausible i = true)
        ∧ (∀ n : ArrayNum, t.usedTemp n = max (v (2 * n.val)) (v (2 * n.val + 1))
          ∧ t.flag (F.thmHotModel n) = false
          ∧ (s.pm.ownTrip.getLsbD n.val = false → 1150 ≤ max (v (2 * n.val)) (v (2 * n.val + 1)) →
              t.pm.tripOff.getLsbD n.val = true ∧ t.flag (F.pwrADutyTripped n) = true
              ∧ (s.usable n = true → (t.arr n).power ≠ .running)))) ∧
    (∀ n : ArrayNum,
      (s.pm.tripOff.getLsbD n.val = true → s.pm.dieHot = 0 → s.sinceAtLeast s.pm.coolSince n.val 10000000 = true →
        (s.pm.blind.getLsbD n.val = true → s.sinceAtLeast s.pm.plausSince n.val 100000000 = true) →
        ∃ t, exec (.tripRelease n) s = .next t ∧ t.pm.tripOff.getLsbD n.val = false
          ∧ t.flag (F.pwrADutyTripped n) = false ∧ t = { s with regs := t.regs, pm := t.pm }) ∧
      (s.sinceAtLeast s.pm.diffSince n.val 100000001 = true → s.pm.diverged.getLsbD n.val = false →
        ∃ t, exec (.sensorDiverge n) s = .next t ∧ t.flag (F.thmHotDiverge n) = true ∧ t.flag F.thmStatusDiverge = true
          ∧ t.pm.diverged.getLsbD n.val = true ∧ t.mem = s.mem ∧ t.arrays = s.arrays) ∧
      (s.pmReady = true → s.usable n = true → ∃ t, exec (.throttlePeriod n) s = .next t
        ∧ t = { s with regs := t.regs, pm := t.pm }
        ∧ t.pm.dutyOff.getLsbD n.val = (t.get (F.pwrADutyD n) != 0)
        ∧ t.get (F.pwrADutyD n) = (if 1050 ≤ s.usedTemp n then 16
            else if 1020 ≤ s.usedTemp n then min 16 (s.get (F.pwrADutyD n) + 2)
            else if 980 ≤ s.usedTemp n then s.get (F.pwrADutyD n) else s.get (F.pwrADutyD n) - 1)) ∧
      (s.pm.dutyOff.getLsbD n.val = true → s.get (F.pwrADutyD n) < 16 →
        s.sinceAtLeast s.pm.dutySince n.val (12500 * s.get (F.pwrADutyD n)) = true →
        ∃ t, exec (.dutyOffEnd n) s = .next t ∧ t.pm.dutyOff.getLsbD n.val = false ∧ t = { s with pm := t.pm }) ∧
      (s.pmReady = true → s.mayWarm n = true → s.usedTemp n < ((10 * s.get F.thmFloorFloor : Nat) : Int) →
        exec (.warmingLoadStart n) s = .next (s.modArr n fun a => { a with warming := true })) ∧
      (∀ (speeds : List (Nat × Nat)) vdd khz, s.pmReady = true → s.usable n = true → s.pm.replanned.getLsbD n.val = false →
        720 * hourTicks ≤ s.agedFor → planVoltage speeds = some (vdd, khz) →
        ∃ t, exec (.ageingReplan n speeds) s = .next t ∧ t.mem = s.mem ∧
          (s.busy n = false → t.get (F.pwrAVfVddMv n) = vdd ∧ t.get (F.pwrAVfFMax n) = min 255 (khz * 20 / 21 / 1000)
            ∧ t.get (F.pwrAAgeMarginMv n) = min (550 - vdd) 255) ∧
          (s.busy n = true → t.get (F.pwrAVfVddMv n) = s.get (F.pwrAVfVddMv n)
            ∧ (SMap.look none t.pm.replans n.val).map (·.vdd) = some vdd)) ∧
      (∀ r, SMap.look none s.pm.replans n.val = some r → 24 * hourTicks ≤ (s.time - r.due).toNat →
        r.vdd < 1024 → r.fMax < 256 → ∃ t, exec (.replanForcedApply n) s = .next t
          ∧ t.get (F.pwrAVfVddMv n) = r.vdd ∧ t.get (F.pwrAVfFMax n) = r.fMax
          ∧ SMap.look none t.pm.replans n.val = none
          ∧ (t.arr n).clockHold = max (s.arr n).clockHold 10000 ∧ t.mem = s.mem)) ∧
    (∀ n flow, (1000 ≤ flow → thermalAt n flow ≤ 8000) ∧ (600 ≤ flow → thermalAt n flow ≤ 9500)) ∧
    (
      let lost := fun (t : State) => t.pm.flow = .loss ∧ t.pm.lossCap = true ∧ t.flag F.pwrStatusFlowLoss = true
        ∧ t.effCap ≤ 12000 ∧ t.mem = s.mem ∧ t.arrays = s.arrays
      (∀ ua, (3000 ≤ ua ∧ ua ≤ 22000) →
        let x := min (ua - 4000) 16000
        ∃ t, exec (.flowReading ua) s = .next t ∧ t.get F.thmInletFlow = x / 8 ∧ t.flag F.pwrStatusFlowFault = false
          ∧ (s.pm.flow ≠ .loss → x < 400 → s.flowWasHigh = true → lost t)
          ∧ ((400 ≤ x ∨ s.flowWasHigh = false ∨ s.pm.flow = .loss) →
              (s.pm.flow = .normal → t.pm.flow = if x < 2400 then .short else if x < 4800 then .low else .normal) ∧
              (s.pm.flow = .low → t.pm.flow = if x < 2400 then .short else .low) ∧
              (s.pm.flow = .short → t.pm.flow = if 2800 ≤ x then .low else .short) ∧
              (s.pm.flow = .loss → t.pm.flow = .loss))) ∧
      (∀ ua, (ua < 3000 ∨ 22000 < ua) → ∃ t, exec (.flowReading ua) s = .next t ∧ t.flag F.pwrStatusFlowFault = true
        ∧ t.pm.flow = s.pm.flow ∧ t.get F.thmInletFlow = s.get F.thmInletFlow ∧ t.flowCap = none) ∧
      (s.flag F.pwrStatusFlowFault = false → s.pm.flow ≠ .loss → s.flowWasHigh = true →
        ∃ t, exec .lossComparatorTrip s = .next t ∧ lost t)) ∧
    (∀ t0, s.pm.flowOkSince = some t0 → 100000000 ≤ (s.time - t0).toNat →
      (s.pm.flow = .low → ∃ t, exec .flowRecovery s = .next t ∧ t.pm.flow = .normal ∧ t.flag F.pwrStatusFlowLow = false) ∧
      (s.pm.flow = .loss → ∃ t, exec .flowRecovery s = .next t ∧ t.pm.lossCap = false
        ∧ t.pm.flow = if s.get F.thmInletFlow < 350 then .short else .low)) ∧
    (∀ ohms, ∃ t, exec (.inletReading ohms) s = .next t ∧ t = { s with regs := t.regs, pm := t.pm }
      ∧ t.pm.inletOk = (decide (600 ≤ ohms) && decide (ohms ≤ 2200))
      ∧ ((ohms < 600 ∨ 2200 < ohms) → t.inlet = 450)) ∧
    (s.pmReady = true → s.board.update.pauseAt = none → ∃ t, exec .pmWatchdog s = .next t
      ∧ t.flag F.pwrStatusPmWatchdog = true ∧ t.pmReady = false ∧ t.pm.watchdog = true ∧ t.effCap ≤ 12000
      ∧ (s.ending = false → t.board.stopping = true) ∧ t.mem = s.mem)

/-- O54. In an instance in use, a transfer is cut into bursts of 1 to 64 beats within 4 KiB, which wait at its source's
requester behind that source's own. At an arbitration the requester with the highest counter, the lowest index of
equals, is granted its next source's burst: its counter falls by the burst's beats and stops at 0, its beats are
counted, and every other counter and queue of the instance stays. A cut, once the hold count can reach the hold limit,
puts the undelivered beats back at the queue's head, returns what delivered beats did not use up to the cap, and sits
the owner out. A window boundary refills every counter and applies an armed commit, or refuses one that would leave
requester 8 too little. A commit write that passes its gate arms the instances it names. Rests also on the model's
readings in log entry 34. (R306, R307, R308, R309, R310, R311, R312, R313, R314) -/
def Obligations.ArbiterGrantsAndCredits : Prop :=
  ∀ (s : State) (i : Fin 4), s.canon → s.shtActive i = true →
    let a := s.sht[i.val]
    (∀ addr n b, b ∈ cutBursts addr n → 1 ≤ b.beats ∧ b.beats ≤ 64 ∧ b.addr % 64 = 0
      ∧ b.addr / 4096 = (b.addr + 64 * b.beats - 1) / 4096) ∧
    (∀ (src : ShtSource) (addr n : Nat), src ≠ .hawkmothPort →
      (∀ r, s.shtRequester i src = some r → exec (.burstRequest i src ⟨addr, n⟩) s
        = .next (s.modSht i fun x => x.mod r fun q => q.push src (cutBursts addr n))) ∧
      (s.shtRequester i src = none → exec (.burstRequest i src ⟨addr, n⟩) s = .next s)) ∧
    (
      let w := match a.owner with
        | some g => s.shtForward i g.burst
        | none => s
      (∀ (r : Fin 10) (src : ShtSource) (b : Burst) (own : List Burst) (rest : List (ShtSource × List Burst)),
        a.reqs[r.val].queue = (src, b :: own) :: rest → a.sitOut ≠ some r →
        (∀ k : Fin 10, a.reqs[k.val].queue ≠ [] → a.sitOut ≠ some k → k ≠ r →
          a.reqs[k.val].credit < a.reqs[r.val].credit ∨ (a.reqs[k.val].credit = a.reqs[r.val].credit ∧ r < k)) →
        ∃ t, exec (.arbitration i) s = .next t
          ∧ t.sht[i.val].reqs[r.val].credit = a.reqs[r.val].credit - b.beats
          ∧ t.sht[i.val].reqs[r.val].queue = (if own = [] then rest else rest ++ [(src, own)])
          ∧ t.sht[i.val].owner = some {
              req := r, source := src, burst := b, deducted := min b.beats a.reqs[r.val].credit, slots := 0 }
          ∧ t.sht[i.val].sitOut = none
          ∧ (∀ k : Fin 10, k ≠ r → t.sht[i.val].reqs[k.val].credit = a.reqs[k.val].credit
              ∧ t.sht[i.val].reqs[k.val].queue = a.reqs[k.val].queue)
          ∧ (∀ j : Fin 4, j ≠ i → t.sht[j.val] = w.sht[j.val])
          ∧ t.get (F.shtBeatsBeats i r) = min (s.get (F.shtBeatsBeats i r) + b.beats) (2 ^ 64 - 1)
          ∧ t = { s with sht := t.sht, regs := t.regs }) ∧
      ((∀ k : Fin 10, a.reqs[k.val].queue = [] ∨ a.sitOut = some k) → ∃ t, exec (.arbitration i) s = .next t
        ∧ t.sht[i.val].owner = none ∧ t.sht[i.val].sitOut = none
        ∧ (∀ k : Fin 10, t.sht[i.val].reqs[k.val].credit = a.reqs[k.val].credit)
        ∧ (∀ j : Fin 4, j ≠ i → t.sht[j.val] = w.sht[j.val]) ∧ t = { s with sht := t.sht })) ∧
    (∀ (g : Grant) (d : Nat), a.owner = some g →
      ((g.burst.beats ≤ d ∨ g.slots + s.shtSlots i < s.shtLimit i g.req) → exec (.holdLimitCut i d) s = .next s) ∧
      (d < g.burst.beats → s.shtLimit i g.req ≤ g.slots + s.shtSlots i →
        let q := a.reqs[g.req.val]
        ∃ t, exec (.holdLimitCut i d) s = .next t
          ∧ t.sht[i.val].reqs[g.req.val].queue
            = (g.source, { addr := g.burst.addr + 64 * d, beats := g.burst.beats - d }
                :: (q.queue.filter fun x => x.1 == g.source).flatMap (·.2)) :: q.queue.filter fun x => x.1 != g.source
          ∧ t.sht[i.val].reqs[g.req.val].credit = max q.credit (min (q.credit + (g.deducted - d)) (s.shtCap i g.req))
          ∧ t.sht[i.val].owner = none ∧ t.sht[i.val].sitOut = some g.req ∧ t.flag (F.shtIStatHoldCut i) = true
          ∧ t.get (F.shtCutsCuts i g.req) = min (s.get (F.shtCutsCuts i g.req) + 1) 0xFFFFFFFF
          ∧ t = { s with sht := t.sht, regs := t.regs, events := t.events, board := t.board })) ∧
    (s.board.supply ≠ .on → exec .windowBoundary s = .next s) ∧
    (s.board.supply = .on → ∃ t, exec .windowBoundary s = .next t ∧ t.sht[i.val].armed = false
      ∧ t.get F.shtWindowWindows = min (s.get F.shtWindowWindows + 1) (2 ^ 64 - 1)
      ∧ (∀ r : Fin 10, t.sht[i.val].reqs[r.val].credit
          = min (min a.reqs[r.val].credit (t.shtCap i r) + t.get (F.shtWeightWeight i r)) (t.shtCap i r))
      ∧ (
        let enough := shtFloor i ≤ bitsAt (s.reg (shtWeightKey i 8 + 0x80000)).toNat 0 16
        (∀ r, r < shtCount i → t.reg (shtWeightKey i r)
          = s.reg (if a.armed = true ∧ enough then shtWeightKey i r + 0x80000 else shtWeightKey i r)) ∧
        (a.armed = true → ¬ enough → t.flag (F.shtIStatCommitRefused i) = true) ∧
        (a.armed = true → t.flag (F.shtIStatCommitPending i) = false))
      ∧ t = { s with sht := t.sht, regs := t.regs }) ∧
    (∀ (q : Requester) (v : Word), nonSecure q = false → s.passes q → ∃ t, exec (.shtCommit q v) s = .next t
      ∧ (v.getLsbD i.val = true → t.sht[i.val].armed = true ∧ t.flag (F.shtIStatCommitPending i) = true)
      ∧ (v.getLsbD i.val = false → t.sht[i.val] = s.sht[i.val])
      ∧ (∀ r : Fin 10, t.sht[i.val].reqs[r.val] = s.sht[i.val].reqs[r.val]) ∧ t = { s with sht := t.sht, regs := t.regs })

/-- O55. A go starts the step whose descriptor passes R182; a bad descriptor, or one that the reel may not read, sets
rejected, and a go while a step runs only sets dropped. The end of a step serves its slots in order: a live slot takes
the frames it needs in pool order, its length is raised and the map names its frames; a slot short of frames is parked
and takes none. Updates wait while a step runs. An expired parked request whose own need is short is ended
PAGE_EXHAUSTED when nothing can be evicted, and in a gap none is. Where the reel may touch every place, a finished
eviction moves the bytes of all pages to their tier slots, sets in_tier and returns the frames in page order; a copy
back does the reverse, and a request that loads queues. Rests also on the model's readings in log entries 37, 71.
(R179, R180, R182, R183, R185, R187, R188, R189, R190, R263) -/
def Obligations.ReelStepsAndCopies : Prop :=
  ∀ (s : State) (p : PartNum), s.canon →
    (∀ (q : Requester) (v : Word), nonSecure q = false → v.getLsbD 0 = true →
      ((s.reel.steps[p.val]).isSome = true → ∃ t, exec (.reelPStepGo q p v) s = .next t
        ∧ t.flag (F.reelPStepStatDropped p) = true ∧ t = { s with regs := t.regs }) ∧
      (
        let a := s.get (F.reelPStepAddrAddr p) * 64
        let len := 64 + 16 * fieldAt (s.load a 64) 6 2
        let w := (s.correct a len 5).countRead a len
        let on := s.flag (F.reelPCtlEnable p) = true ∧ s.flag F.reelStatusReady = true
        let rejected : Prop := ∃ t, exec (.reelPStepGo q p v) s = .next t ∧ t.reel = s.reel
          ∧ t.flag (F.reelPStepStatRejected p) = true ∧ t.mem = s.mem ∧ t.arrays = s.arrays
        (s.reel.steps[p.val]).isNone = true → s.reel.updates = [] →
        ((s.reelCause p true a len).isSome = true → rejected) ∧
        ((s.badIn a len).isSome = true → rejected) ∧
        (s.reelCause p true a len = none → s.badIn a len = none →
          (∀ d, w.readDesc p a = some d → on → ∃ t, exec (.reelPStepGo q p v) s = .next t
            ∧ t.reel.steps[p.val] = some d ∧ t.flag (F.reelPStepStatRunning p) = true ∧ t.mem = s.mem ∧ t.arrays = s.arrays) ∧
          ((w.readDesc p a = none ∨ ¬ on) → rejected)))) ∧
    (s.reel.steps[p.val] = none → exec (.reelStepComplete p) s = .next s) ∧
    (∀ (d : StepDesc), s.reel.steps[p.val] = some d → s.reel.bad = [] → (d.slots.map (·.seq)).Nodup →
      (∀ x ∈ d.slots, (∀ r, s.request x.seq = some r → r.inStep = false) ∧ s.seqIn p x.seq = true
        ∧ (s.seqState x.seq = 1 ∨ s.seqState x.seq = 2) ∧ s.seqInTier x.seq = false ∧ s.seqFallback x.seq = false
        ∧ pagesOf (s.seqLen x.seq + x.q) ≤ s.seqCap x.seq) →
      (∀ x ∈ d.slots, ∀ y ∈ d.slots, x.seq ≠ y.seq →
        s.seqMap x.seq + s.seqCap x.seq ≤ s.seqMap y.seq ∨ s.seqMap y.seq + s.seqCap y.seq ≤ s.seqMap x.seq) →
      let needs := d.slots.map fun x => pagesOf (s.seqLen x.seq + x.q) - pagesOf (s.seqLen x.seq)
      let met := metFrom (s.framePool p).length needs
      let taken := fun k => (((needs.zip met).take k).map fun x => if x.2 = true then x.1 else 0).sum
      ∃ t, exec (.reelStepComplete p) s = .next t
        ∧ t.reel.steps[p.val] = none ∧ t.flag (F.reelPStepStatRunning p) = false ∧ t.flag (F.reelPStepStatDone p) = true
        ∧ t.get (F.reelPStepNumStep p) = d.step.toNat
        ∧ (∀ y, (∀ n : ArrayNum, d.arrays.getLsbD n.val = true → ¬ (spoolBase n + d.table ≤ y ∧ y < spoolBase n + spoolSize)) →
            t.byte y = s.byte y)
        ∧ t.framePool p = (s.framePool p).drop (taken d.slots.length)
        ∧ ∀ k x, d.slots[k]? = some x →
            let have_ := pagesOf (s.seqLen x.seq)
            (met[k]? = some true → t.seqLen x.seq = s.seqLen x.seq + x.q ∧ t.seqState x.seq = 1
              ∧ (∀ j f, have_ + j < pagesOf (s.seqLen x.seq + x.q) → (s.framePool p)[taken k + j]? = some f →
                  t.mapEntry (s.seqMap x.seq + have_ + j) = entryOf f 1)) ∧
            (met[k]? = some false → t.seqLen x.seq = s.seqLen x.seq ∧ t.seqState x.seq = 2
              ∧ (∀ j, j < s.seqCap x.seq → t.mapEntry (s.seqMap x.seq + j) = s.mapEntry (s.seqMap x.seq + j)))) ∧
    ((s.reel.steps[p.val]).isSome = true → exec (.sequenceUpdateApply p) s = .next s) ∧
    (s.reel.steps[p.val] = none → ∃ t, exec (.sequenceUpdateApply p) s = .next t ∧ t.mem = s.mem ∧ t.arrays = s.arrays
      ∧ (s.reel.bad = [] → t.reel.updates = s.reel.updates.filter (fun u => u.1 != p)
          ∧ (∀ i, s.reel.updates = [(p, .pause i)] → t.seqState i = 3 ∧ t.seqLen i = s.seqLen i)
          ∧ (s.reel.ce = [] → t = { s with reel := t.reel }))) ∧
    ((s.deadlinesHeld = true ∨ s.startsCommands = false) → exec (.parkExpiry p) s = .next s) ∧
    (∀ i r, s.deadlinesHeld = false → s.startsCommands = true → s.expiredParked p = [i] → s.reel.bad = [] →
      s.request i = some r → s.short p i = true → s.framesComing p = 0 →
      (s.seqFallback i = true ∨ s.evictable p 0x10000 = none) → ∃ t, exec (.parkExpiry p) s = .next t ∧ t.mem = s.mem
        ∧ (s.flag F.twnStatusGap = true → t.srv = s.srv)
        ∧ (s.flag F.twnStatusGap = false → (t.request i).map (·.phase) = some (.ending 5)
            ∧ t.get (F.reelPExhaustedCount p) = min (s.get (F.reelPExhaustedCount p) + 1) 0xFFFFFFFF)) ∧
    (∀ (k : PageCopy), s.clean → s.reel.bad = [] → (∀ i r, s.request i = some r → r.phase ≠ .loading) →
      (∀ i, (s.conv i).holdUntil = none) →
      let old := (List.zipIdx k.places).map fun x => entryFrame (s.mapEntry (s.seqMap k.seq + x.2))
      let moved := fun (t : State) (parts : List (Nat × Nat × Nat)) =>
        (∀ m ∈ parts, ∀ j, j < m.2.2 → t.byte (m.2.1 + j) = s.byte (m.1 + j)) ∧
        (∀ y, (∀ m ∈ parts, ¬ (m.2.1 ≤ y ∧ y < m.2.1 + m.2.2)) → t.byte y = s.byte y)
      let apart := fun (parts : List (Nat × Nat × Nat)) =>
        (∀ m ∈ parts, s.reelCause p false m.1 m.2.2 = none ∧ s.reelCause p false m.2.1 m.2.2 = none
          ∧ ∀ o ∈ parts, m.1 + m.2.2 ≤ o.2.1 ∨ o.2.1 + o.2.2 ≤ m.1) ∧
        parts.Pairwise fun m o => m.2.1 + m.2.2 ≤ o.2.1 ∨ o.2.1 + o.2.2 ≤ m.2.1
      let out := ((old.zip k.places).map fun x => s.copyParts p x.1 x.2).flatten
      let back := ((k.places.zip old).map fun x => (s.copyParts p x.1 x.2).map fun m => (m.2.1, m.1, m.2.2)).flatten
      (s.nextCopy p true = some k → apart out → ∃ t, exec (.evictionCopyDone p) s = .next t
        ∧ moved t out ∧ t.seqInTier k.seq = true ∧ t.framePool p = old.reverse ++ s.framePool p ∧ k ∉ t.reel.copies
        ∧ ∀ x ∈ List.zipIdx k.places, t.mapEntry (s.seqMap k.seq + x.2) = entryOf x.1 2) ∧
      (s.nextCopy p false = some k → apart back → ∃ t, exec (.copyBackDone p) s = .next t
        ∧ moved t back ∧ t.seqInTier k.seq = false ∧ t.slotPool p = old.reverse ++ s.slotPool p ∧ k ∉ t.reel.copies
        ∧ ∀ x ∈ List.zipIdx k.places, t.mapEntry (s.seqMap k.seq + x.2) = entryOf x.1 1)) ∧
    (∀ (k : PageCopy) r, s.nextCopy p false = some k → s.request k.seq = some r → r.phase = .loading → s.reel.bad = [] →
      ∃ t, exec (.copyBackDone p) s = .next t ∧ (t.request k.seq).map (·.phase) = some .queued)

/-- O56. A submission that a check of R241 turns away completes with that status and changes nothing. An accepted new one
takes the first free sequence index and map run, gets a handle with the next serial, and its request is queued with
its prompt; one that continues a conversation adds its prompt to it, and loads first where the pages are in the tier.
REQ_CANCEL of a request outside a step ends it with code 4, within a step marks it, of an ended one answers
LATE_CANCEL, and of an unknown handle BAD_ARGUMENT. CONV_RELEASE frees a paused conversation, and is BUSY while a
request runs and TTL_EXPIRED after its deadline. REQ_QUERY answers the state, or the status of the end, with length
and the tokens written, an end record not counted. SERVE_CONFIG is BUSY while a request runs, BAD_ARGUMENT outside its
ranges, and else sets its three values. Rests also on the model's readings in log entries 39, 41. (R237, R239, R241,
R243, R244, R262, R264, R265, R267) -/
def Obligations.RequestCommands : Prop :=
  ∀ (s : State) (c : CmdRef) (m : Cmd) (p : PartNum), s.canon → m.part? = some p →
    (∀ hw : HostStores,
      let w := s.hostStores hw
      let addr := m.arg 8 8
      let bs := if w.inHostWindow p addr 128 then w.blockRead addr 128 else List.replicate 128 0
      let d := readReqDesc bs
      let n := d.promptTokens
      let raw := w.blockRead d.promptAddr (4 * n)
      let prompt := if w.inHostWindow p d.promptAddr (4 * n) then (List.range n).map fun k => fieldAt raw (4 * k) 4 else []
      w.Started c 0x0401 m →
      let st := w.submitCheck p m.taken addr bs prompt
      (st ≠ stOk → Completes (exec (.reqSubmit c hw) s) w c st []) ∧
      (∀ i base, st = stOk → d.cont = false → w.freeIndex p = some i →
        w.mapRun p (pagesOf d.convMax) = some base →
        let serial := ((w.conv i).serial + 1) % 0x10000
        ∃ u, Completes (exec (.reqSubmit c hw) s) u c stOk (leBytes 4 (handleOf i serial))
          ∧ u.arrays = w.arrays ∧ u.coc = w.coc ∧ u.vid = w.vid ∧ u.srv.admissions = w.srv.admissions + 1
          ∧ (((w.reel.steps[p.val]).isSome = true ∨ w.reel.bad = []) → (∀ k, k ≠ i → u.conv k = w.conv k) ∧ u.conv i = {
              part := p, serial := serial, live := true, expired := none, maxTokens := d.convMax, fallback := d.fallback
              tokens := prompt.map fun x => (x, true), keep := d.keep, deadline := none, holdUntil := none
              request := some (newRequest d .queued w.srv.admissions none) })
          ∧ (w.reel.steps[p.val] = none → w.reel.bad = [] →
              u.seqState i = 1 ∧ u.seqLen i = 0 ∧ u.seqMap i = base % 2 ^ 18)) ∧
      (st = stOk → d.cont = true →
        let i := d.handle % 0x4000
        let tier := w.seqInTier i || w.copying i
        ∃ u, Completes (exec (.reqSubmit c hw) s) u c stOk (leBytes 4 d.handle)
          ∧ u.arrays = w.arrays ∧ u.coc = w.coc ∧ u.vid = w.vid ∧ u.srv.admissions = w.srv.admissions + 1
          ∧ ((w.reel.bad = [] ∨ (tier = false ∧ (w.reel.steps[p.val]).isSome = true)) →
            (∀ k, k ≠ i → u.conv k = w.conv k) ∧ u.conv i = { w.conv i with
              tokens := (w.conv i).tokens ++ prompt.map fun x => (x, true)
              keep := d.keep, deadline := none, holdUntil := none
              request := some (newRequest d (if tier = true then .loading else .queued) w.srv.admissions
                (if tier = true then some w.time else none)) }))) ∧
    (s.Started c 0x0402 m →
      (s.byName p (m.arg 8 4) = none → Completes (exec (.reqCancel c) s) s c stBad []) ∧
      (∀ i, s.byName p (m.arg 8 4) = some i →
        (s.request i = none → Completes (exec (.reqCancel c) s) (s.bump F.smpCancelLateCancels) c stLate []) ∧
        (∀ r, s.request i = some r →
          ((∃ e, r.phase = .ending e) → Completes (exec (.reqCancel c) s) s c stOk []) ∧
          ((∀ e, r.phase ≠ .ending e) → r.inStep = true →
            Completes (exec (.reqCancel c) s) (s.modReq i fun r => { r with cancel := true }) c stOk []) ∧
          ((∀ e, r.phase ≠ .ending e) → r.inStep = false → ∃ u, Completes (exec (.reqCancel c) s) u c stOk []
            ∧ u.mem = s.mem ∧ u.arrays = s.arrays
            ∧ ∃ e, (u.request i).map (·.phase) = some (.ending e) ∧ (s.reel.bad = [] → e = 4))))) ∧
    (s.Started c 0x0403 m →
      (s.handleExpired (m.arg 8 4) m.taken = true → Completes (exec (.convRelease c) s) s c stTtl []) ∧
      (s.handleExpired (m.arg 8 4) m.taken = false →
        (s.byHandle p (m.arg 8 4) = none → Completes (exec (.convRelease c) s) s c stBad []) ∧
        (∀ i, s.byHandle p (m.arg 8 4) = some i →
          ((s.request i).isSome = true → Completes (exec (.convRelease c) s) s c stBusy []) ∧
          (s.request i = none → s.reel.steps[p.val] = none → ∃ u, Completes (exec (.convRelease c) s) u c stOk []
            ∧ (u.conv i).live = false ∧ (u.conv i).tokens = [] ∧ u.seqState i = 0
            ∧ (∀ k ∈ u.reel.copies, k.seq ≠ i) ∧ u.mem = s.mem ∧ u.arrays = s.arrays
            ∧ (s.reel.bad = [] → s.reel.ce = [] → u = { s with
                reel := u.reel, srv := u.srv
                twn := { s.twn with ledger := { s.twn.ledger with pending := u.twn.ledger.pending } } }))))) ∧
    (s.Started c 0x0404 m →
      (s.byName p (m.arg 8 4) = none → Completes (exec (.reqQuery c) s) s c stBad []) ∧
      (∀ i, s.byName p (m.arg 8 4) = some i → Completes (exec (.reqQuery c) s) s c stOk
        (leBytes 1 (reqStateCode (s.conv i).request) ++ leBytes 4 (s.seqLen i)
          ++ leBytes 4 (((s.conv i).request.map (·.generated)).getD 0)))) ∧
    (s.Started c 0x0405 m →
      let slots := m.arg 8 2
      let chunk := m.arg 10 2
      let tokens := m.arg 12 2
      let ok := 1 ≤ slots ∧ slots ≤ 1024 ∧ 16 ≤ chunk ∧ chunk ≤ 8192 ∧ chunk % 16 = 0 ∧ 1 ≤ tokens ∧ tokens ≤ 8192
      let busy := ∃ i ∈ s.seqRange p, (s.conv i).live = true ∧ (s.request i).isSome = true
      (busy → Completes (exec (.serveConfig c) s) s c stBusy []) ∧
      (¬ busy → ¬ ok → Completes (exec (.serveConfig c) s) s c stBad []) ∧
      (¬ busy → ok → ∃ u, Completes (exec (.serveConfig c) s) u c stOk []
        ∧ u.srv.maxSlots[p.val] = slots ∧ u.srv.chunk[p.val] = chunk ∧ u.srv.stepTokens[p.val] = tokens
        ∧ (∀ k : PartNum, k ≠ p → u.srv.maxSlots[k.val] = s.srv.maxSlots[k.val])
        ∧ u = { s with srv := u.srv }))

/-- O57. A partition with one queued request whose prompt fits a chunk posts a step with just that request, which leaves
Queued. A sampled token is written to its ring record and the produced count after it; the token joins the
conversation and the request goes on in Decode; a cancel that came first wins, and where the request table entry is
uncorrectable the request ends with code 6. A stalled request whose ring has room again decodes. An end record makes
the request end: its conversation is kept until its deadline, without prompt tokens that no step took, or released. An
expired conversation is released and its handle remembered, unless a command read in time still acts on it. At the end
of the vault hold its frames start to move to tier slots. A loading request that cannot get frames ends with code 5.
Rests also on the model's readings in log entries 37, 39, 40. (R243, R245, R246, R251, R255, R257, R258, R259, R260,
R261, R262, R263) -/
def Obligations.RequestsRunToTheirEnd : Prop :=
  ∀ (s : State) (p : PartNum) (i : Fin 16384) (hw : HostStores), s.canon →
    let w := s.hostStores hw
    let v := s.conv i
    (w.serving = false → exec (.stepPost p hw) s = .next w) ∧
    (∀ r : Request, w.serving = true → w.srv.posted[p.val] = none → (w.part p).model.isSome = true → (w.part p).live = true →
      (w.part p).destroying = false → w.sessionEnded p = false → w.reel.steps[p.val] = none → w.reel.updates = [] → w.seqRange p = [i.val] →
      w.request i = some r → r.phase = .queued → r.produced = 0 → 4096 ≤ r.desc.ringBytes →
      fieldAt (w.blockRead (r.desc.ctlAddr + 32) 8) 0 8 = 0 → 0 < r.left → r.left ≤ w.srv.chunk[p.val] →
      r.left ≤ w.srv.stepTokens[p.val] → 0 < w.srv.maxSlots[p.val] → r.inStep = false →
      w.seqLen i + r.left ≤ (w.conv i).maxTokens →
      ∃ t x, exec (.stepPost p hw) s = .next t ∧ t.srv.posted[p.val] = some x ∧ x.seqs = [i.val] ∧ x.written = false
        ∧ x.step = BitVec.ofNat 32 (s.get (F.reelPStepNumStep p) + 1)
        ∧ (t.request i).map (fun r => (r.phase, r.inStep, r.sampled, r.q)) = some (.prefill, true, true, r.left)
        ∧ t.arrays = w.arrays) ∧
    (∀ (x : Posted) (md : Model) (r : Request), s.srv.posted[p.val] = some x → x.written = true → x.seqs = [i.val] →
      (s.part p).model = some md → s.flag F.smpStatusReady = true → s.request i = some r → r.inStep = true →
      r.sampled = true →
      (i.val ∈ s.srv.badEntries → (∀ e, r.phase ≠ .ending e) → ∃ t, exec (.sampleJob p) s = .next t
        ∧ t.srv.posted[p.val] = none ∧ (t.request i).map (·.phase) = some (.ending 6) ∧ i.val ∉ t.srv.badEntries
        ∧ t.mem = s.mem) ∧
      (i.val ∉ s.srv.badEntries → r.cancel = true → (∀ e, r.phase ≠ .ending e) → s.reel.bad = [] → ∃ t, exec (.sampleJob p) s = .next t ∧ t.srv.posted[p.val] = none
        ∧ (t.request i).map (·.phase) = some (.ending 4)
        ∧ t.get F.smpCancelWonCancels = min (s.get F.smpCancelWonCancels + 1) 0xFFFFFFFF ∧ t.mem = s.mem) ∧
      (
        let l := (if i.val ∈ s.srv.ceEntries then s.entryEcc i false else s).readLogits p md 0
        let u := l.1
        ∀ token logprob, i.val ∉ s.srv.badEntries → r.cancel = false → (∀ y ∈ l.2, f32IsNaN y.2 = false) →
          sample r.desc v.tokens v.tokens.length l.2 = some (token, logprob) →
          (r.desc.stop.filter fun y => y != 0xFFFFFFFF).contains token = false → r.generated + 1 < r.desc.maxNew →
          let at_ := r.desc.ringAddr + 8 * (r.produced % r.desc.records)
          let rec8 := leBytes 8 (token % 0x40000 + logprob % 0x10000 * 2 ^ 32 + v.tokens.length % 0x10000 * 2 ^ 48)
          let o := (u.blockWrite at_ rec8).blockWrite r.desc.ctlAddr (leBytes 8 (r.produced + 1))
          ∃ t, exec (.sampleJob p) s = .next t ∧ t.pcieMem = o.pcieMem ∧ t.mem = o.mem ∧ t.srv.posted[p.val] = none
            ∧ (t.conv i).tokens = v.tokens ++ [(token, false)]
            ∧ t.request i = some { r with
                produced := r.produced + 1, generated := r.generated + 1, inStep := false, sampled := false, phase := .decode }
            ∧ t.arrays = s.arrays)) ∧
    (∀ r : Request, w.request i = some r → r.phase = .stalled → w.serving = true →
      let n := fieldAt (w.blockRead (r.desc.ctlAddr + 32) 8) 0 8
      n ≤ r.produced → r.produced - n < r.desc.records → r.inStep = false →
      ∃ t, exec (.stalledRingReread i hw) s = .next t ∧ (t.request i).map (fun r => (r.phase, r.consumed)) = some (.decode, n)
        ∧ t.mem = s.mem ∧ t.arrays = s.arrays) ∧
    (∀ (r : Request) (code : Nat), w.request i = some r → r.phase = .ending code → w.deadlinesHeld = false →
      let n := fieldAt (w.blockRead (r.desc.ctlAddr + 32) 8) 0 8
      n ≤ r.produced → r.produced - n < r.desc.records → r.inStep = false →
      ∃ t, exec (.endRecordWrite i hw) s = .next t ∧ t.request i = none
        ∧ (r.desc.keep = true → 1 ≤ code → code ≤ 4 → (t.conv i).live = v.live
            ∧ (t.conv i).tokens = v.tokens.take (v.tokens.length - r.left)
            ∧ (t.conv i).deadline = some (s.time + BitVec.ofNat 64 (r.desc.ttlMs * 100000)))
        ∧ ((r.desc.keep = false ∨ code = 0 ∨ 4 < code) → (t.conv i).live = false ∧ (t.conv i).tokens = [])) ∧
    (w.deadlinesHeld = true → exec (.endRecordWrite i hw) s = .next w ∧ exec (.ttlExpiry i) s = .next s
      ∧ exec (.vaultHoldExpiry i) s = .next s ∧ exec (.loadingTimeout i) s = .next s) ∧
    (s.deadlinesHeld = false → v.live = true → s.request i = none →
      (∀ d, v.deadline = some d → d.toNat ≤ s.time.toNat →
        (s.readInTime i d = true → exec (.ttlExpiry i) s = .next s) ∧
        (s.readInTime i d = false → ∃ t, exec (.ttlExpiry i) s = .next t
          ∧ (t.conv i).live = false ∧ (t.conv i).expired = some v.serial ∧ t.mem = s.mem ∧ t.arrays = s.arrays)) ∧
      (∀ d, v.holdUntil = some d → d.toNat ≤ s.time.toNat → s.seqState i = 3 → s.seqInTier i = false → s.copying i = false →
        s.seqFallback i = false →
        let pages := pagesOf (s.seqLen i)
        s.reel.bad = [] →
        (pages ≤ (s.slotPool v.part).length → ∃ t, exec (.vaultHoldExpiry i) s = .next t
          ∧ t.reel.copies = s.reel.copies ++ [{ part := v.part, seq := i.val, toTier := true, places := (s.slotPool v.part).take pages }]
          ∧ t.slotPool v.part = (s.slotPool v.part).drop pages ∧ t.mem = s.mem ∧ t.srv = s.srv
          ∧ (s.reel.ce = [] → t = { s with reel := t.reel })) ∧
        ((s.slotPool v.part).length < pages → ∃ t, exec (.vaultHoldExpiry i) s = .next t ∧ t.reel = s.reel ∧ t.mem = s.mem
          ∧ (s.reel.ce = [] → t = s)))) ∧
    (∀ (r : Request) t0, s.deadlinesHeld = false → s.request i = some r → r.phase = .loading → r.loadSince = some t0 →
      s.copying i = false → s.reel.bad = [] → s.get (F.reelPParkTimeoutTicks v.part) ≤ (s.time - t0).toNat →
      let pages := pagesOf (s.seqLen i)
      (pages ≤ (s.framePool v.part).length → s.seqInTier i = true → ∃ t, exec (.loadingTimeout i) s = .next t
        ∧ t.reel.copies = s.reel.copies ++ [{ part := v.part, seq := i.val, toTier := false, places := (s.framePool v.part).take pages }]
        ∧ t.framePool v.part = (s.framePool v.part).drop pages
        ∧ t = { s with reel := t.reel, regs := t.regs, events := t.events, board := t.board }) ∧
      ((s.framePool v.part).length < pages → s.framesComing v.part = 0 → s.evictable v.part i = none →
        s.flag F.twnStatusGap = false → ∃ t, exec (.loadingTimeout i) s = .next t ∧ (t.request i).map (·.phase) = some (.ending 5) ∧ t.mem = s.mem))

/-- O58. VID_OPEN places its checks in R276's order and opens a session in a free number of its direction; VID_CLOSE frees
a session without a picture in a pipe and waits for one that has; VID_RECONFIG writes an encode session's shadow words
only; VID_QUERY reads three registers. A poll with consistent counts takes the new entries in, and one with an
inconsistent count only marks the session. A free pipe takes the ready session's picture: an encode entry, the next
frame of the unit being taken, or the first frame of the next unit, whose stream is held against the session; an
unsupported stream puts the session in its error state, and a frame shown again only falls due. A picture ends once
its packets are written and, for an encoder, its blocks and vectors are allowed ones and its residual is source minus
prediction, and frees the pipe. A due output or end record, a packet and a statistics buffer are each written where
the session's descriptor places them, if there is room. Rests also on the model's readings in log entry 42. (R273,
R274, R276, R277, R280, R286, R294, R296, R297, R300, R302) -/
def Obligations.VideoSessionsAndPictures : Prop :=
  ∀ (s : State), s.canon →
    (∀ (c : CmdRef) (m : Cmd) (p : PartNum), m.part? = some p →
      (∀ hw : HostStores,
        let w := s.hostStores hw
        let addr := m.arg 8 8
        let r := w.vidRead p addr 128
        let u := r.1
        let v := newSession p r.2
        let fits := u.flag F.hwkStatusReady = true
          ∧ u.vidLoad v.decodes + v.cost ≤ (if v.decodes = true then 4000000000000 else 2000000000000)
        w.Started c 0x0501 m →
        (w.vidPlace p addr 128 = false → Completes (exec (.vidOpen c hw) s) w c stDenied []) ∧
        (w.vidPlace p addr 128 = true →
          (u.vidPlaced p addr v = false → Completes (exec (.vidOpen c hw) s) u c stDenied []) ∧
          (u.vidPlaced p addr v = true → vidDescOk addr v = false → Completes (exec (.vidOpen c hw) s) u c stBad []) ∧
          (u.vidPlaced p addr v = true → vidDescOk addr v = true →
            ((u.vidNumber v.decodes = none ∨ ¬ fits) → Completes (exec (.vidOpen c hw) s) u c stBusy []) ∧
            (∀ i, u.vidNumber v.decodes = some i → fits → ∃ t, Completes (exec (.vidOpen c hw) s) t c stOk (leBytes 1 i.val)
              ∧ t.ses i = some v ∧ (∀ k, k ≠ i → t.ses k = s.ses k) ∧ t.get (F.hwkSStatState i) = 1
              ∧ t.get (F.hwkSStatPartition i) = p.val ∧ t.get (F.hwkSPicsPictures i) = 0
              ∧ t = { u with vid := t.vid, regs := t.regs })))) ∧
      (s.Started c 0x0502 m →
        (s.vidNamed p (m.arg 8 1) = none → Completes (exec (.vidClose c) s) s c stBad []) ∧
        (∀ i v, s.vidNamed p (m.arg 8 1) = some i → s.ses i = some v →
          (v.closing = some c → Waits (exec (.vidClose c) s) s c .none) ∧
          (v.isClosing = true → v.closing ≠ some c → Completes (exec (.vidClose c) s) s c stBad []) ∧
          (v.isClosing = false → v.inPipe.isSome = true → ∃ t, exec (.vidClose c) s = .next t
            ∧ (t.ses i).map (fun x => (x.closing, x.inPipe)) = some (some c, v.inPipe) ∧ t.get (F.hwkSStatState i) = 3
            ∧ (t.cmd c).map (·.phase) = some .running) ∧
          (v.isClosing = false → v.inPipe = none → ∃ u, Completes (exec (.vidClose c) s) u c stOk [] ∧ u.ses i = none
            ∧ u.get (F.hwkSStatState i) = 0 ∧ (∀ k, k ≠ i → u.ses k = s.ses k)
            ∧ u = { s with vid := u.vid, regs := u.regs }))) ∧
      (s.Started c 0x0503 m →
        (s.vidNamed p (m.arg 8 1) = none → Completes (exec (.vidReconfig c) s) s c stBad []) ∧
        (∀ i, s.vidNamed p (m.arg 8 1) = some i →
          (i.val < 32 → Completes (exec (.vidReconfig c) s) s c stBad []) ∧
          (32 ≤ i.val → ∃ u, Completes (exec (.vidReconfig c) s) u c stOk []
            ∧ (∀ k, k < 5 → u.reg (rcKey (i.val - 32) k + 0x80000) = BitVec.ofNat 32 (m.arg (12 + 4 * k) 4) &&& rcMask k)
            ∧ (∀ x, (∀ k, k < 5 → x ≠ rcKey (i.val - 32) k + 0x80000) → u.reg x = s.reg x)
            ∧ u = { s with regs := u.regs }))) ∧
      (s.Started c 0x0504 m →
        (s.vidNamed p (m.arg 8 1) = none → Completes (exec (.vidQuery c) s) s c stBad []) ∧
        (∀ i, s.vidNamed p (m.arg 8 1) = some i → Completes (exec (.vidQuery c) s) s c stOk
          (leBytes 4 (s.reg (regKey 0x42 (0x100 + 4 * i.val))).toNat ++ leBytes 4 (s.reg (regKey 0x42 (0x200 + 4 * i.val))).toNat
            ++ leBytes 4 (s.reg (regKey 0x42 (0x300 + 4 * i.val))).toNat)))) ∧
    (∀ (i : Fin 48) (hw : HostStores) (v : Session), s.ses i = some v → v.isClosing = false →
      let w := s.hostStores hw
      let bs := (w.vidRead v.part v.ctl 40).2
      let ok := v.inSeen ≤ fieldAt bs 0 8 ∧ fieldAt bs 0 8 ≤ v.inDone + v.inSize ∧ v.outSeen ≤ fieldAt bs 24 8
        ∧ fieldAt bs 24 8 ≤ v.outMade ∧ v.statsSeen ≤ fieldAt bs 32 8 ∧ fieldAt bs 32 8 ≤ v.statsMade
      (ok → ∃ t y, exec (.ringPoll i hw) s = .next t ∧ t.ses i = some y ∧ y.inSeen = fieldAt bs 0 8
        ∧ y.outSeen = fieldAt bs 24 8 ∧ y.statsSeen = fieldAt bs 32 8 ∧ y.badCount = false
        ∧ (v.decodes = true → y.inDone = v.inDone + (fieldAt bs 0 8 - v.inSeen))
        ∧ (v.decodes = false → y.inDone + y.entries.length = v.inDone + v.entries.length + (fieldAt bs 0 8 - v.inSeen))
        ∧ t.arrays = s.arrays) ∧
      (¬ ok → ∃ t y, exec (.ringPoll i hw) s = .next t ∧ t.ses i = some y ∧ y.badCount = true ∧ y.inSeen = v.inSeen
        ∧ y.entries = v.entries ∧ y.units = v.units ∧ t.flag (F.hwkSStatRingWait i) = true ∧ t.mem = s.mem)) ∧
    (∀ (pipe : Fin 4) (h : PicHeader) (i : Fin 48),
      let decode := decide (pipe.val < 2)
      let first : Fin 4 := if decode then 0 else 2
      let w := s.vidPoll i
      s.flag F.hwkStatusReady = true → s.flag F.spnStatusDraining = false → s.flag F.spnStatusDrained = false →
      s.inPipeOf pipe = none → (pipe ≠ first → (s.inPipeOf first).isSome = true) → s.nextReady decode = some i →
      ∀ v, w.ses i = some v → v.ready ≠ [] →
        (v.decodes = false → ∀ e rest, v.entries = e :: rest → ∃ t y, exec (.pictureStart pipe h) s = .next t
          ∧ (t.ses i).bind (·.inPipe) = some y ∧ y.pipe = pipe ∧ y.buffer = some (fieldAt e 0 2)
          ∧ y.pts = BitVec.ofNat 64 (fieldAt e 16 8) ∧ y.number = v.inDone ∧ (v.coded = 0 → y.key = true)) ∧
        (v.decodes = true → v.unit = none → ∀ u more, v.units = u :: more → u.picture = true →
          w.get (F.hwkSStatState i) ≠ 4 →
          ((u.bad = true ∨ v.streamOk h = false) → ∃ t y, exec (.pictureStart pipe h) s = .next t ∧ t.ses i = some y
            ∧ y.inPipe = v.inPipe ∧ y.units = more ∧ t.get (F.hwkSStatState i) = 4) ∧
          (∀ f rest b, u.bad = false → v.streamOk h = true → h.frames = f :: rest → (v.skip = false ∨ f.key = true) →
            f.showExisting = none → (if u.disc = true then v.setRefs [] else v).freeBuf = some b →
            ∃ t y, exec (.pictureStart pipe h) s = .next t ∧ (t.ses i).bind (·.inPipe) = some y ∧ y.pipe = pipe
              ∧ y.buffer = some b ∧ y.key = f.key ∧ y.pts = u.pts)) ∧
        (v.decodes = true → ∀ u f rest, v.unit = some u → u.frames = f :: rest →
          (∀ b, f.showExisting = none → v.freeBuf = some b → ∃ t y, exec (.pictureStart pipe h) s = .next t
            ∧ (t.ses i).bind (·.inPipe) = some y ∧ y.pipe = pipe ∧ y.buffer = some b ∧ y.key = f.key ∧ y.pts = u.pts) ∧
          (∀ b d, f.showExisting = some b → v.decoded.find? (fun d => d.buffer == b) = some d → rest ≠ [] →
            ∃ t y, exec (.pictureStart pipe h) s = .next t ∧ t.ses i = some y ∧ y.inPipe = v.inPipe
              ∧ y.due = v.due ++ [outOf { d with pts := u.pts } true]))) ∧
    (∀ (pipe : Fin 4) (res : PicResult), s.inPipeOf pipe = none → exec (.pictureDone pipe res) s = .next s) ∧
    (∀ (pipe : Fin 4) (res : PicResult) (i : Fin 48) (v : Session) (x : InPipe), s.inPipeOf pipe = some i → s.ses i = some v →
      v.inPipe = some x →
      let ended := x.packets = 0 ∧ (v.decodes = true ∨ (v.choiceOk x res = true ∧ s.residualOk v x res = true))
      (¬ ended → exec (.pictureDone pipe res) s = .next s) ∧
      (ended → v.isClosing = true → ∃ t, exec (.pictureDone pipe res) s = .next t ∧ t.ses i = none) ∧
      (ended → v.isClosing = false → ∃ t y, exec (.pictureDone pipe res) s = .next t ∧ t.ses i = some y
        ∧ y.inPipe = none ∧ (v.decodes = true → y.latest = some (x.buffer.getD 0))
        ∧ (v.decodes = false → y.coded = v.coded + 1 ∧ y.pictures = v.pictures + 1)
        ∧ (∀ k, k ≠ i → t.ses k = s.ses k))) ∧
    (∀ (i : Fin 48) (v : Session), s.ses i = some v →
      (∀ o rest, v.due = o :: rest → v.outFree ≠ 0 → o.isEnd = false → ∃ t y, exec (.decodeOutput i) s = .next t ∧ t.ses i = some y
        ∧ y.due = rest ∧ y.outMade = v.outMade + 1 ∧ y.pictures = v.pictures + 1
        ∧ y.unconsumed = v.unconsumed ++ [(v.outMade, some o.buffer, 0)]
        ∧ (
          let e := leBytes 2 o.buffer ++ leBytes 1 o.flags ++ [0] ++ leBytes 4 v.pictures ++ leBytes 8 o.pts.toNat
            ++ leBytes 8 o.crop.toNat ++ leBytes 4 o.concealed ++ leBytes 4 0
          let z := (s.vidWrite v.part (v.outRing + 32 * (v.outMade % v.outSize)) e).vidWrite v.part (v.ctl + 16) (leBytes 8 (v.outMade + 1))
          t.pcieMem = z.pcieMem ∧ t.mem = z.mem)) ∧
      (∀ o rest, v.due = o :: rest → v.outFree ≠ 0 → o.isEnd = true → ∃ t y, exec (.decodeOutput i) s = .next t
        ∧ t.ses i = some y ∧ y.due = rest ∧ y.outMade = v.outMade + 1 ∧ y.pictures = v.pictures
        ∧ y.unconsumed = v.unconsumed ++ [(v.outMade, none, 0)]
        ∧ (
          let z := (s.vidWrite v.part (v.outRing + 32 * (v.outMade % v.outSize)) (s.endEntry v.decodes).2).vidWrite v.part
            (v.ctl + 16) (leBytes 8 (v.outMade + 1))
          t.pcieMem = z.pcieMem ∧ t.mem = z.mem)) ∧
      (v.due ≠ [] → v.outFree = 0 → ∃ t, exec (.decodeOutput i) s = .next t ∧ t.flag (F.hwkSStatRingWait i) = true
        ∧ t.mem = s.mem ∧ t.pcieMem = s.pcieMem) ∧
      (∀ (x : InPipe) (units : List PacketUnit), v.inPipe = some x →
        let data := units.flatMap packetBytes
        let spot := v.packetPlace data.length
        let used := spot.2 + data.length
        let fits := v.outFree ≠ 0 ∧ v.bsUsed + used ≤ v.bsBytes
        ((x.packets = 0 ∨ v.packetOk x units = false) → exec (.packetEmission i units) s = .next s) ∧
        (x.packets ≠ 0 → v.packetOk x units = true →
          (¬ fits → v.isClosing = false → exec (.packetEmission i units) s = .next s) ∧
          (¬ fits → v.isClosing = true →
            exec (.packetEmission i units) s = .next (s.setSes i (some { v with inPipe := some (x.emitted 0) }))) ∧
          (fits → ∃ t y, exec (.packetEmission i units) s = .next t ∧ t.ses i = some y
            ∧ y.inPipe = some (x.emitted used) ∧ y.bsHead = spot.1 + data.length ∧ y.bsUsed = v.bsUsed + used
            ∧ y.outMade = v.outMade + 1 ∧ y.unconsumed = v.unconsumed ++ [(v.outMade, none, used)]
            ∧ (
              let z := ((s.vidWrite v.part (v.bsAddr + spot.1) data).vidWrite v.part
                (v.outRing + 32 * (v.outMade % v.outSize)) (v.packetEntry x spot.1 data.length)).vidWrite v.part (v.ctl + 16)
                (leBytes 8 (v.outMade + 1))
              t.pcieMem = z.pcieMem ∧ t.mem = z.mem)))) ∧
      (∀ x rest, v.stats = x :: rest →
        (∀ n : ArrayNum, v.statsMade < v.statsSeen + v.statsBuffers → v.statsArray = n.val →
          (s.clean → s.inPart v.part n = true → s.usable n = true → 0 < v.statsBuffers →
            v.statsOffset + v.statsBuffers * v.statsSize ≤ 0x800000 → 64 + x.2.2.2.2.length ≤ v.statsSize →
            let a := spoolBase n + v.statsOffset + v.statsMade % v.statsBuffers * v.statsSize
            ∃ t y, exec (.statsWrite i x.1) s = .next t ∧ t.ses i = some y ∧ y.stats = rest ∧ y.statsMade = v.statsMade + 1
              ∧ t.load a 64 = statsHeader v x ∧ t.load (a + 64) x.2.2.2.2.length = x.2.2.2.2
              ∧ (∀ z, z < a ∨ a + v.statsSize ≤ z → t.byte z = s.byte z)
              ∧ t.knot n (v.fld 70 2) = s.knot n (v.fld 70 2) + 1) ∧
          ((s.inPart v.part n = false ∨ s.usable n = false) → ∃ t y, exec (.statsWrite i x.1) s = .next t ∧ t.ses i = some y
            ∧ y.stats = rest ∧ t.mem = s.mem)) ∧
        (v.statsSeen + v.statsBuffers ≤ v.statsMade → v.statsSkips = false → exec (.statsWrite i x.1) s = .next s) ∧
        (v.statsSeen + v.statsBuffers ≤ v.statsMade → v.statsSkips = true → ∃ t y, exec (.statsWrite i x.1) s = .next t
          ∧ t.ses i = some y ∧ y.stats = rest ∧ t.flag (F.hwkSStatStatsSkip i) = true ∧ t.mem = s.mem)))

/-- O59. Outside Production these commands answer LIFECYCLE. SEC_ATTEST writes a report signed with the next HSS index to
its buffer, and is DENIED, BUSY or LMS_EXHAUSTED as R389 and R390 say. SEC_SESSION seals the partition and binds its
session; SEC_IDE binds a programmed stream to a sealed partition. SEC_IMPORT starts after R398's checks; each chunk
whose source and destination still belong to the partition has its tag verified before its plaintext is written, any
other or one with a bad tag ends the import and fills what was written with zeros, but for granules that have left the
partition, and the last chunk completes it. SEC_LIFECYCLE with a good token moves the fuses on and restarts the module
once no partition exists; PROVISIONING takes a blank module to Production. Rests also on the model's readings in log
entries 44, 46, 58. (R375, R377, R380, R389, R390, R393, R396, R397, R398) -/
def Obligations.SecurityCommands : Prop :=
  ∀ (s : State) (c : CmdRef) (m : Cmd), s.canon →
    (s.Started c 0x0801 m →
      let addr := m.arg 40 8
      let who := (m.part?.map (·.val)).getD 8
      let placed := addr % 64 = 0 ∧ (∀ p, m.part? = some p → s.inHostWindow p addr 5748 = true)
      let recent := ∃ t0, SMap.look none s.coc.lastReport who = some t0 ∧ (s.time - t0).toNat < 10000000
      let used := s.flag F.cocStatusLmsExhausted = true
      (s.inProduction = false → Completes (exec (.secAttest c) s) s c stLifecycle []) ∧
      (s.inProduction = true → ¬ placed → Completes (exec (.secAttest c) s) s c stDenied []) ∧
      (s.inProduction = true → placed → (recent ∨ (¬ used ∧ s.treeUsable = false)) →
        Completes (exec (.secAttest c) s) s c stBusy []) ∧
      (s.inProduction = true → placed → ¬ recent → used → ∃ u, Completes (exec (.secAttest c) s) u c stLmsOut []
        ∧ u.get F.cocLmsNextNext = s.get F.cocLmsNextNext ∧ u.mem = s.mem ∧ u.pcieMem = s.pcieMem) ∧
      (s.inProduction = true → placed → ¬ recent → ¬ used → s.treeUsable = true →
        ∃ u, Completes (exec (.secAttest c) s) u c (if u.flag F.cocStatusLmsLow = true then stLmsLow else stOk) []
          ∧ u.get F.cocLmsNextNext = (s.get F.cocLmsNextNext + 1) % 2 ^ 30
          ∧ u.get F.cocReportsReports = min (s.get F.cocReportsReports + 1) 0xFFFFFFFF
          ∧ (∀ p, m.part? = some p →
              let v := s.hssTake.1
              let z := v.blockWrite addr (v.signedReport (some p) (s.get F.cocLmsNextNext) (bytesAt m.bytes 8 32))
              u.pcieMem = z.pcieMem ∧ u.mem = z.mem)
          ∧ (∀ k, m.part? = none → m.ref.src = .pair k →
              let v := s.hssTake.1
              u.pcieMem = (v.pcieStore (v.pairPort k) addr
                (v.signedReport none (s.get F.cocLmsNextNext) (bytesAt m.bytes 8 32))).pcieMem ∧ u.mem = s.mem))) ∧
    (∀ p : PartNum, m.part? = some p →
      (s.Started c 0x0802 m →
        (s.inProduction = false → Completes (exec (.secSession c) s) s c stLifecycle []) ∧
        (s.inProduction = true →
          let id := BitVec.ofNat 32 (m.arg 8 4)
          (s.spdmSession id = none → Completes (exec (.secSession c) s) s c stBad []) ∧
          (∀ x, s.spdmSession id = some x →
            let bad := x.prk = none ∨ (x.part.isSome = true ∧ x.part ≠ some p) ∨ s.isSealed p = true
            (bad → Completes (exec (.secSession c) s) s c stDenied []) ∧
            (¬ bad → ∃ u, Completes (exec (.secSession c) s) u c stOk [] ∧ u.isSealed p = true ∧ u.bit F.cocSealBound p = true
              ∧ (u.spdmSession id).bind (·.part) = some p
              ∧ (∀ g, tagOwned (s.ttag g) = true → tagPart (s.ttag g) = p → tagSecure (u.ttag g) = true)
              ∧ (∀ g, (tagOwned (s.ttag g) = false ∨ tagPart (s.ttag g) ≠ p) → u.ttag g = s.ttag g) ∧ u.mem = s.mem)))) ∧
      (s.Started c 0x0804 m →
        (s.inProduction = false → Completes (exec (.secIde c) s) s c stLifecycle []) ∧
        (∀ (k : Fin 4) (port : Fin 2), s.inProduction = true → m.arg 8 1 = k.val → m.arg 9 1 = port.val →
          let x := s.stream port k
          let ok := s.isSealed p = true ∧ x.session.isSome = true ∧ x.session = (s.boundSession p).map (·.id) ∧ x.keys ≠ []
            ∧ (x.part = none ∨ x.part = some p)
          (¬ ok → Completes (exec (.secIde c) s) s c stDenied []) ∧
          (ok → ∃ u, Completes (exec (.secIde c) s) u c stOk [] ∧ u.stream port k = { x with part := some p }
            ∧ u.bit F.cocSealIde p = true ∧ u = { s with regs := u.regs, coc := u.coc }))) ∧
      (∀ hw : HostStores,
        let w := s.hostStores hw
        let src := m.arg 8 8
        let dst := m.arg 16 8
        let u := (w.importRead p src 64).1
        let h := (w.importRead p src 64).2
        let l := fieldAt h 8 8
        w.Started c 0x0803 m →
        (w.inProduction = false → Completes (exec (.secImport c hw) s) (w.bump F.cocImportFailFailed) c stLifecycle []) ∧
        (w.inProduction = true → w.boundSession p = none → ∃ t, Completes (exec (.secImport c hw) s) t c stDenied []
          ∧ t.coc.imports = s.coc.imports ∧ t.mem = s.mem ∧ t.flag F.cocStatusImportFail = true) ∧
        (∀ x, w.inProduction = true → w.boundSession p = some x → w.sessionLive p = true →
          (w.inHostWindow p src (max 64 (m.arg 24 8)) = true ∨ w.inOwnTier p src (max 64 (m.arg 24 8)) = true) →
          w.importDest p dst 64 = true → u.importDest p dst l = true → fieldAt h 0 2 = 1 → fieldAt h 2 2 = 0 →
          (∀ b ∈ h.drop 28, b = 0) → l % 64 = 0 → 64 ≤ l → l ≤ 4294967232 → m.arg 24 8 = blobLen l → fieldAt h 4 4 = x.importSeq →
          ∃ t, Waits (exec (.secImport c hw) s) t c (.importing 0) ∧ t.mem = s.mem
            ∧ t.coc.imports = s.coc.imports ++ [{
                ref := c, part := p, session := x.id, source := src, dest := dst, len := l, header := h, done := 0 }]))) ∧
    (∀ (hw : HostStores) (k : Import) (x : Spdm), s.cmd c = some m → s.clean →
      (s.coc.imports.find? fun y => y.ref == c) = some k → k.ref = c → s.spdmSession k.session = some x →
      let w := s.hostStores hw
      let n := min 0x100000 (k.len - k.done)
      let j := k.done / 0x100000
      let blob := (w.importRead k.part (k.source + 64 + j * (0x100000 + 16)) (n + 16)).2
      let plain := Config.gcmOpen x.kImport (chunkNonce (bytesAt k.header 16 12) j) (k.header ++ leBytes 8 k.dest ++ leBytes 4 j) blob
      let open_ := w.importSrc k.part (k.source + 64 + j * (0x100000 + 16)) (n + 16) = true
        ∧ w.importDest k.part (k.dest + k.done) n = true
      let stopped := fun (u : State) => (∀ y ∈ u.coc.imports, y.ref ≠ c) ∧ ∀ y, u.byte y
        = if k.dest ≤ y ∧ y < k.dest + k.done ∧ s.importMay k.part y = true then 0 else s.byte y
      (¬ open_ → ∃ u, Completes (exec (.importChunk c hw) s) u c stDenied [] ∧ stopped u) ∧
      (open_ → plain = none → ∃ u, Completes (exec (.importChunk c hw) s) u c stSig [] ∧ stopped u) ∧
      (∀ pt, open_ → plain = some pt →
        let moved := fun (u : State) => ∀ y, u.byte y
          = if k.dest + k.done ≤ y ∧ y < k.dest + k.done + n then (bytesAt pt 0 n).getD (y - (k.dest + k.done)) 0 else s.byte y
        (k.done + n < k.len → ∃ u, Waits (exec (.importChunk c hw) s) u c (.importing (k.done + n)) ∧ moved u
          ∧ (u.coc.imports.find? fun y => y.ref == c) = some { k with done := k.done + n }) ∧
        (k.len ≤ k.done + n → ∃ u, Completes (exec (.importChunk c hw) s) u c stOk [] ∧ moved u
          ∧ (∀ y ∈ u.coc.imports, y.ref ≠ c) ∧ (u.spdmSession k.session).map (·.importSeq) = some (x.importSeq + 1)))) ∧
    (s.Started c 0x0805 m →
      let target := m.arg 8 1
      let allowed := (s.lifecycle = 1 ∧ target = 2) ∨ ((s.lifecycle = 1 ∨ s.lifecycle = 2) ∧ target = 3)
      (¬ allowed → Completes (exec (.secLifecycle c) s) s c stLifecycle []) ∧
      (allowed → s.tokenOk target m.extra = false →
        Completes (exec (.secLifecycle c) s) (s.raiseBit F.cocStatusLcFail) c stSig []) ∧
      (allowed → s.tokenOk target m.extra = true → s.calm → (∀ p, (s.part p).live = false) →
        ∃ t, exec (.secLifecycle c) s = .next t ∧ t.lifecycle = target
        ∧ t.board.supply = .off ∧ t.coc.sessions = [] ∧ t.coc.secrets = none ∧ (target = 3 → t.flash.seed = none)
        ∧ t.pending = s.pending)) ∧
    (∀ (seed : BitVec 256) (ecdsaKey hssKey deviceChain mgmtChain : List Byte),
      (s.lifecycle = 0 → ∃ t, exec (.provisioning ⟨seed, ecdsaKey, hssKey, deviceChain, mgmtChain⟩) s = .next t ∧ t.lifecycle = 1
        ∧ t.flash = { s.flash with
            seed := some seed
            authority := (ecdsaKey, hssKey)
            deviceChain := deviceChain
            mgmtChain := mgmtChain
            hss := Vector.replicate 2 { reserved := 0, crc := crc32c (leBytes 4 0) } }
        ∧ t.get F.cocFingerprintFingerprint = fingerprintOf (secretsOf seed) % 2 ^ 32
        ∧ t = { s with regs := t.regs, flash := t.flash }) ∧
      (s.lifecycle ≠ 0 → exec (.provisioning ⟨seed, ecdsaKey, hssKey, deviceChain, mgmtChain⟩) s = .next s)) ∧
    (s.flag F.cocStatusTreePending = false → exec .treeComputationDone s = .next s) ∧
    (s.flag F.cocStatusTreePending = true → s.coc.tree.isSome = true → ∃ t, exec .treeComputationDone s = .next t
      ∧ t.coc = { s.coc with treeReady := true } ∧ t.flag F.cocStatusTreePending = false
      ∧ t = { s with regs := t.regs, coc := t.coc }) ∧
    (s.flag F.cocStatusTreePending = true → s.coc.tree = none →
      let next := s.get F.cocLmsNextNext
      ∃ t, exec .treeComputationDone s = .next t ∧ t.coc = { s.coc with tree := some (next / 2 ^ 15) }
        ∧ t.flag F.cocStatusTreePending = (decide (2 ^ 14 ≤ next % 2 ^ 15) && !s.coc.treeReady)
        ∧ t = { s with regs := t.regs, coc := t.coc })

/-- O60. On a ready port outside Production every request is answered UnsupportedRequest and changes nothing else. In
Production the discovery requests are answered from fixed data, and signed answers use the next random draw.
KEY_EXCHANGE opens a session, or is Busy at 16; FINISH that verifies finishes it, and otherwise ends it. HEARTBEAT
keeps a session alive, and a missed one ends it with its IDE keys, while the partition stays sealed. A request of
another code, or a vendor-defined one under other identifiers, is unsupported; QUERY tells of the four streams of the
port; the hybrid step derives the session's import key once, over both whole vendor messages. KEY_PROG loads an
unmasked key in a bound session, K_SET_GO activates a full key set, K_SET_STOP stops it, and an integrity failure
makes the stream Insecure. Rests also on the model's readings in log entries 21, 44, 45. (R377, R385, R386, R391,
R392, R394, R395, R396, R404, R513, R514) -/
def Obligations.SpdmAndIdeRequests : Prop :=
  ∀ (s : State) (port : Port), s.canon → s.doeReady port = true →
    (s.inProduction = false → ∀ (id : Word) (stream : Fin 4) (set : Fin 2) (sub : SubStream) (bs : List Byte)
      (code : Byte) (standard vendor : BitVec 16), ∀ i ∈ ([.getVersion port, .getCapabilities port, .negotiateAlgorithms port, .getDigests port,
          .getCertificate port 0 0 0, .challenge port bs, .getMeasurements port bs, .keyExchange port id bs,
          .finish port id bs true, .heartbeat port id, .keyUpdate port id, .endSession port id,
          .vendorDefinedRequest port id ⟨code, standard, vendor, bs⟩, .query port id, .keyProg port id stream set sub bs,
          .kSetGo port id stream set, .kSetStop port id stream set] : List Instr),
        exec i s = .next (s.spdmError port 0x07)) ∧
    (s.inProduction = true →
      exec (.getVersion port) s = .next (s.spdmReply port 0x84 []) ∧
      exec (.getCapabilities port) s = .next (s.spdmReply port 0xE1 (leBytes 4 0x62D6)) ∧
      exec (.negotiateAlgorithms port) s = .next (s.spdmReply port 0xE3 []) ∧
      exec (.getDigests port) s = .next (s.spdmReply port 0x81 (Config.sha384 s.flash.deviceChain)) ∧
      (∀ off len, exec (.getCertificate port 0 off len) s = .next (s.spdmReply port 0x82 ((s.flash.deviceChain.drop off).take len))) ∧
      (∀ slot off len, slot ≠ 0 → exec (.getCertificate port slot off len) s = .next (s.spdmError port errInvalid)) ∧
      (∀ nonce,
        let fresh := s.nextDraw
        let drawn : State := { s with coc := { s.coc with draws := s.coc.draws + 1 } }
        let a := Config.sha384 (nonce ++ fresh)
        let b := Config.sha384 (s.manifestDigest ++ nonce ++ fresh)
        exec (.challenge port nonce) s = .next (drawn.spdmReply port 0x83 (a ++ s.sign a)) ∧
        exec (.getMeasurements port nonce) s = .next (drawn.spdmReply port 0xE0 (s.manifestDigest ++ b ++ s.sign b))) ∧
      (∀ (id : Word) (bs : List Byte),
        (16 ≤ s.coc.sessions.length → exec (.keyExchange port id bs) s = .next (s.spdmError port errBusy)) ∧
        (s.coc.sessions.length < 16 → s.spdmSession id = none → ∃ t x, exec (.keyExchange port id bs) s = .next t
          ∧ t.spdmSession id = some x ∧ x.port = port ∧ x.finished = false ∧ x.part = none ∧ x.importSeq = 1
          ∧ t.get F.cocSessionsSessions = s.coc.sessions.length + 1
          ∧ t.out = s.out ++ [.spdm port (Config.spdmBody 0xE4 (leBytes 4 id.toNat ++ leBytes 1 60 ++ bs))]
          ∧ t.coc.sessions.take s.coc.sessions.length = s.coc.sessions ∧ t.coc.streams = s.coc.streams)) ∧
      (∀ (id : Word) (bs : List Byte) (stream : Fin 4) (set : Fin 2) (sub : SubStream), s.spdmOn port id = none →
        ∀ i ∈ ([.finish port id bs true, .heartbeat port id, .keyUpdate port id, .endSession port id,
            .vendorDefinedRequest port id ⟨0xFE#8, pciSig, Config.pciVendor, bs⟩, .query port id, .keyProg port id stream set sub bs,
            .kSetGo port id stream set, .kSetStop port id stream set] : List Instr),
          exec i s = .next (s.spdmError port errInvalid)) ∧
      (∀ (id : Word) (code : Byte) (standard vendor : BitVec 16) (bs : List Byte),
        (code ≠ 0xFE#8 ∨ standard ≠ pciSig ∨ vendor ≠ Config.pciVendor) →
        exec (.vendorDefinedRequest port id ⟨code, standard, vendor, bs⟩) s = .next (s.spdmError port errUnsupported)) ∧
      (∀ (id : Word) (x : Spdm), s.spdmOn port id = some x → s.spdmSession id = some x →
        let gone := fun (t : State) => t.spdmSession id = none ∧ (∀ p, t.isSealed p = s.isSealed p)
          ∧ (∀ y ∈ t.coc.streams.toList, y.session ≠ some id)
        (∀ bs, x.finished = false →
          exec (.finish port id bs true) s = .next ((s.modSpdm id fun y =>
            { y with finished := true, transcript := bs, lastHeard := s.time }).spdmReply port 0xE5 (leBytes 4 id.toNat)) ∧
          ∃ t, exec (.finish port id bs false) s = .next t ∧ gone t) ∧
        (x.finished = true →
          exec (.heartbeat port id) s
            = .next ((s.modSpdm id fun y => { y with lastHeard := s.time }).spdmReply port 0xE8 (leBytes 4 id.toNat)) ∧
          exec (.keyUpdate port id) s
            = .next ((s.modSpdm id fun y => { y with keyUpdates := y.keyUpdates + 1 }).spdmReply port 0xE9 (leBytes 4 id.toNat)) ∧
          exec (.query port id) s
            = .next (s.spdmReply port 0x100 ((List.finRange 4).flatMap fun k => s.streamInfo port k)) ∧
          (∃ t, exec (.endSession port id) s = .next t ∧ gone t) ∧
          (∀ key : List Byte, x.prk = none → key.length = 1568 → Config.kemKeyOk key = true →
            let made := Config.kemEncaps key s.nextDraw
            let answer := vendorMessage 0x7E pciSig Config.pciVendor ([2, 0, 0, 0] ++ made.1)
            let asked : List Byte := [1, 0, 0, 0] ++ key
            let th := Config.sha384 (x.transcript ++ vendorMessage 0xFE pciSig Config.pciVendor asked ++ answer)
            let prk := Config.hkdfExtract (Config.exportSecret x.transcript) made.2
            ∃ t, exec (.vendorDefinedRequest port id ⟨0xFE#8, pciSig, Config.pciVendor, asked⟩) s = .next t
              ∧ t.spdmSession id = some { x with
                  prk := some prk
                  kImport := Config.hkdfExpand prk (ascii "MNX8 import" ++ th) 32
                  binding := Config.hkdfExpand prk (ascii "MNX8 report" ++ th) 48 }
              ∧ t.out = s.out ++ [.spdm port answer]) ∧
          (∀ bs, x.prk.isSome = true → ∃ t, exec (.vendorDefinedRequest port id ⟨0xFE#8, pciSig, Config.pciVendor, bs⟩) s = .next t ∧ gone t) ∧
          (∀ (k : Fin 4) (set : Fin 2),
            let y := s.stream port k
            (∀ (sub : SubStream) (masked prk : List Byte), x.prk = some prk → x.part.isSome = true → masked.length = 32 →
              (y.session = none ∨ y.session = some id) → (y.part = none ∨ y.part = x.part) →
              let mask := Config.hkdfExpand prk (ascii "MNX8 ide" ++ leBytes 1 k.val ++ leBytes 1 set.val ++ leBytes 1 (subCode sub)) 32
              let key := (set, sub, xorBytes masked mask)
              exec (.keyProg port id k set sub masked) s = .next ((s.modStream port k fun v => { v with
                session := some id
                keys := (v.keys.filter fun z => !(z.1 == set && z.2.1 == sub)) ++ [key] }).spdmReply port 0x101 (leBytes 1 k.val))) ∧
            (y.session = some id → (∀ sub : SubStream, ∃ z ∈ y.keys, z.1 = set ∧ z.2.1 = sub) →
              exec (.kSetGo port id k set) s
                = .next ((s.modStream port k fun v => { v with active := some set }).spdmReply port 0x102 (leBytes 1 k.val))) ∧
            (y.session = some id → (∃ sub : SubStream, ∀ z ∈ y.keys, ¬ (z.1 = set ∧ z.2.1 = sub)) →
              exec (.kSetGo port id k set) s = .next (s.spdmError port errInvalid)) ∧
            (y.session = some id → ∃ t, exec (.kSetStop port id k set) s = .next t ∧ (t.stream port k).active ≠ some set
              ∧ (t.stream port k).keys = y.keys ∧ t = { s with coc := t.coc, out := t.out }))) ∧
        (12000000000 ≤ (s.time - x.lastHeard).toNat → ∃ t, exec (.spdmHeartbeatMiss id) s = .next t ∧ gone t) ∧
        ((s.time - x.lastHeard).toNat < 12000000000 → exec (.spdmHeartbeatMiss id) s = .next s))) ∧
    (∀ k : Fin 4, ((s.stream port k).active.isSome = true →
        exec (.ideIntegrityFail port k) s = .next (s.modStream port k fun v => { v with insecure := true, active := none })) ∧
      ((s.stream port k).active = none → exec (.ideIntegrityFail port k) s = .next s))
end

