-- ==== Sys2Proof/Laws/State.lean ====
section
/-!
SUPPORT. What each plain update of the state leaves alone: one lemma per field, true by definition.
-/

namespace Sys2Proof.Machine

variable (s : State)

@[simp] theorem State.setReg_pending (key : Nat) (v : Word) : (s.setReg key v).pending = s.pending := rfl
@[simp] theorem State.setReg_time (key : Nat) (v : Word) : (s.setReg key v).time = s.time := rfl
@[simp] theorem State.setReg_latchR (key : Nat) (v : Word) : (s.setReg key v).latchR = s.latchR := rfl
@[simp] theorem State.setReg_latchW (key : Nat) (v : Word) : (s.setReg key v).latchW = s.latchW := rfl
@[simp] theorem State.setReg_mem (key : Nat) (v : Word) : (s.setReg key v).mem = s.mem := rfl
@[simp] theorem State.setReg_tline (key : Nat) (v : Word) : (s.setReg key v).tline = s.tline := rfl
@[simp] theorem State.setReg_linkErr (key : Nat) (v : Word) : (s.setReg key v).linkErr = s.linkErr := rfl
@[simp] theorem State.setReg_fabricErr (key : Nat) (v : Word) : (s.setReg key v).fabricErr = s.fabricErr := rfl
@[simp] theorem State.setReg_pcieMem (key : Nat) (v : Word) : (s.setReg key v).pcieMem = s.pcieMem := rfl
@[simp] theorem State.setReg_ue (key : Nat) (v : Word) : (s.setReg key v).ue = s.ue := rfl
@[simp] theorem State.setReg_ce (key : Nat) (v : Word) : (s.setReg key v).ce = s.ce := rfl
@[simp] theorem State.setReg_arrays (key : Nat) (v : Word) : (s.setReg key v).arrays = s.arrays := rfl
@[simp] theorem State.setReg_tierTags (key : Nat) (v : Word) : (s.setReg key v).tierTags = s.tierTags := rfl
@[simp] theorem State.setReg_tierClears (key : Nat) (v : Word) : (s.setReg key v).tierClears = s.tierClears := rfl
@[simp] theorem State.setReg_apertures (key : Nat) (v : Word) : (s.setReg key v).apertures = s.apertures := rfl
@[simp] theorem State.setReg_events (key : Nat) (v : Word) : (s.setReg key v).events = s.events := rfl
@[simp] theorem State.setReg_out (key : Nat) (v : Word) : (s.setReg key v).out = s.out := rfl
@[simp] theorem State.setReg_rdata (key : Nat) (v : Word) : (s.setReg key v).rdata = s.rdata := rfl
@[simp] theorem State.setReg_free (key : Nat) (v : Word) : (s.setReg key v).free = s.free := rfl
@[simp] theorem State.setReg_parts (key : Nat) (v : Word) : (s.setReg key v).parts = s.parts := rfl
@[simp] theorem State.setReg_spn (key : Nat) (v : Word) : (s.setReg key v).spn = s.spn := rfl
@[simp] theorem State.setReg_twn (key : Nat) (v : Word) : (s.setReg key v).twn = s.twn := rfl
@[simp] theorem State.setReg_coc (key : Nat) (v : Word) : (s.setReg key v).coc = s.coc := rfl
@[simp] theorem State.setReg_flash (key : Nat) (v : Word) : (s.setReg key v).flash = s.flash := rfl
@[simp] theorem State.setReg_patrolAt (key : Nat) (v : Word) : (s.setReg key v).patrolAt = s.patrolAt := rfl
@[simp] theorem State.setReg_reel (key : Nat) (v : Word) : (s.setReg key v).reel = s.reel := rfl
@[simp] theorem State.setReg_srv (key : Nat) (v : Word) : (s.setReg key v).srv = s.srv := rfl
@[simp] theorem State.setReg_vid (key : Nat) (v : Word) : (s.setReg key v).vid = s.vid := rfl
@[simp] theorem State.setReg_sht (key : Nat) (v : Word) : (s.setReg key v).sht = s.sht := rfl
@[simp] theorem State.setReg_pm (key : Nat) (v : Word) : (s.setReg key v).pm = s.pm := rfl
@[simp] theorem State.setReg_board (key : Nat) (v : Word) : (s.setReg key v).board = s.board := rfl

@[simp] theorem State.modArr_pending (n : ArrayNum) (f : ArrayState → ArrayState) : (s.modArr n f).pending = s.pending := rfl
@[simp] theorem State.modArr_time (n : ArrayNum) (f : ArrayState → ArrayState) : (s.modArr n f).time = s.time := rfl
@[simp] theorem State.modArr_regs (n : ArrayNum) (f : ArrayState → ArrayState) : (s.modArr n f).regs = s.regs := rfl
@[simp] theorem State.modArr_latchR (n : ArrayNum) (f : ArrayState → ArrayState) : (s.modArr n f).latchR = s.latchR := rfl
@[simp] theorem State.modArr_latchW (n : ArrayNum) (f : ArrayState → ArrayState) : (s.modArr n f).latchW = s.latchW := rfl
@[simp] theorem State.modArr_mem (n : ArrayNum) (f : ArrayState → ArrayState) : (s.modArr n f).mem = s.mem := rfl
@[simp] theorem State.modArr_tline (n : ArrayNum) (f : ArrayState → ArrayState) : (s.modArr n f).tline = s.tline := rfl
@[simp] theorem State.modArr_linkErr (n : ArrayNum) (f : ArrayState → ArrayState) : (s.modArr n f).linkErr = s.linkErr := rfl
@[simp] theorem State.modArr_fabricErr (n : ArrayNum) (f : ArrayState → ArrayState) : (s.modArr n f).fabricErr = s.fabricErr := rfl
@[simp] theorem State.modArr_pcieMem (n : ArrayNum) (f : ArrayState → ArrayState) : (s.modArr n f).pcieMem = s.pcieMem := rfl
@[simp] theorem State.modArr_ue (n : ArrayNum) (f : ArrayState → ArrayState) : (s.modArr n f).ue = s.ue := rfl
@[simp] theorem State.modArr_ce (n : ArrayNum) (f : ArrayState → ArrayState) : (s.modArr n f).ce = s.ce := rfl
@[simp] theorem State.modArr_tierTags (n : ArrayNum) (f : ArrayState → ArrayState) : (s.modArr n f).tierTags = s.tierTags := rfl
@[simp] theorem State.modArr_tierClears (n : ArrayNum) (f : ArrayState → ArrayState) : (s.modArr n f).tierClears = s.tierClears := rfl
@[simp] theorem State.modArr_apertures (n : ArrayNum) (f : ArrayState → ArrayState) : (s.modArr n f).apertures = s.apertures := rfl
@[simp] theorem State.modArr_events (n : ArrayNum) (f : ArrayState → ArrayState) : (s.modArr n f).events = s.events := rfl
@[simp] theorem State.modArr_out (n : ArrayNum) (f : ArrayState → ArrayState) : (s.modArr n f).out = s.out := rfl
@[simp] theorem State.modArr_rdata (n : ArrayNum) (f : ArrayState → ArrayState) : (s.modArr n f).rdata = s.rdata := rfl
@[simp] theorem State.modArr_free (n : ArrayNum) (f : ArrayState → ArrayState) : (s.modArr n f).free = s.free := rfl
@[simp] theorem State.modArr_parts (n : ArrayNum) (f : ArrayState → ArrayState) : (s.modArr n f).parts = s.parts := rfl
@[simp] theorem State.modArr_spn (n : ArrayNum) (f : ArrayState → ArrayState) : (s.modArr n f).spn = s.spn := rfl
@[simp] theorem State.modArr_twn (n : ArrayNum) (f : ArrayState → ArrayState) : (s.modArr n f).twn = s.twn := rfl
@[simp] theorem State.modArr_coc (n : ArrayNum) (f : ArrayState → ArrayState) : (s.modArr n f).coc = s.coc := rfl
@[simp] theorem State.modArr_flash (n : ArrayNum) (f : ArrayState → ArrayState) : (s.modArr n f).flash = s.flash := rfl
@[simp] theorem State.modArr_patrolAt (n : ArrayNum) (f : ArrayState → ArrayState) : (s.modArr n f).patrolAt = s.patrolAt := rfl
@[simp] theorem State.modArr_reel (n : ArrayNum) (f : ArrayState → ArrayState) : (s.modArr n f).reel = s.reel := rfl
@[simp] theorem State.modArr_srv (n : ArrayNum) (f : ArrayState → ArrayState) : (s.modArr n f).srv = s.srv := rfl
@[simp] theorem State.modArr_vid (n : ArrayNum) (f : ArrayState → ArrayState) : (s.modArr n f).vid = s.vid := rfl
@[simp] theorem State.modArr_sht (n : ArrayNum) (f : ArrayState → ArrayState) : (s.modArr n f).sht = s.sht := rfl
@[simp] theorem State.modArr_pm (n : ArrayNum) (f : ArrayState → ArrayState) : (s.modArr n f).pm = s.pm := rfl
@[simp] theorem State.modArr_board (n : ArrayNum) (f : ArrayState → ArrayState) : (s.modArr n f).board = s.board := rfl

@[simp] theorem State.modPart_pending (p : PartNum) (f : Part → Part) : (s.modPart p f).pending = s.pending := rfl
@[simp] theorem State.modPart_time (p : PartNum) (f : Part → Part) : (s.modPart p f).time = s.time := rfl
@[simp] theorem State.modPart_regs (p : PartNum) (f : Part → Part) : (s.modPart p f).regs = s.regs := rfl
@[simp] theorem State.modPart_latchR (p : PartNum) (f : Part → Part) : (s.modPart p f).latchR = s.latchR := rfl
@[simp] theorem State.modPart_latchW (p : PartNum) (f : Part → Part) : (s.modPart p f).latchW = s.latchW := rfl
@[simp] theorem State.modPart_mem (p : PartNum) (f : Part → Part) : (s.modPart p f).mem = s.mem := rfl
@[simp] theorem State.modPart_tline (p : PartNum) (f : Part → Part) : (s.modPart p f).tline = s.tline := rfl
@[simp] theorem State.modPart_linkErr (p : PartNum) (f : Part → Part) : (s.modPart p f).linkErr = s.linkErr := rfl
@[simp] theorem State.modPart_fabricErr (p : PartNum) (f : Part → Part) : (s.modPart p f).fabricErr = s.fabricErr := rfl
@[simp] theorem State.modPart_pcieMem (p : PartNum) (f : Part → Part) : (s.modPart p f).pcieMem = s.pcieMem := rfl
@[simp] theorem State.modPart_ue (p : PartNum) (f : Part → Part) : (s.modPart p f).ue = s.ue := rfl
@[simp] theorem State.modPart_ce (p : PartNum) (f : Part → Part) : (s.modPart p f).ce = s.ce := rfl
@[simp] theorem State.modPart_arrays (p : PartNum) (f : Part → Part) : (s.modPart p f).arrays = s.arrays := rfl
@[simp] theorem State.modPart_tierTags (p : PartNum) (f : Part → Part) : (s.modPart p f).tierTags = s.tierTags := rfl
@[simp] theorem State.modPart_tierClears (p : PartNum) (f : Part → Part) : (s.modPart p f).tierClears = s.tierClears := rfl
@[simp] theorem State.modPart_apertures (p : PartNum) (f : Part → Part) : (s.modPart p f).apertures = s.apertures := rfl
@[simp] theorem State.modPart_events (p : PartNum) (f : Part → Part) : (s.modPart p f).events = s.events := rfl
@[simp] theorem State.modPart_out (p : PartNum) (f : Part → Part) : (s.modPart p f).out = s.out := rfl
@[simp] theorem State.modPart_rdata (p : PartNum) (f : Part → Part) : (s.modPart p f).rdata = s.rdata := rfl
@[simp] theorem State.modPart_free (p : PartNum) (f : Part → Part) : (s.modPart p f).free = s.free := rfl
@[simp] theorem State.modPart_spn (p : PartNum) (f : Part → Part) : (s.modPart p f).spn = s.spn := rfl
@[simp] theorem State.modPart_twn (p : PartNum) (f : Part → Part) : (s.modPart p f).twn = s.twn := rfl
@[simp] theorem State.modPart_coc (p : PartNum) (f : Part → Part) : (s.modPart p f).coc = s.coc := rfl
@[simp] theorem State.modPart_flash (p : PartNum) (f : Part → Part) : (s.modPart p f).flash = s.flash := rfl
@[simp] theorem State.modPart_patrolAt (p : PartNum) (f : Part → Part) : (s.modPart p f).patrolAt = s.patrolAt := rfl
@[simp] theorem State.modPart_reel (p : PartNum) (f : Part → Part) : (s.modPart p f).reel = s.reel := rfl
@[simp] theorem State.modPart_srv (p : PartNum) (f : Part → Part) : (s.modPart p f).srv = s.srv := rfl
@[simp] theorem State.modPart_vid (p : PartNum) (f : Part → Part) : (s.modPart p f).vid = s.vid := rfl
@[simp] theorem State.modPart_sht (p : PartNum) (f : Part → Part) : (s.modPart p f).sht = s.sht := rfl
@[simp] theorem State.modPart_pm (p : PartNum) (f : Part → Part) : (s.modPart p f).pm = s.pm := rfl
@[simp] theorem State.modPart_board (p : PartNum) (f : Part → Part) : (s.modPart p f).board = s.board := rfl

@[simp] theorem State.sealLine_pending (l : Nat) : (s.sealLine l).pending = s.pending := rfl
@[simp] theorem State.sealLine_time (l : Nat) : (s.sealLine l).time = s.time := rfl
@[simp] theorem State.sealLine_regs (l : Nat) : (s.sealLine l).regs = s.regs := rfl
@[simp] theorem State.sealLine_latchR (l : Nat) : (s.sealLine l).latchR = s.latchR := rfl
@[simp] theorem State.sealLine_latchW (l : Nat) : (s.sealLine l).latchW = s.latchW := rfl
@[simp] theorem State.sealLine_mem (l : Nat) : (s.sealLine l).mem = s.mem := rfl
@[simp] theorem State.sealLine_linkErr (l : Nat) : (s.sealLine l).linkErr = s.linkErr := rfl
@[simp] theorem State.sealLine_fabricErr (l : Nat) : (s.sealLine l).fabricErr = s.fabricErr := rfl
@[simp] theorem State.sealLine_pcieMem (l : Nat) : (s.sealLine l).pcieMem = s.pcieMem := rfl
@[simp] theorem State.sealLine_ue (l : Nat) : (s.sealLine l).ue = s.ue := rfl
@[simp] theorem State.sealLine_ce (l : Nat) : (s.sealLine l).ce = s.ce := rfl
@[simp] theorem State.sealLine_arrays (l : Nat) : (s.sealLine l).arrays = s.arrays := rfl
@[simp] theorem State.sealLine_tierTags (l : Nat) : (s.sealLine l).tierTags = s.tierTags := rfl
@[simp] theorem State.sealLine_tierClears (l : Nat) : (s.sealLine l).tierClears = s.tierClears := rfl
@[simp] theorem State.sealLine_apertures (l : Nat) : (s.sealLine l).apertures = s.apertures := rfl
@[simp] theorem State.sealLine_events (l : Nat) : (s.sealLine l).events = s.events := rfl
@[simp] theorem State.sealLine_out (l : Nat) : (s.sealLine l).out = s.out := rfl
@[simp] theorem State.sealLine_rdata (l : Nat) : (s.sealLine l).rdata = s.rdata := rfl
@[simp] theorem State.sealLine_free (l : Nat) : (s.sealLine l).free = s.free := rfl
@[simp] theorem State.sealLine_parts (l : Nat) : (s.sealLine l).parts = s.parts := rfl
@[simp] theorem State.sealLine_spn (l : Nat) : (s.sealLine l).spn = s.spn := rfl
@[simp] theorem State.sealLine_twn (l : Nat) : (s.sealLine l).twn = s.twn := rfl
@[simp] theorem State.sealLine_coc (l : Nat) : (s.sealLine l).coc = s.coc := rfl
@[simp] theorem State.sealLine_flash (l : Nat) : (s.sealLine l).flash = s.flash := rfl
@[simp] theorem State.sealLine_patrolAt (l : Nat) : (s.sealLine l).patrolAt = s.patrolAt := rfl
@[simp] theorem State.sealLine_reel (l : Nat) : (s.sealLine l).reel = s.reel := rfl
@[simp] theorem State.sealLine_srv (l : Nat) : (s.sealLine l).srv = s.srv := rfl
@[simp] theorem State.sealLine_vid (l : Nat) : (s.sealLine l).vid = s.vid := rfl
@[simp] theorem State.sealLine_sht (l : Nat) : (s.sealLine l).sht = s.sht := rfl
@[simp] theorem State.sealLine_pm (l : Nat) : (s.sealLine l).pm = s.pm := rfl
@[simp] theorem State.sealLine_board (l : Nat) : (s.sealLine l).board = s.board := rfl

@[simp] theorem State.putBytes_pending (a : Nat) (bs : List Byte) : (s.putBytes a bs).pending = s.pending := rfl
@[simp] theorem State.putBytes_time (a : Nat) (bs : List Byte) : (s.putBytes a bs).time = s.time := rfl
@[simp] theorem State.putBytes_regs (a : Nat) (bs : List Byte) : (s.putBytes a bs).regs = s.regs := rfl
@[simp] theorem State.putBytes_latchR (a : Nat) (bs : List Byte) : (s.putBytes a bs).latchR = s.latchR := rfl
@[simp] theorem State.putBytes_latchW (a : Nat) (bs : List Byte) : (s.putBytes a bs).latchW = s.latchW := rfl
@[simp] theorem State.putBytes_tline (a : Nat) (bs : List Byte) : (s.putBytes a bs).tline = s.tline := rfl
@[simp] theorem State.putBytes_linkErr (a : Nat) (bs : List Byte) : (s.putBytes a bs).linkErr = s.linkErr := rfl
@[simp] theorem State.putBytes_fabricErr (a : Nat) (bs : List Byte) : (s.putBytes a bs).fabricErr = s.fabricErr := rfl
@[simp] theorem State.putBytes_pcieMem (a : Nat) (bs : List Byte) : (s.putBytes a bs).pcieMem = s.pcieMem := rfl
@[simp] theorem State.putBytes_arrays (a : Nat) (bs : List Byte) : (s.putBytes a bs).arrays = s.arrays := rfl
@[simp] theorem State.putBytes_tierTags (a : Nat) (bs : List Byte) : (s.putBytes a bs).tierTags = s.tierTags := rfl
@[simp] theorem State.putBytes_tierClears (a : Nat) (bs : List Byte) : (s.putBytes a bs).tierClears = s.tierClears := rfl
@[simp] theorem State.putBytes_apertures (a : Nat) (bs : List Byte) : (s.putBytes a bs).apertures = s.apertures := rfl
@[simp] theorem State.putBytes_events (a : Nat) (bs : List Byte) : (s.putBytes a bs).events = s.events := rfl
@[simp] theorem State.putBytes_out (a : Nat) (bs : List Byte) : (s.putBytes a bs).out = s.out := rfl
@[simp] theorem State.putBytes_rdata (a : Nat) (bs : List Byte) : (s.putBytes a bs).rdata = s.rdata := rfl
@[simp] theorem State.putBytes_free (a : Nat) (bs : List Byte) : (s.putBytes a bs).free = s.free := rfl
@[simp] theorem State.putBytes_parts (a : Nat) (bs : List Byte) : (s.putBytes a bs).parts = s.parts := rfl
@[simp] theorem State.putBytes_spn (a : Nat) (bs : List Byte) : (s.putBytes a bs).spn = s.spn := rfl
@[simp] theorem State.putBytes_twn (a : Nat) (bs : List Byte) : (s.putBytes a bs).twn = s.twn := rfl
@[simp] theorem State.putBytes_coc (a : Nat) (bs : List Byte) : (s.putBytes a bs).coc = s.coc := rfl
@[simp] theorem State.putBytes_flash (a : Nat) (bs : List Byte) : (s.putBytes a bs).flash = s.flash := rfl
@[simp] theorem State.putBytes_patrolAt (a : Nat) (bs : List Byte) : (s.putBytes a bs).patrolAt = s.patrolAt := rfl
@[simp] theorem State.putBytes_reel (a : Nat) (bs : List Byte) : (s.putBytes a bs).reel = s.reel := rfl
@[simp] theorem State.putBytes_srv (a : Nat) (bs : List Byte) : (s.putBytes a bs).srv = s.srv := rfl
@[simp] theorem State.putBytes_vid (a : Nat) (bs : List Byte) : (s.putBytes a bs).vid = s.vid := rfl
@[simp] theorem State.putBytes_sht (a : Nat) (bs : List Byte) : (s.putBytes a bs).sht = s.sht := rfl
@[simp] theorem State.putBytes_pm (a : Nat) (bs : List Byte) : (s.putBytes a bs).pm = s.pm := rfl
@[simp] theorem State.putBytes_board (a : Nat) (bs : List Byte) : (s.putBytes a bs).board = s.board := rfl

@[simp] theorem State.clearBytes_pending (a n : Nat) : (s.clearBytes a n).pending = s.pending := rfl
@[simp] theorem State.clearBytes_time (a n : Nat) : (s.clearBytes a n).time = s.time := rfl
@[simp] theorem State.clearBytes_regs (a n : Nat) : (s.clearBytes a n).regs = s.regs := rfl
@[simp] theorem State.clearBytes_latchR (a n : Nat) : (s.clearBytes a n).latchR = s.latchR := rfl
@[simp] theorem State.clearBytes_latchW (a n : Nat) : (s.clearBytes a n).latchW = s.latchW := rfl
@[simp] theorem State.clearBytes_linkErr (a n : Nat) : (s.clearBytes a n).linkErr = s.linkErr := rfl
@[simp] theorem State.clearBytes_fabricErr (a n : Nat) : (s.clearBytes a n).fabricErr = s.fabricErr := rfl
@[simp] theorem State.clearBytes_pcieMem (a n : Nat) : (s.clearBytes a n).pcieMem = s.pcieMem := rfl
@[simp] theorem State.clearBytes_arrays (a n : Nat) : (s.clearBytes a n).arrays = s.arrays := rfl
@[simp] theorem State.clearBytes_tierTags (a n : Nat) : (s.clearBytes a n).tierTags = s.tierTags := rfl
@[simp] theorem State.clearBytes_tierClears (a n : Nat) : (s.clearBytes a n).tierClears = s.tierClears := rfl
@[simp] theorem State.clearBytes_apertures (a n : Nat) : (s.clearBytes a n).apertures = s.apertures := rfl
@[simp] theorem State.clearBytes_events (a n : Nat) : (s.clearBytes a n).events = s.events := rfl
@[simp] theorem State.clearBytes_out (a n : Nat) : (s.clearBytes a n).out = s.out := rfl
@[simp] theorem State.clearBytes_rdata (a n : Nat) : (s.clearBytes a n).rdata = s.rdata := rfl
@[simp] theorem State.clearBytes_free (a n : Nat) : (s.clearBytes a n).free = s.free := rfl
@[simp] theorem State.clearBytes_parts (a n : Nat) : (s.clearBytes a n).parts = s.parts := rfl
@[simp] theorem State.clearBytes_spn (a n : Nat) : (s.clearBytes a n).spn = s.spn := rfl
@[simp] theorem State.clearBytes_twn (a n : Nat) : (s.clearBytes a n).twn = s.twn := rfl
@[simp] theorem State.clearBytes_coc (a n : Nat) : (s.clearBytes a n).coc = s.coc := rfl
@[simp] theorem State.clearBytes_flash (a n : Nat) : (s.clearBytes a n).flash = s.flash := rfl
@[simp] theorem State.clearBytes_patrolAt (a n : Nat) : (s.clearBytes a n).patrolAt = s.patrolAt := rfl
@[simp] theorem State.clearBytes_reel (a n : Nat) : (s.clearBytes a n).reel = s.reel := rfl
@[simp] theorem State.clearBytes_srv (a n : Nat) : (s.clearBytes a n).srv = s.srv := rfl
@[simp] theorem State.clearBytes_vid (a n : Nat) : (s.clearBytes a n).vid = s.vid := rfl
@[simp] theorem State.clearBytes_sht (a n : Nat) : (s.clearBytes a n).sht = s.sht := rfl
@[simp] theorem State.clearBytes_pm (a n : Nat) : (s.clearBytes a n).pm = s.pm := rfl
@[simp] theorem State.clearBytes_board (a n : Nat) : (s.clearBytes a n).board = s.board := rfl

@[simp] theorem State.hostStores_pending (hw : HostStores) : (s.hostStores hw).pending = s.pending := rfl
@[simp] theorem State.hostStores_time (hw : HostStores) : (s.hostStores hw).time = s.time := rfl
@[simp] theorem State.hostStores_regs (hw : HostStores) : (s.hostStores hw).regs = s.regs := rfl
@[simp] theorem State.hostStores_latchR (hw : HostStores) : (s.hostStores hw).latchR = s.latchR := rfl
@[simp] theorem State.hostStores_latchW (hw : HostStores) : (s.hostStores hw).latchW = s.latchW := rfl
@[simp] theorem State.hostStores_mem (hw : HostStores) : (s.hostStores hw).mem = s.mem := rfl
@[simp] theorem State.hostStores_tline (hw : HostStores) : (s.hostStores hw).tline = s.tline := rfl
@[simp] theorem State.hostStores_linkErr (hw : HostStores) : (s.hostStores hw).linkErr = s.linkErr := rfl
@[simp] theorem State.hostStores_fabricErr (hw : HostStores) : (s.hostStores hw).fabricErr = s.fabricErr := rfl
@[simp] theorem State.hostStores_ue (hw : HostStores) : (s.hostStores hw).ue = s.ue := rfl
@[simp] theorem State.hostStores_ce (hw : HostStores) : (s.hostStores hw).ce = s.ce := rfl
@[simp] theorem State.hostStores_arrays (hw : HostStores) : (s.hostStores hw).arrays = s.arrays := rfl
@[simp] theorem State.hostStores_tierTags (hw : HostStores) : (s.hostStores hw).tierTags = s.tierTags := rfl
@[simp] theorem State.hostStores_tierClears (hw : HostStores) : (s.hostStores hw).tierClears = s.tierClears := rfl
@[simp] theorem State.hostStores_apertures (hw : HostStores) : (s.hostStores hw).apertures = s.apertures := rfl
@[simp] theorem State.hostStores_events (hw : HostStores) : (s.hostStores hw).events = s.events := rfl
@[simp] theorem State.hostStores_out (hw : HostStores) : (s.hostStores hw).out = s.out := rfl
@[simp] theorem State.hostStores_rdata (hw : HostStores) : (s.hostStores hw).rdata = s.rdata := rfl
@[simp] theorem State.hostStores_free (hw : HostStores) : (s.hostStores hw).free = s.free := rfl
@[simp] theorem State.hostStores_parts (hw : HostStores) : (s.hostStores hw).parts = s.parts := rfl
@[simp] theorem State.hostStores_spn (hw : HostStores) : (s.hostStores hw).spn = s.spn := rfl
@[simp] theorem State.hostStores_twn (hw : HostStores) : (s.hostStores hw).twn = s.twn := rfl
@[simp] theorem State.hostStores_coc (hw : HostStores) : (s.hostStores hw).coc = s.coc := rfl
@[simp] theorem State.hostStores_flash (hw : HostStores) : (s.hostStores hw).flash = s.flash := rfl
@[simp] theorem State.hostStores_patrolAt (hw : HostStores) : (s.hostStores hw).patrolAt = s.patrolAt := rfl
@[simp] theorem State.hostStores_reel (hw : HostStores) : (s.hostStores hw).reel = s.reel := rfl
@[simp] theorem State.hostStores_srv (hw : HostStores) : (s.hostStores hw).srv = s.srv := rfl
@[simp] theorem State.hostStores_vid (hw : HostStores) : (s.hostStores hw).vid = s.vid := rfl
@[simp] theorem State.hostStores_sht (hw : HostStores) : (s.hostStores hw).sht = s.sht := rfl
@[simp] theorem State.hostStores_pm (hw : HostStores) : (s.hostStores hw).pm = s.pm := rfl
@[simp] theorem State.hostStores_board (hw : HostStores) : (s.hostStores hw).board = s.board := rfl

@[simp] theorem State.pcieStore_pending (port : Port) (a : Nat) (bs : List Byte) : (s.pcieStore port a bs).pending = s.pending := rfl
@[simp] theorem State.pcieStore_time (port : Port) (a : Nat) (bs : List Byte) : (s.pcieStore port a bs).time = s.time := rfl
@[simp] theorem State.pcieStore_regs (port : Port) (a : Nat) (bs : List Byte) : (s.pcieStore port a bs).regs = s.regs := rfl
@[simp] theorem State.pcieStore_latchR (port : Port) (a : Nat) (bs : List Byte) : (s.pcieStore port a bs).latchR = s.latchR := rfl
@[simp] theorem State.pcieStore_latchW (port : Port) (a : Nat) (bs : List Byte) : (s.pcieStore port a bs).latchW = s.latchW := rfl
@[simp] theorem State.pcieStore_mem (port : Port) (a : Nat) (bs : List Byte) : (s.pcieStore port a bs).mem = s.mem := rfl
@[simp] theorem State.pcieStore_tline (port : Port) (a : Nat) (bs : List Byte) : (s.pcieStore port a bs).tline = s.tline := rfl
@[simp] theorem State.pcieStore_linkErr (port : Port) (a : Nat) (bs : List Byte) : (s.pcieStore port a bs).linkErr = s.linkErr := rfl
@[simp] theorem State.pcieStore_fabricErr (port : Port) (a : Nat) (bs : List Byte) : (s.pcieStore port a bs).fabricErr = s.fabricErr := rfl
@[simp] theorem State.pcieStore_ue (port : Port) (a : Nat) (bs : List Byte) : (s.pcieStore port a bs).ue = s.ue := rfl
@[simp] theorem State.pcieStore_ce (port : Port) (a : Nat) (bs : List Byte) : (s.pcieStore port a bs).ce = s.ce := rfl
@[simp] theorem State.pcieStore_arrays (port : Port) (a : Nat) (bs : List Byte) : (s.pcieStore port a bs).arrays = s.arrays := rfl
@[simp] theorem State.pcieStore_tierTags (port : Port) (a : Nat) (bs : List Byte) : (s.pcieStore port a bs).tierTags = s.tierTags := rfl
@[simp] theorem State.pcieStore_tierClears (port : Port) (a : Nat) (bs : List Byte) : (s.pcieStore port a bs).tierClears = s.tierClears := rfl
@[simp] theorem State.pcieStore_apertures (port : Port) (a : Nat) (bs : List Byte) : (s.pcieStore port a bs).apertures = s.apertures := rfl
@[simp] theorem State.pcieStore_events (port : Port) (a : Nat) (bs : List Byte) : (s.pcieStore port a bs).events = s.events := rfl
@[simp] theorem State.pcieStore_out (port : Port) (a : Nat) (bs : List Byte) : (s.pcieStore port a bs).out = s.out := rfl
@[simp] theorem State.pcieStore_rdata (port : Port) (a : Nat) (bs : List Byte) : (s.pcieStore port a bs).rdata = s.rdata := rfl
@[simp] theorem State.pcieStore_free (port : Port) (a : Nat) (bs : List Byte) : (s.pcieStore port a bs).free = s.free := rfl
@[simp] theorem State.pcieStore_parts (port : Port) (a : Nat) (bs : List Byte) : (s.pcieStore port a bs).parts = s.parts := rfl
@[simp] theorem State.pcieStore_spn (port : Port) (a : Nat) (bs : List Byte) : (s.pcieStore port a bs).spn = s.spn := rfl
@[simp] theorem State.pcieStore_twn (port : Port) (a : Nat) (bs : List Byte) : (s.pcieStore port a bs).twn = s.twn := rfl
@[simp] theorem State.pcieStore_coc (port : Port) (a : Nat) (bs : List Byte) : (s.pcieStore port a bs).coc = s.coc := rfl
@[simp] theorem State.pcieStore_flash (port : Port) (a : Nat) (bs : List Byte) : (s.pcieStore port a bs).flash = s.flash := rfl
@[simp] theorem State.pcieStore_patrolAt (port : Port) (a : Nat) (bs : List Byte) : (s.pcieStore port a bs).patrolAt = s.patrolAt := rfl
@[simp] theorem State.pcieStore_reel (port : Port) (a : Nat) (bs : List Byte) : (s.pcieStore port a bs).reel = s.reel := rfl
@[simp] theorem State.pcieStore_srv (port : Port) (a : Nat) (bs : List Byte) : (s.pcieStore port a bs).srv = s.srv := rfl
@[simp] theorem State.pcieStore_vid (port : Port) (a : Nat) (bs : List Byte) : (s.pcieStore port a bs).vid = s.vid := rfl
@[simp] theorem State.pcieStore_sht (port : Port) (a : Nat) (bs : List Byte) : (s.pcieStore port a bs).sht = s.sht := rfl
@[simp] theorem State.pcieStore_pm (port : Port) (a : Nat) (bs : List Byte) : (s.pcieStore port a bs).pm = s.pm := rfl
@[simp] theorem State.pcieStore_board (port : Port) (a : Nat) (bs : List Byte) : (s.pcieStore port a bs).board = s.board := rfl

@[simp] theorem State.send_pending (m : OutMsg) : (s.send m).pending = s.pending := rfl
@[simp] theorem State.send_time (m : OutMsg) : (s.send m).time = s.time := rfl
@[simp] theorem State.send_regs (m : OutMsg) : (s.send m).regs = s.regs := rfl
@[simp] theorem State.send_latchR (m : OutMsg) : (s.send m).latchR = s.latchR := rfl
@[simp] theorem State.send_latchW (m : OutMsg) : (s.send m).latchW = s.latchW := rfl
@[simp] theorem State.send_mem (m : OutMsg) : (s.send m).mem = s.mem := rfl
@[simp] theorem State.send_tline (m : OutMsg) : (s.send m).tline = s.tline := rfl
@[simp] theorem State.send_linkErr (m : OutMsg) : (s.send m).linkErr = s.linkErr := rfl
@[simp] theorem State.send_fabricErr (m : OutMsg) : (s.send m).fabricErr = s.fabricErr := rfl
@[simp] theorem State.send_pcieMem (m : OutMsg) : (s.send m).pcieMem = s.pcieMem := rfl
@[simp] theorem State.send_ue (m : OutMsg) : (s.send m).ue = s.ue := rfl
@[simp] theorem State.send_ce (m : OutMsg) : (s.send m).ce = s.ce := rfl
@[simp] theorem State.send_arrays (m : OutMsg) : (s.send m).arrays = s.arrays := rfl
@[simp] theorem State.send_tierTags (m : OutMsg) : (s.send m).tierTags = s.tierTags := rfl
@[simp] theorem State.send_tierClears (m : OutMsg) : (s.send m).tierClears = s.tierClears := rfl
@[simp] theorem State.send_apertures (m : OutMsg) : (s.send m).apertures = s.apertures := rfl
@[simp] theorem State.send_events (m : OutMsg) : (s.send m).events = s.events := rfl
@[simp] theorem State.send_rdata (m : OutMsg) : (s.send m).rdata = s.rdata := rfl
@[simp] theorem State.send_free (m : OutMsg) : (s.send m).free = s.free := rfl
@[simp] theorem State.send_parts (m : OutMsg) : (s.send m).parts = s.parts := rfl
@[simp] theorem State.send_spn (m : OutMsg) : (s.send m).spn = s.spn := rfl
@[simp] theorem State.send_twn (m : OutMsg) : (s.send m).twn = s.twn := rfl
@[simp] theorem State.send_coc (m : OutMsg) : (s.send m).coc = s.coc := rfl
@[simp] theorem State.send_flash (m : OutMsg) : (s.send m).flash = s.flash := rfl
@[simp] theorem State.send_patrolAt (m : OutMsg) : (s.send m).patrolAt = s.patrolAt := rfl
@[simp] theorem State.send_reel (m : OutMsg) : (s.send m).reel = s.reel := rfl
@[simp] theorem State.send_srv (m : OutMsg) : (s.send m).srv = s.srv := rfl
@[simp] theorem State.send_vid (m : OutMsg) : (s.send m).vid = s.vid := rfl
@[simp] theorem State.send_sht (m : OutMsg) : (s.send m).sht = s.sht := rfl
@[simp] theorem State.send_pm (m : OutMsg) : (s.send m).pm = s.pm := rfl
@[simp] theorem State.send_board (m : OutMsg) : (s.send m).board = s.board := rfl

@[simp] theorem State.setTtag_pending (g : Nat) (x : Byte) : (s.setTtag g x).pending = s.pending := rfl
@[simp] theorem State.setTtag_time (g : Nat) (x : Byte) : (s.setTtag g x).time = s.time := rfl
@[simp] theorem State.setTtag_regs (g : Nat) (x : Byte) : (s.setTtag g x).regs = s.regs := rfl
@[simp] theorem State.setTtag_latchR (g : Nat) (x : Byte) : (s.setTtag g x).latchR = s.latchR := rfl
@[simp] theorem State.setTtag_latchW (g : Nat) (x : Byte) : (s.setTtag g x).latchW = s.latchW := rfl
@[simp] theorem State.setTtag_mem (g : Nat) (x : Byte) : (s.setTtag g x).mem = s.mem := rfl
@[simp] theorem State.setTtag_tline (g : Nat) (x : Byte) : (s.setTtag g x).tline = s.tline := rfl
@[simp] theorem State.setTtag_linkErr (g : Nat) (x : Byte) : (s.setTtag g x).linkErr = s.linkErr := rfl
@[simp] theorem State.setTtag_fabricErr (g : Nat) (x : Byte) : (s.setTtag g x).fabricErr = s.fabricErr := rfl
@[simp] theorem State.setTtag_pcieMem (g : Nat) (x : Byte) : (s.setTtag g x).pcieMem = s.pcieMem := rfl
@[simp] theorem State.setTtag_ue (g : Nat) (x : Byte) : (s.setTtag g x).ue = s.ue := rfl
@[simp] theorem State.setTtag_ce (g : Nat) (x : Byte) : (s.setTtag g x).ce = s.ce := rfl
@[simp] theorem State.setTtag_arrays (g : Nat) (x : Byte) : (s.setTtag g x).arrays = s.arrays := rfl
@[simp] theorem State.setTtag_tierClears (g : Nat) (x : Byte) : (s.setTtag g x).tierClears = s.tierClears := rfl
@[simp] theorem State.setTtag_apertures (g : Nat) (x : Byte) : (s.setTtag g x).apertures = s.apertures := rfl
@[simp] theorem State.setTtag_events (g : Nat) (x : Byte) : (s.setTtag g x).events = s.events := rfl
@[simp] theorem State.setTtag_out (g : Nat) (x : Byte) : (s.setTtag g x).out = s.out := rfl
@[simp] theorem State.setTtag_rdata (g : Nat) (x : Byte) : (s.setTtag g x).rdata = s.rdata := rfl
@[simp] theorem State.setTtag_free (g : Nat) (x : Byte) : (s.setTtag g x).free = s.free := rfl
@[simp] theorem State.setTtag_parts (g : Nat) (x : Byte) : (s.setTtag g x).parts = s.parts := rfl
@[simp] theorem State.setTtag_spn (g : Nat) (x : Byte) : (s.setTtag g x).spn = s.spn := rfl
@[simp] theorem State.setTtag_twn (g : Nat) (x : Byte) : (s.setTtag g x).twn = s.twn := rfl
@[simp] theorem State.setTtag_coc (g : Nat) (x : Byte) : (s.setTtag g x).coc = s.coc := rfl
@[simp] theorem State.setTtag_flash (g : Nat) (x : Byte) : (s.setTtag g x).flash = s.flash := rfl
@[simp] theorem State.setTtag_patrolAt (g : Nat) (x : Byte) : (s.setTtag g x).patrolAt = s.patrolAt := rfl
@[simp] theorem State.setTtag_reel (g : Nat) (x : Byte) : (s.setTtag g x).reel = s.reel := rfl
@[simp] theorem State.setTtag_srv (g : Nat) (x : Byte) : (s.setTtag g x).srv = s.srv := rfl
@[simp] theorem State.setTtag_vid (g : Nat) (x : Byte) : (s.setTtag g x).vid = s.vid := rfl
@[simp] theorem State.setTtag_sht (g : Nat) (x : Byte) : (s.setTtag g x).sht = s.sht := rfl
@[simp] theorem State.setTtag_pm (g : Nat) (x : Byte) : (s.setTtag g x).pm = s.pm := rfl
@[simp] theorem State.setTtag_board (g : Nat) (x : Byte) : (s.setTtag g x).board = s.board := rfl

@[simp] theorem State.setVtag_pending (n : ArrayNum) (g : Nat) (x : Byte) : (s.setVtag n g x).pending = s.pending := rfl
@[simp] theorem State.setVtag_time (n : ArrayNum) (g : Nat) (x : Byte) : (s.setVtag n g x).time = s.time := rfl
@[simp] theorem State.setVtag_regs (n : ArrayNum) (g : Nat) (x : Byte) : (s.setVtag n g x).regs = s.regs := rfl
@[simp] theorem State.setVtag_latchR (n : ArrayNum) (g : Nat) (x : Byte) : (s.setVtag n g x).latchR = s.latchR := rfl
@[simp] theorem State.setVtag_latchW (n : ArrayNum) (g : Nat) (x : Byte) : (s.setVtag n g x).latchW = s.latchW := rfl
@[simp] theorem State.setVtag_mem (n : ArrayNum) (g : Nat) (x : Byte) : (s.setVtag n g x).mem = s.mem := rfl
@[simp] theorem State.setVtag_tline (n : ArrayNum) (g : Nat) (x : Byte) : (s.setVtag n g x).tline = s.tline := rfl
@[simp] theorem State.setVtag_linkErr (n : ArrayNum) (g : Nat) (x : Byte) : (s.setVtag n g x).linkErr = s.linkErr := rfl
@[simp] theorem State.setVtag_fabricErr (n : ArrayNum) (g : Nat) (x : Byte) : (s.setVtag n g x).fabricErr = s.fabricErr := rfl
@[simp] theorem State.setVtag_pcieMem (n : ArrayNum) (g : Nat) (x : Byte) : (s.setVtag n g x).pcieMem = s.pcieMem := rfl
@[simp] theorem State.setVtag_ue (n : ArrayNum) (g : Nat) (x : Byte) : (s.setVtag n g x).ue = s.ue := rfl
@[simp] theorem State.setVtag_ce (n : ArrayNum) (g : Nat) (x : Byte) : (s.setVtag n g x).ce = s.ce := rfl
@[simp] theorem State.setVtag_tierTags (n : ArrayNum) (g : Nat) (x : Byte) : (s.setVtag n g x).tierTags = s.tierTags := rfl
@[simp] theorem State.setVtag_tierClears (n : ArrayNum) (g : Nat) (x : Byte) : (s.setVtag n g x).tierClears = s.tierClears := rfl
@[simp] theorem State.setVtag_apertures (n : ArrayNum) (g : Nat) (x : Byte) : (s.setVtag n g x).apertures = s.apertures := rfl
@[simp] theorem State.setVtag_events (n : ArrayNum) (g : Nat) (x : Byte) : (s.setVtag n g x).events = s.events := rfl
@[simp] theorem State.setVtag_out (n : ArrayNum) (g : Nat) (x : Byte) : (s.setVtag n g x).out = s.out := rfl
@[simp] theorem State.setVtag_rdata (n : ArrayNum) (g : Nat) (x : Byte) : (s.setVtag n g x).rdata = s.rdata := rfl
@[simp] theorem State.setVtag_free (n : ArrayNum) (g : Nat) (x : Byte) : (s.setVtag n g x).free = s.free := rfl
@[simp] theorem State.setVtag_parts (n : ArrayNum) (g : Nat) (x : Byte) : (s.setVtag n g x).parts = s.parts := rfl
@[simp] theorem State.setVtag_spn (n : ArrayNum) (g : Nat) (x : Byte) : (s.setVtag n g x).spn = s.spn := rfl
@[simp] theorem State.setVtag_twn (n : ArrayNum) (g : Nat) (x : Byte) : (s.setVtag n g x).twn = s.twn := rfl
@[simp] theorem State.setVtag_coc (n : ArrayNum) (g : Nat) (x : Byte) : (s.setVtag n g x).coc = s.coc := rfl
@[simp] theorem State.setVtag_flash (n : ArrayNum) (g : Nat) (x : Byte) : (s.setVtag n g x).flash = s.flash := rfl
@[simp] theorem State.setVtag_patrolAt (n : ArrayNum) (g : Nat) (x : Byte) : (s.setVtag n g x).patrolAt = s.patrolAt := rfl
@[simp] theorem State.setVtag_reel (n : ArrayNum) (g : Nat) (x : Byte) : (s.setVtag n g x).reel = s.reel := rfl
@[simp] theorem State.setVtag_srv (n : ArrayNum) (g : Nat) (x : Byte) : (s.setVtag n g x).srv = s.srv := rfl
@[simp] theorem State.setVtag_vid (n : ArrayNum) (g : Nat) (x : Byte) : (s.setVtag n g x).vid = s.vid := rfl
@[simp] theorem State.setVtag_sht (n : ArrayNum) (g : Nat) (x : Byte) : (s.setVtag n g x).sht = s.sht := rfl
@[simp] theorem State.setVtag_pm (n : ArrayNum) (g : Nat) (x : Byte) : (s.setVtag n g x).pm = s.pm := rfl
@[simp] theorem State.setVtag_board (n : ArrayNum) (g : Nat) (x : Byte) : (s.setVtag n g x).board = s.board := rfl

@[simp] theorem State.refreshDue_pending : (s.refreshDue).pending = s.pending := rfl
@[simp] theorem State.refreshDue_time : (s.refreshDue).time = s.time := rfl
@[simp] theorem State.refreshDue_regs : (s.refreshDue).regs = s.regs := rfl
@[simp] theorem State.refreshDue_latchR : (s.refreshDue).latchR = s.latchR := rfl
@[simp] theorem State.refreshDue_latchW : (s.refreshDue).latchW = s.latchW := rfl
@[simp] theorem State.refreshDue_mem : (s.refreshDue).mem = s.mem := rfl
@[simp] theorem State.refreshDue_tline : (s.refreshDue).tline = s.tline := rfl
@[simp] theorem State.refreshDue_linkErr : (s.refreshDue).linkErr = s.linkErr := rfl
@[simp] theorem State.refreshDue_fabricErr : (s.refreshDue).fabricErr = s.fabricErr := rfl
@[simp] theorem State.refreshDue_pcieMem : (s.refreshDue).pcieMem = s.pcieMem := rfl
@[simp] theorem State.refreshDue_ue : (s.refreshDue).ue = s.ue := rfl
@[simp] theorem State.refreshDue_ce : (s.refreshDue).ce = s.ce := rfl
@[simp] theorem State.refreshDue_arrays : (s.refreshDue).arrays = s.arrays := rfl
@[simp] theorem State.refreshDue_tierTags : (s.refreshDue).tierTags = s.tierTags := rfl
@[simp] theorem State.refreshDue_tierClears : (s.refreshDue).tierClears = s.tierClears := rfl
@[simp] theorem State.refreshDue_apertures : (s.refreshDue).apertures = s.apertures := rfl
@[simp] theorem State.refreshDue_out : (s.refreshDue).out = s.out := rfl
@[simp] theorem State.refreshDue_rdata : (s.refreshDue).rdata = s.rdata := rfl
@[simp] theorem State.refreshDue_free : (s.refreshDue).free = s.free := rfl
@[simp] theorem State.refreshDue_parts : (s.refreshDue).parts = s.parts := rfl
@[simp] theorem State.refreshDue_spn : (s.refreshDue).spn = s.spn := rfl
@[simp] theorem State.refreshDue_twn : (s.refreshDue).twn = s.twn := rfl
@[simp] theorem State.refreshDue_coc : (s.refreshDue).coc = s.coc := rfl
@[simp] theorem State.refreshDue_flash : (s.refreshDue).flash = s.flash := rfl
@[simp] theorem State.refreshDue_patrolAt : (s.refreshDue).patrolAt = s.patrolAt := rfl
@[simp] theorem State.refreshDue_reel : (s.refreshDue).reel = s.reel := rfl
@[simp] theorem State.refreshDue_srv : (s.refreshDue).srv = s.srv := rfl
@[simp] theorem State.refreshDue_vid : (s.refreshDue).vid = s.vid := rfl
@[simp] theorem State.refreshDue_sht : (s.refreshDue).sht = s.sht := rfl
@[simp] theorem State.refreshDue_pm : (s.refreshDue).pm = s.pm := rfl
@[simp] theorem State.refreshDue_board : (s.refreshDue).board = s.board := rfl

@[simp] theorem State.modCmd_pending (c : CmdRef) (f : Cmd → Cmd) : (s.modCmd c f).pending = s.pending := rfl
@[simp] theorem State.modCmd_time (c : CmdRef) (f : Cmd → Cmd) : (s.modCmd c f).time = s.time := rfl
@[simp] theorem State.modCmd_regs (c : CmdRef) (f : Cmd → Cmd) : (s.modCmd c f).regs = s.regs := rfl
@[simp] theorem State.modCmd_latchR (c : CmdRef) (f : Cmd → Cmd) : (s.modCmd c f).latchR = s.latchR := rfl
@[simp] theorem State.modCmd_latchW (c : CmdRef) (f : Cmd → Cmd) : (s.modCmd c f).latchW = s.latchW := rfl
@[simp] theorem State.modCmd_mem (c : CmdRef) (f : Cmd → Cmd) : (s.modCmd c f).mem = s.mem := rfl
@[simp] theorem State.modCmd_tline (c : CmdRef) (f : Cmd → Cmd) : (s.modCmd c f).tline = s.tline := rfl
@[simp] theorem State.modCmd_linkErr (c : CmdRef) (f : Cmd → Cmd) : (s.modCmd c f).linkErr = s.linkErr := rfl
@[simp] theorem State.modCmd_fabricErr (c : CmdRef) (f : Cmd → Cmd) : (s.modCmd c f).fabricErr = s.fabricErr := rfl
@[simp] theorem State.modCmd_pcieMem (c : CmdRef) (f : Cmd → Cmd) : (s.modCmd c f).pcieMem = s.pcieMem := rfl
@[simp] theorem State.modCmd_ue (c : CmdRef) (f : Cmd → Cmd) : (s.modCmd c f).ue = s.ue := rfl
@[simp] theorem State.modCmd_ce (c : CmdRef) (f : Cmd → Cmd) : (s.modCmd c f).ce = s.ce := rfl
@[simp] theorem State.modCmd_arrays (c : CmdRef) (f : Cmd → Cmd) : (s.modCmd c f).arrays = s.arrays := rfl
@[simp] theorem State.modCmd_tierTags (c : CmdRef) (f : Cmd → Cmd) : (s.modCmd c f).tierTags = s.tierTags := rfl
@[simp] theorem State.modCmd_tierClears (c : CmdRef) (f : Cmd → Cmd) : (s.modCmd c f).tierClears = s.tierClears := rfl
@[simp] theorem State.modCmd_apertures (c : CmdRef) (f : Cmd → Cmd) : (s.modCmd c f).apertures = s.apertures := rfl
@[simp] theorem State.modCmd_events (c : CmdRef) (f : Cmd → Cmd) : (s.modCmd c f).events = s.events := rfl
@[simp] theorem State.modCmd_out (c : CmdRef) (f : Cmd → Cmd) : (s.modCmd c f).out = s.out := rfl
@[simp] theorem State.modCmd_rdata (c : CmdRef) (f : Cmd → Cmd) : (s.modCmd c f).rdata = s.rdata := rfl
@[simp] theorem State.modCmd_free (c : CmdRef) (f : Cmd → Cmd) : (s.modCmd c f).free = s.free := rfl
@[simp] theorem State.modCmd_parts (c : CmdRef) (f : Cmd → Cmd) : (s.modCmd c f).parts = s.parts := rfl
@[simp] theorem State.modCmd_twn (c : CmdRef) (f : Cmd → Cmd) : (s.modCmd c f).twn = s.twn := rfl
@[simp] theorem State.modCmd_coc (c : CmdRef) (f : Cmd → Cmd) : (s.modCmd c f).coc = s.coc := rfl
@[simp] theorem State.modCmd_flash (c : CmdRef) (f : Cmd → Cmd) : (s.modCmd c f).flash = s.flash := rfl
@[simp] theorem State.modCmd_patrolAt (c : CmdRef) (f : Cmd → Cmd) : (s.modCmd c f).patrolAt = s.patrolAt := rfl
@[simp] theorem State.modCmd_reel (c : CmdRef) (f : Cmd → Cmd) : (s.modCmd c f).reel = s.reel := rfl
@[simp] theorem State.modCmd_srv (c : CmdRef) (f : Cmd → Cmd) : (s.modCmd c f).srv = s.srv := rfl
@[simp] theorem State.modCmd_vid (c : CmdRef) (f : Cmd → Cmd) : (s.modCmd c f).vid = s.vid := rfl
@[simp] theorem State.modCmd_sht (c : CmdRef) (f : Cmd → Cmd) : (s.modCmd c f).sht = s.sht := rfl
@[simp] theorem State.modCmd_pm (c : CmdRef) (f : Cmd → Cmd) : (s.modCmd c f).pm = s.pm := rfl
@[simp] theorem State.modCmd_board (c : CmdRef) (f : Cmd → Cmd) : (s.modCmd c f).board = s.board := rfl

@[simp] theorem State.modSht_pending (i : Fin 4) (f : ShtInst → ShtInst) : (s.modSht i f).pending = s.pending := rfl
@[simp] theorem State.modSht_time (i : Fin 4) (f : ShtInst → ShtInst) : (s.modSht i f).time = s.time := rfl
@[simp] theorem State.modSht_regs (i : Fin 4) (f : ShtInst → ShtInst) : (s.modSht i f).regs = s.regs := rfl
@[simp] theorem State.modSht_latchR (i : Fin 4) (f : ShtInst → ShtInst) : (s.modSht i f).latchR = s.latchR := rfl
@[simp] theorem State.modSht_latchW (i : Fin 4) (f : ShtInst → ShtInst) : (s.modSht i f).latchW = s.latchW := rfl
@[simp] theorem State.modSht_mem (i : Fin 4) (f : ShtInst → ShtInst) : (s.modSht i f).mem = s.mem := rfl
@[simp] theorem State.modSht_tline (i : Fin 4) (f : ShtInst → ShtInst) : (s.modSht i f).tline = s.tline := rfl
@[simp] theorem State.modSht_linkErr (i : Fin 4) (f : ShtInst → ShtInst) : (s.modSht i f).linkErr = s.linkErr := rfl
@[simp] theorem State.modSht_fabricErr (i : Fin 4) (f : ShtInst → ShtInst) : (s.modSht i f).fabricErr = s.fabricErr := rfl
@[simp] theorem State.modSht_pcieMem (i : Fin 4) (f : ShtInst → ShtInst) : (s.modSht i f).pcieMem = s.pcieMem := rfl
@[simp] theorem State.modSht_ue (i : Fin 4) (f : ShtInst → ShtInst) : (s.modSht i f).ue = s.ue := rfl
@[simp] theorem State.modSht_ce (i : Fin 4) (f : ShtInst → ShtInst) : (s.modSht i f).ce = s.ce := rfl
@[simp] theorem State.modSht_arrays (i : Fin 4) (f : ShtInst → ShtInst) : (s.modSht i f).arrays = s.arrays := rfl
@[simp] theorem State.modSht_tierTags (i : Fin 4) (f : ShtInst → ShtInst) : (s.modSht i f).tierTags = s.tierTags := rfl
@[simp] theorem State.modSht_tierClears (i : Fin 4) (f : ShtInst → ShtInst) : (s.modSht i f).tierClears = s.tierClears := rfl
@[simp] theorem State.modSht_apertures (i : Fin 4) (f : ShtInst → ShtInst) : (s.modSht i f).apertures = s.apertures := rfl
@[simp] theorem State.modSht_events (i : Fin 4) (f : ShtInst → ShtInst) : (s.modSht i f).events = s.events := rfl
@[simp] theorem State.modSht_out (i : Fin 4) (f : ShtInst → ShtInst) : (s.modSht i f).out = s.out := rfl
@[simp] theorem State.modSht_rdata (i : Fin 4) (f : ShtInst → ShtInst) : (s.modSht i f).rdata = s.rdata := rfl
@[simp] theorem State.modSht_free (i : Fin 4) (f : ShtInst → ShtInst) : (s.modSht i f).free = s.free := rfl
@[simp] theorem State.modSht_parts (i : Fin 4) (f : ShtInst → ShtInst) : (s.modSht i f).parts = s.parts := rfl
@[simp] theorem State.modSht_spn (i : Fin 4) (f : ShtInst → ShtInst) : (s.modSht i f).spn = s.spn := rfl
@[simp] theorem State.modSht_twn (i : Fin 4) (f : ShtInst → ShtInst) : (s.modSht i f).twn = s.twn := rfl
@[simp] theorem State.modSht_coc (i : Fin 4) (f : ShtInst → ShtInst) : (s.modSht i f).coc = s.coc := rfl
@[simp] theorem State.modSht_flash (i : Fin 4) (f : ShtInst → ShtInst) : (s.modSht i f).flash = s.flash := rfl
@[simp] theorem State.modSht_patrolAt (i : Fin 4) (f : ShtInst → ShtInst) : (s.modSht i f).patrolAt = s.patrolAt := rfl
@[simp] theorem State.modSht_reel (i : Fin 4) (f : ShtInst → ShtInst) : (s.modSht i f).reel = s.reel := rfl
@[simp] theorem State.modSht_srv (i : Fin 4) (f : ShtInst → ShtInst) : (s.modSht i f).srv = s.srv := rfl
@[simp] theorem State.modSht_vid (i : Fin 4) (f : ShtInst → ShtInst) : (s.modSht i f).vid = s.vid := rfl
@[simp] theorem State.modSht_pm (i : Fin 4) (f : ShtInst → ShtInst) : (s.modSht i f).pm = s.pm := rfl
@[simp] theorem State.modSht_board (i : Fin 4) (f : ShtInst → ShtInst) : (s.modSht i f).board = s.board := rfl

@[simp] theorem State.modConv_pending (i : Nat) (f : Convo → Convo) : (s.modConv i f).pending = s.pending := rfl
@[simp] theorem State.modConv_time (i : Nat) (f : Convo → Convo) : (s.modConv i f).time = s.time := rfl
@[simp] theorem State.modConv_regs (i : Nat) (f : Convo → Convo) : (s.modConv i f).regs = s.regs := rfl
@[simp] theorem State.modConv_latchR (i : Nat) (f : Convo → Convo) : (s.modConv i f).latchR = s.latchR := rfl
@[simp] theorem State.modConv_latchW (i : Nat) (f : Convo → Convo) : (s.modConv i f).latchW = s.latchW := rfl
@[simp] theorem State.modConv_mem (i : Nat) (f : Convo → Convo) : (s.modConv i f).mem = s.mem := rfl
@[simp] theorem State.modConv_tline (i : Nat) (f : Convo → Convo) : (s.modConv i f).tline = s.tline := rfl
@[simp] theorem State.modConv_linkErr (i : Nat) (f : Convo → Convo) : (s.modConv i f).linkErr = s.linkErr := rfl
@[simp] theorem State.modConv_fabricErr (i : Nat) (f : Convo → Convo) : (s.modConv i f).fabricErr = s.fabricErr := rfl
@[simp] theorem State.modConv_pcieMem (i : Nat) (f : Convo → Convo) : (s.modConv i f).pcieMem = s.pcieMem := rfl
@[simp] theorem State.modConv_ue (i : Nat) (f : Convo → Convo) : (s.modConv i f).ue = s.ue := rfl
@[simp] theorem State.modConv_ce (i : Nat) (f : Convo → Convo) : (s.modConv i f).ce = s.ce := rfl
@[simp] theorem State.modConv_arrays (i : Nat) (f : Convo → Convo) : (s.modConv i f).arrays = s.arrays := rfl
@[simp] theorem State.modConv_tierTags (i : Nat) (f : Convo → Convo) : (s.modConv i f).tierTags = s.tierTags := rfl
@[simp] theorem State.modConv_tierClears (i : Nat) (f : Convo → Convo) : (s.modConv i f).tierClears = s.tierClears := rfl
@[simp] theorem State.modConv_apertures (i : Nat) (f : Convo → Convo) : (s.modConv i f).apertures = s.apertures := rfl
@[simp] theorem State.modConv_events (i : Nat) (f : Convo → Convo) : (s.modConv i f).events = s.events := rfl
@[simp] theorem State.modConv_out (i : Nat) (f : Convo → Convo) : (s.modConv i f).out = s.out := rfl
@[simp] theorem State.modConv_rdata (i : Nat) (f : Convo → Convo) : (s.modConv i f).rdata = s.rdata := rfl
@[simp] theorem State.modConv_free (i : Nat) (f : Convo → Convo) : (s.modConv i f).free = s.free := rfl
@[simp] theorem State.modConv_parts (i : Nat) (f : Convo → Convo) : (s.modConv i f).parts = s.parts := rfl
@[simp] theorem State.modConv_spn (i : Nat) (f : Convo → Convo) : (s.modConv i f).spn = s.spn := rfl
@[simp] theorem State.modConv_twn (i : Nat) (f : Convo → Convo) : (s.modConv i f).twn = s.twn := rfl
@[simp] theorem State.modConv_coc (i : Nat) (f : Convo → Convo) : (s.modConv i f).coc = s.coc := rfl
@[simp] theorem State.modConv_flash (i : Nat) (f : Convo → Convo) : (s.modConv i f).flash = s.flash := rfl
@[simp] theorem State.modConv_patrolAt (i : Nat) (f : Convo → Convo) : (s.modConv i f).patrolAt = s.patrolAt := rfl
@[simp] theorem State.modConv_reel (i : Nat) (f : Convo → Convo) : (s.modConv i f).reel = s.reel := rfl
@[simp] theorem State.modConv_vid (i : Nat) (f : Convo → Convo) : (s.modConv i f).vid = s.vid := rfl
@[simp] theorem State.modConv_sht (i : Nat) (f : Convo → Convo) : (s.modConv i f).sht = s.sht := rfl
@[simp] theorem State.modConv_pm (i : Nat) (f : Convo → Convo) : (s.modConv i f).pm = s.pm := rfl
@[simp] theorem State.modConv_board (i : Nat) (f : Convo → Convo) : (s.modConv i f).board = s.board := rfl

@[simp] theorem State.setSes_pending (i : Fin 48) (v : Option Session) : (s.setSes i v).pending = s.pending := rfl
@[simp] theorem State.setSes_time (i : Fin 48) (v : Option Session) : (s.setSes i v).time = s.time := rfl
@[simp] theorem State.setSes_regs (i : Fin 48) (v : Option Session) : (s.setSes i v).regs = s.regs := rfl
@[simp] theorem State.setSes_latchR (i : Fin 48) (v : Option Session) : (s.setSes i v).latchR = s.latchR := rfl
@[simp] theorem State.setSes_latchW (i : Fin 48) (v : Option Session) : (s.setSes i v).latchW = s.latchW := rfl
@[simp] theorem State.setSes_mem (i : Fin 48) (v : Option Session) : (s.setSes i v).mem = s.mem := rfl
@[simp] theorem State.setSes_tline (i : Fin 48) (v : Option Session) : (s.setSes i v).tline = s.tline := rfl
@[simp] theorem State.setSes_linkErr (i : Fin 48) (v : Option Session) : (s.setSes i v).linkErr = s.linkErr := rfl
@[simp] theorem State.setSes_fabricErr (i : Fin 48) (v : Option Session) : (s.setSes i v).fabricErr = s.fabricErr := rfl
@[simp] theorem State.setSes_pcieMem (i : Fin 48) (v : Option Session) : (s.setSes i v).pcieMem = s.pcieMem := rfl
@[simp] theorem State.setSes_ue (i : Fin 48) (v : Option Session) : (s.setSes i v).ue = s.ue := rfl
@[simp] theorem State.setSes_ce (i : Fin 48) (v : Option Session) : (s.setSes i v).ce = s.ce := rfl
@[simp] theorem State.setSes_arrays (i : Fin 48) (v : Option Session) : (s.setSes i v).arrays = s.arrays := rfl
@[simp] theorem State.setSes_tierTags (i : Fin 48) (v : Option Session) : (s.setSes i v).tierTags = s.tierTags := rfl
@[simp] theorem State.setSes_tierClears (i : Fin 48) (v : Option Session) : (s.setSes i v).tierClears = s.tierClears := rfl
@[simp] theorem State.setSes_apertures (i : Fin 48) (v : Option Session) : (s.setSes i v).apertures = s.apertures := rfl
@[simp] theorem State.setSes_events (i : Fin 48) (v : Option Session) : (s.setSes i v).events = s.events := rfl
@[simp] theorem State.setSes_out (i : Fin 48) (v : Option Session) : (s.setSes i v).out = s.out := rfl
@[simp] theorem State.setSes_rdata (i : Fin 48) (v : Option Session) : (s.setSes i v).rdata = s.rdata := rfl
@[simp] theorem State.setSes_free (i : Fin 48) (v : Option Session) : (s.setSes i v).free = s.free := rfl
@[simp] theorem State.setSes_parts (i : Fin 48) (v : Option Session) : (s.setSes i v).parts = s.parts := rfl
@[simp] theorem State.setSes_spn (i : Fin 48) (v : Option Session) : (s.setSes i v).spn = s.spn := rfl
@[simp] theorem State.setSes_twn (i : Fin 48) (v : Option Session) : (s.setSes i v).twn = s.twn := rfl
@[simp] theorem State.setSes_coc (i : Fin 48) (v : Option Session) : (s.setSes i v).coc = s.coc := rfl
@[simp] theorem State.setSes_flash (i : Fin 48) (v : Option Session) : (s.setSes i v).flash = s.flash := rfl
@[simp] theorem State.setSes_patrolAt (i : Fin 48) (v : Option Session) : (s.setSes i v).patrolAt = s.patrolAt := rfl
@[simp] theorem State.setSes_reel (i : Fin 48) (v : Option Session) : (s.setSes i v).reel = s.reel := rfl
@[simp] theorem State.setSes_srv (i : Fin 48) (v : Option Session) : (s.setSes i v).srv = s.srv := rfl
@[simp] theorem State.setSes_sht (i : Fin 48) (v : Option Session) : (s.setSes i v).sht = s.sht := rfl
@[simp] theorem State.setSes_pm (i : Fin 48) (v : Option Session) : (s.setSes i v).pm = s.pm := rfl
@[simp] theorem State.setSes_board (i : Fin 48) (v : Option Session) : (s.setSes i v).board = s.board := rfl

@[simp] theorem State.modSpdm_pending (id : Word) (f : Spdm → Spdm) : (s.modSpdm id f).pending = s.pending := rfl
@[simp] theorem State.modSpdm_time (id : Word) (f : Spdm → Spdm) : (s.modSpdm id f).time = s.time := rfl
@[simp] theorem State.modSpdm_regs (id : Word) (f : Spdm → Spdm) : (s.modSpdm id f).regs = s.regs := rfl
@[simp] theorem State.modSpdm_latchR (id : Word) (f : Spdm → Spdm) : (s.modSpdm id f).latchR = s.latchR := rfl
@[simp] theorem State.modSpdm_latchW (id : Word) (f : Spdm → Spdm) : (s.modSpdm id f).latchW = s.latchW := rfl
@[simp] theorem State.modSpdm_mem (id : Word) (f : Spdm → Spdm) : (s.modSpdm id f).mem = s.mem := rfl
@[simp] theorem State.modSpdm_tline (id : Word) (f : Spdm → Spdm) : (s.modSpdm id f).tline = s.tline := rfl
@[simp] theorem State.modSpdm_linkErr (id : Word) (f : Spdm → Spdm) : (s.modSpdm id f).linkErr = s.linkErr := rfl
@[simp] theorem State.modSpdm_fabricErr (id : Word) (f : Spdm → Spdm) : (s.modSpdm id f).fabricErr = s.fabricErr := rfl
@[simp] theorem State.modSpdm_pcieMem (id : Word) (f : Spdm → Spdm) : (s.modSpdm id f).pcieMem = s.pcieMem := rfl
@[simp] theorem State.modSpdm_ue (id : Word) (f : Spdm → Spdm) : (s.modSpdm id f).ue = s.ue := rfl
@[simp] theorem State.modSpdm_ce (id : Word) (f : Spdm → Spdm) : (s.modSpdm id f).ce = s.ce := rfl
@[simp] theorem State.modSpdm_arrays (id : Word) (f : Spdm → Spdm) : (s.modSpdm id f).arrays = s.arrays := rfl
@[simp] theorem State.modSpdm_tierTags (id : Word) (f : Spdm → Spdm) : (s.modSpdm id f).tierTags = s.tierTags := rfl
@[simp] theorem State.modSpdm_tierClears (id : Word) (f : Spdm → Spdm) : (s.modSpdm id f).tierClears = s.tierClears := rfl
@[simp] theorem State.modSpdm_apertures (id : Word) (f : Spdm → Spdm) : (s.modSpdm id f).apertures = s.apertures := rfl
@[simp] theorem State.modSpdm_events (id : Word) (f : Spdm → Spdm) : (s.modSpdm id f).events = s.events := rfl
@[simp] theorem State.modSpdm_out (id : Word) (f : Spdm → Spdm) : (s.modSpdm id f).out = s.out := rfl
@[simp] theorem State.modSpdm_rdata (id : Word) (f : Spdm → Spdm) : (s.modSpdm id f).rdata = s.rdata := rfl
@[simp] theorem State.modSpdm_free (id : Word) (f : Spdm → Spdm) : (s.modSpdm id f).free = s.free := rfl
@[simp] theorem State.modSpdm_parts (id : Word) (f : Spdm → Spdm) : (s.modSpdm id f).parts = s.parts := rfl
@[simp] theorem State.modSpdm_spn (id : Word) (f : Spdm → Spdm) : (s.modSpdm id f).spn = s.spn := rfl
@[simp] theorem State.modSpdm_twn (id : Word) (f : Spdm → Spdm) : (s.modSpdm id f).twn = s.twn := rfl
@[simp] theorem State.modSpdm_flash (id : Word) (f : Spdm → Spdm) : (s.modSpdm id f).flash = s.flash := rfl
@[simp] theorem State.modSpdm_patrolAt (id : Word) (f : Spdm → Spdm) : (s.modSpdm id f).patrolAt = s.patrolAt := rfl
@[simp] theorem State.modSpdm_reel (id : Word) (f : Spdm → Spdm) : (s.modSpdm id f).reel = s.reel := rfl
@[simp] theorem State.modSpdm_srv (id : Word) (f : Spdm → Spdm) : (s.modSpdm id f).srv = s.srv := rfl
@[simp] theorem State.modSpdm_vid (id : Word) (f : Spdm → Spdm) : (s.modSpdm id f).vid = s.vid := rfl
@[simp] theorem State.modSpdm_sht (id : Word) (f : Spdm → Spdm) : (s.modSpdm id f).sht = s.sht := rfl
@[simp] theorem State.modSpdm_pm (id : Word) (f : Spdm → Spdm) : (s.modSpdm id f).pm = s.pm := rfl
@[simp] theorem State.modSpdm_board (id : Word) (f : Spdm → Spdm) : (s.modSpdm id f).board = s.board := rfl

@[simp] theorem State.modStream_pending (port : Port) (k : Fin 4) (f : IdeStream → IdeStream) : (s.modStream port k f).pending = s.pending := rfl
@[simp] theorem State.modStream_time (port : Port) (k : Fin 4) (f : IdeStream → IdeStream) : (s.modStream port k f).time = s.time := rfl
@[simp] theorem State.modStream_regs (port : Port) (k : Fin 4) (f : IdeStream → IdeStream) : (s.modStream port k f).regs = s.regs := rfl
@[simp] theorem State.modStream_latchR (port : Port) (k : Fin 4) (f : IdeStream → IdeStream) : (s.modStream port k f).latchR = s.latchR := rfl
@[simp] theorem State.modStream_latchW (port : Port) (k : Fin 4) (f : IdeStream → IdeStream) : (s.modStream port k f).latchW = s.latchW := rfl
@[simp] theorem State.modStream_mem (port : Port) (k : Fin 4) (f : IdeStream → IdeStream) : (s.modStream port k f).mem = s.mem := rfl
@[simp] theorem State.modStream_tline (port : Port) (k : Fin 4) (f : IdeStream → IdeStream) : (s.modStream port k f).tline = s.tline := rfl
@[simp] theorem State.modStream_linkErr (port : Port) (k : Fin 4) (f : IdeStream → IdeStream) : (s.modStream port k f).linkErr = s.linkErr := rfl
@[simp] theorem State.modStream_fabricErr (port : Port) (k : Fin 4) (f : IdeStream → IdeStream) : (s.modStream port k f).fabricErr = s.fabricErr := rfl
@[simp] theorem State.modStream_pcieMem (port : Port) (k : Fin 4) (f : IdeStream → IdeStream) : (s.modStream port k f).pcieMem = s.pcieMem := rfl
@[simp] theorem State.modStream_ue (port : Port) (k : Fin 4) (f : IdeStream → IdeStream) : (s.modStream port k f).ue = s.ue := rfl
@[simp] theorem State.modStream_ce (port : Port) (k : Fin 4) (f : IdeStream → IdeStream) : (s.modStream port k f).ce = s.ce := rfl
@[simp] theorem State.modStream_arrays (port : Port) (k : Fin 4) (f : IdeStream → IdeStream) : (s.modStream port k f).arrays = s.arrays := rfl
@[simp] theorem State.modStream_tierTags (port : Port) (k : Fin 4) (f : IdeStream → IdeStream) : (s.modStream port k f).tierTags = s.tierTags := rfl
@[simp] theorem State.modStream_tierClears (port : Port) (k : Fin 4) (f : IdeStream → IdeStream) : (s.modStream port k f).tierClears = s.tierClears := rfl
@[simp] theorem State.modStream_apertures (port : Port) (k : Fin 4) (f : IdeStream → IdeStream) : (s.modStream port k f).apertures = s.apertures := rfl
@[simp] theorem State.modStream_events (port : Port) (k : Fin 4) (f : IdeStream → IdeStream) : (s.modStream port k f).events = s.events := rfl
@[simp] theorem State.modStream_out (port : Port) (k : Fin 4) (f : IdeStream → IdeStream) : (s.modStream port k f).out = s.out := rfl
@[simp] theorem State.modStream_rdata (port : Port) (k : Fin 4) (f : IdeStream → IdeStream) : (s.modStream port k f).rdata = s.rdata := rfl
@[simp] theorem State.modStream_free (port : Port) (k : Fin 4) (f : IdeStream → IdeStream) : (s.modStream port k f).free = s.free := rfl
@[simp] theorem State.modStream_parts (port : Port) (k : Fin 4) (f : IdeStream → IdeStream) : (s.modStream port k f).parts = s.parts := rfl
@[simp] theorem State.modStream_spn (port : Port) (k : Fin 4) (f : IdeStream → IdeStream) : (s.modStream port k f).spn = s.spn := rfl
@[simp] theorem State.modStream_twn (port : Port) (k : Fin 4) (f : IdeStream → IdeStream) : (s.modStream port k f).twn = s.twn := rfl
@[simp] theorem State.modStream_flash (port : Port) (k : Fin 4) (f : IdeStream → IdeStream) : (s.modStream port k f).flash = s.flash := rfl
@[simp] theorem State.modStream_patrolAt (port : Port) (k : Fin 4) (f : IdeStream → IdeStream) : (s.modStream port k f).patrolAt = s.patrolAt := rfl
@[simp] theorem State.modStream_reel (port : Port) (k : Fin 4) (f : IdeStream → IdeStream) : (s.modStream port k f).reel = s.reel := rfl
@[simp] theorem State.modStream_srv (port : Port) (k : Fin 4) (f : IdeStream → IdeStream) : (s.modStream port k f).srv = s.srv := rfl
@[simp] theorem State.modStream_vid (port : Port) (k : Fin 4) (f : IdeStream → IdeStream) : (s.modStream port k f).vid = s.vid := rfl
@[simp] theorem State.modStream_sht (port : Port) (k : Fin 4) (f : IdeStream → IdeStream) : (s.modStream port k f).sht = s.sht := rfl
@[simp] theorem State.modStream_pm (port : Port) (k : Fin 4) (f : IdeStream → IdeStream) : (s.modStream port k f).pm = s.pm := rfl
@[simp] theorem State.modStream_board (port : Port) (k : Fin 4) (f : IdeStream → IdeStream) : (s.modStream port k f).board = s.board := rfl

@[simp] theorem State.modPm_pending (f : PowerMgr → PowerMgr) : (s.modPm f).pending = s.pending := rfl
@[simp] theorem State.modPm_time (f : PowerMgr → PowerMgr) : (s.modPm f).time = s.time := rfl
@[simp] theorem State.modPm_regs (f : PowerMgr → PowerMgr) : (s.modPm f).regs = s.regs := rfl
@[simp] theorem State.modPm_latchR (f : PowerMgr → PowerMgr) : (s.modPm f).latchR = s.latchR := rfl
@[simp] theorem State.modPm_latchW (f : PowerMgr → PowerMgr) : (s.modPm f).latchW = s.latchW := rfl
@[simp] theorem State.modPm_mem (f : PowerMgr → PowerMgr) : (s.modPm f).mem = s.mem := rfl
@[simp] theorem State.modPm_tline (f : PowerMgr → PowerMgr) : (s.modPm f).tline = s.tline := rfl
@[simp] theorem State.modPm_linkErr (f : PowerMgr → PowerMgr) : (s.modPm f).linkErr = s.linkErr := rfl
@[simp] theorem State.modPm_fabricErr (f : PowerMgr → PowerMgr) : (s.modPm f).fabricErr = s.fabricErr := rfl
@[simp] theorem State.modPm_pcieMem (f : PowerMgr → PowerMgr) : (s.modPm f).pcieMem = s.pcieMem := rfl
@[simp] theorem State.modPm_ue (f : PowerMgr → PowerMgr) : (s.modPm f).ue = s.ue := rfl
@[simp] theorem State.modPm_ce (f : PowerMgr → PowerMgr) : (s.modPm f).ce = s.ce := rfl
@[simp] theorem State.modPm_arrays (f : PowerMgr → PowerMgr) : (s.modPm f).arrays = s.arrays := rfl
@[simp] theorem State.modPm_tierTags (f : PowerMgr → PowerMgr) : (s.modPm f).tierTags = s.tierTags := rfl
@[simp] theorem State.modPm_tierClears (f : PowerMgr → PowerMgr) : (s.modPm f).tierClears = s.tierClears := rfl
@[simp] theorem State.modPm_apertures (f : PowerMgr → PowerMgr) : (s.modPm f).apertures = s.apertures := rfl
@[simp] theorem State.modPm_events (f : PowerMgr → PowerMgr) : (s.modPm f).events = s.events := rfl
@[simp] theorem State.modPm_out (f : PowerMgr → PowerMgr) : (s.modPm f).out = s.out := rfl
@[simp] theorem State.modPm_rdata (f : PowerMgr → PowerMgr) : (s.modPm f).rdata = s.rdata := rfl
@[simp] theorem State.modPm_free (f : PowerMgr → PowerMgr) : (s.modPm f).free = s.free := rfl
@[simp] theorem State.modPm_parts (f : PowerMgr → PowerMgr) : (s.modPm f).parts = s.parts := rfl
@[simp] theorem State.modPm_spn (f : PowerMgr → PowerMgr) : (s.modPm f).spn = s.spn := rfl
@[simp] theorem State.modPm_twn (f : PowerMgr → PowerMgr) : (s.modPm f).twn = s.twn := rfl
@[simp] theorem State.modPm_coc (f : PowerMgr → PowerMgr) : (s.modPm f).coc = s.coc := rfl
@[simp] theorem State.modPm_flash (f : PowerMgr → PowerMgr) : (s.modPm f).flash = s.flash := rfl
@[simp] theorem State.modPm_patrolAt (f : PowerMgr → PowerMgr) : (s.modPm f).patrolAt = s.patrolAt := rfl
@[simp] theorem State.modPm_reel (f : PowerMgr → PowerMgr) : (s.modPm f).reel = s.reel := rfl
@[simp] theorem State.modPm_srv (f : PowerMgr → PowerMgr) : (s.modPm f).srv = s.srv := rfl
@[simp] theorem State.modPm_vid (f : PowerMgr → PowerMgr) : (s.modPm f).vid = s.vid := rfl
@[simp] theorem State.modPm_sht (f : PowerMgr → PowerMgr) : (s.modPm f).sht = s.sht := rfl
@[simp] theorem State.modPm_board (f : PowerMgr → PowerMgr) : (s.modPm f).board = s.board := rfl

@[simp] theorem State.modUpd_pending (f : Update → Update) : (s.modUpd f).pending = s.pending := rfl
@[simp] theorem State.modUpd_time (f : Update → Update) : (s.modUpd f).time = s.time := rfl
@[simp] theorem State.modUpd_regs (f : Update → Update) : (s.modUpd f).regs = s.regs := rfl
@[simp] theorem State.modUpd_latchR (f : Update → Update) : (s.modUpd f).latchR = s.latchR := rfl
@[simp] theorem State.modUpd_latchW (f : Update → Update) : (s.modUpd f).latchW = s.latchW := rfl
@[simp] theorem State.modUpd_mem (f : Update → Update) : (s.modUpd f).mem = s.mem := rfl
@[simp] theorem State.modUpd_tline (f : Update → Update) : (s.modUpd f).tline = s.tline := rfl
@[simp] theorem State.modUpd_linkErr (f : Update → Update) : (s.modUpd f).linkErr = s.linkErr := rfl
@[simp] theorem State.modUpd_fabricErr (f : Update → Update) : (s.modUpd f).fabricErr = s.fabricErr := rfl
@[simp] theorem State.modUpd_pcieMem (f : Update → Update) : (s.modUpd f).pcieMem = s.pcieMem := rfl
@[simp] theorem State.modUpd_ue (f : Update → Update) : (s.modUpd f).ue = s.ue := rfl
@[simp] theorem State.modUpd_ce (f : Update → Update) : (s.modUpd f).ce = s.ce := rfl
@[simp] theorem State.modUpd_arrays (f : Update → Update) : (s.modUpd f).arrays = s.arrays := rfl
@[simp] theorem State.modUpd_tierTags (f : Update → Update) : (s.modUpd f).tierTags = s.tierTags := rfl
@[simp] theorem State.modUpd_tierClears (f : Update → Update) : (s.modUpd f).tierClears = s.tierClears := rfl
@[simp] theorem State.modUpd_apertures (f : Update → Update) : (s.modUpd f).apertures = s.apertures := rfl
@[simp] theorem State.modUpd_events (f : Update → Update) : (s.modUpd f).events = s.events := rfl
@[simp] theorem State.modUpd_out (f : Update → Update) : (s.modUpd f).out = s.out := rfl
@[simp] theorem State.modUpd_rdata (f : Update → Update) : (s.modUpd f).rdata = s.rdata := rfl
@[simp] theorem State.modUpd_free (f : Update → Update) : (s.modUpd f).free = s.free := rfl
@[simp] theorem State.modUpd_parts (f : Update → Update) : (s.modUpd f).parts = s.parts := rfl
@[simp] theorem State.modUpd_spn (f : Update → Update) : (s.modUpd f).spn = s.spn := rfl
@[simp] theorem State.modUpd_twn (f : Update → Update) : (s.modUpd f).twn = s.twn := rfl
@[simp] theorem State.modUpd_coc (f : Update → Update) : (s.modUpd f).coc = s.coc := rfl
@[simp] theorem State.modUpd_flash (f : Update → Update) : (s.modUpd f).flash = s.flash := rfl
@[simp] theorem State.modUpd_patrolAt (f : Update → Update) : (s.modUpd f).patrolAt = s.patrolAt := rfl
@[simp] theorem State.modUpd_reel (f : Update → Update) : (s.modUpd f).reel = s.reel := rfl
@[simp] theorem State.modUpd_srv (f : Update → Update) : (s.modUpd f).srv = s.srv := rfl
@[simp] theorem State.modUpd_vid (f : Update → Update) : (s.modUpd f).vid = s.vid := rfl
@[simp] theorem State.modUpd_sht (f : Update → Update) : (s.modUpd f).sht = s.sht := rfl
@[simp] theorem State.modUpd_pm (f : Update → Update) : (s.modUpd f).pm = s.pm := rfl

@[simp] theorem State.modMoult_pending (f : Moult → Moult) : (s.modMoult f).pending = s.pending := rfl
@[simp] theorem State.modMoult_time (f : Moult → Moult) : (s.modMoult f).time = s.time := rfl
@[simp] theorem State.modMoult_regs (f : Moult → Moult) : (s.modMoult f).regs = s.regs := rfl
@[simp] theorem State.modMoult_latchR (f : Moult → Moult) : (s.modMoult f).latchR = s.latchR := rfl
@[simp] theorem State.modMoult_latchW (f : Moult → Moult) : (s.modMoult f).latchW = s.latchW := rfl
@[simp] theorem State.modMoult_mem (f : Moult → Moult) : (s.modMoult f).mem = s.mem := rfl
@[simp] theorem State.modMoult_tline (f : Moult → Moult) : (s.modMoult f).tline = s.tline := rfl
@[simp] theorem State.modMoult_linkErr (f : Moult → Moult) : (s.modMoult f).linkErr = s.linkErr := rfl
@[simp] theorem State.modMoult_fabricErr (f : Moult → Moult) : (s.modMoult f).fabricErr = s.fabricErr := rfl
@[simp] theorem State.modMoult_pcieMem (f : Moult → Moult) : (s.modMoult f).pcieMem = s.pcieMem := rfl
@[simp] theorem State.modMoult_ue (f : Moult → Moult) : (s.modMoult f).ue = s.ue := rfl
@[simp] theorem State.modMoult_ce (f : Moult → Moult) : (s.modMoult f).ce = s.ce := rfl
@[simp] theorem State.modMoult_arrays (f : Moult → Moult) : (s.modMoult f).arrays = s.arrays := rfl
@[simp] theorem State.modMoult_tierTags (f : Moult → Moult) : (s.modMoult f).tierTags = s.tierTags := rfl
@[simp] theorem State.modMoult_tierClears (f : Moult → Moult) : (s.modMoult f).tierClears = s.tierClears := rfl
@[simp] theorem State.modMoult_apertures (f : Moult → Moult) : (s.modMoult f).apertures = s.apertures := rfl
@[simp] theorem State.modMoult_events (f : Moult → Moult) : (s.modMoult f).events = s.events := rfl
@[simp] theorem State.modMoult_out (f : Moult → Moult) : (s.modMoult f).out = s.out := rfl
@[simp] theorem State.modMoult_rdata (f : Moult → Moult) : (s.modMoult f).rdata = s.rdata := rfl
@[simp] theorem State.modMoult_free (f : Moult → Moult) : (s.modMoult f).free = s.free := rfl
@[simp] theorem State.modMoult_parts (f : Moult → Moult) : (s.modMoult f).parts = s.parts := rfl
@[simp] theorem State.modMoult_spn (f : Moult → Moult) : (s.modMoult f).spn = s.spn := rfl
@[simp] theorem State.modMoult_twn (f : Moult → Moult) : (s.modMoult f).twn = s.twn := rfl
@[simp] theorem State.modMoult_coc (f : Moult → Moult) : (s.modMoult f).coc = s.coc := rfl
@[simp] theorem State.modMoult_flash (f : Moult → Moult) : (s.modMoult f).flash = s.flash := rfl
@[simp] theorem State.modMoult_patrolAt (f : Moult → Moult) : (s.modMoult f).patrolAt = s.patrolAt := rfl
@[simp] theorem State.modMoult_reel (f : Moult → Moult) : (s.modMoult f).reel = s.reel := rfl
@[simp] theorem State.modMoult_srv (f : Moult → Moult) : (s.modMoult f).srv = s.srv := rfl
@[simp] theorem State.modMoult_vid (f : Moult → Moult) : (s.modMoult f).vid = s.vid := rfl
@[simp] theorem State.modMoult_sht (f : Moult → Moult) : (s.modMoult f).sht = s.sht := rfl
@[simp] theorem State.modMoult_pm (f : Moult → Moult) : (s.modMoult f).pm = s.pm := rfl

/-- A field that no step of a fold changes is unchanged by the fold. -/
theorem foldl_field {α β : Type} {g : State → α} {f : State → β → State} (h : ∀ s x, g (f s x) = g s) {l : List β} :
    ∀ {s : State}, g (l.foldl f s) = g s := by
  induction l with
  | nil => intro s; rfl
  | cons x t ih => intro s; exact ih.trans (h s x)

@[simp] theorem State.openLine_pending (l : Nat) : (s.openLine l).pending = s.pending := by unfold State.openLine; split <;> rfl
@[simp] theorem State.openLine_time (l : Nat) : (s.openLine l).time = s.time := by unfold State.openLine; split <;> rfl
@[simp] theorem State.openLine_regs (l : Nat) : (s.openLine l).regs = s.regs := by unfold State.openLine; split <;> rfl
@[simp] theorem State.openLine_latchR (l : Nat) : (s.openLine l).latchR = s.latchR := by unfold State.openLine; split <;> rfl
@[simp] theorem State.openLine_latchW (l : Nat) : (s.openLine l).latchW = s.latchW := by unfold State.openLine; split <;> rfl
@[simp] theorem State.openLine_tline (l : Nat) : (s.openLine l).tline = s.tline := by unfold State.openLine; split <;> rfl
@[simp] theorem State.openLine_linkErr (l : Nat) : (s.openLine l).linkErr = s.linkErr := by unfold State.openLine; split <;> rfl
@[simp] theorem State.openLine_fabricErr (l : Nat) : (s.openLine l).fabricErr = s.fabricErr := by unfold State.openLine; split <;> rfl
@[simp] theorem State.openLine_pcieMem (l : Nat) : (s.openLine l).pcieMem = s.pcieMem := by unfold State.openLine; split <;> rfl
@[simp] theorem State.openLine_ue (l : Nat) : (s.openLine l).ue = s.ue := by unfold State.openLine; split <;> rfl
@[simp] theorem State.openLine_ce (l : Nat) : (s.openLine l).ce = s.ce := by unfold State.openLine; split <;> rfl
@[simp] theorem State.openLine_arrays (l : Nat) : (s.openLine l).arrays = s.arrays := by unfold State.openLine; split <;> rfl
@[simp] theorem State.openLine_tierTags (l : Nat) : (s.openLine l).tierTags = s.tierTags := by unfold State.openLine; split <;> rfl
@[simp] theorem State.openLine_tierClears (l : Nat) : (s.openLine l).tierClears = s.tierClears := by unfold State.openLine; split <;> rfl
@[simp] theorem State.openLine_apertures (l : Nat) : (s.openLine l).apertures = s.apertures := by unfold State.openLine; split <;> rfl
@[simp] theorem State.openLine_events (l : Nat) : (s.openLine l).events = s.events := by unfold State.openLine; split <;> rfl
@[simp] theorem State.openLine_out (l : Nat) : (s.openLine l).out = s.out := by unfold State.openLine; split <;> rfl
@[simp] theorem State.openLine_rdata (l : Nat) : (s.openLine l).rdata = s.rdata := by unfold State.openLine; split <;> rfl
@[simp] theorem State.openLine_free (l : Nat) : (s.openLine l).free = s.free := by unfold State.openLine; split <;> rfl
@[simp] theorem State.openLine_parts (l : Nat) : (s.openLine l).parts = s.parts := by unfold State.openLine; split <;> rfl
@[simp] theorem State.openLine_spn (l : Nat) : (s.openLine l).spn = s.spn := by unfold State.openLine; split <;> rfl
@[simp] theorem State.openLine_twn (l : Nat) : (s.openLine l).twn = s.twn := by unfold State.openLine; split <;> rfl
@[simp] theorem State.openLine_coc (l : Nat) : (s.openLine l).coc = s.coc := by unfold State.openLine; split <;> rfl
@[simp] theorem State.openLine_flash (l : Nat) : (s.openLine l).flash = s.flash := by unfold State.openLine; split <;> rfl
@[simp] theorem State.openLine_patrolAt (l : Nat) : (s.openLine l).patrolAt = s.patrolAt := by unfold State.openLine; split <;> rfl
@[simp] theorem State.openLine_reel (l : Nat) : (s.openLine l).reel = s.reel := by unfold State.openLine; split <;> rfl
@[simp] theorem State.openLine_srv (l : Nat) : (s.openLine l).srv = s.srv := by unfold State.openLine; split <;> rfl
@[simp] theorem State.openLine_vid (l : Nat) : (s.openLine l).vid = s.vid := by unfold State.openLine; split <;> rfl
@[simp] theorem State.openLine_sht (l : Nat) : (s.openLine l).sht = s.sht := by unfold State.openLine; split <;> rfl
@[simp] theorem State.openLine_pm (l : Nat) : (s.openLine l).pm = s.pm := by unfold State.openLine; split <;> rfl
@[simp] theorem State.openLine_board (l : Nat) : (s.openLine l).board = s.board := by unfold State.openLine; split <;> rfl

@[simp] theorem State.sealLines_pending (ls : List Nat) : (s.sealLines ls).pending = s.pending :=
  foldl_field (g := State.pending) fun t l => t.sealLine_pending l
@[simp] theorem State.openLines_pending (ls : List Nat) : (s.openLines ls).pending = s.pending :=
  foldl_field (g := State.pending) fun t l => t.openLine_pending l
@[simp] theorem State.sealLines_time (ls : List Nat) : (s.sealLines ls).time = s.time :=
  foldl_field (g := State.time) fun t l => t.sealLine_time l
@[simp] theorem State.openLines_time (ls : List Nat) : (s.openLines ls).time = s.time :=
  foldl_field (g := State.time) fun t l => t.openLine_time l
@[simp] theorem State.sealLines_regs (ls : List Nat) : (s.sealLines ls).regs = s.regs :=
  foldl_field (g := State.regs) fun t l => t.sealLine_regs l
@[simp] theorem State.openLines_regs (ls : List Nat) : (s.openLines ls).regs = s.regs :=
  foldl_field (g := State.regs) fun t l => t.openLine_regs l
@[simp] theorem State.sealLines_latchR (ls : List Nat) : (s.sealLines ls).latchR = s.latchR :=
  foldl_field (g := State.latchR) fun t l => t.sealLine_latchR l
@[simp] theorem State.openLines_latchR (ls : List Nat) : (s.openLines ls).latchR = s.latchR :=
  foldl_field (g := State.latchR) fun t l => t.openLine_latchR l
@[simp] theorem State.sealLines_latchW (ls : List Nat) : (s.sealLines ls).latchW = s.latchW :=
  foldl_field (g := State.latchW) fun t l => t.sealLine_latchW l
@[simp] theorem State.openLines_latchW (ls : List Nat) : (s.openLines ls).latchW = s.latchW :=
  foldl_field (g := State.latchW) fun t l => t.openLine_latchW l
@[simp] theorem State.sealLines_mem (ls : List Nat) : (s.sealLines ls).mem = s.mem :=
  foldl_field (g := State.mem) fun t l => t.sealLine_mem l
@[simp] theorem State.openLines_tline (ls : List Nat) : (s.openLines ls).tline = s.tline :=
  foldl_field (g := State.tline) fun t l => t.openLine_tline l
@[simp] theorem State.sealLines_linkErr (ls : List Nat) : (s.sealLines ls).linkErr = s.linkErr :=
  foldl_field (g := State.linkErr) fun t l => t.sealLine_linkErr l
@[simp] theorem State.openLines_linkErr (ls : List Nat) : (s.openLines ls).linkErr = s.linkErr :=
  foldl_field (g := State.linkErr) fun t l => t.openLine_linkErr l
@[simp] theorem State.sealLines_fabricErr (ls : List Nat) : (s.sealLines ls).fabricErr = s.fabricErr :=
  foldl_field (g := State.fabricErr) fun t l => t.sealLine_fabricErr l
@[simp] theorem State.openLines_fabricErr (ls : List Nat) : (s.openLines ls).fabricErr = s.fabricErr :=
  foldl_field (g := State.fabricErr) fun t l => t.openLine_fabricErr l
@[simp] theorem State.sealLines_pcieMem (ls : List Nat) : (s.sealLines ls).pcieMem = s.pcieMem :=
  foldl_field (g := State.pcieMem) fun t l => t.sealLine_pcieMem l
@[simp] theorem State.openLines_pcieMem (ls : List Nat) : (s.openLines ls).pcieMem = s.pcieMem :=
  foldl_field (g := State.pcieMem) fun t l => t.openLine_pcieMem l
@[simp] theorem State.sealLines_ue (ls : List Nat) : (s.sealLines ls).ue = s.ue :=
  foldl_field (g := State.ue) fun t l => t.sealLine_ue l
@[simp] theorem State.openLines_ue (ls : List Nat) : (s.openLines ls).ue = s.ue :=
  foldl_field (g := State.ue) fun t l => t.openLine_ue l
@[simp] theorem State.sealLines_ce (ls : List Nat) : (s.sealLines ls).ce = s.ce :=
  foldl_field (g := State.ce) fun t l => t.sealLine_ce l
@[simp] theorem State.openLines_ce (ls : List Nat) : (s.openLines ls).ce = s.ce :=
  foldl_field (g := State.ce) fun t l => t.openLine_ce l
@[simp] theorem State.sealLines_arrays (ls : List Nat) : (s.sealLines ls).arrays = s.arrays :=
  foldl_field (g := State.arrays) fun t l => t.sealLine_arrays l
@[simp] theorem State.openLines_arrays (ls : List Nat) : (s.openLines ls).arrays = s.arrays :=
  foldl_field (g := State.arrays) fun t l => t.openLine_arrays l
@[simp] theorem State.sealLines_tierTags (ls : List Nat) : (s.sealLines ls).tierTags = s.tierTags :=
  foldl_field (g := State.tierTags) fun t l => t.sealLine_tierTags l
@[simp] theorem State.openLines_tierTags (ls : List Nat) : (s.openLines ls).tierTags = s.tierTags :=
  foldl_field (g := State.tierTags) fun t l => t.openLine_tierTags l
@[simp] theorem State.sealLines_tierClears (ls : List Nat) : (s.sealLines ls).tierClears = s.tierClears :=
  foldl_field (g := State.tierClears) fun t l => t.sealLine_tierClears l
@[simp] theorem State.openLines_tierClears (ls : List Nat) : (s.openLines ls).tierClears = s.tierClears :=
  foldl_field (g := State.tierClears) fun t l => t.openLine_tierClears l
@[simp] theorem State.sealLines_apertures (ls : List Nat) : (s.sealLines ls).apertures = s.apertures :=
  foldl_field (g := State.apertures) fun t l => t.sealLine_apertures l
@[simp] theorem State.openLines_apertures (ls : List Nat) : (s.openLines ls).apertures = s.apertures :=
  foldl_field (g := State.apertures) fun t l => t.openLine_apertures l
@[simp] theorem State.sealLines_events (ls : List Nat) : (s.sealLines ls).events = s.events :=
  foldl_field (g := State.events) fun t l => t.sealLine_events l
@[simp] theorem State.openLines_events (ls : List Nat) : (s.openLines ls).events = s.events :=
  foldl_field (g := State.events) fun t l => t.openLine_events l
@[simp] theorem State.sealLines_out (ls : List Nat) : (s.sealLines ls).out = s.out :=
  foldl_field (g := State.out) fun t l => t.sealLine_out l
@[simp] theorem State.openLines_out (ls : List Nat) : (s.openLines ls).out = s.out :=
  foldl_field (g := State.out) fun t l => t.openLine_out l
@[simp] theorem State.sealLines_rdata (ls : List Nat) : (s.sealLines ls).rdata = s.rdata :=
  foldl_field (g := State.rdata) fun t l => t.sealLine_rdata l
@[simp] theorem State.openLines_rdata (ls : List Nat) : (s.openLines ls).rdata = s.rdata :=
  foldl_field (g := State.rdata) fun t l => t.openLine_rdata l
@[simp] theorem State.sealLines_free (ls : List Nat) : (s.sealLines ls).free = s.free :=
  foldl_field (g := State.free) fun t l => t.sealLine_free l
@[simp] theorem State.openLines_free (ls : List Nat) : (s.openLines ls).free = s.free :=
  foldl_field (g := State.free) fun t l => t.openLine_free l
@[simp] theorem State.sealLines_parts (ls : List Nat) : (s.sealLines ls).parts = s.parts :=
  foldl_field (g := State.parts) fun t l => t.sealLine_parts l
@[simp] theorem State.openLines_parts (ls : List Nat) : (s.openLines ls).parts = s.parts :=
  foldl_field (g := State.parts) fun t l => t.openLine_parts l
@[simp] theorem State.sealLines_spn (ls : List Nat) : (s.sealLines ls).spn = s.spn :=
  foldl_field (g := State.spn) fun t l => t.sealLine_spn l
@[simp] theorem State.openLines_spn (ls : List Nat) : (s.openLines ls).spn = s.spn :=
  foldl_field (g := State.spn) fun t l => t.openLine_spn l
@[simp] theorem State.sealLines_twn (ls : List Nat) : (s.sealLines ls).twn = s.twn :=
  foldl_field (g := State.twn) fun t l => t.sealLine_twn l
@[simp] theorem State.openLines_twn (ls : List Nat) : (s.openLines ls).twn = s.twn :=
  foldl_field (g := State.twn) fun t l => t.openLine_twn l
@[simp] theorem State.sealLines_coc (ls : List Nat) : (s.sealLines ls).coc = s.coc :=
  foldl_field (g := State.coc) fun t l => t.sealLine_coc l
@[simp] theorem State.openLines_coc (ls : List Nat) : (s.openLines ls).coc = s.coc :=
  foldl_field (g := State.coc) fun t l => t.openLine_coc l
@[simp] theorem State.sealLines_flash (ls : List Nat) : (s.sealLines ls).flash = s.flash :=
  foldl_field (g := State.flash) fun t l => t.sealLine_flash l
@[simp] theorem State.openLines_flash (ls : List Nat) : (s.openLines ls).flash = s.flash :=
  foldl_field (g := State.flash) fun t l => t.openLine_flash l
@[simp] theorem State.sealLines_patrolAt (ls : List Nat) : (s.sealLines ls).patrolAt = s.patrolAt :=
  foldl_field (g := State.patrolAt) fun t l => t.sealLine_patrolAt l
@[simp] theorem State.openLines_patrolAt (ls : List Nat) : (s.openLines ls).patrolAt = s.patrolAt :=
  foldl_field (g := State.patrolAt) fun t l => t.openLine_patrolAt l
@[simp] theorem State.sealLines_reel (ls : List Nat) : (s.sealLines ls).reel = s.reel :=
  foldl_field (g := State.reel) fun t l => t.sealLine_reel l
@[simp] theorem State.openLines_reel (ls : List Nat) : (s.openLines ls).reel = s.reel :=
  foldl_field (g := State.reel) fun t l => t.openLine_reel l
@[simp] theorem State.sealLines_srv (ls : List Nat) : (s.sealLines ls).srv = s.srv :=
  foldl_field (g := State.srv) fun t l => t.sealLine_srv l
@[simp] theorem State.openLines_srv (ls : List Nat) : (s.openLines ls).srv = s.srv :=
  foldl_field (g := State.srv) fun t l => t.openLine_srv l
@[simp] theorem State.sealLines_vid (ls : List Nat) : (s.sealLines ls).vid = s.vid :=
  foldl_field (g := State.vid) fun t l => t.sealLine_vid l
@[simp] theorem State.openLines_vid (ls : List Nat) : (s.openLines ls).vid = s.vid :=
  foldl_field (g := State.vid) fun t l => t.openLine_vid l
@[simp] theorem State.sealLines_sht (ls : List Nat) : (s.sealLines ls).sht = s.sht :=
  foldl_field (g := State.sht) fun t l => t.sealLine_sht l
@[simp] theorem State.openLines_sht (ls : List Nat) : (s.openLines ls).sht = s.sht :=
  foldl_field (g := State.sht) fun t l => t.openLine_sht l
@[simp] theorem State.sealLines_pm (ls : List Nat) : (s.sealLines ls).pm = s.pm :=
  foldl_field (g := State.pm) fun t l => t.sealLine_pm l
@[simp] theorem State.openLines_pm (ls : List Nat) : (s.openLines ls).pm = s.pm :=
  foldl_field (g := State.pm) fun t l => t.openLine_pm l
@[simp] theorem State.sealLines_board (ls : List Nat) : (s.sealLines ls).board = s.board :=
  foldl_field (g := State.board) fun t l => t.sealLine_board l
@[simp] theorem State.openLines_board (ls : List Nat) : (s.openLines ls).board = s.board :=
  foldl_field (g := State.board) fun t l => t.openLine_board l

@[simp] theorem State.store_pending (a : Nat) (bs : List Byte) : (s.store a bs).pending = s.pending := by simp [State.store]
@[simp] theorem State.store_time (a : Nat) (bs : List Byte) : (s.store a bs).time = s.time := by simp [State.store]
@[simp] theorem State.store_regs (a : Nat) (bs : List Byte) : (s.store a bs).regs = s.regs := by simp [State.store]
@[simp] theorem State.store_latchR (a : Nat) (bs : List Byte) : (s.store a bs).latchR = s.latchR := by simp [State.store]
@[simp] theorem State.store_latchW (a : Nat) (bs : List Byte) : (s.store a bs).latchW = s.latchW := by simp [State.store]
@[simp] theorem State.store_linkErr (a : Nat) (bs : List Byte) : (s.store a bs).linkErr = s.linkErr := by simp [State.store]
@[simp] theorem State.store_fabricErr (a : Nat) (bs : List Byte) : (s.store a bs).fabricErr = s.fabricErr := by simp [State.store]
@[simp] theorem State.store_pcieMem (a : Nat) (bs : List Byte) : (s.store a bs).pcieMem = s.pcieMem := by simp [State.store]
@[simp] theorem State.store_arrays (a : Nat) (bs : List Byte) : (s.store a bs).arrays = s.arrays := by simp [State.store]
@[simp] theorem State.store_tierTags (a : Nat) (bs : List Byte) : (s.store a bs).tierTags = s.tierTags := by simp [State.store]
@[simp] theorem State.store_tierClears (a : Nat) (bs : List Byte) : (s.store a bs).tierClears = s.tierClears := by simp [State.store]
@[simp] theorem State.store_apertures (a : Nat) (bs : List Byte) : (s.store a bs).apertures = s.apertures := by simp [State.store]
@[simp] theorem State.store_events (a : Nat) (bs : List Byte) : (s.store a bs).events = s.events := by simp [State.store]
@[simp] theorem State.store_out (a : Nat) (bs : List Byte) : (s.store a bs).out = s.out := by simp [State.store]
@[simp] theorem State.store_rdata (a : Nat) (bs : List Byte) : (s.store a bs).rdata = s.rdata := by simp [State.store]
@[simp] theorem State.store_free (a : Nat) (bs : List Byte) : (s.store a bs).free = s.free := by simp [State.store]
@[simp] theorem State.store_parts (a : Nat) (bs : List Byte) : (s.store a bs).parts = s.parts := by simp [State.store]
@[simp] theorem State.store_spn (a : Nat) (bs : List Byte) : (s.store a bs).spn = s.spn := by simp [State.store]
@[simp] theorem State.store_twn (a : Nat) (bs : List Byte) : (s.store a bs).twn = s.twn := by simp [State.store]
@[simp] theorem State.store_coc (a : Nat) (bs : List Byte) : (s.store a bs).coc = s.coc := by simp [State.store]
@[simp] theorem State.store_flash (a : Nat) (bs : List Byte) : (s.store a bs).flash = s.flash := by simp [State.store]
@[simp] theorem State.store_patrolAt (a : Nat) (bs : List Byte) : (s.store a bs).patrolAt = s.patrolAt := by simp [State.store]
@[simp] theorem State.store_reel (a : Nat) (bs : List Byte) : (s.store a bs).reel = s.reel := by simp [State.store]
@[simp] theorem State.store_srv (a : Nat) (bs : List Byte) : (s.store a bs).srv = s.srv := by simp [State.store]
@[simp] theorem State.store_vid (a : Nat) (bs : List Byte) : (s.store a bs).vid = s.vid := by simp [State.store]
@[simp] theorem State.store_sht (a : Nat) (bs : List Byte) : (s.store a bs).sht = s.sht := by simp [State.store]
@[simp] theorem State.store_pm (a : Nat) (bs : List Byte) : (s.store a bs).pm = s.pm := by simp [State.store]
@[simp] theorem State.store_board (a : Nat) (bs : List Byte) : (s.store a bs).board = s.board := by simp [State.store]

@[simp] theorem State.wipe_pending (a n : Nat) : (s.wipe a n).pending = s.pending := by simp [State.wipe]
@[simp] theorem State.wipe_time (a n : Nat) : (s.wipe a n).time = s.time := by simp [State.wipe]
@[simp] theorem State.wipe_regs (a n : Nat) : (s.wipe a n).regs = s.regs := by simp [State.wipe]
@[simp] theorem State.wipe_latchR (a n : Nat) : (s.wipe a n).latchR = s.latchR := by simp [State.wipe]
@[simp] theorem State.wipe_latchW (a n : Nat) : (s.wipe a n).latchW = s.latchW := by simp [State.wipe]
@[simp] theorem State.wipe_linkErr (a n : Nat) : (s.wipe a n).linkErr = s.linkErr := by simp [State.wipe]
@[simp] theorem State.wipe_fabricErr (a n : Nat) : (s.wipe a n).fabricErr = s.fabricErr := by simp [State.wipe]
@[simp] theorem State.wipe_pcieMem (a n : Nat) : (s.wipe a n).pcieMem = s.pcieMem := by simp [State.wipe]
@[simp] theorem State.wipe_arrays (a n : Nat) : (s.wipe a n).arrays = s.arrays := by simp [State.wipe]
@[simp] theorem State.wipe_tierTags (a n : Nat) : (s.wipe a n).tierTags = s.tierTags := by simp [State.wipe]
@[simp] theorem State.wipe_tierClears (a n : Nat) : (s.wipe a n).tierClears = s.tierClears := by simp [State.wipe]
@[simp] theorem State.wipe_apertures (a n : Nat) : (s.wipe a n).apertures = s.apertures := by simp [State.wipe]
@[simp] theorem State.wipe_events (a n : Nat) : (s.wipe a n).events = s.events := by simp [State.wipe]
@[simp] theorem State.wipe_out (a n : Nat) : (s.wipe a n).out = s.out := by simp [State.wipe]
@[simp] theorem State.wipe_rdata (a n : Nat) : (s.wipe a n).rdata = s.rdata := by simp [State.wipe]
@[simp] theorem State.wipe_free (a n : Nat) : (s.wipe a n).free = s.free := by simp [State.wipe]
@[simp] theorem State.wipe_parts (a n : Nat) : (s.wipe a n).parts = s.parts := by simp [State.wipe]
@[simp] theorem State.wipe_spn (a n : Nat) : (s.wipe a n).spn = s.spn := by simp [State.wipe]
@[simp] theorem State.wipe_twn (a n : Nat) : (s.wipe a n).twn = s.twn := by simp [State.wipe]
@[simp] theorem State.wipe_coc (a n : Nat) : (s.wipe a n).coc = s.coc := by simp [State.wipe]
@[simp] theorem State.wipe_flash (a n : Nat) : (s.wipe a n).flash = s.flash := by simp [State.wipe]
@[simp] theorem State.wipe_patrolAt (a n : Nat) : (s.wipe a n).patrolAt = s.patrolAt := by simp [State.wipe]
@[simp] theorem State.wipe_reel (a n : Nat) : (s.wipe a n).reel = s.reel := by simp [State.wipe]
@[simp] theorem State.wipe_srv (a n : Nat) : (s.wipe a n).srv = s.srv := by simp [State.wipe]
@[simp] theorem State.wipe_vid (a n : Nat) : (s.wipe a n).vid = s.vid := by simp [State.wipe]
@[simp] theorem State.wipe_sht (a n : Nat) : (s.wipe a n).sht = s.sht := by simp [State.wipe]
@[simp] theorem State.wipe_pm (a n : Nat) : (s.wipe a n).pm = s.pm := by simp [State.wipe]
@[simp] theorem State.wipe_board (a n : Nat) : (s.wipe a n).board = s.board := by simp [State.wipe]

end Sys2Proof.Machine
end

