-- ==== Sys2Proof/Laws/Commands.lean ====
section
/-!
SUPPORT. What completing a command, leaving it to wait and settling can do.
-/

namespace Sys2Proof.Machine

theorem cmd_modCmd_self (s : State) (c : CmdRef) (f : Cmd → Cmd) (hf : ∀ m, (f m).ref = m.ref) :
    (s.modCmd c f).cmd c = (s.cmd c).map f := by
  unfold State.cmd State.modCmd
  dsimp only
  induction s.spn.cmds with
  | nil => rfl
  | cons m l ih =>
    by_cases h : m.ref = c
    · simp [h, hf]
    · simp [h] at ih ⊢; exact ih

theorem cmd_modCmd_ne (s : State) (c d : CmdRef) (f : Cmd → Cmd) (hf : ∀ m, (f m).ref = m.ref) (h : d ≠ c) :
    (s.modCmd c f).cmd d = s.cmd d := by
  unfold State.cmd State.modCmd
  dsimp only
  induction s.spn.cmds with
  | nil => rfl
  | cons m l ih =>
    rw [List.map_cons, List.find?_cons, List.find?_cons, ih]
    by_cases e : m.ref = c
    · have h1 : (m.ref == d) = false := by simpa using fun x => h (x.symm.trans e)
      rw [if_pos e, hf, h1]
    · rw [if_neg e]

theorem cmd_ledger (s : State) (e : LedgerEntry) (d : CmdRef) : (s.ledger e).cmd d = s.cmd d := by
  unfold State.ledger State.cmd; split <;> rfl

/-- Completing an outstanding command is all that `Completes` says. -/
theorem completes_complete {u : State} {c : CmdRef} {m : Cmd} (h : u.cmd c = some m) (st : Nat) (r : List Byte) :
    Completes (.next (u.complete c st r)) u c st r := by
  refine ⟨_, rfl, ?_, ?_, ?_⟩
  · unfold State.complete
    rw [h]; dsimp only
    split
    · have := cmd_modCmd_self u c (fun m => { m with phase := .queued, wait := .none, comp := some ⟨st, bytesAt r 0 40, u.time, false⟩ })
        (fun _ => rfl)
      rw [h] at this
      exact (congrArg (fun x : Option Cmd => x.bind (·.comp)) this)
    · rw [cmd_ledger, cmd_modCmd_self, h]; · rfl
      · exact fun _ => rfl
  · intro d hd
    unfold State.complete
    rw [h]; dsimp only
    split
    · exact cmd_modCmd_ne u c d _ (fun _ => rfl) hd
    · rw [cmd_ledger, cmd_modCmd_ne]; · exact fun _ => rfl
      · exact hd
  · unfold State.complete
    rw [h]; dsimp only
    split
    · rfl
    · unfold State.ledger State.modCmd; split <;> rfl

/-- Leaving a command to wait is all that `Waits` says. -/
theorem waits_park {u : State} {c : CmdRef} {m : Cmd} (h : u.cmd c = some m) (w : Wait) :
    Waits (.next (u.park c w)) u c w := by
  refine ⟨_, rfl, ?_, ?_, ?_⟩
  · have e : (u.park c w).cmd c = (u.modCmd c fun m => { m with phase := .running, wait := w }).cmd c := by
      unfold State.park; dsimp only; split
      · rfl
      · exact cmd_ledger _ _ _
    rw [e, cmd_modCmd_self, h]
    · rfl
    · exact fun _ => rfl
  · intro d hd
    have e : (u.park c w).cmd d = (u.modCmd c fun m => { m with phase := .running, wait := w }).cmd d := by
      unfold State.park; dsimp only; split
      · rfl
      · exact cmd_ledger _ _ _
    rw [e, cmd_modCmd_ne]
    · exact fun _ => rfl
    · exact hd
  · unfold State.park State.ledger State.modCmd; dsimp only; split
    · rfl
    · split <;> rfl

theorem runCmd_started {s : State} {c : CmdRef} {op : Nat} {m : Cmd} (h : s.Started c op m) (f : Cmd → State → State) :
    s.runCmd c op f = f m s := by
  unfold State.runCmd; rw [h.1]; simp [h.2.1, h.2.2.1, h.2.2.2]

theorem runPart_started {s : State} {c : CmdRef} {op : Nat} {m : Cmd} {p : PartNum} (h : s.Started c op m)
    (hp : m.part? = some p) (f : Cmd → PartNum → State → State) : s.runPart c op f = f m p s := by
  unfold State.runPart; rw [runCmd_started h, hp]

/-- With nothing that waits, settling changes nothing. -/
theorem settle_of_calm {s : State} (h : s.calm) : s.settle = s := by
  have fold : ∀ (f : State → Cmd → State) (l : List Cmd), (∀ m ∈ l, f s m = s) → l.foldl f s = s := by
    intro f l
    induction l with
    | nil => intro _; rfl
    | cons m l ih =>
      intro hl
      rw [List.foldl_cons, hl m (by simp)]
      exact ih fun x hx => hl x (by simp [hx])
  have h1 : s.settleKernels = s := by
    unfold State.settleKernels; refine fold _ _ fun m hm => ?_; simp [h.1 m hm]
  have h2 : s.feedClears = s := by
    unfold State.feedClears
    split
    · rfl
    generalize allParts = ps
    induction ps with
    | nil => rfl
    | cons p ps ih => rw [List.foldl_cons, h.2 p]; exact ih
  have h3 : s.settleReleases = s := by
    unfold State.settleReleases; refine fold _ _ fun m hm => ?_; simp [h.1 m hm]
  unfold State.settle
  simp only [h1, h2, h3]
  refine fold _ _ fun m hm => ?_
  unfold State.scrubStep; simp [h.1 m hm]

end Sys2Proof.Machine
end

