-- ==== Sys2Proof/Laws/Frames.lean ====
section
/-!
SUPPORT. What the operations over registers and event records leave alone: everything but the register file, the error
collector and the board's own record of them. A state so changed is `based` on the state before.
-/

namespace Sys2Proof.Machine

/-- Every part of t but its registers, its event records and its board is b's. -/
def State.based (t b : State) : Prop :=
  t.pending = b.pending ∧ t.time = b.time ∧ t.latchR = b.latchR ∧ t.latchW = b.latchW ∧ t.mem = b.mem ∧ t.tline
    = b.tline ∧ t.linkErr = b.linkErr ∧ t.fabricErr = b.fabricErr ∧ t.pcieMem = b.pcieMem ∧ t.ue = b.ue ∧ t.ce =
    b.ce ∧ t.arrays = b.arrays ∧ t.tierTags = b.tierTags ∧ t.tierClears = b.tierClears ∧ t.apertures =
    b.apertures ∧ t.out = b.out ∧ t.rdata = b.rdata ∧ t.free = b.free ∧ t.parts = b.parts ∧ t.spn = b.spn ∧ t.twn
    = b.twn ∧ t.coc = b.coc ∧ t.flash = b.flash ∧ t.patrolAt = b.patrolAt ∧ t.reel = b.reel ∧ t.srv = b.srv ∧
    t.vid = b.vid ∧ t.sht = b.sht ∧ t.pm = b.pm

theorem State.based_refl {s : State} : s.based s := by simp [State.based]

theorem State.based.pending {t b : State} (h : t.based b) : t.pending = b.pending := h.1
theorem State.based.time {t b : State} (h : t.based b) : t.time = b.time := h.2.1
theorem State.based.latchR {t b : State} (h : t.based b) : t.latchR = b.latchR := h.2.2.1
theorem State.based.latchW {t b : State} (h : t.based b) : t.latchW = b.latchW := h.2.2.2.1
theorem State.based.mem {t b : State} (h : t.based b) : t.mem = b.mem := h.2.2.2.2.1
theorem State.based.tline {t b : State} (h : t.based b) : t.tline = b.tline := h.2.2.2.2.2.1
theorem State.based.linkErr {t b : State} (h : t.based b) : t.linkErr = b.linkErr := h.2.2.2.2.2.2.1
theorem State.based.fabricErr {t b : State} (h : t.based b) : t.fabricErr = b.fabricErr := h.2.2.2.2.2.2.2.1
theorem State.based.pcieMem {t b : State} (h : t.based b) : t.pcieMem = b.pcieMem := h.2.2.2.2.2.2.2.2.1
theorem State.based.ue {t b : State} (h : t.based b) : t.ue = b.ue := h.2.2.2.2.2.2.2.2.2.1
theorem State.based.ce {t b : State} (h : t.based b) : t.ce = b.ce := h.2.2.2.2.2.2.2.2.2.2.1
theorem State.based.arrays {t b : State} (h : t.based b) : t.arrays = b.arrays := h.2.2.2.2.2.2.2.2.2.2.2.1
theorem State.based.tierTags {t b : State} (h : t.based b) : t.tierTags = b.tierTags := h.2.2.2.2.2.2.2.2.2.2.2.2.1
theorem State.based.tierClears {t b : State} (h : t.based b) : t.tierClears = b.tierClears := h.2.2.2.2.2.2.2.2.2.2.2.2.2.1
theorem State.based.apertures {t b : State} (h : t.based b) : t.apertures = b.apertures := h.2.2.2.2.2.2.2.2.2.2.2.2.2.2.1
theorem State.based.out {t b : State} (h : t.based b) : t.out = b.out := h.2.2.2.2.2.2.2.2.2.2.2.2.2.2.2.1
theorem State.based.rdata {t b : State} (h : t.based b) : t.rdata = b.rdata := h.2.2.2.2.2.2.2.2.2.2.2.2.2.2.2.2.1
theorem State.based.free {t b : State} (h : t.based b) : t.free = b.free := h.2.2.2.2.2.2.2.2.2.2.2.2.2.2.2.2.2.1
theorem State.based.parts {t b : State} (h : t.based b) : t.parts = b.parts := h.2.2.2.2.2.2.2.2.2.2.2.2.2.2.2.2.2.2.1
theorem State.based.spn {t b : State} (h : t.based b) : t.spn = b.spn := h.2.2.2.2.2.2.2.2.2.2.2.2.2.2.2.2.2.2.2.1
theorem State.based.twn {t b : State} (h : t.based b) : t.twn = b.twn := h.2.2.2.2.2.2.2.2.2.2.2.2.2.2.2.2.2.2.2.2.1
theorem State.based.coc {t b : State} (h : t.based b) : t.coc = b.coc := h.2.2.2.2.2.2.2.2.2.2.2.2.2.2.2.2.2.2.2.2.2.1
theorem State.based.flash {t b : State} (h : t.based b) : t.flash = b.flash := h.2.2.2.2.2.2.2.2.2.2.2.2.2.2.2.2.2.2.2.2.2.2.1
theorem State.based.patrolAt {t b : State} (h : t.based b) : t.patrolAt = b.patrolAt := h.2.2.2.2.2.2.2.2.2.2.2.2.2.2.2.2.2.2.2.2.2.2.2.1
theorem State.based.reel {t b : State} (h : t.based b) : t.reel = b.reel := h.2.2.2.2.2.2.2.2.2.2.2.2.2.2.2.2.2.2.2.2.2.2.2.2.1
theorem State.based.srv {t b : State} (h : t.based b) : t.srv = b.srv := h.2.2.2.2.2.2.2.2.2.2.2.2.2.2.2.2.2.2.2.2.2.2.2.2.2.1
theorem State.based.vid {t b : State} (h : t.based b) : t.vid = b.vid := h.2.2.2.2.2.2.2.2.2.2.2.2.2.2.2.2.2.2.2.2.2.2.2.2.2.2.1
theorem State.based.sht {t b : State} (h : t.based b) : t.sht = b.sht := h.2.2.2.2.2.2.2.2.2.2.2.2.2.2.2.2.2.2.2.2.2.2.2.2.2.2.2.1
theorem State.based.pm {t b : State} (h : t.based b) : t.pm = b.pm := h.2.2.2.2.2.2.2.2.2.2.2.2.2.2.2.2.2.2.2.2.2.2.2.2.2.2.2.2

/-- A state based on another shows the same bytes. -/
theorem State.based.byte {t b : State} (h : t.based b) (x : Nat) : t.byte x = b.byte x := by
  unfold State.byte State.foreignLine State.foreignBytes State.plainLine State.lineKey State.keySlot State.ttag
  rw [h.mem, h.tline, h.tierTags, h.coc]

theorem State.based.load {t b : State} (h : t.based b) (a n : Nat) : t.load a n = b.load a n := by
  unfold State.load; exact List.map_congr_left fun i _ => h.byte _

variable {s0 : State}

/-- A state written out field by field. -/
theorem based_mk {x0 x1 x2 x3 x4 x5 x6 x7 x8 x9 x10 x11 x12 x13 x14
      x15 x16 x17 x18 x19 x20 x21 x22 x23 x24 x25 x26 x27 x28 x29 x30 x31} {s : State} (hs : s.based s0)
    (e : x0 = s.pending ∧ x1 = s.time ∧ x3 = s.latchR ∧ x4 = s.latchW ∧ x5 = s.mem ∧ x6 = s.tline ∧ x7 = s.linkErr ∧
    x8 = s.fabricErr ∧ x9 = s.pcieMem ∧ x10 = s.ue ∧ x11 = s.ce ∧ x12 = s.arrays ∧ x13 = s.tierTags ∧ x14 =
    s.tierClears ∧ x15 = s.apertures ∧ x17 = s.out ∧ x18 = s.rdata ∧ x19 = s.free ∧ x20 = s.parts ∧ x21 = s.spn ∧
    x22 = s.twn ∧ x23 = s.coc ∧ x24 = s.flash ∧ x25 = s.patrolAt ∧ x26 = s.reel ∧ x27 = s.srv ∧ x28 = s.vid ∧ x29
    = s.sht ∧ x30 = s.pm) :
    State.based ⟨x0, x1, x2, x3, x4, x5, x6, x7, x8, x9, x10, x11, x12, x13, x14,
      x15, x16, x17, x18, x19, x20, x21, x22, x23, x24, x25, x26, x27, x28, x29, x30, x31⟩ s0 := by
  unfold State.based at *
  obtain ⟨e0, e1, e2, e3, e4, e5, e6, e7, e8, e9, e10, e11, e12, e13, e14, e15, e16, e17, e18, e19, e20, e21, e22, e23, e24, e25, e26, e27, e28⟩ := e
  subst_vars
  exact hs

theorem based_choice {c : Prop} [Decidable c] {s t : State} (ht : t.based s0) (hs : s.based s0) :
    State.based (if c then s else t) s0 := by
  by_cases h : c <;> simp [h, hs, ht]

theorem based_foldl {β : Type} {f : State → β → State} (hf : ∀ s x, s.based s0 → (f s x).based s0) {l : List β} :
    ∀ {s : State}, s.based s0 → (l.foldl f s).based s0 := by
  induction l with
  | nil => intro s h; exact h
  | cons x t ih => intro s h; exact ih (hf s x h)

theorem State.setReg_based {s : State} {key : Nat} {v : Word} (hs : s.based s0) : (s.setReg key v).based s0 := hs
theorem State.refreshDue_based {s : State} (hs : s.based s0) : s.refreshDue.based s0 := hs

theorem State.setReg64_based {s : State} {key v : Nat} (hs : s.based s0) : (State.setReg64 s key v).based s0 := by
  unfold State.setReg64
  repeat' first
    | with_reducible assumption
    | (with_reducible show State.based z s0; dsimp only [z]; clear z)
    | with_reducible refine State.setReg_based ?_
    | (intro z; refine have hz : State.based z s0 := ?_; ?_)
    | intro z
    | lift_lets
    | with_reducible refine based_choice ?_ ?_
    | with_reducible refine based_foldl (fun _ _ _ => ?_) ?_
    | split
    | with_reducible exact based_mk (by with_reducible assumption) ⟨rfl, rfl, rfl, rfl, rfl, rfl, rfl, rfl, rfl, rfl, rfl, rfl, rfl, rfl, rfl, rfl, rfl, rfl, rfl, rfl, rfl, rfl, rfl, rfl, rfl, rfl, rfl, rfl, rfl⟩
    | (dsimp only [z]; try clear z)

theorem State.set_based {s : State} {f : Fld} {v : Nat} (hs : s.based s0) : (State.set s f v).based s0 := by
  unfold State.set
  repeat' first
    | with_reducible assumption
    | (with_reducible show State.based z s0; dsimp only [z]; clear z)
    | with_reducible refine State.setReg_based ?_
    | with_reducible refine State.setReg64_based ?_
    | (intro z; refine have hz : State.based z s0 := ?_; ?_)
    | intro z
    | lift_lets
    | with_reducible refine based_choice ?_ ?_
    | with_reducible refine based_foldl (fun _ _ _ => ?_) ?_
    | split
    | with_reducible exact based_mk (by with_reducible assumption) ⟨rfl, rfl, rfl, rfl, rfl, rfl, rfl, rfl, rfl, rfl, rfl, rfl, rfl, rfl, rfl, rfl, rfl, rfl, rfl, rfl, rfl, rfl, rfl, rfl, rfl, rfl, rfl, rfl, rfl⟩
    | (dsimp only [z]; try clear z)

theorem State.addTo_based {s : State} {f : Fld} {n : Nat} (hs : s.based s0) : (State.addTo s f n).based s0 := by
  unfold State.addTo
  repeat' first
    | with_reducible assumption
    | (with_reducible show State.based z s0; dsimp only [z]; clear z)
    | with_reducible refine State.set_based ?_
    | (intro z; refine have hz : State.based z s0 := ?_; ?_)
    | intro z
    | lift_lets
    | with_reducible refine based_choice ?_ ?_
    | with_reducible refine based_foldl (fun _ _ _ => ?_) ?_
    | split
    | with_reducible exact based_mk (by with_reducible assumption) ⟨rfl, rfl, rfl, rfl, rfl, rfl, rfl, rfl, rfl, rfl, rfl, rfl, rfl, rfl, rfl, rfl, rfl, rfl, rfl, rfl, rfl, rfl, rfl, rfl, rfl, rfl, rfl, rfl, rfl⟩
    | (dsimp only [z]; try clear z)

theorem State.bump_based {s : State} {f : Fld} (hs : s.based s0) : (State.bump s f).based s0 := by
  unfold State.bump
  repeat' first
    | with_reducible assumption
    | (with_reducible show State.based z s0; dsimp only [z]; clear z)
    | with_reducible refine State.addTo_based ?_
    | (intro z; refine have hz : State.based z s0 := ?_; ?_)
    | intro z
    | lift_lets
    | with_reducible refine based_choice ?_ ?_
    | with_reducible refine based_foldl (fun _ _ _ => ?_) ?_
    | split
    | with_reducible exact based_mk (by with_reducible assumption) ⟨rfl, rfl, rfl, rfl, rfl, rfl, rfl, rfl, rfl, rfl, rfl, rfl, rfl, rfl, rfl, rfl, rfl, rfl, rfl, rfl, rfl, rfl, rfl, rfl, rfl, rfl, rfl, rfl, rfl⟩
    | (dsimp only [z]; try clear z)

theorem State.raiseBit_based {s : State} {f : Fld} (hs : s.based s0) : (State.raiseBit s f).based s0 := by
  unfold State.raiseBit
  repeat' first
    | with_reducible assumption
    | (with_reducible show State.based z s0; dsimp only [z]; clear z)
    | with_reducible refine State.set_based ?_
    | (intro z; refine have hz : State.based z s0 := ?_; ?_)
    | intro z
    | lift_lets
    | with_reducible refine based_choice ?_ ?_
    | with_reducible refine based_foldl (fun _ _ _ => ?_) ?_
    | split
    | with_reducible exact based_mk (by with_reducible assumption) ⟨rfl, rfl, rfl, rfl, rfl, rfl, rfl, rfl, rfl, rfl, rfl, rfl, rfl, rfl, rfl, rfl, rfl, rfl, rfl, rfl, rfl, rfl, rfl, rfl, rfl, rfl, rfl, rfl, rfl⟩
    | (dsimp only [z]; try clear z)

theorem State.setBit_based {s : State} {f : Fld} {n : Nat} {b : Bool} (hs : s.based s0) : (State.setBit s f n b).based s0 := by
  unfold State.setBit
  repeat' first
    | with_reducible assumption
    | (with_reducible show State.based z s0; dsimp only [z]; clear z)
    | with_reducible refine State.set_based ?_
    | (intro z; refine have hz : State.based z s0 := ?_; ?_)
    | intro z
    | lift_lets
    | with_reducible refine based_choice ?_ ?_
    | with_reducible refine based_foldl (fun _ _ _ => ?_) ?_
    | split
    | with_reducible exact based_mk (by with_reducible assumption) ⟨rfl, rfl, rfl, rfl, rfl, rfl, rfl, rfl, rfl, rfl, rfl, rfl, rfl, rfl, rfl, rfl, rfl, rfl, rfl, rfl, rfl, rfl, rfl, rfl, rfl, rfl, rfl, rfl, rfl⟩
    | (dsimp only [z]; try clear z)

theorem State.loseFor_based {s : State} {rs : List (Fin 17)} (hs : s.based s0) : (State.loseFor s rs).based s0 := by
  unfold State.loseFor
  repeat' first
    | with_reducible assumption
    | (with_reducible show State.based z s0; dsimp only [z]; clear z)
    | with_reducible refine State.bump_based ?_
    | (intro z; refine have hz : State.based z s0 := ?_; ?_)
    | intro z
    | lift_lets
    | with_reducible refine based_choice ?_ ?_
    | with_reducible refine based_foldl (fun _ _ _ => ?_) ?_
    | split
    | with_reducible exact based_mk (by with_reducible assumption) ⟨rfl, rfl, rfl, rfl, rfl, rfl, rfl, rfl, rfl, rfl, rfl, rfl, rfl, rfl, rfl, rfl, rfl, rfl, rfl, rfl, rfl, rfl, rfl, rfl, rfl, rfl, rfl, rfl, rfl⟩
    | (dsimp only [z]; try clear z)

theorem State.enqueue_based {s : State} {r : EventRec} (hs : s.based s0) : (State.enqueue s r).based s0 := by
  unfold State.enqueue
  repeat' first
    | with_reducible assumption
    | (with_reducible show State.based z s0; dsimp only [z]; clear z)
    | with_reducible refine State.refreshDue_based ?_
    | with_reducible refine State.set_based ?_
    | with_reducible refine State.bump_based ?_
    | with_reducible refine State.raiseBit_based ?_
    | with_reducible refine State.loseFor_based ?_
    | (intro z; refine have hz : State.based z s0 := ?_; ?_)
    | intro z
    | lift_lets
    | with_reducible refine based_choice ?_ ?_
    | with_reducible refine based_foldl (fun _ _ _ => ?_) ?_
    | split
    | with_reducible exact based_mk (by with_reducible assumption) ⟨rfl, rfl, rfl, rfl, rfl, rfl, rfl, rfl, rfl, rfl, rfl, rfl, rfl, rfl, rfl, rfl, rfl, rfl, rfl, rfl, rfl, rfl, rfl, rfl, rfl, rfl, rfl, rfl, rfl⟩
    | (dsimp only [z]; try clear z)

theorem State.reportAt_based {s : State} {at_ : DWord} {ev : Ev} (hs : s.based s0) : (State.reportAt s at_ ev).based s0 := by
  unfold State.reportAt
  repeat' first
    | with_reducible assumption
    | (with_reducible show State.based z s0; dsimp only [z]; clear z)
    | with_reducible refine State.bump_based ?_
    | with_reducible refine State.enqueue_based ?_
    | (intro z; refine have hz : State.based z s0 := ?_; ?_)
    | intro z
    | lift_lets
    | with_reducible refine based_choice ?_ ?_
    | with_reducible refine based_foldl (fun _ _ _ => ?_) ?_
    | split
    | with_reducible exact based_mk (by with_reducible assumption) ⟨rfl, rfl, rfl, rfl, rfl, rfl, rfl, rfl, rfl, rfl, rfl, rfl, rfl, rfl, rfl, rfl, rfl, rfl, rfl, rfl, rfl, rfl, rfl, rfl, rfl, rfl, rfl, rfl, rfl⟩
    | (dsimp only [z]; try clear z)

theorem State.report_based {s : State} {ev : Ev} (hs : s.based s0) : (State.report s ev).based s0 :=
  State.reportAt_based hs

theorem State.accessErrorAt_based {s : State} {at_ : DWord} {source inst cause path win : Nat} {p : Option PartNum} {addr : Option Nat} (hs : s.based s0) : (State.accessErrorAt s at_ source inst cause path win p addr).based s0 := by
  unfold State.accessErrorAt
  repeat' first
    | with_reducible assumption
    | (with_reducible show State.based z s0; dsimp only [z]; clear z)
    | with_reducible refine State.reportAt_based ?_
    | (intro z; refine have hz : State.based z s0 := ?_; ?_)
    | intro z
    | lift_lets
    | with_reducible refine based_choice ?_ ?_
    | with_reducible refine based_foldl (fun _ _ _ => ?_) ?_
    | split
    | with_reducible exact based_mk (by with_reducible assumption) ⟨rfl, rfl, rfl, rfl, rfl, rfl, rfl, rfl, rfl, rfl, rfl, rfl, rfl, rfl, rfl, rfl, rfl, rfl, rfl, rfl, rfl, rfl, rfl, rfl, rfl, rfl, rfl, rfl, rfl⟩
    | (dsimp only [z]; try clear z)

theorem State.accessError_based {s : State} {source inst cause path win : Nat} {p : Option PartNum} {addr : Option Nat}
    (hs : s.based s0) : (State.accessError s source inst cause path win p addr).based s0 :=
  State.accessErrorAt_based hs

theorem State.countEcc_based {s : State} {w : Nat} {bad : Bool} (hs : s.based s0) : (State.countEcc s w bad).based s0 := by
  unfold State.countEcc
  repeat' first
    | with_reducible assumption
    | (with_reducible show State.based z s0; dsimp only [z]; clear z)
    | with_reducible refine State.set_based ?_
    | with_reducible refine State.bump_based ?_
    | with_reducible refine State.raiseBit_based ?_
    | (intro z; refine have hz : State.based z s0 := ?_; ?_)
    | intro z
    | lift_lets
    | with_reducible refine based_choice ?_ ?_
    | with_reducible refine based_foldl (fun _ _ _ => ?_) ?_
    | split
    | with_reducible exact based_mk (by with_reducible assumption) ⟨rfl, rfl, rfl, rfl, rfl, rfl, rfl, rfl, rfl, rfl, rfl, rfl, rfl, rfl, rfl, rfl, rfl, rfl, rfl, rfl, rfl, rfl, rfl, rfl, rfl, rfl, rfl, rfl, rfl⟩
    | (dsimp only [z]; try clear z)

theorem State.eccReport_based {s : State} {w reader : Nat} {bad : Bool} (hs : s.based s0) : (State.eccReport s w reader bad).based s0 := by
  unfold State.eccReport
  repeat' first
    | with_reducible assumption
    | (with_reducible show State.based z s0; dsimp only [z]; clear z)
    | with_reducible refine State.report_based ?_
    | with_reducible refine State.countEcc_based ?_
    | (intro z; refine have hz : State.based z s0 := ?_; ?_)
    | intro z
    | lift_lets
    | with_reducible refine based_choice ?_ ?_
    | with_reducible refine based_foldl (fun _ _ _ => ?_) ?_
    | split
    | with_reducible exact based_mk (by with_reducible assumption) ⟨rfl, rfl, rfl, rfl, rfl, rfl, rfl, rfl, rfl, rfl, rfl, rfl, rfl, rfl, rfl, rfl, rfl, rfl, rfl, rfl, rfl, rfl, rfl, rfl, rfl, rfl, rfl, rfl, rfl⟩
    | (dsimp only [z]; try clear z)

theorem State.correct_based {s : State} {a n reader : Nat} (hs : s.based s0) : (State.correct s a n reader).based s0 := by
  unfold State.correct
  repeat' first
    | with_reducible assumption
    | (with_reducible show State.based z s0; dsimp only [z]; clear z)
    | with_reducible refine State.eccReport_based ?_
    | (intro z; refine have hz : State.based z s0 := ?_; ?_)
    | intro z
    | lift_lets
    | with_reducible refine based_choice ?_ ?_
    | with_reducible refine based_foldl (fun _ _ _ => ?_) ?_
    | split
    | with_reducible exact based_mk (by with_reducible assumption) ⟨rfl, rfl, rfl, rfl, rfl, rfl, rfl, rfl, rfl, rfl, rfl, rfl, rfl, rfl, rfl, rfl, rfl, rfl, rfl, rfl, rfl, rfl, rfl, rfl, rfl, rfl, rfl, rfl, rfl⟩
    | (dsimp only [z]; try clear z)

theorem State.cfgWriteBusy_based {s : State} {source inst : Nat} {p : Option PartNum} (hs : s.based s0) : (State.cfgWriteBusy s source inst p).based s0 := by
  unfold State.cfgWriteBusy
  repeat' first
    | with_reducible assumption
    | (with_reducible show State.based z s0; dsimp only [z]; clear z)
    | with_reducible refine State.report_based ?_
    | (intro z; refine have hz : State.based z s0 := ?_; ?_)
    | intro z
    | lift_lets
    | with_reducible refine based_choice ?_ ?_
    | with_reducible refine based_foldl (fun _ _ _ => ?_) ?_
    | split
    | with_reducible exact based_mk (by with_reducible assumption) ⟨rfl, rfl, rfl, rfl, rfl, rfl, rfl, rfl, rfl, rfl, rfl, rfl, rfl, rfl, rfl, rfl, rfl, rfl, rfl, rfl, rfl, rfl, rfl, rfl, rfl, rfl, rfl, rfl, rfl⟩
    | (dsimp only [z]; try clear z)

theorem State.noteOverflow_based {s : State} {n : ArrayNum} {b : Bool} (hs : s.based s0) : (State.noteOverflow s n b).based s0 := by
  unfold State.noteOverflow
  repeat' first
    | with_reducible assumption
    | (with_reducible show State.based z s0; dsimp only [z]; clear z)
    | with_reducible refine State.raiseBit_based ?_
    | (intro z; refine have hz : State.based z s0 := ?_; ?_)
    | intro z
    | lift_lets
    | with_reducible refine based_choice ?_ ?_
    | with_reducible refine based_foldl (fun _ _ _ => ?_) ?_
    | split
    | with_reducible exact based_mk (by with_reducible assumption) ⟨rfl, rfl, rfl, rfl, rfl, rfl, rfl, rfl, rfl, rfl, rfl, rfl, rfl, rfl, rfl, rfl, rfl, rfl, rfl, rfl, rfl, rfl, rfl, rfl, rfl, rfl, rfl, rfl, rfl⟩
    | (dsimp only [z]; try clear z)

theorem State.noteConvSat_based {s : State} {n : ArrayNum} {k : Nat} (hs : s.based s0) : (State.noteConvSat s n k).based s0 := by
  unfold State.noteConvSat
  repeat' first
    | with_reducible assumption
    | (with_reducible show State.based z s0; dsimp only [z]; clear z)
    | with_reducible refine State.addTo_based ?_
    | with_reducible refine State.raiseBit_based ?_
    | (intro z; refine have hz : State.based z s0 := ?_; ?_)
    | intro z
    | lift_lets
    | with_reducible refine based_choice ?_ ?_
    | with_reducible refine based_foldl (fun _ _ _ => ?_) ?_
    | split
    | with_reducible exact based_mk (by with_reducible assumption) ⟨rfl, rfl, rfl, rfl, rfl, rfl, rfl, rfl, rfl, rfl, rfl, rfl, rfl, rfl, rfl, rfl, rfl, rfl, rfl, rfl, rfl, rfl, rfl, rfl, rfl, rfl, rfl, rfl, rfl⟩
    | (dsimp only [z]; try clear z)

theorem State.noteConvNan_based {s : State} {n : ArrayNum} {b : Bool} (hs : s.based s0) : (State.noteConvNan s n b).based s0 := by
  unfold State.noteConvNan
  repeat' first
    | with_reducible assumption
    | (with_reducible show State.based z s0; dsimp only [z]; clear z)
    | with_reducible refine State.raiseBit_based ?_
    | (intro z; refine have hz : State.based z s0 := ?_; ?_)
    | intro z
    | lift_lets
    | with_reducible refine based_choice ?_ ?_
    | with_reducible refine based_foldl (fun _ _ _ => ?_) ?_
    | split
    | with_reducible exact based_mk (by with_reducible assumption) ⟨rfl, rfl, rfl, rfl, rfl, rfl, rfl, rfl, rfl, rfl, rfl, rfl, rfl, rfl, rfl, rfl, rfl, rfl, rfl, rfl, rfl, rfl, rfl, rfl, rfl, rfl, rfl, rfl, rfl⟩
    | (dsimp only [z]; try clear z)

theorem State.noteIntSat_based {s : State} {n : ArrayNum} {any : Bool} {k : Nat} (hs : s.based s0) : (State.noteIntSat s n any k).based s0 := by
  unfold State.noteIntSat
  repeat' first
    | with_reducible assumption
    | (with_reducible show State.based z s0; dsimp only [z]; clear z)
    | with_reducible refine State.addTo_based ?_
    | with_reducible refine State.raiseBit_based ?_
    | (intro z; refine have hz : State.based z s0 := ?_; ?_)
    | intro z
    | lift_lets
    | with_reducible refine based_choice ?_ ?_
    | with_reducible refine based_foldl (fun _ _ _ => ?_) ?_
    | split
    | with_reducible exact based_mk (by with_reducible assumption) ⟨rfl, rfl, rfl, rfl, rfl, rfl, rfl, rfl, rfl, rfl, rfl, rfl, rfl, rfl, rfl, rfl, rfl, rfl, rfl, rfl, rfl, rfl, rfl, rfl, rfl, rfl, rfl, rfl, rfl⟩
    | (dsimp only [z]; try clear z)

theorem State.applyStaged_based {s : State} {key : Nat} {r : RegDef} (hs : s.based s0) : (State.applyStaged s key r).based s0 := by
  unfold State.applyStaged
  repeat' first
    | with_reducible assumption
    | (with_reducible show State.based z s0; dsimp only [z]; clear z)
    | with_reducible refine State.set_based ?_
    | (intro z; refine have hz : State.based z s0 := ?_; ?_)
    | intro z
    | lift_lets
    | with_reducible refine based_choice ?_ ?_
    | with_reducible refine based_foldl (fun _ _ _ => ?_) ?_
    | split
    | with_reducible exact based_mk (by with_reducible assumption) ⟨rfl, rfl, rfl, rfl, rfl, rfl, rfl, rfl, rfl, rfl, rfl, rfl, rfl, rfl, rfl, rfl, rfl, rfl, rfl, rfl, rfl, rfl, rfl, rfl, rfl, rfl, rfl, rfl, rfl⟩
    | (dsimp only [z]; try clear z)

theorem State.commitArray_based {s : State} {n : ArrayNum} (hs : s.based s0) : (State.commitArray s n).based s0 := by
  unfold State.commitArray
  repeat' first
    | with_reducible assumption
    | (with_reducible show State.based z s0; dsimp only [z]; clear z)
    | with_reducible refine State.applyStaged_based ?_
    | (intro z; refine have hz : State.based z s0 := ?_; ?_)
    | intro z
    | lift_lets
    | with_reducible refine based_choice ?_ ?_
    | with_reducible refine based_foldl (fun _ _ _ => ?_) ?_
    | split
    | with_reducible exact based_mk (by with_reducible assumption) ⟨rfl, rfl, rfl, rfl, rfl, rfl, rfl, rfl, rfl, rfl, rfl, rfl, rfl, rfl, rfl, rfl, rfl, rfl, rfl, rfl, rfl, rfl, rfl, rfl, rfl, rfl, rfl, rfl, rfl⟩
    | (dsimp only [z]; try clear z)

end Sys2Proof.Machine
end

