-- ==== Sys2Proof/Laws/Tables.lean ====
section
/-!
SUPPORT. Sparse tables: what a read after a write gives, on any table, and that every table operation keeps the
canonical form.
-/

namespace Sys2Proof.Machine

variable {α : Type}

/-! ### What a read gives -/

/-- A kept key reads as before; a dropped key reads the default. -/
theorem look_filter {d : α} {P : Nat → Bool} {m : List (Nat × α)} (x : Nat) :
    SMap.look d (m.filter fun e => P e.1) x = if P x = true then SMap.look d m x else d := by
  induction m with
  | nil => simp [SMap.look]
  | cons p t ih =>
    obtain ⟨k, w⟩ := p
    rw [List.filter_cons]
    by_cases hx : x = k
    · subst hx; by_cases hk : P x = true <;> simp_all [SMap.look]
    · by_cases hk : P k = true <;> simp [hk, SMap.look, hx, ih]

/-- A key outside a dropped range reads as before; a key inside reads the default. -/
theorem look_wipe {d : α} {m : List (Nat × α)} {lo hi : Nat} (x : Nat) :
    SMap.look d (SMap.wipe m lo hi) x = if lo ≤ x ∧ x < hi then d else SMap.look d m x := by
  rw [SMap.wipe, look_filter (P := fun k => decide (k < lo) || decide (hi ≤ k)) x]
  simp only [Bool.or_eq_true, decide_eq_true_eq]
  by_cases hx : lo ≤ x ∧ x < hi
  · rw [if_pos hx, if_neg (by omega)]
  · rw [if_neg hx, if_pos (by omega)]

/-- A key put into a table that does not list it. -/
theorem look_insert {d v : α} {m : List (Nat × α)} {x : Nat} (y : Nat) (h : ∀ p ∈ m, p.1 ≠ x) :
    SMap.look d (SMap.insert x v m) y = if y = x then v else SMap.look d m y := by
  induction m with
  | nil => simp [SMap.insert, SMap.look]
  | cons p t ih =>
    obtain ⟨k, w⟩ := p
    have hk : k ≠ x := h _ (List.mem_cons_self ..)
    have ih' := ih fun q hq => h q (List.mem_cons_of_mem _ hq)
    unfold SMap.insert
    split
    · simp [SMap.look]
    · simp only [SMap.look, ih']
      by_cases hy : y = x
      · subst hy; simp [Ne.symm hk]
      · simp [hy]

variable [DecidableEq α]

/-- A read after a key is set: that key reads the value, every other key as before. -/
theorem look_put {d v : α} {m : List (Nat × α)} {x y : Nat} :
    SMap.look d (SMap.put d m x v) y = if y = x then v else SMap.look d m y := by
  have hf := look_filter (d := d) (P := fun k => k != x) (m := m) y
  simp only [bne_iff_ne, ne_eq] at hf
  unfold SMap.put
  simp only
  split
  · rw [hf]; split <;> simp_all
  · rw [look_insert y (by simp [List.mem_filter]), hf]; split <;> simp_all

/-- A read of the key just set gives the value set. -/
theorem look_put_self {d v : α} {m : List (Nat × α)} {x : Nat} : SMap.look d (SMap.put d m x v) x = v := by
  rw [look_put, if_pos rfl]

/-- Any other key reads as before, whatever an unlisted key reads as. -/
theorem look_put_ne {d d' v : α} {m : List (Nat × α)} {x y : Nat} (h : y ≠ x) :
    SMap.look d' (SMap.put d m x v) y = SMap.look d' m y := by
  have hf := look_filter (d := d') (P := fun k => k != x) (m := m) y
  rw [if_pos (by simpa using h)] at hf
  unfold SMap.put
  simp only
  split
  · exact hf
  · rw [look_insert y (by simp [List.mem_filter]), if_neg h, hf]

/-- Consecutive keys set: inside, the values; outside, what was there. -/
theorem look_putAll {d : α} {vs : List α} : ∀ {m : List (Nat × α)} {a : Nat} (x : Nat),
    SMap.look d (SMap.putAll d m a vs) x = if h : a ≤ x ∧ x - a < vs.length then vs[x - a] else SMap.look d m x := by
  induction vs with
  | nil => intro m a x; simp [SMap.putAll]
  | cons v t ih =>
    intro m a x
    rw [SMap.putAll, ih x]
    by_cases hx : x = a
    · subst hx
      rw [dif_neg (by omega), dif_pos (by simp)]
      simpa using look_put_self
    · by_cases hin : a + 1 ≤ x ∧ x - (a + 1) < t.length
      · rw [dif_pos hin, dif_pos (by simp; omega)]
        have : x - a = (x - (a + 1)) + 1 := by omega
        simp [this]
      · rw [dif_neg hin, dif_neg (by simp; omega)]
        exact look_put_ne hx

/-! ### The canonical form -/

omit [DecidableEq α]

theorem keysAbove_mono {m : List (Nat × α)} : ∀ {a b : Nat}, a ≤ b → keysAbove b m = true → keysAbove a m = true := by
  cases m with
  | nil => intros; rfl
  | cons p t =>
    intro a b hab h
    simp only [keysAbove, Bool.and_eq_true, decide_eq_true_eq] at h ⊢
    exact ⟨by omega, h.2⟩

theorem keysAbove_filter {P : Nat × α → Bool} {m : List (Nat × α)} :
    ∀ {b : Nat}, keysAbove b m = true → keysAbove b (m.filter P) = true := by
  induction m with
  | nil => intros; rfl
  | cons p t ih =>
    intro b h
    obtain ⟨k, w⟩ := p
    simp only [keysAbove, Bool.and_eq_true, decide_eq_true_eq] at h
    rw [List.filter_cons]
    split
    · simp only [keysAbove, Bool.and_eq_true, decide_eq_true_eq]; exact ⟨h.1, ih h.2⟩
    · exact ih (keysAbove_mono (by omega) h.2)

theorem keysAbove_insert {v : α} {m : List (Nat × α)} {x : Nat} (hx : ∀ p ∈ m, p.1 ≠ x) :
    ∀ {b : Nat}, b ≤ x → keysAbove b m = true → keysAbove b (SMap.insert x v m) = true := by
  induction m with
  | nil => intro b hb _; simp [SMap.insert, keysAbove, hb]
  | cons p t ih =>
    obtain ⟨k, w⟩ := p
    intro b hb h
    have hk : k ≠ x := hx _ (List.mem_cons_self ..)
    simp only [keysAbove, Bool.and_eq_true, decide_eq_true_eq] at h
    unfold SMap.insert
    split
    · simp only [keysAbove, Bool.and_eq_true, decide_eq_true_eq]; exact ⟨hb, by omega, h.2⟩
    · simp only [keysAbove, Bool.and_eq_true, decide_eq_true_eq]
      exact ⟨h.1, ih (fun q hq => hx q (List.mem_cons_of_mem _ hq)) (by omega) h.2⟩

theorem all_insert {v : α} {Q : Nat × α → Bool} {m : List (Nat × α)} {x : Nat} (hv : Q (x, v) = true)
    (h : m.all Q = true) : (SMap.insert x v m).all Q = true := by
  induction m with
  | nil => simp [SMap.insert, hv]
  | cons p t ih =>
    obtain ⟨k, w⟩ := p
    simp only [List.all_cons, Bool.and_eq_true] at h
    unfold SMap.insert
    split
    · simp [hv, h]
    · simp only [List.all_cons, Bool.and_eq_true]; exact ⟨h.1, ih h.2⟩

variable [DecidableEq α]

/-- Dropping entries keeps the canonical form. -/
theorem filter_canonBy {D : Nat → α} {m : SMap α} {P : Nat × α → Bool}
    (h : SMap.canonBy D m = true) : SMap.canonBy D (m.filter P) = true := by
  simp only [SMap.canonBy, Bool.and_eq_true] at h ⊢
  refine ⟨keysAbove_filter h.1, ?_⟩
  simp only [List.all_eq_true] at h ⊢
  exact fun x hx => h.2 x (List.mem_filter.mp hx).1

/-- Setting a key keeps the canonical form. -/
theorem put_canonBy {D : Nat → α} {d v : α} {m : SMap α} {x : Nat} (hd : D x = d)
    (h : SMap.canonBy D m = true) : SMap.canonBy D (SMap.put d m x v) = true := by
  have hf := filter_canonBy (P := fun p => p.1 != x) h
  unfold SMap.put
  simp only
  split
  · exact hf
  · rename_i hv
    simp only [SMap.canonBy, Bool.and_eq_true] at hf ⊢
    exact ⟨keysAbove_insert (by simp [List.mem_filter]) (Nat.zero_le _) hf.1,
      all_insert (by simpa [hd] using hv) hf.2⟩

theorem put_wf {d v : α} {m : SMap α} {x : Nat} (h : SMap.wf d m = true) : SMap.wf d (SMap.put d m x v) = true :=
  put_canonBy rfl h

theorem filter_wf {d : α} {m : SMap α} {P : Nat × α → Bool} (h : SMap.wf d m = true) : SMap.wf d (m.filter P) = true :=
  filter_canonBy h

theorem wipe_canonBy {D : Nat → α} {m : SMap α} {lo hi : Nat}
    (h : SMap.canonBy D m = true) : SMap.canonBy D (SMap.wipe m lo hi) = true := filter_canonBy h

theorem wipe_wf {d : α} {m : SMap α} {lo hi : Nat} (h : SMap.wf d m = true) : SMap.wf d (SMap.wipe m lo hi) = true :=
  filter_canonBy h

theorem putAll_wf {d : α} {m : SMap α} {vs : List α} :
    ∀ {a : Nat}, SMap.wf d m = true → SMap.wf d (SMap.putAll d m a vs) = true := by
  induction vs generalizing m with
  | nil => intro a h; exact h
  | cons v t ih => intro a h; exact ih (put_wf h)

theorem foldl_put_wf {β : Type} {d : α} {k : β → Nat} {v : β → α} {l : List β} :
    ∀ {m : SMap α}, SMap.wf d m = true → SMap.wf d (l.foldl (fun m c => SMap.put d m (k c) (v c)) m) = true := by
  induction l with
  | nil => intro m h; exact h
  | cons c t ih => intro m h; exact ih (put_wf h)

end Sys2Proof.Machine
end

