-- ==== Sys2Proof/Laws/Stores.lean ====
section
/-!
SUPPORT. The canonical form of the four stores: how it is read off a state, and that the operations over registers,
memory, granules and event records keep it.
-/

namespace Sys2Proof.Machine

theorem setReg_wf {regs : SMap Word} {key : Nat} {v : Word} (h : Regs.wf regs = true) :
    Regs.wf (SMap.put (regReset key) regs key v) = true := put_canonBy rfl h

/-- The stores are canonical and the command queue is q. -/
def Held (q p : List Instr) (mem pcie : List Host.Cell) (lines : SMap (Option TierLine)) (regs : SMap Word) : Prop :=
  Stores.wf mem pcie lines regs ∧ p = q

/-- A state whose stores are canonical and whose command queue is q. -/
def State.kept (s : State) (q : List Instr) : Prop := Held q s.pending s.mem s.pcieMem s.tline s.regs

variable {q : List Instr}

/-- A state written out field by field: only its queue and its four stores matter. -/
@[simp] theorem kept_mk {x0 x1 x2 x3 x4 x5 x6 x7 x8 x9 x10 x11 x12 x13 x14
      x15 x16 x17 x18 x19 x20 x21 x22 x23 x24 x25 x26 x27 x28 x29 x30 x31} :
    State.kept ⟨x0, x1, x2, x3, x4, x5, x6, x7, x8, x9, x10, x11, x12, x13, x14,
      x15, x16, x17, x18, x19, x20, x21, x22, x23, x24, x25, x26, x27, x28, x29, x30, x31⟩ q ↔
      Held q x0 x5 x9 x6 x2 := Iff.rfl

/-- Four stores of one state, read together. -/
@[simp] theorem held_fields {s : State} : Held q s.pending s.mem s.pcieMem s.tline s.regs ↔ s.kept q := Iff.rfl

@[simp] theorem kept_ite {c : Prop} [Decidable c] {s t : State} :
    State.kept (if c then s else t) q ↔ (c → s.kept q) ∧ (¬c → t.kept q) := by
  by_cases h : c <;> simp [h]


/-- A fold over states keeps the canonical form and the queue when each of its steps does. -/
theorem kept_foldl {β : Type} {f : State → β → State} (hf : ∀ s x, s.kept q → (f s x).kept q) {l : List β} :
    ∀ {s : State}, s.kept q → (l.foldl f s).kept q := by
  induction l with
  | nil => intro s h; exact h
  | cons x t ih => intro s h; exact ih (hf s x h)

/-- One branch of a choice may use that the other keeps the form. -/
theorem kept_choice {c : Prop} [Decidable c] {s t : State} (ht : t.kept q) (hs : t.kept q → s.kept q) :
    State.kept (if c then s else t) q := by
  by_cases h : c
  · simpa [h] using hs ht
  · simpa [h] using ht

theorem kept_foldl_pair {α β : Type} {f : State × α → β → State × α} (hf : ∀ r x, r.1.kept q → (f r x).1.kept q)
    {l : List β} : ∀ {r : State × α}, r.1.kept q → (l.foldl f r).1.kept q := by
  induction l with
  | nil => intro r h; exact h
  | cons x t ih => intro r h; exact ih (hf r x h)

theorem kept_of_pair {α : Type} {r : State × α} {t : State} {x : α} (h : r = (t, x)) (hr : r.1.kept q) : t.kept q := by
  rw [h] at hr; exact hr

/-- What an operation leaves, if it can be done, is in canonical form, with the same queue. -/
def OptKeeps (q : List Instr) (o : Option State) : Prop := ∀ t, o = some t → t.kept q

theorem optKeeps_none : OptKeeps q none := by intro t h; cases h
theorem optKeeps_some {s : State} (hs : s.kept q) : OptKeeps q (some s) := by intro t h; cases h; exact hs
theorem optKeeps_choice {c : Prop} [Decidable c] {x y : Option State} (hx : OptKeeps q x) (hy : OptKeeps q y) :
    OptKeeps q (if c then x else y) := by
  by_cases h : c <;> simp [h, hx, hy]
theorem kept_of_some {r : Option State} {t : State} (h : r = some t) (hr : OptKeeps q r) : t.kept q := hr t h

theorem kept_getD {o : Option State} {s : State} (ho : OptKeeps q o) (hs : s.kept q) : (o.getD s).kept q := by
  cases o with
  | none => exact hs
  | some t => exact ho t rfl

/-- What a command leaves, if it goes on, is in canonical form, with the same queue. -/
def Keeps (q : List Instr) (o : Host.Outcome State Fault Refusal) : Prop := ∀ t, o = .next t → t.kept q

theorem keeps_next {t : State} (h : t.kept q) : Keeps q (.next t) := by
  intro u hu; cases hu; exact h

theorem keeps_fault {f : Fault} : Keeps q (.fault f) := by intro u hu; cases hu

theorem keeps_choice {c : Prop} [Decidable c] {x y : Host.Outcome State Fault Refusal} (hx : Keeps q x) (hy : Keeps q y) :
    Keeps q (if c then x else y) := by
  by_cases h : c <;> simp [h, hx, hy]

theorem State.setReg_kept {s : State} {key : Nat} {v : Word} (h : s.kept q) : (s.setReg key v).kept q :=
  ⟨⟨h.1.1, h.1.2.1, h.1.2.2.1, setReg_wf h.1.2.2.2⟩, h.2⟩

/-- A state with other memory. -/
theorem kept_mem {s : State} {m : List Host.Cell} (h : s.kept q) (hm : Memory.wf m = true) :
    State.kept { s with mem := m } q := kept_mk.mpr ⟨⟨hm, h.1.2⟩, h.2⟩

theorem State.openLine_kept {s : State} {l : Nat} (h : s.kept q) : (s.openLine l).kept q := by
  unfold State.openLine
  split
  · exact kept_mem h (putAll_wf h.1.1)
  · exact h

theorem State.sealLine_kept {s : State} {l : Nat} (h : s.kept q) : (s.sealLine l).kept q := by
  unfold State.sealLine
  exact kept_mk.mpr ⟨⟨h.1.1, h.1.2.1, put_wf h.1.2.2.1, h.1.2.2.2⟩, h.2⟩

theorem State.openLines_kept {s : State} {ls : List Nat} (h : s.kept q) : (s.openLines ls).kept q :=
  kept_foldl (fun _ _ => State.openLine_kept) h

theorem State.sealLines_kept {s : State} {ls : List Nat} (h : s.kept q) : (s.sealLines ls).kept q :=
  kept_foldl (fun _ _ => State.sealLine_kept) h

theorem State.putBytes_kept {s : State} {a : Nat} {bs : List Byte} (h : s.kept q) : (s.putBytes a bs).kept q :=
  ⟨⟨foldl_put_wf h.1.1, h.1.2⟩, h.2⟩

theorem State.clearBytes_kept {s : State} {a n : Nat} (h : s.kept q) : (s.clearBytes a n).kept q :=
  ⟨⟨wipe_wf h.1.1, h.1.2.1, filter_wf h.1.2.2.1, h.1.2.2.2⟩, h.2⟩

theorem State.store_kept {s : State} {a : Nat} {bs : List Byte} (h : s.kept q) : (s.store a bs).kept q :=
  State.sealLines_kept (State.putBytes_kept (State.openLines_kept h))

theorem State.wipe_kept {s : State} {a n : Nat} (h : s.kept q) : (s.wipe a n).kept q :=
  State.sealLines_kept (State.clearBytes_kept (State.openLines_kept h))

theorem State.hostStores_kept {s : State} {hw : HostStores} (h : s.kept q) : (s.hostStores hw).kept q :=
  ⟨⟨h.1.1, foldl_put_wf h.1.2.1, h.1.2.2⟩, h.2⟩

theorem State.pcieStore_kept {s : State} {p : Port} {a : Nat} {bs : List Byte} (h : s.kept q) :
    (s.pcieStore p a bs).kept q := ⟨⟨h.1.1, putAll_wf h.1.2.1, h.1.2.2⟩, h.2⟩

end Sys2Proof.Machine
end

