-- ==== Sys2Proof/Laws/Registers.lean ====
section
/-!
SUPPORT. What a read of a register field gives after a write of a field: the value written, cut to the field's width,
or, for a field that lies apart from it, what it gave before.
-/

namespace Sys2Proof.Machine

/-- A number as its bits above, in and below a field. -/
theorem withBits_eq (v lo w x : Nat) :
    withBits v lo w x = v / 2 ^ lo / 2 ^ w * 2 ^ w * 2 ^ lo + x % 2 ^ w * 2 ^ lo + v % 2 ^ lo := by
  have h1 : v = v / 2 ^ lo * 2 ^ lo + v % 2 ^ lo := (Nat.div_add_mod' v (2 ^ lo)).symm
  have h2 : v / 2 ^ lo = v / 2 ^ lo / 2 ^ w * 2 ^ w + v / 2 ^ lo % 2 ^ w := (Nat.div_add_mod' _ (2 ^ w)).symm
  have h3 : v / 2 ^ lo * 2 ^ lo = v / 2 ^ lo / 2 ^ w * 2 ^ w * 2 ^ lo + v / 2 ^ lo % 2 ^ w * 2 ^ lo := by
    conv_lhs => rw [h2]
    exact Nat.add_mul _ _ _
  unfold withBits bitsAt
  generalize v / 2 ^ lo / 2 ^ w * 2 ^ w * 2 ^ lo = A at *
  generalize v / 2 ^ lo % 2 ^ w * 2 ^ lo = B at *
  omega

theorem withBits_div (v lo w x : Nat) : withBits v lo w x / 2 ^ lo = v / 2 ^ lo / 2 ^ w * 2 ^ w + x % 2 ^ w := by
  rw [withBits_eq, ← Nat.add_mul, Nat.add_comm, Nat.add_mul_div_right _ _ (Nat.two_pow_pos lo),
    Nat.div_eq_of_lt (Nat.mod_lt _ (Nat.two_pow_pos lo)), Nat.zero_add]

/-- The bits just set read back. -/
theorem bitsAt_withBits (v lo w x : Nat) : bitsAt (withBits v lo w x) lo w = x % 2 ^ w := by
  rw [bitsAt, withBits_div, Nat.add_comm, Nat.add_mul_mod_self_right, Nat.mod_mod]

theorem bitsAt_mod (v lo w n : Nat) (h : lo + w ≤ n) : bitsAt (v % 2 ^ n) lo w = bitsAt v lo w := by
  unfold bitsAt
  obtain ⟨k, rfl⟩ := Nat.exists_eq_add_of_le h
  rw [Nat.add_assoc, Nat.pow_add, Nat.mod_mul_right_div_self, Nat.pow_add, Nat.mod_mul_right_mod]

/-- Bits below the ones set are kept. -/
theorem bitsAt_withBits_below (v lo w x lo' w' : Nat) (h : lo' + w' ≤ lo) :
    bitsAt (withBits v lo w x) lo' w' = bitsAt v lo' w' := by
  rw [← bitsAt_mod _ lo' w' lo h, ← bitsAt_mod v lo' w' lo h]
  congr 1
  rw [withBits_eq, ← Nat.add_mul, Nat.add_comm, Nat.add_mul_mod_self_right, Nat.mod_mod]

/-- Bits above the ones set are kept. -/
theorem bitsAt_withBits_above (v lo w x lo' w' : Nat) (h : lo + w ≤ lo') :
    bitsAt (withBits v lo w x) lo' w' = bitsAt v lo' w' := by
  obtain ⟨k, rfl⟩ := Nat.exists_eq_add_of_le h
  have hd : withBits v lo w x / 2 ^ (lo + w) = v / 2 ^ (lo + w) := by
    rw [Nat.pow_add, ← Nat.div_div_eq_div_mul, withBits_div, Nat.add_comm,
      Nat.add_mul_div_right _ _ (Nat.two_pow_pos w), Nat.div_eq_of_lt (Nat.mod_lt _ (Nat.two_pow_pos w)), Nat.zero_add,
      ← Nat.div_div_eq_div_mul]
  unfold bitsAt
  rw [Nat.pow_add, ← Nat.div_div_eq_div_mul, hd, ← Nat.div_div_eq_div_mul]

theorem withBits_lt (v lo w x n : Nat) (hv : v < 2 ^ n) (h : lo + w ≤ n) : withBits v lo w x < 2 ^ n := by
  obtain ⟨k, rfl⟩ := Nat.exists_eq_add_of_le h
  rw [withBits_eq]
  have h1 : v / 2 ^ lo / 2 ^ w < 2 ^ k := by
    rw [Nat.div_div_eq_div_mul, ← Nat.pow_add]
    exact Nat.div_lt_of_lt_mul (by rwa [← Nat.pow_add])
  have h2 : x % 2 ^ w < 2 ^ w := Nat.mod_lt _ (Nat.two_pow_pos w)
  have h3 : v % 2 ^ lo < 2 ^ lo := Nat.mod_lt _ (Nat.two_pow_pos lo)
  have h4 : (v / 2 ^ lo / 2 ^ w + 1) * 2 ^ w ≤ 2 ^ k * 2 ^ w := Nat.mul_le_mul_right _ h1
  have h5 : v / 2 ^ lo / 2 ^ w * 2 ^ w + x % 2 ^ w + 1 ≤ 2 ^ (w + k) := by
    rw [Nat.add_comm w k, Nat.pow_add]; rw [Nat.add_mul, Nat.one_mul] at h4; omega
  have h6 : (v / 2 ^ lo / 2 ^ w * 2 ^ w + x % 2 ^ w + 1) * 2 ^ lo ≤ 2 ^ (w + k) * 2 ^ lo := Nat.mul_le_mul_right _ h5
  rw [Nat.add_mul, Nat.one_mul, Nat.add_mul, ← Nat.pow_add] at h6
  rw [show lo + w + k = w + k + lo by omega]
  omega

/-! ### Words -/

variable {s : State}

/-- A register word just stored reads back. -/
theorem reg_setReg_self (k : Nat) (v : Word) : (s.setReg k v).reg k = v :=
  look_put_self

/-- Every other register word reads as before. -/
theorem reg_setReg_ne {k j : Nat} (v : Word) (hj : j ≠ k) :
    (s.setReg k v).reg j = s.reg j := look_put_ne hj

theorem setReg_regs_wf (h : Regs.wf s.regs = true) (k : Nat) (v : Word) : Regs.wf (s.setReg k v).regs = true :=
  setReg_wf h

theorem set_regs_wf (h : Regs.wf s.regs = true) (f : Fld) (v : Nat) : Regs.wf (s.set f v).regs = true := by
  unfold State.set
  split
  · exact setReg_wf (setReg_wf h)
  · exact setReg_wf h

theorem reg64_setReg64 (k v : Nat) : (s.setReg64 k v).reg64 k = v % 2 ^ 64 := by
  unfold State.setReg64 State.reg64
  rw [reg_setReg_self, reg_setReg_ne _ (by omega), reg_setReg_self]
  simp only [BitVec.toNat_ofNat]
  omega

/-- A field lies inside its register. -/
def Fld.fits (f : Fld) : Bool := decide (f.lo + f.width ≤ if f.wide then 64 else 32)

/-- Two fields share no bit of a register. -/
def Fld.apart (f g : Fld) : Bool :=
  (f.key == g.key && f.wide == g.wide && (decide (f.lo + f.width ≤ g.lo) || decide (g.lo + g.width ≤ f.lo)))
    || (decide (f.key ≠ g.key) && (!f.wide || decide (f.key + 4 ≠ g.key)) && (!g.wide || decide (g.key + 4 ≠ f.key))
      && (!(f.wide && g.wide) || decide (f.key + 4 ≠ g.key + 4)))

/-- A field just set reads the value set, cut to its width. -/
theorem get_set_self {f : Fld} (hf : f.fits = true) (v : Nat) :
    (s.set f v).get f = v % 2 ^ f.width := by
  simp only [Fld.fits, decide_eq_true_eq] at hf
  unfold State.set State.get
  by_cases hw : f.wide = true
  · simp only [hw, if_true] at hf ⊢
    rw [reg64_setReg64, bitsAt_mod _ _ _ _ hf, bitsAt_withBits]
  · simp only [hw] at hf ⊢
    simp only [Bool.false_eq_true, if_false] at hf ⊢
    rw [reg_setReg_self, BitVec.toNat_ofNat, bitsAt_mod _ _ _ _ hf, bitsAt_withBits]

/-- A field that lies apart from the one set reads as before. -/
theorem get_set_apart {f g : Fld} (hg : g.fits = true) (ha : f.apart g = true) (v : Nat) :
    (s.set f v).get g = s.get g := by
  obtain ⟨fk, fl, fw, fd⟩ := f
  obtain ⟨gk, gl, gw, gd⟩ := g
  simp only [Fld.fits, decide_eq_true_eq] at hg
  simp only [Fld.apart, Bool.or_eq_true, Bool.and_eq_true, beq_iff_eq, decide_eq_true_eq] at ha
  unfold State.set State.get
  rcases ha with ⟨⟨hk, hd⟩, hb⟩ | ⟨⟨⟨hk, h1⟩, h2⟩, h3⟩
  · dsimp only at *
    subst hk hd
    cases fd
    · simp only [Bool.false_eq_true, if_false] at hg ⊢
      rw [reg_setReg_self, BitVec.toNat_ofNat, bitsAt_mod _ _ _ _ hg]
      rcases hb with hb | hb
      · exact bitsAt_withBits_above _ _ _ _ _ _ hb
      · exact bitsAt_withBits_below _ _ _ _ _ _ hb
    · simp only [if_true] at hg ⊢
      rw [reg64_setReg64, bitsAt_mod _ _ _ _ hg]
      rcases hb with hb | hb
      · exact bitsAt_withBits_above _ _ _ _ _ _ hb
      · exact bitsAt_withBits_below _ _ _ _ _ _ hb
  · dsimp only at *
    cases fd <;> cases gd <;>
      simp only [State.setReg64, State.reg64, Bool.false_eq_true, if_false, if_true, Bool.not_true, Bool.not_false,
        Bool.and_self, Bool.and_false, Bool.false_and, false_or, true_or, decide_eq_true_eq] at h1 h2 h3 ⊢
    · rw [reg_setReg_ne _ (by omega)]
    · rw [reg_setReg_ne _ (by omega), reg_setReg_ne _ (by omega)]
    · rw [reg_setReg_ne _ (by omega), reg_setReg_ne _ (by omega)]
    · rw [reg_setReg_ne _ (by omega), reg_setReg_ne _ (by omega),
        reg_setReg_ne _ (by omega), reg_setReg_ne _ (by omega)]

end Sys2Proof.Machine
end

