-- ==== Sys2Proof/Laws/Issue.lean ====
section
/-!
SUPPORT. Issue, said once: what an issue row leaves when its instruction issues, jumps or faults, and what the state at
issue keeps of the state before.
-/

namespace Sys2Proof.Machine

variable {s : State} {n : ArrayNum}

@[simp] theorem arr_modArr_self (f : ArrayState → ArrayState) : (s.modArr n f).arr n = f (s.arr n) := by
  simp [State.modArr, State.arr]

@[simp] theorem arr_modArr_ne {m : ArrayNum} (f : ArrayState → ArrayState) (h : m ≠ n) :
    (s.modArr n f).arr m = s.arr m := by
  simp only [State.modArr, State.arr]
  exact Vector.getElem_set_ne _ _ (fun e => h (Fin.ext e.symm))

theorem modArr_modArr (f g : ArrayState → ArrayState) : (s.modArr n f).modArr n g = s.modArr n fun a => g (f a) := by
  simp [State.modArr]

/-- A state based on another has its arrays. -/
theorem State.based.arr {t b : State} (h : t.based b) (m : ArrayNum) : t.arr m = b.arr m := by
  unfold State.arr; rw [h.arrays]

theorem advance_eq : s.advance n = s.modArr n (ArrayState.past s.time) := by
  unfold State.advance State.detect ArrayState.past
  dsimp only
  split
  · rename_i h
    have h' : s.arrays[n.val].pc = lastFetch := h
    simp [State.modArr, h']
  · rename_i h
    have h' : ¬ s.arrays[n.val].pc = lastFetch := h
    simp [State.modArr, State.arr, h']

theorem correct_based {a k r : Nat} : (s.correct a k r).based s := State.correct_based State.based_refl

/-- At issue every array but n is as before, and array n but for its commit mark. -/
theorem arr_atIssue : (s.atIssue n).arr n = { s.arr n with committed := true } := by
  unfold State.atIssue State.commitIfFirst
  have hb : (s.correct (spoolBase n + (s.arr n).pc) 16 6).based s := correct_based
  split
  · rename_i h
    rw [hb.arr] at h ⊢
    cases e : s.arr n; simp_all
  · rw [arr_modArr_self, (State.commitArray_based hb).arr]

theorem arr_atIssue_ne {m : ArrayNum} (h : m ≠ n) : (s.atIssue n).arr m = s.arr m := by
  unfold State.atIssue State.commitIfFirst
  have hb : (s.correct (spoolBase n + (s.arr n).pc) 16 6).based s := correct_based
  split
  · exact hb.arr m
  · rw [arr_modArr_ne _ h, (State.commitArray_based hb).arr]

/-- The frame of the state at issue: arrays, registers, event records and the board aside, all is as before. -/
theorem atIssue_frame : s.atIssue n =
    { s with arrays := (s.atIssue n).arrays, regs := (s.atIssue n).regs, events := (s.atIssue n).events,
             board := (s.atIssue n).board } := by
  have key : ∀ (u : State), u.based s → ∀ f, (u.modArr n f) =
      { s with arrays := (u.modArr n f).arrays, regs := (u.modArr n f).regs, events := (u.modArr n f).events,
               board := (u.modArr n f).board } := by
    intro u hu f
    unfold State.based at hu
    cases s; cases u
    simp only [State.modArr] at *
    simp_all
  have key' : ∀ (u : State), u.based s → u =
      { s with arrays := u.arrays, regs := u.regs, events := u.events, board := u.board } := by
    intro u hu
    unfold State.based at hu
    cases s; cases u
    simp_all
  unfold State.atIssue State.commitIfFirst
  have hb : (s.correct (spoolBase n + (s.arr n).pc) 16 6).based s := correct_based
  split
  · exact key' _ hb
  · exact key _ (State.commitArray_based hb) _

/-- A state that differs from s in arrays, registers, event records and board only, and in no array but n. -/
def State.near (u s : State) (n : ArrayNum) : Prop :=
  (∀ m, m ≠ n → u.arr m = s.arr m)
    ∧ u = { s with arrays := u.arrays, regs := u.regs, events := u.events, board := u.board }

theorem atIssue_near : (s.atIssue n).near s n := ⟨fun _ h => arr_atIssue_ne h, atIssue_frame⟩

theorem near_of_based {u v : State} (hv : v.near s n) (hb : u.based v) : u.near s n := by
  refine ⟨fun m h => (hb.arr m).trans (hv.1 m h), ?_⟩
  obtain ⟨_, h2⟩ := hv
  unfold State.based at hb
  cases s; cases u; cases v
  simp_all

theorem near_modArr {u : State} (hu : u.near s n) (f : ArrayState → ArrayState) : (u.modArr n f).near s n := by
  refine ⟨fun m h => (arr_modArr_ne f h).trans (hu.1 m h), ?_⟩
  obtain ⟨_, h2⟩ := hu
  unfold State.modArr
  cases s; cases u
  simp_all

/-- A change of array n on top of a near state is what `Changes` says. -/
theorem changes_near {u v : State} (hu : u.near s n) (hr : u.regs = v.regs) (he : u.events = v.events)
    (hb : u.board = v.board) : Changes (.next u) s n (u.arr n) v := by
  obtain ⟨h1, h2⟩ := hu
  refine ⟨u, rfl, rfl, h1, ?_⟩
  rw [← hr, ← he, ← hb]; exact h2

variable {i : Insn} {row : Insn → Option (State → IssueOut)} {run : State → IssueOut} {t : State}

/-- Issue reaches the word at the array's place when nothing bars it. -/
theorem issue_word {s' : State} {word : Nat} (h1 : s.canIssue n = true) (h2 : (s.arr n).pc % 16 = 0)
    (h3 : (s.arr n).pc ≤ lastFetch) (h4 : s.badIn (spoolBase n + (s.arr n).pc) 16 = none)
    (hs : s.correct (spoolBase n + (s.arr n).pc) 16 6 = s') (hw : s'.fetch n (s.arr n).pc = word) :
    s.issue n row = s'.issueWord n word row := by
  have h : ¬ ((s.arr n).pc % 16 ≠ 0 ∨ lastFetch < (s.arr n).pc) := by
    rw [not_or]; exact ⟨not_not.mpr h2, Nat.not_lt.mpr h3⟩
  unfold State.issue
  rw [h1, Bool.not_true, if_neg Bool.false_ne_true, if_neg h, h4, hs]
  dsimp only
  rw [hw]

/-- What a word that decodes to a legal instruction does at issue. -/
theorem issueWord_runs {word : Nat} (hd : decodeInsn word = i) (hi : ∀ c, i ≠ .illegal c) (hr : row i = some run)
    (hl : interlock (s.arr n) i = false) :
    s.issueWord n word row = match run (s.commitIfFirst n) with
      | .done t => (t.modArr n (ArrayState.enter i)).advance n
      | .goto t pc' => t.modArr n fun a => { a with pc := pc' }
      | .fault t code addr => t.detect n ⟨code, word % 16, (s.arr n).pc, addr⟩ := by
  unfold State.issueWord
  rw [hd]
  cases i with
  | illegal c => exact absurd rfl (hi c)
  | _ => dsimp only; rw [hr]; dsimp only; rw [hl, if_neg Bool.false_ne_true] <;> cases run (s.commitIfFirst n) <;> rfl

theorem issue_runs (h : s.Issues n i) (hi : ∀ c, i ≠ .illegal c) (hr : row i = some run) :
    s.issue n row = match run (s.atIssue n) with
      | .done t => t.modArr n (ArrayState.issued i t.time)
      | .goto t pc' => t.modArr n fun a => { a with pc := pc' }
      | .fault t code addr => t.detect n ⟨code, s.fetch n (s.arr n).pc % 16, (s.arr n).pc, addr⟩ := by
  obtain ⟨h1, h2, h3, h4, h5, h6⟩ := h
  have hb : (s.correct (spoolBase n + (s.arr n).pc) 16 6).based s := correct_based
  have hf : (s.correct (spoolBase n + (s.arr n).pc) 16 6).fetch n (s.arr n).pc = s.fetch n (s.arr n).pc := by
    unfold State.fetch; rw [hb.load]
  rw [issue_word h1 h2 h3 h4 rfl hf, issueWord_runs h5 hi hr (by rw [hb.arr]; exact h6), hb.arr]
  unfold State.atIssue
  generalize run ((s.correct (spoolBase n + (s.arr n).pc) 16 6).commitIfFirst n) = o
  cases o with
  | done t =>
    exact advance_eq.trans (modArr_modArr _ _)
  | goto t pc' => rfl
  | fault t code addr => rfl

/-- A row whose instruction issues and goes on to the next. -/
theorem issue_done (h : s.Issues n i) (hi : ∀ c, i ≠ .illegal c) (hr : row i = some run)
    (hd : run (s.atIssue n) = .done t) : s.issue n row = t.modArr n (ArrayState.issued i t.time) := by
  rw [issue_runs h hi hr, hd]

/-- A row whose instruction goes on elsewhere. -/
theorem issue_goto {pc' : Nat} (h : s.Issues n i) (hi : ∀ c, i ≠ .illegal c) (hr : row i = some run)
    (hd : run (s.atIssue n) = .goto t pc') : s.issue n row = t.modArr n fun a => { a with pc := pc' } := by
  rw [issue_runs h hi hr, hd]

/-- A row whose instruction faults. -/
theorem issue_fault {code addr : Nat} (h : s.Issues n i) (hi : ∀ c, i ≠ .illegal c) (hr : row i = some run)
    (hd : run (s.atIssue n) = .fault t code addr) :
    s.issue n row = t.detect n ⟨code, s.fetch n (s.arr n).pc % 16, (s.arr n).pc, addr⟩ := by
  rw [issue_runs h hi hr, hd]

end Sys2Proof.Machine
end

