-- ==== Sys2Proof/Laws/KeptOps.lean ====
section
/-!
SUPPORT. Every operation of Machine/Ops.lean keeps the canonical form of the four stores, and the
command queue.
-/

set_option linter.unusedSimpArgs false

namespace Sys2Proof.Machine

variable {q : List Instr}

theorem State.setReg64_kept {s : State} {key v : Nat} (hs : s.kept q) :
    (State.setReg64 s key v).kept q := by
  unfold State.setReg64
  repeat' first
    | with_reducible assumption
    | with_reducible refine State.setReg_kept ?_

theorem State.set_kept {s : State} {f : Fld} {v : Nat} (hs : s.kept q) :
    (State.set s f v).kept q := by
  unfold State.set
  repeat' first
    | with_reducible assumption
    | with_reducible refine State.setReg_kept ?_
    | with_reducible refine State.setReg64_kept ?_
    | with_reducible refine kept_choice ?_ (fun _ => ?_)

theorem State.addTo_kept {s : State} {f : Fld} {n : Nat} (hs : s.kept q) :
    (State.addTo s f n).kept q := by
  unfold State.addTo
  repeat' first
    | with_reducible assumption
    | with_reducible refine State.set_kept ?_

theorem State.bump_kept {s : State} {f : Fld} (hs : s.kept q) :
    (State.bump s f).kept q := by
  unfold State.bump
  repeat' first
    | with_reducible assumption
    | with_reducible refine State.addTo_kept ?_

theorem State.raiseBit_kept {s : State} {f : Fld} (hs : s.kept q) :
    (State.raiseBit s f).kept q := by
  unfold State.raiseBit
  repeat' first
    | with_reducible assumption
    | with_reducible refine State.set_kept ?_

theorem State.setBit_kept {s : State} {f : Fld} {n : Nat} {b : Bool} (hs : s.kept q) :
    (State.setBit s f n b).kept q := by
  unfold State.setBit
  repeat' first
    | with_reducible assumption
    | with_reducible refine State.set_kept ?_

theorem State.modArr_kept {s : State} {n : ArrayNum} {f : ArrayState → ArrayState} (hs : s.kept q) :
    (State.modArr s n f).kept q := by
  unfold State.modArr
  repeat' first
    | with_reducible assumption
    | simp only [kept_mk, held_fields]

theorem State.modPart_kept {s : State} {p : PartNum} {f : Part → Part} (hs : s.kept q) :
    (State.modPart s p f).kept q := by
  unfold State.modPart
  repeat' first
    | with_reducible assumption
    | simp only [kept_mk, held_fields]

theorem State.setVtag_kept {s : State} {n : ArrayNum} {g : Nat} {t : Byte} (hs : s.kept q) :
    (State.setVtag s n g t).kept q := by
  unfold State.setVtag
  repeat' first
    | with_reducible assumption
    | with_reducible refine State.modArr_kept ?_

theorem State.setTtag_kept {s : State} {g : Nat} {t : Byte} (hs : s.kept q) :
    (State.setTtag s g t).kept q := by
  unfold State.setTtag
  repeat' first
    | with_reducible assumption
    | simp only [kept_mk, held_fields]

theorem State.send_kept {s : State} {m : OutMsg} (hs : s.kept q) :
    (State.send s m).kept q := by
  unfold State.send
  repeat' first
    | with_reducible assumption
    | simp only [kept_mk, held_fields]

theorem State.refreshDue_kept {s : State} (hs : s.kept q) :
    (State.refreshDue s).kept q := by
  unfold State.refreshDue
  repeat' first
    | with_reducible assumption
    | intro z
    | lift_lets
    | simp only [kept_mk, held_fields]

theorem State.loseFor_kept {s : State} {rs : List (Fin 17)} (hs : s.kept q) :
    (State.loseFor s rs).kept q := by
  unfold State.loseFor
  repeat' first
    | with_reducible assumption
    | with_reducible refine State.bump_kept ?_
    | lift_lets
    | simp only [kept_mk, held_fields]
    | with_reducible refine kept_foldl (fun _ _ _ => ?_) ?_

theorem State.enqueue_kept {s : State} {r : EventRec} (hs : s.kept q) :
    (State.enqueue s r).kept q := by
  unfold State.enqueue
  repeat' first
    | with_reducible assumption
    | (with_reducible show State.kept z q; dsimp only [z]; clear z)
    | (intro z (hz : State.kept z q); try beta_reduce)
    | with_reducible refine State.set_kept ?_
    | with_reducible refine State.bump_kept ?_
    | with_reducible refine State.raiseBit_kept ?_
    | with_reducible refine State.refreshDue_kept ?_
    | with_reducible refine State.loseFor_kept ?_
    | (intro z; refine have hz : State.kept z q := ?_; ?_)
    | (intro z; refine have hz : State.kept z.1 q := ?_; ?_)
    | intro z
    | lift_lets
    | with_reducible refine kept_choice ?_ (fun _ => ?_)
    | simp only [kept_mk, held_fields]
    | with_reducible refine kept_foldl (fun _ _ _ => ?_) ?_
    | with_reducible refine kept_foldl_pair (fun _ _ _ => ?_) ?_
    | with_reducible refine kept_getD ?_ ?_
    | split
    | refine kept_of_pair (by with_reducible assumption) ?_
    | refine kept_of_some (by with_reducible assumption) ?_
    | (dsimp only [z]; try clear z)

theorem State.reportAt_kept {s : State} {at_ : DWord} {ev : Ev} (hs : s.kept q) :
    (State.reportAt s at_ ev).kept q := by
  unfold State.reportAt
  repeat' first
    | with_reducible assumption
    | (with_reducible show State.kept z q; dsimp only [z]; clear z)
    | (intro z (hz : State.kept z q); try beta_reduce)
    | with_reducible refine State.bump_kept ?_
    | with_reducible refine State.enqueue_kept ?_
    | (intro z; refine have hz : State.kept z q := ?_; ?_)
    | (intro z; refine have hz : State.kept z.1 q := ?_; ?_)
    | intro z
    | lift_lets
    | with_reducible refine kept_choice ?_ (fun _ => ?_)
    | simp only [kept_mk, held_fields]
    | with_reducible refine kept_foldl (fun _ _ _ => ?_) ?_
    | with_reducible refine kept_foldl_pair (fun _ _ _ => ?_) ?_
    | with_reducible refine kept_getD ?_ ?_
    | split
    | refine kept_of_pair (by with_reducible assumption) ?_
    | refine kept_of_some (by with_reducible assumption) ?_
    | (dsimp only [z]; try clear z)

theorem State.report_kept {s : State} {ev : Ev} (hs : s.kept q) :
    (State.report s ev).kept q := by
  unfold State.report
  repeat' first
    | with_reducible assumption
    | (with_reducible show State.kept z q; dsimp only [z]; clear z)
    | (intro z (hz : State.kept z q); try beta_reduce)
    | with_reducible refine State.reportAt_kept ?_
    | (intro z; refine have hz : State.kept z q := ?_; ?_)
    | (intro z; refine have hz : State.kept z.1 q := ?_; ?_)
    | intro z
    | lift_lets
    | with_reducible refine kept_choice ?_ (fun _ => ?_)
    | simp only [kept_mk, held_fields]
    | with_reducible refine kept_foldl (fun _ _ _ => ?_) ?_
    | with_reducible refine kept_foldl_pair (fun _ _ _ => ?_) ?_
    | with_reducible refine kept_getD ?_ ?_
    | split
    | refine kept_of_pair (by with_reducible assumption) ?_
    | refine kept_of_some (by with_reducible assumption) ?_
    | (dsimp only [z]; try clear z)

theorem State.accessErrorAt_kept {s : State} {at_ : DWord} {source inst cause path win : Nat} {p : Option PartNum} {addr : Option Nat} (hs : s.kept q) :
    (State.accessErrorAt s at_ source inst cause path win p addr).kept q := by
  unfold State.accessErrorAt
  repeat' first
    | with_reducible assumption
    | (with_reducible show State.kept z q; dsimp only [z]; clear z)
    | (intro z (hz : State.kept z q); try beta_reduce)
    | with_reducible refine State.reportAt_kept ?_
    | (intro z; refine have hz : State.kept z q := ?_; ?_)
    | (intro z; refine have hz : State.kept z.1 q := ?_; ?_)
    | intro z
    | lift_lets
    | with_reducible refine kept_choice ?_ (fun _ => ?_)
    | simp only [kept_mk, held_fields]
    | with_reducible refine kept_foldl (fun _ _ _ => ?_) ?_
    | with_reducible refine kept_foldl_pair (fun _ _ _ => ?_) ?_
    | with_reducible refine kept_getD ?_ ?_
    | split
    | refine kept_of_pair (by with_reducible assumption) ?_
    | refine kept_of_some (by with_reducible assumption) ?_
    | (dsimp only [z]; try clear z)

theorem State.accessError_kept {s : State} {source inst cause path win : Nat} {p : Option PartNum} {addr : Option Nat} (hs : s.kept q) :
    (State.accessError s source inst cause path win p addr).kept q := by
  unfold State.accessError
  repeat' first
    | with_reducible assumption
    | (with_reducible show State.kept z q; dsimp only [z]; clear z)
    | (intro z (hz : State.kept z q); try beta_reduce)
    | with_reducible refine State.accessErrorAt_kept ?_
    | (intro z; refine have hz : State.kept z q := ?_; ?_)
    | (intro z; refine have hz : State.kept z.1 q := ?_; ?_)
    | intro z
    | lift_lets
    | with_reducible refine kept_choice ?_ (fun _ => ?_)
    | simp only [kept_mk, held_fields]
    | with_reducible refine kept_foldl (fun _ _ _ => ?_) ?_
    | with_reducible refine kept_foldl_pair (fun _ _ _ => ?_) ?_
    | with_reducible refine kept_getD ?_ ?_
    | split
    | refine kept_of_pair (by with_reducible assumption) ?_
    | refine kept_of_some (by with_reducible assumption) ?_
    | (dsimp only [z]; try clear z)

theorem State.countEcc_kept {s : State} {w : Nat} {bad : Bool} (hs : s.kept q) :
    (State.countEcc s w bad).kept q := by
  unfold State.countEcc
  repeat' first
    | with_reducible assumption
    | (with_reducible show State.kept z q; dsimp only [z]; clear z)
    | (intro z (hz : State.kept z q); try beta_reduce)
    | with_reducible refine State.set_kept ?_
    | with_reducible refine State.bump_kept ?_
    | with_reducible refine State.raiseBit_kept ?_
    | (intro z; refine have hz : State.kept z q := ?_; ?_)
    | (intro z; refine have hz : State.kept z.1 q := ?_; ?_)
    | intro z
    | lift_lets
    | with_reducible refine kept_choice ?_ (fun _ => ?_)
    | simp only [kept_mk, held_fields]
    | with_reducible refine kept_foldl (fun _ _ _ => ?_) ?_
    | with_reducible refine kept_foldl_pair (fun _ _ _ => ?_) ?_
    | with_reducible refine kept_getD ?_ ?_
    | split
    | refine kept_of_pair (by with_reducible assumption) ?_
    | refine kept_of_some (by with_reducible assumption) ?_
    | (dsimp only [z]; try clear z)

theorem State.eccReport_kept {s : State} {w reader : Nat} {bad : Bool} (hs : s.kept q) :
    (State.eccReport s w reader bad).kept q := by
  unfold State.eccReport
  repeat' first
    | with_reducible assumption
    | (with_reducible show State.kept z q; dsimp only [z]; clear z)
    | (intro z (hz : State.kept z q); try beta_reduce)
    | with_reducible refine State.report_kept ?_
    | with_reducible refine State.countEcc_kept ?_
    | (intro z; refine have hz : State.kept z q := ?_; ?_)
    | (intro z; refine have hz : State.kept z.1 q := ?_; ?_)
    | intro z
    | lift_lets
    | with_reducible refine kept_choice ?_ (fun _ => ?_)
    | simp only [kept_mk, held_fields]
    | with_reducible refine kept_foldl (fun _ _ _ => ?_) ?_
    | with_reducible refine kept_foldl_pair (fun _ _ _ => ?_) ?_
    | with_reducible refine kept_getD ?_ ?_
    | split
    | refine kept_of_pair (by with_reducible assumption) ?_
    | refine kept_of_some (by with_reducible assumption) ?_
    | (dsimp only [z]; try clear z)

theorem State.correct_kept {s : State} {a n reader : Nat} (hs : s.kept q) :
    (State.correct s a n reader).kept q := by
  unfold State.correct
  repeat' first
    | with_reducible assumption
    | with_reducible refine State.eccReport_kept ?_
    | with_reducible refine kept_foldl (fun _ _ _ => ?_) ?_

theorem State.linkCheck_kept {s : State} {a n : Nat} (hs : s.kept q) :
    (State.linkCheck s a n).kept q := by
  unfold State.linkCheck
  repeat' first
    | with_reducible assumption
    | (with_reducible show State.kept z q; dsimp only [z]; clear z)
    | with_reducible refine State.bump_kept ?_
    | (intro z; refine have hz : State.kept z q := ?_; ?_)
    | intro z
    | lift_lets
    | simp only [kept_mk, held_fields]
    | with_reducible refine kept_foldl (fun _ _ _ => ?_) ?_

theorem State.countRead_kept {s : State} {a n : Nat} (hs : s.kept q) :
    (State.countRead s a n).kept q := by
  unfold State.countRead
  repeat' first
    | with_reducible assumption
    | with_reducible refine State.addTo_kept ?_
    | with_reducible refine State.linkCheck_kept ?_
    | split

theorem State.countWrite_kept {s : State} {a n : Nat} (hs : s.kept q) :
    (State.countWrite s a n).kept q := by
  unfold State.countWrite
  repeat' first
    | with_reducible assumption
    | with_reducible refine State.addTo_kept ?_
    | with_reducible refine State.linkCheck_kept ?_
    | split

theorem State.mergeReads_kept {s : State} {a n reader : Nat} (hs : s.kept q) :
    (State.mergeReads s a n reader).kept q := by
  unfold State.mergeReads
  repeat' first
    | with_reducible assumption
    | (with_reducible show State.kept z q; dsimp only [z]; clear z)
    | with_reducible refine State.eccReport_kept ?_
    | (intro z; refine have hz : State.kept z q := ?_; ?_)
    | intro z
    | lift_lets
    | with_reducible refine kept_foldl (fun _ _ _ => ?_) ?_

theorem State.countMerge_kept {s : State} {a n : Nat} (hs : s.kept q) :
    (State.countMerge s a n).kept q := by
  unfold State.countMerge
  repeat' first
    | with_reducible assumption
    | (with_reducible show State.kept z q; dsimp only [z]; clear z)
    | (intro z (hz : State.kept z q); try beta_reduce)
    | with_reducible refine State.addTo_kept ?_
    | (intro z; refine have hz : State.kept z q := ?_; ?_)
    | (intro z; refine have hz : State.kept z.1 q := ?_; ?_)
    | intro z
    | lift_lets
    | with_reducible refine kept_choice ?_ (fun _ => ?_)
    | simp only [kept_mk, held_fields]
    | with_reducible refine kept_foldl (fun _ _ _ => ?_) ?_
    | with_reducible refine kept_foldl_pair (fun _ _ _ => ?_) ?_
    | with_reducible refine kept_getD ?_ ?_
    | split
    | refine kept_of_pair (by with_reducible assumption) ?_
    | refine kept_of_some (by with_reducible assumption) ?_
    | (dsimp only [z]; try clear z)

theorem State.write_kept {s : State} {a : Nat} {bs : List Byte} (hs : s.kept q) :
    (State.write s a bs).kept q := by
  unfold State.write
  repeat' first
    | with_reducible assumption
    | (with_reducible show State.kept z q; dsimp only [z]; clear z)
    | (intro z (hz : State.kept z q); try beta_reduce)
    | with_reducible refine State.store_kept ?_
    | with_reducible refine State.countWrite_kept ?_
    | with_reducible refine State.mergeReads_kept ?_
    | with_reducible refine State.countMerge_kept ?_
    | (intro z; refine have hz : State.kept z q := ?_; ?_)
    | (intro z; refine have hz : State.kept z.1 q := ?_; ?_)
    | intro z
    | lift_lets
    | with_reducible refine kept_choice ?_ (fun _ => ?_)
    | simp only [kept_mk, held_fields]
    | with_reducible refine kept_foldl (fun _ _ _ => ?_) ?_
    | with_reducible refine kept_foldl_pair (fun _ _ _ => ?_) ?_
    | with_reducible refine kept_getD ?_ ?_
    | split
    | refine kept_of_pair (by with_reducible assumption) ?_
    | refine kept_of_some (by with_reducible assumption) ?_
    | (dsimp only [z]; try clear z)

theorem State.cfgWriteBusy_kept {s : State} {source inst : Nat} {p : Option PartNum} (hs : s.kept q) :
    (State.cfgWriteBusy s source inst p).kept q := by
  unfold State.cfgWriteBusy
  repeat' first
    | with_reducible assumption
    | with_reducible refine State.report_kept ?_

end Sys2Proof.Machine
end

