-- ==== Sys2Proof/Laws/KeptFlags.lean ====
section
/-!
SUPPORT. Every operation of Machine/Flags.lean keeps the canonical form of the four stores, and the
command queue.
-/

set_option linter.unusedSimpArgs false

namespace Sys2Proof.Machine

variable {q : List Instr}

theorem State.noteOverflow_kept {s : State} {n : ArrayNum} {b : Bool} (hs : s.kept q) :
    (State.noteOverflow s n b).kept q := by
  unfold State.noteOverflow
  repeat' first
    | with_reducible assumption
    | with_reducible refine State.raiseBit_kept ?_
    | with_reducible refine kept_choice ?_ (fun _ => ?_)

theorem State.noteConvSat_kept {s : State} {n : ArrayNum} {k : Nat} (hs : s.kept q) :
    (State.noteConvSat s n k).kept q := by
  unfold State.noteConvSat
  repeat' first
    | with_reducible assumption
    | with_reducible refine State.addTo_kept ?_
    | with_reducible refine State.raiseBit_kept ?_
    | with_reducible refine kept_choice ?_ (fun _ => ?_)

theorem State.noteConvNan_kept {s : State} {n : ArrayNum} {b : Bool} (hs : s.kept q) :
    (State.noteConvNan s n b).kept q := by
  unfold State.noteConvNan
  repeat' first
    | with_reducible assumption
    | with_reducible refine State.raiseBit_kept ?_
    | with_reducible refine kept_choice ?_ (fun _ => ?_)

theorem State.noteIntSat_kept {s : State} {n : ArrayNum} {any : Bool} {k : Nat} (hs : s.kept q) :
    (State.noteIntSat s n any k).kept q := by
  unfold State.noteIntSat
  repeat' first
    | with_reducible assumption
    | (with_reducible show State.kept z q; dsimp only [z]; clear z)
    | with_reducible refine State.addTo_kept ?_
    | with_reducible refine State.raiseBit_kept ?_
    | (intro z; refine have hz : State.kept z q := ?_; ?_)
    | lift_lets
    | with_reducible refine kept_choice ?_ (fun _ => ?_)

theorem State.noteNan_kept {s : State} {n : ArrayNum} {k : Nat} (hs : s.kept q) :
    (State.noteNan s n k).kept q := by
  unfold State.noteNan
  repeat' first
    | with_reducible assumption
    | (with_reducible show State.kept z q; dsimp only [z]; clear z)
    | with_reducible refine State.addTo_kept ?_
    | with_reducible refine State.raiseBit_kept ?_
    | with_reducible refine State.modArr_kept ?_
    | with_reducible refine State.report_kept ?_
    | (intro z; refine have hz : State.kept z q := ?_; ?_)
    | intro z
    | lift_lets
    | with_reducible refine kept_choice ?_ (fun _ => ?_)

end Sys2Proof.Machine
end

