-- ==== Sys2Proof/Laws/KeptIssue.lean ====
section
/-!
SUPPORT. Every operation of Machine/Issue.lean keeps the canonical form of the four stores, and the
command queue.
-/

set_option linter.unusedSimpArgs false

namespace Sys2Proof.Machine

variable {q : List Instr}

theorem State.applyStaged_kept {s : State} {key : Nat} {r : RegDef} (hs : s.kept q) :
    (State.applyStaged s key r).kept q := by
  unfold State.applyStaged
  repeat' first
    | with_reducible assumption
    | with_reducible refine State.set_kept ?_
    | lift_lets
    | with_reducible refine kept_choice ?_ (fun _ => ?_)
    | with_reducible refine kept_foldl (fun _ _ _ => ?_) ?_

theorem State.commitArray_kept {s : State} {n : ArrayNum} (hs : s.kept q) :
    (State.commitArray s n).kept q := by
  unfold State.commitArray
  repeat' first
    | with_reducible assumption
    | with_reducible refine State.applyStaged_kept ?_
    | lift_lets
    | with_reducible refine kept_foldl (fun _ _ _ => ?_) ?_

theorem State.commitIfFirst_kept {s : State} {n : ArrayNum} (hs : s.kept q) :
    (State.commitIfFirst s n).kept q := by
  unfold State.commitIfFirst
  repeat' first
    | with_reducible assumption
    | with_reducible refine State.modArr_kept ?_
    | with_reducible refine State.commitArray_kept ?_
    | with_reducible refine kept_choice ?_ (fun _ => ?_)

theorem State.detect_kept {s : State} {n : ArrayNum} {f : PendFault} (hs : s.kept q) :
    (State.detect s n f).kept q := by
  unfold State.detect
  repeat' first
    | with_reducible assumption
    | (with_reducible show State.kept z q; dsimp only [z]; clear z)
    | (intro z (hz : State.kept z q); try beta_reduce)
    | with_reducible refine State.modArr_kept ?_
    | (intro z; refine have hz : State.kept z q := ?_; ?_)
    | (intro z; refine have hz : State.kept z.1 q := ?_; ?_)
    | intro z
    | lift_lets
    | with_reducible refine kept_choice ?_ (fun _ => ?_)
    | simp only [kept_mk, held_fields]
    | with_reducible refine kept_foldl (fun _ _ _ => ?_) ?_
    | with_reducible refine kept_foldl_pair (fun _ _ _ => ?_) ?_
    | with_reducible refine kept_getD ?_ ?_
    | split
    | refine kept_of_pair (by with_reducible assumption) ?_
    | refine kept_of_some (by with_reducible assumption) ?_
    | (dsimp only [z]; try clear z)

theorem State.advance_kept {s : State} {n : ArrayNum} (hs : s.kept q) :
    (State.advance s n).kept q := by
  unfold State.advance
  repeat' first
    | with_reducible assumption
    | with_reducible refine State.modArr_kept ?_
    | with_reducible refine State.detect_kept ?_
    | intro z
    | lift_lets
    | with_reducible refine kept_choice ?_ (fun _ => ?_)

/-- What an issue comes to leaves keeps the stores canonical and the queue. -/
def IssueOut.kept (o : IssueOut) (q : List Instr) : Prop :=
  match o with
  | .done t => t.kept q
  | .goto t _ => t.kept q
  | .fault t _ _ => t.kept q

theorem issueOut_done {t : State} (h : t.kept q) : IssueOut.kept (.done t) q := h

theorem issueOut_goto {t : State} {pc : Nat} (h : t.kept q) : IssueOut.kept (.goto t pc) q := h

theorem issueOut_fault {t : State} {c a : Nat} (h : t.kept q) : IssueOut.kept (.fault t c a) q := h

theorem issueOut_choice {c : Prop} [Decidable c] {x y : IssueOut} (hx : x.kept q) (hy : y.kept q) :
    IssueOut.kept (if c then x else y) q := by
  by_cases h : c <;> simp [h, hx, hy]

theorem State.issueWord_kept {s : State} {n : ArrayNum} {word : Nat} {row : Insn → Option (State → IssueOut)}
    (h : s.kept q) (hr : ∀ i run u, row i = some run → u.kept q → (run u).kept q) :
    (State.issueWord s n word row).kept q := by
  unfold State.issueWord
  generalize decodeInsn word = d
  split
  · exact State.detect_kept h
  · split
    · exact h
    · rename_i run hrun
      refine kept_choice ?_ (fun _ => h)
      have h3 := hr _ _ _ hrun (State.commitIfFirst_kept (n := n) h)
      split <;> rename_i hrun'
      · exact State.advance_kept (State.modArr_kept (by rw [hrun'] at h3; exact h3))
      · exact State.modArr_kept (by rw [hrun'] at h3; exact h3)
      · exact State.detect_kept (by rw [hrun'] at h3; exact h3)

/-- Issue keeps the form when what the row's instruction does keeps it. -/
theorem State.issue_kept {s : State} {n : ArrayNum} {row : Insn → Option (State → IssueOut)} (h : s.kept q)
    (hr : ∀ i run u, row i = some run → u.kept q → (run u).kept q) : (State.issue s n row).kept q := by
  unfold State.issue
  refine kept_choice ?_ (fun _ => h)
  dsimp only
  refine kept_choice ?_ (fun _ => State.detect_kept h)
  cases s.badIn (spoolBase n + (s.arr n).pc) 16 with
  | some w => exact State.detect_kept (State.eccReport_kept h)
  | none => exact State.issueWord_kept (State.correct_kept h) hr

theorem State.unitRead_kept {s : State} {n : ArrayNum} {off len : Nat} (hs : s.kept q) :
    (State.unitRead s n off len).1.kept q := by
  unfold State.unitRead
  repeat' first
    | with_reducible assumption
    | with_reducible refine State.eccReport_kept ?_
    | with_reducible refine State.correct_kept ?_
    | split

theorem State.unitWrite_kept {s : State} {n : ArrayNum} {off : Nat} {bs : List Byte} (hs : s.kept q) :
    (State.unitWrite s n off bs).1.kept q := by
  unfold State.unitWrite
  repeat' first
    | with_reducible assumption
    | with_reducible refine State.store_kept ?_
    | with_reducible refine State.mergeReads_kept ?_

end Sys2Proof.Machine
end

