-- ==== Sys2Proof/Laws/KeptArrayControl.lean ====
section
/-!
SUPPORT. Every operation of Machine/ArrayControl.lean keeps the canonical form of the four stores, and the
command queue.
-/

set_option linter.unusedSimpArgs false

namespace Sys2Proof.Machine

variable {q : List Instr}

theorem State.setKnot_kept {s : State} {n : ArrayNum} {i : Nat} {v : Word} (hs : s.kept q) :
    (State.setKnot s n i v).kept q := by
  unfold State.setKnot
  repeat' first
    | with_reducible assumption
    | with_reducible refine State.modArr_kept ?_

theorem State.jumpTo_kept {s : State} {imm : Nat} (hs : s.kept q) :
    (State.jumpTo s imm).kept q := by
  unfold State.jumpTo
  repeat' first
    | with_reducible assumption
    | with_reducible refine issueOut_goto ?_
    | with_reducible refine issueOut_fault ?_
    | with_reducible refine issueOut_choice ?_ ?_

theorem execNop_kept {n : ArrayNum} {s : State} (hs : s.kept q) :
    Keeps q (execNop n s) := by
  unfold execNop
  repeat' first
    | with_reducible assumption
    | with_reducible refine keeps_next ?_
    | (intro i run u hr hu; (repeat' split at hr) <;> cases hr)
    | with_reducible refine issueOut_done ?_
    | with_reducible refine State.issue_kept ?_ ?_

theorem execEnd_kept {n : ArrayNum} {s : State} (hs : s.kept q) :
    Keeps q (execEnd n s) := by
  unfold execEnd
  repeat' first
    | with_reducible assumption
    | with_reducible refine keeps_next ?_
    | (intro i run u hr hu; (repeat' split at hr) <;> cases hr)
    | with_reducible refine issueOut_goto ?_
    | with_reducible refine State.modArr_kept ?_
    | with_reducible refine State.issue_kept ?_ ?_

theorem execJump_kept {n : ArrayNum} {s : State} (hs : s.kept q) :
    Keeps q (execJump n s) := by
  unfold execJump
  repeat' first
    | with_reducible assumption
    | with_reducible refine keeps_next ?_
    | (intro i run u hr hu; (repeat' split at hr) <;> cases hr)
    | with_reducible refine State.issue_kept ?_ ?_
    | with_reducible refine State.jumpTo_kept ?_

theorem loop_kept {x : IssueOut} {f : State → State} (h : x.kept q) (hf : ∀ t, t.kept q → (f t).kept q) :
    IssueOut.kept (match x with | .goto t pc => .goto (f t) pc | o => o) q := by
  cases x with
  | goto t pc => exact hf t h
  | done t => exact h
  | fault t c a => exact h

theorem execLoop_kept {n : ArrayNum} {s : State} (h : s.kept q) : Keeps q (execLoop n s) := by
  refine keeps_next (State.issue_kept h ?_)
  intro i run u hr hu
  split at hr <;> cases hr
  dsimp only
  refine issueOut_choice (issueOut_done hu) ?_
  exact loop_kept (State.jumpTo_kept hu) fun t ht => State.modArr_kept ht

theorem execSetc_kept {n : ArrayNum} {s : State} (hs : s.kept q) :
    Keeps q (execSetc n s) := by
  unfold execSetc
  repeat' first
    | with_reducible assumption
    | with_reducible refine keeps_next ?_
    | (intro i run u hr hu; (repeat' split at hr) <;> cases hr)
    | with_reducible refine issueOut_done ?_
    | with_reducible refine State.modArr_kept ?_
    | with_reducible refine State.issue_kept ?_ ?_

theorem execSeta_kept {n : ArrayNum} {s : State} (hs : s.kept q) :
    Keeps q (execSeta n s) := by
  unfold execSeta
  repeat' first
    | with_reducible assumption
    | with_reducible refine keeps_next ?_
    | (intro i run u hr hu; (repeat' split at hr) <;> cases hr)
    | with_reducible refine issueOut_done ?_
    | with_reducible refine State.modArr_kept ?_
    | with_reducible refine State.issue_kept ?_ ?_

theorem execAdda_kept {n : ArrayNum} {s : State} (hs : s.kept q) :
    Keeps q (execAdda n s) := by
  unfold execAdda
  repeat' first
    | with_reducible assumption
    | with_reducible refine keeps_next ?_
    | (intro i run u hr hu; (repeat' split at hr) <;> cases hr)
    | with_reducible refine issueOut_done ?_
    | with_reducible refine State.modArr_kept ?_
    | with_reducible refine State.issue_kept ?_ ?_

theorem execFence_kept {n : ArrayNum} {s : State} (hs : s.kept q) :
    Keeps q (execFence n s) := by
  unfold execFence
  repeat' first
    | with_reducible assumption
    | with_reducible refine keeps_next ?_
    | (intro i run u hr hu; (repeat' split at hr) <;> cases hr)
    | with_reducible refine issueOut_done ?_
    | with_reducible refine State.issue_kept ?_ ?_

theorem execKwait_kept {n : ArrayNum} {s : State} (hs : s.kept q) :
    Keeps q (execKwait n s) := by
  unfold execKwait
  repeat' first
    | with_reducible assumption
    | with_reducible refine keeps_next ?_
    | (intro i run u hr hu; (repeat' split at hr) <;> cases hr)
    | with_reducible refine issueOut_done ?_
    | with_reducible refine issueOut_goto ?_
    | with_reducible refine issueOut_choice ?_ ?_
    | with_reducible refine State.modArr_kept ?_
    | with_reducible refine State.issue_kept ?_ ?_

theorem execKwaitSatisfied_kept {n : ArrayNum} {s : State} (hs : s.kept q) :
    Keeps q (execKwaitSatisfied n s) := by
  unfold execKwaitSatisfied
  repeat' first
    | with_reducible assumption
    | (with_reducible show Keeps _ _; lift_lets)
    | with_reducible refine keeps_next ?_
    | with_reducible exact keeps_fault
    | with_reducible refine keeps_choice ?_ ?_
    | (with_reducible show State.kept z q; dsimp only [z]; clear z)
    | (intro z (hz : State.kept z q); try beta_reduce)
    | with_reducible refine State.modArr_kept ?_
    | with_reducible refine State.advance_kept ?_
    | (intro z; refine have hz : State.kept z q := ?_; ?_)
    | (intro z; refine have hz : State.kept z.1 q := ?_; ?_)
    | intro z
    | lift_lets
    | with_reducible refine kept_choice ?_ (fun _ => ?_)
    | simp only [kept_mk, held_fields]
    | with_reducible refine kept_foldl (fun _ _ _ => ?_) ?_
    | with_reducible refine kept_foldl_pair (fun _ _ _ => ?_) ?_
    | with_reducible refine kept_getD ?_ ?_
    | split
    | refine kept_of_pair (by with_reducible assumption) ?_
    | refine kept_of_some (by with_reducible assumption) ?_
    | (dsimp only [z]; try clear z)

theorem execKnotTimeout_kept {n : ArrayNum} {s : State} (hs : s.kept q) :
    Keeps q (execKnotTimeout n s) := by
  unfold execKnotTimeout
  repeat' first
    | with_reducible assumption
    | with_reducible refine keeps_next ?_
    | with_reducible refine State.modArr_kept ?_
    | with_reducible refine State.detect_kept ?_
    | lift_lets
    | with_reducible refine kept_choice ?_ (fun _ => ?_)
    | split

end Sys2Proof.Machine
end

