-- ==== Sys2Proof/Laws/KeptCommands.lean ====
section
/-!
SUPPORT. Every operation of Machine/Commands.lean keeps the canonical form of the four stores, and the
command queue.
-/

set_option linter.unusedSimpArgs false

namespace Sys2Proof.Machine

variable {q : List Instr}

theorem State.modCmd_kept {s : State} {c : CmdRef} {f : Cmd → Cmd} (hs : s.kept q) :
    (State.modCmd s c f).kept q := by
  unfold State.modCmd
  repeat' first
    | with_reducible assumption
    | intro z
    | lift_lets
    | simp only [kept_mk, held_fields]

theorem State.ledger_kept {s : State} {e : LedgerEntry} (hs : s.kept q) :
    (State.ledger s e).kept q := by
  unfold State.ledger
  repeat' first
    | with_reducible assumption
    | (with_reducible show State.kept z q; dsimp only [z]; clear z)
    | (intro z (hz : State.kept z q); try beta_reduce)
    | (intro z; refine have hz : State.kept z q := ?_; ?_)
    | (intro z; refine have hz : State.kept z.1 q := ?_; ?_)
    | intro z
    | lift_lets
    | with_reducible refine kept_choice ?_ (fun _ => ?_)
    | simp only [kept_mk, held_fields]
    | with_reducible refine kept_foldl (fun _ _ _ => ?_) ?_
    | with_reducible refine kept_foldl_pair (fun _ _ _ => ?_) ?_
    | with_reducible refine kept_getD ?_ ?_
    | split
    | refine kept_of_pair (by with_reducible assumption) ?_
    | refine kept_of_some (by with_reducible assumption) ?_
    | (dsimp only [z]; try clear z)

theorem State.complete_kept {s : State} {c : CmdRef} {status : Nat} {result : List Byte} (hs : s.kept q) :
    (State.complete s c status result).kept q := by
  unfold State.complete
  repeat' first
    | with_reducible assumption
    | (with_reducible show State.kept z q; dsimp only [z]; clear z)
    | (intro z (hz : State.kept z q); try beta_reduce)
    | with_reducible refine State.modCmd_kept ?_
    | with_reducible refine State.ledger_kept ?_
    | (intro z; refine have hz : State.kept z q := ?_; ?_)
    | (intro z; refine have hz : State.kept z.1 q := ?_; ?_)
    | intro z
    | lift_lets
    | with_reducible refine kept_choice ?_ (fun _ => ?_)
    | simp only [kept_mk, held_fields]
    | with_reducible refine kept_foldl (fun _ _ _ => ?_) ?_
    | with_reducible refine kept_foldl_pair (fun _ _ _ => ?_) ?_
    | with_reducible refine kept_getD ?_ ?_
    | split
    | refine kept_of_pair (by with_reducible assumption) ?_
    | refine kept_of_some (by with_reducible assumption) ?_
    | (dsimp only [z]; try clear z)

theorem State.park_kept {s : State} {c : CmdRef} {w : Wait} (hs : s.kept q) :
    (State.park s c w).kept q := by
  unfold State.park
  repeat' first
    | with_reducible assumption
    | (with_reducible show State.kept z q; dsimp only [z]; clear z)
    | (intro z (hz : State.kept z q); try beta_reduce)
    | with_reducible refine State.modCmd_kept ?_
    | with_reducible refine State.ledger_kept ?_
    | (intro z; refine have hz : State.kept z q := ?_; ?_)
    | (intro z; refine have hz : State.kept z.1 q := ?_; ?_)
    | intro z
    | lift_lets
    | with_reducible refine kept_choice ?_ (fun _ => ?_)
    | simp only [kept_mk, held_fields]
    | with_reducible refine kept_foldl (fun _ _ _ => ?_) ?_
    | with_reducible refine kept_foldl_pair (fun _ _ _ => ?_) ?_
    | with_reducible refine kept_getD ?_ ?_
    | split
    | refine kept_of_pair (by with_reducible assumption) ?_
    | refine kept_of_some (by with_reducible assumption) ?_
    | (dsimp only [z]; try clear z)

theorem State.runCmd_kept {s : State} {c : CmdRef} {op : Nat} {f : Cmd → State → State} (hs : s.kept q)
    (hf : ∀ x0 t, t.kept q → (f x0 t).kept q) :
    (State.runCmd s c op f).kept q := by
  unfold State.runCmd
  repeat' first
    | with_reducible assumption
    | with_reducible apply hf
    | with_reducible refine kept_choice ?_ (fun _ => ?_)
    | split

theorem State.runPart_kept {s : State} {c : CmdRef} {op : Nat} {f : Cmd → PartNum → State → State} (hs : s.kept q)
    (hf : ∀ x0 x1 t, t.kept q → (f x0 x1 t).kept q) :
    (State.runPart s c op f).kept q := by
  unfold State.runPart
  repeat' first
    | with_reducible assumption
    | with_reducible refine State.complete_kept ?_
    | with_reducible refine State.runCmd_kept ?_ ?_
    | with_reducible apply hf
    | (intro z (hz : State.kept z q); try beta_reduce)
    | intro z
    | split

theorem State.settleKernels_kept {s : State} (hs : s.kept q) :
    (State.settleKernels s).kept q := by
  unfold State.settleKernels
  repeat' first
    | with_reducible assumption
    | with_reducible refine State.complete_kept ?_
    | lift_lets
    | with_reducible refine kept_choice ?_ (fun _ => ?_)
    | with_reducible refine kept_foldl (fun _ _ _ => ?_) ?_
    | split

theorem State.noteFaulted_kept {s : State} {n : ArrayNum} (hs : s.kept q) :
    (State.noteFaulted s n).kept q := by
  unfold State.noteFaulted
  repeat' first
    | with_reducible assumption
    | intro z
    | lift_lets
    | simp only [kept_mk, held_fields]

theorem State.settleReleases_kept {s : State} (hs : s.kept q) :
    (State.settleReleases s).kept q := by
  unfold State.settleReleases
  repeat' first
    | with_reducible assumption
    | with_reducible refine State.complete_kept ?_
    | lift_lets
    | with_reducible refine kept_choice ?_ (fun _ => ?_)
    | with_reducible refine kept_foldl (fun _ _ _ => ?_) ?_
    | split

end Sys2Proof.Machine
end

