-- ==== Sys2Proof/Laws/KeptClaims.lean ====
section
/-!
SUPPORT. Every operation of Machine/Claims.lean keeps the canonical form of the four stores, and the
command queue.
-/

set_option linter.unusedSimpArgs false

namespace Sys2Proof.Machine

variable {q : List Instr}

theorem State.setHalfState_kept {s : State} {h : Half} {v : Nat} (hs : s.kept q) :
    (State.setHalfState s h v).kept q := by
  unfold State.setHalfState
  repeat' first
    | with_reducible assumption
    | with_reducible refine State.set_kept ?_
    | split

theorem State.setClaim_kept {s : State} {h : Half} {v : Nat} (hs : s.kept q) :
    (State.setClaim s h v).kept q := by
  unfold State.setClaim
  repeat' first
    | with_reducible assumption
    | with_reducible refine State.set_kept ?_
    | split

theorem State.twinEvent_kept {s : State} {h : Half} {severity status cause claim gap : Nat} (hs : s.kept q) :
    (State.twinEvent s h severity status cause claim gap).kept q := by
  unfold State.twinEvent
  repeat' first
    | with_reducible assumption
    | with_reducible refine State.report_kept ?_

theorem State.powerDownHalf_kept {s : State} {h : Half} (hs : s.kept q) :
    (State.powerDownHalf s h).kept q := by
  unfold State.powerDownHalf
  repeat' first
    | with_reducible assumption
    | intro z
    | lift_lets
    | simp only [kept_mk, held_fields]

theorem State.powerUpHalf_kept {s : State} {h : Half} (hs : s.kept q) :
    (State.powerUpHalf s h).kept q := by
  unfold State.powerUpHalf
  repeat' first
    | with_reducible assumption
    | intro z
    | lift_lets
    | simp only [kept_mk, held_fields]

theorem State.quarantine_kept {s : State} {h : Half} {cause : Nat} (hs : s.kept q) :
    (State.quarantine s h cause).kept q := by
  unfold State.quarantine
  repeat' first
    | with_reducible assumption
    | (with_reducible show State.kept z q; dsimp only [z]; clear z)
    | with_reducible refine State.set_kept ?_
    | with_reducible refine State.setHalfState_kept ?_
    | with_reducible refine State.powerDownHalf_kept ?_
    | (intro z; refine have hz : State.kept z q := ?_; ?_)
    | intro z
    | lift_lets
    | with_reducible refine kept_choice ?_ (fun _ => ?_)
    | simp only [kept_mk, held_fields]
    | split

theorem State.stopModule_kept {s : State} {code : Nat} (hs : s.kept q) :
    (State.stopModule s code).kept q := by
  unfold State.stopModule
  repeat' first
    | with_reducible assumption
    | (with_reducible show State.kept z q; dsimp only [z]; clear z)
    | with_reducible refine State.set_kept ?_
    | (intro z; refine have hz : State.kept z q := ?_; ?_)
    | intro z
    | lift_lets
    | with_reducible refine kept_choice ?_ (fun _ => ?_)
    | simp only [kept_mk, held_fields]

theorem State.gateReject_kept {s : State} {h : Half} {claim g : Nat} (hs : s.kept q) :
    (State.gateReject s h claim g).kept q := by
  unfold State.gateReject
  repeat' first
    | with_reducible assumption
    | (with_reducible show State.kept z q; dsimp only [z]; clear z)
    | with_reducible refine State.bump_kept ?_
    | with_reducible refine State.raiseBit_kept ?_
    | with_reducible refine State.twinEvent_kept ?_
    | with_reducible refine State.quarantine_kept ?_
    | (intro z; refine have hz : State.kept z q := ?_; ?_)
    | intro z
    | lift_lets
    | with_reducible refine kept_choice ?_ (fun _ => ?_)
    | simp only [kept_mk, held_fields]

theorem State.gated_kept {s : State} {h : Half} {g : Nat} {accept : State → State} (hs : s.kept q)
    (haccept : ∀ t, t.kept q → (accept t).kept q) :
    (State.gated s h g accept).kept q := by
  unfold State.gated
  repeat' first
    | with_reducible assumption
    | with_reducible refine State.gateReject_kept ?_
    | with_reducible apply haccept
    | intro z
    | lift_lets
    | with_reducible refine kept_choice ?_ (fun _ => ?_)

end Sys2Proof.Machine
end

