-- ==== Sys2Proof/Laws/KeptGrid.lean ====
section
/-!
SUPPORT. Every operation of Machine/Grid.lean keeps the canonical form of the four stores, and the
command queue.
-/

set_option linter.unusedSimpArgs false

namespace Sys2Proof.Machine

variable {q : List Instr}

theorem State.stagePlane_kept {s : State} {n : ArrayNum} {pair : Fin 11} {bank : Fin 2} {plane : Nat} {src : PlaneSrc} (hs : s.kept q) :
    (State.stagePlane s n pair bank plane src).1.kept q := by
  unfold State.stagePlane
  repeat' first
    | with_reducible assumption
    | (with_reducible show State.kept z q; dsimp only [z]; clear z)
    | with_reducible refine State.addTo_kept ?_
    | with_reducible refine State.modArr_kept ?_
    | with_reducible refine State.eccReport_kept ?_
    | with_reducible refine State.correct_kept ?_
    | with_reducible refine State.countRead_kept ?_
    | (intro z; refine have hz : State.kept z q := ?_; ?_)
    | intro z
    | lift_lets
    | with_reducible refine kept_foldl (fun _ _ _ => ?_) ?_
    | split

theorem State.stagePlanes_kept {n : ArrayNum} {pair : Fin 11} {bank : Fin 2} {l : List PlaneSrc} :
    ∀ {s : State} {p : Nat}, s.kept q → (State.stagePlanes s n pair bank p l).1.kept q := by
  induction l with
  | nil => intro s p h; exact h
  | cons src rest ih =>
    intro s p h
    have h1 := State.stagePlane_kept (n := n) (pair := pair) (bank := bank) (plane := p) (src := src) h
    unfold State.stagePlanes
    split
    · exact ih (kept_of_pair ‹_› h1)
    · exact h1

theorem State.enqueueStg_kept {s : State} {n : ArrayNum} {op : StgOp} (hs : s.kept q) :
    (State.enqueueStg s n op).kept q := by
  unfold State.enqueueStg
  repeat' first
    | with_reducible assumption
    | with_reducible refine State.modArr_kept ?_

theorem execStg_kept {n : ArrayNum} {s : State} (hs : s.kept q) :
    Keeps q (execStg n s) := by
  unfold execStg
  repeat' first
    | with_reducible assumption
    | (with_reducible show Keeps _ _; lift_lets)
    | with_reducible refine keeps_next ?_
    | (intro i run u hr hu; (repeat' split at hr) <;> cases hr)
    | with_reducible refine issueOut_done ?_
    | with_reducible refine issueOut_fault ?_
    | with_reducible refine issueOut_choice ?_ ?_
    | with_reducible refine State.issue_kept ?_ ?_
    | with_reducible refine State.enqueueStg_kept ?_
    | lift_lets
    | simp only [kept_mk, held_fields]
    | split

theorem execStagingDone_kept {n : ArrayNum} {s : State} (hs : s.kept q) :
    Keeps q (execStagingDone n s) := by
  unfold execStagingDone
  repeat' first
    | with_reducible assumption
    | (with_reducible show Keeps _ _; lift_lets)
    | with_reducible refine keeps_next ?_
    | with_reducible refine State.modArr_kept ?_
    | with_reducible refine State.detect_kept ?_
    | with_reducible refine State.stagePlanes_kept ?_
    | lift_lets
    | with_reducible refine kept_choice ?_ (fun _ => ?_)
    | simp only [kept_mk, held_fields]
    | split

theorem State.passRow_kept {s : State} {n : ArrayNum} {off align len : Nat} (hs : s.kept q) :
    (State.passRow s n off align len).1.kept q := by
  unfold State.passRow
  repeat' first
    | with_reducible assumption
    | with_reducible refine State.unitRead_kept ?_
    | simp only [kept_mk, held_fields]
    | split
    | refine kept_of_pair (by with_reducible assumption) ?_

theorem State.passRows_kept {n : ArrayNum} {o : MmaOps} {p : PairInfo} {m : Nat} :
    ∀ {s : State} {i : Nat}, s.kept q → (State.passRows s n o p m i).1.kept q := by
  induction m with
  | zero => intro s i h; exact h
  | succ m ih =>
    intro s i h
    unfold State.passRows
    dsimp only
    split
    · exact kept_of_pair ‹_› (State.passRow_kept h)
    · have h1 := kept_of_pair ‹_› (State.passRow_kept h)
      split <;> rename_i h2
      · refine kept_of_pair h2 ?_
        split
        · exact h1
        · exact State.passRow_kept h1
      · have h3 : State.kept _ q := kept_of_pair h2 (by split; exact h1; exact State.passRow_kept h1)
        split
        · exact kept_of_pair ‹_› (ih h3)
        · exact kept_of_pair ‹_› (ih h3)

theorem execMma_kept {n : ArrayNum} {s : State} (hs : s.kept q) :
    Keeps q (execMma n s) := by
  unfold execMma
  repeat' first
    | with_reducible assumption
    | (with_reducible show Keeps _ _; lift_lets)
    | with_reducible refine keeps_next ?_
    | (intro i run u hr hu; (repeat' split at hr) <;> cases hr)
    | with_reducible refine issueOut_done ?_
    | with_reducible refine issueOut_fault ?_
    | with_reducible refine issueOut_choice ?_ ?_
    | with_reducible refine State.modArr_kept ?_
    | with_reducible refine State.issue_kept ?_ ?_
    | with_reducible refine State.passRows_kept ?_
    | lift_lets
    | simp only [kept_mk, held_fields]
    | split
    | refine kept_of_pair (by with_reducible assumption) ?_

theorem execAccumulatorLanding_kept {n : ArrayNum} {s : State} (hs : s.kept q) :
    Keeps q (execAccumulatorLanding n s) := by
  unfold execAccumulatorLanding
  repeat' first
    | with_reducible assumption
    | (with_reducible show Keeps _ _; lift_lets)
    | with_reducible refine keeps_next ?_
    | with_reducible exact keeps_fault
    | with_reducible refine keeps_choice ?_ ?_
    | (with_reducible show State.kept z q; dsimp only [z]; clear z)
    | (intro z (hz : State.kept z q); try beta_reduce)
    | with_reducible refine State.addTo_kept ?_
    | with_reducible refine State.modArr_kept ?_
    | with_reducible refine State.noteOverflow_kept ?_
    | with_reducible refine State.noteIntSat_kept ?_
    | (intro z; refine have hz : State.kept z q := ?_; ?_)
    | (intro z; refine have hz : State.kept z.1 q := ?_; ?_)
    | intro z
    | lift_lets
    | with_reducible refine kept_choice ?_ (fun _ => ?_)
    | simp only [kept_mk, held_fields]
    | with_reducible refine kept_foldl (fun _ _ _ => ?_) ?_
    | with_reducible refine kept_foldl_pair (fun _ _ _ => ?_) ?_
    | with_reducible refine kept_getD ?_ ?_
    | split
    | refine kept_of_pair (by with_reducible assumption) ?_
    | refine kept_of_some (by with_reducible assumption) ?_
    | (dsimp only [z]; try clear z)

end Sys2Proof.Machine
end

