-- ==== Sys2Proof/Laws/KeptConvert.lean ====
section
/-!
SUPPORT. Every operation of Machine/Convert.lean keeps the canonical form of the four stores, and the
command queue.
-/

set_option linter.unusedSimpArgs false

namespace Sys2Proof.Machine

variable {q : List Instr}

theorem execCvt_kept {n : ArrayNum} {s : State} (hs : s.kept q) :
    Keeps q (execCvt n s) := by
  unfold execCvt
  repeat' first
    | with_reducible assumption
    | (with_reducible show Keeps _ _; lift_lets)
    | with_reducible refine keeps_next ?_
    | (intro i run u hr hu; (repeat' split at hr) <;> cases hr)
    | with_reducible refine issueOut_done ?_
    | with_reducible refine issueOut_fault ?_
    | with_reducible refine issueOut_choice ?_ ?_
    | with_reducible refine State.noteConvSat_kept ?_
    | with_reducible refine State.noteConvNan_kept ?_
    | with_reducible refine State.noteNan_kept ?_
    | with_reducible refine State.issue_kept ?_ ?_
    | with_reducible refine State.unitWrite_kept ?_
    | lift_lets
    | split

theorem execLoad_kept {n : ArrayNum} {s : State} (hs : s.kept q) :
    Keeps q (execLoad n s) := by
  unfold execLoad
  repeat' first
    | with_reducible assumption
    | (with_reducible show Keeps _ _; lift_lets)
    | with_reducible refine keeps_next ?_
    | (intro i run u hr hu; (repeat' split at hr) <;> cases hr)
    | with_reducible refine issueOut_done ?_
    | with_reducible refine issueOut_fault ?_
    | with_reducible refine issueOut_choice ?_ ?_
    | with_reducible refine State.modArr_kept ?_
    | with_reducible refine State.issue_kept ?_ ?_
    | with_reducible refine State.unitRead_kept ?_
    | lift_lets
    | simp only [kept_mk, held_fields]
    | split
    | refine kept_of_pair (by with_reducible assumption) ?_

theorem execAccrd_kept {n : ArrayNum} {s : State} (hs : s.kept q) :
    Keeps q (execAccrd n s) := by
  unfold execAccrd
  repeat' first
    | with_reducible assumption
    | with_reducible refine keeps_next ?_
    | (intro i run u hr hu; (repeat' split at hr) <;> cases hr)
    | with_reducible refine issueOut_done ?_
    | with_reducible refine issueOut_fault ?_
    | with_reducible refine State.modArr_kept ?_
    | with_reducible refine State.issue_kept ?_ ?_
    | simp only [kept_mk, held_fields]
    | split

end Sys2Proof.Machine
end

