-- ==== Sys2Proof/Laws/KeptRemote.lean ====
section
/-!
SUPPORT. Every operation of Machine/Remote.lean keeps the canonical form of the four stores, and the
command queue.
-/

set_option linter.unusedSimpArgs false

namespace Sys2Proof.Machine

variable {q : List Instr}

theorem State.issueRmo_kept {s : State} {n : ArrayNum} {o : RmoOps} (hs : s.kept q) :
    IssueOut.kept (State.issueRmo s n o) q := by
  unfold State.issueRmo
  repeat' first
    | with_reducible assumption
    | (with_reducible show IssueOut.kept _ _; lift_lets)
    | with_reducible refine issueOut_done ?_
    | with_reducible refine issueOut_goto ?_
    | with_reducible refine issueOut_fault ?_
    | with_reducible refine issueOut_choice ?_ ?_
    | (with_reducible show State.kept z q; dsimp only [z]; clear z)
    | (intro z (hz : State.kept z q); try beta_reduce)
    | with_reducible refine State.modArr_kept ?_
    | (intro z; refine have hz : State.kept z q := ?_; ?_)
    | (intro z; refine have hz : State.kept z.1 q := ?_; ?_)
    | intro z
    | lift_lets
    | with_reducible refine kept_choice ?_ (fun _ => ?_)
    | simp only [kept_mk, held_fields]
    | with_reducible refine kept_foldl (fun _ _ _ => ?_) ?_
    | with_reducible refine kept_foldl_pair (fun _ _ _ => ?_) ?_
    | with_reducible refine kept_getD ?_ ?_
    | split
    | refine kept_of_pair (by with_reducible assumption) ?_
    | refine kept_of_some (by with_reducible assumption) ?_
    | (dsimp only [z]; try clear z)

theorem State.issueRmoKind_kept {s : State} {n : ArrayNum} {k : RmoKind} (hs : s.kept q) :
    (State.issueRmoKind s n k).kept q := by
  unfold State.issueRmoKind
  repeat' first
    | with_reducible assumption
    | (intro i run u hr hu; (repeat' split at hr) <;> cases hr)
    | with_reducible refine State.issue_kept ?_ ?_
    | with_reducible refine State.issueRmo_kept ?_

theorem execPut_kept {n : ArrayNum} {s : State} (hs : s.kept q) :
    Keeps q (execPut n s) := by
  unfold execPut
  repeat' first
    | with_reducible assumption
    | with_reducible refine keeps_next ?_
    | with_reducible refine State.issueRmoKind_kept ?_

theorem execGet_kept {n : ArrayNum} {s : State} (hs : s.kept q) :
    Keeps q (execGet n s) := by
  unfold execGet
  repeat' first
    | with_reducible assumption
    | with_reducible refine keeps_next ?_
    | with_reducible refine State.issueRmoKind_kept ?_

theorem execPutWithKnotSignal_kept {n : ArrayNum} {s : State} (hs : s.kept q) :
    Keeps q (execPutWithKnotSignal n s) := by
  unfold execPutWithKnotSignal
  repeat' first
    | with_reducible assumption
    | with_reducible refine keeps_next ?_
    | with_reducible refine State.issueRmoKind_kept ?_

theorem execAtomicAdd_kept {n : ArrayNum} {s : State} (hs : s.kept q) :
    Keeps q (execAtomicAdd n s) := by
  unfold execAtomicAdd
  repeat' first
    | with_reducible assumption
    | with_reducible refine keeps_next ?_
    | with_reducible refine State.issueRmoKind_kept ?_

theorem State.incKnot_kept {s : State} {n : ArrayNum} {i : Nat} {by_ : Nat} (hs : s.kept q) :
    (State.incKnot s n i by_).kept q := by
  unfold State.incKnot
  repeat' first
    | with_reducible assumption
    | with_reducible refine State.setKnot_kept ?_

theorem State.incKnot17_kept {s : State} {k : Nat} (hs : s.kept q) :
    (State.incKnot17 s k).kept q := by
  unfold State.incKnot17
  repeat' first
    | with_reducible assumption
    | with_reducible refine State.incKnot_kept ?_
    | split

theorem State.rmoFailed_kept {s : State} {n : ArrayNum} {op : RmoOp} {cause : Option Nat} (hs : s.kept q) :
    (State.rmoFailed s n op cause).kept q := by
  unfold State.rmoFailed
  repeat' first
    | with_reducible assumption
    | (with_reducible show State.kept z q; dsimp only [z]; clear z)
    | (intro z (hz : State.kept z q); try beta_reduce)
    | with_reducible refine State.set_kept ?_
    | with_reducible refine State.bump_kept ?_
    | with_reducible refine State.raiseBit_kept ?_
    | with_reducible refine State.accessErrorAt_kept ?_
    | (intro z; refine have hz : State.kept z q := ?_; ?_)
    | (intro z; refine have hz : State.kept z.1 q := ?_; ?_)
    | intro z
    | lift_lets
    | with_reducible refine kept_choice ?_ (fun _ => ?_)
    | simp only [kept_mk, held_fields]
    | with_reducible refine kept_foldl (fun _ _ _ => ?_) ?_
    | with_reducible refine kept_foldl_pair (fun _ _ _ => ?_) ?_
    | with_reducible refine kept_getD ?_ ?_
    | split
    | refine kept_of_pair (by with_reducible assumption) ?_
    | refine kept_of_some (by with_reducible assumption) ?_
    | (dsimp only [z]; try clear z)

theorem State.remoteStore_kept {s : State} {a : Nat} {bs : List Byte} (hs : s.kept q) :
    (State.remoteStore s a bs).kept q := by
  unfold State.remoteStore
  repeat' first
    | with_reducible assumption
    | with_reducible refine State.store_kept ?_
    | with_reducible refine State.pcieStore_kept ?_
    | with_reducible refine State.countWrite_kept ?_
    | split

theorem State.signalKnot_kept {s : State} {op : RmoOp} (hs : s.kept q) :
    (State.signalKnot s op).kept q := by
  unfold State.signalKnot
  repeat' first
    | with_reducible assumption
    | with_reducible refine State.send_kept ?_
    | with_reducible refine State.incKnot17_kept ?_
    | with_reducible refine kept_choice ?_ (fun _ => ?_)
    | split

theorem State.choose_kept {s : State} {opts : List (List Byte)} (hs : s.kept q) :
    (State.choose s opts).1.kept q := by
  unfold State.choose
  repeat' first
    | with_reducible assumption
    | simp only [kept_mk, held_fields]
    | split

theorem State.sourceLines_kept {s : State} {n : ArrayNum} {op : RmoOp} {now : List Byte} (hs : s.kept q) :
    (State.sourceLines s n op now).1.kept q := by
  unfold State.sourceLines
  repeat' first
    | with_reducible assumption
    | (with_reducible show State.kept z q; dsimp only [z]; clear z)
    | (intro z (hz : State.kept z q); try beta_reduce)
    | with_reducible refine State.choose_kept ?_
    | (intro z; refine have hz : State.kept z q := ?_; ?_)
    | (intro z; refine have hz : State.kept z.1 q := ?_; ?_)
    | intro z
    | lift_lets
    | with_reducible refine kept_choice ?_ (fun _ => ?_)
    | simp only [kept_mk, held_fields]
    | with_reducible refine kept_foldl (fun _ _ _ => ?_) ?_
    | with_reducible refine kept_foldl_pair (fun _ _ _ => ?_) ?_
    | with_reducible refine kept_getD ?_ ?_
    | split
    | refine kept_of_pair (by with_reducible assumption) ?_
    | refine kept_of_some (by with_reducible assumption) ?_
    | (dsimp only [z]; try clear z)

theorem State.targetLines_kept {s : State} {n : ArrayNum} {op : RmoOp} {old new : List Byte} (hs : s.kept q) :
    (State.targetLines s n op old new).1.kept q := by
  unfold State.targetLines
  repeat' first
    | with_reducible assumption
    | with_reducible refine State.choose_kept ?_
    | simp only [kept_mk, held_fields]
    | with_reducible refine kept_foldl_pair (fun _ _ _ => ?_) ?_
    | split

theorem State.sendLocal_kept {s : State} {n : ArrayNum} {op : RmoOp} {nans : List Byte → Nat} (hs : s.kept q) :
    (State.sendLocal s n op nans).1.kept q := by
  unfold State.sendLocal
  repeat' first
    | with_reducible assumption
    | with_reducible refine State.noteNan_kept ?_
    | with_reducible refine State.detect_kept ?_
    | with_reducible refine State.unitRead_kept ?_
    | with_reducible refine State.sourceLines_kept ?_
    | lift_lets
    | simp only [kept_mk, held_fields]
    | split
    | refine kept_of_pair (by with_reducible assumption) ?_

theorem State.getStore_kept {s : State} {n : ArrayNum} {op : RmoOp} {good : Nat} (hs : s.kept q) :
    (State.getStore s n op good).kept q := by
  unfold State.getStore
  repeat' first
    | with_reducible assumption
    | with_reducible refine State.store_kept ?_
    | with_reducible refine State.countRead_kept ?_
    | with_reducible refine State.sourceLines_kept ?_
    | with_reducible refine State.targetLines_kept ?_

theorem State.putLines_kept {s : State} {n : ArrayNum} {op : RmoOp} {bs : List Byte} (hs : s.kept q) :
    (State.putLines s n op bs).kept q := by
  unfold State.putLines
  repeat' first
    | with_reducible assumption
    | with_reducible refine State.remoteStore_kept ?_
    | with_reducible refine State.targetLines_kept ?_

theorem State.completeRmo_kept {s : State} {n : ArrayNum} {op : RmoOp} {got : Option Nat} (hs : s.kept q) :
    (State.completeRmo s n op got).kept q := by
  unfold State.completeRmo
  repeat' first
    | with_reducible assumption
    | (with_reducible show State.kept z q; dsimp only [z]; clear z)
    | (intro z (hz : State.kept z q); try beta_reduce)
    | with_reducible refine State.store_kept ?_
    | with_reducible refine State.eccReport_kept ?_
    | with_reducible refine State.correct_kept ?_
    | with_reducible refine State.linkCheck_kept ?_
    | with_reducible refine State.countRead_kept ?_
    | with_reducible refine State.countWrite_kept ?_
    | with_reducible refine State.rmoFailed_kept ?_
    | with_reducible refine State.signalKnot_kept ?_
    | with_reducible refine State.targetLines_kept ?_
    | with_reducible refine State.sendLocal_kept ?_
    | with_reducible refine State.getStore_kept ?_
    | with_reducible refine State.putLines_kept ?_
    | (intro z; refine have hz : State.kept z q := ?_; ?_)
    | (intro z; refine have hz : State.kept z.1 q := ?_; ?_)
    | intro z
    | lift_lets
    | with_reducible refine kept_choice ?_ (fun _ => ?_)
    | simp only [kept_mk, held_fields]
    | with_reducible refine kept_foldl (fun _ _ _ => ?_) ?_
    | with_reducible refine kept_foldl_pair (fun _ _ _ => ?_) ?_
    | with_reducible refine kept_getD ?_ ?_
    | split
    | refine kept_of_pair (by with_reducible assumption) ?_
    | refine kept_of_some (by with_reducible assumption) ?_
    | (dsimp only [z]; try clear z)

theorem State.retireRmo_kept {s : State} {n : ArrayNum} {got : Option Nat} (hs : s.kept q) :
    (State.retireRmo s n got).kept q := by
  unfold State.retireRmo
  repeat' first
    | with_reducible assumption
    | with_reducible refine State.modArr_kept ?_
    | with_reducible refine State.completeRmo_kept ?_
    | split

theorem execRmoComplete_kept {n : ArrayNum} {hw : HostStores} {link : LinkResult} {s : State} (hs : s.kept q) :
    Keeps q (execRmoComplete n hw link s) := by
  unfold execRmoComplete
  repeat' first
    | with_reducible assumption
    | with_reducible refine keeps_next ?_
    | with_reducible refine State.hostStores_kept ?_
    | with_reducible refine State.retireRmo_kept ?_
    | lift_lets
    | with_reducible refine kept_choice ?_ (fun _ => ?_)

theorem execCompletionTimeout_kept {n : ArrayNum} {hw : HostStores} {linesReturned : Nat} {s : State} (hs : s.kept q) :
    Keeps q (execCompletionTimeout n hw linesReturned s) := by
  unfold execCompletionTimeout
  repeat' first
    | with_reducible assumption
    | with_reducible refine keeps_next ?_
    | with_reducible refine State.hostStores_kept ?_
    | with_reducible refine State.retireRmo_kept ?_
    | lift_lets
    | with_reducible refine kept_choice ?_ (fun _ => ?_)

end Sys2Proof.Machine
end

