-- ==== Sys2Proof/Laws/KeptRowStats.lean ====
section
/-!
SUPPORT. Every operation of Machine/RowStats.lean keeps the canonical form of the four stores, and the
command queue.
-/

set_option linter.unusedSimpArgs false

namespace Sys2Proof.Machine

variable {q : List Instr}

theorem execRsInit_kept {n : ArrayNum} {s : State} (hs : s.kept q) :
    Keeps q (execRsInit n s) := by
  unfold execRsInit
  repeat' first
    | with_reducible assumption
    | with_reducible refine keeps_next ?_
    | (intro i run u hr hu; (repeat' split at hr) <;> cases hr)
    | with_reducible refine issueOut_done ?_
    | with_reducible refine State.modArr_kept ?_
    | with_reducible refine State.issue_kept ?_ ?_

theorem execRsMax_kept {n : ArrayNum} {s : State} (hs : s.kept q) :
    Keeps q (execRsMax n s) := by
  unfold execRsMax
  repeat' first
    | with_reducible assumption
    | with_reducible refine keeps_next ?_
    | (intro i run u hr hu; (repeat' split at hr) <;> cases hr)
    | with_reducible refine issueOut_done ?_
    | with_reducible refine State.modArr_kept ?_
    | with_reducible refine State.noteOverflow_kept ?_
    | with_reducible refine State.issue_kept ?_ ?_

theorem execRsSum_kept {n : ArrayNum} {s : State} (hs : s.kept q) :
    Keeps q (execRsSum n s) := by
  unfold execRsSum
  repeat' first
    | with_reducible assumption
    | with_reducible refine keeps_next ?_
    | (intro i run u hr hu; (repeat' split at hr) <;> cases hr)
    | with_reducible refine issueOut_done ?_
    | with_reducible refine State.modArr_kept ?_
    | with_reducible refine State.noteOverflow_kept ?_
    | with_reducible refine State.issue_kept ?_ ?_

theorem execRsFinal_kept {n : ArrayNum} {s : State} (hs : s.kept q) :
    Keeps q (execRsFinal n s) := by
  unfold execRsFinal
  repeat' first
    | with_reducible assumption
    | (with_reducible show Keeps _ _; lift_lets)
    | with_reducible refine keeps_next ?_
    | (intro i run u hr hu; (repeat' split at hr) <;> cases hr)
    | with_reducible refine issueOut_done ?_
    | with_reducible refine issueOut_choice ?_ ?_
    | with_reducible refine State.bump_kept ?_
    | with_reducible refine State.raiseBit_kept ?_
    | with_reducible refine State.modArr_kept ?_
    | with_reducible refine State.report_kept ?_
    | with_reducible refine State.noteOverflow_kept ?_
    | with_reducible refine State.issue_kept ?_ ?_

theorem execRsLoad_kept {n : ArrayNum} {s : State} (hs : s.kept q) :
    Keeps q (execRsLoad n s) := by
  unfold execRsLoad
  repeat' first
    | with_reducible assumption
    | with_reducible refine keeps_next ?_
    | (intro i run u hr hu; (repeat' split at hr) <;> cases hr)
    | with_reducible refine issueOut_done ?_
    | with_reducible refine State.modArr_kept ?_
    | with_reducible refine State.issue_kept ?_ ?_

theorem execRsStore_kept {n : ArrayNum} {s : State} (hs : s.kept q) :
    Keeps q (execRsStore n s) := by
  unfold execRsStore
  repeat' first
    | with_reducible assumption
    | with_reducible refine keeps_next ?_
    | (intro i run u hr hu; (repeat' split at hr) <;> cases hr)
    | with_reducible refine issueOut_done ?_
    | with_reducible refine State.modArr_kept ?_
    | with_reducible refine State.issue_kept ?_ ?_

theorem execPstage_kept {n : ArrayNum} {s : State} (hs : s.kept q) :
    Keeps q (execPstage n s) := by
  unfold execPstage
  repeat' first
    | with_reducible assumption
    | (with_reducible show Keeps _ _; lift_lets)
    | with_reducible refine keeps_next ?_
    | (intro i run u hr hu; (repeat' split at hr) <;> cases hr)
    | with_reducible refine issueOut_done ?_
    | with_reducible refine issueOut_fault ?_
    | with_reducible refine issueOut_choice ?_ ?_
    | with_reducible refine State.issue_kept ?_ ?_
    | with_reducible refine State.unitRead_kept ?_
    | with_reducible refine State.enqueueStg_kept ?_
    | lift_lets
    | split
    | refine kept_of_pair (by with_reducible assumption) ?_

theorem execPclose_kept {n : ArrayNum} {s : State} (hs : s.kept q) :
    Keeps q (execPclose n s) := by
  unfold execPclose
  repeat' first
    | with_reducible assumption
    | with_reducible refine keeps_next ?_
    | (intro i run u hr hu; (repeat' split at hr) <;> cases hr)
    | with_reducible refine issueOut_done ?_
    | with_reducible refine issueOut_fault ?_
    | with_reducible refine issueOut_choice ?_ ?_
    | with_reducible refine State.noteConvSat_kept ?_
    | with_reducible refine State.noteConvNan_kept ?_
    | with_reducible refine State.noteNan_kept ?_
    | with_reducible refine State.issue_kept ?_ ?_
    | with_reducible refine State.unitRead_kept ?_
    | with_reducible refine State.unitWrite_kept ?_
    | lift_lets
    | simp only [kept_mk, held_fields]
    | split
    | refine kept_of_pair (by with_reducible assumption) ?_

end Sys2Proof.Machine
end

