-- ==== Sys2Proof/Laws/KeptKernels.lean ====
section
/-!
SUPPORT. Every operation of Machine/Kernels.lean keeps the canonical form of the four stores, and the
command queue.
-/

set_option linter.unusedSimpArgs false

namespace Sys2Proof.Machine

variable {q : List Instr}

theorem State.kernelGo_kept {s : State} {n : ArrayNum} (hs : s.kept q) :
    (State.kernelGo s n).kept q := by
  unfold State.kernelGo
  repeat' first
    | with_reducible assumption
    | (with_reducible show State.kept z q; dsimp only [z]; clear z)
    | (intro z (hz : State.kept z q); try beta_reduce)
    | with_reducible refine State.raiseBit_kept ?_
    | with_reducible refine State.modArr_kept ?_
    | (intro z; refine have hz : State.kept z q := ?_; ?_)
    | (intro z; refine have hz : State.kept z.1 q := ?_; ?_)
    | intro z
    | lift_lets
    | with_reducible refine kept_choice ?_ (fun _ => ?_)
    | simp only [kept_mk, held_fields]
    | with_reducible refine kept_foldl (fun _ _ _ => ?_) ?_
    | with_reducible refine kept_foldl_pair (fun _ _ _ => ?_) ?_
    | with_reducible refine kept_getD ?_ ?_
    | split
    | refine kept_of_pair (by with_reducible assumption) ?_
    | refine kept_of_some (by with_reducible assumption) ?_
    | (dsimp only [z]; try clear z)

theorem State.haltArray_kept {s : State} {n : ArrayNum} (hs : s.kept q) :
    (State.haltArray s n).kept q := by
  unfold State.haltArray
  repeat' first
    | with_reducible assumption
    | with_reducible refine State.modArr_kept ?_

theorem State.recordFault_kept {s : State} {n : ArrayNum} {f : PendFault} (hs : s.kept q) :
    (State.recordFault s n f).kept q := by
  unfold State.recordFault
  repeat' first
    | with_reducible assumption
    | (with_reducible show State.kept z q; dsimp only [z]; clear z)
    | (intro z (hz : State.kept z q); try beta_reduce)
    | with_reducible refine State.set_kept ?_
    | with_reducible refine State.raiseBit_kept ?_
    | with_reducible refine State.modArr_kept ?_
    | with_reducible refine State.reportAt_kept ?_
    | (intro z; refine have hz : State.kept z q := ?_; ?_)
    | (intro z; refine have hz : State.kept z.1 q := ?_; ?_)
    | intro z
    | lift_lets
    | with_reducible refine kept_choice ?_ (fun _ => ?_)
    | simp only [kept_mk, held_fields]
    | with_reducible refine kept_foldl (fun _ _ _ => ?_) ?_
    | with_reducible refine kept_foldl_pair (fun _ _ _ => ?_) ?_
    | with_reducible refine kept_getD ?_ ?_
    | split
    | refine kept_of_pair (by with_reducible assumption) ?_
    | refine kept_of_some (by with_reducible assumption) ?_
    | (dsimp only [z]; try clear z)

theorem State.kntSignal_kept {s : State} {n : ArrayNum} {v : Word} (hs : s.kept q) :
    (State.kntSignal s n v).kept q := by
  unfold State.kntSignal
  repeat' first
    | with_reducible assumption
    | with_reducible refine State.incKnot_kept ?_

theorem State.writeKnot_kept {s : State} {n : ArrayNum} {i : Nat} {v : Word} (hs : s.kept q) :
    (State.writeKnot s n i v).kept q := by
  unfold State.writeKnot
  repeat' first
    | with_reducible assumption
    | with_reducible refine State.raiseBit_kept ?_
    | with_reducible refine State.cfgWriteBusy_kept ?_
    | with_reducible refine State.setKnot_kept ?_
    | with_reducible refine kept_choice ?_ (fun _ => ?_)

end Sys2Proof.Machine
end

