-- ==== Sys2Proof/Laws/KeptClears.lean ====
section
/-!
SUPPORT. Every operation of Machine/Clears.lean keeps the canonical form of the four stores, and the
command queue.
-/

set_option linter.unusedSimpArgs false

namespace Sys2Proof.Machine

variable {q : List Instr}

theorem State.vaultClear_kept {s : State} {n : ArrayNum} {first count : Nat} (hs : s.kept q) :
    (State.vaultClear s n first count).kept q := by
  unfold State.vaultClear
  repeat' first
    | with_reducible assumption
    | with_reducible refine State.raiseBit_kept ?_
    | with_reducible refine State.modArr_kept ?_
    | with_reducible refine kept_choice ?_ (fun _ => ?_)

theorem State.vaultClearBegin_kept {s : State} {n : ArrayNum} (hs : s.kept q) :
    (State.vaultClearBegin s n).kept q := by
  unfold State.vaultClearBegin
  repeat' first
    | with_reducible assumption
    | with_reducible refine State.modArr_kept ?_
    | intro z
    | lift_lets
    | with_reducible refine kept_choice ?_ (fun _ => ?_)
    | split

theorem State.vaultClearEnd_kept {s : State} {n : ArrayNum} (hs : s.kept q) :
    (State.vaultClearEnd s n).kept q := by
  unfold State.vaultClearEnd
  repeat' first
    | with_reducible assumption
    | with_reducible refine State.wipe_kept ?_
    | with_reducible refine State.raiseBit_kept ?_
    | with_reducible refine State.modArr_kept ?_
    | with_reducible refine State.setVtag_kept ?_
    | lift_lets
    | with_reducible refine kept_choice ?_ (fun _ => ?_)
    | simp only [kept_mk, held_fields]
    | with_reducible refine kept_foldl (fun _ _ _ => ?_) ?_
    | split

theorem State.loadKey_kept {s : State} {slot : Nat} (hs : s.kept q) :
    (State.loadKey s slot).kept q := by
  unfold State.loadKey
  repeat' first
    | with_reducible assumption
    | with_reducible refine State.setBit_kept ?_
    | intro z
    | lift_lets
    | simp only [kept_mk, held_fields]

theorem State.dropKey_kept {s : State} {slot : Nat} (hs : s.kept q) :
    (State.dropKey s slot).kept q := by
  unfold State.dropKey
  repeat' first
    | with_reducible assumption
    | with_reducible refine State.setBit_kept ?_
    | intro z
    | lift_lets
    | simp only [kept_mk, held_fields]

theorem State.tierClear_kept {s : State} {first count : Nat} {rekey : Bool} {slot : Nat} (hs : s.kept q) :
    (State.tierClear s first count rekey slot).kept q := by
  unfold State.tierClear
  repeat' first
    | with_reducible assumption
    | with_reducible refine State.raiseBit_kept ?_
    | lift_lets
    | with_reducible refine kept_choice ?_ (fun _ => ?_)
    | simp only [kept_mk, held_fields]

theorem State.tierClearBegin_kept {s : State} (hs : s.kept q) :
    (State.tierClearBegin s).kept q := by
  unfold State.tierClearBegin
  repeat' first
    | with_reducible assumption
    | with_reducible refine State.loadKey_kept ?_
    | with_reducible refine State.dropKey_kept ?_
    | lift_lets
    | with_reducible refine kept_choice ?_ (fun _ => ?_)
    | simp only [kept_mk, held_fields]
    | split

theorem State.tierClearEnd_kept {s : State} (hs : s.kept q) :
    (State.tierClearEnd s).kept q := by
  unfold State.tierClearEnd
  repeat' first
    | with_reducible assumption
    | with_reducible refine State.wipe_kept ?_
    | with_reducible refine State.raiseBit_kept ?_
    | with_reducible refine State.setTtag_kept ?_
    | lift_lets
    | with_reducible refine kept_choice ?_ (fun _ => ?_)
    | simp only [kept_mk, held_fields]
    | with_reducible refine kept_foldl (fun _ _ _ => ?_) ?_
    | split

theorem State.patrolStart_kept {s : State} {k : Nat} (hs : s.kept q) :
    (State.patrolStart s k).kept q := by
  unfold State.patrolStart
  repeat' first
    | with_reducible assumption
    | simp only [kept_mk, held_fields]

theorem State.patrol_kept {s : State} {a n : Nat} (hs : s.kept q) :
    (State.patrol s a n).kept q := by
  unfold State.patrol
  repeat' first
    | with_reducible assumption
    | (with_reducible show State.kept z q; dsimp only [z]; clear z)
    | (intro z (hz : State.kept z q); try beta_reduce)
    | with_reducible refine State.eccReport_kept ?_
    | with_reducible refine State.linkCheck_kept ?_
    | with_reducible refine State.countWrite_kept ?_
    | (intro z; refine have hz : State.kept z q := ?_; ?_)
    | (intro z; refine have hz : State.kept z.1 q := ?_; ?_)
    | intro z
    | lift_lets
    | with_reducible refine kept_choice ?_ (fun _ => ?_)
    | simp only [kept_mk, held_fields]
    | with_reducible refine kept_foldl (fun _ _ _ => ?_) ?_
    | with_reducible refine kept_foldl_pair (fun _ _ _ => ?_) ?_
    | with_reducible refine kept_getD ?_ ?_
    | split
    | refine kept_of_pair (by with_reducible assumption) ?_
    | refine kept_of_some (by with_reducible assumption) ?_
    | (dsimp only [z]; try clear z)

theorem execPatrolScrubPass_kept {t : PatrolTarget} {s : State} (hs : s.kept q) :
    Keeps q (execPatrolScrubPass t s) := by
  unfold execPatrolScrubPass
  repeat' first
    | with_reducible assumption
    | with_reducible refine keeps_next ?_
    | with_reducible refine State.patrolStart_kept ?_
    | with_reducible refine State.patrol_kept ?_
    | lift_lets
    | with_reducible refine kept_choice ?_ (fun _ => ?_)
    | split

theorem State.patrolLate_kept {s : State} (hs : s.kept q) :
    (State.patrolLate s).kept q := by
  unfold State.patrolLate
  repeat' first
    | with_reducible assumption
    | (with_reducible show State.kept z q; dsimp only [z]; clear z)
    | with_reducible refine State.raiseBit_kept ?_
    | (intro z; refine have hz : State.kept z q := ?_; ?_)
    | lift_lets
    | with_reducible refine kept_choice ?_ (fun _ => ?_)
    | with_reducible refine kept_foldl (fun _ _ _ => ?_) ?_

end Sys2Proof.Machine
end

