-- ==== Sys2Proof/Laws/KeptPorts.lean ====
section
/-!
SUPPORT. Every operation of Machine/Ports.lean keeps the canonical form of the four stores, and the
command queue.
-/

set_option linter.unusedSimpArgs false

namespace Sys2Proof.Machine

variable {q : List Instr}

theorem State.blockWrite_kept {s : State} {a : Nat} {bs : List Byte} (hs : s.kept q) :
    (State.blockWrite s a bs).kept q := by
  unfold State.blockWrite
  repeat' first
    | with_reducible assumption
    | with_reducible refine State.pcieStore_kept ?_
    | with_reducible refine State.write_kept ?_
    | with_reducible refine kept_choice ?_ (fun _ => ?_)
    | split

theorem State.blockScan_kept {s : State} {a n : Nat} (hs : s.kept q) :
    (State.blockScan s a n).1.kept q := by
  unfold State.blockScan
  repeat' first
    | with_reducible assumption
    | (with_reducible show State.kept z q; dsimp only [z]; clear z)
    | (intro z (hz : State.kept z q); try beta_reduce)
    | with_reducible refine State.eccReport_kept ?_
    | with_reducible refine State.correct_kept ?_
    | with_reducible refine State.linkCheck_kept ?_
    | with_reducible refine State.countRead_kept ?_
    | (intro z; refine have hz : State.kept z q := ?_; ?_)
    | (intro z; refine have hz : State.kept z.1 q := ?_; ?_)
    | intro z
    | lift_lets
    | with_reducible refine kept_choice ?_ (fun _ => ?_)
    | simp only [kept_mk, held_fields]
    | with_reducible refine kept_foldl (fun _ _ _ => ?_) ?_
    | with_reducible refine kept_foldl_pair (fun _ _ _ => ?_) ?_
    | with_reducible refine kept_getD ?_ ?_
    | split
    | refine kept_of_pair (by with_reducible assumption) ?_
    | refine kept_of_some (by with_reducible assumption) ?_
    | (dsimp only [z]; try clear z)

theorem State.readThrough_kept {s : State} {a n : Nat} (hs : s.kept q) :
    (State.readThrough s a n).1.kept q := by
  unfold State.readThrough
  repeat' first
    | with_reducible assumption
    | (with_reducible show State.kept z q; dsimp only [z]; clear z)
    | (intro z (hz : State.kept z q); try beta_reduce)
    | with_reducible refine State.eccReport_kept ?_
    | with_reducible refine State.correct_kept ?_
    | with_reducible refine State.countRead_kept ?_
    | (intro z; refine have hz : State.kept z q := ?_; ?_)
    | (intro z; refine have hz : State.kept z.1 q := ?_; ?_)
    | intro z
    | lift_lets
    | with_reducible refine kept_choice ?_ (fun _ => ?_)
    | simp only [kept_mk, held_fields]
    | with_reducible refine kept_foldl (fun _ _ _ => ?_) ?_
    | with_reducible refine kept_foldl_pair (fun _ _ _ => ?_) ?_
    | with_reducible refine kept_getD ?_ ?_
    | split
    | refine kept_of_pair (by with_reducible assumption) ?_
    | refine kept_of_some (by with_reducible assumption) ?_
    | (dsimp only [z]; try clear z)

end Sys2Proof.Machine
end

