-- ==== Sys2Proof/Laws/KeptCocoon.lean ====
section
/-!
SUPPORT. Every operation of Machine/Cocoon.lean keeps the canonical form of the four stores, and the
command queue.
-/

set_option linter.unusedSimpArgs false

namespace Sys2Proof.Machine

variable {q : List Instr}

theorem State.modSpdm_kept {s : State} {id : Word} {f : Spdm → Spdm} (hs : s.kept q) :
    (State.modSpdm s id f).kept q := by
  unfold State.modSpdm
  repeat' first
    | with_reducible assumption
    | intro z
    | lift_lets
    | simp only [kept_mk, held_fields]

theorem State.countSessions_kept {s : State} (hs : s.kept q) :
    (State.countSessions s).kept q := by
  unfold State.countSessions
  repeat' first
    | with_reducible assumption
    | with_reducible refine State.set_kept ?_

theorem State.securityEvent_kept {s : State} {p : Option PartNum} {status severity : Nat} (hs : s.kept q) :
    (State.securityEvent s p status severity).kept q := by
  unfold State.securityEvent
  repeat' first
    | with_reducible assumption
    | with_reducible refine State.report_kept ?_

theorem State.importZero_kept {s : State} {m : Import} (hs : s.kept q) :
    (State.importZero s m).kept q := by
  unfold State.importZero
  repeat' first
    | with_reducible assumption
    | (with_reducible show State.kept z q; dsimp only [z]; clear z)
    | (intro z (hz : State.kept z q); try beta_reduce)
    | with_reducible refine State.write_kept ?_
    | (intro z; refine have hz : State.kept z q := ?_; ?_)
    | (intro z; refine have hz : State.kept z.1 q := ?_; ?_)
    | intro z
    | lift_lets
    | with_reducible refine kept_choice ?_ (fun _ => ?_)
    | simp only [kept_mk, held_fields]
    | with_reducible refine kept_foldl (fun _ _ _ => ?_) ?_
    | with_reducible refine kept_foldl_pair (fun _ _ _ => ?_) ?_
    | with_reducible refine kept_getD ?_ ?_
    | split
    | refine kept_of_pair (by with_reducible assumption) ?_
    | refine kept_of_some (by with_reducible assumption) ?_
    | (dsimp only [z]; try clear z)

theorem State.importStop_kept {s : State} {m : Import} {status : Nat} (hs : s.kept q) :
    (State.importStop s m status).kept q := by
  unfold State.importStop
  repeat' first
    | with_reducible assumption
    | (with_reducible show State.kept z q; dsimp only [z]; clear z)
    | (intro z (hz : State.kept z q); try beta_reduce)
    | with_reducible refine State.bump_kept ?_
    | with_reducible refine State.raiseBit_kept ?_
    | with_reducible refine State.complete_kept ?_
    | with_reducible refine State.securityEvent_kept ?_
    | with_reducible refine State.importZero_kept ?_
    | (intro z; refine have hz : State.kept z q := ?_; ?_)
    | (intro z; refine have hz : State.kept z.1 q := ?_; ?_)
    | intro z
    | lift_lets
    | with_reducible refine kept_choice ?_ (fun _ => ?_)
    | simp only [kept_mk, held_fields]
    | with_reducible refine kept_foldl (fun _ _ _ => ?_) ?_
    | with_reducible refine kept_foldl_pair (fun _ _ _ => ?_) ?_
    | with_reducible refine kept_getD ?_ ?_
    | split
    | refine kept_of_pair (by with_reducible assumption) ?_
    | refine kept_of_some (by with_reducible assumption) ?_
    | (dsimp only [z]; try clear z)

theorem State.endSpdm_kept {s : State} {id : Word} (hs : s.kept q) :
    (State.endSpdm s id).kept q := by
  unfold State.endSpdm
  repeat' first
    | with_reducible assumption
    | with_reducible refine State.setBit_kept ?_
    | with_reducible refine State.countSessions_kept ?_
    | with_reducible refine State.importStop_kept ?_
    | intro z
    | lift_lets
    | simp only [kept_mk, held_fields]
    | with_reducible refine kept_foldl (fun _ _ _ => ?_) ?_
    | split

theorem State.endPortSessions_kept {s : State} {port : Port} (hs : s.kept q) :
    (State.endPortSessions s port).kept q := by
  unfold State.endPortSessions
  repeat' first
    | with_reducible assumption
    | with_reducible refine State.endSpdm_kept ?_
    | with_reducible refine kept_foldl (fun _ _ _ => ?_) ?_

theorem State.zeroise_kept {s : State} (hs : s.kept q) :
    (State.zeroise s).kept q := by
  unfold State.zeroise
  repeat' first
    | with_reducible assumption
    | (with_reducible show State.kept z q; dsimp only [z]; clear z)
    | with_reducible refine State.dropKey_kept ?_
    | with_reducible refine State.endSpdm_kept ?_
    | (intro z; refine have hz : State.kept z q := ?_; ?_)
    | intro z
    | lift_lets
    | simp only [kept_mk, held_fields]
    | with_reducible refine kept_foldl (fun _ _ _ => ?_) ?_

theorem State.seal_kept {s : State} {p : PartNum} (hs : s.kept q) :
    (State.seal s p).kept q := by
  unfold State.seal
  repeat' first
    | with_reducible assumption
    | with_reducible refine State.setBit_kept ?_
    | lift_lets
    | simp only [kept_mk, held_fields]

theorem State.spdmReply_kept {s : State} {port : Port} {code : Nat} {inputs : List Byte} (hs : s.kept q) :
    (State.spdmReply s port code inputs).kept q := by
  unfold State.spdmReply
  repeat' first
    | with_reducible assumption
    | with_reducible refine State.send_kept ?_

theorem State.spdmError_kept {s : State} {port : Port} {code : Nat} (hs : s.kept q) :
    (State.spdmError s port code).kept q := by
  unfold State.spdmError
  repeat' first
    | with_reducible assumption
    | with_reducible refine State.spdmReply_kept ?_

theorem State.doe_kept {s : State} {port : Port} {f : State → State} (hs : s.kept q)
    (hf : ∀ t, t.kept q → (f t).kept q) :
    (State.doe s port f).kept q := by
  unfold State.doe
  repeat' first
    | with_reducible assumption
    | with_reducible refine State.spdmError_kept ?_
    | with_reducible apply hf
    | lift_lets
    | with_reducible refine kept_choice ?_ (fun _ => ?_)

theorem State.doeSession_kept {s : State} {port : Port} {id : Word} {f : Spdm → State → State} (hs : s.kept q)
    (hf : ∀ x0 t, t.kept q → (f x0 t).kept q) :
    (State.doeSession s port id f).kept q := by
  unfold State.doeSession
  repeat' first
    | with_reducible assumption
    | with_reducible refine State.spdmError_kept ?_
    | with_reducible refine State.doe_kept ?_ ?_
    | with_reducible apply hf
    | (intro z (hz : State.kept z q); try beta_reduce)
    | with_reducible refine kept_choice ?_ (fun _ => ?_)
    | split

theorem State.draw_kept {s : State} (hs : s.kept q) :
    (State.draw s).1.kept q := by
  unfold State.draw
  repeat' first
    | with_reducible assumption
    | intro z
    | lift_lets
    | simp only [kept_mk, held_fields]

theorem execGetVersion_kept {port : Port} {s : State} (hs : s.kept q) :
    Keeps q (execGetVersion port s) := by
  unfold execGetVersion
  repeat' first
    | with_reducible assumption
    | with_reducible refine keeps_next ?_
    | with_reducible refine State.spdmReply_kept ?_
    | with_reducible refine State.doe_kept ?_ ?_
    | (intro z (hz : State.kept z q); try beta_reduce)

theorem execGetCapabilities_kept {port : Port} {s : State} (hs : s.kept q) :
    Keeps q (execGetCapabilities port s) := by
  unfold execGetCapabilities
  repeat' first
    | with_reducible assumption
    | (with_reducible show Keeps _ _; lift_lets)
    | with_reducible refine keeps_next ?_
    | with_reducible exact keeps_fault
    | with_reducible refine keeps_choice ?_ ?_
    | (with_reducible show State.kept z q; dsimp only [z]; clear z)
    | (intro z (hz : State.kept z q); try beta_reduce)
    | with_reducible refine State.spdmReply_kept ?_
    | with_reducible refine State.doe_kept ?_ ?_
    | (intro z; refine have hz : State.kept z q := ?_; ?_)
    | (intro z; refine have hz : State.kept z.1 q := ?_; ?_)
    | intro z
    | lift_lets
    | with_reducible refine kept_choice ?_ (fun _ => ?_)
    | simp only [kept_mk, held_fields]
    | with_reducible refine kept_foldl (fun _ _ _ => ?_) ?_
    | with_reducible refine kept_foldl_pair (fun _ _ _ => ?_) ?_
    | with_reducible refine kept_getD ?_ ?_
    | split
    | refine kept_of_pair (by with_reducible assumption) ?_
    | refine kept_of_some (by with_reducible assumption) ?_
    | (dsimp only [z]; try clear z)

theorem execNegotiateAlgorithms_kept {port : Port} {s : State} (hs : s.kept q) :
    Keeps q (execNegotiateAlgorithms port s) := by
  unfold execNegotiateAlgorithms
  repeat' first
    | with_reducible assumption
    | with_reducible refine keeps_next ?_
    | with_reducible refine State.spdmReply_kept ?_
    | with_reducible refine State.doe_kept ?_ ?_
    | (intro z (hz : State.kept z q); try beta_reduce)

theorem execGetDigests_kept {port : Port} {s : State} (hs : s.kept q) :
    Keeps q (execGetDigests port s) := by
  unfold execGetDigests
  repeat' first
    | with_reducible assumption
    | with_reducible refine keeps_next ?_
    | with_reducible refine State.spdmReply_kept ?_
    | with_reducible refine State.doe_kept ?_ ?_
    | (intro z (hz : State.kept z q); try beta_reduce)

theorem execGetCertificate_kept {port : Port} {slot offset len : Nat} {s : State} (hs : s.kept q) :
    Keeps q (execGetCertificate port slot offset len s) := by
  unfold execGetCertificate
  repeat' first
    | with_reducible assumption
    | with_reducible refine keeps_next ?_
    | with_reducible refine State.spdmReply_kept ?_
    | with_reducible refine State.spdmError_kept ?_
    | with_reducible refine State.doe_kept ?_ ?_
    | (intro z (hz : State.kept z q); try beta_reduce)
    | with_reducible refine kept_choice ?_ (fun _ => ?_)

theorem execChallenge_kept {port : Port} {nonce : List Byte} {s : State} (hs : s.kept q) :
    Keeps q (execChallenge port nonce s) := by
  unfold execChallenge
  repeat' first
    | with_reducible assumption
    | with_reducible refine keeps_next ?_
    | with_reducible refine State.spdmReply_kept ?_
    | with_reducible refine State.doe_kept ?_ ?_
    | with_reducible refine State.draw_kept ?_
    | (intro z (hz : State.kept z q); try beta_reduce)

theorem execGetMeasurements_kept {port : Port} {nonce : List Byte} {s : State} (hs : s.kept q) :
    Keeps q (execGetMeasurements port nonce s) := by
  unfold execGetMeasurements
  repeat' first
    | with_reducible assumption
    | with_reducible refine keeps_next ?_
    | with_reducible refine State.spdmReply_kept ?_
    | with_reducible refine State.doe_kept ?_ ?_
    | with_reducible refine State.draw_kept ?_
    | (intro z (hz : State.kept z q); try beta_reduce)

theorem execKeyExchange_kept {port : Port} {id : Word} {transcript : List Byte} {s : State} (hs : s.kept q) :
    Keeps q (execKeyExchange port id transcript s) := by
  unfold execKeyExchange
  repeat' first
    | with_reducible assumption
    | (with_reducible show Keeps _ _; lift_lets)
    | with_reducible refine keeps_next ?_
    | with_reducible exact keeps_fault
    | with_reducible refine keeps_choice ?_ ?_
    | (with_reducible show State.kept z q; dsimp only [z]; clear z)
    | (intro z (hz : State.kept z q); try beta_reduce)
    | with_reducible refine State.countSessions_kept ?_
    | with_reducible refine State.spdmReply_kept ?_
    | with_reducible refine State.spdmError_kept ?_
    | with_reducible refine State.doe_kept ?_ ?_
    | with_reducible refine State.draw_kept ?_
    | (intro z; refine have hz : State.kept z q := ?_; ?_)
    | (intro z; refine have hz : State.kept z.1 q := ?_; ?_)
    | intro z
    | lift_lets
    | with_reducible refine kept_choice ?_ (fun _ => ?_)
    | simp only [kept_mk, held_fields]
    | with_reducible refine kept_foldl (fun _ _ _ => ?_) ?_
    | with_reducible refine kept_foldl_pair (fun _ _ _ => ?_) ?_
    | with_reducible refine kept_getD ?_ ?_
    | split
    | refine kept_of_pair (by with_reducible assumption) ?_
    | refine kept_of_some (by with_reducible assumption) ?_
    | (dsimp only [z]; try clear z)

theorem execFinish_kept {port : Port} {session : Word} {transcript : List Byte} {verifies : Bool} {s : State} (hs : s.kept q) :
    Keeps q (execFinish port session transcript verifies s) := by
  unfold execFinish
  repeat' first
    | with_reducible assumption
    | with_reducible refine keeps_next ?_
    | with_reducible refine State.modSpdm_kept ?_
    | with_reducible refine State.endSpdm_kept ?_
    | with_reducible refine State.spdmReply_kept ?_
    | with_reducible refine State.spdmError_kept ?_
    | with_reducible refine State.doe_kept ?_ ?_
    | (intro z (hz : State.kept z q); try beta_reduce)
    | lift_lets
    | with_reducible refine kept_choice ?_ (fun _ => ?_)
    | split

theorem execHeartbeat_kept {port : Port} {session : Word} {s : State} (hs : s.kept q) :
    Keeps q (execHeartbeat port session s) := by
  unfold execHeartbeat
  repeat' first
    | with_reducible assumption
    | with_reducible refine keeps_next ?_
    | with_reducible refine State.modSpdm_kept ?_
    | with_reducible refine State.spdmReply_kept ?_
    | with_reducible refine State.doeSession_kept ?_ ?_
    | (intro z (hz : State.kept z q); try beta_reduce)
    | intro z

theorem execSpdmHeartbeatMiss_kept {session : Word} {s : State} (hs : s.kept q) :
    Keeps q (execSpdmHeartbeatMiss session s) := by
  unfold execSpdmHeartbeatMiss
  repeat' first
    | with_reducible assumption
    | with_reducible refine keeps_next ?_
    | with_reducible refine State.endSpdm_kept ?_
    | lift_lets
    | with_reducible refine kept_choice ?_ (fun _ => ?_)
    | split

theorem execKeyUpdate_kept {port : Port} {session : Word} {s : State} (hs : s.kept q) :
    Keeps q (execKeyUpdate port session s) := by
  unfold execKeyUpdate
  repeat' first
    | with_reducible assumption
    | with_reducible refine keeps_next ?_
    | with_reducible refine State.modSpdm_kept ?_
    | with_reducible refine State.spdmReply_kept ?_
    | with_reducible refine State.doeSession_kept ?_ ?_
    | (intro z (hz : State.kept z q); try beta_reduce)
    | intro z

theorem execEndSession_kept {port : Port} {session : Word} {s : State} (hs : s.kept q) :
    Keeps q (execEndSession port session s) := by
  unfold execEndSession
  repeat' first
    | with_reducible assumption
    | with_reducible refine keeps_next ?_
    | with_reducible refine State.endSpdm_kept ?_
    | with_reducible refine State.spdmReply_kept ?_
    | with_reducible refine State.doeSession_kept ?_ ?_
    | (intro z (hz : State.kept z q); try beta_reduce)
    | intro z

theorem execVendorDefinedRequest_kept {port : Port} {session : Word} {request : VendorRequest} {s : State} (hs : s.kept q) :
    Keeps q (execVendorDefinedRequest port session request s) := by
  unfold execVendorDefinedRequest
  repeat' first
    | with_reducible assumption
    | (with_reducible show Keeps _ _; lift_lets)
    | with_reducible refine keeps_next ?_
    | with_reducible exact keeps_fault
    | with_reducible refine keeps_choice ?_ ?_
    | (with_reducible show State.kept z q; dsimp only [z]; clear z)
    | (intro z (hz : State.kept z q); try beta_reduce)
    | with_reducible refine State.send_kept ?_
    | with_reducible refine State.modSpdm_kept ?_
    | with_reducible refine State.endSpdm_kept ?_
    | with_reducible refine State.spdmError_kept ?_
    | with_reducible refine State.doe_kept ?_ ?_
    | with_reducible refine State.draw_kept ?_
    | (intro z; refine have hz : State.kept z q := ?_; ?_)
    | (intro z; refine have hz : State.kept z.1 q := ?_; ?_)
    | intro z
    | lift_lets
    | with_reducible refine kept_choice ?_ (fun _ => ?_)
    | simp only [kept_mk, held_fields]
    | with_reducible refine kept_foldl (fun _ _ _ => ?_) ?_
    | with_reducible refine kept_foldl_pair (fun _ _ _ => ?_) ?_
    | with_reducible refine kept_getD ?_ ?_
    | split
    | refine kept_of_pair (by with_reducible assumption) ?_
    | refine kept_of_some (by with_reducible assumption) ?_
    | (dsimp only [z]; try clear z)

theorem State.modStream_kept {s : State} {port : Port} {k : Fin 4} {f : IdeStream → IdeStream} (hs : s.kept q) :
    (State.modStream s port k f).kept q := by
  unfold State.modStream
  repeat' first
    | with_reducible assumption
    | intro z
    | lift_lets
    | simp only [kept_mk, held_fields]

theorem execQuery_kept {port : Port} {session : Word} {s : State} (hs : s.kept q) :
    Keeps q (execQuery port session s) := by
  unfold execQuery
  repeat' first
    | with_reducible assumption
    | (with_reducible show Keeps _ _; lift_lets)
    | with_reducible refine keeps_next ?_
    | with_reducible exact keeps_fault
    | with_reducible refine keeps_choice ?_ ?_
    | (with_reducible show State.kept z q; dsimp only [z]; clear z)
    | (intro z (hz : State.kept z q); try beta_reduce)
    | with_reducible refine State.spdmReply_kept ?_
    | with_reducible refine State.doeSession_kept ?_ ?_
    | (intro z; refine have hz : State.kept z q := ?_; ?_)
    | (intro z; refine have hz : State.kept z.1 q := ?_; ?_)
    | intro z
    | lift_lets
    | with_reducible refine kept_choice ?_ (fun _ => ?_)
    | simp only [kept_mk, held_fields]
    | with_reducible refine kept_foldl (fun _ _ _ => ?_) ?_
    | with_reducible refine kept_foldl_pair (fun _ _ _ => ?_) ?_
    | with_reducible refine kept_getD ?_ ?_
    | split
    | refine kept_of_pair (by with_reducible assumption) ?_
    | refine kept_of_some (by with_reducible assumption) ?_
    | (dsimp only [z]; try clear z)

theorem execKeyProg_kept {port : Port} {session : Word} {stream : Fin 4} {keySet : Fin 2} {sub : SubStream} {masked : List Byte} {s : State} (hs : s.kept q) :
    Keeps q (execKeyProg port session stream keySet sub masked s) := by
  unfold execKeyProg
  repeat' first
    | with_reducible assumption
    | (with_reducible show Keeps _ _; lift_lets)
    | with_reducible refine keeps_next ?_
    | with_reducible refine State.spdmReply_kept ?_
    | with_reducible refine State.spdmError_kept ?_
    | with_reducible refine State.doeSession_kept ?_ ?_
    | with_reducible refine State.modStream_kept ?_
    | (intro z (hz : State.kept z q); try beta_reduce)
    | intro z
    | lift_lets
    | with_reducible refine kept_choice ?_ (fun _ => ?_)
    | simp only [kept_mk, held_fields]
    | split

theorem execKSetGo_kept {port : Port} {session : Word} {stream : Fin 4} {keySet : Fin 2} {s : State} (hs : s.kept q) :
    Keeps q (execKSetGo port session stream keySet s) := by
  unfold execKSetGo
  repeat' first
    | with_reducible assumption
    | with_reducible refine keeps_next ?_
    | with_reducible refine State.spdmReply_kept ?_
    | with_reducible refine State.spdmError_kept ?_
    | with_reducible refine State.doeSession_kept ?_ ?_
    | with_reducible refine State.modStream_kept ?_
    | (intro z (hz : State.kept z q); try beta_reduce)
    | intro z
    | lift_lets
    | with_reducible refine kept_choice ?_ (fun _ => ?_)

theorem execKSetStop_kept {port : Port} {session : Word} {stream : Fin 4} {keySet : Fin 2} {s : State} (hs : s.kept q) :
    Keeps q (execKSetStop port session stream keySet s) := by
  unfold execKSetStop
  repeat' first
    | with_reducible assumption
    | with_reducible refine keeps_next ?_
    | with_reducible refine State.spdmReply_kept ?_
    | with_reducible refine State.spdmError_kept ?_
    | with_reducible refine State.doeSession_kept ?_ ?_
    | with_reducible refine State.modStream_kept ?_
    | (intro z (hz : State.kept z q); try beta_reduce)
    | intro z
    | lift_lets
    | with_reducible refine kept_choice ?_ (fun _ => ?_)

theorem execIdeIntegrityFail_kept {port : Port} {stream : Fin 4} {s : State} (hs : s.kept q) :
    Keeps q (execIdeIntegrityFail port stream s) := by
  unfold execIdeIntegrityFail
  repeat' first
    | with_reducible assumption
    | with_reducible refine keeps_next ?_
    | with_reducible refine State.modStream_kept ?_
    | lift_lets
    | with_reducible refine kept_choice ?_ (fun _ => ?_)

theorem execSecSession_kept {c : CmdRef} {s : State} (hs : s.kept q) :
    Keeps q (execSecSession c s) := by
  unfold execSecSession
  repeat' first
    | with_reducible assumption
    | (with_reducible show Keeps _ _; lift_lets)
    | with_reducible refine keeps_next ?_
    | with_reducible refine State.setBit_kept ?_
    | with_reducible refine State.complete_kept ?_
    | with_reducible refine State.runPart_kept ?_ ?_
    | with_reducible refine State.modSpdm_kept ?_
    | with_reducible refine State.seal_kept ?_
    | (intro z (hz : State.kept z q); try beta_reduce)
    | intro z
    | lift_lets
    | with_reducible refine kept_choice ?_ (fun _ => ?_)
    | split

theorem execSecIde_kept {c : CmdRef} {s : State} (hs : s.kept q) :
    Keeps q (execSecIde c s) := by
  unfold execSecIde
  repeat' first
    | with_reducible assumption
    | with_reducible refine keeps_next ?_
    | with_reducible refine State.setBit_kept ?_
    | with_reducible refine State.complete_kept ?_
    | with_reducible refine State.runPart_kept ?_ ?_
    | with_reducible refine State.modStream_kept ?_
    | (intro z (hz : State.kept z q); try beta_reduce)
    | intro z
    | lift_lets
    | with_reducible refine kept_choice ?_ (fun _ => ?_)
    | simp only [kept_mk, held_fields]
    | split

theorem State.lmsLevel_kept {s : State} {next : Nat} (hs : s.kept q) :
    (State.lmsLevel s next).kept q := by
  unfold State.lmsLevel
  repeat' first
    | with_reducible assumption
    | (with_reducible show State.kept z q; dsimp only [z]; clear z)
    | (intro z (hz : State.kept z q); try beta_reduce)
    | with_reducible refine State.set_kept ?_
    | with_reducible refine State.securityEvent_kept ?_
    | (intro z; refine have hz : State.kept z q := ?_; ?_)
    | (intro z; refine have hz : State.kept z.1 q := ?_; ?_)
    | intro z
    | lift_lets
    | with_reducible refine kept_choice ?_ (fun _ => ?_)
    | simp only [kept_mk, held_fields]
    | with_reducible refine kept_foldl (fun _ _ _ => ?_) ?_
    | with_reducible refine kept_foldl_pair (fun _ _ _ => ?_) ?_
    | with_reducible refine kept_getD ?_ ?_
    | split
    | refine kept_of_pair (by with_reducible assumption) ?_
    | refine kept_of_some (by with_reducible assumption) ?_
    | (dsimp only [z]; try clear z)

theorem State.hssTake_kept {s : State} (hs : s.kept q) :
    (State.hssTake s).1.kept q := by
  unfold State.hssTake
  repeat' first
    | with_reducible assumption
    | (with_reducible show State.kept z q; dsimp only [z]; clear z)
    | (intro z (hz : State.kept z q); try beta_reduce)
    | with_reducible refine State.set_kept ?_
    | with_reducible refine State.lmsLevel_kept ?_
    | (intro z; refine have hz : State.kept z q := ?_; ?_)
    | (intro z; refine have hz : State.kept z.1 q := ?_; ?_)
    | intro z
    | lift_lets
    | with_reducible refine kept_choice ?_ (fun _ => ?_)
    | simp only [kept_mk, held_fields]
    | with_reducible refine kept_foldl (fun _ _ _ => ?_) ?_
    | with_reducible refine kept_foldl_pair (fun _ _ _ => ?_) ?_
    | with_reducible refine kept_getD ?_ ?_
    | split
    | refine kept_of_pair (by with_reducible assumption) ?_
    | refine kept_of_some (by with_reducible assumption) ?_
    | (dsimp only [z]; try clear z)

theorem execSecAttest_kept {c : CmdRef} {s : State} (hs : s.kept q) :
    Keeps q (execSecAttest c s) := by
  unfold execSecAttest
  repeat' first
    | with_reducible assumption
    | (with_reducible show State.kept z q; dsimp only [z]; clear z)
    | (with_reducible show Keeps _ _; lift_lets)
    | with_reducible refine keeps_next ?_
    | with_reducible refine State.pcieStore_kept ?_
    | with_reducible refine State.bump_kept ?_
    | with_reducible refine State.complete_kept ?_
    | with_reducible refine State.runCmd_kept ?_ ?_
    | with_reducible refine State.blockWrite_kept ?_
    | with_reducible refine State.securityEvent_kept ?_
    | with_reducible refine State.hssTake_kept ?_
    | (intro z (hz : State.kept z q); try beta_reduce)
    | (intro z; refine have hz : State.kept z q := ?_; ?_)
    | (intro z; refine have hz : State.kept z.1 q := ?_; ?_)
    | intro z
    | lift_lets
    | with_reducible refine kept_choice ?_ (fun _ => ?_)
    | simp only [kept_mk, held_fields]
    | split

theorem execTreeComputationDone_kept {s : State} (hs : s.kept q) :
    Keeps q (execTreeComputationDone s) := by
  unfold execTreeComputationDone
  repeat' first
    | with_reducible assumption
    | (with_reducible show Keeps _ _; lift_lets)
    | with_reducible refine keeps_next ?_
    | with_reducible refine State.set_kept ?_
    | lift_lets
    | with_reducible refine kept_choice ?_ (fun _ => ?_)
    | simp only [kept_mk, held_fields]
    | split

theorem State.importRefuse_kept {s : State} {c : CmdRef} {p : PartNum} {status : Nat} (hs : s.kept q) :
    (State.importRefuse s c p status).kept q := by
  unfold State.importRefuse
  repeat' first
    | with_reducible assumption
    | with_reducible refine State.bump_kept ?_
    | with_reducible refine State.raiseBit_kept ?_
    | with_reducible refine State.complete_kept ?_
    | with_reducible refine State.securityEvent_kept ?_
    | lift_lets
    | with_reducible refine kept_choice ?_ (fun _ => ?_)

theorem State.importRead_kept {s : State} {p : PartNum} {a n : Nat} (hs : s.kept q) :
    (State.importRead s p a n).1.kept q := by
  unfold State.importRead
  repeat' first
    | with_reducible assumption
    | with_reducible refine State.readThrough_kept ?_
    | split

theorem execSecImport_kept {c : CmdRef} {hw : HostStores} {s : State} (hs : s.kept q) :
    Keeps q (execSecImport c hw s) := by
  unfold execSecImport
  repeat' first
    | with_reducible assumption
    | (with_reducible show Keeps _ _; lift_lets)
    | with_reducible refine keeps_next ?_
    | with_reducible exact keeps_fault
    | with_reducible refine keeps_choice ?_ ?_
    | (with_reducible show State.kept z q; dsimp only [z]; clear z)
    | (intro z (hz : State.kept z q); try beta_reduce)
    | with_reducible refine State.hostStores_kept ?_
    | with_reducible refine State.park_kept ?_
    | with_reducible refine State.runPart_kept ?_ ?_
    | with_reducible refine State.importRefuse_kept ?_
    | with_reducible refine State.importRead_kept ?_
    | (intro z; refine have hz : State.kept z q := ?_; ?_)
    | (intro z; refine have hz : State.kept z.1 q := ?_; ?_)
    | intro z
    | lift_lets
    | with_reducible refine kept_choice ?_ (fun _ => ?_)
    | simp only [kept_mk, held_fields]
    | with_reducible refine kept_foldl (fun _ _ _ => ?_) ?_
    | with_reducible refine kept_foldl_pair (fun _ _ _ => ?_) ?_
    | with_reducible refine kept_getD ?_ ?_
    | split
    | refine kept_of_pair (by with_reducible assumption) ?_
    | refine kept_of_some (by with_reducible assumption) ?_
    | (dsimp only [z]; try clear z)

theorem execImportChunk_kept {c : CmdRef} {hw : HostStores} {s : State} (hs : s.kept q) :
    Keeps q (execImportChunk c hw s) := by
  unfold execImportChunk
  repeat' first
    | with_reducible assumption
    | (with_reducible show Keeps _ _; lift_lets)
    | with_reducible refine keeps_next ?_
    | with_reducible exact keeps_fault
    | with_reducible refine keeps_choice ?_ ?_
    | (with_reducible show State.kept z q; dsimp only [z]; clear z)
    | (intro z (hz : State.kept z q); try beta_reduce)
    | with_reducible refine State.hostStores_kept ?_
    | with_reducible refine State.addTo_kept ?_
    | with_reducible refine State.write_kept ?_
    | with_reducible refine State.complete_kept ?_
    | with_reducible refine State.park_kept ?_
    | with_reducible refine State.modSpdm_kept ?_
    | with_reducible refine State.importStop_kept ?_
    | with_reducible refine State.importRead_kept ?_
    | (intro z; refine have hz : State.kept z q := ?_; ?_)
    | (intro z; refine have hz : State.kept z.1 q := ?_; ?_)
    | intro z
    | lift_lets
    | with_reducible refine kept_choice ?_ (fun _ => ?_)
    | simp only [kept_mk, held_fields]
    | with_reducible refine kept_foldl (fun _ _ _ => ?_) ?_
    | with_reducible refine kept_foldl_pair (fun _ _ _ => ?_) ?_
    | with_reducible refine kept_getD ?_ ?_
    | split
    | refine kept_of_pair (by with_reducible assumption) ?_
    | refine kept_of_some (by with_reducible assumption) ?_
    | (dsimp only [z]; try clear z)

end Sys2Proof.Machine
end

