-- ==== Sys2Proof/Laws/KeptReel.lean ====
section
/-!
SUPPORT. Every operation of Machine/Reel.lean keeps the canonical form of the four stores, and the
command queue.
-/

set_option linter.unusedSimpArgs false

namespace Sys2Proof.Machine

variable {q : List Instr}

theorem State.setMapEntry_kept {s : State} {e : Nat} {w : Word} (hs : s.kept q) :
    (State.setMapEntry s e w).kept q := by
  unfold State.setMapEntry
  repeat' first
    | with_reducible assumption
    | intro z
    | lift_lets
    | simp only [kept_mk, held_fields]

theorem State.setSeqWord_kept {s : State} {i w : Nat} {v : Word} (hs : s.kept q) :
    (State.setSeqWord s i w v).kept q := by
  unfold State.setSeqWord
  repeat' first
    | with_reducible assumption
    | intro z
    | lift_lets
    | simp only [kept_mk, held_fields]

theorem State.setSeqBits_kept {s : State} {i w lo width v : Nat} (hs : s.kept q) :
    (State.setSeqBits s i w lo width v).kept q := by
  unfold State.setSeqBits
  repeat' first
    | with_reducible assumption
    | with_reducible refine State.setSeqWord_kept ?_

theorem State.setFrames_kept {s : State} {p : PartNum} {l : List Nat} (hs : s.kept q) :
    (State.setFrames s p l).kept q := by
  unfold State.setFrames
  repeat' first
    | with_reducible assumption
    | intro z
    | lift_lets
    | simp only [kept_mk, held_fields]

theorem State.setSlots_kept {s : State} {p : PartNum} {l : List Nat} (hs : s.kept q) :
    (State.setSlots s p l).kept q := by
  unfold State.setSlots
  repeat' first
    | with_reducible assumption
    | intro z
    | lift_lets
    | simp only [kept_mk, held_fields]

theorem State.setFb_kept {s : State} {n : ArrayNum} {l : List Nat} (hs : s.kept q) :
    (State.setFb s n l).kept q := by
  unfold State.setFb
  repeat' first
    | with_reducible assumption
    | intro z
    | lift_lets
    | simp only [kept_mk, held_fields]

theorem State.fillPools_kept {s : State} {p : PartNum} (hs : s.kept q) :
    (State.fillPools s p).kept q := by
  unfold State.fillPools
  repeat' first
    | with_reducible assumption
    | (with_reducible show State.kept z q; dsimp only [z]; clear z)
    | with_reducible refine State.setFrames_kept ?_
    | with_reducible refine State.setSlots_kept ?_
    | with_reducible refine State.setFb_kept ?_
    | (intro z; refine have hz : State.kept z q := ?_; ?_)
    | intro z
    | lift_lets
    | with_reducible refine kept_foldl (fun _ _ _ => ?_) ?_

theorem State.freePage_kept {s : State} {p : PartNum} {page e : Nat} (hs : s.kept q) :
    (State.freePage s p page e).kept q := by
  unfold State.freePage
  repeat' first
    | with_reducible assumption
    | (with_reducible show State.kept z q; dsimp only [z]; clear z)
    | with_reducible refine State.setMapEntry_kept ?_
    | with_reducible refine State.setFrames_kept ?_
    | with_reducible refine State.setSlots_kept ?_
    | with_reducible refine State.setFb_kept ?_
    | (intro z; refine have hz : State.kept z q := ?_; ?_)
    | intro z
    | lift_lets
    | with_reducible refine kept_choice ?_ (fun _ => ?_)
    | split

theorem State.freePages_kept {s : State} {p : PartNum} {i : Nat} (hs : s.kept q) :
    (State.freePages s p i).kept q := by
  unfold State.freePages
  repeat' first
    | with_reducible assumption
    | with_reducible refine State.freePage_kept ?_
    | intro z
    | lift_lets
    | with_reducible refine kept_foldl (fun _ _ _ => ?_) ?_

theorem State.dropPages_kept {s : State} {p : PartNum} {i : Nat} (hs : s.kept q) :
    (State.dropPages s p i).kept q := by
  unfold State.dropPages
  repeat' first
    | with_reducible assumption
    | with_reducible refine State.setSeqBits_kept ?_
    | with_reducible refine State.freePages_kept ?_

theorem State.freeSeq_kept {s : State} {p : PartNum} {i : Nat} (hs : s.kept q) :
    (State.freeSeq s p i).kept q := by
  unfold State.freeSeq
  repeat' first
    | with_reducible assumption
    | (with_reducible show State.kept z q; dsimp only [z]; clear z)
    | with_reducible refine State.setSeqWord_kept ?_
    | with_reducible refine State.freePages_kept ?_
    | (intro z; refine have hz : State.kept z q := ?_; ?_)
    | lift_lets
    | with_reducible refine kept_foldl (fun _ _ _ => ?_) ?_

theorem State.dropCopy_kept {s : State} {c : PageCopy} (hs : s.kept q) :
    (State.dropCopy s c).kept q := by
  unfold State.dropCopy
  repeat' first
    | with_reducible assumption
    | intro z
    | lift_lets
    | simp only [kept_mk, held_fields]

theorem State.cancelCopies_kept {s : State} {i : Nat} (hs : s.kept q) :
    (State.cancelCopies s i).kept q := by
  unfold State.cancelCopies
  repeat' first
    | with_reducible assumption
    | with_reducible refine State.setFrames_kept ?_
    | with_reducible refine State.setSlots_kept ?_
    | with_reducible refine State.dropCopy_kept ?_
    | lift_lets
    | with_reducible refine kept_choice ?_ (fun _ => ?_)
    | with_reducible refine kept_foldl (fun _ _ _ => ?_) ?_

theorem State.seqApply_kept {s : State} {p : PartNum} {u : SeqUpdate} (h : s.kept q) : (State.seqApply s p u).kept q := by
  cases u with
  | setup i mapBase cap fb =>
    unfold State.seqApply
    exact State.setSeqWord_kept (State.setSeqWord_kept (State.setSeqWord_kept (State.setSeqWord_kept
      (kept_foldl (fun _ _ h => State.setMapEntry_kept h) h))))
  | activate i => unfold State.seqApply; exact State.setSeqBits_kept h
  | pause i => unfold State.seqApply; exact State.setSeqBits_kept h
  | release i => unfold State.seqApply; exact State.freeSeq_kept (State.cancelCopies_kept h)
  | drop i => unfold State.seqApply; exact State.dropPages_kept (State.cancelCopies_kept h)
  | mapWrite e w => unfold State.seqApply; exact State.setMapEntry_kept h
  | seqWrite i w v => unfold State.seqApply; exact State.setSeqWord_kept h

theorem State.seqFlush_kept {s : State} {p : PartNum} (hs : s.kept q) :
    (State.seqFlush s p).kept q := by
  unfold State.seqFlush
  repeat' first
    | with_reducible assumption
    | (with_reducible show State.kept z q; dsimp only [z]; clear z)
    | with_reducible refine State.seqApply_kept ?_
    | (intro z; refine have hz : State.kept z q := ?_; ?_)
    | intro z
    | lift_lets
    | with_reducible refine kept_choice ?_ (fun _ => ?_)
    | simp only [kept_mk, held_fields]
    | with_reducible refine kept_foldl (fun _ _ _ => ?_) ?_

theorem State.seqUpdate_kept {s : State} {p : PartNum} {u : SeqUpdate} (hs : s.kept q) :
    (State.seqUpdate s p u).kept q := by
  unfold State.seqUpdate
  repeat' first
    | with_reducible assumption
    | with_reducible refine State.seqApply_kept ?_
    | with_reducible refine State.seqFlush_kept ?_
    | intro z
    | lift_lets
    | with_reducible refine kept_choice ?_ (fun _ => ?_)
    | simp only [kept_mk, held_fields]

theorem State.reelEcc_kept {s : State} {p : PartNum} {bad : Bool} (hs : s.kept q) :
    (State.reelEcc s p bad).kept q := by
  unfold State.reelEcc
  repeat' first
    | with_reducible assumption
    | with_reducible refine State.bump_kept ?_
    | with_reducible refine State.raiseBit_kept ?_
    | with_reducible refine State.report_kept ?_
    | lift_lets
    | with_reducible refine kept_choice ?_ (fun _ => ?_)

theorem State.reelScan_kept {s : State} {p : PartNum} {hit : Nat → Bool} (hs : s.kept q) :
    (State.reelScan s p hit).1.kept q := by
  unfold State.reelScan
  repeat' first
    | with_reducible assumption
    | with_reducible refine State.reelEcc_kept ?_
    | intro z
    | lift_lets
    | simp only [kept_mk, held_fields]
    | with_reducible refine kept_foldl (fun _ _ _ => ?_) ?_

theorem State.rebuildPools_kept {s : State} {p : PartNum} (hs : s.kept q) :
    (State.rebuildPools s p).kept q := by
  unfold State.rebuildPools
  repeat' first
    | with_reducible assumption
    | (with_reducible show State.kept z q; dsimp only [z]; clear z)
    | with_reducible refine State.setFrames_kept ?_
    | with_reducible refine State.setSlots_kept ?_
    | with_reducible refine State.setFb_kept ?_
    | (intro z; refine have hz : State.kept z q := ?_; ?_)
    | intro z
    | lift_lets
    | simp only [kept_mk, held_fields]
    | with_reducible refine kept_foldl (fun _ _ _ => ?_) ?_

theorem State.reelDenied_kept {s : State} {p : PartNum} {cause a : Nat} (hs : s.kept q) :
    (State.reelDenied s p cause a).kept q := by
  unfold State.reelDenied
  repeat' first
    | with_reducible assumption
    | with_reducible refine State.accessError_kept ?_

theorem State.stepGo_kept {s : State} {p : PartNum} (hs : s.kept q) :
    (State.stepGo s p).kept q := by
  unfold State.stepGo
  repeat' first
    | with_reducible assumption
    | (with_reducible show State.kept z q; dsimp only [z]; clear z)
    | with_reducible refine State.set_kept ?_
    | with_reducible refine State.raiseBit_kept ?_
    | with_reducible refine State.eccReport_kept ?_
    | with_reducible refine State.correct_kept ?_
    | with_reducible refine State.countRead_kept ?_
    | with_reducible refine State.seqFlush_kept ?_
    | with_reducible refine State.reelDenied_kept ?_
    | (intro z; refine have hz : State.kept z q := ?_; ?_)
    | intro z
    | lift_lets
    | with_reducible refine kept_choice ?_ (fun _ => ?_)
    | simp only [kept_mk, held_fields]
    | split

theorem State.takePages_kept {p : PartNum} {i k : Nat} :
    ∀ {s : State} {first : Nat}, s.kept q → OptKeeps q (State.takePages s p i first k) := by
  induction k with
  | zero => intro s first h; exact optKeeps_some h
  | succ k ih =>
    intro s first h
    unfold State.takePages
    refine optKeeps_choice ?_ ?_
    · split
      · exact optKeeps_none
      · split
        · exact optKeeps_none
        · exact ih (State.setMapEntry_kept (State.setFb_kept h))
    · split
      · exact optKeeps_none
      · exact ih (State.setMapEntry_kept (State.setFrames_kept h))

theorem State.runSlot_kept {s : State} {p : PartNum} {d : StepDesc} {t : StepSlot} (hs : s.kept q) :
    (State.runSlot s p d t).1.kept q := by
  unfold State.runSlot
  repeat' first
    | with_reducible assumption
    | (with_reducible show State.kept z q; dsimp only [z]; clear z)
    | with_reducible refine State.setSeqWord_kept ?_
    | with_reducible refine State.setSeqBits_kept ?_
    | with_reducible refine State.reelScan_kept ?_
    | with_reducible refine State.takePages_kept ?_
    | (intro z; refine have hz : State.kept z q := ?_; ?_)
    | (intro z; refine have hz : State.kept z.1 q := ?_; ?_)
    | intro z
    | lift_lets
    | with_reducible refine kept_choice ?_ (fun _ => ?_)
    | split
    | (dsimp only [z]; try clear z)
    | refine kept_of_some (by with_reducible assumption) ?_

theorem State.runSlots_kept {p : PartNum} {d : StepDesc} {l : List StepSlot} :
    ∀ {s : State}, s.kept q → (State.runSlots s p d l).1.kept q := by
  induction l with
  | nil => intro s h; exact h
  | cons t rest ih => intro s h; exact ih (State.runSlot_kept h)

theorem State.putTable_kept {s : State} {d : StepDesc} {table : List Byte} {n : ArrayNum} (hs : s.kept q) :
    (State.putTable s d table n).kept q := by
  unfold State.putTable
  repeat' first
    | with_reducible assumption
    | (with_reducible show State.kept z q; dsimp only [z]; clear z)
    | with_reducible refine State.accessError_kept ?_
    | with_reducible refine State.write_kept ?_
    | with_reducible refine State.incKnot_kept ?_
    | (intro z; refine have hz : State.kept z q := ?_; ?_)
    | intro z
    | lift_lets
    | with_reducible refine kept_choice ?_ (fun _ => ?_)

theorem State.stepFinish_kept {s : State} {p : PartNum} (hs : s.kept q) :
    (State.stepFinish s p).1.kept q := by
  unfold State.stepFinish
  repeat' first
    | with_reducible assumption
    | with_reducible refine State.set_kept ?_
    | with_reducible refine State.raiseBit_kept ?_
    | with_reducible refine State.runSlots_kept ?_
    | with_reducible refine State.putTable_kept ?_
    | lift_lets
    | simp only [kept_mk, held_fields]
    | with_reducible refine kept_foldl (fun _ _ _ => ?_) ?_
    | split

theorem State.copyBytes_kept {s : State} {p : PartNum} {src dst n : Nat} (hs : s.kept q) :
    (State.copyBytes s p src dst n).kept q := by
  unfold State.copyBytes
  repeat' first
    | with_reducible assumption
    | (with_reducible show State.kept z q; dsimp only [z]; clear z)
    | (intro z (hz : State.kept z q); try beta_reduce)
    | with_reducible refine State.write_kept ?_
    | with_reducible refine State.readThrough_kept ?_
    | with_reducible refine State.reelDenied_kept ?_
    | (intro z; refine have hz : State.kept z q := ?_; ?_)
    | (intro z; refine have hz : State.kept z.1 q := ?_; ?_)
    | intro z
    | lift_lets
    | with_reducible refine kept_choice ?_ (fun _ => ?_)
    | simp only [kept_mk, held_fields]
    | with_reducible refine kept_foldl (fun _ _ _ => ?_) ?_
    | with_reducible refine kept_foldl_pair (fun _ _ _ => ?_) ?_
    | with_reducible refine kept_getD ?_ ?_
    | split
    | refine kept_of_pair (by with_reducible assumption) ?_
    | refine kept_of_some (by with_reducible assumption) ?_
    | (dsimp only [z]; try clear z)

theorem State.evictStart_kept {s : State} {p : PartNum} {i : Nat} (hs : s.kept q) :
    OptKeeps q (State.evictStart s p i) := by
  unfold State.evictStart
  repeat' first
    | with_reducible assumption
    | (with_reducible show OptKeeps _ _; lift_lets)
    | with_reducible exact optKeeps_none
    | with_reducible refine optKeeps_some ?_
    | with_reducible refine optKeeps_choice ?_ ?_
    | with_reducible refine State.setSlots_kept ?_
    | lift_lets
    | simp only [kept_mk, held_fields]

theorem State.evictEnd_kept {s : State} {c : PageCopy} (hs : s.kept q) :
    (State.evictEnd s c).1.kept q := by
  unfold State.evictEnd
  repeat' first
    | with_reducible assumption
    | (with_reducible show State.kept z q; dsimp only [z]; clear z)
    | (intro z (hz : State.kept z q); try beta_reduce)
    | with_reducible refine State.setMapEntry_kept ?_
    | with_reducible refine State.setSeqBits_kept ?_
    | with_reducible refine State.setFrames_kept ?_
    | with_reducible refine State.setSlots_kept ?_
    | with_reducible refine State.dropCopy_kept ?_
    | with_reducible refine State.reelScan_kept ?_
    | with_reducible refine State.copyBytes_kept ?_
    | (intro z; refine have hz : State.kept z q := ?_; ?_)
    | (intro z; refine have hz : State.kept z.1 q := ?_; ?_)
    | intro z
    | lift_lets
    | with_reducible refine kept_choice ?_ (fun _ => ?_)
    | simp only [kept_mk, held_fields]
    | with_reducible refine kept_foldl (fun _ _ _ => ?_) ?_
    | with_reducible refine kept_foldl_pair (fun _ _ _ => ?_) ?_
    | with_reducible refine kept_getD ?_ ?_
    | split
    | refine kept_of_pair (by with_reducible assumption) ?_
    | refine kept_of_some (by with_reducible assumption) ?_
    | (dsimp only [z]; try clear z)

theorem State.copyBackEnd_kept {s : State} {c : PageCopy} (hs : s.kept q) :
    (State.copyBackEnd s c).1.kept q := by
  unfold State.copyBackEnd
  repeat' first
    | with_reducible assumption
    | (with_reducible show State.kept z q; dsimp only [z]; clear z)
    | with_reducible refine State.setMapEntry_kept ?_
    | with_reducible refine State.setSeqBits_kept ?_
    | with_reducible refine State.setFrames_kept ?_
    | with_reducible refine State.setSlots_kept ?_
    | with_reducible refine State.reelScan_kept ?_
    | with_reducible refine State.copyBytes_kept ?_
    | with_reducible refine State.dropCopy_kept ?_
    | (intro z; refine have hz : State.kept z q := ?_; ?_)
    | (intro z; refine have hz : State.kept z.1 q := ?_; ?_)
    | lift_lets
    | with_reducible refine kept_foldl (fun _ _ _ => ?_) ?_
    | split

end Sys2Proof.Machine
end

