-- ==== Sys2Proof/Laws/KeptServing.lean ====
section
/-!
SUPPORT. Every operation of Machine/Serving.lean keeps the canonical form of the four stores, and the
command queue.
-/

set_option linter.unusedSimpArgs false

namespace Sys2Proof.Machine

variable {q : List Instr}

theorem State.modConv_kept {s : State} {i : Nat} {f : Convo → Convo} (hs : s.kept q) :
    (State.modConv s i f).kept q := by
  unfold State.modConv
  repeat' first
    | with_reducible assumption
    | intro z
    | lift_lets
    | simp only [kept_mk, held_fields]

theorem State.modReq_kept {s : State} {i : Nat} {f : Request → Request} (hs : s.kept q) :
    (State.modReq s i f).kept q := by
  unfold State.modReq
  repeat' first
    | with_reducible assumption
    | with_reducible refine State.modConv_kept ?_

theorem State.noteRequest_kept {s : State} {i : Nat} (hs : s.kept q) :
    (State.noteRequest s i).kept q := by
  unfold State.noteRequest
  repeat' first
    | with_reducible assumption
    | (with_reducible show State.kept z q; dsimp only [z]; clear z)
    | (intro z (hz : State.kept z q); try beta_reduce)
    | with_reducible refine State.ledger_kept ?_
    | (intro z; refine have hz : State.kept z q := ?_; ?_)
    | (intro z; refine have hz : State.kept z.1 q := ?_; ?_)
    | intro z
    | lift_lets
    | with_reducible refine kept_choice ?_ (fun _ => ?_)
    | simp only [kept_mk, held_fields]
    | with_reducible refine kept_foldl (fun _ _ _ => ?_) ?_
    | with_reducible refine kept_foldl_pair (fun _ _ _ => ?_) ?_
    | with_reducible refine kept_getD ?_ ?_
    | split
    | refine kept_of_pair (by with_reducible assumption) ?_
    | refine kept_of_some (by with_reducible assumption) ?_
    | (dsimp only [z]; try clear z)

theorem State.setPhase_kept {s : State} {i : Nat} {ph : ReqPhase} (hs : s.kept q) :
    (State.setPhase s i ph).kept q := by
  unfold State.setPhase
  repeat' first
    | with_reducible assumption
    | (with_reducible show State.kept z q; dsimp only [z]; clear z)
    | (intro z (hz : State.kept z q); try beta_reduce)
    | with_reducible refine State.modReq_kept ?_
    | with_reducible refine State.noteRequest_kept ?_
    | (intro z; refine have hz : State.kept z q := ?_; ?_)
    | (intro z; refine have hz : State.kept z.1 q := ?_; ?_)
    | intro z
    | lift_lets
    | with_reducible refine kept_choice ?_ (fun _ => ?_)
    | simp only [kept_mk, held_fields]
    | with_reducible refine kept_foldl (fun _ _ _ => ?_) ?_
    | with_reducible refine kept_foldl_pair (fun _ _ _ => ?_) ?_
    | with_reducible refine kept_getD ?_ ?_
    | split
    | refine kept_of_pair (by with_reducible assumption) ?_
    | refine kept_of_some (by with_reducible assumption) ?_
    | (dsimp only [z]; try clear z)

theorem State.serveEvent_kept {s : State} {i status severity code : Nat} {ecc : Option Word} {source : Nat} (hs : s.kept q) :
    (State.serveEvent s i status severity code ecc source).kept q := by
  unfold State.serveEvent
  repeat' first
    | with_reducible assumption
    | with_reducible refine State.report_kept ?_

theorem State.loadStart_kept {s : State} {p : PartNum} {i : Nat} (hs : s.kept q) :
    (State.loadStart s p i).kept q := by
  unfold State.loadStart
  repeat' first
    | with_reducible assumption
    | (with_reducible show State.kept z q; dsimp only [z]; clear z)
    | (intro z (hz : State.kept z q); try beta_reduce)
    | with_reducible refine State.setFrames_kept ?_
    | (intro z; refine have hz : State.kept z q := ?_; ?_)
    | (intro z; refine have hz : State.kept z.1 q := ?_; ?_)
    | intro z
    | lift_lets
    | with_reducible refine kept_choice ?_ (fun _ => ?_)
    | simp only [kept_mk, held_fields]
    | with_reducible refine kept_foldl (fun _ _ _ => ?_) ?_
    | with_reducible refine kept_foldl_pair (fun _ _ _ => ?_) ?_
    | with_reducible refine kept_getD ?_ ?_
    | split
    | refine kept_of_pair (by with_reducible assumption) ?_
    | refine kept_of_some (by with_reducible assumption) ?_
    | (dsimp only [z]; try clear z)

theorem State.loadRetry_kept {s : State} {p : PartNum} (hs : s.kept q) :
    (State.loadRetry s p).kept q := by
  unfold State.loadRetry
  repeat' first
    | with_reducible assumption
    | with_reducible refine State.loadStart_kept ?_
    | intro z
    | lift_lets
    | with_reducible refine kept_foldl (fun _ _ _ => ?_) ?_

theorem State.holdMove_kept {s : State} {i : Nat} (hs : s.kept q) :
    (State.holdMove s i).kept q := by
  unfold State.holdMove
  repeat' first
    | with_reducible assumption
    | (with_reducible show State.kept z q; dsimp only [z]; clear z)
    | (intro z (hz : State.kept z q); try beta_reduce)
    | with_reducible refine State.evictStart_kept ?_
    | (intro z; refine have hz : State.kept z q := ?_; ?_)
    | (intro z; refine have hz : State.kept z.1 q := ?_; ?_)
    | intro z
    | lift_lets
    | with_reducible refine kept_choice ?_ (fun _ => ?_)
    | simp only [kept_mk, held_fields]
    | with_reducible refine kept_foldl (fun _ _ _ => ?_) ?_
    | with_reducible refine kept_foldl_pair (fun _ _ _ => ?_) ?_
    | with_reducible refine kept_getD ?_ ?_
    | split
    | refine kept_of_pair (by with_reducible assumption) ?_
    | refine kept_of_some (by with_reducible assumption) ?_
    | (dsimp only [z]; try clear z)

theorem State.poolsGive_kept {s : State} {p : PartNum} (hs : s.kept q) :
    (State.poolsGive s p).kept q := by
  unfold State.poolsGive
  repeat' first
    | with_reducible assumption
    | (with_reducible show State.kept z q; dsimp only [z]; clear z)
    | (intro z (hz : State.kept z q); try beta_reduce)
    | with_reducible refine State.loadRetry_kept ?_
    | with_reducible refine State.holdMove_kept ?_
    | (intro z; refine have hz : State.kept z q := ?_; ?_)
    | (intro z; refine have hz : State.kept z.1 q := ?_; ?_)
    | intro z
    | lift_lets
    | with_reducible refine kept_choice ?_ (fun _ => ?_)
    | simp only [kept_mk, held_fields]
    | with_reducible refine kept_foldl (fun _ _ _ => ?_) ?_
    | with_reducible refine kept_foldl_pair (fun _ _ _ => ?_) ?_
    | with_reducible refine kept_getD ?_ ?_
    | split
    | refine kept_of_pair (by with_reducible assumption) ?_
    | refine kept_of_some (by with_reducible assumption) ?_
    | (dsimp only [z]; try clear z)

theorem State.enterEnding_kept {s : State} {i code : Nat} {ecc : Option Word} {source : Nat} (hs : s.kept q) :
    (State.enterEnding s i code ecc source).kept q := by
  unfold State.enterEnding
  repeat' first
    | with_reducible assumption
    | (with_reducible show State.kept z q; dsimp only [z]; clear z)
    | (intro z (hz : State.kept z q); try beta_reduce)
    | with_reducible refine State.seqUpdate_kept ?_
    | with_reducible refine State.modReq_kept ?_
    | with_reducible refine State.setPhase_kept ?_
    | with_reducible refine State.serveEvent_kept ?_
    | (intro z; refine have hz : State.kept z q := ?_; ?_)
    | (intro z; refine have hz : State.kept z.1 q := ?_; ?_)
    | intro z
    | lift_lets
    | with_reducible refine kept_choice ?_ (fun _ => ?_)
    | simp only [kept_mk, held_fields]
    | with_reducible refine kept_foldl (fun _ _ _ => ?_) ?_
    | with_reducible refine kept_foldl_pair (fun _ _ _ => ?_) ?_
    | with_reducible refine kept_getD ?_ ?_
    | split
    | refine kept_of_pair (by with_reducible assumption) ?_
    | refine kept_of_some (by with_reducible assumption) ?_
    | (dsimp only [z]; try clear z)

theorem State.poolFail_kept {s : State} {p : PartNum} (hs : s.kept q) :
    (State.poolFail s p).kept q := by
  unfold State.poolFail
  repeat' first
    | with_reducible assumption
    | (with_reducible show State.kept z q; dsimp only [z]; clear z)
    | (intro z (hz : State.kept z q); try beta_reduce)
    | with_reducible refine State.rebuildPools_kept ?_
    | with_reducible refine State.poolsGive_kept ?_
    | with_reducible refine State.enterEnding_kept ?_
    | (intro z; refine have hz : State.kept z q := ?_; ?_)
    | (intro z; refine have hz : State.kept z.1 q := ?_; ?_)
    | intro z
    | lift_lets
    | with_reducible refine kept_choice ?_ (fun _ => ?_)
    | simp only [kept_mk, held_fields]
    | with_reducible refine kept_foldl (fun _ _ _ => ?_) ?_
    | with_reducible refine kept_foldl_pair (fun _ _ _ => ?_) ?_
    | with_reducible refine kept_getD ?_ ?_
    | split
    | refine kept_of_pair (by with_reducible assumption) ?_
    | refine kept_of_some (by with_reducible assumption) ?_
    | (dsimp only [z]; try clear z)

theorem State.poolCheck_kept {s : State} {p : PartNum} {vault tier : Bool} (hs : s.kept q) :
    (State.poolCheck s p vault tier).kept q := by
  unfold State.poolCheck
  repeat' first
    | with_reducible assumption
    | (with_reducible show State.kept z q; dsimp only [z]; clear z)
    | (intro z (hz : State.kept z q); try beta_reduce)
    | with_reducible refine State.reelScan_kept ?_
    | with_reducible refine State.poolFail_kept ?_
    | (intro z; refine have hz : State.kept z q := ?_; ?_)
    | (intro z; refine have hz : State.kept z.1 q := ?_; ?_)
    | intro z
    | lift_lets
    | with_reducible refine kept_choice ?_ (fun _ => ?_)
    | simp only [kept_mk, held_fields]
    | with_reducible refine kept_foldl (fun _ _ _ => ?_) ?_
    | with_reducible refine kept_foldl_pair (fun _ _ _ => ?_) ?_
    | with_reducible refine kept_getD ?_ ?_
    | split
    | refine kept_of_pair (by with_reducible assumption) ?_
    | refine kept_of_some (by with_reducible assumption) ?_
    | (dsimp only [z]; try clear z)

theorem State.poolsRetry_kept {s : State} {p : PartNum} (hs : s.kept q) :
    (State.poolsRetry s p).kept q := by
  unfold State.poolsRetry
  repeat' first
    | with_reducible assumption
    | (with_reducible show State.kept z q; dsimp only [z]; clear z)
    | (intro z (hz : State.kept z q); try beta_reduce)
    | with_reducible refine State.poolsGive_kept ?_
    | with_reducible refine State.poolCheck_kept ?_
    | (intro z; refine have hz : State.kept z q := ?_; ?_)
    | (intro z; refine have hz : State.kept z.1 q := ?_; ?_)
    | intro z
    | lift_lets
    | with_reducible refine kept_choice ?_ (fun _ => ?_)
    | simp only [kept_mk, held_fields]
    | with_reducible refine kept_foldl (fun _ _ _ => ?_) ?_
    | with_reducible refine kept_foldl_pair (fun _ _ _ => ?_) ?_
    | with_reducible refine kept_getD ?_ ?_
    | split
    | refine kept_of_pair (by with_reducible assumption) ?_
    | refine kept_of_some (by with_reducible assumption) ?_
    | (dsimp only [z]; try clear z)

theorem State.holdStart_kept {s : State} {i : Nat} (hs : s.kept q) :
    (State.holdStart s i).kept q := by
  unfold State.holdStart
  repeat' first
    | with_reducible assumption
    | (with_reducible show State.kept z q; dsimp only [z]; clear z)
    | (intro z (hz : State.kept z q); try beta_reduce)
    | with_reducible refine State.holdMove_kept ?_
    | with_reducible refine State.poolCheck_kept ?_
    | (intro z; refine have hz : State.kept z q := ?_; ?_)
    | (intro z; refine have hz : State.kept z.1 q := ?_; ?_)
    | intro z
    | lift_lets
    | with_reducible refine kept_choice ?_ (fun _ => ?_)
    | simp only [kept_mk, held_fields]
    | with_reducible refine kept_foldl (fun _ _ _ => ?_) ?_
    | with_reducible refine kept_foldl_pair (fun _ _ _ => ?_) ?_
    | with_reducible refine kept_getD ?_ ?_
    | split
    | refine kept_of_pair (by with_reducible assumption) ?_
    | refine kept_of_some (by with_reducible assumption) ?_
    | (dsimp only [z]; try clear z)

theorem State.flushUpdates_kept {s : State} {p : PartNum} (hs : s.kept q) :
    (State.flushUpdates s p).kept q := by
  unfold State.flushUpdates
  repeat' first
    | with_reducible assumption
    | with_reducible refine State.seqFlush_kept ?_
    | with_reducible refine State.poolsRetry_kept ?_
    | with_reducible refine kept_choice ?_ (fun _ => ?_)

theorem State.update_kept {s : State} {p : PartNum} {u : SeqUpdate} (hs : s.kept q) :
    (State.update s p u).kept q := by
  unfold State.update
  repeat' first
    | with_reducible assumption
    | (with_reducible show State.kept z q; dsimp only [z]; clear z)
    | (intro z (hz : State.kept z q); try beta_reduce)
    | with_reducible refine State.seqUpdate_kept ?_
    | with_reducible refine State.flushUpdates_kept ?_
    | (intro z; refine have hz : State.kept z q := ?_; ?_)
    | (intro z; refine have hz : State.kept z.1 q := ?_; ?_)
    | intro z
    | lift_lets
    | with_reducible refine kept_choice ?_ (fun _ => ?_)
    | simp only [kept_mk, held_fields]
    | with_reducible refine kept_foldl (fun _ _ _ => ?_) ?_
    | with_reducible refine kept_foldl_pair (fun _ _ _ => ?_) ?_
    | with_reducible refine kept_getD ?_ ?_
    | split
    | refine kept_of_pair (by with_reducible assumption) ?_
    | refine kept_of_some (by with_reducible assumption) ?_
    | (dsimp only [z]; try clear z)

theorem State.releaseConv_kept {s : State} {i : Nat} (hs : s.kept q) :
    (State.releaseConv s i).kept q := by
  unfold State.releaseConv
  repeat' first
    | with_reducible assumption
    | (with_reducible show State.kept z q; dsimp only [z]; clear z)
    | (intro z (hz : State.kept z q); try beta_reduce)
    | with_reducible refine State.modConv_kept ?_
    | with_reducible refine State.noteRequest_kept ?_
    | with_reducible refine State.poolsRetry_kept ?_
    | with_reducible refine State.update_kept ?_
    | (intro z; refine have hz : State.kept z q := ?_; ?_)
    | (intro z; refine have hz : State.kept z.1 q := ?_; ?_)
    | intro z
    | lift_lets
    | with_reducible refine kept_choice ?_ (fun _ => ?_)
    | simp only [kept_mk, held_fields]
    | with_reducible refine kept_foldl (fun _ _ _ => ?_) ?_
    | with_reducible refine kept_foldl_pair (fun _ _ _ => ?_) ?_
    | with_reducible refine kept_getD ?_ ?_
    | split
    | refine kept_of_pair (by with_reducible assumption) ?_
    | refine kept_of_some (by with_reducible assumption) ?_
    | (dsimp only [z]; try clear z)

theorem State.requestEnded_kept {s : State} {i code : Nat} (hs : s.kept q) :
    (State.requestEnded s i code).kept q := by
  unfold State.requestEnded
  repeat' first
    | with_reducible assumption
    | (with_reducible show State.kept z q; dsimp only [z]; clear z)
    | (intro z (hz : State.kept z q); try beta_reduce)
    | with_reducible refine State.modConv_kept ?_
    | with_reducible refine State.modReq_kept ?_
    | with_reducible refine State.setPhase_kept ?_
    | with_reducible refine State.holdStart_kept ?_
    | with_reducible refine State.update_kept ?_
    | with_reducible refine State.releaseConv_kept ?_
    | (intro z; refine have hz : State.kept z q := ?_; ?_)
    | (intro z; refine have hz : State.kept z.1 q := ?_; ?_)
    | intro z
    | lift_lets
    | with_reducible refine kept_choice ?_ (fun _ => ?_)
    | simp only [kept_mk, held_fields]
    | with_reducible refine kept_foldl (fun _ _ _ => ?_) ?_
    | with_reducible refine kept_foldl_pair (fun _ _ _ => ?_) ?_
    | with_reducible refine kept_getD ?_ ?_
    | split
    | refine kept_of_pair (by with_reducible assumption) ?_
    | refine kept_of_some (by with_reducible assumption) ?_
    | (dsimp only [z]; try clear z)

theorem State.endRequest_kept {s : State} {i code : Nat} {ecc : Option Word} {source : Nat} (hs : s.kept q) :
    (State.endRequest s i code ecc source).kept q := by
  unfold State.endRequest
  repeat' first
    | with_reducible assumption
    | (with_reducible show State.kept z q; dsimp only [z]; clear z)
    | (intro z (hz : State.kept z q); try beta_reduce)
    | with_reducible refine State.enterEnding_kept ?_
    | with_reducible refine State.poolsRetry_kept ?_
    | (intro z; refine have hz : State.kept z q := ?_; ?_)
    | (intro z; refine have hz : State.kept z.1 q := ?_; ?_)
    | intro z
    | lift_lets
    | with_reducible refine kept_choice ?_ (fun _ => ?_)
    | simp only [kept_mk, held_fields]
    | with_reducible refine kept_foldl (fun _ _ _ => ?_) ?_
    | with_reducible refine kept_foldl_pair (fun _ _ _ => ?_) ?_
    | with_reducible refine kept_getD ?_ ?_
    | split
    | refine kept_of_pair (by with_reducible assumption) ?_
    | refine kept_of_some (by with_reducible assumption) ?_
    | (dsimp only [z]; try clear z)

theorem State.readConsumed_kept {s : State} {i : Nat} (hs : s.kept q) :
    (State.readConsumed s i).kept q := by
  unfold State.readConsumed
  repeat' first
    | with_reducible assumption
    | (with_reducible show State.kept z q; dsimp only [z]; clear z)
    | with_reducible refine State.raiseBit_kept ?_
    | with_reducible refine State.report_kept ?_
    | with_reducible refine State.modReq_kept ?_
    | (intro z; refine have hz : State.kept z q := ?_; ?_)
    | intro z
    | lift_lets
    | with_reducible refine kept_choice ?_ (fun _ => ?_)
    | simp only [kept_mk, held_fields]
    | split

theorem State.writeRecord_kept {s : State} {i token last code logprob pos : Nat} (hs : s.kept q) :
    (State.writeRecord s i token last code logprob pos).kept q := by
  unfold State.writeRecord
  repeat' first
    | with_reducible assumption
    | with_reducible refine State.blockWrite_kept ?_
    | with_reducible refine State.modReq_kept ?_
    | intro z
    | lift_lets
    | simp only [kept_mk, held_fields]
    | split

theorem State.writeEnd_kept {s : State} {i : Nat} (hs : s.kept q) :
    (State.writeEnd s i).kept q := by
  unfold State.writeEnd
  repeat' first
    | with_reducible assumption
    | with_reducible refine State.requestEnded_kept ?_
    | with_reducible refine State.writeRecord_kept ?_
    | with_reducible refine kept_choice ?_ (fun _ => ?_)
    | split

theorem State.forceEnd_kept {s : State} {i : Nat} (hs : s.kept q) :
    (State.forceEnd s i).kept q := by
  unfold State.forceEnd
  repeat' first
    | with_reducible assumption
    | with_reducible refine State.modReq_kept ?_
    | with_reducible refine State.releaseConv_kept ?_
    | with_reducible refine State.endRequest_kept ?_
    | with_reducible refine State.readConsumed_kept ?_
    | with_reducible refine State.writeEnd_kept ?_

theorem State.stallFull_kept {s : State} {p : PartNum} (hs : s.kept q) :
    (State.stallFull s p).kept q := by
  unfold State.stallFull
  repeat' first
    | with_reducible assumption
    | with_reducible refine State.setPhase_kept ?_
    | lift_lets
    | with_reducible refine kept_choice ?_ (fun _ => ?_)
    | with_reducible refine kept_foldl (fun _ _ _ => ?_) ?_
    | split

theorem State.unstall_kept {s : State} {i : Nat} (hs : s.kept q) :
    (State.unstall s i).kept q := by
  unfold State.unstall
  repeat' first
    | with_reducible assumption
    | with_reducible refine State.setPhase_kept ?_
    | with_reducible refine kept_choice ?_ (fun _ => ?_)
    | split

theorem State.enterStep_kept {s : State} {x : Nat × Nat × Bool} (hs : s.kept q) :
    (State.enterStep s x).kept q := by
  unfold State.enterStep
  repeat' first
    | with_reducible assumption
    | (with_reducible show State.kept z q; dsimp only [z]; clear z)
    | with_reducible refine State.modReq_kept ?_
    | with_reducible refine State.setPhase_kept ?_
    | (intro z; refine have hz : State.kept z q := ?_; ?_)
    | lift_lets
    | with_reducible refine kept_choice ?_ (fun _ => ?_)
    | simp only [kept_mk, held_fields]
    | split

theorem State.postStep_kept {s : State} {p : PartNum} (hs : s.kept q) :
    (State.postStep s p).kept q := by
  unfold State.postStep
  repeat' first
    | with_reducible assumption
    | (with_reducible show State.kept z q; dsimp only [z]; clear z)
    | (intro z (hz : State.kept z q); try beta_reduce)
    | with_reducible refine State.set_kept ?_
    | with_reducible refine State.bump_kept ?_
    | with_reducible refine State.write_kept ?_
    | with_reducible refine State.stepGo_kept ?_
    | with_reducible refine State.flushUpdates_kept ?_
    | with_reducible refine State.readConsumed_kept ?_
    | with_reducible refine State.stallFull_kept ?_
    | with_reducible refine State.unstall_kept ?_
    | with_reducible refine State.enterStep_kept ?_
    | (intro z; refine have hz : State.kept z q := ?_; ?_)
    | (intro z; refine have hz : State.kept z.1 q := ?_; ?_)
    | intro z
    | lift_lets
    | with_reducible refine kept_choice ?_ (fun _ => ?_)
    | simp only [kept_mk, held_fields]
    | with_reducible refine kept_foldl (fun _ _ _ => ?_) ?_
    | with_reducible refine kept_foldl_pair (fun _ _ _ => ?_) ?_
    | with_reducible refine kept_getD ?_ ?_
    | split
    | refine kept_of_pair (by with_reducible assumption) ?_
    | refine kept_of_some (by with_reducible assumption) ?_
    | (dsimp only [z]; try clear z)

theorem State.leaveStep_kept {s : State} {i : Nat} (hs : s.kept q) :
    (State.leaveStep s i).kept q := by
  unfold State.leaveStep
  repeat' first
    | with_reducible assumption
    | (with_reducible show State.kept z q; dsimp only [z]; clear z)
    | with_reducible refine State.modReq_kept ?_
    | with_reducible refine State.endRequest_kept ?_
    | (intro z; refine have hz : State.kept z q := ?_; ?_)
    | lift_lets
    | with_reducible refine kept_choice ?_ (fun _ => ?_)
    | split

theorem State.slotResult_kept {s : State} {x : StepSlot × Nat × Nat} (hs : s.kept q) :
    (State.slotResult s x).kept q := by
  unfold State.slotResult
  repeat' first
    | with_reducible assumption
    | (with_reducible show State.kept z q; dsimp only [z]; clear z)
    | with_reducible refine State.modReq_kept ?_
    | with_reducible refine State.setPhase_kept ?_
    | with_reducible refine State.endRequest_kept ?_
    | with_reducible refine State.leaveStep_kept ?_
    | (intro z; refine have hz : State.kept z q := ?_; ?_)
    | intro z
    | lift_lets
    | with_reducible refine kept_choice ?_ (fun _ => ?_)
    | simp only [kept_mk, held_fields]
    | split

theorem State.closeStep_kept {s : State} {p : PartNum} (hs : s.kept q) :
    (State.closeStep s p).kept q := by
  unfold State.closeStep
  repeat' first
    | with_reducible assumption
    | intro z
    | lift_lets
    | with_reducible refine kept_choice ?_ (fun _ => ?_)
    | simp only [kept_mk, held_fields]
    | split

theorem execStepPost_kept {p : PartNum} {hw : HostStores} {s : State} (hs : s.kept q) :
    Keeps q (execStepPost p hw s) := by
  unfold execStepPost
  repeat' first
    | with_reducible assumption
    | with_reducible refine keeps_next ?_
    | with_reducible refine State.hostStores_kept ?_
    | with_reducible refine State.postStep_kept ?_

theorem State.reelGoWrite_kept {s : State} {p : PartNum} {v : Word} (hs : s.kept q) :
    (State.reelGoWrite s p v).kept q := by
  unfold State.reelGoWrite
  repeat' first
    | with_reducible assumption
    | with_reducible refine State.stepGo_kept ?_
    | with_reducible refine State.flushUpdates_kept ?_
    | with_reducible refine kept_choice ?_ (fun _ => ?_)

theorem execReelStepComplete_kept {p : PartNum} {s : State} (hs : s.kept q) :
    Keeps q (execReelStepComplete p s) := by
  unfold execReelStepComplete
  repeat' first
    | with_reducible assumption
    | (with_reducible show Keeps _ _; lift_lets)
    | with_reducible refine keeps_next ?_
    | with_reducible refine State.stepFinish_kept ?_
    | with_reducible refine State.poolFail_kept ?_
    | with_reducible refine State.slotResult_kept ?_
    | with_reducible refine State.closeStep_kept ?_
    | lift_lets
    | with_reducible refine kept_choice ?_ (fun _ => ?_)
    | simp only [kept_mk, held_fields]
    | with_reducible refine kept_foldl (fun _ _ _ => ?_) ?_

theorem execSequenceUpdateApply_kept {p : PartNum} {s : State} (hs : s.kept q) :
    Keeps q (execSequenceUpdateApply p s) := by
  unfold execSequenceUpdateApply
  repeat' first
    | with_reducible assumption
    | with_reducible refine keeps_next ?_
    | with_reducible refine State.flushUpdates_kept ?_

theorem State.evictFor_kept {p : PartNum} {need except_ k : Nat} :
    ∀ {s : State}, s.kept q → (State.evictFor s p need except_ k).kept q := by
  induction k with
  | zero => intro s h; exact h
  | succ k ih =>
    intro s h
    unfold State.evictFor
    split
    · exact h
    · split
      · exact h
      · split
        · exact ih (kept_of_some ‹_› (State.evictStart_kept h))
        · exact h

theorem execParkExpiry_kept {p : PartNum} {s : State} (hs : s.kept q) :
    Keeps q (execParkExpiry p s) := by
  unfold execParkExpiry
  repeat' first
    | with_reducible assumption
    | (with_reducible show Keeps _ _; lift_lets)
    | with_reducible refine keeps_next ?_
    | with_reducible exact keeps_fault
    | with_reducible refine keeps_choice ?_ ?_
    | (with_reducible show State.kept z q; dsimp only [z]; clear z)
    | (intro z (hz : State.kept z q); try beta_reduce)
    | with_reducible refine State.bump_kept ?_
    | with_reducible refine State.poolCheck_kept ?_
    | with_reducible refine State.endRequest_kept ?_
    | with_reducible refine State.evictFor_kept ?_
    | (intro z; refine have hz : State.kept z q := ?_; ?_)
    | (intro z; refine have hz : State.kept z.1 q := ?_; ?_)
    | intro z
    | lift_lets
    | with_reducible refine kept_choice ?_ (fun _ => ?_)
    | simp only [kept_mk, held_fields]
    | with_reducible refine kept_foldl (fun _ _ _ => ?_) ?_
    | with_reducible refine kept_foldl_pair (fun _ _ _ => ?_) ?_
    | with_reducible refine kept_getD ?_ ?_
    | split
    | refine kept_of_pair (by with_reducible assumption) ?_
    | refine kept_of_some (by with_reducible assumption) ?_
    | (dsimp only [z]; try clear z)

theorem execEvictionCopyDone_kept {p : PartNum} {s : State} (hs : s.kept q) :
    Keeps q (execEvictionCopyDone p s) := by
  unfold execEvictionCopyDone
  repeat' first
    | with_reducible assumption
    | (with_reducible show Keeps _ _; lift_lets)
    | with_reducible refine keeps_next ?_
    | with_reducible exact keeps_fault
    | with_reducible refine keeps_choice ?_ ?_
    | (with_reducible show State.kept z q; dsimp only [z]; clear z)
    | (intro z (hz : State.kept z q); try beta_reduce)
    | with_reducible refine State.evictEnd_kept ?_
    | with_reducible refine State.poolsRetry_kept ?_
    | with_reducible refine State.endRequest_kept ?_
    | (intro z; refine have hz : State.kept z q := ?_; ?_)
    | (intro z; refine have hz : State.kept z.1 q := ?_; ?_)
    | intro z
    | lift_lets
    | with_reducible refine kept_choice ?_ (fun _ => ?_)
    | simp only [kept_mk, held_fields]
    | with_reducible refine kept_foldl (fun _ _ _ => ?_) ?_
    | with_reducible refine kept_foldl_pair (fun _ _ _ => ?_) ?_
    | with_reducible refine kept_getD ?_ ?_
    | split
    | refine kept_of_pair (by with_reducible assumption) ?_
    | refine kept_of_some (by with_reducible assumption) ?_
    | (dsimp only [z]; try clear z)

theorem execCopyBackDone_kept {p : PartNum} {s : State} (hs : s.kept q) :
    Keeps q (execCopyBackDone p s) := by
  unfold execCopyBackDone
  repeat' first
    | with_reducible assumption
    | (with_reducible show Keeps _ _; lift_lets)
    | with_reducible refine keeps_next ?_
    | with_reducible exact keeps_fault
    | with_reducible refine keeps_choice ?_ ?_
    | (with_reducible show State.kept z q; dsimp only [z]; clear z)
    | (intro z (hz : State.kept z q); try beta_reduce)
    | with_reducible refine State.copyBackEnd_kept ?_
    | with_reducible refine State.modReq_kept ?_
    | with_reducible refine State.setPhase_kept ?_
    | with_reducible refine State.poolsRetry_kept ?_
    | with_reducible refine State.update_kept ?_
    | with_reducible refine State.endRequest_kept ?_
    | (intro z; refine have hz : State.kept z q := ?_; ?_)
    | (intro z; refine have hz : State.kept z.1 q := ?_; ?_)
    | intro z
    | lift_lets
    | with_reducible refine kept_choice ?_ (fun _ => ?_)
    | simp only [kept_mk, held_fields]
    | with_reducible refine kept_foldl (fun _ _ _ => ?_) ?_
    | with_reducible refine kept_foldl_pair (fun _ _ _ => ?_) ?_
    | with_reducible refine kept_getD ?_ ?_
    | split
    | refine kept_of_pair (by with_reducible assumption) ?_
    | refine kept_of_some (by with_reducible assumption) ?_
    | (dsimp only [z]; try clear z)

theorem execStalledRingReread_kept {i : Fin 16384} {hw : HostStores} {s : State} (hs : s.kept q) :
    Keeps q (execStalledRingReread i hw s) := by
  unfold execStalledRingReread
  repeat' first
    | with_reducible assumption
    | (with_reducible show Keeps _ _; lift_lets)
    | with_reducible refine keeps_next ?_
    | with_reducible refine State.hostStores_kept ?_
    | with_reducible refine State.readConsumed_kept ?_
    | with_reducible refine State.unstall_kept ?_
    | lift_lets
    | with_reducible refine kept_choice ?_ (fun _ => ?_)
    | split

theorem execEndRecordWrite_kept {i : Fin 16384} {hw : HostStores} {s : State} (hs : s.kept q) :
    Keeps q (execEndRecordWrite i hw s) := by
  unfold execEndRecordWrite
  repeat' first
    | with_reducible assumption
    | (with_reducible show Keeps _ _; lift_lets)
    | with_reducible refine keeps_next ?_
    | with_reducible refine State.hostStores_kept ?_
    | with_reducible refine State.readConsumed_kept ?_
    | with_reducible refine State.writeEnd_kept ?_
    | lift_lets
    | with_reducible refine kept_choice ?_ (fun _ => ?_)
    | split

theorem execTtlExpiry_kept {i : Fin 16384} {s : State} (hs : s.kept q) :
    Keeps q (execTtlExpiry i s) := by
  unfold execTtlExpiry
  repeat' first
    | with_reducible assumption
    | (with_reducible show Keeps _ _; lift_lets)
    | with_reducible refine keeps_next ?_
    | with_reducible refine State.modConv_kept ?_
    | with_reducible refine State.serveEvent_kept ?_
    | with_reducible refine State.releaseConv_kept ?_
    | lift_lets
    | with_reducible refine kept_choice ?_ (fun _ => ?_)
    | split

theorem execVaultHoldExpiry_kept {i : Fin 16384} {s : State} (hs : s.kept q) :
    Keeps q (execVaultHoldExpiry i s) := by
  unfold execVaultHoldExpiry
  repeat' first
    | with_reducible assumption
    | (with_reducible show Keeps _ _; lift_lets)
    | with_reducible refine keeps_next ?_
    | with_reducible exact keeps_fault
    | with_reducible refine keeps_choice ?_ ?_
    | (with_reducible show State.kept z q; dsimp only [z]; clear z)
    | (intro z (hz : State.kept z q); try beta_reduce)
    | with_reducible refine State.holdStart_kept ?_
    | (intro z; refine have hz : State.kept z q := ?_; ?_)
    | (intro z; refine have hz : State.kept z.1 q := ?_; ?_)
    | intro z
    | lift_lets
    | with_reducible refine kept_choice ?_ (fun _ => ?_)
    | simp only [kept_mk, held_fields]
    | with_reducible refine kept_foldl (fun _ _ _ => ?_) ?_
    | with_reducible refine kept_foldl_pair (fun _ _ _ => ?_) ?_
    | with_reducible refine kept_getD ?_ ?_
    | split
    | refine kept_of_pair (by with_reducible assumption) ?_
    | refine kept_of_some (by with_reducible assumption) ?_
    | (dsimp only [z]; try clear z)

theorem execLoadingTimeout_kept {i : Fin 16384} {s : State} (hs : s.kept q) :
    Keeps q (execLoadingTimeout i s) := by
  unfold execLoadingTimeout
  repeat' first
    | with_reducible assumption
    | (with_reducible show Keeps _ _; lift_lets)
    | with_reducible refine keeps_next ?_
    | with_reducible exact keeps_fault
    | with_reducible refine keeps_choice ?_ ?_
    | (with_reducible show State.kept z q; dsimp only [z]; clear z)
    | (intro z (hz : State.kept z q); try beta_reduce)
    | with_reducible refine State.loadStart_kept ?_
    | with_reducible refine State.poolCheck_kept ?_
    | with_reducible refine State.endRequest_kept ?_
    | with_reducible refine State.evictFor_kept ?_
    | (intro z; refine have hz : State.kept z q := ?_; ?_)
    | (intro z; refine have hz : State.kept z.1 q := ?_; ?_)
    | intro z
    | lift_lets
    | with_reducible refine kept_choice ?_ (fun _ => ?_)
    | simp only [kept_mk, held_fields]
    | with_reducible refine kept_foldl (fun _ _ _ => ?_) ?_
    | with_reducible refine kept_foldl_pair (fun _ _ _ => ?_) ?_
    | with_reducible refine kept_getD ?_ ?_
    | split
    | refine kept_of_pair (by with_reducible assumption) ?_
    | refine kept_of_some (by with_reducible assumption) ?_
    | (dsimp only [z]; try clear z)

theorem State.submitNew_kept {s : State} {p : PartNum} {d : ReqDesc} {prompt : List Nat} (hs : s.kept q) :
    (State.submitNew s p d prompt).1.kept q := by
  unfold State.submitNew
  repeat' first
    | with_reducible assumption
    | (with_reducible show State.kept z q; dsimp only [z]; clear z)
    | (intro z (hz : State.kept z q); try beta_reduce)
    | with_reducible refine State.blockWrite_kept ?_
    | with_reducible refine State.modConv_kept ?_
    | with_reducible refine State.noteRequest_kept ?_
    | with_reducible refine State.update_kept ?_
    | (intro z; refine have hz : State.kept z q := ?_; ?_)
    | (intro z; refine have hz : State.kept z.1 q := ?_; ?_)
    | intro z
    | lift_lets
    | with_reducible refine kept_choice ?_ (fun _ => ?_)
    | simp only [kept_mk, held_fields]
    | with_reducible refine kept_foldl (fun _ _ _ => ?_) ?_
    | with_reducible refine kept_foldl_pair (fun _ _ _ => ?_) ?_
    | with_reducible refine kept_getD ?_ ?_
    | split
    | refine kept_of_pair (by with_reducible assumption) ?_
    | refine kept_of_some (by with_reducible assumption) ?_
    | (dsimp only [z]; try clear z)

theorem State.submitContinue_kept {s : State} {p : PartNum} {d : ReqDesc} {prompt : List Nat} (hs : s.kept q) :
    (State.submitContinue s p d prompt).1.kept q := by
  unfold State.submitContinue
  repeat' first
    | with_reducible assumption
    | (with_reducible show State.kept z q; dsimp only [z]; clear z)
    | (intro z (hz : State.kept z q); try beta_reduce)
    | with_reducible refine State.blockWrite_kept ?_
    | with_reducible refine State.modConv_kept ?_
    | with_reducible refine State.noteRequest_kept ?_
    | with_reducible refine State.loadStart_kept ?_
    | with_reducible refine State.poolCheck_kept ?_
    | with_reducible refine State.update_kept ?_
    | (intro z; refine have hz : State.kept z q := ?_; ?_)
    | (intro z; refine have hz : State.kept z.1 q := ?_; ?_)
    | intro z
    | lift_lets
    | with_reducible refine kept_choice ?_ (fun _ => ?_)
    | simp only [kept_mk, held_fields]
    | with_reducible refine kept_foldl (fun _ _ _ => ?_) ?_
    | with_reducible refine kept_foldl_pair (fun _ _ _ => ?_) ?_
    | with_reducible refine kept_getD ?_ ?_
    | split
    | refine kept_of_pair (by with_reducible assumption) ?_
    | refine kept_of_some (by with_reducible assumption) ?_
    | (dsimp only [z]; try clear z)

theorem execReqSubmit_kept {c : CmdRef} {hw : HostStores} {s : State} (hs : s.kept q) :
    Keeps q (execReqSubmit c hw s) := by
  unfold execReqSubmit
  repeat' first
    | with_reducible assumption
    | (with_reducible show Keeps _ _; lift_lets)
    | with_reducible refine keeps_next ?_
    | with_reducible refine State.hostStores_kept ?_
    | with_reducible refine State.complete_kept ?_
    | with_reducible refine State.runPart_kept ?_ ?_
    | with_reducible refine State.submitNew_kept ?_
    | with_reducible refine State.submitContinue_kept ?_
    | (intro z (hz : State.kept z q); try beta_reduce)
    | (intro z; refine have hz : State.kept z.1 q := ?_; ?_)
    | intro z
    | lift_lets
    | with_reducible refine kept_choice ?_ (fun _ => ?_)
    | split
    | (dsimp only [z]; try clear z)

theorem execReqCancel_kept {c : CmdRef} {s : State} (hs : s.kept q) :
    Keeps q (execReqCancel c s) := by
  unfold execReqCancel
  repeat' first
    | with_reducible assumption
    | with_reducible refine keeps_next ?_
    | with_reducible refine State.bump_kept ?_
    | with_reducible refine State.complete_kept ?_
    | with_reducible refine State.runPart_kept ?_ ?_
    | with_reducible refine State.modReq_kept ?_
    | with_reducible refine State.endRequest_kept ?_
    | (intro z (hz : State.kept z q); try beta_reduce)
    | intro z
    | with_reducible refine kept_choice ?_ (fun _ => ?_)
    | split

theorem execConvRelease_kept {c : CmdRef} {s : State} (hs : s.kept q) :
    Keeps q (execConvRelease c s) := by
  unfold execConvRelease
  repeat' first
    | with_reducible assumption
    | (with_reducible show Keeps _ _; lift_lets)
    | with_reducible refine keeps_next ?_
    | with_reducible refine State.complete_kept ?_
    | with_reducible refine State.runPart_kept ?_ ?_
    | with_reducible refine State.releaseConv_kept ?_
    | (intro z (hz : State.kept z q); try beta_reduce)
    | intro z
    | lift_lets
    | with_reducible refine kept_choice ?_ (fun _ => ?_)
    | split

theorem execReqQuery_kept {c : CmdRef} {s : State} (hs : s.kept q) :
    Keeps q (execReqQuery c s) := by
  unfold execReqQuery
  repeat' first
    | with_reducible assumption
    | (with_reducible show Keeps _ _; lift_lets)
    | with_reducible refine keeps_next ?_
    | with_reducible exact keeps_fault
    | with_reducible refine keeps_choice ?_ ?_
    | (with_reducible show State.kept z q; dsimp only [z]; clear z)
    | (intro z (hz : State.kept z q); try beta_reduce)
    | with_reducible refine State.complete_kept ?_
    | with_reducible refine State.runPart_kept ?_ ?_
    | (intro z; refine have hz : State.kept z q := ?_; ?_)
    | (intro z; refine have hz : State.kept z.1 q := ?_; ?_)
    | intro z
    | lift_lets
    | with_reducible refine kept_choice ?_ (fun _ => ?_)
    | simp only [kept_mk, held_fields]
    | with_reducible refine kept_foldl (fun _ _ _ => ?_) ?_
    | with_reducible refine kept_foldl_pair (fun _ _ _ => ?_) ?_
    | with_reducible refine kept_getD ?_ ?_
    | split
    | refine kept_of_pair (by with_reducible assumption) ?_
    | refine kept_of_some (by with_reducible assumption) ?_
    | (dsimp only [z]; try clear z)

theorem execServeConfig_kept {c : CmdRef} {s : State} (hs : s.kept q) :
    Keeps q (execServeConfig c s) := by
  unfold execServeConfig
  repeat' first
    | with_reducible assumption
    | (with_reducible show Keeps _ _; lift_lets)
    | with_reducible refine keeps_next ?_
    | with_reducible exact keeps_fault
    | with_reducible refine keeps_choice ?_ ?_
    | (with_reducible show State.kept z q; dsimp only [z]; clear z)
    | (intro z (hz : State.kept z q); try beta_reduce)
    | with_reducible refine State.set_kept ?_
    | with_reducible refine State.complete_kept ?_
    | with_reducible refine State.runPart_kept ?_ ?_
    | (intro z; refine have hz : State.kept z q := ?_; ?_)
    | (intro z; refine have hz : State.kept z.1 q := ?_; ?_)
    | intro z
    | lift_lets
    | with_reducible refine kept_choice ?_ (fun _ => ?_)
    | simp only [kept_mk, held_fields]
    | with_reducible refine kept_foldl (fun _ _ _ => ?_) ?_
    | with_reducible refine kept_foldl_pair (fun _ _ _ => ?_) ?_
    | with_reducible refine kept_getD ?_ ?_
    | split
    | refine kept_of_pair (by with_reducible assumption) ?_
    | refine kept_of_some (by with_reducible assumption) ?_
    | (dsimp only [z]; try clear z)

end Sys2Proof.Machine
end

