-- ==== Sys2Proof/Laws/KeptShuttle.lean ====
section
/-!
SUPPORT. Every operation of Machine/Shuttle.lean keeps the canonical form of the four stores, and the
command queue.
-/

set_option linter.unusedSimpArgs false

namespace Sys2Proof.Machine

variable {q : List Instr}

theorem State.modSht_kept {s : State} {i : Fin 4} {f : ShtInst → ShtInst} (hs : s.kept q) :
    (State.modSht s i f).kept q := by
  unfold State.modSht
  repeat' first
    | with_reducible assumption
    | simp only [kept_mk, held_fields]

theorem State.shtForward_kept {s : State} {i : Fin 4} {b : Burst} (hs : s.kept q) :
    (State.shtForward s i b).kept q := by
  unfold State.shtForward
  repeat' first
    | with_reducible assumption
    | with_reducible refine State.modSht_kept ?_
    | with_reducible refine kept_choice ?_ (fun _ => ?_)
    | split

theorem State.tickSht_kept {s : State} (hs : s.kept q) :
    (State.tickSht s).kept q := by
  unfold State.tickSht
  repeat' first
    | with_reducible assumption
    | with_reducible refine State.modSht_kept ?_
    | with_reducible refine kept_foldl (fun _ _ _ => ?_) ?_

theorem State.shtStage_kept {s : State} {i : Fin 4} {r weight ceiling hold : Nat} (hs : s.kept q) :
    (State.shtStage s i r weight ceiling hold).kept q := by
  unfold State.shtStage
  repeat' first
    | with_reducible assumption
    | with_reducible refine State.setReg_kept ?_

theorem State.shtStageWeight_kept {s : State} {i : Fin 4} {r weight ceiling : Nat} (hs : s.kept q) :
    (State.shtStageWeight s i r weight ceiling).kept q := by
  unfold State.shtStageWeight
  repeat' first
    | with_reducible assumption
    | with_reducible refine State.setReg_kept ?_

theorem State.shtArm_kept {s : State} {mask : Nat} (hs : s.kept q) :
    (State.shtArm s mask).kept q := by
  unfold State.shtArm
  repeat' first
    | with_reducible assumption
    | with_reducible refine State.set_kept ?_
    | with_reducible refine State.modSht_kept ?_
    | lift_lets
    | with_reducible refine kept_choice ?_ (fun _ => ?_)
    | with_reducible refine kept_foldl (fun _ _ _ => ?_) ?_

theorem State.shtApply_kept {s : State} {i : Fin 4} (hs : s.kept q) :
    (State.shtApply s i).kept q := by
  unfold State.shtApply
  repeat' first
    | with_reducible assumption
    | with_reducible refine State.setReg_kept ?_
    | with_reducible refine kept_foldl (fun _ _ _ => ?_) ?_

theorem State.shtBoundaryCommit_kept {s : State} {i : Fin 4} (hs : s.kept q) :
    (State.shtBoundaryCommit s i).kept q := by
  unfold State.shtBoundaryCommit
  repeat' first
    | with_reducible assumption
    | (with_reducible show State.kept z q; dsimp only [z]; clear z)
    | with_reducible refine State.set_kept ?_
    | with_reducible refine State.raiseBit_kept ?_
    | with_reducible refine State.modSht_kept ?_
    | with_reducible refine State.shtApply_kept ?_
    | (intro z; refine have hz : State.kept z q := ?_; ?_)
    | lift_lets
    | with_reducible refine kept_choice ?_ (fun _ => ?_)

theorem State.shtBoundary_kept {s : State} {i : Fin 4} (hs : s.kept q) :
    (State.shtBoundary s i).kept q := by
  unfold State.shtBoundary
  repeat' first
    | with_reducible assumption
    | (with_reducible show State.kept z q; dsimp only [z]; clear z)
    | with_reducible refine State.bump_kept ?_
    | with_reducible refine State.modSht_kept ?_
    | with_reducible refine State.shtBoundaryCommit_kept ?_
    | (intro z; refine have hz : State.kept z q := ?_; ?_)
    | intro z
    | lift_lets
    | with_reducible refine kept_choice ?_ (fun _ => ?_)
    | with_reducible refine kept_foldl (fun _ _ _ => ?_) ?_

theorem State.shtCommitWrite_kept {s : State} {v : Word} (hs : s.kept q) :
    (State.shtCommitWrite s v).kept q := by
  unfold State.shtCommitWrite
  repeat' first
    | with_reducible assumption
    | with_reducible refine State.shtArm_kept ?_

theorem execBurstRequest_kept {inst : Fin 4} {source : ShtSource} {transfer : Transfer} {s : State} (hs : s.kept q) :
    Keeps q (execBurstRequest inst source transfer s) := by
  unfold execBurstRequest
  repeat' first
    | with_reducible assumption
    | with_reducible refine keeps_next ?_
    | with_reducible refine State.modSht_kept ?_
    | lift_lets
    | with_reducible refine kept_choice ?_ (fun _ => ?_)
    | split

theorem execArbitration_kept {inst : Fin 4} {s : State} (hs : s.kept q) :
    Keeps q (execArbitration inst s) := by
  unfold execArbitration
  repeat' first
    | with_reducible assumption
    | (with_reducible show Keeps _ _; lift_lets)
    | with_reducible refine keeps_next ?_
    | with_reducible refine State.addTo_kept ?_
    | with_reducible refine State.modSht_kept ?_
    | with_reducible refine State.shtForward_kept ?_
    | lift_lets
    | with_reducible refine kept_choice ?_ (fun _ => ?_)
    | simp only [kept_mk, held_fields]
    | split

theorem execHoldLimitCut_kept {inst : Fin 4} {delivered : Nat} {s : State} (hs : s.kept q) :
    Keeps q (execHoldLimitCut inst delivered s) := by
  unfold execHoldLimitCut
  repeat' first
    | with_reducible assumption
    | (with_reducible show Keeps _ _; lift_lets)
    | with_reducible refine keeps_next ?_
    | with_reducible refine State.set_kept ?_
    | with_reducible refine State.bump_kept ?_
    | with_reducible refine State.raiseBit_kept ?_
    | with_reducible refine State.report_kept ?_
    | with_reducible refine State.modSht_kept ?_
    | with_reducible refine State.shtForward_kept ?_
    | lift_lets
    | with_reducible refine kept_choice ?_ (fun _ => ?_)
    | simp only [kept_mk, held_fields]
    | split

theorem execWindowBoundary_kept {s : State} (hs : s.kept q) :
    Keeps q (execWindowBoundary s) := by
  unfold execWindowBoundary
  repeat' first
    | with_reducible assumption
    | with_reducible refine keeps_next ?_
    | with_reducible refine State.bump_kept ?_
    | with_reducible refine State.shtBoundary_kept ?_
    | lift_lets
    | with_reducible refine kept_choice ?_ (fun _ => ?_)
    | with_reducible refine kept_foldl (fun _ _ _ => ?_) ?_

end Sys2Proof.Machine
end

