-- ==== Sys2Proof/Laws/KeptVideo.lean ====
section
/-!
SUPPORT. Every operation of Machine/Video.lean keeps the canonical form of the four stores, and the
command queue.
-/

set_option linter.unusedSimpArgs false

namespace Sys2Proof.Machine

variable {q : List Instr}

theorem State.rcCommit_kept {s : State} {e : Nat} (hs : s.kept q) :
    (State.rcCommit s e).kept q := by
  unfold State.rcCommit
  repeat' first
    | with_reducible assumption
    | with_reducible refine State.setReg_kept ?_
    | with_reducible refine State.raiseBit_kept ?_
    | intro z
    | lift_lets
    | with_reducible refine kept_choice ?_ (fun _ => ?_)
    | with_reducible refine kept_foldl (fun _ _ _ => ?_) ?_

theorem State.setSes_kept {s : State} {i : Fin 48} {v : Option Session} (hs : s.kept q) :
    (State.setSes s i v).kept q := by
  unfold State.setSes
  repeat' first
    | with_reducible assumption
    | simp only [kept_mk, held_fields]

theorem State.modSes_kept {s : State} {i : Fin 48} {f : Session → Session} (hs : s.kept q) :
    (State.modSes s i f).kept q := by
  unfold State.modSes
  repeat' first
    | with_reducible assumption
    | with_reducible refine State.setSes_kept ?_

theorem State.vidDenied_kept {s : State} {p : PartNum} {a : Nat} (hs : s.kept q) :
    (State.vidDenied s p a).kept q := by
  unfold State.vidDenied
  repeat' first
    | with_reducible assumption
    | (with_reducible show State.kept z q; dsimp only [z]; clear z)
    | (intro z (hz : State.kept z q); try beta_reduce)
    | with_reducible refine State.accessError_kept ?_
    | (intro z; refine have hz : State.kept z q := ?_; ?_)
    | (intro z; refine have hz : State.kept z.1 q := ?_; ?_)
    | intro z
    | lift_lets
    | with_reducible refine kept_choice ?_ (fun _ => ?_)
    | simp only [kept_mk, held_fields]
    | with_reducible refine kept_foldl (fun _ _ _ => ?_) ?_
    | with_reducible refine kept_foldl_pair (fun _ _ _ => ?_) ?_
    | with_reducible refine kept_getD ?_ ?_
    | split
    | refine kept_of_pair (by with_reducible assumption) ?_
    | refine kept_of_some (by with_reducible assumption) ?_
    | (dsimp only [z]; try clear z)

theorem State.vidRead_kept {s : State} {p : PartNum} {a n : Nat} (hs : s.kept q) :
    (State.vidRead s p a n).1.kept q := by
  unfold State.vidRead
  repeat' first
    | with_reducible assumption
    | with_reducible refine State.readThrough_kept ?_
    | with_reducible refine State.vidDenied_kept ?_
    | split

theorem State.vidScan_kept {s : State} {p : PartNum} {a n : Nat} (hs : s.kept q) :
    (State.vidScan s p a n).kept q := by
  unfold State.vidScan
  repeat' first
    | with_reducible assumption
    | (with_reducible show State.kept z q; dsimp only [z]; clear z)
    | (intro z (hz : State.kept z q); try beta_reduce)
    | with_reducible refine State.eccReport_kept ?_
    | with_reducible refine State.correct_kept ?_
    | with_reducible refine State.linkCheck_kept ?_
    | with_reducible refine State.vidDenied_kept ?_
    | (intro z; refine have hz : State.kept z q := ?_; ?_)
    | (intro z; refine have hz : State.kept z.1 q := ?_; ?_)
    | intro z
    | lift_lets
    | with_reducible refine kept_choice ?_ (fun _ => ?_)
    | simp only [kept_mk, held_fields]
    | with_reducible refine kept_foldl (fun _ _ _ => ?_) ?_
    | with_reducible refine kept_foldl_pair (fun _ _ _ => ?_) ?_
    | with_reducible refine kept_getD ?_ ?_
    | split
    | refine kept_of_pair (by with_reducible assumption) ?_
    | refine kept_of_some (by with_reducible assumption) ?_
    | (dsimp only [z]; try clear z)

theorem State.vidWrite_kept {s : State} {p : PartNum} {a : Nat} {bs : List Byte} (hs : s.kept q) :
    (State.vidWrite s p a bs).kept q := by
  unfold State.vidWrite
  repeat' first
    | with_reducible assumption
    | with_reducible refine State.blockWrite_kept ?_
    | with_reducible refine State.vidDenied_kept ?_
    | with_reducible refine kept_choice ?_ (fun _ => ?_)

theorem State.vidEvent_kept {s : State} {i : Fin 48} {severity : Nat} (hs : s.kept q) :
    (State.vidEvent s i severity).kept q := by
  unfold State.vidEvent
  repeat' first
    | with_reducible assumption
    | with_reducible refine State.report_kept ?_
    | split

theorem State.vidRefresh_kept {s : State} {i : Fin 48} (hs : s.kept q) :
    (State.vidRefresh s i).kept q := by
  unfold State.vidRefresh
  repeat' first
    | with_reducible assumption
    | (with_reducible show State.kept z q; dsimp only [z]; clear z)
    | (intro z (hz : State.kept z q); try beta_reduce)
    | with_reducible refine State.set_kept ?_
    | with_reducible refine State.raiseBit_kept ?_
    | with_reducible refine State.modSes_kept ?_
    | (intro z; refine have hz : State.kept z q := ?_; ?_)
    | (intro z; refine have hz : State.kept z.1 q := ?_; ?_)
    | intro z
    | lift_lets
    | with_reducible refine kept_choice ?_ (fun _ => ?_)
    | simp only [kept_mk, held_fields]
    | with_reducible refine kept_foldl (fun _ _ _ => ?_) ?_
    | with_reducible refine kept_foldl_pair (fun _ _ _ => ?_) ?_
    | with_reducible refine kept_getD ?_ ?_
    | split
    | refine kept_of_pair (by with_reducible assumption) ?_
    | refine kept_of_some (by with_reducible assumption) ?_
    | (dsimp only [z]; try clear z)

theorem State.vidConsume_kept {s : State} {i : Fin 48} {n : Nat} (hs : s.kept q) :
    (State.vidConsume s i n).kept q := by
  unfold State.vidConsume
  repeat' first
    | with_reducible assumption
    | with_reducible refine State.modSes_kept ?_
    | with_reducible refine State.vidWrite_kept ?_
    | with_reducible refine kept_choice ?_ (fun _ => ?_)
    | split

theorem State.vidSkipBad_kept {s : State} {i : Fin 48} (hs : s.kept q) :
    (State.vidSkipBad s i).kept q := by
  unfold State.vidSkipBad
  repeat' first
    | with_reducible assumption
    | with_reducible refine State.vidConsume_kept ?_
    | with_reducible refine kept_choice ?_ (fun _ => ?_)
    | split

theorem State.vidChunk_kept {s : State} {i : Fin 48} {v : Session} {e : List Byte} (hs : s.kept q) :
    (State.vidChunk s i v e).kept q := by
  unfold State.vidChunk
  repeat' first
    | with_reducible assumption
    | (with_reducible show State.kept z q; dsimp only [z]; clear z)
    | (intro z (hz : State.kept z q); try beta_reduce)
    | with_reducible refine State.modSes_kept ?_
    | with_reducible refine State.vidRead_kept ?_
    | with_reducible refine State.vidConsume_kept ?_
    | (intro z; refine have hz : State.kept z q := ?_; ?_)
    | (intro z; refine have hz : State.kept z.1 q := ?_; ?_)
    | intro z
    | lift_lets
    | with_reducible refine kept_choice ?_ (fun _ => ?_)
    | simp only [kept_mk, held_fields]
    | with_reducible refine kept_foldl (fun _ _ _ => ?_) ?_
    | with_reducible refine kept_foldl_pair (fun _ _ _ => ?_) ?_
    | with_reducible refine kept_getD ?_ ?_
    | split
    | refine kept_of_pair (by with_reducible assumption) ?_
    | refine kept_of_some (by with_reducible assumption) ?_
    | (dsimp only [z]; try clear z)

theorem State.vidAccept_kept {s : State} {i : Fin 48} {e : List Byte} (hs : s.kept q) :
    (State.vidAccept s i e).kept q := by
  unfold State.vidAccept
  repeat' first
    | with_reducible assumption
    | with_reducible refine State.raiseBit_kept ?_
    | with_reducible refine State.modSes_kept ?_
    | with_reducible refine State.vidEvent_kept ?_
    | with_reducible refine State.vidChunk_kept ?_
    | intro z
    | lift_lets
    | with_reducible refine kept_choice ?_ (fun _ => ?_)
    | simp only [kept_mk, held_fields]
    | split

theorem State.vidPoll_kept {s : State} {i : Fin 48} (hs : s.kept q) :
    (State.vidPoll s i).kept q := by
  unfold State.vidPoll
  repeat' first
    | with_reducible assumption
    | with_reducible refine State.raiseBit_kept ?_
    | with_reducible refine State.report_kept ?_
    | with_reducible refine State.modSes_kept ?_
    | with_reducible refine State.vidRead_kept ?_
    | with_reducible refine State.vidRefresh_kept ?_
    | with_reducible refine State.vidSkipBad_kept ?_
    | with_reducible refine State.vidAccept_kept ?_
    | lift_lets
    | with_reducible refine kept_choice ?_ (fun _ => ?_)
    | simp only [kept_mk, held_fields]
    | with_reducible refine kept_foldl (fun _ _ _ => ?_) ?_
    | split

theorem State.vidEmit_kept {s : State} {i : Fin 48} {e : List Byte} {b : Option Nat} {bytes : Nat} (hs : s.kept q) :
    (State.vidEmit s i e b bytes).kept q := by
  unfold State.vidEmit
  repeat' first
    | with_reducible assumption
    | with_reducible refine State.modSes_kept ?_
    | with_reducible refine State.vidWrite_kept ?_
    | simp only [kept_mk, held_fields]
    | split

theorem State.endEntry_kept {s : State} {decodes : Bool} (hs : s.kept q) :
    (State.endEntry s decodes).1.kept q := by
  unfold State.endEntry
  repeat' first
    | with_reducible assumption
    | intro z
    | lift_lets
    | simp only [kept_mk, held_fields]

theorem State.vidOutput_kept {s : State} {i : Fin 48} (hs : s.kept q) :
    (State.vidOutput s i).kept q := by
  unfold State.vidOutput
  repeat' first
    | with_reducible assumption
    | with_reducible refine State.bump_kept ?_
    | with_reducible refine State.raiseBit_kept ?_
    | with_reducible refine State.modSes_kept ?_
    | with_reducible refine State.vidEmit_kept ?_
    | with_reducible refine State.endEntry_kept ?_
    | lift_lets
    | with_reducible refine kept_choice ?_ (fun _ => ?_)
    | simp only [kept_mk, held_fields]
    | split

theorem State.vidDrain_kept {i : Fin 48} {k : Nat} : ∀ {s : State}, s.kept q → (State.vidDrain s i k).kept q := by
  induction k with
  | zero => intro s h; exact h
  | succ k ih =>
    intro s h
    unfold State.vidDrain
    split
    · split
      · exact h
      · exact ih (State.vidOutput_kept h)
    · exact h

theorem State.vidLoads_kept {s : State} (hs : s.kept q) :
    (State.vidLoads s).kept q := by
  unfold State.vidLoads
  repeat' first
    | with_reducible assumption
    | with_reducible refine State.set_kept ?_

theorem State.vidFree_kept {s : State} {i : Fin 48} (hs : s.kept q) :
    (State.vidFree s i).kept q := by
  unfold State.vidFree
  repeat' first
    | with_reducible assumption
    | (with_reducible show State.kept z q; dsimp only [z]; clear z)
    | with_reducible refine State.set_kept ?_
    | with_reducible refine State.complete_kept ?_
    | with_reducible refine State.setSes_kept ?_
    | with_reducible refine State.vidLoads_kept ?_
    | (intro z; refine have hz : State.kept z q := ?_; ?_)
    | lift_lets
    | split

theorem State.vidCloseStart_kept {s : State} {i : Fin 48} {c : Option CmdRef} (hs : s.kept q) :
    (State.vidCloseStart s i c).kept q := by
  unfold State.vidCloseStart
  repeat' first
    | with_reducible assumption
    | (with_reducible show State.kept z q; dsimp only [z]; clear z)
    | with_reducible refine State.set_kept ?_
    | with_reducible refine State.modSes_kept ?_
    | with_reducible refine State.vidFree_kept ?_
    | (intro z; refine have hz : State.kept z q := ?_; ?_)
    | lift_lets
    | with_reducible refine kept_choice ?_ (fun _ => ?_)
    | split

theorem State.vidOpenAt_kept {s : State} {i : Fin 48} {v : Session} (hs : s.kept q) :
    (State.vidOpenAt s i v).kept q := by
  unfold State.vidOpenAt
  repeat' first
    | with_reducible assumption
    | (with_reducible show State.kept z q; dsimp only [z]; clear z)
    | with_reducible refine State.setReg_kept ?_
    | with_reducible refine State.set_kept ?_
    | with_reducible refine State.setSes_kept ?_
    | with_reducible refine State.vidLoads_kept ?_
    | (intro z; refine have hz : State.kept z q := ?_; ?_)
    | intro z
    | lift_lets
    | with_reducible refine kept_choice ?_ (fun _ => ?_)
    | with_reducible refine kept_foldl (fun _ _ _ => ?_) ?_

theorem execVidOpen_kept {c : CmdRef} {hw : HostStores} {s : State} (hs : s.kept q) :
    Keeps q (execVidOpen c hw s) := by
  unfold execVidOpen
  repeat' first
    | with_reducible assumption
    | (with_reducible show Keeps _ _; lift_lets)
    | with_reducible refine keeps_next ?_
    | with_reducible refine State.hostStores_kept ?_
    | with_reducible refine State.complete_kept ?_
    | with_reducible refine State.runPart_kept ?_ ?_
    | with_reducible refine State.vidRead_kept ?_
    | with_reducible refine State.vidOpenAt_kept ?_
    | (intro z (hz : State.kept z q); try beta_reduce)
    | (intro z; refine have hz : State.kept z q := ?_; ?_)
    | (intro z; refine have hz : State.kept z.1 q := ?_; ?_)
    | intro z
    | lift_lets
    | with_reducible refine kept_choice ?_ (fun _ => ?_)
    | split

theorem execVidClose_kept {c : CmdRef} {s : State} (hs : s.kept q) :
    Keeps q (execVidClose c s) := by
  unfold execVidClose
  repeat' first
    | with_reducible assumption
    | with_reducible refine keeps_next ?_
    | with_reducible refine State.complete_kept ?_
    | with_reducible refine State.park_kept ?_
    | with_reducible refine State.runPart_kept ?_ ?_
    | with_reducible refine State.vidCloseStart_kept ?_
    | (intro z (hz : State.kept z q); try beta_reduce)
    | intro z
    | lift_lets
    | with_reducible refine kept_choice ?_ (fun _ => ?_)
    | split

theorem execVidReconfig_kept {c : CmdRef} {s : State} (hs : s.kept q) :
    Keeps q (execVidReconfig c s) := by
  unfold execVidReconfig
  repeat' first
    | with_reducible assumption
    | with_reducible refine keeps_next ?_
    | with_reducible refine State.setReg_kept ?_
    | with_reducible refine State.complete_kept ?_
    | with_reducible refine State.runPart_kept ?_ ?_
    | (intro z (hz : State.kept z q); try beta_reduce)
    | intro z
    | lift_lets
    | with_reducible refine kept_choice ?_ (fun _ => ?_)
    | with_reducible refine kept_foldl (fun _ _ _ => ?_) ?_
    | split

theorem execVidQuery_kept {c : CmdRef} {s : State} (hs : s.kept q) :
    Keeps q (execVidQuery c s) := by
  unfold execVidQuery
  repeat' first
    | with_reducible assumption
    | with_reducible refine keeps_next ?_
    | with_reducible refine State.complete_kept ?_
    | with_reducible refine State.runPart_kept ?_ ?_
    | (intro z (hz : State.kept z q); try beta_reduce)
    | intro z
    | split

theorem State.rcAfter_kept {s : State} {i : Fin 48} {t : InPipe} {res : PicResult} (hs : s.kept q) :
    (State.rcAfter s i t res).kept q := by
  unfold State.rcAfter
  repeat' first
    | with_reducible assumption
    | (with_reducible show State.kept z q; dsimp only [z]; clear z)
    | with_reducible refine State.set_kept ?_
    | with_reducible refine State.raiseBit_kept ?_
    | with_reducible refine State.modSes_kept ?_
    | (intro z; refine have hz : State.kept z q := ?_; ?_)
    | intro z
    | lift_lets
    | with_reducible refine kept_choice ?_ (fun _ => ?_)
    | simp only [kept_mk, held_fields]
    | split

theorem State.vidError_kept {s : State} {i : Fin 48} (hs : s.kept q) :
    (State.vidError s i).kept q := by
  unfold State.vidError
  repeat' first
    | with_reducible assumption
    | with_reducible refine State.set_kept ?_
    | with_reducible refine State.raiseBit_kept ?_
    | with_reducible refine State.vidEvent_kept ?_

theorem State.unitParse_kept {s : State} {i : Fin 48} {h : PicHeader} (hs : s.kept q) :
    (State.unitParse s i h).kept q := by
  unfold State.unitParse
  repeat' first
    | with_reducible assumption
    | (with_reducible show State.kept z q; dsimp only [z]; clear z)
    | (intro z (hz : State.kept z q); try beta_reduce)
    | with_reducible refine State.set_kept ?_
    | with_reducible refine State.modSes_kept ?_
    | with_reducible refine State.vidError_kept ?_
    | (intro z; refine have hz : State.kept z q := ?_; ?_)
    | (intro z; refine have hz : State.kept z.1 q := ?_; ?_)
    | intro z
    | lift_lets
    | with_reducible refine kept_choice ?_ (fun _ => ?_)
    | simp only [kept_mk, held_fields]
    | with_reducible refine kept_foldl (fun _ _ _ => ?_) ?_
    | with_reducible refine kept_foldl_pair (fun _ _ _ => ?_) ?_
    | with_reducible refine kept_getD ?_ ?_
    | split
    | refine kept_of_pair (by with_reducible assumption) ?_
    | refine kept_of_some (by with_reducible assumption) ?_
    | (dsimp only [z]; try clear z)

theorem State.frameStart_kept {s : State} {pipe : Fin 4} {i : Fin 48} (hs : s.kept q) :
    (State.frameStart s pipe i).kept q := by
  unfold State.frameStart
  repeat' first
    | with_reducible assumption
    | (with_reducible show State.kept z q; dsimp only [z]; clear z)
    | (intro z (hz : State.kept z q); try beta_reduce)
    | with_reducible refine State.modSes_kept ?_
    | with_reducible refine State.vidError_kept ?_
    | (intro z; refine have hz : State.kept z q := ?_; ?_)
    | (intro z; refine have hz : State.kept z.1 q := ?_; ?_)
    | intro z
    | lift_lets
    | with_reducible refine kept_choice ?_ (fun _ => ?_)
    | simp only [kept_mk, held_fields]
    | with_reducible refine kept_foldl (fun _ _ _ => ?_) ?_
    | with_reducible refine kept_foldl_pair (fun _ _ _ => ?_) ?_
    | with_reducible refine kept_getD ?_ ?_
    | split
    | refine kept_of_pair (by with_reducible assumption) ?_
    | refine kept_of_some (by with_reducible assumption) ?_
    | (dsimp only [z]; try clear z)

theorem State.decodeStart_kept {s : State} {pipe : Fin 4} {i : Fin 48} {v : Session} {h : PicHeader} (hs : s.kept q) :
    (State.decodeStart s pipe i v h).kept q := by
  unfold State.decodeStart
  repeat' first
    | with_reducible assumption
    | (with_reducible show State.kept z q; dsimp only [z]; clear z)
    | (intro z (hz : State.kept z q); try beta_reduce)
    | with_reducible refine State.vidRefresh_kept ?_
    | with_reducible refine State.unitParse_kept ?_
    | with_reducible refine State.frameStart_kept ?_
    | (intro z; refine have hz : State.kept z q := ?_; ?_)
    | (intro z; refine have hz : State.kept z.1 q := ?_; ?_)
    | intro z
    | lift_lets
    | with_reducible refine kept_choice ?_ (fun _ => ?_)
    | simp only [kept_mk, held_fields]
    | with_reducible refine kept_foldl (fun _ _ _ => ?_) ?_
    | with_reducible refine kept_foldl_pair (fun _ _ _ => ?_) ?_
    | with_reducible refine kept_getD ?_ ?_
    | split
    | refine kept_of_pair (by with_reducible assumption) ?_
    | refine kept_of_some (by with_reducible assumption) ?_
    | (dsimp only [z]; try clear z)

theorem State.encodeStart_kept {s : State} {pipe : Fin 4} {i : Fin 48} {v : Session} {e : List Byte} (hs : s.kept q) :
    (State.encodeStart s pipe i v e).kept q := by
  unfold State.encodeStart
  repeat' first
    | with_reducible assumption
    | (with_reducible show State.kept z q; dsimp only [z]; clear z)
    | (intro z (hz : State.kept z q); try beta_reduce)
    | with_reducible refine State.rcCommit_kept ?_
    | with_reducible refine State.modSes_kept ?_
    | with_reducible refine State.vidRefresh_kept ?_
    | (intro z; refine have hz : State.kept z q := ?_; ?_)
    | (intro z; refine have hz : State.kept z.1 q := ?_; ?_)
    | intro z
    | lift_lets
    | with_reducible refine kept_choice ?_ (fun _ => ?_)
    | simp only [kept_mk, held_fields]
    | with_reducible refine kept_foldl (fun _ _ _ => ?_) ?_
    | with_reducible refine kept_foldl_pair (fun _ _ _ => ?_) ?_
    | with_reducible refine kept_getD ?_ ?_
    | split
    | refine kept_of_pair (by with_reducible assumption) ?_
    | refine kept_of_some (by with_reducible assumption) ?_
    | (dsimp only [z]; try clear z)

theorem State.pictureTake_kept {s : State} {pipe : Fin 4} {i : Fin 48} {h : PicHeader} (hs : s.kept q) :
    (State.pictureTake s pipe i h).kept q := by
  unfold State.pictureTake
  repeat' first
    | with_reducible assumption
    | (with_reducible show State.kept z q; dsimp only [z]; clear z)
    | with_reducible refine State.vidPoll_kept ?_
    | with_reducible refine State.decodeStart_kept ?_
    | with_reducible refine State.encodeStart_kept ?_
    | (intro z; refine have hz : State.kept z q := ?_; ?_)
    | lift_lets
    | with_reducible refine kept_choice ?_ (fun _ => ?_)
    | split

theorem execPictureStart_kept {pipe : Fin 4} {header : PicHeader} {s : State} (hs : s.kept q) :
    Keeps q (execPictureStart pipe header s) := by
  unfold execPictureStart
  repeat' first
    | with_reducible assumption
    | (with_reducible show Keeps _ _; lift_lets)
    | with_reducible refine keeps_next ?_
    | with_reducible refine State.pictureTake_kept ?_
    | lift_lets
    | with_reducible refine kept_choice ?_ (fun _ => ?_)
    | split

theorem State.concealment_kept {s : State} {v : Session} {lost : List Nat} (hs : s.kept q) :
    (State.concealment s v lost).1.kept q := by
  unfold State.concealment
  repeat' first
    | with_reducible assumption
    | with_reducible refine State.vidRead_kept ?_
    | simp only [kept_mk, held_fields]
    | split

theorem State.vidImage_kept {s : State} {v : Session} {b : Nat} {t : InPipe} {res : PicResult} (hs : s.kept q) :
    (State.vidImage s v b t res).kept q := by
  unfold State.vidImage
  repeat' first
    | with_reducible assumption
    | (with_reducible show State.kept z q; dsimp only [z]; clear z)
    | with_reducible refine State.blockWrite_kept ?_
    | with_reducible refine State.vidDenied_kept ?_
    | with_reducible refine State.concealment_kept ?_
    | (intro z; refine have hz : State.kept z q := ?_; ?_)
    | (intro z; refine have hz : State.kept z.1 q := ?_; ?_)
    | intro z
    | lift_lets
    | with_reducible refine kept_choice ?_ (fun _ => ?_)
    | simp only [kept_mk, held_fields]

theorem State.bufferScan_kept {s : State} {v : Session} {b : Nat} (hs : s.kept q) :
    (State.bufferScan s v b).kept q := by
  unfold State.bufferScan
  repeat' first
    | with_reducible assumption
    | (with_reducible show State.kept z q; dsimp only [z]; clear z)
    | (intro z (hz : State.kept z q); try beta_reduce)
    | with_reducible refine State.vidScan_kept ?_
    | (intro z; refine have hz : State.kept z q := ?_; ?_)
    | (intro z; refine have hz : State.kept z.1 q := ?_; ?_)
    | intro z
    | lift_lets
    | with_reducible refine kept_choice ?_ (fun _ => ?_)
    | simp only [kept_mk, held_fields]
    | with_reducible refine kept_foldl (fun _ _ _ => ?_) ?_
    | with_reducible refine kept_foldl_pair (fun _ _ _ => ?_) ?_
    | with_reducible refine kept_getD ?_ ?_
    | split
    | refine kept_of_pair (by with_reducible assumption) ?_
    | refine kept_of_some (by with_reducible assumption) ?_
    | (dsimp only [z]; try clear z)

theorem State.decodeDone_kept {s : State} {i : Fin 48} {v : Session} {t : InPipe} {res : PicResult} (hs : s.kept q) :
    (State.decodeDone s i v t res).kept q := by
  unfold State.decodeDone
  repeat' first
    | with_reducible assumption
    | (with_reducible show State.kept z q; dsimp only [z]; clear z)
    | (intro z (hz : State.kept z q); try beta_reduce)
    | with_reducible refine State.addTo_kept ?_
    | with_reducible refine State.raiseBit_kept ?_
    | with_reducible refine State.modSes_kept ?_
    | with_reducible refine State.vidEvent_kept ?_
    | with_reducible refine State.vidImage_kept ?_
    | with_reducible refine State.bufferScan_kept ?_
    | (intro z; refine have hz : State.kept z q := ?_; ?_)
    | (intro z; refine have hz : State.kept z.1 q := ?_; ?_)
    | intro z
    | lift_lets
    | with_reducible refine kept_choice ?_ (fun _ => ?_)
    | simp only [kept_mk, held_fields]
    | with_reducible refine kept_foldl (fun _ _ _ => ?_) ?_
    | with_reducible refine kept_foldl_pair (fun _ _ _ => ?_) ?_
    | with_reducible refine kept_getD ?_ ?_
    | split
    | refine kept_of_pair (by with_reducible assumption) ?_
    | refine kept_of_some (by with_reducible assumption) ?_
    | (dsimp only [z]; try clear z)

theorem State.encodeDone_kept {s : State} {i : Fin 48} {v : Session} {t : InPipe} {res : PicResult} (hs : s.kept q) :
    (State.encodeDone s i v t res).kept q := by
  unfold State.encodeDone
  repeat' first
    | with_reducible assumption
    | (with_reducible show State.kept z q; dsimp only [z]; clear z)
    | (intro z (hz : State.kept z q); try beta_reduce)
    | with_reducible refine State.addTo_kept ?_
    | with_reducible refine State.bump_kept ?_
    | with_reducible refine State.modSes_kept ?_
    | with_reducible refine State.vidConsume_kept ?_
    | with_reducible refine State.vidSkipBad_kept ?_
    | with_reducible refine State.rcAfter_kept ?_
    | with_reducible refine State.vidImage_kept ?_
    | with_reducible refine State.bufferScan_kept ?_
    | (intro z; refine have hz : State.kept z q := ?_; ?_)
    | (intro z; refine have hz : State.kept z.1 q := ?_; ?_)
    | intro z
    | lift_lets
    | with_reducible refine kept_choice ?_ (fun _ => ?_)
    | simp only [kept_mk, held_fields]
    | with_reducible refine kept_foldl (fun _ _ _ => ?_) ?_
    | with_reducible refine kept_foldl_pair (fun _ _ _ => ?_) ?_
    | with_reducible refine kept_getD ?_ ?_
    | split
    | refine kept_of_pair (by with_reducible assumption) ?_
    | refine kept_of_some (by with_reducible assumption) ?_
    | (dsimp only [z]; try clear z)

theorem execPictureDone_kept {pipe : Fin 4} {result : PicResult} {s : State} (hs : s.kept q) :
    Keeps q (execPictureDone pipe result s) := by
  unfold execPictureDone
  repeat' first
    | with_reducible assumption
    | (with_reducible show Keeps _ _; lift_lets)
    | with_reducible refine keeps_next ?_
    | with_reducible exact keeps_fault
    | with_reducible refine keeps_choice ?_ ?_
    | (with_reducible show State.kept z q; dsimp only [z]; clear z)
    | (intro z (hz : State.kept z q); try beta_reduce)
    | with_reducible refine State.vidRefresh_kept ?_
    | with_reducible refine State.vidDrain_kept ?_
    | with_reducible refine State.vidFree_kept ?_
    | with_reducible refine State.decodeDone_kept ?_
    | with_reducible refine State.encodeDone_kept ?_
    | (intro z; refine have hz : State.kept z q := ?_; ?_)
    | (intro z; refine have hz : State.kept z.1 q := ?_; ?_)
    | intro z
    | lift_lets
    | with_reducible refine kept_choice ?_ (fun _ => ?_)
    | simp only [kept_mk, held_fields]
    | with_reducible refine kept_foldl (fun _ _ _ => ?_) ?_
    | with_reducible refine kept_foldl_pair (fun _ _ _ => ?_) ?_
    | with_reducible refine kept_getD ?_ ?_
    | split
    | refine kept_of_pair (by with_reducible assumption) ?_
    | refine kept_of_some (by with_reducible assumption) ?_
    | (dsimp only [z]; try clear z)

theorem execDecodeOutput_kept {session : Fin 48} {s : State} (hs : s.kept q) :
    Keeps q (execDecodeOutput session s) := by
  unfold execDecodeOutput
  repeat' first
    | with_reducible assumption
    | with_reducible refine keeps_next ?_
    | with_reducible refine State.vidRefresh_kept ?_
    | with_reducible refine State.vidOutput_kept ?_

theorem execRingPoll_kept {session : Fin 48} {hw : HostStores} {s : State} (hs : s.kept q) :
    Keeps q (execRingPoll session hw s) := by
  unfold execRingPoll
  repeat' first
    | with_reducible assumption
    | with_reducible refine keeps_next ?_
    | with_reducible refine State.hostStores_kept ?_
    | with_reducible refine State.vidPoll_kept ?_

theorem execPacketEmission_kept {session : Fin 48} {units : List PacketUnit} {s : State} (hs : s.kept q) :
    Keeps q (execPacketEmission session units s) := by
  unfold execPacketEmission
  repeat' first
    | with_reducible assumption
    | (with_reducible show Keeps _ _; lift_lets)
    | with_reducible refine keeps_next ?_
    | with_reducible refine State.modSes_kept ?_
    | with_reducible refine State.vidWrite_kept ?_
    | with_reducible refine State.vidEmit_kept ?_
    | lift_lets
    | with_reducible refine kept_choice ?_ (fun _ => ?_)
    | simp only [kept_mk, held_fields]
    | split

theorem execStatsWrite_kept {session : Fin 48} {picture : Nat} {s : State} (hs : s.kept q) :
    Keeps q (execStatsWrite session picture s) := by
  unfold execStatsWrite
  repeat' first
    | with_reducible assumption
    | (with_reducible show Keeps _ _; lift_lets)
    | with_reducible refine keeps_next ?_
    | with_reducible refine State.raiseBit_kept ?_
    | with_reducible refine State.accessError_kept ?_
    | with_reducible refine State.write_kept ?_
    | with_reducible refine State.incKnot_kept ?_
    | with_reducible refine State.modSes_kept ?_
    | with_reducible refine State.vidRefresh_kept ?_
    | lift_lets
    | with_reducible refine kept_choice ?_ (fun _ => ?_)
    | simp only [kept_mk, held_fields]
    | split

end Sys2Proof.Machine
end

