-- ==== Sys2Proof/Laws/KeptTenancy.lean ====
section
/-!
SUPPORT. Every operation of Machine/Tenancy.lean keeps the canonical form of the four stores, and the
command queue.
-/

set_option linter.unusedSimpArgs false

namespace Sys2Proof.Machine

variable {q : List Instr}

theorem State.giveTier_kept {s : State} {p : PartNum} {first count : Nat} (hs : s.kept q) :
    (State.giveTier s p first count).kept q := by
  unfold State.giveTier
  repeat' first
    | with_reducible assumption
    | with_reducible refine State.setTtag_kept ?_
    | with_reducible refine kept_foldl (fun _ _ _ => ?_) ?_

theorem State.healthEvent_kept {s : State} {source status severity : Nat} (hs : s.kept q) :
    (State.healthEvent s source status severity).kept q := by
  unfold State.healthEvent
  repeat' first
    | with_reducible assumption
    | with_reducible refine State.report_kept ?_

theorem State.arrayHealth_kept {s : State} {source status : Nat} {n : ArrayNum} {inst : Nat} (hs : s.kept q) :
    (State.arrayHealth s source status n inst).kept q := by
  unfold State.arrayHealth
  repeat' first
    | with_reducible assumption
    | (with_reducible show State.kept z q; dsimp only [z]; clear z)
    | (intro z (hz : State.kept z q); try beta_reduce)
    | with_reducible refine State.report_kept ?_
    | (intro z; refine have hz : State.kept z q := ?_; ?_)
    | (intro z; refine have hz : State.kept z.1 q := ?_; ?_)
    | intro z
    | lift_lets
    | with_reducible refine kept_choice ?_ (fun _ => ?_)
    | simp only [kept_mk, held_fields]
    | with_reducible refine kept_foldl (fun _ _ _ => ?_) ?_
    | with_reducible refine kept_foldl_pair (fun _ _ _ => ?_) ?_
    | with_reducible refine kept_getD ?_ ?_
    | split
    | refine kept_of_pair (by with_reducible assumption) ?_
    | refine kept_of_some (by with_reducible assumption) ?_
    | (dsimp only [z]; try clear z)

theorem State.flashMap_kept {s : State} (hs : s.kept q) :
    (State.flashMap s).kept q := by
  unfold State.flashMap
  repeat' first
    | with_reducible assumption
    | (with_reducible show State.kept z q; dsimp only [z]; clear z)
    | (intro z (hz : State.kept z q); try beta_reduce)
    | (intro z; refine have hz : State.kept z q := ?_; ?_)
    | (intro z; refine have hz : State.kept z.1 q := ?_; ?_)
    | intro z
    | lift_lets
    | with_reducible refine kept_choice ?_ (fun _ => ?_)
    | simp only [kept_mk, held_fields]
    | with_reducible refine kept_foldl (fun _ _ _ => ?_) ?_
    | with_reducible refine kept_foldl_pair (fun _ _ _ => ?_) ?_
    | with_reducible refine kept_getD ?_ ?_
    | split
    | refine kept_of_pair (by with_reducible assumption) ?_
    | refine kept_of_some (by with_reducible assumption) ?_
    | (dsimp only [z]; try clear z)

theorem State.markUnusable_kept {s : State} {n : ArrayNum} (hs : s.kept q) :
    (State.markUnusable s n).kept q := by
  unfold State.markUnusable
  repeat' first
    | with_reducible assumption
    | (with_reducible show State.kept z q; dsimp only [z]; clear z)
    | (intro z (hz : State.kept z q); try beta_reduce)
    | with_reducible refine State.set_kept ?_
    | with_reducible refine State.setBit_kept ?_
    | with_reducible refine State.modArr_kept ?_
    | with_reducible refine State.arrayHealth_kept ?_
    | with_reducible refine State.flashMap_kept ?_
    | (intro z; refine have hz : State.kept z q := ?_; ?_)
    | (intro z; refine have hz : State.kept z.1 q := ?_; ?_)
    | intro z
    | lift_lets
    | with_reducible refine kept_choice ?_ (fun _ => ?_)
    | simp only [kept_mk, held_fields]
    | with_reducible refine kept_foldl (fun _ _ _ => ?_) ?_
    | with_reducible refine kept_foldl_pair (fun _ _ _ => ?_) ?_
    | with_reducible refine kept_getD ?_ ?_
    | split
    | refine kept_of_pair (by with_reducible assumption) ?_
    | refine kept_of_some (by with_reducible assumption) ?_
    | (dsimp only [z]; try clear z)

theorem State.condemn_kept {s : State} {n : ArrayNum} (hs : s.kept q) :
    (State.condemn s n).kept q := by
  unfold State.condemn
  repeat' first
    | with_reducible assumption
    | with_reducible refine State.setBit_kept ?_
    | with_reducible refine State.arrayHealth_kept ?_
    | with_reducible refine State.markUnusable_kept ?_
    | intro z
    | lift_lets
    | with_reducible refine kept_choice ?_ (fun _ => ?_)
    | simp only [kept_mk, held_fields]
    | split

theorem State.unbind_kept {s : State} {k : PairNum} (hs : s.kept q) :
    (State.unbind s k).kept q := by
  unfold State.unbind
  repeat' first
    | with_reducible assumption
    | with_reducible refine State.set_kept ?_

theorem State.closeDoors_kept {s : State} {p : PartNum} (hs : s.kept q) :
    (State.closeDoors s p).kept q := by
  unfold State.closeDoors
  repeat' first
    | with_reducible assumption
    | (with_reducible show State.kept z q; dsimp only [z]; clear z)
    | with_reducible refine State.set_kept ?_
    | (intro z; refine have hz : State.kept z q := ?_; ?_)
    | lift_lets
    | with_reducible refine kept_choice ?_ (fun _ => ?_)
    | simp only [kept_mk, held_fields]
    | with_reducible refine kept_foldl (fun _ _ _ => ?_) ?_

theorem State.commitWeights_kept {s : State} {p : PartNum} {w : Fin 4 → Nat} (hs : s.kept q) :
    (State.commitWeights s p w).kept q := by
  unfold State.commitWeights
  repeat' first
    | with_reducible assumption
    | with_reducible refine State.shtStageWeight_kept ?_
    | with_reducible refine State.shtArm_kept ?_
    | lift_lets
    | with_reducible refine kept_choice ?_ (fun _ => ?_)
    | with_reducible refine kept_foldl (fun _ _ _ => ?_) ?_

theorem State.scrubHold_kept {s : State} {p : PartNum} (hs : s.kept q) :
    (State.scrubHold s p).kept q := by
  unfold State.scrubHold
  repeat' first
    | with_reducible assumption
    | with_reducible refine State.modArr_kept ?_
    | lift_lets
    | with_reducible refine kept_choice ?_ (fun _ => ?_)
    | with_reducible refine kept_foldl (fun _ _ _ => ?_) ?_

theorem State.scrubStart_kept {s : State} {p : PartNum} (hs : s.kept q) :
    (State.scrubStart s p).kept q := by
  unfold State.scrubStart
  repeat' first
    | with_reducible assumption
    | with_reducible refine State.modPart_kept ?_
    | with_reducible refine State.settleKernels_kept ?_
    | with_reducible refine State.haltArray_kept ?_
    | with_reducible refine State.releaseConv_kept ?_
    | with_reducible refine State.forceEnd_kept ?_
    | with_reducible refine State.vidCloseStart_kept ?_
    | with_reducible refine State.scrubHold_kept ?_
    | lift_lets
    | with_reducible refine kept_choice ?_ (fun _ => ?_)
    | with_reducible refine kept_foldl (fun _ _ _ => ?_) ?_

theorem State.zeroArray_kept {s : State} {n : ArrayNum} (hs : s.kept q) :
    (State.zeroArray s n).kept q := by
  unfold State.zeroArray
  repeat' first
    | with_reducible assumption
    | (with_reducible show State.kept z q; dsimp only [z]; clear z)
    | with_reducible refine State.wipe_kept ?_
    | with_reducible refine State.set_kept ?_
    | with_reducible refine State.modArr_kept ?_
    | (intro z; refine have hz : State.kept z q := ?_; ?_)
    | intro z
    | lift_lets
    | with_reducible refine kept_foldl (fun _ _ _ => ?_) ?_

theorem State.scrubArray_kept {s : State} {n : ArrayNum} (hs : s.kept q) :
    (State.scrubArray s n).kept q := by
  unfold State.scrubArray
  repeat' first
    | with_reducible assumption
    | (with_reducible show State.kept z q; dsimp only [z]; clear z)
    | with_reducible refine State.setReg_kept ?_
    | with_reducible refine State.zeroArray_kept ?_
    | (intro z; refine have hz : State.kept z q := ?_; ?_)
    | lift_lets
    | with_reducible refine kept_foldl (fun _ _ _ => ?_) ?_

theorem State.clearPart_kept {s : State} {p : PartNum} {keep : Bool} (hs : s.kept q) :
    (State.clearPart s p keep).kept q := by
  unfold State.clearPart
  repeat' first
    | with_reducible assumption
    | with_reducible refine State.modPart_kept ?_
    | with_reducible refine State.setVtag_kept ?_
    | with_reducible refine State.setTtag_kept ?_
    | with_reducible refine State.vaultClear_kept ?_
    | with_reducible refine State.loadKey_kept ?_
    | with_reducible refine State.dropKey_kept ?_
    | lift_lets
    | with_reducible refine kept_choice ?_ (fun _ => ?_)
    | simp only [kept_mk, held_fields]
    | with_reducible refine kept_foldl (fun _ _ _ => ?_) ?_

theorem State.dropReel_kept {s : State} {p : PartNum} (hs : s.kept q) :
    (State.dropReel s p).kept q := by
  unfold State.dropReel
  repeat' first
    | with_reducible assumption
    | (with_reducible show State.kept z q; dsimp only [z]; clear z)
    | with_reducible refine State.setReg_kept ?_
    | with_reducible refine State.setFrames_kept ?_
    | with_reducible refine State.setSlots_kept ?_
    | (intro z; refine have hz : State.kept z q := ?_; ?_)
    | intro z
    | lift_lets
    | simp only [kept_mk, held_fields]
    | with_reducible refine kept_foldl (fun _ _ _ => ?_) ?_

theorem State.giveUp_kept {s : State} {p : PartNum} (hs : s.kept q) :
    (State.giveUp s p).kept q := by
  unfold State.giveUp
  repeat' first
    | with_reducible assumption
    | with_reducible refine State.modPart_kept ?_
    | with_reducible refine State.setFb_kept ?_
    | with_reducible refine State.dropReel_kept ?_
    | lift_lets
    | with_reducible refine kept_foldl (fun _ _ _ => ?_) ?_

theorem State.scrubClear_kept {s : State} {p : PartNum} {keep : Bool} (hs : s.kept q) :
    (State.scrubClear s p keep).kept q := by
  unfold State.scrubClear
  repeat' first
    | with_reducible assumption
    | (with_reducible show State.kept z q; dsimp only [z]; clear z)
    | (intro z (hz : State.kept z q); try beta_reduce)
    | with_reducible refine State.set_kept ?_
    | with_reducible refine State.setBit_kept ?_
    | with_reducible refine State.modPart_kept ?_
    | with_reducible refine State.endSpdm_kept ?_
    | with_reducible refine State.fillPools_kept ?_
    | with_reducible refine State.seqFlush_kept ?_
    | with_reducible refine State.modConv_kept ?_
    | with_reducible refine State.unbind_kept ?_
    | with_reducible refine State.closeDoors_kept ?_
    | with_reducible refine State.commitWeights_kept ?_
    | with_reducible refine State.scrubArray_kept ?_
    | with_reducible refine State.clearPart_kept ?_
    | with_reducible refine State.giveUp_kept ?_
    | (intro z; refine have hz : State.kept z q := ?_; ?_)
    | (intro z; refine have hz : State.kept z.1 q := ?_; ?_)
    | intro z
    | lift_lets
    | with_reducible refine kept_choice ?_ (fun _ => ?_)
    | simp only [kept_mk, held_fields]
    | with_reducible refine kept_foldl (fun _ _ _ => ?_) ?_
    | with_reducible refine kept_foldl_pair (fun _ _ _ => ?_) ?_
    | with_reducible refine kept_getD ?_ ?_
    | split
    | refine kept_of_pair (by with_reducible assumption) ?_
    | refine kept_of_some (by with_reducible assumption) ?_
    | (dsimp only [z]; try clear z)

theorem State.markCondemned_kept {s : State} {ns : List ArrayNum} (hs : s.kept q) :
    (State.markCondemned s ns).kept q := by
  unfold State.markCondemned
  repeat' first
    | with_reducible assumption
    | with_reducible refine State.markUnusable_kept ?_
    | lift_lets
    | with_reducible refine kept_choice ?_ (fun _ => ?_)
    | with_reducible refine kept_foldl (fun _ _ _ => ?_) ?_

theorem State.changeEnd_kept {s : State} {p : PartNum} (hs : s.kept q) :
    (State.changeEnd s p).kept q := by
  unfold State.changeEnd
  repeat' first
    | with_reducible assumption
    | with_reducible refine State.setBit_kept ?_
    | with_reducible refine State.modPart_kept ?_
    | with_reducible refine State.markCondemned_kept ?_

theorem State.destroyEnd_kept {s : State} {p : PartNum} (hs : s.kept q) :
    (State.destroyEnd s p).kept q := by
  unfold State.destroyEnd
  repeat' first
    | with_reducible assumption
    | with_reducible refine State.set_kept ?_
    | with_reducible refine State.setBit_kept ?_
    | with_reducible refine State.modPart_kept ?_
    | with_reducible refine State.dropKey_kept ?_
    | with_reducible refine State.markCondemned_kept ?_

theorem State.entropyFail_kept {s : State} (hs : s.kept q) :
    (State.entropyFail s).kept q := by
  unfold State.entropyFail
  repeat' first
    | with_reducible assumption
    | with_reducible refine State.raiseBit_kept ?_
    | with_reducible refine State.securityEvent_kept ?_

theorem State.scrubMove_kept {s : State} {p : PartNum} {keep : Bool} {c : CmdRef} {w : Wait} (hs : s.kept q) :
    (State.scrubMove s p keep c w).1.kept q := by
  unfold State.scrubMove
  repeat' first
    | with_reducible assumption
    | (with_reducible show State.kept z q; dsimp only [z]; clear z)
    | with_reducible refine State.park_kept ?_
    | with_reducible refine State.scrubHold_kept ?_
    | with_reducible refine State.scrubClear_kept ?_
    | with_reducible refine State.changeEnd_kept ?_
    | with_reducible refine State.destroyEnd_kept ?_
    | (intro z; refine have hz : State.kept z q := ?_; ?_)
    | lift_lets
    | with_reducible refine kept_choice ?_ (fun _ => ?_)
    | split

theorem State.scrubStep_kept {s : State} {m : Cmd} (hs : s.kept q) :
    (State.scrubStep s m).kept q := by
  unfold State.scrubStep
  repeat' first
    | with_reducible assumption
    | with_reducible refine State.complete_kept ?_
    | with_reducible refine State.scrubStart_kept ?_
    | with_reducible refine State.scrubMove_kept ?_
    | intro z
    | lift_lets
    | with_reducible refine kept_choice ?_ (fun _ => ?_)
    | simp only [kept_mk, held_fields]
    | with_reducible refine kept_foldl (fun _ _ _ => ?_) ?_
    | split

theorem State.feedClears_kept {s : State} (hs : s.kept q) :
    (State.feedClears s).kept q := by
  unfold State.feedClears
  repeat' first
    | with_reducible assumption
    | (with_reducible show State.kept z q; dsimp only [z]; clear z)
    | (intro z (hz : State.kept z q); try beta_reduce)
    | with_reducible refine State.modPart_kept ?_
    | with_reducible refine State.tierClear_kept ?_
    | (intro z; refine have hz : State.kept z q := ?_; ?_)
    | (intro z; refine have hz : State.kept z.1 q := ?_; ?_)
    | intro z
    | lift_lets
    | with_reducible refine kept_choice ?_ (fun _ => ?_)
    | simp only [kept_mk, held_fields]
    | with_reducible refine kept_foldl (fun _ _ _ => ?_) ?_
    | with_reducible refine kept_foldl_pair (fun _ _ _ => ?_) ?_
    | with_reducible refine kept_getD ?_ ?_
    | split
    | refine kept_of_pair (by with_reducible assumption) ?_
    | refine kept_of_some (by with_reducible assumption) ?_
    | (dsimp only [z]; try clear z)

theorem State.settle_kept {s : State} (hs : s.kept q) :
    (State.settle s).kept q := by
  unfold State.settle
  repeat' first
    | with_reducible assumption
    | (with_reducible show State.kept z q; dsimp only [z]; clear z)
    | with_reducible refine State.settleKernels_kept ?_
    | with_reducible refine State.settleReleases_kept ?_
    | with_reducible refine State.scrubStep_kept ?_
    | with_reducible refine State.feedClears_kept ?_
    | (intro z; refine have hz : State.kept z q := ?_; ?_)
    | lift_lets
    | with_reducible refine kept_foldl (fun _ _ _ => ?_) ?_

theorem State.createPart_kept {s : State} {p : PartNum} {a : CreateArgs} (hs : s.kept q) :
    (State.createPart s p a).1.kept q := by
  unfold State.createPart
  repeat' first
    | with_reducible assumption
    | with_reducible refine State.set_kept ?_
    | with_reducible refine State.modPart_kept ?_
    | with_reducible refine State.setVtag_kept ?_
    | with_reducible refine State.loadKey_kept ?_
    | with_reducible refine State.fillPools_kept ?_
    | with_reducible refine State.giveTier_kept ?_
    | with_reducible refine State.commitWeights_kept ?_
    | intro z
    | lift_lets
    | with_reducible refine kept_choice ?_ (fun _ => ?_)
    | simp only [kept_mk, held_fields]
    | with_reducible refine kept_foldl (fun _ _ _ => ?_) ?_

theorem execPartCreate_kept {c : CmdRef} {entropyOk : Bool} {s : State} (hs : s.kept q) :
    Keeps q (execPartCreate c entropyOk s) := by
  unfold execPartCreate
  repeat' first
    | with_reducible assumption
    | (with_reducible show Keeps _ _; lift_lets)
    | with_reducible refine keeps_next ?_
    | with_reducible refine State.complete_kept ?_
    | with_reducible refine State.runPart_kept ?_ ?_
    | with_reducible refine State.entropyFail_kept ?_
    | with_reducible refine State.createPart_kept ?_
    | (intro z (hz : State.kept z q); try beta_reduce)
    | (intro z; refine have hz : State.kept z.1 q := ?_; ?_)
    | intro z
    | lift_lets
    | with_reducible refine kept_choice ?_ (fun _ => ?_)

theorem execPartDestroy_kept {c : CmdRef} {s : State} (hs : s.kept q) :
    Keeps q (execPartDestroy c s) := by
  unfold execPartDestroy
  repeat' first
    | with_reducible assumption
    | with_reducible refine keeps_next ?_
    | with_reducible refine State.park_kept ?_
    | with_reducible refine State.runPart_kept ?_ ?_
    | with_reducible refine State.scrubStart_kept ?_
    | with_reducible refine State.settle_kept ?_
    | (intro z (hz : State.kept z q); try beta_reduce)
    | intro z

theorem execSecTenantChange_kept {c : CmdRef} {s : State} (hs : s.kept q) :
    Keeps q (execSecTenantChange c s) := by
  unfold execSecTenantChange
  repeat' first
    | with_reducible assumption
    | with_reducible refine keeps_next ?_
    | with_reducible refine State.park_kept ?_
    | with_reducible refine State.runPart_kept ?_ ?_
    | with_reducible refine State.scrubStart_kept ?_
    | with_reducible refine State.settle_kept ?_
    | (intro z (hz : State.kept z q); try beta_reduce)
    | intro z

theorem execPartBind_kept {c : CmdRef} {s : State} (hs : s.kept q) :
    Keeps q (execPartBind c s) := by
  unfold execPartBind
  repeat' first
    | with_reducible assumption
    | with_reducible refine keeps_next ?_
    | with_reducible refine State.set_kept ?_
    | with_reducible refine State.complete_kept ?_
    | with_reducible refine State.runPart_kept ?_ ?_
    | (intro z (hz : State.kept z q); try beta_reduce)
    | intro z
    | lift_lets
    | with_reducible refine kept_choice ?_ (fun _ => ?_)
    | split

theorem execPartUnbind_kept {c : CmdRef} {s : State} (hs : s.kept q) :
    Keeps q (execPartUnbind c s) := by
  unfold execPartUnbind
  repeat' first
    | with_reducible assumption
    | with_reducible refine keeps_next ?_
    | with_reducible refine State.complete_kept ?_
    | with_reducible refine State.runPart_kept ?_ ?_
    | with_reducible refine State.unbind_kept ?_
    | (intro z (hz : State.kept z q); try beta_reduce)
    | intro z
    | lift_lets
    | with_reducible refine kept_choice ?_ (fun _ => ?_)
    | split

theorem execPartShares_kept {c : CmdRef} {s : State} (hs : s.kept q) :
    Keeps q (execPartShares c s) := by
  unfold execPartShares
  repeat' first
    | with_reducible assumption
    | with_reducible refine keeps_next ?_
    | with_reducible refine State.complete_kept ?_
    | with_reducible refine State.runPart_kept ?_ ?_
    | with_reducible refine State.shtStageWeight_kept ?_
    | with_reducible refine State.shtArm_kept ?_
    | (intro z (hz : State.kept z q); try beta_reduce)
    | intro z
    | lift_lets
    | with_reducible refine kept_choice ?_ (fun _ => ?_)
    | with_reducible refine kept_foldl (fun _ _ _ => ?_) ?_

theorem execPartQuery_kept {c : CmdRef} {s : State} (hs : s.kept q) :
    Keeps q (execPartQuery c s) := by
  unfold execPartQuery
  repeat' first
    | with_reducible assumption
    | with_reducible refine keeps_next ?_
    | with_reducible refine State.complete_kept ?_
    | with_reducible refine State.runPart_kept ?_ ?_
    | (intro z (hz : State.kept z q); try beta_reduce)
    | intro z

end Sys2Proof.Machine
end

