-- ==== Sys2Proof/Laws/KeptMemory.lean ====
section
/-!
SUPPORT. Every operation of Machine/Memory.lean keeps the canonical form of the four stores, and the
command queue.
-/

set_option linter.unusedSimpArgs false

namespace Sys2Proof.Machine

variable {q : List Instr}

theorem execMemTierAssign_kept {c : CmdRef} {s : State} (hs : s.kept q) :
    Keeps q (execMemTierAssign c s) := by
  unfold execMemTierAssign
  repeat' first
    | with_reducible assumption
    | (with_reducible show Keeps _ _; lift_lets)
    | with_reducible refine keeps_next ?_
    | with_reducible refine State.complete_kept ?_
    | with_reducible refine State.runPart_kept ?_ ?_
    | with_reducible refine State.giveTier_kept ?_
    | (intro z (hz : State.kept z q); try beta_reduce)
    | intro z
    | lift_lets
    | with_reducible refine kept_choice ?_ (fun _ => ?_)
    | split

theorem execMemTierRelease_kept {c : CmdRef} {s : State} (hs : s.kept q) :
    Keeps q (execMemTierRelease c s) := by
  unfold execMemTierRelease
  repeat' first
    | with_reducible assumption
    | (with_reducible show State.kept z q; dsimp only [z]; clear z)
    | (with_reducible show Keeps _ _; lift_lets)
    | with_reducible refine keeps_next ?_
    | with_reducible refine State.modPart_kept ?_
    | with_reducible refine State.setTtag_kept ?_
    | with_reducible refine State.complete_kept ?_
    | with_reducible refine State.park_kept ?_
    | with_reducible refine State.runPart_kept ?_ ?_
    | with_reducible refine State.feedClears_kept ?_
    | (intro z (hz : State.kept z q); try beta_reduce)
    | (intro z; refine have hz : State.kept z q := ?_; ?_)
    | intro z
    | lift_lets
    | with_reducible refine kept_choice ?_ (fun _ => ?_)
    | with_reducible refine kept_foldl (fun _ _ _ => ?_) ?_

theorem execMemAperture_kept {c : CmdRef} {s : State} (hs : s.kept q) :
    Keeps q (execMemAperture c s) := by
  unfold execMemAperture
  repeat' first
    | with_reducible assumption
    | (with_reducible show Keeps _ _; lift_lets)
    | with_reducible refine keeps_next ?_
    | with_reducible refine State.complete_kept ?_
    | with_reducible refine State.runPart_kept ?_ ?_
    | (intro z (hz : State.kept z q); try beta_reduce)
    | intro z
    | lift_lets
    | with_reducible refine kept_choice ?_ (fun _ => ?_)
    | simp only [kept_mk, held_fields]

theorem execMemWindow_kept {c : CmdRef} {s : State} (hs : s.kept q) :
    Keeps q (execMemWindow c s) := by
  unfold execMemWindow
  repeat' first
    | with_reducible assumption
    | (with_reducible show State.kept z q; dsimp only [z]; clear z)
    | (with_reducible show Keeps _ _; lift_lets)
    | with_reducible refine keeps_next ?_
    | with_reducible refine State.set_kept ?_
    | with_reducible refine State.complete_kept ?_
    | with_reducible refine State.runPart_kept ?_ ?_
    | (intro z (hz : State.kept z q); try beta_reduce)
    | (intro z; refine have hz : State.kept z q := ?_; ?_)
    | intro z
    | lift_lets
    | with_reducible refine kept_choice ?_ (fun _ => ?_)

theorem State.placeArray_kept {s : State} {x : ImageArray} (hs : s.kept q) :
    (State.placeArray s x).kept q := by
  unfold State.placeArray
  repeat' first
    | with_reducible assumption
    | (with_reducible show State.kept z q; dsimp only [z]; clear z)
    | with_reducible refine State.store_kept ?_
    | with_reducible refine State.set_kept ?_
    | (intro z; refine have hz : State.kept z q := ?_; ?_)
    | intro z
    | lift_lets
    | with_reducible refine kept_foldl (fun _ _ _ => ?_) ?_

theorem State.imageRead_kept {s : State} {a n : Nat} (hs : s.kept q) :
    (State.imageRead s a n).1.kept q := by
  unfold State.imageRead
  repeat' first
    | with_reducible assumption
    | with_reducible refine State.readThrough_kept ?_
    | split

theorem execModelPlace_kept {c : CmdRef} {image : ModelImage} {s : State} (hs : s.kept q) :
    Keeps q (execModelPlace c image s) := by
  unfold execModelPlace
  repeat' first
    | with_reducible assumption
    | (with_reducible show State.kept z q; dsimp only [z]; clear z)
    | (with_reducible show Keeps _ _; lift_lets)
    | with_reducible refine keeps_next ?_
    | with_reducible refine State.modPart_kept ?_
    | with_reducible refine State.complete_kept ?_
    | with_reducible refine State.runPart_kept ?_ ?_
    | with_reducible refine State.placeArray_kept ?_
    | with_reducible refine State.imageRead_kept ?_
    | (intro z (hz : State.kept z q); try beta_reduce)
    | (intro z; refine have hz : State.kept z q := ?_; ?_)
    | (intro z; refine have hz : State.kept z.1 q := ?_; ?_)
    | intro z
    | lift_lets
    | with_reducible refine kept_choice ?_ (fun _ => ?_)
    | with_reducible refine kept_foldl (fun _ _ _ => ?_) ?_

theorem execModelUnload_kept {c : CmdRef} {s : State} (hs : s.kept q) :
    Keeps q (execModelUnload c s) := by
  unfold execModelUnload
  repeat' first
    | with_reducible assumption
    | with_reducible refine keeps_next ?_
    | with_reducible refine State.modPart_kept ?_
    | with_reducible refine State.complete_kept ?_
    | with_reducible refine State.runPart_kept ?_ ?_
    | (intro z (hz : State.kept z q); try beta_reduce)
    | intro z
    | with_reducible refine kept_choice ?_ (fun _ => ?_)

theorem execKernelRun_kept {c : CmdRef} {s : State} (hs : s.kept q) :
    Keeps q (execKernelRun c s) := by
  unfold execKernelRun
  repeat' first
    | with_reducible assumption
    | (with_reducible show State.kept z q; dsimp only [z]; clear z)
    | (with_reducible show Keeps _ _; lift_lets)
    | with_reducible refine keeps_next ?_
    | with_reducible refine State.set_kept ?_
    | with_reducible refine State.complete_kept ?_
    | with_reducible refine State.park_kept ?_
    | with_reducible refine State.runPart_kept ?_ ?_
    | with_reducible refine State.kernelGo_kept ?_
    | (intro z (hz : State.kept z q); try beta_reduce)
    | (intro z; refine have hz : State.kept z q := ?_; ?_)
    | intro z
    | lift_lets
    | with_reducible refine kept_choice ?_ (fun _ => ?_)
    | with_reducible refine kept_foldl (fun _ _ _ => ?_) ?_

theorem execKnotSet_kept {c : CmdRef} {s : State} (hs : s.kept q) :
    Keeps q (execKnotSet c s) := by
  unfold execKnotSet
  repeat' first
    | with_reducible assumption
    | (with_reducible show Keeps _ _; lift_lets)
    | with_reducible refine keeps_next ?_
    | with_reducible refine State.setKnot_kept ?_
    | with_reducible refine State.complete_kept ?_
    | with_reducible refine State.runPart_kept ?_ ?_
    | (intro z (hz : State.kept z q); try beta_reduce)
    | intro z
    | lift_lets
    | with_reducible refine kept_choice ?_ (fun _ => ?_)
    | split

theorem execArrayFault_kept {n : ArrayNum} {s : State} (hs : s.kept q) :
    Keeps q (execArrayFault n s) := by
  unfold execArrayFault
  repeat' first
    | with_reducible assumption
    | (with_reducible show Keeps _ _; lift_lets)
    | with_reducible refine keeps_next ?_
    | with_reducible refine State.noteFaulted_kept ?_
    | with_reducible refine State.recordFault_kept ?_
    | with_reducible refine State.settle_kept ?_
    | lift_lets
    | with_reducible refine kept_choice ?_ (fun _ => ?_)
    | split

theorem execKernelEnd_kept {n : ArrayNum} {s : State} (hs : s.kept q) :
    Keeps q (execKernelEnd n s) := by
  unfold execKernelEnd
  repeat' first
    | with_reducible assumption
    | (with_reducible show Keeps _ _; lift_lets)
    | with_reducible refine keeps_next ?_
    | with_reducible refine State.modArr_kept ?_
    | with_reducible refine State.settle_kept ?_
    | lift_lets
    | with_reducible refine kept_choice ?_ (fun _ => ?_)

theorem State.restagePlane_kept {s : State} {n : ArrayNum} {bank : Fin 2} {plane : Nat} {pair : Fin 11} {src : PlaneSrc} (hs : s.kept q) :
    (State.restagePlane s n bank plane pair src).kept q := by
  unfold State.restagePlane
  repeat' first
    | with_reducible assumption
    | (with_reducible show State.kept z q; dsimp only [z]; clear z)
    | with_reducible refine State.modArr_kept ?_
    | with_reducible refine State.accessError_kept ?_
    | with_reducible refine State.detect_kept ?_
    | with_reducible refine State.stagePlane_kept ?_
    | (intro z; refine have hz : State.kept z q := ?_; ?_)
    | intro z
    | lift_lets
    | with_reducible refine kept_choice ?_ (fun _ => ?_)
    | split
    | refine kept_of_pair (by with_reducible assumption) ?_

theorem execRestageDone_kept {n : ArrayNum} {s : State} (hs : s.kept q) :
    Keeps q (execRestageDone n s) := by
  unfold execRestageDone
  repeat' first
    | with_reducible assumption
    | (with_reducible show Keeps _ _; lift_lets)
    | with_reducible refine keeps_next ?_
    | with_reducible exact keeps_fault
    | with_reducible refine keeps_choice ?_ ?_
    | (with_reducible show State.kept z q; dsimp only [z]; clear z)
    | (intro z (hz : State.kept z q); try beta_reduce)
    | with_reducible refine State.modArr_kept ?_
    | with_reducible refine State.restagePlane_kept ?_
    | (intro z; refine have hz : State.kept z q := ?_; ?_)
    | (intro z; refine have hz : State.kept z.1 q := ?_; ?_)
    | intro z
    | lift_lets
    | with_reducible refine kept_choice ?_ (fun _ => ?_)
    | simp only [kept_mk, held_fields]
    | with_reducible refine kept_foldl (fun _ _ _ => ?_) ?_
    | with_reducible refine kept_foldl_pair (fun _ _ _ => ?_) ?_
    | with_reducible refine kept_getD ?_ ?_
    | split
    | refine kept_of_pair (by with_reducible assumption) ?_
    | refine kept_of_some (by with_reducible assumption) ?_
    | (dsimp only [z]; try clear z)

theorem execVaultClearStart_kept {n : ArrayNum} {s : State} (hs : s.kept q) :
    Keeps q (execVaultClearStart n s) := by
  unfold execVaultClearStart
  repeat' first
    | with_reducible assumption
    | with_reducible refine keeps_next ?_
    | with_reducible refine State.vaultClearBegin_kept ?_

theorem execVaultClearDone_kept {n : ArrayNum} {s : State} (hs : s.kept q) :
    Keeps q (execVaultClearDone n s) := by
  unfold execVaultClearDone
  repeat' first
    | with_reducible assumption
    | with_reducible refine keeps_next ?_
    | with_reducible refine State.vaultClearEnd_kept ?_
    | with_reducible refine State.settle_kept ?_
    | lift_lets
    | split

theorem execTierClearStart_kept {entropyOk : Bool} {s : State} (hs : s.kept q) :
    Keeps q (execTierClearStart entropyOk s) := by
  unfold execTierClearStart
  repeat' first
    | with_reducible assumption
    | with_reducible refine keeps_next ?_
    | with_reducible refine State.dropKey_kept ?_
    | with_reducible refine State.tierClearBegin_kept ?_
    | with_reducible refine State.entropyFail_kept ?_
    | lift_lets
    | with_reducible refine kept_choice ?_ (fun _ => ?_)
    | simp only [kept_mk, held_fields]
    | split

theorem execTierClearDone_kept {s : State} (hs : s.kept q) :
    Keeps q (execTierClearDone s) := by
  unfold execTierClearDone
  repeat' first
    | with_reducible assumption
    | with_reducible refine keeps_next ?_
    | with_reducible refine State.tierClearEnd_kept ?_
    | with_reducible refine State.settle_kept ?_
    | lift_lets
    | with_reducible refine kept_choice ?_ (fun _ => ?_)
    | split

theorem State.bar4Error_kept {s : State} {off cause : Nat} {p : Option PartNum} {addr : Option Nat} (hs : s.kept q) :
    (State.bar4Error s off cause p addr).kept q := by
  unfold State.bar4Error
  repeat' first
    | with_reducible assumption
    | with_reducible refine State.accessError_kept ?_

theorem State.bar4Piece_kept {s : State} {a n : Nat} (hs : s.kept q) :
    (State.bar4Piece s a n).1.kept q := by
  unfold State.bar4Piece
  repeat' first
    | with_reducible assumption
    | with_reducible refine State.eccReport_kept ?_
    | with_reducible refine State.correct_kept ?_
    | with_reducible refine State.countRead_kept ?_
    | lift_lets
    | with_reducible refine kept_foldl (fun _ _ _ => ?_) ?_

theorem execBar4Read_kept {port : Port} {offset : Nat} {len : Nat} {s : State} (hs : s.kept q) :
    Keeps q (execBar4Read port offset len s) := by
  unfold execBar4Read
  repeat' first
    | with_reducible assumption
    | (with_reducible show Keeps _ _; lift_lets)
    | with_reducible refine keeps_next ?_
    | with_reducible refine State.bar4Error_kept ?_
    | with_reducible refine State.bar4Piece_kept ?_
    | lift_lets
    | with_reducible refine kept_choice ?_ (fun _ => ?_)
    | simp only [kept_mk, held_fields]
    | with_reducible refine kept_foldl_pair (fun _ _ _ => ?_) ?_
    | split

theorem execBar4Write_kept {port : Port} {offset : Nat} {data : List Byte} {s : State} (hs : s.kept q) :
    Keeps q (execBar4Write port offset data s) := by
  unfold execBar4Write
  repeat' first
    | with_reducible assumption
    | with_reducible refine keeps_next ?_
    | with_reducible refine State.write_kept ?_
    | with_reducible refine State.bar4Error_kept ?_
    | lift_lets
    | with_reducible refine kept_choice ?_ (fun _ => ?_)
    | with_reducible refine kept_foldl (fun _ _ _ => ?_) ?_
    | split

end Sys2Proof.Machine
end

