-- ==== Sys2Proof/Laws/KeptMailbox.lean ====
section
/-!
SUPPORT. Every operation of Machine/Mailbox.lean keeps the canonical form of the four stores, and the
command queue.
-/

set_option linter.unusedSimpArgs false

namespace Sys2Proof.Machine

variable {q : List Instr}

theorem State.pairEvent_kept {s : State} {k : PairNum} {status : Nat} (hs : s.kept q) :
    (State.pairEvent s k status).kept q := by
  unfold State.pairEvent
  repeat' first
    | with_reducible assumption
    | with_reducible refine State.report_kept ?_

theorem State.pairBusyDrop_kept {s : State} {k : PairNum} (hs : s.kept q) :
    (State.pairBusyDrop s k).kept q := by
  unfold State.pairBusyDrop
  repeat' first
    | with_reducible assumption
    | with_reducible refine State.raiseBit_kept ?_
    | with_reducible refine State.pairEvent_kept ?_

theorem State.writeConsumed_kept {s : State} {k : PairNum} {r : Fin 2} {v : Word} (hs : s.kept q) :
    (State.writeConsumed s k r v).kept q := by
  unfold State.writeConsumed
  repeat' first
    | with_reducible assumption
    | (with_reducible show State.kept z q; dsimp only [z]; clear z)
    | with_reducible refine State.setReg_kept ?_
    | with_reducible refine State.raiseBit_kept ?_
    | with_reducible refine State.pairEvent_kept ?_
    | (intro z; refine have hz : State.kept z q := ?_; ?_)
    | intro z
    | lift_lets
    | with_reducible refine kept_choice ?_ (fun _ => ?_)
    | simp only [kept_mk, held_fields]

theorem State.msixPend_kept {s : State} {port : Port} {v : Nat} {b : Bool} (hs : s.kept q) :
    (State.msixPend s port v b).kept q := by
  unfold State.msixPend
  repeat' first
    | with_reducible assumption
    | intro z
    | lift_lets
    | simp only [kept_mk, held_fields]

theorem State.msix_kept {s : State} {port : Port} {v : Nat} (hs : s.kept q) :
    (State.msix s port v).kept q := by
  unfold State.msix
  repeat' first
    | with_reducible assumption
    | with_reducible refine State.send_kept ?_
    | with_reducible refine State.msixPend_kept ?_
    | intro z
    | lift_lets
    | with_reducible refine kept_choice ?_ (fun _ => ?_)

theorem State.msixWrite_kept {s : State} {port : Port} {off : Nat} {w : Word} (hs : s.kept q) :
    (State.msixWrite s port off w).kept q := by
  unfold State.msixWrite
  repeat' first
    | with_reducible assumption
    | (with_reducible show State.kept z q; dsimp only [z]; clear z)
    | with_reducible refine State.msixPend_kept ?_
    | with_reducible refine State.msix_kept ?_
    | (intro z; refine have hz : State.kept z q := ?_; ?_)
    | intro z
    | lift_lets
    | with_reducible refine kept_choice ?_ (fun _ => ?_)
    | simp only [kept_mk, held_fields]

theorem State.msixReset_kept {s : State} {port : Port} (hs : s.kept q) :
    (State.msixReset s port).kept q := by
  unfold State.msixReset
  repeat' first
    | with_reducible assumption
    | intro z
    | lift_lets
    | simp only [kept_mk, held_fields]

theorem State.ringWrite_kept {s : State} {k : PairNum} {r : Fin 2} {entry : List Byte} (hs : s.kept q) :
    (State.ringWrite s k r entry).kept q := by
  unfold State.ringWrite
  repeat' first
    | with_reducible assumption
    | (with_reducible show State.kept z q; dsimp only [z]; clear z)
    | with_reducible refine State.pcieStore_kept ?_
    | with_reducible refine State.msix_kept ?_
    | (intro z; refine have hz : State.kept z q := ?_; ?_)
    | intro z
    | lift_lets
    | with_reducible refine kept_choice ?_ (fun _ => ?_)
    | simp only [kept_mk, held_fields]

theorem State.noteIde_kept {s : State} {key : Nat} {ide : Option (Fin 4)} (hs : s.kept q) :
    (State.noteIde s key ide).kept q := by
  unfold State.noteIde
  repeat' first
    | with_reducible assumption
    | intro z
    | lift_lets
    | simp only [kept_mk, held_fields]

theorem State.slotByte_kept {s : State} {k : PairNum} {off : Nat} {b : Byte} {ide : Option (Fin 4)} (hs : s.kept q) :
    (State.slotByte s k off b ide).kept q := by
  unfold State.slotByte
  repeat' first
    | with_reducible assumption
    | with_reducible refine State.noteIde_kept ?_
    | intro z
    | lift_lets
    | with_reducible refine kept_choice ?_ (fun _ => ?_)
    | simp only [kept_mk, held_fields]

theorem State.writeSlots_kept {s : State} {k : PairNum} {off : Nat} {data : List Byte} {ide : Option (Fin 4)} (hs : s.kept q) :
    (State.writeSlots s k off data ide).kept q := by
  unfold State.writeSlots
  repeat' first
    | with_reducible assumption
    | (with_reducible show State.kept z q; dsimp only [z]; clear z)
    | with_reducible refine State.pairBusyDrop_kept ?_
    | with_reducible refine State.slotByte_kept ?_
    | (intro z; refine have hz : State.kept z q := ?_; ?_)
    | intro z
    | lift_lets
    | with_reducible refine kept_choice ?_ (fun _ => ?_)
    | with_reducible refine kept_foldl (fun _ _ _ => ?_) ?_

theorem State.doorbell_kept {s : State} {k : PairNum} {n : Word} {ide : Option (Fin 4)} (hs : s.kept q) :
    (State.doorbell s k n ide).kept q := by
  unfold State.doorbell
  repeat' first
    | with_reducible assumption
    | (with_reducible show State.kept z q; dsimp only [z]; clear z)
    | with_reducible refine State.setReg_kept ?_
    | with_reducible refine State.raiseBit_kept ?_
    | with_reducible refine State.pairEvent_kept ?_
    | with_reducible refine State.noteIde_kept ?_
    | (intro z; refine have hz : State.kept z q := ?_; ?_)
    | intro z
    | lift_lets
    | with_reducible refine kept_choice ?_ (fun _ => ?_)
    | with_reducible refine kept_foldl (fun _ _ _ => ?_) ?_

theorem State.pairRestart_kept {s : State} {k : PairNum} (hs : s.kept q) :
    (State.pairRestart s k).kept q := by
  unfold State.pairRestart
  repeat' first
    | with_reducible assumption
    | (with_reducible show State.kept z q; dsimp only [z]; clear z)
    | with_reducible refine State.setReg_kept ?_
    | (intro z; refine have hz : State.kept z q := ?_; ?_)
    | intro z
    | lift_lets
    | simp only [kept_mk, held_fields]
    | with_reducible refine kept_foldl (fun _ _ _ => ?_) ?_

theorem State.writePairCtl_kept {s : State} {k : PairNum} {v : Word} (hs : s.kept q) :
    (State.writePairCtl s k v).kept q := by
  unfold State.writePairCtl
  repeat' first
    | with_reducible assumption
    | (with_reducible show State.kept z q; dsimp only [z]; clear z)
    | with_reducible refine State.set_kept ?_
    | with_reducible refine State.pairBusyDrop_kept ?_
    | with_reducible refine State.pairRestart_kept ?_
    | (intro z; refine have hz : State.kept z q := ?_; ?_)
    | lift_lets
    | with_reducible refine kept_choice ?_ (fun _ => ?_)

theorem State.onPair_kept {s : State} {port : Port} {k : PairNum} {f : State → State} (hs : s.kept q)
    (hf : ∀ t, t.kept q → (f t).kept q) :
    (State.onPair s port k f).kept q := by
  unfold State.onPair
  repeat' first
    | with_reducible assumption
    | with_reducible apply hf
    | with_reducible refine kept_choice ?_ (fun _ => ?_)

theorem execSpnMbDoorbell_kept {port : Port} {k : PairNum} {v : Word} {ide : Option (Fin 4)} {s : State} (hs : s.kept q) :
    Keeps q (execSpnMbDoorbell port k v ide s) := by
  unfold execSpnMbDoorbell
  repeat' first
    | with_reducible assumption
    | with_reducible refine keeps_next ?_
    | with_reducible refine State.doorbell_kept ?_
    | with_reducible refine State.onPair_kept ?_ ?_
    | (intro z (hz : State.kept z q); try beta_reduce)

theorem execCommandSlotWrite_kept {port : Port} {k : PairNum} {offset : Fin 2048} {data : List Byte} {ide : Option (Fin 4)} {s : State} (hs : s.kept q) :
    Keeps q (execCommandSlotWrite port k offset data ide s) := by
  unfold execCommandSlotWrite
  repeat' first
    | with_reducible assumption
    | with_reducible refine keeps_next ?_
    | with_reducible refine State.writeSlots_kept ?_
    | with_reducible refine State.onPair_kept ?_ ?_
    | (intro z (hz : State.kept z q); try beta_reduce)

theorem execSpnMbEnable_kept {port : Port} {k : PairNum} {v : Word} {s : State} (hs : s.kept q) :
    Keeps q (execSpnMbEnable port k v s) := by
  unfold execSpnMbEnable
  repeat' first
    | with_reducible assumption
    | with_reducible refine keeps_next ?_
    | with_reducible refine State.writePairCtl_kept ?_
    | with_reducible refine State.onPair_kept ?_ ?_
    | (intro z (hz : State.kept z q); try beta_reduce)

theorem execSpnMbCmpConsumed_kept {port : Port} {k : PairNum} {v : Word} {s : State} (hs : s.kept q) :
    Keeps q (execSpnMbCmpConsumed port k v s) := by
  unfold execSpnMbCmpConsumed
  repeat' first
    | with_reducible assumption
    | with_reducible refine keeps_next ?_
    | with_reducible refine State.writeConsumed_kept ?_
    | with_reducible refine State.onPair_kept ?_ ?_
    | (intro z (hz : State.kept z q); try beta_reduce)

theorem execSpnMbEvtConsumed_kept {port : Port} {k : PairNum} {v : Word} {s : State} (hs : s.kept q) :
    Keeps q (execSpnMbEvtConsumed port k v s) := by
  unfold execSpnMbEvtConsumed
  repeat' first
    | with_reducible assumption
    | with_reducible refine keeps_next ?_
    | with_reducible refine State.writeConsumed_kept ?_
    | with_reducible refine State.onPair_kept ?_ ?_
    | (intro z (hz : State.kept z q); try beta_reduce)

theorem State.takeCmd_kept {s : State} {i : Nat} {m : Cmd} (hs : s.kept q) :
    (State.takeCmd s i m).kept q := by
  unfold State.takeCmd
  repeat' first
    | with_reducible assumption
    | (with_reducible show State.kept z q; dsimp only [z]; clear z)
    | with_reducible refine State.setReg_kept ?_
    | with_reducible refine State.ledger_kept ?_
    | (intro z; refine have hz : State.kept z q := ?_; ?_)
    | intro z
    | lift_lets
    | with_reducible refine kept_choice ?_ (fun _ => ?_)
    | simp only [kept_mk, held_fields]
    | split

theorem execCommandTake_kept {src : Source} {s : State} (hs : s.kept q) :
    Keeps q (execCommandTake src s) := by
  unfold execCommandTake
  repeat' first
    | with_reducible assumption
    | (with_reducible show Keeps _ _; lift_lets)
    | with_reducible refine keeps_next ?_
    | with_reducible refine State.takeCmd_kept ?_
    | lift_lets
    | with_reducible refine kept_choice ?_ (fun _ => ?_)
    | simp only [kept_mk, held_fields]
    | split

theorem execCommandStart_kept {s : State} (hs : s.kept q) :
    Keeps q (execCommandStart s) := by
  unfold execCommandStart
  repeat' first
    | with_reducible assumption
    | with_reducible refine keeps_next ?_
    | with_reducible refine State.bump_kept ?_
    | with_reducible refine State.modCmd_kept ?_
    | with_reducible refine State.complete_kept ?_
    | lift_lets
    | with_reducible refine kept_choice ?_ (fun _ => ?_)
    | simp only [kept_mk, held_fields]
    | split

theorem State.finishCmd_kept {s : State} {m : Cmd} {status : Nat} (hs : s.kept q) :
    (State.finishCmd s m status).kept q := by
  unfold State.finishCmd
  repeat' first
    | with_reducible assumption
    | (with_reducible show State.kept z q; dsimp only [z]; clear z)
    | with_reducible refine State.bump_kept ?_
    | (intro z; refine have hz : State.kept z q := ?_; ?_)
    | intro z
    | lift_lets
    | with_reducible refine kept_choice ?_ (fun _ => ?_)
    | simp only [kept_mk, held_fields]

theorem execCompletionWrite_kept {src : Source} {s : State} (hs : s.kept q) :
    Keeps q (execCompletionWrite src s) := by
  unfold execCompletionWrite
  repeat' first
    | with_reducible assumption
    | (with_reducible show Keeps _ _; lift_lets)
    | with_reducible refine keeps_next ?_
    | with_reducible refine State.setReg_kept ?_
    | with_reducible refine State.send_kept ?_
    | with_reducible refine State.ringWrite_kept ?_
    | with_reducible refine State.finishCmd_kept ?_
    | lift_lets
    | with_reducible refine kept_choice ?_ (fun _ => ?_)
    | simp only [kept_mk, held_fields]
    | split

end Sys2Proof.Machine
end

