-- ==== Sys2Proof/Laws/KeptRegisters.lean ====
section
/-!
SUPPORT. Every operation of Machine/Registers.lean keeps the canonical form of the four stores, and the
command queue.
-/

set_option linter.unusedSimpArgs false

namespace Sys2Proof.Machine

variable {q : List Instr}

theorem State.lockedDrop_kept {s : State} {b off : Nat} (hs : s.kept q) :
    (State.lockedDrop s b off).kept q := by
  unfold State.lockedDrop
  repeat' first
    | with_reducible assumption
    | with_reducible refine State.raiseBit_kept ?_
    | with_reducible refine State.cfgWriteBusy_kept ?_
    | intro z
    | lift_lets
    | with_reducible refine kept_choice ?_ (fun _ => ?_)
    | split

theorem State.writeField_kept {s : State} {key : Nat} {lock : Bool} {f : FieldDef} {v : Nat} (hs : s.kept q) :
    (State.writeField s key lock f v).kept q := by
  unfold State.writeField
  repeat' first
    | with_reducible assumption
    | with_reducible refine State.setReg_kept ?_
    | with_reducible refine State.set_kept ?_
    | intro z
    | lift_lets
    | with_reducible refine kept_choice ?_ (fun _ => ?_)
    | split

theorem State.writeWide_kept {s : State} {key : Nat} {high : Bool} {f : FieldDef} {v : Word} (hs : s.kept q) :
    (State.writeWide s key high f v).kept q := by
  unfold State.writeWide
  repeat' first
    | with_reducible assumption
    | (with_reducible show State.kept z q; dsimp only [z]; clear z)
    | with_reducible refine State.set_kept ?_
    | (intro z; refine have hz : State.kept z q := ?_; ?_)
    | intro z
    | lift_lets
    | with_reducible refine kept_choice ?_ (fun _ => ?_)
    | simp only [kept_mk, held_fields]

theorem State.writeHit_kept {s : State} {key : Nat} {h : RegHit} {lock : Bool} {drop : State → State} {may : FieldDef → Bool} {v : Word} (hs : s.kept q)
    (hdrop : ∀ t, t.kept q → (drop t).kept q) :
    (State.writeHit s key h lock drop may v).kept q := by
  unfold State.writeHit
  repeat' first
    | with_reducible assumption
    | (with_reducible show State.kept z q; dsimp only [z]; clear z)
    | with_reducible refine State.writeField_kept ?_
    | with_reducible refine State.writeWide_kept ?_
    | with_reducible apply hdrop
    | (intro z; refine have hz : State.kept z q := ?_; ?_)
    | intro z
    | lift_lets
    | with_reducible refine kept_choice ?_ (fun _ => ?_)
    | with_reducible refine kept_foldl (fun _ _ _ => ?_) ?_
    | split
    | (dsimp only [z]; try clear z)

theorem State.writeShadow_kept {s : State} {key : Nat} {h : RegHit} {may : FieldDef → Bool} {v : Word} (hs : s.kept q) :
    (State.writeShadow s key h may v).kept q := by
  unfold State.writeShadow
  repeat' first
    | with_reducible assumption
    | with_reducible refine State.writeField_kept ?_
    | with_reducible refine kept_foldl (fun _ _ _ => ?_) ?_

theorem State.goWrite_kept {s : State} {n : ArrayNum} {v : Word} (hs : s.kept q) :
    (State.goWrite s n v).kept q := by
  unfold State.goWrite
  repeat' first
    | with_reducible assumption
    | with_reducible refine State.kernelGo_kept ?_
    | with_reducible refine kept_choice ?_ (fun _ => ?_)

theorem State.vltGoWrite_kept {s : State} {n : ArrayNum} {v : Word} (hs : s.kept q) :
    (State.vltGoWrite s n v).kept q := by
  unfold State.vltGoWrite
  repeat' first
    | with_reducible assumption
    | with_reducible refine State.vaultClear_kept ?_
    | with_reducible refine kept_choice ?_ (fun _ => ?_)

theorem State.tierGoWrite_kept {s : State} {v : Word} (hs : s.kept q) :
    (State.tierGoWrite s v).kept q := by
  unfold State.tierGoWrite
  repeat' first
    | with_reducible assumption
    | with_reducible refine State.tierClear_kept ?_
    | with_reducible refine kept_choice ?_ (fun _ => ?_)

theorem State.writeAction_kept {s : State} {b off : Nat} {v : Word} (hs : s.kept q) :
    (State.writeAction s b off v).kept q := by
  unfold State.writeAction
  repeat' first
    | with_reducible assumption
    | with_reducible refine State.kntSignal_kept ?_
    | with_reducible refine State.shtCommitWrite_kept ?_
    | with_reducible refine State.reelGoWrite_kept ?_
    | with_reducible refine State.goWrite_kept ?_
    | with_reducible refine State.vltGoWrite_kept ?_
    | with_reducible refine State.tierGoWrite_kept ?_
    | lift_lets
    | with_reducible refine kept_choice ?_ (fun _ => ?_)
    | split

theorem State.reelEnabled_kept {s t : State} {b off : Nat} (hs : s.kept q) (ht : t.kept q) :
    (State.reelEnabled s t b off).kept q := by
  unfold State.reelEnabled
  repeat' first
    | with_reducible assumption
    | with_reducible refine State.fillPools_kept ?_
    | with_reducible refine kept_choice ?_ (fun _ => ?_)
    | split

theorem State.patrolEnabled_kept {s t : State} {b off : Nat} (hs : s.kept q) (ht : t.kept q) :
    (State.patrolEnabled s t b off).kept q := by
  unfold State.patrolEnabled
  repeat' first
    | with_reducible assumption
    | with_reducible refine State.patrolStart_kept ?_
    | lift_lets
    | with_reducible refine kept_choice ?_ (fun _ => ?_)
    | split

theorem State.regError_kept {s : State} {b off cause : Nat} (hs : s.kept q) :
    (State.regError s b off cause).kept q := by
  unfold State.regError
  repeat' first
    | with_reducible assumption
    | with_reducible refine State.accessError_kept ?_

theorem State.writeWindow_kept {s : State} {by_ : Requester} {b off : Nat} {v : Word} (hs : s.kept q) :
    (State.writeWindow s by_ b off v).kept q := by
  unfold State.writeWindow
  repeat' first
    | with_reducible assumption
    | with_reducible refine State.bump_kept ?_
    | with_reducible refine State.writeKnot_kept ?_
    | with_reducible refine State.msixWrite_kept ?_
    | with_reducible refine State.lockedDrop_kept ?_
    | with_reducible refine State.writeHit_kept ?_ ?_
    | with_reducible refine State.writeShadow_kept ?_
    | with_reducible refine State.writeAction_kept ?_
    | with_reducible refine State.reelEnabled_kept ?_ ?_
    | with_reducible refine State.patrolEnabled_kept ?_ ?_
    | with_reducible refine State.regError_kept ?_
    | (intro z (hz : State.kept z q); try beta_reduce)
    | intro z
    | lift_lets
    | with_reducible refine kept_choice ?_ (fun _ => ?_)
    | simp only [kept_mk, held_fields]
    | split

theorem State.readWindow_kept {s : State} {by_ : Requester} {b off : Nat} (hs : s.kept q) :
    (State.readWindow s by_ b off).1.kept q := by
  unfold State.readWindow
  repeat' first
    | with_reducible assumption
    | with_reducible refine State.bump_kept ?_
    | with_reducible refine State.regError_kept ?_
    | lift_lets
    | simp only [kept_mk, held_fields]
    | split

theorem State.writePair_kept {s : State} {k : PairNum} {o : Nat} {v : Word} (hs : s.kept q) :
    (State.writePair s k o v).kept q := by
  unfold State.writePair
  repeat' first
    | with_reducible assumption
    | with_reducible refine State.pairBusyDrop_kept ?_
    | with_reducible refine State.writeConsumed_kept ?_
    | with_reducible refine State.doorbell_kept ?_
    | with_reducible refine State.writePairCtl_kept ?_
    | with_reducible refine State.writeHit_kept ?_ ?_
    | (intro z (hz : State.kept z q); try beta_reduce)
    | lift_lets
    | with_reducible refine kept_choice ?_ (fun _ => ?_)
    | simp only [kept_mk, held_fields]
    | split

theorem State.readPair_kept {s : State} {port : Port} {k : PairNum} {o : Nat} (hs : s.kept q) :
    (State.readPair s port k o).1.kept q := by
  unfold State.readPair
  repeat' first
    | with_reducible assumption
    | simp only [kept_mk, held_fields]
    | split

theorem State.regWriteAt_kept {s : State} {by_ : Requester} {bar0 : Bool} {off size : Nat} {v : Word} (hs : s.kept q) :
    (State.regWriteAt s by_ bar0 off size v).kept q := by
  unfold State.regWriteAt
  repeat' first
    | with_reducible assumption
    | with_reducible refine State.accessError_kept ?_
    | with_reducible refine State.writeSlots_kept ?_
    | with_reducible refine State.regError_kept ?_
    | with_reducible refine State.writeWindow_kept ?_
    | with_reducible refine State.writePair_kept ?_
    | lift_lets
    | with_reducible refine kept_choice ?_ (fun _ => ?_)
    | split

theorem State.regWrite_kept {s : State} {by_ : Requester} {bar0 : Bool} {off size : Nat} {v : Word} (hs : s.kept q) :
    (State.regWrite s by_ bar0 off size v).kept q := by
  unfold State.regWrite
  repeat' first
    | with_reducible assumption
    | with_reducible refine State.gated_kept ?_ ?_
    | with_reducible refine State.regWriteAt_kept ?_
    | (intro z (hz : State.kept z q); try beta_reduce)
    | split

theorem State.regRead_kept {s : State} {by_ : Requester} {bar0 : Bool} {off size : Nat} (hs : s.kept q) :
    (State.regRead s by_ bar0 off size).1.kept q := by
  unfold State.regRead
  repeat' first
    | with_reducible assumption
    | with_reducible refine State.accessError_kept ?_
    | with_reducible refine State.regError_kept ?_
    | with_reducible refine State.readWindow_kept ?_
    | with_reducible refine State.readPair_kept ?_
    | split

theorem execRegisterWrite_kept {by_ : Requester} {bar0 : Bool} {offset size : Nat} {v : Word} {s : State} (hs : s.kept q) :
    Keeps q (execRegisterWrite by_ bar0 offset size v s) := by
  unfold execRegisterWrite
  repeat' first
    | with_reducible assumption
    | with_reducible refine keeps_next ?_
    | with_reducible refine State.regWrite_kept ?_

theorem execReg64LatchedRead_kept {by_ : Requester} {bar0 : Bool} {offset size : Nat} {s : State} (hs : s.kept q) :
    Keeps q (execReg64LatchedRead by_ bar0 offset size s) := by
  unfold execReg64LatchedRead
  repeat' first
    | with_reducible assumption
    | (with_reducible show Keeps _ _; lift_lets)
    | with_reducible refine keeps_next ?_
    | with_reducible refine State.regRead_kept ?_
    | lift_lets
    | with_reducible refine kept_choice ?_ (fun _ => ?_)
    | simp only [kept_mk, held_fields]

theorem execArrKernelGo_kept {by_ : Requester} {n : ArrayNum} {v : Word} {s : State} (hs : s.kept q) :
    Keeps q (execArrKernelGo by_ n v s) := by
  unfold execArrKernelGo
  repeat' first
    | with_reducible assumption
    | with_reducible refine keeps_next ?_
    | with_reducible refine State.regWrite_kept ?_

theorem execKntSignal_kept {by_ : Requester} {n : ArrayNum} {v : Word} {s : State} (hs : s.kept q) :
    Keeps q (execKntSignal by_ n v s) := by
  unfold execKntSignal
  repeat' first
    | with_reducible assumption
    | with_reducible refine keeps_next ?_
    | with_reducible refine State.regWrite_kept ?_

theorem execKntValueWrite_kept {by_ : Requester} {n : ArrayNum} {i : Fin 2048} {v : Word} {sameCycle : List (BitVec 16)} {s : State} (hs : s.kept q) :
    Keeps q (execKntValueWrite by_ n i v sameCycle s) := by
  unfold execKntValueWrite
  repeat' first
    | with_reducible assumption
    | with_reducible refine keeps_next ?_
    | with_reducible refine State.incKnot_kept ?_
    | with_reducible refine State.regWrite_kept ?_
    | lift_lets
    | with_reducible refine kept_foldl (fun _ _ _ => ?_) ?_

theorem execVltClearGo_kept {by_ : Requester} {n : ArrayNum} {v : Word} {s : State} (hs : s.kept q) :
    Keeps q (execVltClearGo by_ n v s) := by
  unfold execVltClearGo
  repeat' first
    | with_reducible assumption
    | with_reducible refine keeps_next ?_
    | with_reducible refine State.regWrite_kept ?_

theorem execTierClearGo_kept {by_ : Requester} {v : Word} {s : State} (hs : s.kept q) :
    Keeps q (execTierClearGo by_ v s) := by
  unfold execTierClearGo
  repeat' first
    | with_reducible assumption
    | with_reducible refine keeps_next ?_
    | with_reducible refine State.regWrite_kept ?_

theorem execReelPStepGo_kept {by_ : Requester} {p : PartNum} {v : Word} {s : State} (hs : s.kept q) :
    Keeps q (execReelPStepGo by_ p v s) := by
  unfold execReelPStepGo
  repeat' first
    | with_reducible assumption
    | with_reducible refine keeps_next ?_
    | with_reducible refine State.regWrite_kept ?_

theorem execShtCommit_kept {by_ : Requester} {v : Word} {s : State} (hs : s.kept q) :
    Keeps q (execShtCommit by_ v s) := by
  unfold execShtCommit
  repeat' first
    | with_reducible assumption
    | with_reducible refine keeps_next ?_
    | with_reducible refine State.regWrite_kept ?_

end Sys2Proof.Machine
end

