-- ==== Sys2Proof/Laws/KeptEvents.lean ====
section
/-!
SUPPORT. Every operation of Machine/Events.lean keeps the canonical form of the four stores, and the
command queue.
-/

set_option linter.unusedSimpArgs false

namespace Sys2Proof.Machine

variable {q : List Instr}

theorem State.writeCrash_kept {s : State} {cause code : Nat} {at_ : DWord} (hs : s.kept q) :
    (State.writeCrash s cause code at_).kept q := by
  unfold State.writeCrash
  repeat' first
    | with_reducible assumption
    | intro z
    | lift_lets
    | simp only [kept_mk, held_fields]

theorem State.joinCrash_kept {s : State} (hs : s.kept q) :
    (State.joinCrash s).kept q := by
  unfold State.joinCrash
  repeat' first
    | with_reducible assumption
    | (with_reducible show State.kept z q; dsimp only [z]; clear z)
    | (intro z (hz : State.kept z q); try beta_reduce)
    | (intro z; refine have hz : State.kept z q := ?_; ?_)
    | (intro z; refine have hz : State.kept z.1 q := ?_; ?_)
    | intro z
    | lift_lets
    | with_reducible refine kept_choice ?_ (fun _ => ?_)
    | simp only [kept_mk, held_fields]
    | with_reducible refine kept_foldl (fun _ _ _ => ?_) ?_
    | with_reducible refine kept_foldl_pair (fun _ _ _ => ?_) ?_
    | with_reducible refine kept_getD ?_ ?_
    | split
    | refine kept_of_pair (by with_reducible assumption) ?_
    | refine kept_of_some (by with_reducible assumption) ?_
    | (dsimp only [z]; try clear z)

theorem State.recipientDone_kept {s : State} {r : Fin 17} {seq : Word} {written : Bool} (hs : s.kept q) :
    (State.recipientDone s r seq written).kept q := by
  unfold State.recipientDone
  repeat' first
    | with_reducible assumption
    | with_reducible refine State.refreshDue_kept ?_
    | intro z
    | lift_lets
    | simp only [kept_mk, held_fields]

theorem State.recordWrite_kept {s : State} {recipient : Fin 17} (hs : s.kept q) :
    (State.recordWrite s recipient).kept q := by
  unfold State.recordWrite
  repeat' first
    | with_reducible assumption
    | (with_reducible show State.kept z q; dsimp only [z]; clear z)
    | (intro z (hz : State.kept z q); try beta_reduce)
    | with_reducible refine State.send_kept ?_
    | with_reducible refine State.ringWrite_kept ?_
    | with_reducible refine State.recipientDone_kept ?_
    | (intro z; refine have hz : State.kept z q := ?_; ?_)
    | (intro z; refine have hz : State.kept z.1 q := ?_; ?_)
    | intro z
    | lift_lets
    | with_reducible refine kept_choice ?_ (fun _ => ?_)
    | simp only [kept_mk, held_fields]
    | with_reducible refine kept_foldl (fun _ _ _ => ?_) ?_
    | with_reducible refine kept_foldl_pair (fun _ _ _ => ?_) ?_
    | with_reducible refine kept_getD ?_ ?_
    | split
    | refine kept_of_pair (by with_reducible assumption) ?_
    | refine kept_of_some (by with_reducible assumption) ?_
    | (dsimp only [z]; try clear z)

theorem execEventRecordWrite_kept {recipient : Fin 17} {s : State} (hs : s.kept q) :
    Keeps q (execEventRecordWrite recipient s) := by
  unfold execEventRecordWrite
  repeat' first
    | with_reducible assumption
    | (with_reducible show Keeps _ _; lift_lets)
    | with_reducible refine keeps_next ?_
    | with_reducible exact keeps_fault
    | with_reducible refine keeps_choice ?_ ?_
    | (with_reducible show State.kept z q; dsimp only [z]; clear z)
    | (intro z (hz : State.kept z q); try beta_reduce)
    | with_reducible refine State.gated_kept ?_ ?_
    | with_reducible refine State.recordWrite_kept ?_
    | (intro z; refine have hz : State.kept z q := ?_; ?_)
    | (intro z; refine have hz : State.kept z.1 q := ?_; ?_)
    | intro z
    | lift_lets
    | with_reducible refine kept_choice ?_ (fun _ => ?_)
    | simp only [kept_mk, held_fields]
    | with_reducible refine kept_foldl (fun _ _ _ => ?_) ?_
    | with_reducible refine kept_foldl_pair (fun _ _ _ => ?_) ?_
    | with_reducible refine kept_getD ?_ ?_
    | split
    | refine kept_of_pair (by with_reducible assumption) ?_
    | refine kept_of_some (by with_reducible assumption) ?_
    | (dsimp only [z]; try clear z)

theorem execRecordAbandon_kept {recipient : Fin 17} {s : State} (hs : s.kept q) :
    Keeps q (execRecordAbandon recipient s) := by
  unfold execRecordAbandon
  repeat' first
    | with_reducible assumption
    | with_reducible refine keeps_next ?_
    | with_reducible refine State.raiseBit_kept ?_
    | with_reducible refine State.loseFor_kept ?_
    | with_reducible refine State.recipientDone_kept ?_
    | lift_lets
    | with_reducible refine kept_choice ?_ (fun _ => ?_)
    | split

theorem execHandlingIntervalEnd_kept {seq : Word} {s : State} (hs : s.kept q) :
    Keeps q (execHandlingIntervalEnd seq s) := by
  unfold execHandlingIntervalEnd
  repeat' first
    | with_reducible assumption
    | (with_reducible show Keeps _ _; lift_lets)
    | with_reducible refine keeps_next ?_
    | with_reducible refine State.enqueue_kept ?_
    | lift_lets
    | with_reducible refine kept_choice ?_ (fun _ => ?_)
    | simp only [kept_mk, held_fields]
    | split

theorem State.releaseHeld_kept {s : State} {start : DWord} (hs : s.kept q) :
    (State.releaseHeld s start).kept q := by
  unfold State.releaseHeld
  repeat' first
    | with_reducible assumption
    | intro z
    | lift_lets
    | simp only [kept_mk, held_fields]

theorem State.holdCompletions_kept {s : State} (hs : s.kept q) :
    (State.holdCompletions s).kept q := by
  unfold State.holdCompletions
  repeat' first
    | with_reducible assumption
    | intro z
    | lift_lets
    | simp only [kept_mk, held_fields]

theorem State.switchOver_kept {s : State} {cause : Nat} {planned : Bool} (hs : s.kept q) :
    (State.switchOver s cause planned).kept q := by
  unfold State.switchOver
  repeat' first
    | with_reducible assumption
    | (with_reducible show State.kept z q; dsimp only [z]; clear z)
    | with_reducible refine State.set_kept ?_
    | with_reducible refine State.setHalfState_kept ?_
    | with_reducible refine State.powerUpHalf_kept ?_
    | with_reducible refine State.quarantine_kept ?_
    | (intro z; refine have hz : State.kept z q := ?_; ?_)
    | intro z
    | lift_lets
    | with_reducible refine kept_choice ?_ (fun _ => ?_)
    | simp only [kept_mk, held_fields]

theorem State.unplanned_kept {s : State} {cause code : Nat} (hs : s.kept q) :
    (State.unplanned s cause code).kept q := by
  unfold State.unplanned
  repeat' first
    | with_reducible assumption
    | with_reducible refine State.quarantine_kept ?_
    | with_reducible refine State.stopModule_kept ?_
    | with_reducible refine State.switchOver_kept ?_
    | intro z
    | lift_lets
    | with_reducible refine kept_choice ?_ (fun _ => ?_)

theorem State.fatalEvent_kept {s : State} {code : Nat} {ev : Ev} (hs : s.kept q) :
    (State.fatalEvent s code ev).kept q := by
  unfold State.fatalEvent
  repeat' first
    | with_reducible assumption
    | with_reducible refine State.set_kept ?_
    | with_reducible refine State.report_kept ?_

theorem State.escalate_kept {s : State} {code : Nat} {ev : Ev} (hs : s.kept q) :
    (State.escalate s code ev).kept q := by
  unfold State.escalate
  repeat' first
    | with_reducible assumption
    | (with_reducible show State.kept z q; dsimp only [z]; clear z)
    | (intro z (hz : State.kept z q); try beta_reduce)
    | with_reducible refine State.report_kept ?_
    | with_reducible refine State.stopModule_kept ?_
    | with_reducible refine State.joinCrash_kept ?_
    | with_reducible refine State.unplanned_kept ?_
    | with_reducible refine State.fatalEvent_kept ?_
    | (intro z; refine have hz : State.kept z q := ?_; ?_)
    | (intro z; refine have hz : State.kept z.1 q := ?_; ?_)
    | intro z
    | lift_lets
    | with_reducible refine kept_choice ?_ (fun _ => ?_)
    | simp only [kept_mk, held_fields]
    | with_reducible refine kept_foldl (fun _ _ _ => ?_) ?_
    | with_reducible refine kept_foldl_pair (fun _ _ _ => ?_) ?_
    | with_reducible refine kept_getD ?_ ?_
    | split
    | refine kept_of_pair (by with_reducible assumption) ?_
    | refine kept_of_some (by with_reducible assumption) ?_
    | (dsimp only [z]; try clear z)

theorem execFatalEscalation_kept {failure : FatalFailure} {s : State} (hs : s.kept q) :
    Keeps q (execFatalEscalation failure s) := by
  unfold execFatalEscalation
  repeat' first
    | with_reducible assumption
    | (with_reducible show Keeps _ _; lift_lets)
    | with_reducible refine keeps_next ?_
    | with_reducible refine State.bump_kept ?_
    | with_reducible refine State.escalate_kept ?_
    | lift_lets
    | with_reducible refine kept_choice ?_ (fun _ => ?_)

theorem State.tickFabric_kept {s : State} (hs : s.kept q) :
    (State.tickFabric s).kept q := by
  unfold State.tickFabric
  repeat' first
    | with_reducible assumption
    | (with_reducible show State.kept z q; dsimp only [z]; clear z)
    | with_reducible refine State.bump_kept ?_
    | with_reducible refine State.report_kept ?_
    | (intro z; refine have hz : State.kept z q := ?_; ?_)
    | lift_lets
    | simp only [kept_mk, held_fields]
    | with_reducible refine kept_foldl (fun _ _ _ => ?_) ?_

end Sys2Proof.Machine
end

