-- ==== Sys2Proof/Laws/KeptTwin.lean ====
section
/-!
SUPPORT. Every operation of Machine/Twin.lean keeps the canonical form of the four stores, and the
command queue.
-/

set_option linter.unusedSimpArgs false

namespace Sys2Proof.Machine

variable {q : List Instr}

theorem State.ledgerStore_kept {s : State} {off : Nat} {bs : List Byte} (hs : s.kept q) :
    (State.ledgerStore s off bs).kept q := by
  unfold State.ledgerStore
  repeat' first
    | with_reducible assumption
    | with_reducible refine State.write_kept ?_
    | with_reducible refine kept_foldl (fun _ _ _ => ?_) ?_

theorem State.ledgerDone_kept {s : State} {e : LedgerEntry} (hs : s.kept q) :
    (State.ledgerDone s e).kept q := by
  unfold State.ledgerDone
  repeat' first
    | with_reducible assumption
    | (with_reducible show State.kept z q; dsimp only [z]; clear z)
    | (intro z (hz : State.kept z q); try beta_reduce)
    | with_reducible refine State.setReg_kept ?_
    | with_reducible refine State.modCmd_kept ?_
    | (intro z; refine have hz : State.kept z q := ?_; ?_)
    | (intro z; refine have hz : State.kept z.1 q := ?_; ?_)
    | intro z
    | lift_lets
    | with_reducible refine kept_choice ?_ (fun _ => ?_)
    | simp only [kept_mk, held_fields]
    | with_reducible refine kept_foldl (fun _ _ _ => ?_) ?_
    | with_reducible refine kept_foldl_pair (fun _ _ _ => ?_) ?_
    | with_reducible refine kept_getD ?_ ?_
    | split
    | refine kept_of_pair (by with_reducible assumption) ?_
    | refine kept_of_some (by with_reducible assumption) ?_
    | (dsimp only [z]; try clear z)

theorem State.journalWrite_kept {s : State} {claim : Nat} {e : LedgerEntry} {saved : Saved} (hs : s.kept q) :
    (State.journalWrite s claim e saved).kept q := by
  unfold State.journalWrite
  repeat' first
    | with_reducible assumption
    | (with_reducible show State.kept z q; dsimp only [z]; clear z)
    | (intro z (hz : State.kept z q); try beta_reduce)
    | with_reducible refine State.set_kept ?_
    | with_reducible refine State.ledger_kept ?_
    | with_reducible refine State.ledgerStore_kept ?_
    | with_reducible refine State.ledgerDone_kept ?_
    | (intro z; refine have hz : State.kept z q := ?_; ?_)
    | (intro z; refine have hz : State.kept z.1 q := ?_; ?_)
    | intro z
    | lift_lets
    | with_reducible refine kept_choice ?_ (fun _ => ?_)
    | simp only [kept_mk, held_fields]
    | with_reducible refine kept_foldl (fun _ _ _ => ?_) ?_
    | with_reducible refine kept_foldl_pair (fun _ _ _ => ?_) ?_
    | with_reducible refine kept_getD ?_ ?_
    | split
    | refine kept_of_pair (by with_reducible assumption) ?_
    | refine kept_of_some (by with_reducible assumption) ?_
    | (dsimp only [z]; try clear z)

theorem execLedgerWrite_kept {s : State} (hs : s.kept q) :
    Keeps q (execLedgerWrite s) := by
  unfold execLedgerWrite
  repeat' first
    | with_reducible assumption
    | (with_reducible show Keeps _ _; lift_lets)
    | with_reducible refine keeps_next ?_
    | with_reducible exact keeps_fault
    | with_reducible refine keeps_choice ?_ ?_
    | (with_reducible show State.kept z q; dsimp only [z]; clear z)
    | (intro z (hz : State.kept z q); try beta_reduce)
    | with_reducible refine State.ledger_kept ?_
    | with_reducible refine State.gateReject_kept ?_
    | with_reducible refine State.journalWrite_kept ?_
    | (intro z; refine have hz : State.kept z q := ?_; ?_)
    | (intro z; refine have hz : State.kept z.1 q := ?_; ?_)
    | intro z
    | lift_lets
    | with_reducible refine kept_choice ?_ (fun _ => ?_)
    | simp only [kept_mk, held_fields]
    | with_reducible refine kept_foldl (fun _ _ _ => ?_) ?_
    | with_reducible refine kept_foldl_pair (fun _ _ _ => ?_) ?_
    | with_reducible refine kept_getD ?_ ?_
    | split
    | refine kept_of_pair (by with_reducible assumption) ?_
    | refine kept_of_some (by with_reducible assumption) ?_
    | (dsimp only [z]; try clear z)

theorem State.writeSnapshot_kept {s : State} (hs : s.kept q) :
    (State.writeSnapshot s).kept q := by
  unfold State.writeSnapshot
  repeat' first
    | with_reducible assumption
    | (with_reducible show State.kept z q; dsimp only [z]; clear z)
    | (intro z (hz : State.kept z q); try beta_reduce)
    | with_reducible refine State.set_kept ?_
    | with_reducible refine State.ledger_kept ?_
    | with_reducible refine State.ledgerStore_kept ?_
    | (intro z; refine have hz : State.kept z q := ?_; ?_)
    | (intro z; refine have hz : State.kept z.1 q := ?_; ?_)
    | intro z
    | lift_lets
    | with_reducible refine kept_choice ?_ (fun _ => ?_)
    | simp only [kept_mk, held_fields]
    | with_reducible refine kept_foldl (fun _ _ _ => ?_) ?_
    | with_reducible refine kept_foldl_pair (fun _ _ _ => ?_) ?_
    | with_reducible refine kept_getD ?_ ?_
    | split
    | refine kept_of_pair (by with_reducible assumption) ?_
    | refine kept_of_some (by with_reducible assumption) ?_
    | (dsimp only [z]; try clear z)

theorem execSnapshot_kept {s : State} (hs : s.kept q) :
    Keeps q (execSnapshot s) := by
  unfold execSnapshot
  repeat' first
    | with_reducible assumption
    | (with_reducible show Keeps _ _; lift_lets)
    | with_reducible refine keeps_next ?_
    | with_reducible exact keeps_fault
    | with_reducible refine keeps_choice ?_ ?_
    | (with_reducible show State.kept z q; dsimp only [z]; clear z)
    | (intro z (hz : State.kept z q); try beta_reduce)
    | with_reducible refine State.ledger_kept ?_
    | with_reducible refine State.gated_kept ?_ ?_
    | with_reducible refine State.writeSnapshot_kept ?_
    | (intro z; refine have hz : State.kept z q := ?_; ?_)
    | (intro z; refine have hz : State.kept z.1 q := ?_; ?_)
    | intro z
    | lift_lets
    | with_reducible refine kept_choice ?_ (fun _ => ?_)
    | simp only [kept_mk, held_fields]
    | with_reducible refine kept_foldl (fun _ _ _ => ?_) ?_
    | with_reducible refine kept_foldl_pair (fun _ _ _ => ?_) ?_
    | with_reducible refine kept_getD ?_ ?_
    | split
    | refine kept_of_pair (by with_reducible assumption) ?_
    | refine kept_of_some (by with_reducible assumption) ?_
    | (dsimp only [z]; try clear z)

theorem State.ledgerScan_kept {s : State} (hs : s.kept q) :
    (State.ledgerScan s).kept q := by
  unfold State.ledgerScan
  repeat' first
    | with_reducible assumption
    | with_reducible refine State.eccReport_kept ?_
    | with_reducible refine State.correct_kept ?_
    | lift_lets
    | simp only [kept_mk, held_fields]
    | with_reducible refine kept_foldl (fun _ _ _ => ?_) ?_

theorem State.restoreConv_kept {s : State} {x : Saved} {i : Nat} (hs : s.kept q) :
    (State.restoreConv s x i).kept q := by
  unfold State.restoreConv
  repeat' first
    | with_reducible assumption
    | (with_reducible show State.kept z q; dsimp only [z]; clear z)
    | (intro z (hz : State.kept z q); try beta_reduce)
    | with_reducible refine State.seqUpdate_kept ?_
    | with_reducible refine State.modConv_kept ?_
    | (intro z; refine have hz : State.kept z q := ?_; ?_)
    | (intro z; refine have hz : State.kept z.1 q := ?_; ?_)
    | intro z
    | lift_lets
    | with_reducible refine kept_choice ?_ (fun _ => ?_)
    | simp only [kept_mk, held_fields]
    | with_reducible refine kept_foldl (fun _ _ _ => ?_) ?_
    | with_reducible refine kept_foldl_pair (fun _ _ _ => ?_) ?_
    | with_reducible refine kept_getD ?_ ?_
    | split
    | refine kept_of_pair (by with_reducible assumption) ?_
    | refine kept_of_some (by with_reducible assumption) ?_
    | (dsimp only [z]; try clear z)

theorem State.takeBack_kept {s : State} {x : Saved} {g : Nat} (hs : s.kept q) :
    (State.takeBack s x g).kept q := by
  unfold State.takeBack
  repeat' first
    | with_reducible assumption
    | (with_reducible show State.kept z q; dsimp only [z]; clear z)
    | (intro z (hz : State.kept z q); try beta_reduce)
    | with_reducible refine State.modPart_kept ?_
    | with_reducible refine State.setTtag_kept ?_
    | (intro z; refine have hz : State.kept z q := ?_; ?_)
    | (intro z; refine have hz : State.kept z.1 q := ?_; ?_)
    | intro z
    | lift_lets
    | with_reducible refine kept_choice ?_ (fun _ => ?_)
    | simp only [kept_mk, held_fields]
    | with_reducible refine kept_foldl (fun _ _ _ => ?_) ?_
    | with_reducible refine kept_foldl_pair (fun _ _ _ => ?_) ?_
    | with_reducible refine kept_getD ?_ ?_
    | split
    | refine kept_of_pair (by with_reducible assumption) ?_
    | refine kept_of_some (by with_reducible assumption) ?_
    | (dsimp only [z]; try clear z)

theorem State.restoreTo_kept {s : State} {x : Saved} (hs : s.kept q) :
    (State.restoreTo s x).kept q := by
  unfold State.restoreTo
  repeat' first
    | with_reducible assumption
    | (with_reducible show State.kept z q; dsimp only [z]; clear z)
    | (intro z (hz : State.kept z q); try beta_reduce)
    | with_reducible refine State.set_kept ?_
    | with_reducible refine State.restoreConv_kept ?_
    | with_reducible refine State.takeBack_kept ?_
    | (intro z; refine have hz : State.kept z q := ?_; ?_)
    | (intro z; refine have hz : State.kept z.1 q := ?_; ?_)
    | intro z
    | lift_lets
    | with_reducible refine kept_choice ?_ (fun _ => ?_)
    | simp only [kept_mk, held_fields]
    | with_reducible refine kept_foldl (fun _ _ _ => ?_) ?_
    | with_reducible refine kept_foldl_pair (fun _ _ _ => ?_) ?_
    | with_reducible refine kept_getD ?_ ?_
    | split
    | refine kept_of_pair (by with_reducible assumption) ?_
    | refine kept_of_some (by with_reducible assumption) ?_
    | (dsimp only [z]; try clear z)

theorem State.restoreLedger_kept {s : State} (hs : s.kept q) :
    OptKeeps q (State.restoreLedger s) := by
  unfold State.restoreLedger
  cases s.restorable with
  | none => exact optKeeps_none
  | some es =>
    refine optKeeps_some ?_
    have h1 : s.ledgerScan.kept q := State.ledgerScan_kept hs
    cases s.lostImage with
    | none => exact h1
    | some x => exact State.restoreTo_kept h1

theorem execActiveHalfHeartbeat_kept {s : State} (hs : s.kept q) :
    Keeps q (execActiveHalfHeartbeat s) := by
  unfold execActiveHalfHeartbeat
  repeat' first
    | with_reducible assumption
    | (with_reducible show Keeps _ _; lift_lets)
    | with_reducible refine keeps_next ?_
    | lift_lets
    | with_reducible refine kept_choice ?_ (fun _ => ?_)
    | simp only [kept_mk, held_fields]

theorem execHeartbeatTimeout_kept {s : State} (hs : s.kept q) :
    Keeps q (execHeartbeatTimeout s) := by
  unfold execHeartbeatTimeout
  repeat' first
    | with_reducible assumption
    | with_reducible refine keeps_next ?_
    | with_reducible refine State.unplanned_kept ?_
    | lift_lets
    | with_reducible refine kept_choice ?_ (fun _ => ?_)

theorem execInternalFatalError_kept {s : State} (hs : s.kept q) :
    Keeps q (execInternalFatalError s) := by
  unfold execInternalFatalError
  repeat' first
    | with_reducible assumption
    | with_reducible refine keeps_next ?_
    | with_reducible refine State.unplanned_kept ?_
    | lift_lets
    | with_reducible refine kept_choice ?_ (fun _ => ?_)

theorem State.scheduleSwap_kept {s : State} {base : DWord} (hs : s.kept q) :
    (State.scheduleSwap s base).kept q := by
  unfold State.scheduleSwap
  repeat' first
    | with_reducible assumption
    | with_reducible refine State.set_kept ?_
    | intro z
    | lift_lets
    | simp only [kept_mk, held_fields]

theorem execTwnSwap_kept {c : CmdRef} {s : State} (hs : s.kept q) :
    Keeps q (execTwnSwap c s) := by
  unfold execTwnSwap
  repeat' first
    | with_reducible assumption
    | (with_reducible show Keeps _ _; lift_lets)
    | with_reducible refine keeps_next ?_
    | with_reducible refine State.complete_kept ?_
    | with_reducible refine State.park_kept ?_
    | with_reducible refine State.runCmd_kept ?_ ?_
    | (intro z (hz : State.kept z q); try beta_reduce)
    | intro z
    | lift_lets
    | with_reducible refine kept_choice ?_ (fun _ => ?_)
    | simp only [kept_mk, held_fields]

theorem execPeriodicSwapDue_kept {s : State} (hs : s.kept q) :
    Keeps q (execPeriodicSwapDue s) := by
  unfold execPeriodicSwapDue
  repeat' first
    | with_reducible assumption
    | (with_reducible show Keeps _ _; lift_lets)
    | with_reducible refine keeps_next ?_
    | with_reducible refine State.raiseBit_kept ?_
    | with_reducible refine State.scheduleSwap_kept ?_
    | lift_lets
    | with_reducible refine kept_choice ?_ (fun _ => ?_)
    | simp only [kept_mk, held_fields]

theorem State.finishSwap_kept {s : State} {status : Nat} (hs : s.kept q) :
    (State.finishSwap s status).kept q := by
  unfold State.finishSwap
  repeat' first
    | with_reducible assumption
    | with_reducible refine State.complete_kept ?_
    | lift_lets
    | with_reducible refine kept_choice ?_ (fun _ => ?_)
    | with_reducible refine kept_foldl (fun _ _ _ => ?_) ?_

theorem execFinalSnapshotComplete_kept {s : State} (hs : s.kept q) :
    Keeps q (execFinalSnapshotComplete s) := by
  unfold execFinalSnapshotComplete
  repeat' first
    | with_reducible assumption
    | (with_reducible show Keeps _ _; lift_lets)
    | with_reducible refine keeps_next ?_
    | with_reducible refine State.raiseBit_kept ?_
    | with_reducible refine State.switchOver_kept ?_
    | with_reducible refine State.writeSnapshot_kept ?_
    | with_reducible refine State.scheduleSwap_kept ?_
    | with_reducible refine State.finishSwap_kept ?_
    | lift_lets
    | with_reducible refine kept_choice ?_ (fun _ => ?_)
    | simp only [kept_mk, held_fields]
    | split

theorem State.setPhaseTwn_kept {s : State} {p : GapPhase} (hs : s.kept q) :
    (State.setPhaseTwn s p).kept q := by
  unfold State.setPhaseTwn
  repeat' first
    | with_reducible assumption
    | intro z
    | lift_lets
    | simp only [kept_mk, held_fields]

theorem State.incomingFails_kept {s : State} (hs : s.kept q) :
    (State.incomingFails s).kept q := by
  unfold State.incomingFails
  repeat' first
    | with_reducible assumption
    | (with_reducible show State.kept z q; dsimp only [z]; clear z)
    | with_reducible refine State.raiseBit_kept ?_
    | with_reducible refine State.quarantine_kept ?_
    | with_reducible refine State.stopModule_kept ?_
    | with_reducible refine State.setPhaseTwn_kept ?_
    | (intro z; refine have hz : State.kept z q := ?_; ?_)
    | intro z
    | lift_lets
    | with_reducible refine kept_choice ?_ (fun _ => ?_)

theorem execIncomingPowerGood_kept {s : State} (hs : s.kept q) :
    Keeps q (execIncomingPowerGood s) := by
  unfold execIncomingPowerGood
  repeat' first
    | with_reducible assumption
    | with_reducible refine keeps_next ?_
    | with_reducible refine State.setPhaseTwn_kept ?_
    | lift_lets
    | with_reducible refine kept_choice ?_ (fun _ => ?_)

theorem State.codeScan_kept {s : State} (hs : s.kept q) :
    (State.codeScan s).kept q := by
  unfold State.codeScan
  repeat' first
    | with_reducible assumption
    | (with_reducible show State.kept z q; dsimp only [z]; clear z)
    | (intro z (hz : State.kept z q); try beta_reduce)
    | with_reducible refine State.eccReport_kept ?_
    | with_reducible refine State.correct_kept ?_
    | with_reducible refine State.countRead_kept ?_
    | (intro z; refine have hz : State.kept z q := ?_; ?_)
    | (intro z; refine have hz : State.kept z.1 q := ?_; ?_)
    | intro z
    | lift_lets
    | with_reducible refine kept_choice ?_ (fun _ => ?_)
    | simp only [kept_mk, held_fields]
    | with_reducible refine kept_foldl (fun _ _ _ => ?_) ?_
    | with_reducible refine kept_foldl_pair (fun _ _ _ => ?_) ?_
    | with_reducible refine kept_getD ?_ ?_
    | split
    | refine kept_of_pair (by with_reducible assumption) ?_
    | refine kept_of_some (by with_reducible assumption) ?_
    | (dsimp only [z]; try clear z)

theorem execCodeVerified_kept {digestOk : Bool} {s : State} (hs : s.kept q) :
    Keeps q (execCodeVerified digestOk s) := by
  unfold execCodeVerified
  repeat' first
    | with_reducible assumption
    | (with_reducible show Keeps _ _; lift_lets)
    | with_reducible refine keeps_next ?_
    | with_reducible exact keeps_fault
    | with_reducible refine keeps_choice ?_ ?_
    | (with_reducible show State.kept z q; dsimp only [z]; clear z)
    | (intro z (hz : State.kept z q); try beta_reduce)
    | with_reducible refine State.setClaim_kept ?_
    | with_reducible refine State.setPhaseTwn_kept ?_
    | with_reducible refine State.incomingFails_kept ?_
    | with_reducible refine State.codeScan_kept ?_
    | (intro z; refine have hz : State.kept z q := ?_; ?_)
    | (intro z; refine have hz : State.kept z.1 q := ?_; ?_)
    | intro z
    | lift_lets
    | with_reducible refine kept_choice ?_ (fun _ => ?_)
    | simp only [kept_mk, held_fields]
    | with_reducible refine kept_foldl (fun _ _ _ => ?_) ?_
    | with_reducible refine kept_foldl_pair (fun _ _ _ => ?_) ?_
    | with_reducible refine kept_getD ?_ ?_
    | split
    | refine kept_of_pair (by with_reducible assumption) ?_
    | refine kept_of_some (by with_reducible assumption) ?_
    | (dsimp only [z]; try clear z)

theorem execLedgerRestore_kept {s : State} (hs : s.kept q) :
    Keeps q (execLedgerRestore s) := by
  have h := State.restoreLedger_kept hs
  unfold execLedgerRestore
  refine keeps_next ?_
  split
  · cases s.twn.ledger.placed with
    | false => exact State.incomingFails_kept (State.ledgerScan_kept hs)
    | true =>
      simp only [if_true]
      cases e : s.restoreLedger with
      | none => exact State.incomingFails_kept (State.ledgerScan_kept hs)
      | some t => exact State.setPhaseTwn_kept (h t e)
  · exact hs

theorem State.reconcileCmd_kept {s : State} {m : Cmd} (hs : s.kept q) :
    (State.reconcileCmd s m).kept q := by
  unfold State.reconcileCmd
  repeat' first
    | with_reducible assumption
    | (with_reducible show State.kept z q; dsimp only [z]; clear z)
    | (intro z (hz : State.kept z q); try beta_reduce)
    | with_reducible refine State.setReg_kept ?_
    | with_reducible refine State.modCmd_kept ?_
    | with_reducible refine State.ledger_kept ?_
    | (intro z; refine have hz : State.kept z q := ?_; ?_)
    | (intro z; refine have hz : State.kept z.1 q := ?_; ?_)
    | intro z
    | lift_lets
    | with_reducible refine kept_choice ?_ (fun _ => ?_)
    | simp only [kept_mk, held_fields]
    | with_reducible refine kept_foldl (fun _ _ _ => ?_) ?_
    | with_reducible refine kept_foldl_pair (fun _ _ _ => ?_) ?_
    | with_reducible refine kept_getD ?_ ?_
    | split
    | refine kept_of_pair (by with_reducible assumption) ?_
    | refine kept_of_some (by with_reducible assumption) ?_
    | (dsimp only [z]; try clear z)

theorem State.reconcile_kept {s : State} (hs : s.kept q) :
    (State.reconcile s).kept q := by
  unfold State.reconcile
  repeat' first
    | with_reducible assumption
    | (with_reducible show State.kept z q; dsimp only [z]; clear z)
    | (intro z (hz : State.kept z q); try beta_reduce)
    | with_reducible refine State.ledger_kept ?_
    | with_reducible refine State.reconcileCmd_kept ?_
    | (intro z; refine have hz : State.kept z q := ?_; ?_)
    | (intro z; refine have hz : State.kept z.1 q := ?_; ?_)
    | intro z
    | lift_lets
    | with_reducible refine kept_choice ?_ (fun _ => ?_)
    | simp only [kept_mk, held_fields]
    | with_reducible refine kept_foldl (fun _ _ _ => ?_) ?_
    | with_reducible refine kept_foldl_pair (fun _ _ _ => ?_) ?_
    | with_reducible refine kept_getD ?_ ?_
    | split
    | refine kept_of_pair (by with_reducible assumption) ?_
    | refine kept_of_some (by with_reducible assumption) ?_
    | (dsimp only [z]; try clear z)

theorem execReconciliation_kept {s : State} (hs : s.kept q) :
    Keeps q (execReconciliation s) := by
  unfold execReconciliation
  repeat' first
    | with_reducible assumption
    | (with_reducible show Keeps _ _; lift_lets)
    | with_reducible refine keeps_next ?_
    | with_reducible exact keeps_fault
    | with_reducible refine keeps_choice ?_ ?_
    | (with_reducible show State.kept z q; dsimp only [z]; clear z)
    | (intro z (hz : State.kept z q); try beta_reduce)
    | with_reducible refine State.setPhaseTwn_kept ?_
    | with_reducible refine State.reconcile_kept ?_
    | (intro z; refine have hz : State.kept z q := ?_; ?_)
    | (intro z; refine have hz : State.kept z.1 q := ?_; ?_)
    | intro z
    | lift_lets
    | with_reducible refine kept_choice ?_ (fun _ => ?_)
    | simp only [kept_mk, held_fields]
    | with_reducible refine kept_foldl (fun _ _ _ => ?_) ?_
    | with_reducible refine kept_foldl_pair (fun _ _ _ => ?_) ?_
    | with_reducible refine kept_getD ?_ ?_
    | split
    | refine kept_of_pair (by with_reducible assumption) ?_
    | refine kept_of_some (by with_reducible assumption) ?_
    | (dsimp only [z]; try clear z)

theorem State.closeGap_kept {s : State} {h : Half} (hs : s.kept q) :
    (State.closeGap s h).kept q := by
  unfold State.closeGap
  repeat' first
    | with_reducible assumption
    | with_reducible refine State.set_kept ?_
    | with_reducible refine State.setHalfState_kept ?_
    | with_reducible refine State.releaseHeld_kept ?_
    | with_reducible refine State.holdCompletions_kept ?_
    | with_reducible refine State.scheduleSwap_kept ?_
    | with_reducible refine State.finishSwap_kept ?_
    | with_reducible refine State.setPhaseTwn_kept ?_
    | intro z
    | lift_lets
    | simp only [kept_mk, held_fields]

theorem execGapEnd_kept {s : State} (hs : s.kept q) :
    Keeps q (execGapEnd s) := by
  unfold execGapEnd
  repeat' first
    | with_reducible assumption
    | (with_reducible show Keeps _ _; lift_lets)
    | with_reducible refine keeps_next ?_
    | with_reducible refine State.bump_kept ?_
    | with_reducible refine State.raiseBit_kept ?_
    | with_reducible refine State.setHalfState_kept ?_
    | with_reducible refine State.twinEvent_kept ?_
    | with_reducible refine State.powerDownHalf_kept ?_
    | with_reducible refine State.closeGap_kept ?_
    | lift_lets
    | with_reducible refine kept_choice ?_ (fun _ => ?_)

theorem execStartingDeadline_kept {s : State} (hs : s.kept q) :
    Keeps q (execStartingDeadline s) := by
  unfold execStartingDeadline
  repeat' first
    | with_reducible assumption
    | with_reducible refine keeps_next ?_
    | with_reducible refine State.incomingFails_kept ?_
    | lift_lets
    | with_reducible refine kept_choice ?_ (fun _ => ?_)

theorem execOutgoingHalfReturn_kept {s : State} (hs : s.kept q) :
    Keeps q (execOutgoingHalfReturn s) := by
  unfold execOutgoingHalfReturn
  repeat' first
    | with_reducible assumption
    | (with_reducible show Keeps _ _; lift_lets)
    | with_reducible refine keeps_next ?_
    | with_reducible exact keeps_fault
    | with_reducible refine keeps_choice ?_ ?_
    | (with_reducible show State.kept z q; dsimp only [z]; clear z)
    | (intro z (hz : State.kept z q); try beta_reduce)
    | with_reducible refine State.set_kept ?_
    | with_reducible refine State.setClaim_kept ?_
    | with_reducible refine State.twinEvent_kept ?_
    | with_reducible refine State.writeSnapshot_kept ?_
    | with_reducible refine State.restoreLedger_kept ?_
    | with_reducible refine State.reconcile_kept ?_
    | with_reducible refine State.closeGap_kept ?_
    | (intro z; refine have hz : State.kept z q := ?_; ?_)
    | (intro z; refine have hz : State.kept z.1 q := ?_; ?_)
    | intro z
    | lift_lets
    | with_reducible refine kept_choice ?_ (fun _ => ?_)
    | simp only [kept_mk, held_fields]
    | with_reducible refine kept_foldl (fun _ _ _ => ?_) ?_
    | with_reducible refine kept_foldl_pair (fun _ _ _ => ?_) ?_
    | with_reducible refine kept_getD ?_ ?_
    | split
    | refine kept_of_pair (by with_reducible assumption) ?_
    | refine kept_of_some (by with_reducible assumption) ?_
    | (dsimp only [z]; try clear z)

theorem State.clockStop_kept {s : State} {n : ArrayNum} (hs : s.kept q) :
    (State.clockStop s n).kept q := by
  unfold State.clockStop
  repeat' first
    | with_reducible assumption
    | with_reducible refine State.modArr_kept ?_

theorem State.release_kept {s : State} {n : ArrayNum} (hs : s.kept q) :
    (State.release s n).kept q := by
  unfold State.release
  repeat' first
    | with_reducible assumption
    | with_reducible refine State.modArr_kept ?_

theorem execPowerDownRetry_kept {half : Half} {reportsOff : Bool} {s : State} (hs : s.kept q) :
    Keeps q (execPowerDownRetry half reportsOff s) := by
  unfold execPowerDownRetry
  repeat' first
    | with_reducible assumption
    | (with_reducible show Keeps _ _; lift_lets)
    | with_reducible refine keeps_next ?_
    | with_reducible refine State.raiseBit_kept ?_
    | with_reducible refine State.twinEvent_kept ?_
    | with_reducible refine State.powerDownHalf_kept ?_
    | lift_lets
    | with_reducible refine kept_choice ?_ (fun _ => ?_)
    | simp only [kept_mk, held_fields]
    | split

theorem execTwnRestore_kept {c : CmdRef} {s : State} (hs : s.kept q) :
    Keeps q (execTwnRestore c s) := by
  unfold execTwnRestore
  repeat' first
    | with_reducible assumption
    | (with_reducible show Keeps _ _; lift_lets)
    | with_reducible refine keeps_next ?_
    | with_reducible refine State.complete_kept ?_
    | with_reducible refine State.park_kept ?_
    | with_reducible refine State.runCmd_kept ?_ ?_
    | with_reducible refine State.powerUpHalf_kept ?_
    | (intro z (hz : State.kept z q); try beta_reduce)
    | intro z
    | lift_lets
    | with_reducible refine kept_choice ?_ (fun _ => ?_)

theorem State.restoreEnd_kept {s : State} {h : Half} {ok : Bool} (hs : s.kept q) :
    (State.restoreEnd s h ok).kept q := by
  unfold State.restoreEnd
  repeat' first
    | with_reducible assumption
    | (with_reducible show State.kept z q; dsimp only [z]; clear z)
    | with_reducible refine State.set_kept ?_
    | with_reducible refine State.complete_kept ?_
    | with_reducible refine State.setHalfState_kept ?_
    | with_reducible refine State.powerDownHalf_kept ?_
    | (intro z; refine have hz : State.kept z q := ?_; ?_)
    | intro z
    | lift_lets
    | with_reducible refine kept_choice ?_ (fun _ => ?_)
    | simp only [kept_mk, held_fields]
    | with_reducible refine kept_foldl (fun _ _ _ => ?_) ?_
    | split

theorem execTwnPeriod_kept {c : CmdRef} {s : State} (hs : s.kept q) :
    Keeps q (execTwnPeriod c s) := by
  unfold execTwnPeriod
  repeat' first
    | with_reducible assumption
    | with_reducible refine keeps_next ?_
    | with_reducible refine State.set_kept ?_
    | with_reducible refine State.complete_kept ?_
    | with_reducible refine State.runCmd_kept ?_ ?_
    | with_reducible refine State.scheduleSwap_kept ?_
    | (intro z (hz : State.kept z q); try beta_reduce)
    | intro z
    | with_reducible refine kept_choice ?_ (fun _ => ?_)

theorem execTwnQuery_kept {c : CmdRef} {s : State} (hs : s.kept q) :
    Keeps q (execTwnQuery c s) := by
  unfold execTwnQuery
  repeat' first
    | with_reducible assumption
    | with_reducible refine keeps_next ?_
    | with_reducible refine State.complete_kept ?_
    | with_reducible refine State.runCmd_kept ?_ ?_
    | (intro z (hz : State.kept z q); try beta_reduce)
    | intro z

end Sys2Proof.Machine
end

