-- ==== Sys2Proof/Laws/KeptDevice.lean ====
section
/-!
SUPPORT. Every operation of Machine/Device.lean keeps the canonical form of the four stores, and the
command queue.
-/

set_option linter.unusedSimpArgs false

namespace Sys2Proof.Machine

variable {q : List Instr}

theorem execDevNop_kept {c : CmdRef} {s : State} (hs : s.kept q) :
    Keeps q (execDevNop c s) := by
  unfold execDevNop
  repeat' first
    | with_reducible assumption
    | with_reducible refine keeps_next ?_
    | with_reducible refine State.complete_kept ?_
    | with_reducible refine State.runCmd_kept ?_ ?_
    | (intro z (hz : State.kept z q); try beta_reduce)
    | intro z

theorem execDevInfo_kept {c : CmdRef} {s : State} (hs : s.kept q) :
    Keeps q (execDevInfo c s) := by
  unfold execDevInfo
  repeat' first
    | with_reducible assumption
    | with_reducible refine keeps_next ?_
    | with_reducible refine State.complete_kept ?_
    | with_reducible refine State.runCmd_kept ?_ ?_
    | (intro z (hz : State.kept z q); try beta_reduce)
    | intro z

theorem execDevTime_kept {c : CmdRef} {s : State} (hs : s.kept q) :
    Keeps q (execDevTime c s) := by
  unfold execDevTime
  repeat' first
    | with_reducible assumption
    | with_reducible refine keeps_next ?_
    | with_reducible refine State.complete_kept ?_
    | with_reducible refine State.runCmd_kept ?_ ?_
    | (intro z (hz : State.kept z q); try beta_reduce)
    | intro z

theorem State.startDrain_kept {s : State} (hs : s.kept q) :
    (State.startDrain s).kept q := by
  unfold State.startDrain
  repeat' first
    | with_reducible assumption
    | with_reducible refine State.set_kept ?_

theorem execDevDrain_kept {c : CmdRef} {s : State} (hs : s.kept q) :
    Keeps q (execDevDrain c s) := by
  unfold execDevDrain
  repeat' first
    | with_reducible assumption
    | with_reducible refine keeps_next ?_
    | with_reducible refine State.park_kept ?_
    | with_reducible refine State.runCmd_kept ?_ ?_
    | with_reducible refine State.startDrain_kept ?_
    | (intro z (hz : State.kept z q); try beta_reduce)
    | intro z

theorem State.finishDrain_kept {s : State} (hs : s.kept q) :
    (State.finishDrain s).kept q := by
  unfold State.finishDrain
  repeat' first
    | with_reducible assumption
    | with_reducible refine State.complete_kept ?_
    | lift_lets
    | with_reducible refine kept_choice ?_ (fun _ => ?_)
    | with_reducible refine kept_foldl (fun _ _ _ => ?_) ?_

theorem execDevResume_kept {c : CmdRef} {s : State} (hs : s.kept q) :
    Keeps q (execDevResume c s) := by
  unfold execDevResume
  repeat' first
    | with_reducible assumption
    | with_reducible refine keeps_next ?_
    | with_reducible refine State.set_kept ?_
    | with_reducible refine State.complete_kept ?_
    | with_reducible refine State.runCmd_kept ?_ ?_
    | with_reducible refine State.finishDrain_kept ?_
    | (intro z (hz : State.kept z q); try beta_reduce)
    | intro z

end Sys2Proof.Machine
end

