-- ==== Sys2Proof/Laws/KeptPower.lean ====
section
/-!
SUPPORT. Every operation of Machine/Power.lean keeps the canonical form of the four stores, and the
command queue.
-/

set_option linter.unusedSimpArgs false

namespace Sys2Proof.Machine

variable {q : List Instr}

theorem State.modPm_kept {s : State} {f : PowerMgr → PowerMgr} (hs : s.kept q) :
    (State.modPm s f).kept q := by
  unfold State.modPm
  repeat' first
    | with_reducible assumption
    | simp only [kept_mk, held_fields]

theorem State.powerEvent_kept {s : State} {severity status : Nat} {affected : BitVec 8} (hs : s.kept q) :
    (State.powerEvent s severity status affected).kept q := by
  unfold State.powerEvent
  repeat' first
    | with_reducible assumption
    | with_reducible refine State.report_kept ?_

theorem State.refreshCap_kept {s : State} (hs : s.kept q) :
    (State.refreshCap s).kept q := by
  unfold State.refreshCap
  repeat' first
    | with_reducible assumption
    | (with_reducible show State.kept z q; dsimp only [z]; clear z)
    | with_reducible refine State.set_kept ?_
    | (intro z; refine have hz : State.kept z q := ?_; ?_)
    | intro z
    | lift_lets
    | with_reducible refine kept_foldl (fun _ _ _ => ?_) ?_

theorem State.beginSettle_kept {s : State} {rec_ : Bool} (hs : s.kept q) :
    (State.beginSettle s rec_).kept q := by
  unfold State.beginSettle
  repeat' first
    | with_reducible assumption
    | (with_reducible show State.kept z q; dsimp only [z]; clear z)
    | with_reducible refine State.set_kept ?_
    | with_reducible refine State.powerEvent_kept ?_
    | (intro z; refine have hz : State.kept z q := ?_; ?_)
    | lift_lets
    | with_reducible refine kept_choice ?_ (fun _ => ?_)

theorem State.changeCaps_kept {s : State} {f : State → State} (hs : s.kept q)
    (hf : ∀ t, t.kept q → (f t).kept q) :
    (State.changeCaps s f).kept q := by
  unfold State.changeCaps
  repeat' first
    | with_reducible assumption
    | (with_reducible show State.kept z q; dsimp only [z]; clear z)
    | with_reducible refine State.refreshCap_kept ?_
    | with_reducible refine State.beginSettle_kept ?_
    | with_reducible apply hf
    | (intro z; refine have hz : State.kept z q := ?_; ?_)
    | intro z
    | lift_lets
    | with_reducible refine kept_choice ?_ (fun _ => ?_)

theorem State.stopWarming_kept {s : State} (hs : s.kept q) :
    (State.stopWarming s).kept q := by
  unfold State.stopWarming
  repeat' first
    | with_reducible assumption
    | with_reducible refine State.modArr_kept ?_
    | lift_lets
    | with_reducible refine kept_choice ?_ (fun _ => ?_)
    | with_reducible refine kept_foldl (fun _ _ _ => ?_) ?_

theorem State.endSettle_kept {s : State} (hs : s.kept q) :
    (State.endSettle s).kept q := by
  unfold State.endSettle
  repeat' first
    | with_reducible assumption
    | with_reducible refine State.set_kept ?_
    | with_reducible refine State.raiseBit_kept ?_
    | with_reducible refine kept_choice ?_ (fun _ => ?_)

theorem State.estimate_kept {s : State} {acts : List Activity} {platform : Nat} (hs : s.kept q) :
    (State.estimate s acts platform).kept q := by
  unfold State.estimate
  repeat' first
    | with_reducible assumption
    | (with_reducible show State.kept z q; dsimp only [z]; clear z)
    | (intro z (hz : State.kept z q); try beta_reduce)
    | with_reducible refine State.set_kept ?_
    | with_reducible refine State.modPm_kept ?_
    | (intro z; refine have hz : State.kept z q := ?_; ?_)
    | (intro z; refine have hz : State.kept z.1 q := ?_; ?_)
    | intro z
    | lift_lets
    | with_reducible refine kept_choice ?_ (fun _ => ?_)
    | simp only [kept_mk, held_fields]
    | with_reducible refine kept_foldl (fun _ _ _ => ?_) ?_
    | with_reducible refine kept_foldl_pair (fun _ _ _ => ?_) ?_
    | with_reducible refine kept_getD ?_ ?_
    | split
    | refine kept_of_pair (by with_reducible assumption) ?_
    | refine kept_of_some (by with_reducible assumption) ?_
    | (dsimp only [z]; try clear z)

theorem execPowerEstimate_kept {arrays : List Activity} {platform : Nat} {s : State} (hs : s.kept q) :
    Keeps q (execPowerEstimate arrays platform s) := by
  unfold execPowerEstimate
  repeat' first
    | with_reducible assumption
    | (with_reducible show Keeps _ _; lift_lets)
    | with_reducible refine keeps_next ?_
    | with_reducible exact keeps_fault
    | with_reducible refine keeps_choice ?_ ?_
    | (with_reducible show State.kept z q; dsimp only [z]; clear z)
    | (intro z (hz : State.kept z q); try beta_reduce)
    | with_reducible refine State.set_kept ?_
    | with_reducible refine State.modPm_kept ?_
    | with_reducible refine State.refreshCap_kept ?_
    | with_reducible refine State.stopWarming_kept ?_
    | with_reducible refine State.endSettle_kept ?_
    | with_reducible refine State.estimate_kept ?_
    | (intro z; refine have hz : State.kept z q := ?_; ?_)
    | (intro z; refine have hz : State.kept z.1 q := ?_; ?_)
    | intro z
    | lift_lets
    | with_reducible refine kept_choice ?_ (fun _ => ?_)
    | simp only [kept_mk, held_fields]
    | with_reducible refine kept_foldl (fun _ _ _ => ?_) ?_
    | with_reducible refine kept_foldl_pair (fun _ _ _ => ?_) ?_
    | with_reducible refine kept_getD ?_ ?_
    | split
    | refine kept_of_pair (by with_reducible assumption) ?_
    | refine kept_of_some (by with_reducible assumption) ?_
    | (dsimp only [z]; try clear z)

theorem execEstimateTrim_kept {measured : Nat} {trimmed : List Nat} {s : State} (hs : s.kept q) :
    Keeps q (execEstimateTrim measured trimmed s) := by
  unfold execEstimateTrim
  repeat' first
    | with_reducible assumption
    | (with_reducible show Keeps _ _; lift_lets)
    | with_reducible refine keeps_next ?_
    | with_reducible refine State.modPm_kept ?_
    | lift_lets
    | with_reducible refine kept_choice ?_ (fun _ => ?_)

theorem State.heatStop_kept {s : State} {n : ArrayNum} (hs : s.kept q) :
    (State.heatStop s n).kept q := by
  unfold State.heatStop
  repeat' first
    | with_reducible assumption
    | with_reducible refine State.clockStop_kept ?_
    | with_reducible refine State.modPm_kept ?_

theorem State.capStop_kept {s : State} {n : ArrayNum} (hs : s.kept q) :
    (State.capStop s n).kept q := by
  unfold State.capStop
  repeat' first
    | with_reducible assumption
    | with_reducible refine State.clockStop_kept ?_
    | with_reducible refine State.modPm_kept ?_

theorem State.releaseArr_kept {s : State} {n : ArrayNum} (hs : s.kept q) :
    (State.releaseArr s n).kept q := by
  unfold State.releaseArr
  repeat' first
    | with_reducible assumption
    | (with_reducible show State.kept z q; dsimp only [z]; clear z)
    | with_reducible refine State.release_kept ?_
    | with_reducible refine State.modPm_kept ?_
    | (intro z; refine have hz : State.kept z q := ?_; ?_)
    | intro z
    | lift_lets
    | with_reducible refine kept_choice ?_ (fun _ => ?_)

theorem State.swapIdle_kept {s : State} (hs : s.kept q) :
    (State.swapIdle s).kept q := by
  unfold State.swapIdle
  repeat' first
    | with_reducible assumption
    | with_reducible refine State.modPm_kept ?_

theorem State.tookSlot_kept {s : State} (hs : s.kept q) :
    (State.tookSlot s).kept q := by
  unfold State.tookSlot
  repeat' first
    | with_reducible assumption
    | (with_reducible show State.kept z q; dsimp only [z]; clear z)
    | (intro z (hz : State.kept z q); try beta_reduce)
    | with_reducible refine State.modPm_kept ?_
    | (intro z; refine have hz : State.kept z q := ?_; ?_)
    | (intro z; refine have hz : State.kept z.1 q := ?_; ?_)
    | intro z
    | lift_lets
    | with_reducible refine kept_choice ?_ (fun _ => ?_)
    | simp only [kept_mk, held_fields]
    | with_reducible refine kept_foldl (fun _ _ _ => ?_) ?_
    | with_reducible refine kept_foldl_pair (fun _ _ _ => ?_) ?_
    | with_reducible refine kept_getD ?_ ?_
    | split
    | refine kept_of_pair (by with_reducible assumption) ?_
    | refine kept_of_some (by with_reducible assumption) ?_
    | (dsimp only [z]; try clear z)

theorem State.releaseSlot_kept {s : State} {n : ArrayNum} (hs : s.kept q) :
    (State.releaseSlot s n).kept q := by
  unfold State.releaseSlot
  repeat' first
    | with_reducible assumption
    | (with_reducible show State.kept z q; dsimp only [z]; clear z)
    | (intro z (hz : State.kept z q); try beta_reduce)
    | with_reducible refine State.gated_kept ?_ ?_
    | with_reducible refine State.releaseArr_kept ?_
    | with_reducible refine State.tookSlot_kept ?_
    | (intro z; refine have hz : State.kept z q := ?_; ?_)
    | (intro z; refine have hz : State.kept z.1 q := ?_; ?_)
    | intro z
    | lift_lets
    | with_reducible refine kept_choice ?_ (fun _ => ?_)
    | simp only [kept_mk, held_fields]
    | with_reducible refine kept_foldl (fun _ _ _ => ?_) ?_
    | with_reducible refine kept_foldl_pair (fun _ _ _ => ?_) ?_
    | with_reducible refine kept_getD ?_ ?_
    | split
    | refine kept_of_pair (by with_reducible assumption) ?_
    | refine kept_of_some (by with_reducible assumption) ?_
    | (dsimp only [z]; try clear z)

theorem execPacingSlot_kept {s : State} (hs : s.kept q) :
    Keeps q (execPacingSlot s) := by
  unfold execPacingSlot
  repeat' first
    | with_reducible assumption
    | (with_reducible show Keeps _ _; lift_lets)
    | with_reducible refine keeps_next ?_
    | with_reducible exact keeps_fault
    | with_reducible refine keeps_choice ?_ ?_
    | (with_reducible show State.kept z q; dsimp only [z]; clear z)
    | (intro z (hz : State.kept z q); try beta_reduce)
    | with_reducible refine State.heatStop_kept ?_
    | with_reducible refine State.capStop_kept ?_
    | with_reducible refine State.swapIdle_kept ?_
    | with_reducible refine State.tookSlot_kept ?_
    | with_reducible refine State.releaseSlot_kept ?_
    | (intro z; refine have hz : State.kept z q := ?_; ?_)
    | (intro z; refine have hz : State.kept z.1 q := ?_; ?_)
    | intro z
    | lift_lets
    | with_reducible refine kept_choice ?_ (fun _ => ?_)
    | simp only [kept_mk, held_fields]
    | with_reducible refine kept_foldl (fun _ _ _ => ?_) ?_
    | with_reducible refine kept_foldl_pair (fun _ _ _ => ?_) ?_
    | with_reducible refine kept_getD ?_ ?_
    | split
    | refine kept_of_pair (by with_reducible assumption) ?_
    | refine kept_of_some (by with_reducible assumption) ?_
    | (dsimp only [z]; try clear z)

theorem State.startGate_kept {s : State} {n : ArrayNum} (hs : s.kept q) :
    (State.startGate s n).kept q := by
  unfold State.startGate
  repeat' first
    | with_reducible assumption
    | with_reducible refine State.modArr_kept ?_

theorem execGateHoldExpiry_kept {n : ArrayNum} {s : State} (hs : s.kept q) :
    Keeps q (execGateHoldExpiry n s) := by
  unfold execGateHoldExpiry
  repeat' first
    | with_reducible assumption
    | (with_reducible show Keeps _ _; lift_lets)
    | with_reducible refine keeps_next ?_
    | with_reducible exact keeps_fault
    | with_reducible refine keeps_choice ?_ ?_
    | (with_reducible show State.kept z q; dsimp only [z]; clear z)
    | (intro z (hz : State.kept z q); try beta_reduce)
    | with_reducible refine State.startGate_kept ?_
    | (intro z; refine have hz : State.kept z q := ?_; ?_)
    | (intro z; refine have hz : State.kept z.1 q := ?_; ?_)
    | intro z
    | lift_lets
    | with_reducible refine kept_choice ?_ (fun _ => ?_)
    | simp only [kept_mk, held_fields]
    | with_reducible refine kept_foldl (fun _ _ _ => ?_) ?_
    | with_reducible refine kept_foldl_pair (fun _ _ _ => ?_) ?_
    | with_reducible refine kept_getD ?_ ?_
    | split
    | refine kept_of_pair (by with_reducible assumption) ?_
    | refine kept_of_some (by with_reducible assumption) ?_
    | (dsimp only [z]; try clear z)

theorem execPowerGateDrainDone_kept {n : ArrayNum} {s : State} (hs : s.kept q) :
    Keeps q (execPowerGateDrainDone n s) := by
  unfold execPowerGateDrainDone
  repeat' first
    | with_reducible assumption
    | with_reducible refine keeps_next ?_
    | with_reducible refine State.modArr_kept ?_
    | lift_lets
    | with_reducible refine kept_choice ?_ (fun _ => ?_)

theorem execReleaseFromPowerGate_kept {n : ArrayNum} {s : State} (hs : s.kept q) :
    Keeps q (execReleaseFromPowerGate n s) := by
  unfold execReleaseFromPowerGate
  repeat' first
    | with_reducible assumption
    | (with_reducible show Keeps _ _; lift_lets)
    | with_reducible refine keeps_next ?_
    | with_reducible exact keeps_fault
    | with_reducible refine keeps_choice ?_ ?_
    | (with_reducible show State.kept z q; dsimp only [z]; clear z)
    | (intro z (hz : State.kept z q); try beta_reduce)
    | with_reducible refine State.gated_kept ?_ ?_
    | with_reducible refine State.release_kept ?_
    | with_reducible refine State.modPm_kept ?_
    | with_reducible refine State.tookSlot_kept ?_
    | (intro z; refine have hz : State.kept z q := ?_; ?_)
    | (intro z; refine have hz : State.kept z.1 q := ?_; ?_)
    | intro z
    | lift_lets
    | with_reducible refine kept_choice ?_ (fun _ => ?_)
    | simp only [kept_mk, held_fields]
    | with_reducible refine kept_foldl (fun _ _ _ => ?_) ?_
    | with_reducible refine kept_foldl_pair (fun _ _ _ => ?_) ?_
    | with_reducible refine kept_getD ?_ ?_
    | split
    | refine kept_of_pair (by with_reducible assumption) ?_
    | refine kept_of_some (by with_reducible assumption) ?_
    | (dsimp only [z]; try clear z)

theorem State.seqStop_kept {s : State} {n : ArrayNum} (hs : s.kept q) :
    (State.seqStop s n).kept q := by
  unfold State.seqStop
  repeat' first
    | with_reducible assumption
    | (with_reducible show State.kept z q; dsimp only [z]; clear z)
    | (intro z (hz : State.kept z q); try beta_reduce)
    | with_reducible refine State.clockStop_kept ?_
    | with_reducible refine State.tookSlot_kept ?_
    | (intro z; refine have hz : State.kept z q := ?_; ?_)
    | (intro z; refine have hz : State.kept z.1 q := ?_; ?_)
    | intro z
    | lift_lets
    | with_reducible refine kept_choice ?_ (fun _ => ?_)
    | simp only [kept_mk, held_fields]
    | with_reducible refine kept_foldl (fun _ _ _ => ?_) ?_
    | with_reducible refine kept_foldl_pair (fun _ _ _ => ?_) ?_
    | with_reducible refine kept_getD ?_ ?_
    | split
    | refine kept_of_pair (by with_reducible assumption) ?_
    | refine kept_of_some (by with_reducible assumption) ?_
    | (dsimp only [z]; try clear z)

theorem State.seqGate_kept {s : State} {n : ArrayNum} (hs : s.kept q) :
    (State.seqGate s n).kept q := by
  unfold State.seqGate
  repeat' first
    | with_reducible assumption
    | (with_reducible show State.kept z q; dsimp only [z]; clear z)
    | (intro z (hz : State.kept z q); try beta_reduce)
    | with_reducible refine State.startGate_kept ?_
    | (intro z; refine have hz : State.kept z q := ?_; ?_)
    | (intro z; refine have hz : State.kept z.1 q := ?_; ?_)
    | intro z
    | lift_lets
    | with_reducible refine kept_choice ?_ (fun _ => ?_)
    | simp only [kept_mk, held_fields]
    | with_reducible refine kept_foldl (fun _ _ _ => ?_) ?_
    | with_reducible refine kept_foldl_pair (fun _ _ _ => ?_) ?_
    | with_reducible refine kept_getD ?_ ?_
    | split
    | refine kept_of_pair (by with_reducible assumption) ?_
    | refine kept_of_some (by with_reducible assumption) ?_
    | (dsimp only [z]; try clear z)

theorem State.seqRelease_kept {s : State} {n : ArrayNum} (hs : s.kept q) :
    (State.seqRelease s n).kept q := by
  unfold State.seqRelease
  repeat' first
    | with_reducible assumption
    | (with_reducible show State.kept z q; dsimp only [z]; clear z)
    | (intro z (hz : State.kept z q); try beta_reduce)
    | with_reducible refine State.releaseSlot_kept ?_
    | (intro z; refine have hz : State.kept z q := ?_; ?_)
    | (intro z; refine have hz : State.kept z.1 q := ?_; ?_)
    | intro z
    | lift_lets
    | with_reducible refine kept_choice ?_ (fun _ => ?_)
    | simp only [kept_mk, held_fields]
    | with_reducible refine kept_foldl (fun _ _ _ => ?_) ?_
    | with_reducible refine kept_foldl_pair (fun _ _ _ => ?_) ?_
    | with_reducible refine kept_getD ?_ ?_
    | split
    | refine kept_of_pair (by with_reducible assumption) ?_
    | refine kept_of_some (by with_reducible assumption) ?_
    | (dsimp only [z]; try clear z)

theorem execRotation_kept {s : State} (hs : s.kept q) :
    Keeps q (execRotation s) := by
  unfold execRotation
  repeat' first
    | with_reducible assumption
    | (with_reducible show Keeps _ _; lift_lets)
    | with_reducible refine keeps_next ?_
    | with_reducible refine State.modPm_kept ?_
    | lift_lets
    | with_reducible refine kept_choice ?_ (fun _ => ?_)

theorem State.setHostCap_kept {s : State} {watts : Nat} (hs : s.kept q) :
    (State.setHostCap s watts).kept q := by
  unfold State.setHostCap
  repeat' first
    | with_reducible assumption
    | (with_reducible show State.kept z q; dsimp only [z]; clear z)
    | with_reducible refine State.set_kept ?_
    | with_reducible refine State.refreshCap_kept ?_
    | with_reducible refine State.beginSettle_kept ?_
    | (intro z; refine have hz : State.kept z q := ?_; ?_)
    | intro z
    | lift_lets
    | simp only [kept_mk, held_fields]

theorem execPwrCap_kept {c : CmdRef} {s : State} (hs : s.kept q) :
    Keeps q (execPwrCap c s) := by
  unfold execPwrCap
  repeat' first
    | with_reducible assumption
    | (with_reducible show Keeps _ _; lift_lets)
    | with_reducible refine keeps_next ?_
    | with_reducible refine State.complete_kept ?_
    | with_reducible refine State.runCmd_kept ?_ ?_
    | with_reducible refine State.setHostCap_kept ?_
    | (intro z (hz : State.kept z q); try beta_reduce)
    | intro z

theorem State.setPowerMode_kept {s : State} {fast isolated : Bool} (hs : s.kept q) :
    (State.setPowerMode s fast isolated).kept q := by
  unfold State.setPowerMode
  repeat' first
    | with_reducible assumption
    | with_reducible refine State.set_kept ?_
    | with_reducible refine State.modPm_kept ?_
    | lift_lets
    | with_reducible refine kept_choice ?_ (fun _ => ?_)

theorem execPwrMode_kept {c : CmdRef} {s : State} (hs : s.kept q) :
    Keeps q (execPwrMode c s) := by
  unfold execPwrMode
  repeat' first
    | with_reducible assumption
    | with_reducible refine keeps_next ?_
    | with_reducible refine State.complete_kept ?_
    | with_reducible refine State.runCmd_kept ?_ ?_
    | with_reducible refine State.setPowerMode_kept ?_
    | (intro z (hz : State.kept z q); try beta_reduce)
    | intro z
    | with_reducible refine kept_choice ?_ (fun _ => ?_)

theorem State.holdClock_kept {s : State} {n : ArrayNum} {ticks : Nat} (hs : s.kept q) :
    (State.holdClock s n ticks).kept q := by
  unfold State.holdClock
  repeat' first
    | with_reducible assumption
    | (with_reducible show State.kept z q; dsimp only [z]; clear z)
    | (intro z (hz : State.kept z q); try beta_reduce)
    | with_reducible refine State.modArr_kept ?_
    | (intro z; refine have hz : State.kept z q := ?_; ?_)
    | (intro z; refine have hz : State.kept z.1 q := ?_; ?_)
    | intro z
    | lift_lets
    | with_reducible refine kept_choice ?_ (fun _ => ?_)
    | simp only [kept_mk, held_fields]
    | with_reducible refine kept_foldl (fun _ _ _ => ?_) ?_
    | with_reducible refine kept_foldl_pair (fun _ _ _ => ?_) ?_
    | with_reducible refine kept_getD ?_ ?_
    | split
    | refine kept_of_pair (by with_reducible assumption) ?_
    | refine kept_of_some (by with_reducible assumption) ?_
    | (dsimp only [z]; try clear z)

theorem execFrequencyRelock_kept {n : ArrayNum} {s : State} (hs : s.kept q) :
    Keeps q (execFrequencyRelock n s) := by
  unfold execFrequencyRelock
  repeat' first
    | with_reducible assumption
    | (with_reducible show Keeps _ _; lift_lets)
    | with_reducible refine keeps_next ?_
    | with_reducible exact keeps_fault
    | with_reducible refine keeps_choice ?_ ?_
    | (with_reducible show State.kept z q; dsimp only [z]; clear z)
    | (intro z (hz : State.kept z q); try beta_reduce)
    | with_reducible refine State.set_kept ?_
    | with_reducible refine State.modPm_kept ?_
    | with_reducible refine State.holdClock_kept ?_
    | (intro z; refine have hz : State.kept z q := ?_; ?_)
    | (intro z; refine have hz : State.kept z.1 q := ?_; ?_)
    | intro z
    | lift_lets
    | with_reducible refine kept_choice ?_ (fun _ => ?_)
    | simp only [kept_mk, held_fields]
    | with_reducible refine kept_foldl (fun _ _ _ => ?_) ?_
    | with_reducible refine kept_foldl_pair (fun _ _ _ => ?_) ?_
    | with_reducible refine kept_getD ?_ ?_
    | split
    | refine kept_of_pair (by with_reducible assumption) ?_
    | refine kept_of_some (by with_reducible assumption) ?_
    | (dsimp only [z]; try clear z)

theorem execPwrShare_kept {c : CmdRef} {s : State} (hs : s.kept q) :
    Keeps q (execPwrShare c s) := by
  unfold execPwrShare
  repeat' first
    | with_reducible assumption
    | (with_reducible show Keeps _ _; lift_lets)
    | with_reducible refine keeps_next ?_
    | with_reducible refine State.set_kept ?_
    | with_reducible refine State.complete_kept ?_
    | with_reducible refine State.runPart_kept ?_ ?_
    | with_reducible refine State.modPm_kept ?_
    | with_reducible refine State.refreshCap_kept ?_
    | (intro z (hz : State.kept z q); try beta_reduce)
    | intro z
    | lift_lets
    | with_reducible refine kept_choice ?_ (fun _ => ?_)

theorem execThmWarm_kept {c : CmdRef} {s : State} (hs : s.kept q) :
    Keeps q (execThmWarm c s) := by
  unfold execThmWarm
  repeat' first
    | with_reducible assumption
    | (with_reducible show State.kept z q; dsimp only [z]; clear z)
    | (with_reducible show Keeps _ _; lift_lets)
    | with_reducible refine keeps_next ?_
    | with_reducible refine State.set_kept ?_
    | with_reducible refine State.complete_kept ?_
    | with_reducible refine State.runCmd_kept ?_ ?_
    | with_reducible refine State.stopWarming_kept ?_
    | (intro z (hz : State.kept z q); try beta_reduce)
    | (intro z; refine have hz : State.kept z q := ?_; ?_)
    | intro z
    | lift_lets
    | with_reducible refine kept_choice ?_ (fun _ => ?_)
    | simp only [kept_mk, held_fields]

theorem execPwrQuery_kept {c : CmdRef} {s : State} (hs : s.kept q) :
    Keeps q (execPwrQuery c s) := by
  unfold execPwrQuery
  repeat' first
    | with_reducible assumption
    | with_reducible refine keeps_next ?_
    | with_reducible refine State.complete_kept ?_
    | with_reducible refine State.runCmd_kept ?_ ?_
    | (intro z (hz : State.kept z q); try beta_reduce)
    | intro z
    | split

end Sys2Proof.Machine
end

