-- ==== Sys2Proof/Laws/KeptThermal.lean ====
section
/-!
SUPPORT. Every operation of Machine/Thermal.lean keeps the canonical form of the four stores, and the
command queue.
-/

set_option linter.unusedSimpArgs false

namespace Sys2Proof.Machine

variable {q : List Instr}

theorem State.thermalEvent_kept {s : State} {i status : Nat} (hs : s.kept q) :
    (State.thermalEvent s i status).kept q := by
  unfold State.thermalEvent
  repeat' first
    | with_reducible assumption
    | with_reducible refine State.report_kept ?_

theorem State.convert_kept {s : State} {i : Nat} {r : SensorRead} (hs : s.kept q) :
    (State.convert s i r).kept q := by
  unfold State.convert
  repeat' first
    | with_reducible assumption
    | (with_reducible show State.kept z q; dsimp only [z]; clear z)
    | with_reducible refine State.set_kept ?_
    | with_reducible refine State.raiseBit_kept ?_
    | with_reducible refine State.modPm_kept ?_
    | with_reducible refine State.thermalEvent_kept ?_
    | (intro z; refine have hz : State.kept z q := ?_; ?_)
    | intro z
    | lift_lets
    | with_reducible refine kept_choice ?_ (fun _ => ?_)
    | split

theorem State.showHot_kept {s : State} {n : ArrayNum} (hs : s.kept q) :
    (State.showHot s n).kept q := by
  unfold State.showHot
  repeat' first
    | with_reducible assumption
    | with_reducible refine State.set_kept ?_

theorem State.countTrip_kept {s : State} {i : Nat} (hs : s.kept q) :
    (State.countTrip s i).kept q := by
  unfold State.countTrip
  repeat' first
    | with_reducible assumption
    | with_reducible refine State.bump_kept ?_
    | with_reducible refine State.raiseBit_kept ?_
    | with_reducible refine State.thermalEvent_kept ?_

theorem State.tripArray_kept {s : State} {n : ArrayNum} (hs : s.kept q) :
    (State.tripArray s n).kept q := by
  unfold State.tripArray
  repeat' first
    | with_reducible assumption
    | (with_reducible show State.kept z q; dsimp only [z]; clear z)
    | (intro z (hz : State.kept z q); try beta_reduce)
    | with_reducible refine State.set_kept ?_
    | with_reducible refine State.clockStop_kept ?_
    | with_reducible refine State.modPm_kept ?_
    | (intro z; refine have hz : State.kept z q := ?_; ?_)
    | (intro z; refine have hz : State.kept z.1 q := ?_; ?_)
    | intro z
    | lift_lets
    | with_reducible refine kept_choice ?_ (fun _ => ?_)
    | simp only [kept_mk, held_fields]
    | with_reducible refine kept_foldl (fun _ _ _ => ?_) ?_
    | with_reducible refine kept_foldl_pair (fun _ _ _ => ?_) ?_
    | with_reducible refine kept_getD ?_ ?_
    | split
    | refine kept_of_pair (by with_reducible assumption) ?_
    | refine kept_of_some (by with_reducible assumption) ?_
    | (dsimp only [z]; try clear z)

theorem State.tripOwn_kept {s : State} {n : ArrayNum} {blind : Bool} {i : Nat} (hs : s.kept q) :
    (State.tripOwn s n blind i).kept q := by
  unfold State.tripOwn
  repeat' first
    | with_reducible assumption
    | (with_reducible show State.kept z q; dsimp only [z]; clear z)
    | (intro z (hz : State.kept z q); try beta_reduce)
    | with_reducible refine State.modPm_kept ?_
    | with_reducible refine State.startGate_kept ?_
    | with_reducible refine State.countTrip_kept ?_
    | with_reducible refine State.tripArray_kept ?_
    | (intro z; refine have hz : State.kept z q := ?_; ?_)
    | (intro z; refine have hz : State.kept z.1 q := ?_; ?_)
    | intro z
    | lift_lets
    | with_reducible refine kept_choice ?_ (fun _ => ?_)
    | simp only [kept_mk, held_fields]
    | with_reducible refine kept_foldl (fun _ _ _ => ?_) ?_
    | with_reducible refine kept_foldl_pair (fun _ _ _ => ?_) ?_
    | with_reducible refine kept_getD ?_ ?_
    | split
    | refine kept_of_pair (by with_reducible assumption) ?_
    | refine kept_of_some (by with_reducible assumption) ?_
    | (dsimp only [z]; try clear z)

theorem State.checkTrip_kept {s : State} {n : ArrayNum} (hs : s.kept q) :
    (State.checkTrip s n).kept q := by
  unfold State.checkTrip
  repeat' first
    | with_reducible assumption
    | with_reducible refine State.modPm_kept ?_
    | with_reducible refine State.tripOwn_kept ?_
    | intro z
    | lift_lets
    | with_reducible refine kept_choice ?_ (fun _ => ?_)

theorem State.freeze_kept {s : State} {n : ArrayNum} (hs : s.kept q) :
    (State.freeze s n).kept q := by
  unfold State.freeze
  repeat' first
    | with_reducible assumption
    | (with_reducible show State.kept z q; dsimp only [z]; clear z)
    | (intro z (hz : State.kept z q); try beta_reduce)
    | with_reducible refine State.modArr_kept ?_
    | with_reducible refine State.gated_kept ?_ ?_
    | (intro z; refine have hz : State.kept z q := ?_; ?_)
    | (intro z; refine have hz : State.kept z.1 q := ?_; ?_)
    | intro z
    | lift_lets
    | with_reducible refine kept_choice ?_ (fun _ => ?_)
    | simp only [kept_mk, held_fields]
    | with_reducible refine kept_foldl (fun _ _ _ => ?_) ?_
    | with_reducible refine kept_foldl_pair (fun _ _ _ => ?_) ?_
    | with_reducible refine kept_getD ?_ ?_
    | split
    | refine kept_of_pair (by with_reducible assumption) ?_
    | refine kept_of_some (by with_reducible assumption) ?_
    | (dsimp only [z]; try clear z)

theorem State.stopGroups_kept {s : State} (hs : s.kept q) :
    (State.stopGroups s).kept q := by
  unfold State.stopGroups
  repeat' first
    | with_reducible assumption
    | (with_reducible show State.kept z q; dsimp only [z]; clear z)
    | (intro z (hz : State.kept z q); try beta_reduce)
    | with_reducible refine State.modPm_kept ?_
    | with_reducible refine State.tripArray_kept ?_
    | with_reducible refine State.freeze_kept ?_
    | (intro z; refine have hz : State.kept z q := ?_; ?_)
    | (intro z; refine have hz : State.kept z.1 q := ?_; ?_)
    | intro z
    | lift_lets
    | with_reducible refine kept_choice ?_ (fun _ => ?_)
    | simp only [kept_mk, held_fields]
    | with_reducible refine kept_foldl (fun _ _ _ => ?_) ?_
    | with_reducible refine kept_foldl_pair (fun _ _ _ => ?_) ?_
    | with_reducible refine kept_getD ?_ ?_
    | split
    | refine kept_of_pair (by with_reducible assumption) ?_
    | refine kept_of_some (by with_reducible assumption) ?_
    | (dsimp only [z]; try clear z)

theorem State.checkDie_kept {s : State} {k : Fin 12} (hs : s.kept q) :
    (State.checkDie s k).kept q := by
  unfold State.checkDie
  repeat' first
    | with_reducible assumption
    | (with_reducible show State.kept z q; dsimp only [z]; clear z)
    | with_reducible refine State.modPm_kept ?_
    | with_reducible refine State.countTrip_kept ?_
    | with_reducible refine State.stopGroups_kept ?_
    | (intro z; refine have hz : State.kept z q := ?_; ?_)
    | intro z
    | lift_lets
    | with_reducible refine kept_choice ?_ (fun _ => ?_)

theorem State.trackDiff_kept {s : State} {n : ArrayNum} (hs : s.kept q) :
    (State.trackDiff s n).kept q := by
  unfold State.trackDiff
  repeat' first
    | with_reducible assumption
    | (with_reducible show State.kept z q; dsimp only [z]; clear z)
    | with_reducible refine State.set_kept ?_
    | with_reducible refine State.modPm_kept ?_
    | (intro z; refine have hz : State.kept z q := ?_; ?_)
    | intro z
    | lift_lets
    | with_reducible refine kept_choice ?_ (fun _ => ?_)

theorem execSensorDiverge_kept {n : ArrayNum} {s : State} (hs : s.kept q) :
    Keeps q (execSensorDiverge n s) := by
  unfold execSensorDiverge
  repeat' first
    | with_reducible assumption
    | with_reducible refine keeps_next ?_
    | with_reducible refine State.set_kept ?_
    | with_reducible refine State.raiseBit_kept ?_
    | with_reducible refine State.modPm_kept ?_
    | with_reducible refine State.thermalEvent_kept ?_
    | lift_lets
    | with_reducible refine kept_choice ?_ (fun _ => ?_)

theorem State.checkBoard_kept {s : State} {k : Fin 4} (hs : s.kept q) :
    (State.checkBoard s k).kept q := by
  unfold State.checkBoard
  repeat' first
    | with_reducible assumption
    | with_reducible refine State.modPm_kept ?_
    | intro z
    | lift_lets
    | with_reducible refine kept_choice ?_ (fun _ => ?_)

theorem execSensorConversion_kept {readings : List SensorRead} {s : State} (hs : s.kept q) :
    Keeps q (execSensorConversion readings s) := by
  unfold execSensorConversion
  repeat' first
    | with_reducible assumption
    | (with_reducible show Keeps _ _; lift_lets)
    | with_reducible refine keeps_next ?_
    | with_reducible exact keeps_fault
    | with_reducible refine keeps_choice ?_ ?_
    | (with_reducible show State.kept z q; dsimp only [z]; clear z)
    | (intro z (hz : State.kept z q); try beta_reduce)
    | with_reducible refine State.changeCaps_kept ?_ ?_
    | with_reducible refine State.stopWarming_kept ?_
    | with_reducible refine State.convert_kept ?_
    | with_reducible refine State.showHot_kept ?_
    | with_reducible refine State.checkTrip_kept ?_
    | with_reducible refine State.checkDie_kept ?_
    | with_reducible refine State.trackDiff_kept ?_
    | with_reducible refine State.checkBoard_kept ?_
    | (intro z; refine have hz : State.kept z q := ?_; ?_)
    | (intro z; refine have hz : State.kept z.1 q := ?_; ?_)
    | intro z
    | lift_lets
    | with_reducible refine kept_choice ?_ (fun _ => ?_)
    | simp only [kept_mk, held_fields]
    | with_reducible refine kept_foldl (fun _ _ _ => ?_) ?_
    | with_reducible refine kept_foldl_pair (fun _ _ _ => ?_) ?_
    | with_reducible refine kept_getD ?_ ?_
    | split
    | refine kept_of_pair (by with_reducible assumption) ?_
    | refine kept_of_some (by with_reducible assumption) ?_
    | (dsimp only [z]; try clear z)

theorem execTripRelease_kept {n : ArrayNum} {s : State} (hs : s.kept q) :
    Keeps q (execTripRelease n s) := by
  unfold execTripRelease
  repeat' first
    | with_reducible assumption
    | (with_reducible show Keeps _ _; lift_lets)
    | with_reducible refine keeps_next ?_
    | with_reducible refine State.set_kept ?_
    | with_reducible refine State.modPm_kept ?_
    | lift_lets
    | with_reducible refine kept_choice ?_ (fun _ => ?_)

theorem execThrottlePeriod_kept {n : ArrayNum} {s : State} (hs : s.kept q) :
    Keeps q (execThrottlePeriod n s) := by
  unfold execThrottlePeriod
  repeat' first
    | with_reducible assumption
    | (with_reducible show Keeps _ _; lift_lets)
    | with_reducible refine keeps_next ?_
    | with_reducible refine State.set_kept ?_
    | with_reducible refine State.modPm_kept ?_
    | lift_lets
    | with_reducible refine kept_choice ?_ (fun _ => ?_)

theorem execDutyOffEnd_kept {n : ArrayNum} {s : State} (hs : s.kept q) :
    Keeps q (execDutyOffEnd n s) := by
  unfold execDutyOffEnd
  repeat' first
    | with_reducible assumption
    | (with_reducible show Keeps _ _; lift_lets)
    | with_reducible refine keeps_next ?_
    | with_reducible refine State.modPm_kept ?_
    | lift_lets
    | with_reducible refine kept_choice ?_ (fun _ => ?_)

theorem State.setFlow_kept {s : State} {f : FlowState} (hs : s.kept q) :
    (State.setFlow s f).kept q := by
  unfold State.setFlow
  repeat' first
    | with_reducible assumption
    | with_reducible refine State.set_kept ?_
    | with_reducible refine State.modPm_kept ?_

theorem State.flowLost_kept {s : State} (hs : s.kept q) :
    (State.flowLost s).kept q := by
  unfold State.flowLost
  repeat' first
    | with_reducible assumption
    | with_reducible refine State.raiseBit_kept ?_
    | with_reducible refine State.modPm_kept ?_
    | with_reducible refine State.powerEvent_kept ?_
    | with_reducible refine State.setFlow_kept ?_

theorem State.flowOk_kept {s : State} {ok : Bool} (hs : s.kept q) :
    (State.flowOk s ok).kept q := by
  unfold State.flowOk
  repeat' first
    | with_reducible assumption
    | with_reducible refine State.modPm_kept ?_

theorem State.flowStep_kept {s : State} {x : Nat} (hs : s.kept q) :
    (State.flowStep s x).kept q := by
  unfold State.flowStep
  repeat' first
    | with_reducible assumption
    | (with_reducible show State.kept z q; dsimp only [z]; clear z)
    | with_reducible refine State.powerEvent_kept ?_
    | with_reducible refine State.setFlow_kept ?_
    | with_reducible refine State.flowOk_kept ?_
    | (intro z; refine have hz : State.kept z q := ?_; ?_)
    | lift_lets
    | with_reducible refine kept_choice ?_ (fun _ => ?_)
    | split

theorem execFlowReading_kept {microamps : Nat} {s : State} (hs : s.kept q) :
    Keeps q (execFlowReading microamps s) := by
  unfold execFlowReading
  repeat' first
    | with_reducible assumption
    | (with_reducible show State.kept z q; dsimp only [z]; clear z)
    | (with_reducible show Keeps _ _; lift_lets)
    | with_reducible refine keeps_next ?_
    | with_reducible refine State.set_kept ?_
    | with_reducible refine State.modPm_kept ?_
    | with_reducible refine State.powerEvent_kept ?_
    | with_reducible refine State.changeCaps_kept ?_ ?_
    | with_reducible refine State.flowLost_kept ?_
    | with_reducible refine State.flowStep_kept ?_
    | (intro z (hz : State.kept z q); try beta_reduce)
    | (intro z; refine have hz : State.kept z q := ?_; ?_)
    | lift_lets
    | with_reducible refine kept_choice ?_ (fun _ => ?_)

theorem execFlowRecovery_kept {s : State} (hs : s.kept q) :
    Keeps q (execFlowRecovery s) := by
  unfold execFlowRecovery
  repeat' first
    | with_reducible assumption
    | with_reducible refine keeps_next ?_
    | with_reducible refine State.modPm_kept ?_
    | with_reducible refine State.changeCaps_kept ?_ ?_
    | with_reducible refine State.setFlow_kept ?_
    | (intro z (hz : State.kept z q); try beta_reduce)
    | lift_lets
    | with_reducible refine kept_choice ?_ (fun _ => ?_)
    | split

theorem execLossComparatorTrip_kept {s : State} (hs : s.kept q) :
    Keeps q (execLossComparatorTrip s) := by
  unfold execLossComparatorTrip
  repeat' first
    | with_reducible assumption
    | with_reducible refine keeps_next ?_
    | with_reducible refine State.changeCaps_kept ?_ ?_
    | with_reducible refine State.flowLost_kept ?_
    | (intro z (hz : State.kept z q); try beta_reduce)
    | lift_lets
    | with_reducible refine kept_choice ?_ (fun _ => ?_)

theorem execInletReading_kept {ohms : Nat} {s : State} (hs : s.kept q) :
    Keeps q (execInletReading ohms s) := by
  unfold execInletReading
  repeat' first
    | with_reducible assumption
    | (with_reducible show Keeps _ _; lift_lets)
    | with_reducible refine keeps_next ?_
    | with_reducible refine State.set_kept ?_
    | with_reducible refine State.modPm_kept ?_
    | lift_lets
    | with_reducible refine kept_choice ?_ (fun _ => ?_)

theorem execPmWatchdog_kept {s : State} (hs : s.kept q) :
    Keeps q (execPmWatchdog s) := by
  unfold execPmWatchdog
  repeat' first
    | with_reducible assumption
    | (with_reducible show Keeps _ _; lift_lets)
    | with_reducible refine keeps_next ?_
    | with_reducible refine State.set_kept ?_
    | with_reducible refine State.raiseBit_kept ?_
    | with_reducible refine State.escalate_kept ?_
    | with_reducible refine State.modPm_kept ?_
    | with_reducible refine State.changeCaps_kept ?_ ?_
    | (intro z (hz : State.kept z q); try beta_reduce)
    | lift_lets
    | with_reducible refine kept_choice ?_ (fun _ => ?_)

theorem execWarmingLoadStart_kept {n : ArrayNum} {s : State} (hs : s.kept q) :
    Keeps q (execWarmingLoadStart n s) := by
  unfold execWarmingLoadStart
  repeat' first
    | with_reducible assumption
    | with_reducible refine keeps_next ?_
    | with_reducible refine State.modArr_kept ?_
    | lift_lets
    | with_reducible refine kept_choice ?_ (fun _ => ?_)

theorem State.applyPlan_kept {s : State} {n : ArrayNum} (hs : s.kept q) :
    (State.applyPlan s n).kept q := by
  unfold State.applyPlan
  repeat' first
    | with_reducible assumption
    | with_reducible refine State.set_kept ?_
    | with_reducible refine State.raiseBit_kept ?_
    | with_reducible refine State.arrayHealth_kept ?_
    | with_reducible refine State.modPm_kept ?_
    | intro z
    | lift_lets
    | with_reducible refine kept_choice ?_ (fun _ => ?_)
    | simp only [kept_mk, held_fields]
    | split

theorem State.endReplan_kept {s : State} (hs : s.kept q) :
    (State.endReplan s).kept q := by
  unfold State.endReplan
  repeat' first
    | with_reducible assumption
    | (with_reducible show State.kept z q; dsimp only [z]; clear z)
    | with_reducible refine State.modPm_kept ?_
    | (intro z; refine have hz : State.kept z q := ?_; ?_)
    | intro z
    | lift_lets
    | with_reducible refine kept_choice ?_ (fun _ => ?_)
    | simp only [kept_mk, held_fields]

theorem execAgeingReplan_kept {n : ArrayNum} {speeds : List (Nat × Nat)} {s : State} (hs : s.kept q) :
    Keeps q (execAgeingReplan n speeds s) := by
  unfold execAgeingReplan
  repeat' first
    | with_reducible assumption
    | (with_reducible show Keeps _ _; lift_lets)
    | with_reducible refine keeps_next ?_
    | with_reducible refine State.condemn_kept ?_
    | with_reducible refine State.modPm_kept ?_
    | with_reducible refine State.applyPlan_kept ?_
    | with_reducible refine State.endReplan_kept ?_
    | lift_lets
    | with_reducible refine kept_choice ?_ (fun _ => ?_)
    | simp only [kept_mk, held_fields]
    | split

theorem execReplanForcedApply_kept {n : ArrayNum} {s : State} (hs : s.kept q) :
    Keeps q (execReplanForcedApply n s) := by
  unfold execReplanForcedApply
  repeat' first
    | with_reducible assumption
    | (with_reducible show Keeps _ _; lift_lets)
    | with_reducible refine keeps_next ?_
    | with_reducible exact keeps_fault
    | with_reducible refine keeps_choice ?_ ?_
    | (with_reducible show State.kept z q; dsimp only [z]; clear z)
    | (intro z (hz : State.kept z q); try beta_reduce)
    | with_reducible refine State.holdClock_kept ?_
    | with_reducible refine State.applyPlan_kept ?_
    | (intro z; refine have hz : State.kept z q := ?_; ?_)
    | (intro z; refine have hz : State.kept z.1 q := ?_; ?_)
    | intro z
    | lift_lets
    | with_reducible refine kept_choice ?_ (fun _ => ?_)
    | simp only [kept_mk, held_fields]
    | with_reducible refine kept_foldl (fun _ _ _ => ?_) ?_
    | with_reducible refine kept_foldl_pair (fun _ _ _ => ?_) ?_
    | with_reducible refine kept_getD ?_ ?_
    | split
    | refine kept_of_pair (by with_reducible assumption) ?_
    | refine kept_of_some (by with_reducible assumption) ?_
    | (dsimp only [z]; try clear z)

theorem State.applyPlans_kept {s : State} (hs : s.kept q) :
    (State.applyPlans s).kept q := by
  unfold State.applyPlans
  repeat' first
    | with_reducible assumption
    | with_reducible refine State.applyPlan_kept ?_
    | lift_lets
    | with_reducible refine kept_choice ?_ (fun _ => ?_)
    | with_reducible refine kept_foldl (fun _ _ _ => ?_) ?_

end Sys2Proof.Machine
end

