-- ==== Sys2Proof/Laws/KeptManagement.lean ====
section
/-!
SUPPORT. Every operation of Machine/Management.lean keeps the canonical form of the four stores, and the
command queue.
-/

set_option linter.unusedSimpArgs false

namespace Sys2Proof.Machine

variable {q : List Instr}

theorem State.takeBank_kept {s : State} {c : Nat} (hs : s.kept q) :
    (State.takeBank s c).kept q := by
  unfold State.takeBank
  repeat' first
    | with_reducible assumption
    | (with_reducible show State.kept z q; dsimp only [z]; clear z)
    | with_reducible refine State.set_kept ?_
    | (intro z; refine have hz : State.kept z q := ?_; ?_)
    | intro z
    | lift_lets
    | with_reducible refine kept_choice ?_ (fun _ => ?_)
    | simp only [kept_mk, held_fields]

theorem State.setNet_kept {s : State} {net : MgmtNet} (hs : s.kept q) :
    (State.setNet s net).kept q := by
  unfold State.setNet
  repeat' first
    | with_reducible assumption
    | (with_reducible show State.kept z q; dsimp only [z]; clear z)
    | (intro z (hz : State.kept z q); try beta_reduce)
    | (intro z; refine have hz : State.kept z q := ?_; ?_)
    | (intro z; refine have hz : State.kept z.1 q := ?_; ?_)
    | intro z
    | lift_lets
    | with_reducible refine kept_choice ?_ (fun _ => ?_)
    | simp only [kept_mk, held_fields]
    | with_reducible refine kept_foldl (fun _ _ _ => ?_) ?_
    | with_reducible refine kept_foldl_pair (fun _ _ _ => ?_) ?_
    | with_reducible refine kept_getD ?_ ?_
    | split
    | refine kept_of_pair (by with_reducible assumption) ?_
    | refine kept_of_some (by with_reducible assumption) ?_
    | (dsimp only [z]; try clear z)

theorem execManagementLinkUp_kept {link : MgmtLink} {s : State} (hs : s.kept q) :
    Keeps q (execManagementLinkUp link s) := by
  unfold execManagementLinkUp
  repeat' first
    | with_reducible assumption
    | (with_reducible show Keeps _ _; lift_lets)
    | with_reducible refine keeps_next ?_
    | with_reducible exact keeps_fault
    | with_reducible refine keeps_choice ?_ ?_
    | (with_reducible show State.kept z q; dsimp only [z]; clear z)
    | (intro z (hz : State.kept z q); try beta_reduce)
    | with_reducible refine State.set_kept ?_
    | with_reducible refine State.takeBank_kept ?_
    | with_reducible refine State.setNet_kept ?_
    | (intro z; refine have hz : State.kept z q := ?_; ?_)
    | (intro z; refine have hz : State.kept z.1 q := ?_; ?_)
    | intro z
    | lift_lets
    | with_reducible refine kept_choice ?_ (fun _ => ?_)
    | simp only [kept_mk, held_fields]
    | with_reducible refine kept_foldl (fun _ _ _ => ?_) ?_
    | with_reducible refine kept_foldl_pair (fun _ _ _ => ?_) ?_
    | with_reducible refine kept_getD ?_ ?_
    | split
    | refine kept_of_pair (by with_reducible assumption) ?_
    | refine kept_of_some (by with_reducible assumption) ?_
    | (dsimp only [z]; try clear z)

theorem State.dropMgmt_kept {s : State} (hs : s.kept q) :
    (State.dropMgmt s).kept q := by
  unfold State.dropMgmt
  repeat' first
    | with_reducible assumption
    | (with_reducible show State.kept z q; dsimp only [z]; clear z)
    | (intro z (hz : State.kept z q); try beta_reduce)
    | with_reducible refine State.set_kept ?_
    | with_reducible refine State.setNet_kept ?_
    | (intro z; refine have hz : State.kept z q := ?_; ?_)
    | (intro z; refine have hz : State.kept z.1 q := ?_; ?_)
    | intro z
    | lift_lets
    | with_reducible refine kept_choice ?_ (fun _ => ?_)
    | simp only [kept_mk, held_fields]
    | with_reducible refine kept_foldl (fun _ _ _ => ?_) ?_
    | with_reducible refine kept_foldl_pair (fun _ _ _ => ?_) ?_
    | with_reducible refine kept_getD ?_ ?_
    | split
    | refine kept_of_pair (by with_reducible assumption) ?_
    | refine kept_of_some (by with_reducible assumption) ?_
    | (dsimp only [z]; try clear z)

theorem execManagementLinkDown_kept {s : State} (hs : s.kept q) :
    Keeps q (execManagementLinkDown s) := by
  unfold execManagementLinkDown
  repeat' first
    | with_reducible assumption
    | (with_reducible show Keeps _ _; lift_lets)
    | with_reducible refine keeps_next ?_
    | with_reducible exact keeps_fault
    | with_reducible refine keeps_choice ?_ ?_
    | (with_reducible show State.kept z q; dsimp only [z]; clear z)
    | (intro z (hz : State.kept z q); try beta_reduce)
    | with_reducible refine State.dropMgmt_kept ?_
    | (intro z; refine have hz : State.kept z q := ?_; ?_)
    | (intro z; refine have hz : State.kept z.1 q := ?_; ?_)
    | intro z
    | lift_lets
    | with_reducible refine kept_choice ?_ (fun _ => ?_)
    | simp only [kept_mk, held_fields]
    | with_reducible refine kept_foldl (fun _ _ _ => ?_) ?_
    | with_reducible refine kept_foldl_pair (fun _ _ _ => ?_) ?_
    | with_reducible refine kept_getD ?_ ?_
    | split
    | refine kept_of_pair (by with_reducible assumption) ?_
    | refine kept_of_some (by with_reducible assumption) ?_
    | (dsimp only [z]; try clear z)

theorem State.setTls_kept {s : State} {x : Fin 2} {t : Option Tls} (hs : s.kept q) :
    (State.setTls s x t).kept q := by
  unfold State.setTls
  repeat' first
    | with_reducible assumption
    | with_reducible refine State.set_kept ?_
    | intro z
    | lift_lets
    | simp only [kept_mk, held_fields]

theorem execManagementSessionOpen_kept {chainAnchor : Option (Fin 4)} {hello : TlsHello} {s : State} (hs : s.kept q) :
    Keeps q (execManagementSessionOpen chainAnchor hello s) := by
  unfold execManagementSessionOpen
  repeat' first
    | with_reducible assumption
    | (with_reducible show Keeps _ _; lift_lets)
    | with_reducible refine keeps_next ?_
    | with_reducible exact keeps_fault
    | with_reducible refine keeps_choice ?_ ?_
    | (with_reducible show State.kept z q; dsimp only [z]; clear z)
    | (intro z (hz : State.kept z q); try beta_reduce)
    | with_reducible refine State.send_kept ?_
    | with_reducible refine State.update_kept ?_
    | with_reducible refine State.setTls_kept ?_
    | (intro z; refine have hz : State.kept z q := ?_; ?_)
    | (intro z; refine have hz : State.kept z.1 q := ?_; ?_)
    | intro z
    | lift_lets
    | with_reducible refine kept_choice ?_ (fun _ => ?_)
    | simp only [kept_mk, held_fields]
    | with_reducible refine kept_foldl (fun _ _ _ => ?_) ?_
    | with_reducible refine kept_foldl_pair (fun _ _ _ => ?_) ?_
    | with_reducible refine kept_getD ?_ ?_
    | split
    | refine kept_of_pair (by with_reducible assumption) ?_
    | refine kept_of_some (by with_reducible assumption) ?_
    | (dsimp only [z]; try clear z)

theorem State.closeTls_kept {s : State} {x : Fin 2} (hs : s.kept q) :
    (State.closeTls s x).kept q := by
  unfold State.closeTls
  repeat' first
    | with_reducible assumption
    | (with_reducible show State.kept z q; dsimp only [z]; clear z)
    | with_reducible refine State.setTls_kept ?_
    | (intro z; refine have hz : State.kept z q := ?_; ?_)
    | intro z
    | lift_lets
    | with_reducible refine kept_choice ?_ (fun _ => ?_)
    | simp only [kept_mk, held_fields]

theorem State.closeAllTls_kept {s : State} (hs : s.kept q) :
    (State.closeAllTls s).kept q := by
  unfold State.closeAllTls
  repeat' first
    | with_reducible assumption
    | with_reducible refine State.closeTls_kept ?_

theorem execManagementSessionClose_kept {session : Fin 2} {s : State} (hs : s.kept q) :
    Keeps q (execManagementSessionClose session s) := by
  unfold execManagementSessionClose
  repeat' first
    | with_reducible assumption
    | with_reducible refine keeps_next ?_
    | with_reducible refine State.closeTls_kept ?_

theorem execTlsSessionExpiry_kept {session : Fin 2} {s : State} (hs : s.kept q) :
    Keeps q (execTlsSessionExpiry session s) := by
  unfold execTlsSessionExpiry
  repeat' first
    | with_reducible assumption
    | with_reducible refine keeps_next ?_
    | with_reducible refine State.closeTls_kept ?_
    | lift_lets
    | with_reducible refine kept_choice ?_ (fun _ => ?_)
    | split

theorem execTlsKeyUpdate_kept {session : Fin 2} {s : State} (hs : s.kept q) :
    Keeps q (execTlsKeyUpdate session s) := by
  unfold execTlsKeyUpdate
  repeat' first
    | with_reducible assumption
    | with_reducible refine keeps_next ?_
    | with_reducible refine State.setTls_kept ?_
    | lift_lets
    | split

theorem State.badFrame_kept {s : State} {x : Fin 2} (hs : s.kept q) :
    (State.badFrame s x).kept q := by
  unfold State.badFrame
  repeat' first
    | with_reducible assumption
    | with_reducible refine State.bump_kept ?_
    | with_reducible refine State.closeTls_kept ?_

theorem State.anchorAnswer_kept {s : State} {x : Fin 2} {body : List Byte} {status : Nat} (hs : s.kept q) :
    (State.anchorAnswer s x body status).kept q := by
  unfold State.anchorAnswer
  repeat' first
    | with_reducible assumption
    | with_reducible refine State.send_kept ?_

theorem State.setAnchor_kept {s : State} {k : Fin 4} {a : Option (List Byte)} (hs : s.kept q) :
    (State.setAnchor s k a).kept q := by
  unfold State.setAnchor
  repeat' first
    | with_reducible assumption
    | intro z
    | lift_lets
    | simp only [kept_mk, held_fields]

theorem State.anchorOp_kept {s : State} {x : Fin 2} {op : Nat} {k : Fin 4} {body cert : List Byte} (hs : s.kept q) :
    (State.anchorOp s x op k body cert).kept q := by
  unfold State.anchorOp
  repeat' first
    | with_reducible assumption
    | with_reducible refine State.anchorAnswer_kept ?_
    | with_reducible refine State.setAnchor_kept ?_
    | intro z
    | lift_lets
    | with_reducible refine kept_choice ?_ (fun _ => ?_)

theorem State.anchorFrame_kept {s : State} {x : Fin 2} {body : List Byte} (hs : s.kept q) :
    (State.anchorFrame s x body).kept q := by
  unfold State.anchorFrame
  repeat' first
    | with_reducible assumption
    | with_reducible refine State.badFrame_kept ?_
    | with_reducible refine State.anchorAnswer_kept ?_
    | with_reducible refine State.anchorOp_kept ?_
    | intro z
    | lift_lets
    | with_reducible refine kept_choice ?_ (fun _ => ?_)
    | split

theorem execAnchorFrame_kept {session : Fin 2} {body : List Byte} {s : State} (hs : s.kept q) :
    Keeps q (execAnchorFrame session body s) := by
  unfold execAnchorFrame
  repeat' first
    | with_reducible assumption
    | with_reducible refine keeps_next ?_
    | with_reducible refine State.anchorFrame_kept ?_

theorem State.crashFrame_kept {s : State} {x : Fin 2} {body : List Byte} (hs : s.kept q) :
    (State.crashFrame s x body).kept q := by
  unfold State.crashFrame
  repeat' first
    | with_reducible assumption
    | with_reducible refine State.send_kept ?_
    | with_reducible refine State.badFrame_kept ?_
    | lift_lets
    | with_reducible refine kept_choice ?_ (fun _ => ?_)
    | split

theorem execCrashRead_kept {session : Fin 2} {body : List Byte} {s : State} (hs : s.kept q) :
    Keeps q (execCrashRead session body s) := by
  unfold execCrashRead
  repeat' first
    | with_reducible assumption
    | with_reducible refine keeps_next ?_
    | with_reducible refine State.crashFrame_kept ?_

theorem execCommandFrame_kept {session : Fin 2} {frameType : Nat} {reserved : BitVec 16} {body : List Byte} {s : State} (hs : s.kept q) :
    Keeps q (execCommandFrame session frameType reserved body s) := by
  unfold execCommandFrame
  repeat' first
    | with_reducible assumption
    | (with_reducible show Keeps _ _; lift_lets)
    | with_reducible refine keeps_next ?_
    | with_reducible refine State.badFrame_kept ?_
    | with_reducible refine State.anchorFrame_kept ?_
    | with_reducible refine State.crashFrame_kept ?_
    | lift_lets
    | with_reducible refine kept_choice ?_ (fun _ => ?_)
    | simp only [kept_mk, held_fields]

end Sys2Proof.Machine
end

