-- ==== Sys2Proof/Laws/KeptBoard.lean ====
section
/-!
SUPPORT. Every operation of Machine/Board.lean keeps the canonical form of the four stores, and the
command queue.
-/

set_option linter.unusedSimpArgs false

namespace Sys2Proof.Machine

variable {q : List Instr}

theorem State.powerOff_kept {s : State} {supply : Supply} (hs : s.kept q) : (State.powerOff s supply).kept q := by
  unfold State.powerOff
  dsimp only
  exact kept_foldl (fun _ _ h => State.set_kept h) ⟨⟨rfl, hs.1.2.1, rfl, rfl⟩, hs.2⟩

theorem State.setInput_kept {s : State} {good mated : Bool} (hs : s.kept q) :
    (State.setInput s good mated).kept q := by
  unfold State.setInput
  repeat' first
    | with_reducible assumption
    | with_reducible refine State.set_kept ?_
    | intro z
    | lift_lets
    | simp only [kept_mk, held_fields]

theorem State.setVolts_kept {s : State} {decivolts : Int} (hs : s.kept q) :
    (State.setVolts s decivolts).kept q := by
  unfold State.setVolts
  repeat' first
    | with_reducible assumption
    | with_reducible refine State.set_kept ?_

theorem State.dropLink_kept {s : State} {port : Port} (hs : s.kept q) :
    (State.dropLink s port).kept q := by
  unfold State.dropLink
  repeat' first
    | with_reducible assumption
    | (with_reducible show State.kept z q; dsimp only [z]; clear z)
    | with_reducible refine State.set_kept ?_
    | with_reducible refine State.raiseBit_kept ?_
    | (intro z; refine have hz : State.kept z q := ?_; ?_)
    | intro z
    | lift_lets
    | with_reducible refine kept_choice ?_ (fun _ => ?_)
    | simp only [kept_mk, held_fields]

theorem State.fence_kept {s : State} (hs : s.kept q) :
    (State.fence s).kept q := by
  unfold State.fence
  repeat' first
    | with_reducible assumption
    | (with_reducible show State.kept z q; dsimp only [z]; clear z)
    | (intro z (hz : State.kept z q); try beta_reduce)
    | with_reducible refine State.set_kept ?_
    | with_reducible refine State.zeroise_kept ?_
    | with_reducible refine State.modPm_kept ?_
    | with_reducible refine State.stopGroups_kept ?_
    | with_reducible refine State.dropMgmt_kept ?_
    | with_reducible refine State.closeAllTls_kept ?_
    | with_reducible refine State.dropLink_kept ?_
    | (intro z; refine have hz : State.kept z q := ?_; ?_)
    | (intro z; refine have hz : State.kept z.1 q := ?_; ?_)
    | intro z
    | lift_lets
    | with_reducible refine kept_choice ?_ (fun _ => ?_)
    | simp only [kept_mk, held_fields]
    | with_reducible refine kept_foldl (fun _ _ _ => ?_) ?_
    | with_reducible refine kept_foldl_pair (fun _ _ _ => ?_) ?_
    | with_reducible refine kept_getD ?_ ?_
    | split
    | refine kept_of_pair (by with_reducible assumption) ?_
    | refine kept_of_some (by with_reducible assumption) ?_
    | (dsimp only [z]; try clear z)

theorem State.removal_kept {s : State} {cause : Nat} (hs : s.kept q) :
    (State.removal s cause).kept q := by
  unfold State.removal
  repeat' first
    | with_reducible assumption
    | (with_reducible show State.kept z q; dsimp only [z]; clear z)
    | (intro z (hz : State.kept z q); try beta_reduce)
    | with_reducible refine State.writeCrash_kept ?_
    | with_reducible refine State.fence_kept ?_
    | (intro z; refine have hz : State.kept z q := ?_; ?_)
    | (intro z; refine have hz : State.kept z.1 q := ?_; ?_)
    | intro z
    | lift_lets
    | with_reducible refine kept_choice ?_ (fun _ => ?_)
    | simp only [kept_mk, held_fields]
    | with_reducible refine kept_foldl (fun _ _ _ => ?_) ?_
    | with_reducible refine kept_foldl_pair (fun _ _ _ => ?_) ?_
    | with_reducible refine kept_getD ?_ ?_
    | split
    | refine kept_of_pair (by with_reducible assumption) ?_
    | refine kept_of_some (by with_reducible assumption) ?_
    | (dsimp only [z]; try clear z)

theorem execVoltageGood_kept {decivolts : Int} {s : State} (hs : s.kept q) :
    Keeps q (execVoltageGood decivolts s) := by
  unfold execVoltageGood
  repeat' first
    | with_reducible assumption
    | (with_reducible show Keeps _ _; lift_lets)
    | with_reducible refine keeps_next ?_
    | with_reducible exact keeps_fault
    | with_reducible refine keeps_choice ?_ ?_
    | (with_reducible show State.kept z q; dsimp only [z]; clear z)
    | (intro z (hz : State.kept z q); try beta_reduce)
    | with_reducible refine State.setInput_kept ?_
    | with_reducible refine State.setVolts_kept ?_
    | (intro z; refine have hz : State.kept z q := ?_; ?_)
    | (intro z; refine have hz : State.kept z.1 q := ?_; ?_)
    | intro z
    | lift_lets
    | with_reducible refine kept_choice ?_ (fun _ => ?_)
    | simp only [kept_mk, held_fields]
    | with_reducible refine kept_foldl (fun _ _ _ => ?_) ?_
    | with_reducible refine kept_foldl_pair (fun _ _ _ => ?_) ?_
    | with_reducible refine kept_getD ?_ ?_
    | split
    | refine kept_of_pair (by with_reducible assumption) ?_
    | refine kept_of_some (by with_reducible assumption) ?_
    | (dsimp only [z]; try clear z)

theorem execMateDetectMade_kept {s : State} (hs : s.kept q) :
    Keeps q (execMateDetectMade s) := by
  unfold execMateDetectMade
  repeat' first
    | with_reducible assumption
    | with_reducible refine keeps_next ?_
    | with_reducible refine State.setInput_kept ?_

theorem execMateDetectBreak_kept {s : State} (hs : s.kept q) :
    Keeps q (execMateDetectBreak s) := by
  unfold execMateDetectBreak
  repeat' first
    | with_reducible assumption
    | with_reducible refine keeps_next ?_
    | with_reducible refine State.setInput_kept ?_
    | with_reducible refine State.removal_kept ?_

theorem execInputFail_kept {decivolts : Int} {s : State} (hs : s.kept q) :
    Keeps q (execInputFail decivolts s) := by
  unfold execInputFail
  repeat' first
    | with_reducible assumption
    | (with_reducible show Keeps _ _; lift_lets)
    | with_reducible refine keeps_next ?_
    | with_reducible exact keeps_fault
    | with_reducible refine keeps_choice ?_ ?_
    | (with_reducible show State.kept z q; dsimp only [z]; clear z)
    | (intro z (hz : State.kept z q); try beta_reduce)
    | with_reducible refine State.setInput_kept ?_
    | with_reducible refine State.setVolts_kept ?_
    | with_reducible refine State.removal_kept ?_
    | (intro z; refine have hz : State.kept z q := ?_; ?_)
    | (intro z; refine have hz : State.kept z.1 q := ?_; ?_)
    | intro z
    | lift_lets
    | with_reducible refine kept_choice ?_ (fun _ => ?_)
    | simp only [kept_mk, held_fields]
    | with_reducible refine kept_foldl (fun _ _ _ => ?_) ?_
    | with_reducible refine kept_foldl_pair (fun _ _ _ => ?_) ?_
    | with_reducible refine kept_getD ?_ ?_
    | split
    | refine kept_of_pair (by with_reducible assumption) ?_
    | refine kept_of_some (by with_reducible assumption) ?_
    | (dsimp only [z]; try clear z)

theorem execReversedInput_kept {decivolts : Int} {s : State} (hs : s.kept q) :
    Keeps q (execReversedInput decivolts s) := by
  unfold execReversedInput
  repeat' first
    | with_reducible assumption
    | with_reducible refine keeps_next ?_
    | with_reducible exact keeps_fault
    | with_reducible refine keeps_choice ?_ ?_
    | with_reducible refine State.setInput_kept ?_
    | with_reducible refine State.setVolts_kept ?_
    | with_reducible refine State.removal_kept ?_
    | lift_lets
    | with_reducible refine kept_choice ?_ (fun _ => ?_)

theorem execHoldUpExhausted_kept {s : State} (hs : s.kept q) :
    Keeps q (execHoldUpExhausted s) := by
  unfold execHoldUpExhausted
  repeat' first
    | with_reducible assumption
    | with_reducible refine keeps_next ?_
    | with_reducible refine State.powerOff_kept ?_
    | with_reducible refine State.setInput_kept ?_
    | lift_lets
    | with_reducible refine kept_choice ?_ (fun _ => ?_)

theorem execRestartHoldoffEnd_kept {s : State} (hs : s.kept q) :
    Keeps q (execRestartHoldoffEnd s) := by
  unfold execRestartHoldoffEnd
  repeat' first
    | with_reducible assumption
    | (with_reducible show Keeps _ _; lift_lets)
    | with_reducible refine keeps_next ?_
    | lift_lets
    | with_reducible refine kept_choice ?_ (fun _ => ?_)
    | simp only [kept_mk, held_fields]

theorem execModuleStop_kept {s : State} (hs : s.kept q) :
    Keeps q (execModuleStop s) := by
  unfold execModuleStop
  repeat' first
    | with_reducible assumption
    | with_reducible refine keeps_next ?_
    | with_reducible refine State.writeCrash_kept ?_
    | with_reducible refine State.powerOff_kept ?_
    | with_reducible refine State.fence_kept ?_
    | lift_lets
    | with_reducible refine kept_choice ?_ (fun _ => ?_)

end Sys2Proof.Machine
end

