-- ==== Sys2Proof/Laws/KeptGates.lean ====
section
/-!
SUPPORT. Every operation of Machine/Gates.lean keeps the canonical form of the four stores, and the
command queue.
-/

set_option linter.unusedSimpArgs false

namespace Sys2Proof.Machine

variable {q : List Instr}

theorem State.gateAccept_kept {s : State} {g : GateOp} (hs : s.kept q) :
    (State.gateAccept s g).kept q := by
  unfold State.gateAccept
  repeat' first
    | with_reducible assumption
    | (with_reducible show State.kept z q; dsimp only [z]; clear z)
    | (intro z (hz : State.kept z q); try beta_reduce)
    | with_reducible refine State.ledger_kept ?_
    | with_reducible refine State.complete_kept ?_
    | with_reducible refine State.kntSignal_kept ?_
    | with_reducible refine State.writeKnot_kept ?_
    | with_reducible refine State.setFrames_kept ?_
    | with_reducible refine State.seqUpdate_kept ?_
    | with_reducible refine State.shtStage_kept ?_
    | with_reducible refine State.shtArm_kept ?_
    | with_reducible refine State.recordWrite_kept ?_
    | with_reducible refine State.journalWrite_kept ?_
    | with_reducible refine State.writeSnapshot_kept ?_
    | with_reducible refine State.seqStop_kept ?_
    | with_reducible refine State.seqGate_kept ?_
    | with_reducible refine State.seqRelease_kept ?_
    | with_reducible refine State.setHostCap_kept ?_
    | with_reducible refine State.setPowerMode_kept ?_
    | (intro z; refine have hz : State.kept z q := ?_; ?_)
    | (intro z; refine have hz : State.kept z.1 q := ?_; ?_)
    | intro z
    | lift_lets
    | with_reducible refine kept_choice ?_ (fun _ => ?_)
    | simp only [kept_mk, held_fields]
    | with_reducible refine kept_foldl (fun _ _ _ => ?_) ?_
    | with_reducible refine kept_foldl_pair (fun _ _ _ => ?_) ?_
    | with_reducible refine kept_getD ?_ ?_
    | split
    | refine kept_of_pair (by with_reducible assumption) ?_
    | refine kept_of_some (by with_reducible assumption) ?_
    | (dsimp only [z]; try clear z)

theorem execGatedWrite_kept {half : Half} {claim : Word} {g : GateOp} {s : State} (hs : s.kept q) :
    Keeps q (execGatedWrite half claim g s) := by
  unfold execGatedWrite
  repeat' first
    | with_reducible assumption
    | with_reducible refine keeps_next ?_
    | with_reducible refine State.gated_kept ?_ ?_
    | with_reducible refine State.gateAccept_kept ?_
    | (intro z (hz : State.kept z q); try beta_reduce)
    | lift_lets
    | with_reducible refine kept_choice ?_ (fun _ => ?_)

end Sys2Proof.Machine
end

