-- ==== Sys2Proof/Laws/KeptUpdate.lean ====
section
/-!
SUPPORT. Every operation of Machine/Update.lean keeps the canonical form of the four stores, and the
command queue.
-/

set_option linter.unusedSimpArgs false

namespace Sys2Proof.Machine

variable {q : List Instr}

theorem State.showUpd_kept {s : State} (hs : s.kept q) :
    (State.showUpd s).kept q := by
  unfold State.showUpd
  repeat' first
    | with_reducible assumption
    | with_reducible refine State.set_kept ?_

theorem State.setRecord_kept {s : State} {r : Nat} (hs : s.kept q) :
    (State.setRecord s r).kept q := by
  unfold State.setRecord
  repeat' first
    | with_reducible assumption
    | (with_reducible show State.kept z q; dsimp only [z]; clear z)
    | with_reducible refine State.set_kept ?_
    | with_reducible refine State.showUpd_kept ?_
    | (intro z; refine have hz : State.kept z q := ?_; ?_)
    | intro z
    | lift_lets
    | with_reducible refine kept_choice ?_ (fun _ => ?_)
    | simp only [kept_mk, held_fields]

theorem State.modUpd_kept {s : State} {f : Update → Update} (hs : s.kept q) :
    (State.modUpd s f).kept q := by
  unfold State.modUpd
  repeat' first
    | with_reducible assumption
    | intro z
    | lift_lets
    | simp only [kept_mk, held_fields]

theorem State.eraseStaging_kept {s : State} (hs : s.kept q) :
    (State.eraseStaging s).kept q := by
  unfold State.eraseStaging
  repeat' first
    | with_reducible assumption
    | with_reducible refine State.showUpd_kept ?_
    | with_reducible refine State.modUpd_kept ?_
    | intro z
    | lift_lets
    | simp only [kept_mk, held_fields]

theorem State.updateEvent_kept {s : State} {status : Nat} (hs : s.kept q) :
    (State.updateEvent s status).kept q := by
  unfold State.updateEvent
  repeat' first
    | with_reducible assumption
    | with_reducible refine State.report_kept ?_

theorem State.rejectPiece_kept {s : State} (hs : s.kept q) :
    (State.rejectPiece s).kept q := by
  unfold State.rejectPiece
  repeat' first
    | with_reducible assumption
    | with_reducible refine State.raiseBit_kept ?_
    | with_reducible refine State.updateEvent_kept ?_

theorem State.queuePiece_kept {s : State} {i : Nat} {piece : List Byte} (hs : s.kept q) :
    (State.queuePiece s i piece).kept q := by
  unfold State.queuePiece
  repeat' first
    | with_reducible assumption
    | (with_reducible show State.kept z q; dsimp only [z]; clear z)
    | with_reducible refine State.modUpd_kept ?_
    | (intro z; refine have hz : State.kept z q := ?_; ?_)
    | intro z
    | lift_lets
    | with_reducible refine kept_choice ?_ (fun _ => ?_)
    | simp only [kept_mk, held_fields]

theorem execUpdPiece_kept {c : CmdRef} {s : State} (hs : s.kept q) :
    Keeps q (execUpdPiece c s) := by
  unfold execUpdPiece
  repeat' first
    | with_reducible assumption
    | (with_reducible show Keeps _ _; lift_lets)
    | with_reducible refine keeps_next ?_
    | with_reducible refine State.complete_kept ?_
    | with_reducible refine State.runCmd_kept ?_ ?_
    | with_reducible refine State.eraseStaging_kept ?_
    | with_reducible refine State.rejectPiece_kept ?_
    | with_reducible refine State.queuePiece_kept ?_
    | (intro z (hz : State.kept z q); try beta_reduce)
    | intro z
    | lift_lets
    | with_reducible refine kept_choice ?_ (fun _ => ?_)

theorem execPieceProgram_kept {s : State} (hs : s.kept q) :
    Keeps q (execPieceProgram s) := by
  unfold execPieceProgram
  repeat' first
    | with_reducible assumption
    | (with_reducible show Keeps _ _; lift_lets)
    | with_reducible refine keeps_next ?_
    | with_reducible refine State.showUpd_kept ?_
    | with_reducible refine State.modUpd_kept ?_
    | lift_lets
    | simp only [kept_mk, held_fields]
    | split

theorem execUpdStatus_kept {c : CmdRef} {s : State} (hs : s.kept q) :
    Keeps q (execUpdStatus c s) := by
  unfold execUpdStatus
  repeat' first
    | with_reducible assumption
    | with_reducible refine keeps_next ?_
    | with_reducible refine State.complete_kept ?_
    | with_reducible refine State.runCmd_kept ?_ ?_
    | (intro z (hz : State.kept z q); try beta_reduce)
    | intro z

theorem execUpdDiscard_kept {c : CmdRef} {s : State} (hs : s.kept q) :
    Keeps q (execUpdDiscard c s) := by
  unfold execUpdDiscard
  repeat' first
    | with_reducible assumption
    | (with_reducible show Keeps _ _; lift_lets)
    | with_reducible refine keeps_next ?_
    | with_reducible refine State.complete_kept ?_
    | with_reducible refine State.runCmd_kept ?_ ?_
    | with_reducible refine State.eraseStaging_kept ?_
    | (intro z (hz : State.kept z q); try beta_reduce)
    | intro z
    | lift_lets
    | simp only [kept_mk, held_fields]

theorem execUpdActivate_kept {c : CmdRef} {s : State} (hs : s.kept q) :
    Keeps q (execUpdActivate c s) := by
  unfold execUpdActivate
  repeat' first
    | with_reducible assumption
    | with_reducible refine keeps_next ?_
    | with_reducible refine State.complete_kept ?_
    | with_reducible refine State.park_kept ?_
    | with_reducible refine State.runCmd_kept ?_ ?_
    | with_reducible refine State.setRecord_kept ?_
    | with_reducible refine State.modUpd_kept ?_
    | with_reducible refine State.eraseStaging_kept ?_
    | (intro z (hz : State.kept z q); try beta_reduce)
    | intro z
    | lift_lets
    | with_reducible refine kept_choice ?_ (fun _ => ?_)

theorem State.stepEntry_kept {s : State} (hs : s.kept q) :
    (State.stepEntry s).kept q := by
  unfold State.stepEntry
  repeat' first
    | with_reducible assumption
    | (with_reducible show State.kept z q; dsimp only [z]; clear z)
    | (intro z (hz : State.kept z q); try beta_reduce)
    | with_reducible refine State.ledger_kept ?_
    | with_reducible refine State.update_kept ?_
    | (intro z; refine have hz : State.kept z q := ?_; ?_)
    | (intro z; refine have hz : State.kept z.1 q := ?_; ?_)
    | intro z
    | lift_lets
    | with_reducible refine kept_choice ?_ (fun _ => ?_)
    | simp only [kept_mk, held_fields]
    | with_reducible refine kept_foldl (fun _ _ _ => ?_) ?_
    | with_reducible refine kept_foldl_pair (fun _ _ _ => ?_) ?_
    | with_reducible refine kept_getD ?_ ?_
    | split
    | refine kept_of_pair (by with_reducible assumption) ?_
    | refine kept_of_some (by with_reducible assumption) ?_
    | (dsimp only [z]; try clear z)

theorem execSavingCopyDone_kept {s : State} (hs : s.kept q) :
    Keeps q (execSavingCopyDone s) := by
  unfold execSavingCopyDone
  repeat' first
    | with_reducible assumption
    | (with_reducible show Keeps _ _; lift_lets)
    | with_reducible refine keeps_next ?_
    | with_reducible refine State.setRecord_kept ?_
    | with_reducible refine State.stepEntry_kept ?_
    | lift_lets
    | with_reducible refine kept_choice ?_ (fun _ => ?_)
    | simp only [kept_mk, held_fields]

theorem State.drainForPause_kept {s : State} (hs : s.kept q) :
    (State.drainForPause s).kept q := by
  unfold State.drainForPause
  repeat' first
    | with_reducible assumption
    | with_reducible refine State.startDrain_kept ?_
    | with_reducible refine State.modUpd_kept ?_

theorem execWritingCopyDone_kept {s : State} (hs : s.kept q) :
    Keeps q (execWritingCopyDone s) := by
  unfold execWritingCopyDone
  repeat' first
    | with_reducible assumption
    | (with_reducible show Keeps _ _; lift_lets)
    | with_reducible refine keeps_next ?_
    | with_reducible refine State.setRecord_kept ?_
    | with_reducible refine State.stepEntry_kept ?_
    | with_reducible refine State.drainForPause_kept ?_
    | lift_lets
    | with_reducible refine kept_choice ?_ (fun _ => ?_)
    | simp only [kept_mk, held_fields]

theorem State.beginPause_kept {s : State} (hs : s.kept q) :
    (State.beginPause s).kept q := by
  unfold State.beginPause
  repeat' first
    | with_reducible assumption
    | with_reducible refine State.set_kept ?_
    | with_reducible refine State.writeSnapshot_kept ?_
    | with_reducible refine State.closeAllTls_kept ?_
    | with_reducible refine State.modUpd_kept ?_
    | lift_lets
    | with_reducible refine kept_choice ?_ (fun _ => ?_)

theorem execDrained_kept {s : State} (hs : s.kept q) :
    Keeps q (execDrained s) := by
  unfold execDrained
  repeat' first
    | with_reducible assumption
    | (with_reducible show Keeps _ _; lift_lets)
    | with_reducible refine keeps_next ?_
    | with_reducible exact keeps_fault
    | with_reducible refine keeps_choice ?_ ?_
    | (with_reducible show State.kept z q; dsimp only [z]; clear z)
    | (intro z (hz : State.kept z q); try beta_reduce)
    | with_reducible refine State.set_kept ?_
    | with_reducible refine State.update_kept ?_
    | with_reducible refine State.finishDrain_kept ?_
    | with_reducible refine State.beginPause_kept ?_
    | (intro z; refine have hz : State.kept z q := ?_; ?_)
    | (intro z; refine have hz : State.kept z.1 q := ?_; ?_)
    | intro z
    | lift_lets
    | with_reducible refine kept_choice ?_ (fun _ => ?_)
    | simp only [kept_mk, held_fields]
    | with_reducible refine kept_foldl (fun _ _ _ => ?_) ?_
    | with_reducible refine kept_foldl_pair (fun _ _ _ => ?_) ?_
    | with_reducible refine kept_getD ?_ ?_
    | split
    | refine kept_of_pair (by with_reducible assumption) ?_
    | refine kept_of_some (by with_reducible assumption) ?_
    | (dsimp only [z]; try clear z)

theorem State.showVersions_kept {s : State} {c : Nat} (hs : s.kept q) :
    (State.showVersions s c).kept q := by
  unfold State.showVersions
  repeat' first
    | with_reducible assumption
    | (with_reducible show State.kept z q; dsimp only [z]; clear z)
    | with_reducible refine State.set_kept ?_
    | (intro z; refine have hz : State.kept z q := ?_; ?_)
    | intro z
    | lift_lets
    | with_reducible refine kept_choice ?_ (fun _ => ?_)

theorem State.loadComponent_kept {s : State} {c : Nat} {ok : Bool} (hs : s.kept q) :
    (State.loadComponent s c ok).kept q := by
  unfold State.loadComponent
  repeat' first
    | with_reducible assumption
    | with_reducible refine State.raiseBit_kept ?_
    | with_reducible refine State.setBit_kept ?_
    | with_reducible refine State.healthEvent_kept ?_
    | with_reducible refine State.showVersions_kept ?_
    | with_reducible refine kept_choice ?_ (fun _ => ?_)

theorem State.reloadComponent_kept {s : State} {c : Nat} {ok : Bool} (hs : s.kept q) :
    (State.reloadComponent s c ok).kept q := by
  unfold State.reloadComponent
  repeat' first
    | with_reducible assumption
    | with_reducible refine State.setBit_kept ?_
    | with_reducible refine State.modUpd_kept ?_
    | with_reducible refine State.loadComponent_kept ?_
    | intro z
    | lift_lets
    | with_reducible refine kept_choice ?_ (fun _ => ?_)

theorem State.copyCode_kept {s : State} (hs : s.kept q) :
    (State.copyCode s).kept q := by
  unfold State.copyCode
  repeat' first
    | with_reducible assumption
    | (with_reducible show State.kept z q; dsimp only [z]; clear z)
    | (intro z (hz : State.kept z q); try beta_reduce)
    | with_reducible refine State.store_kept ?_
    | (intro z; refine have hz : State.kept z q := ?_; ?_)
    | (intro z; refine have hz : State.kept z.1 q := ?_; ?_)
    | intro z
    | lift_lets
    | with_reducible refine kept_choice ?_ (fun _ => ?_)
    | simp only [kept_mk, held_fields]
    | with_reducible refine kept_foldl (fun _ _ _ => ?_) ?_
    | with_reducible refine kept_foldl_pair (fun _ _ _ => ?_) ?_
    | with_reducible refine kept_getD ?_ ?_
    | split
    | refine kept_of_pair (by with_reducible assumption) ?_
    | refine kept_of_some (by with_reducible assumption) ?_
    | (dsimp only [z]; try clear z)

theorem State.videoRestart_kept {s : State} (hs : s.kept q) :
    (State.videoRestart s).kept q := by
  unfold State.videoRestart
  repeat' first
    | with_reducible assumption
    | intro z
    | lift_lets
    | simp only [kept_mk, held_fields]

theorem State.hssSkip_kept {s : State} (hs : s.kept q) :
    (State.hssSkip s).kept q := by
  unfold State.hssSkip
  repeat' first
    | with_reducible assumption
    | (with_reducible show State.kept z q; dsimp only [z]; clear z)
    | (intro z (hz : State.kept z q); try beta_reduce)
    | with_reducible refine State.set_kept ?_
    | with_reducible refine State.lmsLevel_kept ?_
    | (intro z; refine have hz : State.kept z q := ?_; ?_)
    | (intro z; refine have hz : State.kept z.1 q := ?_; ?_)
    | intro z
    | lift_lets
    | with_reducible refine kept_choice ?_ (fun _ => ?_)
    | simp only [kept_mk, held_fields]
    | with_reducible refine kept_foldl (fun _ _ _ => ?_) ?_
    | with_reducible refine kept_foldl_pair (fun _ _ _ => ?_) ?_
    | with_reducible refine kept_getD ?_ ?_
    | split
    | refine kept_of_pair (by with_reducible assumption) ?_
    | refine kept_of_some (by with_reducible assumption) ?_
    | (dsimp only [z]; try clear z)

theorem State.endPause_kept {s : State} {start : DWord} (hs : s.kept q) :
    (State.endPause s start).kept q := by
  unfold State.endPause
  repeat' first
    | with_reducible assumption
    | (with_reducible show State.kept z q; dsimp only [z]; clear z)
    | (intro z (hz : State.kept z q); try beta_reduce)
    | with_reducible refine State.set_kept ?_
    | with_reducible refine State.update_kept ?_
    | with_reducible refine State.releaseHeld_kept ?_
    | with_reducible refine State.holdCompletions_kept ?_
    | with_reducible refine State.restoreLedger_kept ?_
    | with_reducible refine State.reconcile_kept ?_
    | with_reducible refine State.modUpd_kept ?_
    | (intro z; refine have hz : State.kept z q := ?_; ?_)
    | (intro z; refine have hz : State.kept z.1 q := ?_; ?_)
    | intro z
    | lift_lets
    | with_reducible refine kept_choice ?_ (fun _ => ?_)
    | simp only [kept_mk, held_fields]
    | with_reducible refine kept_foldl (fun _ _ _ => ?_) ?_
    | with_reducible refine kept_foldl_pair (fun _ _ _ => ?_) ?_
    | with_reducible refine kept_getD ?_ ?_
    | split
    | refine kept_of_pair (by with_reducible assumption) ?_
    | refine kept_of_some (by with_reducible assumption) ?_
    | (dsimp only [z]; try clear z)

theorem State.finishActivate_kept {s : State} {status : Nat} (hs : s.kept q) :
    (State.finishActivate s status).kept q := by
  unfold State.finishActivate
  repeat' first
    | with_reducible assumption
    | with_reducible refine State.complete_kept ?_
    | with_reducible refine State.modUpd_kept ?_
    | split

theorem State.revertPause_kept {s : State} (hs : s.kept q) :
    (State.revertPause s).kept q := by
  unfold State.revertPause
  repeat' first
    | with_reducible assumption
    | (with_reducible show State.kept z q; dsimp only [z]; clear z)
    | (intro z (hz : State.kept z q); try beta_reduce)
    | with_reducible refine State.closeAllTls_kept ?_
    | with_reducible refine State.setRecord_kept ?_
    | with_reducible refine State.modUpd_kept ?_
    | with_reducible refine State.stepEntry_kept ?_
    | (intro z; refine have hz : State.kept z q := ?_; ?_)
    | (intro z; refine have hz : State.kept z.1 q := ?_; ?_)
    | intro z
    | lift_lets
    | with_reducible refine kept_choice ?_ (fun _ => ?_)
    | simp only [kept_mk, held_fields]
    | with_reducible refine kept_foldl (fun _ _ _ => ?_) ?_
    | with_reducible refine kept_foldl_pair (fun _ _ _ => ?_) ?_
    | with_reducible refine kept_getD ?_ ?_
    | split
    | refine kept_of_pair (by with_reducible assumption) ?_
    | refine kept_of_some (by with_reducible assumption) ?_
    | (dsimp only [z]; try clear z)

theorem execActivationPause_kept {digestsOk : BitVec 8} {s : State} (hs : s.kept q) :
    Keeps q (execActivationPause digestsOk s) := by
  unfold execActivationPause
  repeat' first
    | with_reducible assumption
    | (with_reducible show Keeps _ _; lift_lets)
    | with_reducible refine keeps_next ?_
    | with_reducible exact keeps_fault
    | with_reducible refine keeps_choice ?_ ?_
    | (with_reducible show State.kept z q; dsimp only [z]; clear z)
    | (intro z (hz : State.kept z q); try beta_reduce)
    | with_reducible refine State.set_kept ?_
    | with_reducible refine State.bump_kept ?_
    | with_reducible refine State.update_kept ?_
    | with_reducible refine State.showVersions_kept ?_
    | with_reducible refine State.reloadComponent_kept ?_
    | with_reducible refine State.copyCode_kept ?_
    | with_reducible refine State.videoRestart_kept ?_
    | with_reducible refine State.hssSkip_kept ?_
    | with_reducible refine State.endPause_kept ?_
    | with_reducible refine State.finishActivate_kept ?_
    | with_reducible refine State.revertPause_kept ?_
    | (intro z; refine have hz : State.kept z q := ?_; ?_)
    | (intro z; refine have hz : State.kept z.1 q := ?_; ?_)
    | intro z
    | lift_lets
    | with_reducible refine kept_choice ?_ (fun _ => ?_)
    | simp only [kept_mk, held_fields]
    | with_reducible refine kept_foldl (fun _ _ _ => ?_) ?_
    | with_reducible refine kept_foldl_pair (fun _ _ _ => ?_) ?_
    | with_reducible refine kept_getD ?_ ?_
    | split
    | refine kept_of_pair (by with_reducible assumption) ?_
    | refine kept_of_some (by with_reducible assumption) ?_
    | (dsimp only [z]; try clear z)

theorem execHealthConfirmed_kept {s : State} (hs : s.kept q) :
    Keeps q (execHealthConfirmed s) := by
  unfold execHealthConfirmed
  repeat' first
    | with_reducible assumption
    | (with_reducible show Keeps _ _; lift_lets)
    | with_reducible refine keeps_next ?_
    | with_reducible exact keeps_fault
    | with_reducible refine keeps_choice ?_ ?_
    | (with_reducible show State.kept z q; dsimp only [z]; clear z)
    | (intro z (hz : State.kept z q); try beta_reduce)
    | with_reducible refine State.set_kept ?_
    | with_reducible refine State.setRecord_kept ?_
    | with_reducible refine State.eraseStaging_kept ?_
    | with_reducible refine State.stepEntry_kept ?_
    | (intro z; refine have hz : State.kept z q := ?_; ?_)
    | (intro z; refine have hz : State.kept z.1 q := ?_; ?_)
    | intro z
    | lift_lets
    | with_reducible refine kept_choice ?_ (fun _ => ?_)
    | simp only [kept_mk, held_fields]
    | with_reducible refine kept_foldl (fun _ _ _ => ?_) ?_
    | with_reducible refine kept_foldl_pair (fun _ _ _ => ?_) ?_
    | with_reducible refine kept_getD ?_ ?_
    | split
    | refine kept_of_pair (by with_reducible assumption) ?_
    | refine kept_of_some (by with_reducible assumption) ?_
    | (dsimp only [z]; try clear z)

theorem execTrialDeadline_kept {s : State} (hs : s.kept q) :
    Keeps q (execTrialDeadline s) := by
  unfold execTrialDeadline
  repeat' first
    | with_reducible assumption
    | (with_reducible show Keeps _ _; lift_lets)
    | with_reducible refine keeps_next ?_
    | with_reducible exact keeps_fault
    | with_reducible refine keeps_choice ?_ ?_
    | (with_reducible show State.kept z q; dsimp only [z]; clear z)
    | (intro z (hz : State.kept z q); try beta_reduce)
    | with_reducible refine State.update_kept ?_
    | with_reducible refine State.setRecord_kept ?_
    | with_reducible refine State.stepEntry_kept ?_
    | with_reducible refine State.drainForPause_kept ?_
    | (intro z; refine have hz : State.kept z q := ?_; ?_)
    | (intro z; refine have hz : State.kept z.1 q := ?_; ?_)
    | intro z
    | lift_lets
    | with_reducible refine kept_choice ?_ (fun _ => ?_)
    | simp only [kept_mk, held_fields]
    | with_reducible refine kept_foldl (fun _ _ _ => ?_) ?_
    | with_reducible refine kept_foldl_pair (fun _ _ _ => ?_) ?_
    | with_reducible refine kept_getD ?_ ?_
    | split
    | refine kept_of_pair (by with_reducible assumption) ?_
    | refine kept_of_some (by with_reducible assumption) ?_
    | (dsimp only [z]; try clear z)

theorem execPauseTimeout_kept {s : State} (hs : s.kept q) :
    Keeps q (execPauseTimeout s) := by
  unfold execPauseTimeout
  repeat' first
    | with_reducible assumption
    | with_reducible refine keeps_next ?_
    | with_reducible refine State.revertPause_kept ?_
    | lift_lets
    | with_reducible refine kept_choice ?_ (fun _ => ?_)
    | split

theorem execRevertCopyDone_kept {s : State} (hs : s.kept q) :
    Keeps q (execRevertCopyDone s) := by
  unfold execRevertCopyDone
  repeat' first
    | with_reducible assumption
    | (with_reducible show Keeps _ _; lift_lets)
    | with_reducible refine keeps_next ?_
    | with_reducible exact keeps_fault
    | with_reducible refine keeps_choice ?_ ?_
    | (with_reducible show State.kept z q; dsimp only [z]; clear z)
    | (intro z (hz : State.kept z q); try beta_reduce)
    | with_reducible refine State.bump_kept ?_
    | with_reducible refine State.raiseBit_kept ?_
    | with_reducible refine State.update_kept ?_
    | with_reducible refine State.setRecord_kept ?_
    | with_reducible refine State.modUpd_kept ?_
    | with_reducible refine State.eraseStaging_kept ?_
    | with_reducible refine State.updateEvent_kept ?_
    | with_reducible refine State.stepEntry_kept ?_
    | (intro z; refine have hz : State.kept z q := ?_; ?_)
    | (intro z; refine have hz : State.kept z.1 q := ?_; ?_)
    | intro z
    | lift_lets
    | with_reducible refine kept_choice ?_ (fun _ => ?_)
    | simp only [kept_mk, held_fields]
    | with_reducible refine kept_foldl (fun _ _ _ => ?_) ?_
    | with_reducible refine kept_foldl_pair (fun _ _ _ => ?_) ?_
    | with_reducible refine kept_getD ?_ ?_
    | split
    | refine kept_of_pair (by with_reducible assumption) ?_
    | refine kept_of_some (by with_reducible assumption) ?_
    | (dsimp only [z]; try clear z)

theorem State.checkScan_kept {s : State} (hs : s.kept q) :
    (State.checkScan s).kept q := by
  unfold State.checkScan
  repeat' first
    | with_reducible assumption
    | (with_reducible show State.kept z q; dsimp only [z]; clear z)
    | (intro z (hz : State.kept z q); try beta_reduce)
    | with_reducible refine State.ledger_kept ?_
    | with_reducible refine State.ledgerScan_kept ?_
    | with_reducible refine State.codeScan_kept ?_
    | (intro z; refine have hz : State.kept z q := ?_; ?_)
    | (intro z; refine have hz : State.kept z.1 q := ?_; ?_)
    | intro z
    | lift_lets
    | with_reducible refine kept_choice ?_ (fun _ => ?_)
    | simp only [kept_mk, held_fields]
    | with_reducible refine kept_foldl (fun _ _ _ => ?_) ?_
    | with_reducible refine kept_foldl_pair (fun _ _ _ => ?_) ?_
    | with_reducible refine kept_getD ?_ ?_
    | split
    | refine kept_of_pair (by with_reducible assumption) ?_
    | refine kept_of_some (by with_reducible assumption) ?_
    | (dsimp only [z]; try clear z)

theorem execHalfChecksDone_kept {half : Half} {digestOk ledgerReadOk : Bool} {s : State} (hs : s.kept q) :
    Keeps q (execHalfChecksDone half digestOk ledgerReadOk s) := by
  unfold execHalfChecksDone
  repeat' first
    | with_reducible assumption
    | (with_reducible show Keeps _ _; lift_lets)
    | with_reducible refine keeps_next ?_
    | with_reducible exact keeps_fault
    | with_reducible refine keeps_choice ?_ ?_
    | (with_reducible show State.kept z q; dsimp only [z]; clear z)
    | (intro z (hz : State.kept z q); try beta_reduce)
    | with_reducible refine State.update_kept ?_
    | with_reducible refine State.restoreEnd_kept ?_
    | with_reducible refine State.modUpd_kept ?_
    | with_reducible refine State.checkScan_kept ?_
    | (intro z; refine have hz : State.kept z q := ?_; ?_)
    | (intro z; refine have hz : State.kept z.1 q := ?_; ?_)
    | intro z
    | lift_lets
    | with_reducible refine kept_choice ?_ (fun _ => ?_)
    | simp only [kept_mk, held_fields]
    | with_reducible refine kept_foldl (fun _ _ _ => ?_) ?_
    | with_reducible refine kept_foldl_pair (fun _ _ _ => ?_) ?_
    | with_reducible refine kept_getD ?_ ?_
    | split
    | refine kept_of_pair (by with_reducible assumption) ?_
    | refine kept_of_some (by with_reducible assumption) ?_
    | (dsimp only [z]; try clear z)

end Sys2Proof.Machine
end

