-- ==== Sys2Proof/Laws/KeptStart.lean ====
section
/-!
SUPPORT. Every operation of Machine/Start.lean keeps the canonical form of the four stores, and the
command queue.
-/

set_option linter.unusedSimpArgs false

namespace Sys2Proof.Machine

variable {q : List Instr}

theorem State.endStage_kept {s : State} {k : Nat} (hs : s.kept q) :
    (State.endStage s k).kept q := by
  unfold State.endStage
  repeat' first
    | with_reducible assumption
    | intro z
    | lift_lets
    | simp only [kept_mk, held_fields]

theorem State.hold_kept {s : State} {code : Nat} (hs : s.kept q) :
    (State.hold s code).kept q := by
  unfold State.hold
  repeat' first
    | with_reducible assumption
    | with_reducible refine State.set_kept ?_
    | with_reducible refine kept_choice ?_ (fun _ => ?_)

theorem State.modMoult_kept {s : State} {f : Moult → Moult} (hs : s.kept q) :
    (State.modMoult s f).kept q := by
  unfold State.modMoult
  repeat' first
    | with_reducible assumption
    | intro z
    | lift_lets
    | simp only [kept_mk, held_fields]

theorem State.analogPart_kept {s : State} {bit : Nat} {failed retried : Bool} (hs : s.kept q) :
    (State.analogPart s bit failed retried).kept q := by
  unfold State.analogPart
  repeat' first
    | with_reducible assumption
    | with_reducible refine State.modMoult_kept ?_

theorem State.moultEnd_kept {s : State} (hs : s.kept q) :
    (State.moultEnd s).kept q := by
  unfold State.moultEnd
  repeat' first
    | with_reducible assumption
    | (with_reducible show State.kept z q; dsimp only [z]; clear z)
    | with_reducible refine State.set_kept ?_
    | with_reducible refine State.bump_kept ?_
    | with_reducible refine State.complete_kept ?_
    | with_reducible refine State.endStage_kept ?_
    | with_reducible refine State.hold_kept ?_
    | with_reducible refine State.modMoult_kept ?_
    | (intro z; refine have hz : State.kept z q := ?_; ?_)
    | intro z
    | lift_lets
    | with_reducible refine kept_choice ?_ (fun _ => ?_)
    | split

theorem State.showFingerprint_kept {s : State} (hs : s.kept q) :
    (State.showFingerprint s).kept q := by
  unfold State.showFingerprint
  repeat' first
    | with_reducible assumption
    | (with_reducible show State.kept z q; dsimp only [z]; clear z)
    | (intro z (hz : State.kept z q); try beta_reduce)
    | with_reducible refine State.set_kept ?_
    | (intro z; refine have hz : State.kept z q := ?_; ?_)
    | (intro z; refine have hz : State.kept z.1 q := ?_; ?_)
    | intro z
    | lift_lets
    | with_reducible refine kept_choice ?_ (fun _ => ?_)
    | simp only [kept_mk, held_fields]
    | with_reducible refine kept_foldl (fun _ _ _ => ?_) ?_
    | with_reducible refine kept_foldl_pair (fun _ _ _ => ?_) ?_
    | with_reducible refine kept_getD ?_ ?_
    | split
    | refine kept_of_pair (by with_reducible assumption) ?_
    | refine kept_of_some (by with_reducible assumption) ?_
    | (dsimp only [z]; try clear z)

theorem execStart_kept {s : State} (hs : s.kept q) :
    Keeps q (execStart s) := by
  unfold execStart
  repeat' first
    | with_reducible assumption
    | (with_reducible show Keeps _ _; lift_lets)
    | with_reducible refine keeps_next ?_
    | with_reducible exact keeps_fault
    | with_reducible refine keeps_choice ?_ ?_
    | (with_reducible show State.kept z q; dsimp only [z]; clear z)
    | (intro z (hz : State.kept z q); try beta_reduce)
    | with_reducible refine State.set_kept ?_
    | with_reducible refine State.endStage_kept ?_
    | with_reducible refine State.showFingerprint_kept ?_
    | (intro z; refine have hz : State.kept z q := ?_; ?_)
    | (intro z; refine have hz : State.kept z.1 q := ?_; ?_)
    | intro z
    | lift_lets
    | with_reducible refine kept_choice ?_ (fun _ => ?_)
    | simp only [kept_mk, held_fields]
    | with_reducible refine kept_foldl (fun _ _ _ => ?_) ?_
    | with_reducible refine kept_foldl_pair (fun _ _ _ => ?_) ?_
    | with_reducible refine kept_getD ?_ ?_
    | split
    | refine kept_of_pair (by with_reducible assumption) ?_
    | refine kept_of_some (by with_reducible assumption) ?_
    | (dsimp only [z]; try clear z)

theorem execHoldUpCharged_kept {s : State} (hs : s.kept q) :
    Keeps q (execHoldUpCharged s) := by
  unfold execHoldUpCharged
  repeat' first
    | with_reducible assumption
    | with_reducible refine keeps_next ?_
    | with_reducible refine State.set_kept ?_
    | with_reducible refine State.endStage_kept ?_
    | lift_lets
    | with_reducible refine kept_choice ?_ (fun _ => ?_)

theorem State.cocoonReady_kept {s : State} (hs : s.kept q) :
    (State.cocoonReady s).kept q := by
  unfold State.cocoonReady
  repeat' first
    | with_reducible assumption
    | (with_reducible show State.kept z q; dsimp only [z]; clear z)
    | (intro z (hz : State.kept z q); try beta_reduce)
    | with_reducible refine State.set_kept ?_
    | with_reducible refine State.loadKey_kept ?_
    | (intro z; refine have hz : State.kept z q := ?_; ?_)
    | (intro z; refine have hz : State.kept z.1 q := ?_; ?_)
    | intro z
    | lift_lets
    | with_reducible refine kept_choice ?_ (fun _ => ?_)
    | simp only [kept_mk, held_fields]
    | with_reducible refine kept_foldl (fun _ _ _ => ?_) ?_
    | with_reducible refine kept_foldl_pair (fun _ _ _ => ?_) ?_
    | with_reducible refine kept_getD ?_ ?_
    | split
    | refine kept_of_pair (by with_reducible assumption) ?_
    | refine kept_of_some (by with_reducible assumption) ?_
    | (dsimp only [z]; try clear z)

theorem execCocoonKeyDerivation_kept {entropyOk : Bool} {s : State} (hs : s.kept q) :
    Keeps q (execCocoonKeyDerivation entropyOk s) := by
  unfold execCocoonKeyDerivation
  repeat' first
    | with_reducible assumption
    | with_reducible refine keeps_next ?_
    | with_reducible refine State.entropyFail_kept ?_
    | with_reducible refine State.endStage_kept ?_
    | with_reducible refine State.cocoonReady_kept ?_
    | lift_lets
    | with_reducible refine kept_choice ?_ (fun _ => ?_)

theorem State.startHalf_kept {s : State} {h : Half} (hs : s.kept q) :
    (State.startHalf s h).kept q := by
  unfold State.startHalf
  repeat' first
    | with_reducible assumption
    | with_reducible refine State.set_kept ?_
    | with_reducible refine State.setHalfState_kept ?_
    | with_reducible refine State.setClaim_kept ?_
    | with_reducible refine State.powerUpHalf_kept ?_

theorem State.bootRecord_kept {s : State} {fallback : Bool} (hs : s.kept q) :
    (State.bootRecord s fallback).kept q := by
  unfold State.bootRecord
  repeat' first
    | with_reducible assumption
    | (with_reducible show State.kept z q; dsimp only [z]; clear z)
    | with_reducible refine State.raiseBit_kept ?_
    | with_reducible refine State.setRecord_kept ?_
    | with_reducible refine State.modUpd_kept ?_
    | (intro z; refine have hz : State.kept z q := ?_; ?_)
    | intro z
    | lift_lets
    | with_reducible refine kept_choice ?_ (fun _ => ?_)
    | simp only [kept_mk, held_fields]

theorem execPupaLoaderBoot_kept {runningOk fallbackOk : Bool} {s : State} (hs : s.kept q) :
    Keeps q (execPupaLoaderBoot runningOk fallbackOk s) := by
  unfold execPupaLoaderBoot
  repeat' first
    | with_reducible assumption
    | (with_reducible show Keeps _ _; lift_lets)
    | with_reducible refine keeps_next ?_
    | with_reducible exact keeps_fault
    | with_reducible refine keeps_choice ?_ ?_
    | (with_reducible show State.kept z q; dsimp only [z]; clear z)
    | (intro z (hz : State.kept z q); try beta_reduce)
    | with_reducible refine State.writeCrash_kept ?_
    | with_reducible refine State.showVersions_kept ?_
    | with_reducible refine State.endStage_kept ?_
    | with_reducible refine State.startHalf_kept ?_
    | with_reducible refine State.bootRecord_kept ?_
    | (intro z; refine have hz : State.kept z q := ?_; ?_)
    | (intro z; refine have hz : State.kept z.1 q := ?_; ?_)
    | intro z
    | lift_lets
    | with_reducible refine kept_choice ?_ (fun _ => ?_)
    | simp only [kept_mk, held_fields]
    | with_reducible refine kept_foldl (fun _ _ _ => ?_) ?_
    | with_reducible refine kept_foldl_pair (fun _ _ _ => ?_) ?_
    | with_reducible refine kept_getD ?_ ?_
    | split
    | refine kept_of_pair (by with_reducible assumption) ?_
    | refine kept_of_some (by with_reducible assumption) ?_
    | (dsimp only [z]; try clear z)

theorem State.compareIdentity_kept {s : State} {tray manifold : Option (List Byte)} (hs : s.kept q) :
    (State.compareIdentity s tray manifold).1.kept q := by
  unfold State.compareIdentity
  repeat' first
    | with_reducible assumption
    | with_reducible refine State.set_kept ?_
    | with_reducible refine State.bump_kept ?_
    | with_reducible refine State.raiseBit_kept ?_
    | lift_lets
    | with_reducible refine kept_choice ?_ (fun _ => ?_)

theorem State.loadMap_kept {s : State} (hs : s.kept q) :
    (State.loadMap s).kept q := by
  unfold State.loadMap
  repeat' first
    | with_reducible assumption
    | (with_reducible show State.kept z q; dsimp only [z]; clear z)
    | with_reducible refine State.set_kept ?_
    | with_reducible refine State.markUnusable_kept ?_
    | (intro z; refine have hz : State.kept z q := ?_; ?_)
    | intro z
    | lift_lets
    | with_reducible refine kept_choice ?_ (fun _ => ?_)
    | with_reducible refine kept_foldl (fun _ _ _ => ?_) ?_

theorem State.startPm_kept {s : State} (hs : s.kept q) :
    (State.startPm s).kept q := by
  unfold State.startPm
  repeat' first
    | with_reducible assumption
    | (with_reducible show State.kept z q; dsimp only [z]; clear z)
    | with_reducible refine State.set_kept ?_
    | with_reducible refine State.refreshCap_kept ?_
    | with_reducible refine State.startGate_kept ?_
    | (intro z; refine have hz : State.kept z q := ?_; ?_)
    | lift_lets
    | with_reducible refine kept_choice ?_ (fun _ => ?_)
    | with_reducible refine kept_foldl (fun _ _ _ => ?_) ?_

theorem execIdentityCheck_kept {tray manifold : Option (List Byte)} {digestOk : Bool} {s : State} (hs : s.kept q) :
    Keeps q (execIdentityCheck tray manifold digestOk s) := by
  unfold execIdentityCheck
  repeat' first
    | with_reducible assumption
    | (with_reducible show Keeps _ _; lift_lets)
    | with_reducible refine keeps_next ?_
    | with_reducible refine State.healthEvent_kept ?_
    | with_reducible refine State.loadComponent_kept ?_
    | with_reducible refine State.endStage_kept ?_
    | with_reducible refine State.hold_kept ?_
    | with_reducible refine State.compareIdentity_kept ?_
    | with_reducible refine State.loadMap_kept ?_
    | with_reducible refine State.startPm_kept ?_
    | lift_lets
    | with_reducible refine kept_choice ?_ (fun _ => ?_)
    | simp only [kept_mk, held_fields]

theorem execIdentityRecheck_kept {tray manifold : Option (List Byte)} {s : State} (hs : s.kept q) :
    Keeps q (execIdentityRecheck tray manifold s) := by
  unfold execIdentityRecheck
  repeat' first
    | with_reducible assumption
    | (with_reducible show Keeps _ _; lift_lets)
    | with_reducible refine keeps_next ?_
    | with_reducible refine State.set_kept ?_
    | with_reducible refine State.hold_kept ?_
    | with_reducible refine State.compareIdentity_kept ?_
    | lift_lets
    | with_reducible refine kept_choice ?_ (fun _ => ?_)
    | simp only [kept_mk, held_fields]

theorem State.vaultChecked_kept {s : State} {first second : Bool} {bondFail retryFail : DWord} (hs : s.kept q) :
    (State.vaultChecked s first second bondFail retryFail).kept q := by
  unfold State.vaultChecked
  repeat' first
    | with_reducible assumption
    | (with_reducible show State.kept z q; dsimp only [z]; clear z)
    | (intro z (hz : State.kept z q); try beta_reduce)
    | with_reducible refine State.condemn_kept ?_
    | with_reducible refine State.modMoult_kept ?_
    | with_reducible refine State.analogPart_kept ?_
    | (intro z; refine have hz : State.kept z q := ?_; ?_)
    | (intro z; refine have hz : State.kept z.1 q := ?_; ?_)
    | intro z
    | lift_lets
    | with_reducible refine kept_choice ?_ (fun _ => ?_)
    | simp only [kept_mk, held_fields]
    | with_reducible refine kept_foldl (fun _ _ _ => ?_) ?_
    | with_reducible refine kept_foldl_pair (fun _ _ _ => ?_) ?_
    | with_reducible refine kept_getD ?_ ?_
    | split
    | refine kept_of_pair (by with_reducible assumption) ?_
    | refine kept_of_some (by with_reducible assumption) ?_
    | (dsimp only [z]; try clear z)

theorem execVaultPhyCheck_kept {digestOk first second : Bool} {bondFail retryFail : DWord} {s : State} (hs : s.kept q) :
    Keeps q (execVaultPhyCheck digestOk first second bondFail retryFail s) := by
  unfold execVaultPhyCheck
  repeat' first
    | with_reducible assumption
    | (with_reducible show Keeps _ _; lift_lets)
    | with_reducible refine keeps_next ?_
    | with_reducible exact keeps_fault
    | with_reducible refine keeps_choice ?_ ?_
    | (with_reducible show State.kept z q; dsimp only [z]; clear z)
    | (intro z (hz : State.kept z q); try beta_reduce)
    | with_reducible refine State.takeBank_kept ?_
    | with_reducible refine State.loadComponent_kept ?_
    | with_reducible refine State.endStage_kept ?_
    | with_reducible refine State.hold_kept ?_
    | with_reducible refine State.moultEnd_kept ?_
    | with_reducible refine State.vaultChecked_kept ?_
    | (intro z; refine have hz : State.kept z q := ?_; ?_)
    | (intro z; refine have hz : State.kept z.1 q := ?_; ?_)
    | intro z
    | lift_lets
    | with_reducible refine kept_choice ?_ (fun _ => ?_)
    | simp only [kept_mk, held_fields]
    | with_reducible refine kept_foldl (fun _ _ _ => ?_) ?_
    | with_reducible refine kept_foldl_pair (fun _ _ _ => ?_) ?_
    | with_reducible refine kept_getD ?_ ?_
    | split
    | refine kept_of_pair (by with_reducible assumption) ?_
    | refine kept_of_some (by with_reducible assumption) ?_
    | (dsimp only [z]; try clear z)

theorem State.holdArrays_kept {s : State} {code : Nat} (hs : s.kept q) :
    (State.holdArrays s code).kept q := by
  unfold State.holdArrays
  repeat' first
    | with_reducible assumption
    | (with_reducible show State.kept z q; dsimp only [z]; clear z)
    | (intro z (hz : State.kept z q); try beta_reduce)
    | with_reducible refine State.set_kept ?_
    | with_reducible refine State.modArr_kept ?_
    | with_reducible refine State.hold_kept ?_
    | with_reducible refine State.modMoult_kept ?_
    | (intro z; refine have hz : State.kept z q := ?_; ?_)
    | (intro z; refine have hz : State.kept z.1 q := ?_; ?_)
    | intro z
    | lift_lets
    | with_reducible refine kept_choice ?_ (fun _ => ?_)
    | simp only [kept_mk, held_fields]
    | with_reducible refine kept_foldl (fun _ _ _ => ?_) ?_
    | with_reducible refine kept_foldl_pair (fun _ _ _ => ?_) ?_
    | with_reducible refine kept_getD ?_ ?_
    | split
    | refine kept_of_pair (by with_reducible assumption) ?_
    | refine kept_of_some (by with_reducible assumption) ?_
    | (dsimp only [z]; try clear z)

theorem execStartVaultClear_kept {s : State} (hs : s.kept q) :
    Keeps q (execStartVaultClear s) := by
  unfold execStartVaultClear
  repeat' first
    | with_reducible assumption
    | with_reducible refine keeps_next ?_
    | with_reducible refine State.wipe_kept ?_
    | with_reducible refine State.raiseBit_kept ?_
    | with_reducible refine State.modArr_kept ?_
    | with_reducible refine State.endStage_kept ?_
    | lift_lets
    | with_reducible refine kept_choice ?_ (fun _ => ?_)
    | with_reducible refine kept_foldl (fun _ _ _ => ?_) ?_

theorem State.loadLpddr_kept {s : State} {ok : Bool} (hs : s.kept q) :
    (State.loadLpddr s ok).kept q := by
  unfold State.loadLpddr
  repeat' first
    | with_reducible assumption
    | (with_reducible show State.kept z q; dsimp only [z]; clear z)
    | (intro z (hz : State.kept z q); try beta_reduce)
    | with_reducible refine State.loadComponent_kept ?_
    | (intro z; refine have hz : State.kept z q := ?_; ?_)
    | (intro z; refine have hz : State.kept z.1 q := ?_; ?_)
    | intro z
    | lift_lets
    | with_reducible refine kept_choice ?_ (fun _ => ?_)
    | simp only [kept_mk, held_fields]
    | with_reducible refine kept_foldl (fun _ _ _ => ?_) ?_
    | with_reducible refine kept_foldl_pair (fun _ _ _ => ?_) ?_
    | with_reducible refine kept_getD ?_ ?_
    | split
    | refine kept_of_pair (by with_reducible assumption) ?_
    | refine kept_of_some (by with_reducible assumption) ?_
    | (dsimp only [z]; try clear z)

theorem execTierTraining_kept {digestOk first second : Bool} {s : State} (hs : s.kept q) :
    Keeps q (execTierTraining digestOk first second s) := by
  unfold execTierTraining
  repeat' first
    | with_reducible assumption
    | (with_reducible show Keeps _ _; lift_lets)
    | with_reducible refine keeps_next ?_
    | with_reducible exact keeps_fault
    | with_reducible refine keeps_choice ?_ ?_
    | (with_reducible show State.kept z q; dsimp only [z]; clear z)
    | (intro z (hz : State.kept z q); try beta_reduce)
    | with_reducible refine State.set_kept ?_
    | with_reducible refine State.patrolStart_kept ?_
    | with_reducible refine State.takeBank_kept ?_
    | with_reducible refine State.endStage_kept ?_
    | with_reducible refine State.analogPart_kept ?_
    | with_reducible refine State.moultEnd_kept ?_
    | with_reducible refine State.holdArrays_kept ?_
    | with_reducible refine State.loadLpddr_kept ?_
    | (intro z; refine have hz : State.kept z q := ?_; ?_)
    | (intro z; refine have hz : State.kept z.1 q := ?_; ?_)
    | intro z
    | lift_lets
    | with_reducible refine kept_choice ?_ (fun _ => ?_)
    | simp only [kept_mk, held_fields]
    | with_reducible refine kept_foldl (fun _ _ _ => ?_) ?_
    | with_reducible refine kept_foldl_pair (fun _ _ _ => ?_) ?_
    | with_reducible refine kept_getD ?_ ?_
    | split
    | refine kept_of_pair (by with_reducible assumption) ?_
    | refine kept_of_some (by with_reducible assumption) ?_
    | (dsimp only [z]; try clear z)

theorem execStartTierClear_kept {s : State} (hs : s.kept q) :
    Keeps q (execStartTierClear s) := by
  unfold execStartTierClear
  repeat' first
    | with_reducible assumption
    | (with_reducible show Keeps _ _; lift_lets)
    | with_reducible refine keeps_next ?_
    | with_reducible refine State.wipe_kept ?_
    | with_reducible refine State.raiseBit_kept ?_
    | with_reducible refine State.copyCode_kept ?_
    | with_reducible refine State.endStage_kept ?_
    | lift_lets
    | with_reducible refine kept_choice ?_ (fun _ => ?_)
    | simp only [kept_mk, held_fields]

theorem State.lanesChecked_kept {s : State} {lanes laneFail retryFail : BitVec 16} (hs : s.kept q) :
    (State.lanesChecked s lanes laneFail retryFail).kept q := by
  unfold State.lanesChecked
  repeat' first
    | with_reducible assumption
    | (with_reducible show State.kept z q; dsimp only [z]; clear z)
    | with_reducible refine State.set_kept ?_
    | with_reducible refine State.report_kept ?_
    | with_reducible refine State.analogPart_kept ?_
    | (intro z; refine have hz : State.kept z q := ?_; ?_)
    | intro z
    | lift_lets
    | with_reducible refine kept_choice ?_ (fun _ => ?_)
    | simp only [kept_mk, held_fields]

theorem State.mgmtChecked_kept {s : State} {first second : Bool} (hs : s.kept q) :
    (State.mgmtChecked s first second).kept q := by
  unfold State.mgmtChecked
  repeat' first
    | with_reducible assumption
    | (with_reducible show State.kept z q; dsimp only [z]; clear z)
    | (intro z (hz : State.kept z q); try beta_reduce)
    | with_reducible refine State.dropMgmt_kept ?_
    | with_reducible refine State.analogPart_kept ?_
    | (intro z; refine have hz : State.kept z q := ?_; ?_)
    | (intro z; refine have hz : State.kept z.1 q := ?_; ?_)
    | intro z
    | lift_lets
    | with_reducible refine kept_choice ?_ (fun _ => ?_)
    | simp only [kept_mk, held_fields]
    | with_reducible refine kept_foldl (fun _ _ _ => ?_) ?_
    | with_reducible refine kept_foldl_pair (fun _ _ _ => ?_) ?_
    | with_reducible refine kept_getD ?_ ?_
    | split
    | refine kept_of_pair (by with_reducible assumption) ?_
    | refine kept_of_some (by with_reducible assumption) ?_
    | (dsimp only [z]; try clear z)

theorem execSerdesCheck_kept {digests : SerdesDigests} {laneFail retryFail : BitVec 16} {mgmtFirst mgmtSecond strap : Bool} {s : State} (hs : s.kept q) :
    Keeps q (execSerdesCheck digests laneFail retryFail mgmtFirst mgmtSecond strap s) := by
  unfold execSerdesCheck
  repeat' first
    | with_reducible assumption
    | (with_reducible show Keeps _ _; lift_lets)
    | with_reducible refine keeps_next ?_
    | with_reducible exact keeps_fault
    | with_reducible refine keeps_choice ?_ ?_
    | (with_reducible show State.kept z q; dsimp only [z]; clear z)
    | (intro z (hz : State.kept z q); try beta_reduce)
    | with_reducible refine State.set_kept ?_
    | with_reducible refine State.loadComponent_kept ?_
    | with_reducible refine State.endStage_kept ?_
    | with_reducible refine State.modMoult_kept ?_
    | with_reducible refine State.moultEnd_kept ?_
    | with_reducible refine State.loadLpddr_kept ?_
    | with_reducible refine State.lanesChecked_kept ?_
    | with_reducible refine State.mgmtChecked_kept ?_
    | (intro z; refine have hz : State.kept z q := ?_; ?_)
    | (intro z; refine have hz : State.kept z.1 q := ?_; ?_)
    | intro z
    | lift_lets
    | with_reducible refine kept_choice ?_ (fun _ => ?_)
    | simp only [kept_mk, held_fields]
    | with_reducible refine kept_foldl (fun _ _ _ => ?_) ?_
    | with_reducible refine kept_foldl_pair (fun _ _ _ => ?_) ?_
    | with_reducible refine kept_getD ?_ ?_
    | split
    | refine kept_of_pair (by with_reducible assumption) ?_
    | refine kept_of_some (by with_reducible assumption) ?_
    | (dsimp only [z]; try clear z)

theorem execSamplerHawkmothLoad_kept {samplerOk hawkmothOk : Bool} {s : State} (hs : s.kept q) :
    Keeps q (execSamplerHawkmothLoad samplerOk hawkmothOk s) := by
  unfold execSamplerHawkmothLoad
  repeat' first
    | with_reducible assumption
    | (with_reducible show Keeps _ _; lift_lets)
    | with_reducible refine keeps_next ?_
    | with_reducible refine State.set_kept ?_
    | with_reducible refine State.loadComponent_kept ?_
    | with_reducible refine State.endStage_kept ?_
    | lift_lets
    | with_reducible refine kept_choice ?_ (fun _ => ?_)

theorem State.placeLedger_kept {s : State} (hs : s.kept q) :
    (State.placeLedger s).kept q := by
  unfold State.placeLedger
  repeat' first
    | with_reducible assumption
    | with_reducible refine State.set_kept ?_
    | with_reducible refine State.setVtag_kept ?_
    | lift_lets
    | simp only [kept_mk, held_fields]
    | split

theorem State.shuttleDefaults_kept {s : State} (hs : s.kept q) :
    (State.shuttleDefaults s).kept q := by
  unfold State.shuttleDefaults
  repeat' first
    | with_reducible assumption
    | with_reducible refine State.set_kept ?_
    | with_reducible refine State.shtStage_kept ?_
    | with_reducible refine State.shtArm_kept ?_
    | lift_lets
    | with_reducible refine kept_choice ?_ (fun _ => ?_)
    | simp only [kept_mk, held_fields]
    | with_reducible refine kept_foldl (fun _ _ _ => ?_) ?_

theorem State.writeMap_kept {s : State} (hs : s.kept q) :
    (State.writeMap s).kept q := by
  unfold State.writeMap
  repeat' first
    | with_reducible assumption
    | (with_reducible show State.kept z q; dsimp only [z]; clear z)
    | (intro z (hz : State.kept z q); try beta_reduce)
    | with_reducible refine State.raiseBit_kept ?_
    | with_reducible refine State.flashMap_kept ?_
    | (intro z; refine have hz : State.kept z q := ?_; ?_)
    | (intro z; refine have hz : State.kept z.1 q := ?_; ?_)
    | intro z
    | lift_lets
    | with_reducible refine kept_choice ?_ (fun _ => ?_)
    | simp only [kept_mk, held_fields]
    | with_reducible refine kept_foldl (fun _ _ _ => ?_) ?_
    | with_reducible refine kept_foldl_pair (fun _ _ _ => ?_) ?_
    | with_reducible refine kept_getD ?_ ?_
    | split
    | refine kept_of_pair (by with_reducible assumption) ?_
    | refine kept_of_some (by with_reducible assumption) ?_
    | (dsimp only [z]; try clear z)

theorem State.startRecord_kept {s : State} (hs : s.kept q) :
    (State.startRecord s).kept q := by
  unfold State.startRecord
  repeat' first
    | with_reducible assumption
    | (with_reducible show State.kept z q; dsimp only [z]; clear z)
    | (intro z (hz : State.kept z q); try beta_reduce)
    | with_reducible refine State.reportAt_kept ?_
    | (intro z; refine have hz : State.kept z q := ?_; ?_)
    | (intro z; refine have hz : State.kept z.1 q := ?_; ?_)
    | intro z
    | lift_lets
    | with_reducible refine kept_choice ?_ (fun _ => ?_)
    | simp only [kept_mk, held_fields]
    | with_reducible refine kept_foldl (fun _ _ _ => ?_) ?_
    | with_reducible refine kept_foldl_pair (fun _ _ _ => ?_) ?_
    | with_reducible refine kept_getD ?_ ?_
    | split
    | refine kept_of_pair (by with_reducible assumption) ?_
    | refine kept_of_some (by with_reducible assumption) ?_
    | (dsimp only [z]; try clear z)

theorem execLomletReady_kept {s : State} (hs : s.kept q) :
    Keeps q (execLomletReady s) := by
  unfold execLomletReady
  repeat' first
    | with_reducible assumption
    | (with_reducible show Keeps _ _; lift_lets)
    | with_reducible refine keeps_next ?_
    | with_reducible exact keeps_fault
    | with_reducible refine keeps_choice ?_ ?_
    | (with_reducible show State.kept z q; dsimp only [z]; clear z)
    | (intro z (hz : State.kept z q); try beta_reduce)
    | with_reducible refine State.set_kept ?_
    | with_reducible refine State.scheduleSwap_kept ?_
    | with_reducible refine State.endStage_kept ?_
    | with_reducible refine State.placeLedger_kept ?_
    | with_reducible refine State.shuttleDefaults_kept ?_
    | with_reducible refine State.writeMap_kept ?_
    | with_reducible refine State.startRecord_kept ?_
    | (intro z; refine have hz : State.kept z q := ?_; ?_)
    | (intro z; refine have hz : State.kept z.1 q := ?_; ?_)
    | intro z
    | lift_lets
    | with_reducible refine kept_choice ?_ (fun _ => ?_)
    | simp only [kept_mk, held_fields]
    | with_reducible refine kept_foldl (fun _ _ _ => ?_) ?_
    | with_reducible refine kept_foldl_pair (fun _ _ _ => ?_) ?_
    | with_reducible refine kept_getD ?_ ?_
    | split
    | refine kept_of_pair (by with_reducible assumption) ?_
    | refine kept_of_some (by with_reducible assumption) ?_
    | (dsimp only [z]; try clear z)

end Sys2Proof.Machine
end

