-- ==== Sys2Proof/Laws/KeptTest.lean ====
section
/-!
SUPPORT. Every operation of Machine/Test.lean keeps the canonical form of the four stores, and the
command queue.
-/

set_option linter.unusedSimpArgs false

namespace Sys2Proof.Machine

variable {q : List Instr}

theorem State.moultBegin_kept {s : State} (hs : s.kept q) :
    (State.moultBegin s).kept q := by
  unfold State.moultBegin
  repeat' first
    | with_reducible assumption
    | with_reducible refine State.set_kept ?_
    | with_reducible refine State.modMoult_kept ?_
    | with_reducible refine kept_choice ?_ (fun _ => ?_)

theorem State.nextPass_kept {s : State} (hs : s.kept q) :
    (State.nextPass s).kept q := by
  unfold State.nextPass
  repeat' first
    | with_reducible assumption
    | with_reducible refine State.modMoult_kept ?_
    | intro z
    | lift_lets
    | with_reducible refine kept_choice ?_ (fun _ => ?_)

theorem execMoultBatch_kept {s : State} (hs : s.kept q) :
    Keeps q (execMoultBatch s) := by
  unfold execMoultBatch
  repeat' first
    | with_reducible assumption
    | (with_reducible show Keeps _ _; lift_lets)
    | with_reducible refine keeps_next ?_
    | with_reducible exact keeps_fault
    | with_reducible refine keeps_choice ?_ ?_
    | (with_reducible show State.kept z q; dsimp only [z]; clear z)
    | (intro z (hz : State.kept z q); try beta_reduce)
    | with_reducible refine State.modArr_kept ?_
    | with_reducible refine State.modMoult_kept ?_
    | with_reducible refine State.moultEnd_kept ?_
    | with_reducible refine State.moultBegin_kept ?_
    | with_reducible refine State.nextPass_kept ?_
    | (intro z; refine have hz : State.kept z q := ?_; ?_)
    | (intro z; refine have hz : State.kept z.1 q := ?_; ?_)
    | intro z
    | lift_lets
    | with_reducible refine kept_choice ?_ (fun _ => ?_)
    | simp only [kept_mk, held_fields]
    | with_reducible refine kept_foldl (fun _ _ _ => ?_) ?_
    | with_reducible refine kept_foldl_pair (fun _ _ _ => ?_) ?_
    | with_reducible refine kept_getD ?_ ?_
    | split
    | refine kept_of_pair (by with_reducible assumption) ?_
    | refine kept_of_some (by with_reducible assumption) ?_
    | (dsimp only [z]; try clear z)

theorem State.testPassed_kept {s : State} {n : ArrayNum} (hs : s.kept q) :
    (State.testPassed s n).kept q := by
  unfold State.testPassed
  repeat' first
    | with_reducible assumption
    | (with_reducible show State.kept z q; dsimp only [z]; clear z)
    | (intro z (hz : State.kept z q); try beta_reduce)
    | with_reducible refine State.set_kept ?_
    | with_reducible refine State.raiseBit_kept ?_
    | with_reducible refine State.arrayHealth_kept ?_
    | (intro z; refine have hz : State.kept z q := ?_; ?_)
    | (intro z; refine have hz : State.kept z.1 q := ?_; ?_)
    | intro z
    | lift_lets
    | with_reducible refine kept_choice ?_ (fun _ => ?_)
    | simp only [kept_mk, held_fields]
    | with_reducible refine kept_foldl (fun _ _ _ => ?_) ?_
    | with_reducible refine kept_foldl_pair (fun _ _ _ => ?_) ?_
    | with_reducible refine kept_getD ?_ ?_
    | split
    | refine kept_of_pair (by with_reducible assumption) ?_
    | refine kept_of_some (by with_reducible assumption) ?_
    | (dsimp only [z]; try clear z)

theorem State.testFailed_kept {s : State} {n : ArrayNum} (hs : s.kept q) :
    (State.testFailed s n).kept q := by
  unfold State.testFailed
  repeat' first
    | with_reducible assumption
    | with_reducible refine State.set_kept ?_
    | with_reducible refine State.condemn_kept ?_
    | with_reducible refine State.modMoult_kept ?_
    | with_reducible refine kept_choice ?_ (fun _ => ?_)

theorem State.testAborted_kept {s : State} {n : ArrayNum} (hs : s.kept q) :
    (State.testAborted s n).kept q := by
  unfold State.testAborted
  repeat' first
    | with_reducible assumption
    | (with_reducible show State.kept z q; dsimp only [z]; clear z)
    | with_reducible refine State.set_kept ?_
    | with_reducible refine State.raiseBit_kept ?_
    | with_reducible refine State.arrayHealth_kept ?_
    | with_reducible refine State.modMoult_kept ?_
    | (intro z; refine have hz : State.kept z q := ?_; ?_)
    | intro z
    | lift_lets
    | with_reducible refine kept_choice ?_ (fun _ => ?_)

theorem State.testResult_kept {s : State} {n : ArrayNum} {r : TestEnd} (hs : s.kept q) :
    (State.testResult s n r).kept q := by
  unfold State.testResult
  repeat' first
    | with_reducible assumption
    | (with_reducible show State.kept z q; dsimp only [z]; clear z)
    | with_reducible refine State.set_kept ?_
    | with_reducible refine State.testPassed_kept ?_
    | with_reducible refine State.testFailed_kept ?_
    | with_reducible refine State.testAborted_kept ?_
    | (intro z; refine have hz : State.kept z q := ?_; ?_)
    | lift_lets
    | split

theorem State.batchEnd_kept {s : State} (hs : s.kept q) :
    (State.batchEnd s).kept q := by
  unfold State.batchEnd
  repeat' first
    | with_reducible assumption
    | with_reducible refine State.ledger_kept ?_
    | with_reducible refine State.moultEnd_kept ?_
    | intro z
    | lift_lets
    | with_reducible refine kept_choice ?_ (fun _ => ?_)
    | split

theorem execArrayTestEnd_kept {n : ArrayNum} {result : TestEnd} {s : State} (hs : s.kept q) :
    Keeps q (execArrayTestEnd n result s) := by
  unfold execArrayTestEnd
  repeat' first
    | with_reducible assumption
    | (with_reducible show Keeps _ _; lift_lets)
    | with_reducible refine keeps_next ?_
    | with_reducible refine State.modArr_kept ?_
    | with_reducible refine State.zeroArray_kept ?_
    | with_reducible refine State.modMoult_kept ?_
    | with_reducible refine State.testResult_kept ?_
    | with_reducible refine State.batchEnd_kept ?_
    | lift_lets
    | with_reducible refine kept_choice ?_ (fun _ => ?_)

theorem execMltRun_kept {c : CmdRef} {s : State} (hs : s.kept q) :
    Keeps q (execMltRun c s) := by
  unfold execMltRun
  repeat' first
    | with_reducible assumption
    | (with_reducible show State.kept z q; dsimp only [z]; clear z)
    | (with_reducible show Keeps _ _; lift_lets)
    | with_reducible refine keeps_next ?_
    | with_reducible refine State.set_kept ?_
    | with_reducible refine State.complete_kept ?_
    | with_reducible refine State.park_kept ?_
    | with_reducible refine State.runCmd_kept ?_ ?_
    | with_reducible refine State.modMoult_kept ?_
    | with_reducible refine State.moultEnd_kept ?_
    | (intro z (hz : State.kept z q); try beta_reduce)
    | (intro z; refine have hz : State.kept z q := ?_; ?_)
    | intro z
    | lift_lets
    | with_reducible refine kept_choice ?_ (fun _ => ?_)

theorem execMltQuery_kept {c : CmdRef} {s : State} (hs : s.kept q) :
    Keeps q (execMltQuery c s) := by
  unfold execMltQuery
  repeat' first
    | with_reducible assumption
    | with_reducible refine keeps_next ?_
    | with_reducible refine State.complete_kept ?_
    | with_reducible refine State.runCmd_kept ?_ ?_
    | (intro z (hz : State.kept z q); try beta_reduce)
    | intro z

theorem State.prbsClear_kept {s : State} {what : Fin 3} (hs : s.kept q) :
    (State.prbsClear s what).kept q := by
  unfold State.prbsClear
  repeat' first
    | with_reducible assumption
    | (with_reducible show State.kept z q; dsimp only [z]; clear z)
    | with_reducible refine State.set_kept ?_
    | (intro z; refine have hz : State.kept z q := ?_; ?_)
    | lift_lets
    | with_reducible refine kept_foldl (fun _ _ _ => ?_) ?_
    | split

theorem execPrbsStart_kept {c : CmdRef} {s : State} (hs : s.kept q) :
    Keeps q (execPrbsStart c s) := by
  unfold execPrbsStart
  repeat' first
    | with_reducible assumption
    | (with_reducible show Keeps _ _; lift_lets)
    | with_reducible refine keeps_next ?_
    | with_reducible refine State.complete_kept ?_
    | with_reducible refine State.runCmd_kept ?_ ?_
    | with_reducible refine State.prbsClear_kept ?_
    | (intro z (hz : State.kept z q); try beta_reduce)
    | intro z
    | lift_lets
    | with_reducible refine kept_choice ?_ (fun _ => ?_)
    | simp only [kept_mk, held_fields]
    | split

theorem State.tickPrbs_kept {s : State} (hs : s.kept q) :
    (State.tickPrbs s).kept q := by
  unfold State.tickPrbs
  repeat' first
    | with_reducible assumption
    | with_reducible refine State.set_kept ?_
    | with_reducible refine State.addTo_kept ?_
    | intro z
    | lift_lets
    | simp only [kept_mk, held_fields]
    | with_reducible refine kept_foldl (fun _ _ _ => ?_) ?_
    | split

theorem execPrbsStop_kept {c : CmdRef} {s : State} (hs : s.kept q) :
    Keeps q (execPrbsStop c s) := by
  unfold execPrbsStop
  repeat' first
    | with_reducible assumption
    | (with_reducible show Keeps _ _; lift_lets)
    | with_reducible refine keeps_next ?_
    | with_reducible refine State.set_kept ?_
    | with_reducible refine State.complete_kept ?_
    | with_reducible refine State.runCmd_kept ?_ ?_
    | (intro z (hz : State.kept z q); try beta_reduce)
    | intro z
    | lift_lets
    | with_reducible refine kept_choice ?_ (fun _ => ?_)
    | simp only [kept_mk, held_fields]
    | split

theorem State.answerNow_kept {s : State} {c : CmdRef} {status : Nat} (hs : s.kept q) :
    (State.answerNow s c status).kept q := by
  unfold State.answerNow
  repeat' first
    | with_reducible assumption
    | with_reducible refine State.send_kept ?_
    | with_reducible refine State.ringWrite_kept ?_
    | intro z
    | lift_lets
    | with_reducible refine kept_choice ?_ (fun _ => ?_)
    | split

theorem State.enterState_kept {s : State} {c : CmdRef} {target : Nat} (hs : s.kept q) :
    (State.enterState s c target).kept q := by
  unfold State.enterState
  repeat' first
    | with_reducible assumption
    | with_reducible refine State.set_kept ?_
    | with_reducible refine State.powerOff_kept ?_
    | with_reducible refine State.fence_kept ?_
    | with_reducible refine State.answerNow_kept ?_
    | intro z
    | lift_lets
    | with_reducible refine kept_choice ?_ (fun _ => ?_)
    | simp only [kept_mk, held_fields]

theorem State.lifecycleStep_kept {s : State} (hs : s.kept q) :
    (State.lifecycleStep s).kept q := by
  unfold State.lifecycleStep
  repeat' first
    | with_reducible assumption
    | with_reducible refine State.enterState_kept ?_
    | with_reducible refine kept_choice ?_ (fun _ => ?_)
    | split

theorem execSecLifecycle_kept {c : CmdRef} {s : State} (hs : s.kept q) :
    Keeps q (execSecLifecycle c s) := by
  unfold execSecLifecycle
  repeat' first
    | with_reducible assumption
    | (with_reducible show Keeps _ _; lift_lets)
    | with_reducible refine keeps_next ?_
    | with_reducible refine State.raiseBit_kept ?_
    | with_reducible refine State.complete_kept ?_
    | with_reducible refine State.park_kept ?_
    | with_reducible refine State.runCmd_kept ?_ ?_
    | with_reducible refine State.settle_kept ?_
    | with_reducible refine State.lifecycleStep_kept ?_
    | (intro z (hz : State.kept z q); try beta_reduce)
    | intro z
    | lift_lets
    | with_reducible refine kept_choice ?_ (fun _ => ?_)

theorem execProvisioning_kept {identity : Identity} {s : State} (hs : s.kept q) :
    Keeps q (execProvisioning identity s) := by
  unfold execProvisioning
  repeat' first
    | with_reducible assumption
    | (with_reducible show Keeps _ _; lift_lets)
    | with_reducible refine keeps_next ?_
    | with_reducible refine State.set_kept ?_
    | lift_lets
    | with_reducible refine kept_choice ?_ (fun _ => ?_)
    | simp only [kept_mk, held_fields]

end Sys2Proof.Machine
end

