-- ==== Sys2Proof/Laws/KeptLinks.lean ====
section
/-!
SUPPORT. Every operation of Machine/Links.lean keeps the canonical form of the four stores, and the
command queue.
-/

set_option linter.unusedSimpArgs false

namespace Sys2Proof.Machine

variable {q : List Instr}

theorem execLinkUp_kept {port : Port} {width speed : Nat} {s : State} (hs : s.kept q) :
    Keeps q (execLinkUp port width speed s) := by
  unfold execLinkUp
  repeat' first
    | with_reducible assumption
    | with_reducible refine keeps_next ?_
    | with_reducible refine State.set_kept ?_
    | with_reducible refine State.takeBank_kept ?_
    | lift_lets
    | with_reducible refine kept_choice ?_ (fun _ => ?_)

theorem State.resetFunction_kept {s : State} {port : Port} (hs : s.kept q) :
    (State.resetFunction s port).kept q := by
  unfold State.resetFunction
  repeat' first
    | with_reducible assumption
    | with_reducible refine State.set_kept ?_
    | with_reducible refine State.endPortSessions_kept ?_
    | with_reducible refine State.msixReset_kept ?_

theorem execLinkDown_kept {port : Port} {s : State} (hs : s.kept q) :
    Keeps q (execLinkDown port s) := by
  unfold execLinkDown
  repeat' first
    | with_reducible assumption
    | with_reducible refine keeps_next ?_
    | with_reducible refine State.dropLink_kept ?_
    | with_reducible refine State.resetFunction_kept ?_
    | lift_lets
    | with_reducible refine kept_choice ?_ (fun _ => ?_)

theorem execPerst_kept {port : Port} {s : State} (hs : s.kept q) :
    Keeps q (execPerst port s) := by
  unfold execPerst
  repeat' first
    | with_reducible assumption
    | with_reducible refine keeps_next ?_
    | with_reducible refine State.dropLink_kept ?_
    | with_reducible refine State.resetFunction_kept ?_
    | lift_lets
    | with_reducible refine kept_choice ?_ (fun _ => ?_)

theorem execD3hot_kept {port : Port} {s : State} (hs : s.kept q) :
    Keeps q (execD3hot port s) := by
  unfold execD3hot
  repeat' first
    | with_reducible assumption
    | with_reducible refine keeps_next ?_
    | with_reducible refine State.set_kept ?_
    | lift_lets
    | with_reducible refine kept_choice ?_ (fun _ => ?_)

theorem execReturnToD0_kept {port : Port} {s : State} (hs : s.kept q) :
    Keeps q (execReturnToD0 port s) := by
  unfold execReturnToD0
  repeat' first
    | with_reducible assumption
    | with_reducible refine keeps_next ?_
    | with_reducible refine State.set_kept ?_
    | lift_lets
    | with_reducible refine kept_choice ?_ (fun _ => ?_)

end Sys2Proof.Machine
end

