-- ==== Sys2Proof/Laws/KeptRowUnit.lean ====
section
/-!
SUPPORT. Every operation of Machine/RowUnit.lean keeps the canonical form of the four stores, and the
command queue.
-/

set_option linter.unusedSimpArgs false

namespace Sys2Proof.Machine

variable {q : List Instr}

theorem State.writeRow_kept {s : State} {n : ArrayNum} {o : RowOps} {res : List FRes} (hs : s.kept q) :
    (State.writeRow s n o res).kept q := by
  unfold State.writeRow
  repeat' first
    | with_reducible assumption
    | with_reducible refine State.modArr_kept ?_
    | with_reducible refine State.noteOverflow_kept ?_

theorem State.row1_kept {s : State} {n : ArrayNum} {o : RowOps} {f : Word → FRes} (hs : s.kept q) :
    (State.row1 s n o f).kept q := by
  unfold State.row1
  repeat' first
    | with_reducible assumption
    | with_reducible refine State.writeRow_kept ?_

theorem State.row2_kept {s : State} {n : ArrayNum} {o : RowOps} {f : Word → Word → FRes} (hs : s.kept q) :
    (State.row2 s n o f).kept q := by
  unfold State.row2
  repeat' first
    | with_reducible assumption
    | with_reducible refine State.writeRow_kept ?_

theorem State.row3_kept {s : State} {n : ArrayNum} {o : RowOps} {f : Word → Word → Word → FRes} (hs : s.kept q) :
    (State.row3 s n o f).kept q := by
  unfold State.row3
  repeat' first
    | with_reducible assumption
    | with_reducible refine State.writeRow_kept ?_

theorem State.rowCompare_kept {s : State} {n : ArrayNum} {o : RowOps} {f : FVal → FVal → Bool} (hs : s.kept q) :
    (State.rowCompare s n o f).kept q := by
  unfold State.rowCompare
  repeat' first
    | with_reducible assumption
    | with_reducible refine State.modArr_kept ?_

theorem State.rowReduce_kept {s : State} {n : ArrayNum} {o : RowOps} {f : Word → Word → FRes} (hs : s.kept q) :
    (State.rowReduce s n o f).kept q := by
  unfold State.rowReduce
  repeat' first
    | with_reducible assumption
    | with_reducible refine State.writeRow_kept ?_

theorem execAdd_kept {n : ArrayNum} {s : State} (hs : s.kept q) :
    Keeps q (execAdd n s) := by
  unfold execAdd
  repeat' first
    | with_reducible assumption
    | with_reducible refine keeps_next ?_
    | (intro i run u hr hu; (repeat' split at hr) <;> cases hr)
    | with_reducible refine issueOut_done ?_
    | with_reducible refine State.issue_kept ?_ ?_
    | with_reducible refine State.row2_kept ?_

theorem execSub_kept {n : ArrayNum} {s : State} (hs : s.kept q) :
    Keeps q (execSub n s) := by
  unfold execSub
  repeat' first
    | with_reducible assumption
    | with_reducible refine keeps_next ?_
    | (intro i run u hr hu; (repeat' split at hr) <;> cases hr)
    | with_reducible refine issueOut_done ?_
    | with_reducible refine State.issue_kept ?_ ?_
    | with_reducible refine State.row2_kept ?_

theorem execMul_kept {n : ArrayNum} {s : State} (hs : s.kept q) :
    Keeps q (execMul n s) := by
  unfold execMul
  repeat' first
    | with_reducible assumption
    | with_reducible refine keeps_next ?_
    | (intro i run u hr hu; (repeat' split at hr) <;> cases hr)
    | with_reducible refine issueOut_done ?_
    | with_reducible refine State.issue_kept ?_ ?_
    | with_reducible refine State.row2_kept ?_

theorem execFma_kept {n : ArrayNum} {s : State} (hs : s.kept q) :
    Keeps q (execFma n s) := by
  unfold execFma
  repeat' first
    | with_reducible assumption
    | with_reducible refine keeps_next ?_
    | (intro i run u hr hu; (repeat' split at hr) <;> cases hr)
    | with_reducible refine issueOut_done ?_
    | with_reducible refine State.issue_kept ?_ ?_
    | with_reducible refine State.row3_kept ?_

theorem execMax_kept {n : ArrayNum} {s : State} (hs : s.kept q) :
    Keeps q (execMax n s) := by
  unfold execMax
  repeat' first
    | with_reducible assumption
    | with_reducible refine keeps_next ?_
    | (intro i run u hr hu; (repeat' split at hr) <;> cases hr)
    | with_reducible refine issueOut_done ?_
    | with_reducible refine State.issue_kept ?_ ?_
    | with_reducible refine State.row2_kept ?_

theorem execMin_kept {n : ArrayNum} {s : State} (hs : s.kept q) :
    Keeps q (execMin n s) := by
  unfold execMin
  repeat' first
    | with_reducible assumption
    | with_reducible refine keeps_next ?_
    | (intro i run u hr hu; (repeat' split at hr) <;> cases hr)
    | with_reducible refine issueOut_done ?_
    | with_reducible refine State.issue_kept ?_ ?_
    | with_reducible refine State.row2_kept ?_

theorem execAbs_kept {n : ArrayNum} {s : State} (hs : s.kept q) :
    Keeps q (execAbs n s) := by
  unfold execAbs
  repeat' first
    | with_reducible assumption
    | with_reducible refine keeps_next ?_
    | (intro i run u hr hu; (repeat' split at hr) <;> cases hr)
    | with_reducible refine issueOut_done ?_
    | with_reducible refine State.issue_kept ?_ ?_
    | with_reducible refine State.row1_kept ?_

theorem execNeg_kept {n : ArrayNum} {s : State} (hs : s.kept q) :
    Keeps q (execNeg n s) := by
  unfold execNeg
  repeat' first
    | with_reducible assumption
    | with_reducible refine keeps_next ?_
    | (intro i run u hr hu; (repeat' split at hr) <;> cases hr)
    | with_reducible refine issueOut_done ?_
    | with_reducible refine State.issue_kept ?_ ?_
    | with_reducible refine State.row1_kept ?_

theorem execCompareLt_kept {n : ArrayNum} {s : State} (hs : s.kept q) :
    Keeps q (execCompareLt n s) := by
  unfold execCompareLt
  repeat' first
    | with_reducible assumption
    | with_reducible refine keeps_next ?_
    | (intro i run u hr hu; (repeat' split at hr) <;> cases hr)
    | with_reducible refine issueOut_done ?_
    | with_reducible refine State.issue_kept ?_ ?_
    | with_reducible refine State.rowCompare_kept ?_

theorem execCompareLe_kept {n : ArrayNum} {s : State} (hs : s.kept q) :
    Keeps q (execCompareLe n s) := by
  unfold execCompareLe
  repeat' first
    | with_reducible assumption
    | with_reducible refine keeps_next ?_
    | (intro i run u hr hu; (repeat' split at hr) <;> cases hr)
    | with_reducible refine issueOut_done ?_
    | with_reducible refine State.issue_kept ?_ ?_
    | with_reducible refine State.rowCompare_kept ?_

theorem execCompareEq_kept {n : ArrayNum} {s : State} (hs : s.kept q) :
    Keeps q (execCompareEq n s) := by
  unfold execCompareEq
  repeat' first
    | with_reducible assumption
    | with_reducible refine keeps_next ?_
    | (intro i run u hr hu; (repeat' split at hr) <;> cases hr)
    | with_reducible refine issueOut_done ?_
    | with_reducible refine State.issue_kept ?_ ?_
    | with_reducible refine State.rowCompare_kept ?_

theorem execSelect_kept {n : ArrayNum} {s : State} (hs : s.kept q) :
    Keeps q (execSelect n s) := by
  unfold execSelect
  repeat' first
    | with_reducible assumption
    | with_reducible refine keeps_next ?_
    | (intro i run u hr hu; (repeat' split at hr) <;> cases hr)
    | with_reducible refine issueOut_done ?_
    | with_reducible refine State.issue_kept ?_ ?_
    | with_reducible refine State.writeRow_kept ?_

theorem execExp2_kept {n : ArrayNum} {s : State} (hs : s.kept q) :
    Keeps q (execExp2 n s) := by
  unfold execExp2
  repeat' first
    | with_reducible assumption
    | with_reducible refine keeps_next ?_
    | (intro i run u hr hu; (repeat' split at hr) <;> cases hr)
    | with_reducible refine issueOut_done ?_
    | with_reducible refine State.issue_kept ?_ ?_
    | with_reducible refine State.row1_kept ?_

theorem execLog2_kept {n : ArrayNum} {s : State} (hs : s.kept q) :
    Keeps q (execLog2 n s) := by
  unfold execLog2
  repeat' first
    | with_reducible assumption
    | with_reducible refine keeps_next ?_
    | (intro i run u hr hu; (repeat' split at hr) <;> cases hr)
    | with_reducible refine issueOut_done ?_
    | with_reducible refine State.issue_kept ?_ ?_
    | with_reducible refine State.row1_kept ?_

theorem execRecip_kept {n : ArrayNum} {s : State} (hs : s.kept q) :
    Keeps q (execRecip n s) := by
  unfold execRecip
  repeat' first
    | with_reducible assumption
    | with_reducible refine keeps_next ?_
    | (intro i run u hr hu; (repeat' split at hr) <;> cases hr)
    | with_reducible refine issueOut_done ?_
    | with_reducible refine State.issue_kept ?_ ?_
    | with_reducible refine State.row1_kept ?_

theorem execRsqrt_kept {n : ArrayNum} {s : State} (hs : s.kept q) :
    Keeps q (execRsqrt n s) := by
  unfold execRsqrt
  repeat' first
    | with_reducible assumption
    | with_reducible refine keeps_next ?_
    | (intro i run u hr hu; (repeat' split at hr) <;> cases hr)
    | with_reducible refine issueOut_done ?_
    | with_reducible refine State.issue_kept ?_ ?_
    | with_reducible refine State.row1_kept ?_

theorem execReduceSum_kept {n : ArrayNum} {s : State} (hs : s.kept q) :
    Keeps q (execReduceSum n s) := by
  unfold execReduceSum
  repeat' first
    | with_reducible assumption
    | with_reducible refine keeps_next ?_
    | (intro i run u hr hu; (repeat' split at hr) <;> cases hr)
    | with_reducible refine issueOut_done ?_
    | with_reducible refine State.issue_kept ?_ ?_
    | with_reducible refine State.rowReduce_kept ?_

theorem execReduceMax_kept {n : ArrayNum} {s : State} (hs : s.kept q) :
    Keeps q (execReduceMax n s) := by
  unfold execReduceMax
  repeat' first
    | with_reducible assumption
    | with_reducible refine keeps_next ?_
    | (intro i run u hr hu; (repeat' split at hr) <;> cases hr)
    | with_reducible refine issueOut_done ?_
    | with_reducible refine State.issue_kept ?_ ?_
    | with_reducible refine State.rowReduce_kept ?_

end Sys2Proof.Machine
end

