-- ==== Sys2Proof/Laws/KeptSampler.lean ====
section
/-!
SUPPORT. Every operation of Machine/Sampler.lean keeps the canonical form of the four stores, and the
command queue.
-/

set_option linter.unusedSimpArgs false

namespace Sys2Proof.Machine

variable {q : List Instr}

theorem State.sampleRead_kept {s : State} {p : PartNum} {a n : Nat} (hs : s.kept q) :
    (State.sampleRead s p a n).1.kept q := by
  unfold State.sampleRead
  split
  · exact State.accessError_kept hs
  · exact State.readThrough_kept hs

theorem sliceLogits_kept {sl : LogitSlice} {m : Model} {r : State × List Byte} (h : r.1.kept q) :
    (sliceLogits sl m r).1.kept q := h

theorem State.readSlice_kept {s : State} {p : PartNum} {m : Model} {slot : Nat} {sl : LogitSlice} (hs : s.kept q) :
    (State.readSlice s p m slot sl).1.kept q :=
  sliceLogits_kept (State.sampleRead_kept hs)

theorem joinReads_kept {α : Type} {before : List α} {r : State × List α} (h : r.1.kept q) :
    (joinReads before r).1.kept q := h

theorem State.readLogits_kept {s : State} {p : PartNum} {m : Model} {slot : Nat} (hs : s.kept q) :
    (State.readLogits s p m slot).1.kept q := by
  unfold State.readLogits
  exact kept_foldl_pair (r := (s, [])) (fun _ _ h => joinReads_kept (State.readSlice_kept h)) hs

theorem State.commitToken_kept {s : State} {i token logprob : Nat} (hs : s.kept q) :
    (State.commitToken s i token logprob).kept q := by
  unfold State.commitToken
  repeat' first
    | with_reducible assumption
    | with_reducible refine State.bump_kept ?_
    | with_reducible refine State.modConv_kept ?_
    | with_reducible refine State.modReq_kept ?_
    | with_reducible refine State.setPhase_kept ?_
    | with_reducible refine State.requestEnded_kept ?_
    | with_reducible refine State.writeRecord_kept ?_
    | intro z
    | lift_lets
    | with_reducible refine kept_choice ?_ (fun _ => ?_)
    | simp only [kept_mk, held_fields]
    | split

theorem State.entryEcc_kept {s : State} {i : Nat} {bad : Bool} (hs : s.kept q) :
    (State.entryEcc s i bad).kept q := by
  unfold State.entryEcc
  repeat' first
    | with_reducible assumption
    | (with_reducible show State.kept z q; dsimp only [z]; clear z)
    | (intro z (hz : State.kept z q); try beta_reduce)
    | with_reducible refine State.report_kept ?_
    | (intro z; refine have hz : State.kept z q := ?_; ?_)
    | (intro z; refine have hz : State.kept z.1 q := ?_; ?_)
    | intro z
    | lift_lets
    | with_reducible refine kept_choice ?_ (fun _ => ?_)
    | simp only [kept_mk, held_fields]
    | with_reducible refine kept_foldl (fun _ _ _ => ?_) ?_
    | with_reducible refine kept_foldl_pair (fun _ _ _ => ?_) ?_
    | with_reducible refine kept_getD ?_ ?_
    | split
    | refine kept_of_pair (by with_reducible assumption) ?_
    | refine kept_of_some (by with_reducible assumption) ?_
    | (dsimp only [z]; try clear z)

theorem State.sampleSlot_kept {s : State} {p : PartNum} {m : Model} {slot i : Nat} (hs : s.kept q) :
    (State.sampleSlot s p m slot i).kept q := by
  unfold State.sampleSlot
  repeat' first
    | with_reducible assumption
    | (with_reducible show State.kept z q; dsimp only [z]; clear z)
    | (intro z (hz : State.kept z q); try beta_reduce)
    | with_reducible refine State.addTo_kept ?_
    | with_reducible refine State.bump_kept ?_
    | with_reducible refine State.raiseBit_kept ?_
    | with_reducible refine State.endRequest_kept ?_
    | with_reducible refine State.leaveStep_kept ?_
    | with_reducible refine State.readLogits_kept ?_
    | with_reducible refine State.commitToken_kept ?_
    | with_reducible refine State.entryEcc_kept ?_
    | (intro z; refine have hz : State.kept z q := ?_; ?_)
    | (intro z; refine have hz : State.kept z.1 q := ?_; ?_)
    | intro z
    | lift_lets
    | with_reducible refine kept_choice ?_ (fun _ => ?_)
    | simp only [kept_mk, held_fields]
    | with_reducible refine kept_foldl (fun _ _ _ => ?_) ?_
    | with_reducible refine kept_foldl_pair (fun _ _ _ => ?_) ?_
    | with_reducible refine kept_getD ?_ ?_
    | split
    | refine kept_of_pair (by with_reducible assumption) ?_
    | refine kept_of_some (by with_reducible assumption) ?_
    | (dsimp only [z]; try clear z)

theorem execSampleJob_kept {p : PartNum} {s : State} (hs : s.kept q) :
    Keeps q (execSampleJob p s) := by
  unfold execSampleJob
  repeat' first
    | with_reducible assumption
    | (with_reducible show Keeps _ _; lift_lets)
    | with_reducible refine keeps_next ?_
    | with_reducible exact keeps_fault
    | with_reducible refine keeps_choice ?_ ?_
    | (with_reducible show State.kept z q; dsimp only [z]; clear z)
    | (intro z (hz : State.kept z q); try beta_reduce)
    | with_reducible refine State.closeStep_kept ?_
    | with_reducible refine State.sampleSlot_kept ?_
    | (intro z; refine have hz : State.kept z q := ?_; ?_)
    | (intro z; refine have hz : State.kept z.1 q := ?_; ?_)
    | intro z
    | lift_lets
    | with_reducible refine kept_choice ?_ (fun _ => ?_)
    | simp only [kept_mk, held_fields]
    | with_reducible refine kept_foldl (fun _ _ _ => ?_) ?_
    | with_reducible refine kept_foldl_pair (fun _ _ _ => ?_) ?_
    | with_reducible refine kept_getD ?_ ?_
    | split
    | refine kept_of_pair (by with_reducible assumption) ?_
    | refine kept_of_some (by with_reducible assumption) ?_
    | (dsimp only [z]; try clear z)

end Sys2Proof.Machine
end

