-- ==== Sys2Proof/Laws/KeptTick.lean ====
section
/-!
SUPPORT. Every operation of Machine/Tick.lean keeps the canonical form of the four stores, and the
command queue.
-/

set_option linter.unusedSimpArgs false

namespace Sys2Proof.Machine

variable {q : List Instr}

theorem State.tickArray_kept {s : State} {n : ArrayNum} (hs : s.kept q) :
    (State.tickArray s n).kept q := by
  unfold State.tickArray
  repeat' first
    | with_reducible assumption
    | (with_reducible show State.kept z q; dsimp only [z]; clear z)
    | (intro z (hz : State.kept z q); try beta_reduce)
    | with_reducible refine State.addTo_kept ?_
    | with_reducible refine State.modArr_kept ?_
    | (intro z; refine have hz : State.kept z q := ?_; ?_)
    | (intro z; refine have hz : State.kept z.1 q := ?_; ?_)
    | intro z
    | lift_lets
    | with_reducible refine kept_choice ?_ (fun _ => ?_)
    | simp only [kept_mk, held_fields]
    | with_reducible refine kept_foldl (fun _ _ _ => ?_) ?_
    | with_reducible refine kept_foldl_pair (fun _ _ _ => ?_) ?_
    | with_reducible refine kept_getD ?_ ?_
    | split
    | refine kept_of_pair (by with_reducible assumption) ?_
    | refine kept_of_some (by with_reducible assumption) ?_
    | (dsimp only [z]; try clear z)

theorem State.tickThrottled_kept {s : State} (hs : s.kept q) :
    (State.tickThrottled s).kept q := by
  unfold State.tickThrottled
  repeat' first
    | with_reducible assumption
    | with_reducible refine State.set_kept ?_
    | with_reducible refine State.modPm_kept ?_
    | intro z
    | lift_lets
    | with_reducible refine kept_choice ?_ (fun _ => ?_)
    | with_reducible refine kept_foldl (fun _ _ _ => ?_) ?_

theorem State.tick_kept {s : State} (hs : s.kept q) :
    (State.tick s).kept q := by
  unfold State.tick
  repeat' first
    | with_reducible assumption
    | (with_reducible show State.kept z q; dsimp only [z]; clear z)
    | with_reducible refine State.patrolLate_kept ?_
    | with_reducible refine State.tickSht_kept ?_
    | with_reducible refine State.settle_kept ?_
    | with_reducible refine State.tickFabric_kept ?_
    | with_reducible refine State.stopGroups_kept ?_
    | with_reducible refine State.applyPlans_kept ?_
    | with_reducible refine State.tickPrbs_kept ?_
    | with_reducible refine State.lifecycleStep_kept ?_
    | with_reducible refine State.tickArray_kept ?_
    | with_reducible refine State.tickThrottled_kept ?_
    | (intro z; refine have hz : State.kept z q := ?_; ?_)
    | lift_lets
    | with_reducible refine kept_choice ?_ (fun _ => ?_)
    | simp only [kept_mk, held_fields]
    | with_reducible refine kept_foldl (fun _ _ _ => ?_) ?_

end Sys2Proof.Machine
end

