-- ==== Sys2Proof/Laws/KeptTransform.lean ====
section
/-!
SUPPORT. Every operation of Machine/Transform.lean keeps the canonical form of the four stores, and the
command queue.
-/

set_option linter.unusedSimpArgs false

namespace Sys2Proof.Machine

variable {q : List Instr}

theorem State.readPixels_kept {n : ArrayNum} {m : MapDesc} {c len : Nat} {l : List (Int × Int)} :
    ∀ {s : State}, s.kept q → (State.readPixels s n m c len l).1.kept q := by
  induction l with
  | nil => intro s h; exact h
  | cons yx rest ih =>
    obtain ⟨y, x⟩ := yx
    intro s h
    unfold State.readPixels
    split
    · dsimp only
      split
      · exact h
      · have h1 := State.unitRead_kept (n := n) (off := m.addr y.toNat x.toNat c) (len := len) h
        split
        · exact kept_of_pair ‹_› h1
        · have h2 := ih (kept_of_pair ‹_› h1)
          split
          · exact kept_of_pair ‹_› h2
          · exact h2
    · have h2 := ih h
      split
      · exact kept_of_pair ‹_› h2
      · exact h2

theorem State.writePieces_kept {s : State} {n : ArrayNum} {ps : List (Nat × List Byte)} (hs : s.kept q) :
    (State.writePieces s n ps).1.kept q := by
  unfold State.writePieces
  repeat' first
    | with_reducible assumption
    | with_reducible refine State.unitWrite_kept ?_
    | simp only [kept_mk, held_fields]
    | with_reducible refine kept_foldl_pair (fun _ _ _ => ?_) ?_

theorem execWxin_kept {n : ArrayNum} {s : State} (hs : s.kept q) :
    Keeps q (execWxin n s) := by
  unfold execWxin
  repeat' first
    | with_reducible assumption
    | (with_reducible show Keeps _ _; lift_lets)
    | with_reducible refine keeps_next ?_
    | (intro i run u hr hu; (repeat' split at hr) <;> cases hr)
    | with_reducible refine issueOut_done ?_
    | with_reducible refine issueOut_fault ?_
    | with_reducible refine issueOut_choice ?_ ?_
    | with_reducible refine State.addTo_kept ?_
    | with_reducible refine State.raiseBit_kept ?_
    | with_reducible refine State.noteConvSat_kept ?_
    | with_reducible refine State.noteNan_kept ?_
    | with_reducible refine State.issue_kept ?_ ?_
    | with_reducible refine State.readPixels_kept ?_
    | with_reducible refine State.writePieces_kept ?_
    | lift_lets
    | with_reducible refine kept_choice ?_ (fun _ => ?_)
    | simp only [kept_mk, held_fields]
    | split
    | refine kept_of_pair (by with_reducible assumption) ?_

theorem execWxout_kept {n : ArrayNum} {s : State} (hs : s.kept q) :
    Keeps q (execWxout n s) := by
  unfold execWxout
  repeat' first
    | with_reducible assumption
    | (with_reducible show Keeps _ _; lift_lets)
    | with_reducible refine keeps_next ?_
    | (intro i run u hr hu; (repeat' split at hr) <;> cases hr)
    | with_reducible refine issueOut_done ?_
    | with_reducible refine issueOut_fault ?_
    | with_reducible refine issueOut_choice ?_ ?_
    | with_reducible refine State.modArr_kept ?_
    | with_reducible refine State.noteOverflow_kept ?_
    | with_reducible refine State.issue_kept ?_ ?_

theorem execPool_kept {n : ArrayNum} {s : State} (hs : s.kept q) :
    Keeps q (execPool n s) := by
  unfold execPool
  repeat' first
    | with_reducible assumption
    | (with_reducible show Keeps _ _; lift_lets)
    | with_reducible refine keeps_next ?_
    | (with_reducible show IssueOut.kept _ _; lift_lets)
    | (intro i run u hr hu; (repeat' split at hr) <;> cases hr)
    | with_reducible refine issueOut_done ?_
    | with_reducible refine issueOut_fault ?_
    | with_reducible refine issueOut_choice ?_ ?_
    | with_reducible refine State.addTo_kept ?_
    | with_reducible refine State.raiseBit_kept ?_
    | with_reducible refine State.noteOverflow_kept ?_
    | with_reducible refine State.noteConvSat_kept ?_
    | with_reducible refine State.noteNan_kept ?_
    | with_reducible refine State.issue_kept ?_ ?_
    | with_reducible refine State.readPixels_kept ?_
    | with_reducible refine State.writePieces_kept ?_
    | lift_lets
    | with_reducible refine kept_choice ?_ (fun _ => ?_)
    | simp only [kept_mk, held_fields]
    | split
    | refine kept_of_pair (by with_reducible assumption) ?_

theorem execArgmax_kept {n : ArrayNum} {s : State} (hs : s.kept q) :
    Keeps q (execArgmax n s) := by
  unfold execArgmax
  repeat' first
    | with_reducible assumption
    | (with_reducible show Keeps _ _; lift_lets)
    | with_reducible refine keeps_next ?_
    | (intro i run u hr hu; (repeat' split at hr) <;> cases hr)
    | with_reducible refine issueOut_done ?_
    | with_reducible refine issueOut_fault ?_
    | with_reducible refine issueOut_choice ?_ ?_
    | with_reducible refine State.addTo_kept ?_
    | with_reducible refine State.raiseBit_kept ?_
    | with_reducible refine State.issue_kept ?_ ?_
    | with_reducible refine State.unitWrite_kept ?_
    | with_reducible refine State.readPixels_kept ?_
    | lift_lets
    | with_reducible refine kept_choice ?_ (fun _ => ?_)
    | simp only [kept_mk, held_fields]
    | split
    | refine kept_of_pair (by with_reducible assumption) ?_

end Sys2Proof.Machine
end

