-- ==== Sys2Proof/Laws/Ledger.lean ====
section
/-!
SUPPORT. Little-endian fields in byte lists, memory as it was laid down, and what a ledger write holds (R356, R358).
-/

namespace Sys2Proof.Machine

/-! ### Fields -/

@[simp] theorem length_leBytes (n v : Nat) : (leBytes n v).length = n := by
  induction n generalizing v with
  | zero => rfl
  | succ n ih => simp [leBytes, ih]

@[simp] theorem length_bytesAt (bs : List Byte) (off n : Nat) : (bytesAt bs off n).length = n := by
  unfold bytesAt
  simp only [List.length_append, List.length_replicate, List.length_take, List.length_drop]
  omega

/-- The number that a number's bytes spell. -/
theorem leNat_leBytes (n v : Nat) : leNat (leBytes n v) = v % 256 ^ n := by
  induction n generalizing v with
  | zero => simp [leBytes, leNat, Nat.mod_one]
  | succ n ih =>
    rw [leBytes, leNat, ih, pow_succ, Nat.mul_comm (256 ^ n), Nat.mod_mul]
    simp

/-- A field in the midst of a byte list. -/
theorem fieldAt_mid (x y z : List Byte) : fieldAt (x ++ (y ++ z)) x.length y.length = leNat y := by
  simp [fieldAt, bytesAt]

/-! ### Memory as it was laid down -/

/-- Where no tier line has been written, memory reads as it lists. -/
theorem byte_plain {s : State} (h : s.tline = []) (x : Nat) : s.byte x = SMap.look 0 s.mem x := by
  simp [State.byte, State.foreignLine, h, SMap.look]

/-- Bytes laid down read back as they are. -/
theorem load_plain {s : State} {a : Nat} {bs : List Byte} (h : s.tline = [])
    (hm : ∀ k, k < bs.length → SMap.look 0 s.mem (a + k) = bs.getD k 0) : s.load a bs.length = bs := by
  refine List.ext_getElem (by simp [State.load]) fun k h1 h2 => ?_
  have e := hm k h2
  rw [List.getD_eq_getElem bs 0 h2] at e
  simpa [State.load, byte_plain h] using e

/-! ### A ledger write -/

/-- A ledger write is as long as it says. -/
theorem length_ledgerBytes {seq claim n draw : Nat} (hn : 16 ≤ n) : (ledgerBytes seq claim n draw).length = n := by
  simp [ledgerBytes]; omega

/-- A copy that reads as a ledger write laid it out holds it validly (R356, R358). -/
theorem copyHolds_ledgerBytes {s : State} {c : ArrayNum × Nat} {off n seq claim draw : Nat} (hn : 16 ≤ n)
    (hl : s.load (ledgerAddr c off) n = ledgerBytes seq claim n draw) (hb : s.badIn (ledgerAddr c off) n = none) :
    s.copyHolds c off n seq claim = true := by
  have hcrc : ∀ w : Word, w.toNat % 256 ^ 4 = w.toNat := fun w => Nat.mod_eq_of_lt w.isLt
  have hlen : (leBytes 8 seq ++ leBytes 4 claim ++ (List.range (n - 16)).map fun k => Config.freeByte (draw + k)).length = n - 4 := by
    simp; omega
  have h1 := fun z => fieldAt_mid [] (leBytes 8 seq) z
  have h2 := fun z => fieldAt_mid (leBytes 8 seq) (leBytes 4 claim) z
  have h3 := fun (x : List Byte) (w : Word) => fieldAt_mid x (leBytes 4 w.toNat) []
  simp only [length_leBytes, leNat_leBytes, List.length_nil, List.nil_append, List.append_nil] at h1 h2 h3
  simp only [State.copyHolds, hl, hb, Option.isNone_none, Bool.true_and, Bool.and_eq_true, beq_iff_eq]
  refine ⟨⟨?_, ?_⟩, ?_⟩
  · simp only [ledgerBytes, List.append_assoc]; exact h1 _
  · simp only [ledgerBytes, List.append_assoc]; exact h2 _
  · unfold ledgerBytes
    rw [List.take_left' hlen]
    conv_lhs => rw [← hlen]
    rw [h3, hcrc]

end Sys2Proof.Machine
end

