-- ==== Sys2Proof/Laws/Memory.lean ====
section
/-!
SUPPORT. Device memory byte by byte: what a read gives after a store and after a clear.
-/

namespace Sys2Proof.Machine

/-- Cells written in order under rising keys, of which only some are taken. -/
theorem look_foldl_cells {P : Nat → Bool} {a : Nat} {bs : List Byte} :
    ∀ {k : Nat} {m : List Host.Cell} (x : Nat),
      SMap.look 0 (((bs.zipIdx k).filter fun c => P c.2).foldl (fun m c => SMap.put 0 m (a + c.2) c.1) m) x
        = if a + k ≤ x ∧ x < a + k + bs.length ∧ P (x - a) = true then bs.getD (x - a - k) 0 else SMap.look 0 m x := by
  induction bs with
  | nil => intro k m x; simp; omega
  | cons b t ih =>
    intro k m x
    rw [List.zipIdx_cons, List.filter_cons]
    by_cases hx : x = a + k
    · subst hx
      have hk : a + k - a = k := by omega
      by_cases hp : P k = true
      · simp only [hp, if_true, List.foldl_cons]
        rw [ih _, if_neg (by omega), if_pos (by simp [hk, hp])]
        simp only [hk, Nat.sub_self, List.getD_cons_zero]
        exact look_put_self
      · simp only [hp, Bool.false_eq_true, if_false]
        rw [ih _, if_neg (by omega), if_neg (by simp [hk, hp])]
    · have step : ∀ {m' : List Host.Cell}, SMap.look 0 m' x = SMap.look 0 m x →
          (SMap.look 0 (((t.zipIdx (k + 1)).filter fun c => P c.2).foldl
            (fun m c => SMap.put 0 m (a + c.2) c.1) m') x) =
          if a + k ≤ x ∧ x < a + k + (b :: t).length ∧ P (x - a) = true then (b :: t).getD (x - a - k) 0
          else SMap.look 0 m x := by
        intro m' hl
        rw [ih x, hl]
        by_cases hc : a + (k + 1) ≤ x ∧ x < a + (k + 1) + t.length ∧ P (x - a) = true
        · rw [if_pos hc, if_pos ⟨by omega, by simp only [List.length_cons]; omega, hc.2.2⟩]
          rw [show x - a - k = (x - a - (k + 1)) + 1 by omega, List.getD_cons_succ]
        · rw [if_neg hc, if_neg]
          simp only [List.length_cons]
          rintro ⟨h1, h2, h3⟩
          exact hc ⟨by omega, by omega, h3⟩
      by_cases hp : P k = true
      · simp only [hp, if_true, List.foldl_cons]
        exact step (look_put_ne hx)
      · simp only [hp, Bool.false_eq_true, if_false]
        exact step rfl

variable {s : State}

/-! ### Tier lines -/

theorem lineKey_congr {t : State} (h1 : t.tierTags = s.tierTags) (h2 : t.coc = s.coc) (l : Nat) :
    t.lineKey l = s.lineKey l := by
  unfold State.lineKey State.keySlot State.ttag; rw [h1, h2]

theorem inTier_iff {x : Nat} : inTier x = true ↔ tierBase ≤ x ∧ x < tierBase + tierSize := by
  simp only [inTier, Bool.and_eq_true, decide_eq_true_eq]

/-- The addresses of a tier line lie in the tier together. -/
theorem inTier_line {x y : Nat} (hx : inTier x = true) (hy : tierBase ≤ y) (h : (y - tierBase) / 64 = (x - tierBase) / 64) :
    inTier y = true := by
  rw [inTier_iff] at *
  have : tierSize = 64 * 0x100000000 := rfl
  omega

/-- What the tier engine shows of a byte of its line. -/
def State.lineByte (s : State) (x : Nat) : Byte :=
  if s.foreignLine ((x - tierBase) / 64) then (s.foreignBytes ((x - tierBase) / 64)).getD (x % 64) 0 else SMap.look 0 s.mem x

theorem byte_eq (x : Nat) : s.byte x = if inTier x = true then s.lineByte x else SMap.look 0 s.mem x := by
  unfold State.byte State.lineByte
  by_cases h : inTier x = true <;> simp [h]

/-- A line whose keys, bytes and mark are those of s shows what it shows in s. -/
theorem lineByte_congr {t : State} (h1 : t.tierTags = s.tierTags) (h2 : t.coc = s.coc) {x : Nat} (hx : tierBase ≤ x)
    (h3 : SMap.look none t.tline ((x - tierBase) / 64) = SMap.look none s.tline ((x - tierBase) / 64))
    (h4 : ∀ y, tierBase ≤ y → (y - tierBase) / 64 = (x - tierBase) / 64 → SMap.look 0 t.mem y = SMap.look 0 s.mem y) :
    t.lineByte x = s.lineByte x := by
  have hk := lineKey_congr h1 h2 ((x - tierBase) / 64)
  have hp : t.plainLine ((x - tierBase) / 64) = s.plainLine ((x - tierBase) / 64) := by
    unfold State.plainLine SMap.slice
    refine List.map_congr_left fun i hi => ?_
    have := List.mem_range.mp hi
    exact h4 _ (by unfold lineBase; omega) (by unfold lineBase; omega)
  unfold State.lineByte State.foreignLine State.foreignBytes
  rw [h3, hk, hp, h4 x hx rfl]

theorem openLine_look (l : Nat) {x : Nat} (hx : tierBase ≤ x) :
    SMap.look 0 (s.openLine l).mem x = if (x - tierBase) / 64 = l then s.lineByte x else SMap.look 0 s.mem x := by
  unfold State.openLine State.lineByte
  by_cases hl : (x - tierBase) / 64 = l
  · subst hl
    by_cases hf : s.foreignLine ((x - tierBase) / 64) = true
    · have e : x - lineBase ((x - tierBase) / 64) = x % 64 := by unfold lineBase tierBase at *; omega
      simp only [hf, if_true]
      rw [look_putAll x,
        dif_pos ⟨by unfold lineBase; omega, by rw [e]; simp; omega⟩]
      simp [e]
    · simp only [hf, Bool.false_eq_true, if_false]
      split <;> rfl
  · rw [if_neg hl]
    split
    · dsimp only
      rw [look_putAll x, dif_neg]
      unfold lineBase
      simp only [List.length_map, List.length_range]
      omega
    · rfl

theorem openLine_look_below (l : Nat) {x : Nat} (hx : x < tierBase) :
    SMap.look 0 (s.openLine l).mem x = SMap.look 0 s.mem x := by
  unfold State.openLine
  split
  · dsimp only
    rw [look_putAll x, dif_neg]
    unfold lineBase; omega
  · rfl

theorem openLine_wf (h : Memory.wf s.mem = true) (l : Nat) : Memory.wf (s.openLine l).mem = true := by
  unfold State.openLine
  split
  · dsimp only
    exact putAll_wf h
  · exact h

/-- Lines opened once each: an opened line's bytes stand as they show, every other byte as before. -/
theorem openLines_look {x : Nat} {ls : List Nat} :
    ∀ {s : State}, ls.Nodup →
      SMap.look 0 (s.openLines ls).mem x =
        if tierBase ≤ x ∧ (x - tierBase) / 64 ∈ ls then s.lineByte x else SMap.look 0 s.mem x := by
  induction ls with
  | nil => intro s _; simp [State.openLines]
  | cons l rest ih =>
    intro s hn
    obtain ⟨hl, hr⟩ := List.nodup_cons.mp hn
    rw [State.openLines, List.foldl_cons, ← State.openLines, ih hr]
    by_cases hx : tierBase ≤ x
    · by_cases e : (x - tierBase) / 64 = l
      · subst e
        rw [if_neg (fun c => hl c.2), if_pos ⟨hx, by simp⟩, openLine_look _ hx, if_pos rfl]
      · have hb : (s.openLine l).lineByte x = s.lineByte x := by
          refine lineByte_congr (by simp) (by simp) hx (by simp) fun y hy hyl => ?_
          rw [openLine_look l hy, if_neg (by omega)]
        have hm : ((x - tierBase) / 64 ∈ l :: rest) ↔ (x - tierBase) / 64 ∈ rest := by simp [e]
        simp only [hm, hb, openLine_look l hx, if_neg e]
    · rw [if_neg (fun c => hx c.1), if_neg (fun c => hx c.1), openLine_look_below l (by omega)]

theorem openLines_wf {ls : List Nat} : ∀ {s : State}, Memory.wf s.mem = true →
    Memory.wf (s.openLines ls).mem = true := by
  induction ls with
  | nil => intro s h; exact h
  | cons l rest ih => intro s h; exact ih (openLine_wf h l)

/-- Lines sealed: a sealed line takes the key that serves it, every other line is as before. -/
theorem sealLines_look {l : Nat} {ls : List Nat} :
    ∀ {s : State},
      (l ∈ ls → (SMap.look none (s.sealLines ls).tline l).map (·.key) = some (s.lineKey l))
      ∧ (l ∉ ls → SMap.look none (s.sealLines ls).tline l = SMap.look none s.tline l) := by
  induction ls with
  | nil => intro s; simp [State.sealLines]
  | cons k rest ih =>
    intro s
    obtain ⟨i1, i2⟩ := ih (s := s.sealLine k)
    have he : (s.sealLine k).lineKey l = s.lineKey l := lineKey_congr rfl rfl l
    rw [State.sealLines, List.foldl_cons, ← State.sealLines]
    by_cases hin : l ∈ rest
    · exact ⟨fun _ => by rw [i1 hin, he], fun c => absurd (List.mem_cons_of_mem k hin) c⟩
    · rw [i2 hin]
      by_cases e : l = k
      · subst e
        refine ⟨fun _ => ?_, fun c => absurd (List.mem_cons_self ..) c⟩
        simp only [State.sealLine]
        rw [look_put_self]; rfl
      · refine ⟨fun c => ?_, fun _ => by simp only [State.sealLine]; exact look_put_ne e⟩
        rcases List.mem_cons.mp c with c | c
        · exact absurd c e
        · exact absurd c hin

/-- A line that carries the key that serves it shows the bytes memory holds. -/
theorem lineByte_own {x : Nat}
    (h : (SMap.look none s.tline ((x - tierBase) / 64)).map (·.key) = some (s.lineKey ((x - tierBase) / 64))) :
    s.lineByte x = SMap.look 0 s.mem x := by
  unfold State.lineByte State.foreignLine
  cases e : SMap.look none s.tline ((x - tierBase) / 64) with
  | none => rw [e] at h; cases h
  | some y => rw [e] at h; simp at h; simp [h]

theorem mem_tierLines {a n l : Nat} :
    l ∈ tierLines a n ↔ ∃ y, a ≤ y ∧ y < a + n ∧ inTier y = true ∧ (y - tierBase) / 64 = l := by
  have hs : tierSize = 64 * 0x100000000 := rfl
  unfold tierLines inTier
  dsimp only
  constructor
  · intro h
    split at h
    · obtain ⟨i, hi, rfl⟩ := List.mem_map.mp h
      have := List.mem_range.mp hi
      refine ⟨max (max a tierBase) (tierBase + 64 * ((max a tierBase - tierBase) / 64 + i)), ?_, ?_, ?_, ?_⟩
      · omega
      · omega
      · simp only [Bool.and_eq_true, decide_eq_true_eq]; omega
      · omega
    · cases h
  · rintro ⟨y, h1, h2, h3, rfl⟩
    simp only [Bool.and_eq_true, decide_eq_true_eq] at h3
    rw [if_pos (by omega)]
    exact List.mem_map.mpr ⟨(y - tierBase) / 64 - (max a tierBase - tierBase) / 64, List.mem_range.mpr (by omega), by omega⟩

theorem nodup_tierLines {a n : Nat} : (tierLines a n).Nodup := by
  unfold tierLines
  dsimp only
  split
  · exact List.Nodup.map (fun x y h => by simpa using h) List.nodup_range
  · exact List.nodup_nil

/-- The bytes of one tier line are storable together. -/
theorem storable_line {a n x : Nat} (hx : inTier x = true) :
    s.storable a n (lineBase ((x - tierBase) / 64)) = s.storable a n x := by
  simp only [inTier, Bool.and_eq_true, decide_eq_true_eq] at hx
  have hp : ∀ y, tierBase ≤ y → y < tierBase + tierSize → protUnit y = 64 := fun y h1 h2 => by
    unfold protUnit; rw [if_pos ⟨h1, h2⟩]
  have h1 := hp x hx.1 hx.2
  have h2 : protUnit (lineBase ((x - tierBase) / 64)) = 64 := hp _ (by unfold lineBase; omega) (by unfold lineBase; omega)
  have h3 : unitOf8 (lineBase ((x - tierBase) / 64)) = unitOf8 x := by
    unfold unitOf8; rw [h1, h2]; unfold lineBase tierBase at *; omega
  unfold State.storable coversUnit
  rw [h3, h1, h2]

/-! ### A read after a write -/

theorem putBytes_look {u : State} (a : Nat) (bs : List Byte) (y : Nat) :
    SMap.look 0 (u.putBytes a bs).mem y =
      if a ≤ y ∧ y < a + bs.length ∧ u.storable a bs.length y = true then bs.getD (y - a) 0 else SMap.look 0 u.mem y := by
  have hc := look_foldl_cells (P := fun i => u.storable a bs.length (a + i)) (a := a) (bs := bs) (k := 0) (m := u.mem) y
  simp only [State.putBytes] at hc ⊢
  rw [hc]
  by_cases hy : a ≤ y
  · simp [show a + (y - a) = y by omega]
  · simp [hy]

theorem storable_openLines (ls : List Nat) (a n x : Nat) : (s.openLines ls).storable a n x = s.storable a n x := by
  unfold State.storable State.badIn State.badWords State.misplaced
  rw [State.openLines_ue, State.openLines_tline]

theorem nodup_storeLines {a n : Nat} : (s.storeLines a n).Nodup := nodup_tierLines.filter _

theorem nodup_tierEnds {a n : Nat} : (tierEnds a n).Nodup := (List.nodup_dedup _).filter _

theorem store_look (a : Nat) (bs : List Byte) (y : Nat) : SMap.look 0 (s.store a bs).mem y =
    if a ≤ y ∧ y < a + bs.length ∧ s.storable a bs.length y = true then bs.getD (y - a) 0
    else if tierBase ≤ y ∧ (y - tierBase) / 64 ∈ s.storeLines a bs.length then s.lineByte y else SMap.look 0 s.mem y := by
  rw [State.store, State.sealLines_mem, putBytes_look, storable_openLines,
    openLines_look nodup_storeLines]

theorem store_line (a : Nat) (bs : List Byte) (l : Nat) :
    (l ∈ s.storeLines a bs.length →
      (SMap.look none (s.store a bs).tline l).map (·.key) = some ((s.store a bs).lineKey l))
    ∧ (l ∉ s.storeLines a bs.length → SMap.look none (s.store a bs).tline l = SMap.look none s.tline l) := by
  have hl := sealLines_look (l := l) (ls := s.storeLines a bs.length)
    (s := (s.openLines (s.storeLines a bs.length)).putBytes a bs)
  rw [State.store, lineKey_congr (State.sealLines_tierTags ..) (State.sealLines_coc ..) l]
  simpa using hl

/-- A byte after a store: the byte stored where its protected unit may be written, and elsewhere the byte before. -/
theorem byte_store (a : Nat) (bs : List Byte) (x : Nat) :
    (s.store a bs).byte x =
      if a ≤ x ∧ x < a + bs.length ∧ s.storable a bs.length x = true then bs.getD (x - a) 0 else s.byte x := by
  rw [byte_eq, byte_eq]
  by_cases hx : inTier x = true
  · have hb : tierBase ≤ x := (inTier_iff.mp hx).1
    simp only [hx, if_true]
    by_cases hl : (x - tierBase) / 64 ∈ s.storeLines a bs.length
    · rw [lineByte_own ((store_line a bs _).1 hl), store_look, if_pos (c := tierBase ≤ x ∧ _) ⟨hb, hl⟩]
    · have ho : ∀ y, tierBase ≤ y → (y - tierBase) / 64 = (x - tierBase) / 64 →
          ¬ (a ≤ y ∧ y < a + bs.length ∧ s.storable a bs.length y = true) := by
        rintro y hy hyl ⟨c1, c2, c3⟩
        have hyt : inTier y = true := inTier_line hx hy hyl
        refine hl (List.mem_filter.mpr ⟨mem_tierLines.mpr ⟨y, c1, c2, hyt, hyl⟩, ?_⟩)
        rw [← hyl, storable_line hyt]; exact c3
      rw [if_neg (ho x hb rfl)]
      refine lineByte_congr (by simp) (by simp) hb ((store_line a bs _).2 hl) fun y hy hyl => ?_
      rw [store_look, if_neg (ho y hy hyl), if_neg (fun c => hl (hyl ▸ c.2))]
  · simp only [hx, Bool.false_eq_true, if_false]
    rw [store_look]
    by_cases hin : a ≤ x ∧ x < a + bs.length ∧ s.storable a bs.length x = true
    · rw [if_pos hin, if_pos hin]
    · rw [if_neg hin, if_neg hin, if_neg]
      rintro ⟨h1, h2⟩
      obtain ⟨y, _, _, hy, hyl⟩ := mem_tierLines.mp (List.mem_filter.mp h2).1
      exact hx (inTier_line hy h1 hyl.symm)

/-- No byte outside the stored range changes. -/
theorem byte_store_outside {a : Nat} {bs : List Byte} {x : Nat} (hx : x < a ∨ a + bs.length ≤ x) :
    (s.store a bs).byte x = s.byte x := by
  rw [byte_store, if_neg (by omega)]

/-! ### A read after a clear -/

theorem clear_look (a n y : Nat) : SMap.look 0 (s.wipe a n).mem y =
    if a ≤ y ∧ y < a + n then 0
    else if tierBase ≤ y ∧ (y - tierBase) / 64 ∈ tierEnds a n then s.lineByte y else SMap.look 0 s.mem y := by
  rw [State.wipe, State.sealLines_mem, State.clearBytes, look_wipe y,
    openLines_look nodup_tierEnds]

theorem clear_line (a n l : Nat) :
    (l ∈ tierEnds a n → (SMap.look none (s.wipe a n).tline l).map (·.key) = some ((s.wipe a n).lineKey l))
    ∧ (l ∉ tierEnds a n → SMap.look none (s.wipe a n).tline l =
        if a ≤ lineBase l ∧ lineBase l + 64 ≤ a + n then none else SMap.look none s.tline l) := by
  have hl := sealLines_look (l := l) (ls := tierEnds a n) (s := (s.openLines (tierEnds a n)).clearBytes a n)
  rw [State.wipe, lineKey_congr (State.sealLines_tierTags ..) (State.sealLines_coc ..) l]
  refine ⟨hl.1, fun c => (hl.2 c).trans ?_⟩
  simp only [State.clearBytes, State.openLines_tline]
  rw [look_filter (P := fun k => !(decide (a ≤ lineBase k) && decide (lineBase k + 64 ≤ a + n))) l]
  by_cases hc : a ≤ lineBase l ∧ lineBase l + 64 ≤ a + n
  · simp [hc]
  · rw [if_neg hc, if_pos (by simpa only [Bool.not_eq_true', Bool.and_eq_false_iff, decide_eq_false_iff_not, not_and_or] using hc)]

/-- A line that a range touches is one of its ends or lies wholly in it. -/
theorem touched_line {a n y : Nat} (hy : inTier y = true) (h1 : a ≤ y) (h2 : y < a + n) :
    (y - tierBase) / 64 ∈ tierEnds a n ∨
      (a ≤ lineBase ((y - tierBase) / 64) ∧ lineBase ((y - tierBase) / 64) + 64 ≤ a + n) := by
  by_cases hc : a ≤ lineBase ((y - tierBase) / 64) ∧ lineBase ((y - tierBase) / 64) + 64 ≤ a + n
  · exact .inr hc
  · refine .inl (List.mem_filter.mpr ⟨List.mem_dedup.mpr ?_,
      by simpa only [Bool.not_eq_true', Bool.and_eq_false_iff, decide_eq_false_iff_not, not_and_or] using hc⟩)
    have hy' := inTier_iff.mp hy
    have hs : tierSize = 64 * 0x100000000 := rfl
    unfold lineBase at hc
    unfold tierLines
    dsimp only
    rw [if_pos (by omega), List.mem_append]
    rw [show (min (a + n) (tierBase + tierSize) - tierBase - 1) / 64 + 1 - (max a tierBase - tierBase) / 64 =
      ((min (a + n) (tierBase + tierSize) - tierBase - 1) / 64 - (max a tierBase - tierBase) / 64) + 1 by omega]
    by_cases hf : (y - tierBase) / 64 = (max a tierBase - tierBase) / 64
    · left; rw [List.range_succ_eq_map]; simp [hf]
    · right; rw [List.range_succ]
      simp only [List.map_append, List.map_cons, List.map_nil, List.getLast?_append, List.getLast?_singleton,
        Option.some_or, Option.toList_some, List.mem_singleton]
      omega

/-- A byte after a clear: zero inside the range, unchanged outside it. -/
theorem byte_wipe (a n x : Nat) :
    (s.wipe a n).byte x = if a ≤ x ∧ x < a + n then 0 else s.byte x := by
  rw [byte_eq, byte_eq]
  by_cases hx : inTier x = true
  · have hb : tierBase ≤ x := (inTier_iff.mp hx).1
    simp only [hx, if_true]
    by_cases hl : (x - tierBase) / 64 ∈ tierEnds a n
    · rw [lineByte_own ((clear_line a n _).1 hl), clear_look, if_pos (c := tierBase ≤ x ∧ _) ⟨hb, hl⟩]
    · have h2 := (clear_line (s := s) a n _).2 hl
      by_cases hc : a ≤ lineBase ((x - tierBase) / 64) ∧ lineBase ((x - tierBase) / 64) + 64 ≤ a + n
      · rw [if_pos hc] at h2
        have hin : a ≤ x ∧ x < a + n := by unfold lineBase at hc; omega
        rw [if_pos hin]
        unfold State.lineByte State.foreignLine
        rw [h2, clear_look, if_pos hin]; rfl
      · rw [if_neg hc] at h2
        have ho : ∀ y, tierBase ≤ y → (y - tierBase) / 64 = (x - tierBase) / 64 → ¬ (a ≤ y ∧ y < a + n) := by
          rintro y hy hyl ⟨c1, c2⟩
          rcases touched_line (inTier_line hx hy hyl) c1 c2 with c | c
          · exact hl (hyl ▸ c)
          · exact hc (hyl ▸ c)
        rw [if_neg (ho x hb rfl)]
        refine lineByte_congr (by simp) (by simp) hb h2 fun y hy hyl => ?_
        rw [clear_look, if_neg (ho y hy hyl), if_neg (fun c => hl (hyl ▸ c.2))]
  · simp only [hx, Bool.false_eq_true, if_false]
    rw [clear_look]
    by_cases hin : a ≤ x ∧ x < a + n
    · rw [if_pos hin, if_pos hin]
    · rw [if_neg hin, if_neg hin, if_neg]
      rintro ⟨h1, h2⟩
      have h3 := List.mem_dedup.mp (List.mem_filter.mp h2).1
      have h4 : (x - tierBase) / 64 ∈ tierLines a n := by
        rcases List.mem_append.mp h3 with c | c
        · exact List.mem_of_mem_head? (by simpa using c)
        · exact List.mem_of_mem_getLast? (by simpa using c)
      obtain ⟨y, _, _, hy, hyl⟩ := mem_tierLines.mp h4
      exact hx (inTier_line hy h1 hyl.symm)

end Sys2Proof.Machine
end

