-- ==== Sys2Proof/Tests/Slice0.lean ====
section
/-!
SUPPORT. Small checks of the model: ill-formed commands, and for every obligation a state and operands that meet the
hypotheses of its clauses (`witness_…`), with what one step then does where it is short to say (`test_…`).
-/

set_option Elab.async false

open Sys2Proof Sys2Proof.Machine

namespace Sys2Proof.Tests

/-! ### Helpers -/

theorem canonOf (s : State)
    (h : (Memory.wf s.mem && Memory.wf s.pcieMem && Lines.wf s.tline && Regs.wf s.regs) = true) : s.canon := by
  simp only [Bool.and_eq_true] at h
  exact ⟨h.1.1.1, h.1.1.2, h.1.2, h.2⟩

/-- A state without uncorrectable words and written tier lines is clean. -/
theorem cleanOf (s : State) (h : (s.ue.isEmpty && s.tline.isEmpty) = true) : s.clean := by
  intro a k
  simp only [Bool.and_eq_true, List.isEmpty_iff] at h
  simp [State.badIn, State.badWords, State.misplaced, h.1, h.2]

/-- Whether an outcome goes on to a state with a property. -/
def after (o : Host.Outcome State Fault Refusal) (p : State → Bool) : Bool :=
  match o with
  | .next t => p t
  | .fault _ => false
  | .refused _ => false

/-- A 128-bit array instruction: class, op, and fields by their lowest bit (R94 to R103). -/
def ins (cls op : Nat) (fields : List (Nat × Nat)) : Nat :=
  cls + 16 * op + (fields.map fun f => f.2 * 2 ^ f.1).sum

/-- The module powered, every stage of its start done. -/
def on : State :=
  { State.reset with
    time := 1000000000000
    board := { State.reset.board with supply := .on, stages := 0x3FFE#14, sections := true, started := true } }

/-- The powered module with both links up. -/
def linked : State := (on.set (F.pciLinkUp 0) 1).set (F.pciLinkUp 1) 1

/-- Array 0 as given, on a powered module. -/
def arr0 (a : ArrayState) : State := { on with arrays := on.arrays.set 0 a }

/-- An array whose kernel runs and has passed its commit point, at offset 0. -/
def kern : ArrayState := { ArrayState.reset with kernel := true, committed := true }

/-- Array 0 runs a kernel whose next instruction, at offset 0, is a word. -/
def runs (w : Nat) (a : ArrayState := kern) : State := (arr0 a).store (spoolBase 0) (leBytes 16 w)

/-- Partition 0 exists and holds group 0. -/
def part0 : Part :=
  { live := true, destroying := false, scrubbing := false, groups := 1, model := none, slotGran := (0, 0), todo := [], leaving := 0 }

/-- Partition 0 holds group 0 and owns granule 0 of array 0's vault. -/
def owned (s : State) : State :=
  let u := s.modArr 0 fun a => { a with vtags := [(0, 0x08#8)] }
  { u with parts := u.parts.set 0 part0 }

/-- The commands of Spindle. -/
def withCmds (s : State) (l : List Cmd) : State := { s with spn := { s.spn with cmds := l } }

/-- An outstanding command. -/
def aCmd (bytes : List Byte) (phase : Phase) (wait : Wait := .none) (src : Source := .pair 0) : Cmd :=
  ⟨⟨src, 0⟩, bytes, [], none, false, phase, wait, none, 0, 0⟩

/-- The 64 bytes of a command: opcode, partition, and arguments by their offset (R332). -/
def bytesOf (op part : Nat) (args : List (Nat × Nat)) : List Byte :=
  leBytes 64 (op + 2 ^ 32 * part + (args.map fun f => f.2 * 2 ^ (8 * f.1)).sum)

/-- Command 0 of pair 0. -/
def c0 : CmdRef := ⟨.pair 0, 0⟩

/-- s with one outstanding command, started. -/
def started (s : State) (op part : Nat) (args : List (Nat × Nat)) : State := withCmds s [aCmd (bytesOf op part args) .started]

/-- Whether a state's first command is started with an opcode and names a partition (or none of 0 to 7). -/
def isStarted (s : State) (op : Nat) (p : Option PartNum) : Bool :=
  match s.spn.cmds with
  | m :: _ => s.cmd c0 == some m && m.phase == .started && m.op == op && m.part? == p && !s.gapHolds
  | [] => false

/-! ### Ill-formed commands -/

theorem test_hostOk_refuses : Instr.wellFormed (.stepPost 0 [(2 ^ 65, 0)]) = false := by decide
theorem test_sizeOk_refuses : Instr.wellFormed (.registerWrite .spindle false 0 3 0) = false := by decide
theorem test_offsetOk_refuses : Instr.wellFormed (.reg64LatchedRead .spindle true 0xFFFD 4) = false := by decide
theorem test_source_refuses : Instr.wellFormed (.burstRequest 1 .hawkmothPort ⟨0, 64⟩) = false := by decide
theorem test_burst_refuses : Instr.wellFormed (.burstRequest 0 .spindle ⟨0, 0⟩) = false := by decide
theorem test_gateOk_refuses : Instr.wellFormed (.gatedWrite .a 1 (.shtShadow 1 9 0 0 0)) = false := by decide
theorem test_recordOk_refuses : Instr.wellFormed (.identityRecheck (some []) none) = false := by decide
theorem test_knots_refuse : Instr.wellFormed (.kntValueWrite .spindle 0 0 0 [0]) = false := by decide
theorem test_slot_refuses : Instr.wellFormed (.commandSlotWrite 0 0 2047 [0, 0] none) = false := by decide
theorem test_bar4_refuses : Instr.wellFormed (.bar4Read 0 0 4097) = false ∧ Instr.wellFormed (.bar4Write 0 0 []) = false := by
  decide
theorem test_estimates_refuse : Instr.wellFormed (.powerEstimate [] 0) = false ∧ Instr.wellFormed (.estimateTrim 0 []) = false
    ∧ Instr.wellFormed (.sensorConversion []) = false := by decide
theorem test_link_refuses : Instr.wellFormed (.linkUp 0 3 1) = false ∧ Instr.wellFormed (.linkUp 0 4 6) = false := by decide
theorem test_nonce_refuses : Instr.wellFormed (.challenge 0 []) = false ∧ Instr.wellFormed (.getMeasurements 0 []) = false
    ∧ Instr.wellFormed (.keyProg 0 0 0 0 .posted []) = false := by decide
theorem test_wellFormed_accepts : Instr.wellFormed (.registerWrite .spindle false 0x4300000 4 1) = true := by decide

/-! ### Array instructions -/

theorem witness_StepOnEmptyQueueTicks : State.reset.pending = [] ∧ State.reset.board.supply ≠ .on := by decide +kernel

theorem witness_EveryStepKeepsStoresCanonical : on.canon ∧ step on = .next on.tick ∧
    (let s := { on with pending := [.start] }
     s.canon ∧ s.pending = .start :: [] ∧ after (step s) (fun t => t.pending == []) = true) :=
  ⟨canonOf _ (by decide +kernel), rfl, canonOf _ (by decide +kernel), rfl, by decide +kernel⟩

theorem witness_QueueIsFirstInFirstOut :
    let s := { on with pending := [.start, .rotation] }
    s.canon ∧ s.pending = .start :: [.rotation] ∧ after (step s) (fun t => t.pending == [.rotation]) = true :=
  ⟨canonOf _ (by decide +kernel), rfl, by decide +kernel⟩

/-- A byte stored whole, one merged into a good unit, and one that a bad unit drops. -/
theorem witness_StoredBytesReadBack :
    (on.store (spoolBase 0) (leBytes 8 0x11)).byte (spoolBase 0) = 0x11#8
    ∧ (({ on with ue := [spoolBase 0] } : State).store (spoolBase 0) [0x11#8]).byte (spoolBase 0) = 0#8
    ∧ (on.store (spoolBase 0 + 3) [0x11#8]).byte (spoolBase 0 + 3) = 0x11#8 := by decide +kernel

/-- A field of 64 bits and one of 32 beside it; the widest field and the narrowest. -/
theorem witness_FieldsReadBackAndKeepApart :
    on.canon ∧ F.shtWindowWindows.lo + F.shtWindowWindows.width ≤ 64 ∧ F.pwrEstPlatform.lo + F.pwrEstPlatform.width ≤ 32
    ∧ (F.shtWindowWindows.key ≠ F.pwrEstPlatform.key ∧ F.shtWindowWindows.key + 4 ≠ F.pwrEstPlatform.key)
    ∧ (F.pwrEstModule.key = F.pwrEstPlatform.key ∧ F.pwrEstModule.lo + F.pwrEstModule.width ≤ F.pwrEstPlatform.lo) :=
  ⟨canonOf _ (by decide +kernel), by decide +kernel⟩

theorem witness_ControlInstructions :
    (runs 0).Issues 0 .nop ∧ (runs (ins 0 7 [(16, 0x3F)])).Issues 0 (.fence 0x3F) ∧ (runs (ins 0 1 [])).Issues 0 .kend
    ∧ (runs (ins 0 2 [(32, 0x7FFFF0)])).Issues 0 (.jump 0x7FFFF0) ∧ (runs (ins 0 2 [(32, 8)])).Issues 0 (.jump 8)
    ∧ (runs (ins 0 3 [(16, 3), (32, 0x40)])).Issues 0 (.loop 3 0x40)
    ∧ (runs (ins 0 4 [(16, 3), (32, 0xFFFF)])).Issues 0 (.setc 3 0xFFFF)
    ∧ (runs (ins 0 5 [(16, 7), (32, 0xFFFFFFFF)])).Issues 0 (.seta 7 0xFFFFFFFF)
    ∧ (runs (ins 0 6 [(16, 7), (32, 1)])).Issues 0 (.adda 7 1)
    ∧ (runs (ins 0 8 [(16, 2047), (32, 5), (64, 9)])).Issues 0 (.kwait 2047 5 9) := by
  unfold State.Issues; decide +kernel

theorem test_adda_wraps :
    after (exec (.adda 0) (runs (ins 0 6 [(16, 7), (32, 2)]) { kern with areg := kern.areg.set 7 0xFFFFFFFF }))
      (fun t => (t.arr 0).a 7 == 1 && (t.arr 0).pc == 16) = true := by decide +kernel

theorem test_loop_counts_down :
    after (exec (.loop 0) (runs (ins 0 3 [(16, 1), (32, 0x40)]) { kern with creg := kern.creg.set 1 1 }))
      (fun t => (t.arr 0).c 1 == 0 && (t.arr 0).pc == 0x40) = true := by decide +kernel

def waits (k : Kwait) (knot : Word) : State := arr0 { kern with kwait := some k, knots := [(3, knot)] }

theorem witness_HeldKwaitEnds :
    let s := waits ⟨3, 5, 9, 9, false⟩ 5
    let u := waits ⟨3, 5, 9, 9, false⟩ 4
    let v := waits ⟨3, 5, 9, 9, true⟩ 5
    ((s.arr 0).kwait = some ⟨3, 5, 9, 9, false⟩ ∧ (s.knot 0 3 - 5).toNat < 2 ^ 31 ∧ (s.arr 0).power = .running
      ∧ (s.arr 0).clockHold = 0 ∧ (s.arr 0).restaging = false)
    ∧ ((u.arr 0).kwait = some ⟨3, 5, 9, 9, false⟩ ∧ ¬ (u.knot 0 3 - 5).toNat < 2 ^ 31 ∧ (9 : Word).toNat ≤ 9)
    ∧ ((v.arr 0).kwait = some ⟨3, 5, 9, 9, true⟩ ∧ (v.knot 0 3 - 5).toNat < 2 ^ 31) := by decide +kernel

/-- A knot just past its value, and one 2^31 past it. -/
theorem witness_KwaitsReachInWrappingOrder :
    let s := waits ⟨3, 0xFFFFFFFF, 9, 9, false⟩ 0
    let u := waits ⟨3, 5, 9, 9, false⟩ (5 + 2 ^ 31)
    ((s.arr 0).kwait = some ⟨3, 0xFFFFFFFF, 9, 9, false⟩ ∧ (s.arr 0).power = .running ∧ (s.arr 0).clockHold = 0
      ∧ (s.arr 0).restaging = false ∧ (s.knot 0 3 - 0xFFFFFFFF).toNat < 2 ^ 31)
    ∧ ((u.arr 0).kwait = some ⟨3, 5, 9, 9, false⟩ ∧ (u.arr 0).power = .running ∧ ¬ (u.knot 0 3 - 5).toNat < 2 ^ 31) := by
  decide +kernel

/-- Operands of a ROW instruction: lanes of mask 0 only, operand b the immediate 1.0. -/
def rowOps : RowOps := ⟨2, 1, 0, 3, 0, true, true, 0x3F800000#32⟩

/-- A ROW word with those operands. -/
def rowWord (op : Nat) : Nat := ins 3 op [(16, 2), (21, 1), (31, 3), (38, 1), (39, 1), (40, 0x3F800000)]

theorem witness_RowInstructions : ∀ k : Fin 18, (runs (rowWord k.val)).Issues 0 (.row (rowKinds[k.val]) rowOps) := by
  unfold State.Issues; decide +kernel

theorem witness_RowInstructions_compares :
    (runs (rowWord 8)).Issues 0 (.row .cmpLt rowOps) ∧ (runs (rowWord 0x11)).Issues 0 (.row .reduceMax rowOps) := by
  unfold State.Issues; decide +kernel

/-- 1.0 + 1.0 = 2.0 in every lane that mask 0 chooses. -/
theorem test_add :
    after (exec (.add 0) (runs (rowWord 0) ((kern.setV 1 (List.replicate 64 0x3F800000#32)).setM 0 1#64)))
      (fun t => (t.arr 0).lane 2 0 == 0x40000000#32 && (t.arr 0).lane 2 1 == 0) = true := by decide +kernel

/-- −0 equals +0 in a compare (R71). -/
theorem test_compareEq_zeros :
    after (exec (.compareEq 0) (runs (ins 3 0xA [(16, 2), (21, 1), (26, 4)]) (kern.setV 1 (List.replicate 64 0x80000000#32))))
      (fun t => (t.arr 0).m 0 == 0xFFFFFFFFFFFFFFFF#64) = true := by decide +kernel

def stgOps (count : Nat) : StgOps := ⟨true, 0, 0x100, 0, 1, 0, count⟩
def stgWord (count src : Nat) : Nat := ins 1 0 [(16, src), (32, 0x100), (68, 1), (75, count)]
/-- An MMA of pair 0 from plane 0 of bank 0 into half 0, rows 127 and on, act stride 3. -/
def mmaOps (acc : Bool) : MmaOps := ⟨0, false, false, 0, 0, 0, 127, 1, acc, 0, 0x200, 3, 0, 0, 0⟩
def mmaWord (acc : Nat) : Nat := ins 2 0 [(30, 127), (44, acc), (48, 0x200), (72, 3)]
def staged : ArrayState := { kern with bankPair := kern.bankPair.set 0 (some 0), planes := [(0, some (.spool 0x100))] }

theorem witness_StagingAndPassesIssue :
    ((runs (stgWord 32 1)).Issues 0 (.stg (stgOps 32)) ∧ 0 + 32 ≤ (pairInfo (pairOf 0)).planes)
    ∧ ((runs (stgWord 33 1)).Issues 0 (.stg (stgOps 33)) ∧ (pairInfo (pairOf 0)).planes < 0 + 33)
    ∧ ((owned (runs (stgWord 1 0))).Issues 0 (.stg { stgOps 1 with fromSpool := false })
        ∧ ((owned (runs (stgWord 1 0))).atIssue 0).stagerDenied 0 0x100 49152 = none)
    ∧ ((runs (mmaWord 0) staged).Issues 0 (.mma (mmaOps false)) ∧ staged.bankPair[0] = some 0
        ∧ (SMap.look none staged.planes 0).isSome = true
        ∧ (((runs (mmaWord 0) staged).atIssue 0).passRows 0 (mmaOps false) (pairInfo 0) 1 0).2.toOption.isSome = true)
    ∧ ((runs (mmaWord 1)).Issues 0 (.mma (mmaOps true)) ∧ kern.bankPair[0] ≠ some 0) := by
  unfold State.Issues; decide +kernel

def pass (rows : List (List Byte × List Byte)) : MmaOp :=
  ⟨0, 0, false, false, 0, 0, 0, 127, 1, rows, [], true, false, 0⟩

theorem witness_AccumulatorLanding :
    let a := { kern with mmaQ := [pass [([], [])]] }
    ((arr0 a).arr 0).mmaQ = [pass [([], [])]] ∧ (arr0 a).unitsRun 0 = true := by decide +kernel

theorem witness_StagingDone :
    let a := { kern with stgQ := [⟨0, 1, 0, 1, 0, [.spool 0x100]⟩] }
    ((arr0 a).arr 0).stgQ = [⟨0, 1, 0, 1, 0, [.spool 0x100]⟩] ∧ (arr0 a).unitsRun 0 = true
      ∧ ((arr0 a).arr 0).restaging = false
      ∧ ∀ p ∈ (PlaneSrc.spool 0x100).pieces 0 0, (arr0 a).badIn p.1 p.2 = none := by decide +kernel

/-- cvt of v1 to bf16 at the last place of the spool that holds 64 elements. -/
def cvtOps (off : Nat) : CvtOps := ⟨1, 0, 1, 1, false, 0, 0, off, 0, 0, 0⟩
def cvtWord (off : Nat) : Nat := ins 4 0 [(16, 1), (22, 1), (38, off)]

theorem witness_ConversionsAndMoves :
    ((runs (cvtWord 0x7FFF80)).Issues 0 (.cvt (cvtOps 0x7FFF80))
      ∧ spoolOk 0x7FFF80 8 (((runs (cvtWord 0x7FFF80)).atIssue 0).cvtResult 0 (cvtOps 0x7FFF80)).elems.length = true
      ∧ (((runs (cvtWord 0x7FFF80)).atIssue 0).cvtResult 0 (cvtOps 0x7FFF80)).scales = [])
    ∧ ((runs (cvtWord 0x7FFF88)).Issues 0 (.cvt (cvtOps 0x7FFF88))
      ∧ spoolOk 0x7FFF88 8 (((runs (cvtWord 0x7FFF88)).atIssue 0).cvtResult 0 (cvtOps 0x7FFF88)).elems.length = false)
    ∧ ((runs (ins 5 0 [(16, 31), (21, 4), (28, 0x7FFFC0)])).Issues 0 (.load 31 4 0 0x7FFFC0) ∧ spoolOk 0x7FFFC0 8 64 = true
      ∧ (runs (ins 5 0 [(16, 31), (21, 4), (28, 0x7FFFC0)])).badIn (spoolBase 0 + 0x7FFFC0) 64 = none)
    ∧ ((runs (ins 5 0 [(21, 4), (28, 0x7FFFC8)])).Issues 0 (.load 0 4 0 0x7FFFC8) ∧ spoolOk 0x7FFFC8 8 64 = false)
    ∧ (runs (ins 5 1 [(16, 28), (21, 1), (22, 127), (31, 3)]) { kern with accTag := [(255, .int32)] }).Issues 0 (.accrd 28 1 127 0 4)
    ∧ (runs (ins 5 1 [(21, 1), (22, 127)])).Issues 0 (.accrd 0 1 127 0 1) := by
  unfold State.Issues; decide +kernel

/-- A put of the spool's last line to a tier address. -/
def rmoOps (kind : RmoKind) (loc : Nat) : RmoOps := ⟨kind, 0, 0, 0, loc, 2048, tierBase, 1⟩
def rmoWord (op loc : Nat) : Nat := ins 6 op [(24, loc), (48, 2048), (65, tierBase)]

theorem witness_RemoteOperationsIssue :
    (runs (rmoWord 0 0x7FFFC0)).Issues 0 (.rmo (rmoOps .put 0x7FFFC0)) ∧ (runs (rmoWord 1 0x40)).Issues 0 (.rmo (rmoOps .get 0x40))
    ∧ (runs (rmoWord 2 0x40)).Issues 0 (.rmo (rmoOps .putSignal 0x40))
    ∧ (runs (rmoWord 3 0x40)).Issues 0 (.rmo (rmoOps .atomicAdd 0x40))
    ∧ ((runs (rmoWord 0 0x20)).Issues 0 (.rmo (rmoOps .put 0x20)) ∧ ¬ 0x20 % 64 = 0) := by
  unfold State.Issues; decide +kernel

def remote (op : RmoOp) : State := arr0 { kern with rmoQ := [op] }

/-- One operation in flight, aimed at array 1's vault. -/
def rmoOp (k : RmoKind) (f : Option Nat) : RmoOp := ⟨0, k, false, 0x100, vaultBase 1, 1, 2049, f, [], [], 0⟩

theorem witness_RemoteOperationsComplete :
    ∀ k ∈ [RmoKind.put, .get, .putSignal, .atomicAdd], ∀ f ∈ [none, some 3],
      (remote (rmoOp k f)).unitsRun 0 = true ∧ ((remote (rmoOp k f)).arr 0).rmoQ = [rmoOp k f]
      ∧ (rmoOp k f).early = [] ∧ (rmoOp k f).under = [] ∧ 2049 / 2048 = 1 := by decide +kernel

theorem witness_RemoteOperationsComplete_clean (k : RmoKind) (f : Option Nat) : (remote (rmoOp k f)).clean :=
  cleanOf _ rfl

/-- Through window 0, whose port is down here: puts, and a get whose read times out. -/
theorem witness_RemoteOperationsComplete_windows :
    regionOf (vaultBase 1) = .vault 1 0 ∧ regionOf 0xC000000000 = .window 0 0 ∧
    ∀ k ∈ [RmoKind.put, .get, .putSignal],
      let op := { rmoOp k none with remote := 0xC000000000 }
      (remote op).unitsRun 0 = true ∧ ((remote op).arr 0).rmoQ = [op] ∧ op.failed = none ∧ regionOf op.remote = .window 0 0
        ∧ (remote op).flag (F.pciLinkUp ((remote op).windowPort 0)) = false := by decide +kernel

theorem witness_RemoteOperationsComplete_canon (op : RmoOp) : (remote op).canon :=
  canonOf (remote op)
    (show (Memory.wf on.mem && Memory.wf on.pcieMem && Lines.wf on.tline && Regs.wf on.regs) = true by decide +kernel)

/-- A get brings a byte of another vault to the spool. -/
theorem test_get :
    after (exec (.rmoComplete 0 [] .ok) ((remote (rmoOp .get none)).store (vaultBase 1) [7]))
      (fun t => t.byte (spoolBase 0 + 0x100) == 7 && (t.arr 0).rmoQ == []) = true := by decide +kernel

theorem witness_RowStatistics :
    (runs (ins 7 0 [(30, 127)])).Issues 0 (.rsInit 127 1)
    ∧ (runs (ins 7 1 [(20, 30), (25, 1), (30, 5)])).Issues 0 (.rsMax 30 1 5)
    ∧ (runs (ins 7 2 [(25, 1), (30, 5)])).Issues 0 (.rsSum 1 5)
    ∧ (runs (ins 7 3 [(20, 30), (30, 5)])).Issues 0 (.rsFinal 30 5)
    ∧ (runs (ins 7 4 [(25, 1), (30, 5)])).Issues 0 (.rsLoad 1 5)
    ∧ (runs (ins 7 5 [(20, 31), (30, 5)])).Issues 0 (.rsStore 31 5)
    ∧ (f32IsNaN (kern.rsM 5) = false ∧ f32IsNaN (kern.rsL 5) = false ∧ (f32 (kern.rsL 5)).eqv (.fin false 0 0) = true)
    ∧ f32IsNaN ((kern.setRs 5 0x7FC00000#32 0 0).rsM 5) = true
    ∧ (f32 ((kern.setRs 5 0 0x3F800000#32 0).rsL 5)).eqv (.fin false 0 0) = false := by
  unfold State.Issues; decide +kernel

def pstageOps : PstageOps := ⟨false, false, 0, 0, 1, 0, 0x100, false, 32, false, 0⟩
def pstageWord : Nat := ins 7 6 [(35, 0x100), (60, 1)]
def pcloseOps (src : Nat) : PcloseOps := ⟨false, 0, src, 0, 0x2000, 32⟩
def pcloseWord (src : Nat) : Nat := ins 7 7 [(24, src), (51, 0x2000), (75, 1)]
/-- An array whose frames take 0x1000 bytes each. -/
def paged (w : Nat) : State := (owned (runs w)).set (F.attFrameBytesFrameBytes 0) 64

theorem witness_PagesStageAndClose :
    ((paged pstageWord).Issues 0 (.pstage pstageOps) ∧ spoolOk 0x100 4 4 = true
      ∧ (paged pstageWord).badIn (spoolBase 0 + 0x100) 4 = none
      ∧ ((((paged pstageWord).atIssue 0).correct (spoolBase 0 + 0x100) 4 6).pageUnits 0 pstageOps [0, 0, 0, 0]).toOption = some [0])
    ∧ ((runs pstageWord).Issues 0 (.pstage pstageOps)
      ∧ (((runs pstageWord).atIssue 0).correct (spoolBase 0 + 0x100) 4 6).pageUnits 0 pstageOps [0, 0, 0, 0] = .error 0)
    ∧ ((runs (pcloseWord 0x1000)).Issues 0 (.pclose (pcloseOps 0x1000)) ∧ spoolOk 0x1000 64 2048 = true
      ∧ spoolOk 0x2000 64 (unitBytes false 32) = true)
    ∧ ((runs (pcloseWord 0x7FF840)).Issues 0 (.pclose (pcloseOps 0x7FF840)) ∧ spoolOk 0x7FF840 64 2048 = false) := by
  unfold State.Issues; decide +kernel

/-! ### Transforms, kernels, knots, clears -/

/-- Array 0 with maps 0 and 1 of 8 × 64 pixels of 256 bytes, at spool offsets 0x40000 and 0x80000. -/
def mapped (w : Nat) (a : ArrayState := kern) : State :=
  [0, 1].foldl (fun s d =>
    ((((s.set (F.cnvMapBaseBase 0 d) (0x1000 * (d + 1))).set (F.cnvMapStridePxStride 0 d) 4).set (F.cnvMapStrideLnStride 0 d)
      256).set (F.cnvMapSizeHeight 0 d) 8).set (F.cnvMapSizeWidth 0 d) 64) (runs w a)

/-- wxin of map 0 (fmt 0 int8, fmt 3 bf16), channel group cgrp. -/
def wxinOps (fmt cgrp : Nat) : WxinOps := ⟨fmt, 0, 0, cgrp, 0, 0x100000, 2, 0, 0x200000, 1⟩
def wxinWord (fmt cgrp : Nat) : Nat :=
  ins 7 0 [(16, 1), (20, fmt), (28, cgrp), (37, 0x100000), (61, 2), (74, 0x200000), (98, 1)]

def wxinGood (fmt cgrp : Nat) : Bool :=
  let s := mapped (wxinWord fmt cgrp)
  let m := (s.atIssue 0).mapDesc 0 0
  let e := mapElem fmt
  let nn := if fmt = 0 then 4 else 6
  m.serves ((64 * cgrp + 64) * e) &&
    ((patch 0 0 nn nn).all fun p => !m.inside p.1 p.2 || decide (m.addr p.1.toNat p.2.toNat (64 * cgrp * e) + 64 * e ≤ spoolSize)) &&
    ((List.range (nn * nn)).all fun p => spoolOk (0x100000 + p * 2 * 64) 64 (64 * e)) &&
    ((List.range 16).all fun p => spoolOk (0x200000 + p * 1 * 32) 4 4)

theorem witness_TransformsAndPooling_wxin :
    (∀ f ∈ [0, 1, 2, 3], (mapped (wxinWord f 1)).Issues 0 (.wxin (wxinOps f 1)) ∧ wxinGood f 1 = true) ∧
    (mapped (wxinWord 0 3)).Issues 0 (.wxin (wxinOps 0 3)) ∧ wxinGood 0 3 = true ∧
    (mapped (wxinWord 0 4)).Issues 0 (.wxin (wxinOps 0 4)) ∧
    (((mapped (wxinWord 0 4)).atIssue 0).mapDesc 0 0).serves ((64 * 4 + 64) * 1) = false := by
  unfold State.Issues; decide +kernel

/-- wxout of F(2×2) over accumulator rows 112 to 127 into registers 28 to 31. -/
def wxoutOps : WxoutOps := ⟨false, 0, 112, 1, 3, 28⟩
def wxoutWord : Nat := ins 7 1 [(16, 1), (22, 112), (29, 1), (36, 3), (38, 28)]

theorem witness_TransformsAndPooling_wxout :
    let a := { kern with accTag := (List.range 16).map fun p => (112 + p, .fp32) }
    ((runs wxoutWord a).Issues 0 (.wxout wxoutOps) ∧ ∀ p < 4 * 4, 112 + p * 1 ≤ 127 ∧ SMap.look .unwritten a.accTag (0 * 128 + (112 + p * 1)) = .fp32)
    ∧ ((runs wxoutWord).Issues 0 (.wxout wxoutOps) ∧ SMap.look .unwritten kern.accTag (0 * 128 + (112 + 0 * 1)) ≠ .fp32) := by
  unfold State.Issues; decide +kernel

/-- pool of 64 outputs, maximum, window 1 × 1; argmax of the 255 channels of pixel (0, 0). -/
def poolOps : PoolOps := ⟨false, false, 0, 0, 1, 0, 0, 1, 1, 1, 1, 0, 0, 64⟩
def poolWord : Nat := ins 7 2 [(16, 1), (27, 1), (57, 63)]
def argmaxOps : ArgmaxOps := ⟨0, 0, 1, 0, 255, false, 1⟩
def argmaxWord : Nat := ins 7 3 [(16, 1), (25, 1), (31, 254)]

theorem witness_TransformsAndPooling_pool :
    let src := ((mapped poolWord).atIssue 0).mapDesc 0 0
    let dst := ((mapped poolWord).atIssue 0).mapDesc 0 1
    (mapped poolWord).ue = [] ∧ (mapped poolWord).ce = [] ∧
    (mapped poolWord).Issues 0 (.pool poolOps) ∧ src.serves 64 = true ∧ dst.serves 64 = true
    ∧ (∀ j < 64, dst.inside (0 : Nat) ((0 + j : Nat) : Int) = true ∧ dst.addr 0 (0 + j) 0 + 64 * 1 ≤ spoolSize)
    ∧ (∀ j < 64, src.addr 0 j 0 + 64 ≤ spoolSize)
    ∧ (mapped argmaxWord).Issues 0 (.argmax argmaxOps) ∧ src.serves 255 = true ∧ dst.px ≠ 0
    ∧ src.inside 0 0 = true ∧ src.addr 0 0 0 + 255 ≤ spoolSize := by
  unfold State.Issues; decide +kernel

/-- Maps without a pixel stride serve no pool and no argmax. -/
theorem witness_TransformsAndPooling_noMap :
    (runs poolWord).Issues 0 (.pool poolOps) ∧ (((runs poolWord).atIssue 0).mapDesc 0 0).serves 64 = false
    ∧ (runs argmaxWord).Issues 0 (.argmax argmaxOps) ∧ (((runs argmaxWord).atIssue 0).mapDesc 0 1).px = 0 := by
  unfold State.Issues; decide +kernel

theorem witness_TransformsAndPooling_clean (w : Nat) : (mapped w).clean := cleanOf _ rfl

/-- Equal channels: argmax names the lowest (R234). -/
theorem test_argmax_ties :
    after (exec (.argmax 0) ((mapped argmaxWord).store (spoolBase 0 + 0x40000) [1, 9, 3, 9]))
      (fun t => t.byte (spoolBase 0 + 0x80000) == 1) = true := by decide +kernel

theorem witness_KernelStartAndEnd :
    (linked.mayAct (.host 0) 0 ∧ (1#32).getLsbD 0 = true ∧ on.busy 0 = false ∧ on.flag (F.arrStatusFault 0) = false)
    ∧ ((arr0 kern).mayAct .spindle 0 ∧ (arr0 kern).busy 0 = true)
    ∧ (let s := arr0 { kern with ending := true }
       (s.arr 0).ending = true ∧ (s.arr 0).quiet = true ∧ s.unitsRun 0 = true ∧ s.calm)
    ∧ (let s := arr0 { kern with pend := some ⟨1, 0, 0x40, 0⟩ }
       (s.arr 0).pend = some ⟨1, 0, 0x40, 0⟩ ∧ (s.arr 0).quiet = true ∧ s.calm
         ∧ (s.events.entries.filter fun e => e.body.source == 0 && e.queued).length < 31)
    ∧ (let s := arr0 { staged with restaging := true }
       (s.arr 0).restaging = true ∧ (s.arr 0).power = .running ∧ SMap.look none (s.arr 0).planes 0 = some (.spool 0x100)
         ∧ (s.arr 0).bankPair[(half2 (0 / 64)).val] = some 0) := by
  unfold State.mayAct State.calm; decide +kernel

/-- The one plane held was staged from the spool, which no tag denies. -/
theorem witness_KernelStartAndEnd_restage : let s := arr0 { staged with restaging := true }
    ∀ k src pair, k < 128 → SMap.look none (s.arr 0).planes k = some src →
      (s.arr 0).bankPair[(half2 (k / 64)).val] = some pair → s.sourceDenied 0 pair src = none := by
  intro s k src pair _ h _
  have e : (s.arr 0).planes = [(0, some (.spool 0x100))] := by decide +kernel
  rw [e] at h
  simp only [SMap.look] at h
  split at h <;> simp at h
  subst h
  rfl

theorem witness_KernelStartAndEnd_clean : (arr0 { staged with restaging := true }).clean := cleanOf _ rfl

theorem witness_KernelStartAndEnd_command :
    let m := aCmd (List.replicate 64 0) .running (.kernels (BitVec.ofNat 64 (2 ^ 0)) 0)
    let s := withCmds (arr0 { kern with ending := true }) [m]
    s.spn.cmds = [m] ∧ m.wait = .kernels (BitVec.ofNat 64 (2 ^ 0)) 0 ∧ (∀ p, (s.part p).todo = []) ∧ (s.arr 0).ending = true
      ∧ (s.arr 0).quiet = true ∧ s.unitsRun 0 = true ∧ after (exec (.kernelEnd 0) s) (fun t => t.busy 0 == false) = true := by
  decide +kernel

theorem witness_KnotsSignalledAndWritten :
    (linked.mayAct (.peer 1) 63 ∧ on.busy 63 = false)
    ∧ ((arr0 kern).mayAct .reel 0 ∧ (arr0 kern).busy 0 = true) := by
  unfold State.mayAct; decide +kernel

/-- Requesters other than Spindle cross every gate. -/
theorem witness_passes (s : State) (q : Requester) (h : q ≠ .spindle) : s.passes q := fun e => absurd e h

theorem witness_crosses (s : State) (q : Requester) (b off : Nat) (h : q ≠ .spindle) : s.crosses q b off :=
  fun _ => witness_passes s q h

/-- An increment of 0xFFFF on knot 2047 that stands at 0xFFFFFFFF wraps. -/
theorem test_kntSignal :
    after (exec (.kntSignal .reel 0 0xFFFF07FF) (arr0 { kern with knots := [(2047, 0xFFFFFFFF)] }))
      (fun t => t.knot 0 2047 == 0xFFFE) = true := by decide +kernel

def clears (c : VClear) : State := arr0 { ArrayState.reset with clear := c, vtags := [(383, 0x40)] }
def clearRegs (first count : Nat) : State := (on.set (F.vltClearFirstFirst 0) first).set (F.vltClearCountCount 0) count

theorem witness_VaultClears :
    (let s := clearRegs 383 1
     nonSecure .spindle = false ∧ s.powered 0 = true ∧ (s.arr 0).clear = .none ∧ 0 < s.get (F.vltClearCountCount 0)
       ∧ s.get (F.vltClearFirstFirst 0) + s.get (F.vltClearCountCount 0) ≤ 384)
    ∧ (let s := clearRegs 383 2
       384 < s.get (F.vltClearFirstFirst 0) + s.get (F.vltClearCountCount 0) ∧ (clearRegs 0 0).get (F.vltClearCountCount 0) = 0)
    ∧ (nonSecure (.host 1) = true ∧ (portOf (.host 1)).all (fun p => linked.portLive p) = true ∧ linked.powered 0 = true)
    ∧ (let s := clears (.held 383 1)
       (s.arr 0).clear = .held 383 1 ∧ (s.arr 0).kernel = false ∧ (s.arr 0).restaging = false ∧ (s.arr 0).scrubbing = false
         ∧ (s.arr 0).test = .none ∧ s.accessPending (vaultBase 0 + 383 * 0x400000) (1 * 0x400000) = false)
    ∧ (let s := clears (.running 383 1)
       (s.arr 0).clear = .running 383 1 ∧ (s.arr 0).kernel = false ∧ (s.arr 0).restaging = false
         ∧ (s.arr 0).scrubbing = false ∧ (s.arr 0).test = .none ∧ s.calm) := by
  unfold State.calm; decide +kernel

def tierClear (started : Bool) (rekey : Bool) : State :=
  { on with tierClears := [{ first := 65535, count := 1, rekey := rekey, slot := 8, started := started }] }

theorem witness_TierClearsAndPatrol :
    (let s := ((on.set F.tierClearFirstFirst 65535).set F.tierClearCountCount 1).set F.tierClearCountSlot 8
     s.tierClears.length < 16 ∧ 0 < s.get F.tierClearCountCount
       ∧ s.get F.tierClearFirstFirst + s.get F.tierClearCountCount ≤ 65536 ∧ s.get F.tierClearCountSlot ≤ 8)
    ∧ ¬ 0 < on.get F.tierClearCountCount
    ∧ (tierClear false false).tierClears.length = 1 ∧ (tierClear false true).tierClears.length = 1
    ∧ (tierClear false true).accessPending (tierBase + 65535 * 0x400000) (1 * 0x400000) = false
    ∧ (tierClear true true).calm
    ∧ ((on.set (F.vltPatrolCtlEnable 0) 0).flag (F.vltPatrolCtlEnable 0) && on.usable 0) = false
    ∧ (let s := on.set (F.vltPatrolCtlEnable 0) 1
       (s.flag (F.vltPatrolCtlEnable 0) && s.usable 0) = true)
    ∧ (let s := (on.set F.tierPatrolCtlEnable 1).set F.tierStatusReady 1
       (s.flag F.tierPatrolCtlEnable && s.flag F.tierStatusReady) = true) := by
  unfold State.calm; decide +kernel

/-! ### Registers, commands, partitions and memory -/

/-- The conditions of RegisterFieldsFollowTheirClasses on a register, with a field of a class. -/
def plainReg (s : State) (b off : Nat) (c : Access) : Bool :=
  decide (b < 0x100) && decide (off < 0x80000) && decide (off % 4 = 0) && !s.windowDead b && (s.msixAt b off).isNone
    && !absentReg b off && !(decide (b < 64) && decide (0x4000 ≤ off) && decide (off < 0x6000))
    && !(b == 0x40 && off % 0x80 == 0)
    && (findReg (windowRegs b) off).any fun h => !h.row.wide && (h.row.fields.all fun f => f.access != .wo)
      && h.row.fields.any fun f => f.access == c

theorem witness_RegisterFieldsFollowTheirClasses :
    nonSecure .spindle = false ∧ plainReg on 0 0 .w1c = true ∧ plainReg on 0 0x10 .rwl = true ∧ on.locked 0 0x10 = false
      ∧ (arr0 kern).locked 0 0x10 = true ∧ plainReg on 0 0x20 .ro = true ∧ plainReg on 0x40 16 .rw = true
      ∧ plainReg on 0x43 4352 .rws = true := by decide +kernel

theorem witness_BadRegisterAccesses :
    ((portOf (.host 0)).all (fun p => linked.portLive p) = true ∧ (2 ≠ 4 ∨ 0 % 4 ≠ 0) ∧ (4 ≠ 4 ∨ 0xFFFFE % 4 ≠ 0))
    ∧ ((portOf .spindle).all (fun p => linked.portLive p) = true ∧ linked.windowDead 0xFF = true)
    ∧ (let s := linked.set F.mltUnusableUnusable 1
       s.windowDead 0 = true ∧ (portOf (.peer 1)).all (fun p => s.portLive p) = true)
    ∧ (portOf (.host 0) = some 0 ∧ on.portLive 0 = false) := by decide +kernel

/-- A write of a byte changes no register. -/
theorem test_registerWrite_narrow :
    after (exec (.registerWrite .spindle false 0x10 1 5) on) (fun t => t.get (F.arrKernelEntryEntry 0) == 0) = true := by
  decide +kernel

/-- The conditions of LatchesKeepWideReadsWhole on a register. -/
def wideReg (s : State) (b off : Nat) (rwl : Bool) : Bool :=
  decide (b < 0x100) && decide (off + 4 < 0x80000) && decide (off % 4 = 0) && !s.windowDead b && (s.msixAt b off).isNone
    && (s.msixAt b (off + 4)).isNone && !absentReg b off && !absentReg b (off + 4) && (s.liveValue b off).isNone
    && !(decide (b < 64) && decide (0x4000 ≤ off) && decide (off < 0x6000)) && !(b == 0x40 && off % 0x80 == 0)
    && (findReg (windowRegs b) off).any fun h => h.row.wide && !h.high
      && findReg (windowRegs b) (off + 4) == some { h with high := true }
      && (!rwl || (match h.row.fields with
        | [f] => f.access == .rwl && !s.locked b off
        | _ => false))

theorem witness_LatchesKeepWideReadsWhole : wideReg on 0 0x24 false = true ∧ wideReg on 0x4D 4100 true = true := by
  decide +kernel

/-- The powered module, links up, pair 0 enabled and rung n times, Spindle ready. -/
def ringing (n : Nat) : State :=
  ((linked.set F.spnStatusLomletReady 1).set (F.spnMbCtlEnable 0) 1).set (F.spnMbRungRung 0) n

theorem witness_DoorbellRule :
    (linked.portLive 0 = true ∧ linked.pairOn 0 0 = true)
    ∧ (let s := ringing 0xFFFFFFF0
       let t := s.set (F.spnMbTakenTaken 0) 0xFFFFFFF0
       s.portLive 0 = true ∧ s.pairOn 0 0 = true ∧ t.pairOn 0 0 = true
         ∧ (t.pairEnabled 0 = true ∧ (0x10 - t.rung 0).toNat ≤ 32 ∧ (0x10 - t.taken 0).toNat ≤ 32)
         ∧ ¬ (0x11 - t.rung 0).toNat ≤ 32 ∧ t.rung 0 = 0xFFFFFFF0) := by decide +kernel

theorem witness_PairRegistersAndSlots :
    (linked.portLive 0 = true ∧ linked.pairOn 0 15 = true
      ∧ linked.slotWaits 15 31 = false ∧ (ringing 1).slotWaits 0 0 = true ∧ (ringing 1).pairOn 0 0 = true)
    ∧ (linked.pairEnabled 15 = false ∧ linked.pairBusy 15 = false
      ∧ (started (ringing 1) 0x101 0xFF []).pairBusy 0 = true)
    ∧ (0 - linked.consumedGood 0 0).toNat ≤ (linked.produced 0 0 - linked.consumedGood 0 0).toNat
    ∧ ¬ (1 - linked.consumedGood 0 1).toNat ≤ (linked.produced 0 1 - linked.consumedGood 0 1).toNat := by decide +kernel

def withLedger (s : State) : State := { s with twn := { s.twn with ledger := { s.twn.ledger with placed := true } } }

theorem witness_CommandsTakenInOrder :
    ((ringing 1).takesCommands = true ∧ (ringing 1).nextSource = some 0 ∧ (ringing 1).twn.ledger.placed = false)
    ∧ ((withLedger (ringing 1)).nextSource = some 0 ∧ (withLedger (ringing 1)).twn.ledger.placed = true)
    ∧ (let u := withLedger (ringing 0)
       let s := { u with spn := { u.spn with mgmtQ := [(1, bytesOf 0x101 0xFF [], [])] } }
       s.takesCommands = true ∧ s.nextSource = some 16 ∧ s.nextFrame = some (1, bytesOf 0x101 0xFF [], [])
         ∧ s.nextSource ≠ some (0 : PairNum).val)
    ∧ ((ringing 1).nextSource ≠ some (1 : PairNum).val ∧ (ringing 1).nextSource ≠ some 16)
    ∧ on.takesCommands = false := by decide +kernel

def waitingCmd (op part : Nat) (args : List (Nat × Nat)) : State :=
  withCmds (ringing 1) [aCmd (bytesOf op part args) .waiting]

theorem witness_CommandsStartOrFailTheirChecks :
    (let m := aCmd (bytesOf 0x101 0xFF []) .waiting
     let s := waitingCmd 0x101 0xFF []
     s.startsCommands = true ∧ s.nextStart = some m ∧ s.cmd m.ref = some m ∧ s.checkCmd m = none)
    ∧ (let m := aCmd (bytesOf 0xFFFF 0xFF []) .waiting
       let s := waitingCmd 0xFFFF 0xFF []
       s.startsCommands = true ∧ s.nextStart = some m ∧ s.cmd m.ref = some m ∧ s.checkCmd m = some stDenied)
    ∧ on.startsCommands = false ∧ (ringing 0).nextStart = none
    ∧ (∃ m ∈ (started (ringing 1) 0x101 0xFF []).spn.cmds, m.phase = .started)
    ∧ (∀ m, (waitingCmd 0x101 0xFF []).cmd c0 = some m → m.phase ≠ .started ∨ m.op ≠ 0x101 ∨ (waitingCmd 0x101 0xFF []).gapHolds = true)
    ∧ (∀ m, (started on 0x101 0xFF []).cmd c0 = some m → m.phase ≠ .started ∨ m.op ≠ 0x102 ∨ (started on 0x101 0xFF []).gapHolds = true) := by
  refine ⟨by decide +kernel, by decide +kernel, by decide +kernel, by decide +kernel, by decide +kernel, ?_, ?_⟩
  case refine_2 =>
    intro m h
    have e : (started on 0x101 0xFF []).cmd c0 = some (aCmd (bytesOf 0x101 0xFF []) .started) := by decide +kernel
    rw [e] at h
    cases h
    decide +kernel
  intro m h
  have e : (waitingCmd 0x101 0xFF []).cmd c0 = some (aCmd (bytesOf 0x101 0xFF []) .waiting) := by decide +kernel
  rw [e] at h
  cases h
  decide

def completed (src : Source) : State :=
  let m : Cmd := { aCmd (bytesOf 0x101 0xFF []) .queued .none src with comp := some ⟨stOk, [], 5, false⟩ }
  let s := withCmds (ringing 1) [m]
  { s with spn := { s.spn with writer := [m.ref] } }

theorem witness_CompletionsWritten :
    (let s := completed (.pair 0)
     let m : Cmd := { aCmd (bytesOf 0x101 0xFF []) .queued with comp := some ⟨stOk, [], 5, false⟩ }
     s.writerHeld = false ∧ s.board.fenced = false ∧ m.comp = some ⟨stOk, [], 5, false⟩
       ∧ (s.spn.writer.filterMap fun r => if r.src = .pair 0 then s.cmd r else none) = [m] ∧ s.ringRoom 0 0 = true)
    ∧ (let u := (completed (.pair 0)).set (F.spnMbCtlEnable 0) 0
       u.ringRoom 0 0 = false ∧ u.writerHeld = false ∧ u.board.fenced = false)
    ∧ (let s := completed (.mgmt 1)
       (s.spn.writer.filterMap fun r => if r.src = .mgmt 1 then s.cmd r else none).length = 1 ∧ s.writerHeld = false)
    ∧ ({ on with board := { on.board with fenced := true } } : State).board.fenced = true := by decide +kernel

theorem witness_DeviceCommands :
    isStarted (started on 0x101 0xFF []) 0x101 none = true ∧ isStarted (started on 0x102 0xFF []) 0x102 none = true
    ∧ isStarted (started on 0x103 0xFF []) 0x103 none = true ∧ isStarted (started on 0x104 0xFF []) 0x104 none = true
    ∧ (isStarted (started on 0x105 0xFF []) 0x105 none = true ∧ ∀ x ∈ (started on 0x105 0xFF []).spn.cmds, x.wait ≠ .drain)
    ∧ (let m := aCmd (bytesOf 0x104 0xFF []) .running .drain
       let s := withCmds (on.set F.spnStatusDraining 1) [m]
       s.flag F.spnStatusDraining = true ∧ s.flag F.spnStatusDrained = false ∧ s.drainDone = true ∧ s.gapHolds = false ∧ s.board.update.draining = false ∧ s.cmd c0 = some m
         ∧ (∀ x ∈ s.spn.cmds, x.wait = .drain ∧ x.ref = c0))
    ∧ ({ on with arrays := on.arrays.set 63 kern } : State).drainDone = false
    ∧ (on.set F.twnStatusGap 1).gapHolds = true := by decide +kernel

/-- PART_CREATE of partition 7 with group 0, sequences, map entries and no pools. -/
def createCmd (part : Nat) : State := started on 0x201 part [(8, 1), (10, 16384), (12, 262144), (28, 1), (30, 1), (32, 1), (34, 1)]

theorem witness_PartitionsAreCreated :
    (isStarted (createCmd 7) 0x201 (some 7) = true
      ∧ ((createCmd 7).spn.cmds.map fun m => (createCmd 7).createCheck 7 (createArgs m)) = [stOk])
    ∧ (let s := started on 0x201 7 [(8, 0)]
       isStarted s 0x201 (some 7) = true ∧ (s.spn.cmds.map fun m => s.createCheck 7 (createArgs m)) = [stBad]) := by
  decide +kernel

/-- Partition 0 with group 0 on the powered module. -/
def tenant : State := owned on

theorem witness_PartitionsAreBoundAndShared :
    (let s := started tenant 0x203 0 [(8, 15)]
     isStarted s 0x203 (some 0) = true ∧ s.pairEnabled 15 = false ∧ s.pairHolds 15 = false ∧ s.pairPart 15 = none)
    ∧ (let s := started (tenant.set (F.spnMbCtlEnable 15) 1) 0x203 0 [(8, 15)]
       isStarted s 0x203 (some 0) = true ∧ s.pairEnabled 15 = true)
    ∧ isStarted (started tenant 0x203 0 [(8, 16)]) 0x203 (some 0) = true
    ∧ (let s := started ((tenant.set (F.spnMbStatusBound 1) 1).set (F.spnMbStatusPartition 1) 0) 0x204 0 [(8, 1)]
       isStarted s 0x204 (some 0) = true ∧ s.pairPart 1 = some 0 ∧ s.pairEnabled 1 = false ∧ s.pairHolds 1 = false
         ∧ s.pairPart 2 ≠ some 0 ∧ (s.set (F.spnMbCtlEnable 1) 1).pairEnabled 1 = true)
    ∧ (let s := started (tenant.set (F.shtIStatActive 0) 1) 0x205 0 []
       isStarted s 0x205 (some 0) = true ∧ s.shtActive 0 = true ∧ s.shtActive 3 = false)
    ∧ isStarted (started tenant 0x206 0 []) 0x206 (some 0) = true := by decide +kernel

/-- Array 7 of the partition still runs a remote operation. -/
def leaving (op : Nat) : State :=
  let s := started tenant op 0 []
  { s with arrays := s.arrays.set 7 { kern with rmoQ := [⟨0, .put, false, 0, tierBase, 1, 0, none, [], [], 0⟩] } }

def scrubbed (op : Nat) : State :=
  let s := clears (.running 0 384)
  let u := withCmds s [aCmd (bytesOf op 0 []) .running (.scrub 0)]
  { u with parts := u.parts.set 0 { part0 with destroying := true, scrubbing := true } }

theorem witness_PartitionsEndByScrub :
    (∀ op ∈ [0x202, 0x806], isStarted (leaving op) op (some 0) = true ∧ (∀ x ∈ (leaving op).spn.cmds, x.wait = .none)
      ∧ (∀ q, ((leaving op).part q).todo = []) ∧ (leaving op).seqRange 0 = [] ∧ (leaving op).vidOf 0 = []
      ∧ 7 ∈ (leaving op).arraysOf 0 ∧ ((leaving op).arr 7).quiet = false)
    ∧ (∀ op ∈ [0x202, 0x806], (scrubbed op).spn.cmds = [aCmd (bytesOf op 0 []) .running (.scrub 0)]
      ∧ ((scrubbed op).part 0).scrubbing = true ∧ (∀ q, ((scrubbed op).part q).todo = []) ∧ (scrubbed op).tierClears = []
      ∧ (scrubbed op).gapHolds = false ∧ ((scrubbed op).arr 0).clear = .running 0 384 ∧ ((scrubbed op).arr 0).kernel = false
      ∧ ((scrubbed op).arr 0).restaging = false ∧ ((scrubbed op).arr 0).scrubbing = false ∧ ((scrubbed op).arr 0).test = .none
      ∧ (∀ k ∈ (scrubbed op).scrubArrays 0, k ≠ 0 → ((scrubbed op).arr k).clear = .none)
      ∧ (∀ k : ArrayNum, (scrubbed op).bit F.mltCondemnedCondemned k = false)) := by decide +kernel

/-- Partition 0 owns the last tier granule a partition may own. -/
def tiered : State := { tenant with tierTags := [(0xFEFF, 0x08#8)] }

theorem witness_TierGranulesAndDoors :
    (let s := started tiered 0x301 0 [(8, 0xFEFF)]
     isStarted s 0x301 (some 0) = true ∧ s.tierRun 0xFEFF = some 0 ∧ s.tierRun 0xFF00 = none
       ∧ isStarted (started tiered 0x301 0 []) 0x301 (some 0) = true)
    ∧ (let s := started tiered 0x302 0 [(8, 0xFEFF), (12, 1)]
       isStarted s 0x302 (some 0) = true ∧ s.ownsTier 0 0xFEFF = true ∧ s.granulesHeld 0 0xFEFF 1 = false
         ∧ (∀ q, (s.part q).todo = []) ∧ s.tierClears.length < 16 ∧ s.ownsTier 0 0xFEFE = false)
    ∧ (let a := tierBase + 0xFEFF * 0x400000
       let s := started (tiered.set (F.pciLinkBifurcated 0) 1) 0x303 0 [(8, 15), (9, 1), (10, 1), (16, a), (24, 0x400000)]
       isStarted s 0x303 (some 0) = true ∧ s.portOk 1 = true ∧ apertureOk a 0x400000 = true ∧ s.ownsAll 0 a 0x400000 = true
         ∧ s.aperture 1 15 = .closed ∧ apertureOk 1 0x400000 = false ∧ apertureOk tierBase 0x400000 = true
         ∧ s.ownsAll 0 tierBase 0x400000 = false)
    ∧ (let s := started tiered 0x304 0 [(8, 15), (9, 1), (10, 0), (16, 4096), (24, 0x10000000)]
       isStarted s 0x304 (some 0) = true ∧ s.portOk 0 = true ∧ s.get (F.pciWinCtlKind 15) = 0 ∧ s.windowBusy 15 = false)
    ∧ (let u := (tiered.set (F.pciWinCtlKind 15) 1).set (F.pciWinCtlPartition 15) 1
       u.get (F.pciWinCtlKind 15) = 1 ∧ u.get (F.pciWinCtlPartition 15) ≠ 0) := by decide +kernel

/-- A model for array 0 alone in partition 0: two tokens, one kernel of one nop. -/
def image (map : DWord) : ModelImage :=
  ⟨map, [⟨0, 0, 0, 0, 0, [(0, List.replicate 16 0)], []⟩], 2, false, []⟩

theorem witness_ModelsAndKernelsRun_models :
    (let s := started tenant 0x305 0 [(8, vaultBase 0), (16, 64)]
     isStarted s 0x305 (some 0) = true ∧ s.ownsAll 0 (vaultBase 0) 64 = true ∧ (image 0xFF).usableMap.toNat = mapOf (s.arraysOf 0)
       ∧ s.imageOk 0 (image 0xFF) = true ∧ (∀ x ∈ (image 0xFF).arrays, s.kvFits 0 x = true)
       ∧ (∀ k ∈ s.arraysOf 0, s.busy k = false) ∧ (s.ue.isEmpty && s.tline.isEmpty) = true
       ∧ (∀ x ∈ (image 0xFF).arrays, s.usable x.array = true))
    ∧ (let s := started (tenant.set (F.pciWinCtlKind 0) 1) 0x305 0 [(8, 0xC000000000), (16, 64)]
       isStarted s 0x305 (some 0) = true ∧ s.isSealed 0 = false ∧ s.inHostWindow 0 0xC000000000 64 = true
         ∧ (image 0xFF).usableMap.toNat = mapOf (s.arraysOf 0) ∧ s.imageOk 0 (image 0xFF) = true)
    ∧ (let u := started (tenant.set F.mltUnusableUnusable 1) 0x305 0 [(8, vaultBase 0), (16, 64)]
       u.usable 0 = false ∧ isStarted u 0x305 (some 0) = true)
    ∧ (let s := started tenant 0x306 0 []
       isStarted s 0x306 (some 0) = true ∧ (∀ i ∈ s.seqRange 0, s.request i = none) ∧ ∀ n ∈ s.arraysOf 0, (s.arr n).kernel = false)
    ∧ ((owned (arr0 kern)).arr 0).kernel = true := by decide +kernel

theorem witness_ModelsAndKernelsRun_kernels :
    (let s := started tenant 0x307 0 [(8, 0xFF), (16, 0x7FFFF0)]
     isStarted s 0x307 (some 0) = true ∧ 0x7FFFF0 % 16 = 0
       ∧ (∀ n : ArrayNum, (0xFF#64).getLsbD n = true → s.inPart 0 n = true ∧ s.powered n = true ∧ s.busy n = false
          ∧ s.flag (F.arrStatusFault n) = false) ∧ s.inPart 0 8 = false)
    ∧ (let s := started tenant 0x308 0 [(8, 7 * 2048 + 2047), (12, 1)]
       isStarted s 0x308 (some 0) = true ∧ (7 * 2048 + 2047) / 2048 = (7 : ArrayNum).val ∧ s.inPart 0 7 = true
         ∧ s.usable 7 = true ∧ s.busy 7 = false ∧ s.inPart 0 8 = false ∧ (owned (arr0 kern)).busy 0 = true) := by decide +kernel

/-- The first aperture of port 0 on array 0's granule 0, which partition 0 owns. -/
def windowed : State :=
  let s := owned linked
  { s with apertures := [(0, .opened 0 (vaultBase 0) 0x400000)] }

theorem witness_Bar4ReachesOwnedMemoryOnly :
    let s := windowed
    s.portLive 0 = true ∧ s.aperture (0 : Port).val (0x3FFFFF / 0x100000000) = .opened 0 (vaultBase 0) 0x400000
    ∧ regionOf (vaultBase 0 + 0x3FFFFF) = .vault 0 0x3FFFFF ∧ s.usable 0 = true ∧ s.tagAt (vaultBase 0 + 0x3FFFFF) = some 0x08#8
    ∧ tagOwned 0x08#8 = true ∧ tagPart 0x08#8 = 0 ∧ tagSecure 0x08#8 = false ∧ tagClearing 0x08#8 = false
    ∧ tagPlatform 0x08#8 = false ∧ s.ce = [] ∧ 0x3FFFFF % 0x400000 + 1 ≤ 0x400000 ∧ 0x3FFFFF + 1 ≤ 0x400000
    ∧ s.aperture (0 : Port).val (0xF00000000 / 0x100000000) = .closed
    ∧ ¬ (s.portLive 0 = false ∨ 0x1000000000 ≤ 0xFFFFFFFFF) ∧ tagAllowsHost 1 0x08#8 = false ∧ tagAllowsHost 0 0x40#8 = false
    ∧ (s.set F.mltUnusableUnusable 1).usable 0 = false := by decide +kernel

theorem witness_Bar4ReachesOwnedMemoryOnly_clean : windowed.clean := cleanOf _ rfl

/-- The last byte of an aperture is stored. -/
theorem test_bar4Write_last :
    after (exec (.bar4Write 0 0x3FFFFF [7]) windowed) (fun t => t.byte (vaultBase 0 + 0x3FFFFF) == 7) = true := by decide +kernel
/-! ### Update, twin halves, records, connector, management -/

/-- A snapshot that half A wrote. -/
def snap0 : Snap := { seq := 1, upTo := 0, claim := 2, cmds := [], counts := [], saved := linked.saved }

/-- The module with half A active and B cold standby, its ledger placed with one snapshot, serving. -/
def serving : State :=
  let s := (((((linked.set F.twnStatusStateA 2).set F.twnStatusStateB 0).set F.twnStatusActiveHalf 0).set F.twnGateClaimClaim 2).set
    F.twnClaimAClaim 2).set F.spnStatusLomletReady 1
  { s with twn := { s.twn with
      powered := Vector.ofFn fun i : Fin 2 => i.val == 0
      ledger := { s.twn.ledger with placed := true, snaps := s.twn.ledger.snaps.set 0 (some snap0) } } }

/-- s with a snapshot of claim 2 and sequence number 1 in the first area of array 0's ledger copy, and the code of Spindle
in its place. -/
def imaged (s : State) : State :=
  { s with mem := SMap.putAll 0 (SMap.putAll 0 [] (ledgerAddr (0, 383) 0) (ledgerBytes 1 2 0x180000 0)) codeAddr s.spindleCode }

theorem imaged_canon {s : State} (h : s.canon) : (imaged s).canon := ⟨putAll_wf (putAll_wf rfl), h.2⟩

theorem imaged_clean {s : State} (h : s.ue = [] ∧ s.tline = []) : (imaged s).clean :=
  cleanOf _ (by simp [imaged, h.1, h.2])

theorem imaged_codeGood {s : State} (h : s.ue = [] ∧ s.tline = []) : (imaged s).codeGood = true := by
  have hl : (imaged s).load codeAddr Config.codeLength = s.spindleCode := by
    have e : Config.codeLength = s.spindleCode.length := (length_bytesAt _ _ _).symm
    rw [e]
    refine load_plain (bs := s.spindleCode) h.2 fun k hk => ?_
    simp [imaged, look_putAll, hk]
  have hs : (imaged s).spindleCode = s.spindleCode := rfl
  simp only [State.codeGood, imaged_clean h _ _, hl, hs, Option.isNone_none, Bool.true_and, beq_self_eq_true]

theorem imaged_holds {s : State} (h : s.ue = [] ∧ s.tline = []) :
    (imaged s).copyHolds (0, 383) 0 0x180000 1 2 = true := by
  refine copyHolds_ledgerBytes (draw := 0) (by decide) ?_ (imaged_clean h _ _)
  have e : 0x180000 = (ledgerBytes 1 2 0x180000 0).length := (length_ledgerBytes (by decide)).symm
  conv_lhs => rw [e]
  refine load_plain (bs := ledgerBytes 1 2 0x180000 0) h.2 fun k hk => ?_
  have hk' : k < 0x180000 := e ▸ hk
  have hlow : ledgerAddr (0, 383) 0 + k < codeAddr := by
    have : ledgerAddr (0, 383) 0 + 0x180000 ≤ tierBase := by decide
    unfold codeAddr; omega
  have hn : ¬ codeAddr ≤ ledgerAddr (0, 383) 0 + k := by omega
  simp only [imaged, look_putAll, hn, false_and, dite_false]
  simp [hk]

/-- Where the ledger knows that snapshot and no other, it is the newest. -/
theorem imaged_newest {s : State} {x : Snap} (h : s.ue = [] ∧ s.tline = [])
    (hc : (s.ledgerCopies.any (· == (0, 383))) = true) (h0 : s.twn.ledger.snaps[0] = some x) (h1 : s.twn.ledger.snaps[1] = none)
    (hx : x.seq = 1 ∧ x.claim = 2) : (imaged s).newestSnap = some x := by
  have hr : (imaged s).ledgerReads 0 0x180000 x.seq x.claim = true := by
    rw [hx.1, hx.2]
    obtain ⟨c, hm, he⟩ := List.any_eq_true.mp hc
    exact List.any_eq_true.mpr ⟨c, hm, (beq_iff_eq.mp he) ▸ imaged_holds h⟩
  have a0 : (imaged s).snapAt 0 = some x := by
    show Option.filter _ s.twn.ledger.snaps[0] = _
    rw [h0]
    simpa using hr
  have a1 : (imaged s).snapAt 1 = none := by
    show Option.filter _ s.twn.ledger.snaps[1] = _
    rw [h1]; rfl
  simp only [State.newestSnap, a0, a1]

theorem imaged_valid {s : State} {x : Snap} (hn : (imaged s).newestSnap = some x) (hp : s.twn.ledger.placed = true) :
    (imaged s).ledgerValid = true ∧ (imaged s).restorable.isSome = true := by
  have hp' : (imaged s).twn.ledger.placed = true := hp
  simp [State.ledgerValid, State.restorable, hn, hp']

/-- With no journal, what is lost is what the snapshot's claim no longer writes. -/
theorem imaged_lost {s : State} {x : Snap} (hn : (imaged s).newestSnap = some x) (hp : s.twn.ledger.placed = true)
    (hj : s.twn.ledger.journal = []) : (imaged s).lostImage
      = if s.twn.ledger.pending.any (fun e => e.1 != s.get F.twnGateClaimClaim) then some x.saved else none := by
  have hp' : (imaged s).twn.ledger.placed = true := hp
  have hj' : (imaged s).twn.ledger.journal = [] := hj
  have a : (imaged s).journalAfter x = [] := by unfold State.journalAfter; rw [hj', List.filter_nil]
  have b : (imaged s).appliedAfter x = [] := by unfold State.appliedAfter; rw [a, List.takeWhile_nil]
  unfold State.lostImage
  rw [hn, if_pos hp', Option.bind_some]
  simp only [a, b, List.length_nil, lt_self_iff_false, decide_false, Bool.or_false, List.getLast?_nil, Option.map_none,
    Option.getD_none]
  rfl

theorem serving_sound : (serving.ue = [] ∧ serving.tline = []) ∧ (serving.ledgerCopies.any (· == (0, 383))) = true
    ∧ serving.twn.ledger.placed = true := by decide +kernel

theorem serving_canon : serving.canon := canonOf _ (by decide +kernel)

/-- s with the activation record in a state. -/
def record (n : Nat) (s : State := serving) : State :=
  { s with flash := { s.flash with records := writeAlt s.flash.records n } }

/-- Piece 0 of an imago: magic, format 1, version 7, security_version 1, a piece count, and the first body hash. -/
def head0 (count : Nat) : List Byte :=
  leBytes 256 (0x4F474D49 + 2 ^ 32 + 7 * 2 ^ 64 + 2 ^ 96 + count * 2 ^ 128)

def staging (l : List (List Byte)) (s : State := on) : State := { s with flash := { s.flash with staging := l } }

/-- The first bytes of a piece, of one byte value. -/
def piece (b : Byte) : List Byte := List.replicate 100 b

def pieceCmd (s : State) (i : Nat) (p : List Byte) : State :=
  withCmds s [{ aCmd (bytesOf 0x901 0xFF [(8, i)]) .started with extra := p }]

theorem witness_UpdatePieces :
    (let s := pieceCmd (staging [piece 1]) 0 (piece 1)
     isStarted s 0x901 none = true ∧ 0 < (s.flash.staging ++ s.board.update.queued).length
       ∧ (s.flash.staging ++ s.board.update.queued).length < 2)
    ∧ (let s := pieceCmd on 0 (head0 3)
       isStarted s 0x901 none = true ∧ (s.flash.staging ++ s.board.update.queued).length = 0 ∧ s.activating = false
         ∧ pieceZeroOk (head0 3) = true)
    ∧ (let s := staging [head0 3] (record 3 on)
       s.activating = true ∧ s.flash.staging.length = 1)
    ∧ (let s := pieceCmd (staging [head0 3]) 1 (piece 1)
       isStarted s 0x901 none = true ∧ (s.flash.staging ++ s.board.update.queued).length = 1 ∧ s.activating = false
         ∧ s.get F.updSecSecMin ≤ fieldAt (headOf [head0 3, piece 1]) 12 4
         ∧ fieldAt (headOf [head0 3, piece 1]) 12 4 < (s.set F.updSecSecMin 2).get F.updSecSecMin) := by decide +kernel

theorem witness_UpdatePieces_body :
    (let s := pieceCmd (staging [head0 3, piece 1]) 2 (piece 1)
     isStarted s 0x901 none = true ∧ (s.flash.staging ++ s.board.update.queued).length = 2
       ∧ 2 < fieldAt (headOf (s.flash.staging ++ s.board.update.queued)) 16 4 ∧ s.activating = false)
    ∧ isStarted (started on 0x902 0xFF []) 0x902 none = true ∧ isStarted (started on 0x904 0xFF []) 0x904 none = true := by
  decide +kernel

/-- SHA-384 answers 48 bytes; whatever they are for a piece, some head names them. -/
theorem witness_UpdatePieces_goodHash (p : List Byte) (h : (Config.sha384 p).length = 48) :
    ∃ held : List (List Byte), held.length = 2 ∧ Config.sha384 p = expectedHash held 2 :=
  ⟨[List.replicate 24 0 ++ Config.sha384 p, []], rfl, by simp [expectedHash, headOf, bytesAt, h, List.take_of_length_le]⟩

/-- Two heads name different hashes, and one of them is not the piece's. -/
theorem witness_UpdatePieces_badHash (p : List Byte) : ∃ head ∈ [piece 0, piece 1],
    Config.sha384 p ≠ expectedHash [head, []] 2 := by
  by_contra h
  push Not at h
  have a := h (piece 0) (by simp)
  have b := h (piece 1) (by simp)
  rw [a] at b
  exact absurd b (by decide +kernel)

def paused (since : DWord) (s : State) : State :=
  { s with board := { s.board with update := { s.board.update with pauseAt := some since } } }

theorem witness_ActivationAndItsEnd :
    (let s := started on 0x903 0xFF []
     isStarted s 0x903 none = true ∧ s.stagedCount = 0)
    ∧ (let s := staging [head0 3, piece 1, piece 2] (started (on.set F.updSecSecMin 2) 0x903 0xFF [])
       isStarted s 0x903 none = true ∧ s.stagedCount = 3 ∧ s.stagedCount ≤ s.flash.staging.length ∧ s.flash.record = 0
         ∧ ¬ s.get F.updSecSecMin ≤ fieldAt (headOf s.flash.staging) 12 4)
    := by decide +kernel

theorem witness_ActivationAndItsEnd_runs :
    (∀ r ∈ [1, 2], (record r).updRuns = true ∧ (record r).flash.record = r)
    ∧ (let s := paused (serving.time - 150000000) (record 3)
       s.board.update.pauseAt = some (serving.time - 150000000) ∧ s.updRuns = true
         ∧ (s.time - (serving.time - 150000000)).toNat = 150000000 ∧ s.flash.record = 3
         ∧ s.spn.cmds = [] ∧ s.events.entries = [])
    ∧ (let u := (record 2).set F.spnStatusDraining 1
       let s : State := { u with board := { u.board with update := { u.board.update with draining := true } } }
       s.flag F.spnStatusDraining = true ∧ s.flag F.spnStatusDrained = false ∧ s.drainDone = true ∧ s.gapHolds = false
         ∧ s.board.update.draining = true) := by decide +kernel

theorem witness_ActivationAndItsEnd_ends :
    (let s := ((record 3).set F.spnLoadStatLoaded 0x7F).set F.updDeadlineTimestamp (serving.time.toNat + 1)
     ({ s with board := { s.board with update := { s.board.update with tlsSince := true, standbyOk := true } } } : State).healthy = true)
    ∧ ((record 3).board.update.pauseAt = none ∧ (record 3).board.update.draining = false
       ∧ (record 3).get F.updDeadlineTimestamp ≤ (record 3).time.toNat)
    ∧ ((record 4).updRuns = true ∧ (record 4).flash.record = 4 ∧ (record 4).board.update.keepStaging = false) := by
  decide +kernel

/-- An imago that Gosait's authorities signed and whose manifest and piece hash to what it names is sound. -/
theorem witness_ActivationAndItsEnd_sound (h : on.flash.chainOk [head0 3, piece 1, piece 2] = true) :
    let s := staging [head0 3, piece 1, piece 2] (started (on.set F.updSecSecMin 1) 0x903 0xFF [])
    s.flash.chainOk s.flash.staging = true ∧ s.get F.updSecSecMin ≤ fieldAt (headOf s.flash.staging) 12 4 :=
  ⟨h, by decide +kernel⟩

/-- A pause within its time, with a ledger that can be restored. -/
theorem witness_ActivationAndItsEnd_pause : let s := imaged (paused (serving.time - 150000000) (record 3))
    s.canon ∧ s.restorable.isSome = true ∧ s.board.update.pauseAt = some (serving.time - 150000000) ∧ s.flash.record = 3 := by
  have n := imaged_newest (s := paused (serving.time - 150000000) (record 3))
    (x := snap0)
    (by decide +kernel) (by decide +kernel) (by decide +kernel) (by decide +kernel) (by decide)
  have v := (imaged_valid n (by decide +kernel)).2
  exact ⟨imaged_canon (canonOf _ (by decide +kernel)), v, by decide +kernel, by decide +kernel⟩

def noStandby : State := serving.set F.twnStatusStateB 4
def beat (ago : DWord) (s : State) : State := { s with twn := { s.twn with heartbeat := s.time - ago } }

theorem witness_SwitchOversBegin :
    ((beat 200000 serving).halfServes = true ∧ serving.standby = true ∧ noStandby.standby = false ∧ noStandby.halfServes = true
      ∧ ((beat 200000 serving).time - (beat 200000 serving).twn.heartbeat).toNat = 200000
      ∧ ((beat 199999 serving).time - (beat 199999 serving).twn.heartbeat).toNat < 200000)
    ∧ (let s : State := { serving with twn := { serving.twn with swap := some 3 } }
       s.twn.swap = some 3 ∧ s.twn.ledger.pending = [] ∧ s.ending = false ∧ s.standby = true)
    ∧ (let s := serving.set F.twnNextSwapTimestamp serving.time.toNat
       s.get F.twnNextSwapTimestamp ≠ 0 ∧ s.get F.twnNextSwapTimestamp ≤ s.time.toNat ∧ s.halfServes = true
         ∧ s.twn.swap = none ∧ s.swapBlocked = false ∧ s.standby = true ∧ (s.set F.twnStatusStateB 4).standby = false)
    ∧ (let s := started serving 0xA01 0xFF []
       isStarted s 0xA01 none = true ∧ s.standby = true ∧ s.twn.swap = none ∧ (∀ x ∈ s.spn.cmds, x.ref = c0)
         ∧ (started noStandby 0xA01 0xFF []).standby = false)
    ∧ (let s := started noStandby 0xA02 0xFF [(8, 1)]
       isStarted s 0xA02 none = true ∧ s.halfState .b = 4 ∧ s.flag F.twnStatusGap = false ∧ s.halfState .a ≠ 4)
    ∧ isStarted (started serving 0xA03 0xFF [(8, 8760)]) 0xA03 none = true
    ∧ isStarted (started serving 0xA03 0xFF [(8, 8761)]) 0xA03 none = true
    ∧ isStarted (started serving 0xA04 0xFF []) 0xA04 none = true
    ∧ (let m := aCmd (bytesOf 0xA02 0xFF [(8, 1)]) .running (.restore .b)
       (withCmds noStandby [m]).spn.cmds = [m] ∧ m.ref = c0 ∧ m.wait = .restore .b) := by decide +kernel

/-- A gap towards half B in a phase, planned or not, begun some ticks ago. -/
def gap (ph : GapPhase) (planned : Bool) (ago : DWord) : State :=
  let s := ((serving.set F.twnStatusGap 1).set F.twnStatusStateB 1).set F.twnStatusStateA (if planned then 3 else 4)
  { s with twn := { s.twn with phase := ph, planned := planned, incoming := .b, gapStart := s.time - ago } }

theorem witness_GapRunsToItsEnd :
    (gap .powering false 0).twn.phase = .powering ∧ (gap .powerGood true 0).twn.phase = .powerGood
    ∧ ((gap .powerGood true 0).twn.planned = true ∧ (gap .powerGood true 0).halfState (otherHalf (gap .powerGood true 0).twn.incoming) = 3)
    ∧ (let s := gap .verified false 0
       s.twn.phase = .verified
         ∧ ({ s with twn := { s.twn with ledger := { s.twn.ledger with snaps := Vector.replicate 2 none } } } : State).ledgerValid = false)
    ∧ (gap .restored false 0).twn.phase = .restored ∧ (gap .restored false 0).spn.cmds = [] ∧ (gap .reconciled true 0).twn.phase = .reconciled
    ∧ (gap .reconciled true 0).halfState .a = 3 ∧ (gap .reconciled false 0).halfState .a ≠ 3
    ∧ ((gap .powering true 5950000).twn.phase ≠ .none
       ∧ ((gap .powering true 5950000).time - (gap .powering true 5950000).twn.gapStart).toNat = 5950000)
    ∧ ((gap .powering false 6000000).time - (gap .powering false 6000000).twn.gapStart).toNat = 6000000
    ∧ ((gap .none true 0).flag F.twnStatusGap = true ∧ (gap .none true 0).twn.planned = true ∧ (gap .none true 0).twn.phase = .none
       ∧ (gap .none true 0).halfState .a = 3 ∧ (gap .none true 0).ending = false) := by decide +kernel

/-- A ledger entry that the outgoing half no longer writes. -/
def lost (s : State) : State :=
  { s with twn := { s.twn with ledger := { s.twn.ledger with pending := [(1, .step c0 .none, s.saved)] } } }

/-- An unplanned gap of 30 µs counts 24,000 cycles of 1.25 ns (R367). -/
theorem test_gapEnd :
    after (exec .gapEnd (gap .reconciled false 3000)) (fun t => t.get F.twnLastGapCycles == 24000 && t.halfState .b == 2) = true := by
  decide +kernel

/-- The newest snapshot holds, with nothing lost and with an entry of the outgoing half's claim lost. -/
theorem witness_GapRunsToItsEnd_ledger :
    (let s := imaged (gap .verified false 0)
     s.canon ∧ s.ledgerValid = true ∧ s.lostImage = none)
    ∧ (let s := imaged (lost (gap .verified false 0))
       s.canon ∧ s.ledgerValid = true ∧ s.lostImage = some snap0.saved)
    ∧ (let s := imaged (gap .none true 0)
       s.canon ∧ s.twn.ledger.pending = [] ∧ ∀ x, s.newestSnap = some x → s.appliedAfter x = s.journalAfter x) := by
  have n0 := imaged_newest (s := gap .verified false 0) (x := snap0) (by decide +kernel) (by decide +kernel)
    (by decide +kernel) (by decide +kernel) (by decide)
  have n1 := imaged_newest (s := lost (gap .verified false 0)) (x := snap0) (by decide +kernel) (by decide +kernel)
    (by decide +kernel) (by decide +kernel) (by decide)
  have c (s : State) (h : (Memory.wf s.mem && Memory.wf s.pcieMem && Lines.wf s.tline && Regs.wf s.regs) = true) :
      (imaged s).canon := imaged_canon (canonOf _ h)
  refine ⟨⟨c _ (by decide +kernel), (imaged_valid n0 (by decide +kernel)).1, ?_⟩,
    ⟨c _ (by decide +kernel), (imaged_valid n1 (by decide +kernel)).1, ?_⟩,
    c _ (by decide +kernel), by decide +kernel, fun x _ => ?_⟩
  · rw [imaged_lost n0 (by decide +kernel) (by decide +kernel)]
    decide +kernel
  · rw [imaged_lost n1 (by decide +kernel) (by decide +kernel)]
    decide +kernel
  · have j : (imaged (gap .none true 0)).twn.ledger.journal = [] := by decide +kernel
    simp only [State.appliedAfter, State.journalAfter, j, List.filter_nil, List.takeWhile_nil]

/-- The copy of the code is the running imago's. -/
theorem witness_GapRunsToItsEnd_code : (imaged (gap .powerGood true 0)).codeGood = true
    ∧ (imaged (gap .powerGood true 0)).twn.phase = .powerGood := ⟨imaged_codeGood (by decide +kernel), by decide +kernel⟩

/-- Where its place is not empty, a bad word in it is seen. -/
theorem witness_GapRunsToItsEnd_badCode (h : 0 < Config.codeLength) :
    let s : State := { gap .powerGood true 0 with ue := [codeAddr] }
    s.codeGood = false ∧ s.twn.phase = .powerGood := by
  have m : wordMeets codeAddr Config.codeLength codeAddr = true := by
    have e : 0 < errUnit codeAddr := by unfold errUnit; split <;> decide
    simp only [wordMeets, Bool.and_eq_true, decide_eq_true_eq]
    omega
  refine ⟨?_, by decide +kernel⟩
  simp [State.codeGood, State.badIn, State.badWords, m]

/-- What a restored half's checks need. -/
theorem witness_SwitchOversBegin_checks : let s := imaged noStandby
    s.codeGood = true ∧ s.ledgerValid = true ∧ s.twn.ledger.placed = true :=
  ⟨imaged_codeGood (by decide +kernel), (imaged_valid (imaged_newest (x := snap0) (by decide +kernel) (by decide +kernel)
    (by decide +kernel) (by decide +kernel) (by decide)) (by decide +kernel)).1, by decide +kernel⟩

theorem witness_passes_spindle : serving.passes .spindle := by
  unfold State.passes; decide +kernel

/-- A ledger entry under way with a claim. -/
def owes (claim : Nat) (e : LedgerEntry) : State :=
  { serving with twn := { serving.twn with ledger := { serving.twn.ledger with pending := [(claim, e, serving.saved)] } } }

/-- The serving module after a claim rose to 3: half A still holds 2. -/
def behind (st : Nat) : State := (serving.set F.twnGateClaimClaim 3).set F.twnStatusStateA st

theorem witness_GatesAndLedger :
    (serving.twn.powered[(halfIx .a).val] = true ∧ serving.twn.stopped[(halfIx .a).val] = false
      ∧ (2#32).toNat = serving.claim .a ∧ (2#32).toNat = serving.get F.twnGateClaimClaim ∧ serving.halfState .a = 2)
    ∧ (∀ st ∈ [0, 1, 2, 3, 4], (behind st).twn.powered[(halfIx .a).val] = true ∧ (behind st).twn.stopped[(halfIx .a).val] = false
      ∧ (2#32).toNat = (behind st).claim .a ∧ (2#32).toNat < (behind st).get F.twnGateClaimClaim ∧ (behind st).halfState .a = st)
    ∧ ((behind 2).mayAct .spindle 0 ∧ (behind 2).spindleHalf = .a
      ∧ (2#32).toNat = (serving.set F.twnStatusStateA 4).get F.twnGateClaimClaim ∧ (serving.set F.twnStatusStateA 4).halfState .a = 4)
    ∧ (serving.twn.powered[(halfIx .b).val] = false ∧ serving.get F.twnGateClaimClaim < (3#32).toNat)
    ∧ (serving.usable 0 = true ∧ serving.busy 0 = false)
    ∧ (let s : State := { serving with twn := { serving.twn with powerDown := serving.twn.powerDown.set 1 (some (serving.time - 100000)) } }
       s.twn.powerDown[(halfIx .b).val] = some (serving.time - 100000) ∧ (s.time - (serving.time - 100000)).toNat = 100000)
    := by
  unfold State.mayAct; decide +kernel

theorem witness_GatesAndLedger_entries :
    (let m := aCmd (bytesOf 0x101 0xFF []) .entering
     let s := withCmds (owes 2 (.taken c0 m.bytes)) [m]
     s.twn.ledger.pending = (s.get F.twnGateClaimClaim, .taken c0 m.bytes, serving.saved) :: [] ∧ s.ledgerOpen = true
       ∧ s.cmd c0 = some m ∧ m.phase = .entering)
    ∧ (let m := aCmd (bytesOf 0x101 0xFF []) .leaving
       let s := withCmds (owes 2 (.done c0 ⟨stOk, [], 5, false⟩)) [m]
       s.twn.ledger.pending = (s.get F.twnGateClaimClaim, .done c0 ⟨stOk, [], 5, false⟩, serving.saved) :: [] ∧ s.ledgerOpen = true
         ∧ s.cmd c0 = some m ∧ m.phase = .leaving)
    ∧ (let s := owes 1 (.step c0 .none)
       s.twn.ledger.pending = (1, .step c0 .none, serving.saved) :: [] ∧ s.twn.ledger.placed = true ∧ 1 < s.get F.twnGateClaimClaim)
    ∧ (serving.twn.ledger.placed = true ∧ serving.flag F.twnStatusGap = false ∧ serving.ledgerOpen = true ∧ serving.passes .spindle
       ∧ 1000000 ≤ (serving.time - serving.twn.ledger.snapTime).toNat) := by
  unfold State.passes; decide +kernel

def event : EventRec :=
  ⟨0x045, 6, 2, none, 0, 1, 0, 0, 0, false, false, 9, none, 0, []⟩
def entry (todo : List (Fin 17)) (done : Option DWord) : EventEntry := ⟨event, todo, false, done, none⟩
def owing (r : Fin 17) (since : DWord) (s : State := serving) : State :=
  { s.set F.errStatusReady 1 with events := { entries := [entry [r] none], lost := [], due := [(r.val, some (9, since))] } }

theorem witness_RecordsReachTheirRecipients :
    (let s := owing 0 0 (serving.set (F.spnMbCtlEnable 0) 1)
     s.dueTo 0 = some (entry [0] none, 0) ∧ s.passes .spindle ∧ s.delivers = true ∧ s.canDeliver 0 (entry [0] none) 0 = true)
    ∧ (let s := owing 0 (serving.time - 10000000)
       s.dueTo 0 = some (entry [0] none, serving.time - 10000000) ∧ s.delivers = true
         ∧ s.canDeliver 0 (entry [0] none) (serving.time - 10000000) = false
         ∧ (s.time - (serving.time - 10000000)).toNat = 10000000 ∧ (s.set F.errStatusReady 0).delivers = false)
    ∧ (let s : State := { owing 16 0 (serving.set F.mgtStatusLinkUp 1) with coc := { serving.coc with tls := serving.coc.tls.set 1 (some ⟨0, none, false, 0⟩) } }
       s.dueTo 16 = some (entry [16] none, 0) ∧ s.canDeliver 16 (entry [16] none) 0 = true)
    ∧ (let e := entry [] (some (serving.time - 1000000))
       let s : State := { serving with events := { entries := [e], lost := [], due := [] } }
       (s.events.entries.find? fun e => e.body.seq == 9) = some e ∧ e.doneAt = some (serving.time - 1000000) ∧ e.followUp = none
         ∧ (s.time - (serving.time - 1000000)).toNat = 1000000 ∧ (s.time - (serving.time - 999999)).toNat < 1000000)
    ∧ (serving.ending = false ∧ serving.standby = true ∧ noStandby.ending = false ∧ noStandby.standby = false)
    ∧ (let s : State := { on with board := { on.board with stopping := true } }
       s.board.stopping = true ∧ s.board.supply = .on) := by
  unfold State.passes; decide +kernel

def supplied (p : Supply) (ago : DWord) : State := { on with board := { on.board with supply := p, since := on.time - ago } }

theorem witness_ConnectorAndRemoval :
    (600 < (601 : Int) ∧ (-601 : Int) < -600) ∧ (440 < (441 : Int) ∧ (441 : Int) ≤ 600 ∧ (600 : Int) ≤ 600)
    ∧ ((440 : Int) ≤ 440 ∧ (400 : Int) ≤ 400) ∧ on.coc.imports = []
    ∧ (on.board.supply = .on ∧ (-600 : Int) ≤ 399 ∧ (399 : Int) < 400 ∧ (-600 : Int) ≤ 0) ∧ State.reset.board.supply ≠ .on
    ∧ (supplied .removing 0).board.supply = .removing
    ∧ ((supplied .holdoff 50000000).board.supply = .holdoff
       ∧ ((supplied .holdoff 50000000).time - (supplied .holdoff 50000000).board.since).toNat = 50000000)
    ∧ ((supplied .holdoff 49999999).time - (supplied .holdoff 49999999).board.since).toNat < 50000000 := by decide +kernel

/-- The management link up, Cocoon ready, an anchor in slot 3 or none, a session of it open since some ticks ago. -/
def managed (a : Option (List Byte)) (t : Option Tls) : State :=
  let s := (serving.set F.mgtStatusLinkUp 1).set F.cocStatusReady 1
  { s with
    flash := { s.flash with anchors := s.flash.anchors.set 3 a }
    coc := { s.coc with tls := s.coc.tls.set 0 t, secrets := some ⟨[], [], [], []⟩ } }

/-- An open session: its age in ticks, its anchor, and whether that anchor has been replaced. -/
def tls (ago : DWord) (k : Option (Fin 4)) (stale : Bool) : Tls := ⟨serving.time - ago, k, stale, 0⟩

/-- A handshake as R399 settles it, on the untagged network of the management port. -/
def hello : TlsHello := ⟨5410, none, .tls13, .aes256GcmSha384, .secp384r1, .ecdsaSecp384r1Sha384, false, false, false, true⟩

theorem witness_ManagementSessions_hello :
    (hello.tcpPort = 5410 ∧ hello.vlan = none ∧ hello.version = .tls13 ∧ hello.suite = .aes256GcmSha384
      ∧ hello.group = .secp384r1 ∧ hello.scheme = .ecdsaSecp384r1Sha384 ∧ hello.psk = false ∧ hello.resumed = false
      ∧ hello.earlyData = false ∧ hello.integratorRoot = true)
    ∧ ({ hello with version := .tls12 } : TlsHello).version ≠ .tls13
    ∧ ({ hello with vlan := some 7 } : TlsHello).vlan ≠ none ∧ on.board.net.vlan = none := by decide

theorem witness_ManagementSessions :
    (let s : State := { on with board := { on.board with mgmtOk := true } }
     s.board.stages.getLsbD 10 = true ∧ s.board.mgmtOk = true ∧ s.board.fenced = false ∧ on.board.mgmtOk = false)
    ∧ (let s := managed (some [1]) none
       s.flag F.mgtStatusLinkUp = true ∧ s.flag F.cocStatusReady = true ∧ s.coc.derived = true ∧ (s.anchor 3).isSome = true
         ∧ s.freeTls = some 0 ∧ (s.anchor 2).isSome = false ∧ s.tlsSession 1 = none)
    ∧ ((managed none none).noAnchor = true ∧ (managed none none).freeTls = some 0)
    ∧ (let s := managed (some [1]) (some (tls 8640000000000 (some 3) false))
       let u : State := { s with coc := { s.coc with tls := s.coc.tls.set 1 (some (tls 0 (some 3) false)) } }
       s.tlsSession 0 = some (tls 8640000000000 (some 3) false) ∧ u.freeTls = none
         ∧ (s.time - (tls 8640000000000 none false).opened).toNat = 8640000000000
         ∧ (s.time - (tls 8639999999999 none false).opened).toNat < 8640000000000
         ∧ s.anchor 0 = none ∧ s.anchor 3 ≠ none ∧ (∀ j, j ≠ 3 → s.anchor j = none))
    ∧ (let s := managed (some [1]) (some (tls 0 (some 3) true))
       s.tlsSession 0 = some (tls 0 (some 3) true) ∧ (tls 0 (some 3) true).anchor ≠ none ∧ (tls 0 (some 3) true).stale = true
         ∧ s.noAnchor = false)
    ∧ (let s := managed none (some (tls 0 none false))
       s.tlsSession 0 = some (tls 0 none false) ∧ (tls 0 none false).anchor = none ∧ s.noAnchor = true ∧ fieldAt [2] 0 1 ≠ 1)
    ∧ (bytesOf 0x101 0xFF []).length = 64 ∧ commandSized 2 (bytesOf 0x805 0xFF []) = true ∧ (1#16 ≠ 0)
    ∧ ¬ ((1 = 1 ∧ [].length (α := Byte) = 64) ∨ (1 = 2 ∧ commandSized 1 [] = true))
    ∧ ([1#8] ≠ [] ∧ (piece 1).length ≤ 4096) := by decide +kernel

/-! ### Links, the start, tests, power and heat -/

/-- The powered module with stages 1 to n done. -/
def stagesTo (n : Nat) : State :=
  { on with board := { on.board with stages := BitVec.ofNat 14 (2 ^ (n + 1) - 2), started := false } }

theorem witness_LinksTrainAndDrop :
    (let s := (stagesTo 10).set F.pciLaneOkLanes 0xFFFF
     s.stage 10 = true ∧ s.portOk (0 : Port).val = true ∧ s.flag (F.pciLinkUp 0) = false ∧ s.board.fenced = false
       ∧ s.board.recheck.getLsbD 0 = false ∧ s.widthOk 0 16 = true)
    ∧ (linked.flag (F.pciLinkUp 1) = true ∧ linked.stage 10 = true
       ∧ (linked.set (F.pciLinkBifurcated 0) 1).portOk (1 : Port).val = true ∧ linked.coc.imports = []) := by decide +kernel

/-- An identity record of a kind with loop type 5 and slot kind 2: its CRC over the first 30 bytes follows them. -/
def idRecord (kind loop_ slot : Nat) : List Byte :=
  let b := leBytes 30 (1 + kind * 2 ^ 16 + loop_ * 2 ^ 24 + slot * 2 ^ 32)
  b ++ leBytes 2 (crc16 b).toNat

theorem witness_StartStages :
    (let s : State := { State.reset with board := { State.reset.board with good := true, mated := true } }
     s.board.supply = .off ∧ s.board.good = true ∧ s.board.mated = true)
    ∧ (stagesTo 1).stage 1 = true ∧ (stagesTo 2).stage 3 = false
    ∧ ((stagesTo 3).stage 4 = false ∧ (stagesTo 3).board.dead = false ∧ (stagesTo 3).flash.record ≤ 1)
    ∧ (let s := (stagesTo 4).set F.idmOwnLoopType 5
       let u := s.set F.idmOwnSlotKind 2
       u.stage 4 = true ∧ u.stage 5 = false ∧ u.flag F.spnStatusLoadFail = false
         ∧ identityFault 1 (some (idRecord 1 5 2)) = 0 ∧ identityFault 2 (some (idRecord 2 5 0)) = 0
         ∧ fieldAt (idRecord 2 5 0) 3 1 = u.get F.idmOwnLoopType ∧ fieldAt (idRecord 1 5 2) 3 1 = u.get F.idmOwnLoopType
         ∧ fieldAt (idRecord 1 5 2) 4 1 = u.get F.idmOwnSlotKind ∧ identityFault 1 (some (idRecord 2 5 0)) ≠ 0)
    ∧ (let s := (stagesTo 5).set F.mltStatusHeld 1
       let u : State := { (s.set F.idmOwnLoopType 5).set F.idmOwnSlotKind 2 with board := { s.board with identityAt := s.time - 1000000000 } }
       u.stage 5 = true ∧ u.heldCode = 1 ∧ (u.time - u.board.identityAt).toNat = 1000000000 ∧ u.usable 0 = true
         ∧ (u.compareIdentity (some (idRecord 1 5 2)) (some (idRecord 2 5 0))).2 = true)
    ∧ ((stagesTo 5).stage 6 = false ∧ (stagesTo 5).heldCode = 0 ∧ (stagesTo 5).usable 0 = true)
    ∧ ((stagesTo 6).stage 6 = true ∧ (stagesTo 6).stage 7 = false ∧ (stagesTo 6).stage 8 = false
       ∧ (stagesTo 6).board.lpddrLoaded = false ∧ (stagesTo 6).board.lpddrFailed = false ∧ (stagesTo 6).heldCode = 0
       ∧ (stagesTo 6).flag F.spnStatusLoadFail = false)
    ∧ (let s := (stagesTo 8).set F.tierKeyStatLoaded 0x100
       s.stage 8 = true ∧ s.stage 9 = false ∧ s.bit F.tierKeyStatLoaded 8 = true)
    ∧ ((stagesTo 9).stage 2 = true ∧ (stagesTo 9).stage 5 = true ∧ (stagesTo 9).stage 6 = true ∧ (stagesTo 9).stage 10 = false)
    ∧ (let s := (stagesTo 5).set F.mltStatusHeld 1
       s.stage 2 = true ∧ s.stage 5 = true ∧ s.stage 6 = false ∧ s.heldCode = 1 ∧ s.stage 10 = false)
    ∧ ((stagesTo 10).stage 10 = true ∧ (stagesTo 10).stage 11 = false)
    ∧ ((stagesTo 12).stage 13 = false ∧ (∀ k ∈ List.range 13, 1 ≤ k → (stagesTo 12).stage k = true)
       ∧ (stagesTo 12).board.started = false ∧ (stagesTo 12).usable 0 = true) := by decide +kernel

/-- An area whose head passes is one that the loader may boot. -/
theorem witness_StartStages_boot (h : on.flash.headOk on.flash.running.pieces = true) :
    (true && (stagesTo 3).flash.headOk (stagesTo 3).flash.running.pieces) = true := h

/-- The lowest voltage on the connector that reads as good is 44.1 V (R500). -/
theorem test_voltageGood :
    after (exec (.voltageGood 441) State.reset) (fun t => t.board.good && t.get F.pwrInputVolts == 441) = true := by
  decide +kernel

def moulting (raw : Bool) (todo batch : List ArrayNum) (s : State) : State :=
  { s with board := { s.board with moult := { s.board.moult with running := true, raw := raw, todo := todo, batch := batch } } }

theorem witness_MoultAndBitErrorTests :
    (let s := started on 0x701 0xFF [(8, 2 ^ 63 + 1)]
     isStarted s 0x701 none = true ∧ s.board.moult.running = false ∧ s.board.prbs = none ∧ s.partOf 0 = none ∧ s.partOf 63 = none
       ∧ s.bit F.mltCondemnedCondemned 0 = false ∧ s.bit F.mltCondemnedCondemned 63 = false ∧ s.heldCode = 0 ∧ s.usable 63 = true
       ∧ (s.spn.cmds.map fun m => s.analogBusy m (m.arg 16 1 % 16)) = [false] ∧ (moulting false [] [] s).board.moult.running = true
       ∧ ((owned on).partOf 0).isSome = true)
    ∧ (let s := started on 0x701 0xFF [(17, 1)]
       isStarted s 0x701 none = true ∧ s.lifecycle ≠ 0 ∧ s.lifecycle ≠ 2)
    ∧ isStarted (started on 0x702 0xFF []) 0x702 none = true
    ∧ (let s := moulting false [0, 8, 16, 24, 32, 40, 48, 56, 1] [] on
       s.board.moult.running = true ∧ s.board.moult.batch = [] ∧ s.board.moult.todo ≠ [] ∧ s.gapHolds = false
         ∧ s.nextBatch = [0, 8, 16, 24, 32, 40, 48, 56])
    ∧ (∀ raw, let s := moulting raw [] [0] (arr0 { ArrayState.reset with test := .running })
       (s.arr 0).test = .running ∧ 0 ∈ s.board.moult.batch ∧ s.pm.tripOff.getLsbD 0 = false ∧ s.board.moult.raw = raw
         ∧ s.board.moult.failedOnce.getLsbD 0 = false)
    ∧ (let s := started on 0x703 0xFF [(8, 0), (12, 0x8000)]
       isStarted s 0x703 none = true ∧ (s.spn.cmds.map fun m => s.prbsCheck m 0 (m.arg 12 4)) = [stOk])
    ∧ (let s := started on 0x703 0xFF [(8, 0), (12, 0x10000)]
       isStarted s 0x703 none = true ∧ (s.spn.cmds.map fun m => s.prbsCheck m 0 (m.arg 12 4)) = [stBad])
    ∧ (let s := started { on with board := { on.board with prbs := some (2, 1) } } 0x704 0xFF [(8, 2)]
       isStarted s 0x704 none = true ∧ s.board.prbs = some (2, 1))
    ∧ (isStarted (started on 0x704 0xFF [(8, 2)]) 0x704 none = true ∧ (started on 0x704 0xFF [(8, 2)]).board.prbs = none) := by
  decide +kernel

theorem witness_PowerCommands :
    isStarted (started on 0x601 0xFF [(8, 119)]) 0x601 none = true ∧ isStarted (started on 0x601 0xFF [(8, 420)]) 0x601 none = true
    ∧ (let s := started on 0x602 0xFF [(8, 1)]
       isStarted s 0x602 none = true ∧ (∀ n : ArrayNum, s.pm.freqWait.getLsbD n = false))
    ∧ (let s : State := { on with pm := { on.pm with freqWait := 1 } }
       s.pm.freqWait.getLsbD 0 = true ∧ s.usable 0 = true)
    ∧ (let s := started tenant 0x603 0 [(8, 16)]
       isStarted s 0x603 (some 0) = true ∧ ¬ 16 < 2 * (s.arraysOf 0).length ∧ ¬ 8 * 345 < s.shareSum8 - s.share8 0 + 8 * 16
         ∧ 15 < 2 * (s.arraysOf 0).length)
    ∧ isStarted (started on 0x604 0xFF [(8, 1), (9, 30)]) 0x604 none = true
    ∧ isStarted (started on 0x604 0xFF [(8, 0), (9, 76)]) 0x604 none = true
    ∧ isStarted (started on 0x605 0xFF []) 0x605 none = true := by decide +kernel

/-- The powered module with the power manager's firmware ready. -/
def powered : State := on.set F.pwrStatusReady 1

def withPm (f : PowerMgr → PowerMgr) (s : State := powered) : State := { s with pm := f s.pm }
def parkedAt (p : Power) (s : State) : State := { s with arrays := s.arrays.set 0 { ArrayState.reset with power := p } }

theorem witness_EstimatesPacingAndRelease :
    powered.board.stages.getLsbD 1 = true
    ∧ (let s := withPm (fun m => { m with isolatedNext := some true }) (powered.set F.pwrStatusSettling 1)
       s.pm.isolatedNext = some true ∧ s.flag F.pwrStatusSettling = true)
    ∧ (let s := withPm fun m => { m with history := [(powered.time, List.replicate 65 100)] }
       let h := s.recentEst 10000000
       s.pmReady = true ∧ h ≠ [] ∧ (List.replicate 64 100).length = 64
         ∧ 6500 * h.length ≤ h.length * (List.replicate 64 100).sum + (h.map fun x => (x[64]?).getD 0).sum
         ∧ 100 * (h.length * (List.replicate 64 100).sum + (h.map fun x => (x[64]?).getD 0).sum)
            ≤ h.length * (100 * 6500 + 3 * s.effCap))
    ∧ (let s := withPm fun m => { m with tripOff := 1, lastSlot := some (powered.time - 1000) }
       s.heatPick = some 0 ∧ (s.time - (powered.time - 1000)).toNat = 1000)
    ∧ (let s := withPm (fun m => { m with lastSlot := some (powered.time - 999) }) (powered.set (F.pwrAEstEst 63) 65535)
       s.heatPick = none ∧ s.capPick = some 63 ∧ (s.time - (powered.time - 999)).toNat < 1000)
    ∧ (∀ p ∈ [Power.gated, .clockStopped], let s := parkedAt p powered
       s.heatPick = none ∧ s.capPick = none ∧ s.releasePick = some 0 ∧ (s.arr 0).power = p)
    ∧ (powered.heatPick = none ∧ powered.capPick = none ∧ powered.releasePick = none)
    ∧ (let s := parkedAt .clockStopped (withPm fun m => { m with capOff := 1, capSince := [(0, some (powered.time - 200000))] })
       s.pmReady = true ∧ (s.arr 0).power = .clockStopped ∧ s.pm.capOff.getLsbD 0 = true
         ∧ s.sinceAtLeast s.pm.capSince 0 s.gateTicks = true)
    ∧ (powered.arr 0).power ≠ .clockStopped
    ∧ ((parkedAt .draining powered).arr 0).power = .draining ∧ ((parkedAt .draining powered).arr 0).quiet = true
    ∧ (let s := parkedAt .gated (withPm fun m => { m with releasing := 1 })
       s.pm.releasing.getLsbD 0 = true ∧ (s.arr 0).power = .gated ∧ s.pm.lastSlot = none ∧ s.pmReady = true
         ∧ s.flag F.pwrStatusSettling = false)
    ∧ (powered.pm.ownTrip.getLsbD 0 = false ∧ on.pmReady = false)
    ∧ (let s := parkedAt .clockStopped (withPm (fun m => { m with dutyOff := 1, fullSince := [(0, some (powered.time - 200000))] })
         (powered.set (F.pwrADutyD 0) 16))
       s.pm.dutyOff.getLsbD 0 = true ∧ s.get (F.pwrADutyD 0) = 16 ∧ s.sinceAtLeast s.pm.fullSince 0 s.gateTicks = true)
    ∧ (let s := withPm fun m => { m with freqWait := 1 }
       s.pm.freqWait.getLsbD 0 = true ∧ s.busy 0 = false ∧ (arr0 kern).busy 0 = true)
    ∧ (let s := withPm fun m => { m with capOff := 1, rotAt := powered.time - 100000000 }
       s.pmReady = true ∧ s.get F.pwrCtlRotMs ≠ 0 ∧ 0 < (allArrays.filter fun n => s.pm.capOff.getLsbD n.val).length
         ∧ (allArrays.filter fun n => s.pm.capOff.getLsbD n.val).length < (allArrays.filter fun n => s.usable n && !s.heatHeld n).length
         ∧ s.pm.swapStep = 0 ∧ 100000 * s.get F.pwrCtlRotMs ≤ (s.time - s.pm.rotAt).toNat) := by decide +kernel

theorem witness_HeatFlowAndAgeing_readings :
    ∀ i, i < 144 → (List.replicate 144 (SensorRead.value 1150))[i]? = some (.value 1150) := by
  intro i h
  rw [List.getElem?_replicate, if_pos h]

theorem witness_HeatFlowAndAgeing :
    (powered.board.stages.getLsbD 1 = true ∧ powered.inlet - 50 ≤ 1150 ∧ powered.usable 0 = true
      ∧ powered.pm.ownTrip.getLsbD 0 = false)
    ∧ (let s := withPm fun m => { m with tripOff := 1, coolSince := [(0, some (powered.time - 10000000))] }
       s.pm.tripOff.getLsbD 0 = true ∧ s.pm.dieHot = 0 ∧ s.sinceAtLeast s.pm.coolSince 0 10000000 = true ∧ s.pm.blind.getLsbD 0 = false)
    ∧ (let s := withPm fun m => { m with diffSince := [(0, some (powered.time - 100000001))] }
       s.sinceAtLeast s.pm.diffSince 0 100000001 = true ∧ s.pm.diverged.getLsbD 0 = false)
    ∧ (powered.pmReady = true ∧ powered.usable 0 = true)
    ∧ (let s := withPm (fun m => { m with dutyOff := 1, dutySince := [(0, some (powered.time - 187500))] }) (powered.set (F.pwrADutyD 0) 15)
       s.pm.dutyOff.getLsbD 0 = true ∧ s.get (F.pwrADutyD 0) = 15 ∧ s.sinceAtLeast s.pm.dutySince 0 (12500 * s.get (F.pwrADutyD 0)) = true)
    ∧ (let s := (powered.set F.thmStatusWarmEn 1).set F.thmFloorFloor 45
       s.mayWarm 0 = true ∧ s.usedTemp 0 < ((10 * s.get F.thmFloorFloor : Nat) : Int))
    ∧ (let s : State := { powered with flash := { powered.flash with agedTicks := 720 * hourTicks } }
       s.pm.replanned.getLsbD 0 = false ∧ 720 * hourTicks ≤ s.agedFor ∧ planVoltage [(450, 209999), (455, 210000)] = some (455, 210000) ∧ s.busy 0 = false)
    ∧ (let r : Replan := ⟨455, 200, powered.time - 8640000000000⟩
       let s := withPm fun m => { m with replans := [(0, some r)] }
       SMap.look none s.pm.replans 0 = some r ∧ 24 * hourTicks ≤ (s.time - r.due).toNat)
    ∧ (let s := withPm fun m => { m with flowHigh := some (powered.time - 10000000) }
       s.flowWasHigh = true ∧ s.pm.flow = .normal ∧ powered.flowWasHigh = false ∧ s.flag F.pwrStatusFlowFault = false)
    ∧ (∀ f ∈ [FlowState.low, .loss], let s := withPm fun m => { m with flow := f, flowOkSince := some (powered.time - 100000000) }
       s.pm.flowOkSince = some (powered.time - 100000000) ∧ (s.time - (powered.time - 100000000)).toNat = 100000000 ∧ s.pm.flow = f)
    ∧ powered.board.update.pauseAt = none ∧ powered.ending = false := by decide +kernel

/-- 8 mA lies a quarter of the way from 0 at 4 mA to 2.0 L/min at 20 mA (R519). -/
theorem test_flowReading :
    after (exec (.flowReading 8000) powered) (fun t => t.get F.thmInletFlow == 500) = true := by decide +kernel
/-! ### The arbiter, the reel and serving -/

def arbiter (a : ShtInst) : State := { on.set (F.shtIStatActive 0) 1 with sht := on.sht.set 0 a }
def inst0 : ShtInst := on.sht[0]
def waitingReqs : ShtInst :=
  { inst0 with reqs := (inst0.reqs.set 3 ⟨10, [(.bar4 3, [⟨0, 64⟩, ⟨0x1000, 1⟩])], false⟩).set 4 ⟨10, [(.bar4 4, [⟨0, 1⟩])], false⟩ }

/-- A grant of 64 beats to requester 3, some slots ago. -/
def granted (slots : Nat) : State := arbiter { inst0 with owner := some ⟨3, .bar4 3, ⟨0, 64⟩, 10, slots⟩ }

theorem witness_ArbiterGrantsAndCredits :
    (let s := arbiter waitingReqs
     s.shtActive 0 = true ∧ s.sht[0].reqs[3].queue = (.bar4 3, [⟨0, 64⟩, ⟨0x1000, 1⟩]) :: [] ∧ s.sht[0].sitOut ≠ some 3
       ∧ (∀ k : Fin 10, s.sht[0].reqs[k.val].queue ≠ [] → s.sht[0].sitOut ≠ some k → k ≠ 3 →
          s.sht[0].reqs[k.val].credit < s.sht[0].reqs[3].credit ∨ (s.sht[0].reqs[k.val].credit = s.sht[0].reqs[3].credit ∧ 3 < k))
       ∧ s.shtRequester 0 (.bar4 3) = some 3 ∧ s.shtRequester 0 .completions = none ∧ (cutBursts 0xFC0 128).length = 2)
    ∧ (let s := arbiter { inst0 with reqs := inst0.reqs.set 3 ⟨10, [(.bar4 3, [⟨0, 64⟩])], false⟩, sitOut := some 3 }
       ∀ k : Fin 10, s.sht[0].reqs[k.val].queue = [] ∨ s.sht[0].sitOut = some k)
    ∧ ((granted 172).sht[0].owner = some ⟨3, .bar4 3, ⟨0, 64⟩, 10, 172⟩ ∧ 172 + (granted 172).shtSlots 0 ≥ (granted 172).shtLimit 0 (3 : Fin 10) ∧ 63 < 64)
    ∧ 171 + (granted 171).shtSlots 0 < (granted 171).shtLimit 0 (3 : Fin 10)
    ∧ (arbiter { inst0 with armed := true }).sht[0].armed = true ∧ on.board.supply = .on ∧ State.reset.board.supply ≠ .on
    ∧ nonSecure .spindle = false ∧ (1#32).getLsbD 0 = true ∧ (1#32).getLsbD 1 = false := by decide +kernel

/-- A burst of 64 beats against 10 credits empties the counter (R308). -/
theorem test_arbitration :
    after (exec (.arbitration 0) (arbiter waitingReqs)) (fun t => t.sht[0].reqs[3].credit == 0 && t.sht[0].reqs[4].credit == 10) = true := by
  decide +kernel

/-- Partition 0 with one usable array, one sequence (index 0, in a state and of a length, 256 map entries), ready reel. -/
def reeled (state len : Nat) (inTier : Bool := false) : State :=
  let s := ((((serving.set F.mltUnusableUnusable 0xFE).set (F.reelPSeqCountCount 0) 1).set (F.reelPMapCountCount 0) 256).set
    (F.reelPCtlEnable 0) 1).set F.reelStatusReady 1
  let s := ((s.set (F.attFrameBytesFrameBytes 0) 64).set (F.reelPSlotBytesBytes 0) 64).set (F.reelPFrameCountCount 0) 256
  let s : State := { s with parts := s.parts.set 0 part0 }
  ((s.setSeqBits 0 0 0 2 state).setSeqBits 0 0 8 21 len).setSeqBits 0 0 3 1 (if inTier then 1 else 0)

def capped (s : State) (cap : Nat) : State := s.setSeqBits 0 2 0 17 cap

/-- The bytes of a step descriptor with one slot of one token, for partition 0. -/
def descBytes : List Byte := leBytes 64 (7 + 2 ^ 48 + 0x40 * 2 ^ 64 + 2 ^ 128) ++ leBytes 16 (2 ^ 16)

/-- Partition 0's step address is granule 0 of array 0's vault, which it owns and where a descriptor stands. -/
def described : State := (owned (reeled 1 0)).store (vaultBase 0) descBytes
def stepping (d : StepDesc) (s : State) : State := { s with reel := { s.reel with steps := s.reel.steps.set 0 (some d) } }
def desc1 : StepDesc := ⟨7, false, [⟨0, 16, 0, 0, 0⟩], 0x40, 0, 1⟩
def pooled (l sl : List Nat) (s : State) : State := (s.setFrames 0 l).setSlots 0 sl

theorem witness_ReelStepsAndCopies_steps :
    (nonSecure .spindle = false)
    ∧ ((stepping desc1 (reeled 1 0)).reel.steps[0]).isSome = true
    ∧ (described.reel.steps[0] = none ∧ described.reel.updates = [] ∧ described.get (F.reelPStepAddrAddr 0) * 64 = vaultBase 0
       ∧ 64 + 16 * fieldAt (described.load (vaultBase 0) 64) 6 2 = 80 ∧ described.reelCause 0 true (vaultBase 0) 80 = none
       ∧ described.badIn (vaultBase 0) 80 = none
       ∧ (((described.correct (vaultBase 0) 80 5).countRead (vaultBase 0) 80).readDesc 0 (vaultBase 0)).isSome = true
       ∧ described.flag (F.reelPCtlEnable 0) = true ∧ described.flag F.reelStatusReady = true)
    ∧ ((reeled 1 0).reelCause 0 true (vaultBase 0) 64).isSome = true
    ∧ (({ owned (reeled 1 0) with ue := [vaultBase 0] } : State).badIn (vaultBase 0) 64).isSome = true
    ∧ (((owned (reeled 1 0)).correct (vaultBase 0) 64 5).countRead (vaultBase 0) 64).readDesc 0 (vaultBase 0) = none
    ∧ (let s := stepping desc1 (capped (reeled 1 16) 2)
       s.reel.steps[0] = some desc1 ∧ s.request 0 = none ∧ s.seqIn 0 0 = true ∧ s.reel.bad = [] ∧ s.seqState 0 = 1
         ∧ s.seqInTier 0 = false ∧ s.seqFallback 0 = false ∧ pagesOf (s.seqLen 0 + 16) ≤ s.seqCap 0
         ∧ (desc1.slots.map (·.seq)).Nodup ∧ metFrom 1 [1, 1] = [true, false]
         ∧ pagesOf (s.seqLen 0 + 16) - pagesOf (s.seqLen 0) = 1 ∧ (s.framePool 0).length = 0
         ∧ ((pooled [5] [] s).framePool 0).length = 1)
    ∧ (let s : State := { reeled 1 16 with reel := { (reeled 1 16).reel with updates := [(0, .pause 0)] } }
       s.reel.steps[0] = none ∧ s.reel.updates = [(0, .pause 0)]) := by decide +kernel

def reqDesc : ReqDesc := readReqDesc (leBytes 128 (2 * 2 ^ 128 + 2 ^ 164 + 0x3F800000 * 2 ^ 544 + 0x3F800000 * 2 ^ 608 + 2 ^ 224 + 2
  + 4096 * 2 ^ 352 + 0xC000004000 * 2 ^ 288 + 0xC000008000 * 2 ^ 384))
def aRequest (ph : ReqPhase) : Request := newRequest reqDesc ph 0 none
def conv (r : Option Request) : Convo :=
  { Convo.none with serial := 1, live := true, maxTokens := 4096, tokens := [(1, true), (0, true)], request := r }
def talking (s : State) (v : Convo) : State := { s with srv := { s.srv with convs := [(0, v)] } }

/-- A page copy of sequence 0 that runs, with its place. -/
def copies (k : PageCopy) (state : Nat) (inTier : Bool) : State :=
  let s := owned (reeled state 16 inTier)
  { s with reel := { s.reel with copies := [k] } }

theorem witness_ReelStepsAndCopies_copies :
    (serving.set F.twnStatusGap 1).deadlinesHeld = true
    ∧ (let u := talking ((reeled 2 16).set F.twnStatusGap 1) (conv (some { aRequest (.parked false) with q := 1 }))
       let s : State := { u with twn := { u.twn with phase := .reconciled } }
       s.deadlinesHeld = false ∧ s.startsCommands = true ∧ s.expiredParked 0 = [0] ∧ s.flag F.twnStatusGap = true)
    ∧ (let s := talking (reeled 2 16) (conv (some { aRequest (.parked false) with q := 1 }))
       s.deadlinesHeld = false ∧ s.startsCommands = true ∧ s.expiredParked 0 = [0] ∧ s.reel.bad = [] ∧ (s.request 0).isSome = true ∧ s.short 0 0 = true ∧ s.framesComing 0 = 0 ∧ s.evictable 0 0x10000 = none)
    ∧ (let s := copies ⟨0, 0, true, [3]⟩ 3 false
       s.reel.bad = [] ∧ s.nextCopy 0 true = some ⟨0, 0, true, [3]⟩ ∧ s.srv.convs = []
         ∧ s.copyParts 0 (entryFrame (s.mapEntry (s.seqMap 0))) 3 = [(0, 12288, 4096)]
         ∧ s.reelCause 0 false 0 4096 = none ∧ s.reelCause 0 false 12288 4096 = none)
    ∧ (let s := copies ⟨0, 0, false, [3]⟩ 3 true
       s.nextCopy 0 false = some ⟨0, 0, false, [3]⟩
         ∧ s.copyParts 0 3 (entryFrame (s.mapEntry (s.seqMap 0))) = [(12288, 0, 4096)]
         ∧ (let u := talking s (conv (some (aRequest .loading)))
            u.nextCopy 0 false = some ⟨0, 0, false, [3]⟩ ∧ (u.request 0).map (·.phase) = some .loading)) := by
  decide +kernel

/-- Without conversations no request loads and no hold runs. -/
theorem witness_ReelStepsAndCopies_quiet (k : PageCopy) (st : Nat) (b : Bool) :
    (copies k st b).clean ∧ (∀ i r, (copies k st b).request i = some r → r.phase ≠ .loading)
      ∧ ∀ i, ((copies k st b).conv i).holdUntil = none := by
  refine ⟨cleanOf _ rfl, fun i r h => ?_, fun i => rfl⟩
  have e : (copies k st b).request i = none := rfl
  rw [e] at h
  cases h

/-- Window 0 open for partition 0 on the host's memory from address 0, and a model of two tokens placed. -/
def hosted (s : State) : State :=
  let s := (s.set (F.pciWinCtlKind 0) 1).set (F.pciWinCtlPartition 0) 0
  { s with parts := s.parts.set 0 { part0 with model := some ⟨1, 2, true, [⟨0, 0, 0, 2, 8⟩], [], []⟩ } }

/-- A submission of one prompt token (0, at window offset 4096) and one token to generate, ring at 0x4000, control at 0x8000. -/
def submission : List Byte :=
  leBytes 128 (2 + 0xC000001000 * 2 ^ 64 + 2 ^ 128 + 2 ^ 160 + 16 * 2 ^ 192 + 2 ^ 224 + 0xC000004000 * 2 ^ 288 + 4096 * 2 ^ 352
    + 0xC000008000 * 2 ^ 384 + 0x3F800000 * 2 ^ 544 + 0x3F800000 * 2 ^ 608)
def submitted : HostStores := (List.range 128).map fun i => (i, submission.getD i 0)
def windowBase : Nat := 0xC000000000

theorem witness_RequestCommands_submit :
    let w := (started (hosted (reeled 0 0)) 0x401 0 [(8, windowBase)]).hostStores submitted
    let d := readReqDesc (w.blockRead windowBase 128)
    isStarted w 0x401 (some 0) = true ∧ w.inHostWindow 0 windowBase 128 = true ∧ min d.promptTokens 1048576 = 1
      ∧ w.inHostWindow 0 d.promptAddr 4 = true ∧ w.submitCheck 0 0 windowBase (w.blockRead windowBase 128) [0] = stOk ∧ d.cont = false
      ∧ w.freeIndex 0 = some 0
      ∧ w.mapRun 0 (pagesOf d.convMax) = some 0 ∧ w.reel.steps[0] = none
      ∧ w.submitCheck 0 0 0 (w.blockRead windowBase 128) [0] ≠ stOk := by decide +kernel

/-- The same submission, continuing the conversation of sequence 0. -/
def resubmission : List Byte := leBytes 128 (fieldAt submission 0 128 + 1 + handleOf 0 1 * 2 ^ 32 - 16 * 2 ^ 192)

theorem witness_RequestCommands_continue :
    let s := talking (started (hosted (reeled 3 16)) 0x401 0 [(8, windowBase)]) (conv none)
    let w := s.hostStores ((List.range 128).map fun i => (i, resubmission.getD i 0))
    isStarted w 0x401 (some 0) = true ∧ w.submitCheck 0 0 windowBase (w.blockRead windowBase 128) [0] = stOk
      ∧ (readReqDesc (w.blockRead windowBase 128)).cont = true := by decide +kernel

def named (op : Nat) (r : Option Request) (state : Nat := 1) : State :=
  started (talking (reeled state 16) (conv r)) op 0 [(8, handleOf 0 1)]

theorem witness_RequestCommands :
    (∀ op ∈ [0x402, 0x403, 0x404],
      isStarted (named op none) op (some 0) = true ∧ (named op none).byHandle 0 (handleOf 0 1) = some 0
        ∧ (named op none).byName 0 (handleOf 0 1) = some 0 ∧ (named op none).byName 0 (handleOf 0 2) = none
        ∧ (named op none).request 0 = none ∧ (named op none).byHandle 0 (handleOf 0 2) = none)
    ∧ ((named 0x402 (some (aRequest (.ending 1)))).request 0).map (·.phase) = some (.ending 1)
    ∧ ((named 0x402 (some { aRequest .decode with inStep := true })).request 0).map (fun r => (r.phase, r.inStep)) = some (.decode, true)
    ∧ ((named 0x402 (some (aRequest .decode))).request 0).map (fun r => (r.phase, r.inStep)) = some (.decode, false)
    ∧ (let s := talking (named 0x403 none) { conv none with deadline := some on.time }
       s.handleExpired (handleOf 0 1) s.time = true)
    ∧ ((named 0x403 none 3).handleExpired (handleOf 0 1) 0 = false ∧ (named 0x403 none 3).reel.steps[0] = none)
    ∧ ((named 0x403 (some (aRequest .decode))).request 0).isSome = true
    ∧ (let s := started (reeled 0 0) 0x405 0 [(8, 1024), (10, 8192), (12, 8192)]
       isStarted s 0x405 (some 0) = true ∧ (∀ i ∈ s.seqRange 0, (s.conv i).live = false))
    ∧ isStarted (started (reeled 0 0) 0x405 0 [(8, 1025), (10, 16), (12, 1)]) 0x405 (some 0) = true
    ∧ isStarted (started (talking (reeled 1 0) (conv (some (aRequest .queued)))) 0x405 0 [(8, 1), (10, 16), (12, 1)]) 0x405 (some 0) = true := by
  decide +kernel

/-- Sequence 0 of the hosted partition with a request. -/
def requested (r : Request) (len : Nat := 0) (state : Nat := 1) (inTier : Bool := false) : State :=
  talking (hosted (reeled state len inTier)) (conv (some r))
def posted (written : Bool) (s : State) : State :=
  { s with srv := { s.srv with posted := s.srv.posted.set 0 (some ⟨1, [0], written⟩) } }

theorem witness_RequestsRunToTheirEnd_steps :
    on.serving = false
    ∧ (let r := aRequest .queued
       let w := requested r
       w.serving = true ∧ w.srv.posted[0] = none ∧ ((w.part 0).model).isSome = true ∧ (w.part 0).live = true
         ∧ (w.part 0).destroying = false ∧ w.sessionEnded 0 = false ∧ w.reel.steps[0] = none ∧ w.reel.updates = [] ∧ w.seqRange 0 = [0] ∧ w.request 0 = some r
         ∧ r.phase = .queued ∧ r.produced = 0 ∧ 4096 ≤ r.desc.ringBytes ∧ 0 < r.left
         ∧ fieldAt (w.blockRead (r.desc.ctlAddr + 32) 8) 0 8 = 0 ∧ r.left ≤ w.srv.chunk[0] ∧ r.left ≤ w.srv.stepTokens[0]
         ∧ 0 < w.srv.maxSlots[0] ∧ r.inStep = false ∧ w.seqLen 0 + r.left ≤ (w.conv 0).maxTokens)
    ∧ (let r : Request := { aRequest .prefill with inStep := true, sampled := true, cancel := true }
       let s := (posted true (requested r)).set F.smpStatusReady 1
       s.srv.posted[0] = some ⟨1, [0], true⟩ ∧ ((s.part 0).model).isSome = true ∧ s.flag F.smpStatusReady = true ∧ s.request 0 = some r)
    ∧ (let r : Request := { aRequest .prefill with inStep := true, sampled := true, desc := { reqDesc with temperature := 0, maxNew := 2 } }
       let s := (posted true (requested r)).set F.smpStatusReady 1
       let l := s.readLogits 0 ⟨1, 2, true, [⟨0, 0, 0, 2, 8⟩], [], []⟩ 0
       (0 ∉ s.srv.badEntries ∧ 0 ∈ ({ s with srv := { s.srv with badEntries := [0] } } : State).srv.badEntries) ∧ s.request 0 = some r ∧ r.cancel = false ∧ (∀ y ∈ l.2, f32IsNaN y.2 = false)
         ∧ sample r.desc (s.conv 0).tokens (s.conv 0).tokens.length l.2 = some (0, 0)
         ∧ (r.desc.stop.filter fun y => y != 0xFFFFFFFF).contains 1 = false ∧ r.generated + 1 < r.desc.maxNew) := by decide +kernel

theorem witness_RequestsRunToTheirEnd_ends :
    (let r := aRequest .stalled
     let w := requested r
     w.request 0 = some r ∧ w.serving = true ∧ fieldAt (w.blockRead (r.desc.ctlAddr + 32) 8) 0 8 ≤ r.produced
       ∧ r.produced - fieldAt (w.blockRead (r.desc.ctlAddr + 32) 8) 0 8 < r.desc.records ∧ r.inStep = false)
    ∧ (let r := aRequest (.ending 4)
       let w := requested r
       w.request 0 = some r ∧ w.deadlinesHeld = false ∧ r.desc.keep = true
         ∧ fieldAt (w.blockRead (r.desc.ctlAddr + 32) 8) 0 8 ≤ r.produced
         ∧ r.produced - fieldAt (w.blockRead (r.desc.ctlAddr + 32) 8) 0 8 < r.desc.records ∧ r.inStep = false)
    ∧ (serving.set F.twnStatusGap 1).deadlinesHeld = true
    ∧ (let s := talking (pooled [] [9] (hosted (reeled 3 16))) { conv none with deadline := some on.time, holdUntil := some on.time }
       s.deadlinesHeld = false ∧ (s.conv 0).live = true ∧ s.request 0 = none ∧ s.seqState 0 = 3 ∧ s.seqInTier 0 = false
         ∧ s.copying 0 = false ∧ s.seqFallback 0 = false ∧ s.readInTime 0 on.time = false ∧ pagesOf (s.seqLen 0) ≤ (s.slotPool 0).length
         ∧ on.time.toNat ≤ s.time.toNat)
    ∧ (let r : Request := { aRequest .loading with loadSince := some 0 }
       let s := requested r 16 3 true
       s.deadlinesHeld = false ∧ s.request 0 = some r ∧ s.copying 0 = false ∧ s.reel.bad = [] ∧ s.get (F.reelPParkTimeoutTicks 0) ≤ (s.time - 0).toNat
         ∧ s.seqInTier 0 = true ∧ s.flag F.twnStatusGap = false ∧ (s.framePool 0).length < pagesOf (s.seqLen 0) ∧ s.framesComing 0 = 0 ∧ s.evictable 0 0 = none
         ∧ pagesOf (s.seqLen 0) ≤ ((pooled [4] [] s).framePool 0).length) := by decide +kernel
/-! ### Video and security -/

/-- Partition 0 owns tier granule 0, with window 0 open for it and Hawkmoth ready; the host has written input count n. -/
def screening (n : Nat) : State :=
  let s := ((hosted (owned serving)).set F.hwkStatusReady 1).hostStores [(0x10000, BitVec.ofNat 8 n)]
  { s with tierTags := [(0, 0x08#8)] }

/-- A session descriptor of 64 × 64 pixels, 8 bits, 1 fps: kind and more fields given; its pool in the tier. -/
def vidDesc (fields : List (Nat × Nat)) : List Byte :=
  leBytes 128 (([(2, 8), (4, 64), (6, 64), (8, 1000), (12, 4), (16, tierBase), (24, windowBase + 0x1000), (32, 4096), (36, 4096),
    (40, windowBase + 0x2000), (48, windowBase + 0x10000), (76, 1)] ++ fields).map fun (f : Nat × Nat) => f.2 * 2 ^ (8 * f.1)).sum
def decoder : Session := newSession 0 (vidDesc [])
def encoder : Session :=
  newSession 0 (vidDesc [(0, 1), (3, 1), (14, 1), (56, windowBase + 0x100000), (64, 0x10000), (68, 0), (70, 5), (72, 0x1000)])
def showing (n : Nat) (i : Fin 48) (v : Session) : State := (screening n).setSes i (some v)
/-- An input entry: a buffer and nothing more. -/
def entry1 : List Byte := leBytes 32 0
/-- A key frame, or buffer 0 shown again; a unit of such frames; the headers of a stream that the decoder supports. -/
def frame1 (shown : Option Nat) : FrameHead := ⟨shown.isNone, shown, [], false, 0, 64⟩
def unit1 (bad : Bool) (frames : List FrameHead) : VidUnit := ⟨0, true, false, false, bad, frames, 0, [], 64, 64⟩
def header1 (level : Nat) : PicHeader := ⟨true, .main, level, false, true, 8, 64, 64, 1, [], [frame1 none], []⟩
def pipe2 (pipe : Fin 4) (packets : Nat) : InPipe :=
  ⟨pipe, some 0, none, 0, true, false, 0, false, [], 64, 64, 64, 30, 0, packets, false, 0, 0⟩
/-- What a pipe did with a picture of no blocks, or of one whose vector lies outside every reference. -/
def result1 (inter : Bool) : PicResult := ⟨[], 0, [], [], true, [], [], [], if inter then [⟨0, 0, 64, 64, false, 1, 0, 0, .search 0 0, none, true⟩] else [], [], [], 0⟩

theorem witness_VideoSessionsAndPictures_open :
    let hw : HostStores := (List.range 128).map fun i => (0x30000 + i, (vidDesc []).getD i 0)
    let s := started (screening 0) 0x501 0 [(8, windowBase + 0x30000)]
    let w := s.hostStores hw
    let r := w.vidRead 0 (windowBase + 0x30000) 128
    let v := newSession 0 r.2
    isStarted w 0x501 (some 0) = true ∧ w.vidPlace 0 (windowBase + 0x30000) 128 = true ∧ w.vidPlace 0 0 128 = false
      ∧ r.1.vidPlaced 0 (windowBase + 0x30000) v = true ∧ vidDescOk (windowBase + 0x30000) v = true ∧ r.1.vidNumber true = some 0
      ∧ r.1.flag F.hwkStatusReady = true ∧ r.1.vidLoad true + v.cost ≤ 4000000000000
      ∧ (w.set F.hwkStatusReady 0).flag F.hwkStatusReady = false
      ∧ w.vidPlaced 0 (windowBase + 0x30000) (newSession 0 (List.replicate 128 0)) = false
      ∧ vidDescOk (windowBase + 0x30000) (newSession 0 (vidDesc [(2, 1)])) = false
      ∧ w.vidPlaced 0 (windowBase + 0x30000) (newSession 0 (vidDesc [(2, 1)])) = true := by decide +kernel

theorem witness_VideoSessionsAndPictures_commands :
    (∀ op ∈ [0x502, 0x503, 0x504], ∀ i ∈ [(31 : Fin 48), 32, 47],
      let s := started (showing 0 i decoder) op 0 [(8, i.val)]
      isStarted s op (some 0) = true ∧ s.vidNamed 0 i.val = some i ∧ s.vidNamed 0 48 = none ∧ (s.ses i).isSome = true)
    ∧ decoder.isClosing = false ∧ decoder.inPipe = none
    ∧ (let v : Session := { decoder with closing := some c0 }
       v.isClosing = true ∧ v.closing = some c0 ∧ { v with closing := none, closeAll := true }.isClosing = true
         ∧ (none : Option CmdRef) ≠ some c0)
    ∧ ({ decoder with inPipe := some (pipe2 0 0) } : Session).inPipe.isSome = true := by decide +kernel

/-- A session with what waits in it, on a free pipe of its direction. -/
def takes (i : Fin 48) (v : Session) : Bool :=
  let s := showing 1 i v
  s.flag F.hwkStatusReady && !s.flag F.spnStatusDraining && !s.flag F.spnStatusDrained && (s.inPipeOf (if v.decodes then 0 else 2)).isNone
    && s.nextReady v.decodes == some i && ((s.vidPoll i).ses i).any fun u => !u.ready.isEmpty && u.decodes == v.decodes
      && u.unit == v.unit && u.units == v.units && u.entries == v.entries && u.decoded == v.decoded && u.skip == v.skip
      && u.freeBuf == some 0 && (s.vidPoll i).get (F.hwkSStatState i) != 4

theorem witness_VideoSessionsAndPictures_poll :
    (∀ v ∈ [decoder, encoder],
      let s := showing 128 0 v
      let bs := (s.vidRead 0 v.ctl 40).2
      (s.ses 0).isSome = true ∧ v.isClosing = false ∧ v.inSize = 128 ∧ fieldAt bs 0 8 = 128 ∧ v.inSeen ≤ 128
        ∧ 128 ≤ v.inDone + v.inSize ∧ fieldAt bs 24 8 = 0 ∧ fieldAt bs 32 8 = 0 ∧ v.outSeen = 0 ∧ v.statsSeen = 0
        ∧ ¬ fieldAt ((showing 129 0 v).vidRead 0 v.ctl 40).2 0 8 ≤ v.inDone + v.inSize) := by decide +kernel

theorem witness_VideoSessionsAndPictures_pipes :
    takes 32 { encoder with entries := [entry1], inSeen := 1, ready := [(0, 0)] } = true
    ∧ takes 31 { decoder with units := [unit1 false []], inSeen := 1, inDone := 1, ready := [(0, 0)] } = true
    ∧ takes 31 { decoder with units := [unit1 true []], inSeen := 1, inDone := 1, ready := [(0, 0)] } = true
    ∧ decoder.streamOk (header1 30) = true ∧ decoder.streamOk (header1 52) = false
    ∧ (header1 30).frames = frame1 none :: [] ∧ (frame1 none).key = true
    ∧ takes 31 { decoder with unit := some (unit1 false [frame1 none]), inSeen := 1, inDone := 1, ready := [(0, 0)] } = true
    ∧ (let d : DecPic := ⟨0, 0, true, false, false, 0, 0, true, []⟩
       takes 31 { decoder with unit := some (unit1 false [frame1 (some 0), frame1 none]), inSeen := 1, inDone := 1, ready := [(0, 0), (1, 0)]
                               decoded := [d] } = true
         ∧ (frame1 (some 0)).showExisting = some 0 ∧ [d].find? (fun d => d.buffer == 0) = some d)
    ∧ (let s := showing 0 32 { encoder with inPipe := some (pipe2 3 0) }
       s.inPipeOf 0 = none ∧ s.inPipeOf 3 = some 32 ∧ (pipe2 3 0).packets = 0 ∧ (pipe2 3 1).packets ≠ 0
         ∧ encoder.choiceOk (pipe2 3 0) (result1 false) = true ∧ encoder.choiceOk (pipe2 3 0) (result1 true) = false ∧ s.residualOk encoder (pipe2 3 0) (result1 false) = true
         ∧ ({ encoder with closeAll := true } : Session).isClosing = true ∧ encoder.isClosing = false)
    ∧ (showing 0 31 { decoder with inPipe := some (pipe2 1 0) }).inPipeOf 1 = some 31 ∧ decoder.decodes = true := by
  decide +kernel

theorem witness_VideoSessionsAndPictures_outputs :
    (let o : OutPic := ⟨0, 0, 0, 0, 0, false, false, true, []⟩
     let v : Session := { decoder with due := [o, outEnd] }
     v.due = o :: [outEnd] ∧ v.outFree ≠ 0 ∧ o.isEnd = false ∧ outEnd.isEnd = true ∧ ({ v with outMade := 128 } : Session).outFree = 0)
    ∧ (let v : Session := { encoder with inPipe := some (pipe2 2 1) }
       let us := [PacketUnit.slice [1]]
       let full : Session := { v with bsHead := 0x10000, bsUsed := 0x10000 }
       v.outFree ≠ 0 ∧ v.packetOk (pipe2 2 1) us = true ∧ v.packetOk (pipe2 2 1) [.tileGroup [1]] = false
         ∧ v.packetPlace 1 = (0, 0) ∧ v.bsUsed + (0 + 1) ≤ v.bsBytes
         ∧ ({ v with bsHead := 0xFFFF, bsUsed := 0xFFFF } : Session).packetPlace 1 = (0xFFFF, 0)
         ∧ full.packetPlace 1 = (0, 0) ∧ ¬ full.bsUsed + (0 + 1) ≤ full.bsBytes ∧ full.packetOk (pipe2 2 1) us = true
         ∧ full.isClosing = false ∧ ({ full with closeAll := true } : Session).isClosing = true)
    ∧ (let v : Session := { encoder with stats := [(0, true, false, 0, List.replicate 8 1)] }
       let s := showing 0 32 v
       v.statsMade < v.statsSeen + v.statsBuffers ∧ v.statsArray = (0 : ArrayNum).val ∧ s.inPart v.part 0 = true
         ∧ s.usable 0 = true ∧ 0 < v.statsBuffers ∧ v.statsOffset + v.statsBuffers * v.statsSize ≤ 0x800000
         ∧ 64 + (List.replicate 8 (1 : Byte)).length ≤ v.statsSize
         ∧ v.statsSkips = false ∧ (s.set F.mltUnusableUnusable 1).usable 0 = false
         ∧ v.statsSeen + v.statsBuffers ≤ ({ v with statsMade := 1 } : Session).statsMade
         ∧ (newSession 0 (vidDesc [(0, 1), (3, 3)])).statsSkips = true) := by decide +kernel

theorem witness_VideoSessionsAndPictures_clean : (showing 0 32 encoder).clean := cleanOf _ rfl

/-- A partition-0 session in Production: finished, hybrid step done, bound or not. -/
def session1 (part : Option PartNum) (prk : Option (List Byte)) : Spdm := ⟨5, 0, true, [], prk, [], [], part, 1, on.time, 0⟩
def secured (x : List Spdm) (sealed_ : Bool) : State :=
  let s := (hosted (owned serving)).set F.cocStatusReady 1
  let s := if sealed_ then s.set F.cocSealSealed 1 else s
  { s with coc := { s.coc with sessions := x, tree := some 0 }, tierTags := [(0, if sealed_ then 0x18#8 else 0x08#8)] }

theorem witness_SecurityCommands_attest :
    (let s := started ((secured [] false).set F.cocLifecycleState 2) 0x801 0 [(40, windowBase)]
     isStarted s 0x801 (some 0) = true ∧ s.inProduction = false)
    ∧ (let s := started (secured [] false) 0x801 0 [(40, windowBase)]
       isStarted s 0x801 (some 0) = true ∧ s.inProduction = true ∧ windowBase % 64 = 0 ∧ s.inHostWindow 0 windowBase 5748 = true
         ∧ s.inHostWindow 0 0 5748 = false ∧ SMap.look none s.coc.lastReport 0 = none ∧ s.flag F.cocStatusLmsExhausted = false
         ∧ s.treeUsable = true ∧ ({ s with coc := { s.coc with tree := none } } : State).treeUsable = false
         ∧ (s.set F.cocStatusLmsExhausted 1).flag F.cocStatusLmsExhausted = true
         ∧ (let u : State := { s with coc := { s.coc with lastReport := [(0, some (s.time - 9999999))] } }
            SMap.look none u.coc.lastReport 0 = some (s.time - 9999999) ∧ (u.time - (s.time - 9999999)).toNat < 10000000))
    ∧ (let s := started (secured [] false) 0x801 0xFF [(40, windowBase)]
       isStarted s 0x801 none = true ∧ s.inProduction = true ∧ s.treeUsable = true ∧ c0.src = .pair 0
         ∧ SMap.look none s.coc.lastReport 8 = none) := by
  decide +kernel

theorem witness_SecurityCommands_sessions :
    (let s := started (secured [session1 none (some [])] false) 0x802 0 [(8, 5)]
     isStarted s 0x802 (some 0) = true ∧ s.inProduction = true ∧ s.spdmSession 5 = some (session1 none (some []))
       ∧ s.spdmSession 6 = none ∧ s.isSealed 0 = false ∧ (session1 none none).prk = none ∧ (secured [] true).isSealed 0 = true)
    ∧ (let u := secured [session1 (some 0) (some [])] true
       let s := started (u.modStream 1 3 fun x => { x with session := some 5, keys := [(0, .posted, [])] }) 0x804 0 [(8, 3), (9, 1)]
       isStarted s 0x804 (some 0) = true ∧ s.isSealed 0 = true ∧ (s.stream 1 3).session = (s.boundSession 0).map (·.id)
         ∧ (s.stream 1 3).keys ≠ [] ∧ (s.stream 1 3).part = none ∧ (s.stream 0 3).session = none) := by decide +kernel

/-- The header of a blob of 64 bytes with sequence number 1, at the start of window 0. -/
def blobHeader : List Byte := leBytes 64 (1 + 2 ^ 32 + 64 * 2 ^ 64)

theorem witness_SecurityCommands_imports :
    (let hw : HostStores := (List.range 64).map fun i => (i, blobHeader.getD i 0)
     let s := started (secured [session1 (some 0) (some [])] true) 0x803 0 [(8, windowBase), (16, tierBase), (24, 144)]
     let w := s.hostStores hw
     let h := (w.importRead 0 windowBase 64).2
     isStarted w 0x803 (some 0) = true ∧ w.inProduction = true ∧ w.boundSession 0 = some (session1 (some 0) (some []))
       ∧ w.sessionLive 0 = true ∧ w.inHostWindow 0 windowBase 144 = true ∧ w.importDest 0 tierBase 64 = true
       ∧ fieldAt h 0 2 = 1 ∧ fieldAt h 2 2 = 0 ∧ (∀ b ∈ h.drop 28, b = 0) ∧ fieldAt h 8 8 = 64 ∧ blobLen 64 = 144
       ∧ fieldAt h 4 4 = 1 ∧ (started (secured [] true) 0x803 0 []).boundSession 0 = none)
    ∧ (let k : Import := ⟨c0, 0, 5, windowBase, tierBase, 0x200000, blobHeader, 0x100000⟩
       let u := withCmds (secured [session1 (some 0) (some [])] true) [aCmd (bytesOf 0x803 0 []) .running (.importing 0x100000)]
       let s : State := { u with coc := { u.coc with imports := [k] } }
       (s.cmd c0).isSome = true ∧ k.ref = c0 ∧ (s.coc.imports.find? fun y => y.ref == c0) = some k ∧ (s.spdmSession k.session).isSome = true
         ∧ k.len ≤ k.done + min 0x100000 (k.len - k.done) ∧ 0 + min 0x100000 (k.len - 0) < k.len) := by decide +kernel

/-- A chunk whose places still belong to the partition, and one whose source window has closed. -/
theorem witness_SecurityCommands_chunks :
    let s := secured [session1 (some 0) (some [])] true
    (s.importSrc 0 (windowBase + 64 + 0x100010) 0x100010 = true ∧ s.importDest 0 (tierBase + 0x100000) 0x100000 = true
      ∧ s.importMay 0 (tierBase + 0x100000) = true)
    ∧ (s.set (F.pciWinCtlKind 0) 0).importSrc 0 (windowBase + 64) 0x100010 = false := by decide +kernel

/-- An import of partition 0 whose session ends with port 0, half done. -/
theorem witness_LinksTrainAndDrop_import :
    let k : Import := ⟨c0, 0, 5, windowBase, tierBase, 0x200000, blobHeader, 0x100000⟩
    let u := secured [session1 (some 0) (some [])] true
    let s : State := { u with coc := { u.coc with imports := [k] } }
    s.flag (F.pciLinkUp 0) = true ∧ s.coc.imports = [k] ∧ s.coc.sessions = [session1 (some 0) (some [])]
      ∧ (session1 (some 0) (some [])).id = k.session ∧ (session1 (some 0) (some [])).port = 0 ∧ k.dest % 64 = 0 ∧ k.done % 64 = 0
      ∧ ∀ g ∈ granulesOf k.dest k.done, s.importMay k.part (max g k.dest) = true := by decide +kernel

theorem witness_SecurityCommands_clean :
    (withCmds (secured [session1 (some 0) (some [])] true) [aCmd (bytesOf 0x803 0 []) .running (.importing 0x100000)]).clean :=
  cleanOf _ rfl

theorem witness_SecurityCommands_lifecycle :
    (let s := started serving 0x805 0xFF [(8, 2)]
     isStarted s 0x805 none = true ∧ s.lifecycle = 1 ∧ (s.set F.cocLifecycleState 2).lifecycle = 2
       ∧ (s.set F.cocLifecycleState 0).lifecycle = 0)
    ∧ on.flag F.cocStatusTreePending = false
    ∧ (let s := (secured [] false).set F.cocStatusTreePending 1
       s.flag F.cocStatusTreePending = true ∧ s.coc.tree.isSome = true ∧ (on.set F.cocStatusTreePending 1).coc.tree = none) := by
  decide +kernel

/-- No partition exists and nothing waits, so the life-cycle step need not wait. -/
theorem witness_SecurityCommands_calm :
    (let s := started serving 0x805 0xFF [(8, 2)]
     s.spn.cmds.all (fun m => m.wait == .none) = true ∧ ∀ p, (s.part p).todo = [] ∧ (s.part p).live = false) := by decide +kernel

/-- A token that both of Gosait's life-cycle signatures verify is good, and one that either does not is not. -/
theorem witness_SecurityCommands_token (s : State) (token : List Byte)
    (h : Config.ecdsaVerify Config.lifeAuthority.1 (s.tokenMessage 2) (bytesAt token 0 96) = true)
    (g : Config.hssVerify Config.lifeAuthority.2 (s.tokenMessage 2) (token.drop 96) = true) : s.tokenOk 2 token = true := by
  simp [State.tokenOk, h, g]

theorem witness_SpdmAndIdeRequests :
    (let s := (secured [] false).set F.cocLifecycleState 2
     s.doeReady 1 = true ∧ s.inProduction = false)
    ∧ (let s := secured [session1 none none] false
       s.doeReady 0 = true ∧ s.inProduction = true ∧ s.coc.sessions.length < 16 ∧ s.spdmSession 6 = none ∧ s.spdmOn 0 6 = none
         ∧ s.spdmOn 1 5 = none ∧ s.spdmOn 0 5 = some (session1 none none) ∧ s.spdmSession 5 = some (session1 none none)
         ∧ (s.time - (session1 none none).lastHeard).toNat < 12000000000 ∧ (session1 none none).finished = true)
    ∧ 16 ≤ (secured (List.replicate 16 (session1 none none)) false).coc.sessions.length
    ∧ (let s := (secured [session1 (some 0) (some [])] true).modStream 0 3 fun x =>
         { x with session := some 5, keys := [(1, .posted, []), (1, .nonPosted, []), (1, .completion, [])], active := some 1 }
       (s.stream 0 3).session = some 5 ∧ (s.stream 0 3).active.isSome = true ∧ (s.stream 0 2).active = none
         ∧ (∀ sub ∈ [SubStream.posted, .nonPosted, .completion], ∃ z ∈ (s.stream 0 3).keys, z.1 = 1 ∧ z.2.1 = sub)
         ∧ (∀ z ∈ (s.stream 0 3).keys, ¬ (z.1 = 0 ∧ z.2.1 = .posted)) ∧ (s.stream 0 3).part = none
         ∧ (session1 (some 0) (some [])).part.isSome = true ∧ (List.replicate 32 0#8).length = 32
         ∧ (List.replicate 1568 0#8).length = 1568 ∧ (0 : BitVec 16) ≠ pciSig ∧ (0x7E#8) ≠ 0xFE#8)
    ∧ (let x : Spdm := { session1 none none with finished := false, lastHeard := on.time - 12000000000 }
       let s := secured [x] false
       s.spdmOn 0 5 = some x ∧ x.finished = false ∧ (s.time - x.lastHeard).toNat = 12000000000) := by decide +kernel

/-- The CRC-32C of four zero bytes and of twelve, by hand from its polynomial. -/
theorem test_crc32c : crc32c (leBytes 4 0) = 0x48674BC7 ∧ crc32c (leBytes 12 0) = 0x2B60B55D := by decide +kernel

end Sys2Proof.Tests
end

section
/-!
PROOFS. Register accesses of the scope chapter (R10 to R13, R16, R37): what the tables of registers say of their fields,
what a write of one field leaves, what an access by one of the module's own blocks comes to, and from these the
obligations on access classes, bad accesses and the latches of 64-bit registers.
-/

namespace Sys2Proof.Machine

/-! ### The register tables -/

/-- Two fields of a register share no bit. -/
def FieldDef.apart (f g : FieldDef) : Bool := decide (f.lo + f.width ≤ g.lo) || decide (g.lo + g.width ≤ f.lo)

theorem FieldDef.apart_comm {f g : FieldDef} (h : f.apart g = true) : g.apart f = true := by
  simpa [FieldDef.apart, or_comm] using h

/-- A row's fields lie inside its register, and no two of them share a bit. -/
def RegDef.laidOut (r : RegDef) : Prop :=
  (∀ f ∈ r.fields, f.lo + f.width ≤ if r.wide then 64 else 32) ∧ r.fields.Pairwise fun f g => f.apart g = true

/-- Every register of every window is laid out. -/
theorem windowRegs_laidOut (b : Nat) : ∀ r ∈ windowRegs b, r.laidOut := by
  unfold RegDef.laidOut windowRegs
  split
  · decide +kernel
  · split <;> decide +kernel

theorem windowRegs_array {b : Nat} (hb : b < 64) : windowRegs b = arrayRegs := if_pos hb

/-- A register found at an offset is a row of the table that holds the offset. -/
theorem findReg_some {l : List RegDef} {off : Nat} {h : RegHit} (hf : findReg l off = some h) :
    h.row ∈ l ∧ h.row.match? off = some (h.index, h.high) := by
  induction l with
  | nil => cases hf
  | cons r t ih =>
    unfold findReg at hf
    split at hf
    · next i hi e => cases hf; exact ⟨List.mem_cons_self .., e⟩
    · obtain ⟨hm, e⟩ := ih hf; exact ⟨List.mem_cons_of_mem _ hm, e⟩

/-- Only a wide register has a high word. -/
theorem high_eq_false_of_narrow {r : RegDef} {off i : Nat} {hi : Bool} (hw : r.wide = false)
    (h : r.match? off = some (i, hi)) : hi = false := by
  simp only [RegDef.match?, hw, Bool.false_eq_true, if_false] at h
  split at h
  · cases h
  · split at h
    · cases h
    · simp only [Option.ite_none_right_eq_some, Option.some.injEq, Prod.mk.injEq] at h
      exact h.2.2.symm

/-- The two patrol controls are registers of one word (R161). -/
theorem patrol_controls_narrow :
    (findReg tierRegs 0x14).all (fun h => !h.row.wide) = true ∧ (findReg arrayRegs 0x8010).all (fun h => !h.row.wide) = true := by
  decide +kernel

/-- The first knot's register is no high word (R133). -/
theorem first_knot_low : (findReg arrayRegs 0x4000).all (fun h => !h.high) = true := by decide +kernel

/-! ### Bits of a number -/

theorem testBit_bitsAt (v lo w i : Nat) : (bitsAt v lo w).testBit i = (decide (i < w) && v.testBit (lo + i)) := by
  rw [bitsAt, Nat.testBit_mod_two_pow, Nat.testBit_div_two_pow, Nat.add_comm]

theorem bitsAt_lt (v lo w : Nat) : bitsAt v lo w < 2 ^ w := Nat.mod_lt _ (Nat.two_pow_pos w)

/-- A bit of a word from which the bits that a field's value sets are cleared (R12). -/
theorem testBit_clear (a : Word) (x lo i : Nat) (hi : i < 32) :
    (a &&& ~~~(BitVec.ofNat 32 (x * 2 ^ lo))).toNat.testBit i = (a.toNat.testBit i && !(decide (lo ≤ i) && x.testBit (i - lo))) := by
  rw [BitVec.testBit_toNat, BitVec.getLsbD_and, BitVec.getLsbD_not, BitVec.getLsbD_ofNat, Nat.testBit_mul_two_pow,
    BitVec.testBit_toNat]
  simp [hi]

/-- Clearing bits of a field clears in the field the bits that are 1. -/
theorem bitsAt_clear_self (a : Word) {x lo w : Nat} (hx : x < 2 ^ w) (hfit : lo + w ≤ 32) :
    bitsAt (a &&& ~~~(BitVec.ofNat 32 (x * 2 ^ lo))).toNat lo w = bitsAt a.toNat lo w &&& (2 ^ w - 1 - x) := by
  refine Nat.eq_of_testBit_eq fun i => ?_
  rw [Nat.testBit_and, testBit_bitsAt, testBit_bitsAt, Nat.sub_sub, Nat.add_comm 1 x, Nat.testBit_two_pow_sub_succ hx]
  by_cases hi : i < w
  · rw [testBit_clear _ _ _ _ (by omega)]
    simp [hi]
  · simp [hi]

/-- Clearing bits of a field keeps the bits below and above it. -/
theorem bitsAt_clear_apart (a : Word) {x lo w lo' w' : Nat} (hx : x < 2 ^ w) (hfit : lo' + w' ≤ 32)
    (ha : lo + w ≤ lo' ∨ lo' + w' ≤ lo) :
    bitsAt (a &&& ~~~(BitVec.ofNat 32 (x * 2 ^ lo))).toNat lo' w' = bitsAt a.toNat lo' w' := by
  refine Nat.eq_of_testBit_eq fun i => ?_
  rw [testBit_bitsAt, testBit_bitsAt]
  by_cases hi : i < w'
  · rw [testBit_clear _ _ _ _ (by omega)]
    rcases ha with ha | ha
    · have hz : x.testBit (lo' + i - lo) = false :=
        Nat.testBit_lt_two_pow (hx.trans_le (Nat.pow_le_pow_right (by omega) (by omega)))
      simp [hz]
    · simp [show ¬ lo ≤ lo' + i by omega]
  · simp [hi]

/-! ### Words and fields of the register store -/

section
variable {s t : State}

/-- Setting a field changes nothing but registers. -/
theorem set_eq_regs (f : Fld) (v : Nat) : s.set f v = { s with regs := (s.set f v).regs } := by
  unfold State.set
  split <;> rfl

/-- Setting a field of one word leaves every other word. -/
theorem reg_set_ne {key lo w v x : Nat} (hx : x ≠ key) : (s.set ⟨key, lo, w, false⟩ v).reg x = s.reg x :=
  reg_setReg_ne _ hx

/-- A register word depends on the register store only. -/
theorem reg_congr (h : t.regs = s.regs) (x : Nat) : t.reg x = s.reg x := by unfold State.reg; rw [h]

theorem reg64_mod (key : Nat) : s.reg64 key % 2 ^ 32 = (s.reg key).toNat := by
  unfold State.reg64; have := (s.reg key).isLt; omega

theorem reg64_div (key : Nat) : s.reg64 key / 2 ^ 32 = (s.reg (key + 4)).toNat := by
  unfold State.reg64; have := (s.reg key).isLt; omega

theorem get_narrow (k lo w : Nat) : s.get ⟨k, lo, w, false⟩ = bitsAt (s.reg k).toNat lo w := rfl

theorem get_wide (k lo w : Nat) : s.get ⟨k, lo, w, true⟩ = bitsAt (s.reg64 k) lo w := rfl

/-! ### One field's write (R12) -/

variable {key : Nat} {lock : Bool} {f : FieldDef} {v : Nat}

/-- A field of a word that is set to bits of a number reads those bits. -/
theorem bitsAt_set_self {k : Nat} (hfit : f.lo + f.width ≤ 32) :
    bitsAt ((s.set ⟨k, f.lo, f.width, false⟩ (bitsAt v f.lo f.width)).reg k).toNat f.lo f.width = bitsAt v f.lo f.width := by
  rw [← get_narrow, get_set_self (by simpa [Fld.fits] using hfit)]
  exact Nat.mod_eq_of_lt (bitsAt_lt ..)

/-- Setting a field keeps the bits of every field apart from it, in every word. -/
theorem bitsAt_set_apart {g : FieldDef} (hg : g.lo + g.width ≤ 32) (ha : f.apart g = true) (x : Nat) {k y : Nat} :
    bitsAt ((s.set ⟨k, f.lo, f.width, false⟩ y).reg x).toNat g.lo g.width = bitsAt (s.reg x).toNat g.lo g.width := by
  by_cases hk : x = k
  · subst hk
    rw [← get_narrow, get_set_apart (by simpa [Fld.fits] using hg) (by simpa [Fld.apart, FieldDef.apart] using ha), get_narrow]
  · rw [reg_set_ne hk]

/-- What a field reads after a write, from what it read before and what is written to it (R12). -/
def FieldDef.written (f : FieldDef) (old new : Nat) : Nat :=
  match f.access with
  | .rw | .rwl => new
  | .w1c => old &&& (2 ^ f.width - 1 - new)
  | _ => old

/-- What a field's write is, by the field's class: the bits go to the word, or to its shadow copy, or clear the bits written
1, or the write is dropped (R12, R13, R15). -/
theorem writeField_cases (s : State) (key : Nat) (lock : Bool) (f : FieldDef) (v : Nat) :
    ((f.access = .rw ∨ f.access = .rwl ∧ lock = false)
      ∧ s.writeField key lock f v = s.set ⟨key, f.lo, f.width, false⟩ (bitsAt v f.lo f.width)) ∨
    (f.access = .rws ∧ s.writeField key lock f v = s.set ⟨key + 0x80000, f.lo, f.width, false⟩ (bitsAt v f.lo f.width)) ∨
    (f.access = .w1c
      ∧ s.writeField key lock f v = s.setReg key (s.reg key &&& ~~~(BitVec.ofNat 32 (bitsAt v f.lo f.width * 2 ^ f.lo)))) ∨
    ((f.access = .ro ∨ f.access = .wo ∨ f.access = .rwl ∧ lock = true) ∧ s.writeField key lock f v = s) := by
  unfold State.writeField
  cases f.access with
  | rwl => cases lock <;> simp
  | _ => simp

/-- A field's write changes nothing but registers. -/
theorem writeField_eq_regs : s.writeField key lock f v = { s with regs := (s.writeField key lock f v).regs } := by
  rcases writeField_cases s key lock f v with ⟨-, e⟩ | ⟨-, e⟩ | ⟨-, e⟩ | ⟨-, e⟩ <;>
    rw [e]
  · exact set_eq_regs ..
  · exact set_eq_regs ..
  · rfl

/-- A field's write changes its register word only, or, for a staged field, that word's shadow copy. -/
theorem reg_writeField_ne {x : Nat} (hx : if f.access = .rws then x ≠ key + 0x80000 else x ≠ key) :
    (s.writeField key lock f v).reg x = s.reg x := by
  rcases writeField_cases s key lock f v with ⟨hf, e⟩ | ⟨hf, e⟩ | ⟨hf, e⟩ | ⟨-, e⟩ <;>
    rw [e]
  · rw [if_neg (by rcases hf with hf | hf <;> simp [hf])] at hx
    exact reg_set_ne hx
  · rw [if_pos hf] at hx
    exact reg_set_ne hx
  · rw [if_neg (by simp [hf])] at hx
    exact reg_setReg_ne _ hx

/-- A field's write keeps the bits of every field apart from it, in every word. -/
theorem bitsAt_writeField_apart {g : FieldDef} (hg : g.lo + g.width ≤ 32) (ha : f.apart g = true) (x : Nat) :
    bitsAt ((s.writeField key lock f v).reg x).toNat g.lo g.width = bitsAt (s.reg x).toNat g.lo g.width := by
  rcases writeField_cases s key lock f v with ⟨-, e⟩ | ⟨-, e⟩ | ⟨-, e⟩ | ⟨-, e⟩ <;>
    rw [e]
  · exact bitsAt_set_apart hg ha x
  · exact bitsAt_set_apart hg ha x
  · by_cases hk : x = key
    · subst hk
      rw [reg_setReg_self]
      exact bitsAt_clear_apart _ (bitsAt_lt ..) hg (by simpa [FieldDef.apart] using ha)
    · rw [reg_setReg_ne _ hk]

/-- After its write, unless it is dropped, a field reads what its class says. -/
theorem bitsAt_writeField_self (hfit : f.lo + f.width ≤ 32) (hl : lock = false ∨ f.access ≠ .rwl) :
    bitsAt ((s.writeField key lock f v).reg key).toNat f.lo f.width
      = f.written (bitsAt (s.reg key).toNat f.lo f.width) (bitsAt v f.lo f.width) := by
  unfold FieldDef.written
  rcases writeField_cases s key lock f v with ⟨hf, e⟩ | ⟨hf, e⟩ | ⟨hf, e⟩ | ⟨hf, e⟩ <;>
    rw [e]
  · rw [bitsAt_set_self hfit]
    rcases hf with hf | ⟨hf, -⟩ <;> simp only [hf]
  · rw [reg_set_ne (Nat.ne_of_lt (Nat.lt_add_of_pos_right (by decide)))]
    simp only [hf]
  · rw [reg_setReg_self, bitsAt_clear_self _ (bitsAt_lt ..) hfit]
    simp only [hf]
  · rcases hf with hf | hf | ⟨hf, hlock⟩
    · simp only [hf]
    · simp only [hf]
    · simp [hf, hlock] at hl

/-- After its write a staged field's shadow copy reads the bits written (R13). -/
theorem bitsAt_writeField_shadow (hfit : f.lo + f.width ≤ 32) (hf : f.access = .rws) :
    bitsAt ((s.writeField key lock f v).reg (key + 0x80000)).toNat f.lo f.width = bitsAt v f.lo f.width := by
  simp only [State.writeField, hf]
  exact bitsAt_set_self hfit

end

/-! ### The writes of several fields of a word -/

/-- The writes of several fields of one word, one after another. -/
def State.writeFields (s : State) (key : Nat) (lock : Bool) (fs : List FieldDef) (v : Nat) : State :=
  fs.foldl (fun s f => s.writeField key lock f v) s

section
variable {s : State} {key : Nat} {lock : Bool} {fs : List FieldDef} {v : Nat}

theorem writeFields_cons (f : FieldDef) :
    s.writeFields key lock (f :: fs) v = (s.writeField key lock f v).writeFields key lock fs v := rfl

theorem writeFields_eq_regs : s.writeFields key lock fs v = { s with regs := (s.writeFields key lock fs v).regs } := by
  induction fs generalizing s with
  | nil => rfl
  | cons f t ih => rw [writeFields_cons, ih, writeField_eq_regs]

theorem reg_writeFields_ne {x : Nat} (hx : ∀ f ∈ fs, if f.access = .rws then x ≠ key + 0x80000 else x ≠ key) :
    (s.writeFields key lock fs v).reg x = s.reg x := by
  induction fs generalizing s with
  | nil => rfl
  | cons f t ih =>
    rw [writeFields_cons, ih fun g hg => hx g (List.mem_cons_of_mem _ hg), reg_writeField_ne (hx f (List.mem_cons_self ..))]

theorem bitsAt_writeFields_apart {g : FieldDef} (hg : g.lo + g.width ≤ 32) (ha : ∀ f ∈ fs, f.apart g = true) (x : Nat) :
    bitsAt ((s.writeFields key lock fs v).reg x).toNat g.lo g.width = bitsAt (s.reg x).toNat g.lo g.width := by
  induction fs generalizing s with
  | nil => rfl
  | cons f t ih =>
    rw [writeFields_cons, ih fun g hg => ha g (List.mem_cons_of_mem _ hg),
      bitsAt_writeField_apart hg (ha f (List.mem_cons_self ..))]

/-- Each of several fields that share no bit reads, after their writes, what its class says. -/
theorem bitsAt_writeFields_self (hfit : ∀ f ∈ fs, f.lo + f.width ≤ 32) (hap : fs.Pairwise fun f g => f.apart g = true)
    {f : FieldDef} (hf : f ∈ fs) (hl : lock = false ∨ f.access ≠ .rwl) :
    bitsAt ((s.writeFields key lock fs v).reg key).toNat f.lo f.width
      = f.written (bitsAt (s.reg key).toNat f.lo f.width) (bitsAt v f.lo f.width) := by
  induction fs generalizing s with
  | nil => cases hf
  | cons g t ih =>
    obtain ⟨hgt, ht⟩ := List.pairwise_cons.mp hap
    rw [writeFields_cons]
    rcases List.mem_cons.mp hf with rfl | hf'
    · rw [bitsAt_writeFields_apart (hfit f hf) fun g hg => FieldDef.apart_comm (hgt g hg),
        bitsAt_writeField_self (hfit f hf) hl]
    · rw [ih (fun g hg => hfit g (List.mem_cons_of_mem _ hg)) ht hf',
        bitsAt_writeField_apart (hfit f hf) (hgt f hf')]

/-- The shadow copy of each staged field reads the bits written. -/
theorem bitsAt_writeFields_shadow (hfit : ∀ f ∈ fs, f.lo + f.width ≤ 32) (hap : fs.Pairwise fun f g => f.apart g = true)
    {f : FieldDef} (hf : f ∈ fs) (ha : f.access = .rws) :
    bitsAt ((s.writeFields key lock fs v).reg (key + 0x80000)).toNat f.lo f.width = bitsAt v f.lo f.width := by
  induction fs generalizing s with
  | nil => cases hf
  | cons g t ih =>
    obtain ⟨hgt, ht⟩ := List.pairwise_cons.mp hap
    rw [writeFields_cons]
    rcases List.mem_cons.mp hf with rfl | hf'
    · rw [bitsAt_writeFields_apart (hfit f hf) fun g hg => FieldDef.apart_comm (hgt g hg),
        bitsAt_writeField_shadow (hfit f hf) ha]
    · exact ih (fun g hg => hfit g (List.mem_cons_of_mem _ hg)) ht hf'

end

/-! ### A register's write -/

section
variable {s : State} {key : Nat} {h : RegHit} {lock : Bool} {drop : State → State} {v : Word}

/-- A write of a register of one word that drops no field is the write of its fields. -/
theorem writeHit_narrow (hw : h.row.wide = false) (hl : lock = false ∨ ∀ f ∈ h.row.fields, f.access ≠ .rwl) :
    s.writeHit key h lock drop (fun _ => true) v = s.writeFields key lock h.row.fields v.toNat := by
  have hd : (lock && h.row.fields.any fun f => f.access == .rwl) = false := by
    rcases hl with hl | hl
    · simp [hl]
    · simpa using fun _ => hl
  simp only [State.writeHit, List.filter_true, hw, hd, Bool.false_eq_true, if_false]
  rfl

/-- A write of a word of a 64-bit register whose only field is RWL and not locked. -/
theorem writeHit_wide {f : FieldDef} (hw : h.row.wide = true) (hfs : h.row.fields = [f]) (hf : f.access = .rwl) :
    s.writeHit key h false drop (fun _ => true) v = s.writeWide key h.high f v := by
  simp [State.writeHit, hw, hfs, hf]

/-- The high word's write brings the latched low word and the high word into the field (R11). -/
theorem bitsAt_writeWide_high {f : FieldDef} (hfit : f.lo + f.width ≤ 64) :
    bitsAt ((s.writeWide key true f v).reg64 key) f.lo f.width
      = bitsAt (((SMap.look none s.latchW key).getD (s.reg key)).toNat + 2 ^ 32 * v.toNat) f.lo f.width := by
  rw [State.writeWide, if_pos rfl, ← get_wide, get_set_self (by simpa [Fld.fits] using hfit)]
  exact Nat.mod_eq_of_lt (bitsAt_lt ..)

/-- The high word's write changes registers, and empties the write latch. -/
theorem writeWide_high_eq {f : FieldDef} :
    s.writeWide key true f v
      = { s with regs := (s.writeWide key true f v).regs, latchW := SMap.put none s.latchW key none } := by
  rw [State.writeWide, if_pos rfl]
  exact set_eq_regs ..

/-- A write of an upper half is the write of the staged fields. -/
theorem writeShadow_eq :
    s.writeShadow key h (fun _ => true) v
      = s.writeFields key false (h.row.fields.filter fun f => f.access == .rws) v.toNat := by
  simp only [State.writeShadow, Bool.and_true]
  rfl

end

section
variable {s t : State} {b off : Nat}

/-- What follows the write of a patrol's enable changes nothing but the time of a patrol's pass (R161). -/
theorem patrolEnabled_eq : s.patrolEnabled t b off = { t with patrolAt := (s.patrolEnabled t b off).patrolAt } := by
  unfold State.patrolEnabled
  split
  · split <;> rfl
  · split
    · split <;> rfl
    · rfl

/-- Only the two patrol controls enable a patrol. -/
theorem patrolEnabled_of_other (ht : ¬ (b = 0x44 ∧ off = 0x14)) (hv : ¬ (b < 64 ∧ off = 0x8010)) :
    s.patrolEnabled t b off = t := by
  rw [State.patrolEnabled, if_neg ht]
  split
  · next n hn =>
    have hb : b < 64 := by simpa [allArrays] using (List.getElem?_eq_some_iff.mp hn).1
    rw [if_neg fun e => hv ⟨hb, e.1⟩]
  · rfl

/-- A wide register is no patrol control. -/
theorem patrolEnabled_of_wide {h : RegHit} (hf : findReg (windowRegs b) off = some h) (hw : h.row.wide = true) :
    s.patrolEnabled t b off = t := by
  obtain ⟨ht, hv⟩ := patrol_controls_narrow
  refine patrolEnabled_of_other ?_ ?_
  · rintro ⟨rfl, rfl⟩
    have hf' : findReg tierRegs 0x14 = some h := hf
    simp [hf', hw] at ht
  · rintro ⟨hb, rfl⟩
    rw [windowRegs_array hb] at hf
    simp [hf, hw] at hv

end

/-! ### An access by one of the module's own blocks -/

section
variable {s : State} {q : Requester} {b off : Nat}

theorem portOf_of_secure (hq : nonSecure q = false) : portOf q = none := by
  cases q with
  | host | peer => cases hq
  | spindle | reel | hawkmoth => rfl

/-- A write that passes its gate, or crosses none, reaches the registers (R361). -/
theorem regWrite_of_crosses {bar0 : Bool} {k size : Nat} {v : Word} (hc : s.crosses q (k / 0x100000) (k % 0x100000)) :
    s.regWrite q bar0 k size v = s.regWriteAt q bar0 k size v := by
  unfold State.regWrite
  split
  · next g hg =>
    split at hg
    · next hs =>
      obtain ⟨hpow, hstop, hclaim, hstate⟩ := hc (by simp [hg]) hs
      simp [State.gated, hpow, hstop, hclaim, hstate]
    · cases hg
  · rfl

/-- An access by one of the module's own blocks to a window reaches the registers (R38). -/
theorem reaches_own {size : Nat} (hq : nonSecure q = false) (hb : b < 0x100) (hoff : off + size ≤ 0x100000) :
    s.reaches q false (b * 0x100000 + off) size = true := by
  simp only [State.reaches, portOf_of_secure hq, Bool.not_false, Bool.true_and, decide_eq_true_eq]
  omega

theorem window_div (hoff : off < 0x100000) : (b * 0x100000 + off) / 0x100000 = b := by omega

theorem window_mod (hoff : off < 0x100000) : (b * 0x100000 + off) % 0x100000 = off := by omega

/-- An aligned word's write by one of the module's own blocks writes its window. -/
theorem exec_registerWrite_own {k : Nat} {v : Word} (hkey : k = b * 0x100000 + off) (hq : nonSecure q = false)
    (hb : b < 0x100) (hoff : off < 0x100000) (hal : off % 4 = 0) (hc : s.crosses q b off) :
    exec (.registerWrite q false k 4 v) s = .next (s.writeWindow q b off v) := by
  subst hkey
  have hk : (b * 0x100000 + off) % 4 = 0 := by omega
  have hr : s.reaches q false (b * 0x100000 + off) 4 = true := reaches_own hq hb (by omega)
  change Host.Outcome.next (s.regWrite q false (b * 0x100000 + off) 4 v) = _
  rw [regWrite_of_crosses (by rwa [window_div hoff, window_mod hoff]), State.regWriteAt, window_div hoff, window_mod hoff]
  simp [hr, hk]

/-- An aligned word's read by one of the module's own blocks reads its window. -/
theorem exec_reg64LatchedRead_own {k : Nat} (hkey : k = b * 0x100000 + off) (hq : nonSecure q = false) (hb : b < 0x100)
    (hoff : off < 0x100000) (hal : off % 4 = 0) :
    exec (.reg64LatchedRead q false k 4) s
      = .next { (s.readWindow q b off).1 with rdata := leBytes 4 (s.readWindow q b off).2 } := by
  subst hkey
  have hk : (b * 0x100000 + off) % 4 = 0 := by omega
  have hr : s.reaches q false (b * 0x100000 + off) 4 = true := reaches_own hq hb (by omega)
  have hrd : s.regRead q false (b * 0x100000 + off) 4 = s.readWindow q b off := by
    rw [State.regRead, window_div hoff, window_mod hoff]
    simp [hr, hk]
  change Host.Outcome.next (if !s.reaches q false (b * 0x100000 + off) 4 then s else _) = _
  rw [hr, hrd]
  rfl

/-- The MSI-X structures lie in the lower half of their window (R512). -/
theorem msixAt_upper (hoff : 0x80000 ≤ off) : s.msixAt b off = none := by
  have h0 : s.msixCount 0 ≤ 32 := by unfold State.msixCount; split <;> omega
  have h1 : s.msixCount 1 ≤ 32 := by unfold State.msixCount; split <;> omega
  unfold State.msixAt
  split
  · rfl
  · simp only [Bool.and_eq_true, decide_eq_true_eq, Fin.val_zero, Fin.val_one]
    rw [if_neg (by omega), if_neg (by omega), if_neg (by omega), if_neg (by omega)]

variable {h : RegHit} {base : Nat}

/-- A write of a word of a register that is no knot and no reel control, and has no write-only field, writes the register
and starts a patrol that it enables. -/
theorem writeWindow_lower {v : Word} (hq : nonSecure q = false) (hoff : off < 0x80000)
    (hf : findReg (windowRegs b) off = some h) (hdead : s.windowDead b = false) (hmsix : s.msixAt b off = none)
    (habs : absentReg b off = false) (hknot : ¬ (b < 64 ∧ 0x4000 ≤ off ∧ off < 0x6000))
    (hbase : off - (if h.high then 4 else 0) = base) (hreel : ¬ (b = 0x40 ∧ base % 0x80 = 0))
    (hwo : ∀ f ∈ h.row.fields, f.access ≠ .wo) :
    s.writeWindow q b off v
      = s.patrolEnabled (s.writeHit (regKey b base) h (s.locked b base) (fun t => t.lockedDrop b base) (fun _ => true) v)
          b base := by
  have hm : off % 0x80000 = off := Nat.mod_eq_of_lt hoff
  have hact : (h.row.fields.any fun f => f.access == .wo) = false := by simpa using hwo
  simp [State.writeWindow, State.reelEnabled, hdead, hmsix, hm, habs, hf, hq, hbase, hknot, hreel, hact, Nat.not_le.mpr hoff]

/-- A write of a word of a window's upper half writes the register's shadow copy. -/
theorem writeWindow_upper {v : Word} (hq : nonSecure q = false) (hoff : off < 0x80000)
    (hf : findReg (windowRegs b) off = some h) (hdead : s.windowDead b = false) (habs : absentReg b off = false)
    (hlow : h.high = false) :
    s.writeWindow q b (off + 0x80000) v = s.writeShadow (regKey b off) h (fun _ => true) v := by
  have hm : (off + 0x80000) % 0x80000 = off := by omega
  have hmsix : s.msixAt b (off + 0x80000) = none := msixAt_upper (by omega)
  simp [State.writeWindow, hdead, hmsix, hm, habs, hf, hq, hlow]

/-- A read of a word of a stored 64-bit register: the low word fills the latch, the high word empties it (R11). -/
theorem readWindow_wide (hq : nonSecure q = false) (hoff : off < 0x80000)
    (hf : findReg (windowRegs b) off = some h) (hdead : s.windowDead b = false) (hmsix : s.msixAt b off = none)
    (habs : absentReg b off = false) (hbase : off - (if h.high then 4 else 0) = base) (hw : h.row.wide = true)
    (hlive : s.liveValue b base = none) :
    s.readWindow q b off =
      (if h.high then
        ({ s with latchR := SMap.put none s.latchR (regKey b base) none },
          ((SMap.look none s.latchR (regKey b base)).getD (s.reg (regKey b base + 4))).toNat)
      else ({ s with latchR := SMap.put none s.latchR (regKey b base) (some (s.reg (regKey b base + 4))) },
        (s.reg (regKey b base)).toNat)) := by
  have hm : off % 0x80000 = off := Nat.mod_eq_of_lt hoff
  have hv : s.regValue b base true = s.reg64 (regKey b base) := by simp [State.regValue, hlive]
  have hh : (s.reg (regKey b base + 4)).toNat % 2 ^ 32 = (s.reg (regKey b base + 4)).toNat := Nat.mod_eq_of_lt (BitVec.isLt _)
  simp only [State.readWindow, hdead, hmsix, hm, habs, hf, hq, hbase, hw, hv, reg64_div, reg64_mod, hh, Nat.not_le.mpr hoff,
    Bool.false_eq_true, Bool.false_and, if_false, if_true, BitVec.ofNat_toNat, BitVec.setWidth_eq]
  cases SMap.look none s.latchR (regKey b base) <;> rfl

end

/-! ### The obligations -/

/-- Settles O25: the write is the writes of the register's fields, which lie inside the word and share no bit. -/
theorem registerFieldsFollowTheirClasses : Obligations.RegisterFieldsFollowTheirClasses := by
  intro q b off v h s _ hq hb hoff hal hf hw hdead hmsix habs hknot hwo hreel k lock old new
  obtain ⟨hrow, hmatch⟩ := findReg_some hf
  obtain ⟨hfit, hap⟩ := windowRegs_laidOut b h.row hrow
  simp only [hw, Bool.false_eq_true, if_false] at hfit
  have hlow : h.high = false := high_eq_false_of_narrow hw hmatch
  have hkey : regKey b off = k := rfl
  refine ⟨fun hc => ⟨_, exec_registerWrite_own rfl hq hb (by omega) hal hc, fun hl => ?_⟩,
    fun hc => ⟨_, exec_registerWrite_own (Nat.add_assoc ..) hq hb (by omega) (by omega) hc, ?_⟩⟩
  · rw [writeWindow_lower hq hoff hf hdead hmsix habs hknot (by simp [hlow]) hreel hwo, hkey, writeHit_narrow hw hl]
    have hregs : ∀ x, (s.patrolEnabled (s.writeFields k lock h.row.fields v.toNat) b off).reg x
        = (s.writeFields k lock h.row.fields v.toNat).reg x := fun x => reg_congr (by rw [patrolEnabled_eq]) x
    refine ⟨?_, fun x hx hx' => (hregs x).trans (reg_writeFields_ne fun f _ => ?_), fun f hfm => ⟨?_, fun ha => ?_⟩⟩
    · rw [patrolEnabled_eq, writeFields_eq_regs]
    · split
      · exact hx'
      · exact hx
    · refine ((congrArg (bitsAt ·.toNat f.lo f.width) (hregs k)).trans
        (bitsAt_writeFields_self hfit hap hfm (hl.imp id fun h => h f hfm))).trans ?_
      unfold FieldDef.written
      cases f.access <;> rfl
    · exact (congrArg (bitsAt ·.toNat f.lo f.width) (hregs _)).trans (bitsAt_writeFields_shadow hfit hap hfm ha)
  · rw [writeWindow_upper hq hoff hf hdead habs hlow, hkey, writeShadow_eq]
    refine ⟨writeFields_eq_regs, fun x hx => reg_writeFields_ne fun f hfm => ?_, fun f hfm ha => ?_⟩
    · rw [if_pos (by simpa using (List.mem_filter.mp hfm).2)]; exact hx
    · exact bitsAt_writeFields_shadow (fun g hg => hfit g (List.mem_filter.mp hg).1) (hap.filter _)
        (List.mem_filter.mpr ⟨hfm, by simpa using ha⟩) ha

/-- Settles O27, by the two words' reads and writes of the register's window. -/
theorem latchesKeepWideReadsWhole : Obligations.LatchesKeepWideReadsWhole := by
  intro q b off h s _ hq hb hoff hal hf hw hlow hdead hmsix hmsix' habs habs' hlive hf' hknot hreel k
  have hknot' : ¬ (b < 64 ∧ 0x4000 ≤ off + 4 ∧ off + 4 < 0x6000) := by
    rintro ⟨hb', hlo, hhi⟩
    have hfirst := first_knot_low
    rw [← windowRegs_array hb', ← show off + 4 = 0x4000 by omega, hf'] at hfirst
    cases hfirst
  refine ⟨?_, ?_, fun f hfs ha hl hc hc' => ?_⟩
  · rw [exec_reg64LatchedRead_own rfl hq hb (by omega) hal,
      readWindow_wide hq (by omega) hf hdead hmsix habs (base := off) (by simp [hlow]) hw hlive]
    simp only [hlow]
    rfl
  · rw [exec_reg64LatchedRead_own (Nat.add_assoc ..) hq hb (by omega) (by omega),
      readWindow_wide hq hoff hf' hdead hmsix' habs' (base := off) (by simp) hw hlive]
    rfl
  · have hwo : ∀ g ∈ h.row.fields, g.access ≠ .wo := by simp [hfs, ha]
    refine ⟨fun v => ?_, fun v => ⟨s.writeWide k true f v, ?_, ?_⟩⟩
    · rw [exec_registerWrite_own rfl hq hb (by omega) hal hc,
        writeWindow_lower hq (by omega) hf hdead hmsix habs hknot (base := off) (by simp [hlow]) hreel hwo,
        patrolEnabled_of_wide hf hw, hl, writeHit_wide hw hfs ha, hlow]
      rfl
    · rw [exec_registerWrite_own (Nat.add_assoc ..) hq hb (by omega) (by omega) hc',
        writeWindow_lower hq hoff hf' hdead hmsix' habs' hknot' (base := off) (by simp) hreel hwo,
        patrolEnabled_of_wide hf hw, hl, writeHit_wide (h := { h with high := true }) hw hfs ha]
      rfl
    · have hfit : f.lo + f.width ≤ 64 := by
        simpa [hw] using (windowRegs_laidOut b h.row (findReg_some hf).1).1 f (by simp [hfs])
      exact ⟨bitsAt_writeWide_high hfit, writeWide_high_eq⟩

/-- Refutes O26 at its bound: an access of no bytes at offset 0x100000 meets off + size ≤ 0x100000 for every window, but it
stands at the first offset of the next window, whose number the error's record names. One meant for window 0 is reported
as one to window 1. (Instr.wellFormed refuses a size of 0; the statement does not ask for a well-formed command.) -/
theorem not_badRegisterAccesses : ¬ Obligations.BadRegisterAccesses := by
  intro h
  have hread := (h .reel 0 0x100000 0 0 State.reset (by omega) (by omega)).1 rfl (.inl (by omega))
  have hwrite : exec (.registerWrite .reel false 0x100000 0 0) State.reset = .next (State.reset.regError 0 0x100000 7) :=
    hread.1 fun _ e => nomatch e
  have hsources : ((State.reset.regError 1 0 7).events.entries.map (·.body.source))
      = (State.reset.regError 0 0x100000 7).events.entries.map (·.body.source) := by
    injection hwrite with e
    exact congrArg (fun t : State => t.events.entries.map (·.body.source)) e
  exact absurd hsources (by decide +kernel)

end Sys2Proof.Machine
end

section
/-!
PROOFS. The stack and its memory (R41, R42, R135, R379): what counting, storing and reporting leave alone, one granule's
piece of a BAR4 access, and from these the obligation on BAR4.
-/

namespace Sys2Proof.Machine

/-! ### What counting served bytes changes -/

/-- t is s but for its registers. -/
def State.regsOver (t s : State) : Prop := t = { s with regs := t.regs }

/-- t is s but for its registers and the tier's link errors. -/
def State.countedOver (t s : State) : Prop := t = { s with regs := t.regs, linkErr := t.linkErr }

/-- t is s but for memory, its written lines and its error words. -/
def State.storedOver (t s : State) : Prop := t = { s with mem := t.mem, tline := t.tline, ue := t.ue, ce := t.ce }

section
variable {r s t : State}

theorem State.regsOver.trans (h : t.regsOver s) (g : s.regsOver r) : t.regsOver r :=
  Eq.trans h (congrArg (fun x : State => { x with regs := t.regs }) g)

theorem State.regsOver.counted (h : t.regsOver s) : t.countedOver s :=
  Eq.trans h (congrArg (fun l => { s with regs := t.regs, linkErr := l }) (congrArg State.linkErr h).symm)

theorem State.countedOver.trans (h : t.countedOver s) (g : s.countedOver r) : t.countedOver r :=
  Eq.trans h (congrArg (fun x : State => { x with regs := t.regs, linkErr := t.linkErr }) g)

theorem State.storedOver.trans (h : t.storedOver s) (g : s.storedOver r) : t.storedOver r :=
  Eq.trans h (congrArg (fun x : State => { x with mem := t.mem, tline := t.tline, ue := t.ue, ce := t.ce }) g)

/-- A fold is related to its start when each of its steps is. -/
theorem foldl_over {β : Type} {R : State → State → Prop} {f : State → β → State} (hr : ∀ s, R s s)
    (ht : ∀ {r s t}, R t s → R s r → R t r) (hf : ∀ s x, R (f s x) s) {l : List β} : ∀ {s}, R (l.foldl f s) s := by
  induction l with
  | nil => exact hr _
  | cons x l ih => exact ht ih (hf _ x)

theorem set_regsOver {f : Fld} {v : Nat} : (s.set f v).regsOver s := set_eq_regs f v

theorem addTo_regsOver {f : Fld} {n : Nat} : (s.addTo f n).regsOver s := set_regsOver

theorem linkCheck_counted {a n : Nat} : (s.linkCheck a n).countedOver s := by
  have h : ∀ {l : List Nat}, (l.foldl (fun (s : State) l => s.bump (F.tierLinkEccCorrected (tierPlace (64 * l)).channel)) s).regsOver s :=
    foldl_over (R := State.regsOver) (fun _ => rfl) State.regsOver.trans fun _ _ => addTo_regsOver
  exact congrArg (fun x : State => { x with linkErr := (s.linkCheck a n).linkErr }) h

/-- Counting the bytes of a read changes registers and link errors only. -/
theorem countRead_counted {a n : Nat} : (s.countRead a n).countedOver s := by
  unfold State.countRead
  split
  · exact addTo_regsOver.counted
  · exact addTo_regsOver.counted.trans linkCheck_counted
  · rfl

theorem countWrite_counted {a n : Nat} : (s.countWrite a n).countedOver s := by
  unfold State.countWrite
  split
  · exact addTo_regsOver.counted
  · exact addTo_regsOver.counted.trans linkCheck_counted
  · rfl

theorem countMerge_counted {a n : Nat} : (s.countMerge a n).countedOver s := by
  unfold State.countMerge
  split
  · exact addTo_regsOver.counted
  · exact addTo_regsOver.counted
  · rfl

/-- Counting changes no byte of memory. -/
theorem State.countedOver.byte (h : t.countedOver s) (x : Nat) : t.byte x = s.byte x := by rw [h]; rfl

/-- Counting changes no error word. -/
theorem State.countedOver.clean (h : t.countedOver s) (hc : s.clean) : t.clean := by rw [h]; exact hc

/-! ### What a store changes -/

/-- A store changes memory, its written lines and its error words only. -/
theorem store_storedOver {a : Nat} {bs : List Byte} : (s.store a bs).storedOver s := by
  have hopen : (s.openLines (s.storeLines a bs.length)).storedOver s :=
    foldl_over (R := State.storedOver) (fun _ => rfl) State.storedOver.trans fun _ _ => by unfold State.openLine; split <;> rfl
  have hput : ∀ {u : State}, (u.putBytes a bs).storedOver u := rfl
  have hseal : ∀ {u : State} {ls : List Nat}, (u.sealLines ls).storedOver u :=
    foldl_over (R := State.storedOver) (fun _ => rfl) State.storedOver.trans fun _ _ => by rfl
  exact hseal.trans (hput.trans hopen)

/-! ### Memory without error words -/

theorem badWords_of_clean (hc : s.clean) (a n : Nat) : s.badWords a n = [] := List.head?_eq_none_iff.mp (hc a n)

theorem ue_of_clean (hc : s.clean) : s.ue = [] := by
  refine List.eq_nil_iff_forall_not_mem.mpr fun w hw => ?_
  have hpos : 0 < errUnit w := by unfold errUnit; split <;> decide
  have hb := badWords_of_clean hc w 1
  have : w ∈ s.badWords w 1 := List.mem_append_left _ (List.mem_filter.mpr ⟨hw, by simp [wordMeets, hpos]⟩)
  simp [hb] at this

/-- Without uncorrectable words every byte may be stored. -/
theorem storable_of_clean (hc : s.clean) (a n x : Nat) : s.storable a n x = true := by
  simp [State.storable, hc (unitOf8 x) (protUnit x)]

theorem correct_of_ce_nil (h : s.ce = []) (a n reader : Nat) : s.correct a n reader = s := by simp [State.correct, h]

theorem mergeReads_of_clean (hc : s.clean) (h : s.ce = []) (a n reader : Nat) : s.mergeReads a n reader = s := by
  simp [State.mergeReads, h, badWords_of_clean hc]

/-- A store where no word has an error leaves none. -/
theorem store_errors_of_clean (hc : s.clean) (h : s.ce = []) (a : Nat) (bs : List Byte) :
    (s.store a bs).ue = s.ue ∧ (s.store a bs).ce = s.ce := by
  simp [State.store, State.putBytes, h, ue_of_clean hc]

/-- A requester's write where no word has an error: the bytes written, every other as before, and nothing but memory, its
lines, counters and link errors changed (R144, R145, R163). -/
theorem write_of_clean (hc : s.clean) (h : s.ce = []) (a : Nat) (bs : List Byte) :
    (∀ x, (s.write a bs).byte x = if a ≤ x ∧ x < a + bs.length then bs.getD (x - a) 0 else s.byte x)
      ∧ s.write a bs = { s with
          mem := (s.write a bs).mem, tline := (s.write a bs).tline, regs := (s.write a bs).regs
          linkErr := (s.write a bs).linkErr } := by
  have hwrite : s.write a bs = ((s.countMerge a bs.length).countWrite a bs.length).store a bs := by
    rw [State.write, mergeReads_of_clean hc h]
  have hcount : ((s.countMerge a bs.length).countWrite a bs.length).countedOver s := countWrite_counted.trans countMerge_counted
  generalize (s.countMerge a bs.length).countWrite a bs.length = v at hwrite hcount
  obtain ⟨hue, hce⟩ := store_errors_of_clean (hcount.clean hc) (by rw [hcount]; exact h) a bs
  have hue' : (v.store a bs).ue = s.ue := hue.trans (by rw [hcount])
  have hce' : (v.store a bs).ce = s.ce := hce.trans (by rw [hcount])
  rw [hwrite]
  refine ⟨fun x => ?_, ?_⟩
  · simp [byte_store, storable_of_clean (hcount.clean hc), hcount.byte]
  · calc v.store a bs
        = { v with mem := (v.store a bs).mem, tline := (v.store a bs).tline, ue := s.ue, ce := s.ce } := by
          rw [← hue', ← hce']; exact store_storedOver
      _ = _ := by
          rw [State.store_regs, State.store_linkErr]
          exact congrArg (fun x : State =>
            { x with mem := (v.store a bs).mem, tline := (v.store a bs).tline, ue := s.ue, ce := s.ce }) hcount

end

/-! ### One granule's access through BAR4 -/

section
variable {s : State} {port : Port} {off n len : Nat} {data : List Byte} {p : PartNum} {b a c : Nat}

/-- An access of at least one byte that lies inside one granule of BAR4. -/
def Bar4Inside (off n : Nat) : Prop := 0 < n ∧ off % 0x400000 + n ≤ 0x400000 ∧ off + n ≤ 0x1000000000

/-- An access inside one granule is one piece (R42). -/
theorem piecesOf_inside (h : Bar4Inside off n) : piecesOf off n = [(0, n)] := by
  obtain ⟨hpos, hgran, -⟩ := h
  rw [piecesOf, granulesOf, show (off + n - 1) / 0x400000 + 1 - off / 0x400000 = 1 by omega]
  simp
  omega

theorem bar4Reached_inside (hl : s.portLive port = true) (h : Bar4Inside off n) : s.bar4Reached port off n = true := by
  simp [State.bar4Reached, hl, bar4Size, h.2.2]

/-- A port that decodes no BAR access, or an access that ends beyond BAR4, does not reach it (R41, R509). -/
theorem bar4Reached_of_beyond (h : s.portLive port = false ∨ 0x1000000000 ≤ off) (hn : 0 < n) :
    s.bar4Reached port off n = false := by
  rcases h with h | h
  · simp [State.bar4Reached, h]
  · have hend : ¬ off + n ≤ bar4Size := by unfold bar4Size; omega
    simp [State.bar4Reached, hend]

/-- An access that does not reach BAR4 changes nothing. -/
theorem exec_bar4Read_unreached (h : s.bar4Reached port off n = false) : exec (.bar4Read port off n) s = .next s := by
  change execBar4Read port off n s = _
  simp [execBar4Read, h]

theorem exec_bar4Write_unreached (h : s.bar4Reached port off data.length = false) :
    exec (.bar4Write port off data) s = .next s := by
  change execBar4Write port off data s = _
  simp [execBar4Write, h]

/-- The last byte of an access inside one granule lies in the first byte's aperture. -/
theorem last_div (h : Bar4Inside off n) : (off + n - 1) / 0x100000000 = off / 0x100000000 := by
  unfold Bar4Inside at h; omega

theorem last_mod (h : Bar4Inside off n) : (off + n - 1) % 0x100000000 = off % 0x100000000 + n - 1 := by
  unfold Bar4Inside at h; omega

/-- What an access inside one granule meets first, in the order of its checks: the aperture (cause 8), then the granule's
memory (R42, R487). -/
def State.bar4Verdict (s : State) (port : Port) (off n : Nat) : Nat × Option PartNum × Option Nat ⊕ Nat :=
  match s.bar4Target port off, s.bar4Target port (off + n - 1) with
  | some (p, a), some _ =>
    match s.bar4Cause p a with
    | none => .inr a
    | some c => .inl (c, some p, some a)
  | _, _ => .inl (8, none, none)

/-- A read inside one granule: zeros and its error where it is refused, and else its one piece of device memory. -/
theorem exec_bar4Read_inside (hl : s.portLive port = true) (h : Bar4Inside off n) :
    exec (.bar4Read port off n) s = .next (match s.bar4Verdict port off n with
      | .inl e => { s.bar4Error off e.1 e.2.1 e.2.2 with rdata := List.replicate n 0 }
      | .inr a => { (s.bar4Piece a n).1 with rdata := (s.bar4Piece a n).2 }) := by
  change execBar4Read port off n s = _
  simp only [execBar4Read, bar4Reached_inside hl h, piecesOf_inside h, List.foldl_cons, List.foldl_nil, Nat.add_zero,
    List.nil_append, State.bar4Verdict]
  rcases s.bar4Target port off with _ | ⟨p, a⟩
  · rfl
  · cases s.bar4Target port (off + n - 1) with
    | none => rfl
    | some _ => cases hc : s.bar4Cause p a <;> simp [hc]

/-- A write inside one granule: its error where it is refused, and else the store. -/
theorem exec_bar4Write_inside (hl : s.portLive port = true) (h : Bar4Inside off data.length) :
    exec (.bar4Write port off data) s = .next (match s.bar4Verdict port off data.length with
      | .inl e => s.bar4Error off e.1 e.2.1 e.2.2
      | .inr a => s.write a data) := by
  change execBar4Write port off data s = _
  simp only [execBar4Write, bar4Reached_inside hl h, piecesOf_inside h, List.foldl_cons, List.foldl_nil, Nat.add_zero,
    List.drop_zero, List.take_length, State.bar4Verdict]
  rcases s.bar4Target port off with _ | ⟨p, a⟩
  · rfl
  · cases s.bar4Target port (off + data.length - 1) with
    | none => rfl
    | some _ => cases hc : s.bar4Cause p a <;> simp [hc]

/-- A refused access reports its error; a read answers zeros, a write does nothing else (R42). -/
theorem bar4_refused {e : Nat × Option PartNum × Option Nat} (hl : s.portLive port = true) (h : Bar4Inside off n)
    (hv : s.bar4Verdict port off n = .inl e) :
    exec (.bar4Read port off n) s = .next { s.bar4Error off e.1 e.2.1 e.2.2 with rdata := List.replicate n 0 } ∧
    ∀ data : List Byte, data.length = n → exec (.bar4Write port off data) s = .next (s.bar4Error off e.1 e.2.1 e.2.2) := by
  refine ⟨by rw [exec_bar4Read_inside hl h, hv], ?_⟩
  rintro data rfl
  rw [exec_bar4Write_inside hl h, hv]

/-- An access that is served reads, or writes, its one piece of device memory. -/
theorem bar4_served (hl : s.portLive port = true) (h : Bar4Inside off n) (hv : s.bar4Verdict port off n = .inr a) :
    exec (.bar4Read port off n) s = .next { (s.bar4Piece a n).1 with rdata := (s.bar4Piece a n).2 } ∧
    ∀ data : List Byte, data.length = n → exec (.bar4Write port off data) s = .next (s.write a data) := by
  refine ⟨by rw [exec_bar4Read_inside hl h, hv], ?_⟩
  rintro data rfl
  rw [exec_bar4Write_inside hl h, hv]

/-- Outside an open aperture the cause is 8. -/
theorem bar4Verdict_outside (h : Bar4Inside off n)
    (ho : ∀ p b len, s.aperture port.val (off / 0x100000000) = .opened p b len → len < off % 0x100000000 + n) :
    s.bar4Verdict port off n = .inl (8, none, none) := by
  have hlast : s.bar4Target port (off + n - 1) = none := by
    unfold State.bar4Target
    rw [last_div h, last_mod h]
    split
    · rfl
    · next p b len e => rw [if_neg (by have := ho p b len e; omega)]
  unfold State.bar4Verdict
  rw [hlast]
  split <;> simp_all

/-- Within an open aperture the granule decides. -/
theorem bar4Verdict_inside (h : Bar4Inside off n) (ho : s.aperture port.val (off / 0x100000000) = .opened p b len)
    (hlen : off % 0x100000000 + n ≤ len) :
    s.bar4Verdict port off n = ((s.bar4Cause p (b + off % 0x100000000)).map fun c =>
      Sum.inl (c, some p, some (b + off % 0x100000000))).getD (.inr (b + off % 0x100000000)) := by
  have hpos := h.1
  have hfirst : s.bar4Target port off = some (p, b + off % 0x100000000) := by
    rw [State.bar4Target, ho]; exact if_pos (by omega)
  have hlast : s.bar4Target port (off + n - 1) = some (p, b + (off % 0x100000000 + n - 1)) := by
    rw [State.bar4Target, last_div h, last_mod h, ho]; exact if_pos (by omega)
  unfold State.bar4Verdict
  rw [hfirst, hlast]
  cases hc : s.bar4Cause p (b + off % 0x100000000) <;> simp [hc]

/-! ### The granule's answer -/

/-- The vault of an unusable array is cause 1 (R37). -/
theorem bar4Cause_unusable {k : ArrayNum} {g : Nat} (hr : regionOf a = .vault k g) (hu : s.usable k = false) :
    s.bar4Cause p a = some 1 := by
  simp [State.bar4Cause, hr, hu]

/-- In memory that answers, a granule without a tag or with a tag that keeps the host out is cause 2 (R42, R379). -/
theorem bar4Cause_denied (hu : ∀ k g, regionOf a = .vault k g → s.usable k = true)
    (ht : ∀ t, s.tagAt a = some t → tagAllowsHost p t = false) : s.bar4Cause p a = some 2 := by
  unfold State.bar4Cause
  cases hr : regionOf a <;> cases hg : s.tagAt a <;> simp_all

/-- In memory that answers, a granule whose tag lets the host in has no cause (R42, R379). -/
theorem bar4Cause_allowed {t : Byte} (hu : ∀ k g, regionOf a = .vault k g → s.usable k = true) (hg : s.tagAt a = some t)
    (ht : tagAllowsHost p t = true) : s.bar4Cause p a = none := by
  unfold State.bar4Cause
  cases hr : regionOf a <;> simp_all

/-- A piece where no word has an error is the bytes of memory, and its read counts (R145, R163). -/
theorem bar4Piece_of_clean (hc : s.clean) (h : s.ce = []) : s.bar4Piece a n = (s.countRead a n, s.load a n) := by
  simp [State.bar4Piece, correct_of_ce_nil h, badWords_of_clean hc, State.load]

end

/-- Settles O39: an access inside one granule is one piece, whose verdict the aperture and the granule give. -/
theorem bar4ReachesOwnedMemoryOnly : Obligations.Bar4ReachesOwnedMemoryOnly := by
  intro port off s _ i o inside fails
  refine ⟨fun hout n data hn hd => ⟨exec_bar4Read_unreached (bar4Reached_of_beyond hout hn),
    exec_bar4Write_unreached (bar4Reached_of_beyond hout (List.length_pos_iff.mpr hd))⟩, fun hl => ⟨⟨?_, ?_⟩, ?_⟩⟩
  · exact fun n h hout => (bar4_refused hl h (bar4Verdict_outside h (hout rfl))).1
  · exact fun data h hout => (bar4_refused hl h (bar4Verdict_outside h (hout rfl))).2 data rfl
  · intro p b len ho a
    refine ⟨fun k g hr hu n h hlen => ?_, fun hu ht n h hlen => ?_, fun t hu hg hown hpart hsec hclr hplat hc hce => ?_⟩
    · exact bar4_refused hl h ((bar4Verdict_inside h ho hlen).trans (by rw [bar4Cause_unusable hr hu]; rfl))
    · exact bar4_refused hl h ((bar4Verdict_inside h ho hlen).trans (by rw [bar4Cause_denied hu ht]; rfl))
    · have hnone : s.bar4Cause p a = none :=
        bar4Cause_allowed hu hg (by simp [tagAllowsHost, hown, hclr, hplat, hpart, hsec])
      have hserved := fun n h hlen =>
        bar4_served (n := n) hl h ((bar4Verdict_inside h ho hlen).trans (by rw [hnone]; rfl))
      refine ⟨fun n h hlen => ⟨_, (hserved n h hlen).1, ?_⟩,
        fun data h hlen => ⟨_, (hserved _ h hlen).2 data rfl, write_of_clean hc hce a data⟩⟩
      rw [bar4Piece_of_clean hc hce]
      exact ⟨rfl, congrArg (fun x : State => { x with rdata := s.load a n }) countRead_counted⟩

end Sys2Proof.Machine
end

section
/-!
PROOFS. The tier's granules and the doors to memory (R41, R119, R156, R341): what tagging a run of granules and feeding the
clears leave, and from these the obligation on the memory commands.
-/

namespace Sys2Proof.Machine

/-! ### Runs of granules -/

section
variable {s t u : State} {p : PartNum} {c : CmdRef} {m : Cmd}

/-- Tagging a run of tier granules in turn, with a tag that no tag decides, tags them all alike and changes only tags. -/
theorem foldl_setTtag {v : State → Byte} (hv : ∀ (t : State) g x, v (t.setTtag g x) = v t) (first n : Nat) :
    let t := (List.range n).foldl (fun (t : State) i => t.setTtag (first + i) (v t)) s
    (∀ g, t.ttag g = if first ≤ g ∧ g < first + n then v s else s.ttag g) ∧ t = { s with tierTags := t.tierTags } := by
  induction n with
  | zero => exact ⟨fun g => (if_neg (by omega)).symm, rfl⟩
  | succ n ih =>
    dsimp only at ih ⊢
    rw [List.range_succ, List.foldl_append]
    obtain ⟨htag, hframe⟩ := ih
    have hval : v ((List.range n).foldl (fun (t : State) i => t.setTtag (first + i) (v t)) s) = v s :=
      foldl_field (g := v) fun t i => hv t _ _
    generalize (List.range n).foldl (fun (t : State) i => t.setTtag (first + i) (v t)) s = t at htag hframe hval
    refine ⟨fun g => ?_, congrArg (fun x : State => { x with tierTags := (t.setTtag (first + n) (v t)).tierTags }) hframe⟩
    rw [List.foldl_cons, List.foldl_nil, hval]
    refine (look_put (y := g)).trans ?_
    by_cases hg : g = first + n
    · rw [if_pos hg, if_pos (by omega)]
    · rw [if_neg hg]
      refine (htag g).trans ?_
      simp only [show (first ≤ g ∧ g < first + (n + 1)) ↔ (first ≤ g ∧ g < first + n) by omega]

/-! ### Feeding the clears (R159) -/

/-- Partitions that owe no clear feed none, whatever feeding does. -/
theorem foldl_todo_nil {f : PartNum → State → Nat × Nat × Bool → State} {l : List PartNum}
    (h : ∀ q ∈ l, (t.part q).todo = []) : l.foldl (fun (t : State) q => (t.part q).todo.foldl (f q) t) t = t := by
  induction l with
  | nil => rfl
  | cons q l ih =>
    rw [List.foldl_cons, h q (List.mem_cons_self ..)]
    exact ih fun q' hq' => h q' (List.mem_cons_of_mem _ hq')

@[simp] theorem part_modPart_self (f : Part → Part) : (s.modPart p f).part p = f (s.part p) := by
  simp [State.modPart, State.part]

@[simp] theorem part_modPart_ne {q : PartNum} (f : Part → Part) (h : q ≠ p) : (s.modPart p f).part q = s.part q := by
  simp only [State.modPart, State.part]
  exact Vector.getElem_set_ne _ _ fun e => h (Fin.ext e.symm)

/-- One owed clear, while the engine has room, is queued and owed no more. -/
theorem feedClears_one {first n : Nat} {rekey : Bool} (hg : t.gapHolds = false) (hp : (t.part p).todo = [(first, n, rekey)])
    (hq : ∀ q, q ≠ p → (t.part q).todo = []) (hroom : t.tierClears.length < 16) :
    t.feedClears = (t.tierClear first n rekey p.val).modPart p fun r => { r with todo := r.todo.drop 1 } := by
  have hparts : ∀ q, (t.tierClear first n rekey p.val).part q = t.part q := fun q => by
    unfold State.tierClear State.part; split <;> rfl
  obtain ⟨l, r, hlr⟩ := List.append_of_mem (List.mem_finRange p)
  have hnodup : (l ++ p :: r).Nodup := hlr ▸ List.nodup_finRange 8
  have hl : ∀ q ∈ l, q ≠ p := fun q hm e => (List.nodup_append.mp hnodup).2.2 q hm p (List.mem_cons_self ..) e
  have hr : ∀ q ∈ r, q ≠ p := fun q hm e => (List.nodup_cons.mp (List.nodup_append.mp hnodup).2.1).1 (e ▸ hm)
  unfold State.feedClears
  rw [hg, if_neg Bool.false_ne_true, show allParts = l ++ p :: r from hlr, List.foldl_append,
    foldl_todo_nil fun q hm => hq q (hl q hm), List.foldl_cons, hp]
  simp only [List.foldl_cons, List.foldl_nil, hp, hroom, List.head?_cons, and_self, if_true]
  exact foldl_todo_nil fun q hm => by rw [part_modPart_ne _ (hr q hm), hparts, hq q (hr q hm)]


/-! ### The tier's commands -/

/-- Assigning a run of granules tags them as the partition's (R156, R380). -/
theorem giveTier_tags (first n : Nat) :
    (∀ g, (s.giveTier p first n).ttag g = if first ≤ g ∧ g < first + n then ownedTag p (s.isSealed p) else s.ttag g)
      ∧ s.giveTier p first n = { s with tierTags := (s.giveTier p first n).tierTags } :=
  foldl_setTtag (v := fun t => ownedTag p (t.isSealed p)) (fun _ _ _ => rfl) first n

/-- A clear of a run of granules, asked for while the engine has room, is queued. -/
theorem tierClear_queued {first n slot : Nat} {rekey : Bool} (hn : 0 < n) (hlast : first + n ≤ 65536) (hslot : slot ≤ 8)
    (hroom : s.tierClears.length < 16) : s.tierClear first n rekey slot
      = { s with tierClears := s.tierClears ++
            [{ first := first, count := n, rekey := rekey, slot := slot, started := false }] } := by
  rw [State.tierClear, if_neg (by omega)]

/-- The only change to a partition, undone. -/
theorem modPart_undo {f g : Part → Part} (h : g (f (s.part p)) = s.part p) : (s.modPart p f).modPart p g = s := by
  unfold State.modPart State.part at *
  simp [h]

/-- A command that asks for the only clear owed, and parks: the clear is queued at once, owed no more, and the command waits. -/
theorem waits_feed {first n : Nat} {w : Wait} (hc : s.cmd c = some m) (hg : s.gapHolds = false) (hn : 0 < n)
    (hlast : first + n ≤ 65536) (hq : ∀ q, (s.part q).todo = []) (hroom : s.tierClears.length < 16) :
    Waits (.next ((s.modPart p fun r => { r with todo := r.todo ++ [(first, n, false)] }).park c w).feedClears)
      { s with tierClears := s.tierClears ++
          [{ first := first, count := n, rekey := false, slot := p.val, started := false }] } c w := by
  obtain ⟨v, hv, hself, hother, hvt⟩ :=
    waits_park (u := s.modPart p fun r => { r with todo := r.todo ++ [(first, n, false)] }) (m := m) (c := c) hc w
  rw [Host.Outcome.next.inj hv]
  have hparts : v.parts = (s.modPart p fun r => { r with todo := r.todo ++ [(first, n, false)] }).parts := by rw [hvt]
  have hclears : v.tierClears = s.tierClears := by rw [hvt]; rfl
  have hpart : ∀ q, v.part q = (s.modPart p fun r => { r with todo := r.todo ++ [(first, n, false)] }).part q := fun q => by
    unfold State.part; rw [hparts]
  have hfed : v.feedClears = (v.tierClear first n false p.val).modPart p fun r => { r with todo := r.todo.drop 1 } :=
    feedClears_one (by rw [hvt]; exact hg) (by rw [hpart, part_modPart_self, hq]; rfl)
      (fun q hqp => by rw [hpart, part_modPart_ne _ hqp, hq]) (by rw [hclears]; exact hroom)
  have hundo : v.parts.set p.val { v.parts[p.val] with todo := v.parts[p.val].todo.drop 1 } = s.parts := by
    rw [hparts]
    exact congrArg State.parts (modPart_undo (s := s) (p := p) (f := fun r => { r with todo := r.todo ++ [(first, n, false)] })
      (g := fun r => { r with todo := r.todo.drop 1 }) (by simp [hq p]; rw [← hq p]))
  rw [hfed, tierClear_queued hn hlast (by omega) (by rw [hclears]; exact hroom)]
  refine ⟨_, rfl, hself, hother, ?_⟩
  rw [State.modPart, hundo, hclears]
  exact congrArg (fun x : State => { x with parts := s.parts, tierClears := s.tierClears ++
    [({ first := first, count := n, rekey := false, slot := p.val, started := false } : TierClear)] }) hvt


/-! ### Fields of commands and windows -/

theorem leNat_lt (l : List Byte) : leNat l < 256 ^ l.length := by
  induction l with
  | nil => simp [leNat]
  | cons b l ih =>
    have := b.isLt
    rw [leNat, List.length_cons, pow_succ]
    omega

/-- An argument is below the power of its width. -/
theorem arg_lt (off n : Nat) : m.arg off n < 256 ^ n := by
  simpa [Cmd.arg, fieldAt] using leNat_lt (bytesAt m.bytes off n)

/-- A port that exists has the number 0 or 1 (R43). -/
theorem portOk_le {n : Nat} (h : s.portOk n = true) : n ≤ 1 := by
  simp only [State.portOk, Bool.or_eq_true, Bool.and_eq_true, beq_iff_eq] at h
  omega

end

/-! ### Fields set in turn -/

section
variable {s : State}

/-- Fields set in turn leave a field that lies apart from each of them. -/
theorem get_foldl_set_apart {β : Type} {f : β → Fld} {v : State → β → Nat} {g : Fld} (hg : g.fits = true) {l : List β}
    (h : ∀ x ∈ l, (f x).apart g = true) : (l.foldl (fun (s : State) x => s.set (f x) (v s x)) s).get g = s.get g := by
  induction l generalizing s with
  | nil => rfl
  | cons x l ih =>
    exact (ih fun y hy => h y (List.mem_cons_of_mem _ hy)).trans (get_set_apart hg (h x (List.mem_cons_self ..)) _)

/-- Fields set in turn, each apart from those set before it, read the values set. -/
theorem get_foldl_set_self {l : List (Fld × Nat)} (hap : (l.map Prod.fst).Pairwise fun f g => g.apart f = true)
    (hfit : ∀ f ∈ l.map Prod.fst, f.fits = true) (hv : ∀ x ∈ l, x.2 < 2 ^ x.1.width) :
    ∀ x ∈ l, (l.foldl (fun (s : State) x => s.set x.1 x.2) s).get x.1 = x.2 := by
  induction l generalizing s with
  | nil => simp
  | cons y l ih =>
    obtain ⟨hy, hl⟩ := List.pairwise_cons.mp hap
    obtain ⟨hfy, hfl⟩ := List.forall_mem_cons.mp hfit
    obtain ⟨hvy, hvl⟩ := List.forall_mem_cons.mp hv
    refine List.forall_mem_cons.mpr ⟨?_, ih hl hfl hvl⟩
    rw [List.foldl_cons, get_foldl_set_apart (f := Prod.fst) (v := fun _ x => x.2) hfy
      fun x hx => hy x.1 (List.mem_map_of_mem hx), get_set_self hfy, Nat.mod_eq_of_lt hvy]

theorem foldl_set_regsOver {β : Type} {f : β → Fld} {v : State → β → Nat} {l : List β} :
    (l.foldl (fun (s : State) x => s.set (f x) (v s x)) s).regsOver s :=
  foldl_over (R := State.regsOver) (fun _ => rfl) State.regsOver.trans fun _ _ => set_regsOver

end

theorem State.regsOver.cmd {s t : State} (h : t.regsOver s) (c : CmdRef) : t.cmd c = s.cmd c := by rw [h]; rfl

/-- The fields of a window that MEM_WINDOW sets (R119). -/
def windowFields (w : Nat) : List Fld :=
  [F.pciWinCtlKind w, F.pciWinCtlPort w, F.pciWinCtlPartition w, F.pciWinBaseBase w, F.pciWinSigSigBase w]

/-- The fields of a window lie inside their registers and share no bit. -/
theorem windowFields_laidOut : ∀ w, w < 16 →
    (windowFields w).Pairwise (fun f g => g.apart f = true) ∧ ∀ f ∈ windowFields w, f.fits = true := by
  decide +kernel

/-- A window's fields, each set to a value that fits, read those values. -/
theorem window_set {s : State} {w kind port part base sig : Nat} (hw : w < 16) (hkind : kind < 4) (hport : port < 2)
    (hpart : part < 8) (hbase : base < 2 ^ 52) (hsig : sig < 2 ^ 36) :
    let u := ((((s.set (F.pciWinCtlKind w) kind).set (F.pciWinCtlPort w) port).set (F.pciWinCtlPartition w) part).set
      (F.pciWinBaseBase w) base).set (F.pciWinSigSigBase w) sig
    u.get (F.pciWinCtlKind w) = kind ∧ u.get (F.pciWinCtlPort w) = port ∧ u.get (F.pciWinCtlPartition w) = part
      ∧ u.get (F.pciWinBaseBase w) = base ∧ u.get (F.pciWinSigSigBase w) = sig ∧ u.regsOver s := by
  intro u
  obtain ⟨hap, hfit⟩ := windowFields_laidOut w hw
  have hget := get_foldl_set_self (s := s) (l := (windowFields w).zip [kind, port, part, base, sig]) hap hfit
    (by simp only [windowFields, List.zip_cons_cons, List.zip_nil_left, List.forall_mem_cons]
        exact ⟨hkind, hport, hpart, hbase, hsig, by simp⟩)
  simp only [windowFields, List.zip_cons_cons, List.zip_nil_left, List.forall_mem_cons] at hget
  obtain ⟨h1, h2, h3, h4, h5, -⟩ := hget
  exact ⟨h1, h2, h3, h4, h5,
    foldl_set_regsOver (f := Prod.fst) (v := fun _ x => x.2) (l := (windowFields w).zip [kind, port, part, base, sig])⟩

/-! ### The obligation -/

section
variable {s : State} {c : CmdRef} {m : Cmd} {p : PartNum}

/-- Whether another partition holds an aperture. -/
def State.othersAperture (s : State) (p : PartNum) (port a : Nat) : Bool :=
  match s.aperture port a with
  | .opened q _ _ => q != p
  | .closed => false

theorem othersAperture_eq_false {port a : Nat} :
    s.othersAperture p port a = false ↔ ∀ q b l, s.aperture port a = .opened q b l → q = p := by
  unfold State.othersAperture
  cases s.aperture port a <;> simp

/-- An aperture of a port takes a value. -/
def State.setAperture (s : State) (port a : Nat) (x : Aperture) : State :=
  { s with apertures := SMap.put .closed s.apertures (16 * port + a) x }

/-- MEM_APERTURE, started in its form (R41). -/
theorem exec_memAperture (h : s.Started c 0x0303 m) (hp : m.part? = some p) (ha : m.arg 8 1 < 16)
    (hport : s.portOk (m.arg 10 1) = true) (hop : m.arg 9 1 ≤ 1) :
    exec (.memAperture c) s = .next (
      if m.arg 9 1 = 0 then
        if s.othersAperture p (m.arg 10 1) (m.arg 8 1) then s.complete c stDenied
        else (s.setAperture (m.arg 10 1) (m.arg 8 1) .closed).complete c stOk
      else if !apertureOk (m.arg 16 8) (m.arg 24 8) then s.complete c stBad
      else if !s.ownsAll p (m.arg 16 8) (m.arg 24 8) || s.othersAperture p (m.arg 10 1) (m.arg 8 1) then s.complete c stDenied
      else (s.setAperture (m.arg 10 1) (m.arg 8 1) (.opened p (m.arg 16 8) (m.arg 24 8))).complete c stOk) := by
  refine (congrArg Host.Outcome.next (runPart_started h hp _)).trans ?_
  have hform : ¬ (16 ≤ m.arg 8 1 ∨ 1 < m.arg 9 1 ∨ s.portOk (m.arg 10 1) = false) := by simp [hport]; omega
  rw [if_neg hform]
  rfl

end

/-- Settles O37, command by command. -/
theorem tierGranulesAndDoors : Obligations.TierGranulesAndDoors := by
  intro s c m p hp
  refine ⟨fun h => ?_, fun h => ?_, fun h => ?_, fun h => ?_⟩
  · have hexec : exec (.memTierAssign c) s = .next _ := congrArg Host.Outcome.next (runPart_started h hp _)
    rw [hexec]
    generalize m.arg 8 4 = n
    refine ⟨fun first hpos hle hrun => ?_, fun hpos hle hrun => ?_, fun hbad => ?_⟩
    · rw [if_neg (by omega), hrun]
      obtain ⟨htag, hframe⟩ := giveTier_tags (s := s) (p := p) first n
      exact ⟨_, completes_complete (m := m) (by rw [hframe]; exact h.1) _ _, htag, hframe⟩
    · rw [if_neg (by omega), hrun]
      exact completes_complete h.1 _ _
    · rw [if_pos hbad]
      exact completes_complete h.1 _ _
  · have hexec : exec (.memTierRelease c) s = .next _ := congrArg Host.Outcome.next (runPart_started h hp _)
    rw [hexec]
    dsimp only
    generalize m.arg 8 4 = first, m.arg 12 4 = n
    refine ⟨fun hpos hlast hown hheld hq hroom => ?_, fun hbad => ?_⟩
    · have hall : ((List.range n).all fun i => s.ownsTier p (first + i)) = true := by simpa using hown
      rw [if_neg (by omega), hall, hheld]
      obtain ⟨htag, hframe⟩ := foldl_setTtag (s := s) (v := fun _ => clearingTag false p) (fun _ _ _ => rfl) first n
      generalize (List.range n).foldl (fun (t : State) i => t.setTtag (first + i) (clearingTag false p)) s = t at htag hframe ⊢
      have ht : t.tierClears = s.tierClears := by rw [hframe]
      refine ⟨_, waits_feed (s := t) (m := m) ?_ ?_ hpos hlast ?_ ?_, htag, ?_, ?_⟩
      · rw [hframe]; exact h.1
      · rw [hframe]; exact h.2.2.2
      · rw [hframe]; exact hq
      · rw [ht]; exact hroom
      · rw [ht]
      · rw [ht]
        exact congrArg (fun x : State => { x with tierClears := s.tierClears ++
            [({ first := first, count := n, rekey := false, slot := p.val, started := false } : TierClear)] }) hframe
    · by_cases hrange : n = 0 ∨ 65536 < first + n
      · rw [if_pos hrange]
        exact completes_complete h.1 _ _
      · obtain ⟨hn, hlast⟩ := not_or.mp hrange
        have hheld : (!((List.range n).all fun i => s.ownsTier p (first + i)) || s.granulesHeld p first n) = true := by
          simpa [hn, hlast] using hbad
        rw [if_neg hrange, if_pos hheld]
        exact completes_complete h.1 _ _
  · intro a port mine ha hport
    have hmine : mine ↔ s.othersAperture p port a = false := othersAperture_eq_false.symm
    refine ⟨fun hop hok hown hm => ?_, fun hop hok hdenied => ?_, fun hop hok => ?_, fun hop hm => ?_⟩ <;>
      rw [exec_memAperture h hp ha hport (by omega), hop]
    · rw [if_neg Nat.one_ne_zero, hok, hown, hmine.mp hm]
      exact completes_complete (u := s.setAperture ..) h.1 stOk []
    · have hd : (!s.ownsAll p (m.arg 16 8) (m.arg 24 8) || s.othersAperture p port a) = true := by
        rw [hmine] at hdenied
        cases ho : s.ownsAll p (m.arg 16 8) (m.arg 24 8) <;> simp_all
      rw [if_neg Nat.one_ne_zero, hok, hd]
      exact completes_complete h.1 _ _
    · rw [if_neg Nat.one_ne_zero, hok]
      exact completes_complete h.1 _ _
    · rw [if_pos rfl, hmine.mp hm]
      exact completes_complete (u := s.setAperture ..) h.1 stOk []
  · have hexec : exec (.memWindow c) s = .next _ := congrArg Host.Outcome.next (runPart_started h hp _)
    rw [hexec]
    intro w others hw hkind hport hbase hsig
    have hform : ¬ (16 ≤ w ∨ 3 < m.arg 9 1 ∨ s.portOk (m.arg 10 1) = false ∨ m.arg 16 8 % 4096 ≠ 0
        ∨ m.arg 24 8 % 0x10000000 ≠ 0) := by simp [hport, hbase, hsig]; omega
    dsimp only
    rw [if_neg hform]
    refine ⟨fun ho => ?_, fun ho hbusy => ?_, fun ho hbusy _ => ?_⟩
    · rw [if_pos ho]
      exact completes_complete h.1 _ _
    · rw [if_neg ho, if_pos hbusy]
      exact completes_complete h.1 _ _
    · rw [if_neg ho, hbusy, if_neg Bool.false_ne_true]
      have hb : m.arg 16 8 < 256 ^ 8 := arg_lt 16 8
      have hs : m.arg 24 8 < 256 ^ 8 := arg_lt 24 8
      obtain ⟨h1, h2, h3, h4, h5, hregs⟩ := window_set (s := s) (kind := m.arg 9 1) (port := m.arg 10 1) (part := p.val)
        (base := m.arg 16 8 / 4096) (sig := m.arg 24 8 / 0x10000000) hw (by omega) (by have := portOk_le hport; omega) p.isLt
        (by omega) (by omega)
      exact ⟨_, completes_complete ((hregs.cmd c).trans h.1) stOk [], h1, h2, h3, h4, h5, hregs⟩

end Sys2Proof.Machine
end

section
/-!
PROOFS. The power manager's pacing (R410 to R413, R420, R421): how an array is chosen and what stopping, gating and releasing
it leave.
-/

namespace Sys2Proof.Machine

section
variable {s : State} {n : ArrayNum}

/-! ### What the power manager changes -/

/-- t is s but for its registers, its arrays and the power manager. -/
def State.powerOver (t s : State) : Prop := t = { s with regs := t.regs, arrays := t.arrays, pm := t.pm }

theorem State.powerOver.trans {r t : State} (h : t.powerOver s) (g : s.powerOver r) : t.powerOver r :=
  Eq.trans h (congrArg (fun x : State => { x with regs := t.regs, arrays := t.arrays, pm := t.pm }) g)

theorem State.regsOver.power {t : State} (h : t.regsOver s) : t.powerOver s := by
  unfold State.powerOver
  rw [h]

theorem modPm_power {f : PowerMgr → PowerMgr} : (s.modPm f).powerOver s := rfl

theorem modArr_power {f : ArrayState → ArrayState} : (s.modArr n f).powerOver s := rfl

/-! ### Array maps -/

/-- An array's bit in a map that sets or clears it. -/
@[simp] theorem getLsbD_withArr (m : DWord) (b : Bool) : (withArr m n b).getLsbD n.val = b := by
  have hn : n.val < 64 := n.isLt
  have hbit : (BitVec.ofNat 64 (2 ^ n.val)).getLsbD n.val = true := by
    rw [BitVec.getLsbD_ofNat, Nat.testBit_two_pow_self, decide_eq_true hn]; rfl
  cases b <;> simp only [withArr, Bool.false_eq_true, if_false, if_true, BitVec.getLsbD_or, BitVec.getLsbD_and,
    BitVec.getLsbD_not, hbit, Bool.or_true, Bool.not_true, Bool.and_false]

/-! ### The array that a cap takes off (R413) -/

/-- A choice that starts from none and goes from element to element chooses an element. -/
theorem foldl_choice_mem {α : Type} {f : Option α → α → Option α} (hf : ∀ b x y, f b x = some y → y = x ∨ b = some y)
    {l : List α} {y : α} : ∀ {b : Option α}, l.foldl f b = some y → y ∈ l ∨ b = some y := by
  induction l with
  | nil => exact fun h => .inr h
  | cons x l ih =>
    intro b h
    rcases ih h with hy | hy
    · exact .inl (List.mem_cons_of_mem _ hy)
    · exact (hf b x y hy).imp (fun e => by rw [e]; exact List.mem_cons_self ..) id

theorem hottest_mem {ns : List ArrayNum} (h : s.hottest ns = some n) : n ∈ ns := by
  refine (foldl_choice_mem (fun b x y hxy => ?_) h).resolve_right (by simp)
  cases b with
  | none => exact .inl (Option.some.inj hxy).symm
  | some z => simp only at hxy; split at hxy <;> simp_all

theorem pickIn_mem {cands : List ArrayNum} {ps : List PartNum} (h : s.pickIn cands ps = some n) : n ∈ cands :=
  (List.mem_filter.mp (hottest_mem h)).1

theorem pickShared_mem {cands : List ArrayNum} (h : s.pickShared cands = some n) : n ∈ cands := by
  unfold State.pickShared at h
  split at h
  · next hx => cases h; exact (List.mem_filter.mp (hottest_mem hx)).1
  · exact pickIn_mem h

/-- The array that a cap takes off is one that may be taken off. -/
theorem capPick_mem (h : s.capPick = some n) : n ∈ s.capCands := by
  unfold State.capPick at h
  dsimp only at h
  split at h
  · split at h
    · exact List.mem_of_getLast? h
    · cases h
  · split at h
    · split at h
      · split at h
        · exact (List.mem_filter.mp (pickShared_mem h)).1
        · cases h
      · exact pickShared_mem h
    · split at h
      · split at h
        · next hx => cases h; exact pickIn_mem hx
        · split at h
          · exact (List.mem_filter.mp (hottest_mem h)).1
          · cases h
      · split at h
        · exact pickShared_mem h
        · cases h

theorem capPick_running (h : s.capPick = some n) : (s.arr n).power = .running := by
  have := (List.mem_filter.mp (capPick_mem h)).2
  simp only [Bool.and_eq_true, beq_iff_eq] at this
  exact this.1.1.2

theorem heatPick_running (h : s.heatPick = some n) : (s.arr n).power = .running := by
  have := List.find?_some h
  simp only [Bool.and_eq_true, beq_iff_eq] at this
  exact this.2

/-! ### Stops and releases -/

theorem clockStop_power (h : (s.arr n).power = .running) : ((s.clockStop n).arr n).power = .clockStopped := by
  simp [State.clockStop, h]

/-- A release leaves an array that has its power running. -/
theorem release_arr (h : (s.arr n).power ≠ .gated) : (s.release n).arr n = { s.arr n with power := .running } := by
  rw [State.release, arr_modArr_self]
  cases hp : (s.arr n).power with
  | gated => exact absurd hp h
  | running => cases ha : s.arr n; simp_all
  | clockStopped | draining => rfl

/-- A release gives a power-gated array its power back and stages its valid planes again (R89). -/
theorem release_arr_gated (h : (s.arr n).power = .gated) :
    (s.release n).arr n = { s.arr n with power := .running, restaging := (s.arr n).planes.any fun x => x.2.isSome } := by
  rw [State.release, arr_modArr_self, h]

/-! The power manager's own changes touch no array. -/

@[simp] theorem arr_modPm (f : PowerMgr → PowerMgr) (k : ArrayNum) : (s.modPm f).arr k = s.arr k := rfl

@[simp] theorem arr_tookSlot (k : ArrayNum) : s.tookSlot.arr k = s.arr k := rfl

theorem arr_release_ne {k : ArrayNum} (hk : k ≠ n) : (s.release n).arr k = s.arr k := arr_modArr_ne _ hk

/-- t is s after a release of array n at a slot (R410, R411): a power-gated array is only marked, any other runs and takes
the slot. -/
def State.releasedAt (t s : State) (n : ArrayNum) : Prop :=
  (∀ k, k ≠ n → t.arr k = s.arr k) ∧ t.pm.capOff.getLsbD n.val = false
    ∧ ((s.arr n).power = .gated → t.arr n = s.arr n ∧ t.pm.releasing.getLsbD n.val = true
      ∧ t.pm.lastSlot = s.pm.lastSlot)
    ∧ ((s.arr n).power ≠ .gated → t.arr n = { s.arr n with power := .running } ∧ t.pm.lastSlot = some s.time)
    ∧ t = { s with arrays := t.arrays, pm := t.pm }

theorem releaseSlot_releasedAt : (s.releaseSlot n).releasedAt s n := by
  by_cases hp : (s.arr n).power = .gated
  · have hg : ((s.arr n).power == .gated) = true := by rw [hp]; rfl
    simp only [State.releaseSlot, State.releaseArr, hg, if_true]
    exact ⟨fun _ _ => rfl, getLsbD_withArr .., fun _ => ⟨rfl, getLsbD_withArr .., rfl⟩, fun h => absurd hp h, rfl⟩
  · have hg : ((s.arr n).power == .gated) = false := by simpa using hp
    simp only [State.releaseSlot, State.releaseArr, hg, Bool.false_eq_true, if_false]
    exact ⟨fun _ hk => arr_release_ne hk, getLsbD_withArr .., fun h => absurd h hp,
      fun _ => ⟨release_arr (s := s.modPm _) hp, rfl⟩, rfl⟩

/-- The same release, where a rotation's swap has just been found idle. -/
theorem releaseSlot_afterSwap : ((if s.pm.swapStep = 1 then s.swapIdle else s).releaseSlot n).releasedAt s n := by
  split
  · exact releaseSlot_releasedAt (s := s.swapIdle)
  · exact releaseSlot_releasedAt

theorem slotOpen_iff : s.slotOpen = true ↔ ∀ t0, s.pm.lastSlot = some t0 → 1000 ≤ (s.time - t0).toNat := by
  unfold State.slotOpen
  cases s.pm.lastSlot <;> simp

end

/-! ### The pacing slot -/

section
variable {s : State} {n : ArrayNum}

/-- A slot that has not come changes nothing (R411). -/
theorem exec_pacingSlot_closed (h : s.slotOpen = false) : exec .pacingSlot s = .next s := by
  change execPacingSlot s = _
  rw [execPacingSlot, h, if_pos (by simp)]

/-- A rotation's swap that finds nothing to take off bears on no release. -/
theorem releasePick_swapIdle (h : s.pm.swapStep = 1) : s.swapIdle.releasePick = s.releasePick := by
  unfold State.releasePick
  simp only [h, show s.swapIdle.pm.swapStep = 0 from rfl, OfNat.zero_ne_ofNat, OfNat.one_ne_ofNat, if_false]
  rfl

/-- What an open slot does, heat before caps before releases (R411). -/
theorem exec_pacingSlot_open (hstage : s.board.stages.getLsbD 1 = true) (h : s.slotOpen = true) :
    exec .pacingSlot s = .next ((s.heatPick.map fun n => (s.heatStop n).tookSlot).getD
      ((s.capPick.map fun n => (s.capStop n).tookSlot).getD
        ((s.releasePick.map fun n => (if s.pm.swapStep = 1 then s.swapIdle else s).releaseSlot n).getD
          (if s.pm.swapStep = 1 then s.swapIdle else s)))) := by
  change execPacingSlot s = _
  have hpick : (if s.pm.swapStep = 1 then s.swapIdle else s).releasePick = s.releasePick := by
    split
    · next h1 => exact releasePick_swapIdle h1
    · rfl
  rw [execPacingSlot, hstage, h, if_neg (by decide)]
  cases s.heatPick with
  | some n => rfl
  | none =>
    cases s.capPick with
    | some n => rfl
    | none => dsimp only; rw [hpick]; cases s.releasePick <;> rfl


/-! ### Power-gates, re-locks and rotations (R410, R412, R420) -/

/-- The hold of R412 in words. -/
theorem gateHeld_iff : s.gateHeld n = true ↔ s.pmReady = true ∧ (s.arr n).power = .clockStopped ∧
    ((s.pm.capOff.getLsbD n.val = true ∧ s.sinceAtLeast s.pm.capSince n.val s.gateTicks = true)
      ∨ (s.pm.dutyOff.getLsbD n.val = true ∧ s.get (F.pwrADutyD n) = 16
        ∧ s.sinceAtLeast s.pm.fullSince n.val s.gateTicks = true)) := by
  simp only [State.gateHeld, Bool.and_eq_true, Bool.or_eq_true, beq_iff_eq, and_assoc]

/-- A hold of gate_ms starts the drain of a clock-stopped array, and of no other. -/
theorem exec_gateHoldExpiry_held (h : s.gateHeld n = true) :
    exec (.gateHoldExpiry n) s = .next (s.modArr n fun a => { a with power := .draining }) := by
  change execGateHoldExpiry n s = _
  have hp : s.arrays[n.val].power = .clockStopped := (gateHeld_iff.mp h).2.1
  rw [execGateHoldExpiry, if_pos h, State.startGate, State.modArr, State.modArr, hp]

theorem exec_gateHoldExpiry_free (h : s.gateHeld n = false) : exec (.gateHoldExpiry n) s = .next s := by
  change execGateHoldExpiry n s = _
  rw [execGateHoldExpiry, h, if_neg Bool.false_ne_true]

theorem exec_powerGateDrainDone_quiet (hp : (s.arr n).power = .draining) (hq : (s.arr n).quiet = true) :
    exec (.powerGateDrainDone n) s = .next (s.modArr n fun a => { a with power := .gated, wbuf := [] }) := by
  change execPowerGateDrainDone n s = _
  rw [execPowerGateDrainDone, hp, hq, if_pos (by decide)]

/-- Whether a power-gated array whose release is decided may get its power now (R411, R413, R417). -/
def State.mayPowerUp (s : State) (n : ArrayNum) : Bool :=
  s.pm.releasing.getLsbD n && s.slotOpen && s.pmReady && !s.flag F.pwrStatusSettling

theorem mayPowerUp_iff : s.mayPowerUp n = true ↔ s.pm.releasing.getLsbD n.val = true
    ∧ (∀ t0, s.pm.lastSlot = some t0 → 1000 ≤ (s.time - t0).toNat) ∧ s.pmReady = true
    ∧ s.flag F.pwrStatusSettling = false := by
  simp only [State.mayPowerUp, Bool.and_eq_true, Bool.not_eq_true', slotOpen_iff, and_assoc]

/-- The return of an array's power (R89, R410). -/
theorem exec_releaseFromPowerGate_may (h : s.mayPowerUp n = true) : ∃ t, exec (.releaseFromPowerGate n) s = .next t
    ∧ t.pm.releasing.getLsbD n.val = false ∧ (∀ k, k ≠ n → t.arr k = s.arr k)
    ∧ ((s.arr n).power = .gated → t.pm.lastSlot = some s.time ∧
        t.arr n = { s.arr n with power := .running, restaging := (s.arr n).planes.any fun x => x.2.isSome })
    ∧ t = { s with arrays := t.arrays, pm := t.pm } := by
  by_cases hp : (s.arr n).power = .gated
  · have hg : ((s.arr n).power == .gated) = true := by rw [hp]; rfl
    exact ⟨((s.modPm fun m => { m with releasing := withArr m.releasing n false }).release n).tookSlot,
      congrArg Host.Outcome.next ((if_pos h).trans (if_pos hg)), getLsbD_withArr .., fun _ hk => arr_release_ne hk,
      fun _ => ⟨rfl, release_arr_gated (s := s.modPm _) hp⟩, rfl⟩
  · have hg : ¬ ((s.arr n).power == .gated) = true := by simpa using hp
    exact ⟨s.modPm fun m => { m with releasing := withArr m.releasing n false },
      congrArg Host.Outcome.next ((if_pos h).trans (if_neg hg)), getLsbD_withArr .., fun _ _ => rfl,
      fun h => absurd h hp, rfl⟩

theorem exec_releaseFromPowerGate_not (h : s.mayPowerUp n = false) : exec (.releaseFromPowerGate n) s = .next s := by
  refine congrArg Host.Outcome.next (if_neg ?_)
  exact fun h' => Bool.false_ne_true (h.symm.trans h')

/-- A half's gated writes to an array keep the slots, the holds and the trips (R361, R411 to R413). -/
theorem seqStop_closed (h : s.slotOpen = false) : s.seqStop n = s := by simp [State.seqStop, h]

theorem seqRelease_barred (h : s.slotOpen = false ∨ s.pmReady = false ∨ s.flag F.pwrStatusSettling = true ∨ s.heatHeld n = true) :
    s.seqRelease n = s := by
  rcases h with h | h | h | h <;> simp [State.seqRelease, h]

theorem seqGate_barred (h : s.gateHeld n = false) (ht : s.pm.ownTrip.getLsbD n.val = false) : s.seqGate n = s := by
  rw [State.seqGate, h, ht]; simp

@[simp] theorem get_modPm (f : PowerMgr → PowerMgr) (g : Fld) : (s.modPm f).get g = s.get g := rfl

@[simp] theorem get_modArr (f : ArrayState → ArrayState) (g : Fld) : (s.modArr n f).get g = s.get g := rfl

theorem arr_set (f : Fld) (v : Nat) (k : ArrayNum) : (s.set f v).arr k = s.arr k := by rw [set_eq_regs]; rfl

theorem arr_holdClock_self (k : Nat) :
    (s.holdClock n k).arr n = { s.arr n with clockHold := max (s.arr n).clockHold k } := arr_modArr_self _

theorem arr_holdClock_ne {k : ArrayNum} (hk : k ≠ n) (x : Nat) : (s.holdClock n x).arr k = s.arr k := arr_modArr_ne _ hk

/-- An idle array's re-lock (R420, R421). -/
theorem exec_frequencyRelock_idle (hw : s.pm.freqWait.getLsbD n.val = true) (hb : s.busy n = false) :
    ∃ t, exec (.frequencyRelock n) s = .next t
      ∧ t.get (F.pwrAVfFRun n)
          = (if s.flag F.pwrStatusOpportunistic = true then min (s.get (F.pwrAVfFMax n)) 236 else 200)
      ∧ t.pm.freqWait.getLsbD n.val = false ∧ (∀ k, k ≠ n → t.arr k = s.arr k)
      ∧ t.arr n = { s.arr n with clockHold := max (s.arr n).clockHold 2000 }
      ∧ t = { s with regs := t.regs, arrays := t.arrays, pm := t.pm } := by
  refine ⟨((s.set (F.pwrAVfFRun n) (if s.flag F.pwrStatusOpportunistic = true then min (s.get (F.pwrAVfFMax n)) 236 else 200)).holdClock
    n 2000).modPm fun m => { m with freqWait := withArr m.freqWait n false },
    congrArg Host.Outcome.next (if_pos (by rw [hw, hb]; rfl)), ?_, getLsbD_withArr .., fun k hk => ?_, ?_, ?_⟩
  · have hf : (F.pwrAVfFRun n).fits = true := rfl
    have hw : (F.pwrAVfFRun n).width = 8 := rfl
    rw [get_modPm, State.holdClock, get_modArr, get_set_self hf, hw]
    exact Nat.mod_eq_of_lt (by split <;> omega)
  · rw [arr_modPm, arr_holdClock_ne hk, arr_set]
  · rw [arr_modPm, arr_holdClock_self, arr_set]
  · exact modPm_power.trans (modArr_power.trans set_regsOver.power)

theorem exec_frequencyRelock_busy (hb : s.busy n = true) : exec (.frequencyRelock n) s = .next s :=
  congrArg Host.Outcome.next (if_neg (by rw [hb]; simp))

/-- Array numbers taken as numbers are filtered alike. -/
theorem length_filter_val (p : Nat → Bool) (l : List ArrayNum) :
    ((do let a ← l; pure a.val).filter p).length = (l.filter fun n => p n.val).length := by
  rw [bind_pure_comp, List.map_eq_map, List.filter_map, List.length_map]
  rfl

/-- A rotation that is due starts a swap (R412). -/
theorem exec_rotation_due (hr : s.pmReady = true) (hms : s.get F.pwrCtlRotMs ≠ 0)
    (hoff : 0 < (allArrays.filter fun n => s.pm.capOff.getLsbD n.val).length)
    (hcap : (allArrays.filter fun n => s.pm.capOff.getLsbD n.val).length
      < (allArrays.filter fun n => s.usable n && !s.heatHeld n).length)
    (hswap : s.pm.swapStep = 0) (hdue : 100000 * s.get F.pwrCtlRotMs ≤ (s.time - s.pm.rotAt).toNat) :
    exec .rotation s = .next { s with pm := { s.pm with swapStep := 1, rotAt := s.time } } := by
  change execRotation s = _
  unfold execRotation
  dsimp only
  rw [if_pos]
  · rfl
  · rw [length_filter_val]
    simp only [Bool.and_eq_true, decide_eq_true_eq, bne_iff_ne, beq_iff_eq]
    exact ⟨⟨⟨⟨⟨hr, hms⟩, hoff⟩, hcap⟩, hswap⟩, hdue⟩

end
end Sys2Proof.Machine
end

section
/-!
PROOFS. The power manager's estimates and trims (R408, R409, R414, R416, R421), and with them the obligation on estimates,
pacing and release.
-/

namespace Sys2Proof.Machine

section
variable {s t u : State} {n : ArrayNum}

/-! ### Trims (R409) -/

/-- Values put in turn at the keys of distinct array numbers, each computed from the one before. -/
theorem look_foldl_put {α : Type} [DecidableEq α] {d : α} {g : ArrayNum → α → α} {l : List ArrayNum} (hl : l.Nodup) :
    ∀ {m : SMap α} (n : ArrayNum), SMap.look d (l.foldl (fun m k => SMap.put d m k.val (g k (SMap.look d m k.val))) m) n.val
      = if n ∈ l then g n (SMap.look d m n.val) else SMap.look d m n.val := by
  induction l with
  | nil => intro m n; simp
  | cons k l ih =>
    intro m n
    obtain ⟨hk, hl'⟩ := List.nodup_cons.mp hl
    rw [List.foldl_cons, ih hl' n]
    by_cases hn : n = k
    · subst hn
      rw [if_neg hk, if_pos (List.mem_cons_self ..), look_put_self]
    · have hne : n.val ≠ k.val := fun e => hn (Fin.ext e)
      simp only [List.mem_cons, hn, false_or, look_put_ne hne]

/-- The trims after ESTIMATE_TRIM over some estimates: each moves by its trimmed average less its average (R409). -/
def newTrims (h : List (List Nat)) (trimmed : List Nat) (trims : SMap Int) : SMap Int :=
  allArrays.foldl (fun t n => SMap.put 0 t n.val
    (SMap.look 0 t n.val + (((trimmed[n.val]?).getD 0 : Nat) : Int) - ((avgAt h n.val : Nat) : Int))) trims

theorem look_newTrims (h : List (List Nat)) (trimmed : List Nat) (trims : SMap Int) (n : ArrayNum) :
    SMap.look 0 (newTrims h trimmed trims) n.val
      = SMap.look 0 trims n.val + (((trimmed[n.val]?).getD 0 : Nat) : Int) - ((avgAt h n.val : Nat) : Int) :=
  (look_foldl_put (g := fun k v => v + (((trimmed[k.val]?).getD 0 : Nat) : Int) - ((avgAt h k.val : Nat) : Int))
    (List.nodup_finRange 64) n).trans (if_pos (List.mem_finRange n))

/-- New trims are the only change of ESTIMATE_TRIM. -/
theorem modPm_trims (f : PowerMgr → SMap Int) : s.modPm (fun m => { m with trims := f m })
    = { s with pm := { s.pm with trims := (s.modPm fun m => { m with trims := f m }).pm.trims } } := rfl

theorem trims_modPm (f : PowerMgr → SMap Int) : (s.modPm fun m => { m with trims := f m }).pm.trims = f s.pm := rfl

/-- What ESTIMATE_TRIM needs of its trimmed averages (R409). -/
def State.trimOk (s : State) (measured : Nat) (trimmed : List Nat) : Prop :=
  let h := s.recentEst 10000000
  let total := h.length * trimmed.sum + (h.map fun x => (x[64]?).getD 0).sum
  s.pmReady = true ∧ h ≠ [] ∧ trimmed.length = 64 ∧ measured * h.length ≤ total
    ∧ 100 * total ≤ h.length * (100 * measured + 3 * s.effCap)

variable {measured : Nat} {trimmed : List Nat}

theorem trimOk_iff : s.trimOk measured trimmed ↔
    (let h := s.recentEst 10000000
     let total := h.length * trimmed.sum + (h.map fun x => (x[64]?).getD 0).sum
     (s.pmReady && decide (0 < h.length) && trimmed.length == 64 && decide (measured * h.length ≤ total)
        && decide (100 * total ≤ h.length * (100 * measured + 3 * s.effCap))) = true) := by
  simp only [State.trimOk, Bool.and_eq_true, decide_eq_true_eq, beq_iff_eq, List.length_pos_iff, and_assoc]

theorem exec_estimateTrim_ok (h : s.trimOk measured trimmed) : exec (.estimateTrim measured trimmed) s
    = .next (s.modPm fun m => { m with trims := newTrims (s.recentEst 10000000) trimmed m.trims }) :=
  congrArg Host.Outcome.next (if_pos (trimOk_iff.mp h))

theorem exec_estimateTrim_not (h : ¬ s.trimOk measured trimmed) : exec (.estimateTrim measured trimmed) s = .next s :=
  congrArg Host.Outcome.next (if_neg fun hc => h (trimOk_iff.mpr hc))

/-! ### What an estimate and a cap rest on (R408, R414) -/

/-- The registers that the effective cap and the module's estimate rest on. -/
def estimateFields : List Fld :=
  [F.pwrCapHostCap, F.thmInletFlow, F.pwrStatusFlowFault, F.pwrEstPlatform] ++ allArrays.map fun n : ArrayNum => F.pwrAEstEst n.val

theorem effCap_congr (hget : ∀ g ∈ estimateFields, t.get g = s.get g) (hpm : t.pm = s.pm) : t.effCap = s.effCap := by
  have h1 : t.get F.pwrCapHostCap = s.get F.pwrCapHostCap := hget _ (by decide)
  have h2 : t.get F.thmInletFlow = s.get F.thmInletFlow := hget _ (by decide)
  have h3 : t.flag F.pwrStatusFlowFault = s.flag F.pwrStatusFlowFault := congrArg (· != 0) (hget _ (by decide))
  unfold State.effCap State.caps State.flowCap
  rw [h1, h2, h3, hpm]

theorem arrEst_congr (hget : ∀ g ∈ estimateFields, t.get g = s.get g) (n : ArrayNum) : t.arrEst n = s.arrEst n :=
  hget _ (List.mem_append_right _ (List.mem_map.mpr ⟨n, List.mem_finRange n, rfl⟩))

theorem moduleEst_congr (hget : ∀ g ∈ estimateFields, t.get g = s.get g) : t.moduleEst = s.moduleEst := by
  unfold State.moduleEst State.platEst
  rw [List.map_congr_left fun n _ => arrEst_congr hget n, hget F.pwrEstPlatform (by decide)]


/-! ### What follows an estimate (R416, R421) -/

/-- What a refresh of the cap shows. -/
def capFields : List Fld :=
  [F.pwrCapEffCap, F.pwrCauseHost, F.pwrCauseFlow, F.pwrCauseBoard, F.pwrCauseHardware, F.pwrStatusHwCap]
    ++ allParts.map fun p : PartNum => F.pwrShareApplied p.val

theorem refreshCap_regsOver : s.refreshCap.regsOver s :=
  foldl_set_regsOver.trans (set_regsOver.trans (foldl_set_regsOver.trans set_regsOver))

/-- A refresh of the cap leaves every field but those it shows. -/
theorem get_refreshCap {g : Fld} (hg : g.fits = true) (h : ∀ f ∈ capFields, f.apart g = true) :
    s.refreshCap.get g = s.get g := by
  unfold State.refreshCap
  dsimp only
  rw [get_foldl_set_apart hg fun p hp => h _ (List.mem_append_right _ (List.mem_map_of_mem hp)),
    get_set_apart hg (h _ (by simp [capFields])), get_foldl_set_apart hg fun x hx => h _ ?_, get_set_apart hg (h _ (by simp [capFields]))]
  have := (List.of_mem_zip hx).1
  simp only [List.mem_cons, List.not_mem_nil, or_false] at this
  rcases this with e | e | e | e <;> simp [capFields, e]

/-- The power mode that PWR_MODE chose applies now (R421). -/
def State.applyIsolation (s : State) : State :=
  match s.pm.isolatedNext with
  | some b => (s.set F.pwrStatusIsolated (bitNum b)).modPm fun m => { m with isolatedNext := none }
  | none => s

theorem applyIsolation_pm : s.applyIsolation.pm = { s.pm with isolatedNext := none } := by
  unfold State.applyIsolation
  split
  · rfl
  · next h => rw [← h]

theorem applyIsolation_power : s.applyIsolation.powerOver s := by
  unfold State.applyIsolation
  split
  · exact modPm_power.trans set_regsOver.power
  · rfl

theorem get_applyIsolation {g : Fld} (hg : g.fits = true) (h : F.pwrStatusIsolated.apart g = true) :
    s.applyIsolation.get g = s.get g := by
  unfold State.applyIsolation
  split
  · rw [get_modPm, get_set_apart hg h]
  · rfl

theorem flag_applyIsolation {b : Bool} (h : s.pm.isolatedNext = some b) : s.applyIsolation.flag F.pwrStatusIsolated = b := by
  unfold State.applyIsolation State.flag
  rw [h, get_modPm, get_set_self rfl]
  cases b <;> rfl

theorem endSettle_regsOver : s.endSettle.regsOver s := by
  unfold State.endSettle
  split
  · exact set_regsOver.trans set_regsOver
  · rfl

theorem get_endSettle {g : Fld} (hg : g.fits = true) (h : F.pwrStatusSettling.apart g = true)
    (h' : F.pwrStatusSettled.apart g = true) : s.endSettle.get g = s.get g := by
  unfold State.endSettle
  split
  · rw [State.raiseBit, get_set_apart hg h', get_set_apart hg h]
  · rfl

/-- t is s but for its arrays. -/
def State.arraysOver (t s : State) : Prop := t = { s with arrays := t.arrays }

theorem State.arraysOver.trans {r : State} (h : t.arraysOver s) (g : s.arraysOver r) : t.arraysOver r :=
  Eq.trans h (congrArg (fun x : State => { x with arrays := t.arrays }) g)

theorem State.arraysOver.power (h : t.arraysOver s) : t.powerOver s := by
  unfold State.powerOver
  rw [h]

theorem State.arraysOver.get (h : t.arraysOver s) (g : Fld) : t.get g = s.get g := by rw [h]; rfl

theorem stopWarming_arraysOver : s.stopWarming.arraysOver s :=
  foldl_over (R := State.arraysOver) (fun _ => rfl) State.arraysOver.trans fun _ _ => by split <;> rfl

/-- A settling ends where the estimate is at or below the cap, and goes on where it is not (R416). -/
theorem endSettle_settling (h : s.flag F.pwrStatusSettling = true) :
    s.endSettle.flag F.pwrStatusSettling = decide (s.effCap < s.moduleEst) := by
  unfold State.endSettle
  by_cases hle : s.moduleEst ≤ s.effCap
  · have hget : ((s.set F.pwrStatusSettling 0).raiseBit F.pwrStatusSettled).get F.pwrStatusSettling = 0 := by
      rw [State.raiseBit, get_set_apart rfl rfl, get_set_self rfl]; rfl
    rw [h, decide_eq_true hle, if_pos (by rfl), State.flag, hget, decide_eq_false (by omega)]
    rfl
  · rw [h, decide_eq_false hle, if_neg (by decide), h, decide_eq_true (by omega)]

/-- Power mode, cap, settling and warm floor as they follow an estimate. -/
def State.afterEstimate (s : State) : State := s.applyIsolation.refreshCap.endSettle.stopWarming

theorem exec_powerEstimate (hstage : s.board.stages.getLsbD 1 = true) (acts : List Activity) (plat : Nat) :
    exec (.powerEstimate acts plat) s = .next (s.estimate acts plat).afterEstimate :=
  congrArg Host.Outcome.next (if_neg (by rw [hstage]; decide))

theorem afterEstimate_power : s.afterEstimate.powerOver s :=
  stopWarming_arraysOver.power.trans (endSettle_regsOver.power.trans (refreshCap_regsOver.power.trans applyIsolation_power))

theorem afterEstimate_pm : s.afterEstimate.pm = { s.pm with isolatedNext := none } := by
  have h : s.afterEstimate.pm = s.applyIsolation.pm := by
    unfold State.afterEstimate
    rw [stopWarming_arraysOver, endSettle_regsOver, refreshCap_regsOver]
  rw [h, applyIsolation_pm]

/-- The estimates and what the cap rests on lie apart from all that follows an estimate sets. -/
theorem estimateFields_apart : ∀ g ∈ F.pwrEstModule :: estimateFields, g.fits = true ∧
    ∀ f ∈ F.pwrStatusIsolated :: F.pwrStatusSettling :: F.pwrStatusSettled :: capFields, f.apart g = true := by
  decide +kernel

theorem get_endSettle_estimate {g : Fld} (h : g ∈ F.pwrEstModule :: estimateFields) : s.endSettle.get g = s.get g := by
  obtain ⟨hfit, hap⟩ := estimateFields_apart g h
  exact get_endSettle hfit (hap _ (by simp)) (hap _ (by simp))

theorem get_afterEstimate {g : Fld} (h : g ∈ F.pwrEstModule :: estimateFields) : s.afterEstimate.get g = s.get g := by
  obtain ⟨hfit, hap⟩ := estimateFields_apart g h
  unfold State.afterEstimate
  rw [stopWarming_arraysOver.get, get_endSettle_estimate h,
    get_refreshCap hfit fun f hf => hap f (by simp [hf]), get_applyIsolation hfit (hap _ (by simp))]

/-- The mode's isolation is shown once it applies. -/
theorem afterEstimate_isolated {b : Bool} (h : s.pm.isolatedNext = some b) : s.afterEstimate.flag F.pwrStatusIsolated = b := by
  have hap : ∀ f ∈ capFields, f.apart F.pwrStatusIsolated = true := by decide
  unfold State.afterEstimate State.flag
  rw [stopWarming_arraysOver.get, get_endSettle rfl rfl rfl, get_refreshCap rfl hap]
  exact flag_applyIsolation h

/-- A settling that was on is on exactly while the estimate exceeds the cap. -/
theorem afterEstimate_settling (h : s.flag F.pwrStatusSettling = true) :
    s.afterEstimate.flag F.pwrStatusSettling = decide (s.afterEstimate.effCap < s.afterEstimate.moduleEst) := by
  have hap : ∀ f ∈ capFields, f.apart F.pwrStatusSettling = true := by decide
  have hon : s.applyIsolation.refreshCap.flag F.pwrStatusSettling = true := by
    rw [State.flag, get_refreshCap rfl hap, get_applyIsolation rfl rfl]; exact h
  unfold State.afterEstimate
  generalize s.applyIsolation.refreshCap = u at hon
  have hget : ∀ g ∈ estimateFields, u.endSettle.stopWarming.get g = u.get g := fun g hg => by
    rw [stopWarming_arraysOver.get, get_endSettle_estimate (List.mem_cons_of_mem _ hg)]
  have hpm : u.endSettle.stopWarming.pm = u.pm := by rw [stopWarming_arraysOver, endSettle_regsOver]
  rw [effCap_congr hget hpm, moduleEst_congr hget, State.flag, stopWarming_arraysOver.get]
  exact endSettle_settling hon

/-! ### The estimate (R408) -/

/-- The fields of an estimate lie inside their registers and share no bit. -/
theorem arrEst_laidOut : (allArrays.map fun n : ArrayNum => F.pwrAEstEst n.val).Pairwise (fun f g => g.apart f = true)
    ∧ ∀ f ∈ allArrays.map fun n : ArrayNum => F.pwrAEstEst n.val, f.fits = true
      ∧ F.pwrEstPlatform.apart f = true ∧ F.pwrEstModule.apart f = true ∧ f.apart F.pwrStatusSettling = true := by
  decide +kernel

/-- The estimate of an array in 0.01 W: its activity and static term with its trim (R408, R409). -/
def State.newEst (s : State) (acts : List Activity) (n : ArrayNum) : Nat :=
  min 65535 (((s.rawEst n acts[n.val]? : Nat) : Int) + SMap.look 0 s.pm.trims n.val).toNat

/-- The registers of an estimate, before the module's sum. -/
def State.showEst (s : State) (acts : List Activity) (plat : Nat) : State :=
  (allArrays.foldl (fun (t : State) (n : ArrayNum) => t.set (F.pwrAEstEst n.val) (s.newEst acts n)) s).set F.pwrEstPlatform
    (min plat 65535)

variable {acts : List Activity} {plat : Nat}

/-- An estimate shows the arrays, the platform and their sum, and keeps its records in the power manager. -/
theorem estimate_eq : ∃ f : PowerMgr → PowerMgr, s.estimate acts plat
      = ((s.showEst acts plat).set F.pwrEstModule (min 65535 ((s.showEst acts plat).moduleEst / 10))).modPm f
    ∧ ∀ m, (f m).isolatedNext = m.isolatedNext := by
  unfold State.estimate
  exact ⟨_, rfl, fun _ => rfl⟩

theorem showEst_regsOver : (s.showEst acts plat).regsOver s := set_regsOver.trans foldl_set_regsOver

theorem showEst_arrEst (n : ArrayNum) : (s.showEst acts plat).arrEst n = s.newEst acts n := by
  obtain ⟨hap, hfit⟩ := arrEst_laidOut
  have hn : F.pwrAEstEst n.val ∈ allArrays.map fun n : ArrayNum => F.pwrAEstEst n.val :=
    List.mem_map.mpr ⟨n, List.mem_finRange n, rfl⟩
  have hmap : ((allArrays.map fun n : ArrayNum => (F.pwrAEstEst n.val, s.newEst acts n)).map Prod.fst)
      = allArrays.map fun n : ArrayNum => F.pwrAEstEst n.val := List.map_map
  have hget := get_foldl_set_self (s := s) (l := allArrays.map fun n : ArrayNum => (F.pwrAEstEst n.val, s.newEst acts n))
    (by rw [hmap]; exact hap) (by rw [hmap]; exact fun f hf => (hfit f hf).1)
    (List.forall_mem_map.mpr fun k _ => by
      have : s.newEst acts k ≤ 65535 := Nat.min_le_left ..
      exact Nat.lt_succ_of_le this)
    _ (List.mem_map.mpr ⟨n, List.mem_finRange n, rfl⟩)
  rw [List.foldl_map] at hget
  unfold State.arrEst State.showEst
  rw [get_set_apart (hfit _ hn).1 (hfit _ hn).2.1]
  exact hget

theorem showEst_platform : (s.showEst acts plat).get F.pwrEstPlatform = min plat 65535 :=
  (get_set_self rfl _).trans (Nat.mod_eq_of_lt (Nat.lt_succ_of_le (Nat.min_le_right ..)))

theorem showEst_settling : (s.showEst acts plat).flag F.pwrStatusSettling = s.flag F.pwrStatusSettling := by
  unfold State.flag State.showEst
  rw [get_set_apart rfl rfl, get_foldl_set_apart rfl fun n hn => (arrEst_laidOut.2 _ (List.mem_map_of_mem hn)).2.2.2]

/-- What an estimate shows. -/
theorem estimate_spec :
    (∀ n, (s.estimate acts plat).arrEst n = s.newEst acts n)
      ∧ (s.estimate acts plat).get F.pwrEstPlatform = min plat 65535
      ∧ (s.estimate acts plat).get F.pwrEstModule = min 65535 ((s.estimate acts plat).moduleEst / 10)
      ∧ (s.estimate acts plat).flag F.pwrStatusSettling = s.flag F.pwrStatusSettling
      ∧ (s.estimate acts plat).pm.isolatedNext = s.pm.isolatedNext
      ∧ (s.estimate acts plat).powerOver s := by
  obtain ⟨f, he, hf⟩ := estimate_eq (s := s) (acts := acts) (plat := plat)
  have hap : ∀ g ∈ estimateFields, F.pwrEstModule.apart g = true ∧ g.fits = true := by decide +kernel
  have hget : ∀ g ∈ estimateFields, (s.estimate acts plat).get g = (s.showEst acts plat).get g := fun g hg => by
    rw [he, get_modPm, get_set_apart (hap g hg).2 (hap g hg).1]
  refine ⟨fun n => (arrEst_congr hget n).trans (showEst_arrEst n), (hget _ (by decide)).trans showEst_platform, ?_, ?_, ?_, ?_⟩
  · rw [moduleEst_congr hget, he, get_modPm, get_set_self rfl]
    exact Nat.mod_eq_of_lt (Nat.lt_succ_of_le (Nat.min_le_left ..))
  · rw [he, State.flag, get_modPm, get_set_apart rfl rfl]
    exact showEst_settling
  · rw [he]
    refine (hf _).trans ?_
    rw [set_regsOver, showEst_regsOver]
  · rw [he]
    exact modPm_power.trans (set_regsOver.power.trans showEst_regsOver.power)

end

/-! ### The obligation -/

/-- Settles O52, operation by operation. -/
theorem estimatesPacingAndRelease : Obligations.EstimatesPacingAndRelease := by
  intro s _ hstage
  refine ⟨fun acts plat => ?_, fun measured trimmed => ⟨fun hok => ?_, fun hok => exec_estimateTrim_not hok⟩, ?_, fun n => ?_,
    exec_rotation_due⟩
  · obtain ⟨hest, hplat, hmodule, hsettling, hnext, hover⟩ := estimate_spec (s := s) (acts := acts) (plat := plat)
    have hget : ∀ g ∈ estimateFields, (s.estimate acts plat).afterEstimate.get g = (s.estimate acts plat).get g :=
      fun g hg => get_afterEstimate (List.mem_cons_of_mem _ hg)
    have hframe : (s.estimate acts plat).afterEstimate.powerOver s := afterEstimate_power.trans hover
    refine ⟨_, exec_powerEstimate hstage acts plat, fun n => (arrEst_congr hget n).trans (hest n),
      (hget _ (by decide)).trans hplat, ?_, fun b hb => ⟨afterEstimate_isolated (hnext.trans hb), ?_⟩,
      fun hs => afterEstimate_settling (hsettling.trans hs), ?_, ?_⟩
    · exact (get_afterEstimate (List.mem_cons_self ..)).trans (hmodule.trans (by rw [← moduleEst_congr hget]))
    · rw [afterEstimate_pm]
    · rw [hframe]
    · rw [hframe]
  · exact ⟨_, exec_estimateTrim_ok hok, modPm_trims _, fun n => by
      rw [trims_modPm]
      exact look_newTrims _ _ _ n⟩
  · intro ready one
    have hready : ready ↔ s.slotOpen = true := slotOpen_iff.symm
    refine ⟨fun hr => exec_pacingSlot_closed (by simpa using hready.not.mp hr), fun hr => ?_⟩
    rw [exec_pacingSlot_open hstage (hready.mp hr)]
    refine ⟨fun n hheat => ?_, fun n hheat hcap => ?_, fun n hheat hcap hrel => ?_, fun hheat hcap hrel => ?_⟩
    · rw [hheat]
      exact ⟨(s.heatStop n).tookSlot, rfl, ⟨fun k hk => arr_modArr_ne _ hk, rfl, rfl⟩, clockStop_power (heatPick_running hheat), rfl⟩
    · rw [hheat, hcap]
      exact ⟨(s.capStop n).tookSlot, rfl, ⟨fun k hk => arr_modArr_ne _ hk, rfl, rfl⟩, clockStop_power (capPick_running hcap),
        getLsbD_withArr ..⟩
    · rw [hheat, hcap, hrel]
      exact ⟨_, rfl, releaseSlot_afterSwap⟩
    · rw [hheat, hcap, hrel]
      rfl
  · intro held
    have hheld : s.gateHeld n = true ↔ s.pmReady = true ∧ (s.arr n).power = .clockStopped ∧ held := gateHeld_iff
    refine ⟨fun hr hp hh => exec_gateHoldExpiry_held (hheld.mpr ⟨hr, hp, hh⟩), fun hno => exec_gateHoldExpiry_free ?_,
      exec_powerGateDrainDone_quiet, ⟨fun hmay => exec_releaseFromPowerGate_may (mayPowerUp_iff.mpr hmay),
        fun hno => exec_releaseFromPowerGate_not ?_⟩, ?_, ?_, ?_, exec_frequencyRelock_idle, exec_frequencyRelock_busy⟩
    · exact Bool.eq_false_iff.mpr fun hg => by
        obtain ⟨h1, h2, h3⟩ := hheld.mp hg
        rcases hno with h | h | h
        · rw [h1] at h; cases h
        · exact h h2
        · exact h h3
    · exact Bool.eq_false_iff.mpr fun hm => hno (mayPowerUp_iff.mp hm)
    · rintro ⟨t0, ht0, hlt⟩
      have hclosed : s.slotOpen = false := Bool.eq_false_iff.mpr fun h => absurd (slotOpen_iff.mp h t0 ht0) (by omega)
      exact ⟨seqStop_closed hclosed, seqRelease_barred (.inl hclosed)⟩
    · exact fun hno htrip => seqGate_barred (Bool.eq_false_iff.mpr fun hg => hno (hheld.mp hg)) htrip
    · exact fun h => seqRelease_barred (.inr h)

end Sys2Proof.Machine
end

section
/-!
PROOFS. Registers that counting and reporting keep (R92, R144, R151, R163, R490, R496): which windows' words may change when an
error word is counted, a record is raised or a plane is read.
-/

namespace Sys2Proof.Machine

/-- Every register word outside the windows W reads in t as it does in s. -/
def State.sameRegs (W : Nat → Prop) (t s : State) : Prop := ∀ x, ¬ W (x / 0x100000) → t.reg x = s.reg x

/-- The windows in which reads of memory are counted and reported: the arrays', the tier's and the error collector's. -/
def countedWindow (w : Nat) : Prop := w < 64 ∨ w = 0x44 ∨ w = 0x4C

section
variable {r s t : State} {W : Nat → Prop}

theorem State.sameRegs_refl : s.sameRegs W s := fun _ _ => rfl

theorem State.sameRegs.trans (h : t.sameRegs W s) (g : s.sameRegs W r) : t.sameRegs W r :=
  fun x hx => (h x hx).trans (g x hx)

/-- Only the register file decides. -/
theorem State.sameRegs.of_regs (h : t.sameRegs W s) (hr : r.regs = t.regs) : r.sameRegs W s :=
  fun x hx => (reg_congr hr x).trans (h x hx)

theorem sameRegs_choice {c : Prop} [Decidable c] (ht : t.sameRegs W r) (hs : s.sameRegs W r) :
    State.sameRegs W (if c then t else s) r := by
  split
  · exact ht
  · exact hs

/-- The words of a field's register lie in the windows W. -/
def Fld.within (W : Nat → Prop) (f : Fld) : Prop := W (f.key / 0x100000) ∧ W ((f.key + 4) / 0x100000)

/-- The words of a field's register lie outside the windows W. -/
def Fld.outside (W : Nat → Prop) (f : Fld) : Prop := ¬ W (f.key / 0x100000) ∧ ¬ W ((f.key + 4) / 0x100000)

theorem regKey_window {w off : Nat} (hoff : off < 0x100000) : (w * 0x100000 + off) / 0x100000 = w := by omega

theorem within_regKey {w off lo k : Nat} {wide : Bool} (hw : W w) (hoff : off + 4 < 0x100000) :
    Fld.within W ⟨regKey w off, lo, k, wide⟩ := by
  unfold Fld.within regKey
  dsimp only
  rw [regKey_window (by omega), Nat.add_assoc, regKey_window hoff]
  exact ⟨hw, hw⟩

theorem outside_regKey {w off lo k : Nat} {wide : Bool} (hw : ¬ W w) (hoff : off + 4 < 0x100000) :
    Fld.outside W ⟨regKey w off, lo, k, wide⟩ := within_regKey (W := fun w => ¬ W w) hw hoff

/-- Setting a field of one of the windows. -/
theorem set_sameRegs {f : Fld} {v : Nat} (hf : f.within W) : (s.set f v).sameRegs W s := by
  intro x hx
  have h0 : x ≠ f.key := fun e => hx (e ▸ hf.1)
  have h4 : x ≠ f.key + 4 := fun e => hx (e ▸ hf.2)
  unfold State.set State.setReg64
  split
  · rw [reg_setReg_ne _ h4, reg_setReg_ne _ h0]
  · rw [reg_setReg_ne _ h0]

theorem addTo_sameRegs {f : Fld} {v : Nat} (hf : f.within W) : (s.addTo f v).sameRegs W s := set_sameRegs hf

/-- A field of another window reads as before. -/
theorem State.sameRegs.get {f : Fld} (h : t.sameRegs W s) (hf : f.outside W) : t.get f = s.get f := by
  unfold State.get State.reg64
  rw [h _ hf.1, h _ hf.2]

theorem foldl_sameRegs {β : Type} {f : State → β → State} (hf : ∀ s x, (f s x).sameRegs W s) (l : List β) :
    (l.foldl f s).sameRegs W s :=
  foldl_over (R := State.sameRegs W) (fun _ => State.sameRegs_refl) State.sameRegs.trans hf

/-! ### Event records -/

theorem loseFor_sameRegs (he : W 0x4C) (rs : List (Fin 17)) : (s.loseFor rs).sameRegs W s := by
  unfold State.loseFor
  refine foldl_sameRegs (fun s x => ?_) rs
  have hlost : (s.bump (F.errLostRecords x.val)).sameRegs W s := addTo_sameRegs (within_regKey he (by omega))
  exact hlost.of_regs rfl

theorem enqueue_sameRegs (he : W 0x4C) (rec : EventRec) : (s.enqueue rec).sameRegs W s := by
  unfold State.enqueue
  extract_lets seq r s1 board update s2 rs held
  have hs1 : s1.sameRegs W s := (addTo_sameRegs (within_regKey he (by decide))).trans (set_sameRegs (within_regKey he (by decide)))
  have hs2 : s2.sameRegs W s := hs1.of_regs rfl
  refine sameRegs_choice (hs2.of_regs rfl) ((loseFor_sameRegs he rs).trans (.trans ?_ hs2))
  exact (set_sameRegs (within_regKey he (by decide))).trans (addTo_sameRegs (within_regKey he (by decide)))

/-- Raising a record changes registers of the error collector only. -/
theorem reportAt_sameRegs (he : W 0x4C) (now : DWord) (ev : Ev) : (s.reportAt now ev).sameRegs W s := by
  unfold State.reportAt
  extract_lets fresh entries
  exact sameRegs_choice ((addTo_sameRegs (within_regKey he (by decide))).trans (State.sameRegs_refl.of_regs rfl))
    (enqueue_sameRegs he fresh)

/-! ### Error words and counted reads -/

theorem countEcc_sameRegs (w : Nat) (bad : Bool) : (s.countEcc w bad).sameRegs countedWindow s := by
  have he : countedWindow 0x4C := .inr (.inr rfl)
  have ht : countedWindow 0x44 := .inr (.inl rfl)
  have ha : ∀ n : ArrayNum, countedWindow n := fun n => .inl n.isLt
  unfold State.countEcc
  extract_lets u
  have hu : u.sameRegs countedWindow s := by
    unfold u
    split
    · refine addTo_sameRegs ?_
      cases bad
      · exact within_regKey he (by omega)
      · exact within_regKey he (by omega)
    · exact State.sameRegs_refl
  refine State.sameRegs.trans ?_ hu
  split
  · next n _ _ =>
    exact sameRegs_choice ((set_sameRegs (within_regKey (ha n) (by decide))).trans
      (addTo_sameRegs (within_regKey (ha n) (by decide)))) (addTo_sameRegs (within_regKey (ha n) (by decide)))
  · next n _ _ =>
    exact sameRegs_choice ((set_sameRegs (within_regKey (ha n) (by decide))).trans
      ((set_sameRegs (within_regKey (ha n) (by decide))).trans (addTo_sameRegs (within_regKey (ha n) (by decide)))))
      (addTo_sameRegs (within_regKey (ha n) (by decide)))
  · exact sameRegs_choice ((set_sameRegs (within_regKey ht (by decide))).trans
      ((set_sameRegs (within_regKey ht (by decide))).trans (addTo_sameRegs (within_regKey ht (by decide)))))
      (addTo_sameRegs (within_regKey ht (by decide)))
  · exact State.sameRegs_refl

theorem eccReport_sameRegs (w reader : Nat) (bad : Bool) : (s.eccReport w reader bad).sameRegs countedWindow s :=
  (reportAt_sameRegs (.inr (.inr rfl)) _ _).trans (countEcc_sameRegs w bad)

theorem correct_sameRegs (a k reader : Nat) : (s.correct a k reader).sameRegs countedWindow s :=
  foldl_sameRegs (fun _ w => eccReport_sameRegs w reader false) _

theorem channel_lt (t : Nat) : (tierPlace t).channel < 16 := Nat.xor_lt_two_pow (bitsAt_lt _ _ 4) (bitsAt_lt _ _ 4)

theorem linkCheck_sameRegs (a k : Nat) : (s.linkCheck a k).sameRegs countedWindow s :=
  (foldl_sameRegs (fun _ l => addTo_sameRegs (within_regKey (.inr (.inl rfl)) (by have := channel_lt (64 * l); omega))) _).of_regs rfl

/-- Counting the bytes of a read changes counters of arrays and the tier only. -/
theorem countRead_sameRegs (a k : Nat) : (s.countRead a k).sameRegs countedWindow s := by
  unfold State.countRead
  split
  · next n _ _ => exact addTo_sameRegs (within_regKey (.inl n.isLt) (by decide))
  · exact (addTo_sameRegs (within_regKey (.inr (.inl rfl)) (by decide))).trans (linkCheck_sameRegs a k)
  · exact State.sameRegs_refl

/-- What is counted on a read leaves the map of unusable arrays and the partitions' seals. -/
theorem unusable_outside : F.mltUnusableUnusable.outside countedWindow :=
  outside_regKey (by unfold countedWindow; omega) (by decide)

theorem sealed_outside : F.cocSealSealed.outside countedWindow :=
  outside_regKey (by unfold countedWindow; omega) (by decide)

end

end Sys2Proof.Machine
end

section
/-!
PROOFS. Weight staging (R85, R87, R89, R145): what reading a range in an array's behalf leaves alone, one plane's copy into a
bank, and from these the obligation on a completed staging.
-/

namespace Sys2Proof.Machine

section
variable {r s t : State} {n : ArrayNum} {pair : Fin 11} {bank : Fin 2}

/-! ### What reading and counting leave alone -/

/-- t is s but for its arrays, registers, event records, board and link errors: what the stager changes. -/
def State.stagerOver (t s : State) : Prop :=
  t = { s with arrays := t.arrays, regs := t.regs, events := t.events, board := t.board, linkErr := t.linkErr }

/-- t is s but for its registers, event records, board and link errors: what a counted read changes. -/
def State.readOver (t s : State) : Prop := t.stagerOver s ∧ t.arrays = s.arrays

theorem State.stagerOver.trans (h : t.stagerOver s) (g : s.stagerOver r) : t.stagerOver r :=
  Eq.trans h (congrArg (fun x : State =>
    { x with arrays := t.arrays, regs := t.regs, events := t.events, board := t.board, linkErr := t.linkErr }) g)

theorem State.readOver.trans (h : t.readOver s) (g : s.readOver r) : t.readOver r := ⟨h.1.trans g.1, h.2.trans g.2⟩

theorem State.based.readOver (h : t.based s) : t.readOver s := by
  refine ⟨?_, h.arrays⟩
  unfold State.based at h
  cases s; cases t
  simp_all [State.stagerOver]

theorem State.countedOver.readOver (h : t.countedOver s) : t.readOver s := by
  unfold State.countedOver at h
  rw [h]
  exact ⟨rfl, rfl⟩

theorem State.stagerOver.byte (h : t.stagerOver s) (x : Nat) : t.byte x = s.byte x := by rw [h]; rfl

theorem State.stagerOver.load (h : t.stagerOver s) (a k : Nat) : t.load a k = s.load a k :=
  List.map_congr_left fun _ _ => h.byte _

theorem State.stagerOver.badIn (h : t.stagerOver s) (a k : Nat) : t.badIn a k = s.badIn a k := by rw [h]; rfl

theorem State.stagerOver.planeImage (h : t.stagerOver s) (src : PlaneSrc) :
    t.planeImage n pair src = s.planeImage n pair src := by
  cases src with
  | vault o => exact h.load _ _
  | spool o => exact h.load _ _
  | pages b => exact congrArg (pagePlane b) (List.map_congr_left fun _ _ => h.load _ _)

/-! ### One plane -/

/-- An array whose bank holds a plane's image in its cell buffer and shows the plane valid with its source (R85, R89). -/
def ArrayState.withPlane (a : ArrayState) (pair : Fin 11) (bank : Fin 2) (plane : Nat) (src : PlaneSrc) (img : List Byte) :
    ArrayState :=
  { a with
    wbuf := SMap.putAll 0 a.wbuf (bank.val * 0x180000 + plane * (pairInfo pair).planeBytes) img
    planes := SMap.put none a.planes (bank.val * 64 + plane) (some src) }

/-- Copying a plane of which no word is uncorrectable puts its image into the bank and makes it valid. -/
theorem stagePlane_good {plane : Nat} {src : PlaneSrc} (hgood : ∀ p ∈ src.pieces n pair, s.badIn p.1 p.2 = none) :
    ∃ u : State, u.readOver s ∧ u.sameRegs countedWindow s ∧ s.stagePlane n pair bank plane src
      = (u.modArr n fun a => a.withPlane pair bank plane src (s.planeImage n pair src), none) := by
  have hfind : ((src.pieces n pair).findSome? fun p => s.badIn p.1 p.2) = none := List.findSome?_eq_none_iff.mpr hgood
  have hregs : ((src.pieces n pair).foldl (fun s p =>
      (s.correct p.1 p.2 0).countRead p.1 (src.counted pair / (src.pieces n pair).length)) s).sameRegs countedWindow s :=
    foldl_sameRegs (fun _ _ => (countRead_sameRegs _ _).trans (correct_sameRegs _ _ _)) _
  have hread : ((src.pieces n pair).foldl (fun s p =>
      (s.correct p.1 p.2 0).countRead p.1 (src.counted pair / (src.pieces n pair).length)) s).readOver s :=
    foldl_over (R := State.readOver) (fun _ => ⟨rfl, rfl⟩) State.readOver.trans fun s p =>
      countRead_counted.readOver.trans (State.correct_based State.based_refl).readOver
  unfold State.stagePlane
  dsimp only
  rw [hfind]
  dsimp only
  generalize (src.pieces n pair).foldl _ s = v at hread hregs
  exact ⟨v.addTo (F.arrStageBytesStageBytes n) (src.counted pair), addTo_regsOver.counted.readOver.trans hread,
    (addTo_sameRegs (within_regKey (.inl n.isLt) (by decide))).trans hregs, by rw [hread.1.planeImage]; rfl⟩

/-! ### The planes of an instruction -/

/-- An array after the planes of a staging, numbered, have been copied into a bank in turn. -/
def ArrayState.withPlanes (a : ArrayState) (pair : Fin 11) (bank : Fin 2) (img : PlaneSrc → List Byte)
    (srcs : List (PlaneSrc × Nat)) : ArrayState :=
  srcs.foldl (fun a c => a.withPlane pair bank c.2 c.1 (img c.1)) a

/-- The planes and the cell buffer of a bank take the planes of a staging side by side; nothing else of the array changes. -/
theorem withPlanes_eq (a : ArrayState) (img : PlaneSrc → List Byte) (srcs : List (PlaneSrc × Nat)) :
    a.withPlanes pair bank img srcs = { a with
      planes := srcs.foldl (fun m c => SMap.put none m (bank.val * 64 + c.2) (some c.1)) a.planes
      wbuf := srcs.foldl (fun m c =>
        SMap.putAll 0 m (bank.val * 0x180000 + c.2 * (pairInfo pair).planeBytes) (img c.1)) a.wbuf } := by
  induction srcs generalizing a with
  | nil => rfl
  | cons c l ih => exact ih (a.withPlane pair bank c.2 c.1 (img c.1))

/-- A staging none of whose words is uncorrectable copies all its planes. -/
theorem stagePlanes_good {srcs : List PlaneSrc} : ∀ {s : State} {plane : Nat},
    (∀ src ∈ srcs, ∀ p ∈ src.pieces n pair, s.badIn p.1 p.2 = none) →
      ∃ t, s.stagePlanes n pair bank plane srcs = (t, none) ∧ t.stagerOver s
        ∧ t.arr n = (s.arr n).withPlanes pair bank (s.planeImage n pair) (srcs.zipIdx plane)
        ∧ ∀ m, m ≠ n → t.arr m = s.arr m := by
  induction srcs with
  | nil => exact fun _ => ⟨_, rfl, rfl, rfl, fun _ _ => rfl⟩
  | cons src l ih =>
    intro s plane hgood
    obtain ⟨hsrc, hl⟩ := List.forall_mem_cons.mp hgood
    obtain ⟨u, hu, -, hstage⟩ := stagePlane_good (bank := bank) (plane := plane) hsrc
    have hv : (u.modArr n fun a => a.withPlane pair bank plane src (s.planeImage n pair src)).stagerOver s :=
      State.stagerOver.trans (s := u) rfl hu.1
    have harr : ∀ m, u.arr m = s.arr m := fun m => by unfold State.arr; rw [hu.2]
    obtain ⟨t, hrest, ht, hself, hother⟩ :=
      ih (s := u.modArr n fun a => a.withPlane pair bank plane src (s.planeImage n pair src)) (plane := plane + 1)
        fun x hx p hp => (hv.badIn _ _).trans (hl x hx p hp)
    refine ⟨t, ?_, ht.trans hv, ?_, fun m hm => ?_⟩
    · rw [State.stagePlanes, hstage]
      exact hrest
    · rw [hself, funext hv.planeImage, arr_modArr_self, harr, List.zipIdx_cons]
      rfl
    · rw [hother m hm, arr_modArr_ne _ hm, harr]

end

/-! ### The obligation -/

/-- Settles O14: the instruction leaves the queue, and its planes are copied one after another. -/
theorem stagingDone : Obligations.StagingDone := by
  intro n s op rest hq hrun hrestage hgood a size
  obtain ⟨t, hstage, hover, hself, hother⟩ :=
    stagePlanes_good (s := s.modArr n fun a => { a with stgQ := rest }) (bank := op.bank) (plane := op.first) hgood
  have hexec : exec (.stagingDone n) s = .next t := by
    refine congrArg Host.Outcome.next ?_
    rw [hq]
    dsimp only
    rw [hrun, hrestage, hstage]
    rfl
  refine ⟨t, hexec, ?_, fun m hm => ?_, ?_⟩
  · rw [hself, withPlanes_eq, arr_modArr_self]
    rfl
  · rw [hother m hm, arr_modArr_ne _ hm]
  · exact hover.trans (s := s.modArr n fun a => { a with stgQ := rest }) rfl

end Sys2Proof.Machine
end

section
/-!
PROOFS. Issue of an array's instructions (R94, R104, R109): what an issue row comes to when its instruction goes on, goes
elsewhere or faults, and from these the obligation on the CTL instructions (R95, R131, R547).
-/

namespace Sys2Proof.Machine

section
variable {s t v : State} {n : ArrayNum} {i : Insn} {row : Insn → Option (State → IssueOut)} {run : State → IssueOut}

/-! ### What a row's outcome changes -/

theorem near_refl : s.near s n := ⟨fun _ _ => rfl, rfl⟩

theorem State.near.time (h : t.near s n) : t.time = s.time := by rw [h.2]

/-- A change of the array on top of a state that shows v's registers, event records and board. -/
theorem changes_modArr (ht : t.near s n) (f : ArrayState → ArrayState) (hr : t.regs = v.regs) (he : t.events = v.events)
    (hb : t.board = v.board) : Changes (.next (t.modArr n f)) s n (f (t.arr n)) v := by
  have h := changes_near (near_modArr ht f) (v := v) hr he hb
  rwa [arr_modArr_self] at h

/-- An instruction that goes on to the next one. -/
theorem changes_done (h : s.Issues n i) (hi : ∀ c, i ≠ .illegal c) (hr : row i = some run)
    (hd : run (s.atIssue n) = .done t) (ht : t.near s n) :
    Changes (.next (s.issue n row)) s n ((t.arr n).issued i s.time) t := by
  rw [issue_done h hi hr hd, ← ht.time]
  exact changes_modArr ht _ rfl rfl rfl

/-- An instruction that goes on at an offset of its own. -/
theorem changes_goto {pc : Nat} (h : s.Issues n i) (hi : ∀ c, i ≠ .illegal c) (hr : row i = some run)
    (hd : run (s.atIssue n) = .goto t pc) (ht : t.near s n) :
    Changes (.next (s.issue n row)) s n { t.arr n with pc := pc } t := by
  rw [issue_goto h hi hr hd]
  exact changes_modArr ht _ rfl rfl rfl

theorem detect_faulted {c cls k addr : Nat} (hp : k = (s.arr n).pc) :
    s.detect n ⟨c, cls, k, addr⟩ = s.modArr n (ArrayState.faulted s.time c cls addr) := by
  subst hp
  rfl

/-- An instruction that faults, with nothing but registers, event records and board changed before. -/
theorem changes_fault {code addr : Nat} (h : s.Issues n i) (hi : ∀ c, i ≠ .illegal c) (hr : row i = some run)
    (hd : run (s.atIssue n) = .fault t code addr) (ht : t.near s n)
    (ha : t.arr n = { s.arr n with committed := true }) :
    Changes (.next (s.issue n row)) s n
      (({ s.arr n with committed := true } : ArrayState).faulted s.time code (s.fetch n (s.arr n).pc % 16) addr) t := by
  rw [issue_fault h hi hr hd, detect_faulted (by rw [ha]), ht.time, ← ha]
  exact changes_modArr ht _ rfl rfl rfl

/-- An instruction that faults at once. -/
theorem changes_fault_atIssue {code addr : Nat} (h : s.Issues n i) (hi : ∀ c, i ≠ .illegal c) (hr : row i = some run)
    (hd : run (s.atIssue n) = .fault (s.atIssue n) code addr) :
    Changes (.next (s.issue n row)) s n
      (({ s.arr n with committed := true } : ArrayState).faulted s.time code (s.fetch n (s.arr n).pc % 16) addr)
      (s.atIssue n) :=
  changes_fault h hi hr hd atIssue_near arr_atIssue

/-- `Changes` reads registers, event records and board of its last state only. -/
theorem Changes.congr {o : Host.Outcome State Fault Refusal} {a : ArrayState} {u : State} (h : Changes o s n a u)
    (hr : u.regs = v.regs) (he : u.events = v.events) (hb : u.board = v.board) : Changes o s n a v := by
  obtain ⟨t, ho, ha, hm, ht⟩ := h
  exact ⟨t, ho, ha, hm, by rw [← hr, ← he, ← hb]; exact ht⟩

/-- An instruction that changes registers, event records and board and then its array, and goes on to the next one. -/
theorem changes_done_near {f : ArrayState → ArrayState} (h : s.Issues n i) (hi : ∀ c, i ≠ .illegal c)
    (hr : row i = some run) (hd : run (s.atIssue n) = .done (v.modArr n f)) (hv : v.near s n)
    (ha : v.arr n = { s.arr n with committed := true }) :
    Changes (.next (s.issue n row)) s n ((f { s.arr n with committed := true }).issued i s.time) v := by
  have h := (changes_done h hi hr hd (near_modArr hv f)).congr (v := v) rfl rfl rfl
  rwa [arr_modArr_self, ha] at h

/-- An instruction that changes its array and goes on to the next one. -/
theorem changes_done_modArr {f : ArrayState → ArrayState} (h : s.Issues n i) (hi : ∀ c, i ≠ .illegal c)
    (hr : row i = some run) (hd : run (s.atIssue n) = .done ((s.atIssue n).modArr n f)) :
    Changes (.next (s.issue n row)) s n ((f { s.arr n with committed := true }).issued i s.time) (s.atIssue n) :=
  changes_done_near h hi hr hd atIssue_near arr_atIssue

/-- An instruction that changes its array and goes on at an offset of its own. -/
theorem changes_goto_modArr {pc : Nat} {f : ArrayState → ArrayState} (h : s.Issues n i) (hi : ∀ c, i ≠ .illegal c)
    (hr : row i = some run) (hd : run (s.atIssue n) = .goto ((s.atIssue n).modArr n f) pc) :
    Changes (.next (s.issue n row)) s n { f { s.arr n with committed := true } with pc := pc } (s.atIssue n) := by
  have h := (changes_goto h hi hr hd (near_modArr atIssue_near f)).congr (v := s.atIssue n) rfl rfl rfl
  rwa [arr_modArr_self, arr_atIssue] at h

/-- An instruction that only moves on. -/
theorem changes_done_atIssue (h : s.Issues n i) (hi : ∀ c, i ≠ .illegal c) (hr : row i = some run)
    (hd : run (s.atIssue n) = .done (s.atIssue n)) :
    Changes (.next (s.issue n row)) s n (({ s.arr n with committed := true } : ArrayState).issued i s.time) (s.atIssue n) := by
  have h := changes_done h hi hr hd atIssue_near
  rwa [arr_atIssue] at h

/-- An instruction that only goes on at an offset of its own. -/
theorem changes_goto_atIssue {pc : Nat} (h : s.Issues n i) (hi : ∀ c, i ≠ .illegal c) (hr : row i = some run)
    (hd : run (s.atIssue n) = .goto (s.atIssue n) pc) :
    Changes (.next (s.issue n row)) s n { s.arr n with committed := true, pc := pc } (s.atIssue n) := by
  have h := changes_goto h hi hr hd atIssue_near
  rwa [arr_atIssue] at h

/-! ### Targets and knots -/

theorem jumpTo_good {imm : Nat} (h : imm % 16 = 0 ∧ imm ≤ lastFetch) : s.jumpTo imm = .goto s imm := if_pos h

theorem jumpTo_bad {imm : Nat} (h : ¬ (imm % 16 = 0 ∧ imm ≤ lastFetch)) : s.jumpTo imm = .fault s faultSpoolRange imm := if_neg h

@[simp] theorem knot_atIssue (k : Nat) : (s.atIssue n).knot n k = s.knot n k := by
  unfold State.knot
  rw [arr_atIssue]

end

/-! ### The obligation -/

/-- Settles O8, instruction by instruction. -/
theorem controlInstructions : Obligations.ControlInstructions := by
  intro n s a u cls
  refine ⟨fun h => ?_, fun mask h => ?_, fun h => ?_, fun imm h => ?_, fun d imm h => ?_, fun d imm h => ?_,
    fun d imm h => ?_, fun d imm h => ?_, fun k v t h => ?_⟩
  · exact changes_done_atIssue h nofun rfl rfl
  · exact changes_done_atIssue h nofun rfl rfl
  · refine changes_goto_modArr (f := fun a => { a with ending := true }) h nofun rfl ?_
    rw [arr_atIssue]
  · by_cases ht : imm % 16 = 0 ∧ imm ≤ 0x7FFFF0
    · rw [if_pos ht]
      exact changes_goto_atIssue h nofun rfl (jumpTo_good ht)
    · rw [if_neg ht]
      exact changes_fault_atIssue h nofun rfl (jumpTo_bad ht)
  · have hc : ((s.atIssue n).arr n).c d = a.c d := by rw [arr_atIssue]
    by_cases h0 : a.c d = 0
    · rw [if_pos h0]
      exact changes_done_atIssue h nofun rfl (by dsimp only; rw [hc, if_pos h0])
    by_cases ht : imm % 16 = 0 ∧ imm ≤ 0x7FFFF0
    · rw [if_neg h0, if_pos ht]
      exact changes_goto_modArr (f := fun b => b.setC d (a.c d - 1)) h nofun rfl
        (by dsimp only; rw [hc, if_neg h0, jumpTo_good ht])
    · rw [if_neg h0, if_neg ht]
      exact changes_fault_atIssue h nofun rfl (by dsimp only; rw [hc, if_neg h0, jumpTo_bad ht]; rfl)
  · exact changes_done_modArr (f := fun a => a.setC d imm) h nofun rfl rfl
  · exact changes_done_modArr (f := fun a => a.setA d imm) h nofun rfl rfl
  · exact changes_done_modArr (f := fun a => a.setA d (a.a d + imm)) h nofun rfl rfl
  · have hreached : reached ((s.atIssue n).knot n k) v = decide ((s.knot n k - v).toNat < 2 ^ 31) := by rw [knot_atIssue]; rfl
    by_cases hk : (s.knot n k - v).toNat < 2 ^ 31
    · rw [if_pos hk]
      exact changes_done_atIssue h nofun rfl (by rw [hreached, decide_eq_true hk]; rfl)
    · rw [if_neg hk]
      refine changes_goto_modArr (f := fun a => { a with kwait := some ⟨k, v, t, 0, false⟩ }) (pc := (s.arr n).pc) h nofun rfl ?_
      rw [hreached, decide_eq_false hk, arr_atIssue]
      rfl

end Sys2Proof.Machine
end

section
/-!
PROOFS. ROW instructions (R71, R72, R74, R98): what the row unit's writes, compares and reductions are lane by lane, and from
these the obligation on them.
-/

namespace Sys2Proof.Machine

section
variable {s : State} {n : ArrayNum} {o : RowOps} {row : Insn → Option (State → IssueOut)} {run : State → IssueOut}

/-! ### Lanes -/

theorem zipIdx_map_range {α : Type} (f : Nat → α) (k : Nat) :
    ((List.range k).map f).zipIdx = (List.range k).map fun l => (f l, l) :=
  List.ext_getElem (by simp) (by simp)

/-- Operand b in every lane (R98). -/
def ArrayState.laneB (a : ArrayState) (o : RowOps) (l : Nat) : Word := if o.bImm then o.imm else a.lane o.vb l

theorem operandB_eq (a : ArrayState) : a.operandB o = (List.range 64).map (a.laneB o) := by
  unfold ArrayState.operandB ArrayState.laneB ArrayState.v
  cases o.bImm
  · rfl
  · simp only [if_true, List.map_const', List.length_range]

/-- The lanes that a ROW result leaves in vd: the result's where the masked bit chooses the lane, the old ones elsewhere. -/
def ArrayState.rowLanes (a : ArrayState) (o : RowOps) (f : Nat → FRes) : List Word :=
  (List.range 64).map fun l => if a.writesLane o l then (f l).bits else a.lane o.vd l

/-- Whether a lane that is written overflowed. -/
def ArrayState.rowOverflow (a : ArrayState) (o : RowOps) (f : Nat → FRes) : Bool :=
  (List.range 64).any fun l => a.writesLane o l && (f l).overflow

theorem set_modArr (f : ArrayState → ArrayState) (g : Fld) (v : Nat) : (s.modArr n f).set g v = (s.set g v).modArr n f := by
  unfold State.set
  split <;> rfl

theorem noteOverflow_modArr (f : ArrayState → ArrayState) (b : Bool) :
    (s.modArr n f).noteOverflow n b = (s.noteOverflow n b).modArr n f := by
  unfold State.noteOverflow State.raiseBit
  split
  · exact set_modArr f _ _
  · rfl

/-- A write of 64 lanes given by number. -/
theorem writeRow_range (f : Nat → FRes) : s.writeRow n o ((List.range 64).map f)
    = (s.noteOverflow n ((s.arr n).rowOverflow o f)).modArr n fun a => a.setV o.vd ((s.arr n).rowLanes o f) := by
  unfold State.writeRow
  dsimp only
  rw [noteOverflow_modArr, zipIdx_map_range, List.map_map, List.any_map]
  rfl

theorem row1_eq (f : Word → FRes) :
    s.row1 n o f = s.writeRow n o ((List.range 64).map fun l => f ((s.arr n).lane o.va l)) := by
  rw [State.row1, ArrayState.v, List.map_map]
  rfl

theorem row2_eq (f : Word → Word → FRes) :
    s.row2 n o f = s.writeRow n o ((List.range 64).map fun l => f ((s.arr n).lane o.va l) ((s.arr n).laneB o l)) := by
  rw [State.row2, operandB_eq, ArrayState.v, List.zipWith_map, List.zipWith_self]

theorem row3_eq (f : Word → Word → Word → FRes) : s.row3 n o f = s.writeRow n o
    ((List.range 64).map fun l => f ((s.arr n).lane o.va l) ((s.arr n).laneB o l) ((s.arr n).lane o.vc l)) := by
  unfold State.row3
  dsimp only
  rw [operandB_eq, ArrayState.v, ArrayState.v, List.zip_map', List.zipWith_map, List.zipWith_self]

theorem rowReduce_eq (f : Word → Word → FRes) :
    s.rowReduce n o f = s.writeRow n o ((List.range 64).map fun _ => reduceTree f ((s.arr n).v o.va)) := by
  rw [State.rowReduce, List.map_const']
  simp

/-! ### Compares -/

/-- The mask a compare writes: bit l where the masked bit chooses the lane and the compare holds there. -/
theorem getLsbD_foldl_bits {c : Nat → Bool} {l : Nat} (hl : l < 64) (k : Nat) :
    ((List.range k).foldl (fun (m : DWord) i => if c i = true then m ||| (1#64 <<< i) else m) 0#64).getLsbD l
      = (decide (l < k) && c l) := by
  induction k with
  | zero => simp
  | succ k ih =>
    rw [List.range_succ, List.foldl_append, List.foldl_cons, List.foldl_nil]
    have hbit : (1#64 <<< k).getLsbD l = decide (l = k) := by
      rw [BitVec.getLsbD_shiftLeft, BitVec.getLsbD_one]
      grind
    by_cases hc : c k = true
    · rw [if_pos hc, BitVec.getLsbD_or, ih, hbit]
      grind
    · rw [if_neg hc, ih]
      grind

theorem rowCompare_eq (f : FVal → FVal → Bool) : ∃ m : DWord,
    (∀ l, l < 64 → m.getLsbD l
      = ((s.arr n).writesLane o l && f (f32 ((s.arr n).lane o.va l)) (f32 ((s.arr n).laneB o l)))) ∧
    s.rowCompare n o f = s.modArr n fun a => a.setM o.mask m := by
  refine ⟨_, fun l hl => ?_, rfl⟩
  rw [operandB_eq, ArrayState.v, List.zipWith_map, List.zipWith_self, zipIdx_map_range, List.foldl_map]
  simpa [hl] using getLsbD_foldl_bits (c := fun l =>
    (s.arr n).writesLane o l && f (f32 ((s.arr n).lane o.va l)) (f32 ((s.arr n).laneB o l))) hl 64

/-! ### Issue -/

theorem atIssue_noteOverflow_near {b : Bool} : ((s.atIssue n).noteOverflow n b).near s n :=
  near_of_based atIssue_near (State.noteOverflow_based State.based_refl)

/-- A ROW instruction that writes lanes. -/
theorem changes_writeRow {k : RowKind} {f : Nat → FRes} (h : s.Issues n (.row k o)) (hr : row (.row k o) = some run)
    (hd : run (s.atIssue n) = .done ((s.atIssue n).writeRow n o ((List.range 64).map f))) :
    let a : ArrayState := { s.arr n with committed := true }
    Changes (.next (s.issue n row)) s n ((a.setV o.vd (a.rowLanes o f)).issued (.row k o) s.time)
      ((s.atIssue n).noteOverflow n (a.rowOverflow o f)) := by
  intro a
  rw [writeRow_range, arr_atIssue] at hd
  exact changes_done_near h nofun hr hd atIssue_noteOverflow_near
    (((State.noteOverflow_based State.based_refl).arr n).trans arr_atIssue)

/-- A ROW instruction of one operand. -/
theorem changes_row1 {k : RowKind} {f : Word → FRes} (h : s.Issues n (.row k o)) (hr : row (.row k o) = some run)
    (hd : run (s.atIssue n) = .done ((s.atIssue n).row1 n o f)) :
    let a : ArrayState := { s.arr n with committed := true }
    Changes (.next (s.issue n row)) s n
      ((a.setV o.vd (a.rowLanes o fun l => f (a.lane o.va l))).issued (.row k o) s.time)
      ((s.atIssue n).noteOverflow n (a.rowOverflow o fun l => f (a.lane o.va l))) :=
  changes_writeRow h hr (by rw [hd, row1_eq, arr_atIssue])

/-- A ROW instruction of two operands. -/
theorem changes_row2 {k : RowKind} {f : Word → Word → FRes} (h : s.Issues n (.row k o)) (hr : row (.row k o) = some run)
    (hd : run (s.atIssue n) = .done ((s.atIssue n).row2 n o f)) :
    let a : ArrayState := { s.arr n with committed := true }
    Changes (.next (s.issue n row)) s n
      ((a.setV o.vd (a.rowLanes o fun l => f (a.lane o.va l) (a.laneB o l))).issued (.row k o) s.time)
      ((s.atIssue n).noteOverflow n (a.rowOverflow o fun l => f (a.lane o.va l) (a.laneB o l))) :=
  changes_writeRow h hr (by rw [hd, row2_eq, arr_atIssue])

/-- A reduction. -/
theorem changes_rowReduce {k : RowKind} {f : Word → Word → FRes} (h : s.Issues n (.row k o))
    (hr : row (.row k o) = some run) (hd : run (s.atIssue n) = .done ((s.atIssue n).rowReduce n o f)) :
    let a : ArrayState := { s.arr n with committed := true }
    Changes (.next (s.issue n row)) s n
      ((a.setV o.vd (a.rowLanes o fun _ => reduceTree f (a.v o.va))).issued (.row k o) s.time)
      ((s.atIssue n).noteOverflow n (a.rowOverflow o fun _ => reduceTree f (a.v o.va))) :=
  changes_writeRow h hr (by rw [hd, rowReduce_eq, arr_atIssue])

/-- A compare. -/
theorem changes_rowCompare {k : RowKind} {f : FVal → FVal → Bool} (h : s.Issues n (.row k o))
    (hr : row (.row k o) = some run) (hd : run (s.atIssue n) = .done ((s.atIssue n).rowCompare n o f)) :
    let a : ArrayState := { s.arr n with committed := true }
    ∃ m : DWord, (∀ l, l < 64 → m.getLsbD l = (a.writesLane o l && f (f32 (a.lane o.va l)) (f32 (a.laneB o l)))) ∧
      Changes (.next (s.issue n row)) s n ((a.setM o.mask m).issued (.row k o) s.time) (s.atIssue n) := by
  intro a
  obtain ⟨m, hm, hcmp⟩ := rowCompare_eq (s := s.atIssue n) (n := n) (o := o) f
  rw [arr_atIssue] at hm
  exact ⟨m, hm, changes_done_modArr (f := fun a => a.setM o.mask m) h nofun hr (by rw [hd, hcmp])⟩

end

/-! ### The obligation -/

/-- Settles O11, instruction by instruction. -/
theorem rowInstructions : Obligations.RowInstructions := by
  intro n s o a b on res cmp red
  refine ⟨fun h => ?_, fun h => ?_, fun h => ?_, fun h => ?_, fun h => ?_, fun h => ?_, fun h => ?_, fun h => ?_, fun h => ?_,
    fun h => ?_, fun h => ?_, fun h => ?_, fun h => ?_, fun h => ?_, fun h => ?_, fun h => ?_, fun h => ?_, fun h => ?_⟩
  · exact changes_row2 (f := f32Add) h rfl rfl
  · exact changes_row2 (f := f32Sub) h rfl rfl
  · exact changes_row2 (f := f32Mul) h rfl rfl
  · exact changes_writeRow h rfl (by rw [row3_eq, arr_atIssue]; rfl)
  · exact changes_row2 (f := f32Max) h rfl rfl
  · exact changes_row2 (f := f32Min) h rfl rfl
  · exact changes_row1 (f := f32Abs) h rfl rfl
  · exact changes_row1 (f := f32Neg) h rfl rfl
  · refine changes_writeRow h rfl ?_
    dsimp only
    rw [operandB_eq, ArrayState.v, List.zip_map', zipIdx_map_range, List.map_map, arr_atIssue]
    rfl
  · exact changes_row1 (f := f32Exp2) h rfl rfl
  · exact changes_row1 (f := f32Log2) h rfl rfl
  · exact changes_row1 (f := f32Recip) h rfl rfl
  · exact changes_row1 (f := f32Rsqrt) h rfl rfl
  · exact changes_rowCompare (f := FVal.lt) h rfl rfl
  · exact changes_rowCompare (f := fun x y => x.lt y || x.eqv y) h rfl rfl
  · exact changes_rowCompare (f := FVal.eqv) h rfl rfl
  · exact changes_rowReduce (f := f32Add) h rfl rfl
  · exact changes_rowReduce (f := f32Max) h rfl rfl

end Sys2Proof.Machine
end

section
/-!
PROOFS. The grid (R82, R84, R88, R96, R97, R155): what joining the stager's queue and reading a pass's rows leave, and the rows
a pass lands; from these the obligations on staging and passes at issue and on the landing of accumulator rows.
-/

namespace Sys2Proof.Machine

section
variable {s t v : State} {n : ArrayNum}

/-! ### Reads of the array's own units -/

theorem unitRead_based {off len : Nat} : (s.unitRead n off len).1.based s := by
  unfold State.unitRead
  split
  · exact State.eccReport_based State.based_refl
  · exact correct_based

theorem State.based.trans (h : t.based s) (g : s.based v) : t.based v := by
  unfold State.based at *
  grind

theorem passRow_based {off align len : Nat} : (s.passRow n off align len).1.based s := by
  have hread := unitRead_based (s := s) (n := n) (off := off) (len := len)
  unfold State.passRow
  split
  · exact State.based_refl
  · split <;> rename_i h <;> rw [h] at hread <;> exact hread

/-- Reading the rows of a pass changes registers, event records and board only. -/
theorem passRows_based {o : MmaOps} {p : PairInfo} {k : Nat} : ∀ {s : State} {i : Nat}, (s.passRows n o p k i).1.based s := by
  induction k with
  | zero => exact State.based_refl
  | succ k ih =>
    intro s i
    have hrow := passRow_based (s := s) (n := n) (off := (s.arr n).a o.actReg + o.actOff + i * o.actStride * 64) (align := 64)
      (len := p.actBytes)
    unfold State.passRows
    dsimp only
    split
    · next t e h => rw [h] at hrow; exact hrow
    · next t row h =>
      rw [h] at hrow
      have hscale : (if p.actScale = 0 then (t, Except.ok []) else
          t.passRow n ((s.arr n).a o.sclReg + o.sclOff + i * o.sclStride * 32) 32 p.actScale).1.based t := by
        split
        · exact State.based_refl
        · exact passRow_based
      split
      · next u e h => rw [h] at hscale; exact hscale.trans hrow
      · next u sc h =>
        rw [h] at hscale
        have hrest := ih (s := u) (i := i + 1)
        split
        · next w e h => rw [h] at hrest; exact hrest.trans (hscale.trans hrow)
        · next w rest h => rw [h] at hrest; exact hrest.trans (hscale.trans hrow)

/-! ### The stager's queue -/

/-- An array with a staging instruction in its stager's queue (R85, R87, R88). -/
def ArrayState.queueStg (a : ArrayState) (op : StgOp) (count : Nat) : ArrayState :=
  { a with
    stgQ := a.stgQ ++ [op], bankPair := a.bankPair.set op.bank.val (some op.pair)
    planes := if a.bankPair[op.bank.val] = some op.pair
      then SMap.wipe a.planes (op.bank.val * 64 + op.first) (op.bank.val * 64 + op.first + count)
      else SMap.wipe a.planes (op.bank.val * 64) (op.bank.val * 64 + 64) }

theorem enqueueStg_eq {op : StgOp} {count : Nat} (h : op.srcs.length = count) :
    s.enqueueStg n op = s.modArr n fun a => a.queueStg op count := by
  subst h
  rfl

theorem spoolOk_iff {a align len : Nat} : spoolOk a align len = true ↔ a % align = 0 ∧ a + len ≤ 0x800000 := by
  rw [spoolOk, Bool.and_eq_true, beq_iff_eq, decide_eq_true_iff]
  rfl

/-! ### Passes -/

/-- An array with a pass in its grid's queue, whose accumulator rows carry the pair's format (R82, R97). -/
def ArrayState.queueMma (a : ArrayState) (op : MmaOp) (o : MmaOps) (tag : AccTag) : ArrayState :=
  { a with
    mmaQ := a.mmaQ ++ [op]
    accTag := (List.range o.rows).foldl (fun t i => SMap.put .unwritten t (accRow o.half (o.base + i)) tag) a.accTag }


theorem passAccOk_of {a : ArrayState} {o : MmaOps} {tag : AccTag} (hrows : o.base + o.rows ≤ 128)
    (hacc : o.accumulate = false ∨
      ∀ i, i < o.rows → SMap.look .unwritten a.accTag (o.half * 128 + (o.base + i)) = tag) : passAccOk a o tag = true := by
  simpa [passAccOk, hrows, accRow] using hacc

end

/-! ### The obligation on issue -/

/-- Settles O12, instruction by instruction and check by check. -/
theorem stagingAndPassesIssue : Obligations.StagingAndPassesIssue := by
  intro n s a u cls
  refine ⟨fun o h => ?_, fun o h => ?_⟩
  · intro p addr len src op base queued
    have hlen : op.srcs.length = o.count := by simp [op]
    have haddr : ((s.atIssue n).arr n).a o.reg + o.offset = addr := by rw [arr_atIssue]
    have hpc : ((s.atIssue n).arr n).pc = a.pc := by rw [arr_atIssue]
    refine ⟨fun hfit hspool halign hend => ?_, fun hfit hspool halign hend hgrant => ?_, fun hbig => ?_⟩
    · have hsrc : src = fun j => .spool (addr + j * p.planeBytes) := funext fun j => if_pos hspool
      refine changes_done_modArr (f := fun a => a.queueStg op o.count) h nofun rfl ?_
      dsimp only
      rw [haddr, hpc, if_neg (Nat.not_lt.mpr hfit), if_pos hspool, if_pos (spoolOk_iff.mpr ⟨halign, hend⟩),
        ← enqueueStg_eq hlen, show op = ⟨_, _, _, _, _, (List.range o.count).map src⟩ from rfl, hsrc]
    · have hsrc : src = fun j => .vault (addr + j * p.planeBytes) := funext fun j => if_neg (by simp [hspool])
      have hin : ¬ (addr % 64 ≠ 0 ∨ vaultSize < addr + o.count * p.planeBytes) :=
        not_or.mpr ⟨not_not.mpr halign, Nat.not_lt.mpr hend⟩
      refine changes_done_modArr (f := fun a => a.queueStg op o.count) h nofun rfl ?_
      dsimp only
      rw [haddr, hpc, if_neg (Nat.not_lt.mpr hfit), if_neg (by simp [hspool]), if_neg hin, hgrant,
        ← enqueueStg_eq hlen, show op = ⟨_, _, _, _, _, (List.range o.count).map src⟩ from rfl, hsrc]
    · exact changes_fault_atIssue h nofun rfl (by dsimp only; rw [if_pos hbig])
  · intro pair p valid
    have hvalid : (((s.atIssue n).arr n).bankPair[(half2 o.bank).val] = some (pairOf o.pair)
        ∧ (SMap.look none ((s.atIssue n).arr n).planes (o.bank * 64 + o.plane)).isSome = true) ↔ valid := by rw [arr_atIssue]
    refine ⟨fun rows v hv hrows hacc hread => ?_, fun hv => ?_⟩
    · have hbased : v.based (s.atIssue n) := by
        have hb := passRows_based (s := s.atIssue n) (n := n) (o := o) (p := p) (k := o.rows) (i := 0)
        rwa [hread] at hb
      have hok : passAccOk ((s.atIssue n).arr n) o p.acc = true := by
        rw [arr_atIssue]
        exact passAccOk_of hrows hacc
      refine changes_done_near (f := fun a => a.queueMma _ o p.acc) h nofun rfl ?_ (near_of_based atIssue_near hbased)
        ((hbased.arr n).trans arr_atIssue)
      dsimp only
      rw [if_neg (not_not.mpr (hvalid.mpr hv)), hok, hread, arr_atIssue]
      rfl
    · exact changes_fault_atIssue h nofun rfl (by dsimp only; rw [if_pos (hvalid.not.mpr hv)])

/-! ### The landing of a row -/

section
variable {s : State} {n : ArrayNum}

theorem addTo_modArr (f : ArrayState → ArrayState) (g : Fld) (k : Nat) :
    (s.modArr n f).addTo g k = (s.addTo g k).modArr n f := set_modArr f g _

theorem noteIntSat_modArr (f : ArrayState → ArrayState) (b : Bool) (k : Nat) :
    (s.modArr n f).noteIntSat n b k = (s.noteIntSat n b k).modArr n f := by
  have hraise : (if b = true then (s.modArr n f).raiseBit (F.arrArithStatIntSat n) else s.modArr n f)
      = (if b = true then s.raiseBit (F.arrArithStatIntSat n) else s).modArr n f := by
    split
    · exact set_modArr f _ _
    · rfl
  unfold State.noteIntSat
  dsimp only
  rw [hraise]
  split
  · rfl
  · exact addTo_modArr f _ _

/-- An array after a row of the oldest pass of its grid has landed: the row's words and clamps, and the passes that remain
(R81, R82). -/
def ArrayState.landRow (a : ArrayState) (key : Nat) (new : Nat → AccVal) (q : List MmaOp) : ArrayState :=
  { a with
    acc := SMap.putAll 0 a.acc key ((List.range 256).map fun c => (new c).word)
    accClamp := SMap.putAll false a.accClamp key ((List.range 256).map fun c => (new c).clamped)
    mmaQ := q }

/-- The columns of a row, taken before and after it lands, whose accumulators clamp in it. -/
theorem newlyClamped_eq (f g : Nat → AccVal) (k : Nat) :
    ((List.zip ((List.range k).map f) ((List.range k).map g)).filter fun p => p.2.clamped && !p.1.clamped).length
      = ((List.range k).filter fun c => (g c).clamped && !(f c).clamped).length := by
  rw [List.zip_map', List.filter_map, List.length_map]
  rfl

end

/-- Settles O13: the row's 256 columns, taken together, land as each does. -/
theorem accumulatorLanding : Obligations.AccumulatorLanding := by
  intro n s op rest row scl more hq hrows hrun a r old new clamps fed counted
  have hafter : (((List.range 256).map old).zipIdx.map fun b => passColumn op row scl b.1 b.2) = (List.range 256).map new := by
    rw [zipIdx_map_range, List.map_map]
    rfl
  have hbefore : ((List.range 256).map fun c => accBefore (s.arr n) op (op.base + (op.total - op.rows.length)) c)
      = (List.range 256).map old := rfl
  have hmore : (if more.isEmpty then rest else { op with rows := more, fed := max op.fed fed } :: rest)
      = if more = [] then rest else { op with rows := more, fed := max op.fed fed } :: rest := by
    simp only [List.isEmpty_iff]
  have hkey : accKey op.half.val (op.base + (op.total - op.rows.length)) 0 = (op.half.val * 128 + r) * 256 := Nat.add_zero _
  have hexec : exec (.accumulatorLanding n) s = .next ((counted.noteOverflow n ((List.range 256).any fun c => (new c).overflow)).modArr n
      fun a => a.landRow ((op.half.val * 128 + r) * 256) new
        (if more = [] then rest else { op with rows := more, fed := max op.fed fed } :: rest)) := by
    refine congrArg Host.Outcome.next ?_
    rw [hq]
    dsimp only
    rw [hrun, hrows]
    dsimp only
    rw [← hrows, hbefore, hafter, newlyClamped_eq, hmore, Bool.not_true, if_neg Bool.false_ne_true, addTo_modArr,
      noteIntSat_modArr, noteOverflow_modArr, List.map_map, List.map_map, List.any_map, hkey]
    rfl
  have hbased : (counted.noteOverflow n ((List.range 256).any fun c => (new c).overflow)).based s :=
    State.noteOverflow_based (State.noteIntSat_based (State.addTo_based State.based_refl))
  have h := changes_modArr (n := n) (near_of_based near_refl hbased)
    (fun a => a.landRow ((op.half.val * 128 + r) * 256) new
      (if more = [] then rest else { op with rows := more, fed := max op.fed fed } :: rest)) rfl rfl rfl
  rw [hbased.arr] at h
  rw [hexec]
  exact h

end Sys2Proof.Machine
end

section
/-!
PROOFS. Conversions, moves and remote operations at issue (R82, R92, R99 to R102, R114 to R116, R135): what a write to the spool
leaves where no word is uncorrectable, and from this the obligations on CVT and MOV and on the issue of remote operations.
-/

namespace Sys2Proof.Machine

section
variable {s t u : State} {n : ArrayNum}

/-! ### Reads and writes of the array's own units -/

theorem State.near.stagerOver (h : t.near s n) : t.stagerOver s :=
  Eq.trans h.2 (congrArg (fun l => { s with
    arrays := t.arrays, regs := t.regs, events := t.events, board := t.board, linkErr := l })
    (congrArg State.linkErr h.2).symm)

theorem State.stagerOver.clean (h : t.stagerOver s) (hc : s.clean) : t.clean := fun a k => (h.badIn a k).trans (hc a k)

theorem mergeReads_based {a k reader : Nat} : (s.mergeReads a k reader).based s :=
  based_foldl (fun _ _ h => State.eccReport_based h) (based_foldl (fun _ _ h => State.eccReport_based h) State.based_refl)

/-- Memory above the tier holds none of its lines. -/
theorem tierLines_above {a : Nat} (ha : tierBase + tierSize ≤ a) (k : Nat) : tierLines a k = [] := if_neg (by omega)

/-- A store above the tier opens and seals no line. -/
theorem store_above {a : Nat} (ha : tierBase + tierSize ≤ a) (bs : List Byte) : s.store a bs = s.putBytes a bs := by
  unfold State.store State.storeLines
  rw [tierLines_above ha]
  rfl

/-- A store above the tier where no word is uncorrectable makes none uncorrectable. -/
theorem store_above_clean {a : Nat} (hc : s.clean) (ha : tierBase + tierSize ≤ a) (bs : List Byte) : (s.store a bs).clean := by
  have hue : (s.putBytes a bs).ue = s.ue := by simp [State.putBytes, ue_of_clean hc]
  intro b k
  have hbad : (s.putBytes a bs).badIn b k = s.badIn b k := by
    unfold State.badIn State.badWords
    rw [hue]
    rfl
  rw [store_above ha, hbad, hc]

/-- A spool write by one of the array's own units where no word is uncorrectable: it does not fault, and the bytes written
take the place of what stood there (R92). -/
theorem unitWrite_of_clean (hc : s.clean) (off : Nat) (bs : List Byte) :
    (s.unitWrite n off bs).2 = none ∧ (s.unitWrite n off bs).1.clean ∧ (s.unitWrite n off bs).1.arrays = s.arrays
      ∧ ∀ x, (s.unitWrite n off bs).1.byte x = if spoolBase n + off ≤ x ∧ x < spoolBase n + off + bs.length
          then bs.getD (x - (spoolBase n + off)) 0 else s.byte x := by
  have hread := mergeReads_based (s := s) (a := spoolBase n + off) (k := bs.length) (reader := 6)
  have hclean := hread.readOver.1.clean hc
  refine ⟨?_, ?_, ?_, fun x => ?_⟩
  · simp [State.unitWrite, State.mergeBad, ue_of_clean hc]
  · exact store_above_clean hclean (by unfold spoolBase tierBase tierSize; omega) bs
  · exact (State.store_arrays ..).trans hread.arrays
  · have hstore := byte_store (s := s.mergeReads (spoolBase n + off) bs.length 6) (spoolBase n + off) bs x
    simp only [storable_of_clean hclean, hread.byte, and_true] at hstore
    exact hstore

/-- A spool read by one of the array's own units that meets no uncorrectable word (R92). -/
theorem unitRead_good {off len : Nat} (h : s.badIn (spoolBase n + off) len = none) :
    s.unitRead n off len = (s.correct (spoolBase n + off) len 6, .ok (s.load (spoolBase n + off) len)) := by
  unfold State.unitRead
  rw [h]

/-! ### Flags and the next place -/

theorem noteNan_near {k : Nat} (h : t.near s n) : (t.noteNan n k).near s n := by
  have hcount : ((t.raiseBit (F.arrArithStatNanOut n)).addTo (F.arrNanCountNanCount n) k).near s n :=
    near_of_based h (State.addTo_based (State.raiseBit_based State.based_refl))
  unfold State.noteNan
  split
  · exact h
  · dsimp only
    split
    · exact near_of_based (near_modArr hcount _) (State.report_based State.based_refl)
    · exact hcount

theorem pc_noteNan {k : Nat} : ((s.noteNan n k).arr n).pc = (s.arr n).pc := by
  have hcount : ((s.raiseBit (F.arrArithStatNanOut n)).addTo (F.arrNanCountNanCount n) k).based s :=
    State.addTo_based (State.raiseBit_based State.based_refl)
  unfold State.noteNan
  split
  · rfl
  · dsimp only
    split
    · rw [(State.report_based State.based_refl).arr, arr_modArr_self, hcount.arr]
    · rw [hcount.arr]

theorem pc_past (a : ArrayState) (now : DWord) : (a.past now).pc = if a.pc = lastFetch then a.pc else a.pc + 16 := by
  unfold ArrayState.past
  split
  · split <;> rfl
  · rfl

@[simp] theorem pc_enter (a : ArrayState) (i : Insn) : (a.enter i).pc = a.pc := by
  unfold ArrayState.enter
  split <;> rfl

/-- An instruction that goes on is followed by the next place, whatever it left in its array. -/
theorem pc_issued {a b : ArrayState} {i : Insn} {now now' : DWord} (h : b.pc = a.pc) :
    (b.issued i now).pc = (a.past now').pc := by
  rw [ArrayState.issued, pc_past, pc_past, pc_enter, h]

end

/-! ### Conversions and moves -/

/-- Settles O15, instruction by instruction. -/
theorem conversionsAndMoves : Obligations.ConversionsAndMoves := by
  intro n s _ a u cls
  have hu : u.near s n := atIssue_near
  refine ⟨fun o h => ?_, fun vd fmt reg off h => ?_, fun vd half row g cnt h => ?_⟩
  · intro r el sc
    have hel : (u.arr n).a o.elReg + o.elOff = el := by rw [arr_atIssue]
    have hsc : (u.arr n).a o.scReg + o.scOff = sc := by rw [arr_atIssue]
    refine ⟨fun hgood hscale hclean => ?_, fun hbad => ?_⟩
    · have hscale' : (!r.scales.isEmpty && !spoolOk sc 2 r.scales.length) = false := by
        rcases hscale with h | h <;> simp [h]
      obtain ⟨hf1, hc1, ha1, hb1⟩ := unitWrite_of_clean (n := n) (hu.stagerOver.clean hclean) el r.elems
      obtain ⟨hf2, hc2, ha2, hb2⟩ := unitWrite_of_clean (n := n) hc1 sc r.scales
      generalize hw1 : u.unitWrite n el r.elems = w1 at hf1 hc1 ha1 hb1 hf2 hc2 ha2 hb2
      generalize hw2 : w1.1.unitWrite n sc r.scales = w2 at hf2 hc2 ha2 hb2
      have harr : ∀ m, w2.1.arr m = u.arr m := fun m => by unfold State.arr; rw [ha2, ha1]
      have hnote : (((w2.1.noteConvSat n r.sat).noteConvNan n r.nan).noteNan n r.nanOut).near w2.1 n :=
        noteNan_near (near_of_based near_refl
          (State.noteConvNan_based (State.noteConvSat_based State.based_refl)))
      generalize hv : ((w2.1.noteConvSat n r.sat).noteConvNan n r.nan).noteNan n r.nanOut = v at hnote
      have hexec : exec (.cvt n) s = .next (v.modArr n (ArrayState.issued (.cvt o) v.time)) := by
        refine congrArg Host.Outcome.next (issue_done h nofun rfl ?_)
        dsimp only
        rw [hel, hsc, hgood, hscale', hw1, hw2, hv, hf1, hf2]
        rfl
      refine ⟨_, hexec, ?_, fun x => ?_, fun m hm => ?_⟩
      · rw [arr_modArr_self]
        refine pc_issued ?_
        rw [← hv, pc_noteNan, (State.noteConvNan_based (State.noteConvSat_based State.based_refl)).arr, harr, arr_atIssue]
      · rw [← hu.stagerOver.byte x, ← hb1, ← hb2]
        exact hnote.stagerOver.byte x
      · rw [arr_modArr_ne _ hm, hnote.1 m hm, harr, arr_atIssue_ne hm]
    · refine changes_fault_atIssue h nofun rfl ?_
      dsimp only
      rw [hel, hbad]
      rfl
  · intro w addr bs el
    have haddr : (u.arr n).a reg + off = addr := by rw [arr_atIssue]
    refine ⟨fun hgood hread => ?_, fun hbad => ?_⟩
    · have hbytes : u.load (spoolBase n + addr) (8 * w) = bs := hu.stagerOver.load _ _
      have hbased : (u.correct (spoolBase n + addr) (8 * w) 6).based u := correct_based
      refine changes_done_near (f := fun b => b.setV vd ((List.range 64).map fun j => widen fmt (el j))) h nofun rfl ?_
        (near_of_based hu hbased) ((hbased.arr n).trans arr_atIssue)
      dsimp only
      rw [haddr, hgood, unitRead_good ((hu.stagerOver.badIn _ _).trans hread), hbytes]
      rfl
    · refine changes_fault_atIssue h nofun rfl ?_
      dsimp only
      rw [haddr, hbad]
      rfl
  · intro tag col
    have htag : SMap.look .unwritten (u.arr n).accTag (accRow half row) = tag := by rw [arr_atIssue]; rfl
    have hcol : ∀ c, col c = if tag = .int32 then f32OfInt32 (SMap.look 0 a.acc (accKey half row c))
        else SMap.look 0 a.acc (accKey half row c) := fun _ => rfl
    clear_value col
    refine ⟨fun hwritten => ?_, fun hunwritten => ?_⟩
    · refine changes_done_modArr (f := fun b => (List.range cnt).foldl (fun a j =>
        a.setV (vd + j) ((List.range 64).map fun l => col (64 * (g + j) + l))) b) h nofun rfl ?_
      dsimp only
      rw [htag, arr_atIssue]
      rw [show col = _ from funext hcol]
      clear_value tag
      cases tag with
      | unwritten => exact absurd rfl hwritten
      | int32 => rfl
      | fp32 => rfl
    · refine changes_fault_atIssue h nofun rfl ?_
      dsimp only
      rw [htag, hunwritten]
      rfl

/-! ### Remote operations -/

section
variable {s : State} {n : ArrayNum}

/-- The row that issues a kind of remote operation. -/
def rmoRow (n : ArrayNum) : RmoKind → Instr
  | .put => .put n
  | .get => .get n
  | .putSignal => .putWithKnotSignal n
  | .atomicAdd => .atomicAdd n

theorem exec_rmoRow (k : RmoKind) : exec (rmoRow n k) s = .next (s.issueRmoKind n k) := by
  cases k <;> rfl

/-- The operation that an array state queues for a remote instruction (R102, R115, R116, R125). -/
def State.rmoOp (s : State) (n : ArrayNum) (a : ArrayState) (o : RmoOps) : RmoOp where
  pc := a.pc
  kind := o.kind
  fp := o.fmt == 1
  loc := a.a o.locReg + o.locOff
  remote := (o.remote + a.a o.remReg) % 2 ^ 48
  lines := o.lines
  knot := o.knot
  failed := s.rmoCause n o.kind ((o.remote + a.a o.remReg) % 2 ^ 48) (64 * o.lines) o.knot
  early := if a.rmoQ.isEmpty then []
    else s.remoteLoad (if o.kind = .get then (o.remote + a.a o.remReg) % 2 ^ 48 else spoolBase n + (a.a o.locReg + o.locOff))
      (64 * o.lines)
  under := a.rmoQ.filterMap fun q => s.overlapOf n q
  issuedAt := s.time

theorem issueRmo_eq (o : RmoOps) : s.issueRmo n o =
    if spoolOk ((s.arr n).a o.locReg + o.locOff) 64 (64 * o.lines) = true then
      .done (s.modArr n fun a => { a with rmoQ := a.rmoQ ++ [s.rmoOp n (s.arr n) o] })
    else .fault s faultSpoolRange ((s.arr n).a o.locReg + o.locOff) := by
  unfold State.issueRmo
  dsimp only
  cases spoolOk ((s.arr n).a o.locReg + o.locOff) 64 (64 * o.lines) <;> rfl

/-- The instruction that a row of a kind of remote operations takes. -/
def rmoRun (n : ArrayNum) (k : RmoKind) : Insn → Option (State → IssueOut)
  | .rmo o => if o.kind = k then some fun s => s.issueRmo n o else none
  | _ => none

theorem issueRmoKind_eq (k : RmoKind) : s.issueRmoKind n k = s.issue n (rmoRun n k) := rfl

theorem rmoRun_self (o : RmoOps) : rmoRun n o.kind (.rmo o) = some fun s => s.issueRmo n o := if_pos rfl

end

/-- Settles O16, by the check of the local range. -/
theorem remoteOperationsIssue : Obligations.RemoteOperationsIssue := by
  intro n s o h a u cls loc remote op row
  have hloc : (u.arr n).a o.locReg + o.locOff = loc := by rw [arr_atIssue]
  have htime : u.time = s.time := (atIssue_near (s := s) (n := n)).time
  have hop : u.rmoOp n (u.arr n) o = op := by
    rw [arr_atIssue, State.rmoOp, htime]
  have hexec : exec row s = .next (s.issue n (rmoRun n o.kind)) := exec_rmoRow o.kind
  have hissue := issueRmo_eq (s := u) (n := n) o
  rw [hloc, hop] at hissue
  rw [hexec]
  refine ⟨fun hgood => ?_, fun hbad => ?_⟩
  · rw [if_pos (spoolOk_iff.mpr hgood)] at hissue
    exact changes_done_modArr (f := fun b => { b with rmoQ := b.rmoQ ++ [op] }) h nofun (rmoRun_self o) hissue
  · rw [if_neg (spoolOk_iff.not.mpr hbad)] at hissue
    exact changes_fault_atIssue h nofun (rmoRun_self o) hissue

end Sys2Proof.Machine
end

section
/-!
PROOFS. Kernels (R89, R93, R95, R107 to R109, R341): a write of ARR_KERNEL_GO, the end of a kernel and of a KERNEL_RUN that waited
for it, the record of a fault and the restaging after a power-gate, and from these the obligation on a kernel's start and end.
-/

namespace Sys2Proof.Machine

section
variable {s t : State} {n : ArrayNum} {q : Requester} {v : Word}

/-! ### A write that starts something (R10, R12, R383) -/

/-- A requester that may act in an array's window reaches its registers. -/
theorem reaches_window (h : s.mayAct q n) {off : Nat} (hoff : off + 4 < 0x100000) :
    s.reaches q false (regKey n off) 4 = true := by
  obtain ⟨hport, -, -⟩ := h
  have hn := n.isLt
  unfold State.reaches regKey
  cases hq : portOf q with
  | none => simp; omega
  | some p => rw [hq] at hport; simpa using ⟨hport, by omega⟩

theorem allArrays_get (n : ArrayNum) : allArrays[n.val]? = some n := by
  simp [allArrays]

/-- A register of one word all of whose fields are write-only. -/
def RegHit.starts (h : RegHit) : Bool :=
  !h.high && !h.row.wide && h.row.fields.all (fun f => f.access == .wo) && !h.row.fields.isEmpty

/-- A write to write-only fields stores nothing. -/
theorem writeHit_starts {h : RegHit} (hs : h.starts = true) (key : Nat) (lock : Bool) (drop : State → State) :
    s.writeHit key h lock drop (fun _ => true) v = s := by
  simp only [RegHit.starts, Bool.and_eq_true, Bool.not_eq_true', List.all_eq_true, beq_iff_eq] at hs
  obtain ⟨⟨⟨-, hwide⟩, hwo⟩, -⟩ := hs
  have hfold : ∀ l : List FieldDef, (∀ f ∈ l, f.access = .wo) → l.foldl (fun s f => s.writeField key lock f v.toNat) s = s := by
    intro l
    induction l with
    | nil => exact fun _ => rfl
    | cons f l ih =>
      intro hl
      have hf : s.writeField key lock f v.toNat = s := by rw [State.writeField, hl f (List.mem_cons_self ..)]
      rw [List.foldl_cons, hf]
      exact ih fun g hg => hl g (List.mem_cons_of_mem _ hg)
  have hrwl : (h.row.fields.any fun f => f.access == .rwl) = false := by
    simpa using fun f hf => by rw [hwo f hf]; decide
  simp [State.writeHit, hwide, hfold _ hwo, hrwl]

/-- A write of a register of an array's window whose fields are all write-only starts what the register starts. -/
theorem regWrite_starts (hact : s.mayAct q n) {off : Nat} {h : RegHit} (hf : findReg arrayRegs off = some h)
    (hs : h.starts = true) (hoff : off < 0x4000) (hal : off % 4 = 0) (hgate : off ≠ 0x2010) :
    s.regWrite q false (regKey n off) 4 v = s.writeAction n off v := by
  have hn := n.isLt
  have hdiv : regKey n off / 0x100000 = n := window_div (by omega)
  have hmod : regKey n off % 0x100000 = off := window_mod (by omega)
  have hgates : gateOfWrite n off = none := by
    unfold gateOfWrite
    rw [if_neg (by omega), if_pos hn, if_neg (by omega)]
  have hcross : s.crosses q (regKey n off / 0x100000) (regKey n off % 0x100000) := by
    rw [hdiv, hmod, State.crosses, hgates]
    exact nofun
  have hreach : s.reaches q false (regKey n off) 4 = true := reaches_window hact (by omega)
  obtain ⟨-, hpow, hworld⟩ := hact
  have hdead : s.windowDead n = false := by
    unfold State.windowDead
    rw [allArrays_get]
    simp [hpow]
  have hmsix : s.msixAt n off = none := if_pos (by omega)
  have habs : absentReg n (off % 0x80000) = false := by
    unfold absentReg
    simp
    omega
  have hmay : ∀ f, (!nonSecure q || s.mayWrite n off f) = true := fun f => by
    cases hq : nonSecure q
    · rfl
    · simp [State.mayWrite, allArrays_get, hworld hq]
      omega
  have hdenied : (nonSecure q && s.writeDenied n off h v) = false := by
    cases hq : nonSecure q
    · rfl
    · simp [State.writeDenied, allArrays_get, hworld hq]
      omega
  have hfind : findReg (windowRegs n) (off % 0x80000) = some h := by
    rw [windowRegs_array hn, Nat.mod_eq_of_lt (by omega), hf]
  have hbase : off % 0x80000 - (if h.high = true then 4 else 0) = off := by
    simp [RegHit.starts] at hs
    rw [Nat.mod_eq_of_lt (by omega), hs.1.1.1]
    rfl
  have hwo : (h.row.fields.any fun f => f.access == .wo && true) = true := by
    simp only [RegHit.starts, Bool.and_eq_true, Bool.not_eq_true', List.isEmpty_eq_false_iff] at hs
    obtain ⟨⟨-, hall⟩, hne⟩ := hs
    obtain ⟨f, hfm⟩ := List.exists_mem_of_ne_nil _ hne
    exact List.any_eq_true.mpr ⟨f, hfm, by simpa using List.all_eq_true.mp hall f hfm⟩
  have hreel : s.reelEnabled s n off = s := by
    unfold State.reelEnabled
    rw [if_neg (by omega)]
  have hpatrol : s.patrolEnabled s n off = s := by
    unfold State.patrolEnabled
    rw [if_neg (by omega), allArrays_get]
    exact if_neg (by omega)
  have hkey : ¬ (4 ≠ 4 ∨ regKey n off % 4 ≠ 0) := by unfold regKey; omega
  rw [regWrite_of_crosses hcross, State.regWriteAt, hreach, if_neg (by simp), if_neg Bool.false_ne_true, if_neg hkey, hdiv, hmod,
    State.writeWindow, hdead, if_neg Bool.false_ne_true, hmsix]
  dsimp only
  rw [habs, if_neg Bool.false_ne_true, hfind]
  dsimp only
  rw [if_neg (c := 0x80000 ≤ off) (by omega), hbase, if_pos (c := off < 0x80000) (by omega), hdenied,
    if_neg Bool.false_ne_true, if_neg (by omega)]
  simp only [hmay]
  rw [writeHit_starts hs, hreel, hpatrol]
  exact if_pos hwo

/-- ARR_KERNEL_GO is such a register. -/
theorem kernelGo_starts : (findReg arrayRegs 0x18).any RegHit.starts = true := by decide +kernel

/-- A write of 1 to ARR_KERNEL_GO by a requester that may act there is a go (R107). -/
theorem exec_arrKernelGo (hact : s.mayAct q n) (hv : v.getLsbD 0 = true) :
    exec (.arrKernelGo q n v) s = .next (s.kernelGo n) := by
  have hstarts := kernelGo_starts
  obtain ⟨h, hf⟩ := Option.isSome_iff_exists.mp (Option.isSome_of_any hstarts)
  have hs : h.starts = true := by rwa [hf] at hstarts
  refine congrArg Host.Outcome.next ((regWrite_starts hact hf hs (by decide) rfl (by decide)).trans ?_)
  rw [State.writeAction, allArrays_get]
  exact if_pos hv

/-! ### Settling (R341) -/

theorem calm_modArr {f : ArrayState → ArrayState} (h : s.calm) : (s.modArr n f).calm := h

/-- A state that has another's commands and partitions is calm with it. -/
theorem State.calm.congr (h : s.calm) (hspn : t.spn = s.spn) (hparts : t.parts = s.parts) : t.calm :=
  ⟨fun m hm => h.1 m (by rwa [hspn] at hm), fun p => by unfold State.part; rw [hparts]; exact h.2 p⟩

theorem settleKernels_of_calm (h : s.calm) : s.settleKernels = s := by
  have hfold : ∀ l : List Cmd, (∀ m ∈ l, m.wait = .none) → l.foldl (fun s m => match m.wait with
      | .kernels mask faulted => if s.kernelsOf mask = 0 then s.complete m.ref stOk (leBytes 8 faulted.toNat) else s
      | _ => s) s = s := by
    intro l
    induction l with
    | nil => exact fun _ => rfl
    | cons m l ih =>
      intro hl
      rw [List.foldl_cons, hl m (List.mem_cons_self ..)]
      exact ih fun x hx => hl x (List.mem_cons_of_mem _ hx)
  exact hfold _ h.1

/-- Settling does no more than completing the KERNEL_RUNs, where that leaves nothing that waits. -/
theorem settle_of_calm_settleKernels (h : s.settleKernels.calm) : s.settle = s.settleKernels := by
  conv_rhs => rw [← settle_of_calm h]
  unfold State.settle
  rw [settleKernels_of_calm h]

/-- With nothing that waits, an array's fault is marked in no command. -/
theorem noteFaulted_of_calm (h : s.calm) : s.noteFaulted n = s := by
  have hmap : (s.spn.cmds.map fun m => match m.wait with
      | .kernels mask faulted =>
        if mask.getLsbD n then { m with wait := .kernels mask (faulted ||| BitVec.ofNat 64 (2 ^ n.val)) } else m
      | _ => m) = s.spn.cmds := by
    refine (List.map_congr_left fun m hm => ?_).trans (List.map_id _)
    rw [h.1 m hm]
    rfl
  unfold State.noteFaulted
  exact congrArg (fun l => { s with spn := { s.spn with cmds := l } }) hmap

/-- The only command outstanding, completed, waits no more. -/
theorem calm_complete {m : Cmd} (hm : s.spn.cmds = [m]) (hp : ∀ p, (s.part p).todo = []) (st : Nat) (r : List Byte) :
    (s.complete m.ref st r).calm := by
  have hcmd : s.cmd m.ref = some m := by simp [State.cmd, hm]
  refine ⟨?_, fun p => ?_⟩
  · unfold State.complete
    rw [hcmd]
    dsimp only
    split
    · simp [State.modCmd, hm]
    · unfold State.ledger
      split <;> simp [State.modCmd, hm]
  · unfold State.complete
    rw [hcmd]
    dsimp only
    split
    · exact hp p
    · unfold State.ledger
      split <;> exact hp p

/-- No kernel of a single array runs once that array's has ended. -/
theorem kernelsOf_single (h : (s.arr n).kernel = false) : s.kernelsOf (BitVec.ofNat 64 (2 ^ n.val)) = 0 := by
  have hbit : ∀ k : ArrayNum, ((BitVec.ofNat 64 (2 ^ n.val)).getLsbD k && (s.arr k).kernel) = false := fun k => by
    by_cases hk : k = n
    · rw [hk, h, Bool.and_false]
    · have hne : n.val ≠ k.val := fun e => hk (Fin.ext e.symm)
      rw [BitVec.getLsbD_ofNat, Nat.testBit_two_pow_of_ne hne]
      simp
  unfold State.kernelsOf
  simp only [hbit, Bool.false_eq_true, if_false]
  exact List.foldl_fixed _

/-! ### A fault's record (R109, R490, R491) -/

theorem State.regsOver.events (h : t.regsOver s) : t.events = s.events := by rw [h]

/-- A record under handling keeps what it names (source, class and number) when an occurrence joins it. -/
theorem merge_names (e : EventEntry) (now : DWord) (fresh : EventRec) :
    (e.merge now fresh).body.source = e.body.source ∧ (e.merge now fresh).body.cls = e.body.cls
      ∧ (e.merge now fresh).body.inst = e.body.inst := by
  unfold EventEntry.merge
  split
  · split <;> exact ⟨rfl, rfl, rfl⟩
  · exact ⟨rfl, rfl, rfl⟩

/-- An occurrence of a source with room in its queue is in a record that names it: its source, class and number
(R490, R496). -/
theorem reportAt_entry {now : DWord} {ev : Ev}
    (hroom : (s.events.entries.filter fun e => e.body.source == ev.source && e.queued).length < 31) :
    ∃ e ∈ (s.reportAt now ev).events.entries,
      e.body.source = ev.source ∧ e.body.cls = ev.cls ∧ e.body.inst = ev.inst := by
  unfold State.reportAt
  extract_lets fresh entries
  split
  · next h =>
    obtain ⟨e, he, htakes⟩ := List.any_eq_true.mp h.2
    have hmem : e.merge now fresh ∈ entries := List.mem_map.mpr ⟨e, he, if_pos htakes⟩
    simp only [EventEntry.takes, Bool.and_eq_true, beq_iff_eq] at htakes
    obtain ⟨⟨⟨hsource, hcls⟩, hinst⟩, -⟩ := htakes
    obtain ⟨h1, h2, h3⟩ := merge_names e now fresh
    refine ⟨_, ?_, h1.trans hsource, h2.trans hcls, h3.trans hinst⟩
    rw [State.bump, addTo_regsOver.events]
    exact hmem
  · unfold State.enqueue
    extract_lets seq r s1 board update s2 rs held
    have hevents : s2.events = s.events := (addTo_regsOver.trans set_regsOver : s1.regsOver s).events
    have hheld : held < 31 := by unfold held; rw [hevents]; exact hroom
    rw [if_pos (.inl hheld)]
    exact ⟨_, List.mem_append_right _ (List.mem_singleton_self _), rfl, rfl, rfl⟩

/-- The fields of an array's window that a fault sets, the last first (R109). -/
def faultFields (n : Nat) : List Fld := [F.arrStatusFault n, F.arrFaultAddrAddr n, F.arrFaultInfoClass n, F.arrFaultInfoCode n]

/-- They lie inside their registers and share no bit. -/
theorem faultFields_laidOut : ∀ n, n < 64 →
    (faultFields n).Pairwise (fun f g => f.apart g = true) ∧ ∀ f ∈ faultFields n, f.fits = true := by
  decide +kernel

/-- The registers in which a fault is recorded (R109). -/
def State.faultRegs (s : State) (n : ArrayNum) (f : PendFault) : State :=
  (((s.set (F.arrFaultInfoCode n) f.code).set (F.arrFaultInfoClass n) f.cls).set (F.arrFaultAddrAddr n) (f.addr % 2 ^ 48)).raiseBit
    (F.arrStatusFault n)

theorem get_faultRegs (f : PendFault) :
    (s.faultRegs n f).get (F.arrFaultInfoCode n) = f.code % 256 ∧ (s.faultRegs n f).get (F.arrFaultInfoClass n) = f.cls % 16
      ∧ (s.faultRegs n f).get (F.arrFaultAddrAddr n) = f.addr % 2 ^ 48 ∧ (s.faultRegs n f).get (F.arrStatusFault n) = 1 := by
  obtain ⟨hap, hfit⟩ := faultFields_laidOut n n.isLt
  simp only [faultFields, List.pairwise_cons, List.forall_mem_cons] at hap hfit
  obtain ⟨⟨hfa, hfk, hfc, -⟩, ⟨hak, hac, -⟩, ⟨hkc, -⟩, -⟩ := hap
  obtain ⟨hf, ha, hk, hc, -⟩ := hfit
  unfold State.faultRegs State.raiseBit
  refine ⟨?_, ?_, ?_, get_set_self hf 1⟩
  · rw [get_set_apart hc hfc, get_set_apart hc hac, get_set_apart hc hkc, get_set_self hc]
    rfl
  · rw [get_set_apart hk hfk, get_set_apart hk hak, get_set_self hk]
    rfl
  · rw [get_set_apart ha hfa, get_set_self ha]
    exact Nat.mod_eq_of_lt ((Nat.mod_lt _ (by decide)).trans (show 2 ^ 48 < 2 ^ 64 by decide))

theorem faultRegs_regsOver (f : PendFault) : (s.faultRegs n f).regsOver s := by
  unfold State.faultRegs State.raiseBit
  exact set_regsOver.trans (set_regsOver.trans (set_regsOver.trans set_regsOver))

/-- The occurrence that a fault reports (R109, R487). -/
def State.faultEv (s : State) (n : ArrayNum) (f : PendFault) : Ev where
  source := n.val
  cls := 0x02
  severity := 3
  part := s.partOf n
  affected := affectedBy (s.partOf n)
  inst := n.val
  detail := [BitVec.ofNat 8 f.code, BitVec.ofNat 8 f.cls] ++ leBytes 3 f.pc

/-- An array as its fault leaves it: it stands at the faulting instruction and issues nothing more (R109). -/
def ArrayState.stopAt (a : ArrayState) (pc : Nat) : ArrayState :=
  { a with kernel := false, ending := false, pend := none, pc := pc, kwait := none }

variable {f : PendFault}

theorem recordFault_eq : s.recordFault n f
    = ((s.modArr n fun a => a.stopAt f.pc).faultRegs n f).reportAt (s.arr n).pendAt (s.faultEv n f) := rfl

theorem recordFault_based : (s.recordFault n f).based (s.modArr n fun a => a.stopAt f.pc) := by
  rw [recordFault_eq]
  exact State.reportAt_based (State.raiseBit_based (State.set_based (State.set_based (State.set_based State.based_refl))))

theorem near_recordFault : (s.recordFault n f).near s n := near_of_based (near_modArr near_refl _) recordFault_based

theorem arr_recordFault : (s.recordFault n f).arr n = (s.arr n).stopAt f.pc :=
  (recordFault_based.arr n).trans (arr_modArr_self _)

/-- The record of a fault in the array's registers. -/
theorem get_recordFault (f : PendFault) :
    (s.recordFault n f).get (F.arrFaultInfoCode n) = f.code % 256
      ∧ (s.recordFault n f).get (F.arrFaultInfoClass n) = f.cls % 16
      ∧ (s.recordFault n f).get (F.arrFaultAddrAddr n) = f.addr % 2 ^ 48
      ∧ (s.recordFault n f).get (F.arrStatusFault n) = 1 := by
  have hregs : (s.recordFault n f).sameRegs (· = 0x4C) ((s.modArr n fun a => a.stopAt f.pc).faultRegs n f) := by
    rw [recordFault_eq]
    exact reportAt_sameRegs (W := (· = 0x4C)) rfl _ _
  have hn : ¬ n.val = 0x4C := by omega
  rw [hregs.get (f := F.arrFaultInfoCode n) (outside_regKey hn (by decide)),
    hregs.get (f := F.arrFaultInfoClass n) (outside_regKey hn (by decide)),
    hregs.get (f := F.arrFaultAddrAddr n) (outside_regKey hn (by decide)),
    hregs.get (f := F.arrStatusFault n) (outside_regKey hn (by decide))]
  exact get_faultRegs f

/-- The record of a fault among the event records. -/
theorem recordFault_entry (hroom : (s.events.entries.filter fun e => e.body.source == n.val && e.queued).length < 31) :
    ∃ e ∈ (s.recordFault n f).events.entries, e.body.source = n.val ∧ e.body.cls = 2 ∧ e.body.inst = n.val := by
  have hevents : ((s.modArr n fun a => a.stopAt f.pc).faultRegs n f).events = s.events := (faultRegs_regsOver f).events
  rw [recordFault_eq]
  exact reportAt_entry (by rw [hevents]; exact hroom)

theorem State.near.congr_calm (h : t.near s n) (hc : s.calm) : t.calm := hc.congr (by rw [h.2]) (by rw [h.2])

/-! ### Restaging (R89, R155) -/

/-- t is s with planes of array n staged again: what their reads count and report aside, only the array's cell buffers have
changed, and every plane is valid or not as it was. -/
structure State.restages (t s : State) (n : ArrayNum) : Prop where
  frame : t.stagerOver s
  regs : t.sameRegs countedWindow s
  others : ∀ m, m ≠ n → t.arr m = s.arr m
  self : t.arr n = { s.arr n with planes := (t.arr n).planes, wbuf := (t.arr n).wbuf }
  planes : ∀ k, SMap.look none (t.arr n).planes k = SMap.look none (s.arr n).planes k

theorem State.restages.vtags (h : t.restages s n) (m : ArrayNum) : (t.arr m).vtags = (s.arr m).vtags := by
  by_cases hm : m = n
  · rw [hm, h.self]
  · rw [h.others m hm]

theorem State.restages.tagAt (h : t.restages s n) (x : Nat) : t.tagAt x = s.tagAt x := by
  have htier : t.tierTags = s.tierTags := by rw [h.frame]
  have husable : ∀ m, t.usable m = s.usable m := fun m => by
    unfold State.usable State.bit
    rw [h.regs.get unusable_outside]
  unfold State.tagAt State.vtag State.ttag
  simp only [htier, husable, h.vtags]

theorem State.restages.isSealed (h : t.restages s n) (p : PartNum) : t.isSealed p = s.isSealed p := by
  unfold State.isSealed State.bit
  rw [h.regs.get sealed_outside]

/-- Staging a plane again keeps what the stager may read. -/
theorem State.restages.sourceDenied (h : t.restages s n) (pair : Fin 11) (src : PlaneSrc) :
    t.sourceDenied n pair src = s.sourceDenied n pair src := by
  have hparts : t.parts = s.parts := by rw [h.frame]
  have hpart : ∀ m, t.partOf m = s.partOf m := fun m => by
    unfold State.partOf State.inPart State.part
    rw [hparts]
  have hdenied : ∀ off len, t.stagerDenied n off len = s.stagerDenied n off len := fun off len => by
    unfold State.stagerDenied State.deniedIn State.tagAllows
    simp only [hpart, h.tagAt, h.isSealed]
  cases src with
  | vault o => exact hdenied _ _
  | spool o => rfl
  | pages b => simp only [State.sourceDenied, hdenied]

/-- A valid plane whose source may be read is staged again and stays valid. -/
theorem restages_restagePlane {k : Nat} {src : PlaneSrc} {pair : Fin 11} (h : t.restages s n) (hc : s.clean) (hk : k < 128)
    (hsrc : SMap.look none (s.arr n).planes k = some src) (hgrant : s.sourceDenied n pair src = none) :
    (t.restagePlane n (half2 (k / 64)) (k % 64) pair src).restages s n := by
  have hkey : (half2 (k / 64)).val * 64 + k % 64 = k := by unfold half2; dsimp only; omega
  obtain ⟨u, hu, hregs, hstage⟩ := stagePlane_good (s := t) (n := n) (pair := pair) (bank := half2 (k / 64)) (plane := k % 64)
    (src := src) fun p _ => (h.frame.badIn _ _).trans (hc _ _)
  have harr : ∀ m, u.arr m = t.arr m := fun m => by unfold State.arr; rw [hu.2]
  have heq : t.restagePlane n (half2 (k / 64)) (k % 64) pair src
      = u.modArr n fun a => a.withPlane pair (half2 (k / 64)) (k % 64) src (t.planeImage n pair src) := by
    unfold State.restagePlane
    rw [h.sourceDenied, hgrant, hstage]
  rw [heq]
  exact {
    frame := State.stagerOver.trans (s := u) rfl (hu.1.trans h.frame)
    regs := (hregs.trans h.regs).of_regs rfl
    others := fun m hm => by rw [arr_modArr_ne _ hm, harr, h.others m hm]
    self := by
      rw [arr_modArr_self, harr, h.self]
      rfl
    planes := fun j => by
      rw [arr_modArr_self, harr]
      unfold ArrayState.withPlane
      dsimp only
      rw [look_put, hkey, h.planes]
      split
      · next hj => rw [hj, hsrc]
      · rfl }

/-- The valid planes of a list, as array n of s shows them, staged again in turn. -/
def State.restageList (s : State) (n : ArrayNum) (t : State) (l : List Nat) : State :=
  l.foldl (fun (t : State) k =>
    match SMap.look none (s.arr n).planes k, (s.arr n).bankPair[(half2 (k / 64)).val] with
    | some src, some pair => t.restagePlane n (half2 (k / 64)) (k % 64) pair src
    | _, _ => t) t

/-- Staging every valid plane again, each from a source that may be read. -/
theorem restages_restageList (hc : s.clean) (hgrant : ∀ k src pair, k < 128 → SMap.look none (s.arr n).planes k = some src →
      (s.arr n).bankPair[(half2 (k / 64)).val] = some pair → s.sourceDenied n pair src = none) {l : List Nat} :
    ∀ {t : State}, (∀ k ∈ l, k < 128) → t.restages s n → (s.restageList n t l).restages s n := by
  induction l with
  | nil => exact fun _ h => h
  | cons k l ih =>
    intro t hl h
    obtain ⟨hk, hl⟩ := List.forall_mem_cons.mp hl
    refine ih hl ?_
    dsimp only
    split
    · next src pair hsrc hpair => exact restages_restagePlane h hc hk hsrc (hgrant k src pair hk hsrc hpair)
    · exact h

end

/-! ### The obligation -/

/-- Settles O21, event by event. -/
theorem kernelStartAndEnd : Obligations.KernelStartAndEnd := by
  intro n s
  refine ⟨fun q v hact hv => ?_, fun hend hquiet hrun hcalm => ?_, fun f hf hquiet hcalm _ => ?_,
    fun hrestaging hpower hclean hgrant => ?_, fun m faulted hm hwait htodo hend hquiet hrun => ?_⟩
  · rw [exec_arrKernelGo hact hv, State.kernelGo, hact.2.1]
    refine ⟨fun hbusy hfault => ?_, fun hbusy => ?_⟩
    · rw [hbusy, hfault]
      exact changes_modArr near_refl (fun a => a.startKernel (s.get (F.arrKernelEntryEntry n))) rfl rfl rfl
    · rw [if_pos (by rcases hbusy with h | h <;> simp [h])]
      have hbased : (s.raiseBit (F.arrStatusGoDropped n)).based s := State.raiseBit_based State.based_refl
      have h := changes_near (n := n) (v := s.raiseBit (F.arrStatusGoDropped n)) (near_of_based near_refl hbased) rfl rfl rfl
      rwa [hbased.arr] at h
  · have hexec : exec (.kernelEnd n) s = .next (s.modArr n fun a => { a with kernel := false, ending := false }) := by
      refine congrArg Host.Outcome.next ?_
      dsimp only
      rw [hend, hquiet, hrun]
      exact settle_of_calm hcalm
    rw [hexec]
    exact changes_modArr near_refl (fun a => { a with kernel := false, ending := false }) rfl rfl rfl
  · have hregs : (s.recordFault n f).near s n := near_recordFault
    have hexec : exec (.arrayFault n) s = .next (s.recordFault n f) := by
      refine congrArg Host.Outcome.next ?_
      dsimp only
      rw [hf]
      dsimp only
      rw [if_pos hquiet, noteFaulted_of_calm (hregs.congr_calm hcalm), settle_of_calm (hregs.congr_calm hcalm)]
    obtain ⟨hcode, hcls, haddr, hflag⟩ := get_recordFault (s := s) (n := n) f
    exact ⟨_, hexec, arr_recordFault, hregs.1, hregs.2, hcode, hcls, haddr, by rw [State.flag, hflag]; rfl, recordFault_entry⟩
  · have hfold := restages_restageList hclean hgrant (l := List.range 128) (t := s) (fun _ => List.mem_range.mp)
      ⟨rfl, State.sameRegs_refl, fun _ _ => rfl, rfl, fun _ => rfl⟩
    have hguard : (!(s.arr n).restaging || (s.arr n).power != .running) = false := by simp [hrestaging, hpower]
    have hexec : exec (.restageDone n) s
        = .next ((s.restageList n s (List.range 128)).modArr n fun a => { a with restaging := false }) := by
      refine congrArg Host.Outcome.next ?_
      dsimp only
      rw [hguard]
      exact if_neg Bool.false_ne_true
    refine ⟨_, hexec, ?_, fun k => ?_, ?_, ?_, ?_, fun m hm => ?_⟩
    · rw [arr_modArr_self]
    · rw [arr_modArr_self]
      exact hfold.planes k
    · rw [arr_modArr_self, hfold.self]
    · rw [arr_modArr_self, hfold.self]
    · rw [State.modArr_mem, hfold.frame]
    · rw [arr_modArr_ne _ hm]
      exact hfold.others m hm
  · generalize hv : s.modArr n (fun a => { a with kernel := false, ending := false }) = v
    have hcmds : v.spn.cmds = [m] := by rw [← hv]; exact hm
    have hparts : ∀ p, (v.part p).todo = [] := by rw [← hv]; exact htodo
    have hcmd : v.cmd m.ref = some m := by simp [State.cmd, hcmds]
    have hkernels : v.kernelsOf (BitVec.ofNat 64 (2 ^ n.val)) = 0 := kernelsOf_single (by rw [← hv, arr_modArr_self])
    have hsettle : v.settleKernels = v.complete m.ref stOk (leBytes 8 faulted.toNat) := by
      unfold State.settleKernels
      rw [hcmds, List.foldl_cons, List.foldl_nil, hwait]
      exact if_pos hkernels
    have hexec : exec (.kernelEnd n) s = .next (v.complete m.ref stOk (leBytes 8 faulted.toNat)) := by
      refine congrArg Host.Outcome.next ?_
      dsimp only
      rw [hend, hquiet, hrun, hv, ← hsettle]
      exact settle_of_calm_settleKernels (hsettle ▸ calm_complete hcmds hparts _ _)
    rw [hexec]
    exact completes_complete hcmd _ _

end Sys2Proof.Machine
end

section
/-!
PROOFS. Models and kernels (R107, R133, R210, R341): what reading an image and loading its kernels change, kernels started in
a list of arrays, and from these the obligation on MODEL_PLACE, MODEL_UNLOAD, KERNEL_RUN and KNOT_SET.
-/

namespace Sys2Proof.Machine

section
variable {r s t u : State}

/-! ### Bytes laid over memory -/

/-- Memory's bytes with a piece of bytes, at its address, laid on top. -/
def layOver (b : Nat → Byte) (k : Nat × List Byte) : Nat → Byte := fun x =>
  if k.1 ≤ x ∧ x < k.1 + k.2.length then k.2.getD (x - k.1) 0 else b x

theorem layOver_outside {b : Nat → Byte} {k : Nat × List Byte} {x : Nat} (h : ¬ (k.1 ≤ x ∧ x < k.1 + k.2.length)) :
    layOver b k x = b x := if_neg h

theorem layOver_inside {b : Nat → Byte} {k : Nat × List Byte} {x : Nat} (h : k.1 ≤ x ∧ x < k.1 + k.2.length) :
    layOver b k x = k.2.getD (x - k.1) 0 := if_pos h

/-- A byte in no piece is memory's own. -/
theorem foldl_layOver_outside {x : Nat} : ∀ {ps : List (Nat × List Byte)} {b : Nat → Byte},
    (∀ k ∈ ps, ¬ (k.1 ≤ x ∧ x < k.1 + k.2.length)) → ps.foldl layOver b x = b x
  | [], _, _ => rfl
  | _ :: _, _, h =>
    have ⟨hk, hps⟩ := List.forall_mem_cons.mp h
    (foldl_layOver_outside hps).trans (layOver_outside hk)

/-- A byte is that of the last piece that holds it. -/
theorem foldl_layOver_last {l q : List (Nat × List Byte)} {k : Nat × List Byte} {b : Nat → Byte} {x : Nat}
    (hk : k.1 ≤ x ∧ x < k.1 + k.2.length) (hq : ∀ j ∈ q, ¬ (j.1 ≤ x ∧ x < j.1 + j.2.length)) :
    (l ++ k :: q).foldl layOver b x = k.2.getD (x - k.1) 0 := by
  rw [List.foldl_append, List.foldl_cons, foldl_layOver_outside hq, layOver_inside hk]

/-! ### Loading an image's kernels -/

/-- t is s with pieces of bytes laid over memory: the commands, partitions and arrays are as before, and no word is bad. -/
structure State.loaded (t s : State) (ps : List (Nat × List Byte)) : Prop where
  spn : t.spn = s.spn
  parts : t.parts = s.parts
  arrays : t.arrays = s.arrays
  clean : t.clean
  byte : t.byte = ps.foldl layOver s.byte

theorem State.loaded.trans {ps qs : List (Nat × List Byte)} (h : t.loaded s qs) (g : s.loaded r ps) : t.loaded r (ps ++ qs) :=
  ⟨h.spn.trans g.spn, h.parts.trans g.parts, h.arrays.trans g.arrays, h.clean,
    by rw [h.byte, g.byte, List.foldl_append]⟩

theorem State.loaded.cmd {ps : List (Nat × List Byte)} (h : t.loaded s ps) (c : CmdRef) : t.cmd c = s.cmd c := by
  unfold State.cmd
  rw [h.spn]

theorem State.regsOver.loaded (h : t.regsOver s) (hc : s.clean) : t.loaded s [] := by
  rw [h]
  exact ⟨rfl, rfl, rfl, hc, rfl⟩

theorem State.stagerOver.loaded (h : t.stagerOver s) (ha : t.arrays = s.arrays) (hc : s.clean) : t.loaded s [] :=
  ⟨by rw [h], by rw [h], ha, h.clean hc, funext h.byte⟩

theorem spoolBase_above (n : ArrayNum) (off : Nat) : tierBase + tierSize ≤ spoolBase n + off := by
  have hbase : tierBase + tierSize ≤ spoolBase n := by
    unfold tierBase tierSize spoolBase
    omega
  exact Nat.le_add_right_of_le hbase

/-- A store above the tier lays its bytes over memory. -/
theorem store_loaded {a : Nat} (hc : s.clean) (ha : tierBase + tierSize ≤ a) (bs : List Byte) :
    (s.store a bs).loaded s [(a, bs)] := by
  have hover : (s.store a bs).storedOver s := store_storedOver
  refine ⟨by rw [hover], by rw [hover], by rw [hover], store_above_clean hc ha bs, funext fun x => ?_⟩
  simp only [byte_store, storable_of_clean hc, and_true, List.foldl_cons, List.foldl_nil, layOver]

theorem storeKernels_loaded (n : ArrayNum) : ∀ {ks : List (Nat × List Byte)} {s : State}, s.clean →
    (ks.foldl (fun s k => s.store (spoolBase n + k.1) k.2) s).loaded s (ks.map fun k => (spoolBase n + k.1, k.2))
  | [], _, hc => State.regsOver.loaded rfl hc
  | k :: _, _, hc =>
    have hk := store_loaded hc (spoolBase_above n k.1) k.2
    (storeKernels_loaded n hk.clean).trans hk

/-- The bytes that an image loads for one array, each piece at its address. -/
def imagePieces (x : ImageArray) : List (Nat × List Byte) := x.kernels.map fun k => (spoolBase x.array + k.1, k.2)

theorem placeArray_loaded (hc : s.clean) (x : ImageArray) : (s.placeArray x).loaded s (imagePieces x) := by
  unfold State.placeArray
  extract_lets n s1 s2
  have hregs : s2.regsOver s := set_regsOver.trans (set_regsOver.trans (set_regsOver.trans set_regsOver))
  have hs2 : s2.loaded s [] := hregs.loaded hc
  exact (storeKernels_loaded n hs2.clean).trans hs2

theorem placeArrays_loaded : ∀ {xs : List ImageArray} {s : State}, s.clean →
    (xs.foldl (fun s x => s.placeArray x) s).loaded s (xs.flatMap imagePieces)
  | [], _, hc => State.regsOver.loaded rfl hc
  | x :: _, _, hc =>
    have hx := placeArray_loaded hc x
    (placeArrays_loaded hx.clean).trans hx

/-! ### Reading an image -/

theorem spoiled_of_clean (hc : s.clean) (x : Nat) : s.spoiled x = false := by
  have hm : s.misplaced x 1 = [] := (List.append_eq_nil_iff.mp (badWords_of_clean hc x 1)).2
  simp [State.spoiled, ue_of_clean hc, hm]

/-- Without bad words, a range read through the memory's checks is its bytes. -/
theorem readThrough_good (hc : s.clean) (a n : Nat) :
    (s.readThrough a n).1.loaded s [] ∧ (s.readThrough a n).2 = s.load a n := by
  have hcor : (s.correct a n 5).readOver s := correct_based.readOver
  unfold State.readThrough
  dsimp only
  generalize s.correct a n 5 = t at hcor ⊢
  have ht : t.loaded s [] := hcor.1.loaded hcor.2 hc
  rw [badWords_of_clean ht.clean]
  refine ⟨?_, List.map_congr_left fun i _ => ?_⟩
  · have hfree : State.loaded { t with free := t.free + n } t [] := ⟨rfl, rfl, rfl, ht.clean, rfl⟩
    have hcount : (State.countRead { t with free := t.free + n } a n).readOver { t with free := t.free + n } :=
      countRead_counted.readOver
    exact (hcount.1.loaded hcount.2 hfree.clean).trans (hfree.trans ht)
  · rw [spoiled_of_clean ht.clean, if_neg Bool.false_ne_true, hcor.1.byte]

/-- Without bad words, an image is read as its block's bytes and changes no byte of memory. -/
theorem imageRead_good (hc : s.clean) (a n : Nat) :
    (s.imageRead a n).1.loaded s [] ∧ (s.imageRead a n).2 = s.blockRead a n := by
  unfold State.imageRead State.blockRead
  cases s.windowTarget a with
  | some w => exact ⟨State.regsOver.loaded rfl hc, rfl⟩
  | none => exact readThrough_good hc a n

/-! ### Starting kernels -/

/-- The entry and step registers of an array lie inside their registers and share no bit with each other. -/
theorem kernelFields_laidOut : ∀ n, n < 64 →
    (F.arrKernelEntryEntry n).fits = true ∧ (F.arrKernelStepStep n).fits = true
      ∧ (F.arrKernelStepStep n).apart (F.arrKernelEntryEntry n) = true
      ∧ (F.arrStatusFault n).fits = true ∧ (F.arrKernelEntryEntry n).apart (F.arrStatusFault n) = true
      ∧ (F.arrKernelStepStep n).apart (F.arrStatusFault n) = true := by
  decide +kernel

/-- A kernel may start in the array: it has power, is not busy and holds no fault. -/
def State.startable (s : State) (n : ArrayNum) : Prop :=
  s.powered n = true ∧ s.busy n = false ∧ s.flag (F.arrStatusFault n) = false

/-- Entry, step and go in one array (R107, R111). -/
def State.runIn (entry step : Nat) (s : State) (n : ArrayNum) : State :=
  ((s.set (F.arrKernelEntryEntry n) entry).set (F.arrKernelStepStep n) step).kernelGo n

/-- t is s with kernels started in the arrays of a list. -/
structure State.ran (t s : State) (entry step : Nat) (l : List ArrayNum) : Prop where
  arr : ∀ n ∈ l, t.arr n = (s.arr n).startKernel entry
  step : ∀ n ∈ l, t.get (F.arrKernelStepStep n) = step
  arr_ne : ∀ n, n ∉ l → t.arr n = s.arr n
  regs : t.sameRegs (fun w => ∃ n ∈ l, w = n.val) s
  frame : t = { s with arrays := t.arrays, regs := t.regs }

theorem array_outside {l : List ArrayNum} {n : ArrayNum} (h : n ∉ l) {off lo k : Nat} (hoff : off + 4 < 0x100000) :
    Fld.outside (fun w => ∃ m ∈ l, w = m.val) ⟨regKey n off, lo, k, false⟩ :=
  outside_regKey (fun ⟨_, hm, e⟩ => h (Fin.ext e ▸ hm)) hoff

theorem powered_runs (l : List ArrayNum) (h : t.sameRegs (fun w => ∃ n ∈ l, w = n.val) s) (hb : t.board = s.board) (n : ArrayNum) :
    t.powered n = s.powered n := by
  unfold State.powered State.usable State.bit
  rw [hb, h.get (f := F.mltUnusableUnusable) (outside_regKey (fun ⟨m, _, e⟩ => absurd (e ▸ m.isLt) (by decide)) (by decide))]

variable {n : ArrayNum} {entry step : Nat}

theorem kernelGo_startable (hs : s.startable n) :
    s.kernelGo n = s.modArr n fun a => a.startKernel (s.get (F.arrKernelEntryEntry n)) := by
  obtain ⟨hpow, hbusy, hfault⟩ := hs
  unfold State.kernelGo
  rw [hpow, hbusy, hfault]
  rfl

theorem State.regsOver.arrays (h : t.regsOver s) : t.arrays = s.arrays := by rw [h]

theorem busy_of_arr (h : t.arr n = s.arr n) : t.busy n = s.busy n := by
  unfold State.busy
  rw [h]

theorem arr_of_arrays (h : t.arrays = s.arrays) (m : ArrayNum) : t.arr m = s.arr m := by
  unfold State.arr
  rw [h]

/-- What setting the entry and the step of an array leaves (R111). -/
theorem kernelFields_set (hs : s.startable n) (hentry : entry < 2 ^ 23) (hstep : step < 2 ^ 32) :
    let v := (s.set (F.arrKernelEntryEntry n) entry).set (F.arrKernelStepStep n) step
    v.startable n ∧ v.get (F.arrKernelEntryEntry n) = entry ∧ v.get (F.arrKernelStepStep n) = step
      ∧ v.regsOver s ∧ v.sameRegs (fun w => ∃ m ∈ [n], w = m.val) s := by
  intro v
  obtain ⟨hpow, hbusy, hfault⟩ := hs
  obtain ⟨hfe, hfs, hse, hff, hef, hsf⟩ := kernelFields_laidOut n n.isLt
  have hwe : entry < 2 ^ (F.arrKernelEntryEntry n).width := hentry
  have hws : step < 2 ^ (F.arrKernelStepStep n).width := hstep
  have hwin : ∀ {off lo k : Nat}, off + 4 < 0x100000 → Fld.within (fun w => ∃ m ∈ [n], w = m.val) ⟨regKey n off, lo, k, false⟩ :=
    within_regKey ⟨n, List.mem_singleton.mpr rfl, rfl⟩
  have hover : v.regsOver s := set_regsOver.trans set_regsOver
  have hsame : v.sameRegs (fun w => ∃ m ∈ [n], w = m.val) s :=
    (set_sameRegs (hwin (by decide))).trans (set_sameRegs (hwin (by decide)))
  refine ⟨⟨(powered_runs [n] hsame (by rw [hover]) n).trans hpow, (busy_of_arr (arr_of_arrays hover.arrays n)).trans hbusy, ?_⟩, ?_, ?_, hover, hsame⟩
  · rw [← hfault]
    exact congrArg (· != 0) ((get_set_apart hff hsf _).trans (get_set_apart hff hef _))
  · exact (get_set_apart hfe hse _).trans ((get_set_self hfe _).trans (Nat.mod_eq_of_lt hwe))
  · exact (get_set_self hfs _).trans (Nat.mod_eq_of_lt hws)

/-- A go, once entry and step are set, starts the kernel. -/
theorem kernelGo_ran {v : State} (hstart : v.startable n) (hget : v.get (F.arrKernelEntryEntry n) = entry)
    (hstep : v.get (F.arrKernelStepStep n) = step) (hover : v.regsOver s)
    (hsame : v.sameRegs (fun w => ∃ m ∈ [n], w = m.val) s) : (v.kernelGo n).ran s entry step [n] := by
  rw [kernelGo_startable hstart, hget]
  have harr : ∀ m, v.arr m = s.arr m := arr_of_arrays hover.arrays
  refine ⟨fun m hm => ?_, fun m hm => ?_, fun m hm => ?_, hsame.of_regs rfl, ?_⟩
  · rw [List.mem_singleton.mp hm, arr_modArr_self, harr]
  · rw [List.mem_singleton.mp hm, get_modArr, hstep]
  · rw [arr_modArr_ne _ (fun e => hm (List.mem_singleton.mpr e)), harr]
  · exact congrArg (fun x : State => { x with arrays := (v.modArr n fun a => a.startKernel entry).arrays, regs := v.regs }) hover

/-- A kernel starts in an array that may start one. -/
theorem runIn_ran (hs : s.startable n) (hentry : entry < 2 ^ 23) (hstep : step < 2 ^ 32) :
    (s.runIn entry step n).ran s entry step [n] :=
  have ⟨hstart, hget, hgetStep, hover, hsame⟩ := kernelFields_set hs hentry hstep
  kernelGo_ran hstart hget hgetStep hover hsame

theorem State.ran.startable {l : List ArrayNum} (h : t.ran s entry step l) (hn : n ∉ l) (hs : s.startable n) : t.startable n := by
  obtain ⟨hpow, hbusy, hfault⟩ := hs
  refine ⟨(powered_runs l h.regs (by rw [h.frame]) n).trans hpow, (busy_of_arr (h.arr_ne n hn)).trans hbusy, ?_⟩
  rw [← hfault]
  exact congrArg (· != 0) (h.regs.get (array_outside hn (by decide)))

/-- Starting kernels in one array and then in others of a list. -/
theorem State.ran.cons {l : List ArrayNum} (hn : n ∉ l) (h : t.ran s entry step l) (g : s.ran r entry step [n]) :
    t.ran r entry step (n :: l) := by
  have hne : ∀ m ∈ l, m ∉ [n] := fun m hm e => hn (List.mem_singleton.mp e ▸ hm)
  refine ⟨List.forall_mem_cons.mpr ⟨?_, fun m hm => ?_⟩, List.forall_mem_cons.mpr ⟨?_, h.step⟩, fun m hm => ?_, ?_, ?_⟩
  · rw [h.arr_ne n hn, g.arr n (List.mem_singleton.mpr rfl)]
  · rw [h.arr m hm, g.arr_ne m (hne m hm)]
  · exact (h.regs.get (array_outside hn (by decide))).trans (g.step n (List.mem_singleton.mpr rfl))
  · obtain ⟨hmn, hml⟩ := not_or.mp (mt List.mem_cons.mpr hm)
    rw [h.arr_ne m hml, g.arr_ne m (fun e => hmn (List.mem_singleton.mp e))]
  · intro x hx
    refine (h.regs x fun ⟨m, hm, e⟩ => hx ⟨m, List.mem_cons_of_mem _ hm, e⟩).trans (g.regs x fun ⟨m, hm, e⟩ => hx ?_)
    exact ⟨m, List.mem_singleton.mp hm ▸ List.mem_cons_self .., e⟩
  · exact h.frame.trans (congrArg (fun x : State => { x with arrays := t.arrays, regs := t.regs }) g.frame)

/-- Kernels start in a list of different arrays that may start one. -/
theorem foldl_runIn_ran (hentry : entry < 2 ^ 23) (hstep : step < 2 ^ 32) : ∀ {l : List ArrayNum} {s : State}, l.Nodup →
    (∀ n ∈ l, s.startable n) → (l.foldl (State.runIn entry step) s).ran s entry step l
  | [], _, _, _ => ⟨nofun, nofun, fun _ _ => rfl, State.sameRegs_refl, rfl⟩
  | _ :: _, _, hd, hs => by
    obtain ⟨hn, hl⟩ := List.nodup_cons.mp hd
    obtain ⟨hsn, hsl⟩ := List.forall_mem_cons.mp hs
    have hone := runIn_ran hsn hentry hstep
    refine (foldl_runIn_ran hentry hstep hl fun m hm => ?_).cons hn hone
    exact hone.startable (fun e => hn (List.mem_singleton.mp e ▸ hm)) (hsl m hm)

end

/-! ### The obligation -/

section
variable {s : State} {c : CmdRef} {m : Cmd} {p : PartNum}

/-- An image that lies in the partition's granules or in its host window may be read by MODEL_PLACE. -/
theorem placeMay {a n : Nat} (hn : 0 < n)
    (h : s.ownsAll p a n = true ∨ (s.isSealed p = false ∧ s.inHostWindow p a n = true)) :
    (s.isSealed p && !s.ownsAll p a (max 1 n)) = false
      ∧ ¬ (n = 0 ∨ (s.ownsAll p a (max 1 n) = false ∧ s.inHostWindow p a n = false)) := by
  rw [Nat.max_eq_right hn]
  obtain hown | ⟨hsealed, hwin⟩ := h
  · simp [hown, hn.ne']
  · simp [hsealed, hwin, hn.ne']

/-- Whether an image names an array that is not usable (R341). -/
def State.imageNeedsBad (s : State) (p : PartNum) (image : ModelImage) : Bool :=
  (image.arrays.any fun x => !s.usable x.array) ||
    allArrays.any fun (k : ArrayNum) => image.usableMap.getLsbD k && s.inPart p k && !s.usable k

theorem imageNeedsBad_iff {image : ModelImage} : s.imageNeedsBad p image = true ↔
    (∃ x ∈ image.arrays, s.usable x.array = false)
      ∨ ∃ k : ArrayNum, image.usableMap.getLsbD k = true ∧ s.inPart p k = true ∧ s.usable k = false := by
  simp [State.imageNeedsBad, allArrays, and_assoc]

/-- The model that MODEL_PLACE records (R210, R341). -/
def placedModel (image : ModelImage) (bytes : List Byte) : Model where
  arrays := BitVec.ofNat 64 (mapOf (image.arrays.map (·.array)).dedup)
  vocab := image.vocab
  logitsFp32 := image.logitsFp32
  slices := image.slices
  kernels := (image.arrays.map fun x => x.kernels.map fun k => (x.array, k.1, k.2.length)).flatten
  digest := Config.sha384 bytes

/-- MODEL_PLACE, started with an image that it may read (R341). -/
theorem exec_modelPlace {image : ModelImage} (h : s.Started c 0x0305 m) (hp : m.part? = some p) (hn : 0 < m.arg 16 4)
    (hmay : s.ownsAll p (m.arg 8 8) (m.arg 16 4) = true
      ∨ (s.isSealed p = false ∧ s.inHostWindow p (m.arg 8 8) (m.arg 16 4) = true)) :
    exec (.modelPlace c image) s = .next (
      if s.imageNeedsBad p image then s.complete c stUnusable
      else if image.usableMap.toNat ≠ mapOf (s.arraysOf p) ∨ s.imageOk p image = false then s.complete c stBad
      else if !(image.arrays.all fun x => s.kvFits p x) then s.complete c stKv
      else if (s.arraysOf p).any fun k => s.busy k then s.complete c stBusy
      else
        ((image.arrays.foldl (fun s x => s.placeArray x) (s.imageRead (m.arg 8 8) (m.arg 16 4)).1).modPart p fun t =>
          { t with model := some (placedModel image (s.imageRead (m.arg 8 8) (m.arg 16 4)).2) }).complete c stOk
            (leBytes 8 (mapOf (image.arrays.map (·.array)).dedup))) := by
  obtain ⟨hseal, hform⟩ := placeMay hn hmay
  refine (congrArg Host.Outcome.next (runPart_started h hp _)).trans ?_
  dsimp only
  rw [hseal, if_neg Bool.false_ne_true, if_neg hform]
  rfl

/-- KERNEL_RUN, started in its form (R341). -/
theorem exec_kernelRun (h : s.Started c 0x0307 m) (hp : m.part? = some p) (hmask : BitVec.ofNat 64 (m.arg 8 8) ≠ 0)
    (halign : m.arg 16 4 % 16 = 0) (hlast : m.arg 16 4 ≤ 0x7FFFF0) {ns : List ArrayNum}
    (hns : allArrays.filter (fun n : ArrayNum => (BitVec.ofNat 64 (m.arg 8 8)).getLsbD n) = ns) :
    exec (.kernelRun c) s = .next (
      if ns.any fun n => !s.inPart p n then s.complete c stDenied
      else if ns.any fun n => !s.usable n then s.complete c stUnusable
      else if ns.any fun n => s.busy n || s.flag (F.arrStatusFault n) then s.complete c stBusy
      else (ns.foldl (State.runIn (m.arg 16 4) (m.arg 20 4)) s).park c (.kernels (BitVec.ofNat 64 (m.arg 8 8)) 0)) := by
  refine (congrArg Host.Outcome.next (runPart_started h hp _)).trans ?_
  dsimp only
  rw [if_neg (not_or.mpr ⟨hmask, not_or.mpr ⟨not_not.mpr halign, Nat.not_lt.mpr hlast⟩⟩), hns]
  rfl

end

/-- Settles O38, command by command. -/
theorem modelsAndKernelsRun : Obligations.ModelsAndKernelsRun := by
  intro s c m p hp _
  refine ⟨fun image h => ?_, fun h => ?_, fun h => ?_, fun h n hn => ?_⟩
  · intro a n needsBad hn hmay
    rw [exec_modelPlace h hp hn hmay]
    have hbad : s.imageNeedsBad p image = true ↔ needsBad := imageNeedsBad_iff
    refine ⟨fun hb => ?_, fun hb hmap hok hkv hbusy hclean => ?_⟩
    · rw [if_pos (hbad.mpr hb)]
      exact completes_complete h.1 _ _
    · have hkv' : (image.arrays.all fun x => s.kvFits p x) = true := List.all_eq_true.mpr hkv
      have hbusy' : ((s.arraysOf p).any fun k => s.busy k) = false := by simpa using hbusy
      rw [if_neg (mt hbad.mp hb), if_neg (by simp [hmap, hok]), hkv', hbusy', if_neg (by decide), if_neg Bool.false_ne_true]
      obtain ⟨hread, hbytes⟩ := imageRead_good hclean a n
      have hplaced := (placeArrays_loaded (xs := image.arrays) hread.clean).trans hread
      rw [hbytes]
      refine ⟨_, completes_complete (m := m) ?_ _ _, ?_, fun q hq => ?_, hplaced.arrays, fun x hx => ?_, ?_⟩
      · exact (hplaced.cmd c).trans h.1
      · rw [part_modPart_self]
        rfl
      · rw [part_modPart_ne _ hq]
        unfold State.part
        rw [hplaced.parts]
      · exact (congrFun hplaced.byte x).trans (foldl_layOver_outside hx)
      · intro l k q hps x hlo hhi hq
        refine (congrFun hplaced.byte x).trans ?_
        rw [List.nil_append]
        exact (congrArg (fun ps => ps.foldl layOver s.byte x) hps).trans (foldl_layOver_last ⟨hlo, hhi⟩ hq)
  · intro idle
    have hexec : exec (.modelUnload c) s = .next _ := congrArg Host.Outcome.next (runPart_started h hp _)
    rw [hexec]
    have hidle : (((s.seqRange p).any fun i => (s.request i).isSome) || ((s.arraysOf p).any fun n => (s.arr n).kernel)) = false
        ↔ idle := by
      simp [idle]
    refine ⟨fun hi => ?_, fun hi => ?_⟩
    · rw [hidle.mpr hi]
      exact completes_complete (u := s.modPart p _) h.1 _ _
    · rw [Bool.eq_true_of_not_eq_false (mt hidle.mp hi)]
      exact completes_complete h.1 _ _
  · intro mask entry named hmask halign hlast
    have hmem : ∀ k, k ∈ allArrays.filter (fun k : ArrayNum => mask.getLsbD k) ↔ named k := by simp [named, allArrays]
    have hnodup : (allArrays.filter fun k : ArrayNum => mask.getLsbD k).Nodup := (List.nodup_finRange 64).filter _
    rw [exec_kernelRun h hp hmask halign hlast rfl]
    generalize allArrays.filter (fun k : ArrayNum => mask.getLsbD k) = ns at hmem hnodup
    refine ⟨fun ⟨k, hk, hout⟩ => ?_, fun hall => ?_⟩
    · rw [if_pos (List.any_eq_true.mpr ⟨k, (hmem k).mpr hk, by rw [hout]; rfl⟩)]
      exact completes_complete h.1 _ _
    · have hstart : ∀ k ∈ ns, s.startable k := fun k hk => (hall k ((hmem k).mp hk)).2
      have hin : (ns.any fun k => !s.inPart p k) = false := by
        simpa using fun k hk => (hall k ((hmem k).mp hk)).1
      have husable : (ns.any fun k => !s.usable k) = false := by
        simpa using fun k hk => (Bool.and_eq_true_iff.mp (hstart k hk).1).1
      have hcalm : (ns.any fun k => s.busy k || s.flag (F.arrStatusFault k)) = false := by
        simpa using fun k hk => (hstart k hk).2
      have hran := foldl_runIn_ran (s := s) (entry := entry) (step := m.arg 20 4)
        (hlast.trans_lt (by decide)) (arg_lt 20 4) hnodup hstart
      rw [hin, husable, hcalm]
      refine ⟨_, waits_park (m := m) ?_ _, fun k hk => ?_, fun k hk => ?_, hran.frame⟩
      · rw [hran.frame]
        exact h.1
      · exact ⟨hran.arr k ((hmem k).mpr hk), hran.step k ((hmem k).mpr hk)⟩
      · exact hran.arr_ne k (mt (hmem k).mp hk)
  · have hexec : exec (.knotSet c) s = .next _ := congrArg Host.Outcome.next (runPart_started h hp _)
    rw [hexec]
    dsimp only
    rw [hn, allArrays_get]
    dsimp only
    refine ⟨fun hin hus hb => ?_, fun hin => ?_, fun hin hus hb => ?_⟩
    · rw [hin, hus, hb]
      have hknot : s.setKnot n (m.arg 8 4 % 2048) (BitVec.ofNat 32 (m.arg 12 4))
          = s.modArr n fun a => { a with knots := SMap.put 0 a.knots (m.arg 8 4 % 2048) (BitVec.ofNat 32 (m.arg 12 4)) } := by
        unfold State.setKnot
        rw [Nat.mod_mod]
      rw [← hknot]
      exact completes_complete (u := s.setKnot ..) h.1 _ _
    · rw [hin]
      exact completes_complete h.1 _ _
    · rw [hin, hus, hb]
      exact completes_complete h.1 _ _

end Sys2Proof.Machine
end

section
/-!
PROOFS. Held kwaits (R109, R131, R132): what kwaitSatisfied and knotTimeout do while an array holds a kwait, and from these the
obligations on a kwait's end and on its wrapping order.
-/

namespace Sys2Proof.Machine

section
variable {s : State} {n : ArrayNum} {w : Kwait}

theorem reached_iff {knot v : Word} : reached knot v = true ↔ (knot - v).toNat < 2 ^ 31 := decide_eq_true_iff

/-- A held kwait may complete: its timeout has not counted out with its condition false, and its array runs (R131, R132). -/
def State.kwaitRuns (s : State) (n : ArrayNum) (w : Kwait) : Prop :=
  w.expired = false ∧ (s.arr n).power = .running ∧ (s.arr n).clockHold = 0 ∧ (s.arr n).restaging = false

/-- A kwait that may complete and has its condition is released, and the array moves on. -/
theorem exec_kwaitSatisfied_releases (hw : (s.arr n).kwait = some w) (hrun : s.kwaitRuns n w)
    (hreach : reached (s.knot n w.knot) w.value = true) :
    exec (.kwaitSatisfied n) s
      = .next (s.modArr n fun a => ArrayState.past s.time { a with kwait := none }) := by
  have hrow : exec (.kwaitSatisfied n) s = .next ((s.modArr n fun a => { a with kwait := none }).advance n) := by
    change execKwaitSatisfied n s = _
    rw [execKwaitSatisfied, hw]
    exact congrArg Host.Outcome.next (if_pos ⟨hreach, hrun⟩)
  rw [hrow, advance_eq, modArr_modArr, State.modArr_time]

/-- A kwait that has run out, or has not reached its value, stays as it is. -/
theorem exec_kwaitSatisfied_holds (hw : (s.arr n).kwait = some w)
    (h : w.expired = true ∨ reached (s.knot n w.knot) w.value = false) : exec (.kwaitSatisfied n) s = .next s := by
  change execKwaitSatisfied n s = _
  rw [execKwaitSatisfied, hw]
  exact congrArg Host.Outcome.next (if_neg fun ⟨hreach, hexp, _⟩ => by rcases h with h | h <;> simp_all)

/-- A kwait whose timeout has counted out with its condition false faults with its knot's number. -/
theorem exec_knotTimeout_faults (hw : (s.arr n).kwait = some w) (ht : w.timeout ≠ 0) (hc : w.timeout.toNat ≤ w.counted)
    (h : w.expired = true ∨ reached (s.knot n w.knot) w.value = false) :
    exec (.knotTimeout n) s = .next (s.modArr n fun a =>
      ArrayState.faulted s.time 0x09 0 (n.val * 2048 + w.knot) { a with kwait := none }) := by
  have hrow : exec (.knotTimeout n) s = .next ((s.modArr n fun a => { a with kwait := none }).detect n
      ⟨9, 0, (s.arr n).pc, n.val * 2048 + w.knot⟩) := by
    change execKnotTimeout n s = _
    rw [execKnotTimeout, hw]
    exact congrArg Host.Outcome.next (if_pos ⟨ht, hc, h⟩)
  rw [hrow, detect_faulted (by rw [arr_modArr_self]), modArr_modArr, State.modArr_time]

/-- A kwait that has its condition does not run out: the condition wins a tie (R132). -/
theorem exec_knotTimeout_holds (hw : (s.arr n).kwait = some w) (hexp : w.expired = false)
    (hreach : reached (s.knot n w.knot) w.value = true) : exec (.knotTimeout n) s = .next s := by
  change execKnotTimeout n s = _
  rw [execKnotTimeout, hw]
  exact congrArg Host.Outcome.next (if_neg fun ⟨_, _, h⟩ => by rcases h with h | h <;> simp_all)

/-- Moving on leaves the held kwait and the knots of an array. -/
theorem past_keeps (a : ArrayState) (now : DWord) : (a.past now).kwait = a.kwait ∧ (a.past now).knots = a.knots := by
  unfold ArrayState.past
  split
  · split <;> exact ⟨rfl, rfl⟩
  · exact ⟨rfl, rfl⟩

/-- A change of an array that keeps its knots keeps every knot. -/
theorem knot_modArr {f : ArrayState → ArrayState} (hf : (f (s.arr n)).knots = (s.arr n).knots) (m : ArrayNum) (j : Nat) :
    (s.modArr n f).knot m j = s.knot m j := by
  unfold State.knot
  by_cases hm : m = n
  · rw [hm, arr_modArr_self, hf]
  · rw [arr_modArr_ne _ hm]

end

/-- Settles O9, by the kwait's state and its condition. -/
theorem heldKwaitEnds : Obligations.HeldKwaitEnds := by
  intro n s w hw
  refine ⟨fun hexp hreach hpower hclock hstage => ?_, fun hexp => exec_kwaitSatisfied_holds hw (.inl hexp),
    fun ht hc hout => ?_, fun hexp hreach => exec_knotTimeout_holds hw hexp (reached_iff.mpr hreach)⟩
  · rw [exec_kwaitSatisfied_releases hw ⟨hexp, hpower, hclock, hstage⟩ (reached_iff.mpr hreach)]
    exact changes_modArr near_refl _ rfl rfl rfl
  · rw [exec_knotTimeout_faults hw ht hc (hout.imp_right fun h => Bool.eq_false_iff.mpr (mt reached_iff.mp h))]
    exact changes_modArr near_refl _ rfl rfl rfl

/-- Settles O10: the same step, seen from the knots. -/
theorem kwaitsReachInWrappingOrder : Obligations.KwaitsReachInWrappingOrder := by
  intro n s w hw hexp hpower hclock hstage
  refine ⟨fun hreach => ⟨_, exec_kwaitSatisfied_releases hw ⟨hexp, hpower, hclock, hstage⟩ (reached_iff.mpr hreach),
    ?_, ?_, knot_modArr (past_keeps _ _).2⟩, fun hout => ?_⟩
  · rw [arr_modArr_self, (past_keeps _ _).1]
  · rw [arr_modArr_self, pc_past, pc_past]
  · exact exec_kwaitSatisfied_holds hw (.inr (Bool.eq_false_iff.mpr (mt reached_iff.mp hout)))

end Sys2Proof.Machine
end

section
/-!
PROOFS. The lines that remote operations in flight leave open (R124, R125): what a free choice of lines changes, and that a line
which no other operation touches leaves nothing to choose.
-/

namespace Sys2Proof.Machine

/-! ### Orders of operations -/

section
variable {α : Type}

theorem mem_insertions {x : α} : ∀ {l o : List α}, o ∈ insertions x l → ∀ q ∈ o, q = x ∨ q ∈ l
  | [], o, ho, q, hq => by
    rw [List.mem_singleton.mp ho] at hq
    exact .inl (List.mem_singleton.mp hq)
  | y :: l, o, ho, q, hq => by
    rcases List.mem_cons.mp ho with rfl | ho
    · exact List.mem_cons.mp hq
    · obtain ⟨o', ho', rfl⟩ := List.mem_map.mp ho
      rcases List.mem_cons.mp hq with rfl | hq
      · exact .inr (List.mem_cons_self ..)
      · exact (mem_insertions ho' q hq).imp_right (List.mem_cons_of_mem _)

/-- An arrangement of a list holds elements of the list only. -/
theorem mem_arrangements : ∀ {l o : List α}, o ∈ arrangements l → ∀ q ∈ o, q ∈ l
  | [], o, ho, q, hq => by
    rw [List.mem_singleton.mp ho] at hq
    exact hq
  | x :: l, o, ho, q, hq => by
    rcases List.mem_append.mp ho with ho | ho
    · exact List.mem_cons_of_mem _ (mem_arrangements ho q hq)
    · obtain ⟨o', ho', hins⟩ := List.mem_flatMap.mp ho
      rcases mem_insertions hins q hq with rfl | hq
      · exact List.mem_cons_self ..
      · exact List.mem_cons_of_mem _ (mem_arrangements ho' q hq)

theorem nil_mem_arrangements : ∀ l : List α, [] ∈ arrangements l
  | [] => List.mem_singleton_self _
  | _ :: l => List.mem_append_left _ (nil_mem_arrangements l)

end

/-! ### Choices -/

section
variable {s t : State} {n : ArrayNum} {op : RmoOp} {opts : List (List Byte)} {k : Nat}

/-- t is s but for the counter of draws. -/
def State.drawsOver (t s : State) : Prop := t = { s with free := t.free }

theorem State.drawsOver.trans {r : State} (h : t.drawsOver s) (g : s.drawsOver r) : t.drawsOver r :=
  Eq.trans h (congrArg (fun x : State => { x with free := t.free }) g)

theorem choose_drawsOver : (s.choose opts).1.drawsOver s := by
  unfold State.choose
  split <;> rfl

/-- What is chosen is one of the options, or nothing. -/
theorem choose_mem : (s.choose opts).2 = [] ∨ (s.choose opts).2 ∈ opts := by
  unfold State.choose
  split
  · exact .inl rfl
  · next x h => exact .inr (List.mem_dedup.mp (h ▸ List.mem_singleton_self x))
  · next l _ _ =>
    dsimp only
    rw [List.getD_eq_getElem?_getD]
    cases h : opts.dedup[(Config.freeWord s.free).toNat % opts.dedup.length]? with
    | none => exact .inl rfl
    | some x => exact .inr (List.mem_dedup.mp (List.mem_of_getElem? h))

/-- Options that agree leave nothing to choose. -/
theorem choose_const {x : List Byte} (hne : opts ≠ []) (h : ∀ o ∈ opts, o = x) : s.choose opts = (s, x) := by
  have hdedup : opts.dedup = [x] := by
    rw [List.eq_replicate_of_mem h, List.replicate_dedup (mt List.length_eq_zero_iff.mp hne)]
  unfold State.choose
  rw [hdedup]

/-- A choice for each of k lines in turn. -/
def State.chooseLines (s : State) (opts : Nat → List (List Byte)) (k : Nat) : State × List Byte :=
  (List.range k).foldl (fun (acc : State × List Byte) i =>
    ((acc.1.choose (opts i)).1, acc.2 ++ (acc.1.choose (opts i)).2)) (s, [])

variable {lines : Nat → List (List Byte)}

theorem chooseLines_succ : s.chooseLines lines (k + 1)
    = (((s.chooseLines lines k).1.choose (lines k)).1,
        (s.chooseLines lines k).2 ++ ((s.chooseLines lines k).1.choose (lines k)).2) := by
  unfold State.chooseLines
  rw [List.range_succ, List.foldl_append]
  rfl

theorem chooseLines_drawsOver : (s.chooseLines lines k).1.drawsOver s := by
  induction k with
  | zero => rfl
  | succ k ih =>
    rw [chooseLines_succ]
    exact choose_drawsOver.trans ih

/-- Options of at most 64 bytes make up at most 64 bytes a line. -/
theorem length_chooseLines (h : ∀ i, ∀ o ∈ lines i, o.length ≤ 64) : (s.chooseLines lines k).2.length ≤ 64 * k := by
  induction k with
  | zero => exact Nat.le_refl 0
  | succ k ih =>
    have hline : ((s.chooseLines lines k).1.choose (lines k)).2.length ≤ 64 := by
      rcases choose_mem (s := (s.chooseLines lines k).1) (opts := lines k) with hnil | hmem
      · rw [hnil]
        exact Nat.zero_le 64
      · exact h k _ hmem
    rw [chooseLines_succ, List.length_append]
    omega

/-- Lines whose options agree are the string whose lines they are. -/
theorem chooseLines_const {bs : List Byte} (h : ∀ i < k, lines i ≠ [] ∧ ∀ o ∈ lines i, o = lineOf bs i) :
    s.chooseLines lines k = (s, bs.take (64 * k)) := by
  induction k with
  | zero => rfl
  | succ k ih =>
    obtain ⟨hne, hall⟩ := h k (Nat.lt_succ_self k)
    rw [chooseLines_succ, ih fun i hi => h i (Nat.lt_succ_of_lt hi), choose_const hne hall, Nat.mul_succ, List.take_add]
    rfl

/-! ### Lines of at most 64 bytes -/

theorem length_lineOf (bs : List Byte) (i : Nat) : (lineOf bs i).length ≤ 64 := List.length_take_le ..

theorem length_words32 (bs : List Byte) : (words32 bs).length = bs.length / 4 := by simp [words32]

theorem length_atomicSums (fp : Bool) (target loc : List Byte) :
    (atomicSums fp target loc).length = 4 * min (target.length / 4) (loc.length / 4) := by
  simp only [atomicSums, List.length_flatMap, length_leBytes, List.map_const', List.sum_replicate, List.length_zipWith,
    length_words32, smul_eq_mul, Nat.mul_comm]

theorem length_load (a k : Nat) : (s.load a k).length = k := by simp [State.load]

theorem length_remoteLoad (a k : Nat) : (s.remoteLoad a k).length = k := by
  unfold State.remoteLoad
  split
  · simp [State.pcieLoad, SMap.slice]
  · exact length_load _ _

theorem length_afterLater {a : Nat} {line : List Byte} (h : line.length ≤ 64) :
    (s.afterLater n a line op).length ≤ 64 := by
  unfold State.afterLater
  dsimp only
  split
  · exact h
  · split
    · rw [length_atomicSums]
      omega
    · rw [length_remoteLoad]

/-- A line that a later operation does not write stays as it is. -/
theorem afterLater_apart {a : Nat} {line : List Byte}
    (h : op.failed.isSome = true ∨ a < op.dst n ∨ op.dst n + 64 * op.lines < a + 64) : s.afterLater n a line op = line :=
  if_pos h

/-! ### The lines of an operation -/

/-- The options for line i of an operation's source (R124, R125). -/
def State.sourceOptions (s : State) (n : ArrayNum) (op : RmoOp) (now : List Byte) (i : Nat) : List (List Byte) :=
  ([lineOf now i] ++ if op.early.isEmpty then [] else [lineOf op.early i]).flatMap fun l =>
    (arrangements (s.arr n).rmoQ).map fun o => o.foldl (fun x q => s.afterLater n (op.src n + 64 * i) x q) l

theorem sourceLines_eq (now : List Byte) : s.sourceLines n op now =
    if op.early.isEmpty && (s.arr n).rmoQ.isEmpty then (s, now)
    else s.chooseLines (s.sourceOptions n op now) (now.length / 64) := rfl

theorem sourceLines_drawsOver {now : List Byte} : (s.sourceLines n op now).1.drawsOver s := by
  rw [sourceLines_eq]
  split
  · rfl
  · exact chooseLines_drawsOver

theorem length_sourceOptions {now o : List Byte} {i : Nat} (ho : o ∈ s.sourceOptions n op now i) : o.length ≤ 64 := by
  obtain ⟨l, hl, ho⟩ := List.mem_flatMap.mp ho
  obtain ⟨qs, -, rfl⟩ := List.mem_map.mp ho
  have hline : l.length ≤ 64 := by
    rcases List.mem_append.mp hl with hl | hl
    · rw [List.mem_singleton.mp hl]
      exact length_lineOf ..
    · split at hl
      · cases hl
      · rw [List.mem_singleton.mp hl]
        exact length_lineOf ..
  exact List.foldlRecOn (motive := fun x : List Byte => x.length ≤ 64) qs _ hline fun _ hx _ _ => length_afterLater hx

/-- An operation's source is never longer than what it reads. -/
theorem length_sourceLines (now : List Byte) : (s.sourceLines n op now).2.length ≤ now.length := by
  rw [sourceLines_eq]
  split
  · exact Nat.le_refl _
  · exact (length_chooseLines fun _ _ => length_sourceOptions).trans (Nat.mul_div_le _ _)

/-- No other operation in flight with this one could change its lines: none was at its issue, and none behind it writes where it
reads (R124, R125). -/
def RmoOp.alone (op : RmoOp) (n : ArrayNum) (rest : List RmoOp) : Prop :=
  op.early = [] ∧ op.under = [] ∧ ∀ q ∈ rest, q.failed.isSome = true ∨ op.src n + 64 * op.lines ≤ q.dst n
    ∨ q.dst n + 64 * q.lines ≤ op.src n

/-- The source of an operation that is alone is what it reads. -/
theorem sourceLines_alone {now : List Byte} (h : op.alone n (s.arr n).rmoQ) (hlen : now.length = 64 * k) (hk : k ≤ op.lines) :
    s.sourceLines n op now = (s, now) := by
  obtain ⟨hearly, -, hrest⟩ := h
  have hoptions : ∀ i < k, s.sourceOptions n op now i ≠ [] ∧ ∀ o ∈ s.sourceOptions n op now i, o = lineOf now i := by
    intro i hi
    have hapart : ∀ q ∈ (s.arr n).rmoQ, ∀ x, s.afterLater n (op.src n + 64 * i) x q = x := fun q hq x =>
      afterLater_apart ((hrest q hq).imp_right fun h => by omega)
    unfold State.sourceOptions
    rw [hearly]
    refine ⟨List.ne_nil_of_mem (List.mem_flatMap.mpr
      ⟨_, List.mem_cons_self .., List.mem_map.mpr ⟨_, nil_mem_arrangements _, rfl⟩⟩), fun o ho => ?_⟩
    obtain ⟨l, hl, ho⟩ := List.mem_flatMap.mp ho
    obtain ⟨qs, hqs, rfl⟩ := List.mem_map.mp ho
    rw [List.mem_singleton.mp hl]
    exact List.foldlRecOn (motive := (· = lineOf now i)) qs _ rfl fun x hx q hq =>
      (hapart q (mem_arrangements hqs q hq) x).trans hx
  rw [sourceLines_eq]
  split
  · rfl
  · rw [hlen, Nat.mul_div_cancel_left _ (by decide), chooseLines_const hoptions, ← hlen, List.take_length]

/-- The options for line i of an operation's target (R124, R125). -/
def RmoOp.targetOptions (op : RmoOp) (n : ArrayNum) (old new : List Byte) (i : Nat) : List (List Byte) :=
  lineOf new i :: (op.under.filter fun v => v.has (op.dst n + 64 * i)).filterMap fun v =>
    if v.add.isEmpty then some (lineOf old i)
    else if op.kind = .atomicAdd then none
    else some (atomicSums v.fp (lineOf new i) ((v.add.drop (op.dst n + 64 * i - v.dst)).take 64))

theorem targetLines_eq (old new : List Byte) : s.targetLines n op old new =
    if op.under.isEmpty then (s, new) else s.chooseLines (op.targetOptions n old new) (new.length / 64) := rfl

theorem targetLines_drawsOver {old new : List Byte} : (s.targetLines n op old new).1.drawsOver s := by
  rw [targetLines_eq]
  split
  · rfl
  · exact chooseLines_drawsOver

theorem length_targetOptions {old new o : List Byte} {i : Nat} (ho : o ∈ op.targetOptions n old new i) : o.length ≤ 64 := by
  rcases List.mem_cons.mp ho with rfl | ho
  · exact length_lineOf ..
  · obtain ⟨v, -, hv⟩ := List.mem_filterMap.mp ho
    split at hv
    · cases hv
      exact length_lineOf ..
    · split at hv
      · cases hv
      · cases hv
        have := length_lineOf new i
        rw [length_atomicSums]
        omega

/-- What reaches an operation's target is never longer than its own lines. -/
theorem length_targetLines (old new : List Byte) : (s.targetLines n op old new).2.length ≤ new.length := by
  rw [targetLines_eq]
  split
  · exact Nat.le_refl _
  · exact (length_chooseLines fun _ _ => length_targetOptions).trans (Nat.mul_div_le _ _)

theorem targetLines_alone {old new : List Byte} (h : op.under = []) : s.targetLines n op old new = (s, new) := by
  rw [targetLines_eq, h]
  rfl

end

end Sys2Proof.Machine
end

section
/-!
PROOFS. The parts of a remote operation's completion (R114, R118, R123, R126, R130, R136): what each leaves alone, and what it
stores and where.
-/

namespace Sys2Proof.Machine

/-! ### What a completion leaves alone -/

/-- t shows s's memory and its error words, the memory behind the ports, and every array's remote operations and knots: what
reading, counting, reporting and choosing leave. -/
structure State.aside (t s : State) : Prop where
  byte : ∀ x, t.byte x = s.byte x
  badIn : ∀ a k, t.badIn a k = s.badIn a k
  pcieMem : t.pcieMem = s.pcieMem
  rmoQ : ∀ m, (t.arr m).rmoQ = (s.arr m).rmoQ
  knots : ∀ m, (t.arr m).knots = (s.arr m).knots

section
variable {r s t u : State} {n : ArrayNum} {op : RmoOp}

theorem State.aside_refl : s.aside s := ⟨fun _ => rfl, fun _ _ => rfl, rfl, fun _ => rfl, fun _ => rfl⟩

theorem State.aside.trans (h : t.aside s) (g : s.aside r) : t.aside r :=
  ⟨fun x => (h.byte x).trans (g.byte x), fun a k => (h.badIn a k).trans (g.badIn a k), h.pcieMem.trans g.pcieMem,
    fun m => (h.rmoQ m).trans (g.rmoQ m), fun m => (h.knots m).trans (g.knots m)⟩

theorem State.aside.clean (h : t.aside s) (hc : s.clean) : t.clean := fun a k => (h.badIn a k).trans (hc a k)

theorem State.aside.load (h : t.aside s) (a k : Nat) : t.load a k = s.load a k := List.map_congr_left fun _ _ => h.byte _

theorem State.readOver.aside (h : t.readOver s) : t.aside s :=
  ⟨h.1.byte, h.1.badIn, by rw [h.1], fun m => by rw [arr_of_arrays h.2], fun m => by rw [arr_of_arrays h.2]⟩

theorem State.drawsOver.aside (h : t.drawsOver s) : t.aside s := by
  rw [h]
  exact ⟨fun _ => rfl, fun _ _ => rfl, rfl, fun _ => rfl, fun _ => rfl⟩

/-- A change of an array that keeps its remote operations and its knots. -/
theorem modArr_aside {f : ArrayState → ArrayState} (hq : (f (s.arr n)).rmoQ = (s.arr n).rmoQ)
    (hk : (f (s.arr n)).knots = (s.arr n).knots) : (s.modArr n f).aside s := by
  refine ⟨fun _ => rfl, fun _ _ => rfl, rfl, fun m => ?_, fun m => ?_⟩
  all_goals
    by_cases hm : m = n
    · rw [hm, arr_modArr_self]
      assumption
    · rw [arr_modArr_ne _ hm]

theorem detect_aside {f : PendFault} : (s.detect n f).aside s := by
  unfold State.detect
  refine modArr_aside ?_ ?_
  all_goals split <;> rfl

theorem noteNan_aside {k : Nat} : (s.noteNan n k).aside s := by
  have hcount : ((s.raiseBit (F.arrArithStatNanOut n)).addTo (F.arrNanCountNanCount n) k).aside s :=
    (State.addTo_based (State.raiseBit_based State.based_refl)).readOver.aside
  unfold State.noteNan
  split
  · exact State.aside_refl
  · dsimp only
    split
    · have hreport : ∀ {v : State} {ev : Ev}, (v.report ev).aside v := (State.report_based State.based_refl).readOver.aside
      exact hreport.trans ((modArr_aside rfl rfl).trans hcount)
    · exact hcount

/-- What an uncorrectable word that a read meets counts and reports. -/
theorem uncorrectable_aside {w reader a k : Nat} : ((s.eccReport w reader true).linkCheck a k).aside s :=
  linkCheck_counted.readOver.aside.trans (State.eccReport_based State.based_refl).readOver.aside

/-! ### A failed operation's status (R136) -/

/-- The registers of an array that show a failed operation. -/
def State.rmoStatus (s : State) (n : ArrayNum) (op : RmoOp) : State :=
  ((s.raiseBit (F.kntStatusRmoError n)).bump (F.kntRmoErrCountErrors n)).set (F.kntRmoErrAddrAddr n) op.remote

/-- t is s but for registers in the windows of the error collector and of the ports, event records and the board. -/
def State.shownOver (t s : State) : Prop := t.based s ∧ t.sameRegs (fun w => w = 0x4C ∨ w = 0x4D) s

theorem reportAt_shownOver {now : DWord} {ev : Ev} (h : t.shownOver s) : (t.reportAt now ev).shownOver s :=
  ⟨State.reportAt_based h.1, (reportAt_sameRegs (.inl rfl) _ _).trans h.2⟩

/-- A failure shows in those registers, in its window's and in a record (R135, R136). -/
theorem rmoFailed_shownOver {cause : Option Nat} : (s.rmoFailed n op cause).shownOver (s.rmoStatus n op) := by
  have hwin : ∀ {w : Fin 16} {lo : Nat},
      ((s.rmoStatus n op).raiseBit ⟨regKey 0x4D (0x1014 + 0x20 * w.val), lo, 1, false⟩).shownOver (s.rmoStatus n op) :=
    fun {w _} => ⟨State.raiseBit_based State.based_refl, set_sameRegs (within_regKey (.inr rfl) (by have := w.isLt; omega))⟩
  unfold State.rmoFailed
  extract_lets s1 win s2
  have hs2 : s2.shownOver (s.rmoStatus n op) := by
    unfold s2
    clear_value win
    split
    · exact hwin
    · exact hwin
    · exact ⟨State.based_refl, State.sameRegs_refl⟩
  split
  · exact reportAt_shownOver hs2
  · exact hs2

theorem rmoFailed_aside {cause : Option Nat} : (s.rmoFailed n op cause).aside s :=
  rmoFailed_shownOver.1.readOver.aside.trans
    (State.set_based (State.bump_based (State.raiseBit_based State.based_refl))).readOver.aside

/-- The fields of an array's window that a failed operation sets share no bit. -/
theorem rmoFields_laidOut : ∀ n, n < 64 → (F.kntStatusRmoError n).fits = true
    ∧ (F.kntRmoErrCountErrors n).apart (F.kntStatusRmoError n) = true
    ∧ (F.kntRmoErrAddrAddr n).apart (F.kntStatusRmoError n) = true := by
  decide +kernel

/-- A failed operation shows in rmo_error. -/
theorem get_rmoFailed {cause : Option Nat} : (s.rmoFailed n op cause).get (F.kntStatusRmoError n) = 1 := by
  obtain ⟨hfit, hcount, haddr⟩ := rmoFields_laidOut n n.isLt
  have hn : ¬ (n.val = 0x4C ∨ n.val = 0x4D) := by omega
  have hout : (F.kntStatusRmoError n).outside (fun w => w = 0x4C ∨ w = 0x4D) := outside_regKey hn (by decide)
  rw [rmoFailed_shownOver.2.get hout]
  exact (get_set_apart hfit haddr _).trans ((get_set_apart hfit hcount _).trans (get_set_self hfit 1))

/-! ### What a completion stores -/

/-- t is s, but for what is left aside, with bytes stored at an address. -/
def State.stores (t s : State) (a : Nat) (bs : List Byte) : Prop := ∃ u : State, u.aside s ∧ t.aside (u.store a bs)

variable {a len : Nat} {bs : List Byte}

theorem store_stores (h : u.aside s) : (u.store a bs).stores s a bs := ⟨u, h, State.aside_refl⟩

theorem State.aside.stores (h : r.aside t) (g : t.stores s a bs) : r.stores s a bs :=
  have ⟨u, hu, ht⟩ := g
  ⟨u, hu, h.trans ht⟩

theorem State.stores.of_aside (h : t.stores s a bs) (g : s.aside r) : t.stores r a bs :=
  have ⟨u, hu, ht⟩ := h
  ⟨u, hu.trans g, ht⟩

/-- No byte outside the range stored changes. -/
theorem State.stores.outside (h : t.stores s a bs) {x : Nat} (hx : ¬ (a ≤ x ∧ x < a + bs.length)) : t.byte x = s.byte x := by
  obtain ⟨u, hu, ht⟩ := h
  rw [ht.byte, byte_store_outside (by omega), hu.byte]

/-- Where no word is uncorrectable the bytes stored read back. -/
theorem State.stores.inside (h : t.stores s a bs) (hc : s.clean) {x : Nat} (hx : a ≤ x ∧ x < a + bs.length) :
    t.byte x = bs.getD (x - a) 0 := by
  obtain ⟨u, hu, ht⟩ := h
  rw [ht.byte, byte_store, if_pos ⟨hx.1, hx.2, storable_of_clean (hu.clean hc) _ _ _⟩]

theorem State.stores.arrays (h : t.stores s a bs) (m : ArrayNum) :
    (t.arr m).rmoQ = (s.arr m).rmoQ ∧ (t.arr m).knots = (s.arr m).knots := by
  obtain ⟨u, hu, ht⟩ := h
  have harr : (u.store a bs).arr m = u.arr m := arr_of_arrays (State.store_arrays ..) m
  rw [ht.rmoQ, ht.knots, harr]
  exact ⟨hu.rmoQ m, hu.knots m⟩

/-- No byte outside a range changes, and array n's remote operations are as they were. -/
def State.within (t s : State) (n : ArrayNum) (a len : Nat) : Prop :=
  (∀ x, ¬ (a ≤ x ∧ x < a + len) → t.byte x = s.byte x) ∧ (t.arr n).rmoQ = (s.arr n).rmoQ

theorem State.within.trans (h : t.within s n a len) (g : s.within r n a len) : t.within r n a len :=
  ⟨fun x hx => (h.1 x hx).trans (g.1 x hx), h.2.trans g.2⟩

theorem State.aside.within (h : t.aside s) : t.within s n a len := ⟨fun x _ => h.byte x, h.rmoQ n⟩

theorem State.stores.within (h : t.stores s a bs) (hlen : bs.length ≤ len) : t.within s n a len :=
  ⟨fun _ hx => h.outside fun hin => hx (by omega), (h.arrays n).1⟩

/-! ### The parts of a completion -/

/-- A put's or an atomic add's local lines: nothing else changes, and where no word is uncorrectable they are read. -/
theorem sendLocal_aside {nans : List Byte → Nat} : (s.sendLocal n op nans).1.aside s
    ∧ (∀ bs, (s.sendLocal n op nans).2 = some bs → bs.length ≤ 64 * op.lines)
    ∧ (s.clean → (s.sendLocal n op nans).2.isSome = true) := by
  unfold State.sendLocal State.unitRead
  cases hbad : s.badIn (spoolBase n + op.loc) (64 * op.lines) with
  | some w =>
    have hread : (s.eccReport w 6 true).aside s := (State.eccReport_based State.based_refl).readOver.aside
    exact ⟨detect_aside.trans hread, nofun, fun hc => by rw [hc] at hbad; cases hbad⟩
  | none =>
    have hread : (s.correct (spoolBase n + op.loc) (64 * op.lines) 6).aside s := correct_based.readOver.aside
    refine ⟨noteNan_aside.trans (sourceLines_drawsOver.aside.trans hread), fun bs h => ?_, fun _ => rfl⟩
    cases h
    exact (length_sourceLines _).trans (length_load _ _).le

/-- The local lines of an operation that is alone, as they stand. -/
theorem sendLocal_alone {nans : List Byte → Nat} (hc : s.clean) (h : op.alone n (s.arr n).rmoQ) :
    (s.sendLocal n op nans).2 = some (s.load (spoolBase n + op.loc) (64 * op.lines)) := by
  have hread : (s.correct (spoolBase n + op.loc) (64 * op.lines) 6).aside s := correct_based.readOver.aside
  unfold State.sendLocal
  rw [unitRead_good (hc _ _)]
  dsimp only
  rw [sourceLines_alone (by rwa [hread.rmoQ]) (length_load _ _) (Nat.le_refl _)]

theorem length_getLines {good k : Nat} (h : bs.length ≤ 64 * good) (hg : good ≤ k) :
    (bs ++ List.replicate (64 * (k - good)) (0 : Byte)).length ≤ 64 * k := by
  rw [List.length_append, List.length_replicate]
  omega

/-- A get stores at most its lines in the local spool. -/
theorem getStore_stores {good : Nat} (hg : good ≤ op.lines) :
    ∃ bs : List Byte, bs.length ≤ 64 * op.lines ∧ (s.getStore n op good).stores s (spoolBase n + op.loc) bs := by
  have hsource : ((s.sourceLines n op (s.remoteLoad op.remote (64 * good))).1.countRead op.remote (64 * good)).aside s :=
    countRead_counted.readOver.aside.trans sourceLines_drawsOver.aside
  refine ⟨_, ?_, store_stores (targetLines_drawsOver.aside.trans hsource)⟩
  exact (length_targetLines _ _).trans (length_getLines ((length_sourceLines _).trans (length_remoteLoad _ _).le) hg)

/-- A get that is alone stores the lines that were read, and zeros beyond them. -/
theorem getStore_alone {good : Nat} (h : op.alone n (s.arr n).rmoQ) (hg : good ≤ op.lines) :
    (s.getStore n op good).stores s (spoolBase n + op.loc)
      (s.remoteLoad op.remote (64 * good) ++ List.replicate (64 * (op.lines - good)) 0) := by
  unfold State.getStore
  rw [sourceLines_alone h (length_remoteLoad _ _) hg]
  dsimp only
  rw [targetLines_alone h.2.1]
  exact store_stores countRead_counted.readOver.aside

/-- Bytes that reach a target outside the windows are stored there. -/
theorem remoteStore_stores (hw : ∀ w off, regionOf a ≠ .window w off) : (s.remoteStore a bs).stores s a bs := by
  unfold State.remoteStore
  split
  · next w off h => exact absurd h (hw w off)
  · exact countWrite_counted.readOver.aside.stores (store_stores State.aside_refl)

/-- Bytes that reach a target stay in its range. -/
theorem remoteStore_within (h : bs.length ≤ len) : (s.remoteStore a bs).within s n a len := by
  by_cases hw : ∀ w off, regionOf a ≠ .window w off
  · exact (remoteStore_stores hw).within h
  · obtain ⟨w, hw⟩ := not_forall.mp hw
    obtain ⟨off, hw⟩ := not_forall_not.mp hw
    unfold State.remoteStore
    rw [hw]
    exact ⟨fun _ _ => rfl, rfl⟩

theorem putLines_within (h : bs.length ≤ 64 * op.lines) : (s.putLines n op bs).within s n op.remote (64 * op.lines) :=
  (remoteStore_within ((length_targetLines _ _).trans h)).trans targetLines_drawsOver.aside.within

theorem putLines_alone (h : op.under = []) (hw : ∀ w off, regionOf op.remote ≠ .window w off) :
    (s.putLines n op bs).stores s op.remote bs := by
  unfold State.putLines
  rw [targetLines_alone h]
  exact remoteStore_stores hw

/-- A signalled knot rises by 1 (R130). -/
theorem incKnot17_eq {m : ArrayNum} {k : Nat} (hm : m.val = k / 2048) :
    s.incKnot17 k = s.modArr m fun a => { a with knots := SMap.put 0 a.knots (k % 2048) (s.knot m k + 1) } := by
  have hknot : s.knot m (k % 2048) = s.knot m k := by
    unfold State.knot
    rw [Nat.mod_mod]
  unfold State.incKnot17
  rw [← hm, allArrays_get]
  dsimp only
  rw [State.incKnot, State.setKnot, Nat.mod_mod, hknot]
  rfl

theorem incKnot17_within {k : Nat} : (s.incKnot17 k).within s n a len := by
  unfold State.incKnot17
  split
  · next m _ =>
    refine ⟨fun _ _ => rfl, ?_⟩
    unfold State.incKnot State.setKnot
    by_cases hn : n = m
    · rw [hn, arr_modArr_self]
    · rw [arr_modArr_ne _ hn]
  · exact State.aside_refl.within

theorem signalKnot_within : (s.signalKnot op).within s n a len := by
  unfold State.signalKnot
  split
  · split
    · exact ⟨fun _ _ => rfl, rfl⟩
    · exact incKnot17_within
  · exact incKnot17_within

end

end Sys2Proof.Machine
end

section
/-!
PROOFS. The completion of remote operations (R114, R118, R123 to R126, R130, R135, R136, R140): what each kind comes to, when it
fails and when it is alone in flight, and from these the obligation on the oldest operation of an array.
-/

namespace Sys2Proof.Machine

/-! ### The completion of each kind -/

section
variable {s t : State} {n : ArrayNum} {op : RmoOp} {got : Option Nat} {bs : List Byte} {c : Nat}

theorem getD_append_zeros (bs : List Byte) (k i : Nat) : (bs ++ List.replicate k 0).getD i 0 = bs.getD i 0 := by
  rcases Nat.lt_or_ge i bs.length with h | h
  · exact List.getD_append _ _ _ _ h
  · rw [List.getD_append_right _ _ _ _ h, List.getD_eq_default _ _ h]
    simp [List.getD_eq_getElem?_getD, List.getElem?_replicate]
    split <;> rfl

theorem length_pcieLoad (p : Port) (a k : Nat) : (s.pcieLoad p a k).length = k := by simp [State.pcieLoad, SMap.slice]

theorem dst_of_get (hk : op.kind = .get) : op.dst n = spoolBase n + op.loc := if_pos hk

theorem dst_of_ne (hk : op.kind ≠ .get) : op.dst n = op.remote := if_neg hk

/-- A failed operation other than a get does nothing but show its failure. -/
theorem completeRmo_failed (hf : op.failed = some c) (hk : op.kind ≠ .get) :
    s.completeRmo n op got = s.rmoFailed n op (some c) := by
  unfold State.completeRmo
  rw [hf]
  cases h : op.kind with
  | get => exact absurd h hk
  | put | putSignal | atomicAdd => rfl

/-- A failed get leaves zeros (R136). -/
theorem completeRmo_failedGet (hf : op.failed = some c) (hk : op.kind = .get) :
    s.completeRmo n op got
      = (s.store (spoolBase n + op.loc) (List.replicate (64 * op.lines) 0)).rmoFailed n op (some c) := by
  unfold State.completeRmo
  rw [hf, hk]

/-- A put, or a put with knot signal, whose port has gone down is dropped (R140). -/
theorem completeRmo_lost (hf : op.failed = none) (hk : op.kind = .put ∨ op.kind = .putSignal) (hl : s.linkLost op = true)
    (hs : s.sendLocal n op Config.nanInPut = (t, some bs)) : s.completeRmo n op got = t.rmoFailed n op (some 3) := by
  unfold State.completeRmo
  rw [hf, hl]
  rcases hk with hk | hk
  all_goals
    rw [hk, hs]
    rfl

theorem completeRmo_put (hf : op.failed = none) (hk : op.kind = .put) (hl : s.linkLost op = false)
    (hs : s.sendLocal n op Config.nanInPut = (t, some bs)) : s.completeRmo n op got = t.putLines n op bs := by
  unfold State.completeRmo
  rw [hf, hk, hl, hs]
  rfl

/-- A put with knot signal raises its knot after its lines, or meets an error on the link. -/
theorem completeRmo_putSignal (hf : op.failed = none) (hk : op.kind = .putSignal) (hl : s.linkLost op = false)
    (hs : s.sendLocal n op Config.nanInPut = (t, some bs)) :
    s.completeRmo n op got = (t.putLines n op bs).signalKnot op
      ∨ got.isSome = true ∧ s.completeRmo n op got = (t.putLines n op bs).rmoFailed n op (some 5) := by
  unfold State.completeRmo
  extract_lets len onLink peer lost
  rw [hf, hk, hs]
  dsimp only
  rw [show lost = false from hl, if_neg Bool.false_ne_true]
  cases h : onLink && !peer && got.isSome with
  | false => exact .inl rfl
  | true => exact .inr ⟨(Bool.and_eq_true_iff.mp h).2, rfl⟩

/-- An atomic add stores its sums over the target's bytes (R118). -/
theorem completeRmo_atomicAdd (hf : op.failed = none) (hk : op.kind = .atomicAdd)
    (hs : s.sendLocal n op (nanWords op.fp) = (t, some bs)) (hb : t.badIn op.remote (64 * op.lines) = none) :
    let u := (t.correct op.remote (64 * op.lines) 2).countRead op.remote (64 * op.lines)
    let w := u.targetLines n op (u.load op.remote (64 * op.lines)) (atomicSums op.fp (u.load op.remote (64 * op.lines)) bs)
    s.completeRmo n op got = (w.1.store op.remote w.2).countWrite op.remote (64 * op.lines) := by
  unfold State.completeRmo
  rw [hf, hk, hs]
  dsimp only
  rw [hb]

/-- An atomic add to a target that cannot be read fails. -/
theorem completeRmo_atomicAdd_bad {w : Nat} (hf : op.failed = none) (hk : op.kind = .atomicAdd)
    (hs : s.sendLocal n op (nanWords op.fp) = (t, some bs)) (hb : t.badIn op.remote (64 * op.lines) = some w) :
    s.completeRmo n op got
      = ((t.eccReport w 2 true).linkCheck op.remote (64 * op.lines)).rmoFailed n op none := by
  unfold State.completeRmo
  rw [hf, hk, hs]
  dsimp only
  rw [hb]

/-- A local word that cannot be read sends nothing. -/
theorem completeRmo_unread (hf : op.failed = none) (hk : op.kind = .put ∨ op.kind = .putSignal)
    (hs : s.sendLocal n op Config.nanInPut = (t, none)) : s.completeRmo n op got = t := by
  unfold State.completeRmo
  rw [hf]
  rcases hk with hk | hk
  all_goals rw [hk, hs]

theorem completeRmo_atomicAdd_unread (hf : op.failed = none) (hk : op.kind = .atomicAdd)
    (hs : s.sendLocal n op (nanWords op.fp) = (t, none)) : s.completeRmo n op got = t := by
  unfold State.completeRmo
  rw [hf, hk, hs]

/-- A get from the module whose words are good stores what it reads. -/
theorem completeRmo_get (hf : op.failed = none) (hk : op.kind = .get) (hw : ∀ w off, regionOf op.remote ≠ .window w off)
    (hb : s.badIn op.remote (64 * op.lines) = none) :
    s.completeRmo n op got = (s.correct op.remote (64 * op.lines) 1).getStore n op op.lines := by
  unfold State.completeRmo
  rw [hf, hk]
  dsimp only
  split
  · next h => exact absurd h (hw _ _)
  · rw [if_neg Bool.false_ne_true, hb]

/-- A get through a window that met an error after some lines keeps those (R123, R136). -/
theorem completeRmo_getError {w : Fin 16} {off k : Nat} (hf : op.failed = none) (hk : op.kind = .get)
    (hw : regionOf op.remote = .window w off) :
    s.completeRmo n op (some k) = (s.getStore n op (min k op.lines)).rmoFailed n op (some 5) := by
  unfold State.completeRmo
  rw [hf, hk, hw]
  rfl

/-- Whatever a get meets, it stores at most its lines in the local spool. -/
theorem completeRmo_get_stores (hk : op.kind = .get) :
    ∃ bs : List Byte, bs.length ≤ 64 * op.lines ∧ (s.completeRmo n op got).stores s (spoolBase n + op.loc) bs := by
  have hzeros : (List.replicate (64 * op.lines) (0 : Byte)).length ≤ 64 * op.lines := List.length_replicate.le
  have hfails : ∀ {good : Nat} {cause : Option Nat}, good ≤ op.lines → ∃ bs : List Byte, bs.length ≤ 64 * op.lines
      ∧ ((s.getStore n op good).rmoFailed n op cause).stores s (spoolBase n + op.loc) bs := by
    intro good cause hg
    obtain ⟨bs, hlen, h⟩ := getStore_stores (s := s) (n := n) hg
    exact ⟨bs, hlen, rmoFailed_aside.stores h⟩
  cases hf : op.failed with
  | some c =>
    rw [completeRmo_failedGet hf hk]
    exact ⟨_, hzeros, rmoFailed_aside.stores (store_stores State.aside_refl)⟩
  | none =>
    unfold State.completeRmo
    extract_lets len onLink peer lost
    rw [hf, hk]
    dsimp only
    split
    · split
      · exact hfails (Nat.min_le_right ..)
      · split
        · exact hfails (Nat.zero_le _)
        · exact getStore_stores (Nat.le_refl _)
    · split
      · exact ⟨_, hzeros, rmoFailed_aside.stores (store_stores uncorrectable_aside)⟩
      · obtain ⟨bs, hlen, h⟩ := getStore_stores (s := s.correct op.remote len 1) (n := n) (Nat.le_refl op.lines)
        exact ⟨bs, hlen, h.of_aside correct_based.readOver.aside⟩

/-- Whatever a put meets, it changes no byte outside its target. -/
theorem completeRmo_put_within (hf : op.failed = none) (hk : op.kind = .put ∨ op.kind = .putSignal) :
    (s.completeRmo n op got).within s n op.remote (64 * op.lines) := by
  obtain ⟨haside, hlen, -⟩ := sendLocal_aside (s := s) (n := n) (op := op) (nans := Config.nanInPut)
  rcases hs : s.sendLocal n op Config.nanInPut with ⟨t, _ | bs⟩
  all_goals rw [hs] at haside hlen
  · rw [completeRmo_unread hf hk hs]
    exact haside.within
  · have hput : (t.putLines n op bs).within s n op.remote (64 * op.lines) := (putLines_within (hlen bs rfl)).trans haside.within
    cases hl : s.linkLost op with
    | true =>
      rw [completeRmo_lost hf hk hl hs]
      exact (rmoFailed_aside.trans haside).within
    | false =>
      rcases hk with hk | hk
      · rw [completeRmo_put hf hk hl hs]
        exact hput
      · rcases completeRmo_putSignal (got := got) hf hk hl hs with h | ⟨-, h⟩
        · rw [h]
          exact signalKnot_within.trans hput
        · rw [h]
          exact rmoFailed_aside.within.trans hput

/-- Whatever an atomic add meets, it changes no byte outside its target. -/
theorem completeRmo_atomicAdd_within (hf : op.failed = none) (hk : op.kind = .atomicAdd) :
    (s.completeRmo n op got).within s n op.remote (64 * op.lines) := by
  obtain ⟨haside, hlen, -⟩ := sendLocal_aside (s := s) (n := n) (op := op) (nans := nanWords op.fp)
  rcases hs : s.sendLocal n op (nanWords op.fp) with ⟨t, _ | bs⟩
  all_goals rw [hs] at haside hlen
  · rw [completeRmo_atomicAdd_unread hf hk hs]
    exact haside.within
  · cases hb : t.badIn op.remote (64 * op.lines) with
    | some w =>
      rw [completeRmo_atomicAdd_bad hf hk hs hb]
      exact (rmoFailed_aside.trans (uncorrectable_aside.trans haside)).within
    | none =>
      have hread : ((t.correct op.remote (64 * op.lines) 2).countRead op.remote (64 * op.lines)).aside s :=
        countRead_counted.readOver.aside.trans (correct_based.readOver.aside.trans haside)
      rw [completeRmo_atomicAdd hf hk hs hb]
      refine State.stores.within (countWrite_counted.readOver.aside.stores
        (store_stores (targetLines_drawsOver.aside.trans hread))) ((length_targetLines _ _).trans ?_)
      rw [length_atomicSums, length_load]
      omega

/-- Whatever an operation meets, it changes no byte outside the lines it writes, and none of the operations behind it. -/
theorem completeRmo_within : (s.completeRmo n op got).within s n (op.dst n) (64 * op.lines) := by
  by_cases hget : op.kind = .get
  · obtain ⟨bs, hlen, h⟩ := completeRmo_get_stores (s := s) (n := n) (got := got) hget
    rw [dst_of_get hget]
    exact h.within hlen
  · rw [dst_of_ne hget]
    cases hf : op.failed with
    | some c =>
      rw [completeRmo_failed hf hget]
      exact rmoFailed_aside.within
    | none =>
      cases hk : op.kind with
      | get => exact absurd hk hget
      | put => exact completeRmo_put_within hf (.inl hk)
      | putSignal => exact completeRmo_put_within hf (.inr hk)
      | atomicAdd => exact completeRmo_atomicAdd_within hf hk

/-! ### Operations that are alone -/

section
variable (hc : s.clean) (halone : op.alone n (s.arr n).rmoQ) (hf : op.failed = none)
  (hw : ∀ w off, regionOf op.remote ≠ .window w off)

include hw in
/-- An operation inside the module loses no link. -/
theorem linkLost_of_module : s.linkLost op = false := by
  unfold State.linkLost
  split
  · next h => exact absurd h (hw _ _)
  · rfl

include hw in
theorem remoteLoad_of_module (k : Nat) : s.remoteLoad op.remote k = s.load op.remote k := by
  unfold State.remoteLoad
  split
  · next h => exact absurd h (hw _ _)
  · rfl

include hw in
theorem signalKnot_of_module : s.signalKnot op = s.incKnot17 op.knot := by
  unfold State.signalKnot
  split
  · next h => exact absurd h (hw _ _)
  · rfl

include hc halone hf hw

/-- A put to the module stores its local lines at its target (R114). -/
theorem completeRmo_put_alone (hk : op.kind = .put) :
    (s.completeRmo n op got).stores s op.remote (s.load (spoolBase n + op.loc) (64 * op.lines)) := by
  rw [completeRmo_put hf hk (linkLost_of_module hw) (Prod.ext rfl (sendLocal_alone hc halone))]
  exact (putLines_alone halone.2.1 hw).of_aside sendLocal_aside.1

/-- A put with knot signal to the module stores its local lines at its target, and then raises its knot (R126). -/
theorem completeRmo_putSignal_alone (hk : op.kind = .putSignal) :
    ∃ t : State, t.stores s op.remote (s.load (spoolBase n + op.loc) (64 * op.lines))
      ∧ s.completeRmo n op none = t.incKnot17 op.knot := by
  rcases completeRmo_putSignal (got := none) hf hk (linkLost_of_module hw)
    (Prod.ext rfl (sendLocal_alone hc halone)) with h | ⟨h, -⟩
  · exact ⟨_, (putLines_alone halone.2.1 hw).of_aside sendLocal_aside.1, h.trans (signalKnot_of_module hw)⟩
  · cases h

/-- A get from the module stores its target's bytes in the local spool (R114). -/
theorem completeRmo_get_alone (hk : op.kind = .get) :
    (s.completeRmo n op got).stores s (spoolBase n + op.loc) (s.load op.remote (64 * op.lines)) := by
  have hread : (s.correct op.remote (64 * op.lines) 1).aside s := correct_based.readOver.aside
  have h := getStore_alone (s := s.correct op.remote (64 * op.lines) 1) (by rwa [hread.rmoQ]) (Nat.le_refl op.lines)
  rw [remoteLoad_of_module hw, hread.load, Nat.sub_self, Nat.mul_zero, List.replicate_zero, List.append_nil] at h
  rw [completeRmo_get hf hk hw (hc _ _)]
  exact h.of_aside hread

omit hw in
/-- An atomic add stores the sums of its target's elements and its local ones (R118). -/
theorem completeRmo_atomicAdd_alone (hk : op.kind = .atomicAdd) :
    (s.completeRmo n op got).stores s op.remote
      (atomicSums op.fp (s.load op.remote (64 * op.lines)) (s.load (spoolBase n + op.loc) (64 * op.lines))) := by
  obtain ⟨haside, -, -⟩ := sendLocal_aside (s := s) (n := n) (op := op) (nans := nanWords op.fp)
  have hread := (countRead_counted (a := op.remote) (n := 64 * op.lines)).readOver.aside.trans
    ((correct_based (a := op.remote) (k := 64 * op.lines) (r := 2)).readOver.aside.trans haside)
  rw [completeRmo_atomicAdd hf hk (Prod.ext rfl (sendLocal_alone hc halone)) (haside.clean hc _ _),
    targetLines_alone halone.2.1, hread.load]
  exact countWrite_counted.readOver.aside.stores (store_stores hread)

end

/-! ### Operations that fail -/

/-- A failed operation shows in rmo_error and stores nothing, but for a get's zeros (R136). -/
theorem completeRmo_failed_clean (hc : s.clean) (hf : op.failed = some c) :
    (s.completeRmo n op got).get (F.kntStatusRmoError n) = 1
      ∧ ∀ x, (s.completeRmo n op got).byte x
          = if op.kind = .get ∧ spoolBase n + op.loc ≤ x ∧ x < spoolBase n + op.loc + 64 * op.lines then 0
            else s.byte x := by
  by_cases hk : op.kind = .get
  · have hstore : (s.completeRmo n op got).stores s (spoolBase n + op.loc) (List.replicate (64 * op.lines) 0) := by
      rw [completeRmo_failedGet hf hk]
      exact rmoFailed_aside.stores (store_stores State.aside_refl)
    refine ⟨by rw [completeRmo_failedGet hf hk]; exact get_rmoFailed, fun x => ?_⟩
    split
    · next hx =>
      rw [hstore.inside hc (by rw [List.length_replicate]; exact hx.2), List.getD_replicate _ (by omega)]
    · next hx => exact hstore.outside fun h => hx ⟨hk, by rwa [List.length_replicate] at h⟩
  · rw [completeRmo_failed hf hk]
    exact ⟨get_rmoFailed, fun x => by rw [if_neg fun h => hk h.1, rmoFailed_aside.byte]⟩

variable {w : Fin 16} {off k : Nat}

/-- A put through a window whose port has gone down shows in rmo_error and leaves everything else aside (R140). -/
theorem completeRmo_down (hc : s.clean) (hf : op.failed = none) (hk : op.kind = .put ∨ op.kind = .putSignal)
    (hw : regionOf op.remote = .window w off) (hdown : s.flag (F.pciLinkUp (s.windowPort w)) = false) :
    (s.completeRmo n op got).get (F.kntStatusRmoError n) = 1 ∧ (s.completeRmo n op got).aside s := by
  obtain ⟨haside, -, hsome⟩ := sendLocal_aside (s := s) (n := n) (op := op) (nans := Config.nanInPut)
  obtain ⟨bs, hbs⟩ := Option.isSome_iff_exists.mp (hsome hc)
  have hlost : s.linkLost op = true := by
    unfold State.linkLost
    rw [hw]
    dsimp only
    rw [hdown]
    rfl
  rw [completeRmo_lost hf hk hlost (Prod.ext rfl hbs)]
  exact ⟨get_rmoFailed, rmoFailed_aside.trans haside⟩

/-- A get through a window whose read times out shows in rmo_error and stores what was returned, with zeros beyond it
(R136). -/
theorem completeRmo_timeout (hc : s.clean) (halone : op.alone n (s.arr n).rmoQ) (hf : op.failed = none) (hk : op.kind = .get)
    (hw : regionOf op.remote = .window w off) (hle : k ≤ op.lines) :
    (s.completeRmo n op (some k)).get (F.kntStatusRmoError n) = 1
      ∧ (∀ x, spoolBase n + op.loc ≤ x ∧ x < spoolBase n + op.loc + 64 * op.lines → (s.completeRmo n op (some k)).byte x
          = (s.pcieLoad (s.windowPort w) (s.get (F.pciWinBaseBase w) * 4096 + off) (64 * k)).getD
              (x - (spoolBase n + op.loc)) 0)
      ∧ ∀ x, ¬ (spoolBase n + op.loc ≤ x ∧ x < spoolBase n + op.loc + 64 * op.lines) →
          (s.completeRmo n op (some k)).byte x = s.byte x := by
  have hread : s.remoteLoad op.remote (64 * k)
      = s.pcieLoad (s.windowPort w) (s.get (F.pciWinBaseBase w) * 4096 + off) (64 * k) := by
    rw [State.remoteLoad, hw]
  have h := (rmoFailed_aside (n := n) (op := op) (cause := some 5)).stores (getStore_alone halone hle)
  rw [hread] at h
  rw [completeRmo_getError hf hk hw, Nat.min_eq_left hle]
  have hlen : ∀ {bs : List Byte}, bs.length = 64 * k →
      (bs ++ List.replicate (64 * (op.lines - k)) 0).length = 64 * op.lines := fun {bs} hbs => by
    rw [List.length_append, List.length_replicate, hbs]
    omega
  refine ⟨get_rmoFailed, fun x hx => ?_, fun x hx => h.outside (by rwa [hlen (length_pcieLoad ..)])⟩
  exact (h.inside hc (by rwa [hlen (length_pcieLoad ..)])).trans (getD_append_zeros ..)

end

/-! ### The oldest operation of the queue -/

section
variable {s : State} {n : ArrayNum} {op : RmoOp} {rest : List RmoOp} {hw : HostStores}

/-- The state in which the oldest operation completes: the host's stores have arrived, and it has left the queue. -/
def State.popRmo (s : State) (n : ArrayNum) (hw : HostStores) (rest : List RmoOp) : State :=
  (s.hostStores hw).modArr n fun a => { a with rmoQ := rest }

/-- What a read through a window met, as a completion takes it: how many lines came before an error. -/
def linesBefore : LinkResult → Option Nat
  | .ok => none
  | .error k => some k

theorem exec_rmoComplete (hrun : s.unitsRun n = true) (hq : (s.arr n).rmoQ = op :: rest) (link : LinkResult) :
    exec (.rmoComplete n hw link) s = .next ((s.popRmo n hw rest).completeRmo n op (linesBefore link)) := by
  have hq' : ((s.hostStores hw).arr n).rmoQ = op :: rest := hq
  change execRmoComplete n hw link s = _
  unfold execRmoComplete
  rw [hrun, if_pos rfl, State.retireRmo, hq']
  cases link <;> rfl

theorem exec_completionTimeout {k : Nat} {w : Fin 16} {off : Nat} (hrun : s.unitsRun n = true)
    (hq : (s.arr n).rmoQ = op :: rest) (hf : op.failed = none) (hk : op.kind = .get)
    (hwin : regionOf op.remote = .window w off) :
    exec (.completionTimeout n hw k) s = .next ((s.popRmo n hw rest).completeRmo n op (some k)) := by
  have hq' : ((s.hostStores hw).arr n).rmoQ = op :: rest := hq
  have hawaits : s.awaitsLink n = true := by
    unfold State.awaitsLink
    rw [hq]
    dsimp only
    rw [hwin, hf, hk]
    rfl
  change execCompletionTimeout n hw k s = _
  rw [execCompletionTimeout, hrun, hawaits, Bool.and_self, if_pos rfl, State.retireRmo, hq']
  rfl

theorem rmoQ_popRmo : ((s.popRmo n hw rest).arr n).rmoQ = rest := by
  rw [State.popRmo, arr_modArr_self]

theorem knots_popRmo (m : ArrayNum) : ((s.popRmo n hw rest).arr m).knots = (s.arr m).knots := by
  unfold State.popRmo
  by_cases hm : m = n
  · rw [hm, arr_modArr_self]
    rfl
  · rw [arr_modArr_ne _ hm]
    rfl

end

/-! ### The obligation -/

/-- Settles O17, kind by kind of the oldest operation. -/
theorem remoteOperationsComplete : Obligations.RemoteOperationsComplete := by
  intro n s op rest hw _ hrun hq len src inside goes alone
  have hin : ∀ {a x}, inside a x = true ↔ a ≤ x ∧ x < a + len := fun {a x} => by simp [inside]
  have hout : ∀ {a x}, inside a x = false → ¬ (a ≤ x ∧ x < a + len) := fun h => mt hin.mpr (Bool.eq_false_iff.mp h)
  have hqueue : ((s.popRmo n hw rest).arr n).rmoQ = rest := rmoQ_popRmo
  have halone' : alone → op.alone n ((s.popRmo n hw rest).arr n).rmoQ := fun h => by rwa [hqueue]
  have hexec := exec_rmoComplete (hw := hw) hrun hq
  have hsrc : src.length = len := length_load _ _
  have hstores : ∀ {c : Instr} {t : State} {a : Nat} {bs : List Byte}, s.clean → exec c s = .next t → bs.length = len →
      t.stores (s.popRmo n hw rest) a bs → goes c fun t => ∀ x, inside a x = true → t.byte x = bs.getD (x - a) 0 :=
    fun hc he hlen h => ⟨_, he, (h.arrays n).1.trans hqueue, fun x hx => h.inside hc (by rw [hlen]; exact hin.mp hx)⟩
  refine ⟨fun link => ⟨_, hexec link, completeRmo_within.2.trans hqueue, fun x hx => completeRmo_within.1 x (hout hx)⟩,
    fun hc ha hf hwin => ⟨fun hk => ?_, fun hk m hm => ?_, fun hk => ?_, fun hk => ?_⟩, fun hc c hf => ?_,
    fun w off hc hf hk hwin hdown link => ?_, fun w off k hc ha hf hk hwin hle => ?_⟩
  · exact hstores hc (hexec .ok) hsrc (completeRmo_put_alone hc (halone' ha) hf hwin hk)
  · obtain ⟨t, h, he⟩ := completeRmo_putSignal_alone (s := s.popRmo n hw rest) hc (halone' ha) hf hwin hk
    have hknots : (t.arr m).knots = (s.arr m).knots := (h.arrays m).2.trans (knots_popRmo m)
    have hknot : t.knot m op.knot = s.knot m op.knot := congrArg (SMap.look 0 · _) hknots
    have hrise := incKnot17_eq (s := t) hm
    refine ⟨_, (hexec .ok).trans (congrArg _ he), ?_, fun x hx => ?_, ?_⟩
    · exact (incKnot17_within (a := 0) (len := 0)).2.trans ((h.arrays n).1.trans hqueue)
    · rw [hrise]
      exact h.inside hc (by rw [length_load]; exact hin.mp hx)
    · rw [hrise, arr_modArr_self, hknots, hknot]
  · exact hstores hc (hexec .ok) (length_load _ _) (completeRmo_get_alone hc (halone' ha) hf hwin hk)
  · refine hstores hc (hexec .ok) ?_ (completeRmo_atomicAdd_alone hc (halone' ha) hf hk)
    rw [length_atomicSums, length_load, length_load]
    omega
  · obtain ⟨hget, hbyte⟩ := completeRmo_failed_clean (n := n) (got := none) (s := s.popRmo n hw rest) hc hf
    exact ⟨_, hexec .ok, completeRmo_within.2.trans hqueue, hget,
      fun x => (hbyte x).trans (if_congr (and_congr_right' hin.symm) rfl rfl)⟩
  · obtain ⟨hget, haside⟩ := completeRmo_down (n := n) (got := linesBefore link) (s := s.popRmo n hw rest) hc hf hk
      hwin hdown
    exact ⟨_, hexec link, completeRmo_within.2.trans hqueue, hget, haside.pcieMem, haside.byte⟩
  · obtain ⟨hget, hread, hkeep⟩ := completeRmo_timeout (s := s.popRmo n hw rest) hc (halone' ha) hf hk hwin hle
    exact ⟨_, exec_completionTimeout hrun hq hf hk hwin, completeRmo_within.2.trans hqueue, hget,
      fun x hx => hread x (hin.mp hx), fun x hx => hkeep x (hout hx)⟩

end Sys2Proof.Machine
end

section
/-!
PROOFS. Knots written by registers (R129, R130, R133, R134, R361): what KNT_SIGNAL and KNT_VALUE come to for a requester that may
act in an array's window, and the obligation on them, which fails where a table lists a knot of 0.
-/

namespace Sys2Proof.Machine

/-! ### A knot set again -/

section
variable {α : Type} [DecidableEq α]

omit [DecidableEq α] in
theorem filter_insert_self (x : Nat) (v : α) (m : SMap α) :
    (SMap.insert x v m).filter (fun p => p.1 != x) = m.filter fun p => p.1 != x := by
  induction m with
  | nil => simp [SMap.insert]
  | cons p m ih =>
    obtain ⟨k, w⟩ := p
    unfold SMap.insert
    split
    · simp [List.filter_cons]
    · rw [List.filter_cons, List.filter_cons, ih]

/-- The last value put under a key is the one that stays. -/
theorem put_put (d : α) (m : SMap α) (x : Nat) (v w : α) : SMap.put d (SMap.put d m x v) x w = SMap.put d m x w := by
  have hrest : (SMap.put d m x v).filter (fun p => p.1 != x) = m.filter fun p => p.1 != x := by
    unfold SMap.put
    dsimp only
    split
    · rw [List.filter_filter]
      simp
    · rw [filter_insert_self, List.filter_filter]
      simp
  have hput : ∀ m : SMap α, SMap.put d m x w
      = if w = d then m.filter (fun p => p.1 != x) else SMap.insert x w (m.filter fun p => p.1 != x) := fun _ => rfl
  rw [hput, hput, hrest]

end

section
variable {s t : State} {n : ArrayNum} {q : Requester} {i : Nat} {v w : Word}

theorem setKnot_setKnot : (s.setKnot n i v).setKnot n i w = s.setKnot n i w := by
  unfold State.setKnot
  rw [modArr_modArr]
  exact congrArg (s.modArr n) (funext fun a => by rw [put_put])

theorem knot_setKnot_self : (s.setKnot n i v).knot n i = v := by
  unfold State.knot State.setKnot
  rw [arr_modArr_self]
  exact look_put_self

/-- What increments that arrive in one cycle add to a knot. -/
def incTotal (incs : List (BitVec 16)) : Word :=
  incs.foldl (fun (x : Word) (i : BitVec 16) => x + BitVec.ofNat 32 i.toNat) 0

theorem incTotal_cons (inc : BitVec 16) (incs : List (BitVec 16)) :
    incTotal (inc :: incs) = BitVec.ofNat 32 inc.toNat + incTotal incs := by
  have hacc : ∀ (l : List (BitVec 16)) (x : Word),
      l.foldl (fun (x : Word) (i : BitVec 16) => x + BitVec.ofNat 32 i.toNat) x = x + incTotal l := by
    intro l
    induction l with
    | nil => exact fun x => (add_zero x).symm
    | cons j l ih =>
      intro x
      rw [incTotal, List.foldl_cons, List.foldl_cons, ih, ih, zero_add, add_assoc]
  rw [incTotal, List.foldl_cons, hacc, zero_add]

/-- Increments add to a knot just set (R130). -/
theorem foldl_incKnot_setKnot (incs : List (BitVec 16)) : ∀ v : Word,
    incs.foldl (fun s inc => s.incKnot n i inc.toNat) (s.setKnot n i v) = s.setKnot n i (v + incTotal incs) := by
  induction incs with
  | nil => exact fun v => congrArg (s.setKnot n i) (add_zero v).symm
  | cons inc incs ih =>
    intro v
    rw [List.foldl_cons, State.incKnot, knot_setKnot_self, setKnot_setKnot, ih, incTotal_cons, add_assoc]

/-- Setting a knot changes its array's table only. -/
theorem changes_setKnot (ht : t.near s n) (hi : i < 2048) :
    Changes (.next (t.setKnot n i v)) s n { t.arr n with knots := SMap.put 0 (t.arr n).knots i v } t := by
  unfold State.setKnot
  rw [Nat.mod_eq_of_lt hi]
  exact changes_modArr ht _ rfl rfl rfl

/-! ### Writes of an array's knot registers -/

/-- A table with a row that holds an offset finds a register there. -/
theorem findReg_isSome {l : List RegDef} {r : RegDef} {off : Nat} (hr : r ∈ l) (hm : (r.match? off).isSome = true) :
    ∃ h, findReg l off = some h := by
  induction l with
  | nil => cases hr
  | cons r' l ih =>
    unfold findReg
    cases hm' : r'.match? off with
    | some p => exact ⟨_, rfl⟩
    | none =>
      rcases List.mem_cons.mp hr with rfl | hr
      · rw [hm'] at hm
        cases hm
      · exact ih hr

/-- KNT_VALUE, as the table of an array's registers gives it. -/
def knotValueRow : RegDef := ⟨"KNT_VALUE", 0x4000, 2048, 0x4, 1, false, [⟨0, 32, .rwl, 0⟩]⟩

theorem knotValueRow_mem : knotValueRow ∈ arrayRegs := by decide +kernel

theorem findReg_knotValue {i : Nat} (hi : i < 2048) : ∃ h, findReg arrayRegs (0x4000 + 4 * i) = some h := by
  refine findReg_isSome knotValueRow_mem ?_
  simp [RegDef.match?, knotValueRow, hi]

/-- What a write below an array's vault registers meets for a requester that may act there: registers that answer, and no rule
that keeps it out (R37, R383, R512). -/
theorem arrayWindow_open (hact : s.mayAct q n) (off : Nat) :
    s.windowDead n = false ∧ s.msixAt n off = none ∧ absentReg n off = false
      ∧ ∀ base h, base < 0x8000 → (nonSecure q && s.writeDenied n base h v) = false
        ∧ ∀ f, (!nonSecure q || s.mayWrite n base f) = true := by
  have hn := n.isLt
  obtain ⟨-, hpow, hworld⟩ := hact
  refine ⟨?_, if_pos (by omega), ?_, fun base h hbase => ⟨?_, fun f => ?_⟩⟩
  · unfold State.windowDead
    rw [allArrays_get]
    simp [hpow]
  · unfold absentReg
    simp
    omega
  · cases hq : nonSecure q
    · rfl
    · simp [State.writeDenied, allArrays_get, hworld hq]
      omega
  · cases hq : nonSecure q
    · rfl
    · simp [State.mayWrite, allArrays_get, hworld hq]
      omega

/-- A write that passes its gate and reaches an array's window writes there. -/
theorem regWrite_array (hact : s.mayAct q n) (hpass : s.passes q) {off : Nat} (hoff : off + 4 < 0x100000) (hal : off % 4 = 0) :
    s.regWrite q false (regKey n off) 4 v = s.writeWindow q n off v := by
  have hdiv : regKey n off / 0x100000 = n := window_div (by omega)
  have hmod : regKey n off % 0x100000 = off := window_mod (by omega)
  have hkey : ¬ (4 ≠ 4 ∨ regKey n off % 4 ≠ 0) := by unfold regKey; omega
  rw [regWrite_of_crosses fun _ => hpass, State.regWriteAt, reaches_window hact hoff, if_neg (by simp),
    if_neg Bool.false_ne_true, if_neg hkey, hdiv, hmod]

/-- A write of KNT_VALUE_i writes the knot, or is dropped (R133). -/
theorem writeWindow_knotValue (hact : s.mayAct q n) {i : Nat} (hi : i < 2048) :
    s.writeWindow q n (0x4000 + 4 * i) v = s.writeKnot n i v := by
  obtain ⟨h, hf⟩ := findReg_knotValue hi
  obtain ⟨hdead, hmsix, habs, hopen⟩ := arrayWindow_open (v := v) hact (0x4000 + 4 * i)
  obtain ⟨hdenied, -⟩ := hopen (0x4000 + 4 * i - if h.high then 4 else 0) h (by split <;> omega)
  have hsealed : (nonSecure q && s.arraySealed n) = false := by
    cases hq : nonSecure q
    · rfl
    · rw [hact.2.2 hq, Bool.and_false]
  have hcopy : copyOf 0x4000 4 (0x4000 + 4 * i) = i := by unfold copyOf; omega
  have hmod : (0x4000 + 4 * i) % 0x80000 = 0x4000 + 4 * i := Nat.mod_eq_of_lt (by omega)
  have hlower : 0x4000 + 4 * i < 0x80000 ∧ 0x4000 + 4 * i < 0x6000 := by omega
  simp [State.writeWindow, allArrays_get, hdead, hmsix, habs, windowRegs_array n.isLt, hmod, hf, hlower, hlower.1.not_ge,
    hdenied, hsealed, hcopy]

/-- KNT_SIGNAL, as the table of an array's registers gives it. -/
def kntSignalRow : RegDef := ⟨"KNT_SIGNAL", 0x2010, 1, 0x4, 1, false, [⟨0, 11, .wo, 0⟩, ⟨16, 16, .wo, 0⟩]⟩

theorem findReg_kntSignal : findReg arrayRegs 0x2010 = some ⟨kntSignalRow, 0, false⟩ := by decide +kernel

/-- A write of KNT_SIGNAL raises its knot (R134). -/
theorem writeWindow_kntSignal (hact : s.mayAct q n) : s.writeWindow q n 0x2010 v = s.kntSignal n v := by
  obtain ⟨hdead, hmsix, habs, hopen⟩ := arrayWindow_open (v := v) hact 0x2010
  obtain ⟨hdenied, hmay⟩ := hopen 0x2010 ⟨kntSignalRow, 0, false⟩ (by omega)
  have hn : n.val ≠ 0x40 ∧ n.val ≠ 0x44 := by omega
  have hwo : (kntSignalRow.fields.any fun f => f.access == .wo) = true := by decide
  have hstored := writeHit_starts (s := s) (v := v) (h := ⟨kntSignalRow, 0, false⟩) (by decide) (regKey n 0x2010)
  simp [State.writeWindow, State.reelEnabled, State.patrolEnabled, State.writeAction, allArrays_get, hdead, hmsix, habs,
    windowRegs_array n.isLt, findReg_kntSignal, hdenied, hmay, hn, hwo, hstored]

/-! ### The rows -/

/-- KNT_SIGNAL for a half with a lower claim than the gate's is rejected at its gate (R361). -/
theorem exec_kntSignal_rejected (hq : q = .spindle) (hpow : s.twn.powered[(halfIx s.spindleHalf).val] = true)
    (hstop : s.twn.stopped[(halfIx s.spindleHalf).val] = false) (hlow : s.claim s.spindleHalf < s.get F.twnGateClaimClaim) :
    exec (.kntSignal q n v) s = .next (s.gateReject s.spindleHalf (s.claim s.spindleHalf) 4) := by
  have hgate : gateOfWrite (regKey n 0x2010 / 0x100000) (regKey n 0x2010 % 0x100000) = some 4 := by
    have hdiv : regKey n 0x2010 / 0x100000 = n := window_div (by omega)
    have hmod : regKey n 0x2010 % 0x100000 = 0x2010 := window_mod (by omega)
    rw [hdiv, hmod, gateOfWrite, if_neg (by omega), if_pos n.isLt, if_pos (.inl rfl)]
  change execKntSignal q n v s = _
  rw [execKntSignal, State.regWrite, if_pos hq, hgate]
  dsimp only
  rw [State.gated, hpow, hstop]
  simp [hlow, hlow.ne]

/-- KNT_SIGNAL adds its increment to its knot, busy or not (R130, R134). -/
theorem changes_kntSignal (hact : s.mayAct q n) (hpass : s.passes q) :
    let k := bitsAt v.toNat 0 11
    let w := s.knot n k + BitVec.ofNat 32 (bitsAt v.toNat 16 16)
    Changes (exec (.kntSignal q n v) s) s n { s.arr n with knots := SMap.put 0 (s.arr n).knots k w } s := by
  intro k w
  change Changes (.next (s.regWrite q false (regKey n 0x2010) 4 v)) s n _ s
  rw [regWrite_array hact hpass (by decide) rfl, writeWindow_kntSignal hact]
  exact changes_setKnot near_refl (bitsAt_lt _ 0 11)

/-- KNT_VALUE_i writes the knot or is dropped, and then the increments of the same cycle add to it (R130, R133). -/
theorem exec_kntValueWrite (hact : s.mayAct q n) (hpass : s.passes q) (i : Fin 2048) (incs : List (BitVec 16)) :
    exec (.kntValueWrite q n i v incs) s
      = .next (incs.foldl (fun s inc => s.incKnot n i.val inc.toNat) (s.writeKnot n i v)) := by
  change Host.Outcome.next _ = _
  rw [regWrite_array hact hpass (by omega) (by omega), writeWindow_knotValue hact i.isLt]

theorem changes_kntValueWrite_idle (hact : s.mayAct q n) (hpass : s.passes q) (i : Fin 2048) (incs : List (BitVec 16))
    (hidle : s.busy n = false) :
    Changes (exec (.kntValueWrite q n i v incs) s) s n
      { s.arr n with knots := SMap.put 0 (s.arr n).knots i.val (v + incTotal incs) } s := by
  rw [exec_kntValueWrite hact hpass, State.writeKnot, hidle, if_neg Bool.false_ne_true, foldl_incKnot_setKnot]
  exact changes_setKnot near_refl i.isLt

/-- The state in which a write of KNT_VALUE to a busy array has been dropped (R15, R133). -/
def State.knotDropped (s : State) (n : ArrayNum) : State :=
  (s.raiseBit (F.arrStatusCfgWriteBusy n)).cfgWriteBusy n.val 0 (s.partOf n)

theorem knotDropped_based : (s.knotDropped n).based s := State.cfgWriteBusy_based (State.raiseBit_based State.based_refl)

/-- Increments that arrive with a dropped write count. -/
theorem changes_kntValueWrite_busy (hact : s.mayAct q n) (hpass : s.passes q) (i : Fin 2048) (inc : BitVec 16)
    (incs : List (BitVec 16)) (hbusy : s.busy n = true) :
    Changes (exec (.kntValueWrite q n i v (inc :: incs)) s) s n
      { s.arr n with knots := SMap.put 0 (s.arr n).knots i.val (s.knot n i.val + incTotal (inc :: incs)) }
      (s.knotDropped n) := by
  have harr : (s.knotDropped n).arr n = s.arr n := knotDropped_based.arr n
  have hknot : (s.knotDropped n).knot n i.val = s.knot n i.val := by
    unfold State.knot
    rw [harr]
  have h := changes_setKnot (n := n) (v := s.knot n i.val + incTotal (inc :: incs))
    (near_of_based near_refl (knotDropped_based (s := s) (n := n))) i.isLt
  rw [harr] at h
  rw [exec_kntValueWrite hact hpass, State.writeKnot, hbusy, if_pos rfl, List.foldl_cons, State.incKnot,
    foldl_incKnot_setKnot, add_assoc, ← incTotal_cons]
  change Changes (.next ((s.knotDropped n).setKnot n i ((s.knotDropped n).knot n i + _))) _ _ _ _
  rw [hknot]
  exact h

/-- A dropped write with no increment leaves the arrays as they are, down to the tables of their knots. -/
theorem exec_kntValueWrite_dropped (hact : s.mayAct q n) (hpass : s.passes q) (i : Fin 2048) (hbusy : s.busy n = true) :
    exec (.kntValueWrite q n i v []) s = .next (s.knotDropped n) := by
  rw [exec_kntValueWrite hact hpass, State.writeKnot, hbusy, if_pos rfl]
  rfl

end

/-! ### The obligation -/

/-- A powered module whose array 0 runs a kernel and lists its knot 0 with the value 0, which an unlisted knot reads as well. -/
def knotListed : State :=
  { State.reset with
    board := { State.reset.board with sections := true }
    arrays := State.reset.arrays.set 0 { ArrayState.reset with kernel := true, knots := [(0, 0)] } }

/-- Refutes O22 at a write of KNT_VALUE to a busy array with no increment in its cycle: the write is dropped and the array stays
as it is, but the statement has the knot put back with the value it reads. Where the array's table lists a knot of 0, which no
hypothesis of the statement excludes, putting it back takes it off the table, and the two arrays differ. With an increment, on
an array that is not busy, and for KNT_SIGNAL, the clauses hold in every state: `changes_kntValueWrite_busy`,
`changes_kntValueWrite_idle`, `changes_kntSignal`, `exec_kntSignal_rejected`. -/
theorem not_knotsSignalledAndWritten : ¬ Obligations.KnotsSignalledAndWritten := by
  intro h
  have hact : knotListed.mayAct .reel 0 := by unfold State.mayAct; decide +kernel
  have hpass : knotListed.passes .reel := nofun
  have hbusy : knotListed.busy 0 = true := by decide +kernel
  obtain ⟨t, ht, harr, -⟩ := ((h .reel 0 knotListed hact).2.2 hpass 0 0 []).2 hbusy
  rw [exec_kntValueWrite_dropped hact hpass 0 hbusy] at ht
  injection ht with ht
  have hkept : (knotListed.arr 0).knots = SMap.put 0 (knotListed.arr 0).knots 0 (knotListed.knot 0 0 + 0) :=
    congrArg ArrayState.knots ((knotDropped_based.arr 0).symm.trans (ht ▸ harr))
  exact absurd hkept (by decide +kernel)

end Sys2Proof.Machine
end

section
/-!
PROOFS. Clears of vaults (R156, R158, R160, R383): what a write that asks for a clear comes to, and what a clear's start and end
change, and from these the obligation on them.
-/

namespace Sys2Proof.Machine

section
variable {r s t u : State} {n : ArrayNum} {q : Requester} {v : Word} {a k first count : Nat}

/-! ### Writes that ask for a clear (R10, R158, R159, R383) -/

/-- A write of a lower half's register all of whose fields are write-only, by one of the module's own blocks, starts what the
register starts. -/
theorem writeWindow_starts {b off : Nat} {h : RegHit} (hq : nonSecure q = false) (hf : findReg (windowRegs b) off = some h)
    (hs : h.starts = true) (hoff : off < 0x80000) (hdead : s.windowDead b = false) (hmsix : s.msixAt b off = none)
    (habs : absentReg b off = false) (hknot : ¬ (b < 64 ∧ 0x4000 ≤ off ∧ off < 0x6000)) (hreel : b ≠ 0x40)
    (htier : ¬ (b = 0x44 ∧ off = 0x14)) (hvault : ¬ (b < 64 ∧ off = 0x8010)) :
    s.writeWindow q b off v = s.writeAction b off v := by
  have hstored := writeHit_starts (s := s) (v := v) hs (regKey b off) (s.locked b off) fun t => t.lockedDrop b off
  simp only [RegHit.starts, Bool.and_eq_true, Bool.not_eq_true', List.all_eq_true, beq_iff_eq, List.isEmpty_eq_false_iff] at hs
  obtain ⟨⟨⟨hlow, -⟩, hall⟩, hne⟩ := hs
  obtain ⟨f, hfm⟩ := List.exists_mem_of_ne_nil _ hne
  have hwo : (h.row.fields.any fun f => f.access == .wo) = true := List.any_eq_true.mpr ⟨f, hfm, by simp [hall f hfm]⟩
  simp [State.writeWindow, State.reelEnabled, hdead, hmsix, Nat.mod_eq_of_lt hoff, habs, hf, hlow, hq, hoff.not_ge, hknot, hreel,
    hstored, patrolEnabled_of_other htier hvault, hwo]

/-- Fields that a requester may not write keep what they hold. -/
theorem writeHit_closed (key : Nat) (h : RegHit) (lock : Bool) (drop : State → State) :
    s.writeHit key h lock drop (fun _ => false) v = s := by
  simp [State.writeHit]

/-- VLT_CLEAR_GO and TIER_CLEAR_GO are registers whose writes start something. -/
theorem clearGos_start :
    (findReg arrayRegs 0x801C).any RegHit.starts = true ∧ (findReg (windowRegs 0x44) 0x20).any RegHit.starts = true := by
  decide +kernel

theorem exists_starts {o : Option RegHit} (h : o.any RegHit.starts = true) : ∃ x, o = some x ∧ x.starts = true := by
  obtain ⟨x, rfl⟩ := Option.isSome_iff_exists.mp (Option.isSome_of_any h)
  exact ⟨x, rfl, h⟩

/-- VLT_CLEAR_GO crosses no gate, and a requester whose accesses are decoded reaches it. -/
theorem exec_vltClearGo (hport : (portOf q).all (fun p => s.portLive p) = true) :
    exec (.vltClearGo q n v) s = .next (s.writeWindow q n 0x801C v) := by
  have hn := n.isLt
  have hdiv : regKey n 0x801C / 0x100000 = n := window_div (by omega)
  have hmod : regKey n 0x801C % 0x100000 = 0x801C := window_mod (by omega)
  have hcross : s.crosses q (regKey n 0x801C / 0x100000) (regKey n 0x801C % 0x100000) := by
    rw [hdiv, hmod, State.crosses, gateOfWrite, if_neg (by omega), if_pos hn, if_neg (by omega)]
    exact nofun
  have hreach : s.reaches q false (regKey n 0x801C) 4 = true := by
    unfold State.reaches regKey
    cases hq : portOf q with
    | none => simp; omega
    | some p => rw [hq] at hport; simpa using ⟨hport, by omega⟩
  have hkey : ¬ (4 ≠ 4 ∨ regKey n 0x801C % 4 ≠ 0) := by unfold regKey; omega
  refine congrArg Host.Outcome.next ?_
  rw [regWrite_of_crosses hcross, State.regWriteAt, hreach, if_neg (by simp), if_neg Bool.false_ne_true, if_neg hkey, hdiv, hmod]

/-- By one of the module's own blocks, a write of 1 to VLT_CLEAR_GO asks for the clear its registers name (R158). -/
theorem exec_vltClearGo_own (hq : nonSecure q = false) (hpow : s.powered n = true) (hv : v.getLsbD 0 = true) :
    exec (.vltClearGo q n v) s
      = .next (s.vaultClear n (s.get (F.vltClearFirstFirst n)) (s.get (F.vltClearCountCount n))) := by
  have hport : (portOf q).all (fun p => s.portLive p) = true := by rw [portOf_of_secure hq]; rfl
  obtain ⟨h, hf, hs⟩ := exists_starts clearGos_start.1
  obtain ⟨hdead, hmsix, habs, -⟩ :=
    arrayWindow_open (v := v) ⟨hport, hpow, fun h => absurd h (by simp [hq])⟩ 0x801C
  rw [exec_vltClearGo hport, writeWindow_starts hq (by rwa [windowRegs_array n.isLt]) hs (by decide) hdead hmsix habs (by omega)
    (by omega) (by omega) (by omega), State.writeAction, allArrays_get]
  exact congrArg Host.Outcome.next (if_pos hv)

/-- By a host or a peer it is denied and counted (R383). -/
theorem exec_vltClearGo_denied (hq : nonSecure q = true) (hport : (portOf q).all (fun p => s.portLive p) = true)
    (hpow : s.powered n = true) : exec (.vltClearGo q n v) s = .next (s.bump F.cocNsDropDenied) := by
  obtain ⟨h, hf, hs⟩ := exists_starts clearGos_start.1
  simp only [RegHit.starts, Bool.and_eq_true, Bool.not_eq_true'] at hs
  obtain ⟨hdead, hmsix, habs, -⟩ := arrayWindow_open (q := .reel) (v := v) ⟨rfl, hpow, nofun⟩ 0x801C
  have hn : n.val ≠ 0x40 ∧ n.val ≠ 0x44 := by omega
  rw [exec_vltClearGo hport]
  simp [State.writeWindow, State.reelEnabled, State.patrolEnabled, State.writeDenied, State.mayWrite, allArrays_get, hdead, hmsix,
    habs, windowRegs_array n.isLt, hf, hs.1.1.1, hq, hn, writeHit_closed]

/-! ### Single bits -/

/-- A status bit just raised is 1. -/
theorem flag_raiseBit {f : Fld} (hfit : f.fits = true) (hwidth : f.width = 1) : (s.raiseBit f).flag f = true := by
  rw [State.flag, State.raiseBit, get_set_self hfit, hwidth]
  rfl

theorem raiseBit_regsOver {f : Fld} : (s.raiseBit f).regsOver s := set_regsOver

/-! ### Tags that move on (R156) -/

/-- Changing the tags of a run of granules in turn, each by the same function, changes those tags and no other. -/
theorem foldl_mapTags {tag : State → Nat → Byte} {put : State → Nat → Byte → State} (f : Byte → Byte)
    (hput : ∀ s g x i, tag (put s g x) i = if i = g then x else tag s i) (first count : Nat) : ∀ g,
    tag ((List.range count).foldl (fun s i => put s (first + i) (f (tag s (first + i)))) s) g
      = if first ≤ g ∧ g < first + count then f (tag s g) else tag s g := by
  induction count with
  | zero => exact fun g => (if_neg (by omega)).symm
  | succ count ih =>
    intro g
    rw [List.range_succ, List.foldl_append, List.foldl_cons, List.foldl_nil, hput]
    by_cases hg : g = first + count
    · rw [if_pos hg, if_pos (by omega), ih, if_neg (by omega), hg]
    · rw [if_neg hg, ih]
      exact if_congr (by omega) rfl rfl

/-- The tags of a run of vault granules, moved on as their clear ends. -/
def State.moveVtags (s : State) (n : ArrayNum) (first count : Nat) : State :=
  (List.range count).foldl (fun s i => s.setVtag n (first + i) (clearedTag (s.vtag n (first + i)))) s

theorem vtag_moveVtags (g : Nat) : (s.moveVtags n first count).vtag n g
    = if first ≤ g ∧ g < first + count then clearedTag (s.vtag n g) else s.vtag n g :=
  foldl_mapTags (tag := fun s g => s.vtag n g) (put := fun s g x => s.setVtag n g x) clearedTag
    (fun s g x i => by
      change SMap.look 0 ((s.modArr n _).arr n).vtags i = _
      rw [arr_modArr_self]
      exact look_put) first count g

/-- t is s but for the tags of array n's vault. -/
def State.vtagsOver (n : ArrayNum) (t s : State) : Prop :=
  t = { s with arrays := t.arrays } ∧ t.arr n = { s.arr n with vtags := (t.arr n).vtags } ∧ ∀ m, m ≠ n → t.arr m = s.arr m

theorem State.vtagsOver.trans (h : t.vtagsOver n s) (g : s.vtagsOver n r) : t.vtagsOver n r := by
  obtain ⟨hframe, hself, hothers⟩ := h
  obtain ⟨gframe, gself, gothers⟩ := g
  exact ⟨hframe.trans (congrArg (fun x : State => { x with arrays := t.arrays }) gframe),
    hself.trans (congrArg (fun a : ArrayState => { a with vtags := (t.arr n).vtags }) gself),
    fun m hm => (hothers m hm).trans (gothers m hm)⟩

theorem setVtag_vtagsOver {g : Nat} {x : Byte} : (s.setVtag n g x).vtagsOver n s := by
  refine ⟨rfl, ?_, fun m hm => arr_modArr_ne _ hm⟩
  unfold State.setVtag
  rw [arr_modArr_self]

theorem moveVtags_vtagsOver : (s.moveVtags n first count).vtagsOver n s :=
  foldl_over (R := State.vtagsOver n) (fun _ => ⟨rfl, rfl, fun _ _ => rfl⟩) State.vtagsOver.trans fun _ _ => setVtag_vtagsOver

/-! ### The end of a clear (R156, R158 to R160) -/

/-- Memory, its written lines and the keys that serve them decide every byte. -/
theorem byte_of_lineKey (hmem : t.mem = s.mem) (hline : t.tline = s.tline) (hkey : ∀ l, t.lineKey l = s.lineKey l) (x : Nat) :
    t.byte x = s.byte x := by
  unfold State.byte State.foreignLine State.foreignBytes State.plainLine
  simp only [hmem, hline, hkey]

/-- A clear of a range changes memory, its written lines and its error words only. -/
theorem wipe_storedOver : (s.wipe a k).storedOver s := by
  have hopen : (s.openLines (tierEnds a k)).storedOver s :=
    foldl_over (R := State.storedOver) (fun _ => rfl) State.storedOver.trans fun _ _ => by unfold State.openLine; split <;> rfl
  have hclear : ∀ {u : State}, (u.clearBytes a k).storedOver u := rfl
  have hseal : ∀ {u : State} {ls : List Nat}, (u.sealLines ls).storedOver u :=
    foldl_over (R := State.storedOver) (fun _ => rfl) State.storedOver.trans fun _ _ => by rfl
  exact hseal.trans (hclear.trans hopen)

/-- An uncorrectable word is gone where the clear's range holds it, and stays elsewhere. -/
theorem mem_ue_wipe {w : Nat} : w ∈ (s.wipe a k).ue ↔ w ∈ s.ue ∧ ¬ (a ≤ w ∧ w < a + k) := by
  simp [State.wipe, State.clearBytes]
  omega

/-- Registers changed after an array. -/
theorem regsOver_modArr {f : ArrayState → ArrayState} (hu : u = { s with arrays := u.arrays }) (h : t.regsOver (u.modArr n f)) :
    t = { s with arrays := t.arrays, regs := t.regs } := by
  have hmod : u.modArr n f = { s with arrays := (u.modArr n f).arrays } :=
    congrArg (fun x : State => { x with arrays := (u.modArr n f).arrays }) hu
  rw [h.arrays]
  exact Eq.trans h (congrArg (fun x : State => { x with regs := t.regs }) hmod)

/-- What follows the zeros of a vault's clear: the granules' tags move on, the array holds no clear, and clear_done is 1. -/
def State.vaultDone (s : State) (n : ArrayNum) (first count : Nat) : State :=
  ((s.moveVtags n first count).modArr n fun a => { a with clear := .none }).raiseBit (F.vltStatusClearDone n)

theorem vaultDone_frame : s.vaultDone n first count
    = { s with arrays := (s.vaultDone n first count).arrays, regs := (s.vaultDone n first count).regs } :=
  regsOver_modArr moveVtags_vtagsOver.1 raiseBit_regsOver

theorem arr_vaultDone_eq (m : ArrayNum) : (s.vaultDone n first count).arr m
    = ((s.moveVtags n first count).modArr n fun a => { a with clear := .none }).arr m :=
  arr_of_arrays raiseBit_regsOver.arrays m

/-- Of the array itself only its clear and its tags change, and of no other array anything. -/
theorem arr_vaultDone : (s.vaultDone n first count).arr n
    = { s.arr n with clear := .none, vtags := ((s.vaultDone n first count).arr n).vtags } := by
  rw [arr_vaultDone_eq, arr_modArr_self, moveVtags_vtagsOver.2.1]

theorem arr_vaultDone_ne {m : ArrayNum} (hm : m ≠ n) : (s.vaultDone n first count).arr m = s.arr m := by
  rw [arr_vaultDone_eq, arr_modArr_ne _ hm, moveVtags_vtagsOver.2.2 m hm]

theorem vtag_vaultDone (g : Nat) : (s.vaultDone n first count).vtag n g
    = if first ≤ g ∧ g < first + count then clearedTag (s.vtag n g) else s.vtag n g := by
  rw [State.vtag, arr_vaultDone_eq, arr_modArr_self]
  exact vtag_moveVtags g

theorem arr_wipe (m : ArrayNum) : (s.wipe a k).arr m = s.arr m := arr_of_arrays (State.wipe_arrays ..) m

/-- What a vault's clear leaves: zeros in its range, no error words there, tags moved on, clear_done, no clear, and all else as
before (R156, R160). -/
theorem wipe_vaultDone {lo hi : Nat} (hhi : lo + k = hi) : let t := (s.wipe lo k).vaultDone n first count
    (∀ x, t.byte x = if lo ≤ x ∧ x < hi then 0 else s.byte x) ∧ (∀ w, w ∈ t.ue ↔ w ∈ s.ue ∧ ¬ (lo ≤ w ∧ w < hi))
      ∧ (∀ g, t.vtag n g = if first ≤ g ∧ g < first + count then clearedTag (s.vtag n g) else s.vtag n g)
      ∧ t.flag (F.vltStatusClearDone n) = true ∧ t.arr n = { s.arr n with clear := .none, vtags := (t.arr n).vtags }
      ∧ (∀ m, m ≠ n → t.arr m = s.arr m)
      ∧ t = { s with mem := t.mem, tline := t.tline, ue := t.ue, ce := t.ce, arrays := t.arrays, regs := t.regs } := by
  subst hhi
  have hframe := vaultDone_frame (s := s.wipe lo k) (n := n) (first := first) (count := count)
  refine ⟨fun x => ?_, fun w => ?_, fun g => ?_, flag_raiseBit rfl rfl, ?_, fun m hm => ?_, ?_⟩
  · have hkey : ∀ l, ((s.wipe lo k).vaultDone n first count).lineKey l = (s.wipe lo k).lineKey l :=
      lineKey_congr (by rw [hframe]) (by rw [hframe])
    exact (byte_of_lineKey (by rw [hframe]) (by rw [hframe]) hkey x).trans (byte_wipe lo k x)
  · have hue : ((s.wipe lo k).vaultDone n first count).ue = (s.wipe lo k).ue := by rw [hframe]
    rw [hue]
    exact mem_ue_wipe
  · rw [vtag_vaultDone, State.vtag, arr_wipe]
    rfl
  · rw [← arr_wipe (s := s) (a := lo) (k := k) n]
    exact arr_vaultDone
  · rw [arr_vaultDone_ne hm, arr_wipe]
  · rw [hframe, wipe_storedOver]

/-- An array without other work (R158). -/
theorem otherWork_eq_false (hkernel : (s.arr n).kernel = false) (hrestaging : (s.arr n).restaging = false)
    (hscrubbing : (s.arr n).scrubbing = false) (htest : (s.arr n).test = .none) : (s.arr n).otherWork = false := by
  simp [ArrayState.otherWork, hkernel, hrestaging, hscrubbing, htest]

/-- A held clear of an array without other work starts once no access to its granules is pending. -/
theorem exec_vaultClearStart (hclear : (s.arr n).clear = .held first count) (hwork : (s.arr n).otherWork = false)
    (hpending : s.accessPending (vaultBase n + first * 0x400000) (count * 0x400000) = false) :
    exec (.vaultClearStart n) s = .next (s.modArr n fun a => { a with clear := .running first count }) := by
  refine congrArg Host.Outcome.next ?_
  unfold State.vaultClearBegin
  dsimp only
  rw [hclear]
  dsimp only
  rw [hwork, hpending]
  rfl

/-- A running clear of an array without other work ends. -/
theorem exec_vaultClearDone (hclear : (s.arr n).clear = .running first count) (hwork : (s.arr n).otherWork = false)
    (hcalm : s.calm) : exec (.vaultClearDone n) s
      = .next ((s.wipe (vaultBase n + first * 0x400000) (count * 0x400000)).vaultDone n first count) := by
  have hend : s.vaultClearEnd n
      = (s.wipe (vaultBase n + first * 0x400000) (count * 0x400000)).vaultDone n first count := by
    unfold State.vaultClearEnd
    rw [hclear]
    dsimp only
    rw [hwork]
    rfl
  refine congrArg Host.Outcome.next ?_
  rw [hclear]
  dsimp only
  rw [hend]
  obtain ⟨-, -, -, -, -, -, hframe⟩ := wipe_vaultDone (s := s) (n := n) (first := first) (count := count) rfl
  exact settle_of_calm (hcalm.congr (by rw [hframe]) (by rw [hframe]))

end

/-! ### The obligation -/

/-- A change of registers, event records and board only. -/
theorem changes_based {s u : State} {n : ArrayNum} (h : u.based s) : Changes (.next u) s n (s.arr n) u := by
  rw [← h.arr n]
  exact changes_near (near_of_based near_refl h) rfl rfl rfl

/-- Settles O23: a request of each world, the clear's start, and its end, whose zeros and tags are `wipe_vaultDone`. -/
theorem vaultClears : Obligations.VaultClears := by
  intro n s
  refine ⟨fun q v hq hpow hv => ?_, fun q v hq hport hpow => ?_, fun first count hclear hk hr hsc ht hpending => ?_,
    fun first count hclear hk hr hsc ht hcalm _ => ?_⟩
  · dsimp only
    rw [exec_vltClearGo_own hq hpow hv, State.vaultClear]
    refine ⟨fun hnone hpos hlast => ?_, fun hbad => ?_⟩
    · rw [if_neg (by simp [hnone]; omega)]
      exact changes_modArr near_refl _ rfl rfl rfl
    · rw [if_pos hbad]
      exact changes_based (State.raiseBit_based State.based_refl)
  · rw [exec_vltClearGo_denied hq hport hpow]
    exact changes_based (State.bump_based State.based_refl)
  · rw [exec_vaultClearStart hclear (otherWork_eq_false hk hr hsc ht) hpending]
    exact changes_modArr near_refl _ rfl rfl rfl
  · exact ⟨_, exec_vaultClearDone hclear (otherWork_eq_false hk hr hsc ht) hcalm, wipe_vaultDone (by omega)⟩

end Sys2Proof.Machine
end

section
/-!
PROOFS. Clears of the tier and the patrol (R153, R156, R159 to R161, R404): a clear's request, its start with or without new keys,
what its end changes, and what a patrol's pass counts and corrects, and from these the obligation on them.
-/

namespace Sys2Proof.Machine

section
variable {s t : State} {q : Requester} {v : Word} {c : TierClear} {l : List TierClear} {a k first count : Nat}
  {o : Host.Outcome State Fault Refusal}

/-- By one of the module's own blocks, a write of 1 to TIER_CLEAR_GO asks for the clear its registers name (R159). -/
theorem exec_tierClearGo_own (hq : nonSecure q = false) (hv : v.getLsbD 0 = true) :
    exec (.tierClearGo q v) s = .next (s.tierClear (s.get F.tierClearFirstFirst) (s.get F.tierClearCountCount)
      (s.flag F.tierClearCountRekey) (s.get F.tierClearCountSlot)) := by
  obtain ⟨h, hf, hs⟩ := exists_starts clearGos_start.2
  have hwrite : exec (.tierClearGo q v) s = .next (s.writeWindow q 0x44 0x20 v) :=
    exec_registerWrite_own rfl hq (by decide) (by decide) rfl nofun
  rw [hwrite, writeWindow_starts hq hf hs (by decide) rfl rfl rfl (by decide) (by decide) (by decide) (by decide)]
  exact congrArg Host.Outcome.next (if_pos hv)

/-! ### The end of a clear (R156, R159, R160) -/

/-- The tags of a run of tier granules, moved on as their clear ends. -/
def State.moveTtags (s : State) (first count : Nat) : State :=
  (List.range count).foldl (fun s i => s.setTtag (first + i) (clearedTag (s.ttag (first + i)))) s

theorem ttag_moveTtags (g : Nat) : (s.moveTtags first count).ttag g
    = if first ≤ g ∧ g < first + count then clearedTag (s.ttag g) else s.ttag g :=
  foldl_mapTags (tag := State.ttag) (put := State.setTtag) clearedTag (fun _ _ _ _ => look_put) first count g

/-- t is s but for the tier's tags. -/
def State.ttagsOver (t s : State) : Prop := t = { s with tierTags := t.tierTags }

theorem moveTtags_ttagsOver : (s.moveTtags first count).ttagsOver s :=
  foldl_over (R := State.ttagsOver) (fun _ => rfl)
    (fun {_ _ t} h g => Eq.trans h (congrArg (fun x : State => { x with tierTags := t.tierTags }) g)) fun _ _ => by rfl

/-- A tag that moves on keeps the owner it names. -/
theorem clearedTag_owner : ∀ t : Byte,
    tagOwned (clearedTag t) = tagOwned t ∧ tagPart (clearedTag t) = tagPart t ∧ tagPlatform (clearedTag t) = tagPlatform t := by
  decide +kernel

/-- The keys that serve the tier's lines are those of their owners still (R153). -/
theorem lineKey_moveTtags (l : Nat) : (s.moveTtags first count).lineKey l = s.lineKey l := by
  have hcoc : (s.moveTtags first count).coc = s.coc := by rw [moveTtags_ttagsOver]
  have howner : ∀ g, tagOwned ((s.moveTtags first count).ttag g) = tagOwned (s.ttag g)
      ∧ tagPart ((s.moveTtags first count).ttag g) = tagPart (s.ttag g)
      ∧ tagPlatform ((s.moveTtags first count).ttag g) = tagPlatform (s.ttag g) := fun g => by
    rw [ttag_moveTtags]
    split
    · exact clearedTag_owner _
    · exact ⟨rfl, rfl, rfl⟩
  obtain ⟨howned, hpart, hplatform⟩ := howner (l / 0x10000)
  unfold State.lineKey State.keySlot
  simp only [hcoc, howned, hpart, hplatform]

/-- What follows the zeros of a tier clear: the granules' tags move on, and clear_done is 1. -/
def State.tierDone (s : State) (first count : Nat) : State := (s.moveTtags first count).raiseBit F.tierStatusClearDone

theorem tierDone_frame : s.tierDone first count
    = { s with tierTags := (s.tierDone first count).tierTags, regs := (s.tierDone first count).regs } := by
  have hregs : (s.tierDone first count).regsOver (s.moveTtags first count) := raiseBit_regsOver
  have htags : (s.tierDone first count).tierTags = (s.moveTtags first count).tierTags := by rw [hregs]
  rw [htags]
  exact Eq.trans hregs (congrArg (fun x : State => { x with regs := (s.tierDone first count).regs }) moveTtags_ttagsOver)

/-- What a tier clear leaves: zeros in its range, tags moved on, clear_done, and all else but error words as before (R156,
R160). -/
theorem wipe_tierDone {lo hi : Nat} (hhi : lo + k = hi) : let t := (s.wipe lo k).tierDone first count
    t.flag F.tierStatusClearDone = true ∧ (∀ x, t.byte x = if lo ≤ x ∧ x < hi then 0 else s.byte x)
      ∧ (∀ g, t.ttag g = if first ≤ g ∧ g < first + count then clearedTag (s.ttag g) else s.ttag g)
      ∧ t = { s with mem := t.mem, tline := t.tline, ue := t.ue, ce := t.ce, tierTags := t.tierTags, regs := t.regs } := by
  subst hhi
  have hframe := tierDone_frame (s := s.wipe lo k) (first := first) (count := count)
  refine ⟨flag_raiseBit rfl rfl, fun x => ?_, fun g => ?_, ?_⟩
  · have hkey : ∀ l, ((s.wipe lo k).tierDone first count).lineKey l = (s.wipe lo k).lineKey l := lineKey_moveTtags
    exact (byte_of_lineKey (by rw [hframe]) (by rw [hframe]) hkey x).trans (byte_wipe lo k x)
  · have hwipe : (s.wipe lo k).ttag g = s.ttag g := by rw [State.ttag, State.wipe_tierTags]; rfl
    rw [← hwipe]
    exact ttag_moveTtags g
  · rw [hframe, wipe_storedOver]

/-- A state without the first of its queued tier clears. -/
def State.popClear (s : State) (l : List TierClear) : State := { s with tierClears := l }

/-- The tier clear that runs ends. -/
theorem exec_tierClearDone (hqueue : s.tierClears = c :: l) (hstarted : c.started = true) (hcalm : s.calm) :
    exec .tierClearDone s = .next (((s.popClear l).wipe (tierBase + c.first * 0x400000) (c.count * 0x400000)).tierDone
      c.first c.count) := by
  have hend : s.tierClearEnd
      = ((s.popClear l).wipe (tierBase + c.first * 0x400000) (c.count * 0x400000)).tierDone c.first c.count := by
    unfold State.tierClearEnd
    rw [hqueue]
    dsimp only
    rw [hstarted]
    rfl
  refine congrArg Host.Outcome.next ?_
  rw [hqueue]
  dsimp only
  rw [if_pos hstarted, hend]
  obtain ⟨-, -, -, hframe⟩ := wipe_tierDone (s := s.popClear l) (first := c.first) (count := c.count) rfl
  exact settle_of_calm (State.calm.congr (s := s.popClear l) hcalm (by rw [hframe]) (by rw [hframe]))

/-! ### A tier clear's rekey (R153, R159, R404) -/

/-- A bit of a map field just set or cleared reads so. -/
theorem bit_setBit_self {f : Fld} (hfit : f.fits = true) (hk : k + 1 ≤ f.width) (b : Bool) : (s.setBit f k b).bit f k = b := by
  rw [State.bit, State.setBit, get_set_self hfit, bitsAt_mod _ _ _ _ hk, bitsAt_withBits]
  cases b <;> rfl

/-- The map of loaded key slots and the bit of a failed entropy source lie inside their registers. -/
theorem keyFields_fit : F.tierKeyStatLoaded.fits = true ∧ F.cocStatusEntropyFail.fits = true := by decide

/-- A failing entropy source shows in registers of Cocoon and in a record. -/
theorem entropyFail_based : s.entropyFail.based s := State.report_based (State.raiseBit_based State.based_refl)

theorem flag_entropyFail : s.entropyFail.flag F.cocStatusEntropyFail = true := by
  have hreport : s.entropyFail.sameRegs (· = 0x4C) (s.raiseBit F.cocStatusEntropyFail) :=
    reportAt_sameRegs (W := (· = 0x4C)) rfl _ _
  rw [State.flag, hreport.get (f := F.cocStatusEntropyFail) (outside_regKey (by decide) (by decide))]
  exact flag_raiseBit keyFields_fit.2 rfl

/-- Which slots hold keys shows as before. -/
theorem bit_loaded_entropyFail : s.entropyFail.bit F.tierKeyStatLoaded k = s.bit F.tierKeyStatLoaded k := by
  have hregs : s.entropyFail.sameRegs (fun w => w = 0x47 ∨ w = 0x4C) s :=
    (reportAt_sameRegs (W := fun w => w = 0x47 ∨ w = 0x4C) (.inr rfl) _ _).trans
      (set_sameRegs (within_regKey (.inl rfl) (by decide)))
  rw [State.bit, hregs.get (f := F.tierKeyStatLoaded) (outside_regKey (by decide) (by decide))]
  rfl

/-- The oldest clear as it starts, before its rekey. -/
def State.tierStarted (s : State) (c : TierClear) (l : List TierClear) : State :=
  { s with tierClears := { c with started := true } :: l }

/-- What the start of the oldest clear comes to once it may start. -/
theorem exec_tierClearStart (hq : s.tierClears = c :: l) (hstarted : c.started = false)
    (hpending : s.accessPending (tierBase + c.first * 0x400000) (c.count * 0x400000) = false) (ok : Bool) :
    exec (.tierClearStart ok) s = .next (
      if c.rekey then
        if ok then ((s.tierStarted c l).dropKey c.slot).loadKey c.slot else ((s.tierStarted c l).dropKey c.slot).entropyFail
      else s.tierStarted c l) := by
  have hready : s.tierClearReady = true := by
    unfold State.tierClearReady
    rw [hq]
    simp [hstarted, hpending]
  have hbegin : s.tierClearBegin
      = if c.rekey then ((s.tierStarted c l).dropKey c.slot).loadKey c.slot else s.tierStarted c l := by
    unfold State.tierClearBegin
    rw [hq]
    dsimp only
    rw [hready]
    rfl
  refine congrArg Host.Outcome.next ?_
  rw [hq]
  dsimp only
  rw [hready, hbegin]
  by_cases hrekey : c.rekey = true
  · rw [if_pos hrekey, if_pos hrekey]
    cases ok
    · exact if_pos (by simp [hrekey])
    · exact if_neg (by simp)
  · rw [if_neg hrekey, if_neg hrekey]
    exact if_neg (by simp [hrekey])

/-! ### A patrol's pass (R161) -/

/-- A pass changes, besides what it counts and reports, the corrected error words of its range, and nothing else. -/
theorem patrol_over : ∃ u : State, u.readOver s ∧ s.patrol a k = { u with ce := u.ce.filter fun w => !wordMeets a k w } := by
  have hfold : ∀ {β : Type} {f : State → β → State} {l : List β} {r : State},
      (∀ s x, (f s x).readOver s) → (l.foldl f r).readOver r :=
    fun h => foldl_over (R := State.readOver) (fun _ => ⟨rfl, rfl⟩) State.readOver.trans h
  have hreport : ∀ bad, ∀ (s : State) w, (s.eccReport w 7 bad).readOver s :=
    fun _ _ _ => (State.eccReport_based State.based_refl).readOver
  exact ⟨_, (hfold fun _ _ => countWrite_counted.readOver).trans ((hfold (hreport true)).trans
    ((hfold (hreport false)).trans linkCheck_counted.readOver)), rfl⟩

/-- What a patrol that is on or off comes to when its pass ends. -/
theorem patrol_pass {on : Bool} {key : Nat} (hexec : o = .next (if on then (s.patrol a k).patrolStart key else s)) :
    (on = false → o = .next s) ∧
    (on = true → ∃ t, o = .next t
      ∧ t.ce = s.ce.filter (fun w => !wordMeets a k w) ∧ t.ue = s.ue ∧ t.mem = s.mem
      ∧ t = { s with
          ce := t.ce, regs := t.regs, events := t.events, board := t.board, linkErr := t.linkErr, patrolAt := t.patrolAt }) := by
  refine ⟨fun hoff => by rw [hexec, hoff]; rfl, fun hon => ?_⟩
  obtain ⟨u, ⟨hframe, harrays⟩, hpatrol⟩ := patrol_over (s := s) (a := a) (k := k)
  rw [hexec, if_pos hon, hpatrol]
  refine ⟨_, rfl, ?_, ?_, ?_, ?_⟩
  · change u.ce.filter _ = _
    rw [hframe]
  · change u.ue = _
    rw [hframe]
  · change u.mem = _
    rw [hframe]
  · rw [hframe, harrays]
    rfl

end

/-! ### The obligation -/

/-- Settles O24: a request, the start with or without new keys, the end (`wipe_tierDone`), and the patrols, whose passes are
`patrol_pass`. -/
theorem tierClearsAndPatrol : Obligations.TierClearsAndPatrol := by
  intro s
  refine ⟨fun q v hq hv => ?_, fun c l hqueue hstarted _ hpending => ?_, fun c l hqueue hstarted hcalm _ => ?_, fun pt => ?_⟩
  · dsimp only
    rw [exec_tierClearGo_own hq hv]
    refine ⟨fun hroom hpos hlast hslot => congrArg Host.Outcome.next (tierClear_queued hpos hlast hslot hroom), fun hbad => ?_⟩
    rw [State.tierClear, if_pos (by omega)]
  · refine ⟨fun ok hrekey => ?_, fun hrekey => ?_, fun hrekey => ?_⟩ <;>
      rw [exec_tierClearStart hqueue hstarted hpending]
    · rw [if_neg (by simp [hrekey])]
      rfl
    · rw [if_pos hrekey, if_pos rfl]
      refine ⟨_, rfl, rfl, rfl, fun hslot => bit_setBit_self keyFields_fit.1 (by change _ ≤ 9; omega) true, rfl⟩
    · rw [if_pos hrekey, if_neg Bool.false_ne_true]
      refine ⟨_, rfl, ?_, flag_entropyFail, ?_, fun hslot => ?_, ?_, ?_⟩
      · exact entropyFail_based.tierClears
      · exact (congrArg Cocoon.draws entropyFail_based.coc).trans rfl
      · exact bit_loaded_entropyFail.trans (bit_setBit_self keyFields_fit.1 (by change _ ≤ 9; omega) false)
      · exact entropyFail_based.mem
      · exact entropyFail_based.arrays
  · obtain ⟨hdone, hbyte, htag, hframe⟩ := wipe_tierDone (s := s.popClear l) (lo := tierBase + c.first * 0x400000)
      (k := c.count * 0x400000) (hi := tierBase + (c.first + c.count) * 0x400000) (first := c.first) (count := c.count) (by omega)
    exact ⟨_, exec_tierClearDone hqueue hstarted hcalm, by rw [hframe]; rfl, hdone, hbyte, htag, hframe⟩
  · cases pt with
    | vault n => exact patrol_pass rfl
    | tier => exact patrol_pass rfl

end Sys2Proof.Machine
end

section
/-!
PROOFS. Row statistics (R191 to R193, R202): a record raised beside a change of an array, what rs_max and rs_final come to, and from
these the obligation on the row-statistics instructions.
-/

namespace Sys2Proof.Machine

section
variable {s : State} {n : ArrayNum}

/-! ### Event records beside a change of an array -/

theorem bump_modArr (f : ArrayState → ArrayState) (g : Fld) : (s.modArr n f).bump g = (s.bump g).modArr n f :=
  addTo_modArr f g 1

theorem raiseBit_modArr (f : ArrayState → ArrayState) (g : Fld) : (s.modArr n f).raiseBit g = (s.raiseBit g).modArr n f :=
  set_modArr f g 1

theorem loseFor_modArr (f : ArrayState → ArrayState) (rs : List (Fin 17)) :
    (s.modArr n f).loseFor rs = (s.loseFor rs).modArr n f := by
  unfold State.loseFor
  induction rs generalizing s with
  | nil => rfl
  | cons r l ih =>
    rw [List.foldl_cons, List.foldl_cons, ← ih, bump_modArr]
    rfl

/-- A record's place in the queue does not depend on the arrays. -/
theorem enqueue_modArr (f : ArrayState → ArrayState) (r : EventRec) : (s.modArr n f).enqueue r = (s.enqueue r).modArr n f := by
  unfold State.enqueue
  extract_lets seq fresh s1 board update s2 rs held
  rw [apply_ite (fun t : State => t.modArr n f)]
  refine ite_congr rfl (fun _ => ?_) (fun _ => ?_)
  · rfl
  · refine Eq.trans (congrArg (State.loseFor · rs) ?_) (loseFor_modArr f rs)
    rw [← raiseBit_modArr, ← bump_modArr]
    rfl

theorem report_modArr (f : ArrayState → ArrayState) (ev : Ev) : (s.modArr n f).report ev = (s.report ev).modArr n f := by
  unfold State.report State.reportAt
  rw [apply_ite (fun t : State => t.modArr n f), ← enqueue_modArr]
  rfl

end

/-! ### Flags at issue -/

section
variable {s : State} {n : ArrayNum}

theorem partOf_atIssue : (s.atIssue n).partOf n = s.partOf n := by
  unfold State.partOf State.inPart State.part
  rw [atIssue_frame]

theorem noteOverflow_true {b : Bool} (h : b = true) : s.noteOverflow n b = s.raiseBit (F.arrArithStatFp32Overflow n) := if_pos h

theorem noteOverflow_false {b : Bool} (h : b = false) : s.noteOverflow n b = s := if_neg (by simp [h])

theorem arr_atIssue_noteOverflow (b : Bool) :
    ((s.atIssue n).noteOverflow n b).arr n = { s.arr n with committed := true } :=
  ((State.noteOverflow_based State.based_refl).arr n).trans arr_atIssue

/-- A row-statistics instruction that changes its array and may raise the overflow flag. -/
theorem changes_overflow {i : Insn} {row : Insn → Option (State → IssueOut)} {run : State → IssueOut} {b : Bool}
    {f : ArrayState → ArrayState} (h : s.Issues n i) (hi : ∀ c, i ≠ .illegal c) (hr : row i = some run)
    (hd : run (s.atIssue n) = .done (((s.atIssue n).modArr n f).noteOverflow n b)) :
    Changes (.next (s.issue n row)) s n ((f { s.arr n with committed := true }).issued i s.time)
      ((s.atIssue n).noteOverflow n b) :=
  changes_done_near h hi hr (by rw [hd, noteOverflow_modArr]) atIssue_noteOverflow_near (arr_atIssue_noteOverflow b)

/-- What rs_final leaves in its array: a word in all lanes of each of two registers, and mask 3 (R193). -/
def ArrayState.finalRow (a : ArrayState) (vd : Nat) (x y : Word) (mask : DWord) : ArrayState :=
  ((a.setV vd (splat x)).setV (vd + 1) (splat y)).setM 3 mask

end


/-! ### rs_max and rs_final -/

section
variable {s : State} {n : ArrayNum} {vd va row : Nat} {a : ArrayState}

/-- rs_max on its row and lane 0 of va (R193). -/
theorem changes_rsMax (h : s.Issues n (.rsMax vd va row)) (ha : { s.arr n with committed := true } = a) {m m' corr : Word}
    (hm : a.rsM row = m) (hm' : (f32Max m (a.lane va 0)).bits = m')
    (hcorr : (if m = 0xFF800000#32 then 0#32 else (f32Exp2 (f32Sub m m').bits).bits) = corr) :
    Changes (exec (.rsMax n) s) s n
      ((((a.setRs row m' (a.rsL row) corr).setV vd (splat (if m' = 0xFF800000#32 then 0#32 else m'))).setV
          (vd + 1) (splat corr)).issued (.rsMax vd va row) s.time)
      ((s.atIssue n).noteOverflow n
        (!(m == 0xFF800000#32) && ((f32Sub m m').overflow || (f32Exp2 (f32Sub m m').bits).overflow))) := by
  have ha' : (s.atIssue n).arr n = a := arr_atIssue.trans ha
  rw [← ha]
  refine changes_overflow (f := fun b => ((b.setRs row m' (b.rsL row) corr).setV vd
    (splat (if m' = 0xFF800000#32 then 0#32 else m'))).setV (vd + 1) (splat corr)) h nofun rfl ?_
  dsimp only
  rw [ha', hm, hm']
  simp only [beq_iff_eq]
  rw [hcorr]

/-- rs_final of a row that holds NaN (R202). -/
theorem changes_rsFinal_nan (h : s.Issues n (.rsFinal vd row)) (ha : { s.arr n with committed := true } = a)
    (hnan : (f32IsNaN (a.rsM row) || f32IsNaN (a.rsL row)) = true) :
    Changes (exec (.rsFinal n) s) s n
      ((a.finalRow vd f32NaN f32NaN 0xFFFFFFFFFFFFFFFF#64).issued (.rsFinal vd row) s.time)
      (((s.atIssue n).raiseBit (F.attStatusRsNan n)).report {
        source := n.val, cls := 0x05, severity := 0, part := s.partOf n, affected := affectedBy (s.partOf n) }) := by
  have ha' : (s.atIssue n).arr n = a := arr_atIssue.trans ha
  rw [← ha]
  refine changes_done_near (f := fun a => a.finalRow vd f32NaN f32NaN 0xFFFFFFFFFFFFFFFF#64) h nofun rfl ?_
    (near_of_based atIssue_near (State.report_based (State.raiseBit_based State.based_refl)))
    (((State.report_based (State.raiseBit_based State.based_refl)).arr n).trans arr_atIssue)
  dsimp only
  rw [ha', if_pos hnan, partOf_atIssue, ← report_modArr, ← raiseBit_modArr]
  rfl

/-- rs_final of a row whose l is 0 (R193). -/
theorem changes_rsFinal_masked (h : s.Issues n (.rsFinal vd row)) (ha : { s.arr n with committed := true } = a)
    (hnan : (f32IsNaN (a.rsM row) || f32IsNaN (a.rsL row)) = false) (hzero : (f32 (a.rsL row)).eqv (.fin false 0 0) = true) :
    Changes (exec (.rsFinal n) s) s n ((a.finalRow vd 0 0xFF800000#32 0).issued (.rsFinal vd row) s.time)
      ((s.atIssue n).bump (F.attMaskedRowsRows n)) := by
  have ha' : (s.atIssue n).arr n = a := arr_atIssue.trans ha
  rw [← ha]
  refine changes_done_near (f := fun b => b.finalRow vd 0 0xFF800000#32 0) h nofun rfl ?_
    (near_of_based atIssue_near (State.bump_based State.based_refl))
    (((State.bump_based State.based_refl).arr n).trans arr_atIssue)
  dsimp only
  rw [ha', hnan, if_neg Bool.false_ne_true, if_pos hzero, ← bump_modArr]
  rfl

/-- rs_final of any other row (R193). -/
theorem changes_rsFinal_done (h : s.Issues n (.rsFinal vd row)) (ha : { s.arr n with committed := true } = a)
    (hnan : (f32IsNaN (a.rsM row) || f32IsNaN (a.rsL row)) = false) (hzero : (f32 (a.rsL row)).eqv (.fin false 0 0) = false)
    {r g t w : FRes} (hr : f32Recip (a.rsL row) = r) (hg : f32Log2 (a.rsL row) = g) (ht : f32Add (a.rsM row) g.bits = t)
    (hw : f32Mul t.bits 0x3F317218#32 = w) :
    Changes (exec (.rsFinal n) s) s n
      ((a.finalRow vd r.bits w.bits 0xFFFFFFFFFFFFFFFF#64).issued (.rsFinal vd row) s.time)
      ((s.atIssue n).noteOverflow n (r.overflow || g.overflow || t.overflow || w.overflow)) := by
  have ha' : (s.atIssue n).arr n = a := arr_atIssue.trans ha
  rw [← ha]
  refine changes_overflow (f := fun b => b.finalRow vd r.bits w.bits 0xFFFFFFFFFFFFFFFF#64) h nofun rfl ?_
  dsimp only
  rw [ha', hnan, if_neg Bool.false_ne_true, hzero, if_neg Bool.false_ne_true, hr, hg, ht, hw]
  rfl

end

/-! ### The obligation -/

/-- Settles O18, instruction by instruction; rs_final by the row it is given: one that holds NaN, one whose l is 0, any other. -/
theorem rowStatistics : Obligations.RowStatistics := by
  intro n s a u
  refine ⟨fun row cnt h => ?_, fun vd va row h => ?_, fun va row h => ?_, fun vd row h => ?_, fun va row h => ?_,
    fun vd row h => ?_⟩
  · exact changes_done_modArr (f := fun a => (List.range cnt).foldl (fun a j => a.setRs (row + j) 0xFF800000#32 0 0) a)
      h nofun rfl rfl
  · intro m m' e corr flag
    have hrun := changes_rsMax h rfl (m := m) (m' := m') (corr := corr) rfl rfl rfl
    have hflag : (!(m == 0xFF800000#32) && ((f32Sub m m').overflow || e.overflow)) = true ↔ flag := by simp [flag]
    refine ⟨fun hf => ?_, fun hf => ?_⟩
    · rw [noteOverflow_true (hflag.mpr hf)] at hrun
      exact hrun
    · rw [noteOverflow_false (Bool.eq_false_iff.mpr (mt hflag.mp hf))] at hrun
      exact hrun
  · intro l
    have hrun : Changes (exec (.rsSum n) s) s n _ _ := changes_overflow (b := l.overflow)
      (f := fun b => b.setRs row (b.rsM row) l.bits (b.rsCorr row)) h nofun rfl (by dsimp only; rw [arr_atIssue])
    exact hrun
  · intro m l out
    refine ⟨fun hnan => changes_rsFinal_nan h rfl (by simpa using hnan),
      fun hm hl hzero => changes_rsFinal_masked h rfl (Bool.or_eq_false_iff.mpr ⟨hm, hl⟩) hzero,
      fun hm hl hzero => changes_rsFinal_done h rfl (Bool.or_eq_false_iff.mpr ⟨hm, hl⟩) hzero rfl rfl rfl rfl⟩
  · exact changes_done_modArr (f := fun a => a.setRs row (a.lane va 0) (a.lane va 1) 0) h nofun rfl rfl
  · exact changes_done_modArr (f := fun a => a.setV vd (a.rsM row :: a.rsL row :: List.replicate 62 0)) h nofun rfl rfl
end Sys2Proof.Machine
end

section
/-!
PROOFS. Page staging and page closing (R88, R155, R170, R194, R196): what pstage and pclose come to on good places, and from these the
obligation on them.
-/

namespace Sys2Proof.Machine

section
variable {s t v : State} {n : ArrayNum}

/-- Entering a unit's queue and moving on leave the stager's queue. -/
theorem stgQ_issued (a : ArrayState) (i : Insn) (now : DWord) : (a.issued i now).stgQ = a.stgQ := by
  have henter : (a.enter i).stgQ = a.stgQ := by
    unfold ArrayState.enter
    split <;> rfl
  rw [← henter]
  unfold ArrayState.issued ArrayState.past
  split
  · split <;> rfl
  · rfl

/-- A page list that pstage reads without meeting an uncorrectable word. -/
theorem unitRead_atIssue {off len : Nat} (h : s.badIn (spoolBase n + off) len = none) :
    (s.atIssue n).unitRead n off len
      = ((s.atIssue n).correct (spoolBase n + off) len 6, .ok (s.load (spoolBase n + off) len)) := by
  have hover : (s.atIssue n).stagerOver s := atIssue_near.stagerOver
  rw [unitRead_good ((hover.badIn _ _).trans h), hover.load]

/-- What a read of an array's own unit leaves at issue. -/
theorem correct_atIssue_near {a k : Nat} : ((s.atIssue n).correct a k 6).near s n := near_of_based atIssue_near correct_based

theorem arr_correct_atIssue {a k : Nat} : ((s.atIssue n).correct a k 6).arr n = { s.arr n with committed := true } :=
  (correct_based.arr n).trans arr_atIssue

/-- A pstage whose plane, list and units are good joins the stager's queue (R88, R194). -/
theorem changes_pstage {o : PstageOps} {a : ArrayState} {us : List Nat} (h : s.Issues n (.pstage o))
    (ha : { s.arr n with committed := true } = a) (hplane : o.plane < (pairInfo (if o.int4 then 5 else 3)).planes)
    (hspool : spoolOk (a.a o.listReg + o.listOff) 4 (4 * o.pages) = true)
    (hread : s.badIn (spoolBase n + (a.a o.listReg + o.listOff)) (4 * o.pages) = none)
    (hv : (s.atIssue n).correct (spoolBase n + (a.a o.listReg + o.listOff)) (4 * o.pages) 6 = v)
    (hus : v.pageUnits n o (s.load (spoolBase n + (a.a o.listReg + o.listOff)) (4 * o.pages)) = .ok us) :
    Changes (exec (.pstage n) s) s n ((a.queueStg ⟨a.pc, 7, if o.int4 then 5 else 3, half2 o.bank, o.plane,
      [.pages ⟨o.isV, o.int4, us, o.d, o.khalf⟩]⟩ 1).issued (.pstage o) s.time) v := by
  have ha' : (s.atIssue n).arr n = a := arr_atIssue.trans ha
  have hnear : v.near s n := hv ▸ correct_atIssue_near
  rw [← ha]
  refine changes_done_near (f := fun b => b.queueStg _ 1) h nofun rfl ?_ hnear (hv ▸ arr_correct_atIssue)
  dsimp only
  rw [ha', if_neg (Nat.not_le.mpr hplane), hspool, unitRead_atIssue hread, hv]
  dsimp only
  rw [hus, ← ha]
  rfl

/-- A pstage of which a unit lies where its partition may not stage from faults with that unit's offset (R155, R194). -/
theorem changes_pstage_denied {o : PstageOps} {a : ArrayState} {off : Nat} (h : s.Issues n (.pstage o))
    (ha : { s.arr n with committed := true } = a) (hplane : o.plane < (pairInfo (if o.int4 then 5 else 3)).planes)
    (hspool : spoolOk (a.a o.listReg + o.listOff) 4 (4 * o.pages) = true)
    (hread : s.badIn (spoolBase n + (a.a o.listReg + o.listOff)) (4 * o.pages) = none)
    (hv : (s.atIssue n).correct (spoolBase n + (a.a o.listReg + o.listOff)) (4 * o.pages) 6 = v)
    (hoff : v.pageUnits n o (s.load (spoolBase n + (a.a o.listReg + o.listOff)) (4 * o.pages)) = .error off) :
    Changes (exec (.pstage n) s) s n (a.faulted s.time 0x06 (s.fetch n (s.arr n).pc % 16) off) v := by
  have ha' : (s.atIssue n).arr n = a := arr_atIssue.trans ha
  have hnear : v.near s n := hv ▸ correct_atIssue_near
  rw [← ha]
  refine changes_fault h nofun rfl ?_ hnear (hv ▸ arr_correct_atIssue)
  dsimp only
  rw [ha', if_neg (Nat.not_le.mpr hplane), hspool, unitRead_atIssue hread, hv]
  dsimp only
  rw [hoff]
  rfl

/-- A pclose on good places where no word is uncorrectable writes the closed page's unit (R92, R196). -/
theorem exec_pclose_good {o : PcloseOps} {a : ArrayState} (h : s.Issues n (.pclose o))
    (ha : { s.arr n with committed := true } = a) (hsrc : spoolOk (a.a o.srcReg + o.srcOff) 64 (64 * o.d) = true)
    (hdst : spoolOk (a.a o.dstReg + o.dstOff) 64 (unitBytes o.int4 o.d) = true) (hc : s.clean) :
    let dst := a.a o.dstReg + o.dstOff
    let r := closePage o.int4 o.d (s.load (spoolBase n + (a.a o.srcReg + o.srcOff)) (64 * o.d))
    ∃ t, exec (.pclose n) s = .next t ∧ (t.arr n).pc = (a.past s.time).pc ∧ (∀ m, m ≠ n → t.arr m = s.arr m)
      ∧ ∀ x, t.byte x = if spoolBase n + dst ≤ x ∧ x < spoolBase n + dst + r.elems.length
          then r.elems.getD (x - (spoolBase n + dst)) 0 else s.byte x := by
  intro dst r
  have ha' : (s.atIssue n).arr n = a := arr_atIssue.trans ha
  have hread := unitRead_atIssue (hc (spoolBase n + (a.a o.srcReg + o.srcOff)) (64 * o.d))
  have hu : ((s.atIssue n).correct (spoolBase n + (a.a o.srcReg + o.srcOff)) (64 * o.d) 6).near s n := correct_atIssue_near
  have hua := arr_correct_atIssue (s := s) (n := n) (a := spoolBase n + (a.a o.srcReg + o.srcOff)) (k := 64 * o.d)
  generalize (s.atIssue n).correct (spoolBase n + (a.a o.srcReg + o.srcOff)) (64 * o.d) 6 = u at hread hu hua
  obtain ⟨hf, -, harr, hbyte⟩ := unitWrite_of_clean (n := n) (hu.stagerOver.clean hc) dst r.elems
  generalize hw : u.unitWrite n dst r.elems = w at hf harr hbyte
  have hcount : (((w.1.noteConvSat n r.sat).noteConvNan n r.nan)).based w.1 :=
    State.noteConvNan_based (State.noteConvSat_based State.based_refl)
  have hnote : (((w.1.noteConvSat n r.sat).noteConvNan n r.nan).noteNan n r.nanOut).near w.1 n :=
    noteNan_near (near_of_based near_refl hcount)
  have hpc := pc_noteNan (s := (w.1.noteConvSat n r.sat).noteConvNan n r.nan) (n := n) (k := r.nanOut)
  generalize hv : ((w.1.noteConvSat n r.sat).noteConvNan n r.nan).noteNan n r.nanOut = v at hnote hpc
  have hexec : exec (.pclose n) s = .next (v.modArr n (ArrayState.issued (.pclose o) v.time)) := by
    refine congrArg Host.Outcome.next (issue_done h nofun rfl ?_)
    dsimp only
    rw [ha', hsrc, hdst, hread]
    dsimp only
    rw [hw, hv, hf]
    rfl
  refine ⟨_, hexec, ?_, fun m hm => ?_, fun x => ?_⟩
  · rw [arr_modArr_self]
    refine pc_issued ?_
    rw [hpc, hcount.arr, arr_of_arrays harr, hua, ha]
  · rw [arr_modArr_ne _ hm, hnote.1 m hm, arr_of_arrays harr, hu.1 m hm]
  · rw [← hu.stagerOver.byte x, ← hbyte]
    exact hnote.stagerOver.byte x

end

/-! ### The obligation on pages -/

/-- Settles O19, instruction by instruction. -/
theorem pagesStageAndClose : Obligations.PagesStageAndClose := by
  intro n s _ a u cls
  refine ⟨fun o h => ?_, fun o h => ?_⟩
  · intro pair addr v list
    refine ⟨fun hplane hspool hread us hus => ?_, fun hplane hspool hread off hoff =>
      changes_pstage_denied h rfl hplane hspool hread rfl hoff⟩
    obtain ⟨t, ht, hself, hother, hframe⟩ := changes_pstage h rfl hplane hspool hread rfl hus
    refine ⟨t, ht, ?_, ?_, ?_, hother⟩
    · rw [hself, stgQ_issued]
      rfl
    · rw [hself]
      exact pc_issued rfl
    · rw [hframe]
  · intro src dst r
    refine ⟨fun hsrc hdst hc => exec_pclose_good h rfl hsrc hdst hc, fun hbad => ?_⟩
    refine changes_fault_atIssue h nofun rfl ?_
    dsimp only
    rw [arr_atIssue, hbad]
    rfl

end Sys2Proof.Machine
end

section
/-!
PROOFS. Registers that the reel's work keeps (R92, R144, R150, R163, R164, R173, R490): which words may change when error words of
memory or of the reel's tables are counted, bytes are counted and records are raised.
-/

namespace Sys2Proof.Machine

/-- The register words in which counting and reporting show: the tier's and the error collector's, the reel's common ones, and
an array's below those of its row statistics. -/
def countedWord (x : Nat) : Prop :=
  x / 0x100000 = 0x44 ∨ x / 0x100000 = 0x4C ∨ x / 0x1000 = 0x4000 ∨ (x / 0x100000 < 64 ∧ x % 0x100000 < 0xA000)

/-- The words of a field's register are among them. -/
def Fld.counted (f : Fld) : Prop := countedWord f.key ∧ countedWord (f.key + 4)

/-- No word of a field's register is among them. -/
def Fld.uncounted (f : Fld) : Prop := ¬ countedWord f.key ∧ ¬ countedWord (f.key + 4)

theorem counted_array {n : ArrayNum} {off lo k : Nat} {wide : Bool} (h : off + 4 < 0xA000) :
    Fld.counted ⟨regKey n off, lo, k, wide⟩ := by
  have hn := n.isLt
  unfold Fld.counted countedWord regKey
  dsimp only
  omega

theorem counted_window {w off lo k : Nat} {wide : Bool} (hw : w = 0x44 ∨ w = 0x4C) (h : off + 4 < 0x100000) :
    Fld.counted ⟨regKey w off, lo, k, wide⟩ := by
  unfold Fld.counted countedWord regKey
  dsimp only
  omega

theorem counted_reel {off lo k : Nat} {wide : Bool} (h : off + 4 < 0x1000) : Fld.counted ⟨regKey 0x40 off, lo, k, wide⟩ := by
  unfold Fld.counted countedWord regKey
  dsimp only
  omega

/-- The registers of a partition's reel. -/
theorem uncounted_reelP {off lo k : Nat} {wide : Bool} (h : 0x1000 ≤ off) (h' : off + 4 < 0x100000) :
    Fld.uncounted ⟨regKey 0x40 off, lo, k, wide⟩ := by
  unfold Fld.uncounted countedWord regKey
  dsimp only
  omega

/-- The registers of an array's row-statistics unit. -/
theorem uncounted_array {n : ArrayNum} {off lo k : Nat} {wide : Bool} (h : 0xA000 ≤ off) (h' : off + 4 < 0x100000) :
    Fld.uncounted ⟨regKey n off, lo, k, wide⟩ := by
  have hn := n.isLt
  unfold Fld.uncounted countedWord regKey
  dsimp only
  omega

/-- The registers of every other block. -/
theorem uncounted_window {w off lo k : Nat} {wide : Bool} (hw : 0x40 < w ∧ w ≠ 0x44 ∧ w ≠ 0x4C) (h : off + 4 < 0x100000) :
    Fld.uncounted ⟨regKey w off, lo, k, wide⟩ := by
  unfold Fld.uncounted countedWord regKey
  dsimp only
  omega

/-- Every other register word reads in t as it does in s. -/
def State.keepsWords (t s : State) : Prop := ∀ x, ¬ countedWord x → t.reg x = s.reg x

section
variable {r s t : State} {f : Fld}

theorem State.keepsWords_refl : s.keepsWords s := fun _ _ => rfl

theorem State.keepsWords.trans (h : t.keepsWords s) (g : s.keepsWords r) : t.keepsWords r :=
  fun x hx => (h x hx).trans (g x hx)

/-- Only the register file decides. -/
theorem State.keepsWords.of_regs (h : t.keepsWords s) (hr : r.regs = t.regs) : r.keepsWords s :=
  fun x hx => (reg_congr hr x).trans (h x hx)

theorem State.keepsWords.get (h : t.keepsWords s) (hf : f.uncounted) : t.get f = s.get f := by
  unfold State.get State.reg64
  rw [h _ hf.1, h _ hf.2]

theorem State.keepsWords.flag (h : t.keepsWords s) (hf : f.uncounted) : t.flag f = s.flag f := by
  unfold State.flag
  rw [h.get hf]

theorem keepsWords_choice {c : Prop} [Decidable c] {u v : State} (hu : c → u.keepsWords s) (hv : ¬ c → v.keepsWords s) :
    State.keepsWords (if c then u else v) s := by
  split
  · next h => exact hu h
  · next h => exact hv h

theorem set_keepsWords {v : Nat} (hf : f.counted) : (s.set f v).keepsWords s := by
  intro x hx
  have h0 : x ≠ f.key := fun e => hx (e ▸ hf.1)
  have h4 : x ≠ f.key + 4 := fun e => hx (e ▸ hf.2)
  unfold State.set State.setReg64
  split
  · rw [reg_setReg_ne _ h4, reg_setReg_ne _ h0]
  · rw [reg_setReg_ne _ h0]

theorem addTo_keepsWords {v : Nat} (hf : f.counted) : (s.addTo f v).keepsWords s := set_keepsWords hf

theorem foldl_keepsWords {β : Type} {g : State → β → State} (hg : ∀ s x, (g s x).keepsWords s) (l : List β) :
    (l.foldl g s).keepsWords s :=
  foldl_over (R := State.keepsWords) (fun _ => State.keepsWords_refl) State.keepsWords.trans hg

/-! ### Records and error words -/

theorem reportAt_keepsWords (now : DWord) (ev : Ev) : (s.reportAt now ev).keepsWords s :=
  fun x hx => reportAt_sameRegs (W := (· = 0x4C)) rfl now ev x fun h => hx (.inr (.inl h))

theorem countEcc_keepsWords (w : Nat) (bad : Bool) : (s.countEcc w bad).keepsWords s := by
  unfold State.countEcc
  extract_lets u
  have hu : u.keepsWords s := by
    unfold u
    split
    · next p _ =>
      cases bad
      · exact addTo_keepsWords (counted_window (.inr rfl) (by omega))
      · exact addTo_keepsWords (counted_window (.inr rfl) (by omega))
    · exact State.keepsWords_refl
  refine State.keepsWords.trans ?_ hu
  split
  · refine keepsWords_choice (fun _ => ?_) fun _ => addTo_keepsWords (counted_array (by decide))
    exact (set_keepsWords (counted_array (by decide))).trans (addTo_keepsWords (counted_array (by decide)))
  · refine keepsWords_choice (fun _ => ?_) fun _ => addTo_keepsWords (counted_array (by decide))
    exact (set_keepsWords (counted_array (by decide))).trans
      ((set_keepsWords (counted_array (by decide))).trans (addTo_keepsWords (counted_array (by decide))))
  · refine keepsWords_choice (fun _ => ?_) fun _ => addTo_keepsWords (counted_window (.inl rfl) (by decide))
    exact (set_keepsWords (counted_window (.inl rfl) (by decide))).trans
      ((set_keepsWords (counted_window (.inl rfl) (by decide))).trans (addTo_keepsWords (counted_window (.inl rfl) (by decide))))
  · exact State.keepsWords_refl

theorem eccReport_keepsWords (w reader : Nat) (bad : Bool) : (s.eccReport w reader bad).keepsWords s :=
  (reportAt_keepsWords _ _).trans (countEcc_keepsWords w bad)

theorem correct_keepsWords (a k reader : Nat) : (s.correct a k reader).keepsWords s :=
  foldl_keepsWords (fun _ w => eccReport_keepsWords w reader false) _

theorem mergeReads_keepsWords (a k reader : Nat) : (s.mergeReads a k reader).keepsWords s :=
  (foldl_keepsWords (fun _ w => eccReport_keepsWords w reader true) _).trans
    (foldl_keepsWords (fun _ w => eccReport_keepsWords w reader false) _)

/-! ### Counted bytes -/

theorem linkCheck_keepsWords (a k : Nat) : (s.linkCheck a k).keepsWords s :=
  (foldl_keepsWords (fun _ l => addTo_keepsWords
    (counted_window (.inl rfl) (by have := channel_lt (64 * l); omega))) _).of_regs rfl

theorem countRead_keepsWords (a k : Nat) : (s.countRead a k).keepsWords s := by
  unfold State.countRead
  split
  · exact addTo_keepsWords (counted_array (by decide))
  · exact (addTo_keepsWords (counted_window (.inl rfl) (by decide))).trans (linkCheck_keepsWords a k)
  · exact State.keepsWords_refl

theorem countWrite_keepsWords (a k : Nat) : (s.countWrite a k).keepsWords s := by
  unfold State.countWrite
  split
  · exact addTo_keepsWords (counted_array (by decide))
  · exact (addTo_keepsWords (counted_window (.inl rfl) (by decide))).trans (linkCheck_keepsWords a k)
  · exact State.keepsWords_refl

theorem countMerge_keepsWords (a k : Nat) : (s.countMerge a k).keepsWords s := by
  unfold State.countMerge
  split
  · exact addTo_keepsWords (counted_array (by decide))
  · exact addTo_keepsWords (counted_window (.inl rfl) (by decide))
  · exact State.keepsWords_refl

/-! ### Error words of the reel (R173) -/

theorem reelEcc_keepsWords (p : PartNum) (bad : Bool) : (s.reelEcc p bad).keepsWords s := by
  unfold State.reelEcc
  refine (reportAt_keepsWords _ _).trans (keepsWords_choice (fun _ => ?_) fun _ => addTo_keepsWords (counted_reel (by decide)))
  exact (set_keepsWords (counted_reel (by decide))).trans (addTo_keepsWords (counted_reel (by decide)))

/-- t is s but for its records, the board's share in them, and counted registers. -/
def State.noted (t s : State) : Prop := t.based s ∧ t.keepsWords s

theorem State.noted_refl : s.noted s := ⟨State.based_refl, State.keepsWords_refl⟩

theorem State.noted.trans (h : t.noted s) (g : s.noted r) : t.noted r := ⟨h.1.trans g.1, h.2.trans g.2⟩

theorem reelEcc_noted (p : PartNum) (bad : Bool) : (s.reelEcc p bad).noted s := by
  refine ⟨?_, reelEcc_keepsWords p bad⟩
  unfold State.reelEcc
  refine State.report_based ?_
  split
  · exact State.raiseBit_based (State.bump_based State.based_refl)
  · exact State.bump_based State.based_refl

theorem reelScan_noted (p : PartNum) (hit : Nat → Bool) : (s.reelScan p hit).1.noted s := by
  have hfold : ∀ {l : List Nat} {b : Bool} {v : State}, (l.foldl (fun s _ => s.reelEcc p b) v).noted v :=
    foldl_over (R := State.noted) (fun _ => State.noted_refl) State.noted.trans fun _ _ => reelEcc_noted p _
  exact hfold.trans hfold

/-- Where no word of the reel is uncorrectable, none is met. -/
theorem reelScan_good (hb : s.reel.bad = []) (p : PartNum) (hit : Nat → Bool) : (s.reelScan p hit).2 = false := by
  simp [State.reelScan, hb]

/-- Where no word of the reel has an error, reading its tables changes nothing. -/
theorem reelScan_clean (hb : s.reel.bad = []) (hc : s.reel.ce = []) (p : PartNum) (hit : Nat → Bool) :
    s.reelScan p hit = (s, false) := by
  simp [State.reelScan, hb, hc]

theorem reelScan_none (p : PartNum) {hit : Nat → Bool} (h : ∀ w, hit w = false) : s.reelScan p hit = (s, false) := by
  simp [State.reelScan, List.filter_eq_nil_iff.mpr, h]

end

end Sys2Proof.Machine
end

section
/-!
PROOFS. The reel's tables and pools (R173 to R177, R186, R205): what a read gives after a map entry, a word of the sequence table or a
pool is set, and what the reel's work on them leaves alone.
-/

namespace Sys2Proof.Machine

section
variable {r s t : State} {p : PartNum} {e i j w lo width v : Nat} {x : Word} {l : List Nat}

/-! ### Reads after updates -/

theorem mapEntry_setMapEntry : (s.setMapEntry e x).mapEntry j = if j = e then x else s.mapEntry j := look_put

@[simp] theorem seqWord_setMapEntry : (s.setMapEntry e x).seqWord i w = s.seqWord i w := rfl

@[simp] theorem framePool_setMapEntry : (s.setMapEntry e x).framePool p = s.framePool p := rfl

/-- Words of two sequences, or two words of one, are apart. -/
theorem seqWord_setSeqWord (hw : w < 8) {k : Nat} (hk : k < 8) :
    (s.setSeqWord i k x).seqWord j w = if j = i ∧ w = k then x else s.seqWord j w := by
  have hkey : (8 * j + w = 8 * i + k) ↔ j = i ∧ w = k := by omega
  refine look_put.trans ?_
  simp only [hkey]
  rfl

@[simp] theorem mapEntry_setSeqWord : (s.setSeqWord i w x).mapEntry e = s.mapEntry e := rfl

@[simp] theorem framePool_setSeqWord : (s.setSeqWord i w x).framePool p = s.framePool p := rfl

@[simp] theorem mapEntry_setSeqBits : (s.setSeqBits i w lo width v).mapEntry e = s.mapEntry e := rfl

@[simp] theorem framePool_setSeqBits : (s.setSeqBits i w lo width v).framePool p = s.framePool p := rfl

theorem seqWord_setSeqBits_ne (hw : w < 8) {k : Nat} (hk : k < 8) (h : ¬ (j = i ∧ w = k)) :
    (s.setSeqBits i k lo width v).seqWord j w = s.seqWord j w :=
  (seqWord_setSeqWord hw hk).trans (if_neg h)

/-- Bits of a word just set. -/
theorem bits_setSeqBits_self (hw : w < 8) (h : lo + width ≤ 32) :
    bitsAt ((s.setSeqBits i w lo width v).seqWord i w).toNat lo width = v % 2 ^ width := by
  rw [State.setSeqBits, seqWord_setSeqWord hw hw, if_pos ⟨rfl, rfl⟩, BitVec.toNat_ofNat, bitsAt_mod _ _ _ _ h, bitsAt_withBits]

/-- Bits apart from those set. -/
theorem bits_setSeqBits_apart (hw : w < 8) {lo' width' : Nat} (h : lo' + width' ≤ 32)
    (ha : lo + width ≤ lo' ∨ lo' + width' ≤ lo) :
    bitsAt ((s.setSeqBits i w lo width v).seqWord i w).toNat lo' width' = bitsAt (s.seqWord i w).toNat lo' width' := by
  rw [State.setSeqBits, seqWord_setSeqWord hw hw, if_pos ⟨rfl, rfl⟩, BitVec.toNat_ofNat, bitsAt_mod _ _ _ _ h]
  rcases ha with ha | ha
  · exact bitsAt_withBits_above _ _ _ _ _ _ ha
  · exact bitsAt_withBits_below _ _ _ _ _ _ ha

@[simp] theorem framePool_setFrames : (s.setFrames p l).framePool p = l := by
  simp [State.setFrames, State.framePool]

@[simp] theorem slotPool_setSlots : (s.setSlots p l).slotPool p = l := by
  simp [State.setSlots, State.slotPool]

@[simp] theorem mapEntry_setFrames : (s.setFrames p l).mapEntry e = s.mapEntry e := rfl

@[simp] theorem seqWord_setFrames : (s.setFrames p l).seqWord i w = s.seqWord i w := rfl

/-! ### What work on the tables leaves alone -/

/-- t is s but for the reel, none of whose words has an error that it had not in s, and whose waiting updates and running
steps are those of s. -/
structure State.reworks (t s : State) : Prop where
  frame : t = { s with reel := t.reel }
  bad : t.reel.bad ⊆ s.reel.bad
  ce : t.reel.ce ⊆ s.reel.ce
  updates : t.reel.updates = s.reel.updates
  steps : t.reel.steps = s.reel.steps

theorem State.reworks_refl : s.reworks s := ⟨rfl, List.Subset.refl _, List.Subset.refl _, rfl, rfl⟩

theorem State.reworks.trans (h : t.reworks s) (g : s.reworks r) : t.reworks r :=
  ⟨h.frame.trans (congrArg (fun u : State => { u with reel := t.reel }) g.frame), List.Subset.trans h.bad g.bad,
    List.Subset.trans h.ce g.ce, h.updates.trans g.updates, h.steps.trans g.steps⟩

theorem reworks_choice {c : Prop} [Decidable c] {u v : State} (hu : u.reworks s) (hv : v.reworks s) :
    State.reworks (if c then u else v) s := by
  split
  · exact hu
  · exact hv

theorem foldl_reworks {β : Type} {g : State → β → State} (hg : ∀ s x, (g s x).reworks s) {l : List β} :
    (l.foldl g s).reworks s :=
  foldl_over (R := State.reworks) (fun _ => State.reworks_refl) State.reworks.trans hg

theorem State.reworks.bad_nil (h : t.reworks s) (hb : s.reel.bad = []) : t.reel.bad = [] :=
  List.subset_nil.mp (hb ▸ h.bad)

theorem State.reworks.ce_nil (h : t.reworks s) (hc : s.reel.ce = []) : t.reel.ce = [] :=
  List.subset_nil.mp (hc ▸ h.ce)

theorem setMapEntry_reworks : (s.setMapEntry e x).reworks s :=
  ⟨rfl, List.filter_subset_self _, List.filter_subset_self _, rfl, rfl⟩

theorem setSeqWord_reworks : (s.setSeqWord i w x).reworks s :=
  ⟨rfl, List.filter_subset_self _, List.filter_subset_self _, rfl, rfl⟩

theorem setSeqBits_reworks : (s.setSeqBits i w lo width v).reworks s := setSeqWord_reworks

theorem setFrames_reworks : (s.setFrames p l).reworks s := ⟨rfl, List.Subset.refl _, List.Subset.refl _, rfl, rfl⟩

theorem setSlots_reworks : (s.setSlots p l).reworks s := ⟨rfl, List.Subset.refl _, List.Subset.refl _, rfl, rfl⟩

theorem setFb_reworks {n : ArrayNum} : (s.setFb n l).reworks s := ⟨rfl, List.Subset.refl _, List.Subset.refl _, rfl, rfl⟩

theorem dropCopy_reworks {c : PageCopy} : (s.dropCopy c).reworks s :=
  ⟨rfl, List.Subset.refl _, List.Subset.refl _, rfl, rfl⟩

theorem freePage_reworks {page : Nat} : (s.freePage p page e).reworks s := by
  unfold State.freePage
  extract_lets w u
  have hu : u.reworks s := setMapEntry_reworks
  refine reworks_choice (setFrames_reworks.trans hu) (reworks_choice (setSlots_reworks.trans hu) (reworks_choice ?_ hu))
  split
  · exact setFb_reworks.trans hu
  · exact hu

theorem freePages_reworks : (s.freePages p i).reworks s := foldl_reworks fun _ _ => freePage_reworks

theorem dropPages_reworks : (s.dropPages p i).reworks s :=
  setSeqBits_reworks.trans (setSeqBits_reworks.trans freePages_reworks)

theorem freeSeq_reworks : (s.freeSeq p i).reworks s :=
  (foldl_reworks fun _ _ => setSeqWord_reworks).trans freePages_reworks

theorem cancelCopies_reworks : (s.cancelCopies i).reworks s := by
  unfold State.cancelCopies
  refine foldl_reworks fun s c => reworks_choice (dropCopy_reworks.trans ?_) State.reworks_refl
  exact reworks_choice setSlots_reworks setFrames_reworks

theorem setupSeq_reworks {base cap : Nat} {fb : Bool} : (s.seqApply p (.setup i base cap fb)).reworks s :=
  (setSeqWord_reworks.trans setSeqWord_reworks).trans
    ((setSeqWord_reworks.trans setSeqWord_reworks).trans (foldl_reworks fun _ _ => setMapEntry_reworks))

/-- An update changes the reel's tables and pools (R178, R179). -/
theorem seqApply_reworks (u : SeqUpdate) : (s.seqApply p u).reworks s := by
  cases u with
  | setup i base cap fb => exact setupSeq_reworks
  | activate i => exact setSeqBits_reworks
  | pause i => exact setSeqBits_reworks
  | release i =>
    rw [State.seqApply]
    exact freeSeq_reworks.trans cancelCopies_reworks
  | drop i =>
    rw [State.seqApply]
    exact dropPages_reworks.trans cancelCopies_reworks
  | mapWrite e x => exact setMapEntry_reworks
  | seqWrite i w x => exact setSeqWord_reworks

/-! ### Places that are given and returned -/

/-- t is s but for the reel's pools and running copies. -/
def State.gives (t s : State) : Prop :=
  t = { s with reel := { s.reel with frames := t.reel.frames, slots := t.reel.slots, copies := t.reel.copies } }

theorem State.gives.trans (h : t.gives s) (g : s.gives r) : t.gives r :=
  Eq.trans h (congrArg (fun u : State =>
    { u with reel := { u.reel with frames := t.reel.frames, slots := t.reel.slots, copies := t.reel.copies } }) g)

theorem State.gives.reworks (h : t.gives s) : t.reworks s := by
  rw [h]
  exact ⟨rfl, List.Subset.refl _, List.Subset.refl _, rfl, rfl⟩

theorem loadStart_gives : (s.loadStart p i).gives s := by
  unfold State.loadStart
  dsimp only
  split <;> rfl

theorem loadRetry_gives : (s.loadRetry p).gives s :=
  foldl_over (R := State.gives) (fun _ => rfl) State.gives.trans fun _ _ => loadStart_gives

theorem evictStart_gives (h : s.evictStart p i = some t) : t.gives s := by
  unfold State.evictStart at h
  dsimp only at h
  split at h
  · cases h
  · cases h
    rfl

theorem holdMove_gives : (s.holdMove i).gives s := by
  unfold State.holdMove
  split
  · cases h : s.evictStart (s.conv i).part i with
    | none => rfl
    | some t => exact evictStart_gives h
  · rfl

/-- What waits for places takes them from the pools, for copies (R261, R263). -/
theorem poolsGive_gives : (s.poolsGive p).gives s := by
  have hmoves : ∀ {l : List Nat} {v : State}, (l.foldl (fun s i => s.holdMove i) v).gives v :=
    foldl_over (R := State.gives) (fun _ => rfl) State.gives.trans fun _ _ => holdMove_gives
  exact hmoves.trans loadRetry_gives

end

end Sys2Proof.Machine
end

section
/-!
PROOFS. Step descriptors and the step go (R179 to R182, R383): what a write of a partition's REEL_P_STEP_GO comes to.
-/

namespace Sys2Proof.Machine

section
variable {r s t : State} {p : PartNum} {q : Requester} {v : Word} {a len : Nat}

/-! ### The write that reaches the reel -/

/-- REEL_P_STEP_GO is a register whose writes start something. -/
theorem stepGos_start :
    ∀ p : PartNum, (findReg (windowRegs 0x40) (0x1040 + 0x80 * p.val)).any RegHit.starts = true := by
  decide +kernel

theorem reelPart_stepGo : ∀ p : PartNum, reelPart (0x1040 + 0x80 * p.val) = some p := by
  decide +kernel

/-- STEP_GO writes no enable of a reel. -/
theorem reelEnabled_stepGo (b : Nat) : s.reelEnabled t b (0x1040 + 0x80 * p.val) = t := by
  rw [State.reelEnabled, if_neg (by omega)]

theorem writeAction_stepGo : s.writeAction 0x40 (0x1040 + 0x80 * p.val) v = s.reelGoWrite p v := by
  have hmod : (0x1040 + 0x80 * p.val) % 0x80 = 0x40 := by omega
  have hnone : allArrays[0x40]? = none := by decide +kernel
  simp only [State.writeAction, hnone, hmod, reelPart_stepGo, and_self, if_true]

/-- By one of the module's own blocks, a write of a partition's STEP_GO starts what the register starts. -/
theorem writeWindow_stepGo (hq : nonSecure q = false) :
    s.writeWindow q 0x40 (0x1040 + 0x80 * p.val) v = s.reelGoWrite p v := by
  have hp := p.isLt
  obtain ⟨h, hf, hs⟩ := exists_starts (stepGos_start p)
  have hoff : 0x1040 + 0x80 * p.val < 0x80000 := by omega
  have hstored := writeHit_starts (s := s) (v := v) hs (regKey 0x40 (0x1040 + 0x80 * p.val)) (s.locked 0x40 (0x1040 + 0x80 * p.val))
    fun t => t.lockedDrop 0x40 (0x1040 + 0x80 * p.val)
  simp only [RegHit.starts, Bool.and_eq_true, Bool.not_eq_true', List.all_eq_true, beq_iff_eq, List.isEmpty_eq_false_iff] at hs
  obtain ⟨⟨⟨hlow, -⟩, hall⟩, hne⟩ := hs
  obtain ⟨f, hfm⟩ := List.exists_mem_of_ne_nil _ hne
  have hwo : (h.row.fields.any fun f => f.access == .wo) = true := List.any_eq_true.mpr ⟨f, hfm, by simp [hall f hfm]⟩
  have hdead : s.windowDead 0x40 = false := rfl
  have hmsix : s.msixAt 0x40 (0x1040 + 0x80 * p.val) = none := rfl
  have habs : absentReg 0x40 (0x1040 + 0x80 * p.val) = false := rfl
  simp [State.writeWindow, hdead, hmsix, Nat.mod_eq_of_lt hoff, habs, hf, hlow, hq, hoff.not_ge, hstored, reelEnabled_stepGo,
    patrolEnabled_of_other (b := 0x40) (by omega) (by omega), hwo, writeAction_stepGo]

theorem exec_reelPStepGo_own (hq : nonSecure q = false) (hv : v.getLsbD 0 = true) :
    exec (.reelPStepGo q p v) s = .next ((s.flushUpdates p).stepGo p) := by
  have hp := p.isLt
  have hwrite : exec (.reelPStepGo q p v) s = .next (s.writeWindow q 0x40 (0x1040 + 0x80 * p.val) v) :=
    exec_registerWrite_own rfl hq (by decide) (by omega) (by omega) nofun
  rw [hwrite, writeWindow_stepGo hq]
  exact congrArg Host.Outcome.next (if_pos hv)

/-! ### Updates that do not wait -/

theorem flushUpdates_running (h : (s.reel.steps[p.val]).isSome = true) : s.flushUpdates p = s := by
  simp [State.flushUpdates, h]

theorem flushUpdates_none (h : s.reel.updates = []) : s.flushUpdates p = s := by
  simp [State.flushUpdates, h]

theorem seqFlush_none (hstep : (s.reel.steps[p.val]).isNone = true) (h : s.reel.updates = []) : s.seqFlush p = s := by
  have hidle : (s.reel.steps[p.val]).isSome = false := by simpa using hstep
  have hkept : { s with reel := { s.reel with updates := [] } } = s := by rw [← h]
  simp [State.seqFlush, hidle, h, hkept]

/-! ### The outcomes of a go -/

theorem stepStat_fits : (F.reelPStepStatRunning p).fits = true ∧ (F.reelPStepStatRejected p).fits = true
    ∧ (F.reelPStepStatDropped p).fits = true := by
  exact ⟨rfl, rfl, rfl⟩

/-- A go that is rejected leaves the reel, memory and the arrays. -/
def State.rejects (t s : State) (p : PartNum) : Prop :=
  t.reel = s.reel ∧ t.flag (F.reelPStepStatRejected p) = true ∧ t.mem = s.mem ∧ t.arrays = s.arrays

theorem rejects_of_based (h : t.based s) : (t.raiseBit (F.reelPStepStatRejected p)).rejects s p := by
  have hb : (t.raiseBit (F.reelPStepStatRejected p)).based s := State.raiseBit_based h
  exact ⟨hb.reel, flag_raiseBit stepStat_fits.2.1 rfl, hb.mem, hb.arrays⟩

/-- A go while a step runs is dropped (R180). -/
theorem stepGo_dropped (h : (s.reel.steps[p.val]).isSome = true) : s.stepGo p = s.raiseBit (F.reelPStepStatDropped p) :=
  if_pos h

/-- Where the descriptor lies (R181). -/
def State.descAddr (s : State) (p : PartNum) : Nat := s.get (F.reelPStepAddrAddr p) * 64

/-- The bytes that it names of itself. -/
def State.descLen (s : State) (p : PartNum) : Nat := 64 + 16 * fieldAt (s.load (s.descAddr p) 64) 6 2

/-- The state in which the reel has read a good descriptor. -/
def State.descRead (s : State) (p : PartNum) : State :=
  (s.correct (s.descAddr p) (s.descLen p) 5).countRead (s.descAddr p) (s.descLen p)

/-- The state with another step of the partition, or none. -/
def State.setStep (s : State) (p : PartNum) (o : Option StepDesc) : State :=
  { s with reel := { s.reel with steps := s.reel.steps.set p.val o } }

theorem steps_setStep {o : Option StepDesc} : (s.setStep p o).reel.steps[p.val] = o := by simp [State.setStep]

/-- A step that starts. -/
def State.startStep (s : State) (p : PartNum) (d : StepDesc) : State :=
  (s.setStep p (some d)).set (F.reelPStepStatRunning p) 1

/-- A go between steps, with no update waiting, reads its descriptor. -/
theorem stepGo_idle (hstep : (s.reel.steps[p.val]).isNone = true) (hup : s.reel.updates = []) :
    s.stepGo p =
      match s.reelCause p true (s.descAddr p) (s.descLen p) with
      | some c => (s.reelDenied p c (s.descAddr p)).raiseBit (F.reelPStepStatRejected p)
      | none =>
        match s.badIn (s.descAddr p) (s.descLen p) with
        | some w => (s.eccReport w 5 true).raiseBit (F.reelPStepStatRejected p)
        | none =>
          match (if (s.descRead p).flag (F.reelPCtlEnable p) && (s.descRead p).flag F.reelStatusReady then
            (s.descRead p).readDesc p (s.descAddr p) else none) with
          | none => (s.descRead p).raiseBit (F.reelPStepStatRejected p)
          | some d => (s.descRead p).startStep p d := by
  have hidle : ¬ (s.reel.steps[p.val]).isSome = true := by simpa using hstep
  rw [State.stepGo, if_neg hidle, seqFlush_none hstep hup]
  rfl

theorem stepGo_denied (hstep : (s.reel.steps[p.val]).isNone = true) (hup : s.reel.updates = [])
    (h : (s.reelCause p true (s.descAddr p) (s.descLen p)).isSome = true) : (s.stepGo p).rejects s p := by
  obtain ⟨c, hc⟩ := Option.isSome_iff_exists.mp h
  rw [stepGo_idle hstep hup, hc]
  exact rejects_of_based (State.accessError_based State.based_refl)

theorem stepGo_uncorrectable (hstep : (s.reel.steps[p.val]).isNone = true) (hup : s.reel.updates = [])
    (h : (s.badIn (s.descAddr p) (s.descLen p)).isSome = true) : (s.stepGo p).rejects s p := by
  cases hc : s.reelCause p true (s.descAddr p) (s.descLen p) with
  | some c => exact stepGo_denied hstep hup (by rw [hc]; rfl)
  | none =>
    obtain ⟨w, hw⟩ := Option.isSome_iff_exists.mp h
    rw [stepGo_idle hstep hup, hc, hw]
    exact rejects_of_based (State.eccReport_based State.based_refl)

/-! ### A descriptor that has been read -/

theorem descRead_readOver : (s.descRead p).readOver s :=
  countRead_counted.readOver.trans correct_based.readOver

/-- Reading a descriptor leaves the registers of the reel. -/
theorem flag_descRead {f : Fld} (hf : f.outside countedWindow) : (s.descRead p).flag f = s.flag f := by
  have h : (s.descRead p).sameRegs countedWindow s := (countRead_sameRegs _ _).trans (correct_sameRegs _ _ _)
  rw [State.flag, State.flag, h.get hf]

/-- Whether the partition's reel is enabled, before and after (R182, R209). -/
theorem enabled_descRead :
    ((s.descRead p).flag (F.reelPCtlEnable p) && (s.descRead p).flag F.reelStatusReady) = true
      ↔ s.flag (F.reelPCtlEnable p) = true ∧ s.flag F.reelStatusReady = true := by
  have hp := p.isLt
  have hctl : (F.reelPCtlEnable p).outside countedWindow := outside_regKey (by unfold countedWindow; omega) (by omega)
  have hready : F.reelStatusReady.outside countedWindow := outside_regKey (by unfold countedWindow; omega) (by decide)
  rw [flag_descRead hctl, flag_descRead hready, Bool.and_eq_true]

theorem descRead_kept :
    (s.descRead p).mem = s.mem ∧ (s.descRead p).arrays = s.arrays ∧ (s.descRead p).reel = s.reel := by
  have h : (s.descRead p).readOver s := descRead_readOver
  exact ⟨(congrArg State.mem h.1).trans rfl, h.2, (congrArg State.reel h.1).trans rfl⟩

theorem stepGo_starts {d : StepDesc} (hstep : (s.reel.steps[p.val]).isNone = true) (hup : s.reel.updates = [])
    (hc : s.reelCause p true (s.descAddr p) (s.descLen p) = none) (hb : s.badIn (s.descAddr p) (s.descLen p) = none)
    (hd : (s.descRead p).readDesc p (s.descAddr p) = some d)
    (hon : s.flag (F.reelPCtlEnable p) = true ∧ s.flag F.reelStatusReady = true) :
    s.stepGo p = (s.descRead p).startStep p d := by
  rw [stepGo_idle hstep hup, hc, hb, if_pos (enabled_descRead.mpr hon), hd]

theorem stepGo_refused (hstep : (s.reel.steps[p.val]).isNone = true) (hup : s.reel.updates = [])
    (hc : s.reelCause p true (s.descAddr p) (s.descLen p) = none) (hb : s.badIn (s.descAddr p) (s.descLen p) = none)
    (h : (s.descRead p).readDesc p (s.descAddr p) = none
      ∨ ¬ (s.flag (F.reelPCtlEnable p) = true ∧ s.flag F.reelStatusReady = true)) : (s.stepGo p).rejects s p := by
  have hnone : (if (s.descRead p).flag (F.reelPCtlEnable p) && (s.descRead p).flag F.reelStatusReady then
      (s.descRead p).readDesc p (s.descAddr p) else none) = none := by
    rcases h with h | h
    · rw [h, ite_self]
    · exact if_neg fun e => h (enabled_descRead.mp e)
  obtain ⟨hmem, harr, hreel⟩ := descRead_kept (s := s) (p := p)
  rw [stepGo_idle hstep hup, hc, hb, hnone]
  have hover : ((s.descRead p).raiseBit (F.reelPStepStatRejected p)).regsOver (s.descRead p) := raiseBit_regsOver
  refine ⟨?_, flag_raiseBit stepStat_fits.2.1 rfl, ?_, hover.arrays.trans harr⟩
  · rw [hover]
    exact hreel
  · rw [hover]
    exact hmem

/-- What the start of a step shows. -/
theorem startStep_shows {d : StepDesc} :
    (s.startStep p d).reel.steps[p.val] = some d ∧ (s.startStep p d).flag (F.reelPStepStatRunning p) = true
      ∧ (s.startStep p d).mem = s.mem ∧ (s.startStep p d).arrays = s.arrays := by
  have hover : (s.startStep p d).regsOver (s.setStep p (some d)) := set_regsOver
  refine ⟨?_, flag_raiseBit stepStat_fits.1 rfl, (congrArg State.mem hover).trans rfl, hover.arrays⟩
  rw [hover]
  exact steps_setStep

end

/-! ### What the obligation says of the go -/

/-- The clauses of O55 on REEL_P_STEP_GO. -/
theorem stepGo_clauses (s : State) (p : PartNum) (q : Requester) (v : Word) (hq : nonSecure q = false)
    (hv : v.getLsbD 0 = true) :
    ((s.reel.steps[p.val]).isSome = true → ∃ t, exec (.reelPStepGo q p v) s = .next t
      ∧ t.flag (F.reelPStepStatDropped p) = true ∧ t = { s with regs := t.regs }) ∧
    ((s.reel.steps[p.val]).isNone = true → s.reel.updates = [] →
      ∃ t, exec (.reelPStepGo q p v) s = .next t ∧
        ((s.reelCause p true (s.descAddr p) (s.descLen p)).isSome = true → t.rejects s p) ∧
        ((s.badIn (s.descAddr p) (s.descLen p)).isSome = true → t.rejects s p) ∧
        (s.reelCause p true (s.descAddr p) (s.descLen p) = none → s.badIn (s.descAddr p) (s.descLen p) = none →
          (∀ d, (s.descRead p).readDesc p (s.descAddr p) = some d →
            (s.flag (F.reelPCtlEnable p) = true ∧ s.flag F.reelStatusReady = true) →
            t.reel.steps[p.val] = some d ∧ t.flag (F.reelPStepStatRunning p) = true ∧ t.mem = s.mem ∧ t.arrays = s.arrays) ∧
          ((s.descRead p).readDesc p (s.descAddr p) = none
              ∨ ¬ (s.flag (F.reelPCtlEnable p) = true ∧ s.flag F.reelStatusReady = true) → t.rejects s p))) := by
  rw [exec_reelPStepGo_own hq hv]
  refine ⟨fun hrun => ?_, fun hstep hup => ?_⟩
  · rw [flushUpdates_running hrun, stepGo_dropped hrun]
    exact ⟨_, rfl, flag_raiseBit stepStat_fits.2.2 rfl, raiseBit_regsOver⟩
  · rw [flushUpdates_none hup]
    refine ⟨_, rfl, stepGo_denied hstep hup, stepGo_uncorrectable hstep hup,
      fun hc hb => ⟨fun d hd hon => ?_, stepGo_refused hstep hup hc hb⟩⟩
    obtain ⟨hsteps, hrun, hmem, harr⟩ := startStep_shows (s := s.descRead p) (p := p) (d := d)
    obtain ⟨hmem', harr', -⟩ := descRead_kept (s := s) (p := p)
    rw [stepGo_starts hstep hup hc hb hd hon]
    exact ⟨hsteps, hrun, hmem.trans hmem', harr.trans harr'⟩

end Sys2Proof.Machine
end

section
/-!
PROOFS. The end of a step (R183 to R186): the frames that a slot takes, the slots in order, and the length tables.
-/

namespace Sys2Proof.Machine

/-- t is s but for registers and records as they change when the reel's words are read, and for the reel as its work on its
tables changes it. -/
structure State.reels (t s : State) : Prop where
  frame : t = { s with regs := t.regs, events := t.events, board := t.board, reel := t.reel }
  words : t.keepsWords s
  bad : t.reel.bad ⊆ s.reel.bad
  steps : t.reel.steps = s.reel.steps

/-- What taking the frames of pages first to first + k - 1 of sequence i comes to. -/
structure State.takes (t s : State) (p : PartNum) (i first k : Nat) : Prop where
  reworks : t.reworks s
  pool : t.framePool p = (s.framePool p).drop k
  words : ∀ j w, t.seqWord j w = s.seqWord j w
  kept : ∀ e, e < s.seqMap i + first ∨ s.seqMap i + first + k ≤ e → t.mapEntry e = s.mapEntry e
  given : ∀ j f, j < k → (s.framePool p)[j]? = some f → t.mapEntry (s.seqMap i + first + j) = entryOf f 1

/-- A slot whose sequence may go on: it is the partition's, active or parked in the vault, and its map has room (R185). -/
structure State.slotReady (s : State) (p : PartNum) (x : StepSlot) : Prop where
  mine : s.seqIn p x.seq = true
  state : s.seqState x.seq = 1 ∨ s.seqState x.seq = 2
  vault : s.seqInTier x.seq = false
  plain : s.seqFallback x.seq = false
  room : pagesOf (s.seqLen x.seq + x.q) ≤ s.seqCap x.seq

/-- The frames that a slot needs. -/
def State.slotNeeds (s : State) (x : StepSlot) : Nat := pagesOf (s.seqLen x.seq + x.q) - pagesOf (s.seqLen x.seq)

/-- What a slot comes to that takes the frames it needs. -/
def State.slotServed (t s : State) (p : PartNum) (x : StepSlot) (from_ : Nat) : Prop :=
  t.seqLen x.seq = s.seqLen x.seq + x.q ∧ t.seqState x.seq = 1 ∧
    ∀ j f, pagesOf (s.seqLen x.seq) + j < pagesOf (s.seqLen x.seq + x.q) → (s.framePool p)[from_ + j]? = some f →
      t.mapEntry (s.seqMap x.seq + pagesOf (s.seqLen x.seq) + j) = entryOf f 1

/-- What a slot comes to that is parked. -/
def State.slotParked (t s : State) (x : StepSlot) : Prop :=
  t.seqLen x.seq = s.seqLen x.seq ∧ t.seqState x.seq = 2 ∧
    ∀ j, j < s.seqCap x.seq → t.mapEntry (s.seqMap x.seq + j) = s.mapEntry (s.seqMap x.seq + j)

/-- A map entry that is none of a sequence's. -/
def State.foreignEntry (s : State) (i e : Nat) : Prop := e < s.seqMap i ∨ s.seqMap i + s.seqCap i ≤ e

section
variable {r s t u : State} {p : PartNum} {d : StepDesc} {x : StepSlot} {i k first : Nat}

theorem State.reels_refl : s.reels s := ⟨rfl, State.keepsWords_refl, List.Subset.refl _, rfl⟩

theorem State.reels.trans (h : t.reels s) (g : s.reels r) : t.reels r :=
  ⟨h.frame.trans (congrArg (fun u : State => { u with regs := t.regs, events := t.events, board := t.board, reel := t.reel }) g.frame),
    h.words.trans g.words, List.Subset.trans h.bad g.bad, h.steps.trans g.steps⟩

theorem State.noted.reels (h : t.noted s) : t.reels s := by
  obtain ⟨hbase, hwords⟩ := h
  have hreel := hbase.reel
  refine ⟨?_, hwords, hreel ▸ List.Subset.refl _, by rw [hreel]⟩
  rw [hreel]
  unfold State.based at hbase
  cases s; cases t
  simp_all

theorem State.reworks.reels (h : t.reworks s) : t.reels s := by
  refine ⟨?_, .of_regs State.keepsWords_refl ?_, h.bad, h.steps⟩
  · rw [h.frame]
  · rw [h.frame]

theorem State.reels.bad_nil (h : t.reels s) (hb : s.reel.bad = []) : t.reel.bad = [] := List.subset_nil.mp (hb ▸ h.bad)

/-- Work on the reel's tables leaves the partition's sequence range. -/
theorem State.reels.seqIn (h : t.reels s) : t.seqIn p i = s.seqIn p i := by
  have hp := p.isLt
  have hbase : t.get (F.reelPSeqBaseBase p) = s.get (F.reelPSeqBaseBase p) := h.words.get (uncounted_reelP (by omega) (by omega))
  have hcount : t.get (F.reelPSeqCountCount p) = s.get (F.reelPSeqCountCount p) := h.words.get (uncounted_reelP (by omega) (by omega))
  unfold State.seqIn
  rw [hbase, hcount]

/-! ### Fields of an entry's words (R175) -/

theorem seqMap_congr (h : t.seqWord i 1 = s.seqWord i 1) : t.seqMap i = s.seqMap i := by rw [State.seqMap, h, State.seqMap]

theorem seqCap_congr (h : t.seqWord i 2 = s.seqWord i 2) : t.seqCap i = s.seqCap i := by rw [State.seqCap, h, State.seqCap]

theorem seqLen_congr (h : t.seqWord i 0 = s.seqWord i 0) : t.seqLen i = s.seqLen i := by rw [State.seqLen, h, State.seqLen]

theorem seqState_congr (h : t.seqWord i 0 = s.seqWord i 0) : t.seqState i = s.seqState i := by
  rw [State.seqState, h, State.seqState]

theorem seqInTier_congr (h : t.seqWord i 0 = s.seqWord i 0) : t.seqInTier i = s.seqInTier i := by
  rw [State.seqInTier, h, State.seqInTier]

theorem seqFallback_congr (h : t.seqWord i 0 = s.seqWord i 0) : t.seqFallback i = s.seqFallback i := by
  rw [State.seqFallback, h, State.seqFallback]

/-! ### Frames for a slot (R185, R186) -/

/-- The state in which page first of sequence i has taken frame f, the others of the pool being left. -/
def State.takeFrame (s : State) (p : PartNum) (i first f : Nat) (rest : List Nat) : State :=
  (s.setFrames p rest).setMapEntry (s.seqMap i + first) (entryOf f 1)

theorem framePool_takeFrame {f : Nat} {rest : List Nat} : (s.takeFrame p i first f rest).framePool p = rest := by
  rw [State.takeFrame, framePool_setMapEntry, framePool_setFrames]

theorem seqWord_takeFrame {f : Nat} {rest : List Nat} (j w : Nat) :
    (s.takeFrame p i first f rest).seqWord j w = s.seqWord j w := by
  rw [State.takeFrame, seqWord_setMapEntry, seqWord_setFrames]

theorem mapEntry_takeFrame {f : Nat} {rest : List Nat} (e : Nat) :
    (s.takeFrame p i first f rest).mapEntry e = if e = s.seqMap i + first then entryOf f 1 else s.mapEntry e := by
  rw [State.takeFrame, mapEntry_setMapEntry, mapEntry_setFrames]

theorem takes_step {f : Nat} {rest : List Nat} (hpool : s.framePool p = f :: rest)
    (h : t.takes (s.takeFrame p i first f rest) p i (first + 1) k) : t.takes s p i first (k + 1) := by
  obtain ⟨hre, hp, hw, hk, hg⟩ := h
  rw [seqMap_congr (seqWord_takeFrame i 1)] at hk hg
  rw [framePool_takeFrame] at hg hp
  refine ⟨hre.trans (setMapEntry_reworks.trans setFrames_reworks), by rw [hp, hpool, List.drop_succ_cons],
    fun j w => (hw j w).trans (seqWord_takeFrame j w), fun e he => ?_, fun j g hj hget => ?_⟩
  · rw [hk e (by omega), mapEntry_takeFrame, if_neg (by omega)]
  · rw [hpool] at hget
    cases j with
    | zero =>
      cases hget
      rw [hk _ (by omega), mapEntry_takeFrame, if_pos (by omega)]
    | succ j =>
      have := hg j g (by omega) hget
      rwa [show s.seqMap i + (first + 1) + j = s.seqMap i + first + (j + 1) by omega] at this

/-- A vault sequence takes the frames it needs in pool order, all of them or none. -/
theorem takePages_vault (k : Nat) : ∀ {s : State} {first : Nat}, s.seqFallback i = false →
    (k ≤ (s.framePool p).length → ∃ t, s.takePages p i first k = some t ∧ t.takes s p i first k) ∧
    ((s.framePool p).length < k → s.takePages p i first k = none) := by
  induction k with
  | zero =>
    intro s first _
    refine ⟨fun _ => ⟨s, rfl, State.reworks_refl, rfl, fun _ _ => rfl, fun _ _ => rfl, fun j f hj => ?_⟩, fun h => ?_⟩ <;> omega
  | succ k ih =>
    intro s first hfb
    rw [State.takePages, if_neg (by simp [hfb])]
    cases hpool : s.framePool p with
    | nil => exact ⟨fun h => absurd h (by simp), fun _ => rfl⟩
    | cons f rest =>
      obtain ⟨henough, hshort⟩ := ih (s := s.takeFrame p i first f rest) (first := first + 1)
        ((seqFallback_congr (seqWord_takeFrame i 0)).trans hfb)
      rw [framePool_takeFrame] at henough hshort
      refine ⟨fun h => ?_, fun h => hshort (by simpa using h)⟩
      obtain ⟨t, ht, htakes⟩ := henough (by simpa using h)
      exact ⟨t, ht, takes_step hpool htakes⟩

/-! ### One slot (R183, R185) -/

/-- A live slot's entry: its new length, active, with the step's number. -/
def State.slotLive (s : State) (d : StepDesc) (x : StepSlot) (len : Nat) : State :=
  ((s.setSeqBits x.seq 0 8 21 (len + x.q)).setSeqBits x.seq 0 0 2 1).setSeqWord x.seq 3 d.step

/-- A parked slot's entry, with the time it was first parked. -/
def State.slotPark (s : State) (i : Nat) : State :=
  (if s.seqState i = 2 then s else s.setSeqWord i 4 (s.time.setWidth 32)).setSeqBits i 0 0 2 2

/-- t has s's pools, its map and every word of the table but those of sequence i. -/
structure State.rewords (t s : State) (p : PartNum) (i : Nat) : Prop where
  reworks : t.reworks s
  pool : t.framePool p = s.framePool p
  words : ∀ j w, w < 8 → ¬ (j = i ∧ (w = 0 ∨ w = 3 ∨ w = 4)) → t.seqWord j w = s.seqWord j w
  map : ∀ e, t.mapEntry e = s.mapEntry e

theorem slotLive_rewords {len : Nat} : (s.slotLive d x len).rewords s p x.seq := by
  refine ⟨setSeqWord_reworks.trans (setSeqBits_reworks.trans setSeqBits_reworks), ?_, fun j w hw h => ?_, fun e => ?_⟩
  · rw [State.slotLive, framePool_setSeqWord, framePool_setSeqBits, framePool_setSeqBits]
  · rw [State.slotLive, seqWord_setSeqWord hw (by decide), if_neg (by omega), seqWord_setSeqBits_ne hw (by decide) (by omega),
      seqWord_setSeqBits_ne hw (by decide) (by omega)]
  · rw [State.slotLive, mapEntry_setSeqWord, mapEntry_setSeqBits, mapEntry_setSeqBits]

theorem slotLive_shows {len : Nat} (hlen : len + x.q < 2 ^ 21) :
    (s.slotLive d x len).seqLen x.seq = len + x.q ∧ (s.slotLive d x len).seqState x.seq = 1 := by
  have hword : (s.slotLive d x len).seqWord x.seq 0
      = ((s.setSeqBits x.seq 0 8 21 (len + x.q)).setSeqBits x.seq 0 0 2 1).seqWord x.seq 0 := by
    rw [State.slotLive, seqWord_setSeqWord (by decide) (by decide), if_neg fun e => absurd e.2 (by decide)]
  constructor
  · rw [State.seqLen, hword, bits_setSeqBits_apart (by decide) (by decide) (by decide), bits_setSeqBits_self (by decide) (by decide),
      Nat.mod_eq_of_lt hlen]
  · rw [State.seqState, hword]
    exact bits_setSeqBits_self (by decide) (by decide)

theorem slotPark_rewords : (s.slotPark i).rewords s p i := by
  unfold State.slotPark
  split
  · refine ⟨setSeqBits_reworks, framePool_setSeqBits, fun j w hw h => ?_, fun e => mapEntry_setSeqBits⟩
    exact seqWord_setSeqBits_ne hw (by decide) (by omega)
  · refine ⟨setSeqBits_reworks.trans setSeqWord_reworks, ?_, fun j w hw h => ?_, fun e => ?_⟩
    · rw [framePool_setSeqBits, framePool_setSeqWord]
    · rw [seqWord_setSeqBits_ne hw (by decide) (by omega), seqWord_setSeqWord hw (by decide), if_neg (by omega)]
    · rw [mapEntry_setSeqBits, mapEntry_setSeqWord]

theorem slotPark_shows : (s.slotPark i).seqLen i = s.seqLen i ∧ (s.slotPark i).seqState i = 2 := by
  have hstamped : (if s.seqState i = 2 then s else s.setSeqWord i 4 (s.time.setWidth 32)).seqLen i = s.seqLen i := by
    split
    · rfl
    · refine seqLen_congr ?_
      rw [seqWord_setSeqWord (by decide) (by decide), if_neg (by omega)]
  constructor
  · rw [State.seqLen, State.slotPark, bits_setSeqBits_apart (by decide) (by decide) (by decide)]
    exact hstamped
  · rw [State.seqState, State.slotPark]
    exact bits_setSeqBits_self (by decide) (by decide)

/-- A ready slot takes its frames, or is parked, once its words have been read. -/
theorem runSlot_ready (hb : s.reel.bad = []) (h : s.slotReady p x) :
    ∃ u, State.noted u s ∧ s.runSlot p d x = match u.takePages p x.seq (pagesOf (s.seqLen x.seq)) (s.slotNeeds x) with
      | some t => (t.slotLive d x (s.seqLen x.seq), 0)
      | none => (u.slotPark x.seq, 1) := by
  obtain ⟨hmine, hstate, hvault, hplain, hroom⟩ := h
  have hscan : (s.reelScan p (s.seqWords x.seq)).1.noted s := reelScan_noted p _
  have hgood : (s.reelScan p (s.seqWords x.seq)).2 = false := reelScan_good hb p _
  generalize hv : (s.reelScan p (s.seqWords x.seq)).1 = v at hscan
  have hw : ∀ i w, v.seqWord i w = s.seqWord i w := fun i w => by rw [State.seqWord, hscan.1.reel, State.seqWord]
  have hlen : v.seqLen x.seq = s.seqLen x.seq := seqLen_congr (hw _ _)
  have hneeds : pagesOf (s.seqLen x.seq + x.q) - pagesOf (s.seqLen x.seq) = s.slotNeeds x := rfl
  have hlive : ¬ ((v.seqState x.seq ≠ 1 ∧ v.seqState x.seq ≠ 2) ∨ v.seqInTier x.seq = true) := by
    rw [seqState_congr (hw _ _), seqInTier_congr (hw _ _), hvault]
    rintro (⟨h1, h2⟩ | h)
    · exact hstate.elim h1 h2
    · cases h
  have hpool : ∃ u, State.noted u v ∧
      (if s.slotNeeds x = 0 then (v, false) else v.reelScan p (v.poolWords p (v.seqFallback x.seq))) = (u, false) := by
    split
    · exact ⟨v, State.noted_refl, rfl⟩
    · exact ⟨_, reelScan_noted p _, Prod.ext rfl (reelScan_good (hscan.reels.bad_nil hb) p _)⟩
  obtain ⟨u, hu, hscan2⟩ := hpool
  refine ⟨u, hu.trans hscan, ?_⟩
  have hcap : ¬ v.seqCap x.seq < pagesOf (s.seqLen x.seq + x.q) := by rw [seqCap_congr (hw _ _)]; omega
  unfold State.runSlot
  simp only [hmine, hgood, hv, hlen, hneeds, hlive, hcap, hscan2, Bool.not_true, Bool.false_eq_true, if_false]
  cases u.takePages p x.seq (pagesOf (s.seqLen x.seq)) (s.slotNeeds x) <;> rfl

/-- What one slot of a step comes to: whether it takes its frames or is parked, it leaves other sequences and other map
entries. -/
structure State.slotDone (t s : State) (p : PartNum) (x : StepSlot) (met : Bool) : Prop where
  reels : t.reels s
  pool : t.framePool p = (s.framePool p).drop (if met = true then s.slotNeeds x else 0)
  words : ∀ j w, w < 8 → j ≠ x.seq → t.seqWord j w = s.seqWord j w
  map : ∀ e, s.foreignEntry x.seq e → t.mapEntry e = s.mapEntry e
  served : met = true → t.slotServed s p x 0
  parked : met = false → t.slotParked s x

/-- A length that its map has room for fits the entry's field. -/
theorem slotReady_fits (h : s.slotReady p x) : s.seqLen x.seq + x.q < 2 ^ 21 := by
  have hcap : s.seqCap x.seq < 2 ^ 17 := bitsAt_lt _ 0 17
  have hroom := h.room
  unfold pagesOf ceilDiv at hroom
  omega

theorem takes_live (hu : u.noted s) (h : s.slotReady p x) (ht : t.takes u p x.seq (pagesOf (s.seqLen x.seq)) (s.slotNeeds x)) :
    (t.slotLive d x (s.seqLen x.seq)).slotDone s p x true := by
  obtain ⟨hre, hpool, hwords, hkept, hgiven⟩ := ht
  have hreel : u.reel = s.reel := hu.1.reel
  have hw : ∀ i w, u.seqWord i w = s.seqWord i w := fun i w => by rw [State.seqWord, hreel, State.seqWord]
  have hm : ∀ e, u.mapEntry e = s.mapEntry e := fun e => by rw [State.mapEntry, hreel, State.mapEntry]
  have hp : u.framePool p = s.framePool p := by rw [State.framePool, hreel, State.framePool]
  rw [seqMap_congr (hw _ _)] at hkept hgiven
  rw [hp] at hpool hgiven
  have hlive : (t.slotLive d x (s.seqLen x.seq)).rewords t p x.seq := slotLive_rewords
  have hneeds : s.slotNeeds x = pagesOf (s.seqLen x.seq + x.q) - pagesOf (s.seqLen x.seq) := rfl
  have hroom := h.room
  have hmono : pagesOf (s.seqLen x.seq) ≤ pagesOf (s.seqLen x.seq + x.q) := by unfold pagesOf ceilDiv; omega
  refine ⟨hlive.reworks.reels.trans (hre.reels.trans hu.reels), ?_, fun j w hj hne => ?_, fun e he => ?_, fun _ => ?_, nofun⟩
  · rw [hlive.pool, hpool, if_pos rfl]
  · rw [hlive.words j w hj (by omega), hwords, hw]
  · rw [hlive.map, hkept e (by unfold State.foreignEntry at he; omega), hm]
  · obtain ⟨hlen, hstate⟩ := slotLive_shows (s := t) (d := d) (slotReady_fits h)
    refine ⟨hlen, hstate, fun j f hj hf => ?_⟩
    rw [hlive.map, hgiven j f (by omega) (by rwa [Nat.zero_add] at hf)]

theorem park_done (hu : u.noted s) : (u.slotPark x.seq).slotDone s p x false := by
  have hreel : u.reel = s.reel := hu.1.reel
  have hw : ∀ i w, u.seqWord i w = s.seqWord i w := fun i w => by rw [State.seqWord, hreel, State.seqWord]
  have hm : ∀ e, u.mapEntry e = s.mapEntry e := fun e => by rw [State.mapEntry, hreel, State.mapEntry]
  have hpark : (u.slotPark x.seq).rewords u p x.seq := slotPark_rewords
  obtain ⟨hlen, hstate⟩ := slotPark_shows (s := u) (i := x.seq)
  refine ⟨hpark.reworks.reels.trans hu.reels, ?_, fun j w hj hne => ?_, fun e _ => ?_, nofun, fun _ => ⟨?_, hstate, fun j _ => ?_⟩⟩
  · rw [hpark.pool, State.framePool, hreel]
    rfl
  · rw [hpark.words j w hj (by omega), hw]
  · rw [hpark.map, hm]
  · rw [hlen, seqLen_congr (hw _ _)]
  · rw [hpark.map, hm]

/-- A ready slot is served where the pool holds the frames it needs, and parked elsewhere (R183, R185). -/
theorem runSlot_done (hb : s.reel.bad = []) (h : s.slotReady p x) :
    ∃ t k, s.runSlot p d x = (t, k) ∧ k ≤ 1 ∧ t.slotDone s p x (decide (s.slotNeeds x ≤ (s.framePool p).length)) := by
  obtain ⟨u, hu, hrun⟩ := runSlot_ready (d := d) hb h
  have hreel : u.reel = s.reel := hu.1.reel
  have hpool : u.framePool p = s.framePool p := by rw [State.framePool, hreel, State.framePool]
  have hplain : u.seqFallback x.seq = false := by
    rw [seqFallback_congr (s := s) (by rw [State.seqWord, hreel, State.seqWord]), h.plain]
  obtain ⟨henough, hshort⟩ := takePages_vault (p := p) (i := x.seq) (s.slotNeeds x) (first := pagesOf (s.seqLen x.seq)) hplain
  rw [hpool] at henough hshort
  by_cases hmet : s.slotNeeds x ≤ (s.framePool p).length
  · obtain ⟨t, ht, htakes⟩ := henough hmet
    rw [ht] at hrun
    exact ⟨_, 0, hrun, by decide, by rw [decide_eq_true hmet]; exact takes_live hu h htakes⟩
  · rw [hshort (by omega)] at hrun
    exact ⟨_, 1, hrun, by decide, by rw [decide_eq_false hmet]; exact park_done hu⟩

/-! ### The slots in order (R183, R185) -/

/-- The frames that the first k of needs take from n. -/
def takenBy (n : Nat) (needs : List Nat) (k : Nat) : Nat :=
  (((needs.zip (metFrom n needs)).take k).map fun x => if x.2 = true then x.1 else 0).sum

theorem takenBy_cons {n a : Nat} {needs : List Nat} :
    takenBy n (a :: needs) (k + 1) = (if decide (a ≤ n) = true then a else 0) + takenBy (if a ≤ n then n - a else n) needs k := by
  simp [takenBy, metFrom]

/-- The map entries of two sequences share none. -/
def State.mapsApart (s : State) (i j : Nat) : Prop := s.seqMap i + s.seqCap i ≤ s.seqMap j ∨ s.seqMap j + s.seqCap j ≤ s.seqMap i

/-- Slots that are ready, each of another sequence, whose map entries are apart. -/
structure State.slotsReady (s : State) (p : PartNum) (l : List StepSlot) : Prop where
  ready : ∀ x ∈ l, s.slotReady p x
  nodup : (l.map (·.seq)).Nodup
  apart : ∀ x ∈ l, ∀ y ∈ l, x.seq ≠ y.seq → s.mapsApart x.seq y.seq

/-- What the slots of a step come to, in order. -/
structure State.slotsDone (t s : State) (p : PartNum) (l : List StepSlot) : Prop where
  reels : t.reels s
  pool : t.framePool p = (s.framePool p).drop (takenBy (s.framePool p).length (l.map s.slotNeeds) l.length)
  words : ∀ j w, w < 8 → j ∉ l.map (·.seq) → t.seqWord j w = s.seqWord j w
  map : ∀ e, (∀ x ∈ l, s.foreignEntry x.seq e) → t.mapEntry e = s.mapEntry e
  served : ∀ (k : Nat) x, l[k]? = some x → (metFrom (s.framePool p).length (l.map s.slotNeeds))[k]? = some true →
    t.slotServed s p x (takenBy (s.framePool p).length (l.map s.slotNeeds) k)
  parked : ∀ (k : Nat) x, l[k]? = some x → (metFrom (s.framePool p).length (l.map s.slotNeeds))[k]? = some false → t.slotParked s x

theorem slotReady_congr (hr : t.reels s) (hw : ∀ w, w < 8 → t.seqWord x.seq w = s.seqWord x.seq w) (h : s.slotReady p x) :
    t.slotReady p x := by
  have h0 := hw 0 (by decide)
  obtain ⟨hmine, hstate, hvault, hplain, hroom⟩ := h
  exact ⟨hr.seqIn.trans hmine, by rwa [seqState_congr h0], by rwa [seqInTier_congr h0], by rwa [seqFallback_congr h0],
    by rwa [seqLen_congr h0, seqCap_congr (hw 2 (by decide))]⟩

theorem slotNeeds_congr (hw : t.seqWord x.seq 0 = s.seqWord x.seq 0) : t.slotNeeds x = s.slotNeeds x := by
  rw [State.slotNeeds, seqLen_congr hw, State.slotNeeds]

theorem slotServed_later {n : Nat} (h : u.slotServed s p x n) (hroom : pagesOf (s.seqLen x.seq + x.q) ≤ s.seqCap x.seq)
    (hw : t.seqWord x.seq 0 = u.seqWord x.seq 0)
    (hm : ∀ j, j < s.seqCap x.seq → t.mapEntry (s.seqMap x.seq + j) = u.mapEntry (s.seqMap x.seq + j)) :
    t.slotServed s p x n := by
  obtain ⟨hlen, hstate, hentry⟩ := h
  refine ⟨(seqLen_congr hw).trans hlen, (seqState_congr hw).trans hstate, fun j f hj hf => ?_⟩
  have := hm (pagesOf (s.seqLen x.seq) + j) (by omega)
  rw [← Nat.add_assoc] at this
  exact this.trans (hentry j f hj hf)

theorem slotParked_later (h : u.slotParked s x) (hw : t.seqWord x.seq 0 = u.seqWord x.seq 0)
    (hm : ∀ j, j < s.seqCap x.seq → t.mapEntry (s.seqMap x.seq + j) = u.mapEntry (s.seqMap x.seq + j)) :
    t.slotParked s x := by
  obtain ⟨hlen, hstate, hentry⟩ := h
  exact ⟨(seqLen_congr hw).trans hlen, (seqState_congr hw).trans hstate, fun j hj => (hm j hj).trans (hentry j hj)⟩

/-- What a slot comes to, seen from before another sequence's slot. -/
theorem slotServed_earlier {n m : Nat} (hw : ∀ w, w < 8 → u.seqWord x.seq w = s.seqWord x.seq w)
    (hp : u.framePool p = (s.framePool p).drop m) (h : t.slotServed u p x n) : t.slotServed s p x (m + n) := by
  obtain ⟨hlen, hstate, hentry⟩ := h
  rw [seqLen_congr (hw 0 (by decide))] at hlen hentry
  rw [seqMap_congr (hw 1 (by decide)), hp] at hentry
  exact ⟨hlen, hstate, fun j f hj hf => hentry j f hj (by rwa [List.getElem?_drop, ← Nat.add_assoc])⟩

theorem slotParked_earlier (hw : ∀ w, w < 8 → u.seqWord x.seq w = s.seqWord x.seq w)
    (hm : ∀ j, j < s.seqCap x.seq → u.mapEntry (s.seqMap x.seq + j) = s.mapEntry (s.seqMap x.seq + j))
    (h : t.slotParked u x) : t.slotParked s x := by
  obtain ⟨hlen, hstate, hentry⟩ := h
  rw [seqLen_congr (hw 0 (by decide))] at hlen
  rw [seqMap_congr (hw 1 (by decide)), seqCap_congr (hw 2 (by decide))] at hentry
  exact ⟨hlen, hstate, fun j hj => (hentry j hj).trans (hm j hj)⟩

/-- An entry of one sequence is none of another's. -/
theorem foreignEntry_of_apart {j e : Nat} (h : s.mapsApart i j) (he : e < s.seqCap i) : s.foreignEntry j (s.seqMap i + e) := by
  unfold State.mapsApart at h
  unfold State.foreignEntry
  omega

/-- The slots after the first are ready still when it is done. -/
theorem slotsReady_tail {l : List StepSlot} {met : Bool} (h : s.slotsReady p (x :: l)) (hu : u.slotDone s p x met) :
    u.slotsReady p l ∧ (∀ y ∈ l, ∀ w, w < 8 → u.seqWord y.seq w = s.seqWord y.seq w) ∧ x.seq ∉ l.map (·.seq) := by
  obtain ⟨hready, hnodup, hapart⟩ := h
  rw [List.map_cons, List.nodup_cons] at hnodup
  have hne : ∀ y ∈ l, y.seq ≠ x.seq := fun y hy e => hnodup.1 (e ▸ List.mem_map_of_mem hy)
  have hw : ∀ y ∈ l, ∀ w, w < 8 → u.seqWord y.seq w = s.seqWord y.seq w := fun y hy w hlt => hu.words _ w hlt (hne y hy)
  refine ⟨⟨fun y hy => slotReady_congr hu.reels (hw y hy) (hready y (List.mem_cons_of_mem x hy)), hnodup.2,
    fun y hy z hz hyz => ?_⟩, hw, hnodup.1⟩
  have := hapart y (List.mem_cons_of_mem x hy) z (List.mem_cons_of_mem x hz) hyz
  unfold State.mapsApart at this ⊢
  rwa [seqMap_congr (hw y hy 1 (by decide)), seqMap_congr (hw z hz 1 (by decide)), seqCap_congr (hw y hy 2 (by decide)),
    seqCap_congr (hw z hz 2 (by decide))]

theorem slotsDone_cons {l : List StepSlot} (h : s.slotsReady p (x :: l))
    (hu : u.slotDone s p x (decide (s.slotNeeds x ≤ (s.framePool p).length))) (ht : t.slotsDone u p l) :
    t.slotsDone s p (x :: l) := by
  obtain ⟨-, hw, hx⟩ := slotsReady_tail h hu
  obtain ⟨hreels, hpool, hwords, hmap, hserved, hparked⟩ := ht
  have hneeds : l.map u.slotNeeds = l.map s.slotNeeds := List.map_congr_left fun y hy => slotNeeds_congr (hw y hy 0 (by decide))
  have hleft : (u.framePool p).length
      = if s.slotNeeds x ≤ (s.framePool p).length then (s.framePool p).length - s.slotNeeds x else (s.framePool p).length := by
    rw [hu.pool, List.length_drop]
    by_cases hmet : s.slotNeeds x ≤ (s.framePool p).length <;> simp [hmet]
  rw [hneeds, hleft] at hpool hserved hparked
  have hforeign : ∀ j, j < s.seqCap x.seq → ∀ y ∈ l, u.foreignEntry y.seq (s.seqMap x.seq + j) := fun j hj y hy => by
    have hapart := h.apart x (List.mem_cons_self ..) y (List.mem_cons_of_mem x hy) fun e => hx (e ▸ List.mem_map_of_mem hy)
    have := foreignEntry_of_apart hapart hj
    unfold State.foreignEntry at this ⊢
    rwa [seqMap_congr (hw y hy 1 (by decide)), seqCap_congr (hw y hy 2 (by decide))]
  have hlater : ∀ j, j < s.seqCap x.seq → t.mapEntry (s.seqMap x.seq + j) = u.mapEntry (s.seqMap x.seq + j) :=
    fun j hj => hmap _ (hforeign j hj)
  have hword : t.seqWord x.seq 0 = u.seqWord x.seq 0 := hwords _ 0 (by decide) hx
  refine ⟨hreels.trans hu.reels, ?_, fun j w hlt hj => ?_, fun e he => ?_, fun k y hk hmet => ?_, fun k y hk hmet => ?_⟩
  · rw [hpool, hu.pool, List.drop_drop, List.map_cons, List.length_cons, takenBy_cons]
  · rw [List.map_cons, List.mem_cons, not_or] at hj
    rw [hwords j w hlt hj.2, hu.words j w hlt hj.1]
  · rw [hmap e fun y hy => ?_, hu.map e (he x (List.mem_cons_self ..))]
    have := he y (List.mem_cons_of_mem x hy)
    unfold State.foreignEntry at this ⊢
    rwa [seqMap_congr (hw y hy 1 (by decide)), seqCap_congr (hw y hy 2 (by decide))]
  · rw [List.map_cons, metFrom] at hmet
    cases k with
    | zero =>
      cases hk
      exact slotServed_later (hu.served (by simpa using hmet)) (h.ready x (List.mem_cons_self ..)).room hword hlater
    | succ k =>
      have hy : y ∈ l := List.mem_of_getElem? hk
      rw [List.map_cons, takenBy_cons]
      exact slotServed_earlier (hw y hy) hu.pool (hserved k y hk hmet)
  · rw [List.map_cons, metFrom] at hmet
    cases k with
    | zero =>
      cases hk
      exact slotParked_later (hu.parked (by simpa using hmet)) hword hlater
    | succ k =>
      have hy : y ∈ l := List.mem_of_getElem? hk
      refine slotParked_earlier (hw y hy) (fun j hj => hu.map _ ?_) (hparked k y hk hmet)
      exact foreignEntry_of_apart (h.apart y (List.mem_cons_of_mem x hy) x (List.mem_cons_self ..)
        fun e => hx (e ▸ List.mem_map_of_mem hy)) hj

/-- The slots of a step are served in order while the pool holds what they need. -/
theorem runSlots_done (l : List StepSlot) : ∀ {s : State}, s.reel.bad = [] → s.slotsReady p l →
    (s.runSlots p d l).1.slotsDone s p l ∧ ∀ x ∈ (s.runSlots p d l).2, x.2.1 ≤ 1 ∧ x.1 ∈ l := by
  induction l with
  | nil =>
    intro s _ _
    exact ⟨⟨State.reels_refl, rfl, fun _ _ _ _ => rfl, fun _ _ => rfl, nofun, nofun⟩, nofun⟩
  | cons x l ih =>
    intro s hb h
    obtain ⟨u, k, hrun, hk, hu⟩ := runSlot_done (d := d) hb (h.ready x (List.mem_cons_self ..))
    obtain ⟨hdone, hrest⟩ := ih (hu.reels.bad_nil hb) (slotsReady_tail h hu).1
    rw [State.runSlots, hrun]
    refine ⟨slotsDone_cons h hu hdone, fun y hy => ?_⟩
    rcases List.mem_cons.mp hy with rfl | hy
    · exact ⟨hk, List.mem_cons_self ..⟩
    · exact ⟨(hrest y hy).1, List.mem_cons_of_mem x (hrest y hy).2⟩

end

end Sys2Proof.Machine
end

section
/-!
PROOFS. Length tables and the end of a step (R180, R183): what the reel's writes to the spools leave alone, and what the partition's
step, its status and its slots are once it has ended.
-/

namespace Sys2Proof.Machine

/-- t has s's reel and requests, and the same byte at every address that is not among those of W. -/
structure State.writesOnly (W : Nat → Prop) (t s : State) : Prop where
  reel : t.reel = s.reel
  srv : t.srv = s.srv
  bytes : ∀ y, ¬ W y → t.byte y = s.byte y

/-- The addresses of a step's length tables: in the spools of its arrays, from the table's offset on. -/
def StepDesc.tableAt (d : StepDesc) (y : Nat) : Prop :=
  ∃ n : ArrayNum, d.arrays.getLsbD n.val = true ∧ spoolBase n + d.table ≤ y ∧ y < spoolBase n + spoolSize

section
variable {r s t : State} {p : PartNum} {d : StepDesc} {W : Nat → Prop} {n : ArrayNum} {i : Nat}

theorem State.writesOnly_refl : s.writesOnly W s := ⟨rfl, rfl, fun _ _ => rfl⟩

theorem State.writesOnly.trans (h : t.writesOnly W s) (g : s.writesOnly W r) : t.writesOnly W r :=
  ⟨h.reel.trans g.reel, h.srv.trans g.srv, fun y hy => (h.bytes y hy).trans (g.bytes y hy)⟩

theorem State.based.writesOnly (h : t.based s) : t.writesOnly W s := ⟨h.reel, h.srv, fun y _ => h.byte y⟩

theorem State.readOver.writesOnly (h : t.readOver s) : t.writesOnly W s :=
  ⟨(congrArg State.reel h.1).trans rfl, (congrArg State.srv h.1).trans rfl, fun y _ => h.1.byte y⟩

theorem store_writesOnly {a : Nat} {bs : List Byte} (hW : ∀ y, a ≤ y → y < a + bs.length → W y) :
    (s.store a bs).writesOnly W s :=
  ⟨State.store_reel .., State.store_srv .., fun y hy => byte_store_outside (by by_contra h; exact hy (hW y (by omega) (by omega)))⟩

/-- A write changes the bytes that it names. -/
theorem write_writesOnly {a : Nat} {bs : List Byte} (hW : ∀ y, a ≤ y → y < a + bs.length → W y) :
    (s.write a bs).writesOnly W s :=
  (store_writesOnly hW).trans
    (countWrite_counted.readOver.trans (countMerge_counted.readOver.trans mergeReads_based.readOver)).writesOnly

theorem incKnot_writesOnly {k v : Nat} : (s.incKnot n k v).writesOnly W s := ⟨rfl, rfl, fun _ _ => rfl⟩

theorem putTable_writesOnly {table : List Byte} (hn : d.arrays.getLsbD n.val = true) :
    (s.putTable d table n).writesOnly d.tableAt s := by
  have herror : ∀ {s : State} {a : Nat}, (s.accessError 0x040 n.val 1 0 0 (s.partOf n) (some a)).writesOnly d.tableAt s :=
    (State.accessError_based State.based_refl).writesOnly
  have hput : (s.write (spoolBase n + d.table) (table.take (spoolSize - d.table))).writesOnly d.tableAt s :=
    write_writesOnly fun y hy hlt => ⟨n, hn, hy, by have := List.length_take_le (spoolSize - d.table) table; omega⟩
  unfold State.putTable
  split
  · exact herror
  · refine incKnot_writesOnly.trans ?_
    split
    · exact hput
    · exact herror.trans hput

theorem putTables_writesOnly {table : List Byte} {l : List ArrayNum} (hl : ∀ n ∈ l, d.arrays.getLsbD n.val = true) :
    ∀ {s : State}, (l.foldl (fun (s : State) (n : ArrayNum) => s.putTable d table n) s).writesOnly d.tableAt s := by
  induction l with
  | nil => exact State.writesOnly_refl
  | cons n l ih =>
    exact (ih fun m hm => hl m (List.mem_cons_of_mem n hm)).trans (putTable_writesOnly (hl n (List.mem_cons_self ..)))

/-! ### The step's end (R180, R183) -/

/-- The state with the length tables written and raised. -/
def State.tablesPut (s : State) (d : StepDesc) (table : List Byte) : State :=
  (allArrays.filter fun (n : ArrayNum) => d.arrays.getLsbD n.val).foldl (fun (s : State) (n : ArrayNum) => s.putTable d table n) s

theorem tablesPut_writesOnly {table : List Byte} : (s.tablesPut d table).writesOnly d.tableAt s :=
  putTables_writesOnly fun _ hn => (List.mem_filter.mp hn).2

/-- The registers that show a step's end. -/
def State.showDone (s : State) (p : PartNum) (d : StepDesc) : State :=
  ((s.set (F.reelPStepStatRunning p) 0).raiseBit (F.reelPStepStatDone p)).set (F.reelPStepNumStep p) d.step.toNat

theorem stepFinish_some (hd : s.reel.steps[p.val] = some d) :
    s.stepFinish p =
      (((((s.runSlots p d d.slots).1.tablesPut d ((s.runSlots p d d.slots).1.lengthTable p d (s.runSlots p d d.slots).2)).setStep p
        none).showDone p d), (s.runSlots p d d.slots).2) := by
  rw [State.stepFinish, hd]
  rfl

theorem showDone_regsOver : (s.showDone p d).regsOver s := set_regsOver.trans (raiseBit_regsOver.trans set_regsOver)

/-- The registers that show a step's end share no bit. -/
theorem stepEnd_apart :
    (F.reelPStepNumStep p).apart (F.reelPStepStatRunning p) = true ∧ (F.reelPStepNumStep p).apart (F.reelPStepStatDone p) = true
      ∧ (F.reelPStepStatDone p).apart (F.reelPStepStatRunning p) = true := by
  refine ⟨?_, ?_, ?_⟩ <;> simp [Fld.apart, F.reelPStepNumStep, F.reelPStepStatRunning, F.reelPStepStatDone, regKey]

theorem showDone_shows :
    (s.showDone p d).flag (F.reelPStepStatRunning p) = false ∧ (s.showDone p d).flag (F.reelPStepStatDone p) = true
      ∧ (s.showDone p d).get (F.reelPStepNumStep p) = d.step.toNat := by
  refine ⟨?_, ?_, ?_⟩
  · rw [State.flag, State.showDone, get_set_apart rfl stepEnd_apart.1, State.raiseBit, get_set_apart rfl stepEnd_apart.2.2,
      get_set_self rfl]
    rfl
  · rw [State.flag, State.showDone, get_set_apart rfl stepEnd_apart.2.1, State.raiseBit, get_set_self rfl]
    rfl
  · rw [State.showDone, get_set_self rfl]
    exact Nat.mod_eq_of_lt d.step.isLt

/-! ### Slots whose requests are in no step -/

theorem request_congr (h : t.srv = s.srv) (i : Nat) : t.request i = s.request i := by
  rw [State.request, State.conv, h]
  rfl

theorem slotResult_idle {x : StepSlot × Nat × Nat} (h : ∀ r, s.request x.1.seq = some r → r.inStep = false) :
    s.slotResult x = s := by
  unfold State.slotResult
  dsimp only
  cases hr : s.request x.1.seq with
  | none => rfl
  | some r => simp [h r hr]

/-- Steps that leave a state leave it together. -/
theorem foldl_fixed {β : Type} {g : State → β → State} (l : List β) (h : ∀ x ∈ l, g s x = s) : l.foldl g s = s := by
  induction l with
  | nil => rfl
  | cons x l ih => rw [List.foldl_cons, h x (List.mem_cons_self ..), ih fun y hy => h y (List.mem_cons_of_mem x hy)]

/-- t is s but for the serving state. -/
def State.srvOver (t s : State) : Prop := t = { s with srv := t.srv }

theorem State.srvOver.trans (h : t.srvOver s) (g : s.srvOver r) : t.srvOver r :=
  Eq.trans h (congrArg (fun u : State => { u with srv := t.srv }) g)

theorem State.srvOver.reel (h : t.srvOver s) : t.reel = s.reel := by rw [h]

theorem State.srvOver.byte (h : t.srvOver s) (y : Nat) : t.byte y = s.byte y := by
  rw [h]
  rfl

theorem State.srvOver.get (h : t.srvOver s) (f : Fld) : t.get f = s.get f := by
  rw [h]
  rfl

theorem closeStep_srvOver : (s.closeStep p).srvOver s := by
  unfold State.closeStep
  split
  · rfl
  · dsimp only
    split
    · rfl
    · rfl

/-! ### The row -/

/-- Between steps there is nothing to end. -/
theorem exec_reelStepComplete_none (h : s.reel.steps[p.val] = none) : exec (.reelStepComplete p) s = .next s :=
  congrArg Host.Outcome.next (if_pos (by rw [h]; rfl))

/-- The state in which the posted step has its table and is closed where no slot of it is left to sample (R246). -/
def State.stepClosed (s : State) (p : PartNum) : State :=
  ({ s with srv := { s.srv with
      posted := s.srv.posted.set p.val ((s.srv.posted[p.val]).map fun (t : Posted) => { t with written := true }) } } : State).closeStep p

theorem stepClosed_srvOver : (s.stepClosed p).srvOver s := closeStep_srvOver.trans rfl

/-- A running step ends; then each slot's status is its request's, and a pool that could not be read fails (R173, R243). -/
theorem exec_reelStepComplete_running (hd : s.reel.steps[p.val] = some d) :
    exec (.reelStepComplete p) s = .next
      (let t := (s.stepFinish p).2.foldl (fun (s : State) x => s.slotResult x) (s.stepFinish p).1
      (if (s.stepFinish p).2.any fun x => x.2.1 == 4 && !s.seqBad x.1.seq then t.poolFail p else t).stepClosed p) :=
  congrArg Host.Outcome.next (if_neg (by rw [hd]; exact Bool.false_ne_true))

/-- A step ends whose slots are all ready, their requests in no step: its slots are served in order, its tables are written, and
its status shows it done. -/
theorem exec_reelStepComplete_some (hd : s.reel.steps[p.val] = some d) (hb : s.reel.bad = []) (hready : s.slotsReady p d.slots)
    (hidle : ∀ x ∈ d.slots, ∀ r, s.request x.seq = some r → r.inStep = false) :
    ∃ u w t, State.slotsDone u s p d.slots ∧ State.writesOnly d.tableAt w u ∧
      exec (.reelStepComplete p) s = .next t ∧ t.srvOver ((w.setStep p none).showDone p d) := by
  obtain ⟨hdone, hstatus⟩ := runSlots_done (d := d) d.slots hb hready
  have hput := tablesPut_writesOnly (s := (s.runSlots p d d.slots).1) (d := d)
    (table := (s.runSlots p d d.slots).1.lengthTable p d (s.runSlots p d d.slots).2)
  have hfinish := stepFinish_some hd
  generalize (s.runSlots p d d.slots).1.tablesPut d _ = w at hput hfinish
  have hsrv : ((w.setStep p none).showDone p d).srv = s.srv := by
    rw [showDone_regsOver]
    refine hput.srv.trans ?_
    rw [hdone.reels.frame]
  have hfold : ((s.runSlots p d d.slots).2).foldl (fun (s : State) x => s.slotResult x) ((w.setStep p none).showDone p d)
      = (w.setStep p none).showDone p d :=
    foldl_fixed _ fun x hx => slotResult_idle fun r hr => hidle x.1 (hstatus x hx).2 r (by rwa [request_congr hsrv] at hr)
  have hpool : ¬ ((s.runSlots p d d.slots).2.any fun x => x.2.1 == 4 && !s.seqBad x.1.seq) = true := by
    rw [Bool.not_eq_true]
    refine List.any_eq_false.mpr fun x hx => ?_
    have := (hstatus x hx).1
    simp [show x.2.1 ≠ 4 by omega]
  refine ⟨_, w, ((w.setStep p none).showDone p d).stepClosed p, hdone, hput, ?_, stepClosed_srvOver⟩
  rw [exec_reelStepComplete_running hd, hfinish]
  dsimp only
  rw [hfold, if_neg hpool]

theorem State.reels.byte (h : t.reels s) (y : Nat) : t.byte y = s.byte y := by
  rw [h.frame]
  rfl

end

/-! ### What the obligation says of the end -/

/-- The clause of O55 on the end of a step. -/
theorem stepEnd_clause {s : State} {p : PartNum} {d : StepDesc} (hd : s.reel.steps[p.val] = some d) (hb : s.reel.bad = [])
    (hready : s.slotsReady p d.slots) (hidle : ∀ x ∈ d.slots, ∀ r, s.request x.seq = some r → r.inStep = false) :
    ∃ t, exec (.reelStepComplete p) s = .next t
      ∧ t.reel.steps[p.val] = none ∧ t.flag (F.reelPStepStatRunning p) = false ∧ t.flag (F.reelPStepStatDone p) = true
      ∧ t.get (F.reelPStepNumStep p) = d.step.toNat
      ∧ (∀ y, ¬ d.tableAt y → t.byte y = s.byte y)
      ∧ t.framePool p = (s.framePool p).drop (takenBy (s.framePool p).length (d.slots.map s.slotNeeds) d.slots.length)
      ∧ ∀ (k : Nat) x, d.slots[k]? = some x →
        ((metFrom (s.framePool p).length (d.slots.map s.slotNeeds))[k]? = some true →
          t.slotServed s p x (takenBy (s.framePool p).length (d.slots.map s.slotNeeds) k)) ∧
        ((metFrom (s.framePool p).length (d.slots.map s.slotNeeds))[k]? = some false → t.slotParked s x) := by
  obtain ⟨u, w, t, hdone, hput, hexec, hover⟩ := exec_reelStepComplete_some hd hb hready hidle
  obtain ⟨hrun, hshown, hnum⟩ := showDone_shows (s := w.setStep p none) (p := p) (d := d)
  have hshow : ((w.setStep p none).showDone p d).regsOver (w.setStep p none) := showDone_regsOver
  have hreel : t.reel = (w.setStep p none).reel := hover.reel.trans ((congrArg State.reel hshow).trans rfl)
  have hget : ∀ f, t.get f = ((w.setStep p none).showDone p d).get f := fun f => hover.get f
  have hbyte : ∀ y, t.byte y = w.byte y := fun y => (hover.byte y).trans (hshow.counted.byte y)
  have hkept : t.reel = (u.setStep p none).reel := by rw [hreel, State.setStep, State.setStep, hput.reel]
  have hw : ∀ i w, t.seqWord i w = u.seqWord i w := fun i w => by
    rw [State.seqWord, hkept]
    rfl
  have hm : ∀ e, t.mapEntry e = u.mapEntry e := fun e => by
    rw [State.mapEntry, hkept]
    rfl
  have hp : t.framePool p = u.framePool p := by
    rw [State.framePool, hkept]
    rfl
  refine ⟨t, hexec, ?_, ?_, ?_, (hget _).trans hnum, fun y hy => ?_, hp.trans hdone.pool,
    fun k x hx => ⟨fun hmet => ?_, fun hmet => ?_⟩⟩
  · rw [hreel]
    exact steps_setStep
  · rw [State.flag, hget]
    exact hrun
  · rw [State.flag, hget]
    exact hshown
  · rw [hbyte, hput.bytes y hy, hdone.reels.byte]
  · exact slotServed_later (hdone.served k x hx hmet) (hready.ready x (List.mem_of_getElem? hx)).room (hw _ _) fun j _ => hm _
  · exact slotParked_later (hdone.parked k x hx hmet) (hw _ _) fun j _ => hm _

end Sys2Proof.Machine
end

section
/-!
PROOFS. Updates of the sequence table (R178, R179) and what waits for places (R173, R261, R263): what serving leaves alone, and the
updates that waited for a step.
-/

namespace Sys2Proof.Machine

/-- t has s's memory and arrays, and every register word that no error word and no record changes. -/
structure State.serves (t s : State) : Prop where
  mem : t.mem = s.mem
  arrays : t.arrays = s.arrays
  words : t.keepsWords s

section
variable {r s t u : State} {p : PartNum} {i : Nat}

theorem State.serves_refl : s.serves s := ⟨rfl, rfl, State.keepsWords_refl⟩

theorem State.serves.trans (h : t.serves s) (g : s.serves r) : t.serves r :=
  ⟨h.mem.trans g.mem, h.arrays.trans g.arrays, h.words.trans g.words⟩

theorem State.reels.serves (h : t.reels s) : t.serves s := by
  refine ⟨?_, ?_, h.words⟩
  · rw [h.frame]
  · rw [h.frame]

theorem State.reels.srv (h : t.reels s) : t.srv = s.srv := by rw [h.frame]

theorem State.noted.serves (h : t.noted s) : t.serves s := h.reels.serves

theorem State.gives.reels (h : t.gives s) : t.reels s := h.reworks.reels

theorem serves_choice {c : Prop} [Decidable c] (ht : t.serves s) (hu : u.serves s) : State.serves (if c then t else u) s := by
  split
  · exact ht
  · exact hu

/-! ### Updates that are applied or wait (R179) -/

theorem seqFlush_running (h : (s.reel.steps[p.val]).isSome = true) : s.seqFlush p = s := if_pos h

/-- The state whose waiting updates are those of other partitions. -/
def State.forgetUpdates (s : State) (p : PartNum) : State :=
  { s with reel := { s.reel with updates := s.reel.updates.filter fun u => u.1 != p } }

/-- Between steps, every update of the partition is applied. -/
theorem seqFlush_idle (h : s.reel.steps[p.val] = none) :
    s.seqFlush p = (s.reel.updates.filter fun u => u.1 == p).foldl (fun s u => s.seqApply p u.2) (s.forgetUpdates p) :=
  if_neg (by rw [h]; exact Bool.false_ne_true)

theorem seqFlush_reworks (h : s.reel.steps[p.val] = none) : (s.seqFlush p).reworks (s.forgetUpdates p) := by
  rw [seqFlush_idle h]
  exact foldl_reworks fun _ v => seqApply_reworks (Prod.snd v)

theorem forgetUpdates_reels : (s.forgetUpdates p).reels s := ⟨rfl, .of_regs State.keepsWords_refl rfl, List.Subset.refl _, rfl⟩

theorem seqFlush_reels : (s.seqFlush p).reels s := by
  cases h : s.reel.steps[p.val] with
  | none => exact (seqFlush_reworks h).reels.trans forgetUpdates_reels
  | some d =>
    rw [seqFlush_running (by rw [h]; rfl)]
    exact State.reels_refl

theorem seqUpdate_reels {v : SeqUpdate} : (s.seqUpdate p v).reels s := by
  unfold State.seqUpdate
  split
  · exact ⟨rfl, .of_regs State.keepsWords_refl rfl, List.Subset.refl _, rfl⟩
  · exact (seqApply_reworks v).reels.trans seqFlush_reels

/-! ### Records -/

theorem report_noted {ev : Ev} : (s.report ev).noted s :=
  ⟨State.report_based State.based_refl, reportAt_keepsWords _ _⟩

theorem serveEvent_noted {status severity code source : Nat} {ecc : Option Word} :
    (s.serveEvent i status severity code ecc source).noted s := report_noted

/-! ### Requests that end (R243, R268) -/

theorem modReq_serves {f : Request → Request} : (s.modReq i f).serves s :=
  ⟨rfl, rfl, .of_regs State.keepsWords_refl rfl⟩

theorem ledger_serves {e : LedgerEntry} : (s.ledger e).serves s :=
  serves_choice ⟨rfl, rfl, .of_regs State.keepsWords_refl rfl⟩ State.serves_refl

theorem noteRequest_serves : (s.noteRequest i).serves s := ledger_serves

theorem setPhase_serves {ph : ReqPhase} : (s.setPhase i ph).serves s := noteRequest_serves.trans modReq_serves

theorem enterEnding_serves {code source : Nat} {ecc : Option Word} : (s.enterEnding i code ecc source).serves s := by
  unfold State.enterEnding
  split
  · exact State.serves_refl
  · next r _ =>
    extract_lets was q keeps ended updated
    have hended : State.serves ended s := setPhase_serves.trans modReq_serves
    have hupdated : State.serves updated s := by
      unfold updated
      split
      · exact hended
      · exact seqUpdate_reels.serves.trans hended
    refine serves_choice State.serves_refl (serves_choice ?_ (serves_choice ?_ hupdated))
    · exact serveEvent_noted.serves.trans hupdated
    · exact serveEvent_noted.serves.trans hupdated

/-! ### Pools that are rebuilt or tried again (R173, R261, R263) -/

theorem rebuildPools_reworks : (s.rebuildPools p).reworks s := by
  unfold State.rebuildPools
  extract_lets entries used copying base free fbUsed fbn framed slotted full mine
  have hfull : State.reworks full s :=
    (foldl_reworks (g := fun (t : State) (n : ArrayNum) => t.setFb n (free (List.range fbn) (fbUsed n))) fun _ _ => setFb_reworks).trans
      (setSlots_reworks.trans setFrames_reworks)
  exact State.reworks.trans (s := full) ⟨rfl, List.filter_subset_self _, List.filter_subset_self _, rfl, rfl⟩ hfull

theorem poolFail_serves : (s.poolFail p).serves s :=
  poolsGive_gives.reels.serves.trans (rebuildPools_reworks.reels.serves.trans
    (foldl_over (R := State.serves) (fun _ => State.serves_refl) State.serves.trans fun _ _ => enterEnding_serves))

theorem poolCheck_serves {vault tier : Bool} : (s.poolCheck p vault tier).serves s :=
  serves_choice (poolFail_serves.trans (reelScan_noted p _).serves) (reelScan_noted p _).serves

theorem poolsRetry_serves : (s.poolsRetry p).serves s := poolsGive_gives.reels.serves.trans poolCheck_serves

theorem endRequest_serves {code source : Nat} {ecc : Option Word} : (s.endRequest i code ecc source).serves s :=
  poolsRetry_serves.trans enterEnding_serves

theorem flushUpdates_serves : (s.flushUpdates p).serves s :=
  serves_choice State.serves_refl (poolsRetry_serves.trans seqFlush_reels.serves)

/-! ### Where the reel's words are good -/

/-- Reading good pools changes counters and records only. -/
theorem poolCheck_noted (hb : s.reel.bad = []) {vault tier : Bool} : (s.poolCheck p vault tier).noted s := by
  unfold State.poolCheck
  dsimp only
  rw [reelScan_good hb, if_neg Bool.false_ne_true]
  exact reelScan_noted p _

/-- Reading pools without an error word changes nothing. -/
theorem poolCheck_clean (hb : s.reel.bad = []) (hc : s.reel.ce = []) {vault tier : Bool} : s.poolCheck p vault tier = s := by
  unfold State.poolCheck
  dsimp only
  rw [reelScan_clean hb hc, if_neg Bool.false_ne_true]

theorem poolsRetry_gives (hb : s.reel.bad = []) : ∃ u, State.noted u s ∧ (s.poolsRetry p).gives u :=
  ⟨_, poolCheck_noted hb, poolsGive_gives⟩

theorem poolsRetry_gives_clean (hb : s.reel.bad = []) (hc : s.reel.ce = []) : (s.poolsRetry p).gives s := by
  have h : (s.poolsRetry p).gives (s.poolCheck p _ _) := poolsGive_gives
  rwa [poolCheck_clean hb hc] at h

theorem poolsRetry_reels (hb : s.reel.bad = []) : (s.poolsRetry p).reels s := by
  obtain ⟨u, hu, h⟩ := poolsRetry_gives (p := p) hb
  exact h.reels.trans hu.reels

theorem flushUpdates_reels (hb : s.reel.bad = []) : (s.flushUpdates p).reels s := by
  unfold State.flushUpdates
  split
  · exact State.reels_refl
  · exact (poolsRetry_reels (seqFlush_reels.bad_nil hb)).trans seqFlush_reels

/-! ### The updates that waited (R179) -/

theorem State.gives.seqWord (h : t.gives s) (i w : Nat) : t.seqWord i w = s.seqWord i w := by
  rw [h]
  rfl

theorem State.gives.updates (h : t.gives s) : t.reel.updates = s.reel.updates := h.reworks.updates

/-- Where no update of the partition waits, none is applied. -/
theorem flushUpdates_idle (h : (s.reel.updates.any fun u => u.1 == p) = false) : s.flushUpdates p = s := by
  unfold State.flushUpdates
  rw [if_pos (by simp [h])]

/-- Updates that waited are applied, and what waits for places is tried again. -/
theorem flushUpdates_waiting (hstep : s.reel.steps[p.val] = none) (h : (s.reel.updates.any fun u => u.1 == p) = true) :
    s.flushUpdates p = (s.seqFlush p).poolsRetry p := by
  unfold State.flushUpdates
  rw [if_neg (by simp [h, hstep])]

theorem updates_flushUpdates (hstep : s.reel.steps[p.val] = none) (hb : s.reel.bad = []) :
    (s.flushUpdates p).reel.updates = s.reel.updates.filter fun u => u.1 != p := by
  cases h : s.reel.updates.any fun u => u.1 == p with
  | false =>
    rw [flushUpdates_idle h, List.filter_eq_self.mpr fun u hu => ?_]
    simpa using List.any_eq_false.mp h u hu
  | true =>
    obtain ⟨u, hu, hgives⟩ := poolsRetry_gives (p := p) ((seqFlush_reels (p := p)).bad_nil hb)
    rw [flushUpdates_waiting hstep h, hgives.updates, hu.1.reel, (seqFlush_reworks hstep).updates]
    rfl

/-- Where no word of the reel has an error, an update changes the reel alone. -/
theorem flushUpdates_frame (hstep : s.reel.steps[p.val] = none) (hb : s.reel.bad = []) (hc : s.reel.ce = []) :
    s.flushUpdates p = { s with reel := (s.flushUpdates p).reel } := by
  cases h : s.reel.updates.any fun u => u.1 == p with
  | false => rw [flushUpdates_idle h]
  | true =>
    have hflush := seqFlush_reworks hstep
    have hgives := poolsRetry_gives_clean (p := p) (hflush.bad_nil hb) (hflush.ce_nil hc)
    rw [flushUpdates_waiting hstep h]
    exact hgives.reworks.frame.trans (congrArg (fun u : State => { u with reel := ((s.seqFlush p).poolsRetry p).reel }) hflush.frame)

/-- An update of a pause that waited is applied. -/
theorem flushUpdates_pause (hstep : s.reel.steps[p.val] = none) (hb : s.reel.bad = []) (hup : s.reel.updates = [(p, .pause i)]) :
    (s.flushUpdates p).seqState i = 3 ∧ (s.flushUpdates p).seqLen i = s.seqLen i := by
  obtain ⟨u, hu, hgives⟩ := poolsRetry_gives (p := p) ((seqFlush_reels (p := p)).bad_nil hb)
  have hflush : s.seqFlush p = (s.forgetUpdates p).setSeqBits i 0 0 2 3 := by
    rw [seqFlush_idle hstep, hup]
    simp [State.seqApply]
  have hword : (s.flushUpdates p).seqWord i 0 = ((s.forgetUpdates p).setSeqBits i 0 0 2 3).seqWord i 0 := by
    rw [flushUpdates_waiting hstep (by simp [hup]), hgives.seqWord, State.seqWord, hu.1.reel, hflush, State.seqWord]
  constructor
  · rw [State.seqState, hword]
    exact bits_setSeqBits_self (by decide) (by decide)
  · rw [State.seqLen, hword, bits_setSeqBits_apart (by decide) (by decide) (by decide)]
    rfl

end

/-! ### What the obligation says of the updates -/

/-- The clauses of O55 on updates. -/
theorem updateApply_clauses (s : State) (p : PartNum) :
    ((s.reel.steps[p.val]).isSome = true → exec (.sequenceUpdateApply p) s = .next s) ∧
    (s.reel.steps[p.val] = none → ∃ t, exec (.sequenceUpdateApply p) s = .next t ∧ t.mem = s.mem ∧ t.arrays = s.arrays
      ∧ (s.reel.bad = [] → t.reel.updates = s.reel.updates.filter (fun u => u.1 != p)
          ∧ (∀ i, s.reel.updates = [(p, .pause i)] → t.seqState i = 3 ∧ t.seqLen i = s.seqLen i)
          ∧ (s.reel.ce = [] → t = { s with reel := t.reel }))) := by
  have hexec : exec (.sequenceUpdateApply p) s = .next (s.flushUpdates p) := rfl
  rw [hexec]
  refine ⟨fun h => by rw [flushUpdates_running h], fun hstep => ?_⟩
  have hserves : (s.flushUpdates p).serves s := flushUpdates_serves
  exact ⟨_, rfl, hserves.mem, hserves.arrays, fun hb => ⟨updates_flushUpdates hstep hb, fun i => flushUpdates_pause hstep hb,
    flushUpdates_frame hstep hb⟩⟩

end Sys2Proof.Machine
end

section
/-!
PROOFS. Parked requests that expire (R187 to R190): what a partition's tables and sequences show after its pools have been read, the
request that ends, and what the reel counts of it.
-/

namespace Sys2Proof.Machine

section
variable {r s t u : State} {p : PartNum} {i : Nat}

/-! ### What reading the reel's words leaves as it was -/

section
variable (h : t.noted s)
include h

theorem State.noted.seqWord (i w : Nat) : t.seqWord i w = s.seqWord i w := by rw [State.seqWord, h.1.reel, State.seqWord]

theorem State.noted.mapEntry (e : Nat) : t.mapEntry e = s.mapEntry e := by rw [State.mapEntry, h.1.reel, State.mapEntry]

theorem State.noted.framePool (p : PartNum) : t.framePool p = s.framePool p := by rw [State.framePool, h.1.reel, State.framePool]

theorem State.noted.slotPool (p : PartNum) : t.slotPool p = s.slotPool p := by rw [State.slotPool, h.1.reel, State.slotPool]

theorem State.noted.fbPool (n : ArrayNum) : t.fbPool n = s.fbPool n := by rw [State.fbPool, h.1.reel, State.fbPool]

theorem State.noted.request (i : Nat) : t.request i = s.request i := request_congr h.1.srv i

end

/-- The registers of a partition's reel that its tables and steps are found by. -/
theorem reelFields_uncounted (p : PartNum) :
    (F.reelPSeqBaseBase p).uncounted ∧ (F.reelPSeqCountCount p).uncounted ∧ (F.reelPParkTimeoutTicks p).uncounted
      ∧ (F.reelPStepNumStep p).uncounted ∧ (F.reelPExhaustedCount p).uncounted := by
  have hp := p.isLt
  exact ⟨uncounted_reelP (by omega) (by omega), uncounted_reelP (by omega) (by omega), uncounted_reelP (by omega) (by omega),
    uncounted_reelP (by omega) (by omega), uncounted_reelP (by omega) (by omega)⟩

theorem seqRange_congr (h : t.keepsWords s) (p : PartNum) : t.seqRange p = s.seqRange p := by
  obtain ⟨hbase, hcount, -⟩ := reelFields_uncounted p
  rw [State.seqRange, h.get hbase, h.get hcount, State.seqRange]

theorem usable_congr (h : t.keepsWords s) (n : ArrayNum) : t.usable n = s.usable n := by
  have hf : F.mltUnusableUnusable.uncounted := uncounted_window (by decide) (by decide)
  rw [State.usable, State.bit, h.get hf, State.usable, State.bit]

theorem inPart_congr (h : t.parts = s.parts) (p : PartNum) (n : ArrayNum) : t.inPart p n = s.inPart p n := by
  rw [State.inPart, State.part, h, State.inPart, State.part]

/-- The ring of a partition's arrays, and so each fallback page's home (R205). -/
theorem homeOf_congr (hp : t.parts = s.parts) (hw : t.keepsWords s) (p : PartNum) (page : Nat) : t.homeOf p page = s.homeOf p page := by
  have hpart : t.part p = s.part p := by rw [State.part, hp, State.part]
  have hring : t.chain p = s.chain p := by
    unfold State.chain
    simp only [hpart, inPart_congr hp, usable_congr hw]
  rw [State.homeOf, hring, State.homeOf]

section
variable (h : t.noted s)
include h

theorem State.noted.seqState (i : Nat) : t.seqState i = s.seqState i := seqState_congr (h.seqWord i 0)

theorem State.noted.seqLen (i : Nat) : t.seqLen i = s.seqLen i := seqLen_congr (h.seqWord i 0)

theorem State.noted.seqMap (i : Nat) : t.seqMap i = s.seqMap i := seqMap_congr (h.seqWord i 1)

theorem State.noted.seqFallback (i : Nat) : t.seqFallback i = s.seqFallback i := seqFallback_congr (h.seqWord i 0)

theorem State.noted.seqInTier (i : Nat) : t.seqInTier i = s.seqInTier i := seqInTier_congr (h.seqWord i 0)

theorem State.noted.seqsIn (p : PartNum) (st : Nat) : t.seqsIn p st = s.seqsIn p st := by
  unfold State.seqsIn
  simp only [seqRange_congr h.2, h.seqState]

theorem State.noted.expiredParked (p : PartNum) : t.expiredParked p = s.expiredParked p := by
  obtain ⟨-, -, hpark, -⟩ := reelFields_uncounted p
  unfold State.expiredParked
  simp only [h.seqsIn, h.2.get hpark, h.1.time, h.seqWord, h.request]

theorem State.noted.framesNeeded (i : Nat) : t.framesNeeded i = s.framesNeeded i := by
  unfold State.framesNeeded
  simp only [h.request, h.seqLen]

theorem State.noted.short (p : PartNum) (i : Nat) : t.short p i = s.short p i := by
  unfold State.short
  simp only [h.framesNeeded, h.seqFallback, h.seqLen, h.framePool, h.fbPool, homeOf_congr h.1.parts h.2]

theorem State.noted.framesComing (p : PartNum) : t.framesComing p = s.framesComing p := by
  unfold State.framesComing State.vaultPages
  simp only [h.1.reel, h.seqLen, h.seqMap, h.mapEntry]

theorem State.noted.evictable (p : PartNum) (x : Nat) : t.evictable p x = s.evictable p x := by
  obtain ⟨-, -, -, hnum, -⟩ := reelFields_uncounted p
  unfold State.evictable State.copying State.updateWaits
  simp only [h.2.get hnum, h.seqWord, h.seqsIn, h.seqInTier, h.1.reel, h.seqFallback, h.seqLen, h.slotPool]

end

/-! ### Nothing to evict (R187) -/

theorem evictFor_enough {need x : Nat} (h : need ≤ (s.framePool p).length + s.framesComing p) (k : Nat) :
    s.evictFor p need x k = s := by
  cases k with
  | zero => rfl
  | succ k => exact if_pos h

theorem evictFor_none {need x : Nat} (h : s.evictable p x = none) (k : Nat) : s.evictFor p need x k = s := by
  cases k with
  | zero => rfl
  | succ k =>
    rw [State.evictFor, h]
    exact ite_self _

/-! ### A request that ends (R243, R268) -/

theorem conv_modConv {f : Convo → Convo} {j : Nat} : (s.modConv i f).conv j = if j = i then f (s.conv i) else s.conv j := look_put

theorem request_modReq {f : Request → Request} {q : Request} (hq : s.request i = some q) (hf : (f q).phase ≠ .ended) :
    (s.modReq i f).request i = some (f q) := by
  have hconv : (s.conv i).request = some q := by
    unfold State.request at hq
    split at hq
    · next v hv =>
      split at hq
      · cases hq
      · exact hv.trans hq
    · cases hq
  rw [State.request, State.modReq, conv_modConv, if_pos rfl]
  simp [hconv, hf]

theorem noteRequest_twn : s.noteRequest i = { s with twn := (s.noteRequest i).twn } := by
  unfold State.noteRequest State.ledger
  dsimp only
  split <;> rfl

theorem request_setPhase {ph : ReqPhase} {q : Request} (hq : s.request i = some q) (hph : ph ≠ .ended) :
    (s.setPhase i ph).request i = some { q with phase := ph } := by
  rw [State.setPhase, request_congr (s := s.modReq i _) (by rw [noteRequest_twn]), request_modReq hq hph]

theorem reel_setPhase {ph : ReqPhase} : (s.setPhase i ph).reel = s.reel := by
  rw [State.setPhase, noteRequest_twn]
  rfl

/-- The state in which a request is Ending, its pages not yet on their way. -/
def State.toEnding (s : State) (i code : Nat) : State :=
  (s.modReq i fun r => { r with inStep := false, sampled := false }).setPhase i (.ending code)

theorem request_ending {code : Nat} {q : Request} (hq : s.request i = some q) :
    ((s.toEnding i code).request i).map (·.phase) = some (.ending code) := by
  have hph : q.phase ≠ .ended := fun e => by
    unfold State.request at hq
    split at hq
    · split at hq
      · cases hq
      · next hne => cases hq; exact hne e
    · cases hq
  rw [State.toEnding, request_setPhase (ph := .ending code) (request_modReq hq hph) nofun]
  rfl

/-- What else the start of an end does is the reel's work and a record. -/
theorem enterEnding_reels {code source : Nat} {ecc : Option Word} {q : Request} (hq : s.request i = some q)
    (hph : ∀ c, q.phase ≠ .ending c) : (s.enterEnding i code ecc source).reels (s.toEnding i code) := by
  unfold State.enterEnding
  split
  · next hnone => rw [hq] at hnone; cases hnone
  · next v hv =>
    obtain rfl : q = v := Option.some.inj (hq.symm.trans hv)
    extract_lets was p keeps ended updated
    have hwas : was = none := by
      unfold was
      split
      · next c hc => exact absurd hc (hph c)
      · rfl
    have hupdated : State.reels updated (s.toEnding i code) := by
      unfold updated
      split
      · exact State.reels_refl
      · exact seqUpdate_reels
    rw [if_neg (by simp [hwas])]
    split
    · exact serveEvent_noted.reels.trans hupdated
    · split
      · exact serveEvent_noted.reels.trans hupdated
      · exact hupdated

/-- A request that was not ending is Ending with the code given. -/
theorem request_endRequest {code source : Nat} {ecc : Option Word} {q : Request} (hb : s.reel.bad = []) (hq : s.request i = some q)
    (hph : ∀ c, q.phase ≠ .ending c) :
    ((s.endRequest i code ecc source).request i).map (·.phase) = some (.ending code) := by
  have henter : (s.enterEnding i code ecc source).reels (s.toEnding i code) := enterEnding_reels hq hph
  have hend : (s.toEnding i code).reel.bad = [] := by
    rw [State.toEnding, reel_setPhase]
    exact hb
  have hretry := poolsRetry_reels (p := (s.conv i).part) (henter.bad_nil hend)
  rw [State.endRequest, request_congr (hretry.trans henter).srv]
  exact request_ending hq

/-- An expired parked sequence's request is parked. -/
theorem parked_of_expired {q : Request} (hi : i ∈ s.expiredParked p) (hq : s.request i = some q) : ∃ b, q.phase = .parked b := by
  have hphase := ((Bool.and_eq_true ..).mp (List.mem_filter.mp hi).2).2
  split at hphase
  · next b hb =>
    rw [hq] at hb
    exact ⟨b, Option.some.inj hb⟩
  · cases hphase

/-! ### The row -/

theorem exec_parkExpiry_held (h : s.deadlinesHeld = true ∨ s.startsCommands = false) : exec (.parkExpiry p) s = .next s :=
  congrArg Host.Outcome.next (if_pos (by rcases h with h | h <;> simp [h]))

/-- The row where one sequence has expired. -/
theorem exec_parkExpiry_one (hheld : s.deadlinesHeld = false) (hstart : s.startsCommands = true) (hone : s.expiredParked p = [i])
    (hb : s.reel.bad = []) (hshort : s.short p i = true) (hcoming : s.framesComing p = 0)
    (hnone : s.seqFallback i = true ∨ s.evictable p 0x10000 = none) :
    ∃ u, State.noted u s ∧ exec (.parkExpiry p) s
      = .next (if s.flag F.twnStatusGap = true then u else (u.endRequest i 5).bump (F.reelPExhaustedCount p)) := by
  have hu : (s.poolCheck p true true).noted s := poolCheck_noted hb
  refine ⟨_, hu, congrArg Host.Outcome.next ?_⟩
  rw [if_neg (by simp [hheld, hstart]), if_neg (by simp [hone])]
  dsimp only
  generalize s.poolCheck p true true = u at hu
  have hparked : u.expiredParked p = [i] := (hu.expiredParked p).trans hone
  have hgap : u.flag F.twnStatusGap = s.flag F.twnStatusGap := hu.2.flag (uncounted_window (by decide) (by decide))
  have hevict : u.evictFor p (((u.expiredParked p).filter fun i => !u.seqFallback i).map fun i => u.framesNeeded i).sum
      0x10000 16384 = u := by
    rcases hnone with hfb | hnone
    · refine evictFor_enough ?_ _
      simp [hparked, hu.seqFallback, hfb]
    · exact evictFor_none ((hu.evictable p _).trans hnone) _
  rw [hevict, hparked, hu.framesComing, hcoming, hgap]
  cases hg : s.flag F.twnStatusGap with
  | true => simp
  | false => simp [(hu.short p i).trans hshort, minBy]

end

/-! ### What the obligation says of expiry -/

/-- The clause of O55 on an expired parked request whose own need is short. -/
theorem parkExpiry_clause {s : State} {p : PartNum} {i : Nat} {r : Request} (hheld : s.deadlinesHeld = false)
    (hstart : s.startsCommands = true) (hone : s.expiredParked p = [i]) (hb : s.reel.bad = []) (hr : s.request i = some r)
    (hshort : s.short p i = true) (hcoming : s.framesComing p = 0) (hnone : s.seqFallback i = true ∨ s.evictable p 0x10000 = none) :
    ∃ t, exec (.parkExpiry p) s = .next t ∧ t.mem = s.mem
      ∧ (s.flag F.twnStatusGap = true → t.srv = s.srv)
      ∧ (s.flag F.twnStatusGap = false → (t.request i).map (·.phase) = some (.ending 5)
          ∧ t.get (F.reelPExhaustedCount p) = min (s.get (F.reelPExhaustedCount p) + 1) 0xFFFFFFFF) := by
  obtain ⟨u, hu, hexec⟩ := exec_parkExpiry_one hheld hstart hone hb hshort hcoming hnone
  obtain ⟨b, hphase⟩ := parked_of_expired (by rw [hone]; exact List.mem_singleton_self i) hr
  cases hgap : s.flag F.twnStatusGap with
  | true =>
    rw [hgap, if_pos rfl] at hexec
    exact ⟨u, hexec, hu.1.mem, fun _ => hu.1.srv, nofun⟩
  | false =>
    rw [hgap, if_neg Bool.false_ne_true] at hexec
    have hserves : (u.endRequest i 5).serves s := endRequest_serves.trans hu.serves
    have hover : ((u.endRequest i 5).bump (F.reelPExhaustedCount p)).regsOver (u.endRequest i 5) := addTo_regsOver
    obtain ⟨-, -, -, -, hcount⟩ := reelFields_uncounted p
    refine ⟨_, hexec, ?_, nofun, fun _ => ⟨?_, ?_⟩⟩
    · rw [hover]
      exact hserves.mem
    · rw [request_congr (by rw [hover])]
      exact request_endRequest (hu.reels.bad_nil hb) ((hu.request i).trans hr) fun c => by rw [hphase]; nofun
    · rw [State.bump, State.addTo, get_set_self rfl, hserves.words.get hcount]
      exact Nat.mod_eq_of_lt (Nat.lt_of_le_of_lt (Nat.min_le_right _ _) (Nat.sub_lt (Nat.two_pow_pos _) Nat.one_pos))

end Sys2Proof.Machine
end

section
/-!
PROOFS. Bytes that the reel copies (R37, R155, R188, R263): good memory stays good as it is written, and a copy between places that
the reel may touch moves its bytes and no other.
-/

namespace Sys2Proof.Machine

/-- A written tier line whose check word belongs to another address (R151). -/
def lineMisplaced (e : Nat × Option TierLine) : Bool :=
  inTier (lineBase e.1) && match e.2 with
    | some x => checkWritten x.check && addrCheck x.check != (Config.addrHash e.1).toNat
    | none => false

/-- Bytes after a move of a range: source, destination, count. -/
def moveBytes (b : Nat → Byte) (m : Nat × Nat × Nat) : Nat → Byte :=
  fun x => if m.2.1 ≤ x ∧ x < m.2.1 + m.2.2 then b (m.1 + (x - m.2.1)) else b x

/-- t is s but for memory and what shows that it was read and written, free values, and the reel. -/
structure State.pagesOver (t s : State) : Prop where
  frame : t = { s with
    regs := t.regs, events := t.events, board := t.board, linkErr := t.linkErr, free := t.free, mem := t.mem, tline := t.tline
    ue := t.ue, ce := t.ce, reel := t.reel }
  words : t.keepsWords s

section
variable {r s t : State} {p : PartNum} {a k : Nat}

/-! ### Stores in good memory (R92, R144, R151) -/

/-- Memory is good when it lists no uncorrectable word and no misplaced line. -/
theorem clean_iff : s.clean ↔ s.ue = [] ∧ s.tline.all (fun e => !lineMisplaced e) = true := by
  constructor
  · refine fun hc => ⟨ue_of_clean hc, List.all_eq_true.mpr fun e he => ?_⟩
    have hnone : s.misplaced (lineBase e.1) 1 = [] := (List.append_eq_nil_iff.mp (badWords_of_clean hc (lineBase e.1) 1)).2
    have hnot := List.filter_eq_nil_iff.mp (List.map_eq_nil_iff.mp hnone) e he
    obtain ⟨l, _ | x⟩ := e
    · simp [lineMisplaced]
    · have hown : inTier (lineBase l) = true → checkWritten x.check = true → addrCheck x.check = (Config.addrHash l).toNat := by
        simpa using hnot
      by_contra hbad
      simp only [lineMisplaced, Bool.not_eq_true', Bool.not_eq_false, Bool.and_eq_true, bne_iff_ne] at hbad
      exact hbad.2.2 (hown hbad.1 hbad.2.1)
  · rintro ⟨hue, hall⟩ a k
    have hnone : s.misplaced a k = [] := by
      refine List.map_eq_nil_iff.mpr (List.filter_eq_nil_iff.mpr fun e he => ?_)
      have hgood := List.all_eq_true.mp hall e he
      obtain ⟨l, _ | x⟩ := e
      · simp
      · simp only [lineMisplaced, Bool.not_eq_true', Bool.and_eq_false_iff] at hgood
        rcases hgood with h | h | h <;> simp [h]
    rw [State.badIn, State.badWords, hue, hnone]
    rfl

/-- The check word of a line just written belongs to it. -/
theorem addrCheck_checkWord (l : Nat) (stored : List Byte) : addrCheck (checkWord l stored) = (Config.addrHash l).toNat := by
  have h0 := (Config.secded (stored.take 32) true).isLt
  have h1 := (Config.secded (stored.drop 32) true).isLt
  have h2 := (Config.addrHash l).isLt
  unfold addrCheck checkWord bitsAt
  rw [BitVec.toNat_ofNat]
  omega

theorem sealLine_placed {l : Nat} (h : s.tline.all (fun e => !lineMisplaced e) = true) :
    (s.sealLine l).tline.all (fun e => !lineMisplaced e) = true := by
  unfold State.sealLine SMap.put
  dsimp only
  rw [if_neg nofun]
  refine all_insert ?_ (List.all_eq_true.mpr fun e he => List.all_eq_true.mp h e (List.mem_filter.mp he).1)
  simp [lineMisplaced, addrCheck_checkWord]

theorem sealLines_placed (ls : List Nat) : ∀ {s : State}, s.tline.all (fun e => !lineMisplaced e) = true →
    (s.sealLines ls).tline.all (fun e => !lineMisplaced e) = true := by
  induction ls with
  | nil => exact fun h => h
  | cons l ls ih => exact fun h => ih (sealLine_placed h)

/-- A store in good memory leaves it good. -/
theorem store_clean (hc : s.clean) (bs : List Byte) : (s.store a bs).clean := by
  obtain ⟨hue, hall⟩ := clean_iff.mp hc
  refine clean_iff.mpr ⟨?_, sealLines_placed _ ?_⟩
  · simp [State.store, State.putBytes, hue]
  · simpa [State.putBytes] using hall

/-! ### Moves -/

theorem moveBytes_inside {b : Nat → Byte} {m : Nat × Nat × Nat} {j : Nat} (hj : j < m.2.2) :
    moveBytes b m (m.2.1 + j) = b (m.1 + j) := by
  rw [moveBytes, if_pos (by omega), Nat.add_sub_cancel_left]

/-- No byte outside the destinations changes. -/
theorem foldl_moveBytes_outside (l : List (Nat × Nat × Nat)) {x : Nat} : ∀ {b : Nat → Byte},
    (∀ m ∈ l, ¬ (m.2.1 ≤ x ∧ x < m.2.1 + m.2.2)) → l.foldl moveBytes b x = b x := by
  induction l with
  | nil => exact fun _ => rfl
  | cons m l ih =>
    intro b h
    rw [List.foldl_cons, ih fun o ho => h o (List.mem_cons_of_mem m ho), moveBytes, if_neg (h m (List.mem_cons_self ..))]

/-- Where no source meets a destination, and no destination another, every range arrives as it was. -/
theorem foldl_moveBytes_inside (l : List (Nat × Nat × Nat)) {m : Nat × Nat × Nat} {j : Nat} : ∀ {b : Nat → Byte},
    (∀ m ∈ l, ∀ o ∈ l, m.1 + m.2.2 ≤ o.2.1 ∨ o.2.1 + o.2.2 ≤ m.1) →
    (l.Pairwise fun m o => m.2.1 + m.2.2 ≤ o.2.1 ∨ o.2.1 + o.2.2 ≤ m.2.1) → m ∈ l → j < m.2.2 →
    l.foldl moveBytes b (m.2.1 + j) = b (m.1 + j) := by
  induction l with
  | nil => nofun
  | cons o l ih =>
    intro b hsrc hdst hm hj
    obtain ⟨ho, hl⟩ := List.pairwise_cons.mp hdst
    rw [List.foldl_cons]
    rcases List.mem_cons.mp hm with rfl | hml
    · rw [foldl_moveBytes_outside l fun x hx => by have := ho x hx; omega, moveBytes_inside hj]
    · rw [ih (fun x hx y hy => hsrc x (List.mem_cons_of_mem o hx) y (List.mem_cons_of_mem o hy)) hl hml hj]
      have := hsrc m hm o (List.mem_cons_self ..)
      rw [moveBytes, if_neg (by omega)]

/-! ### What the reel may touch -/

theorem State.pagesOver_refl : s.pagesOver s := ⟨rfl, State.keepsWords_refl⟩

theorem State.pagesOver.trans (h : t.pagesOver s) (g : s.pagesOver r) : t.pagesOver r :=
  ⟨h.frame.trans (congrArg (fun u : State => { u with
    regs := t.regs, events := t.events, board := t.board, linkErr := t.linkErr, free := t.free, mem := t.mem, tline := t.tline
    ue := t.ue, ce := t.ce, reel := t.reel }) g.frame), h.words.trans g.words⟩

theorem State.readOver.pagesOver (h : t.readOver s) (hw : t.keepsWords s) : t.pagesOver s := by
  refine ⟨?_, hw⟩
  obtain ⟨hover, harr⟩ := h
  cases s; cases t
  simp_all [State.stagerOver]

theorem State.reels.pagesOver (h : t.reels s) : t.pagesOver s := by
  refine ⟨?_, h.words⟩
  rw [h.frame]

theorem store_pagesOver {bs : List Byte} : (s.store a bs).pagesOver s := by
  refine ⟨?_, .of_regs State.keepsWords_refl (State.store_regs ..)⟩
  rw [store_storedOver (s := s)]

theorem State.pagesOver.parts (h : t.pagesOver s) : t.parts = s.parts := by rw [h.frame]

theorem State.pagesOver.srv (h : t.pagesOver s) : t.srv = s.srv := by rw [h.frame]

theorem tagAt_congr (h : t.pagesOver s) (x : Nat) : t.tagAt x = s.tagAt x := by
  have hv : ∀ n g, t.vtag n g = s.vtag n g := fun n g => by
    rw [h.frame]
    rfl
  have ht : ∀ g, t.ttag g = s.ttag g := fun g => by
    rw [h.frame]
    rfl
  unfold State.tagAt
  simp only [hv, ht, usable_congr h.words]

theorem tagAllows_congr (h : t.pagesOver s) (p : PartNum) (x : Byte) : t.tagAllows p x = s.tagAllows p x := by
  have hsealed : t.isSealed p = s.isSealed p := by
    have hf : F.cocSealSealed.uncounted := uncounted_window (by decide) (by decide)
    rw [State.isSealed, State.bit, h.words.get hf, State.isSealed, State.bit]
  rw [State.tagAllows, hsealed, State.tagAllows]

/-- Copies open and close no place to the reel. -/
theorem reelCause_congr (h : t.pagesOver s) (p : PartNum) (spindle : Bool) (a k : Nat) :
    t.reelCause p spindle a k = s.reelCause p spindle a k := by
  unfold State.reelCause
  simp only [usable_congr h.words, tagAt_congr h, tagAllows_congr h, inPart_congr h.parts]

/-! ### One copy -/

theorem readThrough_pagesOver (hc : s.clean) : (s.readThrough a k).1.pagesOver s ∧ (s.readThrough a k).1.reel = s.reel := by
  have hcor : (s.correct a k 5).noted s := ⟨correct_based, correct_keepsWords a k 5⟩
  have hbad : (s.correct a k 5).badWords a k = [] := badWords_of_clean (hcor.1.readOver.1.clean hc) a k
  have hover : (s.readThrough a k).1.pagesOver (s.correct a k 5) := by
    unfold State.readThrough
    dsimp only
    rw [hbad, List.foldl_nil]
    exact (countRead_counted.readOver.pagesOver (countRead_keepsWords a k)).trans ⟨rfl, .of_regs State.keepsWords_refl rfl⟩
  refine ⟨hover.trans hcor.reels.pagesOver, Eq.trans ?_ hcor.1.reel⟩
  unfold State.readThrough
  dsimp only
  rw [hbad, List.foldl_nil, countRead_counted]

/-- What a write in good memory comes to. -/
theorem write_pagesOver (hc : s.clean) (bs : List Byte) :
    (s.write a bs).pagesOver s ∧ (s.write a bs).reel = s.reel ∧ (s.write a bs).clean
      ∧ ∀ y, (s.write a bs).byte y = if a ≤ y ∧ y < a + bs.length then bs.getD (y - a) 0 else s.byte y := by
  have hcount : (((s.mergeReads a bs.length 4).countMerge a bs.length).countWrite a bs.length).readOver s :=
    countWrite_counted.readOver.trans (countMerge_counted.readOver.trans mergeReads_based.readOver)
  have hwords : (((s.mergeReads a bs.length 4).countMerge a bs.length).countWrite a bs.length).keepsWords s :=
    (countWrite_keepsWords _ _).trans ((countMerge_keepsWords _ _).trans (mergeReads_keepsWords _ _ _))
  have hclean := hcount.1.clean hc
  refine ⟨store_pagesOver.trans (hcount.pagesOver hwords), (State.store_reel ..).trans ((congrArg State.reel hcount.1).trans rfl),
    store_clean hclean bs, fun y => ?_⟩
  rw [State.write, byte_store, hcount.1.byte]
  simp [storable_of_clean hclean]

/-- A copy between places that the reel may touch, in good memory, moves its bytes. -/
theorem copyBytes_moves {src dst : Nat} (hc : s.clean) (hsrc : s.reelCause p false src k = none)
    (hdst : s.reelCause p false dst k = none) :
    (s.copyBytes p src dst k).pagesOver s ∧ (s.copyBytes p src dst k).reel = s.reel ∧ (s.copyBytes p src dst k).clean
      ∧ (s.copyBytes p src dst k).byte = moveBytes s.byte (src, dst, k) := by
  obtain ⟨hread, hreel⟩ := readThrough_pagesOver (a := src) (k := k) hc
  obtain ⟨hloaded, hbytes⟩ := readThrough_good hc src k
  obtain ⟨hover, hreel', hclean, hbyte⟩ := write_pagesOver (a := dst) hloaded.clean (s.readThrough src k).2
  have hcopy : s.copyBytes p src dst k = (s.readThrough src k).1.write dst (s.readThrough src k).2 := by
    unfold State.copyBytes
    rw [hsrc]
    dsimp only
    rw [reelCause_congr hread, hdst]
  rw [hcopy]
  refine ⟨hover.trans hread, hreel'.trans hreel, hclean, funext fun y => ?_⟩
  rw [hbyte, hbytes, moveBytes, hloaded.byte]
  simp only [State.load, List.length_map, List.length_range, List.foldl_nil]
  split
  · next h => simp [List.getD_eq_getElem?_getD, List.getElem?_range (show y - dst < k by omega)]
  · rfl

/-- Copies in turn move their bytes in turn. -/
theorem copies_move (l : List (Nat × Nat × Nat)) : ∀ {s : State}, s.clean →
    (∀ m ∈ l, s.reelCause p false m.1 m.2.2 = none ∧ s.reelCause p false m.2.1 m.2.2 = none) →
    let t := l.foldl (fun (s : State) m => s.copyBytes p m.1 m.2.1 m.2.2) s
    t.pagesOver s ∧ t.reel = s.reel ∧ t.clean ∧ t.byte = l.foldl moveBytes s.byte := by
  induction l with
  | nil => exact fun hc _ => ⟨State.pagesOver_refl, rfl, hc, rfl⟩
  | cons m l ih =>
    intro s hc h
    obtain ⟨hm, hl⟩ := List.forall_mem_cons.mp h
    obtain ⟨hover, hreel, hclean, hbyte⟩ := copyBytes_moves hc hm.1 hm.2
    obtain ⟨hover', hreel', hclean', hbyte'⟩ := ih hclean fun o ho => by
      rw [reelCause_congr hover, reelCause_congr hover]
      exact hl o ho
    refine ⟨hover'.trans hover, hreel'.trans hreel, hclean', hbyte'.trans ?_⟩
    rw [hbyte, List.foldl_cons]

end

end Sys2Proof.Machine
end

section
/-!
PROOFS. Page copies (R188, R263): a page's bytes, its map entry and its old place as it moves between the vault and the tier, and a
sequence's pages one after the other.
-/

namespace Sys2Proof.Machine

/-- The parts of one page's copy, each with its source, its destination and its bytes: to the slot `place` from the frame `here`, or
to the frame `place` from the slot `here`. -/
def State.pageParts (s : State) (p : PartNum) (toTier : Bool) (place here : Nat) : List (Nat × Nat × Nat) :=
  if toTier = true then s.copyParts p here place else (s.copyParts p place here).map fun m => (m.2.1, m.1, m.2.2)

/-- The pool that a copy's old places return to. -/
def State.oldPool (s : State) (p : PartNum) (toTier : Bool) : List Nat := if toTier = true then s.framePool p else s.slotPool p

/-- The state in which an old place has returned. -/
def State.giveBack (s : State) (p : PartNum) (toTier : Bool) (place : Nat) : State :=
  if toTier = true then s.setFrames p (place :: s.framePool p) else s.setSlots p (place :: s.slotPool p)

/-- Where page k of sequence i lies. -/
def State.placeOf (s : State) (i k : Nat) : Nat := entryFrame (s.mapEntry (s.seqMap i + k))

/-- The where of a page that has moved (R174). -/
def movedTo (toTier : Bool) : Nat := if toTier = true then 2 else 1

/-- One page moves to a place. -/
def State.movePage (s : State) (p : PartNum) (i : Nat) (toTier : Bool) (x : Nat × Nat) : State :=
  (((s.pageParts p toTier x.1 (s.placeOf i x.2)).foldl (fun (s : State) m => s.copyBytes p m.1 m.2.1 m.2.2) s).setMapEntry
    (s.seqMap i + x.2) (entryOf x.1 (movedTo toTier))).giveBack p toTier (s.placeOf i x.2)

/-- The parts of all pages of a list, each a place and a page. -/
def State.allParts (s : State) (p : PartNum) (i : Nat) (toTier : Bool) (l : List (Nat × Nat)) : List (Nat × Nat × Nat) :=
  (l.map fun x => s.pageParts p toTier x.1 (s.placeOf i x.2)).flatten

/-- What the moves of a list of pages come to. -/
structure State.pagesMoved (t s : State) (p : PartNum) (i : Nat) (toTier : Bool) (l : List (Nat × Nat)) : Prop where
  frame : t.pagesOver s
  clean : t.clean
  bytes : t.byte = (s.allParts p i toTier l).foldl moveBytes s.byte
  words : ∀ j w, t.seqWord j w = s.seqWord j w
  pool : t.oldPool p toTier = (l.map fun x => s.placeOf i x.2).reverse ++ s.oldPool p toTier
  given : ∀ x ∈ l, t.mapEntry (s.seqMap i + x.2) = entryOf x.1 (movedTo toTier)
  kept : ∀ e, (∀ x ∈ l, e ≠ s.seqMap i + x.2) → t.mapEntry e = s.mapEntry e
  copies : t.reel.copies = s.reel.copies

section
variable {r s t u : State} {p : PartNum} {i : Nat} {toTier : Bool} {l : List (Nat × Nat)}

/-! ### Where pages lie (R167, R188, R210) -/

theorem copyParts_congr (h : t.pagesOver s) (p : PartNum) (frame slot : Nat) : t.copyParts p frame slot = s.copyParts p frame slot := by
  have hp := p.isLt
  have htier : (F.reelPTierBaseBase p).uncounted := uncounted_reelP (by omega) (by omega)
  have hslot : (F.reelPSlotBytesBytes p).uncounted := uncounted_reelP (by omega) (by omega)
  have hframe : (F.reelPFrameBaseBase p).uncounted := uncounted_reelP (by omega) (by omega)
  have hbytes : ∀ n : ArrayNum, (F.attFrameBytesFrameBytes n).uncounted := fun n => uncounted_array (by decide) (by decide)
  have hkv : ∀ n : ArrayNum, (F.attKvBaseKvBase n).uncounted := fun n => uncounted_array (by decide) (by decide)
  have harrays : t.arraysOf p = s.arraysOf p := by
    unfold State.arraysOf
    simp only [inPart_congr h.parts, usable_congr h.words]
  unfold State.copyParts State.framePart
  simp only [harrays, h.words.get htier, h.words.get hslot, h.words.get hframe, h.words.get (hbytes _), h.words.get (hkv _)]

theorem pageParts_congr (h : t.pagesOver s) (p : PartNum) (toTier : Bool) (place here : Nat) :
    t.pageParts p toTier place here = s.pageParts p toTier place here := by
  unfold State.pageParts
  rw [copyParts_congr h, copyParts_congr h]

/-! ### One page -/

theorem giveBack_reworks {place : Nat} : (s.giveBack p toTier place).reworks s := reworks_choice setFrames_reworks setSlots_reworks

theorem giveBack_shows {place : Nat} :
    (s.giveBack p toTier place).oldPool p toTier = place :: s.oldPool p toTier ∧
      (∀ j w, (s.giveBack p toTier place).seqWord j w = s.seqWord j w) ∧
      (∀ e, (s.giveBack p toTier place).mapEntry e = s.mapEntry e) ∧ (s.giveBack p toTier place).reel.copies = s.reel.copies := by
  cases toTier
  · exact ⟨slotPool_setSlots, fun _ _ => rfl, fun _ => rfl, rfl⟩
  · exact ⟨framePool_setFrames, fun _ _ => rfl, fun _ => rfl, rfl⟩

theorem oldPool_setMapEntry {e : Nat} {x : Word} : (s.setMapEntry e x).oldPool p toTier = s.oldPool p toTier := rfl

theorem copies_setMapEntry {e : Nat} {x : Word} : (s.setMapEntry e x).reel.copies = s.reel.copies := rfl

theorem placeOf_congr (hw : t.seqWord i 1 = s.seqWord i 1) {k : Nat} (hm : t.mapEntry (s.seqMap i + k) = s.mapEntry (s.seqMap i + k)) :
    t.placeOf i k = s.placeOf i k := by
  rw [State.placeOf, seqMap_congr hw, hm, State.placeOf]

theorem State.reworks.clean (h : t.reworks s) (hc : s.clean) : t.clean := by
  rw [h.frame]
  exact hc

theorem State.reworks.byte (h : t.reworks s) : t.byte = s.byte := by
  rw [h.frame]
  rfl

/-- A page's move: its bytes, its entry and its old place. -/
theorem movePage_moved (x : Nat × Nat) (hc : s.clean)
    (h : ∀ m ∈ s.pageParts p toTier x.1 (s.placeOf i x.2),
      s.reelCause p false m.1 m.2.2 = none ∧ s.reelCause p false m.2.1 m.2.2 = none) :
    (s.movePage p i toTier x).pagesMoved s p i toTier [x] := by
  obtain ⟨hover, hreel, hclean, hbytes⟩ := copies_move _ hc h
  unfold State.movePage
  generalize (s.pageParts p toTier x.1 (s.placeOf i x.2)).foldl (fun (s : State) m => s.copyBytes p m.1 m.2.1 m.2.2) s = u at *
  have hw : ∀ j w, u.seqWord j w = s.seqWord j w := fun j w => by rw [State.seqWord, hreel, State.seqWord]
  have hm : ∀ e, u.mapEntry e = s.mapEntry e := fun e => by rw [State.mapEntry, hreel, State.mapEntry]
  have hp : u.oldPool p toTier = s.oldPool p toTier := by
    rw [State.oldPool, State.framePool, State.slotPool, hreel]
    rfl
  obtain ⟨hpool, hwords, hmap, hcopies⟩ := giveBack_shows (p := p) (toTier := toTier)
    (s := u.setMapEntry (s.seqMap i + x.2) (entryOf x.1 (movedTo toTier))) (place := s.placeOf i x.2)
  have hre : ((u.setMapEntry (s.seqMap i + x.2) (entryOf x.1 (movedTo toTier))).giveBack p toTier (s.placeOf i x.2)).reworks u :=
    giveBack_reworks.trans setMapEntry_reworks
  refine ⟨hre.reels.pagesOver.trans hover, hre.clean hclean, ?_, fun j w => ?_, ?_, ?_, fun e he => ?_, ?_⟩
  · rw [hre.byte, hbytes]
    simp [State.allParts]
  · rw [hwords, seqWord_setMapEntry, hw]
  · rw [hpool, oldPool_setMapEntry, hp]
    simp
  · intro y hy
    obtain rfl := List.mem_singleton.mp hy
    rw [hmap, mapEntry_setMapEntry, if_pos rfl]
  · rw [hmap, mapEntry_setMapEntry, if_neg (he x (List.mem_singleton_self x)), hm]
  · rw [hcopies, copies_setMapEntry, hreel]

/-! ### Pages in turn -/

theorem allParts_cons {x : Nat × Nat} :
    s.allParts p i toTier (x :: l) = s.pageParts p toTier x.1 (s.placeOf i x.2) ++ s.allParts p i toTier l := by
  rw [State.allParts, List.map_cons, List.flatten_cons, State.allParts]

/-- The pages that follow a moved one lie where they lay. -/
theorem placeOf_moved {x : Nat × Nat} (hu : u.pagesMoved s p i toTier [x]) (hx : x.2 ∉ l.map (·.2)) {y : Nat × Nat} (hy : y ∈ l) :
    u.placeOf i y.2 = s.placeOf i y.2 := by
  refine placeOf_congr (hu.words i 1) (hu.kept _ fun z hz => ?_)
  obtain rfl := List.mem_singleton.mp hz
  have hne : z.2 ≠ y.2 := fun e => hx (e ▸ List.mem_map_of_mem hy)
  omega

theorem allParts_moved {x : Nat × Nat} (hu : u.pagesMoved s p i toTier [x]) (hx : x.2 ∉ l.map (·.2)) :
    u.allParts p i toTier l = s.allParts p i toTier l := by
  unfold State.allParts
  refine congrArg List.flatten (List.map_congr_left fun y hy => ?_)
  rw [pageParts_congr hu.frame, placeOf_moved hu hx hy]

theorem pagesMoved_cons {x : Nat × Nat} (hx : x.2 ∉ l.map (·.2)) (hu : u.pagesMoved s p i toTier [x])
    (ht : t.pagesMoved u p i toTier l) : t.pagesMoved s p i toTier (x :: l) := by
  have hmap : u.seqMap i = s.seqMap i := seqMap_congr (hu.words i 1)
  have hplaces : l.map (fun y => u.placeOf i y.2) = l.map fun y => s.placeOf i y.2 :=
    List.map_congr_left fun y hy => placeOf_moved hu hx hy
  refine ⟨ht.frame.trans hu.frame, ht.clean, ?_, fun j w => (ht.words j w).trans (hu.words j w), ?_, ?_, fun e he => ?_,
    ht.copies.trans hu.copies⟩
  · rw [ht.bytes, hu.bytes, allParts_moved hu hx, allParts_cons, List.foldl_append]
    simp [State.allParts]
  · rw [ht.pool, hu.pool, hplaces]
    simp
  · intro y hy
    rcases List.mem_cons.mp hy with rfl | hy
    · refine Eq.trans (ht.kept _ fun z hz => ?_) (hu.given y (List.mem_singleton_self y))
      have hne : y.2 ≠ z.2 := fun e => hx (e ▸ List.mem_map_of_mem hz)
      omega
    · rw [← hmap]
      exact ht.given y hy
  · refine (ht.kept e fun z hz => ?_).trans (hu.kept e fun z hz => ?_)
    · rw [hmap]
      exact he z (List.mem_cons_of_mem x hz)
    · obtain rfl := List.mem_singleton.mp hz
      exact he z (List.mem_cons_self ..)

/-- Pages of a sequence move one after the other, where the reel may touch all their places. -/
theorem movePages_moved (l : List (Nat × Nat)) : ∀ {s : State}, s.clean → (l.map (·.2)).Nodup →
    (∀ m ∈ s.allParts p i toTier l, s.reelCause p false m.1 m.2.2 = none ∧ s.reelCause p false m.2.1 m.2.2 = none) →
    (l.foldl (fun (s : State) x => s.movePage p i toTier x) s).pagesMoved s p i toTier l := by
  induction l with
  | nil => exact fun hc _ _ => ⟨State.pagesOver_refl, hc, rfl, fun _ _ => rfl, rfl, nofun, fun _ _ => rfl, rfl⟩
  | cons x l ih =>
    intro s hc hnodup h
    rw [List.map_cons, List.nodup_cons] at hnodup
    rw [allParts_cons] at h
    have hu := movePage_moved x hc fun m hm => h m (List.mem_append_left _ hm)
    refine pagesMoved_cons hnodup.1 hu (ih hu.clean hnodup.2 fun m hm => ?_)
    rw [allParts_moved hu hnodup.1] at hm
    rw [reelCause_congr hu.frame, reelCause_congr hu.frame]
    exact h m (List.mem_append_right _ hm)

end

end Sys2Proof.Machine
end

section
/-!
PROOFS. The ends of page copies (R188, R263): a sequence whose pages have all moved, and a request that waited for them.
-/

namespace Sys2Proof.Machine

/-- What the end of a page copy comes to. -/
structure State.copyDone (t s : State) (p : PartNum) (k : PageCopy) : Prop where
  bytes : t.byte = (s.allParts p k.seq k.toTier (List.zipIdx k.places)).foldl moveBytes s.byte
  tier : t.seqInTier k.seq = k.toTier
  pool : t.oldPool p k.toTier = ((List.zipIdx k.places).map fun x => s.placeOf k.seq x.2).reverse ++ s.oldPool p k.toTier
  gone : k ∉ t.reel.copies
  given : ∀ x ∈ List.zipIdx k.places, t.mapEntry (s.seqMap k.seq + x.2) = entryOf x.1 (movedTo k.toTier)
  srv : t.srv = s.srv

/-- The state in which a copy has moved its pages and its sequence shows it. -/
def State.finishCopy (s : State) (k : PageCopy) : State :=
  ((List.zipIdx k.places).foldl (fun (s : State) x => s.movePage k.part k.seq k.toTier x) (s.dropCopy k)).setSeqBits k.seq 0 3 1
    (if k.toTier = true then 1 else 0)

section
variable {r s t u : State} {p : PartNum} {i : Nat} {k : PageCopy} {x : Nat × Nat}

/-! ### The model's two loops -/

theorem giveBack_toTier {e f : Nat} {w : Word} :
    (s.setMapEntry e w).giveBack p true f = (s.setMapEntry e w).setFrames p (f :: s.framePool p) := rfl

theorem giveBack_toVault {e f : Nat} {w : Word} :
    (s.setMapEntry e w).giveBack p false f = (s.setMapEntry e w).setSlots p (f :: s.slotPool p) := rfl

theorem pageParts_toTier {place here : Nat} : s.pageParts p true place here = s.copyParts p here place := rfl

theorem pageParts_toVault {place here : Nat} :
    s.pageParts p false place here = (s.copyParts p place here).map fun m => (m.2.1, m.1, m.2.2) := rfl

theorem movePage_toTier :
    s.movePage p i true x =
      (let e := s.seqMap i + x.2
      let f := entryFrame (s.mapEntry e)
      let s := (s.copyParts p f x.1).foldl (fun s m => s.copyBytes p m.1 m.2.1 m.2.2) s
      (s.setMapEntry e (entryOf x.1 2)).setFrames p (f :: s.framePool p)) := by
  rw [State.movePage, giveBack_toTier, pageParts_toTier]
  rfl

theorem movePage_toVault :
    s.movePage p i false x =
      (let e := s.seqMap i + x.2
      let slot := entryFrame (s.mapEntry e)
      let s := (s.copyParts p x.1 slot).foldl (fun s m => s.copyBytes p m.2.1 m.1 m.2.2) s
      (s.setMapEntry e (entryOf x.1 1)).setSlots p (slot :: s.slotPool p)) := by
  rw [State.movePage, giveBack_toVault, pageParts_toVault, List.foldl_map]
  rfl

theorem evictEnd_good (hb : s.reel.bad = []) (hk : k.toTier = true) :
    ∃ u, State.noted u s ∧ s.evictEnd k = (u.finishCopy k, false) := by
  refine ⟨_, reelScan_noted k.part (s.seqWords k.seq), ?_⟩
  unfold State.evictEnd State.finishCopy
  dsimp only
  rw [reelScan_good hb, if_neg Bool.false_ne_true, hk, if_pos rfl]
  simp only [movePage_toTier]

theorem copyBackEnd_good (hb : s.reel.bad = []) (hk : k.toTier = false) :
    ∃ u, State.noted u s ∧ s.copyBackEnd k = (u.finishCopy k, false) := by
  refine ⟨_, reelScan_noted k.part (s.seqWords k.seq), ?_⟩
  unfold State.copyBackEnd State.finishCopy
  dsimp only
  rw [reelScan_good hb, if_neg Bool.false_ne_true, hk, if_neg Bool.false_ne_true]
  simp only [movePage_toVault]

theorem nextCopy_some {toTier : Bool} (h : s.nextCopy p toTier = some k) : k.part = p ∧ k.toTier = toTier := by
  have := List.find?_some h
  simpa using this

/-! ### A copy that has finished -/

theorem seqMap_dropCopy : (s.dropCopy k).seqMap i = s.seqMap i := rfl

theorem not_mem_dropCopy : k ∉ (s.dropCopy k).reel.copies := by simp [State.dropCopy]

theorem nodup_pages (l : List Nat) : ((List.zipIdx l).map (·.2)).Nodup := by
  have h : (List.zipIdx l).map (·.2) = List.range' 0 l.length := List.zipIdx_map_snd 0 l
  rw [h]
  exact List.nodup_range'

/-- A copy that is dropped leaves the pages where they lie. -/
theorem placeOf_dropCopy (hu : u.noted s) (j : Nat) : (u.dropCopy k).placeOf i j = s.placeOf i j := by
  have h : u.placeOf i j = s.placeOf i j := placeOf_congr (hu.seqWord i 1) (hu.mapEntry _)
  exact Eq.trans rfl h

theorem oldPool_dropCopy (hu : u.noted s) (toTier : Bool) : (u.dropCopy k).oldPool p toTier = s.oldPool p toTier := by
  have h : u.oldPool p toTier = s.oldPool p toTier := by rw [State.oldPool, hu.framePool, hu.slotPool, State.oldPool]
  exact Eq.trans rfl h

theorem allParts_dropCopy (hu : u.noted s) (toTier : Bool) (l : List (Nat × Nat)) :
    (u.dropCopy k).allParts p i toTier l = s.allParts p i toTier l := by
  have hover : (u.dropCopy k).pagesOver s := (dropCopy_reworks.reels.trans hu.reels).pagesOver
  unfold State.allParts
  simp only [pageParts_congr hover, placeOf_dropCopy hu]

/-- A copy between places that the reel may touch, in good memory, moves its pages. -/
theorem finishCopy_done (hu : u.noted s) (hc : s.clean) (hp : k.part = p)
    (h : ∀ m ∈ s.allParts p k.seq k.toTier (List.zipIdx k.places),
      s.reelCause p false m.1 m.2.2 = none ∧ s.reelCause p false m.2.1 m.2.2 = none) : (u.finishCopy k).copyDone s p k := by
  have hdrop : (u.dropCopy k).reels s := dropCopy_reworks.reels.trans hu.reels
  have hclean : (u.dropCopy k).clean := dropCopy_reworks.clean (hu.1.readOver.1.clean hc)
  have hmap : (u.dropCopy k).seqMap k.seq = s.seqMap k.seq := seqMap_dropCopy.trans (hu.seqMap k.seq)
  have hopen : ∀ m ∈ (u.dropCopy k).allParts p k.seq k.toTier (List.zipIdx k.places),
      (u.dropCopy k).reelCause p false m.1 m.2.2 = none ∧ (u.dropCopy k).reelCause p false m.2.1 m.2.2 = none := fun m hm => by
    rw [allParts_dropCopy hu] at hm
    rw [reelCause_congr hdrop.pagesOver, reelCause_congr hdrop.pagesOver]
    exact h m hm
  have hmoved := movePages_moved (p := p) (List.zipIdx k.places) hclean (nodup_pages k.places) hopen
  unfold State.finishCopy
  rw [hp]
  generalize (List.zipIdx k.places).foldl (fun (s : State) x => s.movePage p k.seq k.toTier x) (u.dropCopy k) = v at hmoved ⊢
  generalize hbit : (if k.toTier = true then 1 else 0) = bit
  have hset : (v.setSeqBits k.seq 0 3 1 bit).reworks v := setSeqBits_reworks
  refine ⟨?_, ?_, ?_, ?_, fun x hx => ?_, ?_⟩
  · rw [hset.byte, hmoved.bytes, allParts_dropCopy hu, funext hdrop.byte]
  · rw [State.seqInTier, bits_setSeqBits_self (by decide) (by decide), ← hbit]
    cases k.toTier <;> rfl
  · have hpool : (v.setSeqBits k.seq 0 3 1 bit).oldPool p k.toTier = v.oldPool p k.toTier := rfl
    rw [hpool, hmoved.pool, oldPool_dropCopy hu]
    simp only [placeOf_dropCopy hu]
  · have hcopies : (v.setSeqBits k.seq 0 3 1 bit).reel.copies = v.reel.copies := rfl
    rw [hcopies, hmoved.copies]
    exact not_mem_dropCopy
  · rw [mapEntry_setSeqBits, ← hmap]
    exact hmoved.given x hx
  · exact hset.reels.srv.trans (hmoved.frame.srv.trans hdrop.srv)

/-! ### Nothing waits for places (R261, R263) -/

theorem conv_congr (h : t.srv = s.srv) (i : Nat) : t.conv i = s.conv i := by rw [State.conv, h, State.conv]

theorem holdDue_none (h : (s.conv i).holdUntil = none) : s.holdDue i = false := by simp [State.holdDue, h]

theorem loadRetry_none (h : ∀ i r, s.request i = some r → r.phase ≠ .loading) : s.loadRetry p = s := by
  unfold State.loadRetry
  refine foldl_fixed _ fun i hi => ?_
  have hphase := (List.mem_filter.mp hi).2
  split at hphase
  · next r hr => exact absurd (by simpa using hphase) (h i r hr)
  · cases hphase

/-- Where no request loads and no conversation is held, the places that return stay in their pools. -/
theorem poolsRetry_none (hload : ∀ i r, s.request i = some r → r.phase ≠ .loading) (hhold : ∀ i, (s.conv i).holdUntil = none) :
    s.poolsRetry p = s := by
  have hloads : ((s.seqRange p).any fun i =>
      (s.request i).any (fun r => r.phase == .loading) && s.seqInTier i && !s.copying i) = false := by
    refine List.any_eq_false.mpr fun i _ => ?_
    cases hr : s.request i with
    | none => simp
    | some r => simp [hload i r hr]
  have hmoves : ((s.seqRange p).any fun i => s.holdDue i) = false :=
    List.any_eq_false.mpr fun i _ => by simp [holdDue_none (hhold i)]
  have hcheck : s.poolCheck p false false = s := by
    unfold State.poolCheck
    rw [reelScan_none p fun w => by simp]
    rfl
  unfold State.poolsRetry
  rw [hloads, hmoves]
  dsimp only
  rw [hcheck, State.poolsGive, loadRetry_none hload]
  refine foldl_fixed _ fun i _ => ?_
  rw [State.holdMove, holdDue_none (hhold i), if_neg Bool.false_ne_true]

/-! ### The rows -/

theorem exec_evictionCopyDone_good (hb : s.reel.bad = []) (hk : s.nextCopy p true = some k) :
    ∃ u, State.noted u s ∧ exec (.evictionCopyDone p) s = .next ((u.finishCopy k).poolsRetry p) := by
  obtain ⟨u, hu, hend⟩ := evictEnd_good hb (nextCopy_some hk).2
  refine ⟨u, hu, congrArg Host.Outcome.next ?_⟩
  rw [hk]
  dsimp only
  rw [hend, if_neg Bool.false_ne_true]

/-- What the request of a sequence whose pages are back does. -/
def State.queueLoaded (s : State) (p : PartNum) (i : Nat) : State :=
  ((s.update p (.activate i)).modReq i fun r => { r with loadSince := none }).setPhase i .queued

theorem exec_copyBackDone_good (hb : s.reel.bad = []) (hk : s.nextCopy p false = some k) :
    ∃ u, State.noted u s ∧ exec (.copyBackDone p) s = .next
      ((match ((u.finishCopy k).request k.seq).map Request.phase with
        | some ph => if ph == ReqPhase.loading then (u.finishCopy k).queueLoaded p k.seq else u.finishCopy k
        | none => u.finishCopy k).poolsRetry p) := by
  obtain ⟨u, hu, hend⟩ := copyBackEnd_good hb (nextCopy_some hk).2
  refine ⟨u, hu, congrArg Host.Outcome.next ?_⟩
  rw [hk]
  dsimp only
  rw [hend]
  dsimp only
  simp only [Bool.false_eq_true, if_false]
  rfl

/-! ### Copies between places that the reel may touch -/

/-- Parts that the reel may touch, of which no source meets a destination and no destination another. -/
def State.partsApart (s : State) (p : PartNum) (parts : List (Nat × Nat × Nat)) : Prop :=
  (∀ m ∈ parts, s.reelCause p false m.1 m.2.2 = none ∧ s.reelCause p false m.2.1 m.2.2 = none
    ∧ ∀ o ∈ parts, m.1 + m.2.2 ≤ o.2.1 ∨ o.2.1 + o.2.2 ≤ m.1) ∧
  parts.Pairwise fun m o => m.2.1 + m.2.2 ≤ o.2.1 ∨ o.2.1 + o.2.2 ≤ m.2.1

/-- The bytes of parts have moved, and no byte outside their destinations has changed. -/
def State.partsMoved (t s : State) (parts : List (Nat × Nat × Nat)) : Prop :=
  (∀ m ∈ parts, ∀ j, j < m.2.2 → t.byte (m.2.1 + j) = s.byte (m.1 + j)) ∧
  (∀ y, (∀ m ∈ parts, ¬ (m.2.1 ≤ y ∧ y < m.2.1 + m.2.2)) → t.byte y = s.byte y)

theorem partsMoved_of_apart {parts : List (Nat × Nat × Nat)} (h : t.byte = parts.foldl moveBytes s.byte) (ha : s.partsApart p parts) :
    t.partsMoved s parts := by
  obtain ⟨hparts, hdst⟩ := ha
  rw [State.partsMoved, h]
  exact ⟨fun m hm j hj => foldl_moveBytes_inside parts (fun m hm => (hparts m hm).2.2) hdst hm hj,
    fun y hy => foldl_moveBytes_outside parts hy⟩

/-- A finished copy leaves nothing to try again where nothing waits. -/
theorem poolsRetry_copyDone (hload : ∀ i r, s.request i = some r → r.phase ≠ .loading) (hhold : ∀ i, (s.conv i).holdUntil = none)
    (h : t.copyDone s p k) : t.poolsRetry p = t :=
  poolsRetry_none (fun i r hr => hload i r (by rwa [request_congr h.srv] at hr)) fun i => by rw [conv_congr h.srv, hhold i]

theorem evictionCopyDone_done (hc : s.clean) (hb : s.reel.bad = []) (hload : ∀ i r, s.request i = some r → r.phase ≠ .loading)
    (hhold : ∀ i, (s.conv i).holdUntil = none) (hk : s.nextCopy p true = some k)
    (ha : s.partsApart p (s.allParts p k.seq k.toTier (List.zipIdx k.places))) :
    ∃ t, exec (.evictionCopyDone p) s = .next t ∧ t.copyDone s p k := by
  obtain ⟨u, hu, hexec⟩ := exec_evictionCopyDone_good hb hk
  have hdone : (u.finishCopy k).copyDone s p k :=
    finishCopy_done hu hc (nextCopy_some hk).1 fun m hm => ⟨(ha.1 m hm).1, (ha.1 m hm).2.1⟩
  rw [poolsRetry_copyDone hload hhold hdone] at hexec
  exact ⟨_, hexec, hdone⟩

theorem copyBackDone_done (hc : s.clean) (hb : s.reel.bad = []) (hload : ∀ i r, s.request i = some r → r.phase ≠ .loading)
    (hhold : ∀ i, (s.conv i).holdUntil = none) (hk : s.nextCopy p false = some k)
    (ha : s.partsApart p (s.allParts p k.seq k.toTier (List.zipIdx k.places))) :
    ∃ t, exec (.copyBackDone p) s = .next t ∧ t.copyDone s p k := by
  obtain ⟨u, hu, hexec⟩ := exec_copyBackDone_good hb hk
  have hdone : (u.finishCopy k).copyDone s p k :=
    finishCopy_done hu hc (nextCopy_some hk).1 fun m hm => ⟨(ha.1 m hm).1, (ha.1 m hm).2.1⟩
  rw [request_congr hdone.srv] at hexec
  refine ⟨_, hexec.trans (congrArg Host.Outcome.next ?_), hdone⟩
  cases hr : s.request k.seq with
  | none => exact poolsRetry_copyDone hload hhold hdone
  | some r =>
    rw [Option.map_some]
    dsimp only
    rw [if_neg (by simp [hload _ r hr])]
    exact poolsRetry_copyDone hload hhold hdone

/-! ### A request that waited for its pages (R243, R263) -/

/-- t has s's requests, and no uncorrectable word of the reel that s has not. -/
structure State.loadsOnly (t s : State) : Prop where
  srv : t.srv = s.srv
  bad : t.reel.bad ⊆ s.reel.bad

theorem State.loadsOnly.trans (h : t.loadsOnly s) (g : s.loadsOnly r) : t.loadsOnly r :=
  ⟨h.srv.trans g.srv, List.Subset.trans h.bad g.bad⟩

theorem State.reworks.loadsOnly (h : t.reworks s) : t.loadsOnly s := ⟨h.reels.srv, h.bad⟩

/-- Whatever a copy meets, it changes neither requests nor the reel. -/
theorem copyBytes_writesOnly {src dst n : Nat} : (s.copyBytes p src dst n).writesOnly (fun _ => True) s := by
  have hdenied : ∀ {s : State} {c a : Nat}, (s.reelDenied p c a).writesOnly (fun _ => True) s :=
    (State.accessError_based State.based_refl).writesOnly
  have hread : ((s.readThrough src n).1).writesOnly (fun _ => True) s := by
    have hbad : ∀ {l : List Nat} {v : State}, (l.foldl (fun s w => s.eccReport w 5 true) v).writesOnly (fun _ => True) v :=
      foldl_over (R := State.writesOnly _) (fun _ => State.writesOnly_refl) State.writesOnly.trans fun _ _ =>
        (State.eccReport_based State.based_refl).writesOnly
    have hfree : ∀ {v : State} {f : Nat}, State.writesOnly (fun _ => True) { v with free := f } v := ⟨rfl, rfl, fun _ _ => rfl⟩
    exact countRead_counted.readOver.writesOnly.trans (hfree.trans (hbad.trans correct_based.writesOnly))
  unfold State.copyBytes
  extract_lets u
  have hu : u.1.writesOnly (fun _ => True) s := by
    unfold u
    split
    · exact hdenied
    · exact hread
  split
  · exact hdenied.trans hu
  · exact (write_writesOnly fun _ _ _ => trivial).trans hu

theorem movePage_loadsOnly {toTier : Bool} : (s.movePage p i toTier x).loadsOnly s := by
  have hcopies : ∀ {l : List (Nat × Nat × Nat)} {v : State},
      (l.foldl (fun (s : State) m => s.copyBytes p m.1 m.2.1 m.2.2) v).writesOnly (fun _ => True) v :=
    foldl_over (R := State.writesOnly _) (fun _ => State.writesOnly_refl) State.writesOnly.trans fun _ _ => copyBytes_writesOnly
  refine State.loadsOnly.trans (giveBack_reworks.trans setMapEntry_reworks).loadsOnly ⟨hcopies.srv, ?_⟩
  rw [hcopies.reel]
  exact List.Subset.refl _

theorem finishCopy_loadsOnly : (s.finishCopy k).loadsOnly s :=
  setSeqBits_reworks.loadsOnly.trans (.trans
    (foldl_over (R := State.loadsOnly) (fun _ => State.reworks_refl.loadsOnly) State.loadsOnly.trans fun _ _ => movePage_loadsOnly)
    dropCopy_reworks.loadsOnly)

theorem update_reels (hb : s.reel.bad = []) {v : SeqUpdate} : (s.update p v).reels s :=
  seqUpdate_reels.trans (flushUpdates_reels hb)

/-- A loading request queues. -/
theorem queueLoaded_queued {q : Request} (hb : s.reel.bad = []) (hq : s.request i = some q) (hph : q.phase = .loading) :
    ((s.queueLoaded p i).request i).map (·.phase) = some .queued ∧ (s.queueLoaded p i).reel.bad = [] := by
  have hup : (s.update p (.activate i)).reels s := update_reels hb
  have hq' : (s.update p (.activate i)).request i = some q := (request_congr hup.srv i).trans hq
  have hlive : q.phase ≠ .ended := by
    rw [hph]
    nofun
  constructor
  · rw [State.queueLoaded, request_setPhase (ph := .queued) (request_modReq hq' hlive) nofun]
    rfl
  · rw [State.queueLoaded, reel_setPhase]
    exact hup.bad_nil hb

/-- A request that still loads as its copy back ends queues. -/
theorem copyBackDone_queues {q : Request} (hb : s.reel.bad = []) (hk : s.nextCopy p false = some k)
    (hq : s.request k.seq = some q) (hph : q.phase = .loading) :
    ∃ t, exec (.copyBackDone p) s = .next t ∧ (t.request k.seq).map (·.phase) = some .queued := by
  obtain ⟨u, hu, hexec⟩ := exec_copyBackDone_good hb hk
  have hfinish : (u.finishCopy k).loadsOnly u := finishCopy_loadsOnly
  have hbad : (u.finishCopy k).reel.bad = [] := List.subset_nil.mp (hu.reels.bad_nil hb ▸ hfinish.bad)
  have hr : (u.finishCopy k).request k.seq = some q := by rw [request_congr hfinish.srv, hu.request, hq]
  obtain ⟨hqueued, hbad'⟩ := queueLoaded_queued (p := p) hbad hr hph
  rw [hr, Option.map_some, hph] at hexec
  simp only [beq_self_eq_true, if_true] at hexec
  refine ⟨_, hexec, ?_⟩
  rw [request_congr (s := (u.finishCopy k).queueLoaded p k.seq) (poolsRetry_reels hbad').srv]
  exact hqueued

end

/-! ### What the obligation says of page copies -/

theorem zip_pages {β : Type} (g : Nat × Nat → β) (l : List Nat) :
    ((List.zipIdx l).map g).zip l = (List.zipIdx l).map (fun x => (g x, x.1))
      ∧ l.zip ((List.zipIdx l).map g) = (List.zipIdx l).map fun x => (x.1, g x) := by
  have hl : (List.zipIdx l).map Prod.fst = l := List.zipIdx_map_fst 0 l
  constructor
  · calc ((List.zipIdx l).map g).zip l = ((List.zipIdx l).map g).zip ((List.zipIdx l).map Prod.fst) := by rw [hl]
      _ = _ := List.zip_map' ..
  · calc l.zip ((List.zipIdx l).map g) = ((List.zipIdx l).map Prod.fst).zip ((List.zipIdx l).map g) := by rw [hl]
      _ = _ := List.zip_map' ..

/-- The parts of a copy to the tier, and of one back, as the obligation lists them. -/
theorem copyLists (s : State) (p : PartNum) (k : PageCopy) :
    (((((List.zipIdx k.places).map fun x => s.placeOf k.seq x.2).zip k.places).map fun x => s.copyParts p x.1 x.2).flatten
        = s.allParts p k.seq true (List.zipIdx k.places)) ∧
      (((k.places.zip ((List.zipIdx k.places).map fun x => s.placeOf k.seq x.2)).map fun x =>
          (s.copyParts p x.1 x.2).map fun m => (m.2.1, m.1, m.2.2)).flatten
        = s.allParts p k.seq false (List.zipIdx k.places)) := by
  obtain ⟨hout, hback⟩ := zip_pages (fun x => s.placeOf k.seq x.2) k.places
  constructor
  · rw [hout, List.map_map]
    rfl
  · rw [hback, List.map_map]
    rfl

/-- The clauses of O55 on finished copies. -/
theorem pageCopy_clauses {s : State} {p : PartNum} {k : PageCopy} (hc : s.clean) (hb : s.reel.bad = [])
    (hload : ∀ i r, s.request i = some r → r.phase ≠ .loading) (hhold : ∀ i, (s.conv i).holdUntil = none) :
    let old := (List.zipIdx k.places).map fun x => s.placeOf k.seq x.2
    let out := ((old.zip k.places).map fun x => s.copyParts p x.1 x.2).flatten
    let back := ((k.places.zip old).map fun x => (s.copyParts p x.1 x.2).map fun m => (m.2.1, m.1, m.2.2)).flatten
    (s.nextCopy p true = some k → s.partsApart p out → ∃ t, exec (.evictionCopyDone p) s = .next t
      ∧ t.partsMoved s out ∧ t.seqInTier k.seq = true ∧ t.framePool p = old.reverse ++ s.framePool p ∧ k ∉ t.reel.copies
      ∧ ∀ x ∈ List.zipIdx k.places, t.mapEntry (s.seqMap k.seq + x.2) = entryOf x.1 2) ∧
    (s.nextCopy p false = some k → s.partsApart p back → ∃ t, exec (.copyBackDone p) s = .next t
      ∧ t.partsMoved s back ∧ t.seqInTier k.seq = false ∧ t.slotPool p = old.reverse ++ s.slotPool p ∧ k ∉ t.reel.copies
      ∧ ∀ x ∈ List.zipIdx k.places, t.mapEntry (s.seqMap k.seq + x.2) = entryOf x.1 1) := by
  intro old out back
  obtain ⟨hout, hback⟩ := copyLists s p k
  refine ⟨fun hk ha => ?_, fun hk ha => ?_⟩
  · have hdir : k.toTier = true := (nextCopy_some hk).2
    rw [show out = _ from hout, ← hdir] at ha ⊢
    obtain ⟨t, hexec, hdone⟩ := evictionCopyDone_done hc hb hload hhold hk ha
    obtain ⟨hbytes, htier, hpool, hgone, hgiven, -⟩ := hdone
    have hmoved := partsMoved_of_apart hbytes ha
    rw [hdir] at htier hpool hgiven hmoved ⊢
    exact ⟨t, hexec, hmoved, htier, hpool, hgone, hgiven⟩
  · have hdir : k.toTier = false := (nextCopy_some hk).2
    rw [show back = _ from hback, ← hdir] at ha ⊢
    obtain ⟨t, hexec, hdone⟩ := copyBackDone_done hc hb hload hhold hk ha
    obtain ⟨hbytes, htier, hpool, hgone, hgiven, -⟩ := hdone
    have hmoved := partsMoved_of_apart hbytes ha
    rw [hdir] at htier hpool hgiven hmoved ⊢
    exact ⟨t, hexec, hmoved, htier, hpool, hgone, hgiven⟩

/-! ### The obligation -/

/-- Settles O55: a go is decided by reading its descriptor; a step's slots are served in order, each of which touches its own words
and entries; updates and expiry by what serving leaves alone; and a copy's pages one after the other, each move's bytes where no
source meets a destination. -/
theorem reelStepsAndCopies : Obligations.ReelStepsAndCopies := by
  unfold Obligations.ReelStepsAndCopies
  intro s p _
  refine ⟨fun q v hq hv => ?_, exec_reelStepComplete_none, fun d hd hb hnodup hslots hapart => ?_, (updateApply_clauses s p).1,
    (updateApply_clauses s p).2, exec_parkExpiry_held, fun i r hheld hstart hone hb hr hshort hcoming hnone =>
      parkExpiry_clause hheld hstart hone hb hr hshort hcoming hnone, fun k hc hb hload hhold =>
      pageCopy_clauses hc hb hload hhold, fun k r hk hr hph hb => copyBackDone_queues hb hk hr hph⟩
  · obtain ⟨hrun, hidle⟩ := stepGo_clauses s p q v hq hv
    refine ⟨hrun, fun hstep hup => ?_⟩
    obtain ⟨t, hexec, hdenied, hbad, hgood⟩ := hidle hstep hup
    refine ⟨fun h => ⟨t, hexec, hdenied h⟩, fun h => ⟨t, hexec, hbad h⟩, fun hcause hnone => ?_⟩
    obtain ⟨hstarts, hrefused⟩ := hgood hcause hnone
    exact ⟨fun d hd hon => ⟨t, hexec, hstarts d hd hon⟩, fun h => ⟨t, hexec, hrefused h⟩⟩
  · have hready : s.slotsReady p d.slots := by
      refine ⟨fun x hx => ?_, hnodup, hapart⟩
      obtain ⟨-, hmine, hstate, hvault, hplain, hroom⟩ := hslots x hx
      exact ⟨hmine, hstate, hvault, hplain, hroom⟩
    obtain ⟨t, hexec, hstep, hrun, hdone, hnum, hbytes, hpool, hserved⟩ := stepEnd_clause hd hb hready fun x hx => (hslots x hx).1
    exact ⟨t, hexec, hstep, hrun, hdone, hnum, fun y hy => hbytes y fun ⟨n, hn, hat⟩ => hy n hn hat, hpool, hserved⟩

end Sys2Proof.Machine
end

section
/-!
PROOFS. Feature maps in the spool (R92, R211, R213): what reading pixels and writing pieces leave where no memory word is in error,
and what an instruction that writes pieces comes to.
-/

namespace Sys2Proof.Machine

section
variable {s t u : State} {n : ArrayNum}

/-! ### Flags and records beside a change of memory -/

/-- A state with another memory. -/
def State.withMem (s : State) (m : List Host.Cell) : State := { s with mem := m }

theorem set_withMem (m : List Host.Cell) (g : Fld) (k : Nat) : (s.withMem m).set g k = (s.set g k).withMem m := by
  unfold State.set
  split <;> rfl

theorem raiseBit_withMem (m : List Host.Cell) (g : Fld) : (s.withMem m).raiseBit g = (s.raiseBit g).withMem m :=
  set_withMem m g 1

theorem addTo_withMem (m : List Host.Cell) (g : Fld) (k : Nat) : (s.withMem m).addTo g k = (s.addTo g k).withMem m :=
  set_withMem m g _

theorem bump_withMem (m : List Host.Cell) (g : Fld) : (s.withMem m).bump g = (s.bump g).withMem m := addTo_withMem m g 1

theorem loseFor_withMem (m : List Host.Cell) (rs : List (Fin 17)) :
    (s.withMem m).loseFor rs = (s.loseFor rs).withMem m := by
  unfold State.loseFor
  refine List.foldl_hom (State.withMem · m) fun t r => ?_
  rw [bump_withMem]
  rfl

/-- A record's place in the queue does not depend on memory. -/
theorem enqueue_withMem (m : List Host.Cell) (r : EventRec) : (s.withMem m).enqueue r = (s.enqueue r).withMem m := by
  unfold State.enqueue
  extract_lets seq fresh s1 board update s2 rs held
  rw [apply_ite (State.withMem · m)]
  refine ite_congr rfl (fun _ => rfl) fun _ => ?_
  rw [← loseFor_withMem, ← raiseBit_withMem, ← bump_withMem]
  rfl

theorem report_withMem (m : List Host.Cell) (ev : Ev) : (s.withMem m).report ev = (s.report ev).withMem m := by
  unfold State.report State.reportAt
  rw [apply_ite (State.withMem · m), ← enqueue_withMem]
  rfl

theorem noteOverflow_withMem (m : List Host.Cell) (b : Bool) :
    (s.withMem m).noteOverflow n b = (s.noteOverflow n b).withMem m := by
  unfold State.noteOverflow
  rw [apply_ite (State.withMem · m), ← raiseBit_withMem]

theorem noteConvSat_withMem (m : List Host.Cell) (k : Nat) : (s.withMem m).noteConvSat n k = (s.noteConvSat n k).withMem m := by
  unfold State.noteConvSat
  rw [apply_ite (State.withMem · m), ← addTo_withMem, ← raiseBit_withMem]

theorem flag_withMem (m : List Host.Cell) (g : Fld) : (s.withMem m).flag g = s.flag g := rfl

theorem arr_withMem (m : List Host.Cell) (k : ArrayNum) : (s.withMem m).arr k = s.arr k := rfl

theorem partOf_withMem (m : List Host.Cell) (k : ArrayNum) : (s.withMem m).partOf k = s.partOf k := rfl

theorem modArr_withMem (m : List Host.Cell) (f : ArrayState → ArrayState) :
    (s.withMem m).modArr n f = (s.modArr n f).withMem m := rfl

theorem noteNan_withMem (m : List Host.Cell) (k : Nat) : (s.withMem m).noteNan n k = (s.noteNan n k).withMem m := by
  unfold State.noteNan
  dsimp only
  rw [raiseBit_withMem, addTo_withMem, flag_withMem, arr_withMem, partOf_withMem, modArr_withMem, report_withMem,
    apply_ite (State.withMem · m), apply_ite (State.withMem · m)]

/-- A flag raised and its counter increased where something was found, as every status of the unit shows it (R236). -/
def State.noteFound (s : State) (flag count : Fld) (k : Nat) : State :=
  if k = 0 then s else (s.raiseBit flag).addTo count k

theorem noteFound_withMem (m : List Host.Cell) (flag count : Fld) (k : Nat) :
    (s.withMem m).noteFound flag count k = (s.noteFound flag count k).withMem m := by
  unfold State.noteFound
  rw [apply_ite (State.withMem · m), ← addTo_withMem, ← raiseBit_withMem]

theorem noteFound_based {flag count : Fld} {k : Nat} : (s.noteFound flag count k).based s := by
  unfold State.noteFound
  split
  · exact State.based_refl
  · exact State.addTo_based (State.raiseBit_based State.based_refl)

/-! ### Reads and writes where no word is in error (R92) -/

theorem ce_atIssue (h : s.ce = []) : (s.atIssue n).ce = [] := by rw [atIssue_frame]; exact h

theorem clean_atIssue (h : s.clean) : (s.atIssue n).clean := atIssue_near.stagerOver.clean h

/-- What reading a pixel gives: `len` bytes from channel byte c inside the map, nothing outside it (R211, R213). -/
def State.pixel (s : State) (n : ArrayNum) (m : MapDesc) (c len : Nat) (p : Int × Int) : Option (List Byte) :=
  if m.inside p.1 p.2 then some (s.load (spoolBase n + m.addr p.1.toNat p.2.toNat c) len) else none

/-- The listed pixels that lie inside the map lie inside the spool (R213). -/
def MapDesc.readable (m : MapDesc) (c len : Nat) (ps : List (Int × Int)) : Prop :=
  ∀ p ∈ ps, m.inside p.1 p.2 = true → m.addr p.1.toNat p.2.toNat c + len ≤ spoolSize

theorem pixel_atIssue (m : MapDesc) (c len : Nat) : (s.atIssue n).pixel n m c len = s.pixel n m c len := by
  funext p
  unfold State.pixel
  rw [atIssue_near.stagerOver.load]

/-- Where no word is in error, readable pixels are read as they stand and nothing changes. -/
theorem readPixels_of_clean (hc : s.clean) (hce : s.ce = []) {m : MapDesc} {c len : Nat} {ps : List (Int × Int)}
    (h : m.readable c len ps) : s.readPixels n m c len ps = (s, .ok (ps.map (s.pixel n m c len))) := by
  induction ps with
  | nil => rfl
  | cons p ps ih =>
    have hrest := ih fun q hq => h q (List.mem_cons_of_mem _ hq)
    rw [List.map_cons, State.pixel, State.readPixels]
    by_cases hin : m.inside p.1 p.2 = true
    · have hread := unitRead_good (hc (spoolBase n + m.addr p.1.toNat p.2.toNat c) len)
      rw [correct_of_ce_nil hce] at hread
      rw [if_pos hin, if_pos hin, if_neg (Nat.not_lt.mpr (h p List.mem_cons_self hin)), hread]
      dsimp only
      rw [hrest]
    · rw [if_neg hin, if_neg hin, hrest]

/-- A write of one of the array's units where no word is in error changes memory alone and does not fault. -/
theorem unitWrite_withMem (hc : s.clean) (hce : s.ce = []) (off : Nat) (bs : List Byte) :
    ∃ m, s.unitWrite n off bs = (s.withMem m, none) := by
  have habove : tierBase + tierSize ≤ spoolBase n + off := by unfold spoolBase tierBase tierSize; omega
  obtain ⟨hue, hce'⟩ := store_errors_of_clean hc hce (spoolBase n + off) bs
  rw [store_above habove] at hue hce'
  generalize hp : s.putBytes (spoolBase n + off) bs = p at hue hce'
  have hput : p = { s with mem := p.mem, ue := p.ue, ce := p.ce } := by rw [← hp]; rfl
  rw [hue, hce'] at hput
  refine ⟨p.mem, Prod.ext ?_ (unitWrite_of_clean hc off bs).1⟩
  rw [State.unitWrite, mergeReads_of_clean hc hce, store_above habove, hp]
  exact hput

/-- Memory after pieces of array n's spool are written in order: no byte outside them changes, and a byte reads as the last piece
that covers it says. -/
structure State.laid (t s : State) (n : ArrayNum) (ps : List (Nat × List Byte)) : Prop where
  outside : ∀ x, (∀ p ∈ ps, covers n p x = false) → t.byte x = s.byte x
  inside : ∀ l p r, ps = l ++ p :: r → ∀ x, covers n p x = true → (∀ q ∈ r, covers n q x = false) →
    t.byte x = p.2.getD (x - (spoolBase n + p.1)) 0

theorem covers_iff {p : Nat × List Byte} {x : Nat} :
    covers n p x = true ↔ spoolBase n + p.1 ≤ x ∧ x < spoolBase n + p.1 + p.2.length := by
  simp [covers]

/-- One more piece before the others. -/
theorem State.laid.cons {p : Nat × List Byte} {ps : List (Nat × List Byte)}
    (hp : ∀ x, u.byte x = if covers n p x = true then p.2.getD (x - (spoolBase n + p.1)) 0 else s.byte x)
    (h : t.laid u n ps) : t.laid s n (p :: ps) where
  outside x hx := by
    obtain ⟨hx, hrest⟩ := List.forall_mem_cons.mp hx
    rw [h.outside x hrest, hp, hx, if_neg Bool.false_ne_true]
  inside l q r heq x hq hr := by
    cases l with
    | nil =>
      obtain ⟨rfl, rfl⟩ := List.cons.inj heq
      rw [h.outside x hr, hp, if_pos hq]
    | cons p' l => exact h.inside l q r (List.cons.inj heq).2 x hq hr

/-- Pieces written where no word is in error are laid over memory, nothing else changes and none faults. -/
theorem writePieces_withMem {ps : List (Nat × List Byte)} : ∀ {s : State}, s.clean → s.ce = [] →
    ∃ m, s.writePieces n ps = (s.withMem m, none) ∧ (s.withMem m).laid s n ps := by
  induction ps with
  | nil => exact fun {s} _ _ => ⟨s.mem, rfl, fun _ _ => rfl, fun l p r h => absurd h (by simp)⟩
  | cons p ps ih =>
    intro s hc hce
    obtain ⟨m, hm⟩ := unitWrite_withMem (n := n) hc hce p.1 p.2
    obtain ⟨-, hclean, -, hbyte⟩ := unitWrite_of_clean (n := n) hc p.1 p.2
    rw [hm] at hclean hbyte
    obtain ⟨m', hw, hlaid⟩ := ih hclean (show (s.withMem m).ce = [] from hce)
    refine ⟨m', ?_, hlaid.cons fun x => (hbyte x).trans (if_congr covers_iff.symm rfl rfl)⟩
    rw [State.writePieces, List.foldl_cons, hm]
    exact hw

/-! ### What a writing instruction comes to -/

/-- How a writing instruction ends once its pieces are written: flags and counters take what it found, and a merge into a bad
word faults it (R92). -/
def finishWrites (w : State × Option Nat) (g : State → State) : IssueOut :=
  match w.2 with
  | some x => .fault (g w.1) faultData x
  | none => .done (g w.1)

/-- An instruction that writes pieces where no word is in error, then changes registers, event records and board, lays its pieces
over the spool and goes on to the next one. -/
theorem wrote_pieces {i : Insn} {row : Insn → Option (State → IssueOut)} {run : State → IssueOut}
    {ps : List (Nat × List Byte)} {g : State → State} (h : s.Issues n i) (hi : ∀ c, i ≠ .illegal c) (hr : row i = some run)
    (hc : s.clean) (hce : s.ce = []) (hg : ∀ t m, g (State.withMem t m) = (g t).withMem m) (hv : (g (s.atIssue n)).near s n)
    (hd : run (s.atIssue n) = finishWrites ((s.atIssue n).writePieces n ps) g) :
    Wrote (.next (s.issue n row)) s n i ps (g (s.atIssue n)) := by
  obtain ⟨m, hw, hlaid⟩ := writePieces_withMem (n := n) (ps := ps) (clean_atIssue (n := n) hc) (ce_atIssue hce)
  have hdone : run (s.atIssue n) = .done ((g (s.atIssue n)).withMem m) := by rw [hd, hw, ← hg]; rfl
  generalize g (s.atIssue n) = v at hv hdone
  have hbyte : ∀ {t : State}, t.near s n → ∀ f x, ((t.withMem m).modArr n f).byte x = (s.withMem m).byte x := by
    intro t ht f x
    rw [ht.2]
    rfl
  have hfinal : ∀ x, ((v.withMem m).modArr n (ArrayState.issued i v.time)).byte x = ((s.atIssue n).withMem m).byte x := fun x =>
    (hbyte hv _ x).trans (hbyte atIssue_near id x).symm
  refine ⟨_, congrArg Host.Outcome.next (issue_done h hi hr hdone), ?_, fun k hk => ?_, ?_, fun x hx => ?_,
    fun l p r hps x hx hrest => ?_⟩
  · rw [arr_modArr_self, ← hv.time]
    rfl
  · rw [arr_modArr_ne _ hk]
    exact hv.1 k hk
  · exact congrArg (fun t : State => (t.withMem m).modArr n (ArrayState.issued i v.time)) hv.2
  · exact (hfinal x).trans ((hlaid.outside x hx).trans (atIssue_near.stagerOver.byte x))
  · exact (hfinal x).trans (hlaid.inside l p r hps x hx hrest)

/-- Pixels that an instruction reads at issue, where no word is in error. -/
theorem readPixels_atIssue (hc : s.clean) (hce : s.ce = []) {m : MapDesc} {c len : Nat} {ps : List (Int × Int)}
    (h : m.readable c len ps) :
    (s.atIssue n).readPixels n m c len ps = (s.atIssue n, .ok (ps.map (s.pixel n m c len))) := by
  rw [← pixel_atIssue]
  exact readPixels_of_clean (clean_atIssue hc) (ce_atIssue hce) h

end

end Sys2Proof.Machine
end

section
/-!
PROOFS. The transform unit (R213, R222 to R235): what each of its instructions writes and when it faults, and from these the
obligation on transforms, pooling and argmax.
-/

namespace Sys2Proof.Machine

/-! ### wxin (R222 to R226) -/

/-- The channels of a patch transformed in int8 mode, each with its 16 positions in order (R222). -/
def int8Channels (px : List (Option (List Byte))) : List (List Int) :=
  (List.range 64).map fun c => (transform 0 (· * ·) (· + ·) bt2
    ((patchMatrix 0 4 c px).map fun r => r.map fun b => (BitVec.ofNat 8 b).toInt)).flatten

/-- The two skeins of a position (R223). -/
def skeinPair (vs : List (List Int)) (p : Nat) : (List Nat × Nat) × (List Nat × Nat) :=
  (int8Skein ((vs.map fun v => v.getD p 0).take 32), int8Skein ((vs.map fun v => v.getD p 0).drop 32))

/-- A position's fragment and its two scales (R226). -/
def skeinPieces (el sc : Nat) (k : (List Nat × Nat) × (List Nat × Nat)) : List (Nat × List Byte) :=
  [(el, (k.1.1 ++ k.2.1).map (BitVec.ofNat 8)),
   (sc, leBytes 2 (bf16Round (.fin false k.1.2 0)) ++ leBytes 2 (bf16Round (.fin false k.2.2 0)))]

/-- How many skeins of 16 positions took a scale above 1 (R223). -/
def coarseSkeins (vs : List (List Int)) : Nat :=
  ((List.range 16).map fun p => (if (skeinPair vs p).1.2 = 1 then 0 else 1) + (if (skeinPair vs p).2.2 = 1 then 0 else 1)).sum

/-- The channels of a patch transformed in bf16 and converted to the input's format, each with its 36 positions in order
(R222, R224). -/
def convChannels (fmt : Nat) (sat : Bool) (px : List (Option (List Byte))) : List (List Conv) :=
  ((List.range 64).map fun c => (transform 0 bf16MulBy bf16Add bt4
    ((patchMatrix fmt 6 c px).map fun r => r.map (widenBf16 fmt))).flatten).map fun v => v.map fun b =>
      convPlain (if fmt = 3 then 1 else fmt + 1) sat .rne (f32OfVal (fmtBf16.decode b)).bits

/-- The pixels of the patch whose top-left an address register holds (R225). -/
def wxinPatch (org k : Nat) : List (Int × Int) := patch (BitVec.ofNat 16 org).toInt (BitVec.ofNat 16 (org / 65536)).toInt k k

section
variable {s : State} {n : ArrayNum} {o : WxinOps} {a : ArrayState} {m : MapDesc}

/-- A wxin whose map does not serve its channels (R213). -/
theorem changes_wxin_unserved (h : s.Issues n (.wxin o)) (hm : (s.atIssue n).mapDesc n o.map = m)
    (hserve : m.serves ((64 * o.cgrp + 64) * mapElem o.fmt) = false) :
    Changes (exec (.wxin n) s) s n
      (({ s.arr n with committed := true } : ArrayState).faulted s.time 1 (s.fetch n (s.arr n).pc % 16) 0) (s.atIssue n) := by
  refine changes_fault_atIssue h nofun rfl ?_
  dsimp only
  rw [hm, hserve]
  rfl

/-- wxin in int8 mode writes each position's skeins and scales (R223, R226). -/
theorem wrote_wxin_int8 (h : s.Issues n (.wxin o)) (hc : s.clean) (hce : s.ce = [])
    (ha : { s.arr n with committed := true } = a) (hm : (s.atIssue n).mapDesc n o.map = m) (hfmt : o.fmt = 0)
    (hserve : m.serves ((64 * o.cgrp + 64) * mapElem o.fmt) = true)
    (hread : m.readable (64 * o.cgrp * mapElem o.fmt) (64 * mapElem o.fmt) (wxinPatch (a.a o.orgReg) 4))
    (hel : ∀ p < 16, spoolOk (a.a o.dstReg + o.dstOff + p * o.posStride * 64) 64 (64 * mapElem o.fmt) = true)
    (hsc : ∀ p < 16, spoolOk (a.a o.scReg + o.scOff + p * o.scStride * 32) 4 4 = true) {vs : List (List Int)}
    (hvs : int8Channels ((wxinPatch (a.a o.orgReg) 4).map
      (s.pixel n m (64 * o.cgrp * mapElem o.fmt) (64 * mapElem o.fmt))) = vs) :
    Wrote (exec (.wxin n) s) s n (.wxin o)
      ((List.range 16).flatMap fun p => skeinPieces (a.a o.dstReg + o.dstOff + p * o.posStride * 64)
        (a.a o.scReg + o.scOff + p * o.scStride * 32) (skeinPair vs p))
      ((s.atIssue n).noteFound (F.cnvStatusWxCoarse n) (F.cnvWxCoarseSkeins n) (coarseSkeins vs)) := by
  have ha' : (s.atIssue n).arr n = a := arr_atIssue.trans ha
  refine wrote_pieces (g := fun t => t.noteFound (F.cnvStatusWxCoarse n) (F.cnvWxCoarseSkeins n) (coarseSkeins vs)) h nofun
    rfl hc hce (fun _ _ => noteFound_withMem ..) (near_of_based atIssue_near noteFound_based) ?_
  dsimp only
  rw [ha', hm, hserve, List.findSome?_eq_none_iff.mpr ?places]
  case places =>
    intro p hp
    rw [if_pos hfmt, List.mem_range] at hp
    rw [hel p hp, hsc p hp]
    simp
  simp only [if_pos hfmt]
  rw [← wxinPatch, readPixels_atIssue hc hce hread]
  dsimp only
  rw [zipIdx_map_range, List.flatMap_map, List.map_map]
  subst hvs
  rfl

/-- What wxin counts of its conversions (R66, R224). -/
def State.noteConvs (s : State) (n : ArrayNum) (cs : List Conv) : State :=
  (s.noteConvSat n (cs.filter (·.sat)).length).noteNan n (cs.filter (·.nanOut)).length

theorem noteConvs_withMem (mem : List Host.Cell) (cs : List Conv) :
    (s.withMem mem).noteConvs n cs = (s.noteConvs n cs).withMem mem := by
  rw [State.noteConvs, noteConvSat_withMem, noteNan_withMem, State.noteConvs]

theorem noteConvs_near {t : State} {cs : List Conv} (h : t.near s n) : (t.noteConvs n cs).near s n :=
  noteNan_near (near_of_based h (State.noteConvSat_based State.based_refl))

/-- wxin in a floating-point mode writes each position's converted fragment (R224, R226). -/
theorem wrote_wxin_conv (h : s.Issues n (.wxin o)) (hc : s.clean) (hce : s.ce = [])
    (ha : { s.arr n with committed := true } = a) (hm : (s.atIssue n).mapDesc n o.map = m) (hfmt : o.fmt ≠ 0)
    (hserve : m.serves ((64 * o.cgrp + 64) * mapElem o.fmt) = true)
    (hread : m.readable (64 * o.cgrp * mapElem o.fmt) (64 * mapElem o.fmt) (wxinPatch (a.a o.orgReg) 6))
    (hel : ∀ p < 36, spoolOk (a.a o.dstReg + o.dstOff + p * o.posStride * 64) 64 (64 * mapElem o.fmt) = true)
    {cs : List (List Conv)} (hcs : convChannels o.fmt ((s.atIssue n).fp8Sat n) ((wxinPatch (a.a o.orgReg) 6).map
      (s.pixel n m (64 * o.cgrp * mapElem o.fmt) (64 * mapElem o.fmt))) = cs) :
    Wrote (exec (.wxin n) s) s n (.wxin o)
      ((List.range 36).map fun p => (a.a o.dstReg + o.dstOff + p * o.posStride * 64,
        cs.flatMap fun v => leBytes (mapElem o.fmt) (v.getD p { bits := 0 }).bits))
      ((s.atIssue n).noteConvs n cs.flatten) := by
  have ha' : (s.atIssue n).arr n = a := arr_atIssue.trans ha
  refine wrote_pieces (g := fun t => t.noteConvs n cs.flatten) h nofun rfl hc hce (fun _ _ => noteConvs_withMem ..)
    (noteConvs_near atIssue_near) ?_
  dsimp only
  rw [ha', hm, hserve, List.findSome?_eq_none_iff.mpr ?places]
  case places =>
    intro p hp
    rw [if_neg hfmt, List.mem_range] at hp
    rw [hel p hp]
    simp [hfmt]
  simp only [if_neg hfmt]
  rw [← wxinPatch, readPixels_atIssue hc hce hread]
  subst hcs
  rfl

end

/-! ### wxout (R228) -/

/-- Positions along each side of wxout's tile (R220, R221). -/
def WxoutOps.side (o : WxoutOps) : Nat := if o.f4 then 6 else 4

/-- The output matrix of wxout's tile (R220, R221). -/
def WxoutOps.mat (o : WxoutOps) : List (List Int) := if o.f4 then at4 else at2

/-- wxout's accumulator rows lie in its half and hold fp32 sums (R228). -/
def ArrayState.rowsGood (a : ArrayState) (o : WxoutOps) : Prop :=
  ∀ p < o.side * o.side, o.row + p * o.posRows ≤ 127
    ∧ SMap.look .unwritten a.accTag (o.half * 128 + (o.row + p * o.posRows)) = .fp32

/-- The output pixels of channel lane l of wxout's tile (R228). -/
def ArrayState.outTile (a : ArrayState) (o : WxoutOps) (l : Nat) : List FRes :=
  (outputTransform o.mat ((List.range o.side).map fun y => (List.range o.side).map fun x =>
    (⟨SMap.look 0 a.acc ((o.half * 128 + (o.row + (y * o.side + x) * o.posRows)) * 256 + (64 * o.g + l)), false⟩ : FRes))).flatten

/-- An array whose registers hold wxout's tile, pixel by pixel. -/
def ArrayState.takeTile (a : ArrayState) (o : WxoutOps) (tile : Nat → List FRes) : ArrayState :=
  (List.range (o.mat.length * o.mat.length)).foldl (fun a q =>
    a.setV (o.vd + q) ((List.range 64).map fun l => ((tile l).getD q ⟨0, false⟩).bits)) a

section
variable {s : State} {n : ArrayNum} {o : WxoutOps} {a : ArrayState}

/-- The check of wxout's rows. -/
theorem rowsGood_iff : (((List.range (o.side * o.side)).map fun p => o.row + p * o.posRows).all fun r =>
    decide (r ≤ 127) && SMap.look .unwritten a.accTag (accRow o.half r) == .fp32) = true ↔ a.rowsGood o := by
  simp [ArrayState.rowsGood, accRow]

/-- wxout of good rows writes its tile to vector registers (R228). -/
theorem changes_wxout (h : s.Issues n (.wxout o)) (ha : { s.arr n with committed := true } = a) (hgood : a.rowsGood o) :
    Changes (exec (.wxout n) s) s n ((a.takeTile o (a.outTile o)).issued (.wxout o) s.time)
      ((s.atIssue n).noteOverflow n ((List.range 64).any fun l => (a.outTile o l).any (·.overflow))) := by
  have ha' : (s.atIssue n).arr n = a := arr_atIssue.trans ha
  have hok := rowsGood_iff.mpr hgood
  have hrun : Changes (exec (.wxout n) s) s n _ _ := changes_overflow (f := fun b => b.takeTile o (a.outTile o)) h nofun rfl (by
    dsimp only
    rw [ha', ← WxoutOps.side, hok, List.any_map]
    simp only [List.map_map]
    rfl)
  rwa [ha] at hrun

/-- wxout of a row past the half, not written or not of fp32 faults (R228). -/
theorem changes_wxout_bad (h : s.Issues n (.wxout o)) (ha : { s.arr n with committed := true } = a) (hbad : ¬ a.rowsGood o) :
    Changes (exec (.wxout n) s) s n (a.faulted s.time 7 (s.fetch n (s.arr n).pc % 16) 0) (s.atIssue n) := by
  have ha' : (s.atIssue n).arr n = a := arr_atIssue.trans ha
  rw [← ha]
  refine changes_fault_atIssue h nofun rfl ?_
  dsimp only
  rw [ha', ← WxoutOps.side, Bool.eq_false_iff.mpr (mt rowsGood_iff.mp hbad)]
  rfl

end

/-! ### pool (R231 to R233) -/

/-- The window of output pixel j of a row (R232). -/
def PoolOps.window (o : PoolOps) (oy ox j : Nat) : List (Int × Int) :=
  patch ((oy : Int) * o.sh - o.padT) (((ox + j : Nat) : Int) * o.sw - o.padL) o.kh o.kw

/-- The 64 pooled channels of a window's inside pixels (R232, R233). -/
def PoolOps.lanes (o : PoolOps) (sat : Bool) (ins : List (List Byte)) : List Conv :=
  (List.range 64).map fun ch => poolValue o.average o.fmt (if o.avgPad then o.kh * o.kw else ins.length) sat
    (ins.map fun bs => fieldAt bs (ch * mapElem o.fmt) (mapElem o.fmt))

/-- Whether a channel's sum overflows in a window (R233). -/
def PoolOps.overflows (o : PoolOps) (ins : List (List Byte)) : Bool :=
  (List.range 64).any fun ch => poolOverflow o.average o.fmt (ins.map fun bs => fieldAt bs (ch * mapElem o.fmt) (mapElem o.fmt))

/-- What a window comes to: whether it is empty, its pooled channels and whether a sum of it overflows. -/
def PoolOps.result (o : PoolOps) (sat : Bool) (ins : List (List Byte)) : Bool × List Conv × Bool :=
  (ins.isEmpty, o.lanes sat ins, o.overflows ins)

/-- What pool counts: its conversions, an overflow and its empty windows, each window given by its inside pixels
(R66, R232, R233). -/
def State.notePool (s : State) (n : ArrayNum) (o : PoolOps) (sat : Bool) (ins : Nat → List (List Byte)) : State :=
  ((s.noteConvs n ((List.range o.count).flatMap fun j => o.lanes sat (ins j))).noteOverflow n
    ((List.range o.count).any fun j => o.overflows (ins j))).noteFound (F.cnvStatusPoolEmpty n) (F.cnvPoolEmptyWindows n)
      ((List.range o.count).filter fun j => (ins j).isEmpty).length

theorem length_patch (y x : Int) (h w : Nat) : (patch y x h w).length = h * w := by simp [patch]

/-- Of lists of one length that follow one another, the part in the place of list j is list j. -/
theorem take_drop_flatMap_range {α : Type} {f : Nat → List α} {k c j : Nat} (hk : ∀ i, (f i).length = k) (hj : j < c) :
    (((List.range c).flatMap f).drop (j * k)).take k = f j := by
  have hlen : ∀ i, ((List.range i).flatMap f).length = i * k := fun i => by simp [List.length_flatMap, hk]
  induction c with
  | zero => exact absurd hj (Nat.not_lt_zero j)
  | succ c ih =>
    rw [List.range_succ, List.flatMap_append, List.flatMap_singleton]
    rcases Nat.lt_succ_iff_lt_or_eq.mp hj with hlt | rfl
    · have hle : j * k + k ≤ c * k := by simpa [Nat.succ_mul] using Nat.mul_le_mul_right k hlt
      rw [List.drop_append_of_le_length (by rw [hlen]; omega), List.take_append_of_le_length
        (by rw [List.length_drop, hlen]; omega), ih hlt]
    · rw [List.drop_left' (hlen j), List.take_of_length_le (hk j).le]

section
variable {s : State} {n : ArrayNum} {o : PoolOps} {a : ArrayState} {src dst : MapDesc} {oy ox : Nat}

theorem notePool_withMem (mem : List Host.Cell) (sat : Bool) (ins : Nat → List (List Byte)) :
    (s.withMem mem).notePool n o sat ins = (s.notePool n o sat ins).withMem mem := by
  rw [State.notePool, noteConvs_withMem, noteOverflow_withMem, noteFound_withMem, State.notePool]

theorem notePool_near {t : State} {sat : Bool} {ins : Nat → List (List Byte)} (h : t.near s n) :
    (t.notePool n o sat ins).near s n :=
  near_of_based (near_of_based (noteConvs_near h) (State.noteOverflow_based State.based_refl)) noteFound_based

/-- The windows of what a pool has read, each with its inside pixels. -/
theorem results_read {f : Int × Int → Option (List Byte)} {px : List (Option (List Byte))} {sat : Bool}
    {ins : Nat → List (List Byte)} (hpx : ((List.range o.count).flatMap (o.window oy ox)).map f = px)
    (hins : ∀ j, ins j = (o.window oy ox j).filterMap f) :
    ((List.range o.count).map fun j => o.result sat (((px.drop (j * (o.kh * o.kw))).take (o.kh * o.kw)).filterMap id))
      = (List.range o.count).map fun j => o.result sat (ins j) := by
  refine List.map_congr_left fun j hj => ?_
  have hwindow := take_drop_flatMap_range (f := o.window oy ox) (fun i => length_patch ..) (List.mem_range.mp hj)
  rw [← hpx, ← List.map_drop, ← List.map_take, hwindow, List.filterMap_map, hins]
  rfl

/-- A pool of which a map does not serve the channels faults (R213). -/
theorem changes_pool_unserved (h : s.Issues n (.pool o)) (hsrc : (s.atIssue n).mapDesc n o.src = src)
    (hdst : (s.atIssue n).mapDesc n o.dst = dst)
    (hserve : src.serves (64 * o.cgrp * mapElem o.fmt + 64 * mapElem o.fmt) = false
      ∨ dst.serves (64 * o.cgrp * mapElem o.fmt + 64 * mapElem o.fmt) = false) :
    Changes (exec (.pool n) s) s n
      (({ s.arr n with committed := true } : ArrayState).faulted s.time 1 (s.fetch n (s.arr n).pc % 16) 0) (s.atIssue n) := by
  refine changes_fault_atIssue h nofun rfl ?_
  dsimp only
  rw [hsrc, hdst, if_pos (by rcases hserve with h | h <;> simp [h])]

/-- A pool on good places writes its pooled pixels (R232, R233). -/
theorem wrote_pool (h : s.Issues n (.pool o)) (hc : s.clean) (hce : s.ce = [])
    (hsrc : (s.atIssue n).mapDesc n o.src = src) (hdst : (s.atIssue n).mapDesc n o.dst = dst)
    (hoy : ({ s.arr n with committed := true } : ArrayState).a o.orgReg % 65536 = oy)
    (hox : ({ s.arr n with committed := true } : ArrayState).a o.orgReg / 65536 = ox)
    (hserve : src.serves (64 * o.cgrp * mapElem o.fmt + 64 * mapElem o.fmt) = true)
    (hserve' : dst.serves (64 * o.cgrp * mapElem o.fmt + 64 * mapElem o.fmt) = true)
    (hout : ∀ j < o.count, dst.inside oy ((ox + j : Nat) : Int) = true
      ∧ dst.addr oy (ox + j) (64 * o.cgrp * mapElem o.fmt) + 64 * mapElem o.fmt ≤ spoolSize)
    (hread : src.readable (64 * o.cgrp * mapElem o.fmt) (64 * mapElem o.fmt) ((List.range o.count).flatMap (o.window oy ox)))
    {ins : Nat → List (List Byte)}
    (hins : ∀ j, ins j = (o.window oy ox j).filterMap (s.pixel n src (64 * o.cgrp * mapElem o.fmt) (64 * mapElem o.fmt))) :
    Wrote (exec (.pool n) s) s n (.pool o)
      ((List.range o.count).map fun j => (dst.addr oy (ox + j) (64 * o.cgrp * mapElem o.fmt),
        (o.lanes ((s.atIssue n).fp8Sat n) (ins j)).flatMap fun v => leBytes (mapElem o.fmt) v.bits))
      ((s.atIssue n).notePool n o ((s.atIssue n).fp8Sat n) ins) := by
  have hpx := readPixels_atIssue (n := n) hc hce hread
  generalize hread' : ((List.range o.count).flatMap (o.window oy ox)).map _ = px at hpx
  have hres := results_read (sat := (s.atIssue n).fp8Sat n) hread' hins
  refine wrote_pieces (g := fun t => t.notePool n o ((s.atIssue n).fp8Sat n) ins) h nofun rfl hc hce
    (fun _ _ => notePool_withMem ..) (notePool_near atIssue_near) ?_
  unfold PoolOps.result PoolOps.lanes PoolOps.overflows at hres
  unfold PoolOps.window at hpx
  dsimp only
  rw [arr_atIssue, hsrc, hdst, hoy, hox, hserve, hserve', List.findSome?_eq_none_iff.mpr ?places, hpx]
  case places =>
    intro j hj
    obtain ⟨hin, hfits⟩ := hout j (List.mem_range.mp hj)
    rw [hin, if_neg (by simp), if_neg (Nat.not_lt.mpr hfits)]
  dsimp only
  rw [hres, zipIdx_map_range, List.filter_map, List.length_map, List.flatMap_map, List.any_map, List.map_map]
  rfl

end

/-! ### argmax (R234, R235) -/

/-- Bytes of an index in a mask (R235). -/
def ArgmaxOps.width (o : ArgmaxOps) : Nat := if o.wide then 2 else 1

/-- The pixels of an argmax (R235). -/
def ArgmaxOps.pixels (o : ArgmaxOps) (y x : Nat) : List (Int × Int) :=
  (List.range o.count).map fun j => ((y : Int), ((x + j : Nat) : Int))

/-- The largest channel of a pixel (R235). -/
def ArgmaxOps.best (o : ArgmaxOps) (px : Option (List Byte)) : Option Nat :=
  argmaxOf ((List.range o.channels).map fun ch => mapVal o.fmt (fieldAt (px.getD []) (ch * mapElem o.fmt) (mapElem o.fmt)))

section
variable {s : State} {n : ArrayNum} {o : ArgmaxOps} {src dst : MapDesc} {y x : Nat}

theorem writePieces_singleton (off : Nat) (bs : List Byte) : s.writePieces n [(off, bs)] = s.unitWrite n off bs := by
  simp [State.writePieces]

/-- An argmax of which the score map does not serve the channels, or the mask has no pixel stride, faults (R213). -/
theorem changes_argmax_unserved (h : s.Issues n (.argmax o)) (hsrc : (s.atIssue n).mapDesc n o.src = src)
    (hdst : (s.atIssue n).mapDesc n o.dst = dst) (hserve : src.serves (o.channels * mapElem o.fmt) = false ∨ dst.px = 0) :
    Changes (exec (.argmax n) s) s n
      (({ s.arr n with committed := true } : ArrayState).faulted s.time 1 (s.fetch n (s.arr n).pc % 16) 0) (s.atIssue n) := by
  refine changes_fault_atIssue h nofun rfl ?_
  dsimp only
  rw [hsrc, hdst, if_pos (by rcases hserve with h | h <;> simp [h])]

/-- An argmax on good places writes its indices (R235). -/
theorem wrote_argmax (h : s.Issues n (.argmax o)) (hc : s.clean) (hce : s.ce = [])
    (hsrc : (s.atIssue n).mapDesc n o.src = src) (hdst : (s.atIssue n).mapDesc n o.dst = dst)
    (hy : ({ s.arr n with committed := true } : ArrayState).a o.orgReg % 65536 = y)
    (hx : ({ s.arr n with committed := true } : ArrayState).a o.orgReg / 65536 = x)
    (hserve : src.serves (o.channels * mapElem o.fmt) = true) (hstride : dst.px ≠ 0)
    (hfits : dst.base + y * dst.ln * 64 + x * o.width + o.count * o.width ≤ spoolSize)
    (hin : ∀ p ∈ o.pixels y x, src.inside p.1 p.2 = true ∧ dst.inside p.1 p.2 = true)
    (hread : src.readable 0 (o.channels * mapElem o.fmt) (o.pixels y x)) {idx : List (Option Nat)}
    (hidx : ((o.pixels y x).map fun p => o.best (s.pixel n src 0 (o.channels * mapElem o.fmt) p)) = idx) :
    Wrote (exec (.argmax n) s) s n (.argmax o)
      [(dst.base + y * dst.ln * 64 + x * o.width, idx.flatMap fun v => leBytes o.width (v.getD (256 ^ o.width - 1)))]
      ((s.atIssue n).noteFound (F.cnvStatusArgmaxNan n) (F.cnvArgmaxNanPixels n) (idx.filter (·.isNone)).length) := by
  have hpx := readPixels_atIssue (n := n) hc hce hread
  unfold ArgmaxOps.pixels at hpx
  refine wrote_pieces (g := fun t => t.noteFound (F.cnvStatusArgmaxNan n) (F.cnvArgmaxNanPixels n)
    (idx.filter (·.isNone)).length) h nofun rfl hc hce (fun _ _ => noteFound_withMem ..)
    (near_of_based atIssue_near noteFound_based) ?_
  rw [writePieces_singleton]
  dsimp only
  rw [arr_atIssue, hsrc, hdst, hy, hx, ← ArgmaxOps.width, hserve, beq_eq_false_iff_ne.mpr hstride,
    List.find?_eq_none.mpr ?pixels, List.find?_eq_none.mpr ?mask, hpx]
  case pixels =>
    intro p hp
    obtain ⟨hs, hd⟩ := hin p hp
    simp [hs, hd]
  case mask =>
    intro off hoff
    obtain ⟨j, hj, rfl⟩ := List.mem_map.mp hoff
    have hlast : (j + 1) * o.width ≤ o.count * o.width := Nat.mul_le_mul_right _ (List.mem_range.mp hj)
    rw [Nat.succ_mul] at hlast
    simp only [decide_eq_true_eq, not_lt]
    omega
  dsimp only
  rw [List.map_map]
  subst hidx
  rfl

end

/-! ### The obligation on the transform unit -/

/-- Settles O20, instruction by instruction. -/
theorem transformsAndPooling : Obligations.TransformsAndPooling := by
  intro n s hc hce u a cls pixel readable
  refine ⟨fun o h => ?_, fun o h => ?_, fun o h => ?_, fun o h => ?_⟩
  · intro m e nn el sc org ps px
    refine ⟨changes_wxin_unserved h rfl, fun hserve hread hel => ⟨fun hfmt hsc => ?_, fun hfmt => ?_⟩⟩
    · have hside : nn = 4 := if_pos hfmt
      clear_value nn
      subst hside
      exact wrote_wxin_int8 h hc hce rfl rfl hfmt hserve hread hel hsc rfl
    · have hside : nn = 6 := if_neg hfmt
      clear_value nn
      subst hside
      exact wrote_wxin_conv h hc hce rfl rfl hfmt hserve hread hel rfl
  · exact ⟨changes_wxout h rfl, changes_wxout_bad h rfl⟩
  · exact ⟨changes_pool_unserved h rfl rfl, fun hserve hserve' hout hread =>
      wrote_pool h hc hce rfl rfl rfl rfl hserve hserve' hout hread fun _ => rfl⟩
  · exact ⟨changes_argmax_unserved h rfl rfl, fun hserve hstride hfits hin hread =>
      wrote_argmax h hc hce rfl rfl rfl rfl hserve hstride hfits hin hread rfl⟩

end Sys2Proof.Machine
end

section
/-!
PROOFS. What serving leaves alone (R173, R179, R243, R259 to R268): the ends of requests and the updates that follow them change
registers, records, the reel, conversations and the ledger's queue, and spare the conversations whose request has ended.
-/

namespace Sys2Proof.Machine

/-- t is s but for registers, records, the board's share in them, the reel, conversations and the ledger's queue. -/
def State.serveOver (t s : State) : Prop :=
  t = { s with
    regs := t.regs, events := t.events, board := t.board, reel := t.reel, srv := { s.srv with convs := t.srv.convs }
    twn := { s.twn with ledger := { s.twn.ledger with pending := t.twn.ledger.pending } } }

/-- Ends of other requests do not reach request i: it has ended, or it is Ending with the one code that no other replaces (R243). -/
def State.past (s : State) (i : Nat) : Prop := ∀ r, s.request i = some r → r.phase = .ending 6

/-- t is s as ends of requests and updates leave it, and no conversation has changed whose request they do not reach. -/
structure State.spares (t s : State) : Prop where
  frame : t.serveOver s
  conv : ∀ i, s.past i → t.conv i = s.conv i

section
variable {r s t : State} {p : PartNum} {i j : Nat}

/-! ### The frame -/

theorem State.serveOver.trans (h : t.serveOver s) (g : s.serveOver r) : t.serveOver r :=
  Eq.trans h (congrArg (fun u : State => { u with
    regs := t.regs, events := t.events, board := t.board, reel := t.reel, srv := { u.srv with convs := t.srv.convs }
    twn := { u.twn with ledger := { u.twn.ledger with pending := t.twn.ledger.pending } } }) g)

theorem State.reels.serveOver (h : t.reels s) : t.serveOver s := by
  unfold State.serveOver
  rw [h.frame]

theorem State.regsOver.serveOver (h : t.regsOver s) : t.serveOver s := by
  unfold State.serveOver
  rw [h]

theorem State.serveOver.mem (h : t.serveOver s) : t.mem = s.mem := by rw [h]

theorem State.serveOver.pcieMem (h : t.serveOver s) : t.pcieMem = s.pcieMem := by rw [h]

theorem State.serveOver.arrays (h : t.serveOver s) : t.arrays = s.arrays := by rw [h]

theorem State.serveOver.posted (h : t.serveOver s) : t.srv.posted = s.srv.posted := by rw [h]

theorem State.serveOver.badEntries (h : t.serveOver s) : t.srv.badEntries = s.srv.badEntries := by rw [h]

theorem modReq_serveOver {f : Request → Request} : (s.modReq i f).serveOver s := rfl

theorem noteRequest_serveOver : (s.noteRequest i).serveOver s := by
  unfold State.noteRequest State.ledger
  dsimp only
  split <;> rfl

theorem setPhase_serveOver {ph : ReqPhase} : (s.setPhase i ph).serveOver s := noteRequest_serveOver.trans modReq_serveOver

theorem srv_noteRequest : (s.noteRequest i).srv = s.srv := by rw [noteRequest_twn]

/-! ### Conversations that are spared -/

theorem request_of_conv (h : t.conv i = s.conv i) : t.request i = s.request i := by rw [State.request, h, State.request]

theorem past_of_none (h : s.request i = none) : s.past i := fun r hr => by rw [h] at hr; cases hr

theorem State.spares_refl : s.spares s := ⟨rfl, fun _ _ => rfl⟩

theorem State.spares.past (h : t.spares s) (hp : s.past i) : t.past i := fun r hr => hp r (request_of_conv (h.conv i hp) ▸ hr)

theorem State.spares.trans (h : t.spares s) (g : s.spares r) : t.spares r :=
  ⟨h.frame.trans g.frame, fun i hi => (h.conv i (g.past hi)).trans (g.conv i hi)⟩

theorem State.reels.spares (h : t.reels s) : t.spares s := ⟨h.serveOver, fun i _ => conv_congr h.srv i⟩

theorem spares_choice {c : Prop} [Decidable c] (ht : t.spares s) (hr : r.spares s) : State.spares (if c then t else r) s := by
  split
  · exact ht
  · exact hr

/-! ### Requests that end (R243, R259) -/

/-- The start of an end changes the request that ends. -/
theorem conv_toEnding {code : Nat} (h : i ≠ j) : (s.toEnding j code).conv i = s.conv i := by
  rw [State.toEnding, State.setPhase, conv_congr srv_noteRequest, State.modReq, conv_modConv, if_neg h, State.modReq, conv_modConv,
    if_neg h]

theorem toEnding_serveOver {code : Nat} : (s.toEnding i code).serveOver s := setPhase_serveOver.trans modReq_serveOver

/-- A request enters Ending, or stays as it is where it was in Ending and may not take the code. -/
theorem enterEnding_cases (i code source : Nat) (ecc : Option Word) :
    (s.enterEnding i code ecc source = s) ∨
      (¬ s.past i ∧ (s.enterEnding i code ecc source).reels (s.toEnding i code)) := by
  unfold State.enterEnding
  split
  · exact .inl rfl
  · next q hq =>
    extract_lets was p keeps ended updated
    have hupdated : State.reels updated (s.toEnding i code) := by
      unfold updated
      split
      · exact State.reels_refl
      · exact seqUpdate_reels
    split
    · exact .inl rfl
    · next hwas =>
      refine .inr ⟨fun hpast => hwas ?_, ?_⟩
      · have hw : was = some 6 := by
          unfold was
          rw [hpast q hq]
        simp [hw]
      · split
        · exact serveEvent_noted.reels.trans hupdated
        · split
          · exact serveEvent_noted.reels.trans hupdated
          · exact hupdated

theorem enterEnding_spares {code source : Nat} {ecc : Option Word} : (s.enterEnding i code ecc source).spares s := by
  rcases enterEnding_cases (s := s) i code source ecc with h | ⟨hreach, h⟩
  · rw [h]
    exact State.spares_refl
  · refine ⟨h.serveOver.trans toEnding_serveOver, fun j hj => ?_⟩
    have hne : j ≠ i := fun e => hreach (e ▸ hj)
    rw [conv_congr h.srv, conv_toEnding hne]

/-! ### Pools that are rebuilt or tried again (R173, R261, R263) -/

theorem poolFail_spares : (s.poolFail p).spares s :=
  poolsGive_gives.reels.spares.trans (rebuildPools_reworks.reels.spares.trans
    (foldl_over (R := State.spares) (fun _ => State.spares_refl) State.spares.trans fun _ _ => enterEnding_spares))

theorem poolCheck_spares {vault tier : Bool} : (s.poolCheck p vault tier).spares s :=
  spares_choice (poolFail_spares.trans (reelScan_noted p _).reels.spares) (reelScan_noted p _).reels.spares

theorem poolsRetry_spares : (s.poolsRetry p).spares s := poolsGive_gives.reels.spares.trans poolCheck_spares

theorem endRequest_spares {code source : Nat} {ecc : Option Word} : (s.endRequest i code ecc source).spares s :=
  poolsRetry_spares.trans enterEnding_spares

theorem flushUpdates_spares : (s.flushUpdates p).spares s :=
  spares_choice State.spares_refl (poolsRetry_spares.trans seqFlush_reels.spares)

theorem update_spares {v : SeqUpdate} : (s.update p v).spares s := seqUpdate_reels.spares.trans flushUpdates_spares

theorem holdStart_spares : (s.holdStart i).spares s :=
  spares_choice (holdMove_gives.reels.spares.trans poolCheck_spares) State.spares_refl

/-! ### Conversations that are released or kept (R238, R243, R260 to R264) -/

/-- A conversation as its release leaves it (R264). -/
def releasedConvo (v : Convo) : Convo :=
  { v with
    live := false, request := v.request.map fun r => { r with phase := .ended }, deadline := none, holdUntil := none, tokens := [] }

theorem convRequest_of_request {q : Request} (h : s.request i = some q) : (s.conv i).request = some q ∧ q.phase ≠ .ended := by
  unfold State.request at h
  split at h
  · next v hv =>
    split at h
    · cases h
    · next hne =>
      cases h
      exact ⟨hv, hne⟩
  · cases h

/-- A request that has ended is none. -/
theorem request_ended (h : ∀ q, (s.conv i).request = some q → q.phase = .ended) : s.request i = none := by
  unfold State.request
  split
  · next q hq => exact if_pos (h q hq)
  · rfl

theorem request_released {v : Convo} (h : s.conv i = releasedConvo v) : s.request i = none := by
  refine request_ended fun q hq => ?_
  rw [h, releasedConvo, Option.map_eq_some_iff] at hq
  obtain ⟨_, -, rfl⟩ := hq
  rfl

/-- A released conversation is not live, and what its release sets going spares it. -/
theorem releaseConv_shows : (s.releaseConv i).serveOver s ∧ (s.releaseConv i).conv i = releasedConvo (s.conv i) := by
  unfold State.releaseConv
  extract_lets p u
  have hu : State.serveOver u s := noteRequest_serveOver.trans rfl
  have hconv : u.conv i = releasedConvo (s.conv i) :=
    (conv_congr srv_noteRequest i).trans (conv_modConv.trans ((if_pos rfl).trans rfl))
  have hspares : ((u.update p (.release i)).poolsRetry p).spares u := poolsRetry_spares.trans update_spares
  exact ⟨hspares.frame.trans hu, (hspares.conv i (past_of_none (request_released hconv))).trans hconv⟩

/-- A conversation that is kept when its request ends with a code at a time (R260, R261). -/
def keptConvo (v : Convo) (q : Request) (code : Nat) (time : DWord) : Convo :=
  { v with
    keep := true, tokens := v.tokens.take (v.tokens.length - q.left)
    deadline := some (time + BitVec.ofNat 64 (q.desc.ttlMs * 100000))
    holdUntil := some (time + BitVec.ofNat 64 (q.desc.holdMs * 100000))
    request := some { q with code := code, phase := .ended } }

/-- The state in which a request has ended in a conversation that is kept, its sequence not yet paused. -/
def State.keepConv (s : State) (i : Nat) (q : Request) (code : Nat) : State :=
  ((s.modReq i fun r => { r with code := code }).modConv i fun v => { v with
    keep := true, tokens := v.tokens.take (v.tokens.length - q.left)
    deadline := some (s.time + BitVec.ofNat 64 (q.desc.ttlMs * 100000))
    holdUntil := some (s.time + BitVec.ofNat 64 (q.desc.holdMs * 100000)) }).setPhase i .ended

theorem requestEnded_eq {q : Request} {code : Nat} (hq : s.request i = some q) :
    s.requestEnded i code =
      if q.desc.keep = true ∧ 1 ≤ code ∧ code ≤ 4 then
        ((s.keepConv i q code).update (s.conv i).part (.pause i)).holdStart i
      else ((s.modReq i fun r => { r with code := code }).setPhase i .ended).releaseConv i := by
  unfold State.requestEnded
  dsimp only
  rw [(convRequest_of_request hq).1]
  rfl

theorem conv_keepConv {q : Request} {code : Nat} (hq : s.request i = some q) :
    (s.keepConv i q code).conv i = keptConvo (s.conv i) q code s.time := by
  rw [State.keepConv, State.setPhase, conv_congr srv_noteRequest, State.modReq, conv_modConv, if_pos rfl, conv_modConv, if_pos rfl,
    State.modReq, conv_modConv, if_pos rfl, (convRequest_of_request hq).1]
  rfl

/-- A request that ends in a conversation that is kept (R243, R260). -/
theorem requestEnded_keeps {q : Request} {code : Nat} (hq : s.request i = some q)
    (h : q.desc.keep = true ∧ 1 ≤ code ∧ code ≤ 4) :
    (s.requestEnded i code).serveOver s ∧ (s.requestEnded i code).conv i = keptConvo (s.conv i) q code s.time := by
  rw [requestEnded_eq hq, if_pos h]
  have hover : (s.keepConv i q code).serveOver s := setPhase_serveOver.trans rfl
  have hconv := conv_keepConv (code := code) hq
  generalize s.keepConv i q code = u at hover hconv
  have hended : u.request i = none := request_ended fun r hr => by
    rw [hconv] at hr
    cases hr
    rfl
  have hspares : ((u.update (s.conv i).part (.pause i)).holdStart i).spares u := holdStart_spares.trans update_spares
  exact ⟨hspares.frame.trans hover, (hspares.conv i (past_of_none hended)).trans hconv⟩

/-- A request that ends in a conversation that is not kept (R243). -/
theorem requestEnded_releases {q : Request} {code : Nat} (hq : s.request i = some q)
    (h : ¬ (q.desc.keep = true ∧ 1 ≤ code ∧ code ≤ 4)) :
    (s.requestEnded i code).serveOver s ∧ ∃ v, (s.requestEnded i code).conv i = releasedConvo v := by
  rw [requestEnded_eq hq, if_neg h]
  obtain ⟨hover, hconv⟩ := releaseConv_shows (s := (s.modReq i fun r => { r with code := code }).setPhase i .ended) (i := i)
  exact ⟨hover.trans (setPhase_serveOver.trans rfl), _, hconv⟩

end

end Sys2Proof.Machine
end

section
/-!
PROOFS. Token rings (R255 to R260): what reading a consumed count and writing a record come to, a stalled request whose ring has room
again, and the end record.
-/

namespace Sys2Proof.Machine

/-- t has s's serving state, arrays and time. -/
structure State.sameServing (t s : State) : Prop where
  srv : t.srv = s.srv
  arrays : t.arrays = s.arrays
  time : t.time = s.time

/-- The consumed count that stands in a request's control block (R258). -/
def State.consumedAt (s : State) (d : ReqDesc) : Nat := fieldAt (s.blockRead (d.ctlAddr + 32) 8) 0 8

/-- A request whose ring has been read: its consumed count is n. -/
def Request.readAt (q : Request) (n : Nat) : Request := { q with consumed := n, ringBad := false }

/-- A record of eight bytes in a request's ring, and then the new produced count (R255 to R257). -/
def State.putRecord (s : State) (q : Request) (bytes : List Byte) : State :=
  (s.blockWrite (q.desc.ringAddr + 8 * (q.produced % q.desc.records)) bytes).blockWrite q.desc.ctlAddr (leBytes 8 (q.produced + 1))

section
variable {r s t : State} {i n : Nat} {q : Request}

/-! ### Requests that change -/

theorem conv_modReq {f : Request → Request} :
    (s.modReq i f).conv i = { s.conv i with request := (s.conv i).request.map f } := by
  rw [State.modReq, conv_modConv, if_pos rfl]

theorem conv_setPhase {ph : ReqPhase} : (s.setPhase i ph).conv i = (s.modReq i fun r => { r with phase := ph }).conv i :=
  conv_congr srv_noteRequest i

/-! ### Bytes written to a ring -/

theorem State.sameServing.trans (h : t.sameServing s) (g : s.sameServing r) : t.sameServing r :=
  ⟨h.srv.trans g.srv, h.arrays.trans g.arrays, h.time.trans g.time⟩

theorem State.readOver.sameServing (h : t.readOver s) : t.sameServing s :=
  ⟨(congrArg State.srv h.1).trans rfl, h.2, (congrArg State.time h.1).trans rfl⟩

theorem write_sameServing {a : Nat} {bs : List Byte} : (s.write a bs).sameServing s :=
  State.sameServing.trans ⟨State.store_srv .., State.store_arrays .., State.store_time ..⟩
    (countWrite_counted.readOver.trans (countMerge_counted.readOver.trans mergeReads_based.readOver)).sameServing

theorem blockWrite_sameServing {a : Nat} {bs : List Byte} : (s.blockWrite a bs).sameServing s := by
  unfold State.blockWrite
  split
  · split
    · exact ⟨rfl, rfl, rfl⟩
    · exact ⟨rfl, rfl, rfl⟩
  · exact write_sameServing

theorem putRecord_sameServing {bs : List Byte} : (s.putRecord q bs).sameServing s :=
  blockWrite_sameServing.trans blockWrite_sameServing

theorem writeRecord_eq (hq : s.request i = some q) {token last code logprob pos : Nat} :
    s.writeRecord i token last code logprob pos =
      (s.putRecord q (leBytes 8 (token % 0x40000 + last * 0x40000 + code * 0x80000 + logprob % 0x10000 * 2 ^ 32
        + pos % 0x10000 * 2 ^ 48))).modReq i fun r => { r with produced := r.produced + 1 } := by
  unfold State.writeRecord
  rw [hq]
  rfl

/-! ### The consumed count (R258) -/

/-- A count that does not pass the produced one, nor lies a whole ring behind, is taken. -/
theorem readConsumed_good (hq : s.request i = some q) (hn : s.consumedAt q.desc ≤ q.produced)
    (hroom : q.produced - s.consumedAt q.desc ≤ q.desc.records) :
    s.readConsumed i = s.modReq i fun r => r.readAt (s.consumedAt q.desc) := by
  unfold State.readConsumed
  rw [hq]
  exact if_pos ⟨hn, hroom⟩

theorem ringFree_readAt (hn : n ≤ q.produced) (hroom : q.produced - n < q.desc.records) (hstep : q.inStep = false) :
    (q.readAt n).ringFree = true := by
  simp only [Request.ringFree, Request.readAt, hstep, Bool.not_false, Bool.false_and, Bool.true_and, decide_eq_true_eq]
  simp
  omega

theorem request_readConsumed (hq : s.request i = some q) : (s.modReq i fun r => r.readAt n).request i = some (q.readAt n) :=
  request_modReq hq (convRequest_of_request hq).2

end

section
variable {s : State} {i : Fin 16384} {hw : HostStores} {q : Request}

/-! ### Stalled requests (R243, R258) -/

/-- A stalled request whose ring has room again decodes. -/
theorem exec_stalledRingReread_free (hq : (s.hostStores hw).request i = some q) (hph : q.phase = .stalled)
    (hserving : (s.hostStores hw).serving = true) (hn : (s.hostStores hw).consumedAt q.desc ≤ q.produced)
    (hroom : q.produced - (s.hostStores hw).consumedAt q.desc < q.desc.records) (hstep : q.inStep = false) :
    exec (.stalledRingReread i hw) s = .next
      (((s.hostStores hw).modReq i fun r => r.readAt ((s.hostStores hw).consumedAt q.desc)).setPhase i .decode) := by
  refine congrArg Host.Outcome.next ?_
  dsimp only
  rw [hq]
  dsimp only
  rw [if_pos ⟨hph, hserving⟩, readConsumed_good hq hn hroom.le, State.unstall, request_readConsumed hq]
  exact if_pos ⟨hph, ringFree_readAt hn hroom hstep⟩

/-- The clause of O57 on stalled requests. -/
theorem stalledRingReread_clause (hq : (s.hostStores hw).request i = some q) (hph : q.phase = .stalled)
    (hserving : (s.hostStores hw).serving = true) (hn : (s.hostStores hw).consumedAt q.desc ≤ q.produced)
    (hroom : q.produced - (s.hostStores hw).consumedAt q.desc < q.desc.records) (hstep : q.inStep = false) :
    ∃ t, exec (.stalledRingReread i hw) s = .next t
      ∧ (t.request i).map (fun r => (r.phase, r.consumed)) = some (.decode, (s.hostStores hw).consumedAt q.desc)
      ∧ t.mem = s.mem ∧ t.arrays = s.arrays := by
  have hover := (setPhase_serveOver (ph := .decode) (i := i)).trans
    (modReq_serveOver (s := s.hostStores hw) (i := i) (f := fun r => r.readAt ((s.hostStores hw).consumedAt q.desc)))
  refine ⟨_, exec_stalledRingReread_free hq hph hserving hn hroom hstep, ?_, hover.mem, hover.arrays⟩
  rw [request_setPhase (ph := .decode) (request_readConsumed hq) nofun]
  rfl

/-! ### End records (R259, R260) -/

/-- The state in which the end record is written. -/
def State.endWritten (s : State) (i : Nat) (q : Request) (code : Nat) : State :=
  (s.modReq i fun r => r.readAt (s.consumedAt q.desc)).writeRecord i 0x3FFFF 1 code 0
    ((s.modReq i fun r => r.readAt (s.consumedAt q.desc)).conv i).tokens.length

/-- The end record of a request in Ending is written where its ring has room, and the request ends. -/
theorem exec_endRecordWrite_free {code : Nat} (hq : (s.hostStores hw).request i = some q) (hph : q.phase = .ending code)
    (hheld : (s.hostStores hw).deadlinesHeld = false) (hn : (s.hostStores hw).consumedAt q.desc ≤ q.produced)
    (hroom : q.produced - (s.hostStores hw).consumedAt q.desc < q.desc.records) (hstep : q.inStep = false) :
    exec (.endRecordWrite i hw) s = .next (((s.hostStores hw).endWritten i q code).requestEnded i code) := by
  refine congrArg Host.Outcome.next ?_
  dsimp only
  rw [hq]
  dsimp only
  rw [hph]
  dsimp only
  rw [hheld, if_neg Bool.false_ne_true, readConsumed_good hq hn hroom.le, State.writeEnd, request_readConsumed hq]
  dsimp only
  rw [show (q.readAt ((s.hostStores hw).consumedAt q.desc)).phase = .ending code from hph]
  exact if_pos (ringFree_readAt hn hroom hstep)

/-- The end record's writing leaves the request and its conversation, but for the ring's counts. -/
theorem endWritten_shows {s : State} {i code : Nat} (hq : s.request i = some q) :
    (s.endWritten i q code).request i = some { q.readAt (s.consumedAt q.desc) with produced := q.produced + 1 } ∧
      (s.endWritten i q code).time = s.time ∧ ((s.endWritten i q code).conv i).live = (s.conv i).live ∧
      ((s.endWritten i q code).conv i).tokens = (s.conv i).tokens := by
  have hread := request_readConsumed (n := s.consumedAt q.desc) hq
  rw [State.endWritten, writeRecord_eq hread]
  generalize leBytes 8 _ = bytes
  have hput : ((s.modReq i fun r => r.readAt (s.consumedAt q.desc)).putRecord (q.readAt (s.consumedAt q.desc)) bytes).sameServing
      (s.modReq i fun r => r.readAt (s.consumedAt q.desc)) := putRecord_sameServing
  generalize State.putRecord _ _ bytes = u at hput
  have hu : u.request i = some (q.readAt (s.consumedAt q.desc)) := (request_congr hput.srv i).trans hread
  refine ⟨request_modReq hu (convRequest_of_request hu).2, hput.time, ?_, ?_⟩
  · rw [conv_modReq, conv_congr hput.srv, conv_modReq]
  · rw [conv_modReq, conv_congr hput.srv, conv_modReq]

/-- The clause of O57 on end records. -/
theorem endRecordWrite_clause {code : Nat} (hq : (s.hostStores hw).request i = some q) (hph : q.phase = .ending code)
    (hheld : (s.hostStores hw).deadlinesHeld = false) (hn : (s.hostStores hw).consumedAt q.desc ≤ q.produced)
    (hroom : q.produced - (s.hostStores hw).consumedAt q.desc < q.desc.records) (hstep : q.inStep = false) :
    ∃ t, exec (.endRecordWrite i hw) s = .next t ∧ t.request i = none
      ∧ (q.desc.keep = true → 1 ≤ code → code ≤ 4 → (t.conv i).live = (s.conv i).live
          ∧ (t.conv i).tokens = (s.conv i).tokens.take ((s.conv i).tokens.length - q.left)
          ∧ (t.conv i).deadline = some (s.time + BitVec.ofNat 64 (q.desc.ttlMs * 100000)))
      ∧ ((q.desc.keep = false ∨ code = 0 ∨ 4 < code) → (t.conv i).live = false ∧ (t.conv i).tokens = []) := by
  obtain ⟨hr, htime, hlive, htokens⟩ := endWritten_shows (code := code) hq
  have hconv : (s.hostStores hw).conv i = s.conv i := rfl
  refine ⟨_, exec_endRecordWrite_free hq hph hheld hn hroom hstep, ?_⟩
  generalize (s.hostStores hw).endWritten i q code = u at hr htime hlive htokens
  by_cases hkeep : q.desc.keep = true ∧ 1 ≤ code ∧ code ≤ 4
  · obtain ⟨-, hend⟩ := requestEnded_keeps hr hkeep
    refine ⟨request_ended fun x hx => ?_, fun _ _ _ => ?_, fun h => ?_⟩
    · rw [hend] at hx
      cases hx
      rfl
    · rw [hend]
      exact ⟨hlive.trans (by rw [hconv]), by rw [keptConvo, htokens, hconv]; rfl, by rw [keptConvo, htime]; rfl⟩
    · rcases h with h | h
      · exact absurd (h.symm.trans hkeep.1) Bool.false_ne_true
      · omega
  · obtain ⟨-, v, hend⟩ := requestEnded_releases hr hkeep
    refine ⟨request_released hend, fun h1 h2 h3 => absurd ⟨h1, h2, h3⟩ hkeep, fun _ => ?_⟩
    rw [hend]
    exact ⟨rfl, rfl⟩

end

end Sys2Proof.Machine
end

section
/-!
PROOFS. Deadlines of conversations and requests (R261 to R263, R268): what records leave of the pauses that hold deadlines, expiry, the
vault hold, and a request that has loaded too long.
-/

namespace Sys2Proof.Machine

/-- t shows of the board what holds deadlines in s: the supply and an activation's pause. -/
structure State.holdsAs (t s : State) : Prop where
  supply : t.board.supply = s.board.supply
  pause : t.board.update.pauseAt = s.board.update.pauseAt

section
variable {r s t : State} {p : PartNum}

/-! ### What holds deadlines (R268, R475) -/

theorem State.holdsAs_refl : s.holdsAs s := ⟨rfl, rfl⟩

theorem State.holdsAs.trans (h : t.holdsAs s) (g : s.holdsAs r) : t.holdsAs r :=
  ⟨h.supply.trans g.supply, h.pause.trans g.pause⟩

theorem State.regsOver.holdsAs (h : t.regsOver s) : t.holdsAs s := by
  rw [h]
  exact ⟨rfl, rfl⟩

theorem loseFor_holdsAs {l : List (Fin 17)} : (s.loseFor l).holdsAs s := by
  refine foldl_over (R := State.holdsAs) (fun _ => State.holdsAs_refl) State.holdsAs.trans fun v x => ?_
  have h : (v.bump (F.errLostRecords x.val)).holdsAs v := addTo_regsOver.holdsAs
  exact ⟨h.supply, h.pause⟩

theorem enqueue_holdsAs {e : EventRec} : (s.enqueue e).holdsAs s := by
  unfold State.enqueue
  extract_lets seq e numbered board update kept rs held
  have hnumbered : State.holdsAs numbered s := (addTo_regsOver.trans set_regsOver).holdsAs
  have hkept : State.holdsAs kept s := ⟨hnumbered.supply, hnumbered.pause⟩
  split
  · exact ⟨hkept.supply, hkept.pause⟩
  · exact loseFor_holdsAs.trans ((raiseBit_regsOver.trans addTo_regsOver).holdsAs.trans hkept)

theorem report_holdsAs {ev : Ev} : (s.report ev).holdsAs s := by
  unfold State.report State.reportAt
  extract_lets fresh entries
  split
  · exact addTo_regsOver.holdsAs.trans ⟨rfl, rfl⟩
  · exact enqueue_holdsAs

theorem reelEcc_holdsAs {bad : Bool} : (s.reelEcc p bad).holdsAs s := by
  unfold State.reelEcc
  refine report_holdsAs.trans ?_
  split
  · exact (raiseBit_regsOver.trans addTo_regsOver).holdsAs
  · exact addTo_regsOver.holdsAs

theorem reelScan_holdsAs {hit : Nat → Bool} : (s.reelScan p hit).1.holdsAs s := by
  have hfold : ∀ {l : List Nat} {b : Bool} {v : State}, (l.foldl (fun s _ => s.reelEcc p b) v).holdsAs v :=
    foldl_over (R := State.holdsAs) (fun _ => State.holdsAs_refl) State.holdsAs.trans fun _ _ => reelEcc_holdsAs
  exact hfold.trans hfold

theorem poolCheck_holdsAs (hb : s.reel.bad = []) {vault tier : Bool} : (s.poolCheck p vault tier).holdsAs s := by
  unfold State.poolCheck
  dsimp only
  rw [reelScan_good hb, if_neg Bool.false_ne_true]
  exact reelScan_holdsAs

/-- Reading the reel's words neither ends a hold of deadlines nor begins one. -/
theorem deadlinesHeld_congr (h : t.noted s) (hb : t.holdsAs s) : t.deadlinesHeld = s.deadlinesHeld := by
  have hget : ∀ {lo k : Nat}, t.get ⟨regKey 0x46 0, lo, k, false⟩ = s.get ⟨regKey 0x46 0, lo, k, false⟩ :=
    h.2.get (uncounted_window (by decide) (by decide))
  have hgapFlag : t.flag F.twnStatusGap = s.flag F.twnStatusGap := congrArg (· != 0) hget
  have hactive : t.activeHalf = s.activeHalf := by
    rw [State.activeHalf, show t.flag F.twnStatusActiveHalf = s.flag F.twnStatusActiveHalf from congrArg (· != 0) hget,
      State.activeHalf]
  have hhalf : t.spindleHalf = s.spindleHalf := by rw [State.spindleHalf, hgapFlag, hactive, h.1.twn, State.spindleHalf]
  have hstate : ∀ x, t.halfState x = s.halfState x
    | .a => hget
    | .b => hget
  have hgap : t.gapHolds = s.gapHolds := by rw [State.gapHolds, hgapFlag, hhalf, hstate, h.1.twn, hb.supply, State.gapHolds]
  rw [State.deadlinesHeld, hgap, hb.pause, State.deadlinesHeld]

end

section
variable {s t u : State} {i : Fin 16384} {hw : HostStores} {q : Request} {d : DWord}

/-! ### While deadlines wait (R268) -/

theorem exec_endRecordWrite_held (h : (s.hostStores hw).deadlinesHeld = true) :
    exec (.endRecordWrite i hw) s = .next (s.hostStores hw) := by
  refine congrArg Host.Outcome.next ?_
  dsimp only
  split
  · split
    · exact if_pos h
    · rfl
  · rfl

theorem exec_ttlExpiry_held (h : s.deadlinesHeld = true) : exec (.ttlExpiry i) s = .next s :=
  congrArg Host.Outcome.next (if_pos (by simp [h]))

theorem holdDue_held (h : s.deadlinesHeld = true) : s.holdDue i = false := by simp [State.holdDue, h]

theorem exec_vaultHoldExpiry_held (h : s.deadlinesHeld = true) : exec (.vaultHoldExpiry i) s = .next s :=
  congrArg Host.Outcome.next (if_neg (by simp [holdDue_held h]))

theorem exec_loadingTimeout_held (h : s.deadlinesHeld = true) : exec (.loadingTimeout i) s = .next s := by
  refine congrArg Host.Outcome.next ?_
  split
  · rfl
  · dsimp only
    split
    · rfl
    · exact if_pos (by simp [h])

/-! ### Expiry (R262) -/

/-- A paused conversation's deadline that has passed, unless a command that was read in time still acts on it. -/
theorem exec_ttlExpiry_due (hheld : s.deadlinesHeld = false) (hlive : (s.conv i).live = true) (hr : s.request i = none)
    (hd : (s.conv i).deadline = some d) (hdue : d.toNat ≤ s.time.toNat) :
    exec (.ttlExpiry i) s = .next (if s.readInTime i d then s
      else ((s.serveEvent i stTtl 0 0).releaseConv i).modConv i fun v => { v with expired := some v.serial }) := by
  refine congrArg Host.Outcome.next ?_
  dsimp only
  rw [if_neg (by simp [hheld, hlive, hr]), hd]
  simp [hdue.not_gt]

/-- The clause of O57 on expiry. -/
theorem ttlExpiry_clause (hheld : s.deadlinesHeld = false) (hlive : (s.conv i).live = true) (hr : s.request i = none)
    (hd : (s.conv i).deadline = some d) (hdue : d.toNat ≤ s.time.toNat) :
    (s.readInTime i d = true → exec (.ttlExpiry i) s = .next s) ∧
    (s.readInTime i d = false → ∃ t, exec (.ttlExpiry i) s = .next t
      ∧ (t.conv i).live = false ∧ (t.conv i).expired = some (s.conv i).serial ∧ t.mem = s.mem ∧ t.arrays = s.arrays) := by
  rw [exec_ttlExpiry_due hheld hlive hr hd hdue]
  refine ⟨fun h => by rw [if_pos h], fun h => ⟨_, by rw [h, if_neg Bool.false_ne_true], ?_⟩⟩
  have hnoted : (s.serveEvent i stTtl 0 0).noted s := serveEvent_noted
  generalize s.serveEvent i stTtl 0 0 = u at hnoted
  obtain ⟨hover, hconv⟩ := releaseConv_shows (s := u) (i := i)
  have hmod : ((u.releaseConv i).modConv i fun v => { v with expired := some v.serial }).conv i
      = { releasedConvo (s.conv i) with expired := some (s.conv i).serial } := by
    rw [conv_modConv, if_pos rfl, hconv, conv_congr hnoted.1.srv]
    rfl
  rw [hmod]
  exact ⟨rfl, rfl, hover.mem.trans hnoted.1.mem, hover.arrays.trans hnoted.1.arrays⟩

/-! ### The vault hold (R261) -/

/-- A hold that is due. -/
theorem holdDue_of (hheld : s.deadlinesHeld = false) (hlive : (s.conv i).live = true) (hr : s.request i = none)
    (hd : (s.conv i).holdUntil = some d) (hdue : d.toNat ≤ s.time.toNat) (hstate : s.seqState i = 3) (htier : s.seqInTier i = false)
    (hcopy : s.copying i = false) (hfb : s.seqFallback i = false) : s.holdDue i = true := by
  simp [State.holdDue, hheld, hlive, hr, hd, hdue, hstate, htier, hcopy, hfb]

theorem holdDue_congr {i : Nat} (h : t.noted s) (hb : t.holdsAs s) : t.holdDue i = s.holdDue i := by
  unfold State.holdDue State.copying
  simp only [deadlinesHeld_congr h hb, conv_congr h.1.srv, h.request, h.seqState, h.seqInTier, h.1.reel, h.seqFallback, h.1.time]

/-- The frames of a hold that is due move, unless the tier pool is short. -/
theorem exec_vaultHoldExpiry_due (hb : s.reel.bad = []) (hdue : s.holdDue i = true) :
    ∃ u, State.noted u s ∧ (s.reel.ce = [] → u = s) ∧
      exec (.vaultHoldExpiry i) s = .next ((u.evictStart (s.conv i).part i).getD u) := by
  have hu : (s.poolCheck (s.conv i).part false true).noted s := poolCheck_noted hb
  refine ⟨_, hu, fun hc => poolCheck_clean hb hc, congrArg Host.Outcome.next ?_⟩
  rw [State.holdStart, if_pos hdue, State.holdMove, if_pos ((holdDue_congr hu (poolCheck_holdsAs hb)).trans hdue),
    conv_congr hu.1.srv]

theorem evictStart_room {p : PartNum} {i : Nat} (h : pagesOf (s.seqLen i) ≤ (s.slotPool p).length) :
    ∃ t, s.evictStart p i = some t ∧ t.gives s
      ∧ t.reel.copies = s.reel.copies
        ++ [{ part := p, seq := i, toTier := true, places := (s.slotPool p).take (pagesOf (s.seqLen i)) }]
      ∧ t.slotPool p = (s.slotPool p).drop (pagesOf (s.seqLen i)) := by
  have hsome : s.evictStart p i = some _ := if_neg h.not_gt
  exact ⟨_, hsome, evictStart_gives hsome, rfl, slotPool_setSlots⟩

theorem evictStart_short {p : PartNum} {i : Nat} (h : (s.slotPool p).length < pagesOf (s.seqLen i)) : s.evictStart p i = none :=
  if_pos h

/-- The clause of O57 on the end of the vault hold. -/
theorem vaultHoldExpiry_clause (hb : s.reel.bad = []) (hdue : s.holdDue i = true) :
    let v := s.conv i
    let pages := pagesOf (s.seqLen i)
    (pages ≤ (s.slotPool v.part).length → ∃ t, exec (.vaultHoldExpiry i) s = .next t
      ∧ t.reel.copies = s.reel.copies ++ [{ part := v.part, seq := i.val, toTier := true, places := (s.slotPool v.part).take pages }]
      ∧ t.slotPool v.part = (s.slotPool v.part).drop pages ∧ t.mem = s.mem ∧ t.srv = s.srv
      ∧ (s.reel.ce = [] → t = { s with reel := t.reel })) ∧
    ((s.slotPool v.part).length < pages → ∃ t, exec (.vaultHoldExpiry i) s = .next t ∧ t.reel = s.reel ∧ t.mem = s.mem
      ∧ (s.reel.ce = [] → t = s)) := by
  intro v pages
  obtain ⟨u, hu, hclean, hexec⟩ := exec_vaultHoldExpiry_due hb hdue
  rw [hexec]
  constructor
  · intro hroom
    obtain ⟨t, ht, hgives, hcopies, hpool⟩ := evictStart_room (s := u) (p := v.part) (i := i) (by rwa [hu.seqLen, hu.slotPool])
    rw [hu.seqLen, hu.slotPool] at hcopies hpool
    rw [hu.1.reel] at hcopies
    have hreels := hgives.reels.trans hu.reels
    refine ⟨t, by rw [ht]; rfl, hcopies, hpool, hreels.serves.mem, hreels.srv, fun hc => ?_⟩
    exact (hclean hc ▸ hgives).reworks.frame
  · intro hshort
    rw [evictStart_short (by rwa [hu.seqLen, hu.slotPool])]
    exact ⟨u, rfl, hu.1.reel, hu.1.mem, hclean⟩

/-! ### A request that loads (R263) -/

/-- A request has loaded as long as a partition's park timeout. -/
theorem exec_loadingTimeout_due {t0 : DWord} (hheld : s.deadlinesHeld = false) (hq : s.request i = some q) (hph : q.phase = .loading)
    (hsince : q.loadSince = some t0) (hcopy : s.copying i = false) (hb : s.reel.bad = [])
    (hdue : s.get (F.reelPParkTimeoutTicks (s.conv i).part) ≤ (s.time - t0).toNat) :
    ∃ u, State.noted u s ∧ exec (.loadingTimeout i) s = .next
      (let v := u.evictFor (s.conv i).part (pagesOf (u.seqLen i)) i 16384
      if pagesOf (u.seqLen i) ≤ (v.framePool (s.conv i).part).length then v.loadStart (s.conv i).part i
      else if decide (0 < v.framesComing (s.conv i).part) || v.flag F.twnStatusGap then v
      else v.endRequest i 5) := by
  refine ⟨s.poolCheck (s.conv i).part true true, poolCheck_noted hb, congrArg Host.Outcome.next ?_⟩
  rw [hq]
  dsimp only
  rw [hsince]
  dsimp only
  rw [if_neg (by rw [hheld, hph, hcopy, decide_eq_false hdue.not_gt]; decide)]

/-- Frames that are enough are taken for the copy back. -/
theorem loadStart_enough {p : PartNum} {i : Nat} (hq : s.request i = some q) (hph : q.phase = .loading) (htier : s.seqInTier i = true)
    (hcopy : s.copying i = false) (h : pagesOf (s.seqLen i) ≤ (s.framePool p).length) :
    (s.loadStart p i).reel.copies = s.reel.copies
        ++ [{ part := p, seq := i, toTier := false, places := (s.framePool p).take (pagesOf (s.seqLen i)) }]
      ∧ (s.loadStart p i).framePool p = (s.framePool p).drop (pagesOf (s.seqLen i)) := by
  have hload : s.loadStart p i = _ := if_pos ⟨by simp [hq, hph], htier, hcopy, h⟩
  rw [hload]
  exact ⟨rfl, framePool_setFrames⟩

/-- The clause of O57 on a request that has loaded too long. -/
theorem loadingTimeout_clause {t0 : DWord} (hheld : s.deadlinesHeld = false) (hq : s.request i = some q) (hph : q.phase = .loading)
    (hsince : q.loadSince = some t0) (hcopy : s.copying i = false) (hb : s.reel.bad = [])
    (hdue : s.get (F.reelPParkTimeoutTicks (s.conv i).part) ≤ (s.time - t0).toNat) :
    let v := s.conv i
    let pages := pagesOf (s.seqLen i)
    (pages ≤ (s.framePool v.part).length → s.seqInTier i = true → ∃ t, exec (.loadingTimeout i) s = .next t
      ∧ t.reel.copies = s.reel.copies ++ [{ part := v.part, seq := i.val, toTier := false, places := (s.framePool v.part).take pages }]
      ∧ t.framePool v.part = (s.framePool v.part).drop pages
      ∧ t = { s with reel := t.reel, regs := t.regs, events := t.events, board := t.board }) ∧
    ((s.framePool v.part).length < pages → s.framesComing v.part = 0 → s.evictable v.part i = none →
      s.flag F.twnStatusGap = false → ∃ t, exec (.loadingTimeout i) s = .next t ∧ (t.request i).map (·.phase) = some (.ending 5)
        ∧ t.mem = s.mem) := by
  intro v pages
  obtain ⟨u, hu, hexec⟩ := exec_loadingTimeout_due hheld hq hph hsince hcopy hb hdue
  have hqu : u.request i = some q := (hu.request i).trans hq
  rw [hexec, hu.seqLen]
  constructor
  · intro hroom htier
    have hroom' : pages ≤ (u.framePool v.part).length := by rwa [hu.framePool]
    have hcopyu : u.copying i = false := by rwa [State.copying, hu.1.reel]
    obtain ⟨hcopies, hpool⟩ := loadStart_enough (p := v.part) hqu hph ((hu.seqInTier i).trans htier) hcopyu
      (by rwa [hu.seqLen])
    rw [hu.seqLen, hu.framePool] at hcopies hpool
    rw [hu.1.reel] at hcopies
    rw [evictFor_enough (hroom'.trans (Nat.le_add_right _ _))]
    dsimp only
    rw [if_pos hroom']
    exact ⟨_, rfl, hcopies, hpool, (loadStart_gives.reels.trans hu.reels).frame⟩
  · intro hshort hcoming hnone hgap
    have hgap' : u.flag F.twnStatusGap = false := (hu.2.flag (uncounted_window (by decide) (by decide))).trans hgap
    rw [evictFor_none ((hu.evictable _ _).trans hnone)]
    dsimp only
    rw [if_neg (by rw [hu.framePool]; exact hshort.not_ge), if_neg (by rw [hu.framesComing, hcoming, hgap']; decide)]
    refine ⟨_, rfl, request_endRequest (hu.reels.bad_nil hb) hqu fun c => by rw [hph]; nofun, ?_⟩
    exact endRequest_spares.frame.mem.trans hu.1.mem

end

end Sys2Proof.Machine
end

section
/-!
PROOFS. The sampler (R246, R247, R251, R255 to R257, R265, R266): what reading a slot's logits leaves alone, a request that ends in
place of its token, and a token that is committed.
-/

namespace Sys2Proof.Machine

/-- t is what reading logits and table entries makes of s: serving but for the entries with a single-bit error, the reel, memory and
arrays as in s, and every register word that no error word and no record changes. -/
structure State.probes (t s : State) : Prop where
  serving : t.srv = { s.srv with ceEntries := t.srv.ceEntries }
  reel : t.reel = s.reel
  mem : t.mem = s.mem
  arrays : t.arrays = s.arrays
  words : t.keepsWords s

/-- The state with no step of a partition posted. -/
def State.unpost (s : State) (p : PartNum) : State := { s with srv := { s.srv with posted := s.srv.posted.set p.val none } }

/-- The state in which a request table entry's single-bit error, if it has one, has been counted (R486). -/
def State.entryRead (s : State) (i : Nat) : State := if i ∈ s.srv.ceEntries then s.entryEcc i false else s

/-- The state in which a request table entry with an uncorrectable error has been written anew (R256, R486). -/
def State.entryRenewed (s : State) (i : Nat) : State :=
  { s.entryEcc i true with srv := { (s.entryEcc i true).srv with badEntries := (s.entryEcc i true).srv.badEntries.filter (· != i) } }

/-- The state in which logits that are NaN have been counted (R250). -/
def State.noteNans (s : State) (k : Nat) : State :=
  if k = 0 then s else (s.addTo F.smpNanLogitsLogits k).raiseBit F.smpStatusNanSeen

/-- A request that has entered Ending with a code (R243). -/
def Request.endingWith (q : Request) (code : Nat) : Request := { q with inStep := false, sampled := false, phase := .ending code }

section
variable {r s t : State} {p : PartNum} {i k : Nat} {q : Request} {md : Model} {x : Posted}

/-! ### Reading entries and logits -/

theorem State.probes_refl : s.probes s := ⟨rfl, rfl, rfl, rfl, State.keepsWords_refl⟩

theorem State.probes.trans (h : t.probes s) (g : s.probes r) : t.probes r :=
  ⟨h.serving.trans (congrArg (fun u : Serving => { u with ceEntries := t.srv.ceEntries }) g.serving), h.reel.trans g.reel,
    h.mem.trans g.mem, h.arrays.trans g.arrays, h.words.trans g.words⟩

theorem State.noted.probes (h : t.noted s) : t.probes s :=
  ⟨by rw [h.1.srv], h.1.reel, h.1.mem, h.1.arrays, h.2⟩

theorem State.probes.conv (h : t.probes s) (i : Nat) : t.conv i = s.conv i := by rw [State.conv, h.serving, State.conv]

theorem State.probes.request (h : t.probes s) (i : Nat) : t.request i = s.request i := request_of_conv (h.conv i)

theorem State.probes.posted (h : t.probes s) : t.srv.posted = s.srv.posted := by rw [h.serving]

theorem readThrough_probes {a n : Nat} : (s.readThrough a n).1.probes s := by
  have hcor : (s.correct a n 5).probes s := State.noted.probes ⟨correct_based, correct_keepsWords a n 5⟩
  have hbad : ∀ {l : List Nat} {v : State}, (l.foldl (fun s w => s.eccReport w 5 true) v).probes v :=
    foldl_over (R := State.probes) (fun _ => State.probes_refl) State.probes.trans fun _ w =>
      State.noted.probes ⟨State.eccReport_based State.based_refl, eccReport_keepsWords w 5 true⟩
  have hfree : ∀ {v : State} {f : Nat}, State.probes { v with free := f } v :=
    ⟨rfl, rfl, rfl, rfl, .of_regs State.keepsWords_refl rfl⟩
  have hcount : ∀ {v : State}, (v.countRead a n).probes v := by
    intro v
    have hover : (v.countRead a n).countedOver v := countRead_counted
    refine ⟨?_, ?_, ?_, ?_, countRead_keepsWords a n⟩ <;> rw [hover]
  exact hcount.trans (hfree.trans (hbad.trans hcor))

theorem sampleRead_probes {a n : Nat} : (s.sampleRead p a n).1.probes s := by
  unfold State.sampleRead
  split
  · exact State.noted.probes report_noted
  · exact readThrough_probes

theorem fst_sliceLogits {sl : LogitSlice} {x : State × List Byte} : (sliceLogits sl md x).1 = x.1 := rfl

theorem fst_joinReads {α : Type} {before : List α} {x : State × List α} : (joinReads before x).1 = x.1 := rfl

theorem readSlice_probes {slot : Nat} {sl : LogitSlice} : (s.readSlice p md slot sl).1.probes s := by
  rw [State.readSlice, fst_sliceLogits]
  exact sampleRead_probes

/-- Reading a slot's logits changes counters, records and free values only. -/
theorem readLogits_probes {slot : Nat} : (s.readLogits p md slot).1.probes s := by
  have hfold : ∀ (l : List LogitSlice) (acc : State × List (Nat × Word)),
      (l.foldl (fun acc sl => joinReads acc.2 (acc.1.readSlice p md slot sl)) acc).1.probes acc.1 := by
    intro l
    induction l with
    | nil => exact fun _ => State.probes_refl
    | cons sl l ih =>
      intro acc
      rw [List.foldl_cons]
      refine (ih _).trans ?_
      rw [fst_joinReads]
      exact readSlice_probes
  exact hfold md.slices (s, [])

theorem entryEcc_uncorrectable : (s.entryEcc i true).noted s := by
  unfold State.entryEcc
  rw [if_pos rfl]
  exact report_noted

theorem entryEcc_corrected : (s.entryEcc i false).probes s := by
  unfold State.entryEcc
  rw [if_neg Bool.false_ne_true]
  exact State.probes.trans (State.noted.probes report_noted) ⟨rfl, rfl, rfl, rfl, .of_regs State.keepsWords_refl rfl⟩

theorem entryRead_probes : (s.entryRead i).probes s := by
  unfold State.entryRead
  split
  · exact entryEcc_corrected
  · exact State.probes_refl

theorem noteNans_regsOver : (s.noteNans k).regsOver s := by
  unfold State.noteNans
  split
  · rfl
  · exact raiseBit_regsOver.trans addTo_regsOver

/-- Counting NaN logits leaves the count of won cancels. -/
theorem cancels_noteNans : (s.noteNans k).get F.smpCancelWonCancels = s.get F.smpCancelWonCancels := by
  unfold State.noteNans
  split
  · rfl
  · rw [State.raiseBit, get_set_apart rfl rfl, State.addTo, get_set_apart rfl rfl]

/-! ### Requests that end (R243, R256, R266) -/

theorem request_toEnding {code : Nat} (hq : s.request i = some q) : (s.toEnding i code).request i = some (q.endingWith code) :=
  request_setPhase (ph := .ending code) (request_modReq hq (convRequest_of_request hq).2) nofun

theorem request_enterEnding {code source : Nat} {ecc : Option Word} (hq : s.request i = some q) (hph : ∀ c, q.phase ≠ .ending c) :
    (s.enterEnding i code ecc source).request i = some (q.endingWith code) :=
  (request_congr (enterEnding_reels hq hph).srv i).trans (request_toEnding hq)

/-- Where the reel's words are good, nothing but its end befalls a request that ends. -/
theorem request_endRequest_good {code source : Nat} {ecc : Option Word} (hb : s.reel.bad = []) (hq : s.request i = some q)
    (hph : ∀ c, q.phase ≠ .ending c) : (s.endRequest i code ecc source).request i = some (q.endingWith code) := by
  have hbad : (s.enterEnding i code ecc source).reel.bad = [] := by
    refine (enterEnding_reels hq hph).bad_nil ?_
    rw [State.toEnding, reel_setPhase]
    exact hb
  exact (request_congr (poolsRetry_reels hbad).srv i).trans (request_enterEnding hq hph)

/-- No end replaces code 6. -/
theorem request_endRequest_fatal {source : Nat} {ecc : Option Word} (hq : s.request i = some q) (hph : ∀ c, q.phase ≠ .ending c) :
    (s.endRequest i 6 ecc source).request i = some (q.endingWith 6) := by
  have henter : (s.enterEnding i 6 ecc source).request i = some (q.endingWith 6) := request_enterEnding hq hph
  have hpast : (s.enterEnding i 6 ecc source).past i := fun r hr => by
    rw [henter] at hr
    cases hr
    rfl
  exact (request_of_conv (poolsRetry_spares.conv i hpast)).trans henter

/-! ### One sample (R246, R256, R266) -/

/-- An entry that cannot be read ends its request. -/
theorem sampleSlot_unread {slot : Nat} (hq : s.request i = some q) (hstep : q.inStep = true) (hsampled : q.sampled = true)
    (hbad : i ∈ s.srv.badEntries) :
    s.sampleSlot p md slot i = (s.entryRenewed i).endRequest i 6 ((s.entryRenewed i).recordSeq 0x041 0x04 none) 0x041 := by
  unfold State.sampleSlot
  rw [hq]
  dsimp only
  rw [if_neg (by simp [hstep, hsampled]), if_pos (List.contains_iff_mem.mpr hbad)]
  rfl

/-- Where its entry can be read, a request is sampled, unless a cancel came first. -/
theorem sampleSlot_read {slot : Nat} (hq : s.request i = some q) (hstep : q.inStep = true) (hsampled : q.sampled = true)
    (hbad : i ∉ s.srv.badEntries) :
    s.sampleSlot p md slot i =
      (let l := (s.entryRead i).readLogits p md slot
      let s := l.1.noteNans (l.2.filter fun x => f32IsNaN x.2).length
      if q.cancel then (s.bump F.smpCancelWonCancels).leaveStep i
      else
        match sample q.desc (s.conv i).tokens (s.conv i).tokens.length (l.2.filter fun x => !f32IsNaN x.2) with
        | none => (s.raiseBit F.smpStatusNoFinite).endRequest i 6 none 0x041
        | some x => s.commitToken i x.1 x.2) := by
  have hread : (if s.srv.ceEntries.contains i = true then s.entryEcc i false else s) = s.entryRead i := by
    unfold State.entryRead
    simp only [List.contains_iff_mem]
  unfold State.sampleSlot
  rw [hq]
  dsimp only
  rw [if_neg (by simp [hstep, hsampled]), if_neg (mt List.contains_iff_mem.mp hbad), hread]
  rfl

/-! ### The job (R246, R254) -/

/-- The job of a step with one slot. -/
theorem exec_sampleJob_one (hx : s.srv.posted[p.val] = some x) (hwritten : x.written = true) (hseqs : x.seqs = [i])
    (hmd : (s.part p).model = some md) (hready : s.flag F.smpStatusReady = true) :
    exec (.sampleJob p) s = .next ((s.sampleSlot p md 0 i).closeStep p) := by
  refine congrArg Host.Outcome.next ?_
  rw [hx, hmd]
  dsimp only
  rw [if_neg (by simp [hwritten, hready]), hseqs]
  rfl

/-- A step whose one request it has finished with is over. -/
theorem closeStep_one (hx : s.srv.posted[p.val] = some x) (hwritten : x.written = true) (hseqs : x.seqs = [i])
    (hq : s.request i = some q) (hstep : q.inStep = false) : s.closeStep p = s.unpost p := by
  unfold State.closeStep
  rw [hx]
  dsimp only
  rw [if_pos (by simp [hwritten, hseqs, hq, hstep])]
  rfl

theorem posted_unpost : (s.unpost p).srv.posted[p.val] = none := by simp [State.unpost]

theorem request_unpost : (s.unpost p).request i = s.request i := rfl

end

section
variable {s : State} {p : PartNum} {i : Nat} {q : Request} {md : Model} {x : Posted}

/-- The clause of O57 on an uncorrectable entry. -/
theorem sampleJob_unread_clause (hx : s.srv.posted[p.val] = some x) (hwritten : x.written = true) (hseqs : x.seqs = [i])
    (hmd : (s.part p).model = some md) (hready : s.flag F.smpStatusReady = true) (hq : s.request i = some q)
    (hstep : q.inStep = true) (hsampled : q.sampled = true) (hbad : i ∈ s.srv.badEntries) (hph : ∀ e, q.phase ≠ .ending e) :
    ∃ t, exec (.sampleJob p) s = .next t ∧ t.srv.posted[p.val] = none ∧ (t.request i).map (·.phase) = some (.ending 6)
      ∧ i ∉ t.srv.badEntries ∧ t.mem = s.mem := by
  have hnoted : (s.entryEcc i true).noted s := entryEcc_uncorrectable
  have hrequest : (s.entryRenewed i).request i = some q :=
    (show (s.entryRenewed i).request i = (s.entryEcc i true).request i from rfl).trans ((request_congr hnoted.1.srv i).trans hq)
  have hposted : (s.entryRenewed i).srv.posted = s.srv.posted :=
    (show (s.entryRenewed i).srv.posted = (s.entryEcc i true).srv.posted from rfl).trans (congrArg Serving.posted hnoted.1.srv)
  have hgone : i ∉ (s.entryRenewed i).srv.badEntries := by simp [State.entryRenewed]
  have hmem : (s.entryRenewed i).mem = s.mem := hnoted.1.mem
  rw [exec_sampleJob_one hx hwritten hseqs hmd hready, sampleSlot_unread hq hstep hsampled hbad]
  generalize s.entryRenewed i = u at hrequest hposted hgone hmem
  have hspares : (u.endRequest i 6 (u.recordSeq 0x041 0x04 none) 0x041).spares u := endRequest_spares
  have hended := request_endRequest_fatal (ecc := u.recordSeq 0x041 0x04 none) (source := 0x041) hrequest hph
  generalize u.endRequest i 6 (u.recordSeq 0x041 0x04 none) 0x041 = v at hspares hended
  have hpost : v.srv.posted[p.val] = some x := by rw [hspares.frame.posted, hposted, hx]
  rw [closeStep_one hpost hwritten hseqs hended rfl]
  refine ⟨_, rfl, posted_unpost, by rw [request_unpost, hended]; rfl, ?_, hspares.frame.mem.trans hmem⟩
  exact fun h => hgone (hspares.frame.badEntries ▸ h)

/-- A request with a cancel leaves its step and ends (R266). -/
theorem leaveStep_cancelled (hq : s.request i = some q) (hcancel : q.cancel = true) :
    s.leaveStep i = (s.modReq i fun r => { r with inStep := false, sampled := false, cancel := false }).endRequest i 4 := by
  unfold State.leaveStep
  rw [hq]
  exact if_pos hcancel

/-- The clause of O57 on a cancel that came first. -/
theorem sampleJob_cancel_clause (hx : s.srv.posted[p.val] = some x) (hwritten : x.written = true) (hseqs : x.seqs = [i])
    (hmd : (s.part p).model = some md) (hready : s.flag F.smpStatusReady = true) (hq : s.request i = some q)
    (hstep : q.inStep = true) (hsampled : q.sampled = true) (hbad : i ∉ s.srv.badEntries) (hcancel : q.cancel = true)
    (hph : ∀ e, q.phase ≠ .ending e) (hb : s.reel.bad = []) :
    ∃ t, exec (.sampleJob p) s = .next t ∧ t.srv.posted[p.val] = none ∧ (t.request i).map (·.phase) = some (.ending 4)
      ∧ t.get F.smpCancelWonCancels = min (s.get F.smpCancelWonCancels + 1) 0xFFFFFFFF ∧ t.mem = s.mem := by
  have hprobe : ((s.entryRead i).readLogits p md 0).1.probes s := readLogits_probes.trans entryRead_probes
  have hfld : F.smpCancelWonCancels.uncounted := uncounted_window (by decide) (by decide)
  rw [exec_sampleJob_one hx hwritten hseqs hmd hready, sampleSlot_read hq hstep hsampled hbad]
  dsimp only
  rw [if_pos hcancel]
  generalize ((s.entryRead i).readLogits p md 0).1 = v at hprobe
  generalize (List.filter _ _).length = k
  have hregs : ((v.noteNans k).bump F.smpCancelWonCancels).regsOver v := addTo_regsOver.trans noteNans_regsOver
  have hwon : ((v.noteNans k).bump F.smpCancelWonCancels).get F.smpCancelWonCancels
      = min (s.get F.smpCancelWonCancels + 1) 0xFFFFFFFF := by
    rw [State.bump, State.addTo, get_set_self rfl, cancels_noteNans, hprobe.words.get hfld]
    exact Nat.mod_eq_of_lt (Nat.lt_of_le_of_lt (Nat.min_le_right _ _) (Nat.sub_lt (Nat.two_pow_pos _) Nat.one_pos))
  generalize (v.noteNans k).bump F.smpCancelWonCancels = w at hregs hwon
  have hsrv : w.srv = v.srv := by rw [hregs]
  have hrequest : w.request i = some q := (request_congr hsrv i).trans ((hprobe.request i).trans hq)
  rw [leaveStep_cancelled hrequest hcancel]
  have hleft := request_modReq (f := fun r => { r with inStep := false, sampled := false, cancel := false }) hrequest
    (convRequest_of_request hrequest).2
  have hreel : w.reel.bad = [] := by
    rw [hregs]
    exact (congrArg Reel.bad hprobe.reel).trans hb
  generalize hu : (w.modReq i fun r => { r with inStep := false, sampled := false, cancel := false }) = u at hleft
  have hover : u.serveOver w := by rw [← hu]; exact modReq_serveOver
  have hget : u.get F.smpCancelWonCancels = w.get F.smpCancelWonCancels := by rw [← hu]; rfl
  have hbad' : u.reel.bad = [] := by rw [← hu]; exact hreel
  have hended := request_endRequest_good (code := 4) (ecc := none) (source := 0x045) hbad' hleft hph
  have hspares : (u.endRequest i 4).spares u := endRequest_spares
  have hserves : (u.endRequest i 4).serves u := endRequest_serves
  generalize u.endRequest i 4 = z at hended hspares hserves
  have hpost : z.srv.posted[p.val] = some x := by
    rw [hspares.frame.posted, hover.posted, hsrv, hprobe.posted, hx]
  rw [closeStep_one hpost hwritten hseqs hended rfl]
  refine ⟨_, rfl, posted_unpost, by rw [request_unpost, hended]; rfl, ?_, ?_⟩
  · exact (hserves.words.get hfld).trans (hget.trans hwon)
  · exact hserves.mem.trans (hover.mem.trans ((by rw [hregs] : w.mem = v.mem).trans hprobe.mem))

end

end Sys2Proof.Machine
end

section
/-!
PROOFS. A token that is committed (R251, R255 to R257, R265): its record, the produced count, and the request that goes on in Decode.
-/

namespace Sys2Proof.Machine

/-- A token's record in its ring (R255): not the last, no end code. -/
def tokenRecord (token logprob pos : Nat) : List Byte :=
  leBytes 8 (token % 0x40000 + logprob % 0x10000 * 2 ^ 32 + pos % 0x10000 * 2 ^ 48)

/-- A request after a token that is not its last (R243, R255). -/
def Request.advanced (q : Request) : Request :=
  { q with produced := q.produced + 1, generated := q.generated + 1, inStep := false, sampled := false, phase := .decode }

section
variable {s : State} {p : PartNum} {i token logprob : Nat} {q : Request} {md : Model} {x : Posted}

theorem writeRecord_token (hq : s.request i = some q) {pos : Nat} :
    s.writeRecord i token 0 0 logprob pos
      = (s.putRecord q (tokenRecord token logprob pos)).modReq i fun r => { r with produced := r.produced + 1 } := by
  rw [writeRecord_eq hq, tokenRecord]
  simp only [Nat.zero_mul, Nat.add_zero]

/-- A token that is not the last is written, joins the conversation and lets the request decode. -/
theorem commitToken_more (hq : s.request i = some q) (hstop : (q.desc.stop.filter fun y => y != 0xFFFFFFFF).contains token = false)
    (hmax : q.generated + 1 < q.desc.maxNew) :
    s.commitToken i token logprob =
      ((((((s.putRecord q (tokenRecord token logprob (s.conv i).tokens.length)).modReq i fun r =>
          { r with produced := r.produced + 1 }).modConv i fun v => { v with tokens := v.tokens ++ [(token, false)] }).modReq i fun r =>
        { r with generated := r.generated + 1, inStep := false, sampled := false }).bump F.smpSamplesSamples).setPhase i .decode) := by
  have hlast : (false || decide (q.desc.maxNew ≤ q.generated + 1)) = false := by simp [hmax.not_ge]
  unfold State.commitToken
  rw [hq]
  dsimp only
  rw [hstop, hlast, if_neg Bool.false_ne_true, if_neg Bool.false_ne_true, if_neg Bool.false_ne_true, if_neg Bool.false_ne_true,
    writeRecord_token hq]

/-- What a committed token shows of the conversation, and what it leaves of the state in which its record has been written. -/
theorem commitToken_shows (hq : s.request i = some q) (hstop : (q.desc.stop.filter fun y => y != 0xFFFFFFFF).contains token = false)
    (hmax : q.generated + 1 < q.desc.maxNew) :
    (s.commitToken i token logprob).serveOver (s.putRecord q (tokenRecord token logprob (s.conv i).tokens.length)) ∧
      (s.commitToken i token logprob).conv i
        = { s.conv i with tokens := (s.conv i).tokens ++ [(token, false)], request := some q.advanced } := by
  rw [commitToken_more hq hstop hmax]
  have hput : (s.putRecord q (tokenRecord token logprob (s.conv i).tokens.length)).sameServing s := putRecord_sameServing
  generalize s.putRecord q _ = u at hput
  have hbump : ∀ {v : State}, (v.bump F.smpSamplesSamples).regsOver v := addTo_regsOver
  constructor
  · refine setPhase_serveOver.trans (hbump.serveOver.trans ?_)
    rfl
  · have hsrv : ∀ {v : State}, (v.bump F.smpSamplesSamples).srv = v.srv := fun {v} => by rw [hbump (v := v)]
    rw [conv_setPhase, conv_modReq, conv_congr hsrv, conv_modReq, conv_modConv, if_pos rfl, conv_modReq, conv_congr hput.srv,
      (convRequest_of_request hq).1]
    rfl

/-- The clause of O57 on a sampled token. -/
theorem sampleJob_token_clause (hx : s.srv.posted[p.val] = some x) (hwritten : x.written = true) (hseqs : x.seqs = [i])
    (hmd : (s.part p).model = some md) (hready : s.flag F.smpStatusReady = true) (hq : s.request i = some q)
    (hstep : q.inStep = true) (hsampled : q.sampled = true) (hbad : i ∉ s.srv.badEntries) (hcancel : q.cancel = false)
    (hnans : ∀ y ∈ ((s.entryRead i).readLogits p md 0).2, f32IsNaN y.2 = false)
    (hsample : sample q.desc (s.conv i).tokens (s.conv i).tokens.length ((s.entryRead i).readLogits p md 0).2 = some (token, logprob))
    (hstop : (q.desc.stop.filter fun y => y != 0xFFFFFFFF).contains token = false) (hmax : q.generated + 1 < q.desc.maxNew) :
    let o := ((s.entryRead i).readLogits p md 0).1.putRecord q (tokenRecord token logprob (s.conv i).tokens.length)
    ∃ t, exec (.sampleJob p) s = .next t ∧ t.pcieMem = o.pcieMem ∧ t.mem = o.mem ∧ t.srv.posted[p.val] = none
      ∧ (t.conv i).tokens = (s.conv i).tokens ++ [(token, false)] ∧ t.request i = some q.advanced ∧ t.arrays = s.arrays := by
  have hprobe : ((s.entryRead i).readLogits p md 0).1.probes s := readLogits_probes.trans entryRead_probes
  have hnone : (((s.entryRead i).readLogits p md 0).2.filter fun x => f32IsNaN x.2) = [] :=
    List.filter_eq_nil_iff.mpr fun y hy => by simp [hnans y hy]
  have hall : (((s.entryRead i).readLogits p md 0).2.filter fun x => !f32IsNaN x.2) = ((s.entryRead i).readLogits p md 0).2 :=
    List.filter_eq_self.mpr fun y hy => by simp [hnans y hy]
  rw [exec_sampleJob_one hx hwritten hseqs hmd hready, sampleSlot_read hq hstep hsampled hbad]
  dsimp only
  rw [hnone, hall, hcancel, if_neg Bool.false_ne_true, List.length_nil, State.noteNans, if_pos rfl, hprobe.conv, hsample]
  generalize ((s.entryRead i).readLogits p md 0).1 = v at hprobe
  have hqv : v.request i = some q := (hprobe.request i).trans hq
  obtain ⟨hover, hconv⟩ := commitToken_shows (logprob := logprob) hqv hstop hmax
  rw [hprobe.conv] at hover hconv
  have hput : (v.putRecord q (tokenRecord token logprob (s.conv i).tokens.length)).sameServing v := putRecord_sameServing
  dsimp only
  generalize v.putRecord q _ = o at hover hput
  generalize v.commitToken i token logprob = z at hover hconv
  have hended : z.request i = some q.advanced := by
    rw [State.request, hconv]
    exact if_neg nofun
  have hpost : z.srv.posted[p.val] = some x := by rw [hover.posted, hput.srv, hprobe.posted, hx]
  rw [closeStep_one hpost hwritten hseqs hended rfl]
  exact ⟨_, rfl, hover.pcieMem, hover.mem, posted_unpost, (congrArg Convo.tokens hconv).trans rfl, hended,
    hover.arrays.trans (hput.arrays.trans hprobe.arrays)⟩

end

end Sys2Proof.Machine
end

section
/-!
PROOFS. Posting a step (R243 to R246, R258): the batch of a partition with one queued request, its descriptor and its go.
-/

namespace Sys2Proof.Machine

/-- Spindle may post a partition's next step at once: it serves, the partition is live with a model and a session, and neither a step
nor an update is on its way (R244, R246, R394). -/
structure State.mayPost (s : State) (p : PartNum) : Prop where
  serving : s.serving = true
  posted : s.srv.posted[p.val] = none
  model : (s.part p).model.isSome = true
  live : (s.part p).live = true
  destroying : (s.part p).destroying = false
  session : s.sessionEnded p = false
  steps : s.reel.steps[p.val] = none
  updates : s.reel.updates = []

/-- A partition's only request q is queued with an empty ring, and its prompt fits a chunk and a step (R245). -/
structure State.oneQueued (s : State) (p : PartNum) (i : Nat) (q : Request) : Prop where
  range : s.seqRange p = [i]
  request : s.request i = some q
  phase : q.phase = .queued
  produced : q.produced = 0
  ring : 4096 ≤ q.desc.ringBytes
  prompt : 0 < q.left
  chunk : q.left ≤ s.srv.chunk[p.val]
  tokens : q.left ≤ s.srv.stepTokens[p.val]
  slots : 0 < s.srv.maxSlots[p.val]
  idle : q.inStep = false
  room : s.seqLen i + q.left ≤ (s.conv i).maxTokens

/-- The batch of one request that takes all its prompt and is sampled. -/
def oneBatch (i k : Nat) : Batch := { slots := [(i, k, true)], tokens := k, full := false }

/-- The number of a partition's next step (R246). -/
def State.nextStep (s : State) (p : PartNum) : Nat := (s.get (F.reelPStepNumStep p) + 1) % 2 ^ 32

/-- The state in which a batch's descriptor has been written under a step's number, its requests are in the step and the go has been
written. -/
def State.postBatch (s : State) (p : PartNum) (n : Nat) (b : Batch) : State :=
  (b.slots.foldl (fun s x => s.enterStep x) (s.write (stepDescAddr p) (s.descBytes p n b))).stepGo p

/-- The state in which a step of a partition is posted. -/
def State.postAs (s : State) (p : PartNum) (x : Posted) : State :=
  { s with srv := { s.srv with posted := s.srv.posted.set p.val (some x) } }

/-- A step with one request, as it is posted. -/
def onePosted (n i : Nat) : Posted := { step := BitVec.ofNat 32 n, seqs := [i], written := false }

section
variable {s t : State} {p : PartNum} {i : Nat} {q : Request}

/-! ### What the go leaves of serving -/

theorem State.regsOver.sameServing (h : t.regsOver s) : t.sameServing s := by
  rw [h]
  exact ⟨rfl, rfl, rfl⟩

theorem State.reels.sameServing (h : t.reels s) : t.sameServing s :=
  ⟨h.srv, h.serves.arrays, by rw [h.frame]⟩

theorem setStep_sameServing {o : Option StepDesc} : (s.setStep p o).sameServing s := ⟨rfl, rfl, rfl⟩

theorem startStep_sameServing {d : StepDesc} : (s.startStep p d).sameServing s := set_regsOver.sameServing.trans setStep_sameServing

theorem stepGo_sameServing : (s.stepGo p).sameServing s := by
  cases hstep : (s.reel.steps[p.val]).isSome with
  | true =>
    rw [stepGo_dropped hstep]
    exact raiseBit_regsOver.sameServing
  | false =>
    have hflush : (s.seqFlush p).sameServing s := seqFlush_reels.sameServing
    have hraise : ∀ {v : State} {f : Fld}, (v.raiseBit f).sameServing v := raiseBit_regsOver.sameServing
    unfold State.stepGo
    rw [hstep, if_neg Bool.false_ne_true]
    dsimp only
    split
    · exact hraise.trans ((State.accessError_based State.based_refl).readOver.sameServing.trans hflush)
    · split
      · exact hraise.trans ((State.eccReport_based State.based_refl).readOver.sameServing.trans hflush)
      · have hread : ∀ {v : State} {a k : Nat}, ((v.correct a k 5).countRead a k).sameServing v :=
          (countRead_counted.readOver.trans correct_based.readOver).sameServing
        split
        · exact hraise.trans (hread.trans hflush)
        · exact startStep_sameServing.trans (hread.trans hflush)

/-! ### The batch (R245) -/

theorem inPhase_one (hrange : s.seqRange p = [i]) (hq : s.request i = some q) (f : ReqPhase → Bool) :
    s.inPhase p f = if f q.phase = true then [i] else [] := by
  unfold State.inPhase
  rw [hrange, List.filter_cons, hq]
  rfl

theorem ringFree_fresh (hring : 4096 ≤ q.desc.ringBytes) (hproduced : q.produced = 0) (hidle : q.inStep = false)
    (hbad : q.ringBad = false) : q.ringFree = true := by
  simp only [Request.ringFree, hbad, hproduced, hidle, Bool.not_false, Bool.false_and, Bool.true_and, decide_eq_true_eq,
    ReqDesc.records, Bool.false_eq_true, if_false]
  omega

/-- The one queued request is all of the batch, with its whole prompt. -/
theorem compose_one (h : s.oneQueued p i q) (hbad : q.ringBad = false) : s.compose p = oneBatch i q.left := by
  have hfree := ringFree_fresh h.ring h.produced h.idle hbad
  have hwhole : (if q.left = 0 then 1 else min q.left (min s.srv.chunk[p.val] s.srv.stepTokens[p.val])) = q.left := by
    rw [if_neg h.prompt.ne', Nat.min_eq_left (Nat.le_min.mpr ⟨h.chunk, h.tokens⟩)]
  have hlimits : ¬ (s.srv.maxSlots[p.val] = 0 ∨ s.srv.stepTokens[p.val] < q.left) :=
    not_or.mpr ⟨h.slots.ne', h.tokens.not_gt⟩
  unfold State.compose
  simp only [inPhase_one h.range h.request, h.phase]
  simp [sortBy, insertBy, h.request, hfree, Batch.add, oneBatch]
  simp only [hwhole]
  rw [if_neg h.prompt.ne', if_neg h.room.not_gt, if_neg hlimits, decide_eq_true (le_refl q.left)]

/-! ### The step that is posted -/

/-- A queued request with a prompt is in the step and leaves Queued. -/
theorem enterStep_queued {k : Nat} {b : Bool} (hq : s.request i = some q) (hph : q.phase = .queued) (hprompt : 0 < q.left) :
    s.enterStep (i, k, b)
      = (s.modReq i fun r => { r with q := k, inStep := true, sampled := b }).setPhase i .prefill := by
  unfold State.enterStep
  dsimp only
  rw [hq]
  dsimp only
  rw [hph]
  dsimp only
  rw [if_neg hprompt.ne', if_neg nofun]

/-- The rings of a partition's one request are read before its step is composed. -/
theorem readRings_one (h : s.oneQueued p i q) (hempty : s.consumedAt q.desc = 0) :
    (s.inPhase p fun ph => ph == .decode || ph == .stalled || ph == .prefill || ph == .queued).foldl (fun s i => s.readConsumed i) s
      = s.modReq i fun r => r.readAt 0 := by
  rw [inPhase_one h.range h.request, h.phase]
  have hread := readConsumed_good h.request (hempty.trans_le (Nat.zero_le _)) (by rw [h.produced, Nat.zero_sub]; exact Nat.zero_le _)
  rw [hempty] at hread
  exact hread

/-- Reading its ring leaves the request queued. -/
theorem oneQueued_readAt (h : s.oneQueued p i q) : (s.modReq i fun r => r.readAt 0).oneQueued p i (q.readAt 0) := by
  obtain ⟨hrange, hq, hph, hproduced, hring, hprompt, hchunk, htokens, hslots, hidle, hroom⟩ := h
  refine ⟨hrange, request_readConsumed hq, hph, hproduced, hring, hprompt, hchunk, htokens, hslots, hidle, ?_⟩
  rw [conv_modReq]
  exact hroom

/-- A batch that is not empty is posted, where no request of the partition is stalled. -/
theorem postStep_batch {u : State} {b : Batch} (hmay : s.mayPost p)
    (hu : (s.inPhase p fun ph => ph == .decode || ph == .stalled || ph == .prefill || ph == .queued).foldl
      (fun s i => s.readConsumed i) s = u)
    (hstalled : (u.inPhase p fun ph => ph == .stalled) = []) (hdecode : (u.inPhase p fun ph => ph == .decode) = [])
    (hb : u.compose p = b) (hslots : b.slots.isEmpty = false) :
    s.postStep p = (u.postBatch p (u.nextStep p) b).postAs p
      { step := BitVec.ofNat 32 (u.nextStep p), seqs := b.slots.map (·.1), written := false } := by
  obtain ⟨hserving, hposted, hmodel, hlive, hdestroying, hsession, hsteps, hupdates⟩ := hmay
  have hmodel' : (s.part p).model.isNone = false := by simp [← Option.not_isSome, hmodel]
  have hfull : u.stallFull p = u := by rw [State.stallFull, hdecode, List.foldl_nil]
  unfold State.postStep
  rw [if_neg (by simp [hserving, hposted, hmodel', hlive, hdestroying, hsession, hsteps]), flushUpdates_none hupdates]
  extract_lets _ rings s1 s2 s3 b' s4 step
  have h1 : s1 = u := hu
  have h2 : s2 = u := by
    unfold s2
    rw [h1, hstalled, List.foldl_nil]
  have h3 : s3 = u := by
    unfold s3
    rw [h2, hfull]
  have hb' : b' = b := by
    unfold b'
    rw [h3, hb]
  have h4 : s4 = u := by
    unfold s4
    rw [h3, hstalled]
    rfl
  have hstep : step = u.nextStep p := by
    unfold step
    rw [h4, State.nextStep]
  clear_value step s4 b' s3
  subst h4 hb' hstep
  rw [hslots, if_neg Bool.false_ne_true]
  rfl

/-- Spindle posts a step with just the one queued request. -/
theorem postStep_one (hmay : s.mayPost p) (h : s.oneQueued p i q) (hempty : s.consumedAt q.desc = 0) :
    s.postStep p = ((s.modReq i fun r => r.readAt 0).postBatch p (s.nextStep p) (oneBatch i q.left)).postAs p
      (onePosted (s.nextStep p) i) := by
  have hone := oneQueued_readAt h
  refine postStep_batch hmay (readRings_one h hempty) ?_ ?_ (compose_one (q := q.readAt 0) hone rfl) rfl
  · rw [inPhase_one hone.range hone.request, hone.phase]
    rfl
  · rw [inPhase_one hone.range hone.request, hone.phase]
    rfl

/-- What a posted batch of the one request shows. -/
theorem postBatch_one {n : Nat} (h : s.oneQueued p i q) :
    ((s.postBatch p n (oneBatch i q.left)).request i).map (fun r => (r.phase, r.inStep, r.sampled, r.q))
        = some (.prefill, true, true, q.left)
      ∧ (s.postBatch p n (oneBatch i q.left)).arrays = s.arrays := by
  unfold State.postBatch
  generalize s.descBytes p n _ = bytes
  have hwrite : (s.write (stepDescAddr p) bytes).sameServing s := write_sameServing
  generalize s.write (stepDescAddr p) bytes = u at hwrite
  have hq : u.request i = some q := (request_congr hwrite.srv i).trans h.request
  rw [oneBatch, List.foldl_cons, List.foldl_nil, enterStep_queued hq h.phase h.prompt]
  have hin := request_setPhase (ph := .prefill)
    (request_modReq (f := fun r => { r with q := q.left, inStep := true, sampled := true }) hq (convRequest_of_request hq).2) nofun
  have hover := (setPhase_serveOver (ph := .prefill) (i := i)).trans
    (modReq_serveOver (s := u) (i := i) (f := fun r => { r with q := q.left, inStep := true, sampled := true }))
  generalize (u.modReq i fun r => { r with q := q.left, inStep := true, sampled := true }).setPhase i .prefill = v at hin hover
  have hgo : (v.stepGo p).sameServing v := stepGo_sameServing
  refine ⟨?_, hgo.arrays.trans (hover.arrays.trans hwrite.arrays)⟩
  rw [request_congr hgo.srv, hin]
  rfl

theorem posted_postAs {x : Posted} : (s.postAs p x).srv.posted[p.val] = some x := by simp [State.postAs]

theorem request_postAs {x : Posted} : (s.postAs p x).request i = s.request i := rfl

theorem arrays_postAs {x : Posted} : (s.postAs p x).arrays = s.arrays := rfl

/-- A step's number is the count of steps as a word. -/
theorem ofNat_nextStep : BitVec.ofNat 32 (s.nextStep p) = BitVec.ofNat 32 (s.get (F.reelPStepNumStep p) + 1) :=
  BitVec.eq_of_toNat_eq (by rw [BitVec.toNat_ofNat, BitVec.toNat_ofNat, State.nextStep, Nat.mod_mod])

/-- The clause of O57 on a step that is posted. -/
theorem stepPost_clause {s : State} {hw : HostStores} (hmay : (s.hostStores hw).mayPost p) (h : (s.hostStores hw).oneQueued p i q)
    (hempty : (s.hostStores hw).consumedAt q.desc = 0) :
    ∃ t x, exec (.stepPost p hw) s = .next t ∧ t.srv.posted[p.val] = some x ∧ x.seqs = [i] ∧ x.written = false
      ∧ x.step = BitVec.ofNat 32 ((s.hostStores hw).get (F.reelPStepNumStep p) + 1)
      ∧ (t.request i).map (fun r => (r.phase, r.inStep, r.sampled, r.q)) = some (.prefill, true, true, q.left)
      ∧ t.arrays = (s.hostStores hw).arrays := by
  have hexec : exec (.stepPost p hw) s = .next ((s.hostStores hw).postStep p) := rfl
  obtain ⟨hrequest, harrays⟩ := postBatch_one (n := (s.hostStores hw).nextStep p) (oneQueued_readAt h)
  refine ⟨_, onePosted ((s.hostStores hw).nextStep p) i, hexec.trans (congrArg _ (postStep_one hmay h hempty)), posted_postAs, rfl, rfl,
    ofNat_nextStep, ?_, ?_⟩
  · rw [request_postAs]
    exact hrequest
  · rw [arrays_postAs]
    exact harrays

/-- The clause of O57 on a Spindle that does not serve. -/
theorem exec_stepPost_unserving {s : State} {hw : HostStores} (h : (s.hostStores hw).serving = false) :
    exec (.stepPost p hw) s = .next (s.hostStores hw) :=
  congrArg Host.Outcome.next (if_pos (by simp [h]))

end

end Sys2Proof.Machine
end

section
/-!
PROOFS. The obligation on requests that run to their end (O57), assembled from the clauses above.
-/

namespace Sys2Proof.Machine

/-- Settles O57, clause by clause: postings, samples, stalled rings, end records, and what deadlines bring. -/
theorem requestsRunToTheirEnd : Obligations.RequestsRunToTheirEnd := by
  intro s p i hw _ w v
  refine ⟨exec_stepPost_unserving, ?posted, ?sampled, fun r => stalledRingReread_clause, fun r code => endRecordWrite_clause,
    fun h => ⟨exec_endRecordWrite_held h, exec_ttlExpiry_held h, exec_vaultHoldExpiry_held h, exec_loadingTimeout_held h⟩,
    ?deadlines, fun r t0 hheld hq hph hsince hcopy hb hdue => loadingTimeout_clause hheld hq hph hsince hcopy hb hdue⟩
  case posted =>
    intro r hserving hposted hmodel hlive hdestroying hsession hsteps hupdates hrange hq hph hproduced hring hempty hprompt hchunk
      htokens hslots hidle hroom
    exact stepPost_clause ⟨hserving, hposted, hmodel, hlive, hdestroying, hsession, hsteps, hupdates⟩
      ⟨hrange, hq, hph, hproduced, hring, hprompt, hchunk, htokens, hslots, hidle, hroom⟩ hempty
  case sampled =>
    intro x md r hx hwritten hseqs hmd hready hq hstep hsampled
    exact ⟨sampleJob_unread_clause hx hwritten hseqs hmd hready hq hstep hsampled,
      sampleJob_cancel_clause hx hwritten hseqs hmd hready hq hstep hsampled,
      fun token logprob => sampleJob_token_clause hx hwritten hseqs hmd hready hq hstep hsampled⟩
  case deadlines =>
    intro hheld hlive hr
    exact ⟨fun d hd hdue => ttlExpiry_clause hheld hlive hr hd hdue,
      fun d hd hdue hstate htier hcopy hfb hb =>
        vaultHoldExpiry_clause hb (holdDue_of hheld hlive hr hd hdue hstate htier hcopy hfb)⟩

end Sys2Proof.Machine
end

section
/-!
PROOFS. The obligation on the commands that act on requests (O56): a release that finds the reel's words uncorrectable.
-/

namespace Sys2Proof.Machine

section
variable {s : State} {p : PartNum} {i : Nat}

/-! ### A release that finds no uncorrectable word (R264) -/

/-- A sequence that is freed is inactive. -/
theorem seqState_freeSeq : (s.freeSeq p i).seqState i = 0 := by
  have hword : (s.freeSeq p i).seqWord i 0 = 0 := by
    simp [State.freeSeq, List.range_succ, seqWord_setSeqWord]
  rw [State.seqState, hword]
  rfl

/-- Trying again what waits for places leaves a sequence's state. -/
theorem seqState_poolsRetry (hb : s.reel.bad = []) : (s.poolsRetry p).seqState i = s.seqState i := by
  obtain ⟨u, hu, hgives⟩ := poolsRetry_gives (p := p) hb
  exact seqState_congr ((hgives.seqWord i 0).trans (by rw [State.seqWord, hu.1.reel, State.seqWord]))

/-- Where no word of the reel is uncorrectable and no step runs, a released conversation's sequence is inactive. -/
theorem seqState_releaseConv (hb : s.reel.bad = []) (hstep : s.reel.steps[(s.conv i).part.val] = none) :
    (s.releaseConv i).seqState i = 0 := by
  unfold State.releaseConv
  extract_lets p u
  have hreel : u.reel = s.reel := by
    unfold u
    rw [noteRequest_twn]
    rfl
  have hflush : (u.flushUpdates p).reels u := flushUpdates_reels (hreel ▸ hb)
  have hbad : (u.flushUpdates p).reel.bad = [] := hflush.bad_nil (hreel ▸ hb)
  have hidle : ((u.flushUpdates p).reel.steps[p.val]).isSome = false := by
    simp only [hflush.steps, hreel]
    exact Option.isSome_eq_false_iff.mpr (Option.isNone_iff_eq_none.mpr hstep)
  rw [State.update, seqState_poolsRetry (seqUpdate_reels.bad_nil hbad), State.seqUpdate, if_neg (by simp [hidle]), State.seqApply]
  exact seqState_freeSeq

end

/-! ### A release that finds one -/

/-- CONV_RELEASE of partition 0, as its pair names it, for handle 0. -/
def releaseOfHandle0 : Cmd := ⟨⟨.pair 0, 0⟩, leBytes 64 0x0403, [], none, false, .started, .none, none, 0, 0⟩

/-- Partition 0's sequences are 0 and 1. Sequence 0 has a paused conversation, to be released; sequence 1 has partition 1's, whose
request loads its pages. A word of partition 0's frame pool is uncorrectable, and an activation of sequence 0 waits in partition 1's
updates. -/
def crossedOwners : State :=
  let s := State.reset.set (F.reelPSeqCountCount 0) 2
  { s with
    spn := { s.spn with cmds := [releaseOfHandle0] }
    srv := { s.srv with convs := [
      (0, { Convo.none with live := true }),
      (1, { Convo.none with part := 1, live := true, request := some (newRequest (readReqDesc []) .loading 0 none) })] }
    reel := { s.reel with seqs := [(8, 8)], bad := [0x80000], updates := [(1, .activate 0)] } }

/-- The state of sequence 0 that an outcome goes on with. -/
def seqState0 : Host.Outcome State Fault Refusal → Option Nat
  | .next t => some (t.seqState 0)
  | _ => none

theorem crossedOwners_started : crossedOwners.Started ⟨.pair 0, 0⟩ 0x0403 releaseOfHandle0 := by
  unfold State.Started
  decide +kernel

/-- The rebuild of partition 0's pools ends partition 1's request, whose updates then go through. -/
theorem crossedOwners_reactivates : seqState0 (exec (.convRelease ⟨.pair 0, 0⟩) crossedOwners) = some 1 := by decide +kernel

/-- Refutes O56 at CONV_RELEASE, where an uncorrectable word is found as the pages go back: the statement has the released sequence
inactive whatever the reel's words are. The end of another partition's request, which lies in the range of the one whose pools are
rebuilt, lets that partition's waiting updates through, and one of them activates the released sequence again. The statement leaves
out that no word of the reel is uncorrectable, which it asks for in its other clauses; with it the released sequence is inactive, as
`seqState_releaseConv` says. -/
theorem not_requestCommands : ¬ Obligations.RequestCommands := by
  intro h
  have hcanon : crossedOwners.canon := by
    unfold State.canon Stores.wf
    decide +kernel
  obtain ⟨-, -, hrelease, -⟩ := h crossedOwners ⟨.pair 0, 0⟩ releaseOfHandle0 0 hcanon (by decide +kernel)
  obtain ⟨u, ⟨t, ht, -, -, hframe⟩, -, -, hfree, -⟩ :=
    ((hrelease crossedOwners_started).2 (by decide +kernel)).2 0 (by decide +kernel) |>.2 (by decide +kernel) (by decide +kernel)
  have hstate : t.seqState 0 = u.seqState 0 := by
    rw [hframe]
    rfl
  have hactive : some (t.seqState 0) = some 1 := (congrArg seqState0 ht).symm.trans crossedOwners_reactivates
  rw [hstate, hfree] at hactive
  exact absurd hactive (by decide)

end Sys2Proof.Machine
end

section
/-!
PROOFS. Hawkmoth's accesses (R37, R144, R145, R155, R276): what a session's reads and writes, and the records they raise, leave alone,
and what a write's stored bytes depend on.
-/

namespace Sys2Proof.Machine

/-- t has s's sessions, commands and arrays: what Hawkmoth's accesses and records leave. -/
structure State.sameVideo (t s : State) : Prop where
  vid : t.vid = s.vid
  spn : t.spn = s.spn
  arrays : t.arrays = s.arrays

/-- t and s hold the same bytes behind the same doors: memory with its lines, uncorrectable words, tags and keys, the memory behind
the ports, the arrays, and every register word in which no count shows. -/
structure State.sameStores (t s : State) : Prop where
  mem : t.mem = s.mem
  pcieMem : t.pcieMem = s.pcieMem
  tline : t.tline = s.tline
  ue : t.ue = s.ue
  tierTags : t.tierTags = s.tierTags
  coc : t.coc = s.coc
  arrays : t.arrays = s.arrays
  words : t.keepsWords s

section
variable {r s t : State} {p : PartNum} {i : Fin 48} {a n l : Nat} {bs : List Byte}

/-! ### What accesses leave of the sessions -/

theorem State.sameVideo_refl : s.sameVideo s := ⟨rfl, rfl, rfl⟩

theorem State.sameVideo.trans (h : t.sameVideo s) (g : s.sameVideo r) : t.sameVideo r :=
  ⟨h.vid.trans g.vid, h.spn.trans g.spn, h.arrays.trans g.arrays⟩

theorem State.readOver.sameVideo (h : t.readOver s) : t.sameVideo s := ⟨by rw [h.1], by rw [h.1], h.2⟩

theorem State.based.sameVideo (h : t.based s) : t.sameVideo s := h.readOver.sameVideo

theorem State.regsOver.sameVideo (h : t.regsOver s) : t.sameVideo s := by
  rw [h]
  exact ⟨rfl, rfl, rfl⟩

theorem State.sameVideo.cmd (h : t.sameVideo s) (c : CmdRef) : t.cmd c = s.cmd c := by rw [State.cmd, h.spn, State.cmd]

theorem readThrough_sameVideo : (s.readThrough a n).1.sameVideo s := by
  have hbad : ∀ {l : List Nat} {v : State}, (l.foldl (fun s w => s.eccReport w 5 true) v).sameVideo v :=
    (based_foldl (fun _ _ h => State.eccReport_based h) State.based_refl).sameVideo
  have hfree : ∀ {v : State} {f : Nat}, State.sameVideo { v with free := f } v := ⟨rfl, rfl, rfl⟩
  exact countRead_counted.readOver.sameVideo.trans (hfree.trans (hbad.trans correct_based.sameVideo))

theorem vidDenied_based : (s.vidDenied p a).based s := State.accessError_based State.based_refl

/-- A read for a session leaves the sessions. -/
theorem vidRead_sameVideo : (s.vidRead p a n).1.sameVideo s := by
  unfold State.vidRead
  split
  · exact vidDenied_based.sameVideo
  · split
    · exact State.sameVideo_refl
    · exact readThrough_sameVideo

theorem vidScan_sameVideo : (s.vidScan p a n).sameVideo s := by
  unfold State.vidScan
  split
  · exact vidDenied_based.sameVideo
  · exact (based_foldl (fun _ _ h => State.eccReport_based h) State.based_refl).sameVideo.trans
      (linkCheck_counted.readOver.trans correct_based.readOver).sameVideo

theorem write_sameVideo : (s.write a bs).sameVideo s :=
  State.sameVideo.trans ⟨State.store_vid .., State.store_spn .., State.store_arrays ..⟩
    (countWrite_counted.readOver.trans (countMerge_counted.readOver.trans mergeReads_based.readOver)).sameVideo

theorem blockWrite_sameVideo : (s.blockWrite a bs).sameVideo s := by
  unfold State.blockWrite
  split
  · split
    · exact ⟨rfl, rfl, rfl⟩
    · exact State.sameVideo_refl
  · exact write_sameVideo

/-- A write for a session leaves the sessions. -/
theorem vidWrite_sameVideo : (s.vidWrite p a bs).sameVideo s := by
  unfold State.vidWrite
  split
  · exact blockWrite_sameVideo
  · exact vidDenied_based.sameVideo

/-- A session's record changes no register outside the error collector. -/
theorem vidEvent_noted {severity : Nat} : (s.vidEvent i severity).noted s := by
  unfold State.vidEvent
  split
  · exact State.noted_refl
  · exact report_noted

/-! ### What a write stores -/

theorem State.sameStores.trans (h : t.sameStores s) (g : s.sameStores r) : t.sameStores r :=
  ⟨h.mem.trans g.mem, h.pcieMem.trans g.pcieMem, h.tline.trans g.tline, h.ue.trans g.ue, h.tierTags.trans g.tierTags,
    h.coc.trans g.coc, h.arrays.trans g.arrays, h.words.trans g.words⟩

theorem State.sameStores.symm (h : t.sameStores s) : s.sameStores t :=
  ⟨h.mem.symm, h.pcieMem.symm, h.tline.symm, h.ue.symm, h.tierTags.symm, h.coc.symm, h.arrays.symm, fun x hx => (h.words x hx).symm⟩

theorem State.readOver.sameStores (h : t.readOver s) (hw : t.keepsWords s) : t.sameStores s := by
  refine ⟨?_, ?_, ?_, ?_, ?_, ?_, h.2, hw⟩ <;> rw [h.1]

theorem State.noted.sameStores (h : t.noted s) : t.sameStores s := h.1.readOver.sameStores h.2

theorem openLine_sameStores (h : t.sameStores s) : (t.openLine l).sameStores (s.openLine l) := by
  have hkey := lineKey_congr h.tierTags h.coc
  have hforeign : t.foreignLine l = s.foreignLine l := by simp only [State.foreignLine, h.tline, hkey]
  have hbytes : t.foreignBytes l = s.foreignBytes l := by
    simp only [State.foreignBytes, State.plainLine, h.tline, h.mem, hkey]
  unfold State.openLine
  rw [hforeign, hbytes, h.mem]
  split
  · exact ⟨rfl, h.pcieMem, h.tline, h.ue, h.tierTags, h.coc, h.arrays, h.words⟩
  · exact h

theorem sealLine_sameStores (h : t.sameStores s) : (t.sealLine l).sameStores (s.sealLine l) := by
  have hkey := lineKey_congr h.tierTags h.coc l
  unfold State.sealLine State.plainLine
  rw [hkey, h.mem, h.tline]
  exact ⟨rfl, h.pcieMem, rfl, h.ue, h.tierTags, h.coc, h.arrays, h.words⟩

theorem foldl_sameStores {f : State → Nat → State} (hf : ∀ {t s : State} {l}, t.sameStores s → (f t l).sameStores (f s l))
    (ls : List Nat) : ∀ {t s : State}, t.sameStores s → (ls.foldl f t).sameStores (ls.foldl f s) := by
  induction ls with
  | nil => exact fun h => h
  | cons l ls ih => exact fun h => ih (hf h)

theorem openLines_sameStores (h : t.sameStores s) (ls : List Nat) : (t.openLines ls).sameStores (s.openLines ls) :=
  foldl_sameStores (f := State.openLine) openLine_sameStores ls h

theorem sealLines_sameStores (h : t.sameStores s) (ls : List Nat) : (t.sealLines ls).sameStores (s.sealLines ls) :=
  foldl_sameStores (f := State.sealLine) sealLine_sameStores ls h

theorem storable_congr (h : t.sameStores s) : t.storable = s.storable := by
  funext a n x
  simp only [State.storable, State.badIn, State.badWords, State.misplaced, h.ue, h.tline]

/-- Equal stores are equal after a store. -/
theorem store_sameStores (h : t.sameStores s) : (t.store a bs).sameStores (s.store a bs) := by
  have hput : ∀ {t s : State}, t.sameStores s → (t.putBytes a bs).sameStores (s.putBytes a bs) := by
    intro t s h
    unfold State.putBytes
    rw [storable_congr h, h.mem, h.ue]
    exact ⟨rfl, h.pcieMem, h.tline, rfl, h.tierTags, h.coc, h.arrays, h.words⟩
  have hlines : t.storeLines a bs.length = s.storeLines a bs.length := by simp only [State.storeLines, storable_congr h]
  unfold State.store
  rw [hlines]
  exact sealLines_sameStores (hput (openLines_sameStores h _)) _

theorem write_sameStores (h : t.sameStores s) : (t.write a bs).sameStores (s.write a bs) := by
  have hcount : ∀ {v : State},
      (((v.mergeReads a bs.length 4).countMerge a bs.length).countWrite a bs.length).sameStores v := fun {v} =>
    (countWrite_counted.readOver.trans (countMerge_counted.readOver.trans mergeReads_based.readOver)).sameStores
      ((countWrite_keepsWords _ _).trans ((countMerge_keepsWords _ _).trans (mergeReads_keepsWords _ _ _)))
  exact store_sameStores (hcount.trans (h.trans hcount.symm))

/-- A window's registers show no count. -/
theorem windowFields_uncounted (w : Fin 16) (port : Port) : (F.pciWinCtlKind w).uncounted ∧ (F.pciWinCtlPartition w).uncounted
    ∧ (F.pciWinCtlPort w).uncounted ∧ (F.pciWinBaseBase w).uncounted ∧ (F.pciLinkUp port).uncounted :=
  ⟨uncounted_window (by decide) (by omega), uncounted_window (by decide) (by omega), uncounted_window (by decide) (by omega),
    uncounted_window (by decide) (by omega), uncounted_window (by decide) (by omega)⟩

theorem vidPlace_congr (h : t.sameStores s) : t.vidPlace p a n = s.vidPlace p a n := by
  have hwindow : t.inHostWindow p a n = s.inHostWindow p a n := by
    unfold State.inHostWindow State.windowKind
    split
    · next w off _ =>
      obtain ⟨hkind, hpart, -⟩ := windowFields_uncounted w 0
      rw [h.words.get hkind, h.words.get hpart]
    · rfl
  have hsealed : t.isSealed p = s.isSealed p := by
    have hf : F.cocSealSealed.uncounted := uncounted_window (by decide) (by decide)
    rw [State.isSealed, State.bit, h.words.get hf, State.isSealed, State.bit]
  have htier : t.inOwnTier p a n = s.inOwnTier p a n := by
    have htag : t.tagAt = s.tagAt := by
      funext x
      simp only [State.tagAt, State.vtag, State.ttag, State.arr, h.arrays, h.tierTags, usable_congr h.words]
    unfold State.inOwnTier State.deniedIn State.tagAllows
    rw [htag, hsealed]
  rw [State.vidPlace, hwindow, htier, State.vidPlace]

theorem windowTarget_congr (h : t.sameStores s) : t.windowTarget a = s.windowTarget a := by
  unfold State.windowTarget State.windowPort
  split
  · next w off _ =>
    obtain ⟨-, -, hport, hbase, -⟩ := windowFields_uncounted w 0
    rw [h.words.flag hport, h.words.get hbase]
  · rfl

theorem blockWrite_sameStores (h : t.sameStores s) : (t.blockWrite a bs).sameStores (s.blockWrite a bs) := by
  unfold State.blockWrite
  rw [windowTarget_congr h]
  split
  · next port addr _ =>
    obtain ⟨-, -, -, -, hup⟩ := windowFields_uncounted 0 port
    rw [h.words.flag hup]
    split
    · refine ⟨h.mem, ?_, h.tline, h.ue, h.tierTags, h.coc, h.arrays, h.words⟩
      simp only [State.pcieStore, h.pcieMem]
    · exact h
  · exact write_sameStores h

/-- Equal stores are equal after a session's write: what it stores depends on neither the sessions nor the free values drawn. -/
theorem vidWrite_sameStores (h : t.sameStores s) : (t.vidWrite p a bs).sameStores (s.vidWrite p a bs) := by
  have hdenied : ∀ {v : State}, (v.vidDenied p a).sameStores v := fun {v} =>
    State.noted.sameStores ⟨vidDenied_based, reportAt_keepsWords _ _⟩
  unfold State.vidWrite
  rw [vidPlace_congr h]
  split
  · exact blockWrite_sameStores h
  · exact hdenied.trans (h.trans hdenied.symm)

end

end Sys2Proof.Machine
end

section
/-!
PROOFS. Hawkmoth's sessions (R273, R280, R283, R303): what work for one session leaves of the others, and what renewing a session's
readiness changes of the session and of its status register.
-/

namespace Sys2Proof.Machine

/-- t has s's arrays and every session of s but i. -/
structure State.onSession (i : Fin 48) (t s : State) : Prop where
  others : ∀ k, k ≠ i → t.ses k = s.ses k
  arrays : t.arrays = s.arrays

/-- t is s but for sessions and registers. -/
def State.videoOver (t s : State) : Prop := t = { s with vid := t.vid, regs := t.regs }

/-- A bit of session i's status register. -/
def statBit (i : Fin 48) (lo : Nat) : Fld := ⟨regKey 0x42 (0x100 + 4 * i), lo, 1, false⟩

/-- The state in which session i shows that it waits for w (R283, R303). -/
def State.showWait (s : State) (i : Fin 48) (w : Nat) : State :=
  let s := if w = 1 then s.raiseBit (F.hwkSStatPoolWait i) else if w = 2 then s.raiseBit (F.hwkSStatRingWait i) else s
  if s.get (F.hwkSStatState i) = 4 then s else s.set (F.hwkSStatState i) (if w = 0 then 1 else 2)

section
variable {r s t : State} {i k : Fin 48} {v : Session}

/-! ### The table of sessions -/

theorem ses_congr (h : t.vid = s.vid) (k : Fin 48) : t.ses k = s.ses k := by rw [State.ses, h, State.ses]

theorem State.sameVideo.ses (h : t.sameVideo s) (k : Fin 48) : t.ses k = s.ses k := ses_congr h.vid k

@[simp] theorem ses_setSes_self {o : Option Session} : (s.setSes i o).ses i = o := by simp [State.setSes, State.ses]

theorem ses_setSes_ne {o : Option Session} (h : k ≠ i) : (s.setSes i o).ses k = s.ses k :=
  Vector.getElem_set_ne i.isLt k.isLt fun e => h (Fin.ext e.symm)

/-- A change of an open session, as the session it puts. -/
theorem modSes_some (h : s.ses i = some v) (f : Session → Session) : s.modSes i f = s.setSes i (some (f v)) := by
  rw [State.modSes, h]
  rfl

theorem ses_modSes_self (h : s.ses i = some v) (f : Session → Session) : (s.modSes i f).ses i = some (f v) := by
  rw [modSes_some h, ses_setSes_self]

theorem State.onSession_refl : s.onSession i s := ⟨fun _ _ => rfl, rfl⟩

theorem State.onSession.trans (h : t.onSession i s) (g : s.onSession i r) : t.onSession i r :=
  ⟨fun k hk => (h.others k hk).trans (g.others k hk), h.arrays.trans g.arrays⟩

theorem State.sameVideo.onSession (h : t.sameVideo s) : t.onSession i s := ⟨fun k _ => h.ses k, h.arrays⟩

theorem setSes_onSession {o : Option Session} : (s.setSes i o).onSession i s := ⟨fun _ hk => ses_setSes_ne hk, rfl⟩

theorem modSes_onSession {f : Session → Session} : (s.modSes i f).onSession i s := setSes_onSession

/-! ### Changes of sessions and registers alone -/

theorem State.videoOver.trans (h : t.videoOver s) (g : s.videoOver r) : t.videoOver r :=
  Eq.trans h (congrArg (fun x : State => { x with vid := t.vid, regs := t.regs }) g)

theorem State.regsOver.videoOver (h : t.regsOver s) : t.videoOver s := by
  unfold State.videoOver
  rw [h]

theorem State.videoOver.mem (h : t.videoOver s) : t.mem = s.mem := by rw [h]

theorem State.videoOver.pcieMem (h : t.videoOver s) : t.pcieMem = s.pcieMem := by rw [h]

theorem State.videoOver.byte (h : t.videoOver s) (x : Nat) : t.byte x = s.byte x := by rw [h]; rfl

theorem State.videoOver.knot (h : t.videoOver s) (n : ArrayNum) (j : Nat) : t.knot n j = s.knot n j := by rw [h]; rfl

/-! ### Fields of one register -/

/-- Fields of one word that share no bit of it lie apart. -/
theorem apart_of_word {key lo w lo' w' : Nat} (h : lo + w ≤ lo' ∨ lo' + w' ≤ lo) :
    Fld.apart ⟨key, lo, w, false⟩ ⟨key, lo', w', false⟩ = true := by
  simp [Fld.apart, h]

/-- Fields of two words lie apart. -/
theorem apart_of_words {key key' lo w lo' w' : Nat} (h : key ≠ key') :
    Fld.apart ⟨key, lo, w, false⟩ ⟨key', lo', w', false⟩ = true := by
  simp [Fld.apart, h]

theorem flag_set_apart {f g : Fld} (hg : g.fits = true) (h : f.apart g = true) (x : Nat) : (s.set f x).flag g = s.flag g := by
  rw [State.flag, get_set_apart hg h, State.flag]

/-! ### Readiness (R273, R283, R303) -/

theorem showWait_regsOver {w : Nat} : (s.showWait i w).regsOver s := by
  unfold State.showWait
  extract_lets u
  have hu : State.regsOver u s := by
    unfold u
    split
    · exact raiseBit_regsOver
    · split
      · exact raiseBit_regsOver
      · rfl
  split
  · exact hu
  · exact set_regsOver.trans hu

/-- Renewing readiness leaves a closing session; of any other it renews the ready pictures and shows what it waits for. -/
theorem vidRefresh_cases (h : s.ses i = some v) :
    s.vidRefresh i = s ∨ ∃ l w, s.vidRefresh i = (s.setSes i (some { v with ready := l })).showWait i w := by
  unfold State.vidRefresh
  rw [h]
  dsimp -zeta only
  split
  · exact .inl rfl
  · extract_lets w ready
    refine .inr ⟨ready, w, ?_⟩
    rw [← modSes_some h fun v => { v with ready := ready }]
    rfl

/-- Renewing readiness changes a session's ready pictures only. -/
theorem ses_vidRefresh (h : s.ses i = some v) : ∃ l, (s.vidRefresh i).ses i = some { v with ready := l } := by
  rcases vidRefresh_cases h with e | ⟨l, w, e⟩
  · exact ⟨v.ready, by rw [e, h]⟩
  · exact ⟨l, by rw [e, showWait_regsOver.sameVideo.ses, ses_setSes_self]⟩

theorem vidRefresh_over (h : s.ses i = some v) : (s.vidRefresh i).onSession i s ∧ (s.vidRefresh i).videoOver s := by
  rcases vidRefresh_cases h with e | ⟨l, w, e⟩
  · rw [e]
    exact ⟨State.onSession_refl, rfl⟩
  · rw [e]
    exact ⟨showWait_regsOver.sameVideo.onSession.trans setSes_onSession, showWait_regsOver.videoOver.trans rfl⟩

/-- A flag of a session's status register stays raised as it shows what it waits for. -/
theorem flag_showWait {w lo : Nat} (h : s.flag (statBit i lo) = true) (hlo : 3 ≤ lo) (hfit : lo < 32) :
    (s.showWait i w).flag (statBit i lo) = true := by
  have hfits : (statBit i lo).fits = true := by simp [statBit, Fld.fits]; omega
  have hraise : ∀ b, (s.raiseBit (statBit i b)).flag (statBit i lo) = true := by
    intro b
    by_cases hb : b = lo
    · rw [hb, flag_raiseBit hfits rfl]
    · exact (flag_set_apart hfits (apart_of_word (by omega)) 1).trans h
  unfold State.showWait
  extract_lets u
  have hu : u.flag (statBit i lo) = true := by
    unfold u
    split
    · exact hraise 3
    · split
      · exact hraise 4
      · exact h
  split
  · exact hu
  · exact (flag_set_apart hfits (apart_of_word (by omega)) _).trans hu

theorem flag_vidRefresh {lo : Nat} (h : s.flag (statBit i lo) = true) (hlo : 3 ≤ lo) (hfit : lo < 32)
    (hv : s.ses i = some v) : (s.vidRefresh i).flag (statBit i lo) = true := by
  rcases vidRefresh_cases hv with e | ⟨l, w, e⟩
  · rw [e, h]
  · rw [e]
    exact flag_showWait h hlo hfit

/-- A session in its error state stays in it (R289). -/
theorem error_vidRefresh (h : s.get (F.hwkSStatState i) = 4) (hv : s.ses i = some v) :
    (s.vidRefresh i).get (F.hwkSStatState i) = 4 := by
  rcases vidRefresh_cases hv with e | ⟨l, w, e⟩
  · rw [e, h]
  · have hflag : ∀ b, 3 ≤ b → ((s.setSes i (some { v with ready := l })).raiseBit
        (statBit i b)).get (F.hwkSStatState i) = 4 := fun b hb =>
      (get_set_apart rfl (apart_of_word (by omega)) 1).trans h
    rw [e]
    unfold State.showWait
    extract_lets u
    have hu : u.get (F.hwkSStatState i) = 4 := by
      unfold u
      split
      · exact hflag 3 (by decide)
      · split
        · exact hflag 4 (by decide)
        · exact h
    rw [if_pos hu, hu]

end

end Sys2Proof.Machine
end

section
/-!
PROOFS. VID commands (R274 to R277, R297): what opening and freeing a session leave, and from these the clauses of O58 on VID_OPEN,
VID_CLOSE, VID_RECONFIG and VID_QUERY.
-/

namespace Sys2Proof.Machine

/-- The state in which a session is freed: its number, its cost and its registers (R277). -/
def State.vidFreed (s : State) (i : Fin 48) : State :=
  ((s.setSes i none).vidLoads.set (F.hwkSStatState i) 0).set (F.hwkSStatPartition i) 0

/-- A session whose close has begun, by a command if one asked for it: what it had taken in is discarded (R277). -/
def Session.closeBy (v : Session) (c : Option CmdRef) : Session :=
  { v with
    closing := v.closing.orElse fun _ => c, closeAll := v.closeAll || c.isNone
    entries := [], gather := none, units := [], unit := none, ready := [] }

/-- t is s but for the commands and what the ledger owes. -/
def State.commandsOver (t s : State) : Prop :=
  t = { s with
    spn := { s.spn with cmds := t.spn.cmds }
    twn := { s.twn with ledger := { s.twn.ledger with pending := t.twn.ledger.pending } } }

section
variable {r s t : State} {i : Fin 48} {c : CmdRef} {m : Cmd} {p : PartNum} {v : Session} {c' : Option CmdRef}

/-! ### Registers of sessions -/

theorem get_of_regs (h : t.regs = s.regs) (f : Fld) : t.get f = s.get f := by simp only [State.get, State.reg64, reg_congr h]

/-- The words from which a fold of stores keeps away read as before. -/
theorem reg_foldl_setReg_ne {l : List Nat} {key : Nat → Nat} {val : Nat → Word} {x : Nat} (h : ∀ k ∈ l, x ≠ key k) :
    (l.foldl (fun s k => s.setReg (key k) (val k)) s).reg x = s.reg x := by
  induction l generalizing s with
  | nil => rfl
  | cons k l ih =>
    obtain ⟨hk, hl⟩ := List.forall_mem_cons.mp h
    rw [List.foldl_cons, ih hl, reg_setReg_ne _ hk]

/-- Each of the first n words stored reads what was stored there last. -/
theorem reg_foldl_setReg_self {key : Nat → Nat} {val : Nat → Word} (hkey : ∀ j k, key j = key k → j = k) {k n : Nat} (hk : k < n) :
    ((List.range n).foldl (fun s k => s.setReg (key k) (val k)) s).reg (key k) = val k := by
  induction n with
  | zero => omega
  | succ n ih =>
    rw [List.range_succ, List.foldl_append, List.foldl_cons, List.foldl_nil]
    by_cases hn : k = n
    · rw [hn, reg_setReg_self]
    · rw [reg_setReg_ne _ fun e => hn (hkey _ _ e), ih (by omega)]

theorem rcShadow_inj (e j k : Nat) (h : rcKey e j + 0x80000 = rcKey e k + 0x80000) : j = k := by
  unfold rcKey regKey at h
  omega

theorem setReg_regsOver {key : Nat} {x : Word} : (s.setReg key x).regsOver s := rfl

theorem foldl_setReg_regsOver {l : List Nat} {f : State → Nat → State} (hf : ∀ s k, (f s k).regsOver s) :
    (l.foldl f s).regsOver s :=
  foldl_over (R := State.regsOver) (fun _ => rfl) State.regsOver.trans hf

theorem vidLoads_regsOver : s.vidLoads.regsOver s := set_regsOver.trans set_regsOver

/-! ### A session that opens (R274, R297, R303) -/

/-- Opening a session puts it in the table, and else changes registers only. -/
theorem vidOpenAt_regsOver : (s.vidOpenAt i v).regsOver (s.setSes i (some v)) := by
  unfold State.vidOpenAt
  extract_lets s1 s2 s3 e s4
  have hs1 : s1.regsOver (s.setSes i (some v)) := vidLoads_regsOver
  have hs3 : s3.regsOver (s.setSes i (some v)) :=
    set_regsOver.trans (set_regsOver.trans (set_regsOver.trans (set_regsOver.trans hs1)))
  split
  · exact hs3
  · exact set_regsOver.trans ((foldl_setReg_regsOver fun s k => setReg_regsOver.trans setReg_regsOver).trans hs3)

/-- A field of a word below the rate-control words. -/
theorem get_of_low {u : State} (h : ∀ x, x < regKey 0x42 0x1000 → t.reg x = u.reg x) {off lo w : Nat} (hoff : off < 0x1000) :
    t.get ⟨regKey 0x42 off, lo, w, false⟩ = u.get ⟨regKey 0x42 off, lo, w, false⟩ := by
  have hx : regKey 0x42 off < regKey 0x42 0x1000 := Nat.add_lt_add_left hoff _
  rw [get_narrow, h _ hx, get_narrow]

/-- The rate-control words of an encoder lie above the registers that every session has. -/
theorem vidOpenAt_low : ∃ u : State, (∀ x, x < regKey 0x42 0x1000 → (s.vidOpenAt i v).reg x
    = ((((u.set (F.hwkSStatState i) 1).set (F.hwkSStatPartition i) v.part.val).set (F.hwkSPicsPictures i) 0).set
        (F.hwkSConcealUnits i) 0).reg x) := by
  refine ⟨(s.setSes i (some v)).vidLoads, fun x hx => ?_⟩
  unfold State.vidOpenAt
  extract_lets s1 s2 s3 e s4
  split
  · rfl
  · have hne : ∀ w, x ≠ rcKey e w ∧ x ≠ rcKey e w + 0x80000 := by
      intro w
      unfold rcKey regKey
      unfold regKey at hx
      omega
    have hfull : x ≠ (F.hwkRcFullFullness e).key := by
      unfold F.hwkRcFullFullness
      unfold regKey at hx ⊢
      dsimp only
      omega
    refine (reg_set_ne hfull).trans (foldl_field (g := fun s => s.reg x) fun s k => ?_)
    rw [reg_setReg_ne _ (hne k).2, reg_setReg_ne _ (hne k).1]

/-- The state of a session, its partition, its count of pictures and its count of concealed units share no bit. -/
theorem sessionFields_apart : (F.hwkSConcealUnits i).apart (F.hwkSStatState i) = true
    ∧ (F.hwkSPicsPictures i).apart (F.hwkSStatState i) = true ∧ (F.hwkSStatPartition i).apart (F.hwkSStatState i) = true
    ∧ (F.hwkSConcealUnits i).apart (F.hwkSStatPartition i) = true ∧ (F.hwkSPicsPictures i).apart (F.hwkSStatPartition i) = true
    ∧ (F.hwkSConcealUnits i).apart (F.hwkSPicsPictures i) = true := by
  have hi := i.isLt
  refine ⟨?_, ?_, apart_of_word (by decide), ?_, ?_, ?_⟩
  all_goals
    refine apart_of_words ?_
    unfold regKey
    omega

/-- A session just opened shows that it runs, its partition and no picture. -/
theorem get_vidOpenAt : (s.vidOpenAt i v).get (F.hwkSStatState i) = 1 ∧ (s.vidOpenAt i v).get (F.hwkSStatPartition i) = v.part.val
    ∧ (s.vidOpenAt i v).get (F.hwkSPicsPictures i) = 0 := by
  obtain ⟨u, hu⟩ := vidOpenAt_low (s := s) (i := i) (v := v)
  obtain ⟨h1, h2, h3, h4, h5, h6⟩ := sessionFields_apart (i := i)
  refine ⟨(get_of_low hu (by omega)).trans ?_, (get_of_low hu (by omega)).trans ?_, (get_of_low hu (by omega)).trans ?_⟩
  · exact (get_set_apart rfl h1 _).trans ((get_set_apart rfl h2 _).trans ((get_set_apart rfl h3 _).trans (get_set_self rfl 1)))
  · exact (get_set_apart rfl h4 _).trans ((get_set_apart rfl h5 _).trans ((get_set_self rfl _).trans (Nat.mod_eq_of_lt v.part.isLt)))
  · exact (get_set_apart rfl h6 _).trans (get_set_self rfl 0)

/-- What VID_OPEN does with the session that the descriptor at addr describes, once the descriptor is read (R276). -/
def State.openAnswer (u : State) (c : CmdRef) (p : PartNum) (addr : Nat) (v : Session) : State :=
  if !u.vidPlaced p addr v then u.complete c stDenied
  else if !vidDescOk addr v then u.complete c stBad
  else
    match u.vidNumber v.decodes with
    | none => u.complete c stBusy
    | some i =>
      if !u.flag F.hwkStatusReady ∨ (if v.decodes then 4000000000000 else 2000000000000) < u.vidLoad v.decodes + v.cost then
        u.complete c stBusy
      else (u.vidOpenAt i v).complete c stOk (leBytes 1 i.val)

theorem exec_vidOpen {hw : HostStores} (hc : (s.hostStores hw).Started c 0x0501 m) (hp : m.part? = some p) :
    exec (.vidOpen c hw) s = .next (if !(s.hostStores hw).vidPlace p (m.arg 8 8) 128 then (s.hostStores hw).complete c stDenied
      else ((s.hostStores hw).vidRead p (m.arg 8 8) 128).1.openAnswer c p (m.arg 8 8)
        (newSession p ((s.hostStores hw).vidRead p (m.arg 8 8) 128).2)) :=
  congrArg Host.Outcome.next (runPart_started hc hp _)

/-- Hawkmoth is ready and has room for a session's cost (R272, R276). -/
def State.hasRoom (u : State) (v : Session) : Prop :=
  u.flag F.hwkStatusReady = true ∧ u.vidLoad v.decodes + v.cost ≤ (if v.decodes = true then 4000000000000 else 2000000000000)

theorem openAnswer_busy {u : State} {addr : Nat} (hplaced : u.vidPlaced p addr v = true) (hdesc : vidDescOk addr v = true)
    (h : u.vidNumber v.decodes = none ∨ ¬ u.hasRoom v) : u.openAnswer c p addr v = u.complete c stBusy := by
  unfold State.openAnswer
  rw [hplaced, hdesc, if_neg (by decide), if_neg (by decide)]
  split
  · rfl
  · next i hi =>
    have hroom : ¬ u.hasRoom v := h.resolve_left (by rw [hi]; nofun)
    refine if_pos ?_
    unfold State.hasRoom at hroom
    simpa [imp_iff_not_or] using hroom

theorem openAnswer_opens {u : State} {addr : Nat} (hplaced : u.vidPlaced p addr v = true) (hdesc : vidDescOk addr v = true)
    (hi : u.vidNumber v.decodes = some i) (hroom : u.hasRoom v) :
    u.openAnswer c p addr v = (u.vidOpenAt i v).complete c stOk (leBytes 1 i.val) := by
  obtain ⟨hready, hcost⟩ := hroom
  unfold State.openAnswer
  rw [hplaced, hdesc, if_neg (by decide), if_neg (by decide), hi]
  refine if_neg (not_or.mpr ⟨by simp [hready], Nat.not_lt.mpr hcost⟩)

/-- The clause of O58 on VID_OPEN: its checks in R276's order, and the session that it opens. -/
theorem vidOpen_clause {hw : HostStores} (hc : (s.hostStores hw).Started c 0x0501 m) (hp : m.part? = some p) :
    let w := s.hostStores hw
    let addr := m.arg 8 8
    let r := w.vidRead p addr 128
    let u := r.1
    let v := newSession p r.2
    let fits := u.flag F.hwkStatusReady = true
      ∧ u.vidLoad v.decodes + v.cost ≤ (if v.decodes = true then 4000000000000 else 2000000000000)
    (w.vidPlace p addr 128 = false → Completes (exec (.vidOpen c hw) s) w c stDenied []) ∧
    (w.vidPlace p addr 128 = true →
      (u.vidPlaced p addr v = false → Completes (exec (.vidOpen c hw) s) u c stDenied []) ∧
      (u.vidPlaced p addr v = true → vidDescOk addr v = false → Completes (exec (.vidOpen c hw) s) u c stBad []) ∧
      (u.vidPlaced p addr v = true → vidDescOk addr v = true →
        ((u.vidNumber v.decodes = none ∨ ¬ fits) → Completes (exec (.vidOpen c hw) s) u c stBusy []) ∧
        (∀ i, u.vidNumber v.decodes = some i → fits → ∃ t, Completes (exec (.vidOpen c hw) s) t c stOk (leBytes 1 i.val)
          ∧ t.ses i = some v ∧ (∀ k, k ≠ i → t.ses k = s.ses k) ∧ t.get (F.hwkSStatState i) = 1
          ∧ t.get (F.hwkSStatPartition i) = p.val ∧ t.get (F.hwkSPicsPictures i) = 0
          ∧ t = { u with vid := t.vid, regs := t.regs }))) := by
  intro w addr r u v fits
  have hu : u.sameVideo w := vidRead_sameVideo
  have hcmd : u.cmd c = some m := (hu.cmd c).trans hc.1
  have hexec : exec (.vidOpen c hw) s =
      .next (if !w.vidPlace p addr 128 then w.complete c stDenied else u.openAnswer c p addr v) := exec_vidOpen hc hp
  have hpart : v.part = p := rfl
  rw [hexec]
  clear_value v u
  refine ⟨fun hplace => ?_, fun hplace => ?_⟩
  · rw [hplace, if_pos (by decide)]
    exact completes_complete hc.1 _ _
  rw [hplace, if_neg (by decide)]
  refine ⟨fun hplaced => ?_, fun hplaced hdesc => ?_, fun hplaced hdesc => ⟨fun hbusy => ?_, fun i hi hroom => ?_⟩⟩
  · rw [State.openAnswer, hplaced, if_pos (by decide)]
    exact completes_complete hcmd _ _
  · rw [State.openAnswer, hplaced, hdesc, if_neg (by decide), if_pos (by decide)]
    exact completes_complete hcmd _ _
  · rw [openAnswer_busy hplaced hdesc hbusy]
    exact completes_complete hcmd _ _
  · have hopen : (u.vidOpenAt i v).sameVideo (u.setSes i (some v)) := vidOpenAt_regsOver.sameVideo
    obtain ⟨hstate, hpartition, hpictures⟩ := get_vidOpenAt (s := u) (i := i) (v := v)
    rw [openAnswer_opens hplaced hdesc hi hroom]
    refine ⟨u.vidOpenAt i v, completes_complete ((hopen.cmd c).trans hcmd) _ _, ?_, fun k hk => ?_, hstate, hpart ▸ hpartition,
      hpictures, vidOpenAt_regsOver.videoOver.trans rfl⟩
    · rw [hopen.ses, ses_setSes_self]
    · rw [hopen.ses, ses_setSes_ne hk, hu.ses]
      rfl

/-! ### A session that closes (R277) -/

theorem vidFree_of_some (h : s.ses i = some v) :
    s.vidFree i = match v.closing with
      | some m => (s.vidFreed i).complete m stOk
      | none => s.vidFreed i := by
  unfold State.vidFree
  rw [h]
  rfl

theorem vidFreed_regsOver : (s.vidFreed i).regsOver (s.setSes i none) :=
  set_regsOver.trans (set_regsOver.trans vidLoads_regsOver)

/-- A freed session shows no state. -/
theorem get_vidFreed : (s.vidFreed i).get (F.hwkSStatState i) = 0 := by
  obtain ⟨-, -, hpart, -⟩ := sessionFields_apart (i := i)
  exact (get_set_apart rfl hpart 0).trans (get_set_self rfl 0)

theorem vidCloseStart_of_some (h : s.ses i = some v) :
    s.vidCloseStart i c' = if v.inPipe.isNone then ((s.setSes i (some (v.closeBy c'))).set (F.hwkSStatState i) 3).vidFree i
      else (s.setSes i (some (v.closeBy c'))).set (F.hwkSStatState i) 3 := by
  unfold State.vidCloseStart
  rw [h]
  dsimp only
  rw [modSes_some h]
  rfl

/-- A command completed over effects that differ in how the command itself stands. -/
theorem Completes.over {o : Host.Outcome State Fault Refusal} {u w : State} {st : Nat} {bs : List Byte} (h : Completes o u c st bs)
    (hcmd : ∀ d, d ≠ c → u.cmd d = w.cmd d)
    (hu : u = { w with
      spn := { w.spn with cmds := u.spn.cmds, writer := u.spn.writer }
      twn := { w.twn with ledger := { w.twn.ledger with pending := u.twn.ledger.pending } } }) : Completes o w c st bs := by
  obtain ⟨t, ho, hcomp, hothers, ht⟩ := h
  refine ⟨t, ho, ?_, fun d hd => (hothers d hd).trans (hcmd d hd), ?_⟩
  · rw [hcomp, hu]
  · rw [ht, hu]

theorem exec_vidClose (hc : s.Started c 0x0502 m) (hp : m.part? = some p) :
    exec (.vidClose c) s = .next (match s.vidNamed p (m.arg 8 1) with
      | none => s.complete c stBad
      | some i =>
        if (s.ses i).any (fun v => v.closing == some c) then s.park c .none
        else if (s.ses i).any (fun v => v.isClosing) then s.complete c stBad
        else (s.park c .none).vidCloseStart i (some c)) :=
  congrArg Host.Outcome.next (runPart_started hc hp _)

theorem isClosing_eq_false : v.isClosing = false ↔ v.closing = none ∧ v.closeAll = false := by
  simp [Session.isClosing]

theorem State.commandsOver.vid (h : t.commandsOver s) : t.vid = s.vid := by rw [h]

theorem State.commandsOver.spn (h : t.commandsOver s) : t.spn = { s.spn with cmds := t.spn.cmds, writer := t.spn.writer } := by
  have hspn : t.spn = { s.spn with cmds := t.spn.cmds } := congrArg State.spn h
  have hwriter : t.spn.writer = s.spn.writer := by rw [hspn]
  rw [hwriter]
  exact hspn

theorem State.commandsOver.twn (h : t.commandsOver s) :
    t.twn = { s.twn with ledger := { s.twn.ledger with pending := t.twn.ledger.pending } } := congrArg State.twn h

/-- A close of a session without a picture in a pipe, in the state w in which its command was parked, frees the session and completes
the command. -/
theorem vidCloseStart_idle {w : State} {m' : Cmd} (hw : w.commandsOver s) (hcmd : w.cmd c = some m')
    (hothers : ∀ d, d ≠ c → w.cmd d = s.cmd d) (hv : s.ses i = some v) (hopen : v.isClosing = false) (hpipe : v.inPipe = none) :
    ∃ u, Completes (.next (w.vidCloseStart i (some c))) u c stOk [] ∧ u.ses i = none ∧ u.get (F.hwkSStatState i) = 0
      ∧ (∀ k, k ≠ i → u.ses k = s.ses k) ∧ u = { s with vid := u.vid, regs := u.regs } := by
  have hwses : ∀ k, w.ses k = s.ses k := ses_congr hw.vid
  have hclosing : (v.closeBy (some c)).closing = some c := by simp [Session.closeBy, (isClosing_eq_false.mp hopen).1]
  obtain ⟨x, hx⟩ : ∃ x, x = (w.setSes i (some (v.closeBy (some c)))).set (F.hwkSStatState i) 3 := ⟨_, rfl⟩
  have hxw : x.videoOver w := by rw [hx]; exact set_regsOver.videoOver.trans rfl
  have hxi : x.ses i = some (v.closeBy (some c)) := by rw [hx, set_regsOver.sameVideo.ses, ses_setSes_self]
  have hxo : x.onSession i w := by rw [hx]; exact set_regsOver.sameVideo.onSession.trans setSes_onSession
  have hfree : (x.vidFreed i).sameVideo (x.setSes i none) := vidFreed_regsOver.sameVideo
  have hover : (x.vidFreed i).videoOver w := vidFreed_regsOver.videoOver.trans (State.videoOver.trans rfl hxw)
  rw [vidCloseStart_of_some ((hwses i).trans hv), if_pos (by rw [hpipe]; rfl), ← hx, vidFree_of_some hxi, hclosing]
  have hstate : (x.vidFreed i).get (F.hwkSStatState i) = 0 := get_vidFreed
  generalize x.vidFreed i = k at hfree hover hstate
  have hspn : k.spn = w.spn := by rw [hover]
  have htwn : k.twn = w.twn := by rw [hover]
  have hkcmd : ∀ d, k.cmd d = w.cmd d := fun d => by rw [State.cmd, hspn, State.cmd]
  refine ⟨{ k with spn := s.spn, twn := s.twn },
    (completes_complete ((hkcmd c).trans hcmd) _ _).over (fun d hd => (hkcmd d).trans (hothers d hd)) ?_, ?_, ?_, fun j hj => ?_, ?_⟩
  · have h1 : k.spn = { s.spn with cmds := k.spn.cmds, writer := k.spn.writer } := hspn ▸ hw.spn
    have h2 : k.twn = { s.twn with ledger := { s.twn.ledger with pending := k.twn.ledger.pending } } := htwn ▸ hw.twn
    exact congr (congrArg (fun a b => { k with spn := a, twn := b }) h1) h2
  · exact (ses_congr hfree.vid i).trans ses_setSes_self
  · exact (get_of_regs rfl _).trans hstate
  · exact (hfree.ses j).trans ((ses_setSes_ne hj).trans ((hxo.others j hj).trans (hwses j)))
  · exact (congrArg (fun y : State => { y with spn := s.spn, twn := s.twn }) hover).trans
      (congrArg (fun y : State => { y with vid := k.vid, regs := k.regs, spn := s.spn, twn := s.twn }) hw)

/-- The clause of O58 on VID_CLOSE. -/
theorem vidClose_clause (hc : s.Started c 0x0502 m) (hp : m.part? = some p) :
    (s.vidNamed p (m.arg 8 1) = none → Completes (exec (.vidClose c) s) s c stBad []) ∧
    (∀ i v, s.vidNamed p (m.arg 8 1) = some i → s.ses i = some v →
      (v.closing = some c → Waits (exec (.vidClose c) s) s c .none) ∧
      (v.isClosing = true → v.closing ≠ some c → Completes (exec (.vidClose c) s) s c stBad []) ∧
      (v.isClosing = false → v.inPipe.isSome = true → ∃ t, exec (.vidClose c) s = .next t
        ∧ (t.ses i).map (fun x => (x.closing, x.inPipe)) = some (some c, v.inPipe) ∧ t.get (F.hwkSStatState i) = 3
        ∧ (t.cmd c).map (·.phase) = some .running) ∧
      (v.isClosing = false → v.inPipe = none → ∃ u, Completes (exec (.vidClose c) s) u c stOk [] ∧ u.ses i = none
        ∧ u.get (F.hwkSStatState i) = 0 ∧ (∀ k, k ≠ i → u.ses k = s.ses k)
        ∧ u = { s with vid := u.vid, regs := u.regs })) := by
  rw [exec_vidClose hc hp]
  refine ⟨fun hnone => ?_, fun i v hname hv => ?_⟩
  · rw [hnone]
    exact completes_complete hc.1 _ _
  rw [hname]
  dsimp only
  rw [hv, Option.any_some, Option.any_some]
  refine ⟨fun hmine => ?_, fun hclosing hmine => ?_, fun hopen hpipe => ?_, fun hopen hpipe => ?_⟩
  · rw [if_pos (by rw [hmine]; exact beq_self_eq_true _)]
    exact waits_park hc.1 .none
  · rw [if_neg (by simpa using hmine), if_pos hclosing]
    exact completes_complete hc.1 _ _
  · rw [if_neg (by simp [(isClosing_eq_false.mp hopen).1]), if_neg (by rw [hopen]; decide)]
    obtain ⟨w, hw, hcmd, -, hpark⟩ := waits_park hc.1 .none
    obtain ⟨m', hm', hphase⟩ := Option.map_eq_some_iff.mp hcmd
    cases hw
    have hbusy : ¬ v.inPipe.isNone = true := fun h => Option.isSome_iff_ne_none.mp hpipe (Option.isNone_iff_eq_none.mp h)
    rw [vidCloseStart_of_some ((ses_congr (State.commandsOver.vid hpark) i).trans hv), if_neg hbusy]
    refine ⟨_, rfl, ?_, get_set_self rfl 3, ?_⟩
    · rw [set_regsOver.sameVideo.ses, ses_setSes_self]
      simp [Session.closeBy, (isClosing_eq_false.mp hopen).1]
    · rw [set_regsOver.sameVideo.cmd]
      exact (congrArg (Option.map (·.phase)) hm').trans (congrArg some (Prod.ext_iff.mp hphase).1)
  · rw [if_neg (by simp [(isClosing_eq_false.mp hopen).1]), if_neg (by rw [hopen]; decide)]
    obtain ⟨w, hw, hcmd, hothers, hpark⟩ := waits_park hc.1 .none
    obtain ⟨m', hm', -⟩ := Option.map_eq_some_iff.mp hcmd
    cases hw
    exact vidCloseStart_idle hpark hm' hothers hv hopen hpipe

/-- The clause of O58 on VID_RECONFIG. -/
theorem vidReconfig_clause (hc : s.Started c 0x0503 m) (hp : m.part? = some p) :
    (s.vidNamed p (m.arg 8 1) = none → Completes (exec (.vidReconfig c) s) s c stBad []) ∧
    (∀ i, s.vidNamed p (m.arg 8 1) = some i →
      (i.val < 32 → Completes (exec (.vidReconfig c) s) s c stBad []) ∧
      (32 ≤ i.val → ∃ u, Completes (exec (.vidReconfig c) s) u c stOk []
        ∧ (∀ k, k < 5 → u.reg (rcKey (i.val - 32) k + 0x80000) = BitVec.ofNat 32 (m.arg (12 + 4 * k) 4) &&& rcMask k)
        ∧ (∀ x, (∀ k, k < 5 → x ≠ rcKey (i.val - 32) k + 0x80000) → u.reg x = s.reg x)
        ∧ u = { s with regs := u.regs })) := by
  have hexec : exec (.vidReconfig c) s = .next (match s.vidNamed p (m.arg 8 1) with
      | none => s.complete c stBad
      | some i =>
        if i.val < 32 then s.complete c stBad
        else
          ((List.range 5).foldl (fun s k =>
            s.setReg (rcKey (i.val - 32) k + 0x80000) (BitVec.ofNat 32 (m.arg (12 + 4 * k) 4) &&& rcMask k)) s).complete c stOk) :=
    congrArg Host.Outcome.next (runPart_started hc hp _)
  rw [hexec]
  refine ⟨fun hnone => ?_, fun i hname => ⟨fun hdec => ?_, fun henc => ?_⟩⟩
  · rw [hnone]
    exact completes_complete hc.1 _ _
  · simp only [hname, if_pos hdec]
    exact completes_complete hc.1 _ _
  · simp only [hname, if_neg (Nat.not_lt.mpr henc)]
    have hregs : State.regsOver ((List.range 5).foldl (fun s k =>
        s.setReg (rcKey (i.val - 32) k + 0x80000) (BitVec.ofNat 32 (m.arg (12 + 4 * k) 4) &&& rcMask k)) s) s :=
      foldl_setReg_regsOver fun _ _ => setReg_regsOver
    exact ⟨_, completes_complete ((hregs.sameVideo.cmd c).trans hc.1) _ _,
      fun k hk => reg_foldl_setReg_self (key := fun k => rcKey (i.val - 32) k + 0x80000) (rcShadow_inj _) hk,
      fun x hx => reg_foldl_setReg_ne (key := fun k => rcKey (i.val - 32) k + 0x80000)
        fun k hk => hx k (List.mem_range.mp hk), hregs⟩

/-- The clause of O58 on VID_QUERY. -/
theorem vidQuery_clause (hc : s.Started c 0x0504 m) (hp : m.part? = some p) :
    (s.vidNamed p (m.arg 8 1) = none → Completes (exec (.vidQuery c) s) s c stBad []) ∧
    (∀ i, s.vidNamed p (m.arg 8 1) = some i → Completes (exec (.vidQuery c) s) s c stOk
      (leBytes 4 (s.reg (regKey 0x42 (0x100 + 4 * i.val))).toNat ++ leBytes 4 (s.reg (regKey 0x42 (0x200 + 4 * i.val))).toNat
        ++ leBytes 4 (s.reg (regKey 0x42 (0x300 + 4 * i.val))).toNat)) := by
  have hexec : exec (.vidQuery c) s = .next (match s.vidNamed p (m.arg 8 1) with
      | none => s.complete c stBad
      | some i => s.complete c stOk (leBytes 4 (s.reg (regKey 0x42 (0x100 + 4 * i.val))).toNat
          ++ leBytes 4 (s.reg (regKey 0x42 (0x200 + 4 * i.val))).toNat
          ++ leBytes 4 (s.reg (regKey 0x42 (0x300 + 4 * i.val))).toNat)) :=
    congrArg Host.Outcome.next (runPart_started hc hp _)
  rw [hexec]
  refine ⟨fun hnone => ?_, fun i hname => ?_⟩
  · rw [hnone]
    exact completes_complete hc.1 _ _
  · rw [hname]
    exact completes_complete hc.1 _ _

end

end Sys2Proof.Machine
end

section
/-!
PROOFS. A poll of a session's counts (R279, R280, R284, R287, R291): what taking input entries in changes of the session, and from
this the clause of O58 on ring polls.
-/

namespace Sys2Proof.Machine

/-- y is v with k more input entries taken in: its counts of what was read stand, a decode session has passed k more entries, and an
encode session has passed or holds k more. -/
structure Session.tookIn (y v : Session) (k : Nat) : Prop where
  desc : y.desc = v.desc
  inSeen : y.inSeen = v.inSeen
  outSeen : y.outSeen = v.outSeen
  statsSeen : y.statsSeen = v.statsSeen
  badCount : y.badCount = v.badCount
  decoded : v.decodes = true → y.inDone = v.inDone + k
  encoded : v.decodes = false → y.inDone + y.entries.length = v.inDone + v.entries.length + k

/-- The counts that a session last read of its control line. -/
def Session.counted (v : Session) (inP outC stC : Nat) : Session :=
  { v.release outC with badCount := false, inSeen := inP, statsSeen := stC }

/-- Whether the counts bs of a control line are inconsistent with a session's (R280). -/
def Session.inconsistent (v : Session) (bs : List Byte) : Prop :=
  fieldAt bs 0 8 < v.inSeen ∨ v.inDone + v.inSize < fieldAt bs 0 8 ∨ fieldAt bs 24 8 < v.outSeen ∨ v.outMade < fieldAt bs 24 8
    ∨ fieldAt bs 32 8 < v.statsSeen ∨ v.statsMade < fieldAt bs 32 8

/-- A session marked for an inconsistent count, with its record if it is the first one (R280). -/
def State.markBad (s : State) (i : Fin 48) (v : Session) : State :=
  let s := (s.setSes i (some { v with badCount := true })).raiseBit (F.hwkSStatRingWait i)
  if v.badCount then s else s.report { source := 0x042, cls := 0x06, severity := 2, part := some v.part, affected := partBit v.part }

/-- The next n input entries of a session are read and taken in. -/
def State.acceptAll (s : State) (i : Fin 48) (v : Session) (n : Nat) : State :=
  (List.range n).foldl (fun s k =>
    (s.vidRead v.part (v.inRing + 32 * ((v.inSeen + k) % v.inSize)) 32).1.vidAccept i
      (s.vidRead v.part (v.inRing + 32 * ((v.inSeen + k) % v.inSize)) 32).2) s

section
variable {r s t : State} {i : Fin 48} {v x y : Session} {k l n : Nat} {e bs : List Byte}

theorem Session.tookIn.decodes (h : y.tookIn v k) : y.decodes = v.decodes := by
  rw [Session.decodes, Session.kind, Session.fld, h.desc]
  rfl

theorem Session.tookIn.trans (h : x.tookIn y l) (g : y.tookIn v k) : x.tookIn v (k + l) where
  desc := h.desc.trans g.desc
  inSeen := h.inSeen.trans g.inSeen
  outSeen := h.outSeen.trans g.outSeen
  statsSeen := h.statsSeen.trans g.statsSeen
  badCount := h.badCount.trans g.badCount
  decoded hv := by
    have h1 := h.decoded (g.decodes.trans hv)
    have h2 := g.decoded hv
    omega
  encoded hv := by
    have h1 := h.encoded (g.decodes.trans hv)
    have h2 := g.encoded hv
    omega

/-! ### What a poll does for one session -/

/-- Entries are passed. -/
theorem ses_vidConsume (hv : s.ses i = some v) :
    (s.vidConsume i n).ses i = some { v with inDone := v.inDone + n, entries := v.entries.drop n } := by
  unfold State.vidConsume
  rw [hv]
  dsimp only
  split
  · next hn =>
    rw [hv, hn]
    rfl
  · rw [vidWrite_sameVideo.ses, ses_modSes_self hv]

theorem vidConsume_onSession : (s.vidConsume i n).onSession i s := by
  unfold State.vidConsume
  split
  · exact State.onSession_refl
  · split
    · exact State.onSession_refl
    · exact vidWrite_sameVideo.onSession.trans modSes_onSession

theorem vidSkipBad_onSession : (s.vidSkipBad i).onSession i s := by
  unfold State.vidSkipBad
  split
  · exact State.onSession_refl
  · split
    · exact State.onSession_refl
    · exact vidConsume_onSession

/-- Passing the entries that end unencoded passes some entries of an encode session. -/
theorem ses_vidSkipBad (hv : s.ses i = some v) : ∃ n, n ≤ v.entries.length ∧ (v.decodes = true → n = 0)
    ∧ (s.vidSkipBad i).ses i = some { v with inDone := v.inDone + n, entries := v.entries.drop n } := by
  unfold State.vidSkipBad
  rw [hv]
  dsimp only
  split
  · exact ⟨0, Nat.zero_le _, fun _ => rfl, hv⟩
  · next hdec => exact ⟨_, (List.takeWhile_prefix _).length_le, fun h => absurd h hdec, ses_vidConsume hv⟩

theorem ses_vidSkipBad_tookIn (hv : s.ses i = some v) : ∃ y, (s.vidSkipBad i).ses i = some y ∧ y.tookIn v 0 := by
  obtain ⟨n, hn, hzero, hses⟩ := ses_vidSkipBad hv
  refine ⟨_, hses, rfl, rfl, rfl, rfl, rfl, fun hdec => ?_, fun _ => ?_⟩
  · rw [hzero hdec]
  · have hdrop : (v.entries.drop n).length = v.entries.length - n := List.length_drop
    dsimp only
    omega

/-- Reading a chunk passes one entry of a decode session. -/
theorem ses_vidChunk (hv : s.ses i = some v) (hdec : v.decodes = true) :
    ∃ y, (s.vidChunk i v e).ses i = some y ∧ y.tookIn v 1 := by
  unfold State.vidChunk
  extract_lets a n flags fresh u0 u ends
  have hread : (s.vidRead v.part a n).1.ses i = some v := (vidRead_sameVideo.ses i).trans hv
  refine ⟨_, ses_vidConsume (ses_modSes_self hread _), rfl, rfl, rfl, rfl, rfl, fun _ => rfl, fun h => ?_⟩
  rw [hdec] at h
  cases h

theorem vidChunk_onSession : (s.vidChunk i v e).onSession i s :=
  vidConsume_onSession.trans (modSes_onSession.trans vidRead_sameVideo.onSession)

theorem vidEvent_sameVideo {severity : Nat} : (s.vidEvent i severity).sameVideo s := vidEvent_noted.1.sameVideo

/-- An input entry is taken in. -/
theorem ses_vidAccept (hv : s.ses i = some v) : ∃ y, (s.vidAccept i e).ses i = some y ∧ y.tookIn v 1 := by
  unfold State.vidAccept
  rw [hv]
  dsimp only
  split
  · next hdec => exact ses_vidChunk hv hdec
  next hdec =>
  have hlen : ∀ a : List Byte, (v.entries ++ [a]).length = v.entries.length + 1 := fun _ => List.length_append
  split
  · refine ⟨_, ses_modSes_self hv _, rfl, rfl, rfl, rfl, rfl, fun h => absurd h hdec, fun _ => ?_⟩
    dsimp only [Session.mark]
    rw [hlen]
    rfl
  · refine ⟨_, (vidEvent_sameVideo.ses i).trans ((raiseBit_regsOver.sameVideo.ses i).trans (ses_modSes_self hv _)), rfl, rfl, rfl,
      rfl, rfl, fun h => absurd h hdec, fun _ => ?_⟩
    dsimp only
    rw [hlen]
    rfl

theorem vidAccept_onSession : (s.vidAccept i e).onSession i s := by
  unfold State.vidAccept
  split
  · exact State.onSession_refl
  · split
    · exact vidChunk_onSession
    · extract_lets b
      split
      · exact modSes_onSession
      · exact vidEvent_sameVideo.onSession.trans (raiseBit_regsOver.sameVideo.onSession.trans modSes_onSession)

/-- The entries that a poll finds new are taken in, one after the other. -/
theorem ses_acceptAll (hx : s.ses i = some x) (n : Nat) : ∃ y, (s.acceptAll i v n).ses i = some y ∧ y.tookIn x n := by
  unfold State.acceptAll
  induction n with
  | zero => exact ⟨x, hx, rfl, rfl, rfl, rfl, rfl, fun _ => rfl, fun _ => rfl⟩
  | succ n ih =>
    obtain ⟨y, hy, htook⟩ := ih
    rw [List.range_succ, List.foldl_append, List.foldl_cons, List.foldl_nil]
    obtain ⟨z, hz, hone⟩ := ses_vidAccept ((vidRead_sameVideo.ses i).trans hy)
    exact ⟨z, hz, hone.trans htook⟩

theorem acceptAll_onSession : (s.acceptAll i v n).onSession i s :=
  foldl_over (R := State.onSession i) (fun _ => State.onSession_refl) State.onSession.trans fun _ _ =>
    vidAccept_onSession.trans vidRead_sameVideo.onSession

theorem foldl_mark {us : List (Nat × Option Nat × Nat)} {f : Session → Nat × Option Nat × Nat → Session}
    (hf : ∀ v u, ∃ m, f v u = { v with marks := m }) : ∃ m, us.foldl f v = { v with marks := m } := by
  induction us generalizing v with
  | nil => exact ⟨v.marks, rfl⟩
  | cons u us ih =>
    obtain ⟨m, hm⟩ := hf v u
    obtain ⟨m', hm'⟩ := ih (v := f v u)
    refine ⟨m', ?_⟩
    rw [List.foldl_cons, hm', hm]

/-- Releasing what consumed entries name changes marks and the use of the output ring and the bitstream area only. -/
theorem release_eq {upTo : Nat} : ∃ m us b, v.release upTo = { v with marks := m, unconsumed := us, bsUsed := b, outSeen := upTo } := by
  unfold Session.release
  extract_lets done w
  obtain ⟨m, hm⟩ : ∃ m, w = { v with marks := m } := foldl_mark fun v u => by
    split
    · exact ⟨_, rfl⟩
    · exact ⟨v.marks, rfl⟩
  rw [hm]
  exact ⟨_, _, _, rfl⟩

theorem vidRead_mem {p : PartNum} {a : Nat} : (s.vidRead p a n).1.mem = s.mem := by
  unfold State.vidRead
  split
  · exact vidDenied_based.mem
  · split
    · rfl
    · exact readThrough_probes.mem

theorem statBit_uncounted (lo : Nat) : (statBit i lo).uncounted := uncounted_window (by decide) (by omega)

/-- A session marked for an inconsistent count changes in nothing else, and shows that it waits for a ring. -/
theorem markBad_marks : (s.markBad i v).ses i = some { v with badCount := true }
    ∧ (s.markBad i v).flag (statBit i 4) = true ∧ (s.markBad i v).mem = s.mem := by
  have hnoted : (s.markBad i v).noted ((s.setSes i (some { v with badCount := true })).raiseBit (statBit i 4)) := by
    unfold State.markBad
    extract_lets u
    split
    · exact State.noted_refl
    · exact report_noted
  have hfits : (statBit i 4).fits = true := rfl
  refine ⟨(hnoted.1.sameVideo.ses i).trans ((raiseBit_regsOver.sameVideo.ses i).trans ses_setSes_self), ?_, hnoted.1.mem⟩
  rw [hnoted.2.flag (statBit_uncounted 4), flag_raiseBit hfits rfl]

theorem vidPoll_of_some (hv : s.ses i = some v) (hopen : v.isClosing = false) :
    (v.inconsistent (s.vidRead v.part v.ctl 40).2 → s.vidPoll i = ((s.vidRead v.part v.ctl 40).1.markBad i v).vidRefresh i) ∧
    (¬ v.inconsistent (s.vidRead v.part v.ctl 40).2 → s.vidPoll i =
      ((((s.vidRead v.part v.ctl 40).1.setSes i (some (v.counted (fieldAt (s.vidRead v.part v.ctl 40).2 0 8)
        (fieldAt (s.vidRead v.part v.ctl 40).2 24 8) (fieldAt (s.vidRead v.part v.ctl 40).2 32 8)))).acceptAll i v
          (fieldAt (s.vidRead v.part v.ctl 40).2 0 8 - v.inSeen)).vidSkipBad i).vidRefresh i) := by
  have hread : (s.vidRead v.part v.ctl 40).1.ses i = some v := (vidRead_sameVideo.ses i).trans hv
  unfold State.vidPoll
  rw [hv]
  dsimp only
  rw [if_neg (by rw [hopen]; decide)]
  refine ⟨fun h => (if_pos h).trans ?_, fun h => (if_neg h).trans ?_⟩
  · rw [modSes_some hread]
    rfl
  · rw [modSes_some hread]
    rfl

/-- The clause of O58 on ring polls. -/
theorem ringPoll_clause {hw : HostStores} (hv : s.ses i = some v) (hopen : v.isClosing = false) :
    let w := s.hostStores hw
    let bs := (w.vidRead v.part v.ctl 40).2
    let ok := v.inSeen ≤ fieldAt bs 0 8 ∧ fieldAt bs 0 8 ≤ v.inDone + v.inSize ∧ v.outSeen ≤ fieldAt bs 24 8
      ∧ fieldAt bs 24 8 ≤ v.outMade ∧ v.statsSeen ≤ fieldAt bs 32 8 ∧ fieldAt bs 32 8 ≤ v.statsMade
    (ok → ∃ t y, exec (.ringPoll i hw) s = .next t ∧ t.ses i = some y ∧ y.inSeen = fieldAt bs 0 8
      ∧ y.outSeen = fieldAt bs 24 8 ∧ y.statsSeen = fieldAt bs 32 8 ∧ y.badCount = false
      ∧ (v.decodes = true → y.inDone = v.inDone + (fieldAt bs 0 8 - v.inSeen))
      ∧ (v.decodes = false → y.inDone + y.entries.length = v.inDone + v.entries.length + (fieldAt bs 0 8 - v.inSeen))
      ∧ t.arrays = s.arrays) ∧
    (¬ ok → ∃ t y, exec (.ringPoll i hw) s = .next t ∧ t.ses i = some y ∧ y.badCount = true ∧ y.inSeen = v.inSeen
      ∧ y.entries = v.entries ∧ y.units = v.units ∧ t.flag (F.hwkSStatRingWait i) = true ∧ t.mem = s.mem) := by
  intro w bs ok
  have hbad : v.inconsistent bs ↔ ¬ ok := by
    unfold ok Session.inconsistent
    omega
  obtain ⟨hpollBad, hpollGood⟩ := vidPoll_of_some (s := w) hv hopen
  have hexec : exec (.ringPoll i hw) s = .next (w.vidPoll i) := rfl
  rw [hexec]
  refine ⟨fun hok => ?_, fun hok => ?_⟩
  · rw [hpollGood fun h => hbad.mp h hok]
    obtain ⟨x, hx, hold⟩ := ses_acceptAll (i := i) (v := v)
      (s := (w.vidRead v.part v.ctl 40).1.setSes i (some (v.counted (fieldAt bs 0 8) (fieldAt bs 24 8) (fieldAt bs 32 8))))
      ses_setSes_self (fieldAt bs 0 8 - v.inSeen)
    obtain ⟨y, hy, hskip⟩ := ses_vidSkipBad_tookIn hx
    obtain ⟨l, hl⟩ := ses_vidRefresh hy
    have htook := hskip.trans hold
    obtain ⟨m, us, b, hrel⟩ := release_eq (v := v) (upTo := fieldAt bs 24 8)
    have hcount : v.counted (fieldAt bs 0 8) (fieldAt bs 24 8) (fieldAt bs 32 8) = { v with
        marks := m, unconsumed := us, bsUsed := b, outSeen := fieldAt bs 24 8, badCount := false, inSeen := fieldAt bs 0 8
        statsSeen := fieldAt bs 32 8 } := by rw [Session.counted, hrel]
    rw [hcount] at htook
    refine ⟨_, _, rfl, hl, htook.inSeen, htook.outSeen, htook.statsSeen, htook.badCount, fun h => ?_, fun h => ?_, ?_⟩
    · simpa using htook.decoded h
    · simpa using htook.encoded h
    · exact ((vidRefresh_over hy).1.trans (vidSkipBad_onSession.trans (acceptAll_onSession.trans
        (setSes_onSession.trans vidRead_sameVideo.onSession)))).arrays
  · rw [hpollBad (hbad.mpr hok)]
    obtain ⟨hses, hflag, hmem⟩ := markBad_marks (s := (w.vidRead v.part v.ctl 40).1) (i := i) (v := v)
    obtain ⟨l, hl⟩ := ses_vidRefresh hses
    exact ⟨_, _, rfl, hl, rfl, rfl, rfl, rfl, flag_vidRefresh hflag (by decide) (by decide) hses,
      (vidRefresh_over hses).2.mem.trans (hmem.trans vidRead_mem)⟩

end

end Sys2Proof.Machine
end

section
/-!
PROOFS. Pictures that begin (R273, R280 to R283, R285, R286, R289, R292, R297): what parsing a unit, taking a frame and taking an
encode entry leave of the session, and from these the clause of O58 on free pipes.
-/

namespace Sys2Proof.Machine

/-- The unit that a session has left once frame f of u is taken, with `rest` still to come (R285). -/
def VidUnit.rest (u : VidUnit) (rest : List FrameHead) : Option VidUnit :=
  if rest.isEmpty then none else some { u with frames := rest, done := u.done + 1 }

/-- A session whose next unit is parsed, before what its headers say counts. -/
def Session.parsing (v : Session) (u : VidUnit) (more : List VidUnit) : Session :=
  { (if u.disc then v.setRefs [] else v) with units := more, unitsDone := v.unitsDone + 1 }

/-- A unit with the frames that its headers name. -/
def VidUnit.parsed (u : VidUnit) (h : PicHeader) : VidUnit :=
  { u with frames := h.frames, flush := h.flush, width := h.width, height := h.height }

section
variable {r s t w : State} {i : Fin 48} {v y : Session} {u : VidUnit} {more : List VidUnit} {f : FrameHead} {rest : List FrameHead}
variable {pipe : Fin 4} {h : PicHeader} {e : List Byte} {b : Nat}

/-! ### Outputs that fall due -/

theorem fallDue_eq {bs : List Nat} : ∃ d o, v.fallDue bs = { v with decoded := d, due := o } := by
  unfold Session.fallDue
  induction bs generalizing v with
  | nil => exact ⟨v.decoded, v.due, rfl⟩
  | cons b bs ih =>
    rw [List.foldl_cons]
    split
    · exact ih
    · next d _ =>
      obtain ⟨l, o, hl⟩ := ih (v := v.dueOne d false)
      exact ⟨l, o, hl⟩

/-- A flush changes what is decoded and what is due only. -/
theorem flush_eq {order : List Nat} : ∃ d o, v.flush order = { v with decoded := d, due := o } := by
  obtain ⟨d, o, h⟩ := fallDue_eq (v := v) (bs := v.stillWaiting order)
  unfold Session.flush
  rw [h]
  exact ⟨d, o ++ [outEnd], rfl⟩

theorem parsing_eq : ∃ m, v.parsing u more = { v with marks := m, units := more, unitsDone := v.unitsDone + 1 } := by
  unfold Session.parsing
  split
  · exact ⟨_, rfl⟩
  · exact ⟨v.marks, rfl⟩

/-! ### The free pipe and its session -/

/-- A free pipe that may start a picture takes the session that is ready first. -/
theorem exec_pictureStart (hready : s.flag F.hwkStatusReady = true) (hdraining : s.flag F.spnStatusDraining = false)
    (hdrained : s.flag F.spnStatusDrained = false) (hfree : s.inPipeOf pipe = none)
    (hfirst : pipe ≠ (if decide (pipe.val < 2) then 0 else 2) →
      (s.inPipeOf (if decide (pipe.val < 2) then 0 else 2)).isSome = true)
    (hnext : s.nextReady (decide (pipe.val < 2)) = some i) :
    exec (.pictureStart pipe h) s = .next (s.pictureTake pipe i h) := by
  refine congrArg Host.Outcome.next ((if_neg ?_).trans ?_)
  · have hsecond : (pipe != (if decide (pipe.val < 2) then 0 else 2)
        && (s.inPipeOf (if decide (pipe.val < 2) then 0 else 2)).isNone) = false := by
      by_cases hp : pipe = if decide (pipe.val < 2) then 0 else 2
      · rw [bne_eq_false_iff_eq.mpr hp, Bool.false_and]
      · rw [Option.isNone_eq_false_iff.mpr (hfirst hp), Bool.and_false]
    rw [hready, hdraining, hdrained, hfree, hsecond]
    decide
  · rw [hnext]

theorem pictureTake_decode (hv : (s.vidPoll i).ses i = some v) (hready : v.ready ≠ []) (hdec : v.decodes = true) :
    s.pictureTake pipe i h = (s.vidPoll i).decodeStart pipe i v h := by
  unfold State.pictureTake
  dsimp only
  rw [hv]
  dsimp only
  rw [if_neg (by simpa using hready), if_pos hdec]

theorem pictureTake_encode {rest : List (List Byte)} (hv : (s.vidPoll i).ses i = some v) (hready : v.ready ≠ [])
    (henc : v.decodes = false) (he : v.entries = e :: rest) :
    s.pictureTake pipe i h = (s.vidPoll i).encodeStart pipe i v e := by
  unfold State.pictureTake
  dsimp only
  rw [hv]
  dsimp only
  rw [if_neg (by simpa using hready), if_neg (by rw [henc]; decide), he]

/-- The picture that a session has in a pipe stays there as its readiness is renewed. -/
theorem inPipe_vidRefresh (hv : s.ses i = some v) : ((s.vidRefresh i).ses i).bind (·.inPipe) = v.inPipe := by
  obtain ⟨l, hl⟩ := ses_vidRefresh hv
  rw [hl]
  rfl

/-! ### A frame is taken (R282, R285, R286) -/

/-- A frame to be decoded takes the pipe and the lowest free buffer. -/
theorem ses_frameStart_decoded (hv : s.ses i = some v) (hu : v.unit = some u) (hf : u.frames = f :: rest)
    (hshow : f.showExisting = none) (hb : v.freeBuf = some b) : ∃ y x, (s.frameStart pipe i).ses i = some y ∧ y.inPipe = some x
      ∧ x.pipe = pipe ∧ x.buffer = some b ∧ x.key = f.key ∧ x.pts = u.pts := by
  unfold State.frameStart
  rw [hv]
  dsimp only
  rw [hu]
  dsimp only
  rw [hf]
  dsimp only
  rw [hshow]
  dsimp only
  rw [hb]
  exact ⟨_, _, ses_modSes_self hv _, rfl, rfl, rfl, rfl, rfl⟩

/-- A frame shown again falls due. -/
theorem ses_frameStart_shown {d : DecPic} (hv : s.ses i = some v) (hu : v.unit = some u) (hf : u.frames = f :: rest)
    (hshow : f.showExisting = some b) (hd : v.decoded.find? (fun d => d.buffer == b) = some d) (hrest : rest ≠ []) :
    ∃ y, (s.frameStart pipe i).ses i = some y ∧ y.inPipe = v.inPipe ∧ y.due = v.due ++ [outOf { d with pts := u.pts } true] := by
  unfold State.frameStart
  rw [hv]
  dsimp only
  rw [hu]
  dsimp only
  rw [hf]
  dsimp only
  rw [hshow]
  dsimp only
  rw [hd]
  refine ⟨_, ses_modSes_self hv _, ?_, ?_⟩
  · rw [if_neg (by simp [hrest])]
    rfl
  · rw [if_neg (by simp [hrest])]
    rfl

/-! ### A unit is parsed (R283, R285, R289) -/

/-- A unit with a picture, in a session that is not in its error state: what parsing it does. -/
theorem unitParse_of_picture (hv : s.ses i = some v) (hu : v.units = u :: more) (hpic : u.picture = true)
    (hstate : s.get (F.hwkSStatState i) ≠ 4) :
    s.unitParse i h =
      let s := s.setSes i (some (v.parsing u more))
      let flushed := fun s : State => if u.eos then s.modSes i fun v => v.flush h.flush else s
      if u.bad || !v.streamOk h then flushed (s.vidError i)
      else if v.skip && !(h.frames.head?.any fun f => f.key) then flushed s
      else if h.frames.isEmpty then flushed s
      else s.modSes i fun v => { v with skip := false, unit := some (u.parsed h) } := by
  have herring : (s.get (F.hwkSStatState i) == 4) = false := by simpa using hstate
  unfold State.unitParse
  rw [hv]
  dsimp -zeta only
  rw [hu]
  dsimp -zeta only
  extract_lets x flushed erring key z y
  have hxy : x = y := modSes_some hv fun v => v.parsing u more
  have he : erring = false := herring
  have hz : z = y := (if_neg (by rw [he]; decide)).trans hxy
  rw [if_neg (by rw [hpic]; decide), he, hxy, hz]
  rfl

/-- A unit whose headers are good, and that the session does not pass over, is the one whose frames come next. -/
theorem ses_unitParse_opens (hv : s.ses i = some v) (hu : v.units = u :: more) (hpic : u.picture = true)
    (hstate : s.get (F.hwkSStatState i) ≠ 4) (hgood : u.bad = false) (hok : v.streamOk h = true) (hf : h.frames = f :: rest)
    (hskip : v.skip = false ∨ f.key = true) :
    (s.unitParse i h).ses i = some { v.parsing u more with skip := false, unit := some (u.parsed h) } := by
  have hskips : (v.skip && !(h.frames.head?.any fun f => f.key)) = false := by
    rw [hf]
    rcases hskip with e | e <;> simp [e]
  have hframes : h.frames.isEmpty = false := by rw [hf]; rfl
  rw [unitParse_of_picture hv hu hpic hstate, hgood, hok, hskips, hframes]
  exact ses_modSes_self ses_setSes_self _

theorem vidError_sameVideo : (s.vidError i).sameVideo s :=
  vidEvent_sameVideo.trans (raiseBit_regsOver.sameVideo.trans set_regsOver.sameVideo)

/-- The error state shows (R289, R303). -/
theorem get_vidError : (s.vidError i).get (F.hwkSStatState i) = 4 :=
  (vidEvent_noted.2.get (uncounted_window (by decide) (by omega))).trans
    ((get_set_apart rfl (apart_of_word (by decide)) 1).trans (get_set_self rfl 4))

/-- A unit that cannot be decoded puts its session in the error state, and is passed. -/
theorem ses_unitParse_rejects (hv : s.ses i = some v) (hu : v.units = u :: more) (hpic : u.picture = true)
    (hstate : s.get (F.hwkSStatState i) ≠ 4) (hbad : u.bad = true ∨ v.streamOk h = false) :
    ∃ y, (s.unitParse i h).ses i = some y ∧ y.inPipe = v.inPipe ∧ y.units = more ∧ y.unit = v.unit
      ∧ (s.unitParse i h).get (F.hwkSStatState i) = 4 := by
  have hrejects : (u.bad || !v.streamOk h) = true := by
    rcases hbad with e | e <;> simp [e]
  have hses : ((s.setSes i (some (v.parsing u more))).vidError i).ses i = some (v.parsing u more) :=
    (vidError_sameVideo.ses i).trans ses_setSes_self
  obtain ⟨m, hm⟩ := parsing_eq (v := v) (u := u) (more := more)
  rw [unitParse_of_picture hv hu hpic hstate, hrejects]
  dsimp only
  rw [if_pos rfl]
  split
  · obtain ⟨d, o, hflush⟩ := flush_eq (v := v.parsing u more) (order := h.flush)
    refine ⟨_, ses_modSes_self hses _, ?_, ?_, ?_, get_vidError⟩ <;> rw [hflush, hm]
  · refine ⟨_, hses, ?_, ?_, ?_, get_vidError⟩ <;> rw [hm]

/-! ### The pipes' pictures -/

theorem rcCommit_regsOver {n : Nat} : (s.rcCommit n).regsOver s := by
  unfold State.rcCommit
  extract_lets ws
  split
  · exact foldl_over (R := State.regsOver) (fun _ => rfl) State.regsOver.trans fun _ _ => setReg_regsOver
  · exact raiseBit_regsOver

/-- A picture to encode takes the pipe with its entry's buffer, time stamp and number. -/
theorem inPipe_encodeStart (hv : w.ses i = some v) : ∃ x, ((w.encodeStart pipe i v e).ses i).bind (·.inPipe) = some x ∧ x.pipe = pipe
    ∧ x.buffer = some (fieldAt e 0 2) ∧ x.pts = BitVec.ofNat 64 (fieldAt e 16 8) ∧ x.number = v.inDone
    ∧ (v.coded = 0 → x.key = true) := by
  unfold State.encodeStart
  extract_lets n s1 flags intra key q s2 recon header packets s3
  have hcommit : s2.ses i = some v := (rcCommit_regsOver.sameVideo.ses i).trans hv
  refine ⟨_, (inPipe_vidRefresh (ses_modSes_self hcommit _)).trans rfl, rfl, rfl, rfl, ?_, fun h => ?_⟩
  · generalize recon = o
    cases o <;> rfl
  · simp [key, h]

/-- A frame to be decoded is taken from a parsed unit, and stays in the pipe as readiness is renewed. -/
theorem inPipe_decodeStart (hv : (if v.unit.isSome then w else w.unitParse i h).ses i = some y) (hu : y.unit = some u)
    (hf : u.frames = f :: rest) (hshow : f.showExisting = none) (hb : y.freeBuf = some b) :
    ∃ x, ((w.decodeStart pipe i v h).ses i).bind (·.inPipe) = some x ∧ x.pipe = pipe ∧ x.buffer = some b ∧ x.key = f.key
      ∧ x.pts = u.pts := by
  obtain ⟨z, x, hz, hx, hfacts⟩ := ses_frameStart_decoded (pipe := pipe) hv hu hf hshow hb
  exact ⟨x, (inPipe_vidRefresh hz).trans hx, hfacts⟩

/-- A session that is taking no unit's frames starts none. -/
theorem frameStart_of_none (hv : s.ses i = some v) (hu : v.unit = none) : s.frameStart pipe i = s := by
  unfold State.frameStart
  rw [hv]
  dsimp only
  rw [hu]

/-- The clause of O58 on free pipes. -/
theorem pictureStart_clause (hready : s.flag F.hwkStatusReady = true) (hdraining : s.flag F.spnStatusDraining = false)
    (hdrained : s.flag F.spnStatusDrained = false) (hfree : s.inPipeOf pipe = none)
    (hfirst : pipe ≠ (if decide (pipe.val < 2) then 0 else 2) →
      (s.inPipeOf (if decide (pipe.val < 2) then 0 else 2)).isSome = true)
    (hnext : s.nextReady (decide (pipe.val < 2)) = some i) (hv : (s.vidPoll i).ses i = some v) (hpics : v.ready ≠ []) :
    (v.decodes = false → ∀ e rest, v.entries = e :: rest → ∃ t y, exec (.pictureStart pipe h) s = .next t
      ∧ (t.ses i).bind (·.inPipe) = some y ∧ y.pipe = pipe ∧ y.buffer = some (fieldAt e 0 2)
      ∧ y.pts = BitVec.ofNat 64 (fieldAt e 16 8) ∧ y.number = v.inDone ∧ (v.coded = 0 → y.key = true)) ∧
    (v.decodes = true → v.unit = none → ∀ u more, v.units = u :: more → u.picture = true →
      (s.vidPoll i).get (F.hwkSStatState i) ≠ 4 →
      ((u.bad = true ∨ v.streamOk h = false) → ∃ t y, exec (.pictureStart pipe h) s = .next t ∧ t.ses i = some y
        ∧ y.inPipe = v.inPipe ∧ y.units = more ∧ t.get (F.hwkSStatState i) = 4) ∧
      (∀ f rest b, u.bad = false → v.streamOk h = true → h.frames = f :: rest → (v.skip = false ∨ f.key = true) →
        f.showExisting = none → (if u.disc = true then v.setRefs [] else v).freeBuf = some b →
        ∃ t y, exec (.pictureStart pipe h) s = .next t ∧ (t.ses i).bind (·.inPipe) = some y ∧ y.pipe = pipe
          ∧ y.buffer = some b ∧ y.key = f.key ∧ y.pts = u.pts)) ∧
    (v.decodes = true → ∀ u f rest, v.unit = some u → u.frames = f :: rest →
      (∀ b, f.showExisting = none → v.freeBuf = some b → ∃ t y, exec (.pictureStart pipe h) s = .next t
        ∧ (t.ses i).bind (·.inPipe) = some y ∧ y.pipe = pipe ∧ y.buffer = some b ∧ y.key = f.key ∧ y.pts = u.pts) ∧
      (∀ b d, f.showExisting = some b → v.decoded.find? (fun d => d.buffer == b) = some d → rest ≠ [] →
        ∃ t y, exec (.pictureStart pipe h) s = .next t ∧ t.ses i = some y ∧ y.inPipe = v.inPipe
          ∧ y.due = v.due ++ [outOf { d with pts := u.pts } true])) := by
  rw [exec_pictureStart hready hdraining hdrained hfree hfirst hnext]
  refine ⟨fun henc e rest he => ?_,
    fun hdec hnone u more hu hpic hstate => ⟨fun hbad => ?_, fun f rest b hgood hok hf hskip hshow hb => ?_⟩,
    fun hdec u f rest hunit hf => ⟨fun b hshow hb => ?_, fun b d hshow hd hrest => ?_⟩⟩
  · rw [pictureTake_encode hv hpics henc he]
    obtain ⟨x, hx⟩ := inPipe_encodeStart (pipe := pipe) (e := e) hv
    exact ⟨_, x, rfl, hx⟩
  · obtain ⟨y, hy, hpipe, hunits, hunit, herror⟩ := ses_unitParse_rejects (h := h) hv hu hpic hstate hbad
    have hstart : (s.vidPoll i).decodeStart pipe i v h = ((s.vidPoll i).unitParse i h).vidRefresh i := by
      rw [State.decodeStart, hnone, if_neg (by decide), frameStart_of_none hy (hunit.trans hnone)]
    obtain ⟨l, hl⟩ := ses_vidRefresh hy
    rw [pictureTake_decode hv hpics hdec, hstart]
    exact ⟨_, _, rfl, hl, hpipe, hunits, error_vidRefresh herror hy⟩
  · have hparse := ses_unitParse_opens hv hu hpic hstate hgood hok hf hskip
    have hbuf : ({ v.parsing u more with skip := false, unit := some (u.parsed h) } : Session).freeBuf = some b := hb
    obtain ⟨x, hx⟩ := inPipe_decodeStart (pipe := pipe) (v := v) (by rw [hnone]; exact hparse) rfl hf hshow hbuf
    rw [pictureTake_decode hv hpics hdec]
    exact ⟨_, x, rfl, hx⟩
  · obtain ⟨x, hx⟩ := inPipe_decodeStart (pipe := pipe) (v := v) (h := h) (by rw [hunit]; exact hv) hunit hf hshow hb
    rw [pictureTake_decode hv hpics hdec]
    exact ⟨_, x, rfl, hx⟩
  · obtain ⟨y, hy, hpipe, hdue⟩ := ses_frameStart_shown (pipe := pipe) hv hunit hf hshow hd hrest
    have hstart : (s.vidPoll i).decodeStart pipe i v h = ((s.vidPoll i).frameStart pipe i).vidRefresh i := by
      rw [State.decodeStart, hunit]
      rfl
    obtain ⟨l, hl⟩ := ses_vidRefresh hy
    rw [pictureTake_decode hv hpics hdec, hstart]
    exact ⟨_, _, rfl, hl, hpipe, hdue⟩

end

end Sys2Proof.Machine
end

section
/-!
PROOFS. Pictures that end (R273, R277, R281, R282, R286, R288, R292, R298): what ending a decode picture and an encode picture leaves
of the session, and from these the clauses of O58 on a pipe's picture.
-/

namespace Sys2Proof.Machine

section
variable {r s t : State} {i : Fin 48} {v y : Session} {x : InPipe} {pipe : Fin 4} {res : PicResult} {b : Nat} {c : CmdRef}

/-! ### A pipe's accesses leave the sessions (R145, R281, R288) -/

theorem bufferScan_sameVideo : (s.bufferScan v b).sameVideo s := vidScan_sameVideo

theorem foldl_bufferScan_sameVideo {bs : List Nat} : (bs.foldl (fun s k => s.bufferScan v k) s).sameVideo s :=
  foldl_over (R := State.sameVideo) (fun _ => State.sameVideo_refl) State.sameVideo.trans fun _ _ => bufferScan_sameVideo

theorem concealment_sameVideo {lost : List Nat} : (s.concealment v lost).1.sameVideo s := by
  unfold State.concealment
  split
  · exact State.sameVideo_refl
  · exact vidRead_sameVideo
  · exact State.sameVideo_refl

theorem drawn_sameVideo {n : Nat} : State.sameVideo { s with free := n } s := ⟨rfl, rfl, rfl⟩

theorem vidImage_sameVideo : (s.vidImage v b x res).sameVideo s := by
  unfold State.vidImage
  extract_lets a r s1 u
  have hu : u.sameVideo s := drawn_sameVideo.trans concealment_sameVideo
  split
  · exact blockWrite_sameVideo.trans hu
  · exact vidDenied_based.sameVideo.trans hu

/-! ### A decode picture ends -/

/-- A decode picture that ends frees the pipe, and is the session's latest. -/
theorem decodeDone_ends (hv : s.ses i = some v) : (∃ y, (s.decodeDone i v x res).ses i = some y ∧ y.inPipe = none
    ∧ y.latest = some (x.buffer.getD 0)) ∧ (s.decodeDone i v x res).onSession i s := by
  unfold State.decodeDone
  extract_lets b lost read s1 s2 s3 s4 corrupt d s5
  have h1 : s1.sameVideo s := foldl_bufferScan_sameVideo
  have h2 : s2.sameVideo s := by
    unfold s2
    split
    · exact h1
    · exact addTo_regsOver.sameVideo.trans h1
  have h3 : s3.sameVideo s := vidImage_sameVideo.trans h2
  have h4 : s4.sameVideo s := by
    unfold s4
    split
    · exact h3
    · exact vidEvent_sameVideo.trans (addTo_regsOver.sameVideo.trans (raiseBit_regsOver.sameVideo.trans h3))
  have h5 : s5.sameVideo s := drawn_sameVideo.trans h4
  refine ⟨⟨_, ses_modSes_self ((h5.ses i).trans hv) _, ?_⟩, modSes_onSession.trans h5.onSession⟩
  extract_lets y1 y2 y3 y4
  have hy4 : y4.inPipe = none ∧ y4.latest = some b := by
    obtain ⟨l, o, hdue⟩ := fallDue_eq (v := y3) (bs := res.due)
    unfold y4
    rw [hdue]
    exact ⟨rfl, rfl⟩
  split
  · obtain ⟨l, o, hflush⟩ := flush_eq (v := y4) (order := x.flush)
    rw [hflush]
    exact hy4
  · exact hy4

/-! ### An encode picture ends -/

/-- After a picture, rate control changes its own memory of the session only. -/
theorem ses_rcAfter (hv : s.ses i = some v) :
    (∃ m, (s.rcAfter i x res).ses i = some { v with rc := m }) ∧ (s.rcAfter i x res).onSession i s := by
  unfold State.rcAfter
  rw [hv]
  dsimp -zeta only
  extract_lets e r s1 c1 c2 rows lo hi s2 s3 s4 f s5 s6
  have h3 : s3.sameVideo s := set_regsOver.sameVideo.trans (set_regsOver.sameVideo.trans (set_regsOver.sameVideo.trans
    (drawn_sameVideo.trans set_regsOver.sameVideo)))
  have h4 : (∃ m, s4.ses i = some { v with rc := m }) ∧ s4.onSession i s :=
    ⟨⟨_, ses_modSes_self ((h3.ses i).trans hv) _⟩, modSes_onSession.trans h3.onSession⟩
  obtain ⟨⟨m, hm⟩, hon4⟩ := h4
  have h6 : (∃ m, s6.ses i = some { v with rc := m }) ∧ s6.onSession i s :=
    ⟨⟨_, (set_regsOver.sameVideo.ses i).trans (ses_modSes_self hm _)⟩,
      set_regsOver.sameVideo.onSession.trans (modSes_onSession.trans hon4)⟩
  split
  · exact ⟨⟨m, hm⟩, hon4⟩
  · split
    · obtain ⟨⟨l, hl⟩, hon6⟩ := h6
      exact ⟨⟨l, (raiseBit_regsOver.sameVideo.ses i).trans hl⟩, raiseBit_regsOver.sameVideo.onSession.trans hon6⟩
    · exact h6

/-- An encode picture that ends frees the pipe, and counts as coded. -/
theorem encodeDone_ends (hv : s.ses i = some v) : (∃ y, (s.encodeDone i v x res).ses i = some y ∧ y.inPipe = none
    ∧ y.coded = v.coded + 1 ∧ y.pictures = v.pictures + 1) ∧ (s.encodeDone i v x res).onSession i s := by
  unfold State.encodeDone
  extract_lets src refs s1 s2 s3 d z s4 s5 s6 s7 s8
  have h3 : s3.sameVideo s := by
    have h2 : s2.sameVideo s := addTo_regsOver.sameVideo.trans foldl_bufferScan_sameVideo
    unfold s3
    split
    · exact vidImage_sameVideo.trans h2
    · exact h2
  have h4 : s4.sameVideo s := drawn_sameVideo.trans h3
  obtain ⟨y, h5, hpipe, hcoded, hpictures⟩ : ∃ y, s5.ses i = some y ∧ y.inPipe = none ∧ y.coded = v.coded + 1
      ∧ y.pictures = v.pictures + 1 := ⟨_, ses_modSes_self ((h4.ses i).trans hv) _, rfl, rfl, rfl⟩
  obtain ⟨⟨m, hm⟩, hon6⟩ := ses_rcAfter (x := x) (res := res) h5
  have h8 := ses_vidConsume (s := s7) (n := 1) ((addTo_regsOver.sameVideo.ses i).trans hm)
  have hon8 : s8.onSession i s := vidConsume_onSession.trans (addTo_regsOver.sameVideo.onSession.trans (hon6.trans
    (modSes_onSession.trans h4.onSession)))
  split
  · exact ⟨⟨_, h8, hpipe, hcoded, hpictures⟩, hon8⟩
  · obtain ⟨n, -, -, h9⟩ := ses_vidSkipBad h8
    exact ⟨⟨_, h9, hpipe, hcoded, hpictures⟩, vidSkipBad_onSession.trans hon8⟩

/-! ### The pipes' pictures -/

theorem ledger_vid {e : LedgerEntry} : (s.ledger e).vid = s.vid := by
  unfold State.ledger
  split <;> rfl

theorem complete_vid {st : Nat} : (s.complete c st).vid = s.vid := by
  unfold State.complete
  split
  · rfl
  · split
    · rfl
    · exact ledger_vid

/-- A freed session is no longer open, whether or not a command waits for it. -/
theorem ses_vidFree : (s.vidFree i).ses i = none := by
  cases hv : s.ses i with
  | none =>
    unfold State.vidFree
    rw [hv]
    exact hv
  | some v =>
    have hfreed : (s.vidFreed i).ses i = none := (vidFreed_regsOver.sameVideo.ses i).trans ses_setSes_self
    rw [vidFree_of_some hv]
    split
    · exact (ses_congr complete_vid i).trans hfreed
    · exact hfreed

theorem exec_pictureDone_of_none (h : s.inPipeOf pipe = none) : exec (.pictureDone pipe res) s = .next s := by
  refine congrArg Host.Outcome.next ?_
  rw [h]

/-- A picture in a pipe has ended: its packets are written, and an encoder's blocks, vectors and residual are allowed ones (R293). -/
def State.ended (s : State) (v : Session) (x : InPipe) (res : PicResult) : Prop :=
  x.packets = 0 ∧ (v.decodes = true ∨ (v.choiceOk x res = true ∧ s.residualOk v x res = true))

/-- The state in which a picture that has ended is taken out of its pipe. -/
def State.pictureEnd (s : State) (i : Fin 48) (v : Session) (x : InPipe) (res : PicResult) : State :=
  if v.decodes then s.decodeDone i v x res else s.encodeDone i v x res

theorem exec_pictureDone (hi : s.inPipeOf pipe = some i) (hv : s.ses i = some v) (hx : v.inPipe = some x) :
    (¬ s.ended v x res → exec (.pictureDone pipe res) s = .next s) ∧
    (s.ended v x res → exec (.pictureDone pipe res) s = .next (if v.isClosing then ((s.pictureEnd i v x res).vidDrain i 64).vidFree i
      else (s.pictureEnd i v x res).vidRefresh i)) := by
  have hexec : exec (.pictureDone pipe res) s = .next (
      if x.packets ≠ 0 ∨ (!v.decodes && !(v.choiceOk x res && s.residualOk v x res)) = true then s
      else if v.isClosing then ((s.pictureEnd i v x res).vidDrain i 64).vidFree i else (s.pictureEnd i v x res).vidRefresh i) := by
    refine congrArg Host.Outcome.next ?_
    rw [hi]
    dsimp only
    rw [hv]
    dsimp only
    rw [hx]
    rfl
  have hcond : (x.packets ≠ 0 ∨ (!v.decodes && !(v.choiceOk x res && s.residualOk v x res)) = true) ↔ ¬ s.ended v x res := by
    rw [State.ended, not_and_or]
    refine or_congr Iff.rfl ?_
    simp [← Bool.not_eq_true, not_or, imp_iff_not_or]
  rw [hexec]
  exact ⟨fun h => by rw [if_pos (hcond.mpr h)], fun h => by rw [if_neg fun g => hcond.mp g h]⟩

/-- A picture that has ended frees its pipe: a decoded one is the session's latest, an encoded one counts as coded. -/
theorem pictureEnd_ends (hv : s.ses i = some v) : (∃ y, (s.pictureEnd i v x res).ses i = some y ∧ y.inPipe = none
    ∧ (v.decodes = true → y.latest = some (x.buffer.getD 0))
    ∧ (v.decodes = false → y.coded = v.coded + 1 ∧ y.pictures = v.pictures + 1)) ∧ (s.pictureEnd i v x res).onSession i s := by
  unfold State.pictureEnd
  split
  · next hdec =>
    obtain ⟨⟨y, hy, hpipe, hlatest⟩, hon⟩ := decodeDone_ends (x := x) (res := res) hv
    exact ⟨⟨y, hy, hpipe, fun _ => hlatest, fun h => by rw [hdec] at h; cases h⟩, hon⟩
  · next henc =>
    obtain ⟨⟨y, hy, hpipe, hcoded⟩, hon⟩ := encodeDone_ends (x := x) (res := res) hv
    exact ⟨⟨y, hy, hpipe, fun h => absurd h henc, fun _ => hcoded⟩, hon⟩

/-- The clause of O58 on a pipe's picture. -/
theorem pictureDone_clause (hi : s.inPipeOf pipe = some i) (hv : s.ses i = some v) (hx : v.inPipe = some x) :
    let ended := x.packets = 0 ∧ (v.decodes = true ∨ (v.choiceOk x res = true ∧ s.residualOk v x res = true))
    (¬ ended → exec (.pictureDone pipe res) s = .next s) ∧
    (ended → v.isClosing = true → ∃ t, exec (.pictureDone pipe res) s = .next t ∧ t.ses i = none) ∧
    (ended → v.isClosing = false → ∃ t y, exec (.pictureDone pipe res) s = .next t ∧ t.ses i = some y
      ∧ y.inPipe = none ∧ (v.decodes = true → y.latest = some (x.buffer.getD 0))
      ∧ (v.decodes = false → y.coded = v.coded + 1 ∧ y.pictures = v.pictures + 1)
      ∧ (∀ k, k ≠ i → t.ses k = s.ses k)) := by
  intro ended
  obtain ⟨hnot, hend⟩ := exec_pictureDone (res := res) hi hv hx
  refine ⟨hnot, fun h hclosing => ?_, fun h hopen => ?_⟩
  · rw [hend h, if_pos hclosing]
    exact ⟨_, rfl, ses_vidFree⟩
  · obtain ⟨⟨y, hy, hpipe, hlatest, hcoded⟩, hon⟩ := pictureEnd_ends (x := x) (res := res) hv
    obtain ⟨l, hl⟩ := ses_vidRefresh hy
    rw [hend h, if_neg (by rw [hopen]; decide)]
    exact ⟨_, _, rfl, hl, hpipe, hlatest, hcoded, ((vidRefresh_over hy).1.trans hon).others⟩

end

end Sys2Proof.Machine
end

section
/-!
PROOFS. What Hawkmoth writes out (R280, R286, R287, R294 to R296, R300 to R302): output entries, packets and statistics buffers, and
from these the clauses of O58 on them.
-/

namespace Sys2Proof.Machine

/-- The state in which an output entry stands in session v's ring, and its count in the control line (R280). -/
def State.entryOut (s : State) (v : Session) (e : List Byte) : State :=
  (s.vidWrite v.part (v.outRing + 32 * (v.outMade % v.outSize)) e).vidWrite v.part (v.ctl + 16) (leBytes 8 (v.outMade + 1))

/-- A session that has written one more output entry, which holds a buffer or bytes of the bitstream area (R287, R294). -/
def Session.wrote (v : Session) (b : Option Nat) (bytes : Nat) : Session :=
  { v with outMade := v.outMade + 1, unconsumed := v.unconsumed ++ [(v.outMade, b, bytes)] }

/-- A session that an output picture leaves: the buffer's marks, the outputs still due, and the picture's number (R282, R286, R300). -/
def Session.shown (v : Session) (o : OutPic) (rest : List OutPic) : Session :=
  { v.mark o.buffer fun m => { m with wait := if o.shown then m.wait else false, held := m.held + 1 } with
    due := rest
    pictures := v.pictures + 1
    stats := if v.statsEn && o.first then
        v.stats ++ [(v.pictures, bitsAt o.flags 0 1 == 1, bitsAt o.flags 1 1 == 1, o.pts, o.tensor)]
      else v.stats }

/-- A picture's output entry (R286). -/
def Session.outputEntry (v : Session) (o : OutPic) : List Byte :=
  leBytes 2 o.buffer ++ leBytes 1 o.flags ++ [0] ++ leBytes 4 v.pictures ++ leBytes 8 o.pts.toNat
    ++ leBytes 8 o.crop.toNat ++ leBytes 4 o.concealed ++ leBytes 4 0

/-- A session whose picture has left a packet of n bytes in the bitstream area at `at_`, with `used` bytes of it used up (R294). -/
def Session.packed (v : Session) (x : InPipe) (at_ n used : Nat) : Session :=
  { v.wrote none used with bsHead := at_ + n, bsUsed := v.bsUsed + used, inPipe := some (x.emitted used) }

/-- Where session v's next statistics go in array n's spool (R300, R302). -/
def Session.statsPlace (v : Session) (n : ArrayNum) : Nat :=
  spoolBase n + v.statsOffset + v.statsMade % v.statsBuffers * v.statsSize

/-- The state in which the statistics x stand at a, header last (R302). -/
def State.statsOut (s : State) (v : Session) (x : Nat × Bool × Bool × DWord × List Byte) (a : Nat) : State :=
  (s.write (a + 64) x.2.2.2.2).write a (statsHeader v x)

section
variable {r s t : State} {i : Fin 48} {v y : Session} {e : List Byte} {o : OutPic} {rest : List OutPic} {b : Option Nat} {n : Nat}

/-! ### Output entries -/

theorem entryOut_sameVideo : (s.entryOut v e).sameVideo s := vidWrite_sameVideo.trans vidWrite_sameVideo

theorem entryOut_sameStores (h : t.sameStores s) : (t.entryOut v e).sameStores (s.entryOut v e) :=
  vidWrite_sameStores (vidWrite_sameStores h)

/-- An entry that is written out stands in the ring, and the session counts it. -/
theorem vidEmit_of_some (hv : s.ses i = some v) : s.vidEmit i e b n = (s.entryOut v e).setSes i (some (v.wrote b n)) := by
  unfold State.vidEmit
  rw [hv]
  exact modSes_some ((entryOut_sameVideo.ses i).trans hv) _

theorem setSes_setSes {a b : Option Session} : (s.setSes i a).setSes i b = s.setSes i b := by simp [State.setSes]

/-- Changes of sessions alone store nothing. -/
theorem setSes_sameStores {o : Option Session} : (s.setSes i o).sameStores s :=
  ⟨rfl, rfl, rfl, rfl, rfl, rfl, rfl, .of_regs State.keepsWords_refl rfl⟩

/-- A due picture's entry is written out. -/
theorem vidOutput_picture (hv : s.ses i = some v) (hdue : v.due = o :: rest) (hfree : v.outFree ≠ 0) (hend : o.isEnd = false) :
    s.vidOutput i = (((s.setSes i (some (v.shown o rest))).entryOut v (v.outputEntry o)).setSes i
      (some ((v.shown o rest).wrote (some o.buffer) 0))).bump (F.hwkSPicsPictures i) := by
  unfold State.vidOutput
  rw [hv]
  dsimp only
  rw [hdue]
  dsimp only
  rw [if_neg hfree, if_neg (by rw [hend]; decide), modSes_some hv]
  exact congrArg (fun u : State => u.bump (F.hwkSPicsPictures i)) (vidEmit_of_some ses_setSes_self)

/-- A due end record is written out. -/
theorem vidOutput_end (hv : s.ses i = some v) (hdue : v.due = o :: rest) (hfree : v.outFree ≠ 0) (hend : o.isEnd = true) :
    s.vidOutput i = ((((s.endEntry v.decodes).1.setSes i (some { v with due := rest })).entryOut v (s.endEntry v.decodes).2).setSes i
      (some ({ v with due := rest }.wrote none 0))) := by
  unfold State.vidOutput
  rw [hv]
  dsimp only
  rw [hdue]
  dsimp only
  have hv' : (s.endEntry v.decodes).1.ses i = some v := hv
  rw [if_neg hfree, if_pos hend, modSes_some hv']
  exact vidEmit_of_some ses_setSes_self

/-- What stands once an entry is written out, readiness is renewed, and memory has not changed since. -/
theorem refresh_entryOut {u w : State} {x : Session} {due : List OutPic} {made pictures : Nat}
    {unconsumed : List (Nat × Option Nat × Nat)} (hses : w.ses i = some x) (hw : w.videoOver ((u.entryOut v e).setSes i (some x)))
    (hu : u.sameStores s)
    (hx : x.due = due ∧ x.outMade = made ∧ x.pictures = pictures ∧ x.unconsumed = unconsumed) :
    ∃ t y, Host.Outcome.next (w.vidRefresh i) = (.next t : Host.Outcome State Fault Refusal) ∧ t.ses i = some y ∧ y.due = due
      ∧ y.outMade = made ∧ y.pictures = pictures ∧ y.unconsumed = unconsumed
      ∧ t.pcieMem = (s.entryOut v e).pcieMem ∧ t.mem = (s.entryOut v e).mem := by
  obtain ⟨l, hl⟩ := ses_vidRefresh hses
  obtain ⟨hdue, hmade, hpictures, hunconsumed⟩ := hx
  have hover := (vidRefresh_over hses).2.trans hw
  have hstores := entryOut_sameStores (v := v) (e := e) hu
  exact ⟨_, _, rfl, hl, hdue, hmade, hpictures, hunconsumed, hover.pcieMem.trans hstores.pcieMem, hover.mem.trans hstores.mem⟩

/-- The clause of O58 on a due output. -/
theorem decodeOutput_clause (hv : s.ses i = some v) :
    (∀ o rest, v.due = o :: rest → v.outFree ≠ 0 → o.isEnd = false → ∃ t y, exec (.decodeOutput i) s = .next t
      ∧ t.ses i = some y ∧ y.due = rest ∧ y.outMade = v.outMade + 1 ∧ y.pictures = v.pictures + 1
      ∧ y.unconsumed = v.unconsumed ++ [(v.outMade, some o.buffer, 0)]
      ∧ (
        let e := leBytes 2 o.buffer ++ leBytes 1 o.flags ++ [0] ++ leBytes 4 v.pictures ++ leBytes 8 o.pts.toNat
          ++ leBytes 8 o.crop.toNat ++ leBytes 4 o.concealed ++ leBytes 4 0
        let z := (s.vidWrite v.part (v.outRing + 32 * (v.outMade % v.outSize)) e).vidWrite v.part (v.ctl + 16) (leBytes 8 (v.outMade + 1))
        t.pcieMem = z.pcieMem ∧ t.mem = z.mem)) ∧
    (∀ o rest, v.due = o :: rest → v.outFree ≠ 0 → o.isEnd = true → ∃ t y, exec (.decodeOutput i) s = .next t
      ∧ t.ses i = some y ∧ y.due = rest ∧ y.outMade = v.outMade + 1 ∧ y.pictures = v.pictures
      ∧ y.unconsumed = v.unconsumed ++ [(v.outMade, none, 0)]
      ∧ (
        let z := (s.vidWrite v.part (v.outRing + 32 * (v.outMade % v.outSize)) (s.endEntry v.decodes).2).vidWrite v.part
          (v.ctl + 16) (leBytes 8 (v.outMade + 1))
        t.pcieMem = z.pcieMem ∧ t.mem = z.mem)) ∧
    (v.due ≠ [] → v.outFree = 0 → ∃ t, exec (.decodeOutput i) s = .next t ∧ t.flag (F.hwkSStatRingWait i) = true
      ∧ t.mem = s.mem ∧ t.pcieMem = s.pcieMem) := by
  have hexec : exec (.decodeOutput i) s = .next ((s.vidOutput i).vidRefresh i) := rfl
  rw [hexec]
  refine ⟨fun o rest hdue hfree hend => ?_, fun o rest hdue hfree hend => ?_, fun hdue hfull => ?_⟩
  · rw [vidOutput_picture hv hdue hfree hend]
    exact refresh_entryOut ((addTo_regsOver.sameVideo.ses i).trans ses_setSes_self) addTo_regsOver.videoOver setSes_sameStores
      ⟨rfl, rfl, rfl, rfl⟩
  · rw [vidOutput_end hv hdue hfree hend]
    have hdrawn : (s.endEntry v.decodes).1.sameStores s := ⟨rfl, rfl, rfl, rfl, rfl, rfl, rfl, .of_regs State.keepsWords_refl rfl⟩
    exact refresh_entryOut ses_setSes_self rfl (setSes_sameStores.trans hdrawn) ⟨rfl, rfl, rfl, rfl⟩
  · obtain ⟨o, rest, hdue⟩ := List.exists_cons_of_ne_nil hdue
    have hwait : s.vidOutput i = s.raiseBit (statBit i 4) := by
      unfold State.vidOutput
      rw [hv]
      dsimp only
      rw [hdue]
      exact if_pos hfull
    have hfits : (statBit i 4).fits = true := rfl
    have hses : (s.raiseBit (statBit i 4)).ses i = some v := (raiseBit_regsOver.sameVideo.ses i).trans hv
    have hover := (vidRefresh_over hses).2.trans raiseBit_regsOver.videoOver
    rw [hwait]
    exact ⟨_, rfl, flag_vidRefresh (flag_raiseBit hfits rfl) (by decide) (by decide) hses, hover.mem, hover.pcieMem⟩

/-! ### Packets (R294 to R296) -/

theorem exec_packetEmission {x : InPipe} {units : List PacketUnit} (hv : s.ses i = some v) (hx : v.inPipe = some x) :
    let data := units.flatMap packetBytes
    let spot := v.packetPlace data.length
    let used := spot.2 + data.length
    exec (.packetEmission i units) s = .next (
      if x.packets = 0 ∨ (!v.packetOk x units) = true then s
      else if v.outFree = 0 ∨ v.bsBytes < v.bsUsed + used then
        if v.isClosing then s.setSes i (some { v with inPipe := some (x.emitted 0) }) else s
      else ((s.vidWrite v.part (v.bsAddr + spot.1) data).entryOut v (v.packetEntry x spot.1 data.length)).setSes i
        (some (v.packed x spot.1 data.length used))) := by
  intro data spot used
  have hwritten : (s.vidWrite v.part (v.bsAddr + spot.1) data).ses i = some v := (vidWrite_sameVideo.ses i).trans hv
  refine congrArg Host.Outcome.next ?_
  rw [hv]
  dsimp only
  rw [hx]
  dsimp only
  rw [modSes_some hv, vidEmit_of_some hwritten, modSes_some ses_setSes_self, setSes_setSes]
  rfl

/-- The clause of O58 on packets. -/
theorem packetEmission_clause {x : InPipe} {units : List PacketUnit} (hv : s.ses i = some v) (hx : v.inPipe = some x) :
    let data := units.flatMap packetBytes
    let spot := v.packetPlace data.length
    let used := spot.2 + data.length
    let fits := v.outFree ≠ 0 ∧ v.bsUsed + used ≤ v.bsBytes
    ((x.packets = 0 ∨ v.packetOk x units = false) → exec (.packetEmission i units) s = .next s) ∧
    (x.packets ≠ 0 → v.packetOk x units = true →
      (¬ fits → v.isClosing = false → exec (.packetEmission i units) s = .next s) ∧
      (¬ fits → v.isClosing = true →
        exec (.packetEmission i units) s = .next (s.setSes i (some { v with inPipe := some (x.emitted 0) }))) ∧
      (fits → ∃ t y, exec (.packetEmission i units) s = .next t ∧ t.ses i = some y
        ∧ y.inPipe = some (x.emitted used) ∧ y.bsHead = spot.1 + data.length ∧ y.bsUsed = v.bsUsed + used
        ∧ y.outMade = v.outMade + 1 ∧ y.unconsumed = v.unconsumed ++ [(v.outMade, none, used)]
        ∧ (
          let z := ((s.vidWrite v.part (v.bsAddr + spot.1) data).vidWrite v.part
            (v.outRing + 32 * (v.outMade % v.outSize)) (v.packetEntry x spot.1 data.length)).vidWrite v.part (v.ctl + 16)
            (leBytes 8 (v.outMade + 1))
          t.pcieMem = z.pcieMem ∧ t.mem = z.mem))) := by
  intro data spot used fits
  have hfull : (v.outFree = 0 ∨ v.bsBytes < v.bsUsed + used) ↔ ¬ fits := by
    unfold fits
    omega
  rw [exec_packetEmission hv hx]
  refine ⟨fun h => ?_, fun hmore hok => ⟨fun hnot hopen => ?_, fun hnot hclosing => ?_, fun hfits => ?_⟩⟩
  · rw [if_pos (by simpa using h)]
  · rw [if_neg (by simp [hmore, hok]), if_pos (hfull.mpr hnot), if_neg (by rw [hopen]; decide)]
  · rw [if_neg (by simp [hmore, hok]), if_pos (hfull.mpr hnot), if_pos hclosing]
  · rw [if_neg (by simp [hmore, hok]), if_neg fun h => hfull.mp h hfits]
    exact ⟨_, _, rfl, ses_setSes_self, rfl, rfl, rfl, rfl, rfl, rfl, rfl⟩

/-! ### Statistics (R300 to R302) -/

theorem exec_statsWrite {x : Nat × Bool × Bool × DWord × List Byte} {rest : List (Nat × Bool × Bool × DWord × List Byte)}
    (hv : s.ses i = some v) (hx : v.stats = x :: rest) :
    exec (.statsWrite i x.1) s = .next (
      if v.statsMade < v.statsSeen + v.statsBuffers then
        let u := s.setSes i (some { v with stats := rest, statsMade := v.statsMade + 1 })
        match allArrays[v.statsArray]? with
        | none => u.vidRefresh i
        | some n =>
          if s.inPart v.part n && s.usable n then
            ((u.statsOut v x (v.statsPlace n)).incKnot n (v.fld 70 2) 1).vidRefresh i
          else (u.accessError 0x042 n.val 1 0 0 (some v.part) (some (v.statsPlace n))).vidRefresh i
      else if v.statsSkips then ((s.setSes i (some { v with stats := rest })).raiseBit (statBit i 5)).vidRefresh i
      else s) := by
  refine congrArg Host.Outcome.next ?_
  rw [hv]
  dsimp only
  rw [hx]
  dsimp only
  rw [if_neg (by simp), modSes_some hv, modSes_some hv]
  rfl

theorem length_statsHeader {x : Nat × Bool × Bool × DWord × List Byte} : (statsHeader v x).length = 64 := by
  simp [statsHeader]

theorem load_congr (h : ∀ z, t.byte z = s.byte z) (a n : Nat) : t.load a n = s.load a n := by
  unfold State.load
  simp only [h]

/-- Bytes that stand at an address load from it. -/
theorem load_of_bytes {a : Nat} {bs : List Byte} (h : ∀ k, k < bs.length → s.byte (a + k) = bs.getD k 0) :
    s.load a bs.length = bs := by
  refine List.ext_getElem (length_load a _) fun k h1 h2 => ?_
  rw [← List.getD_eq_getElem bs 0 h2, ← h k h2]
  simp [State.load]

theorem knot_of_arrays (h : t.arrays = s.arrays) (n : ArrayNum) (k : Nat) : t.knot n k = s.knot n k := by
  rw [State.knot, State.arr, h, State.knot, State.arr]

/-- In good memory the statistics of a picture stand where they were written, and no byte elsewhere changes. -/
theorem statsOut_writes {x : Nat × Bool × Bool × DWord × List Byte} {a : Nat} (hc : s.clean) :
    (s.statsOut v x a).sameVideo s ∧ (s.statsOut v x a).load a 64 = statsHeader v x
      ∧ (s.statsOut v x a).load (a + 64) x.2.2.2.2.length = x.2.2.2.2
      ∧ ∀ z, z < a ∨ a + 64 + x.2.2.2.2.length ≤ z → (s.statsOut v x a).byte z = s.byte z := by
  obtain ⟨-, -, hc', hbyte⟩ := write_pagesOver (a := a + 64) hc x.2.2.2.2
  obtain ⟨-, -, -, hbyte'⟩ := write_pagesOver (a := a) hc' (statsHeader v x)
  rw [length_statsHeader] at hbyte'
  refine ⟨write_sameVideo.trans write_sameVideo, ?_, load_of_bytes fun k hk => ?_, fun z hz => ?_⟩
  · have hload : (s.statsOut v x a).load a (statsHeader v x).length = statsHeader v x := load_of_bytes fun k hk => by
      rw [length_statsHeader] at hk
      rw [State.statsOut, hbyte', if_pos (by omega), Nat.add_sub_cancel_left]
    rwa [length_statsHeader] at hload
  · rw [State.statsOut, hbyte', if_neg (by omega), hbyte, if_pos (by omega), Nat.add_sub_cancel_left]
  · rw [State.statsOut, hbyte', if_neg (by omega), hbyte, if_neg (by omega)]

/-- A session's knot is raised and its readiness renewed: the session, memory and the knot. -/
theorem knotted_refresh {n : ArrayNum} {k : Nat} (hv : s.ses i = some v) :
    (∃ l, ((s.incKnot n k 1).vidRefresh i).ses i = some { v with ready := l })
      ∧ (∀ z, ((s.incKnot n k 1).vidRefresh i).byte z = s.byte z)
      ∧ ((s.incKnot n k 1).vidRefresh i).knot n k = s.knot n k + 1 := by
  have hses : (s.incKnot n k 1).ses i = some v := hv
  have hover := (vidRefresh_over hses).2
  exact ⟨ses_vidRefresh hses, fun z => (hover.byte z).trans rfl, (hover.knot n k).trans knot_setKnot_self⟩

/-- The clause of O58 on statistics. -/
theorem statsWrite_clause {x : Nat × Bool × Bool × DWord × List Byte} {rest : List (Nat × Bool × Bool × DWord × List Byte)}
    (hv : s.ses i = some v) (hx : v.stats = x :: rest) :
    (∀ n : ArrayNum, v.statsMade < v.statsSeen + v.statsBuffers → v.statsArray = n.val →
      (s.clean → s.inPart v.part n = true → s.usable n = true → 0 < v.statsBuffers →
        v.statsOffset + v.statsBuffers * v.statsSize ≤ 0x800000 → 64 + x.2.2.2.2.length ≤ v.statsSize →
        let a := spoolBase n + v.statsOffset + v.statsMade % v.statsBuffers * v.statsSize
        ∃ t y, exec (.statsWrite i x.1) s = .next t ∧ t.ses i = some y ∧ y.stats = rest ∧ y.statsMade = v.statsMade + 1
          ∧ t.load a 64 = statsHeader v x ∧ t.load (a + 64) x.2.2.2.2.length = x.2.2.2.2
          ∧ (∀ z, z < a ∨ a + v.statsSize ≤ z → t.byte z = s.byte z)
          ∧ t.knot n (v.fld 70 2) = s.knot n (v.fld 70 2) + 1) ∧
      ((s.inPart v.part n = false ∨ s.usable n = false) → ∃ t y, exec (.statsWrite i x.1) s = .next t ∧ t.ses i = some y
        ∧ y.stats = rest ∧ t.mem = s.mem)) ∧
    (v.statsSeen + v.statsBuffers ≤ v.statsMade → v.statsSkips = false → exec (.statsWrite i x.1) s = .next s) ∧
    (v.statsSeen + v.statsBuffers ≤ v.statsMade → v.statsSkips = true → ∃ t y, exec (.statsWrite i x.1) s = .next t
      ∧ t.ses i = some y ∧ y.stats = rest ∧ t.flag (F.hwkSStatStatsSkip i) = true ∧ t.mem = s.mem) := by
  have hall : ∀ n : ArrayNum, allArrays[n.val]? = some n := fun n => by simp [allArrays]
  rw [exec_statsWrite hv hx]
  refine ⟨fun n hroom harray => ⟨fun hclean hpart husable _ _ hlen => ?_, fun hclosed => ?_⟩, fun hfull hwaits => ?_,
    fun hfull hskips => ?_⟩
  · rw [if_pos hroom, harray, hall]
    dsimp only
    rw [if_pos (by rw [hpart, husable]; rfl)]
    have hu : (s.setSes i (some { v with stats := rest, statsMade := v.statsMade + 1 })).clean := hclean
    obtain ⟨hvideo, hhead, htensor, helse⟩ := statsOut_writes (v := v) (x := x) (a := v.statsPlace n) hu
    obtain ⟨hses, hbyte, hknot⟩ := knotted_refresh (k := v.fld 70 2) (n := n) ((hvideo.ses i).trans ses_setSes_self)
    obtain ⟨l, hl⟩ := hses
    refine ⟨_, _, rfl, hl, rfl, rfl, (load_congr hbyte _ _).trans hhead, (load_congr hbyte _ _).trans htensor, fun z hz => ?_, ?_⟩
    · exact (hbyte z).trans ((helse z (by unfold Session.statsPlace; omega)).trans rfl)
    · rw [hknot, knot_of_arrays hvideo.arrays]
      rfl
  · rw [if_pos hroom, harray, hall]
    dsimp only
    rw [if_neg (by rcases hclosed with h | h <;> simp [h])]
    have herror : State.based ((s.setSes i (some { v with stats := rest, statsMade := v.statsMade + 1 })).accessError 0x042 n.val 1 0 0
        (some v.part) (some (v.statsPlace n))) (s.setSes i (some { v with stats := rest, statsMade := v.statsMade + 1 })) :=
      State.accessError_based State.based_refl
    have hses := (herror.sameVideo.ses i).trans ses_setSes_self
    obtain ⟨l, hl⟩ := ses_vidRefresh hses
    exact ⟨_, _, rfl, hl, rfl, (vidRefresh_over hses).2.mem.trans herror.mem⟩
  · rw [if_neg (Nat.not_lt.mpr hfull), if_neg (by rw [hwaits]; decide)]
  · rw [if_neg (Nat.not_lt.mpr hfull), if_pos hskips]
    have hfits : (statBit i 5).fits = true := rfl
    have hses : ((s.setSes i (some { v with stats := rest })).raiseBit (statBit i 5)).ses i = some { v with stats := rest } :=
      (raiseBit_regsOver.sameVideo.ses i).trans ses_setSes_self
    obtain ⟨l, hl⟩ := ses_vidRefresh hses
    exact ⟨_, _, rfl, hl, rfl, flag_vidRefresh (flag_raiseBit hfits rfl) (by decide) (by decide) hses,
      ((vidRefresh_over hses).2.trans raiseBit_regsOver.videoOver).mem⟩

end

end Sys2Proof.Machine
end

section
/-! PROOFS. O58, from the clauses on commands, polls, pictures and what is written out. -/

namespace Sys2Proof.Machine

/-- Settles O58: each clause is a lemma of its own on one kind of event, and all of them together are the statement. -/
theorem videoSessionsAndPictures : Obligations.VideoSessionsAndPictures := by
  unfold Obligations.VideoSessionsAndPictures
  intro s _
  refine ⟨fun c m p hp => ⟨fun hw => vidOpen_clause (hp := hp), fun hc => vidClose_clause hc hp,
    fun hc => vidReconfig_clause hc hp, fun hc => vidQuery_clause hc hp⟩, fun i hw v hv hopen => ringPoll_clause hv hopen,
    fun pipe h i => ?_, fun pipe res h => exec_pictureDone_of_none h,
    fun pipe res i v x hi hv hx => pictureDone_clause hi hv hx, fun i v hv => ?_⟩
  · intro decode first w hready hdraining hdrained hfree hfirst hnext v hv hpics
    exact pictureStart_clause hready hdraining hdrained hfree hfirst hnext hv hpics
  · obtain ⟨hpicture, hend, hfull⟩ := decodeOutput_clause hv
    exact ⟨hpicture, hend, hfull, fun x units hx => packetEmission_clause hv hx, fun x rest hx => statsWrite_clause hv hx⟩

end Sys2Proof.Machine
end

section
/-!
PROOFS. The shuttle arbiter's four ports, each with its own requesters, counters and registers (R304, R313, R317, R320): which
registers are a port's own, what work on the other ports leaves of it, and what arming commits comes to.
-/

namespace Sys2Proof.Machine

/-- Key x is a word of port i's registers, or the shadow of one (R13, R320). -/
def shtBlock (i : Fin 4) (x : Nat) : Prop := x / 0x100000 = 0x43 ∧ x % 0x80000 / 0x400 = 4 + i.val

/-- A field whose register is one of port i's. -/
def Fld.ofInst (f : Fld) (i : Fin 4) : Prop := shtBlock i f.key ∧ shtBlock i (f.key + 4)

/-- t is s but for the arbiter's ports and registers. -/
def State.shuttleOver (t s : State) : Prop := t = { s with sht := t.sht, regs := t.regs }

/-- Only the arbiter's other ports and their registers may differ in t from what they are in s. -/
def State.keepsInst (t : State) (i : Fin 4) (s : State) : Prop :=
  t.shuttleOver s ∧ t.sht[i.val] = s.sht[i.val] ∧ ∀ x, (∀ j, j ≠ i → ¬ shtBlock j x) → t.reg x = s.reg x

section
variable {r s t : State} {i j : Fin 4} {x : Nat} {f : Fld}

/-! ### Words of a port -/

theorem shtBlock_unique (hi : shtBlock i x) (hj : shtBlock j x) : i = j := by
  unfold shtBlock at hi hj
  omega

theorem shtBlock_statWord : shtBlock i (regKey 0x43 (0x1000 + 0x400 * i.val)) := by
  unfold shtBlock regKey
  omega

/-- A port's status bits lie in its own block. -/
theorem statBit_ofInst {lo w : Nat} : Fld.ofInst ⟨regKey 0x43 (0x1000 + 0x400 * i.val), lo, w, false⟩ i := by
  unfold Fld.ofInst shtBlock regKey
  dsimp only
  omega

/-- A requester's fields lie in its port's block. -/
theorem reqField_ofInst {off k lo w : Nat} {wide : Bool} (hk : k < 10) (hoff : 0x1100 ≤ off) (hoff' : off ≤ 0x1118) :
    Fld.ofInst ⟨regKey 0x43 (off + 0x400 * i.val + 0x20 * k), lo, w, wide⟩ i := by
  unfold Fld.ofInst shtBlock regKey
  dsimp only
  omega

theorem shtBlock_weight {k : Nat} (hk : k < 10) : shtBlock i (shtWeightKey i k) ∧ shtBlock i (shtWeightKey i k + 4) :=
  reqField_ofInst (lo := 0) (w := 0) (wide := false) hk (by decide) (by decide)

/-- The shadow of a word lies in the block of its word. -/
theorem shtBlock_weightShadow {k : Nat} (hk : k < 10) : shtBlock i (shtWeightKey i k + 0x80000) := by
  unfold shtBlock shtWeightKey regKey
  omega

/-- A field of one word reads as before where its word does. -/
theorem get_of_word (hw : f.wide = false) (h : t.reg f.key = s.reg f.key) : t.get f = s.get f := by
  simp only [State.get, hw, h, Bool.false_eq_true, if_false]

/-- Registers that do not meet hold fields that lie apart. -/
theorem apart_of_key_lt {g : Fld} (h : f.key + 4 < g.key) : f.apart g = true ∧ g.apart f = true := by
  have h1 : f.key ≠ g.key := by omega
  have h2 : f.key + 4 ≠ g.key := by omega
  have h3 : g.key + 4 ≠ f.key := by omega
  simp [Fld.apart, h1, h1.symm, h2, h3]

/-! ### Changes of the arbiter alone -/

theorem State.shuttleOver.trans (h : t.shuttleOver s) (g : s.shuttleOver r) : t.shuttleOver r :=
  Eq.trans h (congrArg (fun x : State => { x with sht := t.sht, regs := t.regs }) g)

theorem State.regsOver.shuttle (h : t.regsOver s) : t.shuttleOver s := by
  unfold State.shuttleOver
  rw [h]

theorem State.shuttleOver.cmd (h : t.shuttleOver s) (c : CmdRef) : t.cmd c = s.cmd c := by
  rw [h]
  rfl

theorem modSht_shuttle {g : ShtInst → ShtInst} : (s.modSht i g).shuttleOver s := rfl

@[simp] theorem sht_modSht_self {g : ShtInst → ShtInst} : (s.modSht i g).sht[i.val] = g s.sht[i.val] := by
  simp [State.modSht]

theorem sht_modSht_ne {g : ShtInst → ShtInst} (h : j ≠ i) : (s.modSht i g).sht[j.val] = s.sht[j.val] :=
  Vector.getElem_set_ne i.isLt j.isLt fun e => h (Fin.ext e.symm)

theorem State.regsOver.sht (h : t.regsOver s) : t.sht = s.sht := by rw [h]

/-! ### What is kept of a port -/

theorem State.keepsInst_refl : s.keepsInst i s := ⟨rfl, rfl, fun _ _ => rfl⟩

theorem State.keepsInst.trans (h : t.keepsInst i s) (g : s.keepsInst i r) : t.keepsInst i r :=
  ⟨h.1.trans g.1, h.2.1.trans g.2.1, fun x hx => (h.2.2 x hx).trans (g.2.2 x hx)⟩

/-- A word of the port's own reads as before. -/
theorem State.keepsInst.reg (h : t.keepsInst i s) (hx : shtBlock i x) : t.reg x = s.reg x :=
  h.2.2 x fun _ hj hjx => hj (shtBlock_unique hjx hx)

theorem State.keepsInst.get (h : t.keepsInst i s) (hf : f.ofInst i) : t.get f = s.get f := by
  unfold State.get State.reg64
  rw [h.reg hf.1, h.reg hf.2]

theorem State.keepsInst.flag (h : t.keepsInst i s) (hf : f.ofInst i) : t.flag f = s.flag f :=
  congrArg (· != 0) (h.get hf)

theorem State.keepsInst.shtActive (h : t.keepsInst i s) : t.shtActive i = s.shtActive i := h.flag statBit_ofInst

theorem setReg_keepsInst {v : Word} (hij : j ≠ i) (hx : shtBlock j x) : (s.setReg x v).keepsInst i s :=
  ⟨rfl, rfl, fun _ hy => reg_setReg_ne _ fun e => hy j hij (e ▸ hx)⟩

theorem set_keepsInst {v : Nat} (hij : j ≠ i) (hf : f.ofInst j) : (s.set f v).keepsInst i s := by
  unfold State.set State.setReg64
  split
  · exact (setReg_keepsInst hij hf.2).trans (setReg_keepsInst hij hf.1)
  · exact setReg_keepsInst hij hf.1

theorem modSht_keepsInst {g : ShtInst → ShtInst} (hij : j ≠ i) : (s.modSht j g).keepsInst i s :=
  ⟨rfl, sht_modSht_ne hij.symm, fun _ _ => rfl⟩

theorem foldl_keepsInst {β : Type} {g : State → β → State} {l : List β} (hg : ∀ k ∈ l, ∀ s, (g s k).keepsInst i s) :
    ∀ {s}, (l.foldl g s).keepsInst i s := by
  induction l with
  | nil => exact State.keepsInst_refl
  | cons k l ih =>
    obtain ⟨hk, hl⟩ := List.forall_mem_cons.mp hg
    exact (ih hl).trans (hk _)

/-- Work on the ports in turn, each step on one of them, is for port i its own step alone. -/
theorem foldl_instances {g : State → Fin 4 → State} (hg : ∀ s j, j ≠ i → (g s j).keepsInst i s) :
    ∃ a : State, a.keepsInst i s ∧ ((List.finRange 4).foldl g s).keepsInst i (g a i) := by
  obtain ⟨l, m, hlm⟩ := List.append_of_mem (List.mem_finRange i)
  obtain ⟨-, hm, hdisj⟩ := List.nodup_append.mp (hlm ▸ List.nodup_finRange 4 : (l ++ i :: m).Nodup)
  rw [hlm, List.foldl_append, List.foldl_cons]
  exact ⟨_, foldl_keepsInst fun j hj s => hg s j fun e => hdisj j hj i (List.mem_cons_self ..) e,
    foldl_keepsInst fun j hj s => hg s j fun e => (List.nodup_cons.mp hm).1 (e ▸ hj)⟩

/-! ### Arming (R313) -/

/-- What a commit write does to one port (R313). -/
def State.armInst (s : State) (mask : Nat) (i : Fin 4) : State :=
  if bitsAt mask i.val 1 = 1 ∧ s.shtActive i then
    (s.modSht i fun t => { t with armed := true }).set (F.shtIStatCommitPending i) 1
  else s

theorem armInst_keepsInst {mask : Nat} (hij : j ≠ i) : (s.armInst mask j).keepsInst i s := by
  unfold State.armInst
  split
  · exact (set_keepsInst hij statBit_ofInst).trans (modSht_keepsInst hij)
  · exact State.keepsInst_refl

/-- Arming writes status words only. -/
theorem reg_armInst_ne {mask : Nat} (hx : x ≠ regKey 0x43 (0x1000 + 0x400 * i.val)) : (s.armInst mask i).reg x = s.reg x := by
  unfold State.armInst
  split
  · exact reg_set_ne hx
  · rfl

theorem armInst_of_named {mask : Nat} (hm : bitsAt mask i.val 1 = 1) (hact : s.shtActive i = true) :
    s.armInst mask i = (s.modSht i fun t => { t with armed := true }).set (F.shtIStatCommitPending i) 1 := if_pos ⟨hm, hact⟩

theorem armInst_of_unnamed {mask : Nat} (h : ¬ (bitsAt mask i.val 1 = 1 ∧ s.shtActive i = true)) : s.armInst mask i = s :=
  if_neg h

/-- A commit write is, for port i, the arming of that port. -/
theorem shtArm_inst (mask : Nat) (i : Fin 4) :
    ∃ a : State, a.keepsInst i s ∧ (s.shtArm mask).keepsInst i (a.armInst mask i) :=
  foldl_instances (g := fun s i => s.armInst mask i) fun _ _ => armInst_keepsInst

theorem shtArm_shuttle (mask : Nat) : (s.shtArm mask).shuttleOver s :=
  foldl_over (R := State.shuttleOver) (fun _ => rfl) State.shuttleOver.trans fun s i => by
    change (s.armInst mask i).shuttleOver s
    unfold State.armInst
    split
    · exact set_regsOver.shuttle.trans modSht_shuttle
    · rfl

/-- Arming a port in use that the write names: it is armed and shows it, its requesters are as they were (R313). -/
theorem shtArm_named {mask : Nat} (hm : bitsAt mask i.val 1 = 1) (hact : s.shtActive i = true) :
    (s.shtArm mask).sht[i.val] = { s.sht[i.val] with armed := true }
      ∧ (s.shtArm mask).flag (F.shtIStatCommitPending i) = true := by
  obtain ⟨a, ha, ht⟩ := shtArm_inst (s := s) mask i
  rw [armInst_of_named hm (ha.shtActive.trans hact)] at ht
  refine ⟨ht.2.1.trans ?_, (ht.flag statBit_ofInst).trans (flag_raiseBit rfl rfl)⟩
  rw [set_regsOver.sht, sht_modSht_self, ha.2.1]

/-- A port that the write does not name, or that is not in use, stays as it is. -/
theorem shtArm_unnamed {mask : Nat} (h : ¬ (bitsAt mask i.val 1 = 1 ∧ s.shtActive i = true)) :
    (s.shtArm mask).sht[i.val] = s.sht[i.val] := by
  obtain ⟨a, ha, ht⟩ := shtArm_inst (s := s) mask i
  rw [armInst_of_unnamed (by rwa [ha.shtActive])] at ht
  exact ht.2.1.trans ha.2.1

/-- A word that is no status word reads as before a commit write. -/
theorem reg_shtArm {mask : Nat} (hx : ∀ j : Fin 4, x ≠ regKey 0x43 (0x1000 + 0x400 * j.val)) :
    (s.shtArm mask).reg x = s.reg x :=
  foldl_field (g := fun s => s.reg x) fun s j => reg_armInst_ne (s := s) (mask := mask) (hx j)

end

end Sys2Proof.Machine
end

section
/-!
PROOFS. Pairs and shares of a partition (R313, R317, R340, R347): what PART_BIND and PART_SHARES come to, and from these the
obligation on the commands of existing partitions.
-/

namespace Sys2Proof.Machine

/-- What PART_SHARES stages at one port (R340). -/
def State.stageShare (s : State) (m : Cmd) (p : PartNum) (i : Fin 4) : State :=
  if s.shtActive i then s.shtStageWeight i p (m.arg (8 + 4 * i.val) 2) (m.arg (10 + 4 * i.val) 2) else s

/-- The state once PART_SHARES has staged at every port in use and armed their commits (R313, R340). -/
def State.shareOut (s : State) (m : Cmd) (p : PartNum) : State :=
  ((List.finRange 4).foldl (fun s i => s.stageShare m p i) s).shtArm 15

/-- The ports that the staged values oversubscribe (R317, R340). -/
def State.oversubscribed (s : State) : Nat :=
  (List.finRange 4).foldl (fun (n : Nat) (i : Fin 4) =>
    let caps := ((List.range (shtCount i)).map fun r =>
      let w := (s.reg (shtWeightKey i r + 0x80000)).toNat
      max (bitsAt w 0 16) (bitsAt w 16 16)).sum
    if s.shtActive i = true ∧ s.shtG i < caps + 64 * shtCount i then n + 2 ^ i.val else n) 0

section
variable {s : State} {c : CmdRef} {m : Cmd} {p : PartNum} {k : PairNum} {i j : Fin 4}

/-! ### Binding (R347) -/

/-- PART_BIND of a pair that may be bound (R347). -/
theorem exec_partBind (h : s.Started c 0x0203 m) (hp : m.part? = some p) (hk : m.arg 8 1 = k.val) (h0 : k.val ≠ 0)
    (h8 : k.val ≠ 8) :
    exec (.partBind c) s = .next (
      if s.pairEnabled k || s.pairHolds k || (s.pairPart k).isSome then s.complete c stBusy
      else ((s.set (F.spnMbStatusBound k) 1).set (F.spnMbStatusPartition k) p.val).complete c stOk) := by
  refine (congrArg Host.Outcome.next (runPart_started h hp _)).trans ?_
  have hget : allPairs[m.arg 8 1]? = some k := by simp [hk, allPairs]
  rw [hget]
  exact congrArg Host.Outcome.next (if_neg (by omega))

/-- PART_BIND of pair 0 or 8, or of no pair (R347). -/
theorem exec_partBind_refused (h : s.Started c 0x0203 m) (hp : m.part? = some p)
    (hbad : m.arg 8 1 = 0 ∨ m.arg 8 1 = 8 ∨ 16 ≤ m.arg 8 1) : exec (.partBind c) s = .next (s.complete c stBad) := by
  refine (congrArg Host.Outcome.next (runPart_started h hp _)).trans ?_
  split
  · rfl
  · next k hk =>
    obtain ⟨hlt, he⟩ := List.getElem?_eq_some_iff.mp hk
    have hval : k.val = m.arg 8 1 := by simp [← he, allPairs]
    exact congrArg Host.Outcome.next (if_pos (by simp only [allPairs, List.length_finRange] at hlt; omega))

/-- PART_UNBIND of a pair (R347). -/
theorem exec_partUnbind (h : s.Started c 0x0204 m) (hp : m.part? = some p) (hk : m.arg 8 1 = k.val) :
    exec (.partUnbind c) s = .next (
      if s.pairPart k ≠ some p then s.complete c stBad
      else if s.pairEnabled k || s.pairHolds k then s.complete c stBusy
      else ((s.set (F.spnMbStatusBound k) 0).set (F.spnMbStatusPartition k) 0).complete c stOk) := by
  refine (congrArg Host.Outcome.next (runPart_started h hp _)).trans ?_
  have hget : allPairs[m.arg 8 1]? = some k := by simp [hk, allPairs]
  rw [hget]
  rfl

/-! ### Shares (R313, R317, R340) -/

theorem exec_partShares (h : s.Started c 0x0205 m) (hp : m.part? = some p) :
    exec (.partShares c) s = .next ((s.shareOut m p).complete c stOk (leBytes 1 (s.shareOut m p).oversubscribed)) := by
  refine (congrArg Host.Outcome.next (runPart_started h hp _)).trans ?_
  simp only [State.oversubscribed, Bool.and_eq_true, decide_eq_true_eq]
  rfl

theorem stageShare_regsOver : (s.stageShare m p i).regsOver s := by
  unfold State.stageShare
  split
  · exact setReg_regsOver
  · rfl

theorem stageShare_keepsInst (hij : j ≠ i) : (s.stageShare m p j).keepsInst i s := by
  unfold State.stageShare
  split
  · exact setReg_keepsInst hij (shtBlock_weightShadow (by omega))
  · exact State.keepsInst_refl

/-- Staging at one port does not change whether it is in use. -/
theorem shtActive_stageShare : (s.stageShare m p i).shtActive i = s.shtActive i := by
  unfold State.stageShare
  split
  · have hne : (F.shtIStatActive i).key ≠ shtWeightKey i p + 0x80000 := by
      simp only [F.shtIStatActive, shtWeightKey, regKey]
      omega
    exact congrArg (· != 0) (get_of_word rfl (reg_setReg_ne _ hne))
  · rfl

theorem shareOut_shuttle : (s.shareOut m p).shuttleOver s :=
  (shtArm_shuttle 15).trans
    (foldl_over (R := State.regsOver) (fun _ => rfl) State.regsOver.trans fun _ _ => stageShare_regsOver).shuttle

/-- For one port, PART_SHARES is the staging there and the arming. -/
theorem shareOut_inst (s : State) (m : Cmd) (p : PartNum) (i : Fin 4) :
    ∃ a b : State, a.keepsInst i s ∧ b.keepsInst i (a.stageShare m p i) ∧ b.shtActive i = s.shtActive i
      ∧ s.shareOut m p = b.shtArm 15 := by
  obtain ⟨a, ha, hb⟩ := foldl_instances (s := s) (i := i) (g := fun s i => s.stageShare m p i) fun _ _ => stageShare_keepsInst
  exact ⟨a, _, ha, hb, hb.shtActive.trans (shtActive_stageShare.trans ha.shtActive), rfl⟩

/-- PART_SHARES names every port. -/
theorem every_named : ∀ i : Fin 4, bitsAt 15 i.val 1 = 1 := by decide

/-- At a port in use the partition's weight and ceiling are staged and a commit is armed (R313). -/
theorem shareOut_active (hact : s.shtActive i = true) :
    (s.shareOut m p).reg (shtWeightKey i p + 0x80000)
        = BitVec.ofNat 32 (m.arg (8 + 4 * i.val) 2 + 65536 * m.arg (10 + 4 * i.val) 2)
      ∧ ((s.shareOut m p).sht[i.val]).armed = true := by
  obtain ⟨a, b, ha, hb, hbact, hu⟩ := shareOut_inst s m p i
  have hw : m.arg (8 + 4 * i.val) 2 < 65536 := arg_lt _ 2
  have hc : m.arg (10 + 4 * i.val) 2 < 65536 := arg_lt _ 2
  rw [hu, (shtArm_named (every_named i) (hbact.trans hact)).1,
    reg_shtArm fun j => by unfold shtWeightKey regKey; omega, hb.reg (shtBlock_weightShadow (by omega)), State.stageShare,
    if_pos (ha.shtActive.trans hact), State.shtStageWeight, reg_setReg_self, Nat.mod_eq_of_lt hw, Nat.mod_eq_of_lt hc]
  exact ⟨rfl, rfl⟩

/-- A port that is not in use stays as it is. -/
theorem shareOut_inactive (hact : s.shtActive i = false) : (s.shareOut m p).sht[i.val] = s.sht[i.val] := by
  obtain ⟨a, b, ha, hb, hbact, hu⟩ := shareOut_inst s m p i
  rw [hu, shtArm_unnamed (by simp [hbact, hact]), hb.2.1, stageShare_regsOver.sht, ha.2.1]

end

/-! ### The obligation -/

/-- Settles O35, command by command: each branch of a command completes it, over the registers that the branch sets. -/
theorem partitionsAreBoundAndShared : Obligations.PartitionsAreBoundAndShared := by
  intro s c m p hp
  refine ⟨fun h => ⟨fun k hk h0 h8 hen hhold hpart => ?_, fun k hk h0 h8 hused => ?_, fun hbad => ?_⟩,
    fun h k hk => ?_, fun _ h => ?_, fun h => ?_⟩
  · rw [exec_partBind h hp hk h0 h8, hen, hhold, hpart]
    exact completes_complete (((set_regsOver.trans set_regsOver).cmd c).trans h.1) _ _
  · have hbusy : (s.pairEnabled k || s.pairHolds k || (s.pairPart k).isSome) = true := by simpa [or_assoc] using hused
    rw [exec_partBind h hp hk h0 h8, if_pos hbusy]
    exact completes_complete h.1 _ _
  · rw [exec_partBind_refused h hp hbad]
    exact completes_complete h.1 _ _
  · rw [exec_partUnbind h hp hk]
    refine ⟨fun hown hen hhold => ?_, fun hother => ?_, fun hown hused => ?_⟩
    · rw [if_neg (not_not.mpr hown), hen, hhold]
      exact completes_complete (((set_regsOver.trans set_regsOver).cmd c).trans h.1) _ _
    · rw [if_pos hother]
      exact completes_complete h.1 _ _
    · rw [if_neg (not_not.mpr hown), if_pos (by simpa using hused)]
      exact completes_complete h.1 _ _
  · rw [exec_partShares h hp]
    exact ⟨_, completes_complete ((shareOut_shuttle.cmd c).trans h.1) _ _, fun i => shareOut_active, fun i => shareOut_inactive,
      shareOut_shuttle⟩
  · have hexec : exec (.partQuery c) s = .next _ := congrArg Host.Outcome.next (runPart_started h hp _)
    rw [hexec]
    exact completes_complete h.1 _ _

end Sys2Proof.Machine
end

section
/-!
PROOFS. Bursts, arbitrations and cuts of the shuttle arbiter (R306 to R312): how transfers are cut into bursts, who wins an
arbitration, and what a grant and a cut leave.
-/

namespace Sys2Proof.Machine

/-! ### Bursts (R306) -/

/-- Every burst of a transfer carries 1 to 64 lines of one 4 KiB page. -/
theorem cutBursts_fits {addr n : Nat} {b : Burst} (h : b ∈ cutBursts addr n) :
    1 ≤ b.beats ∧ b.beats ≤ 64 ∧ b.addr % 64 = 0 ∧ b.addr / 4096 = (b.addr + 64 * b.beats - 1) / 4096 := by
  unfold cutBursts at h
  split at h
  · cases h
  · obtain ⟨k, hk, rfl⟩ := List.mem_map.mp h
    have hk' := List.mem_range.mp hk
    dsimp only
    omega

/-! ### Requesters of a port -/

section
variable {t : ShtInst} {r k : Fin 10} {g : ShtReq → ShtReq}

@[simp] theorem reqs_mod_self : (t.mod r g).reqs[r.val] = g t.reqs[r.val] := by
  simp [ShtInst.mod]

theorem reqs_mod_ne (h : k ≠ r) : (t.mod r g).reqs[k.val] = t.reqs[k.val] :=
  Vector.getElem_set_ne r.isLt k.isLt fun e => h (Fin.ext e.symm)

theorem reqs_foldl_mod_ne {g : Fin 10 → ShtReq → ShtReq} {l : List (Fin 10)} (h : k ∉ l) :
    (l.foldl (fun (t : ShtInst) r => t.mod r (g r)) t).reqs[k.val] = t.reqs[k.val] :=
  List.foldlRecOn (motive := fun u : ShtInst => u.reqs[k.val] = t.reqs[k.val]) l _ rfl
    fun _ hu r hr => (reqs_mod_ne (ne_of_mem_of_not_mem hr h).symm).trans hu

/-- Changing every requester in turn changes each by its own function. -/
theorem reqs_foldl_mod {g : Fin 10 → ShtReq → ShtReq} :
    ((List.finRange 10).foldl (fun (t : ShtInst) r => t.mod r (g r)) t).reqs[k.val] = g k t.reqs[k.val] := by
  obtain ⟨l, m, hlm⟩ := List.append_of_mem (List.mem_finRange k)
  obtain ⟨-, hm, hdisj⟩ := List.nodup_append.mp (hlm ▸ List.nodup_finRange 10 : (l ++ k :: m).Nodup)
  rw [hlm, List.foldl_append, List.foldl_cons, reqs_foldl_mod_ne (List.nodup_cons.mp hm).1, reqs_mod_self,
    reqs_foldl_mod_ne fun hk => hdisj k hk k (List.mem_cons_self ..) rfl]

/-- Changing requesters leaves the rest of the port. -/
theorem foldl_mod_frame {g : Fin 10 → ShtReq → ShtReq} {l : List (Fin 10)} :
    l.foldl (fun (t : ShtInst) r => t.mod r (g r)) t
      = { t with reqs := (l.foldl (fun (t : ShtInst) r => t.mod r (g r)) t).reqs } :=
  List.foldlRecOn (motive := fun u : ShtInst => u = { t with reqs := u.reqs }) l _ rfl
    fun u hu r _ => congrArg (fun x : ShtInst => { x with reqs := (u.mod r (g r)).reqs }) hu

/-! ### The winner (R309) -/

/-- Whether a requester takes part in an arbitration (R309, R312). -/
def ShtInst.competes (t : ShtInst) (r : Fin 10) : Prop := t.reqs[r.val].queue ≠ [] ∧ t.sitOut ≠ some r

/-- The better of the best requester so far and the next one (R309). -/
def ShtInst.better (t : ShtInst) (best : Option (Fin 10)) (r : Fin 10) : Option (Fin 10) :=
  if t.reqs[r.val].queue.isEmpty ∨ t.sitOut = some r then best
  else match best with
    | none => some r
    | some b => if t.reqs[b.val].credit < t.reqs[r.val].credit then some r else some b

theorem winner_eq_foldl : t.winner = (List.finRange 10).foldl t.better none := rfl

theorem better_of_absent {best : Option (Fin 10)} (h : ¬ t.competes r) : t.better best r = best :=
  if_pos (by simpa [ShtInst.competes, or_iff_not_imp_left] using h)

theorem better_none (h : t.competes r) : t.better none r = some r :=
  if_neg (by simpa [ShtInst.competes] using h)

theorem better_some (h : t.competes r) :
    t.better (some k) r = if t.reqs[k.val].credit < t.reqs[r.val].credit then some r else some k :=
  if_neg (by simpa [ShtInst.competes] using h)

/-- The best of requesters whose counters all stand below a number has its counter below it. -/
theorem credit_foldl_better_lt {l : List (Fin 10)} {c : Nat} (h : ∀ k ∈ l, t.competes k → t.reqs[k.val].credit < c) :
    ∀ y, l.foldl t.better none = some y → t.reqs[y.val].credit < c :=
  List.foldlRecOn (motive := fun best : Option (Fin 10) => ∀ y, best = some y → t.reqs[y.val].credit < c) l t.better
    (fun _ h => nomatch h) fun best hbest k hk y hy => by
    by_cases hc : t.competes k
    · cases best with
      | none =>
        rw [better_none hc] at hy
        exact Option.some.inj hy ▸ h k hk hc
      | some b =>
        rw [better_some hc] at hy
        split at hy
        · exact Option.some.inj hy ▸ h k hk hc
        · exact hbest y hy
    · exact hbest y ((better_of_absent hc).symm.trans hy)

/-- The competing requester with the highest counter, the lowest index of equals, wins (R309). -/
theorem winner_eq_some (hr : t.competes r) (h : ∀ k, t.competes k → k ≠ r →
      t.reqs[k.val].credit < t.reqs[r.val].credit ∨ (t.reqs[k.val].credit = t.reqs[r.val].credit ∧ r < k)) :
    t.winner = some r := by
  obtain ⟨l, m, hlm⟩ := List.append_of_mem (List.mem_finRange r)
  obtain ⟨-, -, hlt⟩ := List.pairwise_append.mp (hlm ▸ List.pairwise_lt_finRange 10 : (l ++ r :: m).Pairwise (· < ·))
  have hbefore : ∀ k ∈ l, t.competes k → t.reqs[k.val].credit < t.reqs[r.val].credit := fun k hk hc => by
    have hkr : k < r := hlt k hk r (List.mem_cons_self ..)
    exact (h k hc hkr.ne).resolve_right fun e => absurd e.2 hkr.le.not_gt
  have hwins : t.better (l.foldl t.better none) r = some r := by
    cases hb : l.foldl t.better none with
    | none => exact better_none hr
    | some y => exact (better_some hr).trans (if_pos (credit_foldl_better_lt hbefore y hb))
  have hstays : ∀ k, t.better (some r) k = some r := fun k => by
    by_cases hc : t.competes k
    · rw [better_some hc, if_neg]
      by_cases hkr : k = r
      · exact hkr ▸ Nat.lt_irrefl _
      · have := h k hc hkr
        omega
    · exact better_of_absent hc
  rw [winner_eq_foldl, hlm, List.foldl_append, List.foldl_cons, hwins, List.foldl_fixed' hstays]

/-- Where nobody competes, nobody wins. -/
theorem winner_eq_none (h : ∀ k, ¬ t.competes k) : t.winner = none := by
  rw [winner_eq_foldl, List.foldl_fixed' fun k => better_of_absent (h k)]

/-! ### The port at an arbitration (R308, R309, R319) -/

/-- The port as an arbitration samples it: the current burst is over, and who does not wait misses nothing. -/
def ShtInst.sampled (t : ShtInst) : ShtInst :=
  { (List.finRange 10).foldl (fun (t : ShtInst) r => t.mod r fun q =>
      if q.queue.isEmpty then { q with missed := false } else q) t with
    arbitrated := true, owner := none }

/-- The port after a grant: the burst's beats have left the winner's counter (R308). -/
def ShtInst.grant (t : ShtInst) (r : Fin 10) (src : ShtSource) (b : Burst) (q : ShtReq) : ShtInst :=
  { t.mod r fun _ => { q with credit := q.credit - min b.beats q.credit, missed := false } with
    sitOut := none, owner := some { req := r, source := src, burst := b, deducted := min b.beats q.credit, slots := 0 } }

theorem reqs_sampled : t.sampled.reqs[k.val].queue = t.reqs[k.val].queue
    ∧ t.sampled.reqs[k.val].credit = t.reqs[k.val].credit := by
  have hk : t.sampled.reqs[k.val]
      = if t.reqs[k.val].queue.isEmpty then { t.reqs[k.val] with missed := false } else t.reqs[k.val] :=
    reqs_foldl_mod (g := fun _ q => if q.queue.isEmpty then { q with missed := false } else q)
  rw [hk]
  split <;> exact ⟨rfl, rfl⟩

/-- Sampling keeps who sits out and whether a commit is armed. -/
theorem sampled_frame : t.sampled = { t with reqs := t.sampled.reqs, arbitrated := true, owner := none } :=
  congrArg (fun x : ShtInst => { x with arbitrated := true, owner := none })
    (foldl_mod_frame (g := fun _ q => if q.queue.isEmpty then { q with missed := false } else q))

theorem sitOut_sampled : t.sampled.sitOut = t.sitOut := by rw [sampled_frame]

theorem competes_sampled : t.sampled.competes k ↔ t.competes k := by
  rw [ShtInst.competes, reqs_sampled.1, sitOut_sampled]
  rfl

/-- The next burst of a requester whose first source has one, and its queue after it (R306). -/
theorem next_of_queue {q : ShtReq} {src : ShtSource} {b : Burst} {own : List Burst} {rest : List (ShtSource × List Burst)}
    (h : q.queue = (src, b :: own) :: rest) :
    q.next = some (src, b, { q with queue := if own = [] then rest else rest ++ [(src, own)] }) := by
  simp [ShtReq.next, h]

end

/-! ### An arbitration (R308 to R311) -/

section
variable {r s t u : State} {i j : Fin 4} {k : Fin 10} {g : Grant} {d : Nat}

/-- The state once the current burst of a port has been carried on (R304, R305). -/
def State.forwarded (s : State) (i : Fin 4) : State :=
  match s.sht[i.val].owner with
  | some g => s.shtForward i g.burst
  | none => s

/-- Carrying a burst on changes ports only, and not the one that carried it. -/
theorem shtForward_frame (b : Burst) :
    s.shtForward i b = { s with sht := (s.shtForward i b).sht } ∧ (s.shtForward i b).sht[i.val] = s.sht[i.val] := by
  unfold State.shtForward
  split
  · split
    · next h => exact ⟨rfl, sht_modSht_ne fun e => absurd h.1 (by simp [e])⟩
    · exact ⟨rfl, rfl⟩
  · exact ⟨rfl, rfl⟩

theorem forwarded_frame : s.forwarded i = { s with sht := (s.forwarded i).sht } := by
  unfold State.forwarded
  split
  · exact (shtForward_frame _).1
  · rfl

/-- A counter that is added to stops at its largest value. -/
theorem get_addTo_self {f : Fld} (hf : f.fits = true) (n : Nat) : (s.addTo f n).get f = min (s.get f + n) (2 ^ f.width - 1) := by
  have := Nat.two_pow_pos f.width
  rw [State.addTo, get_set_self hf, Nat.mod_eq_of_lt (by omega)]

/-- What an arbitration leaves, by its winner. -/
def State.award (s : State) (i : Fin 4) : Option (Fin 10) → State
  | none => (s.forwarded i).modSht i fun _ => { s.sht[i.val].sampled with sitOut := none }
  | some r =>
    match s.sht[i.val].sampled.reqs[r.val].next with
    | none => s.forwarded i
    | some (src, b, q) =>
      ((s.forwarded i).modSht i fun _ => s.sht[i.val].sampled.grant r src b q).addTo (F.shtBeatsBeats i r) b.beats

theorem exec_arbitration (hact : s.shtActive i = true) :
    exec (.arbitration i) s = .next (s.award i s.sht[i.val].sampled.winner) := by
  refine congrArg Host.Outcome.next ((if_neg (by simp [hact])).trans ?_)
  unfold State.award
  rfl

theorem grant_reqs_self {t : ShtInst} {r : Fin 10} {src : ShtSource} {b : Burst} {q : ShtReq} :
    (t.grant r src b q).reqs[r.val] = { q with credit := q.credit - min b.beats q.credit, missed := false } :=
  reqs_mod_self (g := fun _ => { q with credit := q.credit - min b.beats q.credit, missed := false })

theorem grant_reqs_ne {t : ShtInst} {r : Fin 10} {src : ShtSource} {b : Burst} {q : ShtReq} (h : k ≠ r) :
    (t.grant r src b q).reqs[k.val] = t.reqs[k.val] :=
  reqs_mod_ne (g := fun _ => { q with credit := q.credit - min b.beats q.credit, missed := false }) h

/-- The burst of the winner's next source is granted: its beats leave the winner's counter and are counted, and no other
requester's counter or queue changes (R308). -/
theorem arbitration_granted {src : ShtSource} {b : Burst} {own : List Burst} {rest : List (ShtSource × List Burst)}
    (hact : s.shtActive i = true) (hq : s.sht[i.val].reqs[k.val].queue = (src, b :: own) :: rest)
    (hw : s.sht[i.val].sampled.winner = some k) :
    ∃ t, exec (.arbitration i) s = .next t
      ∧ t.sht[i.val].reqs[k.val].credit = s.sht[i.val].reqs[k.val].credit - b.beats
      ∧ t.sht[i.val].reqs[k.val].queue = (if own = [] then rest else rest ++ [(src, own)])
      ∧ t.sht[i.val].owner = some {
          req := k, source := src, burst := b, deducted := min b.beats s.sht[i.val].reqs[k.val].credit, slots := 0 }
      ∧ t.sht[i.val].sitOut = none
      ∧ (∀ l : Fin 10, l ≠ k → t.sht[i.val].reqs[l.val].credit = s.sht[i.val].reqs[l.val].credit
          ∧ t.sht[i.val].reqs[l.val].queue = s.sht[i.val].reqs[l.val].queue)
      ∧ (∀ j : Fin 4, j ≠ i → t.sht[j.val] = (s.forwarded i).sht[j.val])
      ∧ t.get (F.shtBeatsBeats i k) = min (s.get (F.shtBeatsBeats i k) + b.beats) (2 ^ 64 - 1)
      ∧ t = { s with sht := t.sht, regs := t.regs } := by
  obtain ⟨hqueue, hcredit⟩ := reqs_sampled (t := s.sht[i.val]) (k := k)
  have hexec := exec_arbitration hact
  rw [hw, State.award, next_of_queue (hqueue.trans hq)] at hexec
  dsimp only at hexec
  generalize hT : s.sht[i.val].sampled.grant k src b _ = T at hexec
  have hself : T.reqs[k.val] = _ := hT ▸ grant_reqs_self
  have hother : ∀ l : Fin 10, l ≠ k → T.reqs[l.val] = s.sht[i.val].sampled.reqs[l.val] := fun l hl =>
    hT ▸ grant_reqs_ne hl
  have howner : T.owner = some {
      req := k, source := src, burst := b, deducted := min b.beats s.sht[i.val].sampled.reqs[k.val].credit, slots := 0 } :=
    hT ▸ rfl
  have hsit : T.sitOut = none := hT ▸ rfl
  have hsht : (((s.forwarded i).modSht i fun _ => T).addTo (F.shtBeatsBeats i k) b.beats).sht
      = ((s.forwarded i).modSht i fun _ => T).sht :=
    addTo_regsOver.sht
  refine ⟨_, hexec, ?_⟩
  simp only [hsht, sht_modSht_self, hself, howner, hsit, hcredit]
  refine ⟨by omega, trivial, trivial, trivial, fun l hl => ?_, fun j hj => sht_modSht_ne hj, ?_, ?_⟩
  · rw [hother l hl]
    exact And.symm reqs_sampled
  · rw [get_addTo_self rfl, get_of_regs (s := s) (by rw [State.modSht_regs, forwarded_frame])]
    rfl
  · refine Eq.trans addTo_regsOver ?_
    rw [forwarded_frame]
    rfl

/-- Where nobody competes nobody is granted, and nobody sits out any longer (R309, R312). -/
theorem arbitration_idle (hact : s.shtActive i = true) (hw : s.sht[i.val].sampled.winner = none) :
    ∃ t, exec (.arbitration i) s = .next t
      ∧ t.sht[i.val].owner = none ∧ t.sht[i.val].sitOut = none
      ∧ (∀ k : Fin 10, t.sht[i.val].reqs[k.val].credit = s.sht[i.val].reqs[k.val].credit)
      ∧ (∀ j : Fin 4, j ≠ i → t.sht[j.val] = (s.forwarded i).sht[j.val]) ∧ t = { s with sht := t.sht } := by
  have hexec := exec_arbitration hact
  rw [hw] at hexec
  refine ⟨_, hexec, ?_⟩
  simp only [State.award, sht_modSht_self]
  refine ⟨rfl, trivial, fun k => reqs_sampled.2, fun j hj => sht_modSht_ne hj, ?_⟩
  rw [forwarded_frame]
  rfl

/-! ### A cut (R312) -/

/-- The port after a cut: the undelivered beats are back at the head of the owner's queue, the credit that delivered
beats did not use is back up to the cap, and the owner sits out. -/
def ShtInst.cutBack (t : ShtInst) (g : Grant) (d cap : Nat) : ShtInst :=
  { t.mod g.req fun q =>
      { q.putBack g.source { addr := g.burst.addr + 64 * d, beats := g.burst.beats - d } with
        credit := max q.credit (min (q.credit + (g.deducted - d)) cap) } with
    owner := none, sitOut := some g.req }

/-- What differs from a state in registers, event records and the board alone. -/
theorem State.based.eq_of_rest (h : t.based s) : t = { s with regs := t.regs, events := t.events, board := t.board } := by
  cases t
  cases s
  simp only [State.based] at h
  simp [h]

theorem exec_holdLimitCut_kept (hown : s.sht[i.val].owner = some g)
    (h : g.burst.beats ≤ d ∨ g.slots + s.shtSlots i < s.shtLimit i g.req) : exec (.holdLimitCut i d) s = .next s := by
  change Host.Outcome.next _ = _
  rw [hown]
  exact congrArg Host.Outcome.next (if_pos (h.imp_right .inr))

/-- The record that a cut raises (R312, R487). -/
def State.cutEvent (s : State) (i : Fin 4) (g : Grant) : Ev := {
  source := 0x043, cls := 0x07, severity := 2, inst := g.req.val, detail := [BitVec.ofNat 8 i.val]
  affected := if h : g.req.val < 8 then partBit ⟨g.req.val, h⟩ else s.allPartBits }

/-- The state once a cut has forwarded what was delivered and put the rest back (R312). -/
def State.cutAt (s : State) (i : Fin 4) (g : Grant) (d : Nat) : State :=
  (s.shtForward i { g.burst with beats := d }).modSht i fun t => t.cutBack g d (s.shtCap i g.req)

/-- A cut is counted, and its undelivered beats are granted no longer (R312, R320). -/
def State.countCut (s : State) (i : Fin 4) (g : Grant) (d : Nat) : State :=
  ((s.set (F.shtBeatsBeats i g.req) (s.get (F.shtBeatsBeats i g.req) - (g.burst.beats - d))).raiseBit
    (F.shtIStatHoldCut i)).bump (F.shtCutsCuts i g.req)

theorem exec_holdLimitCut_cut (hact : s.shtActive i = true) (hown : s.sht[i.val].owner = some g) (hd : d < g.burst.beats)
    (hlim : s.shtLimit i g.req ≤ g.slots + s.shtSlots i) :
    exec (.holdLimitCut i d) s
      = .next (((s.cutAt i g d).countCut i g d).report (((s.cutAt i g d).countCut i g d).cutEvent i g)) := by
  change Host.Outcome.next _ = _
  rw [hown]
  exact congrArg Host.Outcome.next (if_neg (by simp [hact]; omega))

theorem cutAt_frame : s.cutAt i g d = { s with sht := (s.cutAt i g d).sht } :=
  congrArg (fun x : State => { x with sht := (s.cutAt i g d).sht }) (shtForward_frame _).1

theorem sht_cutAt : (s.cutAt i g d).sht[i.val] = s.sht[i.val].cutBack g d (s.shtCap i g.req) := by
  rw [State.cutAt, sht_modSht_self, (shtForward_frame _).2]

theorem countCut_regsOver : (s.countCut i g d).regsOver s := by
  unfold State.countCut State.bump
  exact addTo_regsOver.trans (raiseBit_regsOver.trans set_regsOver)

/-- A cut's count lies above the port's status and the requester's granted beats. -/
theorem cuts_above : (F.shtIStatHoldCut i).key + 4 < (F.shtCutsCuts i k).key
    ∧ (F.shtBeatsBeats i k).key + 4 < (F.shtCutsCuts i k).key := by
  simp only [F.shtCutsCuts, F.shtBeatsBeats, F.shtIStatHoldCut, regKey]
  omega

theorem flag_countCut : (s.countCut i g d).flag (F.shtIStatHoldCut i) = true :=
  (flag_set_apart rfl (apart_of_key_lt cuts_above.1).2 _).trans (flag_raiseBit rfl rfl)

theorem get_countCut :
    (s.countCut i g d).get (F.shtCutsCuts i g.req) = min (s.get (F.shtCutsCuts i g.req) + 1) 0xFFFFFFFF := by
  refine (get_addTo_self rfl 1).trans ?_
  rw [State.raiseBit, get_set_apart rfl (apart_of_key_lt cuts_above.1).1, get_set_apart rfl (apart_of_key_lt cuts_above.2).1]
  rfl

/-- A field of the arbiter's window reads as before a report. -/
theorem get_report {f : Fld} {ev : Ev} (hf : f.ofInst i) : (s.report ev).get f = s.get f := by
  obtain ⟨⟨hkey, -⟩, hkey', -⟩ := hf
  exact (reportAt_sameRegs (W := (· = 0x4C)) rfl s.time ev).get ⟨by omega, by omega⟩

theorem holdLimitCut_cut (hact : s.shtActive i = true) (hown : s.sht[i.val].owner = some g) (hd : d < g.burst.beats)
    (hlim : s.shtLimit i g.req ≤ g.slots + s.shtSlots i) :
    ∃ t, exec (.holdLimitCut i d) s = .next t
      ∧ t.sht[i.val] = s.sht[i.val].cutBack g d (s.shtCap i g.req)
      ∧ t.flag (F.shtIStatHoldCut i) = true
      ∧ t.get (F.shtCutsCuts i g.req) = min (s.get (F.shtCutsCuts i g.req) + 1) 0xFFFFFFFF
      ∧ t = { s with sht := t.sht, regs := t.regs, events := t.events, board := t.board } := by
  have hbased : (((s.cutAt i g d).countCut i g d).report (((s.cutAt i g d).countCut i g d).cutEvent i g)).based
      ((s.cutAt i g d).countCut i g d) := State.report_based State.based_refl
  refine ⟨_, exec_holdLimitCut_cut hact hown hd hlim, ?_, ?_, ?_, ?_⟩
  · simp only [hbased.sht, countCut_regsOver.sht]
    exact sht_cutAt
  · exact (congrArg (· != 0) (get_report statBit_ofInst)).trans flag_countCut
  · have hcuts : (F.shtCutsCuts i g.req).ofInst i := reqField_ofInst g.req.isLt (by decide) (by decide)
    rw [get_report hcuts, get_countCut, get_of_regs (s := s) (by rw [cutAt_frame])]
  · rw [hbased.eq_of_rest, countCut_regsOver, cutAt_frame]

end

end Sys2Proof.Machine
end

section
/-!
PROOFS. Window boundaries of the shuttle arbiter (R307, R313, R314, R319): what a commit applies or refuses, and what a boundary
leaves of a port in use.
-/

namespace Sys2Proof.Machine

section
variable {s t u : State} {i j : Fin 4} {k x : Nat}

/-! ### Keys of a port's words (R320) -/

theorem starvedWord_ne_weight {r : Fin 10} : shtWeightKey i k ≠ (F.shtStarvedWindows i r).key
    ∧ shtWeightKey i k + 0x80000 ≠ (F.shtStarvedWindows i r).key := by
  unfold shtWeightKey F.shtStarvedWindows regKey
  dsimp only
  omega

theorem statWord_ne_weight : shtWeightKey i k ≠ (F.shtIStatCommitPending i).key
    ∧ shtWeightKey i k + 4 ≠ (F.shtIStatCommitPending i).key
    ∧ shtWeightKey i k + 0x80000 ≠ (F.shtIStatCommitPending i).key := by
  unfold shtWeightKey F.shtIStatCommitPending regKey
  dsimp only
  omega

theorem weightKey_ne {r : Nat} (h : k ≠ r) :
    shtWeightKey i k ≠ shtWeightKey i r ∧ shtWeightKey i k ≠ shtWeightKey i r + 4 := by
  unfold shtWeightKey regKey
  omega

theorem weightShadow_ne {r : Nat} (hk : k < 10) (hr : r < 10) :
    shtWeightKey i k + 0x80000 ≠ shtWeightKey i r ∧ shtWeightKey i k + 0x80000 ≠ shtWeightKey i r + 4 := by
  unfold shtWeightKey regKey
  omega

theorem shtCount_le : shtCount i ≤ 10 := by
  unfold shtCount
  split <;> decide

/-! ### Starved requesters (R319) -/

/-- The counts of windows in which requesters starved, at a boundary (R319). -/
def State.countStarved (s : State) (i : Fin 4) : State :=
  let t := s.sht[i.val]
  (List.finRange 10).foldl (fun s (r : Fin 10) =>
    if t.arbitrated && t.reqs[r.val].missed && decide (r.val < shtCount i) then s.bump (F.shtStarvedWindows i r) else s) s

theorem countStarved_regsOver : (s.countStarved i).regsOver s :=
  foldl_over (R := State.regsOver) (fun _ => rfl) State.regsOver.trans fun s r => by
    split
    · exact addTo_regsOver
    · rfl

theorem countStarved_keepsInst (hij : j ≠ i) : (s.countStarved j).keepsInst i s :=
  foldl_keepsInst fun r _ s => by
    split
    · have hf : (F.shtStarvedWindows j r).ofInst j := reqField_ofInst r.isLt (by decide) (by decide)
      exact set_keepsInst hij hf
    · exact State.keepsInst_refl

theorem reg_countStarved (hx : ∀ r : Fin 10, x ≠ (F.shtStarvedWindows i r).key) : (s.countStarved i).reg x = s.reg x :=
  foldl_field (g := fun s => s.reg x) fun s r => by
    split
    · exact reg_set_ne (hx r)
    · rfl

/-! ### Commits (R313, R314) -/

/-- One requester's staged fields apply (R313). -/
def State.applyReq (s : State) (i : Fin 4) (r : Nat) : State :=
  (s.setReg (shtWeightKey i r) (s.reg (shtWeightKey i r + 0x80000))).setReg (shtWeightKey i r + 4)
    (s.reg (shtWeightKey i r + 4 + 0x80000))

theorem shtApply_eq : s.shtApply i = (List.range (shtCount i)).foldl (fun s r => s.applyReq i r) s := rfl

theorem reg_foldl_applyReq_ne {l : List Nat} (h : ∀ r ∈ l, x ≠ shtWeightKey i r ∧ x ≠ shtWeightKey i r + 4) :
    (l.foldl (fun s r => s.applyReq i r) s).reg x = s.reg x :=
  List.foldlRecOn (motive := fun u : State => u.reg x = s.reg x) l _ rfl fun u hu r hr => by
    rw [State.applyReq, reg_setReg_ne _ (h r hr).2, reg_setReg_ne _ (h r hr).1, hu]

/-- Every requester's weight and ceiling become those staged. -/
theorem reg_shtApply_weight (hk : k < shtCount i) :
    (s.shtApply i).reg (shtWeightKey i k) = s.reg (shtWeightKey i k + 0x80000) := by
  have hcount := shtCount_le (i := i)
  obtain ⟨l, m, hlm⟩ := List.append_of_mem (List.mem_range.mpr hk)
  obtain ⟨-, hm, -⟩ := List.nodup_append.mp (hlm ▸ List.nodup_range : (l ++ k :: m).Nodup)
  have hl : ∀ r ∈ l, r < shtCount i := fun r hr => List.mem_range.mp (hlm ▸ List.mem_append_left _ hr)
  rw [shtApply_eq, hlm, List.foldl_append, List.foldl_cons,
    reg_foldl_applyReq_ne fun r hr => weightKey_ne (ne_of_mem_of_not_mem hr (List.nodup_cons.mp hm).1).symm,
    State.applyReq, reg_setReg_ne _ (by omega), reg_setReg_self,
    reg_foldl_applyReq_ne fun r hr => weightShadow_ne (by omega) (by have := hl r hr; omega)]

theorem shtApply_regsOver : (s.shtApply i).regsOver s :=
  foldl_setReg_regsOver fun _ _ => setReg_regsOver.trans setReg_regsOver

theorem shtApply_keepsInst (hij : j ≠ i) : (s.shtApply j).keepsInst i s :=
  foldl_keepsInst fun r hr s => by
    have hr' : r < 10 := (List.mem_range.mp hr).trans_le shtCount_le
    exact (setReg_keepsInst hij (shtBlock_weight hr').2).trans (setReg_keepsInst hij (shtBlock_weight hr').1)

/-- The state once a port's armed commit is over (R313). -/
def State.disarm (s : State) (i : Fin 4) : State :=
  (s.modSht i fun t => { t with armed := false }).set (F.shtIStatCommitPending i) 0

/-- The staged weight of requester 8 is not below its least (R314). -/
def State.commitAllowed (s : State) (i : Fin 4) : Prop :=
  shtFloor i ≤ bitsAt (s.reg (shtWeightKey i 8 + 0x80000)).toNat 0 16

theorem sht_disarm : (s.disarm i).sht[i.val] = { s.sht[i.val] with armed := false } := by
  have h : (s.disarm i).sht = (s.modSht i fun t => { t with armed := false }).sht := set_regsOver.sht
  simp only [h, sht_modSht_self]

theorem reg_disarm (hx : x ≠ (F.shtIStatCommitPending i).key) : (s.disarm i).reg x = s.reg x := reg_set_ne hx

/-- An armed commit is over at the boundary: it applies, or it is refused. -/
theorem shtBoundaryCommit_cases (s : State) (i : Fin 4) :
    (s.sht[i.val].armed = false ∧ s.shtBoundaryCommit i = s) ∨
    (s.sht[i.val].armed = true ∧ s.commitAllowed i ∧ s.shtBoundaryCommit i = (s.disarm i).shtApply i) ∨
    (s.sht[i.val].armed = true ∧ ¬ s.commitAllowed i
      ∧ s.shtBoundaryCommit i = (s.disarm i).raiseBit (F.shtIStatCommitRefused i)) := by
  have hshadow : (s.disarm i).reg (shtWeightKey i 8 + 0x80000) = s.reg (shtWeightKey i 8 + 0x80000) :=
    reg_disarm statWord_ne_weight.2.2
  unfold State.shtBoundaryCommit State.commitAllowed
  rw [← hshadow]
  by_cases ha : s.sht[i.val].armed = false
  · exact .inl ⟨ha, if_pos ha⟩
  · rw [if_neg ha]
    by_cases hw : bitsAt ((s.disarm i).reg (shtWeightKey i 8 + 0x80000)).toNat 0 16 < shtFloor i
    · exact .inr (.inr ⟨by simpa using ha, hw.not_ge, if_pos hw⟩)
    · exact .inr (.inl ⟨by simpa using ha, Nat.not_lt.mp hw, if_neg hw⟩)

theorem disarm_keepsInst (hij : j ≠ i) : (s.disarm j).keepsInst i s :=
  (set_keepsInst hij statBit_ofInst).trans (modSht_keepsInst hij)

theorem shtBoundaryCommit_keepsInst (hij : j ≠ i) : (s.shtBoundaryCommit j).keepsInst i s := by
  rcases shtBoundaryCommit_cases s j with ⟨-, e⟩ | ⟨-, -, e⟩ | ⟨-, -, e⟩ <;> rw [e]
  · exact State.keepsInst_refl
  · exact (shtApply_keepsInst hij).trans (disarm_keepsInst hij)
  · exact (set_keepsInst hij statBit_ofInst).trans (disarm_keepsInst hij)

/-- After a boundary no commit is armed, and the rest of the port is as it was. -/
theorem sht_shtBoundaryCommit : (s.shtBoundaryCommit i).sht[i.val] = { s.sht[i.val] with armed := false } := by
  rcases shtBoundaryCommit_cases s i with ⟨ha, e⟩ | ⟨-, -, e⟩ | ⟨-, -, e⟩ <;> rw [e]
  · rw [← ha]
  · simp only [shtApply_regsOver.sht, sht_disarm]
  · simp only [raiseBit_regsOver.sht, sht_disarm]

/-- Weights and ceilings become those staged where an armed commit is allowed. -/
theorem reg_shtBoundaryCommit_applied (ha : s.sht[i.val].armed = true) (hok : s.commitAllowed i) (hk : k < shtCount i) :
    (s.shtBoundaryCommit i).reg (shtWeightKey i k) = s.reg (shtWeightKey i k + 0x80000) := by
  rcases shtBoundaryCommit_cases s i with ⟨h, -⟩ | ⟨-, -, e⟩ | ⟨-, h, -⟩
  · exact absurd ha (by simp [h])
  · rw [e, reg_shtApply_weight hk, reg_disarm statWord_ne_weight.2.2]
  · exact absurd hok h

/-- Without an armed commit that is allowed they stay. -/
theorem reg_shtBoundaryCommit_kept (h : ¬ (s.sht[i.val].armed = true ∧ s.commitAllowed i)) :
    (s.shtBoundaryCommit i).reg (shtWeightKey i k) = s.reg (shtWeightKey i k) := by
  rcases shtBoundaryCommit_cases s i with ⟨-, e⟩ | ⟨ha, hok, -⟩ | ⟨-, -, e⟩
  · rw [e]
  · exact absurd ⟨ha, hok⟩ h
  · rw [e]
    exact (reg_set_ne statWord_ne_weight.1).trans (reg_disarm statWord_ne_weight.1)

/-- A commit that would leave requester 8 too little is refused, and shows it (R314). -/
theorem flag_refused (ha : s.sht[i.val].armed = true) (hno : ¬ s.commitAllowed i) :
    (s.shtBoundaryCommit i).flag (F.shtIStatCommitRefused i) = true := by
  rcases shtBoundaryCommit_cases s i with ⟨h, -⟩ | ⟨-, h, -⟩ | ⟨-, -, e⟩
  · exact absurd ha (by simp [h])
  · exact absurd h hno
  · rw [e]
    exact flag_raiseBit rfl rfl

theorem flag_disarm : (s.disarm i).flag (F.shtIStatCommitPending i) = false := by
  rw [State.flag, State.disarm, get_set_self rfl]
  rfl

/-- A commit that was armed is pending no longer (R313, R314). -/
theorem flag_pending (ha : s.sht[i.val].armed = true) : (s.shtBoundaryCommit i).flag (F.shtIStatCommitPending i) = false := by
  rcases shtBoundaryCommit_cases s i with ⟨h, -⟩ | ⟨-, -, e⟩ | ⟨-, -, e⟩
  · exact absurd ha (by simp [h])
  · have hword : ((s.disarm i).shtApply i).reg (F.shtIStatCommitPending i).key
        = (s.disarm i).reg (F.shtIStatCommitPending i).key :=
      reg_foldl_applyReq_ne fun r _ => ⟨statWord_ne_weight.1.symm, statWord_ne_weight.2.1.symm⟩
    rw [e, ← flag_disarm (s := s) (i := i)]
    exact congrArg (· != 0) (get_of_word rfl hword)
  · rw [e]
    exact (flag_set_apart rfl (apart_of_word (.inr (by decide))) _).trans flag_disarm

/-! ### A boundary of one port (R307) -/

/-- A port's counters refilled (R307). -/
def ShtInst.refilled (t : ShtInst) (cap weight : Nat → Nat) : ShtInst :=
  { (List.finRange 10).foldl (fun (t : ShtInst) r => t.mod r fun q =>
      { q with credit := min (min q.credit (cap r) + weight r) (cap r), missed := true }) t with
    arbitrated := false }

theorem reqs_refilled {t : ShtInst} {cap weight : Nat → Nat} {r : Fin 10} :
    (t.refilled cap weight).reqs[r.val].credit = min (min t.reqs[r.val].credit (cap r) + weight r) (cap r) :=
  congrArg ShtReq.credit (reqs_foldl_mod (t := t) (k := r)
    (g := fun r q => { q with credit := min (min q.credit (cap r) + weight r) (cap r), missed := true }))

/-- The refill changes requesters and starts a new window. -/
theorem refilled_frame {t : ShtInst} {cap weight : Nat → Nat} :
    t.refilled cap weight = { t with reqs := (t.refilled cap weight).reqs, arbitrated := false } :=
  congrArg (fun x : ShtInst => { x with arbitrated := false }) (foldl_mod_frame
    (g := fun r q => { q with credit := min (min q.credit (cap r) + weight r) (cap r), missed := true }))

/-- The state at a port's boundary before the refill: starvation is counted, and an armed commit is over. -/
def State.committed (s : State) (i : Fin 4) : State := (s.countStarved i).shtBoundaryCommit i

theorem shtBoundary_active (hact : s.shtActive i = true) :
    s.shtBoundary i = (s.committed i).modSht i fun t =>
      t.refilled (fun r => (s.committed i).shtCap i r) (fun r => (s.committed i).get (F.shtWeightWeight i r)) :=
  if_neg (by simp [hact])

theorem shtBoundary_idle (hact : s.shtActive i = false) : s.shtBoundary i = s := if_pos (by simp [hact])

theorem shtBoundary_keepsInst (hij : j ≠ i) : (s.shtBoundary j).keepsInst i s := by
  by_cases hact : s.shtActive j = true
  · rw [shtBoundary_active hact]
    exact (modSht_keepsInst hij).trans ((shtBoundaryCommit_keepsInst hij).trans (countStarved_keepsInst hij))
  · rw [shtBoundary_idle (by simpa using hact)]
    exact State.keepsInst_refl

theorem shtBoundary_shuttle : (s.shtBoundary j).shuttleOver s := by
  obtain ⟨i, hi⟩ := exists_ne j
  exact (shtBoundary_keepsInst hi.symm).1

/-- A boundary changes no word outside the ports' blocks. -/
theorem reg_shtBoundary (hx : ∀ i, ¬ shtBlock i x) : (s.shtBoundary j).reg x = s.reg x := by
  obtain ⟨i, hi⟩ := exists_ne j
  exact (shtBoundary_keepsInst hi.symm).2.2 x fun j _ => hx j

/-! ### The row (R307, R313) -/

/-- Adding to a counter leaves the words that are not its own. -/
theorem reg_addTo_ne {f : Fld} {n : Nat} (h0 : x ≠ f.key) (h4 : x ≠ f.key + 4) : (s.addTo f n).reg x = s.reg x := by
  unfold State.addTo State.set State.setReg64
  split
  · rw [reg_setReg_ne _ h4, reg_setReg_ne _ h0]
  · rw [reg_setReg_ne _ h0]

/-- The count of windows is no register of a port (R320). -/
theorem windows_outside : ¬ shtBlock i F.shtWindowWindows.key ∧ ¬ shtBlock i (F.shtWindowWindows.key + 4) := by
  unfold shtBlock F.shtWindowWindows regKey
  dsimp only
  omega

/-- Every port's boundary, once the window is counted. -/
def State.boundaries (s : State) : State := (List.finRange 4).foldl (fun s i => s.shtBoundary i) (s.bump F.shtWindowWindows)

theorem boundaries_shuttle : s.boundaries.shuttleOver s :=
  (foldl_over (R := State.shuttleOver) (fun _ => rfl) State.shuttleOver.trans fun _ _ => shtBoundary_shuttle).trans
    addTo_regsOver.shuttle

theorem get_windows_boundaries :
    s.boundaries.get F.shtWindowWindows = min (s.get F.shtWindowWindows + 1) (2 ^ 64 - 1) := by
  have hreg : ∀ x, (∀ i, ¬ shtBlock i x) → s.boundaries.reg x = (s.bump F.shtWindowWindows).reg x := fun x hx =>
    foldl_field (g := fun s => s.reg x) fun _ _ => reg_shtBoundary hx
  refine Eq.trans ?_ (get_addTo_self rfl 1)
  simp only [State.get, State.reg64, hreg _ fun _ => windows_outside.1, hreg _ fun _ => windows_outside.2]
  rfl

/-- For a port in use, the row is the commit and the refill of that port, from a state in which the port and its weights and
ceilings, staged ones included, stand as they did. -/
theorem boundaries_inst (hact : s.shtActive i = true) :
    ∃ a : State, a.sht[i.val] = s.sht[i.val]
      ∧ (∀ k, k < 10 → a.reg (shtWeightKey i k) = s.reg (shtWeightKey i k)
        ∧ a.reg (shtWeightKey i k + 0x80000) = s.reg (shtWeightKey i k + 0x80000))
      ∧ s.boundaries.keepsInst i ((a.shtBoundaryCommit i).modSht i fun t =>
          t.refilled (fun r => (a.shtBoundaryCommit i).shtCap i r)
            fun r => (a.shtBoundaryCommit i).get (F.shtWeightWeight i r)) := by
  obtain ⟨a, ha, ht⟩ := foldl_instances (s := s.bump F.shtWindowWindows) (i := i) (g := fun s i => s.shtBoundary i)
    fun _ _ => shtBoundary_keepsInst
  have hreg : ∀ x, shtBlock i x → a.reg x = s.reg x := fun x hx =>
    (ha.reg hx).trans (reg_addTo_ne (fun e => windows_outside.1 (e ▸ hx)) fun e => windows_outside.2 (e ▸ hx))
  have haact : a.shtActive i = true :=
    (congrArg (· != 0) (get_of_word (f := F.shtIStatActive i) rfl (hreg _ shtBlock_statWord))).trans hact
  refine ⟨a.countStarved i, ?_, fun k hk => ⟨?_, ?_⟩, shtBoundary_active haact ▸ ht⟩
  · simp only [countStarved_regsOver.sht, ha.2.1, State.bump, addTo_regsOver.sht]
  · exact (reg_countStarved fun r => starvedWord_ne_weight.1).trans (hreg _ (shtBlock_weight hk).1)
  · exact (reg_countStarved fun r => starvedWord_ne_weight.2).trans (hreg _ (shtBlock_weightShadow hk))

/-- At a boundary every counter of a port in use is refilled and an armed commit is over: applied, or refused (R307,
R313, R314). -/
theorem boundaries_refill_and_commit (hact : s.shtActive i = true) :
    s.boundaries.sht[i.val].armed = false
      ∧ (∀ r : Fin 10, s.boundaries.sht[i.val].reqs[r.val].credit
          = min (min s.sht[i.val].reqs[r.val].credit (s.boundaries.shtCap i r) + s.boundaries.get (F.shtWeightWeight i r))
              (s.boundaries.shtCap i r))
      ∧ (s.sht[i.val].armed = true → s.commitAllowed i →
          ∀ k, k < shtCount i → s.boundaries.reg (shtWeightKey i k) = s.reg (shtWeightKey i k + 0x80000))
      ∧ (¬ (s.sht[i.val].armed = true ∧ s.commitAllowed i) →
          ∀ k, k < shtCount i → s.boundaries.reg (shtWeightKey i k) = s.reg (shtWeightKey i k))
      ∧ (s.sht[i.val].armed = true → ¬ s.commitAllowed i → s.boundaries.flag (F.shtIStatCommitRefused i) = true)
      ∧ (s.sht[i.val].armed = true → s.boundaries.flag (F.shtIStatCommitPending i) = false) := by
  obtain ⟨a, hinst, hword, hkeep⟩ := boundaries_inst hact
  have hallowed : a.commitAllowed i ↔ s.commitAllowed i := by
    unfold State.commitAllowed
    rw [(hword 8 (by decide)).2]
  have hget : ∀ f : Fld, f.ofInst i → s.boundaries.get f = (a.shtBoundaryCommit i).get f := fun f hf =>
    (hkeep.get hf).trans (get_of_regs rfl f)
  have hcap : ∀ r : Fin 10, s.boundaries.shtCap i r = (a.shtBoundaryCommit i).shtCap i r := fun r => by
    have hceil : (F.shtWeightCeiling i r).ofInst i := reqField_ofInst r.isLt (by decide) (by decide)
    have hweight : (F.shtWeightWeight i r).ofInst i := reqField_ofInst r.isLt (by decide) (by decide)
    unfold State.shtCap
    rw [hget _ hceil, hget _ hweight]
  have hreg : ∀ k, k < shtCount i → s.boundaries.reg (shtWeightKey i k) = (a.shtBoundaryCommit i).reg (shtWeightKey i k) :=
    fun k hk => hkeep.reg (shtBlock_weight (hk.trans_le shtCount_le)).1
  refine ⟨?_, fun r => ?_, fun ha hok k hk => ?_, fun hno k hk => ?_, fun ha hno => ?_, fun ha => ?_⟩
  · rw [hkeep.2.1, sht_modSht_self, refilled_frame, sht_shtBoundaryCommit]
  · have hweight : (F.shtWeightWeight i r).ofInst i := reqField_ofInst r.isLt (by decide) (by decide)
    rw [hcap, hget _ hweight]
    simp only [hkeep.2.1, sht_modSht_self, reqs_refilled, sht_shtBoundaryCommit, hinst]
  · rw [hreg k hk, reg_shtBoundaryCommit_applied (by rwa [hinst]) (hallowed.mpr hok) hk, (hword k (hk.trans_le shtCount_le)).2]
  · rw [hreg k hk, reg_shtBoundaryCommit_kept (by rwa [hinst, hallowed]), (hword k (hk.trans_le shtCount_le)).1]
  · exact (congrArg (· != 0) (hget _ statBit_ofInst)).trans (flag_refused (by rwa [hinst]) (by rwa [hallowed]))
  · exact (congrArg (· != 0) (hget _ statBit_ofInst)).trans (flag_pending (by rwa [hinst]))

end

end Sys2Proof.Machine
end

section
/-!
PROOFS. O54: commit writes reach the arbiter (R313, R361), a window boundary of a port in use, and with bursts, arbitrations
and cuts the obligation on the shuttle arbiter.
-/

namespace Sys2Proof.Machine

section
variable {s : State} {i : Fin 4} {q : Requester} {v : Word}

/-! ### SHT_COMMIT (R313) -/

/-- SHT_COMMIT is a register whose writes start something. -/
theorem shtCommit_starts : (findReg (windowRegs 0x43) 0).any RegHit.starts = true := by decide +kernel

/-- By one of the module's own blocks, past its gate, a commit write arms the ports it names (R313, R361). -/
theorem exec_shtCommit (hq : nonSecure q = false) (hpass : s.passes q) :
    exec (.shtCommit q v) s = .next (s.shtArm (v.toNat % 16)) := by
  obtain ⟨h, hf, hs⟩ := exists_starts shtCommit_starts
  have hwrite : exec (.shtCommit q v) s = .next (s.writeWindow q 0x43 0 v) :=
    exec_registerWrite_own rfl hq (by decide) (by decide) rfl fun _ => hpass
  rw [hwrite, writeWindow_starts hq hf hs (by decide) rfl rfl rfl (by decide) (by decide) (by decide) (by decide)]
  rfl

/-- Bit i of the word written names port i. -/
theorem named_iff : bitsAt (v.toNat % 16) i.val 1 = 1 ↔ v.getLsbD i.val = true := by
  rw [show 16 = 2 ^ 4 from rfl, bitsAt_mod _ _ _ _ (by omega), BitVec.getLsbD, Nat.testBit_eq_decide_div_mod_eq,
    decide_eq_true_eq]
  rfl

/-! ### A window boundary (R307, R313, R314) -/

theorem exec_windowBoundary_on (h : s.board.supply = .on) : exec .windowBoundary s = .next s.boundaries :=
  congrArg Host.Outcome.next (if_pos h)

theorem exec_windowBoundary_off (h : s.board.supply ≠ .on) : exec .windowBoundary s = .next s :=
  congrArg Host.Outcome.next (if_neg h)

end

/-! ### The obligation -/

/-- Settles O54, clause by clause: bursts, requests, arbitrations, cuts, window boundaries and commit writes. In the clause on
a cut, the statement's filter of the other sources' bursts takes all that follows it into its predicate; each of those facts is
proved here, so that the filter is that of the other sources. -/
theorem arbiterGrantsAndCredits : Obligations.ArbiterGrantsAndCredits := by
  unfold Obligations.ArbiterGrantsAndCredits
  intro s i _ hact a
  refine ⟨fun addr n b hb => cutBursts_fits hb, fun src addr n hsrc => ⟨fun r hr => ?_, fun hr => ?_⟩, ⟨?_, ?_⟩,
    fun g d hown => ⟨fun h => exec_holdLimitCut_kept hown h, fun hd hlim => ?_⟩, exec_windowBoundary_off, fun hon => ?_,
    fun q v hq hpass => ?_⟩
  · refine congrArg Host.Outcome.next ?_
    rw [hr]
    exact if_pos (by simp [hact, hsrc])
  · refine congrArg Host.Outcome.next ?_
    rw [hr]
  · intro r src b own rest hqueue hsit hbest
    refine arbitration_granted hact hqueue (winner_eq_some (competes_sampled.mpr ⟨?_, hsit⟩) fun k hk hkr => ?_)
    · exact fun e => by simp [show s.sht[i.val].reqs[r.val].queue = _ from hqueue] at e
    · obtain ⟨hwaits, hin⟩ := competes_sampled.mp hk
      rw [reqs_sampled.2, reqs_sampled.2]
      exact hbest k hwaits hin hkr
  · exact fun hidle => arbitration_idle hact (winner_eq_none fun k hk => by
      obtain ⟨hwaits, hin⟩ := competes_sampled.mp hk
      exact (hidle k).elim hwaits hin)
  · intro q
    obtain ⟨t, hexec, hinst, hflag, hcuts, hframe⟩ := holdLimitCut_cut hact hown hd hlim
    have hcredit : t.sht[i.val].reqs[g.req.val].credit
        = max q.credit (min (q.credit + (g.deducted - d)) (s.shtCap i g.req)) := by
      simp only [hinst, ShtInst.cutBack, reqs_mod_self]
      rfl
    have howner : t.sht[i.val].owner = none := by rw [hinst]; rfl
    have hsit : t.sht[i.val].sitOut = some g.req := by rw [hinst]; rfl
    let left : Burst := { addr := g.burst.addr + 64 * d, beats := g.burst.beats - d }
    refine ⟨t, hexec, Eq.trans (b := (q.putBack g.source left).queue) ?_
      (congrArg (List.cons _) (List.filter_congr fun x _ => ?_))⟩
    · simp only [hinst, ShtInst.cutBack, reqs_mod_self]
      rfl
    · rw [Bool.eq_iff_iff, decide_eq_true_iff, and_iff_left ⟨hcredit, howner, hsit, hflag, hcuts, hframe⟩]
  · obtain ⟨hdisarmed, hcredit, happlied, hkept, hrefused, hpending⟩ := boundaries_refill_and_commit hact
    refine ⟨_, exec_windowBoundary_on hon, hdisarmed, get_windows_boundaries, hcredit, ⟨fun r hr => ?_, hrefused, hpending⟩,
      boundaries_shuttle⟩
    split
    · next h => exact happlied h.1 h.2 r hr
    · next h => exact hkept h r hr
  · refine ⟨_, exec_shtCommit hq hpass, fun hbit => ?_, fun hbit => ?_, fun r => ?_, shtArm_shuttle _⟩
    · obtain ⟨hsht, hflag⟩ := shtArm_named (named_iff.mpr hbit) hact
      exact ⟨by rw [hsht], hflag⟩
    · exact shtArm_unnamed fun h => by simp [named_iff.mp h.1] at hbit
    · by_cases hbit : v.getLsbD i.val = true
      · simp only [(shtArm_named (named_iff.mpr hbit) hact).1]
      · simp only [shtArm_unnamed (s := s) fun h => hbit (named_iff.mp h.1)]

end Sys2Proof.Machine
end
